-- ==== Sys2Proof/Word.lean ====
section
/-! DEFINITION. The plain words of the part: bytes and the register widths of R18, and the one sparse
finite map that every table, memory and register file of the model is kept in. -/

namespace Sys2Proof

/-- A byte of any memory. -/
abbrev Byte := BitVec 8

/-- A 32-bit register or payload word (R18). -/
abbrev W32 := BitVec 32

/-- A 64-bit register or packet word (R18). -/
abbrev W64 := BitVec 64

/-- A sparse table: key and value pairs with strictly rising keys. An absent key stands for the value
the reader of the table names (an unlisted byte reads as zero, an unlisted gauge holds 0). -/
abbrev Assoc (α : Type) := List (Nat × α)

end Sys2Proof
end

