-- ==== Sys2Proof/Syntax.lean ====
section
/-! DEFINITION. The commands of the block: one constructor of `Instr` for each row of
spec/opcode_table.json. What the part itself holds (the packet at the head of a ring, the step of a
tile program, the message at the head of a queue) is read from the state; an operand names WHERE the
step happens or carries what only the outside gives it. -/

namespace Sys2Proof

/-- Where a message stands at a router: its five ports (R156), `tile` being the local one, and `node`, the tree node with the
results that wait in its combine buffer to leave (R176, Table 7.7). -/
inductive Side where
  | north | east | south | west | tile | node
deriving DecidableEq, Repr

/-- What a SEC-DED code finds at a read (R207), or how the far end completes a write (R293). -/
inductive Ecc where
  | clean | corrected | uncorrectable
deriving DecidableEq, Repr

/-- Bits found flipped when a 64-byte word is read (R150, R151, R265): data and check bits of the `piece`-th word of the read, and
copies of its poison mark. -/
structure Flips where
  piece : Nat
  data : BitVec 512
  check : BitVec 16
  marks : BitVec 3
deriving DecidableEq, Repr

/-- A command ring: the privileged ring or the ring of one context (12, Rings). `upset`: one of the words of HBM3E or LP5X memory
that its command reads, its packet first, is read with flipped bits (R265). `failing`: the host completes what the command writes to it
with an error (R293). -/
inductive Ring where
  | priv
  | user (c : BitVec 6)
  | upset (r : Ring) (f : Flips)
  | failing (r : Ring)
deriving DecidableEq, Repr

/-- Bits found flipped in one flit of a message on a link (R167, R168): the flit by its number, its 128 bytes as one
little-endian number, and the parity bits of its sideband. What the receiver makes of them follows from the parity. -/
structure FlitError where
  flit : BitVec 6
  data : BitVec 1024
  par : BitVec 16
deriving DecidableEq, Repr

/-- A store that a scrubber walks (R368). -/
inductive ScrubStore where
  | tile (p : BitVec 11)
  | hbm (u : BitVec 3)
  | lp5x (u : BitVec 3)
deriving DecidableEq, Repr

/-- One CXL.mem access of the host to a 64-byte line (R137, R294): a read, or a write of the bytes
whose enable bit is set, with or without CXL poison. -/
inductive HostOp where
  | read
  | write (enables : BitVec 64) (line : BitVec 512) (poison : Bool)
deriving DecidableEq, Repr

/-- What the boot ROM or the security engine finds of a firmware image (Table 16.3): the parts of the
checks of Table 16.4 that are facts about the image's bytes. -/
structure FwImage where
  formOk : Bool            -- check 1: reads without error; magic, version, length, zero fields
  family : BitVec 16       -- bytes 6-7
  version : W32            -- bytes 8-11
  svn : Byte               -- byte 12
  slot : Byte              -- byte 13
  keyHash : BitVec 256     -- SHA-256 of bytes 24-71
  digestOk : Bool          -- check 4
  sigOk : Bool             -- check 5 (FIPS 205 verification)
  measurement : BitVec 256 -- SHA-256 of the whole image (R401)
deriving DecidableEq, Repr

/-- What the board and the units show at a boot (Tables 17.2, 17.4, 17.5, 16.9). Masks have one bit
per unit. -/
structure Board where
  flash : Bool                      -- a flash answers
  bankA : Option FwImage            -- what the ROM reads in bank A
  bankB : Option FwImage
  selfTest : BitVec 4               -- failing power-up self-test of codes 1-5 (Table 16.9), 0 none
  hostTrains : Bool                 -- all sixteen lanes of the host link train (R292)
  dieFail : List (BitVec 3)         -- failing bring-up step of field dies 0-3, 0 none
  stackFail : List (BitVec 3)       -- of stacks 0-7
  portFail : List (BitVec 3)        -- of LP5X ports 0-7
  portGib : List Byte               -- installed usable capacity of LP5X ports 0-7 in GiB (R266)
  generatorFail : List (BitVec 11)  -- physical tiles whose generator self-test fails (R125)
deriving DecidableEq, Repr

/-- What a training or a retraining meets at the far end (Table 13.3, R322, R326). -/
structure Training where
  failStep : BitVec 4     -- first step that fails on the line, 0 none (steps 1-3, 5, 6)
  neighbour : BitVec 16   -- the neighbour's device ID read in step 4
  delay : BitVec 16       -- the one-way delay measured in step 5
  corrected : W32         -- codewords corrected in step 6
deriving DecidableEq, Repr

/-- A Beytia block as the FEC decoder hands it on (Table 13.1): the 2,570 message bytes, and whether
every codeword decoded (R318). -/
structure RxBlock where
  decodes : Bool
  corrected : Nat
  bytes : List Byte
deriving DecidableEq, Repr

/-- Which warden count reached its limit (R385). -/
inductive Bite where
  | arbiter (index requester : Nat)
  | run (id : Nat)
deriving DecidableEq, Repr

/-- A JTAG instruction presented on the TAP pins (R414); `peek` and `poke` are debug accesses to a register (R6). -/
inductive JtagInstr where
  | bypass
  | idcode
  | peek (bar2 : Bool) (off : BitVec 26)
  | poke (bar2 : Bool) (off : BitVec 26) (v : W32)
  | other (code : Nat)
deriving DecidableEq, Repr

/-- An upset met by an operation of a tile (R151, R155): a parity error in a structure of Table 6.5, or bits found flipped
in one tile-store word that the operation reads. -/
inductive Upset where
  | parity (code : BitVec 3)
  | word (w : BitVec 18) (data : BitVec 512) (check : BitVec 16) (marks : BitVec 3)
deriving DecidableEq, Repr

/-- The commands: one constructor per row of spec/opcode_table.json, in the table's order. -/
inductive Instr where
  -- commands of the rings: the packet stands in the ring (12)
  | nop (r : Ring)
  | query (r : Ring)
  | partitionCreate (r : Ring)
  | partitionDestroy (r : Ring)
  | weirSet (r : Ring)
  | contextCreate (r : Ring)
  | contextDestroy (r : Ring)
  | contextSave (r : Ring)
  | midSectionDrainEnd (ctx : BitVec 6)
  | midSectionDrainTimeout (ctx : BitVec 6)
  | contextRestore (r : Ring) (sigOk : Nat)
  | imageStage (r : Ring) (sigOk changed : Bool)
  | imageDrop (r : Ring)
  | imageForward (r : Ring) (sigOk : Nat)
  | forwardStatusTimeout
  | sectionRun (r : Ring) (ecc : Ecc)
  | sectionStop (r : Ring)
  | scheduleAdd (r : Ring)
  | scheduleClear (r : Ring)
  | moveDefineQueue (r : Ring)
  | movePost (r : Ring)
  | moveResume (r : Ring)
  | moveRemove (r : Ring)
  | pageMapDefineTable (r : Ring)
  | pageMapMap (r : Ring)
  | pageMapDonate (r : Ring)
  | pageUnmapEntries (r : Ring)
  | pageUnmapTable (r : Ring)
  | pageUnmapInit (r : Ring)
  | pageShare (r : Ring)
  | pageMigrate (r : Ring)
  | gaugeSet (r : Ring) (ecc : Ecc)
  | gaugeRead (r : Ring) (ecc : Ecc)
  | gaugeReadTimeout (r : Ring) (sequence : BitVec 16)
  | digest (r : Ring)
  | replicaGroupDefine (r : Ring)
  | replicaGroupRemove (r : Ring)
  | clearExpulsion (r : Ring)
  | screenRunScreen (r : Ring)
  | screenRunRetire (r : Ring)
  | screenRunSetCtl (r : Ring)
  | screenPackLoad (r : Ring) (sigOk : Bool)
  | logRead (r : Ring)
  | countersRead (r : Ring)
  | unitEnable (r : Ring)
  | unitDisable (r : Ring)
  | unitTransitionComplete (cls : BitVec 3) (index : Byte) (failStep : BitVec 3)
  | linkTrain (r : Ring) (t : Training)
  | tideConfigSource (r : Ring)
  | tideConfigPeriod (r : Ring)
  | tideConfigCount (r : Ring)
  | tideConfigOutput (r : Ring)
  | attest (r : Ring) (quoteVerifies : Bool)
  | fwUpdate (r : Ring) (sigOk : Bool)
  | ownerPolicySet (r : Ring)
  | zeroize (r : Ring)
  | fabricReset (r : Ring)
  -- the host port (12)
  | tailWriteObserved (r : Ring) (tail cplHead : W32)
  | replyWrite (r : Ring) (hostError : Bool)
  | msixCoalesceExpiry (r : Ring)
  | cpCtlWrite (v : W32)
  | cpHaltResume (phalt : Bool) (rings : W64)
  | cpLandWrite (size : Bool) (v : W64)
  | hdmDecoderCommit (i : BitVec 3) (base size : W64)
  | hostMemoryAccess (addr : W64) (op : HostOp) (flips : Option Flips)
  | hostLinkRecovery
  | hostLinkDown
  | mailboxGo (sigOk : Bool)
  | gaugeSelWrite (v : W32) (ecc : Ecc)
  | ctxGaugeRead (ctx : BitVec 6) (vid : BitVec 11) (ecc : Ecc)
  | tideCountRead (half : Option Bool)
  | pumpCtlWrite (pump : BitVec 6) (v : W32)
  | segmentWrite (lp5x : Bool) (seg : BitVec 6) (v : W32)
  | halt (p : BitVec 11) (v : W32)
  | step (p : BitVec 11)
  | registerWrite (bar2 : Bool) (off : BitVec 26) (wide : Bool) (v : W64)
  -- the tile program (02); `cfgParity`: a configuration word that the step reads fails its parity (R155)
  | issue (t : BitVec 10) (cfgParity : Bool)
  | issueQueueSlotFree (t : BitVec 10)
  | waitGauge (t : BitVec 10) (cfgParity : Bool)
  | signalGauge (t : BitVec 10) (cfgParity : Bool)
  | fenceRelease (t : BitVec 10)
  | gaugeQueueFree (t : BitVec 10) (upset : Option Upset)
  | send (t : BitVec 10) (cfgParity : Bool) (upset : Option Upset)
  | egressBufferFree (t : BitVec 10) (upset : Option Upset)
  | watch (t : BitVec 10) (cfgParity : Bool)
  | watchReevaluate (t : BitVec 10)
  | watchTimeout (t : BitVec 10)
  | swap (t : BitVec 10) (cfgParity : Bool)
  | branch (t : BitVec 10) (cfgParity : Bool)
  | endProgram (t : BitVec 10) (cfgParity : Bool)
  -- the engines (03, 04, 05, 10): the operation stands at the front of the unit's issue queue;
  -- `upset` is the error met on the way (R155, R369), none when there is none
  | mma (t : BitVec 10) (upset : Option Upset)
  | attn (t : BitVec 10) (upset : Option Upset)
  | vectorEngineOperation (t : BitVec 10) (upset : Option Upset)
  | reductionOperation (t : BitVec 10) (upset : Option Upset)
  | draw (t : BitVec 10) (upset : Option Upset)
  | verify (t : BitVec 10) (upset : Option Upset)
  | dispatch (t : BitVec 10) (upset : Option Upset)
  | combine (t : BitVec 10) (upset : Option Upset)
  | matrixStreamedFiring (t : BitVec 10) (upset : Option Upset)
  | streamedFiring (t : BitVec 10) (reduction : Bool) (upset : Option Upset)
  | sluiceFiring (t : BitVec 10) (k : BitVec 2) (upset : Option Upset)
  -- the fabric (07): routers are named by their physical tile
  | messageEgress (t : BitVec 10) (upset : Option Upset)
  | messageHop (p : BitVec 11) (side : Side) (lane : BitVec 2) (err : Option FlitError) (flips : Option Flips)
  | multicastSpread (p : BitVec 11) (side : Side) (lane : BitVec 2) (east south : Option FlitError)
  | messageDelivery (p : BitVec 11) (side : Side) (lane : BitVec 2) (err : Option FlitError)
  | backpressureReoffer (t : BitVec 10) (port : BitVec 6)
  | overflowBasinMove (t : BitVec 10) (port : BitVec 6) (upset : Option Upset)
  | steerSpillReturn (t : BitVec 10) (port : BitVec 6)
  | treeInput (p : BitVec 11) (side : Side)
  | instanceCombined (p : BitVec 11) (tree : BitVec 6) (tag : BitVec 16)
  | downMessage (p : BitVec 11) (side : Side)
  | probeSend (p : BitVec 11) (side : Side) (lane : BitVec 2)
  | probe (k : Nat)
  | reInjection (p : BitVec 11) (err : Option FlitError)
  -- the gauges (08): `b` is a gauge block, 0-3 the field dies and 4 the hub
  | add (b : BitVec 3) (ecc : Ecc)
  | set (b : BitVec 3) (ecc : Ecc)
  | wait (b : BitVec 3) (ecc : Ecc)
  | wake (k : Nat) (side : Side)
  | waitRetry (k : Nat)
  | waiterTimeout (b : BitVec 3) (gauge : BitVec 12) (k : Nat) (ecc : Ecc)
  -- sections (09); a run is named by its number
  | switchTrigger (run : Nat) (ecc : Ecc)
  | switchCensusClear (run : Nat)
  | switchDrainEnd (run : Nat) (parity : Option (BitVec 10)) (gauge : Option (BitVec 11 × Ecc))
  | runDone (run : Nat)
  | sectionTimeout (run : Nat)
  | bundleBlock (port : BitVec 3) (sigOk : Nat)
  | serviceRecord (port : BitVec 3)
  -- pumps, pages and memory (11)
  | queueEntryTake (q : Byte) (flips : Option Flips)
  | descriptorStart (q : Byte) (flips : Option Flips)
  | transferComplete (q : Byte)
  | summaryGather (q : Byte) (flips : Option Flips)
  | pageGather (q : Byte) (flips : Option Flips)
  | read (k : Nat) (flips : Option Flips)
  | fetch (k : Nat) (flips : Option Flips)
  | write (k : Nat) (ecc : Ecc)
  | ack (k : Nat)
  | data (k : Nat)
  | scrub (store : ScrubStore) (flips : Option Flips)
  | scrubOverrun (store : ScrubStore)
  | correctedWriteBack (p : BitVec 11)
  -- links and tide (13)
  | blockReceived (port : BitVec 3) (b : RxBlock)
  | linkReplayTimeout (port : BitVec 3) (t : Training)
  | ingressStall (port : BitVec 3) (lane : BitVec 2)
  | pinEdge
  | holdover
  | marker (port : BitVec 3)
  | tideTick
  | sectionStart (i : BitVec 10)
  | gaugeSignal (i : BitVec 10) (ecc : Ecc)
  | linkWindow (i : BitVec 10)
  | linkWindowClose
  -- reliability (15)
  | digestExchange (i : BitVec 10) (flips : Option Flips)
  | vote (group : BitVec 4)
  | screen (i : BitVec 10)
  | screenTileStart (die : BitVec 2)
  | screenTileEnd (die : BitVec 2) (failed : Option (BitVec 16))
  | wardenBite (b : Bite)
  | logEntryWrite
  -- power, reset, package (17) and security (16)
  | perstNAssert
  | perstNRelease (b : Board)
  | ready
  | powerGoodRise (i : BitVec 4)
  | powerGoodLoss (i : BitVec 4)
  | refclkLoss
  | thermalSample (temps : List (BitVec 16))
  | droop (die : BitVec 3)
  | thermtrip
  | telemetryRead (i : Byte)
  | railPoll (r : BitVec 4) (reading : Option (BitVec 16 × BitVec 16))
  | transformEngineConversion (t : BitVec 10) (upset : Option Upset)
  | timedSwitchStart (run : Nat) (ecc : Ecc)
  | entropyHealthTestFailure
  | memoryUnitLost (u : BitVec 4)
  | sequencerRetryTimeout (t : BitVec 10)
  | blockTransmit (port : BitVec 3)
  | bucketRelease (polder : BitVec 3) (weir : Byte) (bucket : BitVec 5)
  | hostSnoop (addr : W64)
  | jtagAccess (i : JtagInstr)
deriving DecidableEq, Repr

end Sys2Proof
end

