-- ==== Sys2Proof/Machine/Assoc.lean ====
section
/-! DEFINITION. Sparse tables with strictly rising keys: look up, write, remove. -/

namespace Sys2Proof.Machine

/-- The entry of a key, if the table lists it. -/
def aget? {α : Type} : Assoc α → Nat → Option α
  | [], _ => none
  | (k, v) :: t, i => if i == k then some v else if i < k then none else aget? t i

/-- The entry of a key, or the value an unlisted key stands for. -/
def agetD {α : Type} (t : Assoc α) (i : Nat) (d : α) : α := (aget? t i).getD d

/-- The table with one entry written. -/
def aput {α : Type} : Assoc α → Nat → α → Assoc α
  | [], i, x => [(i, x)]
  | (k, v) :: t, i, x =>
    if i == k then (i, x) :: t else if i < k then (i, x) :: (k, v) :: t else (k, v) :: aput t i x

/-- The table with one entry removed. -/
def adel {α : Type} : Assoc α → Nat → Assoc α
  | [], _ => []
  | (k, v) :: t, i => if i == k then t else if i < k then (k, v) :: t else (k, v) :: adel t i

/-- The canonical write: a value equal to the one an unlisted key stands for removes the entry. -/
def awrite {α : Type} [DecidableEq α] (d : α) (t : Assoc α) (i : Nat) (x : α) : Assoc α :=
  if x = d then adel t i else aput t i x

/-- The entry of a key changed by a function, starting from the default. -/
def amod {α : Type} (t : Assoc α) (i : Nat) (d : α) (f : α → α) : Assoc α := aput t i (f (agetD t i d))

/-- The keys of a table rise strictly. -/
def asorted {α : Type} : Assoc α → Bool
  | [] => true
  | [_] => true
  | (k, _) :: (k', v') :: t => decide (k < k') && asorted ((k', v') :: t)

/-- Every entry with a key in [lo, lo + n) removed. -/
def adelRange {α : Type} (t : Assoc α) (lo n : Nat) : Assoc α :=
  t.filter (fun e => e.1 < lo || lo + n ≤ e.1)

end Sys2Proof.Machine
end

