-- ==== Sys2Proof/Machine/Bits.lean ====
section
/-! DEFINITION. Bit fields, byte order and sparse tables: the helpers every meaning uses. All
multi-byte values of the part are little-endian (R10). -/

namespace Sys2Proof.Machine

/-- Bits [lo+len-1:lo] of a word held as a number. -/
def fld (w lo len : Nat) : Nat := (w >>> lo) % 2 ^ len

/-- One bit of a word held as a number. -/
def bitOf (w i : Nat) : Bool := w.testBit i

/-- A Bool as the number 0 or 1. -/
def b2n (b : Bool) : Nat := if b then 1 else 0

/-- `w` with bit `i` set to `v`. -/
def putBit (w i : Nat) (v : Bool) : Nat :=
  if w.testBit i == v then w else if v then w + 2 ^ i else w - 2 ^ i

/-- The two's complement reading of the low `len` bits. -/
def sext (w len : Nat) : Int :=
  let v := w % 2 ^ len
  if v < 2 ^ (len - 1) then Int.ofNat v else Int.ofNat v - Int.ofNat (2 ^ len)

/-- The low `len` bits of an integer, in two's complement. -/
def wrapInt (i : Int) (len : Nat) : Nat := (i % Int.ofNat (2 ^ len)).toNat

/-- Little-endian value of a list of bytes (R10). -/
def leNat : List Byte → Nat
  | [] => 0
  | b :: bs => b.toNat + 256 * leNat bs

/-- The `n` little-endian bytes of a value (R10). -/
def leBytes : Nat → Nat → List Byte
  | 0, _ => []
  | n + 1, v => BitVec.ofNat 8 v :: leBytes n (v / 256)

/-- Big-endian value of a list of bytes. -/
def beNat (bs : List Byte) : Nat := bs.foldl (fun a b => a * 256 + b.toNat) 0

/-- The `n` big-endian bytes of a value. -/
def beBytes (n v : Nat) : List Byte := (leBytes n v).reverse

/-- `n` little-endian bytes of `bs` at byte offset `o`, as a number; absent bytes read 0. -/
def leAt (bs : List Byte) (o n : Nat) : Nat := leNat ((bs.drop o).take n)

/-- The list padded with zero bytes, or cut, to `n` bytes. -/
def padTo (n : Nat) (bs : List Byte) : List Byte := (bs ++ List.replicate (n - bs.length) 0).take n

/-- Greatest whole number of `a` at or below `x` (a positive). -/
def alignDown (x a : Nat) : Nat := x / a * a

/-- Least whole number of `a` at or above `x` (a positive). -/
def alignUp (x a : Nat) : Nat := (x + a - 1) / a * a

/-- Saturating increment of a counter of `len` bits by `n`. -/
def satAdd (len x n : Nat) : Nat := min (x + n) (2 ^ len - 1)

/-- `true` when every index below `n` satisfies `p`. -/
def allBelow (n : Nat) (p : Nat → Bool) : Bool := (List.range n).all p

/-- The least index below `n` that satisfies `p`. -/
def findBelow (n : Nat) (p : Nat → Bool) : Option Nat := (List.range n).find? p

/-- Mask of the indexes below `n` that satisfy `p`. -/
def maskOf (n : Nat) (p : Nat → Bool) : Nat :=
  (List.range n).foldl (fun a i => if p i then a + 2 ^ i else a) 0

/-- How many bits below `n` are set in `w`. -/
def popBelow (n w : Nat) : Nat := ((List.range n).filter w.testBit).length

/-- The list with its `i`-th element replaced (no change past the end). -/
def setNth {α : Type} (l : List α) (i : Nat) (v : α) : List α := l.set i v

/-- Number of times `f` is iterated on `x`. -/
def iter {α : Type} : Nat → (α → α) → α → α
  | 0, _, x => x
  | n + 1, f, x => iter n f (f x)

end Sys2Proof.Machine
end

