-- ==== Sys2Proof/Config.lean ====
section
/-! DEFINITION. The values the spec leaves open, each an opaque constant: nothing in Lean can evaluate one,
so every statement holds whatever it is. Each is named in the assumption log. -/

namespace Sys2Proof.Config

/-- A fresh free value: the model's own counter picks it (log 7). -/
opaque freeWord : Nat → Nat

/-- Which of the FP32 values within the ulp bound of Table 5.3 an operation gives for an operand (R115). -/
opaque approx : (op : Nat) → (a : W32) → Nat

/-- A transform-engine conversion as its descriptor spells it. The spec gives the operation (03) and not its
descriptor's layout, so the fields come from opaque functions of the descriptor (log 11). -/
structure Xform where
  inFmt : Nat
  conv : Nat
  indexBase : Nat
  istride : List Int
deriving DecidableEq, Repr, Inhabited

/-- The fields of a conversion descriptor (log 11). -/
opaque xform : List Byte → Xform

/-- Which values of byte 1 name a conversion (log 11). -/
opaque xformOp : Byte → Bool

/-- Whether a received bundle, by its number, was sent in parallel mode: no field of a block says so (log 20). -/
opaque bundleParallel : Nat → Bool

/-- The device that a received bundle's statuses go to: no field of a bundle names it (log 20). -/
opaque bundleOrigin : Nat → BitVec 16

/-- Bits [48:0] of a performance counter that counts cycles inside a unit or grants of its arbiters: physical tile, counter, and
core clock of the read (log 22). -/
opaque cycleCount : (tile counter clk : Nat) → BitVec 49

/-- Fused hash of vendor slot k, its 32 bytes as one little-endian number (log 21). -/
opaque vendorHash : (k : Nat) → BitVec 256

/-- The bytes of the identity certificate that the part alone knows (log 21). -/
opaque certByte : (i : Nat) → Byte

/-- The bytes of a quote's signature, by the randomness that hedges it (log 21). -/
opaque quoteSig : (rand : Nat) → (i : Nat) → Byte

/-- The IDCODE that JTAG answers (log 21). -/
opaque idcode : W32

end Sys2Proof.Config
end

