-- ==== Sys2Proof/Machine/StateTile.lean ====
section
/-! DEFINITION. The parts of the state that a tile, its router, the gauges, the sections and the polders
hold (02-10, 14). Plain data; `State` puts them together. -/

namespace Sys2Proof.Machine

/-- A performance counter (R394): 48-bit count and sticky overflow. -/
structure Ctr where
  count : BitVec 48
  ovf : Bool
deriving DecidableEq, Repr

/-- A message of the fabric: header (Table 7.2) and payload; a multicast copy names the logical tile it is
for (R170, R171); `fp` lists the flits that carry fpoison (R167, R168). -/
structure Msg where
  hdr : BitVec 128
  pay : List Byte
  copy : Option Nat
  fp : List Nat
deriving DecidableEq, Repr

/-- State of one basin (Table 6.10). -/
structure Basin where
  head : Nat
  tail : Nat
  used : Nat
  padValid : Bool
  padAt : Nat
  backp : Bool
deriving DecidableEq, Repr

/-- One operand port (R35-R37): the messages in its FIFO, how many lie in its overflow basin, and the two
sticky bits of its status word. -/
structure Port where
  fifo : List Msg
  inBasin : Nat
  backp : Bool
  staleSeen : Bool
deriving DecidableEq, Repr

/-- An operation in an issue queue (R50): its descriptor and loop table, the buffer-pair halves in force
when it was queued (R54), the gauge it signals. -/
structure Op where
  id : Nat
  desc : Nat
  loop : Nat
  swaps : Nat
  signal : Option Nat
  hold : Bool
  out : Option (List (Nat × Nat))   -- some: it has run, and its messages leave; with the basin advances of its completion (R148)
deriving DecidableEq, Repr

/-- A message of the sequencer's gauge queue (R197); a fenced one waits for the operations numbered below
its fence. -/
structure GqEntry where
  fence : Option Nat
  msg : Msg
deriving DecidableEq, Repr

/-- `TDBG_SEQ.state` (Table 2.16). -/
inductive SeqState where
  | idle | running | waitGauge | watch | stallIssue | stallEgress | ended | faulted | halted
deriving DecidableEq, Repr

/-- A WAIT_GAUGE in progress (R200): what a retry sends again. -/
structure GWait where
  vid : Nat
  target : W32
  start : Nat               -- clock when the first WAIT left
  timeout : Nat             -- cycles, 0 none
  retryAt : Option Nat      -- clock at which a retry is due
  lastPhys : BitVec 15      -- of the last retry WAKE
  lastValue : W32
deriving DecidableEq, Repr

/-- The tile sequencer (R47, Table 2.15-2.17). -/
structure Seq where
  idx : BitVec 10
  st : SeqState
  preds : BitVec 8
  ctrs : List (BitVec 20)
  gwait : Option GWait
  watchDeadline : Option Nat
  holdOp : Option Nat       -- the operation whose completion an ISSUE with wait holds for
  halt : Bool
  breakEn : Bool
  breakAt : BitVec 10
  stepOne : Bool
  faultEvent : BitVec 16
  faultIndex : BitVec 10
deriving DecidableEq, Repr

/-- A sluice (Table 2.18, R42-R46). -/
structure Sluice where
  inRun : Bool
  select : BitVec 2
  remaining : Nat
  poisoned : Bool
  forwarded : W32
  discarded : W32
  poisonedRuns : W32
deriving DecidableEq, Repr

/-- The registers of the debug window that are plain counts or words (Tables 2.18, 6.9, 7.10, 9.9). -/
structure TileRegs where
  oversize : W32
  corr : W32
  uncorr : W32
  parCount : BitVec 16
  parLast : BitVec 3
  lastErrWord : BitVec 18
  lastErrUncorr : Bool
  refused : W32
  overrun : W32
  settings : W64
  orphan : W32
  fwPolder : BitVec 24
  fwTree : Byte
  malformed : W32
  parPayload : BitVec 16
  parHeader : BitVec 16
  fabSpillFull : Bool
  condSpillFull : Bool
  stale : W32
  discard : W32
  slots : BitVec 16
deriving DecidableEq, Repr

/-- The section a tile holds (Table 9.9). -/
structure TileSect where
  gen : BitVec 3
  configured : Bool
  loading : Bool
  ctx : BitVec 6
  handle : Byte
  replays : BitVec 2
  run : Nat
  inputs : List (Nat × Nat)   -- declared tile-store inputs: offset, length (R234)
  saving : Bool               -- a mid-section drain holds the sequencer (R357)
  rerun : Bool                -- the abandoned WAIT_GAUGE runs again (R357)
deriving DecidableEq, Repr

/-- An input of a tree instance: the child it came from (none: the tile's own), and its message (R174). -/
structure TreeIn where
  src : Option Nat
  msg : Msg
deriving DecidableEq, Repr

/-- An instance of a reduction tree pending at a router (R174, R176); `id` tells the messages of its result. -/
structure Inst where
  id : Nat
  tree : Nat
  tag : Nat
  part : Nat
  inputs : List TreeIn
  done : Bool       -- combined; the pending entry waits for the down phase
  root : Bool       -- combined at a root, whose down messages are leaving
deriving DecidableEq, Repr

/-- Where the way of a memory transaction through a mesh ends (Table 7.1): at the hub, at a tile, or at the north or south edge
port of its last router. -/
inductive ParcelEnd where
  | hub | tile | north | south
deriving DecidableEq, Repr

/-- A memory transaction on lane 2 of the mesh (R156, R268): its number, its bytes (header and data), the flits that carry
fpoison, the polder its flits are charged to, and its way: die, exit row, column and row of the last router, and what lies there. -/
structure Parcel where
  id : Nat
  bytes : List Byte
  fp : List Nat
  polder : Option Nat
  die : Nat
  row : Nat
  x : Nat
  y : Nat
  goal : ParcelEnd
deriving DecidableEq, Repr

/-- What a lane carries: a message, or on lane 2 a memory transaction. -/
inductive Load where
  | msg (m : Msg)
  | parcel (x : Parcel)
deriving DecidableEq, Repr

/-- A message in the fabric's spill (R189) with the lane it was spilled from. -/
structure Spilled where
  side : Side
  lane : Nat
  load : Load
deriving DecidableEq, Repr

/-- The router of a physical tile (R156, R173-R190). -/
structure Router where
  queues : Assoc (List Msg)   -- key 3 * input + lane; inputs N, E, S, W, local
  parcels : Assoc (List Parcel)  -- lane 2, by the same keys
  moved : Assoc Nat           -- clock at which a queue last moved or became non-empty (R187)
  insts : List Inst
  dike : List Nat             -- queues whose head is held at a dike (R185)
  spill : List Spilled
  nodeOut : List (Nat × Msg)  -- what the tree node has still to send: instance, and message (R176, R177)
  granted : Assoc Nat         -- key 4 * output + class: the requester last granted (R180)
  instId : Nat                -- number of the next instance
deriving DecidableEq, Repr

/-- What a COMBINE in progress has received (R250): row, route entry, first column, columns, poison; and whether its
first discard has been logged. -/
structure Collect where
  got : List (Nat × Nat × Nat × Nat × Bool)
  logged : Bool
deriving DecidableEq, Repr

/-- One physical tile. -/
structure Tile where
  cfg : Assoc Byte            -- configuration state (Table 2.2), unlisted bytes 0 (R33)
  cfgBad : List Nat           -- 64-byte granules of it that carry poison (R48)
  swaps : Nat                 -- bit k: the halves of buffer pair k are exchanged (R54)
  seq : Seq
  queues : Assoc (List Op)    -- issue queues of units 1-5
  opId : Nat
  gq : List GqEntry
  egress : List (Nat × Msg)   -- egress buffer and engine results, with the sending unit
  ports : Assoc Port          -- key 8 * (unit - 1) + port
  basins : Assoc Basin
  sluices : Assoc Sluice
  finished : Nat              -- bit u: unit u has finished (R40)
  firings : Assoc Nat         -- firings of unit u in this section
  acc : Assoc W32             -- accumulator (R92), unlisted +0
  vb : Assoc Byte             -- vector buffers (R111), key 65536 * k + offset, unlisted 0
  vbPoison : List Nat         -- marked 64-byte granules of the vector buffers
  hist : Assoc W32            -- histogram sets (R83), key 68 * set + bin
  ctrs : Assoc Ctr            -- TDBG_FIRE, MXC, VRC, TSC, FBC, CCC
  once : Assoc Nat            -- events of this section already logged
  localList : List Nat        -- R369: words the store itself found uncorrectable
  wbPending : List Nat        -- corrected words still to be written back (R152)
  progress : Nat              -- clock of the tile's last progress (R385)
  collect : Collect           -- of the COMBINE at the front of unit 5's queue
  steerSpill : List (Nat × Msg) -- R245: port and message, in arrival order
  regs : TileRegs
  sect : TileSect
  retired : Bool
  screening : Bool
  router : Router
deriving DecidableEq, Repr

/-- A registered waiter of a gauge (Table 8.7). `hubId` tells hub waiters of one kind apart. -/
structure Waiter where
  hub : Bool
  unit : BitVec 4
  tile : BitVec 10
  ctx : BitVec 6
  vid : BitVec 11
  wgen : BitVec 3
  target : W32
  deadline : Option Nat
  hubId : Nat
  src : Nat                   -- source address of the WAIT (Table 7.2), to which the WAKE goes
deriving DecidableEq, Repr

/-- One physical gauge (R192, Table 8.6). -/
structure Gauge where
  value : W32
  bound : Option (BitVec 6 × BitVec 11)
  waiters : List Waiter
  lastTide : W64
  lastSrc : W64
deriving DecidableEq, Repr

/-- A WAKE on its way from a gauge block to a waiter (R203, Table 8.1). -/
structure Wake where
  waiter : Waiter
  result : BitVec 8
  value : W32
  phys : BitVec 15
deriving DecidableEq, Repr

/-- A wait of a hub unit between its first WAIT and its end (R200, R205, R310): which unit, the tag its messages carry, what it
waits for (0 a GAUGE_READ, 1 the post gauge of queue q, 2 the descriptor at the head of queue q), the gauge, the target, and
when it started; a retry that is due, and what the last retry WAKE said. -/
structure HubWait where
  unit : Nat
  tag : Nat
  what : Nat
  q : Nat
  ctx : Nat
  vid : Nat
  target : W32
  start : Nat
  limit : Nat                 -- cycles, 0 none
  retryAt : Option Nat
  lastValue : W32
  lastPhys : BitVec 15
deriving DecidableEq, Repr

/-- A probe under way (R187, R188): origin router and the lane it is for, the router and input it reaches next, its hops, and
the cycle at which it arrives. -/
structure Probe where
  origin : Nat
  key : Nat
  side : Nat
  router : Nat
  hops : Nat
  at_ : Nat
deriving DecidableEq, Repr

/-- The gauge blocks (08). -/
structure Gauges where
  gauges : Assoc Gauge          -- key 4096 * location + index
  xlat : Assoc (BitVec 16)      -- key 2048 * context + virtual ID; identical in every block (R193)
  tctx : Assoc (BitVec 6)       -- tile context map (R194)
  inq : Assoc (List Msg)        -- input queue of each block
  out : Assoc (List Msg)        -- what each block has still to send: WAKEs, and messages forwarded (R194, R202)
  outHeld : List Nat            -- blocks whose head is held at a dike (R185)
  wakes : List Msg              -- WAKEs that have reached the hub, for its own waiters
  hubWaits : List HubWait
  waitersUsed : Assoc Nat       -- waiter entries taken at each block
  stat : Assoc Ctr              -- key 8 * location + k
  once : List Nat               -- blocks that have logged 0x3160 this section
  sel : W32
  snap : List W64               -- value, info, last tide, last src, then 4 words for each waiter
deriving DecidableEq, Repr

/-- A declared input or output of an image (types 4 and 5 of Table 9.3). -/
structure IoDecl where
  tile : Option Nat     -- logical tile for space 1
  base : Nat
  len : Nat
  off : Nat             -- byte offset of the record
deriving DecidableEq, Repr

/-- A gauge declaration (type 2). -/
structure GaugeDecl where
  vid : Nat
  loc : Nat
  own : Bool
  init : Bool
  value : W32
  off : Nat
deriving DecidableEq, Repr

/-- A tree declaration (type 3): its member tiles and their entries. -/
structure TreeDecl where
  die : Nat
  tree : Nat
  members : List (Nat × W64 × W64)
  off : Nat
deriving DecidableEq, Repr

/-- A staged image (R217-R221). -/
structure Image where
  ctx : Nat
  handle : Nat
  host : Bool               -- source in host memory
  addr : Nat
  len : Nat
  digest : List Byte
  header : List Byte        -- bytes 0-255, measured (R407)
  timeout : Nat             -- units of 1,024 cycles
  tiles : List Nat          -- logical tiles of the region
  slot : Assoc Nat          -- slot taken in each tile
  frames : Assoc Nat        -- mask of the frames present in each tile
  settings : Assoc W64
  gauges : List GaugeDecl
  trees : List TreeDecl
  inputs : List IoDecl
  outputs : List IoDecl
  sigChecked : Bool
  sigSlot : Option Nat
  awaits : Option (Nat × Nat)   -- ring and sequence of the IMAGE_STAGE whose reply is not written yet (R309)
deriving DecidableEq, Repr

/-- Where a run stands between its acceptance and its reply (R211, R225, R226): before its trigger, in phase 1, in
phases 4-9, running; `stopping` and `stopDrain` are phase 1 and phase 4 of a stop (below R226). -/
inductive RunPhase where
  | accepted | waitCensus | draining | running | stopping | stopDrain
deriving DecidableEq, Repr

/-- A section run: an accepted SECTION_RUN or a firing of the schedule (R211, R309, R341). -/
structure Run where
  id : Nat
  ctx : Nat
  handle : Nat
  seqNo : Nat
  sched : Option (Nat × Nat)         -- schedule entry and firing index
  userRing : Bool
  irq : Bool
  seed : Nat
  explicitGen : Option Nat
  gen : Nat
  pred : Option (Nat × W32 × Bool)   -- virtual gauge, target, sense
  purge : Bool
  due : Option (Nat × Nat)           -- tide count and phase
  armed : Bool                       -- a timed run in the ranking of R354
  late : Bool
  phase : RunPhase
  replays : Nat
  committed : Bool
  first : Option (Nat × Nat)         -- tide count and phase of the very first firing
  firstClk : Nat                     -- its clock
  ran : Nat                          -- cycles from it counted before a restore (R358)
  started : Nat                      -- clock of the last firing
  timeoutAt : Option Nat             -- clock at which the section timeout expires
  outgoing : List (Nat × Nat)        -- tiles and generations the switch ends
deriving DecidableEq, Repr

/-- A polder (14, Table 14.9). -/
structure Polder where
  rects : List W64
  tiles : List Nat
  hseg : W64
  lseg : W64
  ports : Byte
deriving DecidableEq, Repr

/-- A weir of a polder (R349-R351): rate, burst, wait count, the token count of each bucket, what each bucket
holds back, and what it has let through since (`weirUnit` numbers the units of traffic). -/
structure Weir where
  rate : Nat
  burst : Nat
  wait : Ctr
  tokens : Assoc Int
  held : Assoc Nat
  granted : List Nat
deriving DecidableEq, Repr

/-- A log entry taken into the queue (Table 15.9). -/
structure LogEntry where
  bytes : List Byte
  bad : Bool       -- its hub SRAM word is uncorrectable (R365)
deriving DecidableEq, Repr

end Sys2Proof.Machine
end

