-- ==== Sys2Proof/Machine/StateHub.lean ====
section
/-! DEFINITION. The parts of the state that the hub holds: rings, commands, contexts, host port (12), log
and health (15). Plain data; `State` puts them together. -/

namespace Sys2Proof.Machine

/-- A command that a ring has accepted and that has not completed (R302, R307). `aux` holds what its
completion needs: the run, the waiter, the unit, as the command's own meaning says. -/
structure Cmd where
  opcode : Nat
  ctx : Nat
  seqNo : Nat
  irq : Bool
  aux : List Nat
deriving DecidableEq, Repr

/-- A finished reply that waits to be written (R301, Table 12.6). -/
structure Reply where
  opcode : Nat
  status : Nat
  purged : Bool
  late : Bool
  seqNo : Nat
  ctx : Nat
  r0 : W64
  r1 : W64
  r2 : W64
  irq : Bool
deriving DecidableEq, Repr

/-- A command ring (R299-R303). -/
structure RingSt where
  base : BitVec 48
  line : BitVec 48
  cpl : W64
  cmdLog2 : Nat
  cplLog2 : Nat
  coalesce : Nat            -- units of 1,024 cycles (R314)
  enabled : Bool
  halted : Bool
  head : W32
  tail : W32                -- as last observed in the control line
  cplTail : W32
  cplHead : W32             -- as last observed
  accepted : List Cmd
  replies : List Reply      -- in completion order
  vecDue : Option Nat       -- clock at which the coalescing interval ends
  vecWant : Bool            -- a request of the interval waits for its end (R314)
  saving : Bool             -- a boundary save holds the ring (R356)
deriving DecidableEq, Repr

/-- A context (R352, R222, Table 12.4). -/
structure Context where
  polder : Nat
  gencnt : BitVec 3
  tileBase : BitVec 10
deriving DecidableEq, Repr

/-- State of a unit of Table 12.8 (R312). -/
inductive UnitPhase where
  | enabled | disabling | disabled | enabling
deriving DecidableEq, Repr

/-- A unit's transition: the commands that joined it, and the one request held behind it with those that
joined the held request (R312). Commands are kept with the number of their ring. -/
structure UnitSt where
  phase : UnitPhase
  joined : List (Nat × Cmd)
  held : List (Nat × Cmd)
deriving DecidableEq, Repr

/-- An HDM decoder (R294). -/
structure HdmDec where
  base : W64
  size : W64
  committed : Bool
  err : Bool
deriving DecidableEq, Repr

/-- The host link (R292). -/
inductive HostLink where
  | down | up | recovered
deriving DecidableEq, Repr

/-- What an access of the host or of the board last read: the value it was given, with the poison that came
with it. These fields are the model's own (the part keeps no copy). -/
structure Answer where
  value : BitVec 512
  poison : Bool
deriving DecidableEq, Repr

/-- The host port (12). -/
structure HostPort where
  link : HostLink
  hdm : List HdmDec
  vecPending : Nat          -- MSI-X pending-bit array (R313)
  vecSent : List Nat        -- messages sent, newest first
  answer : Answer
  snooped : List Nat        -- device lines for which a back-invalidate snoop went out, newest first
  hostLines : Assoc Nat     -- granules the host has read since their last back-invalidate, with their device address (R294)
deriving DecidableEq, Repr

/-- What a screener does now (R370-R376): between tiles; its tile's move awaits a switch; the tile is vacated and its
screen not begun; a screen runs; the move back awaits a switch. -/
inductive ScrStep where
  | idle | waitMove | ready | running | waitReturn
deriving DecidableEq, Repr

/-- Why a tile is screened: the rotation, a `SCREEN_RUN`, or replays (R370, R375, R378). -/
inductive ScrKind where
  | rotation | asked | suspect
deriving DecidableEq, Repr

/-- A screener of a field die (R370-R375). -/
structure Screener where
  pos : BitVec 9
  step : ScrStep
  kind : ScrKind
  cur : Nat                 -- physical tile of this screen
  vacated : Option Nat      -- logical tile moved off it
  cmd : Option (Nat × Cmd)  -- the SCREEN_RUN that asked for it, and its ring
  rounds : W32
  tideGo : Bool             -- an action-5 firing lets it start (R378)
  since : Nat               -- clock at which the last screen began
  spent : Nat               -- cycles it took
  ahead : List (Nat × Option (Nat × Cmd))  -- tiles to screen ahead of the rotation
  retire : List (Nat × Nat × Cmd)          -- tiles to retire once moved, with ring and command (SCREEN_RUN form 1)
deriving DecidableEq, Repr

/-- A displacement change not yet applied (R229): logical tile and its new physical host; `home` undoes. -/
structure Move where
  logical : Nat
  dest : Nat
deriving DecidableEq, Repr

/-- A replica group (R380). -/
structure Group where
  members : List Nat
  own : Nat
deriving DecidableEq, Repr

/-- A digest exchange in progress (R381). -/
structure Exchange where
  group : Nat
  due : Nat
  ends : Nat                         -- tide count at which the window ends
  own : Option (List Byte)
  got : List (Nat × Option (List Byte))   -- member index and root; none abstains
deriving DecidableEq, Repr

/-- Health subsystem (15). -/
structure Health where
  scr : List Screener
  duty : Nat
  suspect : Nat
  tideMode : Bool
  pack : Nat
  packRecords : Nat
  packMs : Nat
  replayLog : List (Nat × Nat)   -- physical tile and HEALTH_CYCLES of each replay it caused (R375)
  suspects : List Nat
  suspectLogged : List Nat       -- tiles with 0x2302 logged in this window
  groups : Assoc Group
  exchanges : List Exchange
  expelled : Bool
  lastGroup : Nat
  lastMajority : Bool
  sdc : Assoc Ctr
  faultLast : W32
  faultTide : W64
  scrubPos : Assoc Nat           -- next word of each scrubber: tile p, 2048 + u HBM, 2056 + u LP5X
  scrubStart : Assoc Nat         -- clock at which the pass began
  scrubHours : Assoc Nat         -- period of the pass in hours
deriving DecidableEq, Repr

/-- The trouble log (R391). -/
structure Log where
  entries : List LogEntry        -- newest first
  queue : List LogEntry          -- oldest first
  written : W64
  overwrite : W32
  lost : W32
deriving DecidableEq, Repr

end Sys2Proof.Machine
end

