-- ==== Sys2Proof/Machine/StateBoard.lean ====
section
/-! DEFINITION. The parts of the state that the security engine and the board side hold (16, 17), and the saves in
progress (14). Plain data; `State` puts them together. -/

namespace Sys2Proof.Machine

/-- A `CONTEXT_SAVE` in progress (R356, R357): its command and ring, what it writes where, and, for a mid-section save,
the runs it drains and the clock at which the drain times out. -/
structure Save where
  ring : Nat
  cmd : Cmd
  ctx : Nat
  mid : Bool
  addr : Nat
  cap : Nat
  waits : List Nat      -- runs of the context accepted before it
  due : Nat
deriving DecidableEq, Repr

/-- The security engine, the fuses that commands blow, the flash and the boot (16). -/
structure Security where
  passed : Bool
  error : Bool
  code : Nat
  key : Bool              -- the identity key is derived and not zeroised
  svn : Nat               -- security-version fuses blown
  killed : Bool           -- the identity-killed fuse
  source : Nat
  failA : Nat
  failB : Nat
  failM : Nat
  noflash : Bool
  mboxAddr : W64
  mboxLen : W32
  measFw : BitVec 256
  fwVersion : W32
  awaitFw : Bool
  running : Bool          -- hub firmware runs
  bank : Assoc FwImage    -- images that FW_UPDATE wrote, by bank
  preferred : Nat         -- bank marked as preferred for the next boot
  policy : List Byte      -- the 208-byte policy block in force
  debugLock : Bool        -- debug_lock in force until PERST_N
  quoted : Bool           -- an ATTEST has replied OK since attest_first took effect
  drbgCount : Nat         -- generate requests since the generator last reseeded
deriving DecidableEq, Repr

/-- Rails, pins, sensors and cycle skipping (17). -/
structure Power where
  perst : Bool            -- PERST_N is asserted
  pg : Nat                -- bit i: power-good input i is high
  order : List Nat        -- inputs in the order in which they rose
  cause : Nat
  input : Nat
  stopped : Bool          -- the device stopped on the loss of PG_IO or PG_HUB
  trip : Bool             -- THERMTRIP_N is asserted
  faultN : Bool           -- FAULT_N is asserted
  skip : Nat              -- s
  frame : Nat             -- cycle of the frame of 64
  droopLeft : Nat         -- cycles still skipped for a droop
  droop : Bool
  skipCnt : Ctr
  temps : Assoc (BitVec 16)
  rails : Assoc (BitVec 16 × BitVec 16)
  level : Nat             -- service level (R389)
  lastFault : Nat         -- code of the last 0x5xxx event
  busA : Option W32       -- the last answer on bus A (the model's own output field)
  jtag : Option Nat       -- the last answer over JTAG (the model's own output field)
  board : Board           -- what the board showed at the last boot, and the unit bring-up it governs
deriving DecidableEq, Repr

def Security.reset : Security :=
  { passed := false, error := false, code := 0, key := false, svn := 0, killed := false, source := 0, failA := 0,
    failB := 0, failM := 0, noflash := false, mboxAddr := 0, mboxLen := 0, measFw := 0, fwVersion := 0,
    awaitFw := false, running := false, bank := [], preferred := 0, policy := List.replicate 208 0,
    debugLock := false, quoted := false, drbgCount := 0 }

/-- A board that shows nothing: no flash, no host. -/
def Board.none : Board :=
  { flash := false, bankA := .none, bankB := .none, selfTest := 0, hostTrains := false, dieFail := [], stackFail := [],
    portFail := [], portGib := [], generatorFail := [] }

/-- At reset `PERST_N` is asserted and every rail is up, its inputs risen in the order of Table 17.3 (log 2). -/
def Power.reset : Power :=
  { perst := true, pg := 0x7FF, order := [0, 1, 2, 3, 4, 5, 6, 7, 8, 9, 10], cause := 0, input := 0, stopped := false,
    trip := false, faultN := false, skip := 0, frame := 0, droopLeft := 0, droop := false, skipCnt := ⟨0, false⟩,
    temps := [], rails := [], level := 0, lastFault := 0, busA := none, jtag := none, board := Board.none }

end Sys2Proof.Machine
end

