-- ==== Sys2Proof/Machine/StateMem.lean ====
section
/-! DEFINITION. The parts of the state that the memory tiers, the pumps and the page engine hold (11). Plain
data; `State` puts them together. -/

namespace Sys2Proof.Machine

/-- An HBM3E stack (0-7) or LP5X port (8-15): `MEM_PORT`, `MEM_ERR`. -/
structure MemUnit where
  cap : Nat                 -- GiB
  trained : Bool
  corr : W32
  uncorr : BitVec 16
  logAt : Option Nat        -- clock of the last event 0x2170
  lost : Bool
deriving DecidableEq, Repr

/-- Where data of a transfer goes: space 0 device, 1 host, 2 remote device, 3 page (Table 11.4). -/
structure Dest where
  space : Nat
  table : Nat
  dev : Nat
  addr : Nat
  mcast : Option (Nat × Nat)
deriving DecidableEq, Repr

/-- Where a memory transaction starts or ends (Table 7.1, R264, R267): a hub endpoint, a tile, an edge link of a stack's controller
by its column, or a pump of a field die by its column. -/
inductive Spot where
  | hub
  | tile (p : Nat)
  | stack (u col : Nat)
  | pump (d col : Nat)
deriving DecidableEq, Repr

/-- A memory transaction of lane 2 (Table 11.2). `bytes` counts its data. Ops: 0 READ, 1 FETCH, 2 WRITE, 3 ACK,
4 DATA. `queue` and `xfer` name the requester's transfer, `req` its position and agent, `home` where it stands, `polder` whose traffic
it is (R348), `page` the page that a read was translated to (R284). The present leg of its way: where it
starts and ends, whether it is under way, whether it has arrived. -/
structure Txn where
  id : Nat
  op : Nat
  at_ : Dest
  bytes : Nat
  data : List Byte
  bad : Nat                 -- bit i: 64-byte piece i carries poison
  cls : Nat
  status : Nat
  dst : Option Dest
  queue : Nat
  xfer : Nat
  req : Nat
  polder : Option Nat
  page : Option Nat
  home : Spot
  from_ : Spot
  goal : Spot
  sent : Bool
  arrived : Bool
deriving DecidableEq, Repr

/-- The queue number that transactions of the page engine's copies bear; those that a link brought bear 256 and its port. -/
def copyQueue : Nat := 300

/-- A page-table item reserved for a copy on write (R283): table, entry, tier, page and record. -/
structure Reserve where
  table : Nat
  entry : Nat
  tier : Nat
  page : Nat
  record : Nat
deriving DecidableEq, Repr

/-- A transfer in progress (R272); `sigs` are the signals its descriptors send, in queue order. -/
structure Transfer where
  id : Nat
  desc : List Byte
  sigs : List (Nat × Nat)
  outstanding : Nat
  complete : Bool
  reserved : List Reserve
  after : List (Nat × List Byte)   -- writes that follow the last acknowledged one (R287)
  poisonLogged : Bool
  discLogged : Bool
deriving DecidableEq, Repr

/-- A descriptor taken from a queue: its bytes, ring index and poison (R271, R273). -/
structure Taken where
  desc : List Byte
  entry : Nat
  bad : Bool
deriving DecidableEq, Repr

/-- Where a wait of a pump stands: none sent, sent or registered, satisfied (R271, R205). -/
inductive WaitSt where
  | none | waiting | met
deriving DecidableEq, Repr

/-- A pump queue (Table 11.3, R271-R275). -/
structure PumpQueue where
  ctx : Nat
  base : Nat
  size : Nat
  pump : Nat
  post : Nat
  tile : Option Nat
  consumed : W32
  posts : Nat                      -- posts of the command processor that its gauge has not seen yet
  postWait : WaitSt
  head : Option Taken
  headWait : WaitSt
  transfers : List Transfer        -- oldest first
  halted : Bool
  code : Nat
  entry : Nat
  poisonSeen : Bool
  retired : W32
  discarded : W32
deriving DecidableEq, Repr

/-- A page table (Table 11.6): its context and its descriptor. -/
structure PageTable where
  ctx : Nat
  desc : List Byte
deriving DecidableEq, Repr

/-- A copy of a page that the page engine has in progress (R282, R283): table and entry, the entry's value before it, whether it is a
copy on write, the tier, page and record taken for it, and the writes not yet acknowledged. -/
structure PageCopy where
  id : Nat
  table : Nat
  entry : Nat
  was : Nat
  cow : Bool
  tier : Nat
  page : Nat
  record : Nat
  left : Nat
deriving DecidableEq, Repr

/-- A command of a page table that its engine has not finished (R284): its ring, its command, its parameter bytes; and for a
`PAGE_MIGRATE` that has started the entries that are left, and what it has moved and skipped. -/
structure PageJob where
  ring : Nat
  cmd : Cmd
  par : List Byte
  started : Bool
  rest : List Nat
  moved : Nat
  skipped : Nat
deriving DecidableEq, Repr

/-- A free page that reads still use (R284): table, tier, record and page. -/
structure FreePage where
  table : Nat
  tier : Nat
  record : Nat
  page : Nat
deriving DecidableEq, Repr

/-- The memory system of the part. -/
structure MemSys where
  units : Assoc MemUnit
  segs : Assoc (BitVec 5)          -- MEM_HSEG 0-63, MEM_LSEG 64-127
  segErr : Bool
  unpop : W32
  unpopAt : Assoc Nat              -- clock of the last event 0x3170 of each hub agent
  txns : List Txn
  queues : Assoc PumpQueue
  tables : Assoc PageTable
  pumpStat : Assoc Ctr
  pageStat : Assoc Ctr
  nextId : Nat
  copies : List PageCopy
  jobs : List PageJob              -- in the order they arrived
  frees : List FreePage
  memGrants : Assoc Nat            -- key 4 * arbiter + class: the requester last granted (R264, R267)
  lastQueue : Assoc Nat            -- key: pump, 64 + pump: the queue it last served by a start, by a take (R272)
  pumpCtl : Assoc W64              -- PUMP_CTL in force in this round (R277)
  issuedAt : Assoc Nat             -- clock at which a pump last issued a request
deriving DecidableEq, Repr

def MemUnit.reset : MemUnit := ⟨0, false, 0, 0, none, false⟩

def MemSys.reset : MemSys := ⟨[], [], false, 0, [], [], [], [], [], [], 0, [], [], [], [], [], [], []⟩

end Sys2Proof.Machine
end

