-- ==== Sys2Proof/Machine/StateLink.lean ====
section
/-! DEFINITION. The parts of the state that the Beytia ports, the bundles and the tide unit hold (09, 13). Plain data;
`State` puts them together. -/

namespace Sys2Proof.Machine

/-- A flit in a slot of a block or in a lane queue of a port (Table 13.2). -/
structure Flit where
  data : List Byte
  head : Bool
  tail : Bool
  bad : Bool
deriving DecidableEq, Repr

/-- A tide marker as it was received: the source's count, phase and free mark, and the local tide (R336). -/
structure Marker where
  count : Nat
  phase : Nat
  free : Bool
  atCount : Nat
  atPhase : Nat
deriving DecidableEq, Repr

/-- A bundle on its way out of a port: its number, the next offset, and the bytes left from there (R331). -/
structure TxBundle where
  bid : Nat
  off : Nat
  rest : List Byte
deriving DecidableEq, Repr

/-- A bundle being received from a port (R236, R331). -/
structure RxBundle where
  bid : Nat
  bytes : List Byte
  sent : Nat                            -- bytes of the rest that have gone on (R236, daisy-chain mode)
deriving DecidableEq, Repr

/-- A Beytia port (13, Table 13.8). Lanes are 0-2; the states are those of `LINK_PSTAT.state`. -/
structure LinkPort where
  state : Nat
  lr : Bool
  step : Nat
  neighbour : Nat
  delay : Nat
  corrected : W32
  cnt : Assoc Ctr
  tx : Assoc (List Flit)                -- egress lane queues
  svc : List (List Byte)                -- service records waiting, 64 B each
  bundles : List TxBundle
  lastBundle : Bool                     -- the last of the alternating blocks was a bundle block (R330)
  next : Nat                            -- next sequence number n
  buffer : List (Nat × List Byte × Nat) -- unacknowledged blocks, oldest first: sequence, block, clock last sent
  resend : List (List Byte)             -- replays waiting to leave
  tries : Nat                           -- replays since a last advanced
  replayLog : Option Nat                -- clock of the last event 0x2231
  credit : Assoc Nat                    -- cumulative credit received
  sent : Assoc Nat                      -- flits sent
  expect : Nat                          -- e
  acked : Option Nat
  nack : Bool                           -- a nack is due in the next block
  gap : Bool                            -- a nack was sent for the present gap
  rx : Assoc (List Flit)                -- flits of a message still arriving
  inq : Assoc (List Msg)                -- ingress lanes 0 and 1
  since : Assoc Nat                     -- clock at which an ingress lane last moved
  freed : Assoc Nat                     -- cumulative flits freed
  held : List Nat                       -- ingress lanes whose head is held at a dike (R185)
  bundleIn : List (Nat × Nat × List Byte) -- bundle blocks taken and not yet handled: bid, boff, bytes
  rxBundle : Option RxBundle
  svcIn : List (List Byte)              -- service records received and not yet handled
  windows : Assoc Nat                   -- open link windows: lane to the clock at which it closes
  markers : List Marker
  once : List Nat                       -- events of this section already logged
  lastBlock : List Byte                 -- the last block sent (the model's own output field)
deriving DecidableEq, Repr

/-- An `IMAGE_FORWARD` that waits for its statuses (R238): device of each entry and its status. -/
structure Forward where
  ring : Nat
  cmd : Cmd
  entries : List (Nat × Option Nat)
  due : Nat
deriving DecidableEq, Repr

/-- The link ports block, bundles and landing (R236-R238, R297). -/
structure Links where
  ports : Assoc LinkPort
  forwards : List Forward
  nextBid : Nat
  landBase : Option W64       -- a write of CP_LAND_BASE that waits for the landing
  landSize : Option W32
deriving DecidableEq, Repr

/-- A schedule-table entry (Table 13.5): its bytes and the next firing. `opened` is for action 1: the run of the
firing before, while it has not started. -/
structure Sched where
  bytes : List Byte
  next : Nat
deriving DecidableEq, Repr

/-- The tide unit (R334-R342, Table 13.7). -/
structure Tide where
  link : Bool
  port : Nat
  freeRun : Bool
  outEn : Bool
  pinDelay : Nat
  period : Nat
  latched : Nat
  freeRunning : Bool
  present : Bool
  upstreamFree : Bool
  meas : Nat
  cnt : Assoc Ctr
  now : Nat                    -- core cycles, skipped ones among them: the tide unit is never skipped
  lastEdge : Option Nat        -- `now` at the last accepted edge or substituted tick
  ticked : Nat                 -- `now` at the last tick
  holdovers : Nat              -- consecutive holdover ticks
  accepts : Nat                -- consecutive accepted edges
  corr : Int                   -- correction of the present tick: 1 lengthens it (R336)
  corrNext : Int               -- correction of the next tick
  stepTo : Option (Int × Int)  -- step at the next boundary: count change and phase change
  jump : Option (Nat × Nat)    -- (V, A) of form 2
  lastMarker : Option Nat      -- `now` at the last marker taken
  pulses : Nat                 -- pulses of TIDE_OUT (the model's own output field)
  sched : Assoc Sched
deriving DecidableEq, Repr

def LinkPort.reset : LinkPort :=
  { state := 1, lr := false, step := 0, neighbour := 0xFFFF, delay := 0, corrected := 0, cnt := [], tx := [],
    svc := [], bundles := [], lastBundle := false, next := 0, buffer := [], resend := [], tries := 0,
    replayLog := none, credit := [], sent := [], expect := 0, acked := none, nack := false, gap := false, rx := [],
    inq := [], since := [], freed := [], held := [], bundleIn := [], rxBundle := none, svcIn := [], windows := [], markers := [],
    once := [], lastBlock := [] }

def Links.reset : Links := ⟨[], [], 0, none, none⟩

def Tide.reset : Tide :=
  { link := false, port := 0, freeRun := false, outEn := false, pinDelay := 0, period := 1600, latched := 0,
    freeRunning := true, present := false, upstreamFree := false, meas := 0, cnt := [], now := 0, lastEdge := none, ticked := 0,
    holdovers := 0, accepts := 0, corr := 0, corrNext := 0, stepTo := none, jump := none, lastMarker := none, pulses := 0, sched := [] }

end Sys2Proof.Machine
end

