-- ==== Sys2Proof/Machine/State.lean ====
section
/-! DEFINITION. The whole state of the part, the reasons a step can stop, and the state after reset. -/

namespace Sys2Proof.Machine

/-- What the fuses of the part fix before its first power-up and no command changes (log 1): which part it is
(R2-R4), whether the debug fuse is intact (R395), the physical tiles fused out at test (R23), and the vendor key
slots (R395, R396). -/
structure Part where
  is1620 : Bool
  debugOpen : Bool
  fusedOut : List Nat
  vendorSlots : BitVec 3    -- vendor key hashes programmed (Table 16.1)
  vendorRevoked : BitVec 3
deriving DecidableEq, Repr

/-- Every memory of the part and the host memory it reaches: one sparse table of bytes keyed by PHYSICAL
place (see `tileBase`, `hbmBase`, `lpBase`, `hostBase`), an unlisted byte reading 0 (log 5), and the
64-byte granules that carry a poison mark. -/
structure Memory where
  cells : List Host.Cell
  poison : List Nat
deriving DecidableEq, Repr

/-- State of the part (01-17). -/
structure State where
  pending : List Instr
  part : Part
  mem : Memory
  clk : Nat                    -- core cycles not skipped since reset: what every timeout counts (log 8)
  cycles : W64                 -- HEALTH_CYCLES
  tiles : Assoc Tile           -- key: physical tile p = 272 d + 16 y + x (R59)
  displaced : Assoc Nat        -- displacement lists: logical tile to physical host (R160)
  moves : List Move            -- changes not yet applied (R229)
  fabThreshold : Nat           -- FAB_CTL.threshold in force (Table 7.8)
  fabClass : Nat               -- FAB_CLASS in force (R181)
  -- the requester that a bridge end last granted (R180), key 16 * die + 4 * edge + class; from 64 on, that a port egress did (R330),
  -- key 64 + 12 * port + 4 * lane + class
  bridgeGrants : Assoc Nat
  probes : List Probe
  gauges : Gauges
  census : Assoc (BitVec 24)   -- key 8 * logical tile + generation (R223)
  images : List Image
  runs : List Run
  runId : Nat
  owners : List (Nat × Nat × Nat)  -- context, handle and run of each loaded section that owns (R216)
  ldrStat : Assoc Ctr
  condSkip : Assoc Ctr         -- COND_SKIP (R258)
  trees : Assoc (W64 × W64)    -- member entries: key 64 * logical tile + tree (R173)
  polders : Assoc Polder
  weirs : Assoc Weir           -- key 8 * polder + weir
  ms : MemSys
  links : Links
  tide : Tide
  saves : List Save
  sec : Security
  power : Power
  ctxs : Assoc Context
  rings : Assoc RingSt         -- key: context, 64 the privileged ring
  units : Assoc UnitSt         -- key 256 * class + index
  host : HostPort
  health : Health
  log : Log
  regs : Assoc W64             -- RW registers with no home of their own, by BAR0 offset; unlisted: Reset column
  tideCount : W64
  tidePhase : Nat
  devFault : Bool
  ready : Bool
  free : Nat                   -- free values drawn so far (log 7)
deriving DecidableEq, Repr

/-- Faults of the model: none. Every fault of the spec (step, job, device) is an effect on the state, and
no access of a command leaves the state undefined. The constructor stands for an access that the spec says
does not exist; no meaning raises it. Safe. -/
inductive Fault where
  | noSuchPlace
deriving DecidableEq, Repr

/-- Refusals of the model. -/
inductive Refusal where
  /-- A command whose meaning has not been written, raised by its arm in `exec`. Safe. -/
  | notModelled (mnemonic : String)
  /-- A debug access over JTAG on a part whose debug fuse is intact, raised by `execJtagAccess`: the spec
  names the access and gives it no effect (R414). Safe. -/
  | jtagDebug
deriving DecidableEq, Repr

def Ctr.zero : Ctr := ⟨0, false⟩

def Seq.reset : Seq :=
  { idx := 0, st := .idle, preds := 0, ctrs := [0, 0, 0, 0], gwait := none, watchDeadline := none,
    holdOp := none, halt := false, breakEn := false, breakAt := 0, stepOne := false,
    faultEvent := 0, faultIndex := 0 }

def Port.empty : Port := ⟨[], 0, false, false⟩

def Basin.empty : Basin := ⟨0, 0, 0, false, 0, false⟩

def Sluice.reset : Sluice := ⟨false, 0, 0, false, 0, 0, 0⟩

/-- Reset value of the store settings word (Table 6.6). -/
def settingsReset : W64 := 0x9155E155

def TileRegs.reset : TileRegs :=
  { oversize := 0, corr := 0, uncorr := 0, parCount := 0, parLast := 0, lastErrWord := 0,
    lastErrUncorr := false, refused := 0, overrun := 0, settings := settingsReset, orphan := 0,
    fwPolder := 0, fwTree := 0, malformed := 0, parPayload := 0, parHeader := 0, 
    fabSpillFull := false, condSpillFull := false, stale := 0,
    discard := 0, slots := 0 }

def TileSect.reset : TileSect :=
  { gen := 0, configured := false, loading := false, ctx := 0, handle := 0, replays := 0, run := 0,
    inputs := [], saving := false, rerun := false }

def Router.empty : Router := ⟨[], [], [], [], [], [], [], [], 0⟩

def Tile.reset : Tile :=
  { cfg := [], cfgBad := [], swaps := 0, seq := Seq.reset, queues := [], opId := 0, gq := [], egress := [],
    ports := [], basins := [], sluices := [], finished := 0, firings := [], acc := [], vb := [],
    vbPoison := [], hist := [], ctrs := [], once := [], localList := [], wbPending := [],
    progress := 0, collect := ⟨[], false⟩, steerSpill := [], regs := TileRegs.reset, sect := TileSect.reset, retired := false,
    screening := false, router := Router.empty }

def Gauge.reset : Gauge := ⟨0, none, [], 0, 0⟩

def Gauges.reset : Gauges :=
  { gauges := [], xlat := [], tctx := [], inq := [], out := [], outHeld := [], wakes := [], hubWaits := [], waitersUsed := [],
    stat := [], once := [], sel := 0, snap := [] }

/-- A ring as `PERST_N` leaves the privileged one (Table 12.3). -/
def RingSt.reset : RingSt :=
  { base := 0, line := 0, cpl := 0, cmdLog2 := 6, cplLog2 := 6, coalesce := 0, enabled := false,
    halted := false, head := 0, tail := 0, cplTail := 0, cplHead := 0, accepted := [], replies := [],
    vecDue := none, vecWant := false, saving := false }

def HdmDec.reset : HdmDec := ⟨0, 0, false, false⟩

def HostPort.reset : HostPort :=
  { link := .down, hdm := List.replicate 8 HdmDec.reset, vecPending := 0, vecSent := [],
    answer := ⟨0, false⟩, snooped := [], hostLines := [] }

def Screener.reset : Screener :=
  { pos := 0, step := .idle, kind := .rotation, cur := 0, vacated := none, cmd := none, rounds := 0, tideGo := false,
    since := 0, spent := 0, ahead := [], retire := [] }

def Health.reset : Health :=
  { scr := List.replicate 4 Screener.reset, duty := 15, suspect := 3, tideMode := false,
    pack := 0, packRecords := 4096, packMs := 3000, replayLog := [], suspects := [], suspectLogged := [],
    groups := [], exchanges := [], expelled := false, lastGroup := 0, lastMajority := false, sdc := [],
    faultLast := 0, faultTide := 0, scrubPos := [], scrubStart := [], scrubHours := [] }

def Log.reset : Log := ⟨[], [], 0, 0, 0⟩

/-- The part at reset (log 1): an LTK-1640 with its debug fuse blown, no tile fused out, and three vendor
key slots programmed and none revoked. -/
def Part.reset : Part := ⟨false, false, [], 7, 0⟩

/-- The machine right after reset: `PERST_N` is asserted, every register at its Reset column, nothing in any
queue, memory with nothing listed. -/
def State.reset : State :=
  { pending := [], part := Part.reset, mem := ⟨[], []⟩, clk := 0, cycles := 0, tiles := [],
    displaced := [], moves := [], fabThreshold := 0x1000, fabClass := 0x11A, bridgeGrants := [], probes := [], gauges := Gauges.reset, census := [],
    images := [], runs := [], runId := 0, owners := [], ldrStat := [], condSkip := [], trees := [], polders := [],
    weirs := [], ms := MemSys.reset, links := Links.reset, tide := Tide.reset, saves := [],
    sec := Security.reset, power := Power.reset, ctxs := [], rings := [], units := [], host := HostPort.reset, health := Health.reset,
    log := Log.reset, regs := [], tideCount := 0, tidePhase := 0, devFault := false, ready := false, free := 0 }

end Sys2Proof.Machine
end

