-- ==== Sys2Proof/Machine/Store.lean ====
section
/-! DEFINITION. The memories of the part (06, 11): where each store lies in the one sparse table, reads and
writes of bytes, poison marks (R153), and the canonical form. -/

namespace Sys2Proof.Machine

/-- Place of the tile store of physical tile p (R134). -/
def tileBase (p : Nat) : Nat := p * 2 ^ 24
/-- Place of HBM3E stack u. -/
def hbmBase (u : Nat) : Nat := 2 ^ 40 + u * 2 ^ 37
/-- Place of LP5X port u. -/
def lpBase (u : Nat) : Nat := 2 ^ 42 + u * 2 ^ 38
/-- Place of host memory. -/
def hostBase : Nat := 2 ^ 64

/-- The place of memory unit u of `MEM_PORT[u]`: stacks 0-7, ports 8-15. -/
def unitBase (u : Nat) : Nat := if u < 8 then hbmBase u else lpBase (u - 8)

/-- One byte; an unlisted byte is 0 (log 5). -/
def Memory.byte (m : Memory) (a : Nat) : Byte := agetD m.cells a 0

/-- `n` bytes from a place on. -/
def Memory.read (m : Memory) (a n : Nat) : List Byte := (List.range n).map (fun i => m.byte (a + i))

/-- A little-endian number of `n` bytes (R10). -/
def Memory.num (m : Memory) (a n : Nat) : Nat := leNat (m.read a n)

/-- One byte written, in canonical form: a byte equal to 0 is not listed. -/
def Memory.putByte (m : Memory) (a : Nat) (b : Byte) : Memory := { m with cells := awrite 0 m.cells a b }

/-- Bytes written from a place on; poison marks are left as they are. -/
def Memory.putBytes : Memory → Nat → List Byte → Memory
  | m, _, [] => m
  | m, a, b :: bs => Memory.putBytes (m.putByte a b) (a + 1) bs

/-- A sorted list of numbers with one added. -/
def insNat : List Nat → Nat → List Nat
  | [], x => [x]
  | y :: t, x => if x < y then x :: y :: t else if x = y then y :: t else y :: insNat t x

/-- A sorted list of numbers with one taken out. -/
def delNat (l : List Nat) (x : Nat) : List Nat := l.filter (fun y => y != x)

/-- The poison mark of a granule (64 bytes). -/
def Memory.marked (m : Memory) (g : Nat) : Bool := m.poison.contains g

/-- The granules that `n` bytes from `a` touch. -/
def granules (a n : Nat) : List Nat :=
  if n = 0 then [] else (List.range ((a + n - 1) / 64 - a / 64 + 1)).map (fun i => a / 64 + i)

/-- Any mark in a range. -/
def Memory.poisoned (m : Memory) (a n : Nat) : Bool := (granules a n).any m.marked

/-- A mark set or cleared. -/
def Memory.mark (m : Memory) (g : Nat) (v : Bool) : Memory :=
  { m with poison := if v then insNat m.poison g else delNat m.poison g }

/-- The granules that a range covers whole. -/
def wholeGranules (a n : Nat) : List Nat :=
  (granules a n).filter (fun g => a ≤ g * 64 && g * 64 + 64 ≤ a + n)

/-- A write under R153: poisoned data marks every granule it touches; unpoisoned data clears the mark of every
granule it covers whole, and leaves the others. -/
def Memory.write (m : Memory) (a : Nat) (bs : List Byte) (poison : Bool) : Memory :=
  let m' := m.putBytes a bs
  if poison then (granules a bs.length).foldl (fun x g => x.mark g true) m'
  else (wholeGranules a bs.length).foldl (fun x g => x.mark g false) m'

/-- Granule by granule: 64-byte pieces, each with its own mark. -/
def Memory.writeMarked (m : Memory) (a : Nat) (bs : List Byte) (isBad : Nat → Bool) : Memory :=
  (granules a bs.length).foldl (fun x g =>
    let lo := max a (g * 64)
    let hi := min (a + bs.length) (g * 64 + 64)
    x.write lo ((bs.drop (lo - a)).take (hi - lo)) (isBad g)) m

/-- Every byte and mark of the places [lo, lo + n) gone back to zero and clear (R154). -/
def Memory.zero (m : Memory) (lo n : Nat) : Memory :=
  { cells := adelRange m.cells lo n,
    poison := m.poison.filter (fun g => g * 64 + 63 < lo || lo + n ≤ g * 64) }

/-- Bytes and marks copied from one place to another. -/
def Memory.copy (m : Memory) (src dst n : Nat) : Memory :=
  let moved := m.cells.filter (fun c => src ≤ c.1 && c.1 < src + n)
  let marks := m.poison.filter (fun g => src ≤ g * 64 && g * 64 < src + n)
  let z := m.zero dst n
  let w := moved.foldl (fun x c => x.putByte (c.1 - src + dst) c.2) z
  marks.foldl (fun x g => x.mark (g - src / 64 + dst / 64) true) w

/-- The list form that equal memories share: addresses strictly rising, no byte 0 listed, marks rising. -/
def Memory.wf (m : Memory) : Bool :=
  asorted m.cells && m.cells.all (fun c => c.2 != 0) && decide (m.poison.Pairwise (· < ·))

/-- The canonical form of a memory: what every command leaves behind. It changes no byte and no mark. -/
def Memory.canon (m : Memory) : Memory :=
  { cells := m.cells.foldr (fun c acc => awrite 0 acc c.1 c.2) [],
    poison := m.poison.foldr (fun g acc => insNat acc g) [] }

end Sys2Proof.Machine
end

