-- ==== Sys2Proof/Machine/CheckCode.lean ====
section
/-! DEFINITION. The check codes of stored words: tile store (R150, R151) and memory units (R265). A word at rest carries its
valid code, so the state holds no check bits; a command that reads a word says which bits are found flipped. -/

namespace Sys2Proof.Machine

/-- Parity of the bits below n that satisfy p. -/
def parityOf (n : Nat) (p : Nat → Bool) : Bool := (List.range n).foldl (fun a j => xor a (p j)) false

/-- Bits set among the low 8. -/
def weight8 (x : Nat) : Nat := ((List.range 8).filter (fun k => x.testBit k)).length

/-- Column codes: the 56 values of weight 3 in ascending order, then the 8 smallest of weight 5. -/
def ccodes : List Nat :=
  (List.range 256).filter (fun x => weight8 x == 3) ++ ((List.range 256).filter (fun x => weight8 x == 5)).take 8

/-- The check code of a word: `colp` in bits 15-8, `rowp` in bits 7-0. -/
def checkCode (d : BitVec 512) : BitVec 16 :=
  let cs := ccodes
  let rowp (r : Nat) : Bool := parityOf 64 (fun j => d.getLsbD (64 * r + j))
  let col (b : Nat) : Bool := parityOf 8 (fun r => d.getLsbD (64 * r + b))
  let colp (k : Nat) : Bool := parityOf 64 (fun b => col b && (cs.getD b 0).testBit k)
  BitVec.ofNat 16 (maskOf 8 rowp + 256 * maskOf 8 colp)

/-- What a read finds. -/
inductive Found where
  | clean | corrected | uncorrectable
deriving DecidableEq, Repr

/-- The only bit set among the low 8. -/
def oneBit (x : Nat) : Option Nat := if weight8 x == 1 then (List.range 8).find? (fun k => x.testBit k) else none

/-- A word read with its check bits: the outcome, and the word delivered (Table of R151). -/
def classify (w : BitVec 512) (check : BitVec 16) : Found × BitVec 512 :=
  let syn := (checkCode w ^^^ check).toNat
  let sr := syn % 256
  let sc := syn / 256
  if sr == 0 && sc == 0 then (.clean, w)
  else match oneBit sr with
    | some r =>
      if sc == 0 then (.corrected, w)
      else match (List.range 64).find? (fun b => ccodes.getD b 0 == sc) with
        | some b => (.corrected, w ^^^ BitVec.ofNat 512 (2 ^ (64 * r + b)))
        | none => (.uncorrectable, w)
    | none => if sr == 0 && (oneBit sc).isSome then (.corrected, w) else (.uncorrectable, w)

/-- A word d at rest read with data bits e and check bits f flipped. -/
def readFlipped (d e : BitVec 512) (f : BitVec 16) : Found × BitVec 512 := classify (d ^^^ e) (checkCode d ^^^ f)

/-- A poison mark m read with some of its three copies flipped: the majority (R150). -/
def markRead (m : Bool) (c : BitVec 3) : Bool :=
  2 ≤ ((List.range 3).filter (fun k => m != c.getLsbD k)).length

/-- 8-bit symbols that an error touches, the check bits counted as two. -/
def symbolsHit (e : BitVec 512) (f : BitVec 16) : Nat :=
  ((List.range 64).filter (fun k => fld e.toNat (8 * k) 8 != 0)).length +
  ((List.range 2).filter (fun k => fld f.toNat (8 * k) 8 != 0)).length

end Sys2Proof.Machine
end

