-- ==== Sys2Proof/Machine/Fp.lean ====
section
/-! DEFINITION. Number formats (03): element layouts (R61), canonical NaN (R62), block scales (R64),
integers (R69, R70), rounding and overflow (R76, R77, R79), maximum, minimum and comparison (R80). -/

namespace Sys2Proof.Machine

/-- A value of any number format: NaN, an infinity, or the exact number (-1)^neg * m * 2^e; a zero keeps
its sign (R61, R62). -/
inductive Fv where
  | nan
  | inf (neg : Bool)
  | fin (neg : Bool) (m : Nat) (e : Int)
deriving DecidableEq, Repr

/-- What a layout's all-ones exponent field holds (Table 3.2). -/
inductive FpKind where
  | ieee | e4m3 | finite
deriving DecidableEq, Repr

/-- One row of Table 3.2. -/
structure FpFmt where
  ebits : Nat
  mbits : Nat
  bias : Nat
  kind : FpKind
deriving DecidableEq, Repr

def fmtFp32 : FpFmt := ⟨8, 23, 127, .ieee⟩
def fmtBf16 : FpFmt := ⟨8, 7, 127, .ieee⟩
def fmtFp16 : FpFmt := ⟨5, 10, 15, .ieee⟩
def fmtE5m2 : FpFmt := ⟨5, 2, 15, .ieee⟩
def fmtE4m3 : FpFmt := ⟨4, 3, 7, .e4m3⟩
def fmtE3m2 : FpFmt := ⟨3, 2, 3, .finite⟩
def fmtE2m3 : FpFmt := ⟨2, 3, 1, .finite⟩
def fmtE2m1 : FpFmt := ⟨2, 1, 1, .finite⟩

/-- Exponent of the smallest step of a layout: that of its subnormals. -/
def FpFmt.qmin (f : FpFmt) : Int := 1 - Int.ofNat f.bias - Int.ofNat f.mbits

/-- Magnitude bits of the largest finite value (Table 3.2). -/
def FpFmt.maxMag (f : FpFmt) : Nat :=
  match f.kind with
  | .ieee => (2 ^ f.ebits - 1) * 2 ^ f.mbits - 1
  | .e4m3 => 0x7E
  | .finite => 2 ^ (f.ebits + f.mbits) - 1

/-- The canonical NaN (R62); a layout without a NaN has none of its own. -/
def FpFmt.nanBits (f : FpFmt) : Nat :=
  match f.kind with
  | .ieee => (2 ^ f.ebits - 1) * 2 ^ f.mbits + 2 ^ (f.mbits - 1)
  | .e4m3 => 0x7F
  | .finite => 0

/-- The value of an encoding (R61, R62). -/
def FpFmt.dec (f : FpFmt) (w : Nat) : Fv :=
  let neg := w.testBit (f.ebits + f.mbits)
  let ex := fld w f.mbits f.ebits
  let m := fld w 0 f.mbits
  let top := 2 ^ f.ebits - 1
  if f.kind == .ieee && ex == top then (if m == 0 then .inf neg else .nan)
  else if f.kind == .e4m3 && ex == top && m == 7 then .nan
  else if ex == 0 then .fin neg m f.qmin
  else .fin neg (m + 2 ^ f.mbits) (f.qmin + Int.ofNat (ex - 1))

/-- Rounding modes of the conversion control word (R75); `stoch r` carries the 16-bit draw of R79. -/
inductive Rnd where
  | rne | rtz | stoch (r : Nat)
deriving DecidableEq, Repr

/-- Whether the magnitude is raised from `lo` to the next step: `rem` of `2 ^ sh` is what `lo` leaves. -/
def Rnd.up (rnd : Rnd) (lo rem sh : Nat) : Bool :=
  match rnd with
  | .rne => 2 * rem > 2 ^ sh || (2 * rem == 2 ^ sh && lo % 2 == 1 && sh != 0)
  | .rtz => false
  | .stoch r => decide (r < rem * 65536 / 2 ^ sh)

/-- Whole steps of 2^q in m * 2^e, rounded (R76, R79). -/
def roundSteps (rnd : Rnd) (m : Nat) (e q : Int) : Nat :=
  if q ≤ e then m * 2 ^ (e - q).toNat
  else
    let sh := (q - e).toNat
    let lo := m / 2 ^ sh
    if rnd.up lo (m % 2 ^ sh) sh then lo + 1 else lo

/-- Magnitude bits of m * 2^e (m positive) rounded to a layout; past the largest finite value the
encoding just goes on, so a reader compares with `maxMag` (R76, R77, R79). -/
def FpFmt.roundMag (f : FpFmt) (rnd : Rnd) (m : Nat) (e : Int) : Nat :=
  let top := Int.ofNat m.log2 + e - Int.ofNat f.mbits
  let q := max top f.qmin
  (q - f.qmin).toNat * 2 ^ f.mbits + roundSteps rnd m e q

/-- The sign bit of a layout's encoding. -/
def FpFmt.signBit (f : FpFmt) (neg : Bool) : Nat := if neg then 2 ^ (f.ebits + f.mbits) else 0

/-- What an overflow gives (R76, R77): infinity, the largest finite value, or the E4M3 NaN. -/
def FpFmt.overflow (f : FpFmt) (rnd : Rnd) (nanMode neg : Bool) : Nat :=
  match f.kind with
  | .ieee =>
    if rnd == .rtz then f.signBit neg + f.maxMag else f.signBit neg + (f.maxMag + 1)
  | .e4m3 => if nanMode && rnd != .rtz then 0x7F else f.signBit neg + f.maxMag
  | .finite => f.signBit neg + f.maxMag

/-- Conversion of a value to a layout (R62, R76, R77, R79). -/
def FpFmt.enc (f : FpFmt) (rnd : Rnd) (nanMode : Bool) (x : Fv) : Nat :=
  match x with
  | .nan => f.nanBits
  | .inf neg =>
    match f.kind with
    | .ieee => f.signBit neg + (f.maxMag + 1)
    | .e4m3 => if nanMode then 0x7F else f.signBit neg + f.maxMag
    | .finite => f.signBit neg + f.maxMag
  | .fin neg m e =>
    if m == 0 then f.signBit neg
    else
      let b := f.roundMag rnd m e
      if b > f.maxMag then f.overflow rnd nanMode neg else f.signBit neg + b

/-- A value rounded to FP32, to nearest even: the FP32 result of one vector-engine operation. -/
def r32 (x : Fv) : W32 := BitVec.ofNat 32 (fmtFp32.enc .rne false x)

/-- The value of an FP32 word. -/
def d32 (w : W32) : Fv := fmtFp32.dec w.toNat

/-- The canonical FP32 NaN (R62). -/
def nan32 : W32 := 0x7FC00000

/-- Exact signed integer and exponent of a finite value. -/
def Fv.toInt (neg : Bool) (m : Nat) : Int := if neg then -Int.ofNat m else Int.ofNat m

/-- A finite value from a signed integer; `zneg` is the sign of an exact zero. -/
def Fv.ofInt (zneg : Bool) (i : Int) (e : Int) : Fv :=
  if i == 0 then .fin zneg 0 0 else .fin (i < 0) i.natAbs e

/-- Exact addition with IEEE 754-2019 special cases and zero signs (R72). -/
def Fv.add (a b : Fv) : Fv :=
  match a, b with
  | .nan, _ => .nan
  | _, .nan => .nan
  | .inf x, .inf y => if x == y then .inf x else .nan
  | .inf x, _ => .inf x
  | _, .inf y => .inf y
  | .fin n m e, .fin n' m' e' =>
    let q := min e e'
    Fv.ofInt (n && n')
      (Fv.toInt n (m * 2 ^ (e - q).toNat) + Fv.toInt n' (m' * 2 ^ (e' - q).toNat)) q

/-- Negation. -/
def Fv.neg : Fv → Fv
  | .nan => .nan
  | .inf n => .inf (!n)
  | .fin n m e => .fin (!n) m e

/-- Absolute value. -/
def Fv.abs : Fv → Fv
  | .nan => .nan
  | .inf _ => .inf false
  | .fin _ m e => .fin false m e

/-- Exact multiplication. -/
def Fv.mul (a b : Fv) : Fv :=
  match a, b with
  | .nan, _ => .nan
  | _, .nan => .nan
  | .inf x, .inf y => .inf (x != y)
  | .inf x, .fin n m _ => if m == 0 then .nan else .inf (x != n)
  | .fin n m _, .inf y => if m == 0 then .nan else .inf (n != y)
  | .fin n m e, .fin n' m' e' => .fin (n != n') (m * m') (e + e')

/-- A nonzero number q / 2^k with every dropped bit folded into a low sticky bit: exact for every
rounding to 24 bits or fewer with 16 draw bits. -/
def Fv.sticky (neg : Bool) (q : Nat) (inexact : Bool) (e : Int) : Fv :=
  .fin neg (2 * q + b2n inexact) (e - 1)

/-- Division: quotient to 72 bits and a sticky bit. x / 0 is an infinity, 0 / 0 NaN (IEEE 754-2019, R63). -/
def Fv.div (a b : Fv) : Fv :=
  match a, b with
  | .nan, _ => .nan
  | _, .nan => .nan
  | .inf _, .inf _ => .nan
  | .inf x, .fin n _ _ => .inf (x != n)
  | .fin n _ _, .inf y => .fin (n != y) 0 0
  | .fin n m e, .fin n' m' e' =>
    if m' == 0 then (if m == 0 then .nan else .inf (n != n'))
    else if m == 0 then .fin (n != n') 0 0
    else
      let sh := 72 + m'.log2
      let num := m * 2 ^ sh
      Fv.sticky (n != n') (num / m') (num % m' != 0) (e - e' - Int.ofNat sh)

/-- Integer square root, by halving the interval, one bit per unit of fuel. -/
def isqrtGo : Nat → Nat → Nat → Nat
  | 0, _, r => r
  | k + 1, n, r => isqrtGo k n (if (r + 2 ^ k) * (r + 2 ^ k) ≤ n then r + 2 ^ k else r)

def isqrt (n : Nat) : Nat := isqrtGo (n.log2 / 2 + 1) n 0

/-- Square root to 72 bits or more and a sticky bit; of a negative number NaN, of -0 -0. -/
def Fv.sqrt (a : Fv) : Fv :=
  match a with
  | .nan => .nan
  | .inf n => if n then .nan else .inf false
  | .fin n m e =>
    if m == 0 then .fin n 0 0
    else if n then .nan
    else
      let odd := e % 2 != 0
      let m' := (if odd then 2 * m else m) * 2 ^ 160
      let e' := (if odd then e - 1 else e) - 160
      let r := isqrt m'
      Fv.sticky false r (r * r != m') (e' / 2)

/-- -1, 0 or 1 as the finite or infinite values compare; both zeros are equal. No NaN comes here. -/
def Fv.cmp (a b : Fv) : Int :=
  match a, b with
  | .inf x, .inf y => if x == y then 0 else if x then -1 else 1
  | .inf x, _ => if x then -1 else 1
  | _, .inf y => if y then 1 else -1
  | .fin n m e, .fin n' m' e' =>
    let q := min e e'
    let i := Fv.toInt n (m * 2 ^ (e - q).toNat)
    let j := Fv.toInt n' (m' * 2 ^ (e' - q).toNat)
    if i < j then -1 else if i == j then 0 else 1
  | _, _ => 0

def Fv.isNan : Fv → Bool
  | .nan => true
  | _ => false

def Fv.isInf : Fv → Bool
  | .inf _ => true
  | _ => false

def Fv.isZero : Fv → Bool
  | .fin _ m _ => m == 0
  | _ => false

def Fv.signBit : Fv → Bool
  | .nan => false
  | .inf n => n
  | .fin n _ _ => n

/-- IEEE 754-2019 comparisons eq, ne, lt, le, gt, ge in this order (R80, Table 5.1). -/
def Fv.test (cond : Nat) (a b : Fv) : Bool :=
  if a.isNan || b.isNan then cond == 1
  else
    let c := Fv.cmp a b
    match cond with
    | 0 => c == 0
    | 1 => c != 0
    | 2 => c < 0
    | 3 => c ≤ 0
    | 4 => c > 0
    | _ => c ≥ 0

/-- Maximum of R80: NaN wins, -0 below +0. -/
def Fv.max (a b : Fv) : Fv :=
  if a.isNan || b.isNan then .nan
  else if a.isZero && b.isZero then (if a.signBit then b else a)
  else if Fv.cmp a b < 0 then b else a

/-- Minimum of R80. -/
def Fv.min (a b : Fv) : Fv :=
  if a.isNan || b.isNan then .nan
  else if a.isZero && b.isZero then (if a.signBit then a else b)
  else if Fv.cmp b a < 0 then b else a

/-- floor(log2 |x|) of a nonzero finite value. -/
def Fv.ilog : Fv → Int
  | .fin _ m e => Int.ofNat m.log2 + e
  | _ => 0

/-- Multiplication by a power of two, exact. -/
def Fv.scale (x : Fv) (k : Int) : Fv :=
  match x with
  | .fin n m e => .fin n m (e + k)
  | y => y

/-- An integer as a value. -/
def Fv.ofZ (i : Int) : Fv := .fin (i < 0) i.natAbs 0

/-- Saturation of an integer to `len` bits of two's complement (R69). -/
def satInt (len : Nat) (i : Int) : Int :=
  let hi := Int.ofNat (2 ^ (len - 1)) - 1
  if i > hi then hi else if i < -hi - 1 then -hi - 1 else i

/-- Float to integer (R70). -/
def Fv.toIntSat (rnd : Rnd) (len : Nat) : Fv → Int
  | .nan => 0
  | .inf n => if n then -Int.ofNat (2 ^ (len - 1)) else Int.ofNat (2 ^ (len - 1)) - 1
  | .fin n m e => satInt len (Fv.toInt n (roundSteps rnd m e 0))

/-! ## Format codes (Table 3.1) -/

/-- How many bits an element of a format code takes; 0 for a reserved code. -/
def fmtBits : Nat → Nat
  | 0x00 => 32
  | 0x01 => 16
  | 0x02 => 16
  | 0x08 => 8
  | 0x09 => 8
  | 0x0A => 6
  | 0x0B => 6
  | 0x0C => 4
  | 0x0D => 8
  | 0x10 => 8
  | 0x11 => 6
  | 0x12 => 4
  | 0x18 => 8
  | 0x19 => 16
  | 0x1A => 32
  | _ => 0

/-- Elements per block; 1 for a format without a block scale (R60, R66). -/
def fmtBlock (c : Nat) : Nat :=
  if 0x08 ≤ c && c ≤ 0x0D then 32 else if 0x10 ≤ c && c ≤ 0x12 then 16 else 1

def fmtIsBlock (c : Nat) : Bool := fmtBlock c != 1
def fmtIsInt (c : Nat) : Bool := 0x18 ≤ c && c ≤ 0x1A
def fmtIsFloat (c : Nat) : Bool := c ≤ 0x02
def fmtValid (c : Nat) : Bool := fmtBits c != 0

/-- The floating-point layout of a code's elements; MXINT8 and the integers have none. -/
def fmtLayout : Nat → Option FpFmt
  | 0x00 => some fmtFp32
  | 0x01 => some fmtBf16
  | 0x02 => some fmtFp16
  | 0x08 => some fmtE4m3
  | 0x09 => some fmtE5m2
  | 0x0A => some fmtE3m2
  | 0x0B => some fmtE2m3
  | 0x0C => some fmtE2m1
  | 0x10 => some fmtE4m3
  | 0x11 => some fmtE2m3
  | 0x12 => some fmtE2m1
  | _ => none

/-- emax of R78. -/
def fmtEmax : Nat → Int
  | 0x08 => 8
  | 0x10 => 8
  | 0x09 => 15
  | 0x0A => 4
  | 0x0B => 2
  | 0x11 => 2
  | 0x0C => 2
  | 0x12 => 2
  | _ => 0

/-- The value of an element before its block scale (R61, R65, R69). -/
def decElem (c w : Nat) : Fv :=
  match fmtLayout c with
  | some f => f.dec w
  | none =>
    if c == 0x0D then (Fv.ofZ (sext w 8)).scale (-6) else Fv.ofZ (sext w (fmtBits c))

/-- The value of a block-format element under its scale byte (R64, R68). -/
def decScaled (c w scale : Nat) : Fv :=
  if fmtIsBlock c then
    (if scale == 0xFF then .nan else (decElem c w).scale (Int.ofNat scale - 127))
  else decElem c w

/-- Conversion of a value to an element of a scalar format, or of a block format after its scale has been
taken out (R65, R69, R70, R76, R77). -/
def encElem (c : Nat) (rnd : Rnd) (nanMode : Bool) (x : Fv) : Nat :=
  match fmtLayout c with
  | some f => f.enc rnd nanMode x
  | none =>
    if c == 0x0D then
      (match x with
       | .nan => 0
       | .inf n => if n then 0x81 else 0x7F
       | .fin n m e =>
         let k := min (roundSteps rnd m e (-6)) 127
         if n then wrapInt (-Int.ofNat k) 8 else k)
    else wrapInt (x.toIntSat rnd (fmtBits c)) (fmtBits c)

/-- Scale byte and elements of one block (R78); `rnd` gives each element its rounding (R79). -/
def encBlock (c : Nat) (rnd : Nat → Rnd) (nanMode : Bool) (vs : List Fv) : Nat × List Nat :=
  if vs.any (fun v => v.isNan || v.isInf) then (0xFF, vs.map (fun _ => 0))
  else
    let amax := vs.foldl (fun a v => if Fv.cmp a v.abs < 0 then v.abs else a) (.fin false 0 0)
    if amax.isZero then
      (0x00, vs.map (fun _ => 0))
    else
      let x := max (-127) (min 127 (amax.ilog - fmtEmax c))
      ((x + 127).toNat,
       (vs.zip (List.range vs.length)).map (fun p => encElem c (rnd p.2) nanMode (p.1.scale (-x))))

/-- Histogram bin of a written element (R82): its value in the output format, scale included; `flushed`
marks a flush of R73. -/
def histBin (flushed : Bool) (v : Fv) : Nat :=
  match v with
  | .nan => 67
  | .inf _ => 66
  | .fin _ m _ =>
    if m == 0 then (if flushed then 65 else 64)
    else
      let e := v.ilog
      (max 0 (min 63 (e + 32))).toNat

/-- Flush of R73: a magnitude below the smallest normal of a layout becomes zero of its sign. -/
def flushed (f : FpFmt) (x : Fv) : Bool :=
  match x with
  | .fin _ m _ => m != 0 && decide (x.ilog < 1 - Int.ofNat f.bias)
  | _ => false

def flush (f : FpFmt) (x : Fv) : Fv := if flushed f x then .fin x.signBit 0 0 else x

/-- IEEE 754 single operations on FP32 words, each correctly rounded to nearest even (after R74). -/
def fadd (a b : W32) : W32 := r32 (Fv.add (d32 a) (d32 b))
def fsub (a b : W32) : W32 := r32 (Fv.add (d32 a) (Fv.neg (d32 b)))
def fmul (a b : W32) : W32 := r32 (Fv.mul (d32 a) (d32 b))
def ffma (a b c : W32) : W32 := r32 (Fv.add (Fv.mul (d32 a) (d32 b)) (d32 c))
def fdiv (a b : W32) : W32 := r32 (Fv.div (d32 a) (d32 b))
def fsqrt (a : W32) : W32 := r32 (Fv.sqrt (d32 a))
def fmax (a b : W32) : W32 := r32 (Fv.max (d32 a) (d32 b))
def fmin (a b : W32) : W32 := r32 (Fv.min (d32 a) (d32 b))

end Sys2Proof.Machine
end

