-- ==== Sys2Proof/Machine/Ops.lean ====
section
/-! DEFINITION. The operations every meaning shares: registers, tiles and counters, the trouble log and its
vectors (R391-R393), replies (R301, R314), job faults and FABRIC_RESET (R311, R360), device faults (R363),
and the wrapper that ends every meaning. -/

namespace Sys2Proof.Machine

/-- Nothing on the core clock runs: `PERST_N` is asserted, the device has stopped on a lost rail, or the thermal trip has
gated its clocks (R418, R420, R429). -/
def State.stopped (s : State) : Bool := s.power.perst || s.power.stopped || s.power.trip

/-- The result of a command of the board: the queue and the part's identity are as they were, and the memory is in
canonical form. -/
def doneBoard (s s' : State) : State :=
  { s' with pending := s.pending, part := s.part, mem := s'.mem.canon }

/-- Back-invalidate snoops for these granules, those of them that the host has read (R294). -/
def State.backInv (s : State) (gs : List Nat) : State :=
  gs.foldl (fun x g => match aget? x.host.hostLines g with
    | some a => { x with host := { x.host with hostLines := adel x.host.hostLines g, snooped := a :: x.host.snooped } }
    | none => x) s

/-- The lines the host has read whose bytes or marks a command changed are snooped too (R294). -/
def State.snoopChanged (s s' : State) : State :=
  s'.backInv ((s'.host.hostLines.map (·.1)).filter (fun g =>
    s.mem.read (64 * g) 64 != s'.mem.read (64 * g) 64 || s.mem.marked g != s'.mem.marked g))

/-- The result of a meaning on the core clock: as `doneBoard`, and no change while the core clock stands. Every meaning
but those of the board ends with it. -/
def done (s s' : State) : State := if s.stopped then doneBoard s s else doneBoard s (s.snoopChanged s')

/-- A fresh free value (log 7). -/
def State.draw (s : State) : Nat × State := (Config.freeWord s.free, { s with free := s.free + 1 })

/-! ## The part -/

/-- Field dies the part has (R4). -/
def State.dies (s : State) : Nat := if s.part.is1620 then 2 else 4
/-- Logical tiles of the part. -/
def State.ntiles (s : State) : Nat := s.dies * 256
/-- HBM3E stacks, LP5X ports, Beytia ports the part has (R4, Table 1.5). -/
def State.nstacks (s : State) : Nat := if s.part.is1620 then 4 else 8
def State.nlp (s : State) : Nat := if s.part.is1620 then 4 else 8
def State.nports (s : State) : Nat := if s.part.is1620 then 4 else 8
/-- Family code (R2). -/
def State.family (s : State) : Nat := if s.part.is1620 then 0x1620 else 0x1640

/-- Die, column and row of a physical tile (R59). -/
def pDie (p : Nat) : Nat := p / 272
def pX (p : Nat) : Nat := p % 272 % 16
def pY (p : Nat) : Nat := p % 272 / 16
def pOf (d x y : Nat) : Nat := d * 272 + y * 16 + x
/-- Die, column and row of a logical tile (R159). -/
def lDie (n : Nat) : Nat := n / 256
def lX (n : Nat) : Nat := n % 16
def lY (n : Nat) : Nat := n % 256 / 16
def lOf (d x y : Nat) : Nat := d * 256 + y * 16 + x

/-- Physical host of a logical tile (R160). -/
def State.phys (s : State) (n : Nat) : Nat :=
  agetD s.displaced n (pOf (lDie n) (lX n) (lY n))

/-- Logical tile that a physical tile serves, if any (R160). -/
def State.logical (s : State) (p : Nat) : Option Nat :=
  match s.displaced.find? (fun e => e.2 == p) with
  | some e => some e.1
  | none =>
    if pY p ≥ 16 then none
    else
      let n := lOf (pDie p) (pX p) (pY p)
      match aget? s.displaced n with
      | some _ => none
      | none => if n < s.ntiles then some n else none

/-- A physical tile. -/
def State.tile (s : State) (p : Nat) : Tile := agetD s.tiles p Tile.reset
def State.setTile (s : State) (p : Nat) (t : Tile) : State := { s with tiles := aput s.tiles p t }
def State.modTile (s : State) (p : Nat) (f : Tile → Tile) : State := s.setTile p (f (s.tile p))
/-- The physical tile that serves a logical one. -/
def State.ltile (s : State) (n : Nat) : Tile := s.tile (s.phys n)

/-! ## Registers and counters -/

/-- Reset column of the RW registers kept in `regs` (Tables 7.8, 11.10, 12.3, 13.8, 15.14; the MSI-X mask bits by the
PCI rule, log 9). -/
def regReset (off : Nat) : W64 :=
  if 0x8000 ≤ off && off < 0x8480 then (if off % 16 == 12 then 1 else 0)
  else if off == 0x10020 then 0x606
  else if off == 0x100000 then 0xFFFF
  else if off == 0x100018 then 0x1A
  else if off == 0x201000 then 0x101000
  else if off == 0x201004 then 0x11A
  else if off == 0x207804 then 0x5F69
  else if off == 0x200010 then 20
  else if off == 0x200020 then 0x181818
  else if 0x205000 ≤ off && off < 0x2050A0 then 0x4D0
  else 0

def State.reg (s : State) (off : Nat) : W64 := agetD s.regs off (regReset off)
def State.setReg (s : State) (off : Nat) (v : W64) : State := { s with regs := aput s.regs off v }

/-- `LINK_ID.id` (R162, R327). -/
def regLinkId : Nat := 0x100000
def State.deviceId (s : State) : Nat := fld (s.reg regLinkId).toNat 0 16

/-- A performance counter raised by n (R394). -/
def Ctr.add (c : Ctr) (n : Nat) : Ctr :=
  let v := c.count.toNat + n
  { count := BitVec.ofNat 48 v, ovf := c.ovf || v ≥ 2 ^ 48 }

/-- The 64-bit register of a performance counter. -/
def Ctr.word (c : Ctr) : Nat := c.count.toNat + (if c.ovf then 2 ^ 48 else 0)

def bump (t : Assoc Ctr) (k n : Nat) : Assoc Ctr := if n == 0 then t else amod t k Ctr.zero (fun c => c.add n)

/-- Banks of a tile's counters: TDBG_FIRE[u], MXC, VRC, TSC, FBC, CCC. -/
def bankFire (u : Nat) : Nat := u
def bankMxc (k : Nat) : Nat := 16 + k
def bankVrc (k : Nat) : Nat := 24 + k
def bankTsc (k : Nat) : Nat := 32 + k
def bankFbc (k : Nat) : Nat := 40 + k
def bankCcc (k : Nat) : Nat := 48 + k

def Tile.bump (t : Tile) (k n : Nat) : Tile := { t with ctrs := Machine.bump t.ctrs k n }
def State.bumpTile (s : State) (p k n : Nat) : State := s.modTile p (fun t => t.bump k n)

/-- Saturating 32-bit count. -/
def sat32 (c : W32) (n : Nat) : W32 := BitVec.ofNat 32 (satAdd 32 c.toNat n)

def Tile.modRegs (t : Tile) (f : TileRegs → TileRegs) : Tile := { t with regs := f t.regs }
def Tile.modSeq (t : Tile) (f : Seq → Seq) : Tile := { t with seq := f t.seq }
def Tile.modSect (t : Tile) (f : TileSect → TileSect) : Tile := { t with sect := f t.sect }
def Tile.modRouter (t : Tile) (f : Router → Router) : Tile := { t with router := f t.router }

/-- A tile makes progress (R385). -/
def State.noteProgress (s : State) (p : Nat) : State := s.modTile p (fun t => { t with progress := s.clk })

/-! ## The trouble log -/

/-- An MSI-X vector: sent, or set pending while masked (R314). -/
def State.vector (s : State) (v : Nat) : State :=
  if (s.reg (0x8000 + 16 * v + 12)).getLsbD 0 then
    { s with host := { s.host with vecPending := putBit s.host.vecPending v true } }
  else { s with host := { s.host with vecSent := v :: s.host.vecSent } }

/-- The vector an event sends (R393, Table 12.13). -/
def eventVector (code : Nat) : Option Nat :=
  if 0x4000 ≤ code && code < 0x5000 then some 1
  else if 0x5000 ≤ code && code < 0x6000 then some 2
  else if 0x6000 ≤ code && code < 0x7000 then some 3
  else if code == 0x1250 || code == 0x2301 || code == 0x2302 || code == 0x3301 || code == 0x3302 then some 2
  else if code == 0x3201 then some 4
  else if code == 0x1220 then some 5
  else none

/-- Items packed from byte 16, each aligned to its width (R392): (width, value). -/
def packItems : List (Nat × Nat) → List Byte → List Byte
  | [], acc => acc
  | (w, v) :: t, acc =>
    packItems t (acc ++ List.replicate (alignUp acc.length w - acc.length) 0 ++ leBytes w v)

def detailOf (items : List (Nat × Nat)) : List Byte := padTo 16 (packItems items [])

/-- The 32 bytes of a log entry (Table 15.9). -/
def entryBytes (tide phase : Nat) (ctx : Option Nat) (code kind index : Nat) (detail : List Byte) : List Byte :=
  leBytes 8 tide ++
  leBytes 4 (phase % 2 ^ 20 + (match ctx with | some c => (c % 64) * 2 ^ 20 + 2 ^ 26 | none => 0)) ++
  leBytes 2 code ++ leBytes 2 (index % 4096 + kind * 4096) ++ padTo 16 detail

/-- An event of the trouble log: taken into the queue of 64, or counted lost; its vector goes out either way
(R391, R393). -/
def State.event (s : State) (code kind index : Nat) (ctx : Option Nat) (detail : List Byte) : State :=
  let e : LogEntry := ⟨entryBytes s.tideCount.toNat s.tidePhase ctx code kind index detail, false⟩
  let s1 :=
    if s.log.queue.length < 64 then { s with log := { s.log with queue := s.log.queue ++ [e] } }
    else { s with log := { s.log with lost := sat32 s.log.lost 1 } }
  match eventVector code with
  | some v => s1.vector v
  | none => s1

/-- Granules of a tile's store have been written: a corrected word that still waits for its write-back gives way to the write (R152),
and one written whole leaves the local list (R153, R369). -/
def State.wrote (s : State) (p : Nat) (touched whole : List Nat) : State :=
  let t := s.tile p
  if t.wbPending.any (fun w => touched.contains (p * 2 ^ 18 + w)) || t.localList.any (fun w => whole.contains (p * 2 ^ 18 + w)) then
    s.modTile p (fun x => { x with
      wbPending := x.wbPending.filter (fun w => !touched.contains (p * 2 ^ 18 + w))
      localList := x.localList.filter (fun w => !whole.contains (p * 2 ^ 18 + w)) })
  else s

/-- Context of the section on a physical tile, when one is loaded. -/
def State.tileCtx (s : State) (p : Nat) : Option Nat :=
  if (s.tile p).sect.configured then some (s.tile p).sect.ctx.toNat else none

/-- An event of unit u of the logical tile served by p (source kinds 0-8). -/
def State.unitEvent (s : State) (p u code : Nat) (detail : List Byte) : State :=
  s.event code u ((s.logical p).getD 0) (s.tileCtx p) detail

/-- An event logged at most `limit` times per tile per section. -/
def State.onceEvent (s : State) (p u code limit : Nat) (detail : List Byte) : State :=
  let n := agetD (s.tile p).once (code * 16 + u) 0
  if n < limit then
    (s.modTile p (fun t => { t with once := aput t.once (code * 16 + u) (n + 1) })).unitEvent p u code detail
  else s

/-- An event of a physical tile, logged at most `limit` times per section. -/
def State.physOnce (s : State) (p code limit : Nat) (detail : List Byte) : State :=
  let n := agetD (s.tile p).once (code * 16 + 9) 0
  if n < limit then
    (s.modTile p (fun t => { t with once := aput t.once (code * 16 + 9) (n + 1) })).event code 9 p (s.tileCtx p) detail
  else s

/-- The header of a message as the detail of an event about it (R392). -/
def hdrDetail (h : BitVec 128) : List Byte := leBytes 16 h.toNat

/-! ## Status codes (Table 12.7) -/

def stOk : Nat := 0x00
def stDeferred : Nat := 0x01
def stSkipped : Nat := 0x02
def stBadOpcode : Nat := 0x10
def stBadParam : Nat := 0x11
def stDenied : Nat := 0x12
def stNoResource : Nat := 0x13
def stBusy : Nat := 0x14
def stImageIdentity : Nat := 0x20
def stImageRegion : Nat := 0x21
def stImageSignature : Nat := 0x22
def stImageResource : Nat := 0x23
def stGeometry : Nat := 0x24
def stTimeout : Nat := 0x30
def stPoisoned : Nat := 0x31
def stJobFault : Nat := 0x32
def stDeviceFault : Nat := 0x33
def stSecurity : Nat := 0x40
def stUnitAbsent : Nat := 0x41

/-! ## Rings and replies -/

/-- Number of the privileged ring in `rings`. -/
def privRing : Nat := 64

def State.ring (s : State) (r : Nat) : RingSt := agetD s.rings r RingSt.reset
def State.setRing (s : State) (r : Nat) (x : RingSt) : State := { s with rings := aput s.rings r x }
def State.modRing (s : State) (r : Nat) (f : RingSt → RingSt) : State := s.setRing r (f (s.ring r))

/-- The rings that exist. -/
def State.ringNos (s : State) : List Nat := s.rings.map (·.1)

/-- A finished reply, in completion order (R301, R307). -/
def State.reply (s : State) (r : Nat) (x : Reply) : State :=
  s.modRing r (fun g => { g with replies := g.replies ++ [x] })

/-- The reply of an accepted command. -/
def Cmd.reply (c : Cmd) (status : Nat) (r0 r1 r2 : Nat) : Reply :=
  { opcode := c.opcode, status := status, purged := false, late := false, seqNo := c.seqNo, ctx := c.ctx,
    r0 := BitVec.ofNat 64 r0, r1 := BitVec.ofNat 64 r1, r2 := BitVec.ofNat 64 r2, irq := c.irq }

/-- An accepted command completes: it leaves the ring's list and its reply is finished. -/
def State.complete (s : State) (r : Nat) (c : Cmd) (x : Reply) : State :=
  (s.modRing r (fun g => { g with accepted := g.accepted.erase c })).reply r x

/-- A ring halts (R303): event 0x3201 names the ring and the cause. -/
def State.haltRing (s : State) (r cause : Nat) : State :=
  (s.modRing r (fun g => { g with halted := true })).event 0x3201 14 0
    (if r < 64 then some r else none) (detailOf [(2, r), (1, cause)])

/-! ## The section loader's view of a run -/

def State.run? (s : State) (id : Nat) : Option Run := s.runs.find? (fun r => r.id == id)
def State.modRun (s : State) (id : Nat) (f : Run → Run) : State :=
  { s with runs := s.runs.map (fun r => if r.id == id then f r else r) }
def State.dropRun (s : State) (id : Nat) : State := { s with runs := s.runs.filter (fun r => r.id != id) }
def State.image? (s : State) (ctx handle : Nat) : Option Image :=
  s.images.find? (fun i => i.ctx == ctx && i.handle == handle)
/-- A staged image that can be run: the reply of its IMAGE_STAGE has been written (R309). -/
def State.usable? (s : State) (ctx handle : Nat) : Option Image :=
  s.images.find? (fun i => i.ctx == ctx && i.handle == handle && i.awaits.isNone)
def State.bumpLdr (s : State) (k n : Nat) : State := { s with ldrStat := bump s.ldrStat k n }

/-- The ring a run replies to: its context's own, or the privileged ring. -/
def Run.ring (r : Run) : Nat := if r.userRing then r.ctx else privRing

/-- The accepted SECTION_RUN of a run. -/
def State.runCmd (s : State) (r : Run) : Option Cmd :=
  (s.ring r.ring).accepted.find? (fun c => c.opcode == 0x40 && c.aux == [r.id])

/-- The reply of a run's command. -/
def Run.reply (r : Run) (status r0 r1 r2 : Nat) : Reply :=
  { opcode := 0x40, status := status, purged := false, late := r.late, seqNo := r.seqNo, ctx := r.ctx,
    r0 := BitVec.ofNat 64 r0, r1 := BitVec.ofNat 64 r1, r2 := BitVec.ofNat 64 r2, irq := r.irq }

/-- A run's reply is finished: to its `SECTION_RUN`, or to its context's completion ring (R341). -/
def State.replyRun (s : State) (r : Run) (x : Reply) : State :=
  match s.runCmd r with
  | some c => s.complete r.ring c x
  | none => if r.sched.isSome then s.reply r.ring x else s

/-- The run loaded on a physical tile. -/
def State.tileRun (s : State) (p : Nat) : Option Run :=
  if (s.tile p).sect.configured then s.run? (s.tile p).sect.run else none

/-! ## FABRIC_RESET (R311, R360 step 4) -/

/-- A tile at FABRIC_RESET: what its registers keep is what their tables say is kept. -/
def Tile.fabricReset (t : Tile) : Tile :=
  { Tile.reset with
    ctrs := t.ctrs
    retired := t.retired
    screening := t.screening
    seq := { Seq.reset with breakAt := t.seq.breakAt }
    sluices := t.sluices
    regs := { t.regs with
      settings := settingsReset, fabSpillFull := false, condSpillFull := false, stale := 0, discard := 0, slots := 0 } }

/-- The gauge blocks at FABRIC_RESET (R208): no WAKE is sent. -/
def Gauges.fabricReset (g : Gauges) : Gauges :=
  { Gauges.reset with stat := g.stat, sel := g.sel, snap := g.snap }

/-- A screener whose commands have ended: what it does for its own sake goes on. -/
def Screener.release (x : Screener) : Screener :=
  { x with cmd := none, retire := [], ahead := x.ahead.filter (fun e => e.2.isNone) }

/-- The end of every accepted command and every firing handed over with one status (R311, R341, R360); `skip` is the
command that goes on. No transition, save or forwarding has a command left to reply to. -/
def endAccepted (status r0 r1 : Nat) (skip : Nat → Cmd → Bool) (s : State) : State :=
  let s1 := s.runs.foldl (fun x r => x.replyRun r (r.reply status r0 r1 0)) s
  let s2 := s1.ringNos.foldl (fun x r =>
    (x.ring r).accepted.foldl (fun y c =>
      if skip r c then y else y.complete r c (c.reply status r0 r1 0)) x) s1
  { s2 with
    runs := []
    saves := []
    links := { s2.links with forwards := [] }
    health := { s2.health with scr := s2.health.scr.map Screener.release }
    moves := s2.moves.filter (fun m => s2.health.scr.any (fun x => x.vacated == some m.logical))
    units := s2.units.map (fun e => (e.1, { e.2 with joined := [], held := [] }))
    rings := s2.rings.map (fun e => (e.1, { e.2 with saving := false })) }

/-- The reset of the fabric (R154, R208, R290, R311, R342): routers, gauge blocks, tile stores, staged images, queues and
tables, and the schedule entries of actions 1 and 2. A screen in progress starts again (R376). -/
def State.resetFabric (s : State) : State :=
  { s with
    mem := s.mem.zero 0 (1088 * 2 ^ 24)
    tiles := s.tiles.map (fun e => (e.1, e.2.fabricReset))
    probes := []
    gauges := s.gauges.fabricReset
    census := []
    images := []
    runs := []
    saves := []
    owners := []
    trees := []
    ms := { s.ms with txns := [], queues := [], tables := [], copies := [], jobs := [], frees := [] }
    tide := { s.tide with sched := s.tide.sched.filter (fun e => leAt e.2.bytes 0 1 ≥ 3) }
    health := { s.health with scr := s.health.scr.map (fun x => if x.step = .running then { x with since := s.clk } else x) }
    ctxs := s.ctxs.map (fun e => (e.1, { e.2 with gencnt := 0 })) }

/-- Every user ring halts (R311). -/
def State.haltUsers (s : State) : State :=
  { s with rings := s.rings.map (fun e => if e.1 < 64 then (e.1, { e.2 with halted := true }) else e) }

/-- A job fault whose event is logged already (R360, R361): FAULT_LAST, the end of every accepted command, and the
reset. `run` is the run whose command replies with `status`. -/
def State.jobFaultCore (s1 : State) (code : Nat) (ctx : Option Nat) (run : Option Nat) (status : Nat) : State :=
  let fl := code + (match ctx with | some c => c % 64 * 2 ^ 16 + 2 ^ 22 | none => 0) + 2 ^ 23
  let s2 := { s1 with health := { s1.health with faultLast := BitVec.ofNat 32 fl, faultTide := s1.tideCount } }
  let r1 := match ctx with | some c => c % 64 + 256 | none => 0
  let s3 := match run.bind s2.run? with
    | some r => (s2.replyRun r (r.reply status code r1 0)).dropRun r.id
    | none => s2
  ((endAccepted stJobFault code r1 (fun _ _ => false) s3).haltUsers).resetFabric

/-- A job fault (R360): its event, and what follows. -/
def State.jobFault (s : State) (code kind index : Nat) (ctx : Option Nat) (run : Option Nat) (status : Nat)
    (detail : List Byte) : State :=
  (s.event code kind index ctx detail).jobFaultCore code ctx run status

/-- A job fault of the section on a physical tile, raised by unit u. -/
def State.tileFault (s : State) (p u code status : Nat) (detail : List Byte) : State :=
  s.jobFault code u ((s.logical p).getD 0) (s.tileCtx p) ((s.tileRun p).map (·.id)) status detail

/-- A device fault (R363): `FAULT_N`, `ID_STATUS.device_fault` and level 0; accepted commands end with DEVICE_FAULT
when the command processor still runs, and every ring halts. -/
def State.deviceFault (s : State) (code kind index : Nat) (cpRuns : Bool) (detail : List Byte) : State :=
  let s1 := s.event code kind index none detail
  let s2 := if cpRuns then endAccepted stDeviceFault 0 0 (fun _ _ => false) s1 else s1
  { s2 with
    devFault := true
    power := { s2.power with faultN := true, level := 0, lastFault := code }
    rings := s2.rings.map (fun e => (e.1, { e.2 with halted := true, replies := if cpRuns then e.2.replies else [] })) }

end Sys2Proof.Machine
end

