-- ==== Sys2Proof/Machine/Msg.lean ====
section
/-! DEFINITION. Messages (R164-R167, Table 7.2): header fields, destinations (Table 2.7), the census (R223). -/

namespace Sys2Proof.Machine

/-- A field of a header. -/
def Msg.f (m : Msg) (lo len : Nat) : Nat := fld m.hdr.toNat lo len
/-- A header with one field replaced. -/
def hset (h lo len v : Nat) : Nat := h - fld h lo len * 2 ^ lo + (v % 2 ^ len) * 2 ^ lo
def Msg.put (m : Msg) (lo len v : Nat) : Msg := { m with hdr := BitVec.ofNat 128 (hset m.hdr.toNat lo len v) }

def Msg.dstDev (m : Msg) : Nat := m.f 0 16
def Msg.dstDie (m : Msg) : Nat := m.f 16 2
def Msg.dstX (m : Msg) : Nat := m.f 18 4
def Msg.dstY (m : Msg) : Nat := m.f 22 5
def Msg.dstUnit (m : Msg) : Nat := m.f 27 4
def Msg.dstPort (m : Msg) : Nat := m.f 31 3
def Msg.src (m : Msg) : Nat := m.f 34 34
def Msg.srcDev (m : Msg) : Nat := m.f 34 16
def Msg.srcDie (m : Msg) : Nat := m.f 50 2
def Msg.srcX (m : Msg) : Nat := m.f 52 4
def Msg.srcY (m : Msg) : Nat := m.f 56 5
def Msg.srcUnit (m : Msg) : Nat := m.f 61 4
def Msg.tag (m : Msg) : Nat := m.f 68 16
def Msg.gen (m : Msg) : Nat := m.f 84 3
def Msg.kind (m : Msg) : Nat := m.f 87 4
def Msg.len (m : Msg) : Nat := m.f 91 6 + 1
def Msg.poison (m : Msg) : Bool := m.f 97 1 == 1
def Msg.mcast (m : Msg) : Bool := m.f 98 1 == 1
def Msg.mcX1 (m : Msg) : Nat := m.f 99 4
def Msg.mcY1 (m : Msg) : Nat := m.f 103 4
def Msg.tree (m : Msg) : Nat := m.f 107 6
def Msg.rop (m : Msg) : Nat := m.f 113 4
def Msg.part (m : Msg) : Nat := m.f 117 2
def Msg.last (m : Msg) : Bool := m.f 119 1 == 1
def Msg.down (m : Msg) : Bool := m.f 120 1 == 1
def Msg.setPoison (m : Msg) (v : Bool) : Msg := m.put 97 1 (b2n v)

/-- Source tile of a message, as a logical number. -/
def Msg.srcTile (m : Msg) : Nat := lOf m.srcDie m.srcX m.srcY
/-- Destination tile, as a logical number. -/
def Msg.dstTile (m : Msg) : Nat :=
  match m.copy with
  | some n => n
  | none => lOf m.dstDie m.dstX m.dstY

/-- Lane of a kind (Table 7.3). -/
def kindLane (k : Nat) : Nat := if k == 2 || k == 3 then 1 else 0

/-- Entries of 128 bytes that a message of L units takes, which is also its flits (R35, R167). -/
def entriesOf (l : Nat) : Nat := (16 + 64 * l + 127) / 128

/-- A destination word in the layout of Table 2.7. -/
def destWord (dev die x y unit port : Nat) : Nat :=
  dev + die * 2 ^ 16 + x * 2 ^ 18 + y * 2 ^ 22 + unit * 2 ^ 27 + port * 2 ^ 31

/-- The address of a tile's unit on this device. -/
def tileDest (n unit port : Nat) : Nat := destWord 0xFFFF (lDie n) (lX n) (lY n) unit port

/-- A message from its destination, tag, generation, kind and payload (padded to 64-byte units). -/
def mkMsg (dest tag gen kind : Nat) (poison : Bool) (pay : List Byte) : Msg :=
  let l := (pay.length + 63) / 64
  let h := dest % 2 ^ 34 + (tag % 65536) * 2 ^ 68 + (gen % 8) * 2 ^ 84 + (kind % 16) * 2 ^ 87 +
    ((l - 1) % 64) * 2 ^ 91 + b2n poison * 2 ^ 97
  ⟨BitVec.ofNat 128 h, padTo (64 * l) pay, none, []⟩

/-- The source fields egress fills (R164). -/
def srcOf (s : State) (n unit : Nat) : Nat := destWord s.deviceId (lDie n) (lX n) (lY n) unit 0

/-- A message names this device (R162). -/
def Msg.here (m : Msg) (s : State) : Bool :=
  m.dstDev == 0xFFFF || (m.dstDev == s.deviceId && s.deviceId != 0xFFFF)

/-- The bytes of a message as it is stored or carried: header, payload, zero to whole entries (R146, R167). -/
def Msg.bytes (m : Msg) : List Byte :=
  padTo (128 * entriesOf m.len) (leBytes 16 m.hdr.toNat ++ m.pay)

/-- A message read back from framed bytes. -/
def msgOfBytes (bs : List Byte) : Msg :=
  let h := leAt bs 0 16
  ⟨BitVec.ofNat 128 h, padTo (64 * (fld h 91 6 + 1)) (bs.drop 16), none, []⟩

/-- Gauge message payload (Table 8.1). -/
def gaugePay (vid op result operand timeout ctx wgen value phys : Nat) : List Byte :=
  padTo 64 (leBytes 2 vid ++ leBytes 1 op ++ leBytes 1 result ++ leBytes 4 operand ++ leBytes 4 timeout ++
    leBytes 1 ctx ++ leBytes 1 wgen ++ leBytes 2 0 ++ leBytes 4 value ++ leBytes 2 phys)

/-! ## Census (R223) -/

def State.census? (s : State) (n g : Nat) : Nat := (agetD s.census (8 * n + g) 0).toNat
def State.censusAdd (s : State) (n g : Nat) (d : Int) : State :=
  { s with census := awrite 0 s.census (8 * n + g) (BitVec.ofInt 24 (Int.ofNat (s.census? n g) + d)) }

/-- The tiles of a multicast rectangle. -/
def Msg.rect (m : Msg) : List Nat :=
  (List.range 16).flatMap (fun y => ((List.range 16).filter (fun x =>
    m.dstX ≤ x && x ≤ m.mcX1 && m.dstY ≤ y && y ≤ m.mcY1)).map (fun x => lOf m.dstDie x y))

/-- The tiles of this device that a lane-0 or lane-1 message counts for. -/
def Msg.countedTiles (m : Msg) (s : State) : List Nat :=
  if !m.here s then []
  else match m.copy with
  | some n => [n]
  | none => if m.mcast then m.rect else if m.dstY ≥ 16 then [] else [m.dstTile]

/-- A message enters the fabric, or ends in it. -/
def State.count (s : State) (m : Msg) (d : Int) : State :=
  (m.countedTiles s).foldl (fun x n => x.censusAdd n m.gen d) s

/-! ## Router queues -/

/-- Index of an input of a router (Table 7.10): N, E, S, W, local; 5 is the tree node. -/
def sideNo : Side → Nat
  | .north => 0
  | .east => 1
  | .south => 2
  | .west => 3
  | .tile => 4
  | .node => 5

/-- Key of a lane of an input; keys 15 and above are those of the tree node. -/
def qKey (side : Side) (lane : Nat) : Nat := 3 * sideNo side + lane

/-- The key of a lane 2, which carries memory transactions. -/
def lane2Key (k : Nat) : Bool := k % 3 == 2 && k < 15

/-- What the tree node has to send in a lane, in order. -/
def Router.nodeLane (r : Router) (lane : Nat) : List Msg := (r.nodeOut.filter (fun e => kindLane e.2.kind == lane)).map (·.2)

/-- The messages of a queue of lane 0 or 1. -/
def Router.q (r : Router) (k : Nat) : List Msg := if k < 15 then agetD r.queues k [] else r.nodeLane (k - 15)
def Router.setQ (r : Router) (k : Nat) (l : List Msg) : Router :=
  { r with queues := if l.isEmpty then adel r.queues k else aput r.queues k l }
def State.rq (s : State) (p k : Nat) : List Msg := (s.tile p).router.q k

/-- The memory transactions of a lane 2. -/
def Router.p2 (r : Router) (k : Nat) : List Parcel := agetD r.parcels k []
def Router.setP2 (r : Router) (k : Nat) (l : List Parcel) : Router :=
  { r with parcels := if l.isEmpty then adel r.parcels k else aput r.parcels k l }

/-- Flits of a message (R167) and of a memory transaction (R268). -/
def Msg.flits (m : Msg) : Nat := entriesOf m.len
def Parcel.flits (x : Parcel) : Nat := (x.bytes.length + 127) / 128
def Load.flits : Load → Nat
  | .msg m => m.flits
  | .parcel x => x.flits
def flitsOf (l : List Msg) : Nat := l.foldl (fun a m => a + m.flits) 0

/-- What a queue of any lane holds: its flits, whether it is empty, its head. -/
def Router.held (r : Router) (k : Nat) : Nat := if lane2Key k then (r.p2 k).foldl (fun a x => a + x.flits) 0 else flitsOf (r.q k)
def Router.idle (r : Router) (k : Nat) : Bool := if lane2Key k then (r.p2 k).isEmpty else (r.q k).isEmpty
def Router.loadHead (r : Router) (k : Nat) : Option Load := if lane2Key k then (r.p2 k).head?.map .parcel else (r.q k).head?.map .msg

/-- The first message of a lane leaves the tree node. An instance whose last message has left gives up its slots, and at a root
its entry (R176). -/
def Router.popNode (r : Router) (lane : Nat) : Router :=
  let n := r.nodeOut.eraseIdx (r.nodeOut.findIdx (fun e => kindLane e.2.kind == lane))
  { r with nodeOut := n, insts := r.insts.filter (fun i => !i.root || n.any (fun e => e.1 == i.id)) }

/-- The head of a queue leaves: the queue has moved (R187). -/
def Router.pop (r : Router) (k clk : Nat) : Router :=
  let r1 := if k ≥ 15 then r.popNode (k - 15) else if lane2Key k then r.setP2 k ((r.p2 k).drop 1) else r.setQ k ((r.q k).drop 1)
  { r1 with moved := if r1.idle k then adel r1.moved k else aput r1.moved k clk }
def State.popRq (s : State) (p k : Nat) : State := s.modTile p (fun t => t.modRouter (fun r => r.pop k s.clk))

/-- The head of a queue replaced by what it has become. -/
def Router.setHead (r : Router) (k : Nat) (m : Msg) : Router :=
  if k < 15 then r.setQ k (m :: (r.q k).drop 1)
  else { r with nodeOut := r.nodeOut.modify (r.nodeOut.findIdx (fun e => kindLane e.2.kind == k - 15)) (fun e => (e.1, m)) }
def State.setHead (s : State) (p k : Nat) (m : Msg) : State := s.modTile p (fun t => t.modRouter (fun r => r.setHead k m))

/-- A load joins a queue; a queue that was empty starts its stall count. -/
def Router.push (r : Router) (k clk : Nat) (l : Load) : Router :=
  let r1 := match l with
    | .msg m => r.setQ k (r.q k ++ [m])
    | .parcel x => r.setP2 k (r.p2 k ++ [x])
  { r1 with moved := if r.idle k then aput r1.moved k clk else r1.moved }
def State.pushLoad (s : State) (p k : Nat) (l : Load) : State := s.modTile p (fun t => t.modRouter (fun r => r.push k s.clk l))
def State.pushRq (s : State) (p k : Nat) (m : Msg) : State := s.pushLoad p k (.msg m)

/-- An input lane that holds `held` flits has room for n more: 8 in all, or an empty queue for a longer message that streams
through (R156, log 10). -/
def laneRoom (held n : Nat) : Bool := held == 0 || held + n ≤ 8

/-! ## Flits (R167, R168) -/

/-- The 128 bytes of flit i of a message. -/
def Msg.flit (m : Msg) (i : Nat) : List Byte := padTo 128 ((m.bytes.drop (128 * i)).take 128)

/-- Even parity over a byte list. -/
def evenParity (bs : List Byte) : Bool := bs.foldl (fun a b => a != (popBelow 8 b.toNat % 2 == 1)) false

/-- `par` of a flit's sideband: bit j covers bytes 8j to 8j + 7. -/
def flitPar (bs : List Byte) : Nat := maskOf 16 (fun j => evenParity ((bs.drop (8 * j)).take 8))

/-- The 24-bit sideband of flit i of a message in a lane (R167). -/
def Msg.sideband (m : Msg) (lane i : Nat) : Nat :=
  flitPar (m.flit i) + b2n (i == 0) * 2 ^ 16 + b2n (i + 1 == m.flits) * 2 ^ 17 + b2n (m.fp.contains i) * 2 ^ 18 + lane * 2 ^ 19

/-- The 128 bytes of flit i of what a lane carries. -/
def Load.flit : Load → Nat → List Byte
  | .msg m, i => m.flit i
  | .parcel x, i => padTo 128 ((x.bytes.drop (128 * i)).take 128)

/-- The first 16 bytes of its header. -/
def Load.hdr : Load → BitVec 128
  | .msg m => m.hdr
  | .parcel x => BitVec.ofNat 128 (leAt x.bytes 0 16)

/-- The 8-byte lanes of a received flit whose parity fails. -/
def badLanes (bs : List Byte) (e : FlitError) : List Nat :=
  let got := (bs.zip (List.range 128)).map (fun x => x.1 ^^^ BitVec.ofNat 8 (fld e.data.toNat (8 * x.2) 8))
  let par := flitPar bs ^^^ e.par.toNat
  (List.range 16).filter (fun j => evenParity ((got.drop (8 * j)).take 8) != par.testBit j)

/-- Bytes in whose flit i some bits came flipped. -/
def flipBytes (bs : List Byte) (e : FlitError) : List Byte :=
  (bs.zip (List.range bs.length)).map (fun x =>
    if x.2 / 128 == e.flit.toNat then x.1 ^^^ BitVec.ofNat 8 (fld e.data.toNat (8 * (x.2 % 128)) 8) else x.1)

/-- What a receiver makes of a flit in error that discards nothing (R168): the bits stay as they came, and the flit carries fpoison
where its parity failed. -/
def Load.marred (l : Load) (e : FlitError) (bad : Bool) : Load :=
  match l with
  | .msg m =>
    let bs := flipBytes m.bytes e
    .msg { m with
      hdr := BitVec.ofNat 128 (leAt bs 0 16)
      pay := (bs.drop 16).take m.pay.length
      fp := if bad then insNat m.fp e.flit.toNat else m.fp }
  | .parcel x => .parcel { x with bytes := flipBytes x.bytes e, fp := if bad then insNat x.fp e.flit.toNat else x.fp }

end Sys2Proof.Machine
end

