-- ==== Sys2Proof/Machine/Operands.lean ====
section
/-! DEFINITION. Operand forms of the tile (02): configuration words, descriptors, loop tables, address streams
(R56), footprints and the checks of R57, and reads and writes of tile store by an operation. -/

namespace Sys2Proof.Machine

/-- Bytes of the configuration state; absent bytes read 0 (R33). -/
def Tile.cfgBytes (t : Tile) (o n : Nat) : List Byte := (List.range n).map (fun i => agetD t.cfg (o + i) 0)
def Tile.cfgNum (t : Tile) (o n : Nat) : Nat := leNat (t.cfgBytes o n)
/-- Configuration bytes that carry poison (R48). -/
def Tile.cfgMarked (t : Tile) (o n : Nat) : Bool := t.cfgBad.any (fun g => 64 * g < o + n && o < 64 * g + 64)

/-- Step n (Table 2.2). -/
def Tile.step64 (t : Tile) (n : Nat) : Nat := t.cfgNum (8 * n) 8
/-- Descriptor-table entry. -/
def Tile.desc (t : Tile) (i : Nat) : List Byte := t.cfgBytes (0x2000 + 64 * i) 64
/-- Loop table. -/
def Tile.loopT (t : Tile) (i : Nat) : List Byte := t.cfgBytes (0x2800 + 128 * i) 128

/-- Engine control of a unit (Table 2.3): streamed mode, firing-set mask, fire count. -/
def Tile.streamed (t : Tile) (u : Nat) : Bool := bitOf (t.cfgNum (0x3000 + 8 * u) 4) 0
def Tile.fireMask (t : Tile) (u : Nat) : Nat := fld (t.cfgNum (0x3000 + 8 * u) 4) 8 8
def Tile.fireCount (t : Tile) (u : Nat) : Nat := t.cfgNum (0x3004 + 8 * u) 4

/-- Port binding word of unit u (1-7), port k: bound, overflow enabled, basin (Table 2.3). -/
def Tile.bind (t : Tile) (u k : Nat) : Nat := t.cfgNum (0x3080 + (u - 1) * 0x20 + 4 * k) 4
def Tile.bound (t : Tile) (u k : Nat) : Bool := bitOf (t.bind u k) 0
def Tile.ovfEn (t : Tile) (u k : Nat) : Bool := bitOf (t.bind u k) 1
def Tile.bindBasin (t : Tile) (u k : Nat) : Nat := fld (t.bind u k) 2 6

/-- Output route r of unit u (Table 2.3). -/
def Tile.route (t : Tile) (u r : Nat) : Nat := t.cfgNum (0x3800 + 32 * u + 8 * r) 8
/-- Timeout-table entry, initial counters and predicates, program length. -/
def Tile.timeoutEntry (t : Tile) (k : Nat) : Nat := t.cfgNum (0x3380 + 4 * k) 4
def Tile.initCtr (t : Tile) (k : Nat) : Nat := fld (t.cfgNum (0x3390 + 4 * k) 4) 0 20
def Tile.initPreds (t : Tile) : Nat := t.cfgNum 0x33A0 1
def Tile.progLen (t : Tile) : Nat := fld (t.cfgNum 0x33A4 4) 0 11

/-- Basin declaration (Table 6.3). -/
def Tile.basinDecl (t : Tile) (b : Nat) : List Byte := t.cfgBytes (0x3400 + 16 * b) 16
def declBase (d : List Byte) : Nat := leAt d 0 3
def declSize (d : List Byte) : Nat := 4096 * 2 ^ fld (leAt d 3 1) 0 4
def declValid (d : List Byte) : Bool := bitOf (leAt d 3 1) 4
def declFramed (d : List Byte) : Bool := bitOf (leAt d 3 1) 5
def declConsumer (d : List Byte) : Nat := fld (leAt d 4 1) 0 4
def declPreset (d : List Byte) : Nat := leAt d 8 3
def declGid (d : List Byte) : Nat := fld (leAt d 12 2) 0 11
def declSig (d : List Byte) : Bool := bitOf (leAt d 12 2) 15
def Tile.basin (t : Tile) (b : Nat) : Basin := agetD t.basins b Basin.empty

/-- Base and size of half h of buffer pair k (Table 2.3), after the exchanges of `swaps` (R54). -/
def Tile.half (t : Tile) (swaps k h : Nat) : Nat × Nat :=
  let o := 0x3300 + 16 * k
  let h' := if swaps.testBit k then 1 - h else h
  (fld (t.cfgNum (o + 4 * h') 4) 0 24, fld (t.cfgNum (o + 8) 4) 0 24)

/-- Base of the spillway (R135). -/
def Tile.spillBase (t : Tile) : Nat := 0xFC0000 - 65536 * 2 ^ (fld t.regs.settings.toNat 32 3)

/-! ## Loop tables (Tables 2.11, 2.12) -/

/-- One address stream. -/
structure Stream where
  base : Nat
  enabled : Bool
  wide : Bool
  mode : Nat
  sel : Nat
deriving DecidableEq, Repr

/-- One loop level. -/
structure Level where
  bound : Nat
  order : Nat
  stride : List Int
deriving DecidableEq, Repr

def loopStream (l : List Byte) (s : Nat) : Stream :=
  let w := leAt l (4 * s) 4
  let sel := leAt l (16 + s) 1
  { base := fld w 0 24, enabled := bitOf w 24, wide := bitOf w 25, mode := fld w 26 2,
    sel := if fld w 26 2 == 1 then fld sel 0 6 else fld sel 0 3 }

def loopLevel (l : List Byte) (k : Nat) : Level :=
  let w := leAt l (32 + 16 * k) 16
  { bound := fld w 0 20, order := fld w 20 3,
    stride := (List.range 4).map (fun s => sext (w >>> (32 + 24 * s)) 24) }

/-- A RSV bit of a loop table is set (R48). -/
def loopRsv (l : List Byte) : Bool :=
  (List.range 4).any (fun s => fld (leAt l (4 * s) 4) 28 4 != 0) ||
  (List.range 4).any (fun s =>
    let m := fld (leAt l (4 * s) 4) 26 2
    let v := leAt l (16 + s) 1
    if m == 1 then fld v 6 2 != 0 else if m == 0 then v != 0 else fld v 3 5 != 0) ||
  (l.drop 20).take 12 != List.replicate 12 0 ||
  (List.range 6).any (fun k => fld (leAt l (32 + 16 * k) 16) 23 9 != 0)

def loopLevels (l : List Byte) : List Level := (List.range 6).map (loopLevel l)
def Level.on (v : Level) : Bool := v.bound != 0
def Level.st (v : Level) (s : Nat) : Int := v.stride.getD s 0

/-- The enabled levels carry distinct orders 0 .. n - 1 (check 1 of R57). -/
def ordersOk (ls : List Level) : Bool :=
  let on := ls.filter Level.on
  (List.range on.length).all (fun i => (on.filter (fun v => v.order == i)).length == 1)

/-- Footprint of a stream before its last access width: lo and hi of base plus spans (R57). -/
def span (st : Stream) (s : Nat) (ls : List Level) : Int × Int :=
  (ls.filter Level.on).foldl (fun (a : Int × Int) v =>
    let d := (Int.ofNat v.bound - 1) * v.st s
    if d < 0 then (a.1 + d, a.2) else (a.1, a.2 + d)) (Int.ofNat st.base, Int.ofNat st.base)

/-- Access width of a stream. -/
def Stream.width (st : Stream) : Nat := if st.wide then 256 else 32

/-- Bytes that the accesses take which move `n` bytes of a stream (R56). -/
def Stream.run (st : Stream) (n : Nat) : Nat := alignUp n st.width

/-- The region check of one footprint (check 3 of R57): `lo` and `hi` inclusive. -/
def regionOk (t : Tile) (swaps : Nat) (mode sel : Nat) (lo hi : Int) : Bool :=
  match mode with
  | 1 =>
    let d := t.basinDecl sel
    declValid d && hi - lo + 1 ≤ Int.ofNat (declSize d)
  | 0 =>
    (List.range 64).any (fun b =>
      let d := t.basinDecl b
      declValid d && Int.ofNat (declBase d) ≤ lo && hi < Int.ofNat (declBase d + declSize d)) ||
    (List.range 8).any (fun k => (List.range 2).any (fun h =>
      let r := t.half swaps k h
      r.2 != 0 && Int.ofNat r.1 ≤ lo && hi < Int.ofNat (r.1 + r.2)))
  | m =>
    let r := t.half swaps sel (m - 2)
    r.2 != 0 && 0 ≤ lo && hi < Int.ofNat r.2

/-- Absolute byte range of a checked footprint, for checks 4 of R57 and R234. -/
def absRange (t : Tile) (swaps mode sel : Nat) (lo hi : Int) : Int × Int :=
  match mode with
  | 0 => (lo, hi)
  | 1 =>
    let d := t.basinDecl sel
    (Int.ofNat (declBase d), Int.ofNat (declBase d + declSize d) - 1)
  | m =>
    let r := t.half swaps sel (m - 2)
    (lo + Int.ofNat r.1, hi + Int.ofNat r.1)

/-- Check 4 of R57: no overlap with the spillway or the staged-frame area. -/
def spillOk (t : Tile) (r : Int × Int) : Bool := r.2 < Int.ofNat t.spillBase && 0 ≤ r.1

/-- Origin of a stream (R56) in tile store, for modes 0, 2 and 3. -/
def origin (t : Tile) (swaps : Nat) (st : Stream) : Nat :=
  if st.mode ≥ 2 then (t.half swaps st.sel (st.mode - 2)).1 else 0

/-- Tile-store offset of a stream address `a` relative to its origin (R56): a mode-1 address counts from the
basin head and wraps at the basin size; addresses are computed in 32 bits. -/
def streamAddr (t : Tile) (swaps : Nat) (st : Stream) (a : Int) : Nat :=
  if st.mode == 1 then
    let d := t.basinDecl st.sel
    declBase d + ((Int.ofNat (t.basin st.sel).head + a) % Int.ofNat (declSize d)).toNat
  else wrapInt (Int.ofNat (origin t swaps st) + a) 32 % 2 ^ 24

/-- The runs of consecutive offsets over which `n` bytes at a stream address lie, with the bytes before each: one, or more where a basin
or the address space wraps (R56). -/
def streamRuns (t : Tile) (swaps : Nat) (st : Stream) (a : Int) (n : Nat) : List (Nat × Nat × Nat) :=
  let d := t.basinDecl st.sel
  let base := if st.mode == 1 then declBase d else 0
  let size := if st.mode == 1 then declSize d else 2 ^ 24
  let o := streamAddr t swaps st a - base
  (List.range ((o + n - 1) / size + 1)).map (fun k =>
    let lo := max o (k * size)
    (lo - o, base + lo - k * size, min (o + n) ((k + 1) * size) - lo))

/-- `n` bytes at a stream address, byte by byte as the basin may wrap. -/
def readStream (s : State) (p : Nat) (swaps : Nat) (st : Stream) (a : Int) (n : Nat) : List Byte :=
  let t := s.tile p
  (List.range n).map (fun i => s.mem.byte (tileBase p + streamAddr t swaps st (a + Int.ofNat i)))

/-- Whether one of the granules of those bytes carries a poison mark. -/
def streamPoison (s : State) (p : Nat) (swaps : Nat) (st : Stream) (a : Int) (n : Nat) : Bool :=
  let t := s.tile p
  (List.range ((n + 31) / 32 + 1)).any (fun i =>
    let o := min (32 * i) (n - 1)
    n != 0 && s.mem.marked ((tileBase p + streamAddr t swaps st (a + Int.ofNat o)) / 64))

/-- Place of a stream address in the memory. -/
def streamPlace (s : State) (p : Nat) (swaps : Nat) (st : Stream) (a : Int) : Nat :=
  tileBase p + streamAddr (s.tile p) swaps st a

/-- Bytes written at a stream address, with one mark (R153). A wide write clears the mark of a word it covers whole
and takes it off the local list (R369); a narrow one does neither. -/
def writeStream (s : State) (p : Nat) (swaps : Nat) (st : Stream) (a : Int) (bs : List Byte) (poison : Bool) : State :=
  (streamRuns (s.tile p) swaps st a bs.length).foldl (fun x r =>
    let q := tileBase p + r.2.1
    let xs := (bs.drop r.1).take r.2.2
    let m := if st.wide || poison then x.mem.write q xs poison else x.mem.putBytes q xs
    { x with mem := m }.wrote p (granules q xs.length) (if st.wide then wholeGranules q xs.length else [])) s

/-- Byte offsets of the first and the last byte of packed elements, so that a mark at them marks every granule they lie in. -/
def eltOffsets (bits : Nat) (es : List Nat) : List Nat := es.flatMap (fun e => [e * bits / 8, (e * bits + bits - 1) / 8])

/-- Bytes written at a stream address; the granules of the byte offsets `bad` carry a mark. -/
def writeMarked (s : State) (p swaps : Nat) (st : Stream) (a : Int) (bs : List Byte) (bad : List Nat) : State :=
  let s1 := writeStream s p swaps st a bs false
  { s1 with mem := bad.foldl (fun m i => m.mark (streamPlace s p swaps st (a + Int.ofNat i) / 64) true) s1.mem }

/-- Iteration indices of the enabled levels, the level with order 0 varying fastest (R56): each point is the list
of i_l for the six levels. -/
def loopPointsGo (ls : List Level) : Nat → List (List Nat)
  | 0 => [List.replicate 6 0]
  | k + 1 =>
    match (ls.zip (List.range 6)).find? (fun e => e.1.on && e.1.order == k) with
    | some e => (loopPointsGo ls k |> fun inner =>
        (List.range e.1.bound).flatMap (fun i => inner.map (fun pt => pt.set e.2 i)))
    | none => loopPointsGo ls k

def loopPoints (ls : List Level) : List (List Nat) := loopPointsGo ls 6

/-- Address of stream s at a loop point, relative to its origin (R56). -/
def pointAddr (st : Stream) (s : Nat) (ls : List Level) (pt : List Nat) : Int :=
  ((ls.zip pt).filter (fun e => e.1.on)).foldl (fun a e => a + Int.ofNat e.2 * e.1.st s) (Int.ofNat st.base)

/-- Logical index of the first element of an access (R112). -/
def pointIndex (base : Nat) (istride : List Int) (ls : List Level) (pt : List Nat) : Nat :=
  wrapInt (((ls.zip pt).zip istride).foldl (fun a e =>
    if e.1.1.on then a + Int.ofNat e.1.2 * e.2 else a) (Int.ofNat base)) 64

/-- The elements of `n` items of a format packed from byte 0 (R66). -/
def unpack (c : Nat) (bs : List Byte) (n : Nat) : List Nat :=
  let w := leNat bs
  let k := fmtBits c
  (List.range n).map (fun i => fld w (k * i) k)

/-- The packed bytes of elements of a format. -/
def packElems (c : Nat) (es : List Nat) : List Byte :=
  let k := fmtBits c
  let w := (es.zip (List.range es.length)).foldl (fun a e => a + (e.1 % 2 ^ k) * 2 ^ (k * e.2)) 0
  leBytes ((k * es.length + 7) / 8) w

/-- Conversion control word (R75). -/
def convFmt (c : Nat) : Nat := fld c 0 5
def convRnd (c : Nat) : Nat := fld c 5 2
def convNan (c : Nat) : Bool := bitOf c 7
def convHist (c : Nat) : Bool := bitOf c 8
def convSet (c : Nat) : Nat := fld c 9 2
def convRsv (c : Nat) : Bool := fld c 11 5 != 0
def convStream (c : Nat) : Nat := fld c 16 16

/-- A RSV byte range of a descriptor is not zero. -/
def rsvBytes (d : List Byte) (lo n : Nat) : Bool := leAt d lo n != 0

/-- Count of written elements into the exponent histogram (R82, R83), saturating. -/
def Tile.count (t : Tile) (set : Nat) (bins : List Nat) : Tile :=
  { t with hist := bins.foldl (fun h b => amod h (68 * set + b) 0 (fun c => sat32 c 1)) t.hist }

end Sys2Proof.Machine
end

