-- ==== Sys2Proof/Machine/Issue.lean ====
section
/-! DEFINITION. The checks at ISSUE (R48, R57, R60) of each engine: Tables 4.2-4.8 (R85-R90, R104), 5.1-5.7
(R111, R113, R437, R438, R127), 10.1 and 10.4 (R239, R240, R248). A check answers the event of its step fault. -/

namespace Sys2Proof.Machine

def evShape : Nat := 0x4110
def evStep : Nat := 0x4111
def evBranch : Nat := 0x4112
def evPoisonStep : Nat := 0x4113

/-- The first failing check of a list of (fails, event). -/
def firstFail : List (Bool × Nat) → Option Nat
  | [] => none
  | (b, e) :: t => if b then some e else firstFail t

/-- A conversion control word with a reserved format or rounding mode (R60, R75), or a RSV bit (R48). -/
def convBad (c : Nat) : Bool := !fmtValid (convFmt c) || convRnd c == 3 || convRsv c

/-- What a stream of an operation touches: stream number, extra bytes past the last access start, output or not. -/
structure Touch where
  s : Nat
  run : Nat
  out : Bool
deriving DecidableEq, Repr

/-- The footprint of an enabled stream whose accesses are `run` bytes long (R57, R90 item 6). -/
def footprint (l : List Byte) (s run : Nat) : Int × Int :=
  let f := span (loopStream l s) s (loopLevels l)
  (f.1, f.2 + Int.ofNat run - 1)

/-- Checks 3 and 4 of R57 and the declared-input guard of R234 on one absolute footprint. -/
def areaOk (t : Tile) (swaps mode sel : Nat) (lo hi : Int) (out : Bool) : Bool :=
  let r := absRange t swaps mode sel lo hi
  regionOk t swaps mode sel lo hi && spillOk t r &&
    (!out || t.sect.inputs.all (fun i => r.2 < Int.ofNat i.1 || Int.ofNat (i.1 + i.2) ≤ r.1))

/-- An operation that passes its checks touches no byte outside a footprint of them (R58), so the streams it uses are enabled
(log 50). -/
def usesOk (l : List Byte) (ss : List Nat) : Bool := ss.all (fun s => (loopStream l s).enabled)

/-- The checks of one touched stream. -/
def touchOk (t : Tile) (swaps : Nat) (l : List Byte) (x : Touch) : Bool :=
  let st := loopStream l x.s
  !st.enabled ||
    (let f := footprint l x.s x.run
     areaOk t swaps st.mode st.sel f.1 f.2 x.out)

/-- Check 2 of R57 for a wide stream with access width w: base and strides of enabled levels are multiples. -/
def alignOk (l : List Byte) (s w : Nat) : Bool :=
  let st := loopStream l s
  !st.enabled || !st.wide || (st.base % w == 0 &&
    ((loopLevels l).filter Level.on).all (fun v => v.st s % Int.ofNat w == 0))

/-- Companion footprint of R91: the range that `cu` bytes per unit of `unit` bytes take from `comp` on, with `n` units at each
point. -/
def companionOk (t : Tile) (swaps : Nat) (l : List Byte) (s unit comp cu n : Nat) (out : Bool) : Bool :=
  let st := loopStream l s
  let f := span st s (loopLevels l)
  let b := Int.ofNat st.base
  let lo := Int.ofNat comp + (f.1 - b) / Int.ofNat unit * Int.ofNat cu
  let hi := Int.ofNat comp + (f.2 - b) / Int.ofNat unit * Int.ofNat cu + Int.ofNat (n * cu) - 1
  ((loopLevels l).filter Level.on).all (fun v => v.st s % Int.ofNat unit == 0) &&
    areaOk t swaps st.mode st.sel lo hi out

/-! ## Matrix engine -/

/-- Block size of a format as an operand of a dot product: 32 for BF16, FP16 and MX, 16 for LB16 (R71). -/
def sumBlock (c : Nat) : Nat := if 0x10 ≤ c && c ≤ 0x12 then 16 else 32

def mmaAFormats : List Nat := [0x01, 0x02, 0x08, 0x09, 0x0D, 0x0C, 0x10, 0x12]
def mmaBFormats : List Nat := mmaAFormats ++ [0x0A, 0x0B, 0x11]

/-- Fields of an MMA descriptor (Table 4.4). -/
def mmaA (d : List Byte) : Nat := fld (leAt d 2 1) 0 5
def mmaB (d : List Byte) : Nat := fld (leAt d 3 1) 0 5
def mmaSparse (d : List Byte) : Nat := fld (leAt d 3 1) 5 2
def mmaInit (d : List Byte) : Nat := fld (leAt d 4 1) 0 2
def mmaWrite (d : List Byte) : Bool := bitOf (leAt d 4 1) 2
def mmaZskip (d : List Byte) : Bool := bitOf (leAt d 4 1) 3
def mmaFuse (d : List Byte) : Bool := bitOf (leAt d 4 1) 4
def mmaFunc (d : List Byte) : Nat := fld (leAt d 5 1) 0 3
def mmaAdd (d : List Byte) : Nat := fld (leAt d 5 1) 3 2
def mmaAddFmt (d : List Byte) : Nat := fld (leAt d 6 1) 0 5
def mmaReply (d : List Byte) : Bool := bitOf (leAt d 7 1) 0
def mmaConv (d : List Byte) : Nat := leAt d 8 4
def mmaScale (d : List Byte) : W32 := BitVec.ofNat 32 (leAt d 12 4)
def mmaAScale (d : List Byte) : Nat := leAt d 16 3
def mmaBScale (d : List Byte) : Nat := leAt d 20 3
def mmaMeta (d : List Byte) : Nat := leAt d 24 3
def mmaCScale (d : List Byte) : Nat := leAt d 28 3
def mmaAccBase (d : List Byte) : Nat := fld (leAt d 32 2) 0 10

/-- Elements of one 256-byte chunk of A. -/
def chunkElems (a : Nat) : Nat := 2048 / fmtBits a
/-- Stored elements per column of a panel (R89). -/
def panelElems (a sparse : Nat) : Nat := chunkElems a / (if sparse == 1 then 2 else if sparse == 2 then 4 else 1)
def panelBytes (a b sparse : Nat) : Nat := panelElems a sparse * 64 * fmtBits b / 8
/-- Output columns and bytes of a row segment (Table 4.7). -/
def segCols (func : Nat) : Nat := if func == 4 then 32 else 64
def segBytes (func fmt : Nat) : Nat := segCols func * fmtBits fmt / 8
def metaBytes (a sparse : Nat) : Nat := if sparse == 1 then 64 * chunkElems a / 8 else 64 * chunkElems a / 16

/-- RSV bits of an MMA descriptor. -/
def mmaRsv (d : List Byte) : Bool :=
  fld (leAt d 2 1) 5 3 != 0 || bitOf (leAt d 3 1) 7 || fld (leAt d 4 1) 5 3 != 0 ||
  fld (leAt d 5 1) 5 3 != 0 || fld (leAt d 6 1) 5 3 != 0 || fld (leAt d 7 1) 1 7 != 0 ||
  rsvBytes d 19 1 || rsvBytes d 23 1 || rsvBytes d 27 1 || rsvBytes d 31 1 ||
  fld (leAt d 32 2) 10 6 != 0 || rsvBytes d 34 30

/-- Stream 3 is an operand: initial values, a bias or a residual (Table 4.5). -/
def mmaUses3 (d : List Byte) : Bool := mmaAdd d != 0 || mmaInit d == 2

/-- Bytes of one access of stream 3 of an MMA (Table 4.5). -/
def mmaRun3 (d : List Byte) : Nat := if mmaAdd d == 2 then 64 * fmtBits (mmaAddFmt d) / 8 else 256

def mmaFieldFail (d l : List Byte) : Bool :=
  mmaRsv d || convBad (mmaConv d) || !fmtValid (mmaAddFmt d) || fmtIsInt (convFmt (mmaConv d)) ||
  !mmaAFormats.contains (mmaA d) || !mmaBFormats.contains (mmaB d) || mmaSparse d == 3 || mmaInit d == 3 ||
  mmaFunc d > 4 || mmaAdd d == 3 || (mmaUses3 d && !fmtIsFloat (mmaAddFmt d)) ||
  (mmaInit d == 2 && mmaAdd d != 0) || (mmaFunc d == 4 && mmaAdd d == 2) ||
  (mmaWrite d != (loopStream l 2).enabled) ||
  (fmtIsBlock (mmaA d) && mmaAScale d == 0xFFFFFF) || (fmtIsBlock (mmaB d) && mmaBScale d == 0xFFFFFF) ||
  (mmaSparse d != 0 && mmaMeta d == 0xFFFFFF) ||
  (mmaWrite d && fmtIsBlock (convFmt (mmaConv d)) && mmaCScale d == 0xFFFFFF)

/-- R90 and R98. -/
def mmaShapeFail (t : Tile) (swaps : Nat) (d l : List Byte) : Bool :=
  let lv := loopLevels l
  let b0 (k : Nat) := (lv.getD k ⟨0, 0, []⟩)
  let pb := panelBytes (mmaA d) (mmaB d) (mmaSparse d)
  let sb := segBytes (mmaFunc d) (convFmt (mmaConv d))
  let ce := chunkElems (mmaA d)
  let out := loopStream l 2
  let f2 := footprint l 2 sb
  !usesOk l ([0, 1] ++ if mmaUses3 d then [3] else []) ||
  (List.range 3).any (fun k => !(b0 k).on || (b0 k).order > 2) ||
  !(loopStream l 0).wide || !(loopStream l 1).wide ||
  (lv.filter Level.on).any (fun v => v.st 1 % Int.ofNat pb != 0) ||
  (b0 0).st 2 != 0 || (out.enabled && out.wide && sb % 256 != 0) ||
  mmaAccBase d * 64 + (b0 1).bound * (b0 2).bound * 64 > 65536 ||
  !touchOk t swaps l ⟨0, 256, false⟩ || !touchOk t swaps l ⟨1, pb, false⟩ ||
  !touchOk t swaps l ⟨2, sb, true⟩ || !touchOk t swaps l ⟨3, mmaRun3 d, false⟩ ||
  (fmtIsBlock (mmaA d) && !companionOk t swaps l 0 256 (mmaAScale d) (ce / fmtBlock (mmaA d)) 1 false) ||
  (fmtIsBlock (mmaB d) && !companionOk t swaps l 1 pb (mmaBScale d) (64 * ce / fmtBlock (mmaB d)) 1 false) ||
  (mmaSparse d != 0 && !companionOk t swaps l 1 pb (mmaMeta d) (metaBytes (mmaA d) (mmaSparse d)) 1 false) ||
  (mmaWrite d && fmtIsBlock (convFmt (mmaConv d)) &&
    !companionOk t swaps l 2 sb (mmaCScale d) (segCols (mmaFunc d) / fmtBlock (convFmt (mmaConv d))) 1 true) ||
  (mmaFuse d && out.enabled && f2.2 - f2.1 + 1 > 0x100000)

/-- Fields of an ATTN descriptor (Table 4.8). -/
def attnQ (d : List Byte) : Nat := fld (leAt d 2 1) 0 5
def attnKv (d : List Byte) : Nat := fld (leAt d 3 1) 0 5
def attnFlag (d : List Byte) (i : Nat) : Bool := bitOf (leAt d 4 1) i
def attnHead (d : List Byte) : Nat := fld (leAt d 5 1) 0 3
def attnRows (d : List Byte) : Nat := fld (leAt d 6 2) 0 9 + 1
def attnConv (d : List Byte) : Nat := leAt d 8 4
def attnPages (d : List Byte) : Nat := leAt d 18 1 + 1
def attnAccBase (d : List Byte) : Nat := fld (leAt d 28 2) 0 10
def attnQRow (d : List Byte) : Nat := 128 * fmtBits (attnQ d) / 8
def attnORow (d : List Byte) : Nat := 128 * fmtBits (convFmt (attnConv d)) / 8

/-- The row records' positions and masks are read: a mask is enabled (R104, R106). -/
def attnMasked (d : List Byte) : Bool := attnFlag d 0 || attnFlag d 1

/-- The field faults of ATTN. An integer output format is one too: Table 4.2 has none for this engine (log 51). -/
def attnFieldFail (d : List Byte) : Bool :=
  fld (leAt d 2 1) 5 3 != 0 || fld (leAt d 3 1) 5 3 != 0 || fld (leAt d 4 1) 4 4 != 0 ||
  fld (leAt d 5 1) 3 5 != 0 || fld (leAt d 6 2) 9 7 != 0 || rsvBytes d 19 1 || rsvBytes d 27 1 ||
  fld (leAt d 28 2) 10 6 != 0 || rsvBytes d 30 2 || rsvBytes d 35 29 ||
  convBad (attnConv d) || fmtIsInt (convFmt (attnConv d)) ||
  !([0x01, 0x02, 0x08, 0x10].contains (attnQ d)) || !([0x08, 0x09].contains (attnKv d))

def attnShapeFail (t : Tile) (swaps : Nat) (d l : List Byte) : Bool :=
  let q := attnRows d
  !usesOk l ([0, 1, 2] ++ if attnMasked d || attnFlag d 3 then [3] else []) || (loopStream l 1).wide || q > 384 || attnAccBase d * 64 + q * 162 > 65536 ||
  !touchOk t swaps l ⟨0, q * attnQRow d, false⟩ || !touchOk t swaps l ⟨1, 8 * attnPages d, false⟩ ||
  !touchOk t swaps l ⟨2, q * attnORow d, true⟩ || !touchOk t swaps l ⟨3, 16 * q, attnFlag d 3⟩ ||
  (fmtIsBlock (attnQ d) && !companionOk t swaps l 0 (attnQRow d) (leAt d 24 3) (128 / fmtBlock (attnQ d)) q false) ||
  (fmtIsBlock (convFmt (attnConv d)) &&
    !companionOk t swaps l 2 (attnORow d) (leAt d 32 3) (128 / fmtBlock (convFmt (attnConv d))) q true)

/-! ## Vector engine and reduction unit -/

def vOp (d : List Byte) : Nat := leAt d 1 1
def vFmt (d : List Byte) (k : Nat) : Nat := fld (leAt d (2 + k) 1) 0 5
def vImm (d : List Byte) (k : Nat) : Bool := bitOf (leAt d 5 1) k
def vCond (d : List Byte) : Nat := fld (leAt d 5 1) 2 3
def vLoc (d : List Byte) (s : Nat) : Nat := fld (leAt d 6 2) (3 * s) 3
def vConv (d : List Byte) : Nat := leAt d 8 4
def vIndexBase (d : List Byte) : Nat := leAt d 20 8
def vStride (d : List Byte) : List Int := (List.range 6).map (fun k => sext (leAt d (28 + 4 * k) 4) 32)

def vIsArith (op : Nat) : Bool := 1 ≤ op && op ≤ 8
def vIsLogic (op : Nat) : Bool := 0x10 ≤ op && op ≤ 0x13
def vIsShift (op : Nat) : Bool := 0x14 ≤ op && op ≤ 0x16
def vIsTrans (op : Nat) : Bool := 0x20 ≤ op && op ≤ 0x2C
def vIsRand (op : Nat) : Bool := 0x30 ≤ op && op ≤ 0x33
/-- Operations whose result uses b or c (Table 5.2). -/
def vUsesB (op : Nat) : Bool :=
  (1 ≤ op && op ≤ 6) || op == 9 || op == 0x0A || (0x10 ≤ op && op ≤ 0x12) || vIsShift op || op == 0x21
def vUsesC (op : Nat) : Bool := op == 4 || op == 0x0A
def vValid (op : Nat) : Bool :=
  vIsArith op || op == 9 || op == 0x0A || op == 0x0B || vIsLogic op || vIsShift op || vIsTrans op || vIsRand op

def fmtScalar (c : Nat) : Bool := fmtIsFloat c || fmtIsInt c

/-- R113: the formats an operation takes; the operands it reads are `fs`. -/
def vFormatsBad (op : Nat) (a b c out : Nat) : Bool :=
  let fs := [a] ++ (if vUsesB op then [b] else []) ++ (if vUsesC op then [c] else [])
  if vIsRand op then false
  else if fs.any (fun f => !fmtScalar f) then true
  else if vIsLogic op then fs.any (fun f => fmtBits f != fmtBits a)
  else if vIsShift op then fs.any (fun f => !fmtIsInt f)
  else if vIsTrans op then fs.any (fun f => !fmtIsFloat f) || fmtIsInt out
  else if op == 0x0A then !fmtIsInt c || fmtIsInt a != fmtIsInt b || fmtIsInt a != fmtIsInt out
  else if op == 0x0B then false
  else if op == 9 then fs.any (fun f => fmtIsInt f != fmtIsInt a)
  else fs.any (fun f => fmtIsInt f != fmtIsInt a) || fmtIsInt a != fmtIsInt out

def vRsv (d : List Byte) : Bool :=
  (List.range 3).any (fun k => fld (leAt d (2 + k) 1) 5 3 != 0) || fld (leAt d 5 1) 5 3 != 0 ||
  fld (leAt d 6 2) 12 4 != 0 || rsvBytes d 52 12

/-- Bytes that one loop point takes in a stream of a format: g elements, at 8, 16 or 32 bits (R438). -/
def gOf (fs : List Nat) : Nat := if fs.any (fun f => fmtBits f == 32) then 64 else if fs.any (fun f => fmtBits f == 16) then 128 else 256
def gBytes (g f : Nat) : Nat := g * fmtBits f / 8

/-- The enabled streams with their formats (R438): (stream, format). -/
def vStreams (d l : List Byte) : List (Nat × Nat) :=
  ([(0, vFmt d 0), (1, vFmt d 1), (3, vFmt d 2), (2, convFmt (vConv d))] : List (Nat × Nat)).filter (fun e => (loopStream l e.1).enabled)

/-- The streams that an operation reads: a random one reads none (R437). -/
def vInputs (d l : List Byte) : List (Nat × Nat) := (vStreams d l).filter (fun e => e.1 != 2 && !vIsRand (vOp d))

def locBad (loc : Nat → Nat) (l : List Byte) (ss : List Nat) : Bool :=
  ss.any (fun s => loc s > 4) ||
  ss.any (fun s => (loopStream l s).enabled && loc s != 0 && (loopStream l s).mode != 0)

/-- Vector-buffer footprint of R111: within 0-65,535. -/
def vbOk (l : List Byte) (s run : Nat) : Bool :=
  let f := footprint l s run
  0 ≤ f.1 && f.2 < 65536

/-- The field faults of the vector engine. Its formats are the scalar ones, so that a block-format output is refused for every
operation (R60, 03). -/
def vFieldFail (d l : List Byte) (streamed : Bool) : Bool :=
  let op := vOp d
  let en (s : Nat) := (loopStream l s).enabled
  !vValid op || vRsv d || [0, 1, 2].any (fun k => !fmtValid (vFmt d k)) || convBad (vConv d) || vCond d > 5 || locBad (vLoc d) l [0, 1, 2, 3] ||
  vFormatsBad op (vFmt d 0) (vFmt d 1) (vFmt d 2) (convFmt (vConv d)) ||
  !fmtScalar (convFmt (vConv d)) ||
  (vImm d 0 && en 1) || (vImm d 1 && en 3) ||
  (!streamed && ((!vIsRand op && !en 0) || (vUsesB op && !vImm d 0 && !en 1) || (vUsesC op && !vImm d 1 && !en 3)))

def vShapeFail (t : Tile) (swaps : Nat) (d l : List Byte) : Bool :=
  let ss := vStreams d l
  let g := gOf (ss.map (·.2))
  ss.any (fun e =>
    let w := gBytes g e.2
    let run := if (loopStream l e.1).wide then w else alignUp w 32
    !alignOk l e.1 w || (if vLoc d e.1 == 0 then !touchOk t swaps l ⟨e.1, run, e.1 == 2⟩ else !vbOk l e.1 run))

/-- Fields of a reduction-unit descriptor (Table 5.4). -/
def rFmt (d : List Byte) : Nat := fld (leAt d 2 1) 0 5
def rAxis (d : List Byte) : Nat := fld (leAt d 3 1) 0 2
def rExact (d : List Byte) : Bool := bitOf (leAt d 3 1) 2
def rNet (d : List Byte) : Bool := bitOf (leAt d 3 1) 3
def rCcond (d : List Byte) : Nat := fld (leAt d 3 1) 4 4
def rK (d : List Byte) : Nat := fld (leAt d 4 1) 0 7
def rTree (d : List Byte) : Nat := fld (leAt d 5 1) 0 6
def rConv (d : List Byte) : Nat := leAt d 8 4
def rImm (d : List Byte) : Nat := leAt d 12 4
def rIndexBase (d : List Byte) : Nat := leAt d 16 8
def rStride (d : List Byte) : List Int := (List.range 6).map (fun k => sext (leAt d (24 + 4 * k) 4) 32)

/-- Whether a reduction result passes the conversion stage (ARGMAX and TOPK write records). -/
def rRecord (op : Nat) : Bool := op == 4 || op == 5

def rFieldFail (d l : List Byte) (streamed : Bool) : Bool :=
  let op := leAt d 1 1
  op == 0 || op > 7 || fld (leAt d 2 1) 5 3 != 0 || bitOf (leAt d 4 1) 7 || fld (leAt d 5 1) 6 2 != 0 ||
  fld (leAt d 6 2) 12 4 != 0 || rsvBytes d 48 16 || convBad (rConv d) || !fmtScalar (rFmt d) ||
  (!rRecord op && !fmtScalar (convFmt (rConv d))) || rAxis d == 3 || rCcond d > 5 ||
  (op == 5 && (rK d == 0 || rK d > 64)) || (op == 6 && rAxis d == 2) ||
  locBad (vLoc d) l [0, 1, 2, 3] || vLoc d 2 != 0 || (!streamed && !(loopStream l 0).enabled)

/-- Elements that one loop point moves (R438): the output counts when it is written as elements, in stream 2 or as a streamed
result. -/
def rG (d l : List Byte) : Nat :=
  gOf ([rFmt d] ++ (if ((loopStream l 2).enabled || !rNet d) && !rRecord (leAt d 1 1) then [convFmt (rConv d)] else []))

/-- Bytes that the results of one output access take (R119, R438): one result per row, g per access of columns. -/
def rOutBytes (d : List Byte) (g : Nat) : Nat :=
  let one := match leAt d 1 1 with
    | 4 => 8
    | 5 => 8 * rK d
    | _ => fmtBits (convFmt (rConv d)) / 8
  if leAt d 1 1 == 6 || rAxis d == 1 then g * one else one

/-- Access width of a wide stream (R438); records of 8 bytes keep the width of R57, and a stream without an operand counts in the
input format (log 52). -/
def rWidth (d : List Byte) (g s : Nat) : Nat :=
  if s == 2 then (if rRecord (leAt d 1 1) then 256 else gBytes g (convFmt (rConv d))) else gBytes g (rFmt d)

/-- Bytes that one access point of a stream takes. -/
def rRun (d l : List Byte) (g s : Nat) : Nat :=
  let n := if s == 2 then rOutBytes d g else rWidth d g s
  if (loopStream l s).wide then max n (rWidth d g s) else alignUp n 32

def rShapeFail (t : Tile) (swaps : Nat) (d l : List Byte) : Bool :=
  let g := rG d l
  (!rNet d && !usesOk l [2]) ||
  (List.range 4).any (fun s => (loopStream l s).enabled && (!alignOk l s (rWidth d g s) ||
    (if vLoc d s == 0 then !touchOk t swaps l ⟨s, rRun d l g s, s == 2 && !rNet d⟩ else !vbOk l s (rRun d l g s))))

/-! ## Sampler -/

def sRows (d : List Byte) : Nat := fld (leAt d 6 2) 0 9 + 1
def sV0 (d : List Byte) : Nat := fld (leAt d 8 4) 0 18
def sWidth (d : List Byte) : Nat := fld (leAt d 12 4) 0 17
def sVocab (d : List Byte) : Nat := fld (leAt d 16 4) 0 19
def sFmt (d : List Byte) : Nat := fld (leAt d 2 1) 0 5
def sRoot (d : List Byte) : Bool := bitOf (leAt d 3 1) 0
def sSend (d : List Byte) : Bool := bitOf (leAt d 3 1) 1
def sTree (d : List Byte) : Nat := fld (leAt d 4 1) 0 6

def sFieldFail (d : List Byte) : Bool :=
  (leAt d 1 1 != 1 && leAt d 1 1 != 2) || !fmtIsFloat (sFmt d) || fld (leAt d 2 1) 5 3 != 0 ||
  fld (leAt d 3 1) 2 6 != 0 || fld (leAt d 4 1) 6 2 != 0 || rsvBytes d 5 1 || fld (leAt d 6 2) 9 7 != 0 ||
  fld (leAt d 8 4) 18 14 != 0 || fld (leAt d 12 4) 17 15 != 0 || fld (leAt d 16 4) 19 13 != 0 || rsvBytes d 20 44

/-- Bytes of one access point of a sampler stream: an access, or a tree record (R127). -/
def sRun (l : List Byte) (s : Nat) : Nat := (loopStream l s).run (if s == 3 then 320 else 32)

/-- Accesses of one row of a slice. -/
def sAccesses (d l : List Byte) : Nat :=
  let per := (loopStream l 0).width / (fmtBits (sFmt d) / 8)
  (sWidth d + per - 1) / per

/-- Iterations of a level: one when it is disabled. -/
def Level.runs (v : Level) : Nat := max 1 v.bound

/-- R127: the slice and root rules as far as the tile can see, levels that reach every access of the slice (R58, log 50), and the
footprints of the four streams. -/
def sShapeFail (t : Tile) (swaps : Nat) (d l : List Byte) : Bool :=
  sWidth d == 0 || sWidth d > 65536 || sVocab d == 0 || sVocab d > 262144 || sV0 d + sWidth d > sVocab d ||
  sRoot d != (loopStream l 2).enabled || !usesOk l ([0, 1] ++ if leAt d 1 1 == 2 then [3] else []) ||
  ((loopLevels l).getD 0 ⟨0, 0, []⟩).runs < sAccesses d l || ((loopLevels l).getD 1 ⟨0, 0, []⟩).runs < sRows d ||
  (List.range 4).any (fun s => !alignOk l s 256 || !touchOk t swaps l ⟨s, sRun l s, s == 2⟩)

/-! ## Transform engine -/

def dK (d : List Byte) : Nat := fld (leAt d 2 1) 0 4
def dWmode (d : List Byte) : Nat := fld (leAt d 2 1) 4 2
def dCap (d : List Byte) : Bool := bitOf (leAt d 2 1) 6
def dParts (d : List Byte) : Nat := fld (leAt d 3 1) 0 2
def dExperts (d : List Byte) : Nat := fld (leAt d 4 2) 0 12
def dShared (d : List Byte) : Nat := fld (leAt d 6 2) 0 12
def dSharedEn (d : List Byte) : Bool := bitOf (leAt d 6 2) 15
def dQuota (d : List Byte) : Nat := leAt d 12 2
def dRows (d : List Byte) : Nat := fld (leAt d 14 1) 0 6 + 1
def dMap (d : List Byte) : Nat := leAt d 16 3
def dPart (d : List Byte) : Nat := fld (leAt d 24 4) 0 24

def dispatchFieldFail (d l : List Byte) : Bool :=
  dK d == 0 || dK d > 8 || dWmode d == 3 || bitOf (leAt d 2 1) 7 || fld (leAt d 3 1) 2 6 != 0 ||
  dExperts d == 0 || fld (leAt d 4 2) 12 4 != 0 || fld (leAt d 6 2) 12 3 != 0 ||
  (dCap d && dQuota d == 0) || fld (leAt d 14 1) 6 2 != 0 || rsvBytes d 15 1 || rsvBytes d 19 5 ||
  fld (leAt d 24 4) 24 8 != 0 || rsvBytes d 28 36 || (loopStream l 3).enabled

def dispatchShapeFail (t : Tile) (swaps : Nat) (d l : List Byte) : Bool :=
  let r := dRows d
  !usesOk l [0, 1, 2] || (loopLevels l).any Level.on || dMap d % 32 != 0 ||
  dPart d == 0 || dPart d % 64 != 0 || dPart d > 4096 ||
  !touchOk t swaps l ⟨0, r * (dParts d + 1) * dPart d, false⟩ || !touchOk t swaps l ⟨1, r * dK d * 8, false⟩ ||
  !touchOk t swaps l ⟨2, r * 128, true⟩ ||
  !areaOk t swaps 0 0 (Int.ofNat (dMap d)) (Int.ofNat (dMap d + dExperts d * 32) - 1) false

def cFmt (d : List Byte) : Nat := fld (leAt d 2 1) 0 5
def cBasin (d : List Byte) : Nat := fld (leAt d 3 1) 0 6
def cWidth (d : List Byte) : Nat := fld (leAt d 4 2) 0 14
def cRows (d : List Byte) : Nat := fld (leAt d 6 1) 0 6 + 1
def cConv (d : List Byte) : Nat := leAt d 8 4
def cRetmap (d : List Byte) : Nat := leAt d 16 3

def combineFieldFail (d l : List Byte) : Bool :=
  !fmtIsFloat (cFmt d) || fld (leAt d 2 1) 5 3 != 0 || fld (leAt d 3 1) 6 2 != 0 || fld (leAt d 4 2) 14 2 != 0 ||
  cWidth d == 0 || cWidth d > 8192 || fld (leAt d 6 1) 6 2 != 0 || rsvBytes d 7 1 || rsvBytes d 12 4 ||
  rsvBytes d 19 45 || convBad (cConv d) || !fmtScalar (convFmt (cConv d)) || (loopStream l 0).enabled

def combineShapeFail (t : Tile) (swaps : Nat) (d l : List Byte) : Bool :=
  let r := cRows d
  let w := cWidth d
  let bd := t.basinDecl (cBasin d)
  !usesOk l [1, 2, 3] || (loopLevels l).any Level.on || cRetmap d % 64 != 0 ||
  !touchOk t swaps l ⟨1, r * 128, false⟩ || !touchOk t swaps l ⟨2, r * w * fmtBits (convFmt (cConv d)) / 8, true⟩ ||
  !touchOk t swaps l ⟨3, r * 9 * w * fmtBits (cFmt d) / 8, true⟩ ||
  !declValid bd || !declFramed bd || declConsumer bd != 0 ||
  !areaOk t swaps 0 0 (Int.ofNat (cRetmap d)) (Int.ofNat (cRetmap d) + 4095) false

/-- Bytes of one loop point of a conversion (log 11): g elements, at the width of the wider format. -/
def xG (fi fo : Nat) : Nat := 2048 / max (fmtBits fi) (fmtBits fo) / 32 * 32

/-- Bytes that one loop point of a conversion moves in a stream: elements in streams 0 and 2, their scales in streams 1 and 3 (R66,
log 11). -/
def xBytes (x : Config.Xform) (s : Nat) : Nat :=
  let g := xG x.inFmt (convFmt x.conv)
  match s with
  | 0 => g * fmtBits x.inFmt / 8
  | 1 => if fmtIsBlock x.inFmt then g / fmtBlock x.inFmt else 0
  | 2 => g * fmtBits (convFmt x.conv) / 8
  | _ => if fmtIsBlock (convFmt x.conv) then g / fmtBlock (convFmt x.conv) else 0

/-- Streams that a conversion uses. -/
def xStreams (x : Config.Xform) : List Nat := (List.range 4).filter (fun s => xBytes x s != 0)

def xformShapeFail (t : Tile) (swaps : Nat) (x : Config.Xform) (l : List Byte) : Bool :=
  !usesOk l (xStreams x) ||
  (List.range 4).any (fun s => !touchOk t swaps l ⟨s, (loopStream l s).run (max 1 (xBytes x s)), s ≥ 2⟩)

/-! ## The whole check -/

/-- Checks of one engine that R48, R60 and its chapter make on fields: event 0x4111. -/
def engineFieldFail (unit : Nat) (d l : List Byte) (streamed : Bool) : Bool :=
  match unit with
  | 1 => if leAt d 1 1 == 1 then mmaFieldFail d l else if leAt d 1 1 == 2 then attnFieldFail d else true
  | 2 => vFieldFail d l streamed
  | 3 => rFieldFail d l streamed
  | 4 => sFieldFail d
  | _ =>
    if leAt d 1 1 == 0x40 then dispatchFieldFail d l
    else if leAt d 1 1 == 0x41 then combineFieldFail d l
    else !Config.xformOp (d.getD 1 0) || !fmtValid (Config.xform d).inFmt || convBad (Config.xform d).conv

/-- Checks 1-6 of R57: event 0x4110. -/
def engineShapeFail (t : Tile) (swaps unit : Nat) (d l : List Byte) : Bool :=
  !ordersOk (loopLevels l) ||
  (match unit with
   | 1 =>
     (List.range 4).any (fun s => !alignOk l s 256) ||
     (if leAt d 1 1 == 1 then mmaShapeFail t swaps d l else attnShapeFail t swaps d l)
   | 2 => vShapeFail t swaps d l
   | 3 => rShapeFail t swaps d l
   | 4 => sShapeFail t swaps d l
   | _ =>
     (List.range 4).any (fun s => !alignOk l s 256) ||
     (if leAt d 1 1 == 0x40 then dispatchShapeFail t swaps d l
      else if leAt d 1 1 == 0x41 then combineShapeFail t swaps d l
      else xformShapeFail t swaps (Config.xform d) l))

/-- Every check that an ISSUE makes of its operation (R34, R48, R50, R57, R60). -/
def issueFail (t : Tile) (unit desc loop : Nat) : Option Nat :=
  let d := t.desc desc
  let l := t.loopT loop
  firstFail [
    (unit < 1 || 5 < unit, evStep),
    (t.streamed unit, evStep),
    (leAt d 0 1 != unit, evStep),
    (loopRsv l, evStep),
    (engineFieldFail unit d l false, evStep),
    (engineShapeFail t t.swaps unit d l, evShape)]

end Sys2Proof.Machine
end

