-- ==== Sys2Proof/Machine/Ports.lean ====
section
/-! DEFINITION. Operand ports and basins (R35-R37, R143-R149, R245): placement of a message, the head of a port,
head advances, status words; and gauge messages that tile hardware sends (R194, R197). -/

namespace Sys2Proof.Machine

def Tile.port (t : Tile) (u k : Nat) : Port := agetD t.ports (8 * (u - 1) + k) Port.empty
def Tile.setPort (t : Tile) (u k : Nat) (x : Port) : Tile := { t with ports := aput t.ports (8 * (u - 1) + k) x }
def Tile.setBasin (t : Tile) (b : Nat) (x : Basin) : Tile := { t with basins := aput t.basins b x }

/-- A message appended to what leaves the tile, with the unit that sends it (R52, R164). -/
def Tile.emit (t : Tile) (unit : Nat) (m : Msg) : Tile := { t with egress := t.egress ++ [(unit, m)] }

/-- A gauge message that tile hardware builds: to the block of the sender's own die (R194). -/
def gaugeMsg (p gen vid op operand timeout : Nat) : Msg :=
  mkMsg (destWord 0xFFFF (pDie p) 0 16 0 0) 0 gen 4 false (gaugePay vid op 0 operand timeout 0 gen 0 0)

/-- An ADD 1 from a unit of the tile (R197). -/
def Tile.signal (t : Tile) (p unit vid : Nat) : Tile := t.emit unit (gaugeMsg p t.sect.gen.toNat vid 0 1 0)

/-! ## Basins -/

/-- Head advance of a bytes (R149) in a basin of size S. -/
def Basin.advance (b : Basin) (size a : Nat) : Basin :=
  if !b.padValid then { b with head := (b.head + a) % size, used := b.used - a }
  else if b.head + a < b.padAt then { b with head := b.head + a, used := b.used - a }
  else if b.head + a ≤ size then { b with used := b.used - (size - b.head), head := 0, padValid := false }
  else { b with used := b.used - a, head := b.head + a - size, padValid := false }

/-- What R149 takes off U for an advance of a bytes. -/
def Basin.takes (b : Basin) (size a : Nat) : Nat :=
  if b.padValid && b.padAt ≤ b.head + a && b.head + a ≤ size then size - b.head else a

/-- Where R144 places a message of n bytes: the offset, the new state, and whether a pad was made. -/
def Basin.place (b : Basin) (size n : Nat) : Option (Nat × Basin × Bool) :=
  let free := size - b.used
  if n > free then none
  else if b.tail + n ≤ size then some (b.tail, { b with tail := (b.tail + n) % size, used := b.used + n }, false)
  else if b.used = 0 then some (0, { b with head := 0, tail := n, used := n }, false)
  else if (size - b.tail) + n ≤ free then
    some (0, { b with padValid := true, padAt := b.tail, tail := n, used := b.used + (size - b.tail) + n }, true)
  else none

/-- Bytes a message takes in a basin (R144). -/
def basinBytes (framed : Bool) (m : Msg) : Nat := if framed then 128 * m.flits else 64 * m.len

/-- The marker of a pad in a framed basin (R146): kind 15. -/
def padMarker : List Byte := leBytes 16 (15 * 2 ^ 87)

/-- A message written into a basin of a tile (R144-R146, R153), with the signal of R145; none when the basin
back-pressures. -/
def putBasin (s : State) (p b : Nat) (m : Msg) : Option State :=
  let t := s.tile p
  let d := t.basinDecl b
  match (t.basin b).place (declSize d) (basinBytes (declFramed d) m) with
  | none => none
  | some (at_, nb, padded) =>
    let base := tileBase p + declBase d
    let m1 := if padded && declFramed d then s.mem.write (base + nb.padAt) padMarker false else s.mem
    let bytes := if declFramed d then m.bytes else m.pay
    let t1 := t.setBasin b { nb with backp := false }
    let t2 := if padded then t1.bump (bankTsc 4) 1 else t1
    let t3 := if declSig d then t2.signal p 7 (declGid d) else t2
    some (({ s with mem := m1.write (base + at_) bytes m.poison }.setTile p t3).wrote p
      (granules (base + at_) bytes.length ++ (if padded then granules (base + nb.padAt) 16 else []))
      (wholeGranules (base + at_) bytes.length))

/-- The framed message at the head of a basin; one that a mark stands in carries the poison flag (R153). -/
def basinHead (s : State) (p b : Nat) : Msg :=
  let t := s.tile p
  let d := t.basinDecl b
  let a := tileBase p + declBase d + (t.basin b).head
  let h := s.mem.num a 16
  let n := 16 + 64 * (fld h 91 6 + 1)
  let m := msgOfBytes (s.mem.read a n)
  if s.mem.poisoned a n then { m with hdr := BitVec.ofNat 128 (hset m.hdr.toNat 97 1 1) } else m

/-- The bytes of a tile's store in which the message at the head of a basin lies. -/
def basinWords (s : State) (p b : Nat) : List (Nat × Nat) :=
  [(declBase ((s.tile p).basinDecl b) + ((s.tile p).basin b).head, 128 * (basinHead s p b).flits)]

/-- The head of a basin moves past its first message (R147). -/
def popBasin (s : State) (p b : Nat) (m : Msg) : State :=
  s.modTile p (fun t =>
    let d := t.basinDecl b
    t.setBasin b ((t.basin b).advance (declSize d) (basinBytes true m)))

/-! ## Operand ports -/

/-- Entries held in a port's FIFO. -/
def Port.entries (x : Port) : Nat := flitsOf x.fifo

/-- The message at the head of a port, if a whole one is there (R36, R37). -/
def portHead (s : State) (p u k : Nat) : Option Msg :=
  let t := s.tile p
  let x := t.port u k
  match x.fifo with
  | m :: _ => some m
  | [] =>
    if x.inBasin = 0 then none
    else
      let m := basinHead s p (t.bindBasin u k)
      if m.flits > 8 then some m else none

/-- The bytes of a tile's store in which the message at a port's head lies: none when it stands in the FIFO (R36, R147). -/
def portWords (s : State) (p u k : Nat) : List (Nat × Nat) :=
  if ((s.tile p).port u k).fifo.isEmpty && ((s.tile p).port u k).inBasin != 0 then basinWords s p ((s.tile p).bindBasin u k) else []

/-- The head of a port is taken (R36, R38). -/
def popPort (s : State) (p u k : Nat) : State :=
  let t := s.tile p
  let x := t.port u k
  match x.fifo with
  | _ :: r => s.setTile p (t.setPort u k { x with fifo := r })
  | [] =>
    if x.inBasin = 0 then s
    else
      let b := t.bindBasin u k
      (popBasin s p b (basinHead s p b)).modTile p (fun y => y.setPort u k { x with inBasin := x.inBasin - 1 })

/-- Status word of a port (Table 2.4); the store port's words describe no queue (R37). -/
def portStatus (s : State) (p u k : Nat) : Nat :=
  let t := s.tile p
  let x := t.port u k
  let bound := b2n (t.sect.configured && t.bound u k) * 2 ^ 31
  let stale := b2n x.staleSeen * 2 ^ 30
  if u == 7 then bound + stale + b2n x.backp * 2 ^ 27
  else
    let n := min 255 (x.fifo.length + x.inBasin)
    let head := match portHead s p u k with
      | some m => m.tag * 2 ^ 8 + 2 ^ 24 + b2n m.poison * 2 ^ 28 + b2n (m.kind == 1) * 2 ^ 29
      | none => 0
    n + head + b2n (x.entries == 8) * 2 ^ 25 + b2n (x.inBasin != 0) * 2 ^ 26 + b2n x.backp * 2 ^ 27 + stale + bound

/-- Entries of 128 bytes that the fabric spill and the steer spill hold (R246). -/
def Tile.fabSpillUsed (t : Tile) : Nat := t.router.spill.foldl (fun a e => a + e.load.flits) 0
def Tile.condSpillUsed (t : Tile) : Nat := t.steerSpill.foldl (fun a e => a + e.2.flits) 0
/-- The spillway has room for n flits more. -/
def Tile.spillFits (t : Tile) (n : Nat) : Bool := (t.fabSpillUsed + t.condSpillUsed + n) * 128 ≤ 0xFC0000 - t.spillBase
def Tile.spillRoom (t : Tile) (m : Msg) : Bool :=
  t.spillFits m.flits

/-- What becomes of a message that passed checks 1-4 of R182. -/
inductive Placed where
  | placed (s : State)
  | dropped (s : State)
  | waits (s : State)

/-- Check 5 of R182: the message can never be accepted (R36, R144). -/
def oversize (t : Tile) (u k : Nat) (m : Msg) : Bool :=
  let d := t.basinDecl (t.bindBasin u k)
  if u == 7 then basinBytes (declFramed d) m > declSize d
  else m.flits > 8 && (!t.ovfEn u k || basinBytes true m > declSize d)

/-- The drop of an oversize message (R36): counted and logged. -/
def dropOversize (s : State) (p u : Nat) (m : Msg) : State :=
  (s.modTile p (fun t => t.modRegs (fun r => { r with oversize := sat32 r.oversize 1 }))).unitEvent p u 0x3120 (hdrDetail m.hdr)

/-- Placement under R35 and R144; none: back-pressure. -/
def tryPlace (s : State) (p u k : Nat) (m : Msg) : Option State :=
  let t := s.tile p
  let x := t.port u k
  if u == 7 then
    (putBasin s p (t.bindBasin u k) m).map (fun s' => s'.modTile p (fun y => y.setPort u k { x with backp := false }))
  else if x.inBasin == 0 && x.entries + m.flits ≤ 8 then
    some (s.setTile p (t.setPort u k { x with fifo := x.fifo ++ [m], backp := false }))
  else if t.ovfEn u k then
    (putBasin s p (t.bindBasin u k) m).map (fun s' =>
      s'.modTile p (fun y => y.setPort u k { x with inBasin := x.inBasin + 1, backp := false }))
  else none

/-- A message waits at a port: the port refuses it (R37). -/
def markBackpressure (s : State) (p u k : Nat) : State :=
  s.modTile p (fun t =>
    let t1 := t.setPort u k { t.port u k with backp := true }
    if u == 7 || t.ovfEn u k then
      t1.setBasin (t.bindBasin u k) { t.basin (t.bindBasin u k) with backp := true }
    else t1)

def portNo (u k : Nat) : Nat := 8 * (u - 1) + k

/-- The spillway has no room for a steer message: event 0x3192, for the first of the tile in a section (R246). -/
def steerFull (s : State) (p u : Nat) (m : Msg) : State :=
  let k := 0x3192 * 16
  if (aget? (s.tile p).once k).isSome then s
  else (s.modTile p (fun t => { t with once := aput t.once k 1 })).unitEvent p u 0x3192 (hdrDetail m.hdr)

/-- A steer message for which there is no room (R245, R246). -/
def spillSteer (s : State) (p u k : Nat) (m : Msg) : Placed :=
  let t := s.tile p
  if t.spillRoom m then
    .placed (s.setTile p ({ t with steerSpill := t.steerSpill ++ [(portNo u k, m)] }.bump (bankCcc 3) 1))
  else
    .waits (markBackpressure ((steerFull s p u m).modTile p
      (fun y => y.modRegs (fun r => { r with condSpillFull := true }))) p u k)

/-- Checks 5 and 6 of R182 with the spill of R245. -/
def placeMsg (s : State) (p u k : Nat) (m : Msg) : Placed :=
  let t := s.tile p
  let spilled := t.steerSpill.any (fun e => e.1 == portNo u k)
  if oversize t u k m then .dropped (dropOversize s p u m)
  else if spilled then
    (if m.kind == 5 then spillSteer s p u k m else .waits (markBackpressure s p u k))
  else
    match tryPlace s p u k m with
    | some s' => .placed s'
    | none => if m.kind == 5 then spillSteer s p u k m else .waits (markBackpressure s p u k)

/-! ## Done tiles (R40) -/

def Tile.queue (t : Tile) (u : Nat) : List Op := agetD t.queues u []
def Tile.setQueue (t : Tile) (u : Nat) (l : List Op) : Tile := { t with queues := aput t.queues u l }
def Tile.isFinished (t : Tile) (u : Nat) : Bool := t.finished.testBit u

/-- Results of a unit stand in egress: gauge messages are none (R40, R197). -/
def Tile.resultsOut (t : Tile) (u : Nat) : Bool := t.egress.any (fun e => e.1 == u && e.2.kind != 4)

/-- The engines that R40 makes finished now: marked, and marked for good. -/
def Tile.finish (t : Tile) : Tile :=
  let ended := t.seq.st == .ended
  let fin (u : Nat) : Bool :=
    if u ≥ 6 then ended
    else if t.streamed u then
      (let n := t.fireCount u
       if n == 0 then ended && !t.resultsOut u else agetD t.firings u 0 ≥ n && !t.resultsOut u)
    else ended && (t.queue u).isEmpty
  { t with finished := (List.range 7).foldl (fun a i => if fin (i + 1) then putBit a (i + 1) true else a) t.finished }

/-- A tile is done: its sequencer has executed END and units 1-7 have finished. -/
def Tile.isDone (t : Tile) : Bool :=
  t.seq.st == .ended && (List.range 7).all (fun i => t.isFinished (i + 1))

/-- Every change of a tile that can finish a unit ends with this. -/
def settle (s : State) (p : Nat) : State :=
  if (s.tile p).sect.configured then s.modTile p Tile.finish else s

/-! ## Completion of an issued operation -/

/-- Head advance of a consumed basin, with the overrun rule (R148, R149). -/
def advanceBasin (s : State) (p b a : Nat) : State :=
  let t := s.tile p
  let size := declSize (t.basinDecl b)
  let x := t.basin b
  if x.takes size a > x.used then
    let s1 := s.modTile p (fun y => (y.setBasin b { x with head := x.tail, used := 0, padValid := false }).modRegs (fun r =>
      { r with overrun := sat32 r.overrun 1 }))
    s1.onceEvent p 0 0x3114 1 (detailOf [(1, b)])
  else s.modTile p (fun y => y.setBasin b (x.advance size a))

/-- An issued operation of unit u has completed (R50, R148, R197): it leaves the queue, the basins it consumes advance as `adv`
says, its gauge is signalled, the step that waits for it goes on, and the unit may finish. -/
def completeWith (s : State) (p u : Nat) (op : Op) (adv : List (Nat × Nat)) : State :=
  let s1 := adv.foldl (fun x e => advanceBasin x p e.1 e.2) s
  let s2 := s1.modTile p (fun t =>
    let t1 := t.setQueue u ((t.queue u).drop 1)
    let t2 := match op.signal with
      | some v => t1.signal p u v
      | none => t1
    let t3 := if t2.seq.holdOp == some op.id then t2.modSeq (fun q => { q with holdOp := none }) else t2
    t3.bump (bankFire u) 1)
  settle (s2.noteProgress p) p

/-- A message of unit u has left egress: an operation that waited for its last one completes (R197, R244). -/
def finishSent (s : State) (p u : Nat) : State :=
  match (s.tile p).queue u with
  | op :: _ =>
    (match op.out with
     | some adv => if (s.tile p).resultsOut u then s else completeWith s p u op adv
     | none => s)
  | [] => s

end Sys2Proof.Machine
end

