-- ==== Sys2Proof/Machine/TileProgram.lean ====
section
/-! DEFINITION. The tile program (02): ISSUE, WAIT_GAUGE, SIGNAL_GAUGE, WATCH, SWAP, BRANCH, END (R47-R55), the
steps that end their stalls, and the halt and step bits of the debug window (R59). -/

namespace Sys2Proof.Machine

/-- Opcode of a step (R48). -/
def stepOp (w : Nat) : Nat := fld w 58 6

/-- The opcodes of Table 2.9. -/
def stepOps : List Nat := [1, 2, 3, 4, 5, 6, 7, 0x3F]

/-- RSV bits of a step (Table 2.10). -/
def stepRsv (w : Nat) : Bool :=
  match stepOp w with
  | 1 => fld w 0 32 != 0
  | 2 => fld w 32 13 != 0
  | 3 => fld w 32 13 != 0
  | 4 => fld w 24 7 != 0
  | 5 => fld w 32 14 != 0
  | 6 => fld w 0 50 != 0
  | 7 => fld w 10 41 != 0
  | _ => fld w 0 58 != 0

/-- A step fault (R49): recorded, and a job fault of the section. -/
def stepFault (s : State) (p code : Nat) : State :=
  let s1 := s.modTile p (fun t => t.modSeq (fun q =>
    { q with st := .faulted, faultEvent := BitVec.ofNat 16 code, faultIndex := q.idx }))
  s1.tileFault p 0 code stJobFault (detailOf [(2, (s.tile p).seq.idx.toNat)])

/-- A parity failure of a configuration word at its read (R155, code 6): poison under R48. -/
def cfgParityFault (s : State) (p : Nat) : State :=
  stepFault (s.modTile p (fun t => t.modRegs (fun r =>
    { r with parCount := BitVec.ofNat 16 (satAdd 16 r.parCount.toNat 1), parLast := 6 }))) p evPoisonStep

/-- The sequencer goes on with step `n` (R47, R48): past the program length it faults; a halt, a breakpoint or a
single step stops it at this boundary. The index that a program of 1,024 steps reaches does not fit the 10 bits of `TDBG_SEQ` and
`TDBG_FAULT`: it is recorded as 0 (DESIGN CHOICE, log 38). -/
def seqGo (s : State) (p n : Nat) : State :=
  let t := s.tile p
  let q := t.seq
  if n ≥ t.progLen then
    stepFault (s.setTile p (t.modSeq (fun x => { x with idx := BitVec.ofNat 10 n }))) p evBranch
  else
    let stop := q.stepOne || q.halt || (q.breakEn && q.breakAt.toNat == n)
    (s.noteProgress p).modTile p (fun y => y.modSeq (fun x =>
      { x with idx := BitVec.ofNat 10 n, st := if stop then .halted else .running, stepOne := false }))

/-- The step at hand retires. -/
def retire (s : State) (p : Nat) : State := seqGo s p ((s.tile p).seq.idx.toNat + 1)

/-- The sequencer of a logical tile can execute its next step. -/
def seqReady (t : Tile) : Bool :=
  t.sect.configured && !t.sect.loading && !t.sect.saving && t.seq.st == .running && t.seq.holdOp == none

/-- The physical tile whose sequencer executes a step of opcode `op` now, with the step word: none where it is not at
such a step. -/
def atStep (s : State) (n op : Nat) : Option (Nat × Nat) :=
  let p := s.phys n
  let t := s.tile p
  let w := t.step64 t.seq.idx.toNat
  if n < s.ntiles && seqReady t && stepOp w == op then some (p, w) else none

/-- What every step does first (R48): a parity failure, a poisoned step word or a set RSV bit ends the section. -/
def withStep (s : State) (n op : Nat) (cfgParity : Bool) (f : Nat → Nat → State) : State :=
  match atStep s n op with
  | none => s
  | some (p, w) =>
    if cfgParity then cfgParityFault s p
    else if (s.tile p).cfgMarked (8 * (s.tile p).seq.idx.toNat) 8 then stepFault s p evPoisonStep
    else if stepRsv w then stepFault s p evStep
    else f p w

def setSeqState (s : State) (p : Nat) (st : SeqState) : State := s.modTile p (fun t => t.modSeq (fun q => { q with st := st }))

/-! ## ISSUE (R50) -/

/-- The operation of an ISSUE enters its queue; `wait` holds the next step. -/
def queueOp (s : State) (p w : Nat) : State :=
  let t := s.tile p
  let u := fld w 54 4
  let op : Op := { id := t.opId, desc := fld w 49 5, loop := fld w 45 4, swaps := t.swaps,
                   signal := if bitOf w 43 then some (fld w 32 11) else none, hold := bitOf w 44, out := none }
  let t1 := { t.setQueue u (t.queue u ++ [op]) with opId := t.opId + 1 }
  let t2 := if op.hold then t1.modSeq (fun q => { q with holdOp := some op.id }) else t1
  retire (s.setTile p t2) p

/-- The descriptor or loop table that an ISSUE names is read with poison (R48). -/
def issueMarked (t : Tile) (w : Nat) : Bool :=
  t.cfgMarked (0x2000 + 64 * fld w 49 5) 64 || t.cfgMarked (0x2800 + 128 * fld w 45 4) 128

/-- ISSUE: the checks of R34, R48, R50, R57 and R60 in order, then the queue of four operations. A step whose opcode
is absent from Table 2.9 comes here too (R48). -/
def execIssue (n : BitVec 10) (cfgParity : Bool) (s : State) : Host.Outcome State Fault Refusal :=
  let n := n.toNat
  let p := s.phys n
  let t := s.tile p
  let w := t.step64 t.seq.idx.toNat
  .next (done s (
    if n < s.ntiles && seqReady t && (stepOp w == 1 || !stepOps.contains (stepOp w)) then
      (if cfgParity then cfgParityFault s p
       else if t.cfgMarked (8 * t.seq.idx.toNat) 8 then stepFault s p evPoisonStep
       else if stepOp w == 1 && !stepRsv w && issueMarked t w then stepFault s p evPoisonStep
       else if stepOp w != 1 || stepRsv w then stepFault s p evStep
       else
         match issueFail t (fld w 54 4) (fld w 49 5) (fld w 45 4) with
         | some e => stepFault s p e
         | none =>
           if (t.queue (fld w 54 4)).length < 4 then queueOp s p w else setSeqState s p .stallIssue)
    else s))

/-- A slot frees in a full issue queue, and the stalled ISSUE queues its operation (R50). -/
def execIssueQueueSlotFree (n : BitVec 10) (s : State) : Host.Outcome State Fault Refusal :=
  let p := s.phys n.toNat
  let t := s.tile p
  let w := t.step64 t.seq.idx.toNat
  .next (done s (
    if t.seq.st == .stallIssue && (t.queue (fld w 54 4)).length < 4 then queueOp s p w else s))

/-! ## Gauge messages of the sequencer (R197, R200) -/

/-- A gauge message of the sequencer: out at once when nothing waits before it, else behind the queue; none when the
queue holds 8. -/
def seqGauge (s : State) (p : Nat) (m : Msg) (fence : Bool) : Option State :=
  let t := s.tile p
  let busy := (List.range 5).any (fun u => !(t.queue (u + 1)).isEmpty)
  if t.gq.isEmpty && !(fence && busy) then some (s.setTile p (t.emit 0 m))
  else if t.gq.length < 8 then
    some (s.setTile p { t with gq := t.gq ++ [⟨if fence then some t.opId else none, m⟩] })
  else none

/-- The messages at the head of the gauge queue that no fence holds leave (R197). -/
def releaseGqGo : Nat → Nat → Tile → Tile
  | 0, _, t => t
  | k + 1, clk, t =>
    match t.gq with
    | [] => t
    | e :: r =>
      let held := match e.fence with
        | some f => (List.range 5).any (fun u => (t.queue (u + 1)).any (fun o => o.id < f))
        | none => false
      if held then t
      else
        let t1 := { t with gq := r }.emit 0 e.msg
        let isWait := leAt e.msg.pay 2 1 == 2
        releaseGqGo k clk (if isWait then t1.modSeq (fun q =>
          { q with gwait := q.gwait.map (fun g => { g with start := clk }) }) else t1)

def releaseGq (s : State) (p : Nat) : State := s.modTile p (releaseGqGo 9 s.clk)

/-- WAIT_GAUGE at a step: the WAIT is sent and the sequencer is gated, or the step stalls on a full gauge queue. -/
def doWaitGauge (s : State) (p w : Nat) : State :=
  let t := s.tile p
  let vid := fld w 47 11
  let target := fld w 0 32
  let timeout := t.timeoutEntry (fld w 45 2)
  match seqGauge s p (gaugeMsg p t.sect.gen.toNat vid 2 target timeout) false with
  | none => setSeqState s p .stallEgress
  | some s1 => s1.modTile p (fun x => x.modSeq (fun q => { q with
      st := .waitGauge
      gwait := some ⟨vid, BitVec.ofNat 32 target, s.clk, timeout, none, 0, 0⟩ }))

/-- SIGNAL_GAUGE at a step: ADD or SET, fenced or not; the step retires at once (R197). -/
def doSignalGauge (s : State) (p w : Nat) : State :=
  let m := gaugeMsg p (s.tile p).sect.gen.toNat (fld w 47 11) (b2n (bitOf w 46)) (fld w 0 32) 0
  match seqGauge s p m (bitOf w 45) with
  | none => setSeqState s p .stallEgress
  | some s1 => retire s1 p

/-- WAIT_GAUGE (R51, R200). -/
def execWaitGauge (n : BitVec 10) (cfgParity : Bool) (s : State) : Host.Outcome State Fault Refusal :=
  .next (done s (withStep s n.toNat 2 cfgParity (fun p w => doWaitGauge s p w)))

/-- SIGNAL_GAUGE (R197). -/
def execSignalGauge (n : BitVec 10) (cfgParity : Bool) (s : State) : Host.Outcome State Fault Refusal :=
  .next (done s (withStep s n.toNat 3 cfgParity (fun p w => doSignalGauge s p w)))

/-- The operations before a fence have completed: the fenced message and those behind it leave (R197). -/
def execFenceRelease (n : BitVec 10) (s : State) : Host.Outcome State Fault Refusal :=
  .next (done s (if n.toNat < s.ntiles then releaseGq s (s.phys n.toNat) else s))

/-! ## WATCH (R53) -/

/-- The condition of a WATCH: (status word AND mask) not 0. -/
def watchTrue (s : State) (p w : Nat) : Bool :=
  portStatus s p (fld w 54 4) (fld w 51 3) &&& fld w 0 32 != 0

def setPred (s : State) (p k : Nat) (v : Bool) : State :=
  s.modTile p (fun t => t.modSeq (fun q => { q with preds := BitVec.ofNat 8 (putBit q.preds.toNat k v), watchDeadline := none }))

/-- WATCH (R53): true at once, or the sequencer is gated. -/
def execWatch (n : BitVec 10) (cfgParity : Bool) (s : State) : Host.Outcome State Fault Refusal :=
  .next (done s (withStep s n.toNat 5 cfgParity (fun p w =>
    if fld w 54 4 < 1 || 7 < fld w 54 4 then stepFault s p evStep
    else if watchTrue s p w then retire (setPred s p (fld w 46 3) true) p
    else
      let wait := (s.tile p).timeoutEntry (fld w 49 2)
      s.modTile p (fun t => t.modSeq (fun q =>
        { q with st := .watch, watchDeadline := if wait == 0 then none else some (s.clk + wait) })))))

/-- A rewrite of the watched status word wakes the sequencer to evaluate again (R53). -/
def execWatchReevaluate (n : BitVec 10) (s : State) : Host.Outcome State Fault Refusal :=
  let p := s.phys n.toNat
  let t := s.tile p
  let w := t.step64 t.seq.idx.toNat
  .next (done s (
    if t.seq.st == .watch && watchTrue s p w then retire (setPred s p (fld w 46 3) true) p else s))

/-- A WATCH timeout expires (R53): the predicate is cleared and the next step runs; no event. A condition that holds
in that cycle counts as true. -/
def execWatchTimeout (n : BitVec 10) (s : State) : Host.Outcome State Fault Refusal :=
  let p := s.phys n.toNat
  let t := s.tile p
  let w := t.step64 t.seq.idx.toNat
  .next (done s (
    match t.seq.watchDeadline with
    | some d =>
      if t.seq.st == .watch && d ≤ s.clk then retire (setPred s p (fld w 46 3) (watchTrue s p w)) p else s
    | none => s))

/-! ## SWAP, BRANCH, END (R54, R49, R55) -/

/-- SWAP: the halves of every selected pair are exchanged; queued operations keep theirs (R54). -/
def execSwap (n : BitVec 10) (cfgParity : Bool) (s : State) : Host.Outcome State Fault Refusal :=
  .next (done s (withStep s n.toNat 6 cfgParity (fun p w =>
    retire (s.modTile p (fun t => { t with swaps := t.swaps ^^^ fld w 50 8 })) p)))

/-- Whether a BRANCH is taken, and the counters after it (Table 2.10). -/
def branchTaken (q : Seq) (w : Nat) : Bool × List (BitVec 20) :=
  let p := q.preds.getLsbD (fld w 53 3)
  let c := fld w 51 2
  let v := q.ctrs.getD c 0 - 1
  match fld w 56 2 with
  | 0 => (p, q.ctrs)
  | 1 => (!p, q.ctrs)
  | 2 => (v != 0, q.ctrs.set c v)
  | _ => (true, q.ctrs)

/-- BRANCH: a target at or beyond the program length is a step fault (R48). -/
def execBranch (n : BitVec 10) (cfgParity : Bool) (s : State) : Host.Outcome State Fault Refusal :=
  .next (done s (withStep s n.toNat 7 cfgParity (fun p w =>
    let t := s.tile p
    if fld w 0 10 ≥ t.progLen then stepFault s p evBranch
    else
      let (taken, cs) := branchTaken t.seq w
      let s1 := s.setTile p (t.modSeq (fun q => { q with ctrs := cs }))
      if taken then seqGo s1 p (fld w 0 10) else retire s1 p)))

/-- END: the sequencer stops; the tile becomes done once its units finish (R40, R55). -/
def execEndProgram (n : BitVec 10) (cfgParity : Bool) (s : State) : Host.Outcome State Fault Refusal :=
  .next (done s (withStep s n.toNat 0x3F cfgParity (fun p _ => settle (setSeqState s p .ended) p)))

/-! ## TDBG_CTL (R59, Table 2.15) -/

/-- The debug window of a physical tile answers: the debug fuse is intact and the tile's die is present (R59). -/
def windowOpen (s : State) (p : Nat) : Bool := s.part.debugOpen && !s.sec.debugLock && p < 272 * s.dies

/-- A write of TDBG_CTL: halt, break_en and break_at; the step bit is STEP's. A sequencer that runs stops at the next
step boundary, as does one at the step that break_at names; a halted one whose halt bit goes to 0 runs on. -/
def execHalt (p : BitVec 11) (v : W32) (s : State) : Host.Outcome State Fault Refusal :=
  .next (done s (
    if windowOpen s p.toNat then
      s.modTile p.toNat (fun t => t.modSeq (fun q =>
        let h := v.getLsbD 0
        { q with
          halt := h
          breakEn := v.getLsbD 2
          breakAt := BitVec.ofNat 10 (fld v.toNat 3 10)
          st := if (h || (v.getLsbD 2 && fld v.toNat 3 10 == q.idx.toNat)) && q.st == .running then .halted
            else if !h && q.st == .halted then .running else q.st }))
    else s))

/-- TDBG_CTL.step: while halted, one step (R59). -/
def execStep (p : BitVec 11) (s : State) : Host.Outcome State Fault Refusal :=
  .next (done s (
    if windowOpen s p.toNat && (s.tile p.toNat).seq.st == .halted then
      s.modTile p.toNat (fun t => t.modSeq (fun q => { q with st := .running, stepOne := true }))
    else s))

end Sys2Proof.Machine
end

