-- ==== Sys2Proof/Machine/Gauge.lean ====
section
/-! DEFINITION. The gauge blocks (08): translation (R193, R194), comparison (R195), ADD, SET and WAIT at a block
(R196-R202), WAKE at its waiter (R203, R204), retries and timeouts. Blocks are named 0-3 for the field dies and 4
for the hub. -/

namespace Sys2Proof.Machine

/-- A waiter with target t is satisfied by value v (R195). -/
def satisfied (v t : W32) : Bool := (v - t).toNat < 2 ^ 31

/-- Physical gauge (4096 * location + index) of a virtual ID in a context (R193). -/
def State.gaugeOf (s : State) (ctx vid : Nat) : Option Nat :=
  let e := (agetD s.gauges.xlat (2048 * ctx + vid) 0).toNat
  if bitOf e 15 then some (fld e 12 3 * 4096 + fld e 0 12) else none

def State.gauge (s : State) (g : Nat) : Gauge := agetD s.gauges.gauges g Gauge.reset
def State.setGauge (s : State) (g : Nat) (x : Gauge) : State :=
  { s with gauges := { s.gauges with gauges := aput s.gauges.gauges g x } }

/-- A counter of GAUGE_STAT. -/
def State.gaugeStat (s : State) (loc k n : Nat) : State :=
  { s with gauges := { s.gauges with stat := bump s.gauges.stat (8 * loc + k) n } }

/-- `phys` of Table 8.1. -/
def physWord (g : Nat) : BitVec 15 := BitVec.ofNat 15 (g % 4096 + g / 4096 * 4096)

/-- The input queue of a block. -/
def State.gin (s : State) (b : Nat) : List Msg := agetD s.gauges.inq b []
def State.setGin (s : State) (b : Nat) (l : List Msg) : State :=
  { s with gauges := { s.gauges with inq := if l.isEmpty then adel s.gauges.inq b else aput s.gauges.inq b l } }
def State.pushGin (s : State) (b : Nat) (m : Msg) : State := s.setGin b (s.gin b ++ [m])

/-- What a block has still to send into the fabric. -/
def State.gout (s : State) (b : Nat) : List Msg := agetD s.gauges.out b []
def State.setGout (s : State) (b : Nat) (l : List Msg) : State :=
  { s with gauges := { s.gauges with out := if l.isEmpty then adel s.gauges.out b else aput s.gauges.out b l } }
def State.popGout (s : State) (b : Nat) : State := s.setGout b ((s.gout b).drop 1)
def State.pushGout (s : State) (b : Nat) (m : Msg) : State := s.setGout b (s.gout b ++ [m])

/-- The endpoint of a block (R159). -/
def blockDest (dev b unit : Nat) : Nat := if b < 4 then destWord dev b 0 16 unit 0 else destWord dev 0 0 17 unit 0

/-- Fields of a gauge payload (Table 8.1). -/
def gVid (m : Msg) : Nat := fld (leAt m.pay 0 2) 0 11
def gOp (m : Msg) : Nat := leAt m.pay 2 1
def gOperand (m : Msg) : W32 := BitVec.ofNat 32 (leAt m.pay 4 4)
def gTimeout (m : Msg) : Nat := leAt m.pay 8 4
def gCtx (m : Msg) : Nat := fld (leAt m.pay 12 1) 0 6
def gWgen (m : Msg) : Nat := fld (leAt m.pay 13 1) 0 3

/-- op 3-255 or a RSV bit set (R198). -/
def gaugeMalformed (m : Msg) : Bool :=
  gOp m > 2 || fld (leAt m.pay 0 2) 11 5 != 0 || fld (leAt m.pay 12 1) 6 2 != 0 ||
  fld (leAt m.pay 13 1) 3 5 != 0 || leAt m.pay 14 2 != 0 || fld (leAt m.pay 20 2) 15 1 != 0 || leAt m.pay 22 2 != 0

/-- The source is a tile of this device; a hub unit of it; another device. -/
def fromTile (s : State) (m : Msg) : Bool := (m.srcDev == s.deviceId) && m.srcY < 16
def fromHub (s : State) (m : Msg) : Bool := (m.srcDev == s.deviceId) && m.srcY == 17

/-- Context of a gauge message (R194). -/
def gaugeCtx (s : State) (m : Msg) : Option Nat :=
  if fromTile s m then (aget? s.gauges.tctx m.srcTile).map BitVec.toNat else some (gCtx m)

/-- A drop under R198: counted, and logged once per block per section. -/
def gaugeDrop (s : State) (b : Nat) (m : Msg) : State :=
  let s1 := s.gaugeStat b 5 1
  if s1.gauges.once.contains b then s1
  else { s1 with gauges := { s1.gauges with once := b :: s1.gauges.once } }.event 0x3160 11 b (gaugeCtx s m) (hdrDetail m.hdr)

/-- The message that carries a WAKE (Table 8.1): from its block to the address that the WAIT came from, with the waiter's
generation (log 36). -/
def wakeMsg (dev b : Nat) (w : Wake) : Msg :=
  (mkMsg w.waiter.src w.waiter.hubId w.waiter.wgen.toNat 4 false
    (gaugePay w.waiter.vid.toNat 3 w.result.toNat 0 0 w.waiter.ctx.toNat w.waiter.wgen.toNat w.value.toNat w.phys.toNat)).put 34 34 (blockDest dev b 0)

/-- A WAKE leaves block b (R201): a lane-0 message to its waiter (R196). -/
def State.sendWake (s : State) (b : Nat) (w : Wake) : State :=
  let m := wakeMsg s.deviceId b w
  (s.count m 1).pushGout b m

/-- The waiters that a value satisfies are woken in registration order; the others stay (R201, R202). -/
def wakeSatisfied (s : State) (g : Nat) : State :=
  let x := s.gauge g
  let hit := x.waiters.filter (fun w => satisfied x.value w.target)
  let s1 := s.setGauge g { x with waiters := x.waiters.filter (fun w => !satisfied x.value w.target) }
  let b := g / 4096
  let s2 := hit.foldl (fun y w => y.sendWake b ⟨w, 0, x.value, physWord g⟩) s1
  { s2 with gauges := { s2.gauges with
      waitersUsed := amod s2.gauges.waitersUsed b 0 (fun n => n - hit.length)
      stat := bump s2.gauges.stat (8 * b + 2) hit.length } }

/-- GAUGE_LAST_SRC of an applied signal (Table 8.6). -/
def lastSrcWord (phase tile unit : Nat) (hub isSet : Bool) : W64 :=
  BitVec.ofNat 64 (phase % 2 ^ 20 + tile * 2 ^ 20 + unit * 2 ^ 30 + b2n hub * 2 ^ 34 + b2n isSet * 2 ^ 35 + 2 ^ 36)

/-- An ADD or SET applied to a physical gauge (R201), with its signaller. -/
def applySignal (s : State) (g : Nat) (isSet : Bool) (operand : W32) (tile unit : Nat) (hub : Bool) : State :=
  let x := s.gauge g
  let s1 := s.setGauge g { x with
    value := if isSet then operand else x.value + operand
    lastTide := s.tideCount
    lastSrc := lastSrcWord s.tidePhase tile unit hub isSet }
  (wakeSatisfied s1 g).gaugeStat (g / 4096) 0 1

/-- A signal to a gauge that the sender's section does not own commits its run, if that section still runs (R232). -/
def commitBySignal (s : State) (m : Msg) : State :=
  if fromTile s m && m.gen == (s.ltile m.srcTile).sect.gen.toNat then
    match s.tileRun (s.phys m.srcTile) with
    | some r =>
      let owns := match s.image? r.ctx r.handle with
        | some i => i.gauges.any (fun g => g.vid == gVid m && g.own)
        | none => false
      if owns then s else s.modRun r.id (fun x => { x with committed := true })
    | none => s
  else s

/-- A post of the command processor reaches a block: the queue that it names expects it no more (R271). -/
def postTaken (s : State) (m : Msg) : State :=
  if fromHub s m && m.srcUnit == 0 && gOp m == 0 then
    match aget? s.ms.queues m.tag with
    | some q => { s with ms := { s.ms with queues := aput s.ms.queues m.tag { q with posts := q.posts - 1 } } }
    | none => s
  else s

/-- The message at the head of a block, taken: dropped, forwarded to the block that the entry names (R194), or handed on with its
context and gauge. -/
def gaugeTake (s : State) (b : Nat) (m : Msg) (f : State → Nat → Nat → State) : State :=
  let s1 := s.setGin b ((s.gin b).drop 1)
  if gaugeMalformed m then gaugeDrop (postTaken s1 m) b m
  else
    match gaugeCtx s m with
    | none => gaugeDrop (postTaken s1 m) b m
    | some c =>
      match s.gaugeOf c (gVid m) with
      | none => gaugeDrop (postTaken s1 m) b m
      | some g =>
        if g / 4096 != b then (s1.pushGout b (m.put 0 34 (blockDest s.deviceId (g / 4096) 0))).gaugeStat b 7 1
        else f (postTaken s1 m) c g

/-- SEC-DED of the words that an access of context c reads in block b (R207): `go` runs when the words are good; else the job
fault ends the run. -/
def gaugeEccAt (s : State) (b : Nat) (ecc : Ecc) (c : Option Nat) (run : Option Nat) (go : State → State) : State :=
  match ecc with
  | .clean => go s
  | .corrected => go ((s.gaugeStat b 6 1).event 0x2160 11 b c [])
  | .uncorrectable => s.jobFault 0x4160 11 b none run stJobFault []

/-- SEC-DED of the words that a message at a block needs. -/
def gaugeEcc (s : State) (b : Nat) (ecc : Ecc) (m : Msg) (go : State → State) : State :=
  gaugeEccAt s b ecc (gaugeCtx s m) (if fromTile s m then (s.tileRun (s.phys m.srcTile)).map (·.id) else none) go

/-- SEC-DED of the words that a command-processor access to a virtual gauge reads: in the gauge's own block, or the hub's where the
ID is unmapped. -/
def gaugeEccOf (s : State) (ctx vid : Nat) (ecc : Ecc) (run : Option Nat) (go : State → State) : State :=
  gaugeEccAt s (match s.gaugeOf ctx vid with | some g => g / 4096 | none => 4) ecc (some ctx) run go

/-- Signaller fields: tile, unit and the hub mark; another device is hub source 3. -/
def signaller (s : State) (m : Msg) : Nat × Nat × Bool :=
  if fromTile s m then (m.srcTile, m.srcUnit, false) else if fromHub s m then (0, m.srcUnit, true) else (0, 3, true)

/-- ADD and SET at a block. -/
def signalAt (s : State) (b : Nat) (m : Msg) (isSet : Bool) : State :=
  gaugeTake s b m (fun s1 _ g =>
    let (t, u, h) := signaller s m
    commitBySignal (applySignal s1 g isSet (gOperand m) t u h) m)

/-- A block's head message, when the block exists and its op is one of those named. -/
def atBlock (s : State) (b : Nat) (ops : Nat → Bool) : Option Msg :=
  if b < 5 && (b == 4 || b < s.dies) then
    (s.gin b).head?.bind (fun m => if ops (gOp m) then some m else none)
  else none

/-- ADD (R201). A message with a reserved op comes here too and is dropped (R198). -/
def execAdd (b : BitVec 3) (ecc : Ecc) (s : State) : Host.Outcome State Fault Refusal :=
  .next (done s (
    match atBlock s b.toNat (fun o => o == 0 || o > 2) with
    | some m => gaugeEcc s b.toNat ecc m (fun s1 => signalAt s1 b.toNat m false)
    | none => s))

/-- SET (R201). -/
def execSet (b : BitVec 3) (ecc : Ecc) (s : State) : Host.Outcome State Fault Refusal :=
  .next (done s (
    match atBlock s b.toNat (fun o => o == 1) with
    | some m => gaugeEcc s b.toNat ecc m (fun s1 => signalAt s1 b.toNat m true)
    | none => s))

/-- The waiter that a WAIT names. -/
def waiterOf (s : State) (m : Msg) (ctx : Nat) : Waiter :=
  let (t, u, h) := signaller s m
  { hub := h, unit := BitVec.ofNat 4 u, tile := BitVec.ofNat 10 t, ctx := BitVec.ofNat 6 ctx,
    vid := BitVec.ofNat 11 (gVid m), wgen := BitVec.ofNat 3 (gWgen m), target := gOperand m,
    deadline := if gTimeout m == 0 then none else some (s.clk + gTimeout m), hubId := m.tag, src := m.src }

/-- WAIT at the block that holds its gauge: satisfied, registered, or sent back to retry (R200). -/
def waitAt (s : State) (b g : Nat) (w : Waiter) : State :=
  let x := s.gauge g
  if satisfied x.value w.target then (s.sendWake b ⟨w, 0, x.value, physWord g⟩).gaugeStat b 2 1
  else if x.waiters.length < 64 && agetD s.gauges.waitersUsed b 0 < 8192 then
    let s1 := s.setGauge g { x with waiters := x.waiters ++ [w] }
    { s1 with gauges := { s1.gauges with
        waitersUsed := amod s1.gauges.waitersUsed b 0 (· + 1)
        stat := bump s1.gauges.stat (8 * b + 1) 1 } }
  else (s.sendWake b ⟨w, 2, x.value, physWord g⟩).gaugeStat b 4 1

/-- WAIT on an unmapped virtual ID: a WAKE with result 3 (R198). -/
def waitUnmapped (s : State) (b : Nat) (w : Waiter) : State := s.sendWake b ⟨w, 3, 0, 0⟩

/-- WAIT (R200). -/
def execWait (b : BitVec 3) (ecc : Ecc) (s : State) : Host.Outcome State Fault Refusal :=
  let b := b.toNat
  .next (done s (
    match atBlock s b (fun o => o == 2) with
    | none => s
    | some m =>
      gaugeEcc s b ecc m (fun s0 =>
        match gaugeCtx s m with
        | some c =>
          if !gaugeMalformed m && s.gaugeOf c (gVid m) == none then
            waitUnmapped (s0.setGin b ((s.gin b).drop 1)) b (waiterOf s m c)
          else gaugeTake s0 b m (fun s1 c g => waitAt s1 b g (waiterOf s m c))
        | none => gaugeTake s0 b m (fun s1 c g => waitAt s1 b g (waiterOf s m c)))))

/-- Waiters are removed from every gauge without a WAKE (R205), but those to keep. -/
def dropWaiters (s : State) (keep : Waiter → Bool) : State :=
  let used (b : Nat) : Nat := (s.gauges.gauges.filter (fun e => e.1 / 4096 == b)).foldl (fun a e => a + (e.2.waiters.filter (fun w => !keep w)).length) 0
  { s with gauges := { s.gauges with
      gauges := s.gauges.gauges.map (fun e => (e.1, { e.2 with waiters := e.2.waiters.filter keep }))
      waitersUsed := s.gauges.waitersUsed.map (fun e => (e.1, e.2 - used e.1)) } }

/-- The hub waits that `own` picks are dropped: their records, their waiters, and their WAITs that have not left the hub. -/
def dropHubWaits (s : State) (own : HubWait → Bool) : State :=
  let l := s.gauges.hubWaits.filter own
  let is (unit tag : Nat) : Bool := l.any (fun h => h.unit == unit && h.tag == tag)
  let s1 := dropWaiters s (fun w => !(w.hub && is w.unit.toNat w.hubId))
  { s1 with gauges := { s1.gauges with
      hubWaits := s1.gauges.hubWaits.filter (fun h => !own h)
      inq := (s1.gauges.inq.map (fun e => (e.1, e.2.filter (fun m => !(fromHub s m && gOp m == 2 && is m.srcUnit m.tag))))).filter
        (fun e => !e.2.isEmpty) } }

/-! ## Hub units (R197, R200) -/

/-- A gauge message of a hub unit, in front of the hub's block. -/
def hubSend (s : State) (unit tag ctx vid op : Nat) (operand timeout : Nat) : State :=
  s.pushGin 4 ((mkMsg (blockDest s.deviceId 4 0) tag 0 4 false (gaugePay vid op 0 operand timeout ctx 0 0 0)).put 34 34
    (blockDest s.deviceId 4 unit))

/-- A signal of a hub unit: ADD to a virtual gauge of a context. -/
def hubSignal (s : State) (unit tag ctx vid amount : Nat) : State := hubSend s unit tag ctx vid 0 amount 0

/-- The timeout that a WAIT carries of a limit: one of 2^32 cycles or more, which its field does not hold, is the unit's own to keep
(log 66). -/
def waitTimeout (limit : Nat) : Nat := if limit < 2 ^ 32 then limit else 0

/-- A hub unit starts to wait: its record, and the WAIT. `what`: 0 a GAUGE_READ, 1 the post gauge of queue q, 2 its descriptor. -/
def hubWait (s : State) (unit what q ctx vid : Nat) (target : W32) (limit : Nat) : State :=
  let tag := s.ms.nextId % 65536
  let s1 := { s with
    ms := { s.ms with nextId := s.ms.nextId + 1 }
    gauges := { s.gauges with hubWaits := s.gauges.hubWaits ++ [⟨unit, tag, what, q, ctx, vid, target, s.clk, limit, none, 0, 0⟩] } }
  hubSend s1 unit tag ctx vid 2 target.toNat (waitTimeout limit)

/-! ## WAKE at its waiter -/

/-- An orphan at a tile (R186): counted, and the first 16 of a section logged. -/
def orphan (s : State) (p unit : Nat) (m : Msg) : State :=
  (s.modTile p (fun t => t.modRegs (fun r => { r with orphan := sat32 r.orphan 1 }))).onceEvent p
    (if unit ≤ 8 then unit else 0) 0x1130 16 (hdrDetail m.hdr)

/-- The detail of event 0x4101 (R202). -/
def timeoutDetail (w : Waiter) (phys : BitVec 15) (value : W32) : List Byte :=
  leBytes 2 w.vid.toNat ++ leBytes 2 phys.toNat ++ leBytes 1 w.ctx.toNat ++ leBytes 1 w.unit.toNat ++
  leBytes 2 (if w.hub then 0 else w.tile.toNat) ++ leBytes 4 w.target.toNat ++ leBytes 4 value.toNat

/-- The sequencer faults on its wait: the job fault whose event its block, or it, has logged (R203). -/
def waitFault (s : State) (p code status : Nat) : State :=
  let s1 := setSeqState s p .faulted
  s1.jobFaultCore code (s1.tileCtx p) ((s1.tileRun p).map (·.id)) status

/-- `result`, `value` and `phys` of a WAKE (Table 8.1). -/
def gResult (m : Msg) : Nat := leAt m.pay 3 1
def gValue (m : Msg) : W32 := BitVec.ofNat 32 (leAt m.pay 16 4)
def gPhys (m : Msg) : BitVec 15 := BitVec.ofNat 15 (leAt m.pay 20 2)

/-- A WAKE reaches a tile (R200, R203, R204). -/
def wakeTile (s : State) (p : Nat) (m : Msg) : State :=
  let t := s.tile p
  if t.sect.gen.toNat != gWgen m then s
  else
    match t.seq.gwait with
    | none => orphan s p m.dstUnit m
    | some g =>
      if m.dstUnit != 0 || t.seq.st != .waitGauge then orphan s p m.dstUnit m
      else
        match gResult m with
        | 0 => retire (s.modTile p (fun x => x.modSeq (fun q => { q with gwait := none }))) p
        | 1 => waitFault s p 0x4101 stTimeout
        | 2 =>
          s.modTile p (fun x => x.modSeq (fun q =>
            { q with gwait := some { g with retryAt := some (s.clk + 256), lastPhys := gPhys m, lastValue := gValue m } }))
        | _ => waitFault (s.onceEvent p 0 0x4102 1 (detailOf [(2, gVid m)])) p 0x4102 stJobFault

/-- A GAUGE_READ that waits replies (R310): its command holds the tag of its wait. -/
def replyRead (s : State) (h : HubWait) (status : Nat) (value phys : Nat) : State :=
  let hit (r : Nat) := ((s.ring r).accepted.find? (fun c => c.opcode == 0x61 && c.aux == [h.tag])).map (fun c => (r, c))
  match (hit h.ctx).orElse (fun _ => hit privRing) with
  | none => s
  | some (r, c) => s.complete r c (c.reply status value phys 0)

/-- A pump's wait is met (R205, R271): the queue's post wait, or its descriptor's. -/
def wakePump (s : State) (h : HubWait) : State :=
  match aget? s.ms.queues h.q with
  | none => s
  | some q =>
    let q1 := if h.what == 1 then { q with postWait := .met } else { q with headWait := .met }
    { s with ms := { s.ms with queues := aput s.ms.queues h.q q1 } }

/-- A WAKE reaches a hub unit (R200, R310): a retry is noted, or the wait ends. One that no wait of the unit expects is dropped. -/
def wakeHub (s : State) (m : Msg) : State :=
  match s.gauges.hubWaits.find? (fun h => h.unit == m.dstUnit && h.tag == m.tag) with
  | none => s
  | some h =>
    if gResult m == 2 then
      { s with gauges := { s.gauges with hubWaits := s.gauges.hubWaits.map (fun x =>
          if x == h then { h with retryAt := some (s.clk + 256), lastValue := gValue m, lastPhys := gPhys m } else x) } }
    else
      let s1 := { s with gauges := { s.gauges with hubWaits := s.gauges.hubWaits.erase h } }
      if h.what == 0 then
        replyRead s1 h (match gResult m with | 0 => stOk | 1 => stTimeout | _ => stBadParam) (gValue m).toNat (gPhys m).toNat
      else if gResult m == 0 then wakePump s1 h
      else s1

/-- A message for an endpoint of the hub with y = 17 (R159): a WAKE of a block for a hub unit, or a message for the hub's block. -/
def fromFabric (s : State) (m : Msg) : State :=
  if gOp m == 3 && m.srcY ≥ 16 && m.srcDev == s.deviceId then { s with gauges := { s.gauges with wakes := s.gauges.wakes ++ [m] } }
  else s.pushGin 4 m

/-- Cycles of a limit that are left; none when it has run out. A limit of 0 never does. -/
def limitLeft (limit since : Nat) : Option Nat := if limit == 0 then some 0 else if since < limit then some (limit - since) else none

/-- 256 cycles after a retry WAKE the waiter sends WAIT again, with what is left of its limit (R200): `k` below 1,024 is the
sequencer of that logical tile, above it a hub unit's wait by its place. -/
def execWaitRetry (k : Nat) (s : State) : Host.Outcome State Fault Refusal :=
  .next (done s (
    if k < 1024 then
      let p := s.phys k
      let t := s.tile p
      match t.seq.gwait with
      | some g =>
        (match g.retryAt, limitLeft g.timeout (s.clk - g.start) with
         | some d, some left =>
           if d ≤ s.clk && t.seq.st == .waitGauge then
             (s.setTile p (t.modSeq (fun q => { q with gwait := some { g with retryAt := none } }))).modTile p
               (fun x => x.emit 0 (gaugeMsg p x.sect.gen.toNat g.vid 2 g.target.toNat left))
           else s
         | _, _ => s)
      | none => s
    else
      match s.gauges.hubWaits[k - 1024]? with
      | some h =>
        (match h.retryAt, limitLeft h.limit (s.clk - h.start) with
         | some d, some left =>
           if d ≤ s.clk then
             hubSend { s with gauges := { s.gauges with hubWaits := s.gauges.hubWaits.set (k - 1024) { h with retryAt := none } } }
               h.unit h.tag h.ctx h.vid 2 h.target.toNat (waitTimeout left)
           else s
         | _, _ => s)
      | none => s))

/-- A hub waiter is a GAUGE_READ, whose limit raises no event (R310). -/
def readsGauge (s : State) (w : Waiter) : Bool :=
  w.hub && s.gauges.hubWaits.any (fun h => h.what == 0 && h.unit == w.unit.toNat && h.tag == w.hubId)

/-- The k-th waiter of a gauge, when its timeout has expired and the value does not satisfy it (R201, R202): WAKE with
result 1, and event 0x4101 but for a GAUGE_READ (R310). A waiter found satisfied is woken satisfied, so none stays
registered. -/
def execWaiterTimeout (b : BitVec 3) (gauge : BitVec 12) (k : Nat) (ecc : Ecc) (s : State) : Host.Outcome State Fault Refusal :=
  let g := b.toNat * 4096 + gauge.toNat
  let x := s.gauge g
  .next (done s (
    match x.waiters[k]? with
      | some w =>
        (match w.deadline with
         | some d =>
           if d ≤ s.clk then
             gaugeEccAt s b.toNat ecc (some w.ctx.toNat)
               (if w.hub then none else (s.tileRun (s.phys w.tile.toNat)).map (·.id)) (fun s0 =>
                 let s1 := s0.setGauge g { x with waiters := x.waiters.eraseIdx k }
                 let s2 := { s1 with gauges := { s1.gauges with waitersUsed := amod s1.gauges.waitersUsed b.toNat 0 (· - 1) } }
                 let s3 := if readsGauge s w then s2
                   else s2.event 0x4101 11 b.toNat (some w.ctx.toNat) (timeoutDetail w (physWord g) x.value)
                 (s3.sendWake b.toNat ⟨w, 1, x.value, physWord g⟩).gaugeStat b.toNat 3 1)
           else s
         | none => s)
      | none => s))

/-- A sequencer that waits to send WAIT again runs out of its timeout (R200): it raises event 0x4101 itself. -/
def execSequencerRetryTimeout (n : BitVec 10) (s : State) : Host.Outcome State Fault Refusal :=
  let p := s.phys n.toNat
  let t := s.tile p
  .next (done s (
    match t.seq.gwait with
    | some g =>
      if t.seq.st == .waitGauge && g.retryAt.isSome && limitLeft g.timeout (s.clk - g.start) == none then
        let w : Waiter := { hub := false, unit := 0, tile := n, ctx := t.sect.ctx, vid := BitVec.ofNat 11 g.vid,
                            wgen := t.sect.gen, target := g.target, deadline := none, hubId := 0, src := 0 }
        waitFault (s.unitEvent p 0 0x4101 (timeoutDetail w g.lastPhys g.lastValue)) p 0x4101 stTimeout
      else s
    | none => s))

end Sys2Proof.Machine
end

