-- ==== Sys2Proof/Machine/Runs.lean ====
section
/-! DEFINITION. What ends or restarts a run (09, 15): retirement of the transfers its tiles ordered (R275), the stop of
a PURGE (R225), replay and its limits (R231, R232), suspects (R375), and the errors an operation meets (R152, R155,
R369). -/

namespace Sys2Proof.Machine

/-- The logical tiles of a run's region (R210). -/
def State.region (s : State) (r : Run) : List Nat :=
  match s.image? r.ctx r.handle with
  | some i => i.tiles
  | none => []

/-! ## Pump queues of a region -/

/-- Value of the post gauge of a queue. -/
def postValue (s : State) (q : PumpQueue) : Option W32 := (s.gaugeOf q.ctx q.post).map (fun g => (s.gauge g).value)

/-- Entries posted and not yet taken: the count by which the post gauge is ahead of c (R271). -/
def postedAhead (s : State) (q : PumpQueue) : Nat :=
  match postValue s q with
  | some v => if satisfied v (q.consumed + 1) then (v - q.consumed).toNat else 0
  | none => 0

/-- A queue retires every posted entry that has not started (R275). -/
def retireQueue (s : State) (k : Nat) (q : PumpQueue) : State :=
  let n := postedAhead s q
  let total := n + (if q.head.isSome then 1 else 0)
  let q1 := { q with consumed := q.consumed + BitVec.ofNat 32 n, retired := sat32 q.retired total,
                     head := none, headWait := .none }
  let s1 := dropHubWaits s (fun h => h.unit == 1 && h.what == 2 && h.q == k)
  { s1 with ms := { s1.ms with queues := aput s1.ms.queues k q1, pumpStat := bump s1.ms.pumpStat 4 total } }

/-- The queues bound to some of these logical tiles. -/
def boundQueues (s : State) (tiles : List Nat) : List (Nat × PumpQueue) :=
  s.ms.queues.filter (fun e => match e.2.tile with | some n => tiles.contains n | none => false)

def retireBound (s : State) (tiles : List Nat) : State :=
  (boundQueues s tiles).foldl (fun x e => retireQueue x e.1 e.2) s

/-- Every started transfer ordered by these tiles has completed (R226, R275). -/
def transfersDone (s : State) (tiles : List Nat) : Bool :=
  (boundQueues s tiles).all (fun e => e.2.transfers.all (fun t => t.complete))

/-! ## PURGE and replay -/

/-- The sequencers and engines of these tiles stop where they stand (R225): a tile with a section whose sequencer is
idle runs nothing. -/
def stopTiles (s : State) (tiles : List Nat) : State :=
  tiles.foldl (fun x n => x.modTile (x.phys n) (fun t =>
    if t.sect.configured then t.modSeq (fun q => { q with st := .idle, holdOp := none, gwait := none, watchDeadline := none }) else t)) s

/-- A tile on which operations and steps run. -/
def Tile.live (t : Tile) : Bool := t.sect.configured && !t.sect.loading && t.seq.st != .idle && t.seq.st != .faulted

/-- An idle healthy spare (R370): neither fused out nor retired, serving no logical tile nor bound to serve one, and not in its
screener's hands. -/
def idleTile (s : State) (p : Nat) : Bool :=
  let x := s.health.scr.getD (pDie p) Screener.reset
  !s.part.fusedOut.contains p && !(s.tile p).retired && (s.logical p).isNone && !(s.tile p).screening &&
  !s.moves.any (fun m => m.dest == p) && !(x.cur == p && (x.step == .ready || x.step == .running || x.step == .waitReturn))

/-- The spare that takes a move. R370 and R378 ask for an idle healthy one; of several, the model takes the lowest column of row 16, as
R376 does at `PERST_N`, and after that row the lowest-numbered tile of the others (DESIGN CHOICE, log 63). -/
def idleSpare (s : State) (d : Nat) : Option Nat :=
  ((List.range 16).map (fun x => pOf d x 16) ++ (List.range 256).map (fun k => pOf d (k % 16) (k / 16))).find? (idleTile s)

/-- A replay is noted against the tile that caused it (R375): one that reaches the limit within an aligned window of
2^42 cycles becomes suspect and is screened ahead of the rotation, or stays when no spare is idle. -/
def noteReplay (s : State) (p : Nat) : State :=
  let w := s.cycles.toNat / 2 ^ 42
  let l := s.health.replayLog.filter (fun e => e.2 / 2 ^ 42 == w) ++ [(p, s.cycles.toNat)]
  let s1 := { s with health := { s.health with
    replayLog := l, suspectLogged := if s.health.replayLog.all (fun e => e.2 / 2 ^ 42 == w) then s.health.suspectLogged else [] } }
  if (l.filter (fun e => e.1 == p)).length < s.health.suspect then s1
  else
    match idleSpare s (pDie p) with
    | some _ =>
      if s1.health.suspects.contains p then s1
      else { s1 with health := { s1.health with
        suspects := p :: s1.health.suspects
        scr := s1.health.scr.mapIdx (fun i x => if i == pDie p then { x with ahead := x.ahead ++ [(p, none)] } else x) } }
    | none =>
      if s1.health.suspectLogged.contains p then s1
      else ({ s1 with health := { s1.health with suspectLogged := p :: s1.health.suspectLogged } }).event 0x2302 9 p none (detailOf [(2, p)])

/-- The generation a run takes next (R222, R231): its explicit one, or the context's counter plus 1. -/
def takeGen (s : State) (ctx : Nat) (explicit : Option Nat) : Nat × State :=
  match explicit with
  | some g => (g % 8, s)
  | none =>
    match aget? s.ctxs ctx with
    | some c =>
      let g := c.gencnt + 1
      (g.toNat, { s with ctxs := aput s.ctxs ctx { c with gencnt := g } })
    | none => (0, s)

/-- A detection in a run (R231, R232): a replay, or a job fault when the run is committed or was replayed twice. -/
def replayRun (s : State) (r : Run) (p : Nat) : State :=
  if r.committed || r.replays ≥ 2 then s.jobFault 0x4121 14 1 (some r.ctx) (some r.id) stJobFault []
  else
    let s1 := noteReplay (s.event 0x3180 14 1 (some r.ctx) []) p
    let (g, s2) := takeGen s1 r.ctx r.explicitGen
    let s3 := retireBound (stopTiles s2 (s.region r)) (s.region r)
    ((s3.modRun r.id (fun x => { x with
      replays := x.replays + 1, gen := g, phase := .waitCensus, timeoutAt := none,
      outgoing := (s.region r).map (fun n => (n, r.gen)) })).bumpLdr 4 1).bumpLdr 0 1 |>.bumpLdr 1 1

/-- An error detected in a tile: the run on it, if one is loaded and has not been stopped, is replayed (R231). -/
def detect (s : State) (p : Nat) : State :=
  match s.tileRun p with
  | some r => if r.phase == .running then replayRun s r p else s
  | none => s

/-! ## Errors that an operation meets -/

/-- A parity detection in a structure of Table 6.5 (R155, codes 1-5). -/
def parityUpset (s : State) (p code : Nat) : State :=
  let s1 := s.modTile p (fun t => t.modRegs (fun r =>
    { r with parCount := BitVec.ofNat 16 (satAdd 16 r.parCount.toNat 1), parLast := BitVec.ofNat 3 code }))
  detect (s1.event 0x3112 9 p (s.tileCtx p) (detailOf [(1, code)])) p

/-- The word `w` of a tile lies inside a declared tile-store input of it. -/
def inInput (t : Tile) (w : Nat) : Bool := t.sect.inputs.any (fun i => i.1 < 64 * w + 64 && 64 * w < i.1 + i.2)

/-- A corrected error at a read of word w (R152): the word is corrected before it is used, and written back later. -/
def corrWord (s : State) (p w : Nat) : State :=
  (s.modTile p (fun t => { t with wbPending := t.wbPending ++ [w] }.modRegs (fun r =>
    { r with corr := sat32 r.corr 1, lastErrWord := BitVec.ofNat 18 w, lastErrUncorr := false }))).physOnce p 0x2110 1 []

/-- The run on a tile has fired (R369): its local list is open. -/
def State.firing (s : State) (p : Nat) : Bool := (s.tileRun p).any (fun r => r.first.isSome)

/-- An uncorrectable error found at a read of word w (R152): counted, logged with the offset, rewritten with the poison
mark, and entered in the local list (R369). `full` tells that it would be the ninth. -/
def uncorrWord (s : State) (p w : Nat) : State × Bool :=
  let t := s.tile p
  let joins := s.firing p && !t.localList.contains w
  let full := joins && t.localList.length ≥ 8
  let s1 := s.modTile p (fun t => { t with
      localList := if !joins || full then t.localList else t.localList ++ [w] }.modRegs (fun r =>
    { r with uncorr := sat32 r.uncorr 1, lastErrWord := BitVec.ofNat 18 w, lastErrUncorr := true }))
  (({ s1 with mem := s1.mem.mark (p * 2 ^ 18 + w) true }).event 0x3110 9 p (s.tileCtx p) (detailOf [(8, 64 * w)]), full)

/-- The word at rest in a granule. -/
def wordAt (s : State) (g : Nat) : BitVec 512 := BitVec.ofNat 512 (s.mem.num (64 * g) 64)

/-- The word in a granule becomes w; its mark is left. -/
def setWord (s : State) (g : Nat) (w : BitVec 512) : State :=
  if w == wordAt s g then s else { s with mem := s.mem.putBytes (64 * g) (leBytes 64 w.toNat) }

/-- The mark of a granule as its three copies now tell it (R150). -/
def setMark (s : State) (g : Nat) (c : BitVec 3) : State :=
  if markRead (s.mem.marked g) c == s.mem.marked g then s else { s with mem := s.mem.mark g (markRead (s.mem.marked g) c) }

/-- Word w of a tile read with flipped bits (R150, R151): what is found, and the state with the word and its mark as the store then
holds them. -/
def tileWordRead (s : State) (p w : Nat) (e : BitVec 512) (f : BitVec 16) (c : BitVec 3) : Found × State :=
  let g := p * 2 ^ 18 + w
  let r := readFlipped (wordAt s g) e f
  (r.1, setMark (setWord s g r.2) g c)

/-- A ninth word would join the local list: the run is replayed at once (R369). -/
def listFull (s : State) (p : Nat) : State := detect (s.event 0x3111 9 p (s.tileCtx p) []) p

/-- A tile-store word read by another agent than an engine of the run (R152). -/
def otherRead (s : State) (p w : Nat) (e : BitVec 512) (f : BitVec 16) (c : BitVec 3) : State :=
  match tileWordRead s p w e f c with
  | (.clean, s1) => s1
  | (.corrected, s1) => corrWord s1 p w
  | (.uncorrectable, s1) =>
    let r := uncorrWord s1 p w
    if r.2 then listFull r.1 p else r.1

/-- A word read by an engine of the run: found uncorrectable now, it replays the run unless a declared input holds
it (R369). -/
def engineUncorr (s : State) (p w : Nat) : State :=
  let (s1, full) := uncorrWord s p w
  if full then listFull s1 p
  else if inInput (s.tile p) w then s1
  else detect s1 p

/-- A byte range (offset, length) of a tile store touches word w. -/
def touches (ranges : List (Nat × Nat)) (w : Nat) : Bool :=
  ranges.any (fun r => r.1 < 64 * w + 64 && 64 * w < r.1 + r.2)

/-- A word of the local list read by an engine (R369): event 0x3111, and a replay, unless a declared input holds it. -/
def localRead (s : State) (p : Nat) (ranges : List (Nat × Nat)) : Option State :=
  match (s.tile p).localList.find? (fun w => touches ranges w && !inInput (s.tile p) w) with
  | some w => some (detect (s.event 0x3111 9 p (s.tileCtx p) (detailOf [(8, 64 * w)])) p)
  | none => none

/-- What an operation that reads these ranges meets on its way (R152, R155, R369): the state after it, and whether the
operation goes on. Configuration state read with a parity error (code 6) is poison under R48 whichever word of it fails, that of a
descriptor, of a loop table or of a binding (log 59). -/
def meet (s0 : State) (p : Nat) (u : Option Upset) (ranges : List (Nat × Nat)) : State × Bool :=
  let s := s0.backInv ((s0.host.hostLines.map (·.1)).filter (fun g => g / 2 ^ 18 == p && touches ranges (g % 2 ^ 18)))
  match localRead s p ranges with
  | some s1 => (s1, false)
  | none =>
    match u with
    | some (.parity c) =>
      if c == 6 then (cfgParityFault s p, false)
      else if 1 ≤ c.toNat && c.toNat ≤ 5 then (parityUpset s p c.toNat, false) else (s, true)
    | some (.word w e f c) =>
      if touches ranges w.toNat then
        (match tileWordRead s p w.toNat e f c with
         | (.clean, s1) => (s1, true)
         | (.corrected, s1) => (corrWord s1 p w.toNat, true)
         | (.uncorrectable, s1) =>
           (engineUncorr s1 p w.toNat, inInput (s1.tile p) w.toNat && !(uncorrWord s1 p w.toNat).2))
      else (s, true)
    | none => (s, true)

end Sys2Proof.Machine
end

