-- ==== Sys2Proof/Machine/Weirs.lean ====
section
/-! DEFINITION. Polders of tiles and the weirs (R344-R351): which bucket a unit of traffic meets, and whether it
passes. -/

namespace Sys2Proof.Machine

/-- The polder that a logical tile belongs to (R184). -/
def State.polderOfTile (s : State) (n : Nat) : Option Nat := (s.polders.find? (fun e => e.2.tiles.contains n)).map (·.1)

/-- The polder of a context. -/
def State.polderOfCtx (s : State) (c : Nat) : Option Nat := (aget? s.ctxs c).map (·.polder)

/-- The polder of a Beytia port. -/
def State.polderOfPort (s : State) (k : Nat) : Option Nat := (s.polders.find? (fun e => e.2.ports.getLsbD k)).map (·.1)

/-- Peak of a bucket in B/cycle (Table 14.2). -/
def weirPeak : Nat → Nat
  | 0 => 768
  | 1 => 96
  | 2 => 160
  | 3 => 70
  | 4 => 2048
  | _ => 1024

/-- A new polder's weir: rate 256, burst 4 KiB (R351). -/
def Weir.reset : Weir := ⟨256, 4, ⟨0, false⟩, [], [], []⟩

/-- A full bucket. -/
def Weir.full (w : Weir) : Int := Int.ofNat (w.burst * 1024 * 256)

def State.weir (s : State) (polder w : Nat) : Weir := agetD s.weirs (8 * polder + w) Weir.reset
def State.setWeir (s : State) (polder w : Nat) (x : Weir) : State := { s with weirs := aput s.weirs (8 * polder + w) x }

/-- Token count of a bucket. -/
def Weir.t (w : Weir) (b : Nat) : Int := agetD w.tokens b w.full

/-- A unit of n bytes at a bucket (R349): the bucket lets it through and is charged, or holds it back. Traffic of no
polder passes. `unit` tells the units apart that a bucket can hold. -/
def weirPass (s : State) (polder : Option Nat) (w b unit n : Nat) : State × Bool :=
  match polder with
  | none => (s, true)
  | some p =>
    let x := s.weir p w
    if x.rate = 256 && (aget? x.held b).isNone && !x.granted.contains unit then (s, true)
    else if x.rate = 256 then (s.setWeir p w { x with held := adel x.held b, granted := x.granted.filter (· != unit) }, true)
    else if x.granted.contains unit || (x.t b ≥ 0 && (aget? x.held b).isNone && x.rate != 0) then
      (s.setWeir p w { x with
        tokens := aput x.tokens b (x.t b - Int.ofNat (n * 256))
        granted := x.granted.filter (· != unit) }, true)
    else (s.setWeir p w { x with held := if (aget? x.held b).isNone then aput x.held b unit else x.held }, false)

/-- One cycle of a weir (R349, R350): every bucket refills, and one that still holds a unit back is counted. -/
def Weir.tick (k : Nat) (x : Weir) : Weir :=
  if x.rate = 256 then x
  else
    let y := { x with tokens := x.tokens.map (fun (e : Nat × Int) => (e.1, min (e.2 + Int.ofNat (x.rate * weirPeak (k % 8))) x.full)) }
    { y with wait := y.wait.add (y.held.filter (fun (e : Nat × Nat) => y.t e.1 < 0 || y.rate = 0)).length }

/-- BUCKET_RELEASE (R350): a bucket whose count is zero or above lets the unit it held back go on. -/
def execBucketRelease (polder : BitVec 3) (weir : Byte) (bucket : BitVec 5) (s : State) : Host.Outcome State Fault Refusal :=
  let p := polder.toNat
  let w := weir.toNat
  let b := bucket.toNat
  let x := s.weir p w
  .next (done s (
    match aget? x.held b with
    | some unit =>
      if w ≤ 5 && (x.rate = 256 || (x.t b ≥ 0 && x.rate != 0)) then
        s.setWeir p w { x with held := adel x.held b, granted := x.granted ++ [unit] }
      else s
    | none => s))

end Sys2Proof.Machine
end

