-- ==== Sys2Proof/Machine/Links.lean ====
section
/-! DEFINITION. The Beytia ports as the hub sees them (13): routing for another device (R328), drops, and what joins an
egress queue (R319, R320, R332). -/

namespace Sys2Proof.Machine

def State.lport (s : State) (k : Nat) : LinkPort := agetD s.links.ports k LinkPort.reset
def State.setLport (s : State) (k : Nat) (x : LinkPort) : State :=
  { s with links := { s.links with ports := aput s.links.ports k x } }
def State.modLport (s : State) (k : Nat) (f : LinkPort → LinkPort) : State := s.setLport k (f (s.lport k))
/-- A counter of LINK_PCNT. -/
def State.bumpLink (s : State) (port c n : Nat) : State := s.modLport port (fun x => { x with cnt := bump x.cnt c n })

def LinkPort.up (x : LinkPort) : Bool := x.state == 3

/-- Initial credits of a lane (R323). -/
def laneCredit (lane : Nat) : Nat := if lane == 1 then 256 else 1024

/-- The port of the first LINK_ROUTE entry that matches, or the default port (R328). -/
def State.linkPort (s : State) (id : Nat) : Option Nat :=
  match (List.range 256).find? (fun i =>
    let e := (s.reg (0x100800 + 8 * i)).toNat
    bitOf e 35 && fld e 0 16 ≤ id && id ≤ fld e 16 16) with
  | some i => some (fld (s.reg (0x100800 + 8 * i)).toNat 32 3)
  | none =>
    let d := (s.reg 0x100008).toNat
    if bitOf d 3 then some (fld d 0 3) else none

/-- Where the hub sends traffic for another device: a port, or a drop with its cause: 0 no route, 1 port down,
2 bounce (R328). -/
inductive Routed where
  | send (port : Nat)
  | drop (cause : Nat)

def linkRoute (s : State) (id : Nat) (arr : Option Nat) : Routed :=
  match s.linkPort id with
  | none => .drop 0
  | some k => if arr == some k then .drop 2 else if (s.lport k).up then .send k else .drop 1

/-- An event logged once per port per section. -/
def portOnce (s : State) (port code : Nat) (detail : List Byte) : State :=
  if (s.lport port).once.contains code then s
  else (s.modLport port (fun x => { x with once := code :: x.once })).event code 13 port none detail

/-- A drop under R328: counted at the arrival port, or at port 0 for local sources, and logged once. -/
def linkDrop (s : State) (id : Nat) (arr : Option Nat) (cause : Nat) : State :=
  portOnce (s.bumpLink (arr.getD 0) 5 1) (arr.getD 0) 0x3230 (detailOf [(2, id), (1, cause)])

/-- The flits of a framed message (R167): 128 bytes each, zero-filled. -/
def flitsOfBytes (bs : List Byte) : List Flit :=
  let n := (bs.length + 127) / 128
  (List.range n).map (fun i => ⟨padTo 128 (bs.drop (128 * i)), i == 0, i + 1 == n, false⟩)

def LinkPort.txq (x : LinkPort) (lane : Nat) : List Flit := agetD x.tx lane []
def LinkPort.push (x : LinkPort) (lane : Nat) (fs : List Flit) : LinkPort :=
  { x with tx := aput x.tx lane (x.txq lane ++ fs) }

/-- A message for another device joins the egress queue of its port, or is dropped (R328). -/
def linkSend (s : State) (m : Msg) (arr : Option Nat) : State :=
  match linkRoute s m.dstDev arr with
  | .drop c => linkDrop s m.dstDev arr c
  | .send k => s.modLport k (fun x => x.push (kindLane m.kind)
      ((flitsOfBytes (leBytes 16 m.hdr.toNat ++ m.pay)).mapIdx (fun i f => { f with bad := m.fp.contains i })))

/-- A service record for another device (R332): 64 bytes; a full egress queue drops it. -/
def serviceSend (s : State) (rec : List Byte) (arr : Option Nat) : State :=
  let id := leAt rec 2 2
  match linkRoute s id arr with
  | .drop c => linkDrop s id arr c
  | .send k => if (s.lport k).svc.length < 256 then s.modLport k (fun x => { x with svc := x.svc ++ [rec] }) else s.bumpLink k 5 1

/-- A service record (R332): its type, destination, source and body. -/
def serviceRec (type dst src : Nat) (body : List Byte) : List Byte :=
  leBytes 2 (1 + 2 * type) ++ leBytes 2 dst ++ leBytes 2 src ++ leBytes 2 0 ++ padTo 56 body

/-- Ingress queue of a lane. -/
def LinkPort.ingress (x : LinkPort) (lane : Nat) : List Msg := agetD x.inq lane []

/-- The head of an ingress lane leaves into the crossbar, and its flits return their credits (R323). -/
def popIngress (s : State) (port lane : Nat) : State :=
  s.modLport port (fun x =>
    match x.ingress lane with
    | [] => x
    | m :: r => { x with
        inq := aput x.inq lane r
        since := aput x.since lane s.clk
        freed := aput x.freed lane ((agetD x.freed lane 0 + m.flits) % 65536) })

end Sys2Proof.Machine
end

