-- ==== Sys2Proof/Machine/Fabric.lean ====
section
/-! DEFINITION. The fabric (07, R156-R172, R180-R191): egress, routes and hops, dike holds, multicast, delivery to operand
ports, the return of spilled and back-pressured messages, probes and the spillway. -/

namespace Sys2Proof.Machine

/-- An event of a router, logged at most `limit` times per section. -/
def routerOnce (s : State) (p code limit : Nat) (detail : List Byte) : State :=
  let k := code * 16 + 10
  let n := agetD (s.tile p).once k 0
  if n < limit then
    (s.modTile p (fun t => { t with once := aput t.once k (n + 1) })).event code 10 p (s.tileCtx p) detail
  else s

/-! ## Egress (R162, R164, R166) -/

/-- The header as egress sends it: the source of the unit, unless a sluice forwards it, and the device's own ID in place
of 0xFFFF. -/
def egressMsg (s : State) (n unit : Nat) (m : Msg) : Msg :=
  let m1 := if unit == 6 then m else m.put 34 34 (srcOf s n unit)
  if m1.dstDev == 0xFFFF then m1.put 0 16 s.deviceId else m1

/-- Egress drops the message (R166). -/
def malformed (s : State) (m : Msg) : Bool :=
  m.kind ≥ 6 || m.f 122 6 != 0 || m.dstY ≥ 18 || (m.dstY == 17 && m.dstDie != 0) ||
  (m.dstY ≥ 16 && m.kind != 4) || (m.kind == 4 && m.dstY < 16) ||
  (m.mcast && !(m.kind == 0 || m.kind == 1 || m.kind == 5)) ||
  (m.mcast && (m.dstX > m.mcX1 || m.dstY > m.mcY1)) ||
  (!(m.kind == 2 || m.kind == 3) && m.f 107 14 != 0) ||
  (s.part.is1620 && m.dstDie ≥ 2 && m.here s)

/-- Such a drop is counted, and the first of a tile in a section logged. -/
def dropMalformed (s : State) (p : Nat) (m : Msg) : State :=
  routerOnce (s.modTile p (fun x => x.modRegs (fun r => { r with malformed := sat32 r.malformed 1 }))) p 0x3133 1 (hdrDetail m.hdr)

/-- A message for a port of its own tile: it does not enter the mesh (R39). -/
def inTile (s : State) (n : Nat) (m : Msg) : Bool :=
  m.here s && !m.mcast && (m.kind == 0 || m.kind == 1 || m.kind == 5) && m.dstY < 16 && m.dstTile == n

/-- The way a message leaves the egress list: its lane, or 3 to a port of its own tile. -/
def egressPath (s : State) (n unit : Nat) (m : Msg) : Nat :=
  let m1 := egressMsg s n unit m
  if inTile s n m1 then 3 else kindLane m.kind

/-- An entry of the egress list that an earlier one holds back: one of the same way, or, for the ADD of a unit that has completed,
any result of the unit (R197). -/
def egressBehind (s : State) (n : Nat) (before : List (Nat × Msg)) (e : Nat × Msg) : Bool :=
  before.any (fun x => egressPath s n x.1 x.2 == egressPath s n e.1 e.2 || (x.1 == e.1 && e.1 != 0 && e.2.kind == 4))

/-- The message of the egress list that leaves next: the first that nothing earlier holds back, and that is dropped as malformed,
or whose lane's input has room, or whose port takes it. -/
def egressPick (s : State) (n : Nat) (takes : Nat → Msg → Bool) (l : List (Nat × Msg)) : Option Nat :=
  (List.range l.length).find? (fun i =>
    match l[i]? with
    | some e =>
      !egressBehind s n (l.take i) e &&
        (malformed s (egressMsg s n e.1 e.2) ||
          (if egressPath s n e.1 e.2 == 3 then takes e.1 e.2
           else laneRoom ((s.tile (s.phys n)).router.held (qKey .tile (kindLane e.2.kind))) e.2.flits))
    | none => false)

/-! ## Routes (R161) -/

/-- Where a message goes next: another router, the tile, the gauge block of the die, the hub, a memory controller or pump at an
edge port of the router (Table 7.1), or nowhere, since the edge that leads there is not in use (R158). -/
inductive Hop where
  | hop (p : Nat) (side : Side)
  | tile
  | block (b : Nat)
  | hub
  | edge (north : Bool)
  | unused
deriving DecidableEq, Repr

def clampCol (x : Nat) : Nat := max 4 (min 11 x)

/-- The point of its destination die that a message goes to. -/
def aimOf (s : State) (m : Msg) : Nat × Nat :=
  if m.copy.isNone && m.dstY ≥ 16 then (7, 0)
  else if m.copy.isNone && m.mcast then (m.dstX, m.dstY)
  else (pX (s.phys m.dstTile), pY (s.phys m.dstTile))

/-- The destination die and the exit row. -/
def dieOf (m : Msg) : Nat := match m.copy with | some n => lDie n | none => m.dstDie
def exitRow (m : Msg) : Nat :=
  match m.copy with
  | some n => lY n
  | none => if m.dstY ≥ 16 then 0 else m.dstY

def stepEast (d x y : Nat) : Hop := .hop (pOf d (x + 1) y) .west
def stepWest (d x y : Nat) : Hop := .hop (pOf d (x - 1) y) .east
def stepSouth (d x y : Nat) : Hop := .hop (pOf d x (y + 1)) .north
def stepNorth (d x y : Nat) : Hop := .hop (pOf d x (y - 1)) .south

/-- One step along x, then y, toward a point of the own die; `arrived` there. -/
def stepXY (d x y tx ty : Nat) (arrived : Hop) : Hop :=
  if x < tx then stepEast d x y else if tx < x then stepWest d x y
  else if y < ty then stepSouth d x y else if ty < y then stepNorth d x y else arrived

/-- One step along y, then x. -/
def stepYX (d x y tx ty : Nat) (arrived : Hop) : Hop :=
  if y < ty then stepSouth d x y else if ty < y then stepNorth d x y
  else if x < tx then stepEast d x y else if tx < x then stepWest d x y else arrived

/-- One step from router p toward the point (tx, ty) of a die, across dies along the exit row (R161); edges to dies that the part
does not have are not used (R158). -/
def routeTo (s : State) (p die row tx ty : Nat) (arrived : Hop) : Hop :=
  let d := pDie p
  let k := (die + 4 - d) % 4
  if die ≥ s.dies then .unused
  else if k == 1 || k == 2 then stepYX d (pX p) (pY p) 15 row (.hop (pOf ((d + 1) % 4) 0 row) .west)
  else if k == 3 then stepYX d (pX p) (pY p) 0 row (.hop (pOf ((d + 3) % 4) 15 row) .east)
  else stepXY d (pX p) (pY p) tx ty arrived

/-- One step from router p toward the hub (R161 steps 1 and 2). -/
def routeHub (p : Nat) : Hop := stepYX (pDie p) (pX p) (pY p) (clampCol (pX p)) 16 .hub

/-- The next hop of a message from router p (R161). -/
def nextHop (s : State) (p : Nat) (m : Msg) : Hop :=
  if !m.here s || (m.copy.isNone && m.dstY == 17) then routeHub p
  else
    let a := aimOf s m
    routeTo s p (dieOf m) (exitRow m) a.1 a.2 (if m.copy.isNone && m.dstY == 16 then .block (pDie p) else .tile)

/-- The next hop of a memory transaction from router p (R161, Table 7.1). -/
def parcelHop (s : State) (p : Nat) (x : Parcel) : Hop :=
  match x.goal with
  | .hub => routeHub p
  | .tile => routeTo s p x.die x.row x.x x.y .tile
  | .north => routeTo s p x.die x.row x.x x.y (.edge true)
  | .south => routeTo s p x.die x.row x.x x.y (.edge false)

/-- The router at which a message from the hub enters its die (R161 step 4). -/
def hubEntry (s : State) (m : Msg) : Nat := pOf (dieOf m) (clampCol (aimOf s m).1) 16

/-! ## Multicast (R170, R171) -/

/-- The message at an input of router p is a multicast that has reached its corner, or a copy that spreads. -/
def spreads (s : State) (p : Nat) (side : Side) (m : Msg) : Bool :=
  m.mcast && m.copy.isNone && m.here s && pDie p == m.dstDie && pY p < 16 &&
  m.dstX ≤ pX p && pX p ≤ m.mcX1 && m.dstY ≤ pY p && pY p ≤ m.mcY1 &&
  ((pX p == m.dstX && pY p == m.dstY) || (side == .west && pY p == m.dstY && pX p > m.dstX) ||
   (side == .north && pY p > m.dstY))

/-- The neighbours a spreading copy goes on to: east along the first row, south in every column. -/
def spreadTo (p : Nat) (m : Msg) : List (Nat × Side) :=
  let d := pDie p
  (if pY p == m.dstY && pX p < m.mcX1 then [(pOf d (pX p + 1) (pY p), Side.west)] else []) ++
  (if pY p < m.mcY1 then [(pOf d (pX p) (pY p + 1), Side.north)] else [])

/-! ## Links between routers -/

/-- Where what a lane carries goes next from router p. -/
def loadHop (s : State) (p : Nat) : Load → Hop
  | .msg m => nextHop s p m
  | .parcel x => parcelHop s p x

/-- A load in the lane is a multicast that spreads at router p. -/
def loadSpreads (s : State) (p : Nat) (side : Side) : Load → Bool
  | .msg m => spreads s p side m
  | .parcel _ => false

/-- Entries of a router's spill that came from a lane (R189). -/
def spilledLane (s : State) (p : Nat) (side : Side) (lane : Nat) : Bool :=
  (s.tile p).router.spill.any (fun e => decide (e.side = side) && e.lane == lane)

/-- Router q can take n flits at an input: its queue has room, or its lane is being spilled and the spillway has. -/
def inputRoom (s : State) (q : Nat) (side : Side) (lane n : Nat) : Bool :=
  if spilledLane s q side lane then (s.tile q).spillFits n else laneRoom ((s.tile q).router.held (qKey side lane)) n

/-- A load joins the spill of a router (R189). -/
def toSpill (s : State) (q : Nat) (side : Side) (lane : Nat) (l : Load) : State :=
  s.modTile q (fun t => (t.modRouter (fun r => { r with spill := r.spill ++ [⟨side, lane, l⟩] })).bump (bankFbc 4) 1)

/-- A spill finds the spillway full: it stops, and its lane back-pressures again (R191). -/
def spillStops (s : State) (p : Nat) : State :=
  routerOnce (s.modTile p (fun t => t.modRegs (fun r => { r with fabSpillFull := true }))) p 0x3135 1 []

/-- A load arrives at an input of router q. -/
def arriveAt (s : State) (q : Nat) (side : Side) (lane : Nat) (l : Load) : State :=
  if spilledLane s q side lane then toSpill s q side lane l else s.pushLoad q (qKey side lane) l

/-- A load of n flits found no room at an input of router q. -/
def refusedAt (s : State) (q : Nat) (side : Side) (lane n : Nat) : State :=
  if spilledLane s q side lane && !(s.tile q).spillFits n then spillStops s q else s

/-- Flits sent on a link output of router p (`TDBG_FBC[0]`). -/
def sentFlits (s : State) (p n : Nat) : State := s.bumpTile p (bankFbc 0) n

/-- A message ends: the census falls for each tile it is counted for (R223). -/
def endMsg (s : State) (m : Msg) : State := s.count m (-1)

/-- The logical tiles that a message at an input of router p has still to reach: of a multicast that spreads, the part of its
rectangle that lies beyond (R170). -/
def tilesBeyond (s : State) (p : Nat) (side : Side) (m : Msg) : List Nat :=
  if spreads s p side m then
    m.rect.filter (fun n => pY p ≤ lY n && (if pY p == m.dstY then pX p ≤ lX n else lX n == pX p))
  else m.countedTiles s

/-- The census of those tiles moves by d (R223). -/
def countAt (s : State) (p : Nat) (side : Side) (m : Msg) (d : Int) : State :=
  (tilesBeyond s p side m).foldl (fun x n => x.censusAdd n m.gen d) s

/-- A load is discarded on its way: a message leaves the census, a memory transaction never reaches its target. -/
def discardLoad (s : State) (p : Nat) (side : Side) : Load → State
  | .msg m => countAt s p side m (-1)
  | .parcel x => { s with ms := { s.ms with txns := s.ms.txns.filter (fun t => t.id != x.id) } }

/-- A detected parity error at the router or bridge end of tile q (R168, `FAB_PARITY`). -/
def parityPayload (s : State) (q : Nat) : State :=
  routerOnce (s.modTile q (fun t => t.modRegs (fun r =>
    { r with parPayload := BitVec.ofNat 16 (satAdd 16 r.parPayload.toNat 1) }))) q 0x3131 1 []
def parityHeader (s : State) (q : Nat) (l : Load) : State :=
  (s.modTile q (fun t => t.modRegs (fun r =>
    { r with parHeader := BitVec.ofNat 16 (satAdd 16 r.parHeader.toNat 1) }))).event 0x3132 10 q (s.tileCtx q) (hdrDetail l.hdr)

/-- What the router of tile q finds of a flit it receives at an input (R168): the load after it, or none when an error in lane 0
or 1 of the head flit discards it and replays the run of the tile in which it is found (R231). Flips that leave every parity
even pass undetected. -/
def linkCheck (s : State) (q : Nat) (side : Side) (err : Option FlitError) (l : Load) : State × Option Load :=
  match err with
  | none => (s, some l)
  | some e =>
    let i := e.flit.toNat
    if i ≥ l.flits then (s, some l)
    else
      let bad := badLanes (l.flit i) e
      let s1 := if bad.any (fun j => !(i == 0 && j < 2)) then parityPayload s q else s
      if i == 0 && bad.any (· < 2) then (detect (discardLoad (parityHeader s1 q l) q side l) q, none)
      else (s1, some (l.marred e (!bad.isEmpty)))

/-- Destination ingress (R168): a message with a flit in error carries poison from here on. -/
def Msg.ingress (m : Msg) : Msg := if m.fp.isEmpty then m else { m.setPoison true with fp := [] }

/-! ## Dikes (R185, R227) -/

/-- The tile at router p lies in a region under reconfiguration. -/
def State.diked (s : State) (p : Nat) : Bool := (s.tile p).sect.loading

/-- Every router on the rest of a route lies inside. -/
def insideAfter (s : State) (m : Msg) : Nat → Nat → Bool
  | 0, _ => true
  | k + 1, p =>
    match nextHop s p m with
    | .hop q _ => s.diked q && insideAfter s m k q
    | _ => true

/-- The destination tile of a message that a dike can hold. -/
def diked? (s : State) (m : Msg) : Bool :=
  m.here s && (m.copy.isSome || m.dstY < 16) && s.diked (s.phys m.dstTile)

/-- A neighbour that a multicast at router p spreads to lies inside a region under reconfiguration, and p does not. -/
def spreadHeld (s : State) (p : Nat) (m : Msg) : Bool := !s.diked p && (spreadTo p m).any (fun e => s.diked e.1)

/-- Router p is the last one outside the region on the way of m. -/
def dikeHolds (s : State) (p : Nat) (side : Side) (m : Msg) : Bool :=
  if spreads s p side m then spreadHeld s p m else diked? s m && !s.diked p && insideAfter s m 64 p

/-- The dike of a router holds a load: memory transactions pass it. -/
def loadDiked (s : State) (p : Nat) (side : Side) : Load → Bool
  | .msg m => dikeHolds s p side m
  | .parcel _ => false

/-- Key of the re-injection requester among a router's dike holds. -/
def reKey : Nat := 18

/-- The head of a queue enters a dike hold, and the census falls. -/
def holdHead (s : State) (p : Nat) (side : Side) (k : Nat) (m : Msg) : State :=
  if (s.tile p).router.dike.contains k then s
  else countAt (s.modTile p (fun t => t.modRouter (fun r => { r with dike := insNat r.dike k }))) p side m (-1)

/-- A held head is released: it is counted again (R223), and its stall count starts anew (R187). -/
def releaseHead (s : State) (p : Nat) (side : Side) (k : Nat) (m : Msg) : State :=
  if (s.tile p).router.dike.contains k then
    countAt (s.modTile p (fun t => t.modRouter (fun r =>
      { r with dike := delNat r.dike k, moved := if k < 15 then aput r.moved k s.clk else r.moved }))) p side m 1
  else s

/-- A held lane-1 message is of another generation than the region now has (R227). -/
def heldStale (s : State) (lane : Nat) (m : Msg) : Bool := lane == 1 && m.gen != (s.ltile m.dstTile).sect.gen.toNat

/-- Such a message is dropped at the dike; it left the census with its hold. -/
def dropHeld (s : State) (p k : Nat) (m : Msg) (pop : State → State) : State :=
  (pop (s.modTile p (fun t => t.modRouter (fun r => { r with dike := delNat r.dike k })))).modTile (s.phys m.dstTile)
    (fun t => t.modRegs (fun r => { r with stale := sat32 r.stale 1 }))

/-- What the dike makes of a head (R185, R227): it is held, dropped with `pop`, or goes on. -/
inductive AtDike where
  | stays (s : State)
  | goes (s : State)

def atDike (s : State) (p : Nat) (side : Side) (lane k : Nat) (m : Msg) (pop : State → State) : AtDike :=
  if dikeHolds s p side m then .stays (holdHead s p side k m)
  else if (s.tile p).router.dike.contains k && heldStale s lane m then .stays (dropHeld s p k m pop)
  else .goes (releaseHead s p side k m)

/-! ## Bridge weirs (R350) -/

/-- The bridge bucket a hop from router p meets (Table 14.2): weir and bucket. -/
def bridgeBucket (p : Nat) : Hop → Option (Nat × Nat)
  | .hop q side =>
    if pDie q == pDie p then none
    else some (4, 4 * pDie p + (match side with | .west => 0 | _ => 2))
  | .hub => some (5, 2 * pDie p)
  | _ => none

/-- The polder that the traffic of a message belongs to: that of its sending tile, or of the context a hub unit acts for (R348). -/
def msgPolder (s : State) (m : Msg) : Option Nat :=
  if fromTile s m then s.polderOfTile m.srcTile
  else if fromHub s m && m.kind == 4 && gOp m != 3 then s.polderOfCtx (gCtx m) else none

def loadPolder (s : State) : Load → Option Nat
  | .msg m => msgPolder s m
  | .parcel x => x.polder

/-- The bridge weir that a load at router p meets: the state, and whether it may pass. `k` names its queue. -/
def bridgePass (s : State) (p k : Nat) (l : Load) : State × Bool :=
  match bridgeBucket p (loadHop s p l) with
  | none => (s, true)
  | some (w, b) => weirPass s (loadPolder s l) w b (2 * (20 * p + k) + 1) (128 * l.flits)

/-! ## Arbitration (R180, R181, Table 7.7) -/

/-- Number of a router output: 0-3 N, E, S, W, 4 ejection. A message that leaves east enters the next router from the west. -/
def outputNo : Hop → Nat
  | .hop _ .west => 1
  | .hop _ .east => 3
  | .hop _ .north => 2
  | .hop _ _ => 0
  | .tile => 4
  | .block _ => 0
  | .edge true => 0
  | _ => 2

/-- A requester of a router: an input and lane, or re-injection. -/
inductive Requester where
  | lane (side : Side) (lane : Nat)
  | reinject
deriving DecidableEq, Repr

/-- Index of a requester at output o (Table 7.7): the lanes of the other link inputs, local egress, re-injection, the tree node; at
ejection, lanes 0 and 2 of the link inputs, local egress, re-injection, the tree node. -/
def requesterNo (o : Nat) : Requester → Nat
  | .lane .tile l => if o == 4 then 8 else 9 + l
  | .lane .node _ => if o == 4 then 10 else 13
  | .lane d l =>
    if o == 4 then 2 * sideNo d + (if l == 2 then 1 else 0) else 3 * (if sideNo d < o then sideNo d else sideNo d - 1) + l
  | .reinject => if o == 4 then 9 else 12

/-- A copy that leaves the router of its own place for its host (R171). -/
def redirects (p : Nat) : Load → Bool
  | .msg m => m.copy.any (fun n => pOf (lDie n) (lX n) (lY n) == p)
  | .parcel _ => false

/-- Class of a requester by its type (Table 7.8). -/
def requesterClass (s : State) (q : Requester) (redirect : Bool) : Nat :=
  match q with
  | .reinject => fld s.fabClass 6 2
  | .lane .node _ => fld s.fabClass 8 2
  | .lane .tile _ => if redirect then fld s.fabClass 8 2 else fld s.fabClass 0 2
  | .lane _ l => if redirect then fld s.fabClass 8 2 else if l == 1 then fld s.fabClass 4 2 else fld s.fabClass 2 2

/-- How far a requester stands behind the one last granted in its class, of n. -/
def turnAfter (n : Nat) (last : Nat → Option Nat) (e : Nat × Nat) : Nat :=
  match last e.2 with
  | some g => (e.1 + n - (g + 1)) % n
  | none => e.1

/-- What an arbiter of n requesters grants, of requests by index and class (R180): the lowest class; within it, round robin from the
one after the last granted. -/
def arbiter (n : Nat) (last : Nat → Option Nat) (reqs : List (Nat × Nat)) : Option (Nat × Nat) :=
  reqs.foldl (fun best r =>
    match best with
    | none => some r
    | some b => if r.2 < b.2 || (r.2 == b.2 && turnAfter n last r < turnAfter n last b) then some r else best) none

/-- The last grant of an output of router p in a class. -/
def lastGrant (s : State) (p o c : Nat) : Option Nat := aget? (s.tile p).router.granted (4 * o + c)
def noteGrant (s : State) (p o idx c : Nat) : State :=
  s.modTile p (fun t => t.modRouter (fun r => { r with granted := aput r.granted (4 * o + c) idx }))

/-- The head of an input lane, unless its lane is being spilled and so waits behind the spill (R189). -/
def headLoad (s : State) (p : Nat) (side : Side) (lane : Nat) : Option Load :=
  if lane ≥ 3 || spilledLane s p side lane then none else (s.tile p).router.loadHead (qKey side lane)

/-- The head of an input lane of lanes 0 and 1. -/
def laneHead (s : State) (p : Nat) (side : Side) (lane : Nat) : Option Msg :=
  match headLoad s p side lane with
  | some (.msg m) => some m
  | _ => none

/-- The next queue of a load has room: for one that re-injects, 4 flits or fewer suffice (R190). -/
def hopRoom (s : State) (h : Hop) (lane n : Nat) (reinject : Bool) : Bool :=
  match h with
  | .hop r d =>
    if reinject && !spilledLane s r d lane then (s.tile r).router.held (qKey d lane) ≤ 4 else inputRoom s r d lane n
  | .unused => false
  | .tile => false
  | _ => true

/-- The load, with its input and lane, that a requester of router p has to send. -/
def requesterLoad (s : State) (p : Nat) : Requester → Option (Side × Nat × Load)
  | .lane side lane => (headLoad s p side lane).map (fun l => (side, lane, l))
  | .reinject => (s.tile p).router.spill.head?.map (fun e => (e.side, e.lane, e.load))

/-- Key of a requester's queue. -/
def requesterKey : Requester → Nat
  | .lane side lane => qKey side lane
  | .reinject => reKey

/-- The output that a requester asks for, when its head can move, and whether that is a redirect: no dike, weir or full queue holds
it. -/
def asks (s : State) (p : Nat) (q : Requester) : Option (Hop × Bool) :=
  match requesterLoad s p q with
  | some (side, lane, l) =>
    let h := loadHop s p l
    if loadSpreads s p side l || loadDiked s p side l || !hopRoom s h lane l.flits (q == .reinject) ||
       !(bridgePass s p (requesterKey q) l).2 then none
    else some (h, redirects p l)
  | none => none

/-- Every requester of a router. -/
def requesters : List Requester :=
  [Side.north, .east, .south, .west, .tile, .node].flatMap (fun d => (List.range 3).map (fun l => Requester.lane d l)) ++ [.reinject]

/-- The requests for a link output of router p: requester, hop, and whether it is a redirect. -/
def linkRequests (s : State) (p o : Nat) : List (Requester × Hop × Bool) :=
  requesters.filterMap (fun q => (asks s p q).bind (fun e => if outputNo e.1 == o then some (q, e) else none))

/-- The requester that the arbiter of a link output grants, with its index and class. -/
def linkGrant (s : State) (p o : Nat) : Option (Nat × Nat) :=
  arbiter 14 (lastGrant s p o) ((linkRequests s p o).map (fun e => (requesterNo o e.1, requesterClass s e.1 e.2.2)))

/-- Lane of a requester's load. -/
def requesterLane (s : State) (p : Nat) (q : Requester) : Nat :=
  match requesterLoad s p q with
  | some (_, lane, _) => lane
  | none => 0

/-- The routers of a die along one of its edges, in row order: east, west, or south to the hub. -/
def edgeRouters (d o : Nat) : List Nat :=
  if o == 1 then (List.range 16).map (fun y => pOf d 15 y)
  else if o == 3 then (List.range 16).map (fun y => pOf d 0 y)
  else (List.range 8).map (fun i => pOf d (4 + i) 16)

/-- The hop leaves the die over a bridge. -/
def bridges (p : Nat) : Hop → Bool
  | .hop q _ => pDie q != pDie p
  | .hub => true
  | _ => false

/-- Class of a lane at a bridge end (Table 7.8). -/
def laneClass (s : State) (lane : Nat) : Nat := if lane == 1 then fld s.fabClass 4 2 else fld s.fabClass 2 2

/-- The requests at a bridge end: each edge router offers what its own output arbiter grants; the requester is its row and
lane (Table 7.7). -/
def bridgeRequests (s : State) (d o : Nat) : List (Nat × Nat) :=
  ((edgeRouters d o).zip (List.range 16)).filterMap (fun e =>
    (linkGrant s e.1 o).bind (fun g =>
      ((linkRequests s e.1 o).find? (fun r => requesterNo o r.1 == g.1)).bind (fun r =>
        if bridges e.1 r.2.1 then
          let l := requesterLane s e.1 r.1
          some (3 * e.2 + l, laneClass s l)
        else none)))

def bridgeGrant (s : State) (d o : Nat) : Option (Nat × Nat) :=
  arbiter 48 (fun c => aget? s.bridgeGrants (16 * d + 4 * o + c)) (bridgeRequests s d o)

/-- Index of a lane of an edge router at its bridge end. -/
def edgeNo (p o lane : Nat) : Nat := 3 * (if o == 2 then pX p - 4 else pY p) + lane

/-- A message at the hub waits for the egress of port k: it is for another device and the routing names k (R328). -/
def wantsPort (s : State) (k : Nat) (arr : Option Nat) (m : Msg) : Bool :=
  !m.here s && (match linkRoute s m.dstDev arr with | .send q => q == k | .drop _ => false)

/-- The message that a die's field-to-hub bridge offers: what the bridge end grants. -/
def bridgeOffer (s : State) (d : Nat) : Option (Nat × Msg) :=
  (bridgeGrant s d 2).bind (fun g =>
    let p := pOf d (4 + g.1 / 3) 16
    (linkGrant s p 2).bind (fun l =>
      ((linkRequests s p 2).find? (fun r => requesterNo 2 r.1 == l.1)).bind (fun r =>
        match requesterLoad s p r.1 with
        | some (_, lane, .msg m) => some (lane, m)
        | _ => none)))

/-- The requests for lane `lane` of the egress of port k, with their classes (R330): the bridges of dies 0-3, the hub's own
sources, and the other ingress ports. -/
def egressRequests (s : State) (k lane : Nat) : List (Nat × Nat) :=
  let c := (s.reg 0x100018).toNat
  ((List.range 4).filterMap (fun d => (bridgeOffer s d).bind (fun o =>
    if o.1 == lane && wantsPort s k none o.2 then some (d, fld c 0 2) else none))) ++
  (match (s.gout 4).head? with
   | some m => if kindLane m.kind == lane && wantsPort s k none m then [(4, fld c 2 2)] else []
   | none => []) ++
  (List.range 8).filterMap (fun j => ((s.lport j).ingress lane).head?.bind (fun m =>
    if j != k && wantsPort s k (some j) m then some (5 + j, fld c 4 2) else none))

/-- Where the last grants of a port egress stand among those of the arbiters that are no router's. -/
def egressKey (k lane c : Nat) : Nat := 64 + 12 * k + 4 * lane + c

/-- The requester that the crossbar grants (R180, R330). -/
def egressGrant (s : State) (k lane : Nat) : Option (Nat × Nat) :=
  arbiter 13 (fun c => aget? s.bridgeGrants (egressKey k lane c)) (egressRequests s k lane)

/-- The crossbar lets requester n send m: it is granted the egress, or m asks for none. -/
def egressFree (s : State) (n : Nat) (arr : Option Nat) (m : Msg) : Bool :=
  if m.here s then true
  else match linkRoute s m.dstDev arr with
    | .send k => (egressGrant s k (kindLane m.kind)).any (fun g => g.1 == n)
    | .drop _ => true

/-- The grant of an egress is noted. -/
def takeEgress (s : State) (arr : Option Nat) (m : Msg) : State :=
  if m.here s then s
  else match linkRoute s m.dstDev arr with
    | .send k => (match egressGrant s k (kindLane m.kind) with
      | some g => { s with bridgeGrants := aput s.bridgeGrants (egressKey k (kindLane m.kind) g.2) g.1 }
      | none => s)
    | .drop _ => s

/-- What the crossbar says of a load that leaves the mesh for the hub. -/
def crossbarFree (s : State) (p : Nat) : Hop → Load → Bool
  | .hub, .msg m => egressFree s (pDie p) none m
  | _, _ => true

/-- A load of router p takes the crossbar on its way out of the mesh. -/
def takeCrossbar (s : State) : Hop → Load → State
  | .hub, .msg m => takeEgress s none m
  | _, _ => s

/-- The arbiters that a requester of router p needs for its hop grant it (R180): the router's output, at an edge the bridge
end, and behind the hub's the egress of a port. -/
def granted (s : State) (p : Nat) (q : Requester) : Bool :=
  match asks s p q with
  | none => false
  | some (h, _) =>
    let o := outputNo h
    (linkGrant s p o).any (fun g => g.1 == requesterNo o q) &&
      (!bridges p h || (bridgeGrant s (pDie p) o).any (fun g => g.1 == edgeNo p o (requesterLane s p q))) &&
      (requesterLoad s p q).all (fun e => crossbarFree s p h e.2.2)

/-- The grants are noted. -/
def takeGrant (s : State) (p : Nat) (q : Requester) : State :=
  match asks s p q with
  | none => s
  | some (h, r) =>
    let o := outputNo h
    let s0 := match requesterLoad s p q with
      | some (_, _, l) => takeCrossbar s h l
      | none => s
    let s1 := noteGrant s0 p o (requesterNo o q) (requesterClass s q r)
    if bridges p h then
      let l := requesterLane s p q
      { s1 with bridgeGrants := aput s1.bridgeGrants (16 * pDie p + 4 * o + laneClass s l) (edgeNo p o l) }
    else s1

/-! ## Hops -/

/-- The 64-byte pieces of a transaction's data that lie in flits with fpoison. -/
def Parcel.badPieces (x : Parcel) (n : Nat) : Nat :=
  maskOf n (fun i => x.fp.any (fun f => (32 + 64 * i) / 128 ≤ f && f ≤ (32 + 64 * i + 63) / 128))

/-- A transaction reaches the end of its way (R268): it joins those that wait there, in the order they came, with its data as it came. -/
def parcelArrives (s : State) (x : Parcel) : State :=
  match s.ms.txns.find? (fun t => t.id == x.id) with
  | none => s
  | some t =>
    { s with ms := { s.ms with txns := s.ms.txns.filter (fun y => y.id != x.id) ++
        [{ t with arrived := true, data := (x.bytes.drop 32).take t.data.length, bad := t.bad ||| x.badPieces ((t.data.length + 63) / 64) }] } }

/-- A load leaves the mesh at a router for the hub, a gauge block or the controller or pump at an edge port. -/
def leavesMesh (s : State) : Hop → Load → State
  | .block b, .msg m => s.pushGin b m.ingress
  | _, .msg m => if m.here s then fromFabric s m.ingress else linkSend s m none
  | _, .parcel x => parcelArrives s x

/-- A load of router p moves one hop, `pop` taking it from where it stands. -/
def hopMsg (s : State) (p lane : Nat) (side : Side) (l : Load) (err : Option FlitError) (pop : State → State) : State :=
  let s0 := sentFlits (pop s) p l.flits
  match loadHop s p l with
  | .hop q d =>
    (match linkCheck s0 q d err l with
     | (s1, some x) => arriveAt s1 q d lane x
     | (s1, none) => s1)
  | h =>
    match linkCheck s0 p side err l with
    | (s1, some x) => leavesMesh s1 h x
    | (s1, none) => s1

/-- A requester of router p sends its head on when the arbiters grant it (R180) and the bridge's weir lets it pass (R350); where its
spilled next queue finds the spillway full, that is noted (R191). -/
def hopGranted (s : State) (p : Nat) (q : Requester) (err : Option FlitError) (l : Load) (pop : State → State) : State :=
  match requesterLoad s p q with
  | none => s
  | some (side, lane, _) =>
    match bridgePass s p (requesterKey q) l with
    | (s1, false) => s1
    | (s1, true) =>
      if granted s p q then hopMsg (takeGrant s1 p q) p lane side l err pop
      else
        match loadHop s p l with
        | .hop r d => if inputRoom s r d lane l.flits then s else refusedAt s r d lane l.flits
        | _ => s

/-- The head of a queue hops (R161), is held at a dike (R185) or by a weir (R350), or is released. -/
def hopHead (s : State) (p : Nat) (side : Side) (lane : Nat) (err : Option FlitError) (l : Load) : State :=
  let k := qKey side lane
  let pop (x : State) : State := x.popRq p k
  match l with
  | .parcel _ => hopGranted s p (.lane side lane) err l pop
  | .msg m =>
    match atDike s p side lane k m pop with
    | .stays s1 => s1
    | .goes s1 => hopGranted s1 p (.lane side lane) err l pop

/-- The polder check of a message that a link brings (R184, R329): the arrival port belongs to the destination's polder. -/
def portPasses (s : State) (port n : Nat) : Bool :=
  match s.polderOfTile n with
  | none => true
  | some d => s.polderOfPort port == some d

/-- A message for this device at the hub's end of a field-to-hub bridge, in front of router q (R161 step 4). -/
inductive HubEntry where
  | held          -- at the dike (R185)
  | dropped       -- a held lane-1 message of another generation (R227)
  | enters
  | waits

def hubEnters (s : State) (m : Msg) (held : Bool) : HubEntry :=
  let q := hubEntry s m
  let lane := kindLane m.kind
  if diked? s m && s.diked q && insideAfter s m 64 q then .held
  else if held && heldStale s lane m then .dropped
  else if inputRoom s q .south lane m.flits then .enters
  else .waits

/-- What a load from the hub does at its bridge end into router q: the weir, the parity check, the input. None: the weir holds it. -/
def enterDie (s : State) (q lane unit : Nat) (l : Load) (err : Option FlitError) : State × Bool :=
  match weirPass s (loadPolder s l) 5 (2 * pDie q + 1) (2 * (20 * 1088 + unit) + 1) (128 * l.flits) with
  | (s1, false) => (s1, false)
  | (s1, true) =>
    match linkCheck s1 q .south err l with
    | (s2, some x) => (arriveAt s2 q .south lane x, true)
    | (s2, none) => (s2, true)

/-- The head of an ingress lane of a Beytia port leaves into the crossbar (R323, R328): to the hub's gauge block, to its
die, or to another port. -/
def hopIngress (s : State) (port lane : Nat) (err : Option FlitError) (m : Msg) : State :=
  let held := (s.lport port).held.contains lane
  let free (x : State) : State := x.modLport port (fun y => { y with held := delNat y.held lane })
  if !m.here s then
    if egressFree s (5 + port) (some port) m then linkSend (popIngress (takeEgress s (some port) m) port lane) m (some port) else s
  else if m.dstY == 17 then fromFabric (popIngress s port lane) m.ingress
  else
    match hubEnters s m held with
    | .held => if held then s else endMsg (s.modLport port (fun x => { x with held := insNat x.held lane })) m
    | .dropped =>
      (free (popIngress s port lane)).modTile (s.phys m.dstTile) (fun t => t.modRegs (fun r => { r with stale := sat32 r.stale 1 }))
    | .waits => if held then (free s).count m 1 else s
    | .enters =>
      let s1 := if held then (free s).count m 1 else s
      match enterDie s1 (hubEntry s m) lane (2 * port + lane) (.msg m) err with
      | (s2, true) => popIngress s2 port lane
      | (s2, false) => s2

/-- What a gauge block has to send leaves it (R194, R202, R203): from a die's block into the north input of router (d,7,0), from
the hub's through the crossbar. -/
def hopBlock (s : State) (b : Nat) (err : Option FlitError) (m : Msg) : State :=
  let held := s.gauges.outHeld.contains b
  let setHeld (x : State) (v : Bool) : State :=
    { x with gauges := { x.gauges with outHeld := if v then insNat x.gauges.outHeld b else delNat x.gauges.outHeld b } }
  if b < 4 then
    let q := pOf b 7 0
    if inputRoom s q .north 0 m.flits then
      (match linkCheck (s.popGout b) q .north err (.msg m) with
       | (s1, some x) => arriveAt s1 q .north 0 x
       | (s1, none) => s1)
    else refusedAt s q .north 0 m.flits
  else if !m.here s then
    if egressFree s 4 none m then linkSend ((takeEgress s none m).popGout 4) m none else s
  else if m.dstY == 17 then fromFabric (s.popGout 4) m
  else
    match hubEnters s m held with
    | .held => if held then s else endMsg (setHeld s true) m
    | .waits => if held then (setHeld s false).count m 1 else s
    | _ =>
      let s1 := if held then (setHeld s false).count m 1 else s
      match enterDie s1 (hubEntry s m) 0 16 (.msg m) err with
      | (s2, true) => s2.popGout 4
      | (s2, false) => s2

/-- A multicast at router p spreads (R170, R171): a copy for each neighbour, and one for the logical tile of this
place, which stays to be delivered here or, when the tile is displaced, goes on to its host. Each link is checked by its
receiver (R168). -/
def spreadMsg (s : State) (p lane : Nat) (m : Msg) (east south : Option FlitError) : State × Option Msg :=
  let l := spreadTo p m
  if l.all (fun e => inputRoom s e.1 e.2 lane m.flits) then
    (l.foldl (fun x e =>
      match linkCheck (sentFlits x p m.flits) e.1 e.2 (match e.2 with | .west => east | _ => south) (.msg m) with
      | (y, some c) => arriveAt y e.1 e.2 lane c
      | (y, none) => y) s, some { m with copy := some (lOf (pDie p) (pX p) (pY p)) })
  else (l.foldl (fun x e => if inputRoom s e.1 e.2 lane m.flits then x else refusedAt x e.1 e.2 lane m.flits) s, none)

/-- MULTICAST_SPREAD (R170). -/
def execMulticastSpread (p : BitVec 11) (side : Side) (lane : BitVec 2) (east south : Option FlitError) (s : State) :
    Host.Outcome State Fault Refusal :=
  let k := qKey side lane.toNat
  .next (done s (
    match laneHead s p.toNat side lane.toNat with
    | some m =>
      if spreads s p.toNat side m then
        (match atDike s p.toNat side lane.toNat k m (fun x => x.popRq p.toNat k) with
         | .stays s1 => s1
         | .goes s1 =>
           match spreadMsg s1 p.toNat lane.toNat m east south with
           | (s2, some c) => s2.setHead p.toNat k c
           | (s2, none) => s2)
      else s
    | none => s))

/-! ## Delivery (R182-R186) -/

/-- The source of a message lies in another polder than tile n (R184). -/
def firewalled (s : State) (m : Msg) (n : Nat) : Bool :=
  match s.polderOfTile n with
  | none => false
  | some d => fromTile s m && s.polderOfTile m.srcTile != some d

/-- A drop by the firewall (R184). -/
def dropFirewall (s : State) (p : Nat) (m : Msg) : State :=
  routerOnce (s.modTile p (fun t => t.modRegs (fun r =>
    { r with fwPolder := BitVec.ofNat 24 (satAdd 24 r.fwPolder.toNat 1) }))) p 0x3130 16 (hdrDetail m.hdr)

/-- Check 3 fails (R186). -/
def isOrphan (t : Tile) (m : Msg) : Bool :=
  let u := m.dstUnit
  !(1 ≤ u && u ≤ 7) || !t.sect.configured || t.isFinished u || !t.bound u m.dstPort

/-- A stale message is discarded (R182 check 4). -/
def dropStale (s : State) (p : Nat) (m : Msg) : State :=
  s.modTile p (fun t =>
    (t.setPort m.dstUnit m.dstPort { t.port m.dstUnit m.dstPort with staleSeen := true }).modRegs (fun r =>
      { r with stale := sat32 r.stale 1 }))

/-- Checks 1-6 of R182 at tile p for a data, control or steer message. One that has passed the dike does not wait for it again: at a
tile that loads it ends as an orphan (R226). -/
def deliverMsg (s : State) (p : Nat) (m : Msg) : Placed :=
  let t := s.tile p
  if firewalled s m m.dstTile then .dropped (dropFirewall s p m)
  else if isOrphan t m then .dropped (orphan s p m.dstUnit m)
  else if m.gen != t.sect.gen.toNat then .dropped (dropStale s p m)
  else placeMsg s p m.dstUnit m.dstPort m

def Placed.isWaiting : Placed → Bool
  | .waits _ => true
  | _ => false

/-- Delivery of a message, which `pop` takes from where it stands unless it must wait (`TDBG_FBC[1]` counts what is ejected). -/
def deliverHead (s : State) (p : Nat) (pop : State → State) (m : Msg) : State :=
  let ejected (x : State) : State := if firewalled s m m.dstTile then x else x.bumpTile p (bankFbc 1) 1
  match deliverMsg s p m with
  | .placed s1 => settle (endMsg ((pop (ejected s1)).noteProgress p) m) p
  | .dropped s1 => endMsg (pop (ejected s1)) m
  | .waits s1 => s1

/-- The way of a load ends at the tile of router p. -/
def endsHere (s : State) (p : Nat) (side : Side) (l : Load) : Bool :=
  !loadSpreads s p side l && decide (loadHop s p l = .tile)

/-- The message at the head of a queue that its own tile is to take: a lane-0 message whose way ends here. -/
def headHere (s : State) (p : Nat) (side : Side) (lane : Nat) : Option Msg :=
  (laneHead s p side lane).bind (fun m => if endsHere s p side (.msg m) then some m.ingress else none)

/-- A requester of the ejection port of router p whose head the tile would take now: a message that no port refuses, a WAKE, a memory
transaction. -/
def ejects (s : State) (p : Nat) (q : Requester) : Bool :=
  match requesterLoad s p q with
  | some (side, lane, l) =>
    endsHere s p side l && lane != 1 &&
      (match l with
       | .msg m => m.kind == 4 || !(deliverMsg s p m.ingress).isWaiting
       | .parcel _ => true)
  | none => false

/-- The ejection arbiter of router p (R180, Table 7.7): index and class of its grant. -/
def ejectGrant (s : State) (p : Nat) : Option (Nat × Nat) :=
  arbiter 12 (lastGrant s p 4) ((requesters.filter (ejects s p)).map (fun q => (requesterNo 4 q, requesterClass s q false)))

/-- The ejection arbiter grants a requester. -/
def ejectGranted (s : State) (p : Nat) (q : Requester) : Bool := (ejectGrant s p).any (fun g => g.1 == requesterNo 4 q)
def takeEject (s : State) (p : Nat) (q : Requester) : State := noteGrant s p 4 (requesterNo 4 q) (requesterClass s q false)

/-- A requester's message is delivered when the ejection arbiter grants it; one that its port refuses waits there (R35). -/
def ejectMsg (s : State) (p : Nat) (q : Requester) (pop : State → State) (m : Msg) : State :=
  if ejects s p q then (if ejectGranted s p q then deliverHead (takeEject s p q) p pop m else s)
  else deliverHead s p pop m

/-- A memory transaction at the head of a lane 2 reaches the tile that it is for. -/
def deliverParcel (s : State) (p : Nat) (side : Side) (x : Parcel) : State :=
  let q := Requester.lane side 2
  if endsHere s p side (.parcel x) && ejectGranted s p q then
    parcelArrives ((takeEject s p q).popRq p (qKey side 2)) x
  else s

/-- A WAKE at a requester of router p reaches its waiter when the ejection arbiter grants it. -/
def wakeHead (s : State) (p : Nat) (q : Requester) (pop : State → State) (m : Msg) : State :=
  if ejectGranted s p q then endMsg (wakeTile ((pop (takeEject s p q)).bumpTile p (bankFbc 1) 1) p m) m else s

/-- MESSAGE_DELIVERY (R182): a flit error found on the last leg comes first (R168). -/
def execMessageDelivery (p : BitVec 11) (side : Side) (lane : BitVec 2) (err : Option FlitError) (s : State) :
    Host.Outcome State Fault Refusal :=
  let p := p.toNat
  let k := qKey side lane.toNat
  .next (done s (
    match headLoad s p side lane.toNat with
    | none => s
    | some l =>
      if lane == 1 || !endsHere s p side l then s
      else
        match linkCheck s p side err l with
        | (s1, none) => s1.popRq p k
        | (s1, some (.parcel x)) => deliverParcel s1 p side x
        | (s1, some (.msg m)) =>
          if m.kind == 4 then s
          else ejectMsg (s1.setHead p k m) p (.lane side 0) (fun y => y.popRq p k) m.ingress))

/-- WAKE at its waiter (R203, R204): at a tile, at the head of lane 0 of router k; `k` from 1,088 on names the WAKEs that have
reached the hub. -/
def execWake (k : Nat) (side : Side) (s : State) : Host.Outcome State Fault Refusal :=
  .next (done s (
    if k < 1088 then
      match headHere s k side 0 with
      | some m => if m.kind == 4 then wakeHead s k (.lane side 0) (fun y => y.popRq k (qKey side 0)) m else s
      | none => s
    else
      match s.gauges.wakes[k - 1088]? with
      | some m => wakeHub { s with gauges := { s.gauges with wakes := s.gauges.wakes.eraseIdx (k - 1088) } } m
      | none => s))

def sides : List Side := [.north, .east, .south, .west, .tile, .node]

/-- BACKPRESSURE_REOFFER (R35): an input whose head waits for the port offers it again, and the ejection arbiter picks it. -/
def execBackpressureReoffer (t : BitVec 10) (port : BitVec 6) (s : State) : Host.Outcome State Fault Refusal :=
  let p := s.phys t.toNat
  .next (done s (
    if t.toNat < s.ntiles then
      match sides.findSome? (fun d => match headHere s p d 0 with
        | some m =>
          if m.kind != 4 && portNo m.dstUnit m.dstPort == port.toNat && 1 ≤ m.dstUnit && m.dstUnit ≤ 7 && ejectGranted s p (.lane d 0)
          then some (d, m) else none
        | none => none) with
      | some (d, m) => ejectMsg s p (.lane d 0) (fun y => y.popRq p (qKey d 0)) m
      | none => s
    else s))

/-- MESSAGE_EGRESS (R164, R166, R223): a message for a port of its own tile is placed there (R39); any other is counted in the
census and enters the router. A region under a raised dike emits nothing (R185). -/
def execMessageEgress (t : BitVec 10) (upset : Option Upset) (s : State) : Host.Outcome State Fault Refusal :=
  let n := t.toNat
  let p := s.phys n
  let y := s.tile p
  .next (done s (
    if n < s.ntiles && !y.sect.loading then
      match egressPick s n (fun u m => !(deliverMsg s p (egressMsg s n u m)).isWaiting) y.egress with
      | none => s
      | some i =>
        match y.egress[i]? with
        | none => s
        | some (u, m) =>
          let (s1, go) := meet s p upset []
          if !go then s1
          else
            let m1 := egressMsg s n u m
            let s2 := s1.modTile p (fun x => { x with egress := x.egress.eraseIdx i })
            let s3 :=
              if malformed s m1 then dropMalformed s2 p m1
              else if inTile s n m1 then
                (match deliverMsg s2 p m1 with
                 | .placed z => z.noteProgress p
                 | .dropped z => z
                 | .waits z => z)
              else (s2.count m1 1).pushRq p (qKey .tile (kindLane m1.kind)) m1
            settle (finishSent s3 p u) p
    else s))

/-- OVERFLOW_BASIN_MOVE (R36, R147, R151): the whole message at the head of a port's overflow basin moves into its FIFO. -/
def execOverflowBasinMove (t : BitVec 10) (port : BitVec 6) (upset : Option Upset) (s : State) : Host.Outcome State Fault Refusal :=
  let p := s.phys t.toNat
  let u := port.toNat / 8 + 1
  let k := port.toNat % 8
  let b := (s.tile p).bindBasin u k
  .next (done s (
    if t.toNat < s.ntiles && u ≤ 6 && ((s.tile p).port u k).inBasin != 0 then
      if (basinHead s p b).flits ≤ 8 && ((s.tile p).port u k).entries + (basinHead s p b).flits ≤ 8 then
        match meet s p upset (basinWords s p b) with
        | (s1, false) => s1
        | (s1, true) =>
          let m := basinHead s1 p b
          let x := (s1.tile p).port u k
          (popBasin s1 p b m).modTile p (fun z => z.setPort u k { x with fifo := x.fifo ++ [m], inBasin := x.inBasin - 1 })
      else s
    else s))

/-- STEER_SPILL_RETURN (R245): the first spilled message of a port returns to it when it would be accepted. -/
def execSteerSpillReturn (t : BitVec 10) (port : BitVec 6) (s : State) : Host.Outcome State Fault Refusal :=
  let p := s.phys t.toNat
  let u := port.toNat / 8 + 1
  let k := port.toNat % 8
  .next (done s (
    if t.toNat < s.ntiles then
      let l := (s.tile p).steerSpill
      match (List.range l.length).find? (fun i => match l[i]? with | some e => e.1 == port.toNat | none => false) with
      | some i =>
        (match l[i]? with
         | some e =>
           (match tryPlace s p u k e.2 with
            | some s1 => settle (s1.modTile p (fun z => { z with steerSpill := z.steerSpill.eraseIdx i }.bump (bankCcc 4) 1)) p
            | none => s)
         | none => s)
      | none => s
    else s))

/-! ## Deadlock detection and the spillway (R187-R191) -/

/-- The threshold in force: 0 turns detection off, 1-63 act as 64. -/
def State.threshold (s : State) : Nat := if s.fabThreshold == 0 then 0 else max 64 s.fabThreshold

/-- Stall count of an input lane (R187): the cycles since it moved, but none while its head is held at a dike or waits on ejection into
the tile. -/
def stallOf (s : State) (p : Nat) (side : Side) (lane : Nat) : Nat :=
  let k := qKey side lane
  let r := (s.tile p).router
  match r.loadHead k with
  | none => 0
  | some l =>
    if r.dike.contains k || (lane != 1 && endsHere s p side l) then 0 else s.clk - agetD r.moved k s.clk

/-- The router or bridge end that the head of a lane waits on (R188): none where it is held at a dike or by a weir (R350), or its way
ends here. A multicast waits on the first neighbour without room. -/
def waitsOn (s : State) (p : Nat) (side : Side) (lane : Nat) : Option Hop :=
  let k := qKey side lane
  match (s.tile p).router.loadHead k with
  | none => none
  | some l =>
    if (s.tile p).router.dike.contains k || !(bridgePass s p k l).2 then none
    else
      match l with
      | .msg m =>
        if spreads s p side m then
          ((spreadTo p m).find? (fun e => !inputRoom s e.1 e.2 lane m.flits)).map (fun e => .hop e.1 e.2)
        else match nextHop s p m with | .tile => none | h => some h
      | .parcel x => match parcelHop s p x with | .tile => none | h => some h

/-- A queue is full: 8 flits or more. -/
def queueFull (s : State) (p k : Nat) : Bool := (s.tile p).router.held k ≥ 8

/-- Cycles of a probe to the next router: 1, or 4 over a bridge (R188). -/
def probeTime (p q : Nat) : Nat := if pDie p == pDie q then 1 else 4

/-- PROBE_SEND (R187): the stall count of a full queue reaches the threshold, and a probe leaves along the output that
its head waits on. -/
def execProbeSend (p : BitVec 11) (side : Side) (lane : BitVec 2) (s : State) : Host.Outcome State Fault Refusal :=
  let p := p.toNat
  let k := qKey side lane.toNat
  .next (done s (
    if side != .node && lane != 3 && s.threshold != 0 && queueFull s p k && s.threshold ≤ stallOf s p side lane.toNat &&
       !s.probes.any (fun e => e.origin == p && e.key == k) then
      match waitsOn s p side lane.toNat with
      | some (.hop q d) => { s with probes := s.probes ++ [⟨p, k, sideNo d, q, 1, s.clk + probeTime p q⟩] }
      | _ => s
    else s))

def sideOf (i : Nat) : Side := sides.getD i .tile

/-- The spill of a confirmed cycle (R189, R191): n messages of the origin's lane move to the spillway, in order, while there is room. -/
def spillQueue (p k : Nat) : Nat → State → State
  | 0, s => s
  | n + 1, s =>
    match (s.tile p).router.loadHead k with
    | none => s
    | some l =>
      if (s.tile p).spillFits l.flits then spillQueue p k n (toSpill (s.popRq p k) p (sideOf (k / 3)) (k % 3) l)
      else spillStops s p

/-- A probe is back at its origin lane: the cycle is confirmed (R189). -/
def confirmCycle (s : State) (p k hops : Nat) : State :=
  let s1 := (s.bumpTile p (bankFbc 3) 1).event 0x1131 10 p (s.tileCtx p) (detailOf [(2, p), (1, k % 3), (2, hops)])
  if bitOf (s.reg 0x201000).toNat 20 then
    spillQueue p k ((s.tile p).router.held k) (s1.modTile p (fun t => t.modRegs (fun r => { r with fabSpillFull := false })))
  else s1

/-- Probe e loses against probe f, which reaches the same router in the same cycle (R188). -/
def probeBeaten (e f : Probe) : Bool := f.router == e.router && f.at_ == e.at_ && f.origin < e.origin

/-- PROBE (R188): the k-th probe under way arrives, and is forwarded, ends, or confirms its cycle. It comes for the lane of
the router that the head behind it waits on; of those that reach a router in one cycle, the one of the lowest origin is forwarded, and
the others end. -/
def execProbe (k : Nat) (s : State) : Host.Outcome State Fault Refusal :=
  .next (done s (
    match s.probes[k]? with
    | none => s
    | some e =>
      if s.clk < e.at_ then s
      else
        let lane := e.key % 3
        let s1 := { s with probes := s.probes.eraseIdx k }
        if e.router == e.origin && 3 * e.side + lane == e.key then confirmCycle s1 e.origin e.key e.hops
        else if e.hops ≥ 1024 || s1.probes.any (probeBeaten e) then s1
        else
          let s2 := { s1 with probes := s1.probes.filter (fun f => !(f.router == e.router && f.at_ == e.at_)) }
          if queueFull s e.router (3 * e.side + lane) then
            match waitsOn s e.router (sideOf e.side) lane with
            | some (.hop q d) =>
              { s2 with probes := s2.probes ++ [⟨e.origin, e.key, sideNo d, q, e.hops + 1, e.at_ + probeTime e.router q⟩] }
            | _ => s2
          else s2))

/-- A header with bit 121 set (R190). -/
def Msg.respilled (m : Msg) : Msg := m.put 121 1 1

/-- The oldest spilled load leaves the spill of router p (`TDBG_FBC[5]`). -/
def popSpill (s : State) (p : Nat) : State :=
  (s.modTile p (fun t => t.modRouter (fun q => { q with spill := q.spill.drop 1 }))).bumpTile p (bankFbc 5) 1

/-- The oldest spilled load of router p is replaced by what it has become. -/
def setSpill (s : State) (p : Nat) (l : Load) : State :=
  s.modTile p (fun t => t.modRouter (fun q => match q.spill with
    | [] => q
    | e :: r => { q with spill := { e with load := l } :: r }))

end Sys2Proof.Machine
end

