-- ==== Sys2Proof/Machine/Fmath.lean ====
section
/-! DEFINITION. The transcendental operations of Table 5.3 (R115): fixed-point evaluation to 400 fraction
bits, then one rounding for the rows marked correctly rounded. For the rows with an ulp bound, the spec
leaves the value open within the bound, and `Config.approx` picks it. -/

namespace Sys2Proof.Machine

/-- Fraction bits of the fixed-point evaluation. -/
def fxP : Nat := 400

/-- ln 2 with `fxP` fraction bits. -/
def fxLn2 : Nat :=
  0xb17217f7d1cf79abc9e3b39803f2f6af40f343267298b62d8a0d175b8baafa2be7b876206debac98559552fb4afa1b10ed2e

/-- pi with 640 fraction bits. -/
def fxPi640 : Nat :=
  0x3243f6a8885a308d313198a2e03707344a4093822299f31d0082efa98ec4e6c89452821e638d01377be5466cf34e90c6cc0ac29b7c97c50dd3f84d5b5b54709179216d5d98979fb1bd1310ba698dfb5ac

/-- Sum of r^k / k! from term `t` of index `k`, by fuel. -/
def fxExpGo : Nat → Int → Nat → Int → Int → Int
  | 0, _, _, _, acc => acc
  | n + 1, r, k, t, acc => fxExpGo n r (k + 1) (t * r / Int.ofNat (2 ^ fxP) / Int.ofNat k) (acc + t)

/-- 2^k and fraction of e^x: (k, e^r in fixed point), for |x| below 2^9 given in fixed point. -/
def fxExp (x : Int) : Int × Nat :=
  let k := x / Int.ofNat fxLn2
  let r := x - k * Int.ofNat fxLn2
  (k, (fxExpGo 100 r 1 (Int.ofNat (2 ^ fxP)) 0).toNat)

/-- Sum of z^(2k+1) / (2k+1), by fuel: atanh z. -/
def fxAtanhGo : Nat → Int → Int → Nat → Int → Int
  | 0, _, _, _, acc => acc
  | n + 1, zz, t, k, acc =>
    fxAtanhGo n zz (t * zz / Int.ofNat (2 ^ fxP)) (k + 2) (acc + t / Int.ofNat k)

/-- ln of y / 2^fxP, for y / 2^fxP between 3/4 and 3/2. -/
def fxLnNear (y : Nat) : Int :=
  let one := Int.ofNat (2 ^ fxP)
  let z := (Int.ofNat y - one) * one / (Int.ofNat y + one)
  2 * fxAtanhGo 160 (z * z / one) z 1 0

/-- ln (m * 2^e) in fixed point, m positive: e' * ln 2 + ln of the part near 1. -/
def fxLnParts (m : Nat) (e : Int) : Int × Int :=
  let l := m.log2
  let y := m * 2 ^ fxP / 2 ^ l
  if 2 * y ≥ 3 * 2 ^ fxP then (Int.ofNat l + e + 1, fxLnNear (y / 2)) else (Int.ofNat l + e, fxLnNear y)

/-- A nonzero fixed-point value that stands for an irrational number. -/
def fxVal (i : Int) : Fv := Fv.sticky (i < 0) i.natAbs true (-Int.ofNat fxP)

/-- A finite value in fixed point (exact for every FP32 value). -/
def fxOf (neg : Bool) (m : Nat) (e : Int) : Int :=
  let v := m * 2 ^ (e + Int.ofNat fxP).toNat
  if neg then -Int.ofNat v else Int.ofNat v

/-- e^a before rounding (Table 5.3). -/
def expF (a : Fv) : Fv :=
  match a with
  | .nan => .nan
  | .inf n => if n then .fin false 0 0 else .inf false
  | .fin n m e =>
    if m == 0 then .fin false 1 0
    else if a.ilog ≥ 8 then (if n then .fin false 1 (-400) else .fin false 1 400)
    else
      let p := fxExp (fxOf n m e)
      (Fv.sticky false p.2 true (-Int.ofNat fxP)).scale p.1

/-- 2^a before rounding. -/
def exp2F (a : Fv) : Fv :=
  match a with
  | .nan => .nan
  | .inf n => if n then .fin false 0 0 else .inf false
  | .fin n m e =>
    if m == 0 then .fin false 1 0
    else if a.ilog ≥ 9 then (if n then .fin false 1 (-400) else .fin false 1 400)
    else
      let x := fxOf n m e
      let one := Int.ofNat (2 ^ fxP)
      let k := x / one
      let f := x - k * one
      if f == 0 then .fin false 1 k
      else
        let p := fxExp (f * Int.ofNat fxLn2 / one)
        (Fv.sticky false p.2 true (-Int.ofNat fxP)).scale (p.1 + k)

/-- ln a before rounding. -/
def lnF (a : Fv) : Fv :=
  match a with
  | .nan => .nan
  | .inf n => if n then .nan else .inf false
  | .fin n m e =>
    if m == 0 then .inf true
    else if n then .nan
    else if Fv.cmp a (.fin false 1 0) == 0 then .fin false 0 0
    else
      let p := fxLnParts m e
      fxVal (p.1 * Int.ofNat fxLn2 + p.2)

/-- log2 a before rounding. -/
def log2F (a : Fv) : Fv :=
  match a with
  | .nan => .nan
  | .inf n => if n then .nan else .inf false
  | .fin n m e =>
    if m == 0 then .inf true
    else if n then .nan
    else if m == 2 ^ m.log2 then Fv.ofZ (Int.ofNat m.log2 + e)
    else
      let p := fxLnParts m e
      fxVal (p.1 * Int.ofNat (2 ^ fxP) + p.2 * Int.ofNat (2 ^ fxP) / Int.ofNat fxLn2)

/-- The FP32 magnitude bits just below or at a magnitude. -/
def mag32 (x : Fv) : Nat :=
  match x with
  | .fin _ m e => if m == 0 then 0 else fmtFp32.roundMag .rtz m e
  | _ => 0

/-- One of the FP32 values within `u` ulp of an irrational value `x`, as `Config.approx` picks (R115). -/
def withinUlp (op u : Nat) (a : W32) (x : Fv) : W32 :=
  let lo := mag32 x
  let cands := (List.range (2 * u)).map (fun i => lo + 1 + i - u)
  let pick := Config.approx op a % (2 * u)
  BitVec.ofNat 32 (fmtFp32.signBit x.signBit + min (cands.getD pick lo) 0x7F800000)

/-- An exact zero with an ulp bound: a zero of either sign or the least magnitude of either sign. -/
def zeroUlp (op : Nat) (a : W32) : W32 :=
  [0x00000000, 0x80000000, 0x00000001, 0x80000001].getD (Config.approx op a % 4) 0

/-- The value just inside `x` (towards 0): what tanh and sin give for a tiny argument. -/
def justBelow (n : Bool) (m : Nat) (e : Int) : Fv := .fin n (m * 2 ^ 80 - 1) (e - 80)

/-- 1 / (1 + e^-a) in fixed point. -/
def fxSigmoid (n : Bool) (m : Nat) (e : Int) : Fv :=
  if (Fv.fin n m e).ilog ≥ 8 then
    (if n then (expF (.fin n m e)) else .fin false (2 ^ 300 - 1) (-300))
  else
    let p := fxExp (fxOf (!n) m e)
    Fv.div (.fin false 1 0) (Fv.add (.fin false 1 0) ((Fv.fin false p.2 (-Int.ofNat fxP)).scale p.1))

/-- TANH (Table 5.3). -/
def tanh32 (a : W32) : W32 :=
  match d32 a with
  | .nan => nan32
  | .inf n => if n then 0xBF800000 else 0x3F800000
  | .fin n m e =>
    if m == 0 then a
    else if (Fv.fin n m e).ilog < -40 then withinUlp 0x28 1 a (justBelow n m e)
    else if (Fv.fin n m e).ilog ≥ 7 then withinUlp 0x28 1 a (.fin n (2 ^ 300 - 1) (-300))
    else
      let p := fxExp (2 * fxOf false m e)
      let t : Fv := (Fv.fin false p.2 (-Int.ofNat fxP)).scale p.1
      let v := Fv.div (Fv.add t (.fin true 1 0)) (Fv.add t (.fin false 1 0))
      withinUlp 0x28 1 a (if n then v.neg else v)

/-- SIGMOID (Table 5.3). -/
def sigmoid32 (a : W32) : W32 :=
  match d32 a with
  | .nan => nan32
  | .inf n => if n then 0 else 0x3F800000
  | .fin n m e =>
    if m == 0 then [0x3EFFFFFF, 0x3F000000, 0x3F000001].getD (Config.approx 0x29 a % 3) 0x3F000000
    else withinUlp 0x29 1 a (fxSigmoid n m e)

/-- SILU (Table 5.3). -/
def silu32 (a : W32) : W32 :=
  match d32 a with
  | .nan => nan32
  | .inf n => if n then 0x80000000 else 0x7F800000
  | .fin n m e =>
    if m == 0 then zeroUlp 0x2A a
    else withinUlp 0x2A 2 a (Fv.mul (.fin n m e) (fxSigmoid n m e))

/-- RSQRT (Table 5.3). -/
def rsqrt32 (a : W32) : W32 :=
  match d32 a with
  | .nan => nan32
  | .inf n => if n then nan32 else 0
  | .fin n m e =>
    if m == 0 then (if n then 0xFF800000 else 0x7F800000)
    else if n then nan32
    else withinUlp 0x23 1 a (Fv.div (.fin false 1 0) (Fv.sqrt (.fin n m e)))

/-- Taylor series of sin (k = 1) or cos (k = 0) of r, by fuel. -/
def fxTrigGo : Nat → Int → Nat → Int → Int → Int
  | 0, _, _, _, acc => acc
  | n + 1, rr, k, t, acc =>
    fxTrigGo n rr (k + 2) (-(t * rr / Int.ofNat (2 ^ fxP)) / Int.ofNat ((k + 1) * (k + 2))) (acc + t)

/-- Quadrant and remainder of a magnitude modulo pi / 2, with `fxP` fraction bits (full range reduction). -/
def fxReduce (m : Nat) (e : Int) : Nat × Int :=
  let h := fxPi640 / 2
  let x := m * 2 ^ (e + 640).toNat
  (x / h % 4, Int.ofNat (x % h / 2 ^ (640 - fxP)))

/-- sin or cos of quadrant `q` and remainder `r`. -/
def fxSin (q : Nat) (r : Int) : Int :=
  let rr := r * r / Int.ofNat (2 ^ fxP)
  let s := fxTrigGo 90 rr 1 r 0
  let c := fxTrigGo 90 rr 0 (Int.ofNat (2 ^ fxP)) 0
  match q % 4 with
  | 0 => s
  | 1 => c
  | 2 => -s
  | _ => -c

/-- SIN (Table 5.3). -/
def sin32 (a : W32) : W32 :=
  match d32 a with
  | .nan => nan32
  | .inf _ => nan32
  | .fin n m e =>
    if m == 0 then zeroUlp 0x2B a
    else if (Fv.fin n m e).ilog < -40 then withinUlp 0x2B 1 a (justBelow n m e)
    else
      let p := fxReduce m e
      let v := fxVal (fxSin p.1 p.2)
      withinUlp 0x2B 1 a (if n then v.neg else v)

/-- COS (Table 5.3). -/
def cos32 (a : W32) : W32 :=
  match d32 a with
  | .nan => nan32
  | .inf _ => nan32
  | .fin n m e =>
    if m == 0 then [0x3F7FFFFF, 0x3F800000, 0x3F800001].getD (Config.approx 0x2C a % 3) 0x3F800000
    else if (Fv.fin n m e).ilog < -40 then withinUlp 0x2C 1 a (.fin false (2 ^ 100 - 1) (-100))
    else
      let p := fxReduce m e
      withinUlp 0x2C 1 a (fxVal (fxSin (p.1 + 1) p.2))

/-- EXP, EXP2, LN, LOG2: the FP32 value nearest the exact result (R115). -/
def exp32 (a : W32) : W32 := r32 (expF (d32 a))
def exp2_32 (a : W32) : W32 := r32 (exp2F (d32 a))
def ln32 (a : W32) : W32 := r32 (lnF (d32 a))
def log2_32 (a : W32) : W32 := r32 (log2F (d32 a))

end Sys2Proof.Machine
end

