-- ==== Sys2Proof/Machine/Hash.lean ====
section
/-! DEFINITION. The three fixed functions of bytes and words that the spec names: SHA-256 (FIPS 180-4, R213),
CRC-32 of a Beytia block (R318) and Philox4x32-10 (R121). -/

namespace Sys2Proof.Machine

/-- Round constants of SHA-256. -/
def shaK : List W32 :=
  [0x428a2f98, 0x71374491, 0xb5c0fbcf, 0xe9b5dba5, 0x3956c25b, 0x59f111f1, 0x923f82a4, 0xab1c5ed5, 0xd807aa98, 0x12835b01, 0x243185be, 0x550c7dc3, 0x72be5d74, 0x80deb1fe, 0x9bdc06a7, 0xc19bf174] ++
  [0xe49b69c1, 0xefbe4786, 0x0fc19dc6, 0x240ca1cc, 0x2de92c6f, 0x4a7484aa, 0x5cb0a9dc, 0x76f988da, 0x983e5152, 0xa831c66d, 0xb00327c8, 0xbf597fc7, 0xc6e00bf3, 0xd5a79147, 0x06ca6351, 0x14292967] ++
  [0x27b70a85, 0x2e1b2138, 0x4d2c6dfc, 0x53380d13, 0x650a7354, 0x766a0abb, 0x81c2c92e, 0x92722c85, 0xa2bfe8a1, 0xa81a664b, 0xc24b8b70, 0xc76c51a3, 0xd192e819, 0xd6990624, 0xf40e3585, 0x106aa070] ++
  [0x19a4c116, 0x1e376c08, 0x2748774c, 0x34b0bcb5, 0x391c0cb3, 0x4ed8aa4a, 0x5b9cca4f, 0x682e6ff3, 0x748f82ee, 0x78a5636f, 0x84c87814, 0x8cc70208, 0x90befffa, 0xa4506ceb, 0xbef9a3f7, 0xc67178f2]

/-- Initial hash value of SHA-256. -/
def shaH0 : List W32 := [0x6a09e667, 0xbb67ae85, 0x3c6ef372, 0xa54ff53a, 0x510e527f, 0x9b05688c, 0x1f83d9ab, 0x5be0cd19]

/-- The message schedule, newest word first. -/
def shaSchedule : Nat → List W32 → List W32
  | 0, w => w
  | n + 1, w =>
    let w2 := w.getD 1 0
    let w15 := w.getD 14 0
    let s1 := (w2.rotateRight 17) ^^^ (w2.rotateRight 19) ^^^ (w2 >>> 10)
    let s0 := (w15.rotateRight 7) ^^^ (w15.rotateRight 18) ^^^ (w15 >>> 3)
    shaSchedule n ((s1 + w.getD 6 0 + s0 + w.getD 15 0) :: w)

/-- One round of SHA-256 on the eight working words. -/
def shaRound (v : List W32) (kw : W32 × W32) : List W32 :=
  match v with
  | [a, b, c, d, e, f, g, h] =>
    let s1 := (e.rotateRight 6) ^^^ (e.rotateRight 11) ^^^ (e.rotateRight 25)
    let ch := (e &&& f) ^^^ (~~~e &&& g)
    let t1 := h + s1 + ch + kw.1 + kw.2
    let s0 := (a.rotateRight 2) ^^^ (a.rotateRight 13) ^^^ (a.rotateRight 22)
    let mj := (a &&& b) ^^^ (a &&& c) ^^^ (b &&& c)
    [t1 + (s0 + mj), a, b, c, d + t1, e, f, g]
  | v => v

/-- The big-endian words of a 64-byte block. -/
def beWords : List Byte → List W32
  | a :: b :: c :: d :: t => BitVec.ofNat 32 (beNat [a, b, c, d]) :: beWords t
  | _ => []

/-- One block of SHA-256. -/
def shaBlock (h : List W32) (blk : List Byte) : List W32 :=
  let w := (shaSchedule 48 (beWords blk).reverse).reverse
  let v := (shaK.zip w).foldl shaRound h
  (h.zip v).map (fun p => p.1 + p.2)

/-- The blocks of a padded message, by fuel. -/
def shaGo : Nat → List W32 → List Byte → List W32
  | 0, h, _ => h
  | n + 1, h, bs => match bs with
    | [] => h
    | _ :: _ => shaGo n (shaBlock h (bs.take 64)) (bs.drop 64)

/-- SHA-256 of a list of bytes: 32 bytes, the first the most significant (FIPS 180-4). -/
def sha256 (bs : List Byte) : List Byte :=
  let n := bs.length
  let z := (119 - n % 64) % 64
  let msg := bs ++ (0x80 :: List.replicate z 0) ++ beBytes 8 (8 * n)
  (shaGo (msg.length / 64 + 1) shaH0 msg).flatMap (fun w => beBytes 4 w.toNat)

/-- One byte of the reflected CRC-32 (polynomial 0x04C11DB7, bits least significant first). -/
def crcByte (c : W32) (b : Byte) : W32 :=
  iter 8 (fun x => if x.getLsbD 0 then (x >>> 1) ^^^ 0xEDB88320 else x >>> 1) (c ^^^ b.zeroExtend 32)

/-- CRC-32 as in IEEE 802.3: starts from all ones and complements its result (R318). -/
def crc32 (bs : List Byte) : W32 := ~~~(bs.foldl crcByte 0xFFFFFFFF)

/-- One round of Philox4x32 (R121). -/
def philoxRound (s : W32 × W32 × W32 × W32 × W32 × W32) : W32 × W32 × W32 × W32 × W32 × W32 :=
  let (k0, k1, x0, x1, x2, x3) := s
  let p0 := 0xD2511F53 * x0.toNat
  let p1 := 0xCD9E8D57 * x2.toNat
  (k0 + 0x9E3779B9, k1 + 0xBB67AE85,
   BitVec.ofNat 32 (p1 / 2 ^ 32) ^^^ x1 ^^^ k0, BitVec.ofNat 32 p1,
   BitVec.ofNat 32 (p0 / 2 ^ 32) ^^^ x3 ^^^ k1, BitVec.ofNat 32 p0)

/-- The four words of one call (R121): seed of 48 bits, stream, domain, 64-bit counter. -/
def philox (seed stream domain n : Nat) : List W32 :=
  let k1 := (stream % 65536) * 65536 + fld seed 32 16
  let (_, _, a, b, c, d) := iter 10 philoxRound
    (BitVec.ofNat 32 seed, BitVec.ofNat 32 k1,
     BitVec.ofNat 32 n, BitVec.ofNat 32 (n / 2 ^ 32), BitVec.ofNat 32 domain, 0)
  [a, b, c, d]

/-- The 16-bit slice of element i in domain 0 (R122). -/
def slice16 (seed stream i : Nat) : Nat :=
  let w := (philox seed stream 0 (i / 8)).getD (i % 8 / 2) 0
  fld w.toNat (16 * (i % 2)) 16

/-- The 32-bit word of element i in domain 1 (R122). -/
def word32 (seed stream i : Nat) : W32 := (philox seed stream 1 (i / 4)).getD (i % 4) 0

end Sys2Proof.Machine
end

