-- ==== Sys2Proof/Machine/Engine.lean ====
section
/-! DEFINITION. What the engines share: the conversion stage (R75-R79, R82), the seed of a run (R121), the completion
of an issued operation (R50, R148, R197) and the frame of an operation at the front of its queue. -/

namespace Sys2Proof.Machine

/-- Seed of the run on a tile (R121). -/
def State.seed (s : State) (p : Nat) : Nat := ((s.tileRun p).map (·.seed)).getD 0

/-! ## Conversion stage -/

/-- What the conversion stage hands on: encoded elements, scale bytes, histogram bins. -/
structure Converted where
  elems : List Nat
  scales : List Nat
  bins : List Nat

/-- Rounding of the element with a logical index (R75, R79). -/
def rndAt (conv seed i : Nat) : Rnd :=
  if convRnd conv == 0 then .rne else if convRnd conv == 1 then .rtz else .stoch (slice16 seed (convStream conv) i)

/-- One element of a scalar format; `fl` flushes BF16 and FP16 results (R73). -/
def convScalar (conv seed i : Nat) (fl : Bool) (v : Fv) : Nat × Nat :=
  let c := convFmt conv
  let e := encElem c (rndAt conv seed i) (convNan conv) v
  match fmtLayout c with
  | some f =>
    if fl && (c == 1 || c == 2) && flushed f (f.dec e) then (f.signBit (f.dec e).signBit, histBin true (flush f (f.dec e)))
    else (e, histBin false (f.dec e))
  | none => (e, histBin false (decElem c e))

/-- Blocks of a block format, in order. -/
def convBlocks (conv seed : Nat) : Nat → Nat → List Fv → Converted
  | 0, _, _ => ⟨[], [], []⟩
  | k + 1, i, vs =>
    let c := convFmt conv
    let n := fmtBlock c
    let b := encBlock c (fun j => rndAt conv seed (i + j)) (convNan conv) (vs.take n)
    let r := convBlocks conv seed k (i + n) (vs.drop n)
    ⟨b.2 ++ r.elems, b.1 :: r.scales, b.2.map (fun e => histBin false (decScaled c e b.1)) ++ r.bins⟩

/-- Conversion of a run of values whose logical indices count from i. -/
def convert (conv seed i : Nat) (fl : Bool) (vs : List Fv) : Converted :=
  if fmtIsBlock (convFmt conv) then convBlocks conv seed (vs.length / fmtBlock (convFmt conv)) i vs
  else
    let es := (vs.zip (List.range vs.length)).map (fun e => convScalar conv seed (i + e.2) fl e.1)
    ⟨es.map (·.1), [], es.map (·.2)⟩

/-- The packed elements, and the scale bytes. -/
def Converted.bytes (x : Converted) (fmt : Nat) : List Byte := packElems fmt x.elems
def Converted.scaleBytes (x : Converted) : List Byte := x.scales.map (BitVec.ofNat 8)

/-- The histogram counts of a write to tile store (R82). -/
def countConv (s : State) (p conv : Nat) (bins : List Nat) : State :=
  if convHist conv && !fmtIsInt (convFmt conv) then s.modTile p (fun t => t.count (convSet conv) bins) else s

/-- Generator calls for n elements from logical index i, `per` elements a call (R122, R124). -/
def genCalls (i n per : Nat) : Nat := if n == 0 then 0 else (i + n - 1) / per - i / per + 1

/-- The calls of a stochastic conversion are counted. -/
def countCalls (s : State) (p conv i n : Nat) : State :=
  if convRnd conv == 2 then s.bumpTile p (bankVrc 2) (genCalls i n 8) else s

/-! ## Results that leave as messages -/

/-- A result of a streamed firing (R109, R117, R247): data, or steer when the firing consumed a steer token; a steer
message on a home route goes to the tile its tag names. -/
def sendResult (s : State) (p u dest tag : Nat) (steer bad : Bool) (pay : List Byte) : State :=
  let d := if steer && fld dest 27 4 == 15 then tileDest (tag % 1024) 7 (fld dest 31 3) else dest
  s.modTile p (fun t => t.emit u (mkMsg d tag t.sect.gen.toNat (if steer then 5 else 0) bad
    (padTo (alignUp (max 1 pay.length) 64) pay)))

/-- A result in messages of at most 4,096 B, in order (R117). -/
def sendLong (s : State) (p u dest tag : Nat) (steer bad : Bool) (pay : List Byte) : State :=
  (List.range (max 1 ((pay.length + 4095) / 4096))).foldl (fun x i =>
    sendResult x p u dest tag steer bad ((pay.drop (4096 * i)).take 4096)) s

/-- A streamed firing that fails a check of its tokens sends nothing (R117). -/
def firingFailed (s : State) (p u : Nat) : State := s.onceEvent p u 0x3141 1 (detailOf [(1, u)])

/-! ## Operand reads -/

/-- Absolute byte ranges of accesses, one per byte run; a basin may wrap, so the range is cut at its end. -/
def accessRange (t : Tile) (swaps : Nat) (st : Stream) (a : Int) (n : Nat) : List (Nat × Nat) :=
  let lo := streamAddr t swaps st a
  if st.mode == 1 then
    let d := t.basinDecl st.sel
    let e := declBase d + declSize d
    if lo + n ≤ e then [(lo, n)] else [(lo, e - lo), (declBase d, lo + n - e)]
  else [(lo, n)]

/-- The address of a companion array beside an address of its element stream (R91). -/
def companion (st : Stream) (a : Int) (unit comp cu : Nat) : Int :=
  Int.ofNat comp + (a - Int.ofNat st.base) / Int.ofNat unit * Int.ofNat cu

/-- A companion stream: same origin, narrow. -/
def Stream.narrow (st : Stream) : Stream := { st with wide := false }

/-! ## Completion of an issued operation -/

/-- What R148 takes off each basin that the operation's inputs addressed in mode 1: the largest span, in whole words. -/
def basinAdvances (t : Tile) (u : Nat) (l : List Byte) (ins : List (Nat × Nat)) : List (Nat × Nat) :=
  (List.range 64).filterMap (fun b =>
    let hit := ins.filter (fun e =>
      let st := loopStream l e.1
      st.enabled && st.mode == 1 && st.sel == b)
    let d := t.basinDecl b
    if hit.isEmpty || declConsumer d != u then none
    else some (b, hit.foldl (fun m e =>
      let f := footprint l e.1 e.2
      max m (alignUp (f.2 - f.1 + 1).toNat 64)) 0))

/-- An issued operation of unit u whose results all lie in the tile store has completed. `ins` names the input streams with the
bytes of one access. -/
def completeOp (s : State) (p u : Nat) (op : Op) (l : List Byte) (ins : List (Nat × Nat)) : State :=
  completeWith s p u op (basinAdvances (s.tile p) u l ins)

/-- An issued operation whose results leave as messages has sent them: it completes once the last has left egress (R197,
R244). -/
def completeSent (s : State) (p u : Nat) (op : Op) (l : List Byte) (ins : List (Nat × Nat)) : State :=
  let adv := basinAdvances (s.tile p) u l ins
  if (s.tile p).resultsOut u then s.modTile p (fun t => t.setQueue u ({ op with out := some adv } :: (t.queue u).drop 1))
  else completeWith s p u op adv

/-- The operation at the front of a unit's queue that has not run yet, on a tile that runs. -/
def frontOp (s : State) (n u : Nat) : Option (Nat × Op) :=
  let p := s.phys n
  let t := s.tile p
  if n < s.ntiles && t.live then
    match t.queue u with
    | o :: _ => if o.out.isSome then none else some (p, o)
    | [] => none
  else none

/-- The frame of an issued operation: `ok` tells it by its descriptor, `reads` lists the bytes it reads, `body` has its
effect, `ins` its input streams, and `ends` completes it. An error met on the way stops the run before the effect (R155,
R369). -/
def runOpWith (ends : State → Nat → Nat → Op → List Byte → List (Nat × Nat) → State) (s : State) (n u : Nat)
    (ok : List Byte → Bool) (upset : Option Upset)
    (reads : State → Nat → Op → List Byte → List Byte → List (Nat × Nat))
    (ins : List Byte → List Byte → List (Nat × Nat))
    (body : State → Nat → Op → List Byte → List Byte → State) : State :=
  match frontOp s n u with
  | none => s
  | some (p, op) =>
    let d := (s.tile p).desc op.desc
    let l := (s.tile p).loopT op.loop
    if ok d then
      let (s1, go) := meet s p upset (reads s p op d l)
      if go then ends (body s1 p op d l) p u op l (ins d l) else s1
    else s

/-- An issued operation whose results lie in the tile store. -/
abbrev runOp := runOpWith completeOp

/-- An issued operation that sends messages. -/
abbrev runSending := runOpWith completeSent

end Sys2Proof.Machine
end

