-- ==== Sys2Proof/Machine/Matrix.lean ====
section
/-! DEFINITION. The matrix engine (04): block sums (R71-R74), MMA in issued and streamed mode (R85-R103, R109, R110) and
ATTN (R104-R110). -/

namespace Sys2Proof.Machine

/-! ## Block arithmetic -/

/-- Flush of an FP32 value (R73). -/
def flush32 (w : W32) : W32 := r32 (flush fmtFp32 (d32 w))

/-- An FP32 result, with whether it is a zero that a flush of R73 produced: such a zero, written, counts in bin 65 (R82). A zero that
comes of one through exact arithmetic is of its kind (log 53). -/
structure Fz where
  w : W32
  fz : Bool
deriving DecidableEq, Repr

/-- A word that no flush made. -/
def Fz.of (w : W32) : Fz := ⟨w, false⟩
def Fz.val (x : Fz) : Fv := d32 x.w

/-- One rounding to FP32, then the flush (R73); `fz` tells that an operand is a zero that a flush made. -/
def Fz.round (fz : Bool) (x : Fv) : Fz :=
  let v := d32 (r32 x)
  if flushed fmtFp32 v then ⟨r32 (flush fmtFp32 v), true⟩ else ⟨r32 x, fz && v.isZero⟩

def madd (a b : Fz) : Fz := Fz.round (a.fz || b.fz) (Fv.add a.val b.val)
def mmul (a b : Fz) : Fz := Fz.round (a.fz || b.fz) (Fv.mul a.val b.val)
def mdiv (a b : Fz) : Fz := Fz.round a.fz (Fv.div a.val b.val)

/-- An operand element with its scale; BF16 and FP16 subnormals read as zero (R68, R73). -/
def operand (c w scale : Nat) : Fv :=
  match c with
  | 1 => flush fmtBf16 (fmtBf16.dec w)
  | 2 => flush fmtFp16 (fmtFp16.dec w)
  | _ => decScaled c w scale

/-- Exact sum of the products of a block (R71, R72). -/
def blockSum : List Fv → Fv
  | [] => .fin false 0 0
  | x :: t => t.foldl Fv.add x

/-- One block added to an accumulator entry: one rounding, then the flush (R71). -/
def accBlock (acc : Fz) (s : Fv) : Fz := Fz.round acc.fz (Fv.add acc.val s)

/-! ## MMA -/

/-- Block size of a product (R71). -/
def prodBlock (a b : Nat) : Nat := min (sumBlock a) (sumBlock b)

/-- Block of A that the zero test of R102 takes. -/
def zeroBlock (a b : Nat) : Nat := if fmtIsBlock a then fmtBlock a else prodBlock a b

/-- One chunk of an A row: elements, scale bytes, and the blocks of the zero test that carry poison. -/
structure AChunk where
  elems : List Nat
  scales : List Nat
  bads : List Nat

/-- Poison anywhere in a chunk (R110). -/
def AChunk.bad (x : AChunk) : Bool := !x.bads.isEmpty

def AChunk.val (x : AChunk) (a i : Nat) : Fv := operand a (x.elems.getD i 0) (x.scales.getD (i / fmtBlock a) 0)

/-- An element encoding is +0 or -0 (R102). -/
def zeroCode (c w : Nat) : Bool := if c == 0x0D then w == 0 else w % 2 ^ (fmtBits c - 1) == 0

/-- Block j of the chunk is zero: never with a scale 0xFF or with poison of its own (R102). -/
def AChunk.zero (x : AChunk) (a bs j : Nat) : Bool :=
  !x.bads.contains j && (List.range bs).all (fun i => zeroCode a (x.elems.getD (j * bs + i) 0)) &&
    (!fmtIsBlock a || x.scales.getD (j * bs / fmtBlock a) 0 != 0xFF)

/-- The chunk of A that an access of stream 0 reads. -/
def aChunkAt (s : State) (p swaps : Nat) (d : List Byte) (st : Stream) (a : Int) : AChunk :=
  let f := mmaA d
  let ce := chunkElems f
  let cu := ce / fmtBlock f
  let sc := companion st a 256 (mmaAScale d) cu
  let zb := zeroBlock f (mmaB d)
  let eb := zb * fmtBits f / 8
  { elems := unpack f (readStream s p swaps st a 256) ce
    scales := if fmtIsBlock f then (readStream s p swaps st sc cu).map BitVec.toNat else []
    bads := if s.mem.poison.isEmpty then [] else (List.range (ce / zb)).filter (fun j =>
      streamPoison s p swaps st (a + Int.ofNat (j * eb)) eb || (fmtIsBlock f && streamPoison s p swaps st (sc + Int.ofNat j) 1)) }

/-- Position within the chunk of the i-th stored element of a column under its metadata bytes (R100). -/
def storedPos (sparse : Nat) (md : List Byte) (i : Nat) : Nat :=
  if sparse == 1 then
    let g := i / 2
    4 * g + fld ((md.getD (g / 2) 0).toNat) (4 * (g % 2) + 2 * (i % 2)) 2
  else if sparse == 2 then 4 * i + fld ((md.getD (i / 4) 0).toNat) (2 * (i % 4)) 2
  else i

/-- Stored elements of a column that belong to `bs` dense positions. -/
def storedPer (sparse bs : Nat) : Nat := if sparse == 1 then bs / 2 else if sparse == 2 then bs / 4 else bs

/-- Addresses of a column of a panel: elements, scales, metadata, with their lengths. -/
def colRuns (d : List Byte) (st : Stream) (a : Int) (c : Nat) : List (Int × Nat) :=
  let f := mmaA d
  let b := mmaB d
  let ce := chunkElems f
  let pb := panelBytes f b (mmaSparse d)
  let eb := panelElems f (mmaSparse d) * fmtBits b / 8
  let nb := ce / fmtBlock b
  let mb := metaBytes f (mmaSparse d) / 64
  [(a + Int.ofNat (c * eb), eb)] ++
  (if fmtIsBlock b then [(companion st a pb (mmaBScale d) (64 * nb) + Int.ofNat (c * nb), nb)] else []) ++
  (if mmaSparse d != 0 then [(companion st a pb (mmaMeta d) (64 * mb) + Int.ofNat (c * mb), mb)] else [])

/-- The part of a column that block j of the zero test meets: its elements, their scales, their metadata. -/
def blockRuns (d : List Byte) (st : Stream) (a : Int) (c j : Nat) : List (Int × Nat) :=
  let b := mmaB d
  let zb := zeroBlock (mmaA d) b
  let per := storedPer (mmaSparse d) zb * fmtBits b / 8
  let nb := fmtBlock b
  let mb := if mmaSparse d == 1 then zb / 8 else zb / 16
  let part (lo n : Nat) (r : Int × Nat) : Int × Nat := (r.1 + Int.ofNat lo, n)
  let runs := colRuns d st a c
  let cut := [part (j * per) per] ++ (if fmtIsBlock b then [part (j * zb / nb) (max 1 (zb / nb))] else []) ++
    (if mmaSparse d != 0 then [part (j * mb) mb] else [])
  (cut.zip runs).map (fun e => e.1 e.2)

/-- The stored elements of a column with the positions they meet (R101). -/
def bColumn (s : State) (p swaps : Nat) (d : List Byte) (st : Stream) (a : Int) (c : Nat) : List (Nat × Fv) :=
  let b := mmaB d
  let n := panelElems (mmaA d) (mmaSparse d)
  let rd (i : Nat) := match (colRuns d st a c)[i]? with
    | some r => readStream s p swaps st r.1 r.2
    | none => []
  let es := unpack b (rd 0) n
  let sc := if fmtIsBlock b then rd 1 else []
  let md := if mmaSparse d == 0 then [] else if fmtIsBlock b then rd 2 else rd 1
  (es.zip (List.range n)).map (fun e =>
    let pos := storedPos (mmaSparse d) md e.2
    (pos, operand b e.1 ((sc.getD (pos / fmtBlock b) 0).toNat)))

/-- One accumulator entry after a chunk: its blocks in ascending order, zero blocks left out under zskip (R74, R103). -/
def accChunk (d : List Byte) (x : AChunk) (col : List (Nat × Fv)) (acc : Fz) : Fz :=
  let f := mmaA d
  let bs := prodBlock f (mmaB d)
  let zb := zeroBlock f (mmaB d)
  let per := storedPer (mmaSparse d) bs
  (List.range (chunkElems f / bs)).foldl (fun a j =>
    if mmaZskip d && x.zero f zb (j * bs / zb) then a
    else
      let ps := ((col.drop (j * per)).take per).map (fun e => Fv.mul (x.val f e.1) e.2)
      accBlock a (blockSum (if mmaSparse d == 0 then ps else ps ++ [.fin false 0 0]))) acc

/-- The blocks of a chunk that are read for a row. -/
def readBlocks (d : List Byte) (x : AChunk) : List Nat :=
  let f := mmaA d
  let zb := zeroBlock f (mmaB d)
  (List.range (chunkElems f / zb)).filter (fun j => !(mmaZskip d && x.zero f zb j))

/-- Poison of a panel met by a row that reads these blocks of it, elements and companions (R110). -/
def panelBad (s : State) (p swaps : Nat) (d : List Byte) (st : Stream) (a : Int) (blocks : List Nat) : Bool :=
  !s.mem.poison.isEmpty && (List.range 64).any (fun c => blocks.any (fun j =>
    (blockRuns d st a c j).any (fun r => streamPoison s p swaps st r.1 r.2)))

/-- Epilogue functions (Table 4.7), each operation rounded and flushed. -/
def c044715 : Fz := .of (r32 (Fv.div (Fv.ofZ 44715) (Fv.ofZ 1000000)))
def c0797885 : Fz := .of (r32 (Fv.div (Fv.ofZ 797885) (Fv.ofZ 1000000)))
def one32 : Fz := .of 0x3F800000
def half32 : Fz := .of 0x3F000000
/-- A function of Table 5.3 in the matrix engine (R94): its FP32 result, flushed. -/
def mfun (f : W32 → W32) (x : Fz) : Fz := Fz.round x.fz (d32 (f x.w))
def msilu (v : Fz) : Fz := mdiv v (madd one32 (mfun exp32 ⟨v.w ^^^ 0x80000000, v.fz⟩))
def mgelu (v : Fz) : Fz :=
  let v3 := mmul (mmul v v) v
  let t := mfun tanh32 (mmul c0797885 (madd v (mmul c044715 v3)))
  mmul (mmul half32 v) (madd one32 t)

/-- A value of a row segment, with whether poison reaches it. -/
abbrev Cell := Fz × Bool

def epiFunc (func : Nat) (v : List Cell) : List Cell :=
  let at_ (j : Nat) : Cell := v.getD j (.of 0, false)
  match func with
  | 1 => v.map (fun x => (⟨fmax x.1.w 0, x.1.fz⟩, x.2))
  | 2 => v.map (fun x => (msilu x.1, x.2))
  | 3 => v.map (fun x => (mgelu x.1, x.2))
  | 4 => (List.range 32).map (fun j => (mmul (msilu (at_ j).1) (at_ (j + 32)).1, (at_ j).2 || (at_ (j + 32)).2))
  | _ => v

/-- The 64 values of stream 3 for a row segment as FP32: bias, residual, or initial values. Subnormal FP32, BF16 and FP16 inputs read
as zero of their sign (R73, Table 3.4). -/
def stream3Vals (fmt : Nat) (bs : List Byte) : List W32 := (unpack fmt bs 64).map (fun w => flush32 (r32 (operand fmt w 127)))

/-- The values at a point of stream 3, each with the poison of the granules it lies in (R110). -/
def stream3At (s : State) (p swaps : Nat) (st : Stream) (a : Int) (fmt : Nat) : List Cell :=
  let eb := fmtBits fmt / 8
  ((stream3Vals fmt (readStream s p swaps st a (64 * eb))).zip (List.range 64)).map (fun e =>
    (.of e.1, !s.mem.poison.isEmpty && streamPoison s p swaps st (a + Int.ofNat (e.2 * eb)) eb))

/-- A row segment through the epilogue (R93). -/
def epiSegment (d : List Byte) (acc : List Cell) (extra : List Cell) : List Cell :=
  let sc := acc.map (fun x => (mmul x.1 (.of (flush32 (mmaScale d))), x.2))
  epiFunc (mmaFunc d) (if mmaAdd d == 0 then sc else (sc.zip extra).map (fun e => (madd e.1.1 e.2.1, e.1.2 || e.2.2)))

/-- The accumulator entry of a point (R92). -/
def accEntry (d : List Byte) (b2 m n c : Nat) : Nat := mmaAccBase d * 64 + (m * b2 + n) * 64 + c

/-- The address of stream k of an MMA at a point. -/
def mmaAddr (l : List Byte) (k : Nat) (pt : List Nat) : Int := pointAddr (loopStream l k) k (loopLevels l) pt

/-- The accumulator values at which a row segment starts (R92). An entry that an earlier operation left carries no poison and no flush
with it (logs 53, 54). -/
def mmaStart (s : State) (p swaps : Nat) (d l : List Byte) (pt : List Nat) : List Cell :=
  let b2 := ((loopLevels l).getD 2 ⟨0, 0, []⟩).bound
  match mmaInit d with
  | 0 => List.replicate 64 (.of 0, false)
  | 1 => (List.range 64).map (fun c => (.of (agetD (s.tile p).acc (accEntry d b2 (pt.getD 1 0) (pt.getD 2 0) c) 0), false))
  | _ => stream3At s p swaps (loopStream l 3) (mmaAddr l 3 pt) 0

/-- The row segment that a point (m, n, batch) ends with: accumulator values, and whether poison reaches them (R110). `chunk` gives
the k-th chunk of the row. -/
def mmaRow (s : State) (p swaps : Nat) (d l : List Byte) (pt : List Nat) (chunk : Nat → AChunk) : List Cell :=
  let st1 := loopStream l 1
  (List.range ((loopLevels l).getD 0 ⟨0, 0, []⟩).bound).foldl (fun (a : List Cell) k =>
    let x := chunk k
    let addr := mmaAddr l 1 (pt.set 0 k)
    let blocks := readBlocks d x
    let bad := x.bad || panelBad s p swaps d st1 addr blocks
    (a.zip (List.range 64)).map (fun e =>
      (if blocks.isEmpty then e.1.1 else accChunk d x (bColumn s p swaps d st1 addr e.2) e.1.1, e.1.2 || bad)))
    (mmaStart s p swaps d l pt)

/-- Accumulator values written back (R92). An entry beyond 65,535, which only a streamed firing can name, is kept too (log 55). -/
def storeAcc (s : State) (p : Nat) (d l : List Byte) (pt : List Nat) (vs : List W32) : State :=
  let b2 := ((loopLevels l).getD 2 ⟨0, 0, []⟩).bound
  s.modTile p (fun t => { t with acc := (vs.zip (List.range 64)).foldl (fun a e =>
    awrite 0 a (accEntry d b2 (pt.getD 1 0) (pt.getD 2 0) e.2) e.1) t.acc })

/-- The extra operand of the epilogue at a point. -/
def mmaExtra (s : State) (p swaps : Nat) (d l : List Byte) (pt : List Nat) : List Cell :=
  if mmaAdd d == 0 then []
  else stream3At s p swaps (loopStream l 3) (mmaAddr l 3 pt) (if mmaAdd d == 2 then mmaAddFmt d else 0)

/-- Number of a batch iteration (R95): the batch levels from the fastest on. -/
def batchNo (ls : List Level) (pt : List Nat) : Nat :=
  let on := ((ls.zip pt).drop 3).filter (fun e => e.1.on)
  on.foldl (fun a e =>
    let faster := on.filter (fun f => f.1.order < e.1.order)
    a + e.2 * faster.foldl (fun x f => x * f.1.bound) 1) 0

/-- Logical index of the first element of a row segment (R95). -/
def mmaIndex (d : List Byte) (ls : List Level) (rows : Nat) (pt : List Nat) : Nat :=
  let w := (ls.getD 2 ⟨0, 0, []⟩).bound * segCols (mmaFunc d)
  (batchNo ls pt * rows + pt.getD 1 0) * w + pt.getD 2 0 * segCols (mmaFunc d)

/-- Bins of written elements: a zero that a flush made counts in bin 65 (R82). -/
def flushBins (bins : List Nat) (fz : List Bool) : List Nat := (bins.zip fz).map (fun e => if e.1 == 64 && e.2 then 65 else e.1)

/-- Conversion of FP32 results of the matrix engine (R73, R75-R79, R82). -/
def convertFz (conv seed i : Nat) (vs : List Fz) : Converted :=
  let c := convert conv seed i true (vs.map Fz.val)
  { c with bins := flushBins c.bins (vs.map (·.fz)) }

/-- Converted row segment of a point, from its epilogue values. -/
def mmaConvert (s : State) (p : Nat) (d l : List Byte) (pt : List Nat) (ys : List Cell) : Converted :=
  let ls := loopLevels l
  convertFz (mmaConv d) (s.seed p) (mmaIndex d ls (ls.getD 1 ⟨1, 0, []⟩).bound pt) (ys.map (·.1))

/-- Positions that poison reaches. -/
def badCells (ys : List Cell) : List Nat :=
  ((ys.zip (List.range ys.length)).filter (fun e => e.1.2)).map (·.2)

/-- The points of the row segments, in loop order: the k level stands at its first iteration. -/
def segPoints (l : List Byte) : List (List Nat) :=
  let ls := loopLevels l
  loopPoints (ls.set 0 { (ls.getD 0 ⟨1, 0, []⟩) with bound := 1 })

/-- The output tiles of an operation, in order (Table 4.5): the batch iterations of its row segments. -/
def outTiles (l : List Byte) : List (List Nat) :=
  (segPoints l).foldl (fun a pt => if a.contains (pt.drop 3) then a else a ++ [pt.drop 3]) []

/-- The row segment of a point of an issued MMA. -/
def issuedRow (s : State) (p swaps : Nat) (d l : List Byte) (pt : List Nat) : List Cell :=
  mmaRow s p swaps d l pt (fun k => aChunkAt s p swaps d (loopStream l 0) (mmaAddr l 0 (pt.set 0 k)))

/-- The epilogue of one row segment and its write (R93, R110). The scale bytes of a block output carry no mark (log 54). -/
def mmaWriteSeg (p swaps : Nat) (d l : List Byte) (s : State) (e : List Nat × List Cell) : State :=
  let pt := e.1
  let ls := loopLevels l
  let ys := epiSegment d e.2 (mmaExtra s p swaps d l pt)
  let c := mmaConvert s p d l pt ys
  let fmt := convFmt (mmaConv d)
  let sb := segBytes (mmaFunc d) fmt
  let st := loopStream l 2
  let a := mmaAddr l 2 pt
  let s1 := writeMarked s p swaps st a (c.bytes fmt) (eltOffsets (fmtBits fmt) (badCells ys))
  let s2 := if fmtIsBlock fmt then
      writeStream s1 p swaps st.narrow (companion st a sb (mmaCScale d) (segCols (mmaFunc d) / fmtBlock fmt)) c.scaleBytes false
    else s1
  countConv (countCalls s2 p (mmaConv d) (mmaIndex d ls (ls.getD 1 ⟨1, 0, []⟩).bound pt) (segCols (mmaFunc d))) p (mmaConv d) c.bins

/-- One output tile of an issued MMA: every row segment is accumulated and kept, and the epilogue runs after the last chunk when
write = 1 (R92, R93). -/
def mmaTile (p swaps : Nat) (d l : List Byte) (s : State) (pts : List (List Nat)) : State :=
  let rows := pts.map (fun pt => (pt, issuedRow s p swaps d l pt))
  let s1 := rows.foldl (fun x r => storeAcc x p d l r.1 (r.2.map (·.1.w))) s
  if mmaWrite d then rows.foldl (mmaWriteSeg p swaps d l) s1 else s1

/-- Dense elements of one pass (R84, R96). -/
def passElems (d : List Byte) : Nat :=
  let a := mmaA d
  let b := mmaB d
  (if a == 1 || a == 2 || b == 1 || b == 2 then 16 else if fmtBits a ≥ 6 || fmtBits b ≥ 6 then 64 else 128) *
    (if mmaSparse d == 0 then 1 else 2)

/-- Counts of skipped A blocks, skipped passes (R103) at one chunk of one row. -/
def skipCounts (d : List Byte) (x : AChunk) : Nat × Nat :=
  let f := mmaA d
  let zb := zeroBlock f (mmaB d)
  let pe := passElems d
  if mmaZskip d then
    (((List.range (chunkElems f / zb)).filter (x.zero f zb)).length,
     ((List.range (chunkElems f / pe)).filter (fun i =>
       (List.range ((pe + zb - 1) / zb)).all (fun j => x.zero f zb (i * pe / zb + j)))).length)
  else (0, 0)

/-- The panel steps in loop order, each the points of its rows: with the row level innermost a step covers every row, otherwise each
point is a step. -/
def panelSteps (l : List Byte) : List (List (List Nat)) :=
  let ls := loopLevels l
  let row := ls.getD 1 ⟨1, 0, []⟩
  if row.order == 0 then
    (loopPoints (ls.set 1 { row with bound := 1 })).map (fun pt => (List.range row.bound).map (fun m => pt.set 1 m))
  else (loopPoints ls).map (fun pt => [pt])

/-- The blocks of the step's panel that some row reads (R74, R103). `chunk` gives the chunk of A of a point. -/
def stepBlocks (d : List Byte) (chunk : List Nat → AChunk) (pts : List (List Nat)) : List Nat :=
  (List.range (chunkElems (mmaA d) / zeroBlock (mmaA d) (mmaB d))).filter (fun j => pts.any (fun pt => (readBlocks d (chunk pt)).contains j))

/-- Panels not read (R103) and panels used again (R97): the address of the last step, and whether its panel stands in a buffer. -/
def panelCounts (d l : List Byte) (chunk : List Nat → AChunk) : Nat × Nat :=
  ((panelSteps l).foldl (fun (x : (Nat × Nat) × Option (Int × Bool)) pts =>
    let a := mmaAddr l 1 (pts.headD [])
    let held := x.2 == some (a, true)
    if (stepBlocks d chunk pts).isEmpty then ((x.1.1 + 1, x.1.2), some (a, held))
    else ((x.1.1, x.1.2 + b2n held), some (a, true))) ((0, 0), none)).1

/-- The event counters of Table 4.9 that an MMA raises. -/
def mmaCount (s : State) (p : Nat) (d l : List Byte) (chunk : List Nat → AChunk) : State :=
  let n := (loopPoints (loopLevels l)).foldl (fun (a : Nat × Nat) pt =>
    let c := skipCounts d (chunk pt)
    (a.1 + c.1, a.2 + c.2)) (0, 0)
  let q := panelCounts d l chunk
  s.modTile p (fun t => (((t.bump (bankMxc 2) n.1).bump (bankMxc 3) n.2).bump (bankMxc 4) q.1).bump (bankMxc 5) q.2)

/-- The chunk of A at a point of an issued MMA. -/
def issuedChunk (s : State) (p swaps : Nat) (d l : List Byte) (pt : List Nat) : AChunk :=
  aChunkAt s p swaps d (loopStream l 0) (mmaAddr l 0 pt)

/-- An issued MMA (R92, R93), one output tile after another (log 56). -/
def mmaBody (s : State) (p : Nat) (op : Op) (d l : List Byte) : State :=
  (outTiles l).foldl (fun x b => mmaTile p op.swaps d l x ((segPoints l).filter (fun pt => pt.drop 3 == b)))
    (mmaCount s p d l (issuedChunk s p op.swaps d l))

/-- What an MMA reads of its panels and of stream 3: no weights of a block that every row of the step skips (R74, R103). -/
def mmaPanelReads (s : State) (p swaps : Nat) (d l : List Byte) (chunk : List Nat → AChunk) : List (Nat × Nat) :=
  let t := s.tile p
  let r (k : Nat) (a : Int) (n : Nat) := accessRange t swaps (loopStream l k) a n
  (panelSteps l).flatMap (fun pts =>
    let a1 := mmaAddr l 1 (pts.headD [])
    (stepBlocks d chunk pts).flatMap (fun j => (List.range 64).flatMap (fun c =>
      (blockRuns d (loopStream l 1) a1 c j).flatMap (fun e => r 1 e.1 e.2)))) ++
  (if mmaUses3 d then (segPoints l).flatMap (fun pt => r 3 (mmaAddr l 3 pt) (mmaRun3 d)) else [])

/-- What an issued MMA reads. -/
def mmaReads (s : State) (p : Nat) (op : Op) (d l : List Byte) : List (Nat × Nat) :=
  let f := mmaA d
  let cu := chunkElems f / fmtBlock f
  let r (a : Int) (n : Nat) := accessRange (s.tile p) op.swaps (loopStream l 0) a n
  (loopPoints (loopLevels l)).flatMap (fun pt =>
    let a0 := mmaAddr l 0 pt
    r a0 256 ++ (if fmtIsBlock f then r (companion (loopStream l 0) a0 256 (mmaAScale d) cu) cu else [])) ++
  mmaPanelReads s p op.swaps d l (issuedChunk s p op.swaps d l)

/-- The input streams of an MMA with the bytes of one access (R90 item 6). -/
def mmaIns (d _l : List Byte) : List (Nat × Nat) :=
  [(0, 256), (1, panelBytes (mmaA d) (mmaB d) (mmaSparse d)), (3, mmaRun3 d)]

/-- MMA at the front of the matrix engine's queue. -/
def execMma (t : BitVec 10) (upset : Option Upset) (s : State) : Host.Outcome State Fault Refusal :=
  .next (done s (runOp s t.toNat 1 (fun d => leAt d 1 1 == 1) upset mmaReads mmaIns mmaBody))

/-! ## ATTN -/

/-- A page-list entry (R105). -/
structure PageEnt where
  off : Nat
  count : Nat
  first : Nat
  valid : Bool

/-- The page lies wholly in a declared basin or a buffer-pair half of the tile. -/
def pageInside (t : Tile) (swaps off : Nat) : Bool :=
  (List.range 64).any (fun b =>
    let d := t.basinDecl b
    declValid d && declBase d ≤ off && off + 65536 ≤ declBase d + declSize d) ||
  (List.range 8).any (fun k => (List.range 2).any (fun h =>
    let r := t.half swaps k h
    r.2 != 0 && r.1 ≤ off && off + 65536 ≤ r.1 + r.2))

def pageEnt (t : Tile) (swaps w : Nat) : PageEnt :=
  { off := fld w 0 24, count := fld w 24 5 + 1, first := fld w 32 32,
    valid := fld w 0 24 % 65536 == 0 && pageInside t swaps (fld w 0 24) }

def attnEntries (s : State) (p swaps : Nat) (d l : List Byte) (pt : List Nat) : List PageEnt :=
  let st := loopStream l 1
  let a := mmaAddr l 1 pt
  (List.range (attnPages d)).map (fun i => pageEnt (s.tile p) swaps (leNat (readStream s p swaps st (a + Int.ofNat (8 * i)) 8)))

/-- Query position and ancestor mask of row r (R104); no mask, no record is read. -/
def rowRecord (s : State) (p swaps : Nat) (d l : List Byte) (pt : List Nat) (r : Nat) : Nat × Nat :=
  if !attnMasked d then (0, 0) else
  let b := readStream s p swaps (loopStream l 3) (mmaAddr l 3 pt + Int.ofNat (16 * r)) 16
  (leAt b 0 4, leAt b 4 8)

/-- Visibility of a position to a row under the enabled masks (R106). -/
def posVisible (d : List Byte) (qpos mask pos : Nat) : Bool :=
  let tb := leAt d 20 4
  (!attnFlag d 0 || pos ≤ qpos) &&
  (!(attnFlag d 1 && tb ≤ pos) || (pos - tb < 64 && mask.testBit (pos - tb)))

/-- Key t of a page is visible to a row. -/
def keyVisible (d : List Byte) (e : PageEnt) (rec : Nat × Nat) (t : Nat) : Bool :=
  t < e.count && e.valid && posVisible d rec.1 rec.2 ((e.first + t) % 2 ^ 32)

/-- 128 values of a key (`v` = 0) or the elements of a value row (`v` = 1) of a page. -/
def pageRow (s : State) (p : Nat) (d : List Byte) (e : PageEnt) (v t : Nat) : List Fv :=
  let a := tileBase p + e.off + attnHead d * 8192 + v * 4096 + t * 128
  let sc := leAt d (16 + v) 1
  (s.mem.read a 128).map (fun b => decScaled (attnKv d) b.toNat sc)

/-- Dot product of two lists in blocks from +0 (R71). -/
def dotBlocks (bs : Nat) (a b : List Fv) : Fz :=
  (List.range (a.length / bs)).foldl (fun acc j =>
    accBlock acc (blockSum ((((a.drop (j * bs)).take bs).zip ((b.drop (j * bs)).take bs)).map (fun e => Fv.mul e.1 e.2)))) (.of 0)

/-- The 128 values of query row r (R104, R91). -/
def queryRow (s : State) (p swaps : Nat) (d l : List Byte) (pt : List Nat) (r : Nat) : List Fv :=
  let st := loopStream l 0
  let f := attnQ d
  let rb := attnQRow d
  let a := mmaAddr l 0 pt + Int.ofNat (r * rb)
  let nb := 128 / fmtBlock f
  let sc := if fmtIsBlock f then readStream s p swaps st (companion st a rb (leAt d 24 3) nb) nb else []
  ((unpack f (readStream s p swaps st a rb) 128).zip (List.range 128)).map (fun e =>
    operand f e.1 ((sc.getD (e.2 / fmtBlock f) 0).toNat))

/-- Running maximum, sum and output of a row (R106). -/
structure AttnRow where
  m : W32
  l : Fz
  o : List Fz

def negInf32 : W32 := 0xFF800000

/-- Probabilities of a page as the matrix engine multiplies them. -/
def quantP (bf16 : Bool) (ps : List W32) : List Fv :=
  if bf16 then ps.map (fun x => flush fmtBf16 (fmtBf16.dec (fmtBf16.enc .rne false (d32 x))))
  else
    let b := encBlock 0x08 (fun _ => .rne) false (ps.map d32)
    b.2.map (fun e => decScaled 0x08 e b.1)

/-- One page for one row. A value row that the row does not see enters as +0, so that no NaN of one reaches the row (log 57). -/
def attnPage (s : State) (p : Nat) (d : List Byte) (q : List Fv) (rec : Nat × Nat) (e : PageEnt) (x : AttnRow) : AttnRow :=
  let bs := sumBlock (attnQ d)
  let sm := Fz.of (flush32 (BitVec.ofNat 32 (leAt d 12 4)))
  let sc := (List.range 32).map (fun t =>
    if keyVisible d e rec t then (mmul (dotBlocks bs q (pageRow s p d e 0 t)) sm).w else negInf32)
  let mb := sc.foldl fmax negInf32
  if mb == negInf32 then x
  else
    let mn := fmax x.m mb
    let alpha := mfun exp32 (.of (flush32 (fsub x.m mn)))
    let ps := sc.map (fun v => flush32 (exp32 (flush32 (fsub v mn))))
    let ln := madd (mmul x.l alpha) (Fz.round false (blockSum (ps.map d32)))
    let pq := quantP (attnFlag d 2) ps
    let vals := (List.range 32).map (fun t => if keyVisible d e rec t then pageRow s p d e 1 t else List.replicate 128 (.fin false 0 0))
    { m := mn, l := ln,
      o := (x.o.zip (List.range 128)).map (fun oc =>
        madd (mmul oc.1 alpha) (dotBlocks 32 pq (vals.map (fun v => v.getD oc.2 .nan)))) }

/-- A page that no row can see under the enabled masks, or an invalid one, is not read (R105, R107). -/
def pageRead (d : List Byte) (recs : List (Nat × Nat)) (e : PageEnt) : Bool :=
  recs.any (fun rec => (List.range 32).any (keyVisible d e rec))

/-- Poison of what a row reads: its query, the list entries, and the keys and values it sees (R110). -/
def attnBad (s : State) (p swaps : Nat) (d l : List Byte) (pt : List Nat) (r : Nat) (rec : Nat × Nat) (es : List PageEnt) : Bool :=
  let st0 := loopStream l 0
  let a := mmaAddr l 0 pt + Int.ofNat (r * attnQRow d)
  let nb := 128 / fmtBlock (attnQ d)
  !s.mem.poison.isEmpty && (
    streamPoison s p swaps st0 a (attnQRow d) ||
    (fmtIsBlock (attnQ d) && streamPoison s p swaps st0 (companion st0 a (attnQRow d) (leAt d 24 3) nb) nb) ||
    (attnMasked d && streamPoison s p swaps (loopStream l 3) (mmaAddr l 3 pt + Int.ofNat (16 * r)) 12) ||
    (es.zip (List.range es.length)).any (fun e =>
      (List.range 32).any (fun t => keyVisible d e.1 rec t && (
        streamPoison s p swaps (loopStream l 1) (mmaAddr l 1 pt + Int.ofNat (8 * e.2)) 8 ||
        s.mem.poisoned (tileBase p + e.1.off + attnHead d * 8192 + t * 128) 128 ||
        s.mem.poisoned (tileBase p + e.1.off + attnHead d * 8192 + 4096 + t * 128) 128))))

/-- Output row: normalised values, and log-sum-exp (R106). -/
def attnResult (x : AttnRow) : List Fz × W32 :=
  if x.l.val.isZero then (List.replicate 128 (.of 0), negInf32)
  else (x.o.map (fun v => mdiv v x.l), (madd (.of x.m) (mfun ln32 x.l)).w)

/-- What one query row comes to: its output, its log-sum-exp, and its poison. -/
structure AttnOut where
  ys : List Fz
  lse : W32
  bad : Bool

def attnRow (s : State) (p swaps : Nat) (d l : List Byte) (pt : List Nat) (es : List PageEnt) (r : Nat) : AttnOut :=
  let rec_ := rowRecord s p swaps d l pt r
  let q := queryRow s p swaps d l pt r
  let x := attnResult (es.foldl (fun x e => attnPage s p d q rec_ e x) ⟨negInf32, .of 0, List.replicate 128 (.of 0)⟩)
  ⟨x.1, x.2, attnBad s p swaps d l pt r rec_ es⟩

/-- The write of one query row (R104, R110). -/
def attnWriteRow (p swaps : Nat) (d l : List Byte) (pt : List Nat) (batch : Nat) (s : State) (e : Nat × AttnOut) : State :=
  let r := e.1
  let i := (batch * attnRows d + r) * 128
  let fmt := convFmt (attnConv d)
  let c := convertFz (attnConv d) (s.seed p) i e.2.ys
  let st := loopStream l 2
  let a := mmaAddr l 2 pt + Int.ofNat (r * attnORow d)
  let s1 := writeStream s p swaps st a (c.bytes fmt) e.2.bad
  let s2 := if fmtIsBlock fmt then
      writeStream s1 p swaps st.narrow (companion st a (attnORow d) (leAt d 32 3) (128 / fmtBlock fmt)) c.scaleBytes false
    else s1
  let s3 := if attnFlag d 3 then
      writeStream s2 p swaps (loopStream l 3).narrow (mmaAddr l 3 pt + Int.ofNat (16 * r + 12)) (leBytes 4 e.2.lse.toNat) e.2.bad
    else s2
  countConv (countCalls s3 p (attnConv d) i 128) p (attnConv d) c.bins

/-- Batch points of ATTN: every enabled level is a batch level; with none there is one iteration. -/
def attnPoints (l : List Byte) : List (List Nat) := loopPoints (loopLevels l)

/-- One iteration: a complete attention. Every row is computed before the first is written (log 56); the accumulator entries that it
uses keep their values for later operations (log 57). -/
def attnIter (p swaps : Nat) (d l : List Byte) (s : State) (e : List Nat × Nat) : State :=
  let es := attnEntries s p swaps d l e.1
  let rows := List.range (attnRows d)
  let recs := rows.map (rowRecord s p swaps d l e.1)
  let unread := (es.filter (fun x => !pageRead d recs x)).length
  let outs := rows.map (fun r => (r, attnRow s p swaps d l e.1 es r))
  outs.foldl (attnWriteRow p swaps d l e.1 e.2) (s.modTile p (fun t => t.bump (bankMxc 6) unread))

/-- The operation has an invalid entry (R105). -/
def attnInvalid (s : State) (p swaps : Nat) (d l : List Byte) : Bool :=
  (attnPoints l).any (fun pt => (attnEntries s p swaps d l pt).any (fun e => !e.valid))

def attnBody (s : State) (p : Nat) (op : Op) (d l : List Byte) : State :=
  let s1 := if attnInvalid s p op.swaps d l then s.unitEvent p 1 0x3142 [] else s
  let pts := attnPoints l
  (pts.zip (List.range pts.length)).foldl (attnIter p op.swaps d l) s1

def attnReads (s : State) (p : Nat) (op : Op) (d l : List Byte) : List (Nat × Nat) :=
  let t := s.tile p
  let r (k : Nat) (a : Int) (n : Nat) := accessRange t op.swaps (loopStream l k) a n
  (attnPoints l).flatMap (fun pt =>
    let es := attnEntries s p op.swaps d l pt
    let recs := (List.range (attnRows d)).map (rowRecord s p op.swaps d l pt)
    r 0 (mmaAddr l 0 pt) (attnRows d * attnQRow d) ++ r 1 (mmaAddr l 1 pt) (8 * attnPages d) ++
    (if attnMasked d then r 3 (mmaAddr l 3 pt) (16 * attnRows d) else []) ++
    (es.filter (pageRead d recs)).map (fun e => (e.off + attnHead d * 8192, 8192)))

def attnIns (d _l : List Byte) : List (Nat × Nat) :=
  [(0, attnRows d * attnQRow d), (1, 8 * attnPages d), (3, 16 * attnRows d)]

/-- ATTN at the front of the matrix engine's queue. -/
def execAttn (t : BitVec 10) (upset : Option Upset) (s : State) : Host.Outcome State Fault Refusal :=
  .next (done s (runOp s t.toNat 1 (fun d => leAt d 1 1 == 2) upset attnReads attnIns attnBody))

/-! ## Streamed mode (R109) -/

/-- The port that the firing set of a unit names. -/
def firingPort (t : Tile) (u : Nat) : Option Nat := findBelow 8 (fun k => (t.fireMask u).testBit k)

/-- The ports of a firing set, ascending. -/
def firingPorts (t : Tile) (u : Nat) : List Nat := (List.range 8).filter (fun k => (t.fireMask u).testBit k)


/-- A unit in streamed mode that can fire: running tile, not finished, firings left, a token at every port of its set (R38,
R40). -/
def canFire (s : State) (n u : Nat) : Option Nat :=
  let p := s.phys n
  let t := s.tile p
  let ports := (List.range 8).filter (fun k => (t.fireMask u).testBit k)
  if n < s.ntiles && t.live && t.streamed u && !t.isFinished u && !ports.isEmpty &&
     (t.fireCount u == 0 || agetD t.firings u 0 < t.fireCount u) &&
     ports.all (fun k => (portHead s p u k).isSome) then some p else none

/-- The tokens of a firing leave their ports (R38). -/
def takeTokens (s : State) (p u : Nat) : State :=
  ((List.range 8).filter (fun k => ((s.tile p).fireMask u).testBit k)).foldl (fun x k => popPort x p u k) s

/-- A firing of unit u has ended: counted, and the unit may finish (R40). -/
def endFiring (s : State) (p u : Nat) : State :=
  settle ((s.noteProgress p).modTile p (fun t => { t with firings := amod t.firings u 0 (· + 1) }.bump (bankFire u) 1)) p

/-- Bytes of a row record of A with K elements (R109). -/
def aRecord (d : List Byte) (bk : Nat) : Nat :=
  let f := mmaA d
  alignUp (256 * bk + (if fmtIsBlock f then bk * chunkElems f / fmtBlock f else 0)) 64

/-- Chunk k of row r of a token payload; a poisoned token's blocks all carry poison. -/
def tokenChunk (d : List Byte) (bk : Nat) (m : Msg) (r k : Nat) : AChunk :=
  let f := mmaA d
  let o := r * aRecord d bk
  let cu := chunkElems f / fmtBlock f
  { elems := unpack f ((m.pay.drop (o + 256 * k)).take 256) (chunkElems f)
    scales := if fmtIsBlock f then ((m.pay.drop (o + 256 * bk + k * cu)).take cu).map BitVec.toNat else []
    bads := if m.poison then List.range (chunkElems f / zeroBlock f (mmaB d)) else [] }

/-- Loop table 0 with the token's row count in place of bound 1 (R109). -/
def withRows (l : List Byte) (rows : Nat) : List Byte :=
  l.take 48 ++ leBytes 16 (rows % 2 ^ 20 + leAt l 48 16 / 2 ^ 20 * 2 ^ 20) ++ l.drop 64

/-- The destination of an output row: route 0, or the token's source with route 0's unit and port. -/
def streamDest (t : Tile) (d : List Byte) (m : Msg) : Nat :=
  let r := t.route 1 0
  if mmaReply d then destWord m.srcDev m.srcDie m.srcX m.srcY (fld r 27 4) (fld r 31 3) else r

/-- One output row of a streamed firing leaves as a message: its segments, then their scale bytes (R109). -/
def streamRow (p : Nat) (d l : List Byte) (m : Msg) (s : State) (segs : List (List Nat × List Cell)) : State :=
  let t := s.tile p
  let fmt := convFmt (mmaConv d)
  let outs := segs.map (fun e =>
    let ys := epiSegment d e.2 (mmaExtra s p t.swaps d l e.1)
    (mmaConvert s p d l e.1 ys, !(badCells ys).isEmpty))
  let pay := (outs.map (fun e => e.1.bytes fmt)).flatten ++ (outs.map (fun e => e.1.scaleBytes)).flatten
  let ls := loopLevels l
  let i := mmaIndex d ls (ls.getD 1 ⟨1, 0, []⟩).bound (segs.headD ([], [])).1
  sendResult (countCalls s p (mmaConv d) i (segs.length * segCols (mmaFunc d)))
    p 1 (streamDest t d m) m.tag (m.kind == 5) (outs.any (·.2)) pay

/-- One output tile of a streamed firing: its rows are accumulated and kept, and sent in row order. -/
def streamTile (p : Nat) (d l : List Byte) (m : Msg) (rows : Nat) (s : State) (b : List Nat) : State :=
  let ls := loopLevels l
  let bk := (ls.getD 0 ⟨0, 0, []⟩).bound
  let segs := (List.range rows).map (fun r => (List.range (ls.getD 2 ⟨0, 0, []⟩).bound).map (fun n =>
    let pt := [0, r, n] ++ b
    (pt, mmaRow s p (s.tile p).swaps d l pt (tokenChunk d bk m r))))
  let s1 := segs.flatten.foldl (fun x e => storeAcc x p d l e.1 (e.2.map (·.1.w))) s
  segs.foldl (streamRow p d l m) s1

/-- Rows of a token, when its payload is a whole number of row records (R109). -/
def tokenRows (d l : List Byte) (m : Msg) : Option Nat :=
  let rec_ := aRecord d ((loopLevels l).getD 0 ⟨0, 0, []⟩).bound
  if rec_ == 0 || m.pay.length % rec_ != 0 then none else some (m.pay.length / rec_)

/-- The chunk of A at a point of a streamed firing. -/
def firedChunk (d l : List Byte) (m : Msg) (pt : List Nat) : AChunk :=
  tokenChunk d ((loopLevels l).getD 0 ⟨0, 0, []⟩).bound m (pt.getD 1 0) (pt.getD 0 0)

/-- A streamed firing of the matrix engine: descriptor 0 with loop table 0 over the token's rows (R109). Each batch iteration takes
the same rows (log 58). -/
def matrixFire (s : State) (p : Nat) (m : Msg) : State :=
  let t := s.tile p
  let d := t.desc 0
  match tokenRows d (t.loopT 0) m with
  | none => (s.modTile p (fun t => t.bump (bankMxc 7) 1)).onceEvent p 1 0x3141 1 (hdrDetail m.hdr)
  | some rows =>
    let l := withRows (t.loopT 0) rows
    (outTiles l).foldl (streamTile p d l m rows) (mmaCount s p d l (firedChunk d l m))

/-- What a streamed firing reads of the store: its weights and its epilogue input. -/
def matrixFireReads (s : State) (p : Nat) (m : Msg) : List (Nat × Nat) :=
  let t := s.tile p
  let d := t.desc 0
  match tokenRows d (t.loopT 0) m with
  | none => []
  | some rows =>
    let l := withRows (t.loopT 0) rows
    mmaPanelReads s p t.swaps d l (firedChunk d l m)

/-- MATRIX_STREAMED_FIRING (R38, R109). -/
def execMatrixStreamedFiring (t : BitVec 10) (upset : Option Upset) (s : State) : Host.Outcome State Fault Refusal :=
  .next (done s (
    match canFire s t.toNat 1 with
    | none => s
    | some p =>
      match (firingPort (s.tile p) 1).bind (portHead s p 1) with
      | none => s
      | some m =>
        let ports := (firingPorts (s.tile p) 1).flatMap (portWords s p 1)
        let (s1, go) := meet s p upset (ports ++ matrixFireReads s p m)
        let m1 := ((firingPort (s1.tile p) 1).bind (portHead s1 p 1)).getD m
        if go then endFiring (takeTokens (matrixFire s1 p m1) p 1) p 1 else s1))

end Sys2Proof.Machine
end

