-- ==== Sys2Proof/Machine/Vector.lean ====
section
/-! DEFINITION. The vector engine (05, R111-R117, R122, R123, R437, R438). -/

namespace Sys2Proof.Machine

/-! ## Vector buffers (R111) -/

def vbKey (buf off : Nat) : Nat := 65536 * buf + off

def Tile.vbRead (t : Tile) (buf off n : Nat) : List Byte := (List.range n).map (fun i => agetD t.vb (vbKey buf (off + i)) 0)

/-- Bytes written into a buffer; a whole-granule wide write of good data clears its mark, poisoned elements mark theirs. -/
def Tile.vbWrite (t : Tile) (buf off : Nat) (bs : List Byte) (wide : Bool) (bad : List Nat) : Tile :=
  let vb := (bs.zip (List.range bs.length)).foldl (fun v e => awrite 0 v (vbKey buf (off + e.2)) e.1) t.vb
  let whole := if wide then wholeGranules (vbKey buf off) bs.length else []
  let kept := t.vbPoison.filter (fun g => !whole.contains g)
  { t with vb := vb, vbPoison := bad.foldl (fun l i => insNat l (vbKey buf (off + i) / 64)) kept }

/-! ## Operand and result streams -/

/-- `n` bytes of stream s at a loop point, from tile store or a vector buffer. -/
def vRead (s : State) (p swaps : Nat) (loc : Nat) (st : Stream) (a : Int) (n : Nat) : List Byte :=
  if loc == 0 then readStream s p swaps st a n else (s.tile p).vbRead (loc - 1) a.toNat n

/-- Poison of the byte at offset i of an access. -/
def vBadAt (s : State) (p swaps loc : Nat) (st : Stream) (a : Int) (i : Nat) : Bool :=
  if loc == 0 then s.mem.marked (streamPlace s p swaps st (a + Int.ofNat i) / 64)
  else (s.tile p).vbPoison.contains (vbKey (loc - 1) (a.toNat + i) / 64)

/-- Whether anything is poisoned at all: with nothing marked no element can be. -/
def anyPoison (s : State) (p : Nat) : Bool := !s.mem.poison.isEmpty || !(s.tile p).vbPoison.isEmpty

/-- Bytes written to stream s; `bad` lists byte offsets of poisoned elements. -/
def vWrite (s : State) (p swaps loc : Nat) (st : Stream) (a : Int) (bs : List Byte) (bad : List Nat) : State :=
  if loc == 0 then writeMarked s p swaps st a bs bad
  else s.modTile p (fun t => t.vbWrite (loc - 1) a.toNat bs st.wide bad)

/-! ## Operations (Tables 5.2, 5.3) -/

/-- The value of a raw element of a scalar format. -/
def vVal (fmt raw : Nat) : Fv := decElem fmt raw

/-- FP32 result of the operations that Table 5.3 defines by an FP32 value. -/
def vTrans (op : Nat) (a : W32) : W32 :=
  match op with
  | 0x23 => rsqrt32 a
  | 0x24 => exp32 a
  | 0x25 => exp2_32 a
  | 0x26 => ln32 a
  | 0x27 => log2_32 a
  | 0x28 => tanh32 a
  | 0x29 => sigmoid32 a
  | 0x2A => silu32 a
  | 0x2B => sin32 a
  | _ => cos32 a

/-- The value an operation hands to the conversion stage (R114, R115, R69): exact where the stage rounds once. -/
def vValue (op cond : Nat) (a b c : Fv) : Fv :=
  match op with
  | 0x01 => Fv.add a b
  | 0x02 => Fv.add a (Fv.neg b)
  | 0x03 => Fv.mul a b
  | 0x04 => Fv.add (Fv.mul a b) c
  | 0x05 => Fv.max a b
  | 0x06 => Fv.min a b
  | 0x07 => Fv.abs a
  | 0x08 => Fv.neg a
  | 0x09 => Fv.ofZ (Int.ofNat (b2n (Fv.test cond a b)))
  | 0x0A => if c.isZero then b else a
  | 0x0B => a
  | 0x20 => Fv.div (Fv.ofZ 1) a
  | 0x21 => Fv.div a b
  | 0x22 => Fv.sqrt a
  | _ => d32 (vTrans op (r32 a))

/-- Raw result of a logic or shift operation on elements of `w` bits (R113, R69). -/
def vRaw (op w a b : Nat) : Nat :=
  let sh := b % w
  match op with
  | 0x10 => a &&& b
  | 0x11 => a ||| b
  | 0x12 => a ^^^ b
  | 0x13 => 2 ^ w - 1 - a
  | 0x14 => (a * 2 ^ sh) % 2 ^ w
  | 0x15 => a / 2 ^ sh
  | _ => wrapInt (sext a w / Int.ofNat (2 ^ sh)) w

/-- Gumbel noise of a random word (R123). -/
def gumbel (w : W32) : W32 :=
  let m := w.toNat / 512
  let u := r32 (.fin false (2 * m + 1) (-24))
  let e := ln32 u ^^^ 0x80000000
  ln32 e ^^^ 0x80000000

/-- A random element (R122, R123): raw, or a value. -/
def vRand (op seed stream i threshold : Nat) : Nat ⊕ Fv :=
  match op with
  | 0x30 => .inl (word32 seed stream i).toNat
  | 0x31 => .inr (.fin false ((word32 seed stream i).toNat / 256) (-24))
  | 0x32 => .inr (Fv.ofZ (Int.ofNat (b2n (decide (slice16 seed stream i < threshold % 65536)))))
  | _ => .inr (d32 (gumbel (word32 seed stream i)))

def vIsRaw (op : Nat) : Bool := vIsLogic op || vIsShift op || op == 0x30

/-- Result of one element: the encoded output and its histogram bin. `ra`, `rb`, `rc` are the raw operands. -/
def vElem (d : List Byte) (seed i ra rb rc : Nat) : Nat × Nat :=
  let op := vOp d
  let conv := vConv d
  let fo := convFmt conv
  let raw (w : Nat) : Nat × Nat :=
    let e := w % 2 ^ fmtBits fo
    (e, histBin false (decElem fo e))
  if vIsRand op then
    match vRand op seed (convStream conv) i (leAt d 12 4) with
    | .inl w => raw w
    | .inr v => convScalar conv seed i false v
  else if vIsLogic op || vIsShift op then raw (vRaw op (fmtBits (vFmt d 0)) ra rb)
  else convScalar conv seed i false (vValue op (vCond d) (vVal (vFmt d 0) ra) (vVal (vFmt d 1) rb) (vVal (vFmt d 2) rc))

/-- Immediate operand k (0: B, 1: C) as a raw element. -/
def vImmRaw (d : List Byte) (k : Nat) : Nat := leAt d (12 + 4 * k) 4 % 2 ^ fmtBits (vFmt d (k + 1))

/-- Raw elements and element marks of the access of operand k at a point: stream 0, 1 or 3. -/
def vOperand (s : State) (p swaps : Nat) (d l : List Byte) (pt : List Nat) (k g : Nat) : List Nat × (Nat → Bool) :=
  let sno := if k == 2 then 3 else k
  if k != 0 && vImm d (k - 1) then (List.replicate g (vImmRaw d (k - 1)), fun _ => false)
  else
    let st := loopStream l sno
    if !st.enabled then (List.replicate g 0, fun _ => false)
    else
      let f := vFmt d k
      let a := pointAddr st sno (loopLevels l) pt
      let eb := fmtBits f / 8
      (unpack f (vRead s p swaps (vLoc d sno) st a (gBytes g f)) g,
       fun e => anyPoison s p && (eltOffsets (8 * eb) [e]).any (vBadAt s p swaps (vLoc d sno) st a))

/-- Which operands an operation reads. -/
def vReadsOp (op k : Nat) : Bool := if k == 0 then !vIsRand op else if k == 1 then vUsesB op else vUsesC op

/-- One loop point of an issued operation. -/
def vPoint (p swaps : Nat) (d l : List Byte) (s : State) (pt : List Nat) : State :=
  let g := gOf ((vStreams d l).map (·.2))
  let get (k : Nat) := if vReadsOp (vOp d) k then vOperand s p swaps d l pt k g else (List.replicate g 0, fun _ => false)
  let a := get 0
  let b := get 1
  let c := get 2
  let i := pointIndex (vIndexBase d) (vStride d) (loopLevels l) pt
  let seed := s.seed p
  let rs := (List.range g).map (fun e => vElem d seed ((i + e) % 2 ^ 64) (a.1.getD e 0) (b.1.getD e 0) (c.1.getD e 0))
  let fo := convFmt (vConv d)
  let bad := (List.range g).filter (fun e => a.2 e || b.2 e || c.2 e)
  let st := loopStream l 2
  let s1 := if vIsRand (vOp d) then
      s.bumpTile p (bankVrc 2) (genCalls i g (if vOp d == 0x32 then 8 else 4)) else s
  let s2 := if vIsRaw (vOp d) then s1 else countCalls s1 p (vConv d) i g
  if !st.enabled then s2
  else
    let s3 := vWrite s2 p swaps (vLoc d 2) st (pointAddr st 2 (loopLevels l) pt) (packElems fo (rs.map (·.1)))
      (eltOffsets (fmtBits fo) bad)
    if vLoc d 2 == 0 then countConv s3 p (vConv d) (rs.map (·.2)) else s3

/-- An issued vector-engine operation. -/
def vBody (s : State) (p : Nat) (op : Op) (d l : List Byte) : State :=
  (loopPoints (loopLevels l)).foldl (vPoint p op.swaps d l) s

/-- What it reads of tile store. -/
def vReads (s : State) (p : Nat) (op : Op) (d l : List Byte) : List (Nat × Nat) :=
  let ss := (vInputs d l).filter (fun e => vLoc d e.1 == 0)
  let g := gOf ((vStreams d l).map (·.2))
  (loopPoints (loopLevels l)).flatMap (fun pt => ss.flatMap (fun e =>
    let st := loopStream l e.1
    accessRange (s.tile p) op.swaps st (pointAddr st e.1 (loopLevels l) pt) (gBytes g e.2)))

/-- Input streams with the bytes of one access (R57, R438). -/
def vIns (d l : List Byte) : List (Nat × Nat) :=
  let g := gOf ((vStreams d l).map (·.2))
  (vInputs d l).map (fun e =>
    let w := gBytes g e.2
    (e.1, if (loopStream l e.1).wide then w else alignUp w 32))

/-- VECTOR_ENGINE_OPERATION: any operation of Table 5.2 at the front of unit 2's queue. -/
def execVectorEngineOperation (t : BitVec 10) (upset : Option Upset) (s : State) : Host.Outcome State Fault Refusal :=
  .next (done s (runOp s t.toNat 2 (fun _ => true) upset vReads vIns vBody))

/-! ## Streamed mode (R117) -/

/-- The tokens of a firing, in ascending port number. -/
def firingTokens (s : State) (p u : Nat) : List Msg := (firingPorts (s.tile p) u).filterMap (portHead s p u)

/-- Operands of the operation that ports supply: the ones it reads that are not immediate (R117). -/
def vPortOperands (d : List Byte) : List Nat :=
  (List.range 3).filter (fun k => vReadsOp (vOp d) k && (k == 0 || !vImm d (k - 1)))

/-- Elements that one loop point of a firing moves. -/
def vFireG (d : List Byte) : Nat := gOf ((vPortOperands d).map (vFmt d) ++ [convFmt (vConv d)])

/-- Accesses of a payload (R117). -/
def accessCount (bytes g fmt : Nat) : Nat := (bytes + gBytes g fmt - 1) / gBytes g fmt

/-- A streamed firing of the vector engine. Every element of A's payload gives one result (log 15). -/
def vectorFire (s : State) (p : Nat) : State :=
  let t := s.tile p
  let d := t.desc 0
  let l := t.loopT 0
  let toks := firingTokens s p 2
  let ops := (vPortOperands d).zip toks
  let g := vFireG d
  let counts := ops.map (fun e => accessCount e.2.pay.length g (vFmt d e.1))
  let fo := convFmt (vConv d)
  let st := loopStream l 2
  let first := toks.headD (mkMsg 0 0 0 0 false [])
  let n := match ops.head? with
    | some e => e.2.pay.length / (fmtBits (vFmt d e.1) / 8)
    | none => first.pay.length / (fmtBits fo / 8)
  let acc := match counts.head? with
    | some c => c
    | none => accessCount first.pay.length g fo
  let l0 := (loopLevels l).getD 0 ⟨0, 0, []⟩
  let vbBad := st.enabled && vLoc d 2 != 0 &&
    ((Int.ofNat st.base + (Int.ofNat acc - 1) * l0.st 2 < 0) || Int.ofNat st.base + (Int.ofNat acc - 1) * l0.st 2 + Int.ofNat (gBytes g fo) > 65536)
  if counts.any (fun c => c != counts.headD 0) || vbBad then firingFailed s p 2
  else
    let raws (k : Nat) : List Nat :=
      if k != 0 && vImm d (k - 1) then List.replicate n (vImmRaw d (k - 1))
      else match ops.find? (fun e => e.1 == k) with
        | some e => unpack (vFmt d k) e.2.pay n
        | none => []
    let a := raws 0
    let b := raws 1
    let c := raws 2
    let idx (e : Nat) := (pointIndex (vIndexBase d) (vStride d) ((loopLevels l).set 0 { l0 with bound := max 1 acc })
      [e / g, 0, 0, 0, 0, 0] + e % g) % 2 ^ 64
    let seed := s.seed p
    let rs := (List.range n).map (fun e => (vElem d seed (idx e) (a.getD e 0) (b.getD e 0) (c.getD e 0)).1)
    let s1 := if vIsRand (vOp d) then s.bumpTile p (bankVrc 2) (genCalls (idx 0) n (if vOp d == 0x32 then 8 else 4)) else s
    let s2 := if vIsRaw (vOp d) then s1 else countCalls s1 p (vConv d) (idx 0) n
    sendLong s2 p 2 (t.route 2 0) first.tag (toks.any (fun m => m.kind == 5)) (toks.any Msg.poison) (packElems fo rs)

end Sys2Proof.Machine
end

