-- ==== Sys2Proof/Machine/Reduction.lean ====
section
/-! DEFINITION. The reduction unit (05, R118-R120) and the streamed firings of units 2 and 3 (R38, R117). -/

namespace Sys2Proof.Machine

/-- An element that reaches the unit: its value, its logical index, its mark. -/
structure RElem where
  val : Fv
  idx : Nat
  bad : Bool

/-- Rank order of R119 on (value, index): a NaN above every number, -0 below +0, equal values by lower index. -/
def ranksAbove (a b : Fv × Nat) : Bool :=
  if a.1.isNan then (if b.1.isNan then a.2 < b.2 else true)
  else if b.1.isNan then false
  else if a.1.isZero && b.1.isZero && a.1.signBit != b.1.signBit then b.1.signBit
  else
    let c := Fv.cmp a.1 b.1
    if c == 0 then a.2 < b.2 else c > 0

/-- Insertion into a list in rank order. -/
def insRank (x : Fv × Nat) : List (Fv × Nat) → List (Fv × Nat)
  | [] => [x]
  | y :: t => if ranksAbove x y then x :: y :: t else y :: insRank x t

/-- The first k in rank order. -/
def topRank (k : Nat) (xs : List (Fv × Nat)) : List (Fv × Nat) := xs.foldl (fun l x => (insRank x l).take k) []

/-- The 8-byte record of a value and an index (R119). -/
def recordBytes (isInt : Bool) (x : Fv × Nat) : List Byte :=
  (if isInt then leBytes 4 (wrapInt (x.1.toIntSat .rne 32) 32) else leBytes 4 (r32 x.1).toNat) ++ leBytes 4 x.2

/-- The record that fills a short list. -/
def emptyRecord (isInt : Bool) : List Byte :=
  (if isInt then leBytes 4 0x80000000 else leBytes 4 0xFF800000) ++ leBytes 4 0xFFFFFFFF

/-- Pairwise sum of the present values of one access, one level at a time (R118). -/
def pairLevel : List W32 → List W32
  | a :: b :: t => fadd a b :: pairLevel t
  | l => l

def pairSum : Nat → List W32 → List W32
  | 0, l => l
  | k + 1, l => pairSum k (pairLevel l)

/-- Tree-mode sum of a row, e elements an access (R118). -/
def treeSumGo (e : Nat) : Nat → Option W32 → List W32 → Option W32
  | 0, acc, _ => acc
  | k + 1, acc, xs =>
    match (pairSum 8 (xs.take e)).head? with
    | none => acc
    | some v => treeSumGo e k (some (match acc with | some a => fadd a v | none => v)) (xs.drop e)

def treeSum (e : Nat) (xs : List Fv) : W32 := (treeSumGo e (xs.length / e + 1) none (xs.map r32)).getD 0

/-- Sum in order, each addition rounded. -/
def seqSum : List W32 → W32
  | [] => 0
  | x :: t => t.foldl fadd x

/-- Exact sum, rounded once (rules 1, 2 and 4 of R72). -/
def exactSum (xs : List Fv) : Fv := blockSum xs

/-- Condition of COUNT. -/
def countHit (cond : Nat) (imm x : Fv) : Bool :=
  match cond with
  | 0 => Fv.test 1 x (.fin false 0 0)
  | 1 => Fv.test 0 x imm
  | 2 => Fv.test 4 x imm
  | 3 => Fv.test 2 x imm
  | 4 => x.isNan
  | _ => x.isInf

/-- Value of a fold of rows: `rows` holds one list per row, in ascending order; one row for axis 0, one column for
axis 1. `col` marks a column, which is summed in ascending order (R118). -/
def foldValue (d : List Byte) (g : Nat) (col : Bool) (rows : List (List Fv)) : Fv :=
  let isInt := fmtIsInt (rFmt d)
  let all := rows.flatten
  match leAt d 1 1 with
  | 1 =>
    if isInt || rExact d then (if isInt then exactSum all else d32 (r32 (exactSum all)))
    else if col then d32 (seqSum (all.map r32))
    else d32 (seqSum (rows.map (treeSum g)))
  | 2 => match all with | [] => .nan | x :: t => t.foldl Fv.max x
  | 3 => match all with | [] => .nan | x :: t => t.foldl Fv.min x
  | _ => Fv.ofZ (Int.ofNat (min (all.filter (countHit (rCcond d) (decElem (rFmt d) (rImm d % 2 ^ fmtBits (rFmt d))))).length (2 ^ 31 - 1)))

/-- Prefix sums of one row or column (R118). -/
def prefixGo (isInt exact : Bool) : Option Fv → List Fv → List Fv
  | _, [] => []
  | acc, x :: t =>
    let s := match acc with
      | none => x
      | some a => if isInt || exact then Fv.add a x else d32 (fadd (r32 a) (r32 x))
    (if isInt then s else d32 (r32 s)) :: prefixGo isInt exact (some s) t

def prefixSums (d : List Byte) (xs : List Fv) : List Fv := prefixGo (fmtIsInt (rFmt d)) (rExact d) none xs

/-- Records of ARGMAX and TOPK over the elements given. -/
def recordsOf (d : List Byte) (es : List RElem) : List Byte :=
  let k := if leAt d 1 1 == 5 then rK d else 1
  let isInt := fmtIsInt (rFmt d)
  let top := topRank k (es.map (fun e => (e.val, e.idx)))
  (top.map (fun x => recordBytes isInt (x.1, x.2 % 2 ^ 32))).flatten ++
    (List.replicate (k - top.length) (emptyRecord isInt)).flatten

/-- A list of records filled to whole 64-byte units with empty records, as it travels on a tree. -/
def padRecords (isInt : Bool) (bs : List Byte) : List Byte :=
  bs ++ (List.replicate ((alignUp bs.length 64 - bs.length) / 8) (emptyRecord isInt)).flatten

/-- One result: its bytes for stream 2, its bytes for a tree, and its mark. `i` is its logical index. -/
structure RResult where
  out : List Byte
  net : List Byte
  bad : Bool

def bad? (es : List RElem) : Bool := es.any (·.bad)

/-- Combining rule of an operation on a tree (R120, Table 7.6). -/
def rRule (d : List Byte) : Nat :=
  let i := fmtIsInt (rFmt d)
  match leAt d 1 1 with
  | 1 => if i then 1 else 0
  | 6 => if i then 1 else 0
  | 2 => if i then 4 else 2
  | 3 => if i then 5 else 3
  | 4 => if i then 7 else 6
  | 5 => if i then 9 else 8
  | _ => 12

/-- Element of a contribution under the rule: INT64, FP32, INT32 or a 32-bit count. -/
def netElem (d : List Byte) (v : Fv) : List Byte :=
  match rRule d with
  | 1 => leBytes 8 (wrapInt (v.toIntSat .rne 64) 64)
  | 4 => leBytes 4 (wrapInt (v.toIntSat .rne 32) 32)
  | 5 => leBytes 4 (wrapInt (v.toIntSat .rne 32) 32)
  | 12 => leBytes 4 (wrapInt (v.toIntSat .rne 32) 32)
  | _ => leBytes 4 (r32 v).toNat

def scalarOut (d : List Byte) (seed i : Nat) (v : Fv) : List Byte :=
  packElems (convFmt (rConv d)) [(convScalar (rConv d) seed i false v).1]

/-- A result from a value. -/
def valueResult (d : List Byte) (seed i : Nat) (v : Fv) (bad : Bool) : RResult :=
  ⟨scalarOut d seed i v, netElem d v, bad⟩

/-- The results of a fold: one, or the prefix sums. -/
def foldResults (d : List Byte) (seed g : Nat) (col : Bool) (rows : List (List RElem)) : List RResult :=
  let es := rows.flatten
  let i := (es.head?.map (·.idx)).getD 0
  if rRecord (leAt d 1 1) then [⟨recordsOf d es, padRecords (fmtIsInt (rFmt d)) (recordsOf d es), bad? es⟩]
  else if leAt d 1 1 == 6 then
    let vs := prefixSums d (es.map (·.val))
    (vs.zip (List.range vs.length)).map (fun e =>
      valueResult d seed ((es[e.2]?.map (·.idx)).getD 0) e.1 (bad? (es.take (e.2 + 1))))
  else [valueResult d seed i (foldValue d g col (rows.map (fun r => r.map (·.val)))) (bad? es)]

/-- The level that carries an order, if one does. -/
def levelOf (ls : List Level) (o : Nat) : Option Nat := findBelow 6 (fun k => (ls.getD k ⟨0, 0, []⟩).on && (ls.getD k ⟨0, 0, []⟩).order == o)

def boundAt (ls : List Level) (k : Option Nat) : Nat := match k with | some i => (ls.getD i ⟨1, 0, []⟩).bound | none => 1
def setAt (pt : List Nat) (k : Option Nat) (v : Nat) : List Nat := match k with | some i => pt.set i v | none => pt
def pinned (ls : List Level) (k : Option Nat) : List Level :=
  match k with | some i => ls.set i { (ls.getD i ⟨1, 0, []⟩) with bound := 1 } | none => ls

/-- Elements of one access of stream 0 at a point. -/
def rAccess (s : State) (p swaps : Nat) (d l : List Byte) (pt : List Nat) : List RElem :=
  let g := rG d l
  let st := loopStream l 0
  let f := rFmt d
  let a := pointAddr st 0 (loopLevels l) pt
  let i := pointIndex (rIndexBase d) (rStride d) (loopLevels l) pt
  ((unpack f (vRead s p swaps (vLoc d 0) st a (gBytes g f)) g).zip (List.range g)).map (fun e =>
    ⟨decElem f e.1, (i + e.2) % 2 ^ 64, anyPoison s p && (eltOffsets (fmtBits f) [e.2]).any (vBadAt s p swaps (vLoc d 0) st a)⟩)

/-- The row at a point: the run of the level with order 0. -/
def rRow (s : State) (p swaps : Nat) (d l : List Byte) (pt : List Nat) : List RElem :=
  let ls := loopLevels l
  let k := levelOf ls 0
  (List.range (boundAt ls k)).flatMap (fun i => rAccess s p swaps d l (setAt pt k i))

/-- Results with the address of stream 2 they are written at (in access order). -/
def rResults (s : State) (p swaps : Nat) (d l : List Byte) : List (List Nat × List RResult) :=
  let ls := loopLevels l
  let g := rG d l
  let seed := s.seed p
  let k0 := levelOf ls 0
  let k1 := levelOf ls 1
  let rowPts := loopPoints (pinned ls k0)
  if rAxis d == 2 then
    [(List.replicate 6 0, foldResults d seed g false (rowPts.map (rRow s p swaps d l)))]
  else if rAxis d == 0 then
    rowPts.flatMap (fun pt =>
      let rs := foldResults d seed g false [rRow s p swaps d l pt]
      if leAt d 1 1 == 6 then
        (List.range (boundAt ls k0)).map (fun i => (setAt pt k0 i, (rs.drop (i * g)).take g))
      else [(pt, rs)])
  else
    (loopPoints (pinned (pinned ls k0) k1)).flatMap (fun pt =>
      (List.range (boundAt ls k0)).flatMap (fun i =>
        let accs := (List.range (boundAt ls k1)).map (fun j => rAccess s p swaps d l (setAt (setAt pt k0 i) k1 j))
        let cols := (List.range g).map (fun e => foldResults d seed g true [accs.filterMap (fun x => x[e]?)])
        if leAt d 1 1 == 6 then
          (List.range (boundAt ls k1)).map (fun j =>
            (setAt (setAt pt k0 i) k1 j, cols.filterMap (fun y => y[j]?)))
        else [(setAt pt k0 i, cols.flatten)]))

/-- A contribution to a tree from the local tile (R120, R164, R165). -/
def treeMsg (t : Tile) (n tree rule tag : Nat) (bad : Bool) (pay : List Byte) : Msg :=
  let m := mkMsg (tileDest n 0 0) tag t.sect.gen.toNat (if rule ≥ 10 then 3 else 2) bad
    (padTo (alignUp (max 1 pay.length) 64) pay)
  ((m.put 107 6 tree).put 113 4 rule).put 119 1 1

/-- The results of an issued operation: written, or sent on the tree with tag 0 (log 14). -/
def rBody (s : State) (p : Nat) (op : Op) (d l : List Byte) : State :=
  let n := (s.logical p).getD 0
  let outs := rResults s p op.swaps d l
  if rNet d then
    (outs.flatMap (·.2)).foldl (fun x r =>
      x.modTile p (fun t => t.emit 3 (treeMsg t n (rTree d) (rRule d) 0 r.bad r.net))) s
  else
    outs.foldl (fun x e =>
      let st := loopStream l 2
      let bs := (e.2.map (·.out)).flatten
      let one := match e.2.head? with | some r => r.out.length | none => 1
      let bad := ((e.2.zip (List.range e.2.length)).filter (fun r => r.1.bad)).flatMap (fun r =>
        (List.range ((one + 63) / 64) ++ [one]).map (fun k => r.2 * one + min (64 * k) (one - 1)))
      vWrite x p op.swaps 0 st (pointAddr st 2 (loopLevels l) e.1) bs bad) s

def rReads (s : State) (p : Nat) (op : Op) (d l : List Byte) : List (Nat × Nat) :=
  let st := loopStream l 0
  if vLoc d 0 != 0 then []
  else (loopPoints (loopLevels l)).flatMap (fun pt =>
    accessRange (s.tile p) op.swaps st (pointAddr st 0 (loopLevels l) pt) (gBytes (rG d l) (rFmt d)))

def rIns (d l : List Byte) : List (Nat × Nat) := [(0, rRun d l (rG d l) 0)]

/-- REDUCTION_OPERATION: any operation of Table 5.5 at the front of unit 3's queue. -/
def execReductionOperation (t : BitVec 10) (upset : Option Upset) (s : State) : Host.Outcome State Fault Refusal :=
  .next (done s (runSending s t.toNat 3 (fun _ => true) upset rReads rIns rBody))

/-! ## Streamed mode -/

/-- A streamed firing of the reduction unit: the payload is one row (R117). -/
def reductionFire (s : State) (p : Nat) : State :=
  let t := s.tile p
  let d := t.desc 0
  let l := t.loopT 0
  let toks := firingTokens s p 3
  match toks.head? with
  | none => s
  | some m =>
    let f := rFmt d
    let n := m.pay.length / (fmtBits f / 8)
    let g := rG d l
    let l0 := (loopLevels l).getD 0 ⟨0, 0, []⟩
    let idx (e : Nat) := (pointIndex (rIndexBase d) (rStride d) ((loopLevels l).set 0 { l0 with bound := max 1 ((n + g - 1) / g) })
      [e / g, 0, 0, 0, 0, 0] + e % g) % 2 ^ 64
    let es : List RElem := ((unpack f m.pay n).zip (List.range n)).map (fun e => ⟨decElem f e.1, idx e.2, m.poison⟩)
    let rs := if rAxis d == 1 then es.flatMap (fun e => foldResults d (s.seed p) g true [[e]])
      else foldResults d (s.seed p) g false [es]
    let steer := toks.any (fun x => x.kind == 5)
    if rNet d then
      rs.foldl (fun x r => x.modTile p (fun y => y.emit 3
        (treeMsg y ((s.logical p).getD 0) (rTree d) (rRule d) m.tag r.bad r.net))) s
    else sendLong s p 3 (t.route 3 0) m.tag steer (rs.any (·.bad)) ((rs.map (·.out)).flatten)

/-- STREAMED_FIRING: the vector engine, or the reduction unit, fires once (R38, R40, R117). Of the tile store it reads only the
heads of its ports that are served from a basin (R151). -/
def execStreamedFiring (t : BitVec 10) (reduction : Bool) (upset : Option Upset) (s : State) : Host.Outcome State Fault Refusal :=
  let u := if reduction then 3 else 2
  .next (done s (
    match canFire s t.toNat u with
    | none => s
    | some p =>
      let (s1, go) := meet s p upset ((firingPorts (s.tile p) u).flatMap (portWords s p u))
      if go then endFiring (takeTokens (if reduction then reductionFire s1 p else vectorFire s1 p) p u) p u else s1))

end Sys2Proof.Machine
end

