-- ==== Sys2Proof/Machine/Trees.lean ====
section
/-! DEFINITION. Reduction trees (07, R173-R178): inputs and instances at a node, combination, and the down phase. -/

namespace Sys2Proof.Machine

/-- Member entry of a logical tile for a tree (Table 7.5). -/
def State.member (s : State) (n t : Nat) : Nat × Nat :=
  let e := agetD s.trees (64 * n + t) (0, 0)
  (e.1.toNat, e.2.toNat)

def meIs (e : Nat × Nat) : Bool := bitOf e.1 0
def meChildren (e : Nat × Nat) : Nat := fld e.1 1 3
def meLocal (e : Nat × Nat) : Bool := bitOf e.1 4
def meRoot (e : Nat × Nat) : Bool := bitOf e.1 5
def meParent (e : Nat × Nat) : Nat := fld e.1 6 10
def meRop (e : Nat × Nat) : Nat := fld e.1 16 4
def meDown (e : Nat × Nat) : Bool := bitOf e.1 20
def meUnit (e : Nat × Nat) : Nat := fld e.1 21 4
def mePort (e : Nat × Nat) : Nat := fld e.1 25 3
def meChain (e : Nat × Nat) : Bool := bitOf e.1 28
def meChainTree (e : Nat × Nat) : Nat := fld e.1 29 6
def meDest (e : Nat × Nat) : Nat := fld e.2 0 34
def meValid (e : Nat × Nat) : Bool := bitOf e.2 34

/-- TOPK and ITOPK: the parts of an input form one list (R174). -/
def isList (rop : Nat) : Bool := rop == 8 || rop == 9

/-- Kind of a rule (Table 7.6): 10-12 are flags. -/
def ropKind (rop : Nat) : Nat := if rop ≥ 10 then 3 else 2

/-- A root of tile n is chained to a tree of the same tile: its results come as a child's, with this tile as source. -/
def State.selfChain (s : State) (n tree : Nat) : Bool :=
  (List.range 64).any (fun k =>
    let e := s.member n k
    meIs e && meRoot e && meChain e && meChainTree e == tree && fld (meDest e) 26 1 == 0 &&
      fld (meDest e) 16 2 * 256 + fld (meDest e) 22 4 * 16 + fld (meDest e) 18 4 == n)

/-- Source of an input at the node of tile n: none for its own, else the child (R174). An input that this tile sent is the
local one, unless its node sent it (unit 0) from a root chained to a tree of the same tile. -/
def treeSrc (s : State) (m : Msg) (n : Nat) : Option Nat :=
  if m.srcTile == n && !(m.srcUnit == 0 && s.selfChain n m.tree) then none else some m.srcTile

/-- A source has supplied an instance: for a list, its last part is there. -/
def Inst.supplied (i : Inst) (rop : Nat) (src : Option Nat) : Bool :=
  i.inputs.any (fun x => x.src == src && (!isList rop || x.msg.last))

/-- A source has begun to supply an instance. -/
def Inst.begun (i : Inst) (src : Option Nat) : Bool := i.inputs.any (fun x => x.src == src)

/-- The instance belongs to a tag and part (a list's parts share one instance). -/
def Inst.is (i : Inst) (tree tag part rop : Nat) : Bool :=
  i.tree == tree && i.tag == tag && (isList rop || i.part == part)

/-- The distinct children an instance holds inputs from. -/
def Inst.children (i : Inst) : List Nat := (i.inputs.filterMap (·.src)).foldl (fun l x => insNat l x) []

/-- Bytes of the longest input of an instance's sources, each list with all its parts. -/
def Inst.bytesOf (i : Inst) (src : Option Nat) : Nat :=
  (i.inputs.filter (fun x => x.src == src)).foldl (fun a x => a + x.msg.pay.length) 0

/-- Slots an instance takes in the combine buffer (R176): a combined one as long as its result has not left (`out`). -/
def Inst.slots (i : Inst) (rop : Nat) (out : List (Nat × Msg)) : Nat :=
  if i.done && !out.any (fun e => e.1 == i.id) then 0
  else if rop == 0 then i.inputs.length
  else if isList rop && i.inputs.any (fun x => i.bytesOf x.src > 4096) then 2 else 1

/-- Slots taken at the node of tile n. -/
def slotsUsed (s : State) (n : Nat) (l : List Inst) : Nat :=
  l.foldl (fun a i => a + i.slots (meRop (s.member n i.tree)) (s.ltile n).router.nodeOut) 0

/-- The first instance that a source's next input joins, by position (R174). -/
def joinAt (l : List Inst) (tree tag part rop : Nat) (src : Option Nat) : Option Nat :=
  (List.range l.length).find? (fun k => match l[k]? with
    | some i => i.is tree tag part rop && !i.supplied rop src
    | none => false)

/-- Reasons to drop an input that its header alone gives (R178). -/
def treeRefuses (e : Nat × Nat) (m : Msg) (src : Option Nat) : Bool :=
  !meIs e || m.rop != meRop e || m.kind != ropKind m.rop || (src.isNone && !meLocal e)

/-- A dropped input or down message (R178). -/
def dropTree (s : State) (p : Nat) (m : Msg) : State :=
  (s.modTile p (fun t => t.modRegs (fun r =>
    { r with fwTree := BitVec.ofNat 8 (satAdd 8 r.fwTree.toNat 1) }))).event 0x3134 10 p (s.tileCtx p) (hdrDetail m.hdr)

/-- What becomes of an input at the node: the instances with it, a drop, or a wait for a slot or an entry. -/
inductive Joined where
  | ok (l : List Inst)
  | drop
  | waits

/-- The input of a source joins an instance (R174, R176, R178). -/
def joinTree (s : State) (n : Nat) (l : List Inst) (m : Msg) : Joined :=
  let e := s.member n m.tree
  let src := treeSrc s m n
  if treeRefuses e m src then .drop
  else
    match joinAt l m.tree m.tag m.part m.rop src with
    | some k =>
      (match l[k]? with
       | some i =>
         if src.isSome && !i.begun src && i.children.length ≥ meChildren e then .drop
         else
           let l1 := l.set k { i with inputs := i.inputs ++ [⟨src, m⟩] }
           if slotsUsed s n l1 ≤ 8 then .ok l1 else .waits
       | none => .drop)
    | none =>
      if src.isSome && meChildren e == 0 then .drop
      else
        let l1 := l ++ [⟨(s.ltile n).router.instId, m.tree, m.tag, m.part, [⟨src, m⟩], false, false⟩]
        if l1.length ≤ 16 && slotsUsed s n l1 ≤ 8 then .ok l1 else .waits

/-- The lane-1 head at an input of router p that its own node is to take. -/
def treeHead (s : State) (p : Nat) (side : Side) : Option Msg :=
  (laneHead s p side 1).bind (fun m => if endsHere s p side (.msg m) then some m.ingress else none)

def setInsts (s : State) (p : Nat) (l : List Inst) : State :=
  s.modTile p (fun t => t.modRouter (fun r => { r with insts := l, instId := r.instId + (l.length - r.insts.length) }))

/-- The node at router p takes an up input (R174, R178, R183), which `pop` takes from its lane unless it must wait (R176). -/
def takeInput (s : State) (p : Nat) (pop : State → State) (m : Msg) : State :=
  if firewalled s m m.dstTile then endMsg (pop (dropFirewall s p m)) m
  else
    match joinTree s m.dstTile (s.tile p).router.insts m with
    | .waits => s
    | .drop => endMsg (pop (dropTree s p m)) m
    | .ok l => endMsg (pop (setInsts s p l)) m

/-- TREE_INPUT (R174, R178, R183): an up input at the head of lane 1. -/
def execTreeInput (p : BitVec 11) (side : Side) (s : State) : Host.Outcome State Fault Refusal :=
  let p := p.toNat
  .next (done s (
    match treeHead s p side with
    | some m => if m.down then s else takeInput s p (fun x => x.popRq p (qKey side 1)) m
    | none => s))

/-! ## Combination (R175, Table 7.6) -/

/-- An instance holds every input it needs: the local one, and one from each child. -/
def Inst.complete (i : Inst) (e : Nat × Nat) : Bool :=
  !i.done && (!meLocal e || i.supplied (meRop e) none) &&
  (i.children.filter (fun c => i.supplied (meRop e) (some c))).length == meChildren e

/-- Element size of a rule in bytes. -/
def ropSize (rop : Nat) : Nat := if rop == 1 || (6 ≤ rop && rop ≤ 9) then 8 else 4

/-- The value and index of a record. -/
def recordKey (isInt : Bool) (r : Nat) : Fv × Nat :=
  (if isInt then Fv.ofZ (sext (fld r 0 32) 32) else d32 (BitVec.ofNat 32 (fld r 0 32)), fld r 32 32)

/-- The higher-ranked of two records (R119). -/
def recordMax (isInt : Bool) (a b : Nat) : Nat := if ranksAbove (recordKey isInt b) (recordKey isInt a) then b else a

/-- Two elements combined. -/
def ropElem (rop a b : Nat) : Nat :=
  match rop with
  | 0 => (fadd (BitVec.ofNat 32 a) (BitVec.ofNat 32 b)).toNat
  | 1 => (a + b) % 2 ^ 64
  | 2 => (fmax (BitVec.ofNat 32 a) (BitVec.ofNat 32 b)).toNat
  | 3 => (fmin (BitVec.ofNat 32 a) (BitVec.ofNat 32 b)).toNat
  | 4 => if sext a 32 < sext b 32 then b else a
  | 5 => if sext b 32 < sext a 32 then b else a
  | 6 => recordMax false a b
  | 7 => recordMax true a b
  | 10 => a &&& b
  | 11 => a ||| b
  | _ => (a + b) % 2 ^ 32

def elemsOf (sz : Nat) (bs : List Byte) : List Nat := (List.range (bs.length / sz)).map (fun i => leAt bs (sz * i) sz)

/-- Two payloads combined element by element, over the shorter. -/
def combineElems (rop : Nat) (a b : List Byte) : List Byte :=
  let sz := ropSize rop
  (((elemsOf sz a).zip (elemsOf sz b)).map (fun x => leBytes sz (ropElem rop x.1 x.2))).flatten

/-- A record inserted in rank order. -/
def insRecord (isInt : Bool) (x : Nat) : List Nat → List Nat
  | [] => [x]
  | y :: t => if ranksAbove (recordKey isInt x) (recordKey isInt y) then x :: y :: t else y :: insRecord isInt x t

/-- The inputs of an instance in combination order: the local one first, then the children by number, each with its
parts in order. -/
def Inst.ordered (i : Inst) : List (List Byte) :=
  let one (src : Option Nat) := (((i.inputs.filter (fun x => x.src == src)).map (fun x => x.msg.pay)).flatten)
  (if i.begun none then [one none] else []) ++ i.children.map (fun c => one (some c))

/-- The combined payload of an instance, and whether its inputs differ in length where they must not. -/
def Inst.combined (i : Inst) (rop : Nat) : List Byte × Bool :=
  let xs := i.ordered
  if isList rop then
    let isInt := rop == 9
    let longest := xs.foldl (fun a x => max a (x.length / 8)) 0
    let all := (xs.map (elemsOf 8)).flatten
    (((all.foldl (fun l r => (insRecord isInt r l).take longest) []).map (leBytes 8)).flatten, false)
  else
    match xs with
    | [] => ([], false)
    | x :: t => (t.foldl (fun a y => combineElems rop a y) x, t.any (fun y => y.length != x.length))

def Inst.poisoned (i : Inst) : Bool := i.inputs.any (fun x => x.msg.poison)

/-- A result on its way up to a node (R177): lists of more than 64 units go as a train of parts. -/
def upMsgs (s : State) (n : Nat) (dest tree rop tag part gen : Nat) (bad : Bool) (pay : List Byte) : List Msg :=
  let one (pt : Nat) (last : Bool) (bs : List Byte) : Msg :=
    (((((mkMsg dest tag gen (ropKind rop) bad bs).put 34 34 (srcOf s n 0)).put 107 6 tree).put 113 4 rop).put 117 2 pt).put 119 1 (b2n last)
  if isList rop then
    let k := (pay.length + 4095) / 4096
    (List.range k).map (fun j => one j (j + 1 == k) ((pay.drop (4096 * j)).take 4096))
  else [one part true pay]

/-- A down message (R177): as an up message, from the root, with the down bit. -/
def downMsgs (s : State) (src dest tree rop tag part gen : Nat) (bad : Bool) (pay : List Byte) : List Msg :=
  (upMsgs s 0 dest tree rop tag part gen bad pay).map (fun m => (m.put 34 34 src).put 120 1 1)

/-- Data messages with a result: one, or one for each 4,096 bytes of a list. -/
def dataMsgs (src dest tag gen : Nat) (bad : Bool) (pay : List Byte) : List Msg :=
  (List.range ((pay.length + 4095) / 4096)).map (fun j =>
    (mkMsg dest tag gen 0 bad ((pay.drop (4096 * j)).take 4096)).put 34 34 src)

/-- Messages that a node originates for an instance wait in its combine buffer to leave, counted (R223). The device ID 0xFFFF
becomes the own one, and one that egress would drop is dropped here (R166, log 37). -/
def nodeSend (s : State) (p id : Nat) (l : List Msg) : State :=
  l.foldl (fun x m =>
    let m1 := if m.dstDev == 0xFFFF then m.put 0 16 x.deviceId else m
    if malformed x m1 then dropMalformed x p m1
    else (x.count m1 1).modTile p (fun t => t.modRouter (fun r => { r with nodeOut := r.nodeOut ++ [(id, m1)] }))) s

/-- What the down phase does at the node of tile n (R177): delivery to its own tile, then a down message to each child
in ascending order. `chained` are the children that are roots of lower trees; they too are named by their tile. -/
def downPhase (s : State) (p n id tree src tag part : Nat) (children : List Nat) (bad : Bool) (pay : List Byte) : State :=
  let e := s.member n tree
  let g := (s.tile p).sect.gen.toNat
  let s1 := if meDown e then nodeSend s p id (dataMsgs src (tileDest n (meUnit e) (mePort e)) tag g bad pay) else s
  nodeSend s1 p id (children.flatMap (fun c => downMsgs s1 src (tileDest c 0 0) tree (meRop e) tag part g bad pay))

/-- A root whose result needs no message gives up its entry at once (R176). -/
def dropIdleRoots (s : State) (p : Nat) : State :=
  s.modTile p (fun t => t.modRouter (fun r =>
    { r with insts := r.insts.filter (fun i => !i.root || r.nodeOut.any (fun e => e.1 == i.id)) }))

/-- INSTANCE_COMBINED (R175-R177): the first complete instance of a tree and tag is combined; its result goes up, or is
delivered at the root, where the down phase starts. -/
def execInstanceCombined (p : BitVec 11) (tree : BitVec 6) (tag : BitVec 16) (s : State) : Host.Outcome State Fault Refusal :=
  let p := p.toNat
  .next (done s (
    match s.logical p with
    | none => s
    | some n =>
      let e := s.member n tree.toNat
      let l := (s.tile p).router.insts
      match (List.range l.length).find? (fun k => match l[k]? with
        | some i => i.tree == tree.toNat && i.tag == tag.toNat && i.complete e
        | none => false) with
      | none => s
      | some k =>
        match l[k]? with
        | none => s
        | some i =>
          let (pay, short) := i.combined (meRop e)
          let bad := short || i.poisoned
          let g := (s.tile p).sect.gen.toNat
          let s1 := (setInsts s p (l.set k { i with done := true, root := meRoot e && !meChain e })).bumpTile p (bankFbc 6) 1
          if !meRoot e then nodeSend s1 p i.id (upMsgs s1 n (tileDest (meParent e) 0 0) i.tree (meRop e) i.tag i.part g bad pay)
          else if meChain e then nodeSend s1 p i.id (upMsgs s1 n (meDest e) (meChainTree e) (meRop e) i.tag i.part g bad pay)
          else
            let src := srcOf s n 0
            let s2 := if meValid e then nodeSend s1 p i.id (dataMsgs src (meDest e) i.tag g bad pay) else s1
            dropIdleRoots (downPhase s2 p n i.id i.tree src i.tag i.part i.children bad pay) p))

/-- The roots of tile n that are chained to a tree of the die that a down message comes from (R177). -/
def chainedRoots (s : State) (n : Nat) (m : Msg) : List Nat :=
  (List.range 64).filter (fun k =>
    let e := s.member n k
    meIs e && meRoot e && meChain e && meChainTree e == m.tree && fld (meDest e) 16 2 == m.srcDie)

/-- An instance of tree t at router p waits for the down message m. -/
def awaits (s : State) (n t : Nat) (m : Msg) (i : Inst) : Bool := i.is t m.tag m.part (meRop (s.member n t)) && i.done && !i.root

/-- The tree of tile n that a down message is for (R177): its own of that number, when the message comes from a root of its die and not
from its own node, or one whose root is chained to it; one that waits for such a message before another. -/
def downTree (s : State) (p n : Nat) (own : Bool) (m : Msg) : Option Nat :=
  let l := (if own && meIs (s.member n m.tree) && m.srcDie == lDie n then [m.tree] else []) ++ chainedRoots s n m
  (l.find? (fun t => (s.tile p).router.insts.any (awaits s n t m))).orElse (fun _ => l.head?)

/-- The node at router p takes a down message (R177): a list's parts each pass on their own, and the entry of the instance is freed
with the last. -/
def takeDown (s : State) (p : Nat) (own : Bool) (pop : State → State) (m : Msg) : State :=
  if firewalled s m m.dstTile then endMsg (pop (dropFirewall s p m)) m
  else
    let n := m.dstTile
    match downTree s p n own m with
    | none => endMsg (pop (dropTree s p m)) m
    | some t =>
      let l := (s.tile p).router.insts
      let k := l.findIdx (awaits s n t m)
      let kids := match l[k]? with | some i => i.children | none => []
      let l1 := if m.last || !isList (meRop (s.member n t)) then l.eraseIdx k else l
      let src := if t == m.tree && own && m.srcDie == lDie n then m.src else srcOf s n 0
      downPhase (endMsg (pop (setInsts s p l1)) m) p n (s.tile p).router.instId t src m.tag m.part kids m.poison m.pay

/-- DOWN_MESSAGE (R177): the down message at the head of lane 1. -/
def execDownMessage (p : BitVec 11) (side : Side) (s : State) : Host.Outcome State Fault Refusal :=
  let p := p.toNat
  .next (done s (
    match treeHead s p side with
    | some m => if m.down then takeDown s p (side != .node) (fun x => x.popRq p (qKey side 1)) m else s
    | none => s))

/-- RE_INJECTION (R190): the oldest spilled load of router p goes on once its next queue holds 4 flits or fewer, as the re-injection
requester; at its destination it is delivered, or taken by the node. -/
def execReInjection (p : BitVec 11) (err : Option FlitError) (s : State) : Host.Outcome State Fault Refusal :=
  let p := p.toNat
  let pop (x : State) : State := popSpill x p
  .next (done s (
    match (s.tile p).router.spill.head? with
    | none => s
    | some e =>
      match e.load with
      | .parcel x =>
        if endsHere s p e.side e.load then
          (if ejectGranted s p .reinject then parcelArrives (pop (takeEject s p .reinject)) x else s)
        else hopGranted s p .reinject err e.load pop
      | .msg m0 =>
        let m := m0.respilled
        match atDike s p e.side e.lane reKey m pop with
        | .stays s1 => s1
        | .goes s1 =>
          if spreads s p e.side m then
            (match spreadMsg s1 p e.lane m err none with
             | (s2, some c) => setSpill s2 p (.msg c)
             | (s2, none) => s2)
          else if endsHere s p e.side (.msg m) then
            let x := m.ingress
            if e.lane == 1 then (if x.down then takeDown s1 p true pop x else takeInput s1 p pop x)
            else if x.kind == 4 then wakeHead s1 p .reinject pop x
            else ejectMsg s1 p .reinject pop x
          else hopGranted s1 p .reinject err (.msg m) pop))

end Sys2Proof.Machine
end

