-- ==== Sys2Proof/Machine/DevMem.lean ====
section
/-! DEFINITION. The device address map (R259-R263): segments and interleave, populated ranges, the shares of a polder, and
whole-range reads and writes of device and host memory. -/

namespace Sys2Proof.Machine

/-- Bases and segment sizes of Table 11.1. -/
def lpMapBase : Nat := 2 ^ 40
def tileMapBase : Nat := 2 ^ 42
def hSegBytes : Nat := 12 * 2 ^ 30
def lSegBytes : Nat := 24 * 2 ^ 30

def State.munit (s : State) (u : Nat) : MemUnit := agetD s.ms.units u MemUnit.reset
def State.setMunit (s : State) (u : Nat) (x : MemUnit) : State :=
  { s with ms := { s.ms with units := aput s.ms.units u x } }

/-- Units of Table 12.8 by class and index, and whether one is in service. -/
def State.unitSt (s : State) (cls i : Nat) : UnitSt := agetD s.units (256 * cls + i) ⟨.enabled, [], []⟩
def State.unitOn (s : State) (cls i : Nat) : Bool := (s.unitSt cls i).phase == .enabled

/-- A memory unit is populated: trained, and a stack's field die in service (R262, R418). -/
def State.memOn (s : State) (u : Nat) : Bool := (s.munit u).trained && (8 ≤ u || s.unitOn 0 (u / 2))

/-- Populated memory units of a tier, ascending: 0 HBM3E (units 0-7), 1 LP5X (units 8-15). -/
def State.popUnits (s : State) (tier : Nat) : List Nat := ((List.range 8).map (fun i => 8 * tier + i)).filter s.memOn

/-- A segment register: mode and unit (Table 11.10). -/
def State.segMode (s : State) (tier k : Nat) : Nat := fld (agetD s.ms.segs (64 * tier + k) 0).toNat 0 2
def State.segUnit (s : State) (tier k : Nat) : Nat := 8 * tier + fld (agetD s.ms.segs (64 * tier + k) 0).toNat 2 3

def segBytesOf (tier : Nat) : Nat := if tier == 0 then hSegBytes else lSegBytes
def segGranules (tier : Nat) : Nat := segBytesOf tier / 4096

/-- Granules that a segment takes from a unit (R261). -/
def State.segTakes (s : State) (tier k j : Nat) : Nat :=
  match s.segMode tier k with
  | 1 =>
    let m := (s.popUnits tier).length
    if (s.popUnits tier).contains j then (segGranules tier + m - 1) / m else 0
  | 2 => if s.segUnit tier k == j then segGranules tier else 0
  | _ => 0

/-- The base of a unit for a segment (R261). -/
def State.segBase (s : State) (tier k j : Nat) : Nat := ((List.range k).map (fun i => s.segTakes tier i j)).sum

/-- The tier and segment of a device address. -/
def segOf (a : Nat) : Option (Nat × Nat) :=
  if a < 64 * hSegBytes then some (0, a / hSegBytes)
  else if lpMapBase ≤ a && a < lpMapBase + 64 * lSegBytes then some (1, (a - lpMapBase) / lSegBytes)
  else none

/-- The memory unit and local address of a device address (R261). -/
def State.memAt (s : State) (a : Nat) : Option (Nat × Nat) :=
  match segOf a with
  | none => none
  | some (tier, k) =>
    let off := (if tier == 0 then a else a - lpMapBase) - k * segBytesOf tier
    let g := off / 4096
    match s.segMode tier k with
    | 1 =>
      let pop := s.popUnits tier
      (pop[g % pop.length]?).map (fun j => (j, (s.segBase tier k j + g / pop.length) * 4096 + off % 4096))
    | 2 =>
      let j := s.segUnit tier k
      if s.memOn j then some (j, (s.segBase tier k j + g) * 4096 + off % 4096) else none
    | _ => none

/-- The tile and offset of a device address in the tile range. -/
def tileAt (a : Nat) : Option (Nat × Nat) :=
  if tileMapBase ≤ a && a < tileMapBase + 1024 * 2 ^ 24 then some ((a - tileMapBase) / 2 ^ 24, (a - tileMapBase) % 2 ^ 24)
  else none

/-- A logical tile is present: its die is on the part and in service. -/
def State.tileOn (s : State) (n : Nat) : Bool := n < s.ntiles && s.unitOn 0 (lDie n)

/-- The place of a device byte, none when it is unpopulated (R260). -/
def State.place (s : State) (a : Nat) : Option Nat :=
  match tileAt a with
  | some (n, o) => if s.tileOn n then some (tileBase (s.phys n) + o) else none
  | none => (s.memAt a).map (fun x => unitBase x.1 + x.2)

/-- A range split at 64-byte granules of its addresses: (address, length). -/
def pieces (a n : Nat) : List (Nat × Nat) :=
  (granules a n).map (fun g =>
    let lo := max a (g * 64)
    (lo, min (a + n) (g * 64 + 64) - lo))

/-- Every byte of a range is populated. -/
def State.populated (s : State) (a n : Nat) : Bool := (pieces a n).all (fun x => (s.place x.1).isSome)

/-- Every byte of a range lies in populated HBM or LP5X memory. -/
def State.inMemory (s : State) (a n : Nat) : Bool := (pieces a n).all (fun x => (s.memAt x.1).isSome)

/-- A range of tile store that pumps and the host reach: none of it in the spillway or the staged-frame area (R136). -/
def State.tileOpen (s : State) (a n : Nat) : Bool :=
  (pieces a n).all (fun x => match tileAt x.1 with
    | some (t, o) => o + x.2 ≤ (s.ltile t).spillBase
    | none => true)

/-- A range lies in a polder's memory shares (R344). -/
def Polder.holds (p : Polder) (a n : Nat) : Bool :=
  (pieces a n).all (fun x => match segOf x.1 with
    | some (0, k) => p.hseg.getLsbD k
    | some (_, k) => p.lseg.getLsbD k
    | none => false)

/-- A range lies in a polder's memory shares or tiles. -/
def Polder.reaches (p : Polder) (a n : Nat) : Bool :=
  (pieces a n).all (fun x => match tileAt x.1 with
    | some (t, _) => p.tiles.contains t
    | none => p.holds x.1 x.2)

def State.polder? (s : State) (p : Nat) : Option Polder := aget? s.polders p

/-- The polder's own test, false for a polder that does not exist. -/
def State.polderHolds (s : State) (p a n : Nat) : Bool := ((s.polder? p).map (fun x => x.holds a n)).getD false
def State.polderReaches (s : State) (p a n : Nat) : Bool := ((s.polder? p).map (fun x => x.reaches a n)).getD false

/-- A read of one piece of a granule of device memory: zeros with poison where it is unpopulated (R260), zeros where
it is closed (R136). -/
def State.readPiece (s : State) (x : Nat × Nat) : List Byte × Bool :=
  match s.place x.1 with
  | none => (List.replicate x.2 0, true)
  | some pa => if s.tileOpen x.1 x.2 then (s.mem.read pa x.2, s.mem.poisoned pa x.2) else (List.replicate x.2 0, false)

/-- Device bytes. -/
def State.devRead (s : State) (a n : Nat) : List Byte := ((pieces a n).map (fun x => (s.readPiece x).1)).flatten
/-- Some granule of a range of device bytes reads with poison. -/
def State.devPoison (s : State) (a n : Nat) : Bool := (pieces a n).any (fun x => (s.readPiece x).2)

/-- One piece of a device write, unless it is unpopulated or closed: then it is discarded. -/
def writePiece (a : Nat) (bs : List Byte) (bad : Nat → Bool) (s : State) (e : Nat × Nat) : State :=
  match s.place e.1 with
  | none => s
  | some pa =>
    if s.tileOpen e.1 e.2 then
      let y := { s with mem := s.mem.write pa ((bs.drop (e.1 - a)).take e.2) (bad (e.1 / 64)) }
      match tileAt e.1 with
      | some (n, _) => y.wrote (y.phys n) [pa / 64] (if e.2 == 64 then [pa / 64] else [])
      | none => y
    else s

/-- Device bytes written, granule by granule. `bad` tells of each granule whether it carries poison. -/
def State.devWrite (s : State) (a : Nat) (bs : List Byte) (bad : Nat → Bool) : State :=
  (pieces a bs.length).foldl (writePiece a bs bad) s

/-- A granule of device memory merged with some new bytes: the word is rewritten, its mark stays unless the new bytes carry poison,
and it stays on the local list (R137, R153). -/
def State.devMerge (s : State) (a : Nat) (bs : List Byte) (bad : Bool) : State :=
  match s.place a with
  | none => s
  | some pa =>
    if s.tileOpen a 64 then
      let m := s.mem.putBytes pa bs
      let y := { s with mem := if bad then m.mark (pa / 64) true else m }
      match tileAt a with
      | some (n, _) => y.wrote (y.phys n) [pa / 64] []
      | none => y
    else s

/-- Host memory: bytes and poison. -/
def State.hostRead (s : State) (a n : Nat) : List Byte := s.mem.read (hostBase + a) n
def State.hostPoison (s : State) (a n : Nat) : Bool := s.mem.poisoned (hostBase + a) n
def State.hostWrite (s : State) (a : Nat) (bs : List Byte) (poison : Bool) : State :=
  { s with mem := s.mem.write (hostBase + a) bs poison }

/-- Bytes of a range in host or device memory. -/
def State.anyRead (s : State) (host : Bool) (a n : Nat) : List Byte := if host then s.hostRead a n else s.devRead a n
def State.anyPoison (s : State) (host : Bool) (a n : Nat) : Bool := if host then s.hostPoison a n else s.devPoison a n
def State.anyWrite (s : State) (host : Bool) (a : Nat) (bs : List Byte) : State :=
  if host then s.hostWrite a bs false else s.devWrite a bs (fun _ => false)

/-! ## Accesses that are counted, and errors met on the way -/

/-- An access of hub agent `agent` to an unpopulated address (R260). -/
def unpopAccess (s : State) (agent : Nat) : State :=
  let due : Bool := match aget? s.ms.unpopAt agent with | some c => c + 1048576 ≤ s.clk | none => true
  let s1 := { s with ms := { s.ms with unpop := sat32 s.ms.unpop 1 } }
  if due then { s1 with ms := { s1.ms with unpopAt := aput s1.ms.unpopAt agent s.clk } }.event 0x3170 14 agent none [] else s1

/-- An access to the spillway or the staged-frame area of a logical tile (R136). -/
def refusedAccess (s : State) (n : Nat) : State :=
  (s.modTile (s.phys n) (fun t => t.modRegs (fun r => { r with refused := sat32 r.refused 1 }))).physOnce (s.phys n) 0x3113 1 []

/-- The first logical tile whose closed areas a range touches. -/
def closedTile (s : State) (a n : Nat) : Option Nat :=
  ((pieces a n).find? (fun x => match tileAt x.1 with
    | some (t, o) => s.tileOn t && !(o + x.2 ≤ (s.ltile t).spillBase)
    | none => false)).bind (fun x => (tileAt x.1).map (·.1))

/-- An agent touches a device range: lines the host has read are snooped first (R294). -/
def touchDev (s : State) (a n : Nat) : State :=
  s.backInv ((s.host.hostLines.filter (fun (e : Nat × Nat) => e.2 < a + n && a < e.2 + 64)).map (·.1))

/-- A device access of a hub agent: snooped, and noted when it is unpopulated or closed. -/
def noteAccess (s0 : State) (agent a n : Nat) : State :=
  let s := touchDev s0 a n
  let s1 := if s.populated a n then s else unpopAccess s agent
  match closedTile s1 a n with
  | some t => refusedAccess s1 t
  | none => s1

/-- Free-value bytes: what a read through an entry that has become invalid brings (log 19). -/
def freeBytes (s : State) (n : Nat) : List Byte × State :=
  let (v, s1) := s.draw
  (leBytes n v, s1)

/-- A corrected error at memory unit u (R265). -/
def unitCorr (s : State) (u : Nat) : State :=
  let x := s.munit u
  let due : Bool := match x.logAt with | some c => c + 2 ^ 30 ≤ s.clk | none => true
  let s1 := s.setMunit u { x with corr := sat32 x.corr 1, logAt := if due then some s.clk else x.logAt }
  if due then s1.event 0x2170 12 u none [] else s1

/-- An uncorrectable error at the word at local address l of memory unit u, device address a (R265). -/
def unitUncorr (s : State) (u l a : Nat) : State :=
  let x := s.munit u
  let s1 := s.setMunit u { x with uncorr := BitVec.ofNat 16 (satAdd 16 x.uncorr.toNat 1) }
  ({ s1 with mem := s1.mem.mark ((unitBase u + l) / 64) true }).event 0x3173 12 u none (detailOf [(8, a)])

/-- The word at local address l of memory unit u, device address a, read with flipped bits (R265): an error in one symbol is
corrected, one in two is detected; of more symbols the code guarantees nothing, and the outcome is free. -/
def unitRead (s : State) (u l a : Nat) (e : BitVec 512) (f : BitVec 16) : State :=
  let g := (unitBase u + l) / 64
  let read := wordAt s g ^^^ e
  match symbolsHit e f with
  | 0 => s
  | 1 => unitCorr s u
  | 2 => unitUncorr (setWord s g read) u l a
  | _ =>
    let (v, s1) := s.draw
    if v % 3 == 0 then setWord s1 g read
    else if v % 3 == 1 then
      let (bs, s2) := freeBytes s1 64
      unitCorr (setWord s2 g (BitVec.ofNat 512 (leNat bs))) u
    else unitUncorr (setWord s1 g read) u l a

/-- A read of some device ranges, one behind the other, meets flipped bits in one of its words (R151, R265); a closed area is not
read (R136). -/
def errorIn (s : State) (ranges : List (Nat × Nat)) (flips : Option Flips) : State :=
  match flips with
  | none => s
  | some x =>
    match ((ranges.flatMap (fun r => pieces r.1 r.2)).filter (fun y => s.tileOpen y.1 y.2))[x.piece]? with
    | none => s
    | some y =>
      match tileAt y.1 with
      | some (t, o) => if s.tileOn t then otherRead s (s.phys t) (o / 64) x.data x.check x.marks else s
      | none =>
        match s.memAt y.1 with
        | some (u, loc) => unitRead s u (loc / 64 * 64) (y.1 / 64 * 64) x.data x.check
        | none => s

/-- A read of one device range meets flipped bits. -/
def errorAt (s : State) (a n : Nat) (flips : Option Flips) : State := errorIn s [(a, n)] flips

/-- Bytes read for a hub agent, in host or device memory, with bit i set when the i-th 64-byte piece carries poison. -/
def badPieces (s : State) (host : Bool) (a n : Nat) : Nat :=
  maskOf ((n + 63) / 64) (fun i => s.anyPoison host (a + 64 * i) (min 64 (n - 64 * i)))

/-! ## What a command moves (R348) -/

/-- The weir and bucket of an access: memory by its unit, the host port by direction. -/
def cpBucket (s : State) (host : Bool) (a : Nat) (write : Bool) : Option (Nat × Nat) :=
  if host then some (2, b2n write) else (s.memAt a).map (fun x => if x.1 < 8 then (0, x.1) else (1, x.1 - 8))

/-- Bytes that a command of a context moves once it runs: its bucket is charged, and holds the next unit back (R349, log 64). -/
def cpCharge (s : State) (ctx : Nat) (host : Bool) (a n : Nat) (write : Bool) : State :=
  match s.polderOfCtx ctx, cpBucket s host a write with
  | some q, some (w, b) =>
    let x := s.weir q w
    if x.rate = 256 then s else s.setWeir q w { x with tokens := aput x.tokens b (x.t b - Int.ofNat (n * 256)) }
  | _, _ => s

end Sys2Proof.Machine
end

