-- ==== Sys2Proof/Machine/Images.lean ====
section
/-! DEFINITION. Section images (09): header, tables and declarations (R213-R215), the checks of Table 9.4 (R217-R219),
gauge bindings (R193) and staging (R220). An image is read through a function `rd` of offset and length. -/

namespace Sys2Proof.Machine

/-- A failed check: status, event and first offending item (R217). -/
structure ImgFail where
  status : Nat
  event : Nat
  item : Nat

def rdNum (rd : Nat → Nat → List Byte) (o n : Nat) : Nat := leNat (rd o n)
def allZero (bs : List Byte) : Bool := bs.all (· == 0)

/-! ## Header (Table 9.1) -/

def ihRegOff (rd : Nat → Nat → List Byte) : Nat := rdNum rd 28 4
def ihRegCount (rd : Nat → Nat → List Byte) : Nat := rdNum rd 32 2
def ihDeclOff (rd : Nat → Nat → List Byte) : Nat := rdNum rd 36 4
def ihDeclLen (rd : Nat → Nat → List Byte) : Nat := rdNum rd 40 4
def ihFtOff (rd : Nat → Nat → List Byte) : Nat := rdNum rd 44 4
def ihFtCount (rd : Nat → Nat → List Byte) : Nat := rdNum rd 48 4
def ihFdOff (rd : Nat → Nat → List Byte) : Nat := rdNum rd 52 4
def ihSigOff (rd : Nat → Nat → List Byte) : Nat := rdNum rd 56 4

/-- The parts of an image as (offset, length). -/
def imgParts (rd : Nat → Nat → List Byte) : List (Nat × Nat) :=
  [(0, 256), (ihRegOff rd, 8 * ihRegCount rd), (ihDeclOff rd, ihDeclLen rd), (ihFtOff rd, 8 * ihFtCount rd),
   (ihFdOff rd, 4096 * ihFtCount rd)] ++ (if ihSigOff rd == 0 then [] else [(ihSigOff rd, 16232)])

/-- Two ranges share a byte. -/
def overlap (a b : Nat × Nat) : Bool := a.1 < b.1 + b.2 && b.1 < a.1 + a.2 && a.2 != 0 && b.2 != 0

/-- Some pair of a list fails a test; `pairFail` gives the later index of the first such pair. -/
def pairFail {α : Type} (l : List α) (bad : α → α → Bool) : Option Nat :=
  (List.range l.length).find? (fun i =>
    match l[i]? with
    | some x => (l.take i).any (fun y => bad y x)
    | none => false)

/-- Step 1: structure. -/
def imgStructOk (rd : Nat → Nat → List Byte) (len : Nat) : Bool :=
  len ≥ 256 && rdNum rd 0 4 == 0x534B544C && rdNum rd 4 2 == 1 && rdNum rd 16 4 == len &&
  1 ≤ ihRegCount rd && ihRegCount rd ≤ 64 && 1 ≤ ihFtCount rd && ihFtCount rd ≤ 4096 &&
  [ihRegOff rd, ihDeclOff rd, ihFtOff rd, ihFdOff rd, ihSigOff rd].all (fun o => o % 8 == 0) &&
  ihFdOff rd % 4096 == 0 && (ihSigOff rd == 0 || ihSigOff rd + 16232 == len) &&
  (imgParts rd).all (fun p => p.1 + p.2 ≤ len) && (pairFail (imgParts rd) overlap).isNone &&
  rdNum rd 26 2 == 0 && rdNum rd 34 2 == 0 && rdNum rd 60 4 == 0 && allZero (rd 128 128)

/-- Geometry word of the part (Table 9.1). -/
def State.geometry (s : State) : Nat := 64 + s.ntiles * 2 ^ 8 + 4 * 2 ^ 19

/-- Step 2: identity. -/
def imgIdentityOk (s : State) (rd : Nat → Nat → List Byte) : Bool :=
  rdNum rd 6 2 == s.family && bitOf (rdNum rd 8 4) 0 && rdNum rd 12 4 == s.geometry

/-- The hashed bytes of an image (R213). -/
def imgHashed (rd : Nat → Nat → List Byte) (len : Nat) : List Byte :=
  let n := if ihSigOff rd == 0 then len else ihSigOff rd
  rd 0 64 ++ List.replicate 32 0 ++ rd 96 (n - 96)

/-- Step 3: digest. -/
def imgDigestOk (rd : Nat → Nat → List Byte) (len : Nat) : Bool := sha256 (imgHashed rd len) == rd 64 32

/-! ## Owner policy as staging sees it (R218, R397) -/

def Security.signed (x : Security) : Bool := bitOf (leAt x.policy 8 1) 0
/-- Runs wait for a quote (R407). -/
def Security.attestHolds (x : Security) : Bool := bitOf (leAt x.policy 8 1) 1 && !x.quoted
def Security.ownerKey (x : Security) (k : Nat) : List Byte := (x.policy.drop (16 + 48 * k)).take 48
def Security.ownerSlotOk (x : Security) (k : Nat) : Bool :=
  k < 4 && !allZero (x.ownerKey k) && !bitOf (leAt x.policy 9 1) k

/-- Step 4: none when it fails, else whether the signature was verified (R218). -/
def imgSignature (s : State) (rd : Nat → Nat → List Byte) (sigOk : Bool) : Except Nat Bool :=
  let o := ihSigOff rd
  if s.sec.error then (if s.sec.signed then .error stSecurity else .ok false)
  else if o == 0 then (if s.sec.signed then .error stImageSignature else .ok false)
  else if sigOk && s.sec.ownerSlotOk (rdNum rd o 2) && rdNum rd (o + 2) 2 == 0 && rdNum rd (o + 16228) 4 == 0 then .ok true
  else .error stImageSignature

/-! ## Region and frame table (R214, R215) -/

/-- A region entry: die, x0, x1, y0, y1. -/
def regionTiles (e : List Byte) : List Nat :=
  let d := leAt e 0 1 % 4
  (List.range 16).flatMap (fun y => ((List.range 16).filter (fun x =>
    leAt e 1 1 ≤ x && x ≤ leAt e 2 1 && leAt e 3 1 ≤ y && y ≤ leAt e 4 1)).map (fun x => lOf d x y))

def regionWellFormed (e : List Byte) : Bool :=
  leAt e 0 1 < 4 && leAt e 1 1 ≤ leAt e 2 1 && leAt e 2 1 ≤ 15 && leAt e 3 1 ≤ leAt e 4 1 && leAt e 4 1 ≤ 15 && leAt e 5 3 == 0

def imgRegions (rd : Nat → Nat → List Byte) : List (List Byte) :=
  (List.range (ihRegCount rd)).map (fun i => rd (ihRegOff rd + 8 * i) 8)

/-- The tiles of the region, ascending. -/
def imgTiles (rd : Nat → Nat → List Byte) : List Nat := (imgRegions rd).foldl (fun a e => (regionTiles e).foldl insNat a) []

/-- Frame-table entries. -/
def imgFrames (rd : Nat → Nat → List Byte) : List Nat := (List.range (ihFtCount rd)).map (fun i => rdNum rd (ihFtOff rd + 8 * i) 8)
def feTile (e : Nat) : Nat := fld e 0 10
def feFrame (e : Nat) : Nat := fld e 10 2

/-- Index of the frame-table entry of a tile's frame. -/
def frameAt (l : List Nat) (n k : Nat) : Option Nat := l.findIdx? (fun e => feTile e == n && feFrame e == k)

/-! ## Declarations (Table 9.3) -/

/-- Records of the declarations: offset, type, length; the walk ends at a record that does not fit, with its offset. -/
def declWalk (rd : Nat → Nat → List Byte) : Nat → Nat → Nat → List (Nat × Nat × Nat) × Option Nat
  | 0, _, _ => ([], none)
  | k + 1, o, stop =>
    if o ≥ stop then ([], none)
    else
      let len := rdNum rd (o + 2) 2
      if o + 8 > stop || len < 8 || len % 8 != 0 || o + len > stop then ([], some o)
      else
        let r := declWalk rd k (o + len) stop
        ((o, rdNum rd o 2, len) :: r.1, r.2)

def imgDecls (rd : Nat → Nat → List Byte) : List (Nat × Nat × Nat) × Option Nat :=
  declWalk rd (ihDeclLen rd / 8 + 1) (ihDeclOff rd) (ihDeclOff rd + ihDeclLen rd)

/-- Members of a tree record: logical tile and the two words. -/
def treeMembers (rd : Nat → Nat → List Byte) (o len : Nat) : List (Nat × Nat × Nat) :=
  (List.range ((len - 16) / 24)).map (fun i =>
    let b := o + 16 + 24 * i
    (rdNum rd b 2, rdNum rd (b + 8) 8, rdNum rd (b + 16) 8))

/-- Tiles that a declaration names, which must lie in the region (step 5). -/
def declTiles (rd : Nat → Nat → List Byte) (d : Nat × Nat × Nat) : List Nat :=
  let (o, ty, len) := d
  if ty == 1 && len ≥ 16 then [rdNum rd (o + 8) 2]
  else if ty == 3 && len ≥ 16 then (treeMembers rd o len).map (·.1)
  else if (ty == 4 || ty == 5) && len ≥ 12 && rdNum rd (o + 8) 1 == 1 then [rdNum rd (o + 10) 2]
  else []

/-- Step 5: region. -/
def imgRegionFail (s : State) (rd : Nat → Nat → List Byte) (polder : Nat) : Option Nat :=
  let rs := imgRegions rd
  let own := ((s.polder? polder).map (·.tiles)).getD []
  let tiles := imgTiles rd
  let bad := (List.range rs.length).find? (fun i =>
    match rs[i]? with
    | some e => !regionWellFormed e || !(leAt e 0 1 < s.dies) || !(regionTiles e).all own.contains ||
        (rs.take i).any (fun f => (regionTiles e).any (regionTiles f).contains)
    | none => false)
  match bad with
  | some i => some i
  | none =>
    match (imgFrames rd).findIdx? (fun e => !tiles.contains (feTile e)) with
    | some i => some i
    | none => ((imgDecls rd).1.find? (fun d => (declTiles rd d).any (fun n => !tiles.contains n))).map (·.1)

/-- Fields of a declaration that its type fixes (Table 9.3, R173, R216). -/
def declOk (rd : Nat → Nat → List Byte) (d : Nat × Nat × Nat) : Bool :=
  let (o, ty, len) := d
  rdNum rd (o + 4) 4 == 0 &&
  (match ty with
   | 1 => len == 24 && rdNum rd (o + 8) 2 < 1024 && allZero (rd (o + 10) 6)
   | 2 =>
     let f := rdNum rd (o + 11) 1
     len == 16 && rdNum rd (o + 8) 2 < 2048 && rdNum rd (o + 10) 1 ≤ 4 && f < 4 && (!bitOf f 1 || bitOf f 0)
   | 3 =>
     let c := rdNum rd (o + 10) 2
     len == 16 + 24 * c && 1 ≤ c && c ≤ 256 && rdNum rd (o + 8) 1 < 4 && rdNum rd (o + 9) 1 < 64 && rdNum rd (o + 12) 4 == 0 &&
     (List.range c).all (fun i => rdNum rd (o + 16 + 24 * i) 2 < 1024 && allZero (rd (o + 18 + 24 * i) 6))
   | 4 => len == 32 && rdNum rd (o + 8) 1 ≤ 1 && rdNum rd (o + 9) 1 == 0 && rdNum rd (o + 12) 4 == 0 && rdNum rd (o + 24) 8 > 0
   | 5 => len == 32 && rdNum rd (o + 8) 1 ≤ 1 && rdNum rd (o + 9) 1 == 0 && rdNum rd (o + 12) 4 == 0 && rdNum rd (o + 24) 8 > 0
   | _ => false)

/-- Parsed declarations. -/
def gaugeDecls (rd : Nat → Nat → List Byte) : List GaugeDecl :=
  ((imgDecls rd).1.filter (fun d => d.2.1 == 2)).map (fun d =>
    let f := rdNum rd (d.1 + 11) 1
    ⟨rdNum rd (d.1 + 8) 2, rdNum rd (d.1 + 10) 1, bitOf f 0, bitOf f 1, BitVec.ofNat 32 (rdNum rd (d.1 + 12) 4), d.1⟩)

def treeDecls (rd : Nat → Nat → List Byte) : List TreeDecl :=
  ((imgDecls rd).1.filter (fun d => d.2.1 == 3)).map (fun d =>
    ⟨rdNum rd (d.1 + 8) 1, rdNum rd (d.1 + 9) 1,
     (treeMembers rd d.1 d.2.2).map (fun m => (m.1, BitVec.ofNat 64 m.2.1, BitVec.ofNat 64 m.2.2)), d.1⟩)

def ioDecls (rd : Nat → Nat → List Byte) (ty : Nat) : List IoDecl :=
  ((imgDecls rd).1.filter (fun d => d.2.1 == ty)).map (fun d =>
    ⟨if rdNum rd (d.1 + 8) 1 == 1 then some (rdNum rd (d.1 + 10) 2) else none, rdNum rd (d.1 + 16) 8, rdNum rd (d.1 + 24) 8, d.1⟩)

def settingDecls (rd : Nat → Nat → List Byte) : List (Nat × Nat × Nat) :=
  ((imgDecls rd).1.filter (fun d => d.2.1 == 1)).map (fun d => (d.1, rdNum rd (d.1 + 8) 2, rdNum rd (d.1 + 16) 8))

/-- Settings word of a tile (Table 9.3 type 1). -/
def tileSettings (rd : Nat → Nat → List Byte) (n : Nat) : W64 :=
  match (settingDecls rd).find? (fun x => x.2.1 == n) with
  | some x => BitVec.ofNat 64 x.2.2
  | none => settingsReset

/-! ## Trees (R173) -/

def mwords (m : Nat × W64 × W64) : Nat × Nat := (m.2.1.toNat, m.2.2.toNat)

/-- Following parents from a tile ends at the root within the member count. -/
def reachesRoot (t : TreeDecl) : Nat → Nat → Bool
  | 0, _ => false
  | k + 1, n =>
    match t.members.find? (fun m => m.1 == n) with
    | none => false
    | some m => if meRoot (mwords m) then true else reachesRoot t k (meParent (mwords m))

/-- Children that a node's chained trees of the same image add (R173). -/
def chainedTo (ts : List TreeDecl) (die tree n : Nat) : Nat :=
  (ts.flatMap (·.members)).foldl (fun a m =>
    let e := mwords m
    if meRoot e && meChain e && meChainTree e == tree && meDest e / 2 ^ 16 % 4 == die &&
       lOf (fld (meDest e) 16 2) (fld (meDest e) 18 4) (fld (meDest e) 22 5) == n then a + 1 else a) 0

/-- A tree record breaks a rule of R173. -/
def treeBad (ts : List TreeDecl) (t : TreeDecl) : Bool :=
  t.members.any (fun m => meChildren (mwords m) > 4 || meRop (mwords m) ≥ 13) ||
  (t.members.filter (fun m => meRoot (mwords m))).length != 1 ||
  t.members.any (fun m => !meRoot (mwords m) && !t.members.any (fun x => x.1 == meParent (mwords m))) ||
  t.members.any (fun m => !reachesRoot t (t.members.length + 1) m.1) ||
  t.members.any (fun m =>
    meChildren (mwords m) < (t.members.filter (fun x => !meRoot (mwords x) && meParent (mwords x) == m.1)).length +
      chainedTo ts t.die t.tree m.1 && chainedTo ts t.die t.tree m.1 != 0) ||
  t.members.any (fun m =>
    let e := mwords m
    meRoot e && meChain e && (!meValid e ||
      !ts.any (fun x => x.die == fld (meDest e) 16 2 && x.tree == meChainTree e)))

/-! ## Binding blocks (R38, R41, R109, R117, R142, Table 2.3) -/

/-- Configuration bytes that an image gives a tile (R33): the frames present, zero bytes unlisted. -/
def imgConfig (rd : Nat → Nat → List Byte) (n : Nat) : Assoc Byte :=
  let fs := imgFrames rd
  (List.range 4).flatMap (fun k =>
    match frameAt fs n k with
    | none => []
    | some i => ((List.range 4096).zip (rd (ihFdOff rd + 4096 * i) 4096)).filterMap (fun e =>
        if e.2 == 0 then none else some (4096 * k + e.1, e.2)))

/-- The tile as the image configures it. -/
def imgTile (rd : Nat → Nat → List Byte) (n : Nat) : Tile :=
  { Tile.reset with cfg := imgConfig rd n, regs := { TileRegs.reset with settings := tileSettings rd n } }

/-- Ports of unit 6 that a sluice uses. -/
def sluicePorts (e : List Byte) : List Nat :=
  match leAt e 0 1 with
  | 1 => [leAt e 1 1, leAt e 3 1]
  | 2 => [leAt e 1 1, leAt e 2 1, leAt e 3 1]
  | 3 => [leAt e 1 1, leAt e 3 1]
  | 4 => [leAt e 1 1]
  | _ => []

/-- R41. -/
def sluiceBad (t : Tile) : Bool :=
  let es := (List.range 4).map (fun k => t.cfgBytes (0x3200 + 64 * k) 64)
  let used := es.flatMap sluicePorts
  es.any (fun e =>
    leAt e 0 1 > 4 || fld (leAt e 4 1) 4 4 != 0 || leAt e 5 3 != 0 || leAt e 40 24 != 0 ||
    (List.range 4).any (fun r => fld (leAt e (8 + 8 * r) 8) 34 30 != 0) ||
    (sluicePorts e).any (fun k => k > 7 || !t.bound 6 k) ||
    ((leAt e 0 1 == 2 || leAt e 0 1 == 3) && !bitOf (leAt e 4 1) 0) ||
    (leAt e 0 1 == 4 && fld (leAt e 4 1) 0 4 == 0)) ||
  (pairFail used (fun a b => a == b)).isSome

/-- Ports of a firing set. -/
def Tile.fireSet (t : Tile) (u : Nat) : List Nat := (List.range 8).filter (fun k => (t.fireMask u).testBit k)

/-- Bytes of an output row of a streamed matrix engine (R109). -/
def outRecord (d l : List Byte) : Nat :=
  let b2 := ((loopLevels l).getD 2 ⟨0, 0, []⟩).bound
  let fmt := convFmt (mmaConv d)
  alignUp (b2 * segBytes (mmaFunc d) fmt + (if fmtIsBlock fmt then b2 * segCols (mmaFunc d) / fmtBlock fmt else 0)) 64

/-- Non-immediate operands of a streamed operation of units 2 and 3 (R117). -/
def operandsOf (u : Nat) (d : List Byte) : Nat :=
  if u == 3 then 1
  else (if vIsRand (vOp d) then 0 else 1) + b2n (vUsesB (vOp d) && !vImm d 0) + b2n (vUsesC (vOp d) && !vImm d 1)

/-- Checks of the output stream of a streamed vector engine that no token decides (R57, R111, R117): its alignment, and
its first access in its vector buffer. -/
def streamedOutBad (d l : List Byte) : Bool :=
  let st := loopStream l 2
  let w := gBytes (vFireG d) (convFmt (vConv d))
  st.enabled && ((st.wide && (st.base % w != 0 || ((loopLevels l).getD 0 ⟨0, 0, []⟩).st 2 % Int.ofNat w != 0)) ||
    (vLoc d 2 != 0 && st.base + w > 65536))

/-- Streamed-mode rules of an engine that its binding block breaks (R38, R109, R117). -/
def streamedBindBad (t : Tile) (u : Nat) : Bool :=
  t.streamed u && u != 0 && u ≤ 5 &&
  ((t.fireSet u).isEmpty || u == 4 || (u == 1 && (t.fireSet 1).length != 1) ||
   ((u == 2 || u == 3) && (t.fireSet u).length < operandsOf u (t.desc 0)))

/-- Streamed-mode rules of an engine that descriptor 0 or loop table 0, of frame 2, breaks (R109, R117). -/
def streamedOpBad (t : Tile) (u : Nat) : Bool :=
  let d := t.desc 0
  let l := t.loopT 0
  t.streamed u &&
  ((u == 1 && (leAt d 0 1 != 1 || leAt d 1 1 != 1 || !mmaWrite d || outRecord d l > 4096)) ||
   ((u == 2 || u == 3) &&
     ((List.range 5).any (fun k => ((loopLevels l).getD (k + 1) ⟨0, 0, []⟩).bound != 0) ||
      ((loopLevels l).getD 0 ⟨0, 0, []⟩).order != 0 || (u == 2 && streamedOutBad d l) || leAt d 0 1 != u || loopRsv l ||
      engineFieldFail u d l true)))

/-- Streamed-mode rules of an engine (R38, R109, R117). No chapter gives the transform engine a streamed operation: its image is
accepted, and the engine never fires (log 47). -/
def streamedBad (t : Tile) (u : Nat) : Bool := streamedBindBad t u || streamedOpBad t u

/-- Declared basins of a tile. -/
def Tile.basins? (t : Tile) : List (Nat × List Byte) :=
  ((List.range 64).map (fun b => (b, t.basinDecl b))).filter (fun x => declValid x.2)

/-- A port binding names this basin as an overflow basin, or as a store-port target. -/
def Tile.ovfUses (t : Tile) (b : Nat) : Nat :=
  ((List.range 48).filter (fun i => t.bound (i / 8 + 1) (i % 8) && t.ovfEn (i / 8 + 1) (i % 8) && t.bindBasin (i / 8 + 1) (i % 8) == b)).length
def Tile.storeUses (t : Tile) (b : Nat) : Nat := ((List.range 8).filter (fun k => t.bound 7 k && t.bindBasin 7 k == b)).length

/-- R142. -/
def basinsBad (t : Tile) : Bool :=
  t.basins?.any (fun x =>
    let d := x.2
    fld (leAt d 3 1) 0 4 > 11 || declBase d % 4096 != 0 || declBase d + declSize d > t.spillBase ||
    declPreset d % 64 != 0 || declPreset d > declSize d || declConsumer d ≥ 6 ||
    (t.ovfUses x.1 != 0 && (!declFramed d || declConsumer d != 0 || t.ovfUses x.1 > 1 || t.storeUses x.1 != 0))) ||
  (pairFail (t.basins?.map (fun x => (declBase x.2, declSize x.2))) overlap).isSome ||
  (List.range 56).any (fun i =>
    let u := i / 8 + 1
    t.bound u (i % 8) && (u == 7 || t.ovfEn u (i % 8)) && !declValid (t.basinDecl (t.bindBasin u (i % 8))))

/-- Buffer pairs (R219). -/
def pairsBad (t : Tile) : Bool :=
  let hs := (List.range 8).flatMap (fun k => [t.half 0 k 0, t.half 0 k 1])
  hs.any (fun h => h.2 != 0 && (h.1 % 256 != 0 || h.2 % 256 != 0 || h.1 + h.2 > t.spillBase)) ||
  (pairFail hs overlap).isSome

/-- The binding block of a tile and its program length. -/
def bindingBad (t : Tile) : Bool :=
  sluiceBad t || basinsBad t || t.progLen < 1 || t.progLen > 1024 || (List.range 5).any (fun i => streamedBindBad t (i + 1))

/-- Frame-table indices of the frames of tile n whose content breaks a rule (R217): its binding block, and the frame of its
descriptors and loop tables; an image that leaves that frame out is at fault in the binding block. -/
def frameFaults (fs : List Nat) (t : Tile) (n : Nat) : List Nat :=
  (if bindingBad t || pairsBad t then (frameAt fs n 3).toList else []) ++
  (if (List.range 5).any (fun i => streamedOpBad t (i + 1)) then (match frameAt fs n 2 with | some i => [i] | none => (frameAt fs n 3).toList) else [])

/-! ## Inputs and outputs (R219) -/

/-- An input lies where it may. -/
def inputOk (s : State) (polder : Nat) (rd : Nat → Nat → List Byte) (d : IoDecl) : Bool :=
  match d.tile with
  | some n => d.base + d.len ≤ (imgTile rd n).spillBase
  | none => d.base + d.len ≤ 2 ^ 48 && s.inMemory d.base d.len && s.polderHolds polder d.base d.len

def ioOverlap (a b : IoDecl) : Bool := a.tile == b.tile && overlap (a.base, a.len) (b.base, b.len)

/-- A store-port target basin of the input's tile overlaps it. -/
def targetOverlaps (rd : Nat → Nat → List Byte) (d : IoDecl) : Bool :=
  match d.tile with
  | none => false
  | some n =>
    let t := imgTile rd n
    (List.range 8).any (fun k => t.bound 7 k && overlap (declBase (t.basinDecl (t.bindBasin 7 k)), declSize (t.basinDecl (t.bindBasin 7 k))) (d.base, d.len))

/-- The later of two equal keys, by record offset. -/
def dupOff {α : Type} [BEq α] (l : List (α × Nat)) : Option Nat :=
  (pairFail l (fun a b => a.1 == b.1)).bind (fun i => (l[i]?).map (·.2))

def orElse (a : Option Nat) (b : Option Nat) : Option Nat := match a with | some x => some x | none => b

/-- Step 6: resources; the first offending item. -/
def imgResourceFail (s : State) (rd : Nat → Nat → List Byte) (polder : Nat) : Option Nat :=
  let fs := imgFrames rd
  let tiles := imgTiles rd
  let decls := (imgDecls rd).1
  let ts := treeDecls rd
  let ins := ioDecls rd 4
  let outs := ioDecls rd 5
  let frameFault := (List.range fs.length).find? (fun i =>
    match fs[i]? with
    | some e => fld e 12 52 != 0 || (fs.take i).any (fun f => feTile f == feTile e && feFrame f == feFrame e)
    | none => false)
  let noFrame3 := tiles.find? (fun n => (frameAt fs n 3).isNone)
  let declFault := orElse ((decls.find? (fun d => !declOk rd d)).map (·.1)) (imgDecls rd).2
  let treeFault := (ts.find? (treeBad ts)).map (·.off)
  let binding := (tiles.flatMap (fun n => frameFaults fs (imgTile rd n) n)).foldl
    (fun a i => match a with | some b => some (min b i) | none => some i) none
  let spill := ((settingDecls rd).find? (fun x => fld x.2.2 32 3 > 4 || fld x.2.2 35 29 != 0)).map (·.1)
  let dups := orElse (dupOff (ts.map (fun t => ((t.die, t.tree), t.off))))
    (orElse ((ts.find? (fun t => (pairFail (t.members.map (·.1)) (fun a b => a == b)).isSome || t.members.any (fun m => lDie m.1 != t.die))).map (·.off))
      (orElse (dupOff ((settingDecls rd).map (fun x => (x.2.1, x.1)))) (dupOff ((gaugeDecls rd).map (fun g => (g.vid, g.off))))))
  let io := orElse ((ins.find? (fun d => !inputOk s polder rd d)).map (·.off))
    (orElse ((ins.find? (fun d => outs.any (ioOverlap d))).map (·.off)) ((ins.find? (targetOverlaps rd)).map (·.off)))
  orElse frameFault (orElse noFrame3 (orElse declFault (orElse treeFault (orElse spill (orElse binding (orElse dups io))))))

/-! ## Capacity (step 7) and gauge bindings (R193) -/

/-- The lowest free slot of a tile (R220). -/
def freeSlot (t : Tile) : Option Nat := findBelow 16 (fun k => !t.regs.slots.getLsbD k)

/-- Location of a virtual ID that is bound already. -/
def boundAtLoc (s : State) (ctx vid : Nat) : Option Nat := (s.gaugeOf ctx vid).map (· / 4096)

/-- Free gauges of a location. -/
def freeGauges (s : State) (loc : Nat) : List Nat :=
  if loc == 4 || loc < s.dies then (List.range 4096).filter (fun i => (s.gauge (4096 * loc + i)).bound.isNone) else []

/-- Declarations that need a new binding. -/
def newGauges (s : State) (ctx : Nat) (gs : List GaugeDecl) : List GaugeDecl := gs.filter (fun g => (s.gaugeOf ctx g.vid).isNone)

/-- The first gauge record that cannot be bound, with its status. -/
def gaugeFail (s : State) (ctx : Nat) (gs : List GaugeDecl) : Option (Nat × Nat) :=
  match gs.find? (fun g => match boundAtLoc s ctx g.vid with | some l => l != g.loc | none => false) with
  | some g => some (stBusy, g.off)
  | none =>
    let short := (newGauges s ctx gs).filter (fun g =>
      (freeGauges s g.loc).length < ((newGauges s ctx gs).filter (fun x => x.loc == g.loc)).length)
    short.head?.map (fun g => (stNoResource, g.off))

/-- A virtual ID bound to a free gauge of its location: which one is the device's choice, a free value (log 17). -/
def bindGauge (s : State) (ctx : Nat) (g : GaugeDecl) : State :=
  let free := freeGauges s g.loc
  let (v, s1) := s.draw
  match free[v % max 1 free.length]? with
  | none => s
  | some i =>
    let k := 4096 * g.loc + i
    { s1.setGauge k { Gauge.reset with bound := some (BitVec.ofNat 6 ctx, BitVec.ofNat 11 g.vid) } with
      gauges := { (s1.setGauge k { Gauge.reset with bound := some (BitVec.ofNat 6 ctx, BitVec.ofNat 11 g.vid) }).gauges with
        xlat := aput s1.gauges.xlat (2048 * ctx + g.vid) (BitVec.ofNat 16 (i + 4096 * g.loc + 2 ^ 15)) } }

/-- Step 7. -/
def imgCapacityFail (s : State) (rd : Nat → Nat → List Byte) (ctx handle : Nat) : Option (Nat × Nat) :=
  if (s.image? ctx handle).isSome then some (stBusy, handle)
  else
    match (imgTiles rd).find? (fun n => (freeSlot (s.ltile n)).isNone) with
    | some n => some (stNoResource, n)
    | none => gaugeFail s ctx (gaugeDecls rd)

/-- The checks of Table 9.4 in order; `changed` tells that the second pass read other bytes. -/
def imgCheck (s : State) (rd : Nat → Nat → List Byte) (len ctx handle polder : Nat) (sigOk changed : Bool) : Except ImgFail Bool :=
  if !imgStructOk rd len || !imgIdentityOk s rd then .error ⟨stImageIdentity, 0x1181, 0⟩
  else if !imgDigestOk rd len then .error ⟨stImageSignature, 0x1183, 0⟩
  else
    match imgSignature s rd sigOk with
    | .error st => .error ⟨st, 0x1183, 0⟩
    | .ok verified =>
      match imgRegionFail s rd polder with
      | some i => .error ⟨stImageRegion, 0x1182, i⟩
      | none =>
        match imgResourceFail s rd polder with
        | some i => .error ⟨stImageResource, 0x1184, i⟩
        | none =>
          match imgCapacityFail s rd ctx handle with
          | some (st, i) => .error ⟨st, 0x1185, i⟩
          | none => if changed then .error ⟨stImageSignature, 0x1183, 0⟩ else .ok verified

/-! ## Staging (R220) -/

/-- Place of frame k of slot j in a tile store. -/
def slotPlace (p j k : Nat) : Nat := tileBase p + 0xFC0000 + 16384 * j + 4096 * k

/-- A tile's frames copied into its lowest free slot. -/
def stageTile (rd : Nat → Nat → List Byte) (x : State × Assoc Nat × Assoc Nat) (n : Nat) : State × Assoc Nat × Assoc Nat :=
  let (s, slots, frames) := x
  let p := s.phys n
  match freeSlot (s.tile p) with
  | none => x
  | some j =>
    let fs := imgFrames rd
    let s1 := s.modTile p (fun t => t.modRegs (fun r => { r with slots := BitVec.ofNat 16 (putBit r.slots.toNat j true) }))
    let s2 := (List.range 4).foldl (fun y k =>
      match frameAt fs n k with
      | some i =>
        { y with mem := y.mem.write (slotPlace p j k) (rd (ihFdOff rd + 4096 * i) 4096) false }.wrote p
          (granules (slotPlace p j k) 4096) (granules (slotPlace p j k) 4096)
      | none => y) s1
    (s2, aput slots n j, aput frames n (maskOf 4 (fun k => (frameAt fs n k).isSome)))

/-- An image that passed every check is staged: slots filled, gauges bound, its record kept. -/
def stageImage (s : State) (rd : Nat → Nat → List Byte) (host : Bool) (addr len ctx handle : Nat) (verified : Bool) (awaits : Option (Nat × Nat)) : State :=
  let tiles := imgTiles rd
  let (s1, slots, frames) := tiles.foldl (stageTile rd) (s, [], [])
  let s2 := (newGauges s ctx (gaugeDecls rd)).foldl (fun x g => bindGauge x ctx g) s1
  let img : Image :=
    { ctx := ctx, handle := handle, host := host, addr := addr, len := len, digest := rd 64 32, header := rd 0 256,
      timeout := rdNum rd 20 4, tiles := tiles, slot := slots, frames := frames,
      settings := tiles.map (fun n => (n, tileSettings rd n)), gauges := gaugeDecls rd, trees := treeDecls rd,
      inputs := ioDecls rd 4, outputs := ioDecls rd 5, sigChecked := verified,
      sigSlot := if ihSigOff rd == 0 then none else some (rdNum rd (ihSigOff rd) 2)
      awaits := awaits }
  { s2 with images := s2.images ++ [img] }.bumpLdr 5 1

/-- The slots that a second pass filled before its digest differed are zeroed; they stay free (R220). -/
def zeroSlots (s : State) (tiles : List Nat) : State :=
  tiles.foldl (fun x n =>
    match freeSlot (x.ltile n) with
    | some j =>
      { x with mem := x.mem.write (slotPlace (x.phys n) j 0) (List.replicate 16384 0) false }.wrote (x.phys n)
        (granules (slotPlace (x.phys n) j 0) 16384) (granules (slotPlace (x.phys n) j 0) 16384)
    | none => x) s

/-- A refused image: counted and logged with its event and item (R217). -/
def refuseImage (s : State) (ctx : Nat) (f : ImgFail) : State :=
  (s.bumpLdr 6 1).event f.event 14 1 (some ctx) (detailOf [(4, f.item)])

/-- The slots and the handle of an image freed (R221); gauge bindings stay (R193). -/
def dropImage (s : State) (i : Image) : State :=
  let s1 := i.tiles.foldl (fun x n =>
    x.modTile (x.phys n) (fun t => t.modRegs (fun r =>
      { r with slots := BitVec.ofNat 16 (putBit r.slots.toNat (agetD i.slot n 0) false) }))) s
  { s1 with images := s1.images.filter (fun x => !(x.ctx == i.ctx && x.handle == i.handle)) }

end Sys2Proof.Machine
end

