-- ==== Sys2Proof/Machine/Sampler.lean ====
section
/-! DEFINITION. The sampler (05, R127-R133): DRAW and VERIFY. The participating tiles of an operation act together in
one step, taken at the root (log 16): every quantity that crosses a tile is exact, so the passes give no other
result. -/

namespace Sys2Proof.Machine

/-- A row record (Table 5.8). -/
structure RowRec where
  stream : Nat
  nodes : Nat
  pos : Nat
  temp : W32
  topK : Nat
  minP : W32
  topP : Nat
  rsv : Bool

def rowRec (b : List Byte) : RowRec :=
  { stream := leAt b 0 2, nodes := leAt b 2 1, pos := leAt b 4 4, temp := BitVec.ofNat 32 (leAt b 8 4), topK := leAt b 12 1,
    minP := BitVec.ofNat 32 (leAt b 16 4), topP := fld (leAt b 20 4) 0 17,
    rsv := leAt b 3 1 != 0 || leAt b 13 3 != 0 || fld (leAt b 20 4) 17 15 != 0 || leAt b 24 8 != 0 }

/-- A record that no row may use (R128). -/
def RowRec.bad (r : RowRec) (isDraw : Bool) : Bool :=
  let t := d32 r.temp
  t.isNan || t.isInf || t.signBit || r.topK > 64 || (d32 r.minP).isNan || Fv.test 4 (d32 r.minP) (.fin false 0 0) ||
  r.pos ≥ 2 ^ 21 || r.rsv || (isDraw && r.nodes != 0) || r.nodes > 63

/-- What a draw gives; `kept` and `tail` are absent where R129 ends before it forms them. -/
structure Drawn where
  token : Nat
  nan : Bool
  clipped : Bool
  masked : Bool
  kept : Option Nat
  tail : Option W32
  zmax : W32

/-- Q of R129. -/
def qWeight (z zmax : W32) : Nat :=
  match d32 (exp32 (fsub z zmax)) with
  | .fin _ m e => roundSteps .rne m (e + 40) 0
  | _ => 0

/-- The top-p cut over the list in rank order: the entries kept, and C at the end. -/
def topPCut (p : Nat) : Bool → Nat → List (Nat × Nat) → List Nat × Nat
  | _, c, [] => ([], c)
  | first, c, e :: t =>
    if c ≥ p && !first then
      let r := topPCut p false c t
      (r.1, r.2)
    else
      let r := topPCut p false (c + e.2) t
      (e.1 :: r.1, r.2)

/-- The kept entries of a row, the clip flag and the tail (R129). `zs` holds z in index order. -/
def keepEntries (r : RowRec) (zs : List (Fv × Nat)) (zmax : W32) : List Nat × Bool × W32 :=
  let k1 := if r.topK > 0 then topRank r.topK zs else zs
  let lim := d32 (fadd zmax r.minP)
  let k2 := if r.minP == 0xFF800000 then k1 else k1.filter (fun e => Fv.test 5 e.1 lim)
  if r.topP ≥ 2 ^ 16 then (k2.map (·.2), false, 0)
  else
    let q (e : Fv × Nat) := qWeight (r32 e.1) zmax
    let z := k2.foldl (fun a e => a + q e) 0
    let l := topRank 1024 k2
    let p := z * r.topP / 65536
    let lw := l.map (fun e => (e.2, q e))
    let cut := topPCut p true 0 lw
    let sl := lw.foldl (fun a e => a + e.2) 0
    (cut.1, cut.2 < p, r32 (Fv.div (Fv.ofZ (Int.ofNat (z - sl))) (Fv.ofZ (Int.ofNat z))))

/-- DRAW of one row at a position (R129): `scores` are FP32 in index order. -/
def drawRow (r : RowRec) (seed pos : Nat) (scores : List W32) : Drawn :=
  let zs := (scores.zip (List.range scores.length)).map (fun e =>
    (d32 (if r.temp == 0 then e.1 else fdiv e.1 r.temp), e.2))
  let zmaxF := match zs with | [] => Fv.nan | x :: t => t.foldl (fun a e => Fv.max a e.1) x.1
  let zmax := r32 zmaxF
  if zmaxF.isNan then
    ⟨((zs.find? (fun e => e.1.isNan)).map (·.2)).getD 0, true, false, false, none,
      if r.topP ≥ 2 ^ 16 then some 0 else none, zmax⟩
  else if zmax == 0xFF800000 then
    ⟨0, false, false, true, none, if r.topP ≥ 2 ^ 16 then some 0 else none, zmax⟩
  else
    let k := keepEntries r zs zmax
    let ys := (zs.filter (fun e => k.1.contains e.2)).map (fun e =>
      if r.temp == 0 then e
      else (d32 (fadd (r32 e.1) (gumbel (word32 seed r.stream (pos * 262144 + e.2)))), e.2))
    ⟨((topRank 1 ys).head?.map (·.2)).getD 0, false, k.2.1, false, some k.1.length, some k.2.2, zmax⟩

/-! ## The cooperating tiles -/

/-- One participant: its logical and physical tile, its operation, descriptor and loop table. -/
structure Part4 where
  n : Nat
  p : Nat
  op : Op
  d : List Byte
  l : List Byte

def part4 (s : State) (n : Nat) : Option Part4 :=
  (frontOp s n 4).map (fun e => ⟨n, e.1, e.2, (s.tile e.1).desc e.2.desc, (s.tile e.1).loopT e.2.loop⟩)

/-- The tiles of the root's run whose samplers stand at the same operation on the same tree. -/
def partners (s : State) (root : Part4) : List Part4 :=
  let r := (s.tileRun root.p).map (·.id)
  ((List.range s.ntiles).filterMap (part4 s)).filter (fun x =>
    ((s.tileRun x.p).map (·.id)) == r && leAt x.d 1 1 == leAt root.d 1 1 && sTree x.d == sTree root.d &&
    sRows x.d == sRows root.d && sVocab x.d == sVocab root.d && lDie x.n == lDie root.n)

/-- A node of a tree has a path of parents to a root that is not chained (R173). -/
def State.climbs (s : State) (tree : Nat) : Nat → Nat → Bool
  | 0, _ => false
  | k + 1, n =>
    let e := s.member n tree
    meIs e && (if meRoot e then !meChain e else s.climbs tree k (meParent e))

/-- The declared tree of a die joins these tiles and no others (R130, R173, R174): each of its nodes reaches the root and has as many
children as name it their parent, and a tile gives it a local input exactly when it takes part. -/
def treeJoins (s : State) (die tree : Nat) (ns : List Nat) : Bool :=
  let nodes := ((List.range 256).map (fun i => 256 * die + i)).filter (fun n => meIs (s.member n tree))
  ns.all (nodes.contains ·) && nodes.all (fun n =>
    let e := s.member n tree
    s.climbs tree 256 n && meLocal e == ns.contains n &&
    (nodes.filter (fun m => !meRoot (s.member m tree) && meParent (s.member m tree) == n)).length == meChildren e)

/-- The slices cover the row without overlap, and there is one root (R127). -/
def slicesCover (ps : List Part4) : Bool :=
  match ps.head? with
  | none => false
  | some x =>
    (ps.filter (fun y => sRoot y.d)).length == 1 &&
    ps.foldl (fun a y => a + sWidth y.d) 0 == sVocab x.d &&
    ps.all (fun y => ps.all (fun z => y.n == z.n || sV0 y.d + sWidth y.d ≤ sV0 z.d || sV0 z.d + sWidth z.d ≤ sV0 y.d))

/-- Scores of one row of a slice, and their poison. -/
def sliceRow (s : State) (x : Part4) (row : Nat) : List W32 × Bool :=
  let st := loopStream x.l 0
  let ls := loopLevels x.l
  let w := st.width
  let per := w / (fmtBits (sFmt x.d) / 8)
  let n := sAccesses x.d x.l
  let at_ (i : Nat) := pointAddr st 0 ls [i, row, 0, 0, 0, 0]
  let raw := (List.range n).flatMap (fun i => unpack (sFmt x.d) (readStream s x.p x.op.swaps st (at_ i) w) per)
  ((raw.take (sWidth x.d)).map (fun e => r32 (decElem (sFmt x.d) e)),
   !s.mem.poison.isEmpty && (List.range n).any (fun i =>
     streamPoison s x.p x.op.swaps st (at_ i) (min w ((sWidth x.d - i * per) * (fmtBits (sFmt x.d) / 8)))))

/-- The whole row in index order. -/
def wholeRow (s : State) (ps : List Part4) (row : Nat) : List W32 × Bool :=
  let sorted := ps.foldl (fun (l : List Part4) x => (l.filter (fun y => sV0 y.d < sV0 x.d)) ++ [x] ++ (l.filter (fun y => sV0 x.d < sV0 y.d))) []
  (sorted.flatMap (fun x => (sliceRow s x row).1), ps.any (fun x => (sliceRow s x row).2))

/-- Record q of stream k of a participant: bytes and poison. -/
def sRecord (s : State) (x : Part4) (k q n : Nat) : List Byte × Bool :=
  let st := loopStream x.l k
  let a := pointAddr st k (loopLevels x.l) [0, q, 0, 0, 0, 0]
  (readStream s x.p x.op.swaps st a n, streamPoison s x.p x.op.swaps st a n)

/-- A result record (Table 5.9); fields that the spec leaves open take free values. -/
structure SResult where
  token : Nat
  status : Nat
  accepted : Nat
  flags : Nat
  kept : Option Nat
  tail : Option W32
  path : Nat
  zmax : Option W32

def SResult.bytes (s : State) (r : SResult) : List Byte × State :=
  let (f1, s1) := s.draw
  let kept := match r.kept with | some k => min k 65535 | none => f1 % 65536
  let tail := match r.tail with | some t => t.toNat | none => f1 / 65536 % 2 ^ 32
  let zm := match r.zmax with | some z => z.toNat | none => f1 / 2 ^ 48 % 2 ^ 32
  (padTo 32 (leBytes 4 r.token ++ leBytes 1 r.status ++ leBytes 1 r.accepted ++ leBytes 1 r.flags ++ [0] ++
     leBytes 2 kept ++ [0, 0] ++ leBytes 4 tail ++ leBytes 8 r.path ++ leBytes 4 zm),
   if r.kept.isSome && r.tail.isSome && r.zmax.isSome then s else s1)

def Drawn.flags (x : Drawn) : Nat := b2n x.nan + 2 * b2n x.clipped + 4 * b2n x.masked

/-- The record of a row that is not OK: its tail is +0 when top-p is off (Table 5.9). -/
def notOk (r : RowRec) (status accepted path : Nat) : SResult :=
  ⟨0xFFFFFFFF, status, accepted, 0, none, if r.topP ≥ 2 ^ 16 then some 0 else none, path, none⟩

/-- The result record written at the root, and sent when the descriptor says so (tag 0, log 14). -/
def putResult (s : State) (x : Part4) (q : Nat) (r : SResult) : State :=
  let (bs, s1) := r.bytes s
  let st := loopStream x.l 2
  let s2 := writeStream s1 x.p x.op.swaps st (pointAddr st 2 (loopLevels x.l) [0, q, 0, 0, 0, 0]) bs false
  if sSend x.d then sendResult s2 x.p 4 ((s2.tile x.p).route 4 0) 0 false false bs else s2

/-- Result of DRAW for sequence q. -/
def drawSeq (s : State) (ps : List Part4) (root : Part4) (q : Nat) : SResult :=
  let (b, _) := sRecord s root 1 q 32
  let r := rowRec b
  let recBad := ps.any (fun x => (sRecord s x 1 q 32).2)
  let (zs, bad) := wholeRow s ps q
  if bad || recBad then notOk r 0x31 0 0
  else if r.bad true then notOk r 0x11 0 0
  else
    let w := drawRow r (s.seed root.p) r.pos zs
    ⟨w.token, 0, 0, w.flags, w.kept, w.tail, 0, some w.zmax⟩

/-- Counters and the event of an operation: rows, poisoned rows, nodes accepted and offered (Table 5.11, R131). -/
def sFinish (s : State) (ps : List Part4) (root : Part4) (rows poisoned accepted offered : Nat) : State :=
  let s1 := if poisoned > 0 then s.unitEvent root.p 4 0x3150 [] else s
  ps.foldl (fun x y =>
    let x1 := x.modTile y.p (fun t => (((t.bump (bankVrc 4) rows).bump (bankVrc 5) poisoned).bump (bankVrc 6) accepted).bump (bankVrc 7) offered)
    completeOp x1 y.p 4 y.op y.l ([0, 1, 3].map (fun k => (k, sRun y.l k)))) s1

/-- Byte ranges that the root reads of its own store. -/
def sReads (s : State) (x : Part4) : List (Nat × Nat) :=
  (List.range (sRows x.d)).flatMap (fun q =>
    accessRange (s.tile x.p) x.op.swaps (loopStream x.l 1) (pointAddr (loopStream x.l 1) 1 (loopLevels x.l) [0, q, 0, 0, 0, 0]) 32 ++
    (List.range (sAccesses x.d x.l)).flatMap (fun i =>
      accessRange (s.tile x.p) x.op.swaps (loopStream x.l 0) (pointAddr (loopStream x.l 0) 0 (loopLevels x.l) [i, q, 0, 0, 0, 0])
        (loopStream x.l 0).width))

/-- The frame of a sampler operation at its root: every participant stands at it, and the declared tree joins them; otherwise the
operation is left short of contributions (R127, R130). -/
def atSampler (s : State) (n op : Nat) (upset : Option Upset) (f : State → List Part4 → Part4 → State) : State :=
  match part4 s n with
  | none => s
  | some root =>
    let ps := partners s root
    if leAt root.d 1 1 == op && sRoot root.d && slicesCover ps && treeJoins s (lDie root.n) (sTree root.d) (ps.map (·.n)) then
      let (s1, go) := meet s root.p upset (sReads s root)
      if go then f s1 ps root else s1
    else s

/-- DRAW (R129-R131), at the root tile. -/
def execDraw (t : BitVec 10) (upset : Option Upset) (s : State) : Host.Outcome State Fault Refusal :=
  .next (done s (atSampler s t.toNat 1 upset (fun s0 ps root =>
    let rows := sRows root.d
    let rs := (List.range rows).map (drawSeq s0 ps root)
    let s1 := (rs.zip (List.range rows)).foldl (fun x e => putResult x root e.2 e.1) s0
    sFinish s1 ps root rows (rs.filter (fun r => r.status == 0x31)).length 0 0)))

/-! ## VERIFY (R132) -/

/-- Depth of each node from the parents, in ascending order. -/
def depthsGo : List Nat → List Nat → List Nat
  | acc, [] => acc
  | acc, p :: t => depthsGo (acc ++ [acc.getD p 0 + 1]) t

def depths (parents : List Nat) : List Nat := depthsGo [0] (parents.drop 1)

/-- The walk: current node, accepted count, path, and whether a poisoned row stopped it. -/
def walkGo (parents drafts tokens : List Nat) (bad : List Bool) : Nat → Nat → Nat → Nat → Nat × Nat × Nat × Bool
  | 0, cur, acc, path => (cur, acc, path, bad.getD cur false)
  | k + 1, cur, acc, path =>
    if bad.getD cur false then (cur, acc, path, true)
    else
      match findBelow parents.length (fun n => n > 0 && parents.getD n 0xFF == cur && drafts.getD n 0 == tokens.getD cur 0) with
      | none => (cur, acc, path, false)
      | some c => walkGo parents drafts tokens bad k c (acc + 1) (path + 2 ^ c)

/-- Result of VERIFY for a sequence whose rows start at `row0`, and its node count. -/
def verifySeq (s : State) (ps : List Part4) (root : Part4) (q row0 : Nat) : SResult × Nat :=
  let (b, _) := sRecord s root 1 q 32
  let r := rowRec b
  let n := r.nodes % 64 + 1
  let (tb, treeBad) := sRecord s root 3 q 320
  let recBad := treeBad || ps.any (fun x => (sRecord s x 1 q 32).2)
  let parents := (List.range n).map (fun i => leAt tb i 1)
  let drafts := (List.range n).map (fun i => leAt tb (64 + 4 * i) 4)
  if r.bad false && !recBad then (notOk r 0x11 0 0, n)
  else if recBad then (notOk r 0x31 0 1, n)
  else if (List.range n).any (fun i => i > 0 && parents.getD i 0 ≥ i) then (notOk r 0x11 0 0, n)
  else
    let ds := depths parents
    let rows := (List.range n).map (fun i => wholeRow s ps (row0 + i))
    let draws := (rows.zip (List.range n)).map (fun e => drawRow r (s.seed root.p) (r.pos + ds.getD e.2 0) e.1.1)
    let tokens := draws.map (·.token)
    let (cur, acc, path, bad) := walkGo parents drafts tokens (rows.map (·.2)) n 0 0 1
    if bad then (notOk r 0x31 acc path, n)
    else
      match draws[cur]? with
      | some w => (⟨w.token, 0, acc, w.flags, w.kept, w.tail, path, some w.zmax⟩, n)
      | none => (notOk r 0x11 0 0, n)

/-- Sequences of a VERIFY until its rows are used up: record index, result, nodes. -/
def verifyGo (s : State) (ps : List Part4) (root : Part4) (rows : Nat) : Nat → Nat → Nat → List (Nat × SResult × Nat)
  | 0, _, _ => []
  | k + 1, q, row0 =>
    if row0 ≥ rows then []
    else
      let v := verifySeq s ps root q row0
      (q, v) :: verifyGo s ps root rows k (q + 1) (row0 + v.2)

/-- VERIFY (R132, R133), at the root tile. -/
def execVerify (t : BitVec 10) (upset : Option Upset) (s : State) : Host.Outcome State Fault Refusal :=
  .next (done s (atSampler s t.toNat 2 upset (fun s0 ps root =>
    let rows := sRows root.d
    let vs := verifyGo s0 ps root rows rows 0 0
    let s1 := vs.foldl (fun x e => putResult x root e.1 e.2.1) s0
    sFinish s1 ps root rows (vs.filter (fun e => e.2.1.status == 0x31)).length
      (vs.foldl (fun a e => a + e.2.1.accepted) 0) (vs.foldl (fun a e => a + (e.2.2 - 1)) 0))))

end Sys2Proof.Machine
end

