-- ==== Sys2Proof/Machine/Transform.lean ====
section
/-! DEFINITION. The transform engine: DISPATCH (R239-R244), COMBINE (R248-R253), and conversion (03, log 11). -/

namespace Sys2Proof.Machine

/-! ## DISPATCH -/

/-- One route of a row: its expert, whether it is unused or masked, and the value of its record. -/
structure Route where
  expert : Nat
  unused : Bool
  masked : Bool
  val : W32

/-- Destination of part q in the expert map (Table 10.2). -/
def mapDest (s : State) (p : Nat) (d : List Byte) (x q : Nat) : Nat :=
  s.mem.num (tileBase p + dMap d + 32 * x + 8 * q) 8

/-- A route to expert x is masked (R241); `routed` tells it from the shared route. -/
def routeMasked (s : State) (p : Nat) (d : List Byte) (routed : Bool) (x : Nat) : Bool :=
  x ≥ dExperts d || (routed && dSharedEn d && x == dShared d) ||
  (List.range (dParts d + 1)).any (fun q =>
    let w := mapDest s p d x q
    let dev := fld w 0 16
    !bitOf w 34 || !(dev == 0xFFFF || dev == s.deviceId))

def rowRoutes (s : State) (p : Nat) (op : Op) (d l : List Byte) (r : Nat) : List Route :=
  (List.range (dK d)).map (fun j =>
    let b := readStream s p op.swaps (loopStream l 1) (Int.ofNat ((loopStream l 1).base + (r * dK d + j) * 8)) 8
    let x := leAt b 4 4
    let unused := x == 0xFFFFFFFF
    ⟨x, unused, !unused && routeMasked s p d true x, BitVec.ofNat 32 (leAt b 0 4)⟩)

/-- An FP32 word as the device writes it: a NaN is canonical (R62). -/
def canon32 (w : W32) : W32 := r32 (d32 w)

/-- Weights of a row over the kept ranks (R242). -/
def rowWeights (d : List Byte) (rs : List Route) (kept : Nat → Bool) : List W32 :=
  let v0 := (rs.head?.map (·.val)).getD 0
  let us := rs.map (fun r => if dWmode d == 0 then exp32 (fsub r.val v0) else r.val)
  let ks := (us.zip (List.range us.length)).filter (fun e => kept e.2)
  let sum := ks.foldl (fun a e => fadd a e.1) 0
  (us.zip (List.range us.length)).map (fun e =>
    if !kept e.2 then 0 else if dWmode d == 1 then canon32 e.1 else fdiv e.1 sum)

def Route.live (r : Route) : Bool := !r.unused && !r.masked

/-- The ranks of each row that capacity mode drops (R243): (row, rank). -/
def dropped (d : List Byte) (rows : List (List Route)) : List (Nat × Nat) :=
  if !dCap d then []
  else
    let all := (rows.zip (List.range rows.length)).flatMap (fun e =>
      let ws := rowWeights d e.1 (fun j => ((e.1[j]?).map Route.live).getD false)
      ((e.1.zip ws).zip (List.range e.1.length)).filterMap (fun x =>
        if x.1.1.live then some (x.1.1.expert, (d32 x.1.2, e.2 * 16 + x.2)) else none))
    (List.range (dExperts d)).flatMap (fun x =>
      let mine := (all.filter (fun e => e.1 == x)).map (·.2)
      ((mine.foldl (fun l e => insRank e l) []).drop (dQuota d)).map (fun e => (e.2 / 16, e.2 % 16)))

/-- A route-table entry (Table 10.3). -/
def routeEntry (expert status : Nat) (w : W32) : List Byte :=
  leBytes 8 (expert % 4096 + status * 4096 + w.toNat * 2 ^ 32)

/-- Status of rank j of a row. -/
def rankStatus (r : Route) (isDropped : Bool) : Nat := if r.unused then 0 else if r.masked then 3 else if isDropped then 2 else 1

/-- The parts of a row sent to an expert (R244). -/
def sendParts (p n : Nat) (op : Op) (d l : List Byte) (r x : Nat) (s : State) : State :=
  (List.range (dParts d + 1)).foldl (fun y q =>
    let st := loopStream l 0
    let a := Int.ofNat (st.base + (r * (dParts d + 1) + q) * dPart d)
    let bad := streamPoison y p op.swaps st a (dPart d)
    y.modTile p (fun t => t.emit 5
      (mkMsg (mapDest y p d x q) (r * 1024 + n) t.sect.gen.toNat 5 bad (readStream y p op.swaps st a (dPart d))))) s

/-- One row: its route table, its counts and its messages. -/
def dispatchRow (p n : Nat) (op : Op) (d l : List Byte) (drops : List (Nat × Nat)) (s : State) (e : List Route × Nat) : State :=
  let r := e.2
  let kept (j : Nat) := ((e.1[j]?).map Route.live).getD false && !drops.contains (r, j)
  let ws := rowWeights d e.1 kept
  let sharedBad := dSharedEn d && routeMasked s p d false (dShared d)
  let ents := ((e.1.zip ws).zip (List.range e.1.length)).map (fun x =>
    (x.1.1, rankStatus x.1.1 (drops.contains (r, x.2)), x.1.2))
  let table := (ents.map (fun x => routeEntry (if x.1.unused then 0 else x.1.expert) x.2.1 x.2.2)).flatten
  let shared := if !dSharedEn d then routeEntry 0 0 0
    else routeEntry (dShared d) (if sharedBad then 3 else 1) (canon32 (BitVec.ofNat 32 (leAt d 8 4)))
  let bytes := padTo 128 (padTo 64 table ++ shared)
  let recBad := streamPoison s p op.swaps (loopStream l 1) (Int.ofNat ((loopStream l 1).base + r * dK d * 8)) (dK d * 8)
  let s1 := writeStream s p op.swaps (loopStream l 2) (Int.ofNat ((loopStream l 2).base + 128 * r)) bytes recBad
  let sent := (ents.filter (fun x => x.2.1 == 1)).map (fun x => x.1.expert) ++
    (if dSharedEn d && !sharedBad then [dShared d] else [])
  let masked := (ents.filter (fun x => x.2.1 == 3)).length + (if sharedBad then 1 else 0)
  let s2 := s1.modTile p (fun t => ((t.bump (bankCcc 0) sent.length).bump (bankCcc 1)
    (ents.filter (fun x => x.2.1 == 2)).length).bump (bankCcc 2) masked)
  sent.foldl (fun y x => sendParts p n op d l r x y) s2

/-- The first masked route of an operation: row and expert. -/
def firstMasked (s : State) (p : Nat) (d : List Byte) (rows : List (List Route)) : Option (Nat × Nat) :=
  let sharedBad := dSharedEn d && routeMasked s p d false (dShared d)
  (rows.zip (List.range rows.length)).findSome? (fun e =>
    match e.1.find? (·.masked) with
    | some r => some (e.2, r.expert)
    | none => if sharedBad then some (e.2, dShared d) else none)

def dispatchBody (s : State) (p : Nat) (op : Op) (d l : List Byte) : State :=
  let n := (s.logical p).getD 0
  let rows := (List.range (dRows d)).map (rowRoutes s p op d l)
  let drops := dropped d rows
  let s1 := match firstMasked s p d rows with
    | some (r, x) => s.unitEvent p 5 0x3190 (detailOf [(2, r), (2, x)])
    | none => s
  let s2 := if drops.isEmpty then s1 else s1.unitEvent p 5 0x1190 []
  (rows.zip (List.range rows.length)).foldl (dispatchRow p n op d l drops) s2

def dispatchReads (s : State) (p : Nat) (op : Op) (d l : List Byte) : List (Nat × Nat) :=
  let t := s.tile p
  let r := dRows d
  accessRange t op.swaps (loopStream l 0) (Int.ofNat (loopStream l 0).base) (r * (dParts d + 1) * dPart d) ++
  accessRange t op.swaps (loopStream l 1) (Int.ofNat (loopStream l 1).base) (r * dK d * 8) ++
  [(dMap d, dExperts d * 32)]

def dispatchIns (d _l : List Byte) : List (Nat × Nat) :=
  [(0, dRows d * (dParts d + 1) * dPart d), (1, dRows d * dK d * 8)]

/-- DISPATCH at the front of unit 5's queue. -/
def execDispatch (t : BitVec 10) (upset : Option Upset) (s : State) : Host.Outcome State Fault Refusal :=
  .next (done s (runSending s t.toNat 5 (fun d => leAt d 1 1 == 0x40) upset dispatchReads dispatchIns dispatchBody))

/-! ## COMBINE -/

/-- The route-table entry j of row r. -/
def routeAt (s : State) (p : Nat) (op : Op) (l : List Byte) (r j : Nat) : Nat :=
  leNat (readStream s p op.swaps (loopStream l 1) (Int.ofNat ((loopStream l 1).base + 128 * r + 8 * j)) 8)

/-- The entries of row r with status 1. -/
def sentEntries (s : State) (p : Nat) (op : Op) (l : List Byte) (r : Nat) : List Nat :=
  (List.range 9).filter (fun j => fld (routeAt s p op l r j) 12 3 == 1)

/-- A column of (row, entry) has been received. -/
def hasCol (c : Collect) (r j col : Nat) : Bool :=
  c.got.any (fun g => g.1 == r && g.2.1 == j && g.2.2.1 ≤ col && col < g.2.2.1 + g.2.2.2.1)

/-- Every status-1 entry of every row has all W columns. -/
def collected (s : State) (p : Nat) (op : Op) (d l : List Byte) : Bool :=
  (List.range (cRows d)).all (fun r => (sentEntries s p op l r).all (fun j =>
    (List.range (cWidth d)).all (hasCol (s.tile p).collect r j)))

/-- Where a contribution belongs (R250): row, entry, first column, columns; none: discarded. -/
def contribution (s : State) (p n : Nat) (op : Op) (d l : List Byte) (m : Msg) : Option (Nat × Nat × Nat × Nat) :=
  let e := s.mem.num (tileBase p + cRetmap d + 4 * m.srcTile) 4
  let r := m.tag / 1024
  if m.kind != 5 || m.tag % 1024 != n || e == 0xFFFFFFFF || r ≥ cRows d then none
  else
    match (sentEntries s p op l r).find? (fun j => fld (routeAt s p op l r j) 0 12 == fld e 0 12) with
    | none => none
    | some j =>
      let k := m.pay.length / (fmtBits (cFmt d) / 8)
      let c0 := fld e 16 16
      if c0 + k > cWidth d || (List.range k).any (fun c => hasCol (s.tile p).collect r j (c0 + c)) then none
      else some (r, j, c0, k)

/-- One message taken from the combine basin. -/
def collectOne (s : State) (p n : Nat) (op : Op) (d l : List Byte) : State :=
  let b := cBasin d
  let m := basinHead s p b
  let s1 := popBasin s p b m
  match contribution s p n op d l m with
  | none =>
    let s2 := s1.bumpTile p (bankCcc 6) 1
    if (s2.tile p).collect.logged then s2
    else (s2.modTile p (fun t => { t with collect := { t.collect with logged := true } })).unitEvent p 5 0x3191
      (hdrDetail m.hdr)
  | some (r, j, c0, k) =>
    let eb := fmtBits (cFmt d) / 8
    let st := loopStream l 3
    let s2 := writeStream s1 p op.swaps st (Int.ofNat (st.base + ((9 * r + j) * cWidth d + c0) * eb)) (m.pay.take (k * eb)) m.poison
    s2.modTile p (fun t => { t with collect := { t.collect with got := t.collect.got ++ [(r, j, c0, k, m.poison)] } }.bump (bankCcc 5) 1)

/-- Messages are taken in basin order until the collection ends or the basin is empty. -/
def collectGo (p n : Nat) (op : Op) (d l : List Byte) : Nat → State → State
  | 0, s => s
  | k + 1, s =>
    if collected s p op d l || ((s.tile p).basin (cBasin d)).used == 0 then s
    else collectGo p n op d l k (collectOne s p n op d l)

/-- The sum of one output element (R250). -/
def combineElem (s : State) (p : Nat) (op : Op) (d l : List Byte) (r c : Nat) (js : List (Nat × Nat)) : W32 :=
  let eb := fmtBits (cFmt d) / 8
  let st := loopStream l 3
  js.foldl (fun acc j =>
    let w := BitVec.ofNat 32 (routeAt s p op l r j.2 / 2 ^ 32)
    let y := leNat (readStream s p op.swaps st (Int.ofNat (st.base + ((9 * r + j.2) * cWidth d + c) * eb)) eb)
    ffma w (r32 (decElem (cFmt d) y)) acc) 0

/-- Entries in ascending expert index. -/
def byExpert (es : List (Nat × Nat)) : List (Nat × Nat) :=
  es.foldl (fun l e => (l.filter (fun x => x.1 ≤ e.1)) ++ [e] ++ (l.filter (fun x => e.1 < x.1))) []

/-- The sum pass over one row. -/
def combineRow (p : Nat) (op : Op) (d l : List Byte) (s : State) (r : Nat) : State :=
  let js := byExpert ((sentEntries s p op l r).map (fun j => (fld (routeAt s p op l r j) 0 12, j)))
  let w := cWidth d
  let fo := convFmt (cConv d)
  let vs := (List.range w).map (fun c => d32 (combineElem s p op d l r c js))
  let x := convert (cConv d) (s.seed p) (r * w) false vs
  let bad := (List.range w).filter (fun c => (s.tile p).collect.got.any (fun g =>
    g.1 == r && g.2.2.2.2 && g.2.2.1 ≤ c && c < g.2.2.1 + g.2.2.2.1))
  let st := loopStream l 2
  let s1 := vWrite s p op.swaps 0 st (Int.ofNat (st.base + r * w * fmtBits fo / 8)) (x.bytes fo) (eltOffsets (fmtBits fo) bad)
  let s2 := countConv (countCalls s1 p (cConv d) (r * w) w) p (cConv d) x.bins
  if js.isEmpty then s2.bumpTile p (bankCcc 7) 1 else s2

/-- The bytes that a basin holds, from its head on, around its end. -/
def heldWords (s : State) (p b : Nat) : List (Nat × Nat) :=
  let d := (s.tile p).basinDecl b
  let x := (s.tile p).basin b
  let first := min x.used (declSize d - x.head)
  [(declBase d + x.head, first), (declBase d, x.used - first)].filter (fun r => r.2 != 0)

def combineReads (s : State) (p : Nat) (op : Op) (d l : List Byte) : List (Nat × Nat) :=
  accessRange (s.tile p) op.swaps (loopStream l 1) (Int.ofNat (loopStream l 1).base) (cRows d * 128) ++
  [(cRetmap d, 4096)] ++ heldWords s p (cBasin d)

def combineIns (d _l : List Byte) : List (Nat × Nat) := [(1, cRows d * 128)]

/-- COMBINE at the front of unit 5's queue: it takes what the basin holds, and completes once it has collected all
(R250, R251). -/
def execCombine (t : BitVec 10) (upset : Option Upset) (s : State) : Host.Outcome State Fault Refusal :=
  .next (done s (
    match frontOp s t.toNat 5 with
    | none => s
    | some (p, op) =>
      let d := (s.tile p).desc op.desc
      let l := (s.tile p).loopT op.loop
      if leAt d 1 1 == 0x41 then
        let (s1, go) := meet s p upset (combineReads s p op d l)
        if !go then s1
        else
          let s2 := collectGo p t.toNat op d l (((s1.tile p).basin (cBasin d)).used / 128 + 1) s1
          if collected s2 p op d l then
            let s3 := (List.range (cRows d)).foldl (combineRow p op d l) s2
            completeOp (s3.modTile p (fun x => { x with collect := ⟨[], false⟩ })) p 5 op l (combineIns d l)
          else s2
      else s))

/-! ## Conversion (03) -/

/-- One loop point of a conversion: g elements from stream 0 to stream 2, their scales from stream 1 and to stream 3 (R66). -/
def xPoint (x : Config.Xform) (p swaps : Nat) (l : List Byte) (s : State) (pt : List Nat) : State :=
  let fo := convFmt x.conv
  let g := xG x.inFmt fo
  let ls := loopLevels l
  let st := loopStream l
  let a (k : Nat) := pointAddr (st k) k ls pt
  let sc := readStream s p swaps (st 1) (a 1) (xBytes x 1)
  let vs := ((unpack x.inFmt (readStream s p swaps (st 0) (a 0) (xBytes x 0)) g).zip (List.range g)).map (fun e =>
    decScaled x.inFmt e.1 ((sc.getD (e.2 / fmtBlock x.inFmt) 0).toNat))
  let i := pointIndex x.indexBase x.istride ls pt
  let c := convert x.conv (s.seed p) i false vs
  let bad := [0, 1].any (fun k => streamPoison s p swaps (st k) (a k) (xBytes x k))
  let s1 := writeStream s p swaps (st 2) (a 2) (c.bytes fo) bad
  let s2 := if fmtIsBlock fo then writeStream s1 p swaps (st 3) (a 3) c.scaleBytes bad else s1
  countConv (countCalls s2 p x.conv i g) p x.conv c.bins

def xBody (s : State) (p : Nat) (op : Op) (d l : List Byte) : State :=
  (loopPoints (loopLevels l)).foldl (xPoint (Config.xform d) p op.swaps l) s

def xReads (s : State) (p : Nat) (op : Op) (d l : List Byte) : List (Nat × Nat) :=
  let x := Config.xform d
  (loopPoints (loopLevels l)).flatMap (fun pt => [0, 1].flatMap (fun k =>
    accessRange (s.tile p) op.swaps (loopStream l k) (pointAddr (loopStream l k) k (loopLevels l) pt) (xBytes x k)))

def xIns (d l : List Byte) : List (Nat × Nat) :=
  ((xStreams (Config.xform d)).filter (· < 2)).map (fun k => (k, (loopStream l k).run (xBytes (Config.xform d) k)))

/-- TRANSFORM_ENGINE_CONVERSION at the front of unit 5's queue (03: the engine converts between every pair of formats;
its descriptor is open, log 11). -/
def execTransformEngineConversion (t : BitVec 10) (upset : Option Upset) (s : State) : Host.Outcome State Fault Refusal :=
  .next (done s (runOp s t.toNat 5 (fun d => leAt d 1 1 != 0x40 && leAt d 1 1 != 0x41) upset xReads xIns xBody))

end Sys2Proof.Machine
end

