-- ==== Sys2Proof/Machine/Steering.lean ====
section
/-! DEFINITION. The steering block (02, R41-R46; R247): the four sluices of a tile. -/

namespace Sys2Proof.Machine

/-- Fields of a sluice entry (Table 2.6). -/
def Tile.sluiceEntry (t : Tile) (k : Nat) : List Byte := t.cfgBytes (0x3200 + 64 * k) 64
def slKind (e : List Byte) : Nat := leAt e 0 1
def slPortA (e : List Byte) : Nat := leAt e 1 1
def slPortB (e : List Byte) : Nat := leAt e 2 1
def slPortC (e : List Byte) : Nat := leAt e 3 1
def slEnabled (e : List Byte) (r : Nat) : Bool := bitOf (leAt e 4 1) r
def slRoute (e : List Byte) (r : Nat) : Nat := leAt e (8 + 8 * r) 8

def Tile.sluice (t : Tile) (k : Nat) : Sluice := agetD t.sluices k Sluice.reset
def Tile.setSluice (t : Tile) (k : Nat) (x : Sluice) : Tile := { t with sluices := aput t.sluices k x }

/-- A token sent on a route (R44): only its destination is replaced; a multicast's rectangle is part of that. A steer
token on a home route goes to the tile its tag names (R247). -/
def routed (m : Msg) (route : Nat) (poison : Bool) : Msg :=
  let d := if m.kind == 5 && fld route 27 4 == 15 then tileDest (m.tag % 1024) 7 (fld route 31 3) else fld route 0 34
  let x := (((m.put 0 34 d).put 98 1 0).put 99 4 0).put 103 4 0
  { (if poison then x.setPoison true else x) with copy := none }

/-- The run in force: that of the sluice, or the one its control token starts (R42). -/
def slRun (x : Sluice) (ctl : Msg) : Sluice :=
  if x.inRun then x
  else
    let w := leAt ctl.pay 0 4
    let n := fld w 0 16
    { x with inRun := true, select := BitVec.ofNat 2 (fld w 16 2), remaining := if n == 0 then 1 else n,
             poisoned := ctl.poison, poisonedRuns := if ctl.poison then sat32 x.poisonedRuns 1 else x.poisonedRuns }

/-- Data port of a run: a merge takes port B when bit 0 of select is 1 and its token can be trusted (R44, R45). -/
def slDataPort (e : List Byte) (x : Sluice) : Nat :=
  if slKind e == 2 && x.select.getLsbD 0 && !x.poisoned then slPortB e else slPortA e

/-- The route of a run's token, none when it is discarded (R44, R45). A poisoned run of a switch whose route 0 is not enabled is discarded
as a run for any other route that is not enabled (DESIGN CHOICE, log 60). -/
def slTarget (e : List Byte) (x : Sluice) : Option Nat :=
  match slKind e with
  | 1 =>
    let r := if x.poisoned then 0 else x.select.toNat
    if slEnabled e r then some r else none
  | 3 => if x.select.getLsbD 0 || x.poisoned then some 0 else none
  | _ => some 0

/-- A discard of a switch is logged once per sluice per section (R44). -/
def slDiscardEvent (s : State) (p k : Nat) (x : Sluice) : State :=
  let key := 0x3121 * 16 + k
  if agetD (s.tile p).once key 0 == 0 then
    (s.modTile p (fun t => { t with once := aput t.once key 1 })).unitEvent p 6 0x3121 (detailOf [(1, k), (1, x.select.toNat)])
  else s

/-- A firing of a switch, merge or gate whose control and data tokens are present (R43). -/
def slFire (s : State) (p k : Nat) (e : List Byte) (ctl : Msg) : State :=
  let x := slRun ((s.tile p).sluice k) ctl
  match portHead s p 6 (slDataPort e x) with
  | none => s
  | some m =>
    let s1 := popPort s p 6 (slDataPort e x)
    let left := x.remaining - 1
    let x1 := { x with remaining := left, inRun := left != 0 }
    let s2 := match slTarget e x with
      | some r =>
        s1.modTile p (fun t => (t.emit 6 (routed m (slRoute e r) x.poisoned)).setSluice k { x1 with forwarded := sat32 x1.forwarded 1 })
      | none =>
        let s3 := s1.modTile p (fun t => t.setSluice k { x1 with discarded := sat32 x1.discarded 1 })
        if slKind e == 1 then slDiscardEvent s3 p k x else s3
    if left == 0 then popPort s2 p 6 (slPortC e) else s2

/-- A firing of a fork: one copy to each enabled route, in route order. -/
def forkFire (s : State) (p k : Nat) (e : List Byte) (m : Msg) : State :=
  let s1 := popPort s p 6 (slPortA e)
  s1.modTile p (fun t =>
    let t1 := ((List.range 4).filter (slEnabled e)).foldl (fun y r => y.emit 6 (routed m (slRoute e r) false)) t
    let x := t1.sluice k
    t1.setSluice k { x with forwarded := sat32 x.forwarded ((List.range 4).filter (slEnabled e)).length })

/-- SLUICE_FIRING (R43). -/
def execSluiceFiring (t : BitVec 10) (k : BitVec 2) (upset : Option Upset) (s : State) : Host.Outcome State Fault Refusal :=
  let p := s.phys t.toNat
  let y := s.tile p
  let e := y.sluiceEntry k.toNat
  .next (done s (
    if t.toNat < s.ntiles && y.live && !y.isFinished 6 then
      let ready : Option Msg :=
        match slKind e with
        | 4 => portHead s p 6 (slPortA e)
        | 0 => none
        | _ => if slKind e > 4 then none else
          (portHead s p 6 (slPortC e)).bind (fun c =>
            (portHead s p 6 (slDataPort e (slRun (y.sluice k.toNat) c))).map (fun _ => c))
      match ready with
      | none => s
      | some m =>
        let data := if slKind e == 4 then [] else portWords s p 6 (slDataPort e (slRun (y.sluice k.toNat) m)) ++ portWords s p 6 (slPortC e)
        let (s1, go) := meet s p upset ((if slKind e == 4 then portWords s p 6 (slPortA e) else []) ++ data)
        if !go then s1
        else
          let c := (portHead s1 p 6 (if slKind e == 4 then slPortA e else slPortC e)).getD m
          let s2 := if slKind e == 4 then forkFire s1 p k.toNat e c else slFire s1 p k.toNat e c
          settle ((s2.noteProgress p).bumpTile p (bankFire 6) 1) p
    else s))

end Sys2Proof.Machine
end

