-- ==== Sys2Proof/Machine/Window.lean ====
section
/-! DEFINITION. The readable registers of a physical tile's debug window (R59, Tables 2.13, 3.5, 4.9, 5.11, 6.7, 7.9, 9.8,
10.6), as 32-bit words. -/

namespace Sys2Proof.Machine

/-- One 32-bit half of a 64-bit word at a byte offset from its start. -/
def halfOf (w o : Nat) : Nat := fld (w >>> (8 * (o / 4 * 4))) 0 32

def Tile.ctr (t : Tile) (k : Nat) : Nat := (agetD t.ctrs k Ctr.zero).word

/-- `TDBG_SEQ.state`. -/
def seqCode : SeqState → Nat
  | .idle => 0
  | .running => 1
  | .waitGauge => 2
  | .watch => 3
  | .stallIssue => 4
  | .stallEgress => 5
  | .ended => 6
  | .faulted => 7
  | .halted => 8

def wTdbgId (s : State) (p : Nat) : Nat :=
  let n := s.logical p
  pDie p + pX p * 2 ^ 2 + pY p * 2 ^ 6 + b2n n.isSome * 2 ^ 11 + n.getD 0 * 2 ^ 12 +
    b2n (s.part.fusedOut.contains p) * 2 ^ 22 + b2n (s.tile p).retired * 2 ^ 23 + b2n (s.tile p).screening * 2 ^ 24

def wTdbgCtl (q : Seq) : Nat := b2n q.halt + b2n q.breakEn * 4 + q.breakAt.toNat * 8

def wTdbgSeq (t : Tile) : Nat :=
  t.seq.idx.toNat + seqCode t.seq.st * 2 ^ 10 + t.sect.gen.toNat * 2 ^ 14 + t.seq.preds.toNat * 2 ^ 17 + b2n t.isDone * 2 ^ 25

def wIssueQ (t : Tile) : Nat := (List.range 5).foldl (fun a i => a + min 7 (t.queue (i + 1)).length * 2 ^ (3 * i)) 0

/-- Word 0 of `TDBG_SLUICE[k]`. -/
def wSluice0 (t : Tile) (k : Nat) : Nat :=
  let x := t.sluice k
  (if t.sect.configured then slKind (t.sluiceEntry k) % 8 else 0) + b2n x.inRun * 8 + x.select.toNat * 16 + x.remaining % 2 ^ 16 * 64

def wSluice (t : Tile) (k w : Nat) : Nat :=
  match w with
  | 0 => wSluice0 t k
  | 1 => (t.sluice k).forwarded.toNat
  | 2 => (t.sluice k).discarded.toNat
  | _ => (t.sluice k).poisonedRuns.toNat

/-- Word `w` of `TSTORE_BASIN[b]`. -/
def wBasin (t : Tile) (b w : Nat) : Nat :=
  let x := t.basin b
  match w with
  | 0 => x.head
  | 1 => x.tail
  | 2 => x.used + b2n x.padValid * 2 ^ 24 + b2n x.backp * 2 ^ 25
  | _ => x.padAt

/-- `FAB_STALL` (R187): the largest stall count, its input and lane. -/
def wStall (s : State) (p : Nat) : Nat :=
  let all := [Side.north, .east, .south, .west, .tile].flatMap (fun d => (List.range 3).map (fun l => (min (2 ^ 20 - 1) (stallOf s p d l), sideNo d, l)))
  let m := all.foldl (fun a e => if a.1 < e.1 then e else a) (0, 0, 0)
  m.1 + m.2.1 * 2 ^ 20 + m.2.2 * 2 ^ 23

def wTsect (t : Tile) : Nat :=
  t.sect.gen.toNat + b2n t.sect.configured * 8 + b2n t.sect.loading * 16 + t.sect.ctx.toNat * 32 + t.sect.handle.toNat * 2 ^ 11 +
    t.sect.replays.toNat * 2 ^ 19

/-- The word of a tree entry of the logical tile that p serves. -/
def wTree (s : State) (p t h : Nat) : Nat :=
  match s.logical p with
  | some n => if h == 0 then (s.member n t).1 else (s.member n t).2
  | none => 0

/-- Counters of cycles inside a unit and of arbiter grants, which the commands do not show: their values are free (log 22). -/
def cycleBanks : List Nat :=
  [bankMxc 0, bankMxc 1, bankVrc 0, bankVrc 1, bankVrc 3, bankTsc 0, bankTsc 1, bankTsc 2, bankTsc 3, bankTsc 5]

/-- A performance counter of a tile as it reads: count, and overflow in bit 48. -/
def ctrRead (s : State) (p k : Nat) : Nat :=
  if cycleBanks.contains k then (Config.cycleCount p k s.clk).toNat else (s.tile p).ctr k

/-- The 32-bit word at window offset o, a multiple of 4; an offset that no register has reads 0 (R296). -/
def windowWord (s : State) (p o : Nat) : Nat :=
  let t := s.tile p
  let r := t.regs
  if o == 0x0000 then wTdbgId s p
  else if o == 0x0004 then wTdbgCtl t.seq
  else if o == 0x0008 then wTdbgSeq t
  else if o == 0x000C then t.seq.faultEvent.toNat + t.seq.faultIndex.toNat * 2 ^ 16
  else if o == 0x0010 then wIssueQ t
  else if o == 0x0014 then r.oversize.toNat
  else if 0x0040 ≤ o && o < 0x0080 then wSluice t ((o - 0x40) / 16) ((o - 0x40) % 16 / 4)
  else if 0x0100 ≤ o && o < 0x01E0 then portStatus s p ((o - 0x100) / 32 + 1) ((o - 0x100) % 32 / 4)
  else if 0x0208 ≤ o && o < 0x0240 then halfOf (ctrRead s p (bankFire ((o - 0x200) / 8))) (o % 8)
  else if 0x0400 ≤ o && o < 0x0840 then (agetD t.hist (68 * ((o - 0x400) / 0x110) + (o - 0x400) % 0x110 / 4) 0).toNat
  else if 0x0900 ≤ o && o < 0x0940 then halfOf (ctrRead s p (bankMxc ((o - 0x900) / 8))) (o % 8)
  else if 0x0940 ≤ o && o < 0x0980 then halfOf (ctrRead s p (bankVrc ((o - 0x940) / 8))) (o % 8)
  else if 0x0980 ≤ o && o < 0x09C0 then halfOf (ctrRead s p (bankTsc ((o - 0x980) / 8))) (o % 8)
  else if o == 0x0A00 then r.corr.toNat
  else if o == 0x0A04 then r.uncorr.toNat
  else if o == 0x0A08 then r.parCount.toNat + r.parLast.toNat * 2 ^ 16
  else if o == 0x0A0C then r.lastErrWord.toNat + b2n r.lastErrUncorr * 2 ^ 18
  else if o == 0x0A10 then r.refused.toNat
  else if o == 0x0A14 then r.overrun.toNat
  else if o == 0x0A20 || o == 0x0A24 then halfOf r.settings.toNat (o % 8)
  else if 0x0B00 ≤ o && o < 0x0B40 then halfOf (ctrRead s p (bankFbc ((o - 0xB00) / 8))) (o % 8)
  else if o == 0x0B40 then r.orphan.toNat
  else if o == 0x0B44 then r.fwPolder.toNat + r.fwTree.toNat * 2 ^ 24
  else if o == 0x0B48 then r.malformed.toNat
  else if o == 0x0B4C then r.parPayload.toNat + r.parHeader.toNat * 2 ^ 16
  else if o == 0x0B50 then wStall s p
  else if o == 0x0B54 then t.fabSpillUsed + b2n r.fabSpillFull * 2 ^ 14
  else if o == 0x0C00 then wTsect t
  else if o == 0x0C04 then r.stale.toNat
  else if o == 0x0C08 then r.discard.toNat
  else if o == 0x0C0C then r.slots.toNat
  else if 0x0D00 ≤ o && o < 0x0D40 then halfOf (ctrRead s p (bankCcc ((o - 0xD00) / 8))) (o % 8)
  else if o == 0x0D40 then t.condSpillUsed + b2n r.condSpillFull * 2 ^ 14
  else if 0x1000 ≤ o && o < 0x1400 then wBasin t ((o - 0x1000) / 16) ((o - 0x1000) % 16 / 4)
  else if 0x1400 ≤ o && o < 0x1800 then halfOf (wTree s p ((o - 0x1400) / 16) ((o - 0x1400) % 16 / 8)) (o % 8)
  else 0

/-- The counter of a performance-counter register of the window, by its offset (W1C writes, R394). -/
def windowCtr (o : Nat) : Option Nat :=
  if 0x0208 ≤ o && o < 0x0240 then some (bankFire ((o - 0x200) / 8))
  else if 0x0900 ≤ o && o < 0x0940 then some (bankMxc ((o - 0x900) / 8))
  else if 0x0940 ≤ o && o < 0x0980 then some (bankVrc ((o - 0x940) / 8))
  else if 0x0980 ≤ o && o < 0x09C0 then some (bankTsc ((o - 0x980) / 8))
  else if 0x0B00 ≤ o && o < 0x0B40 then some (bankFbc ((o - 0xB00) / 8))
  else if 0x0D00 ≤ o && o < 0x0D40 then some (bankCcc ((o - 0xD00) / 8))
  else none

end Sys2Proof.Machine
end

