-- ==== Sys2Proof/Machine/Record.lean ====
section
/-! DEFINITION. Context records (R356, R357, Tables 14.4, 14.5): what a save writes, byte by byte with the poison each byte
carries, and the end of a boundary save. Parts of one kind stand in ascending number. -/

namespace Sys2Proof.Machine

/-- Bytes that carry no poison. -/
def clean (bs : List Byte) : List (Byte × Bool) := bs.map (fun b => (b, false))

/-- A list put in ascending order of a key. -/
def insertBy {α : Type} (key : α → Nat) : List α → α → List α
  | [], x => [x]
  | y :: t, x => if key x < key y then x :: y :: t else y :: insertBy key t x

def sortBy {α : Type} (key : α → Nat) (l : List α) : List α := l.foldl (insertBy key) []

/-! ## Parts -/

def handlePart (i : Image) : List Byte :=
  leBytes 1 i.handle ++ leBytes 1 (b2n i.host) ++ leBytes 2 0 ++ leBytes 4 i.len ++ leBytes 8 i.addr ++ padTo 32 i.digest

/-- Bound virtual IDs of a context, ascending, with their physical gauges. -/
def boundGauges (s : State) (c : Nat) : List (Nat × Nat) :=
  (s.gauges.xlat.filter (fun e => e.1 / 2048 == c && e.2.getLsbD 15)).map (fun e =>
    (e.1 % 2048, fld e.2.toNat 12 3 * 4096 + fld e.2.toNat 0 12))

def gaugePart (s : State) (e : Nat × Nat) : List Byte :=
  padTo 16 (leBytes 2 e.1 ++ leBytes 2 (e.2 / 4096) ++ leBytes 4 (s.gauge e.2).value.toNat)

/-- The record of a queue (Table 11.3). -/
def queueRecord (q : PumpQueue) : List Byte :=
  padTo 32 (leBytes 8 q.base ++ leBytes 1 q.size ++ leBytes 1 q.pump ++ leBytes 2 q.post ++
    leBytes 2 (match q.tile with | some n => n + 2 ^ 15 | none => 0))

def queuePart (e : Nat × PumpQueue) : List Byte :=
  padTo 48 (leBytes 1 e.1 ++ leBytes 1 (b2n e.2.halted) ++ leBytes 6 0 ++ queueRecord e.2 ++ leBytes 4 e.2.consumed.toNat)

def tablePart (e : Nat × PageTable) : List Byte :=
  padTo 72 (leBytes 2 e.1 ++ leBytes 6 0 ++ (padTo 64 e.2.desc).set 14 0)

/-- Cycles of a run since its very first firing (R309). -/
def Run.cycles (r : Run) (s : State) : Nat := if r.first.isSome then r.ran + (s.clk - r.firstClk) else 0

def runPart (s : State) (r : Run) : List Byte :=
  padTo 32 (leBytes 1 r.handle ++ leBytes 1 (r.gen % 8 + r.replays % 4 * 8 + b2n r.purge * 32) ++ leBytes 2 r.seqNo ++
    leBytes 6 r.seed ++ leBytes 1 (b2n r.irq) ++ leBytes 1 0 ++
    leBytes 4 (match r.timeoutAt with | some d => (d - s.clk + 1023) / 1024 | none => 0) ++ leBytes 8 (r.cycles s))

/-- Messages in the FIFOs of a tile, port by port. -/
def fifoBytes (t : Tile) : List Byte :=
  (List.range 56).flatMap (fun i => ((t.port (i / 8 + 1) (i % 8)).fifo.map Msg.bytes).flatten)

/-- The fixed 256 bytes of a tile record. -/
def tileHead (n : Nat) (t : Tile) : List Byte :=
  padTo 256 (
    leBytes 2 n ++ leBytes 1 t.sect.handle.toNat ++ leBytes 1 t.sect.gen.toNat ++ leBytes 2 t.seq.idx.toNat ++
    leBytes 1 t.seq.preds.toNat ++ leBytes 1 (b2n (t.seq.st == .ended) + b2n t.sect.rerun * 2) ++ leBytes 8 t.finished ++
    (List.range 4).flatMap (fun k => leBytes 4 (t.seq.ctrs.getD k 0).toNat) ++
    (List.range 7).flatMap (fun k => leBytes 4 (agetD t.firings (k + 1) 0)) ++ leBytes 4 0 ++
    (List.range 4).flatMap (fun k => leBytes 16 (wSluice0 t k)) ++
    leBytes 4 t.spillBase ++ leBytes 4 (fifoBytes t).length)

def tilePart (s : State) (n : Nat) : List (Byte × Bool) :=
  let p := s.phys n
  let t := s.tile p
  clean (tileHead n t ++
    (List.range 64).flatMap (fun b => (List.range 4).flatMap (fun w => leBytes 4 (wBasin t b w))) ++
    (List.range 272).flatMap (fun i => leBytes 4 (agetD t.hist i 0).toNat) ++
    (List.range 65536).flatMap (fun i => leBytes 4 (agetD t.acc i 0).toNat)) ++
  (List.range 262144).map (fun i => (agetD t.vb i 0, t.vbPoison.contains (i / 64))) ++
  clean (fifoBytes t) ++
  (List.range t.spillBase).map (fun i => (s.mem.byte (tileBase p + i), s.mem.marked ((tileBase p + i) / 64)))

/-! ## The record -/

/-- Runs that a mid-section record holds. -/
def savedRuns (s : State) (c : Nat) : List Run := s.runs.filter (fun r => r.ctx == c && r.phase == .running)

/-- Their tiles, ascending. -/
def savedTiles (s : State) (c : Nat) : List Nat :=
  (savedRuns s c).foldl (fun a r => (s.region r).foldl insNat a) []

def recordHeader (s : State) (c : Nat) (mid : Bool) (len h g q t u n : Nat) (digest : List Byte) : List Byte :=
  let x := (aget? s.ctxs c).getD ⟨0, 0, 0⟩
  let r := s.ring c
  padTo 256 (
    leBytes 4 0x434B544C ++ leBytes 2 1 ++ leBytes 2 s.family ++ leBytes 4 s.geometry ++ leBytes 1 (b2n mid) ++ leBytes 1 c ++
    leBytes 1 x.polder ++ leBytes 1 x.gencnt.toNat ++ leBytes 8 len ++ leBytes 8 s.tideCount.toNat ++ padTo 32 digest ++
    leBytes 1 r.cmdLog2 ++ leBytes 1 r.cplLog2 ++ leBytes 2 r.coalesce ++ leBytes 4 0 ++ leBytes 8 r.base.toNat ++
    leBytes 8 r.line.toNat ++ leBytes 8 r.cpl.toNat ++ leBytes 4 r.head.toNat ++ leBytes 4 r.cplTail.toNat ++
    leBytes 2 h ++ leBytes 2 g ++ leBytes 2 q ++ leBytes 2 t ++ leBytes 2 u ++ leBytes 2 n)

/-- The context record of a context. -/
def contextRecord (s : State) (c : Nat) (mid : Bool) : List (Byte × Bool) :=
  let hs := sortBy (·.handle) (s.images.filter (fun i => i.ctx == c))
  let gs := boundGauges s c
  let qs := s.ms.queues.filter (fun e => e.2.ctx == c)
  let ts := s.ms.tables.filter (fun e => e.2.ctx == c)
  let us := if mid then savedRuns s c else []
  let ns := if mid then savedTiles s c else []
  let parts := clean (hs.flatMap handlePart ++ gs.flatMap (gaugePart s) ++ qs.flatMap queuePart ++ ts.flatMap tablePart ++
    us.flatMap (runPart s)) ++ ns.flatMap (tilePart s)
  let head := recordHeader s c mid (256 + parts.length) hs.length gs.length qs.length ts.length us.length ns.length
  let digest := sha256 (head [] ++ parts.map (·.1))
  clean (head digest) ++ parts

/-- A record written to device memory, its poison with it. -/
def writeRecord (s : State) (a : Nat) (rec : List (Byte × Bool)) : State :=
  s.devWrite a (rec.map (·.1)) (fun g =>
    ((rec.drop (g * 64 - a)).take (64 - (a - g * 64))).any (·.2))

/-- The end of a save: the record, or why there is none (R356, R357). -/
def finishSave (s : State) (x : Save) : State :=
  let out := contextRecord s x.ctx x.mid
  let s1 := { s with saves := s.saves.filter (fun y => !decide (y = x)) }
  let s2 := if x.mid then s1 else s1.modRing x.ctx (fun g => { g with saving := false })
  if x.cap < out.length then s2.complete x.ring x.cmd (x.cmd.reply stNoResource out.length 0 0)
  else if !s.inMemory x.addr out.length then s2.complete x.ring x.cmd (x.cmd.reply stBadParam 0 0 0)
  else (writeRecord (cpCharge s2 x.cmd.ctx false x.addr out.length true) x.addr out).complete x.ring x.cmd (x.cmd.reply stOk out.length 0 0)

/-- Boundary saves whose runs have all ended are taken (R356). -/
def settleSaves (s : State) : State :=
  s.saves.foldl (fun y x =>
    if !x.mid && x.waits.all (fun id => (y.run? id).isNone) && y.saves.contains x then finishSave y x else y) s

end Sys2Proof.Machine
end

