-- ==== Sys2Proof/Machine/Switch.lean ====
section
/-! DEFINITION. Section runs and switches (09, R210-R232, R253-R258, R354, R355): triggers, the phases of Table 9.5, the end
of a run, stops, and the removal of a context (R311, R353). -/

namespace Sys2Proof.Machine

/-! ## Census, tiles and owners -/

/-- The census of a tile and generation (R223): what travels, and what a unit of the tile has produced for a port of its
own tile. -/
def State.censusLive (s : State) (n g : Nat) : Nat :=
  s.census? n g + ((s.ltile n).egress.filter (fun e =>
    e.2.gen == g && !e.2.mcast && e.2.here s && e.2.dstY < 16 && e.2.dstTile == n)).length

def Run.switching (r : Run) : Bool :=
  match r.phase with
  | .accepted => false
  | .running => false
  | _ => true

/-- The tiles a switch of the run is about: its region, or the tiles a stop ends. -/
def State.switchTiles (s : State) (r : Run) : List Nat :=
  match r.phase with
  | .stopping => r.outgoing.map (·.1)
  | .stopDrain => r.outgoing.map (·.1)
  | _ => s.region r

/-- Two lists of tiles share one. -/
def meets (a b : List Nat) : Bool := a.any b.contains

/-- The runs whose sections these tiles hold. -/
def holders (s : State) (tiles : List Nat) : List Nat :=
  tiles.foldl (fun a n => if (s.ltile n).sect.configured then insNat a (s.ltile n).sect.run else a) []

/-- The trees that the sections of some runs own, as (die, tree) (R216). -/
def ownedTrees (s : State) (runs : List Nat) : List (Nat × Nat) :=
  s.owners.flatMap (fun e =>
    if runs.contains e.2.2 then
      (match s.image? e.1 e.2.1 with
       | some i => i.trees.map (fun t => (t.die, t.tree))
       | none => [])
    else [])

/-- Some instance of one of these trees is pending at a router. -/
def treePending (s : State) (ts : List (Nat × Nat)) : Bool :=
  s.tiles.any (fun e => e.2.router.insts.any (fun i => ts.contains (pDie e.1, i.tree)))

/-! ## Replies and saves -/

/-- Result words of a run's reply (R309). -/
def runWords (s : State) (r : Run) : Nat × Nat × Nat :=
  match r.first with
  | some (c, ph) => (c, ph % 2 ^ 20 + r.replays % 4 * 2 ^ 20, r.cycles s)
  | none => (0, 0, 0)

/-- A run ends with a status, and leaves; saves that waited for it may be taken (R356). -/
def endRun (s : State) (r : Run) (status : Nat) (purged : Bool) : State :=
  let w := runWords s r
  settleSaves ((s.replyRun r { r.reply status w.1 w.2.1 w.2.2 with purged := purged }).dropRun r.id)

/-! ## Triggers (R225, R354, R355) -/

/-- A run that stands in the ranking of R354. -/
def Run.waiting (r : Run) : Bool := (match r.phase with | .accepted => true | _ => false) && (r.due.isNone || r.armed)

/-- The order in which waiting runs that need one tile trigger (R354). -/
def ranksBefore (a b : Run) : Bool :=
  match a.due, b.due with
  | some x, some y =>
    x.1 < y.1 || (x.1 == y.1 && (x.2 < y.2 || (x.2 == y.2 && (a.ctx < b.ctx || (a.ctx == b.ctx && a.id < b.id)))))
  | some _, none => true
  | none, some _ => false
  | none, none => a.id < b.id

/-- A tile of the region lets the run trigger: done or unconfigured, or of a section that the run purges. -/
def tileFree (s : State) (r : Run) (n : Nat) : Bool :=
  let t := s.ltile n
  !t.sect.configured || t.isDone || (r.purge && t.sect.ctx.toNat == r.ctx)

/-- The sections whose pending trees the trigger waits for: all of them under DRAIN, other contexts' under PURGE. -/
def waitedHolders (s : State) (r : Run) : List Nat :=
  holders s ((s.region r).filter (fun n => !r.purge || (s.ltile n).sect.ctx.toNat != r.ctx))

/-- The tiles of a run's region let it switch (R225, R355): no other switch is about one, and no section but those it purges
still works there. -/
def switchFree (s : State) (r : Run) : Bool :=
  let tiles := s.region r
  !tiles.isEmpty &&
  !s.runs.any (fun o => o.id != r.id && o.switching && meets (s.switchTiles o) tiles) &&
  tiles.all (tileFree s r) && !treePending s (ownedTrees s (waitedHolders s r))

/-- The trigger of a run that waits for its tiles (R225, R354, R355). -/
def canTrigger (s : State) (r : Run) : Bool :=
  switchFree s r && !s.runs.any (fun o => o.id != r.id && o.waiting && ranksBefore o r && meets (s.region o) (s.region r))

/-- Sections that a PURGE ends before they are done (R211, R225): a tile that it takes is not, or has a transfer under way. -/
def victims (s : State) (r : Run) : List Run :=
  s.runs.filter (fun o =>
    (match o.phase with | .running => true | _ => false) && o.id != r.id &&
    (s.region r).any (fun n =>
      (s.ltile n).sect.configured && (s.ltile n).sect.run == o.id && !((s.ltile n).isDone && transfersDone s [n])))

/-- A switch starts (R222, R225): the generation is taken, a PURGE stops what runs, and the census is read. -/
def startSwitch (s : State) (r : Run) : State :=
  let tiles := s.region r
  let out := (tiles.filter (fun n => (s.ltile n).sect.configured)).map (fun n => (n, (s.ltile n).sect.gen.toNat))
  let (g, s1) := takeGen s r.ctx r.explicitGen
  let s2 := if r.purge then (victims s r).foldl (fun x o => endRun x o stOk true) (retireBound (stopTiles s1 tiles) tiles) else s1
  let s3 := { s2.modRun r.id (fun x => { x with gen := g, phase := .waitCensus, outgoing := out }) with
    owners := s2.owners ++ [(r.ctx, r.handle, r.id)] }
  (if r.purge then s3.bumpLdr 1 1 else s3).bumpLdr 0 1

/-- The predicate of a run (R257, R258): none for an unmapped gauge. -/
def predHolds (s : State) (r : Run) : Option Bool :=
  match r.pred with
  | none => some true
  | some (v, t, sense) => (s.gaugeOf r.ctx v).map (fun g => satisfied (s.gauge g).value t != sense)

/-- A run after its predicate (R257, R258): it goes on, ends with `BAD_PARAM`, or is skipped and counted. The read of the
gauge meets `ecc` (R207). -/
def predicated (s : State) (r : Run) (ecc : Ecc) (go : State → State) : State :=
  let judge (x : State) : State :=
    match predHolds x r with
    | some true => go x
    | some false => { endRun x r stSkipped false with condSkip := bump x.condSkip r.ctx 1 }
    | none => endRun x r stBadParam false
  match r.pred with
  | some (v, _) => gaugeEccOf s r.ctx v ecc (some r.id) judge
  | none => judge s

/-- A run found by its number, in the phase named. -/
def runIn (s : State) (id : Nat) (p : RunPhase → Bool) : Option Run :=
  (s.run? id).bind (fun r => if p r.phase then some r else none)

/-- SWITCH_TRIGGER (R225): a run that has no tide count, or whose instant has passed. -/
def execSwitchTrigger (run : Nat) (ecc : Ecc) (s : State) : Host.Outcome State Fault Refusal :=
  .next (done s (
    match runIn s run (fun p => match p with | .accepted => true | _ => false) with
    | some r =>
      if r.waiting && canTrigger s r then predicated s r ecc (fun x => startSwitch x r) else s
    | none => s))

/-! ## Timed starts (R228) -/

/-- Cycles from now to an instant of the tide, at the nominal period. -/
def cyclesTo (s : State) (d : Nat × Nat) : Int :=
  (Int.ofNat d.1 - Int.ofNat s.tideCount.toNat) * Int.ofNat s.tide.period + (Int.ofNat d.2 - Int.ofNat s.tidePhase)

/-- Initial values above 256 at the busiest block (R228). -/
def initExcess (i : Image) : Nat :=
  (List.range 5).foldl (fun a b => max a ((i.gauges.filter (fun g => g.init && g.loc == b)).length)) 0 - 256

/-- Displacement changes that a switch of these tiles applies (R229). -/
def movesOf (s : State) (tiles : List Nat) : List Move := s.moves.filter (fun m => tiles.contains m.logical)

/-- Cycles from the trigger to phase 9 that the loader allows for (R228, R229). -/
def switchLead (s : State) (r : Run) : Nat :=
  640 + (match s.image? r.ctx r.handle with | some i => initExcess i | none => 0) +
    ((movesOf s (s.region r)).map (fun m => ((s.ltile m.logical).spillBase + 262144) / 128)).sum

/-- TIMED_SWITCH_START (R228, R257): the run enters the ranking, its predicate is evaluated, and it switches when its
tiles are free. -/
def execTimedSwitchStart (run : Nat) (ecc : Ecc) (s : State) : Host.Outcome State Fault Refusal :=
  .next (done s (
    match runIn s run (fun p => match p with | .accepted => true | _ => false) with
    | some r =>
      (match r.due with
       | some d =>
         if !r.armed && cyclesTo s d ≤ Int.ofNat (switchLead s r) then
           predicated s r ecc (fun s0 =>
             let s1 := s0.modRun run (fun x => { x with armed := true, pred := none })
             match s1.run? run with
             | some r1 => if canTrigger s1 r1 then startSwitch s1 r1 else s1
             | none => s1)
         else s
       | none => s)
    | none => s))

/-! ## Phases 2 and 3 -/

/-- What a tile holds of its outgoing section, discarded and counted (phase 3, R246). -/
def Tile.discarded (t : Tile) : Nat :=
  (t.ports.map (fun e => e.2.fifo.length + e.2.inBasin)).sum + (t.queues.map (fun e => e.2.length)).sum + t.egress.length +
    t.gq.length + t.steerSpill.length

/-- A tile with its section discarded, inside the raised dike. -/
def Tile.unload (t : Tile) : Tile :=
  { t with
    queues := []
    gq := []
    egress := []
    ports := []
    steerSpill := []
    collect := ⟨[], false⟩
    seq := { t.seq with st := .idle, gwait := none, watchDeadline := none, holdOp := none, stepOne := false }
    sect := { t.sect with configured := false, loading := true, saving := false, rerun := false }
    regs := { t.regs with discard := BitVec.ofNat 32 (min t.discarded (2 ^ 32 - 1)) } }

/-- Trees zeroed at every member, and their instances discarded. -/
def zeroTrees (s : State) (ts : List (Nat × Nat)) : State :=
  { s with
    trees := s.trees.filter (fun e => !ts.contains (lDie (e.1 / 64), e.1 % 64))
    tiles := s.tiles.map (fun e => (e.1, e.2.modRouter (fun r => { r with insts := r.insts.filter (fun i => !ts.contains (pDie e.1, i.tree)) }))) }

/-- Phases 2 and 3 of a switch of these tiles; `keep` is the run whose own ownership goes on. -/
def unloadTiles (s : State) (tiles : List Nat) (keep : Option Nat) : State :=
  let hs := holders s tiles
  let s1 := zeroTrees (dropWaiters s (fun w => w.hub || !tiles.contains w.tile.toNat)) (ownedTrees s hs)
  let s2 := { s1 with owners := s1.owners.filter (fun e => !hs.contains e.2.2 || keep == some e.2.2) }
  tiles.foldl (fun x n => x.modTile (x.phys n) Tile.unload) s2

/-- SWITCH_CENSUS_CLEAR (R224, R226): phase 1 ends once the census of the new generation is zero for the region, and
phases 2 and 3 follow. A stop has no new generation to wait for. -/
def execSwitchCensusClear (run : Nat) (s : State) : Host.Outcome State Fault Refusal :=
  .next (done s (
    match s.run? run with
    | some r =>
      (match r.phase with
       | .waitCensus =>
         if (s.region r).all (fun n => s.censusLive n r.gen == 0) then
           (unloadTiles s (s.region r) (some run)).modRun run (fun x => { x with phase := .draining })
         else s
       | .stopping =>
         (unloadTiles s (s.switchTiles r) none).modRun run (fun x => { x with phase := .stopDrain })
       | _ => s)
    | none => s))

/-! ## Phase 4: displacement (R229) -/

/-- The screener of a field die. -/
def State.scr (s : State) (d : Nat) : Screener := s.health.scr.getD d Screener.reset
def State.modScr (s : State) (d : Nat) (f : Screener → Screener) : State :=
  { s with health := { s.health with scr := s.health.scr.mapIdx (fun i x => if i == d then f x else x) } }

/-- A physical tile is retired (R374): `rec` names the test record that failed. -/
def retireTile (s : State) (p rec : Nat) : State :=
  (s.modTile p (fun t => { t with retired := true, screening := false })).event 0x2301 9 p none (detailOf [(2, p), (2, rec)])

/-- Record index in the event of a tile that `SCREEN_RUN` retires. -/
def noRecord : Nat := 0xFFFF

/-- A move has taken effect: the screener that waited for it goes on, and a tile that was to be retired once vacated is
retired (R370, R378). -/
def screenerMoved (s : State) (m : Move) (p : Nat) : State :=
  let d := lDie m.logical
  let s1 := s.modScr d (fun x =>
    if x.vacated != some m.logical then x
    else match x.step with
    | .waitMove => { x with step := .ready }
    | .waitReturn => { x with step := .idle, vacated := none }
    | _ => x)
  ((s1.scr d).retire.filter (fun e => e.1 == p)).foldl (fun y e =>
      (if (y.tile p).retired then y else retireTile y p noRecord).complete e.2.1 e.2.2 (e.2.2.reply stOk 0 0 0))
    (s1.modScr d (fun x => { x with retire := x.retire.filter (fun e => e.1 != p) }))

/-- A displacement change applied: the program area and the staged frames go to the new host, the spillway stays. -/
def applyMove (s : State) (m : Move) : State :=
  let p := s.phys m.logical
  let t := s.tile p
  let mem1 := s.mem.copy (tileBase p) (tileBase m.dest) t.spillBase
  let mem2 := mem1.copy (tileBase p + 0xFC0000) (tileBase m.dest + 0xFC0000) 0x40000
  let home := pOf (lDie m.logical) (lX m.logical) (lY m.logical)
  let s1 := { s with
    mem := mem2
    displaced := if m.dest == home then adel s.displaced m.logical else aput s.displaced m.logical m.dest
    moves := s.moves.filter (fun x => x.logical != m.logical) }
  let s2 := s1.modTile m.dest (fun x => { x with
      sect := t.sect
      wbPending := x.wbPending.filter (fun w => t.spillBase ≤ 64 * w && 64 * w < 0xFC0000)
      localList := x.localList.filter (fun w => t.spillBase ≤ 64 * w && 64 * w < 0xFC0000) }.modRegs (fun r => { r with
         slots := t.regs.slots, settings := t.regs.settings }))
  screenerMoved (s2.modTile p (fun x => { x with sect := TileSect.reset }.modRegs (fun r => { r with slots := 0 }))) m p

/-! ## Phases 5 to 9 -/

/-- Configuration state copied from a slot (R33): the bytes of the frames the image gives. -/
def slotCfg (s : State) (p j frames : Nat) : Assoc Byte :=
  let base := slotPlace p j 0
  (s.mem.cells.filter (fun c => base ≤ c.1 && c.1 < base + 16384 && bitOf frames ((c.1 - base) / 4096))).map
    (fun c => (c.1 - base, c.2))

/-- The granules of that state whose words in the slot carry poison (R48). -/
def slotBad (s : State) (p j frames : Nat) : List Nat :=
  let g := slotPlace p j 0 / 64
  (s.mem.poison.filter (fun x => g ≤ x && x < g + 256 && bitOf frames ((x - g) / 64))).map (fun x => x - g)

/-- Basins as R143 starts them. -/
def startBasins (t : Tile) : Assoc Basin :=
  ((List.range 64).filter (fun b => declValid (t.basinDecl b))).map (fun b =>
    let d := t.basinDecl b
    (b, { Basin.empty with tail := declPreset d % declSize d, used := declPreset d }))

/-- A tile loaded with its part of the image (phases 5-8). -/
def loadTile (s : State) (i : Image) (r : Run) (n : Nat) : State :=
  let p := s.phys n
  let cfg := slotCfg s p (agetD i.slot n 0) (agetD i.frames n 0)
  let s1 := s.modTile p (fun t0 =>
    let t := { t0 with cfg := cfg, cfgBad := slotBad s p (agetD i.slot n 0) (agetD i.frames n 0), swaps := 0 }
    { t with
      seq := { t.seq with idx := 0, st := .idle, preds := BitVec.ofNat 8 t.initPreds
                          ctrs := (List.range 4).map (fun k => BitVec.ofNat 20 (t.initCtr k))
                          gwait := none, watchDeadline := none, holdOp := none }
      queues := []
      opId := 0
      gq := []
      egress := []
      ports := []
      basins := startBasins t
      sluices := []
      finished := 0
      firings := []
      acc := []
      vb := []
      vbPoison := []
      hist := []
      once := []
      localList := []
      collect := ⟨[], false⟩
      steerSpill := []
      progress := s.clk
      regs := { t.regs with oversize := 0, refused := 0, overrun := 0, settings := agetD i.settings n settingsReset, orphan := 0
                            fwPolder := 0, fwTree := 0, malformed := 0, condSpillFull := false, stale := 0 }
      sect := { gen := BitVec.ofNat 3 r.gen, configured := true, loading := false, ctx := BitVec.ofNat 6 r.ctx
                handle := BitVec.ofNat 8 r.handle, replays := BitVec.ofNat 2 r.replays, run := r.id
                inputs := (i.inputs.filter (fun d => d.tile == some n)).map (fun d => (d.base, d.len))
                saving := false, rerun := false } })
  { s1 with gauges := { s1.gauges with tctx := aput s1.gauges.tctx n (BitVec.ofNat 6 r.ctx) } }

/-- The entries of an owned tree written. -/
def writeTree (s : State) (t : TreeDecl) : State :=
  { s with trees := t.members.foldl (fun a m => aput a (64 * m.1 + t.tree) m.2) s.trees }

/-- The initial value of an owned gauge, through the command-processor access (R201, R216). -/
def initGauge (s : State) (ctx : Nat) (g : GaugeDecl) : State :=
  match s.gaugeOf ctx g.vid with
  | some k => applySignal s k true g.value 0 0 true
  | none => s

/-- The initial values of an image's gauges, in the records' order; `hit` names the gauge whose words an error meets, and a
word that is lost ends the run (R207). -/
def initGauges (ctx run : Nat) (hit : Option (BitVec 11 × Ecc)) : List GaugeDecl → State → (State → State) → State
  | [], s, go => go s
  | g :: gs, s, go =>
    if !g.init then initGauges ctx run hit gs s go
    else
      let ecc := match hit with | some (v, e) => if v.toNat == g.vid then e else .clean | none => .clean
      gaugeEccOf s ctx g.vid ecc (some run) (fun x => initGauges ctx run hit gs (initGauge x ctx g) go)

/-- Registers that a section switch starts anew (R181, R187), and the events of a section that may be logged again. -/
def startSection (s : State) : State :=
  { s with
    fabThreshold := fld (s.reg 0x201000).toNat 0 20
    fabClass := fld (s.reg 0x201004).toNat 0 10
    gauges := { s.gauges with once := [] }
    links := { s.links with ports := s.links.ports.map (fun e => (e.1, { e.2 with once := [] })) } }

/-- A firing later than 1 cycle after its instant (R342): event 0x1220 and the counters of the tide unit. -/
def lateEvent (s : State) (ctx : Option Nat) (entry seq k late : Nat) : State :=
  ({ s with tide := { s.tide with cnt := bump s.tide.cnt 6 1 } }).event 0x1220 14 3 ctx
    (leBytes 2 entry ++ leBytes 2 seq ++ leBytes 4 k ++ leBytes 8 late)

/-- A timed run fires (R25, R342): counted, and late when it fires after its instant. -/
def timedFiring (s : State) (r : Run) : State :=
  match r.due with
  | none => s
  | some d =>
    let late := (-(cyclesTo s d)).toNat
    let s1 := { s with tide := { s.tide with cnt := bump s.tide.cnt 5 1 } }
    if late > 1 then
      (lateEvent s1 (some r.ctx) (match r.sched with | some e => e.1 | none => 0xFFFF) r.seqNo
        (match r.sched with | some e => e.2 | none => 0) late).modRun r.id (fun x => { x with late := true })
    else s1

/-- Phase 9: the dike falls and every tile of the region executes step 0 (R227). -/
def fireRun (s : State) (r : Run) (i : Image) : State :=
  let s1 := timedFiring s r
  let s2 := s1.modRun r.id (fun x => { x with
    phase := .running
    due := none
    started := s.clk
    outgoing := []
    timeoutAt := if i.timeout == 0 then none else some (s.clk + i.timeout * 1024)
    first := if x.first.isSome then x.first else some (s.tideCount.toNat, s.tidePhase)
    firstClk := if x.first.isSome then x.firstClk else s.clk })
  i.tiles.foldl (fun x n => settle (seqGo x (x.phys n) 0) (x.phys n)) s2

/-- Phases 5-9 of the switch to a run's image. -/
def loadRun (s : State) (r : Run) (i : Image) (hit : Option (BitVec 11 × Ecc)) : State :=
  let s1 := i.tiles.foldl (fun x n => loadTile x i r n) s
  let s2 := i.trees.foldl writeTree s1
  initGauges r.ctx r.id hit i.gauges s2 (fun s3 => fireRun (startSection s3) r i)

/-! ## Removing a context (R193, R290, R311, R353) -/

/-- The bindings of a context end, and its gauges return to their pools. -/
def unbindAll (s : State) (c : Nat) : State :=
  let gs := (boundGauges s c).map (·.2)
  let s1 := gs.foldl (fun x g =>
    let b := g / 4096
    { x with gauges := { x.gauges with
        gauges := adel x.gauges.gauges g
        waitersUsed := amod x.gauges.waitersUsed b 0 (· - (x.gauge g).waiters.length) } }) s
  { s1 with gauges := { s1.gauges with xlat := adelRange s1.gauges.xlat (2048 * c) 2048 } }

/-- A page table is a context's. -/
def tableOf (c : Nat) (s : State) (k : Nat) : Bool := (aget? s.ms.tables k).any (fun t => t.ctx == c)

/-- A context is removed with its queues and tables, handles, bindings, schedule entries and ring. -/
def removeContext (s : State) (c : Nat) : State :=
  let s1 := (s.images.filter (fun i => i.ctx == c)).foldl dropImage s
  let s2 := dropHubWaits (unbindAll s1 c) (fun h => h.ctx == c)
  { s2 with
    ms := { s2.ms with
      txns := s2.ms.txns.filter (fun t => match aget? s2.ms.queues t.queue with
        | some q => q.ctx != c
        | none => t.queue != copyQueue || !((s2.ms.copies.find? (fun x => x.id == t.xfer)).any (fun x => tableOf c s2 x.table)))
      copies := s2.ms.copies.filter (fun x => !tableOf c s2 x.table)
      jobs := s2.ms.jobs.filter (fun j => j.cmd.ctx != c)
      frees := s2.ms.frees.filter (fun x => !tableOf c s2 x.table)
      queues := s2.ms.queues.filter (fun e => e.2.ctx != c)
      tables := s2.ms.tables.filter (fun e => e.2.ctx != c) }
    tide := { s2.tide with sched := s2.tide.sched.filter (fun e => !(leAt e.2.bytes 0 1 ≤ 2 && leAt e.2.bytes 1 1 == c)) }
    owners := s2.owners.filter (fun e => e.1 != c)
    ctxs := adel s2.ctxs c
    rings := adel s2.rings c }

/-- Stops whose switches have ended complete: SECTION_STOP (its `aux` holds r0, then the runs) and CONTEXT_DESTROY (the
context, then the runs). -/
def settleStops (s : State) : State :=
  s.ringNos.foldl (fun x r =>
    (x.ring r).accepted.foldl (fun y c =>
      if (c.opcode == 0x41 || c.opcode == 0x21) && (c.aux.drop 1).all (fun id => (y.run? id).isNone) then
        if c.opcode == 0x41 then y.complete r c (c.reply stOk (c.aux.headD 0) 0 0)
        else (removeContext y (c.aux.headD 0)).complete r c (c.reply stOk 0 0 0)
      else y) x) s

/-- A stop of a run (R225, R309): its reply is made now; a switch of the tiles it holds follows, in PURGE form. The
answer names the run that the stop waits for. -/
def stopRun (s : State) (r : Run) : State × List Nat :=
  let held := (s.region r).filter (fun n => (s.ltile n).sect.configured && (s.ltile n).sect.run == r.id)
  let w := runWords s r
  let said := settleSaves (s.replyRun r { r.reply stOk w.1 w.2.1 w.2.2 with purged := true })
  match r.phase with
  | .accepted => (endRun s r stOk true, [])
  | .waitCensus =>
    if r.purge || r.replays != 0 then
      (said.modRun r.id (fun x => { x with phase := .stopping, outgoing := (s.region r).map (fun n => (n, (s.ltile n).sect.gen.toNat)) }), [r.id])
    else
      let s1 := endRun s r stOk true
      ({ s1 with owners := s1.owners.filter (fun e => e.2.2 != r.id) }, [])
  | .draining =>
    (said.modRun r.id (fun x => { x with phase := .stopDrain, outgoing := (s.region r).map (fun n => (n, (s.ltile n).sect.gen.toNat)) }), [r.id])
  | .running =>
    ((retireBound (stopTiles said held) held).modRun r.id (fun x =>
      { x with phase := .stopping, outgoing := held.map (fun n => (n, (s.ltile n).sect.gen.toNat)) }), [r.id])
  | _ => (s, [r.id])

/-- A section whose run has ended and that tiles still hold is stopped under a run number of its own. -/
def stopLoaded (s : State) (c h : Nat) (tiles : List Nat) : State × List Nat :=
  if tiles.isEmpty then (s, [])
  else
    let id := s.runId + 1
    let r : Run := { id := id, ctx := c, handle := h, seqNo := 0, sched := none, userRing := false, irq := false, seed := 0
                     explicitGen := none, gen := 0, pred := none, purge := true, due := none, armed := false, late := false
                     phase := .stopping, replays := 0, committed := false, first := none, firstClk := 0, ran := 0, started := 0
                     timeoutAt := none, outgoing := tiles.map (fun n => (n, (s.ltile n).sect.gen.toNat)) }
    ({ retireBound (stopTiles s tiles) tiles with runs := s.runs ++ [r], runId := id }, [id])

/-- The sections of a context, or of one handle of it, are stopped. -/
def stopSections (s : State) (c : Nat) (h : Option Nat) : State × List Nat :=
  let mine (x : Nat) : Bool := match h with | some k => x == k | none => true
  let a := (s.runs.filter (fun r => r.ctx == c && mine r.handle)).foldl (fun (x : State × List Nat) r =>
    let y := stopRun x.1 r
    (y.1, x.2 ++ y.2)) (s, [])
  let loaded := (List.range s.ntiles).filter (fun n =>
    let t := a.1.ltile n
    t.sect.configured && t.sect.ctx.toNat == c && mine t.sect.handle.toNat &&
    !a.1.runs.any (fun r => r.switching && (a.1.switchTiles r).contains n))
  let b := stopLoaded a.1 c (h.getD 0) loaded
  (b.1, a.2 ++ b.2)

/-! ## Phase 4 ends -/

/-- The tiles of a stopped section: unconfigured, their generation unchanged, the dike lowered (below R226). -/
def releaseTiles (s : State) (tiles : List Nat) : State :=
  let s1 := tiles.foldl (fun x n => x.modTile (x.phys n) (fun t => t.modSect (fun q => { q with loading := false }))) s
  { s1 with gauges := { s1.gauges with tctx := s1.gauges.tctx.filter (fun e => !tiles.contains e.1) } }

/-- SWITCH_DRAIN_END (R226): phase 4 ends once the census of every outgoing generation is zero and every started transfer
has completed; a timed run's last phase falls on its instant. `parity` names a tile whose state failed twice (R230), `gauge` an
initial value's gauge and what its words meet (R207). -/
def execSwitchDrainEnd (run : Nat) (parity : Option (BitVec 10)) (gauge : Option (BitVec 11 × Ecc)) (s : State) : Host.Outcome State Fault Refusal :=
  .next (done s (
    match s.run? run with
    | none => s
    | some r =>
      let tiles := s.switchTiles r
      let clear := r.outgoing.all (fun e => s.censusLive e.1 e.2 == 0) && transfersDone s tiles
      let s1 := (movesOf s tiles).foldl applyMove (retireBound s tiles)
      match r.phase with
      | .stopDrain =>
        if clear then settleStops (settleSaves ((releaseTiles s1 tiles).dropRun run)) else s
      | .draining =>
        (match s.image? r.ctx r.handle with
         | none => s
         | some i =>
           if clear && (match r.due with | some d => cyclesTo s d ≤ 0 | none => true) then
             match parity with
             | some n =>
               if tiles.contains n.toNat then
                 s1.jobFault 0x4122 14 1 (some r.ctx) (some run) stJobFault (detailOf [(2, n.toNat)])
               else loadRun s1 r i gauge
             | none => loadRun s1 r i gauge
           else s)
      | _ => s))

/-! ## The end of a run (R211, R212) -/

/-- Every tile of the run is done: it holds the run's section and is done, or a later switch has taken it. -/
def runTilesDone (s : State) (r : Run) : Bool :=
  (s.region r).all (fun n => let t := s.ltile n; !t.sect.configured || t.sect.run != r.id || t.isDone)

/-- RUN_DONE (R211): every tile of the region is done, and every ordered transfer has completed. -/
def execRunDone (run : Nat) (s : State) : Host.Outcome State Fault Refusal :=
  .next (done s (
    match runIn s run (fun p => match p with | .running => true | _ => false) with
    | some r =>
      if runTilesDone s r && transfersDone s ((s.region r).filter (fun n => (s.ltile n).sect.run == run)) then
        endRun s r stOk false
      else s
    | none => s))

/-- SECTION_TIMEOUT (R212): the run is not done when its timeout expires, a job fault. -/
def execSectionTimeout (run : Nat) (s : State) : Host.Outcome State Fault Refusal :=
  .next (done s (
    match runIn s run (fun p => match p with | .running => true | _ => false) with
    | some r =>
      (match r.timeoutAt with
       | some d =>
         if d ≤ s.clk && !(runTilesDone s r && transfersDone s (s.region r)) then
           s.jobFault 0x4120 14 1 (some r.ctx) (some run) stTimeout []
         else s
       | none => s)
    | none => s))

end Sys2Proof.Machine
end

