-- ==== Sys2Proof/Machine/Command.lean ====
section
/-! DEFINITION. Command packets (12, R299-R308): how a ring's next packet is read, the check order of R306, replies, and the
frame that the meaning of every ring command shares. -/

namespace Sys2Proof.Machine

/-- A packet as it was read (Table 12.5, R305). `par` holds the parameter bytes from packet byte 8 on. `bad` tells that
its reserved bits, its context or its parameter block are not valid, `outside` that a user ring's block lies outside its polder. -/
structure Pkt where
  op : Nat
  irq : Bool
  fence : Bool
  ctx : Nat
  seq : Nat
  plen : Nat
  par : List Byte
  poison : Bool
  bad : Bool
  outside : Bool
deriving DecidableEq, Repr

/-- A field of n bytes at packet byte o. -/
def Pkt.b (p : Pkt) (o n : Nat) : Nat := leAt p.par (o - 8) n

/-- Number of a ring. -/
def ringNo : Ring → Nat
  | .priv => privRing
  | .user c => c.toNat
  | .upset r _ => ringNo r
  | .failing r => ringNo r

/-- The bits found flipped in a word that the command of a ring reads (R265). -/
def ringFlips : Ring → Option Flips
  | .upset _ f => some f
  | .failing r => ringFlips r
  | _ => none

/-- The host completes the command's writes with an error (R293). -/
def ringFails : Ring → Bool
  | .failing _ => true
  | .upset r _ => ringFails r
  | _ => false

/-- The polder that a ring's commands act in; none on the privileged ring. -/
def ringPolder (s : State) (r : Nat) : Option Nat := if r < 64 then s.polderOfCtx r else none

def RingSt.entries (x : RingSt) : Nat := 2 ^ x.cmdLog2
def RingSt.cplEntries (x : RingSt) : Nat := 2 ^ x.cplLog2

/-- Device address of the entry at the head of a ring (R300). -/
def RingSt.headAddr (x : RingSt) : Nat := x.base.toNat + 64 * (x.head.toNat % x.entries)

/-- The packet at the head of a ring (R305). -/
def readPkt (s : State) (r : Nat) : Pkt :=
  let a := (s.ring r).headAddr
  let bytes := s.devRead a 64
  let w := leAt bytes 0 8
  let plen := fld w 48 16
  let head : Pkt :=
    { op := fld w 0 16, irq := bitOf w 18, fence := bitOf w 19, ctx := fld w 24 8, seq := fld w 32 16, plen := plen
      par := [], poison := s.devPoison a 64, bad := false, outside := false }
  if bitOf w 16 then
    let host := bitOf w 17
    let b := leAt bytes 8 8
    let place := host || s.populated b plen
    { head with
      par := if place then s.anyRead host b plen else []
      poison := head.poison || (place && s.anyPoison host b plen)
      bad := fld w 20 4 != 0 || fld w 24 8 ≥ 64 || plen == 0 || !allZero (bytes.drop 16) || !place
      outside := match ringPolder s r with | some p => !host && !s.polderHolds p b plen | none => false }
  else
    { head with par := (bytes.drop 8).take (min plen 56), bad := fld w 20 4 != 0 || fld w 24 8 ≥ 64 || plen > 56 || bitOf w 17 }

/-! ## Opcodes (Table 12.9) -/

/-- Opcodes that every ring may issue. -/
def userOps : List Nat := [0x01, 0x02, 0x40, 0x41, 0x50, 0x58, 0x59, 0x5A, 0x60, 0x61, 0x70]

/-- Opcodes of the privileged ring only. -/
def privOps : List Nat :=
  [0x10, 0x11, 0x12, 0x20, 0x21, 0x22, 0x23, 0x30, 0x31, 0x32, 0x42, 0x43, 0x5B, 0x71, 0x72, 0x73, 0x80, 0x81, 0x90, 0x91, 0x92,
   0x93, 0xA0, 0xA1, 0xA2, 0xA3, 0xF0]

/-- Forms of an opcode that has several, in byte 8 (Table 12.8, R339, R378, R380). -/
def formsOf (op : Nat) : Option Nat :=
  match op with
  | 0x50 => some 4
  | 0x58 => some 3
  | 0x59 => some 3
  | 0x71 => some 3
  | 0x72 => some 3
  | 0x93 => some 4
  | _ => none

/-- Checks 1 and 2 of R306. -/
def pktDenied (r : Nat) (p : Pkt) : Option Nat :=
  if !userOps.contains p.op && !privOps.contains p.op then some stBadOpcode
  else if r < 64 && (!userOps.contains p.op || p.ctx != r) then some stDenied
  else none

/-- The status of a packet that no command row covers (R304, R306): read with poison, of no known opcode, or of no form
of its opcode. -/
def autoStatus (r : Nat) (p : Pkt) : Option Nat :=
  if p.poison then some stPoisoned
  else if !userOps.contains p.op && !privOps.contains p.op then some stBadOpcode
  else
    match formsOf p.op with
    | some n => if p.b 8 1 ≥ n then some ((pktDenied r p).getD stBadParam) else none
    | none => none

/-! ## Taking a packet (R300-R303) -/

/-- Commands posted and not taken. -/
def RingSt.posted (x : RingSt) : Nat := (x.tail - x.head).toNat
/-- Replies written and not yet read by the host. -/
def RingSt.unread (x : RingSt) : Nat := (x.cplTail - x.cplHead).toNat

/-- The ring takes commands now. -/
def ringOpen (s : State) (r : Nat) : Bool :=
  let x := s.ring r
  (aget? s.rings r).isSome && s.ready && s.power.level != 0 && !s.devFault && x.enabled && !x.halted && !x.saving &&
  x.accepted.length < 256 && x.unread < x.cplEntries && 1 ≤ x.posted && x.posted ≤ x.entries

/-- The entry at the head of a ring can be read (R303). -/
def entryReads (s : State) (r : Nat) : Bool := s.inMemory (s.ring r).headAddr 64

/-- The packet that a ring takes next. -/
def nextPkt (s : State) (r : Nat) : Option Pkt :=
  if ringOpen s r && entryReads s r then
    let p := readPkt s r
    if p.fence && !p.poison && !(s.ring r).accepted.isEmpty then none else some p
  else none

/-- The parameter block of the packet at the head of a ring (R305): in host memory or not, its address, its length. -/
def pktBlock (s : State) (r : Nat) : Option (Bool × Nat × Nat) :=
  let a := (s.ring r).headAddr
  let w := leNat (s.devRead a 8)
  if bitOf w 16 then some (bitOf w 17, leNat (s.devRead (a + 8) 8), fld w 48 16) else none

/-- Device ranges that the command processor reads of a packet: its entry, and a parameter block in device memory (R305). -/
def pktReads (s : State) (r : Nat) : List (Nat × Nat) :=
  ((s.ring r).headAddr, 64) :: (match pktBlock s r with | some (false, b, n) => [(b, n)] | _ => [])

/-- Device ranges that are read: each is snooped first (R294). -/
def touchAll (s : State) (l : List (Nat × Nat)) : State := l.foldl (fun x e => touchDev x e.1 e.2) s

/-- The ring's head moves past a packet, which has been read. -/
def advance (s : State) (r : Nat) : State := (touchAll s (pktReads s r)).modRing r (fun x => { x with head := x.head + 1 })

/-! ## The command processor's transfers at the weirs (R348, R350) -/

/-- What tells a ring's packet (0) and its reply (1) from the other units that a bucket can hold. -/
def cpUnit (r k : Nat) : Nat := 2 * (2 ^ 20 + 2 * r + k) + 1

/-- The reading of a packet at its bucket (R350), with the block behind it: let through, or held back. -/
def pktPass (s : State) (r : Nat) (p : Pkt) : State × Bool :=
  match cpBucket s false (s.ring r).headAddr false with
  | none => (s, true)
  | some (w, b) =>
    match weirPass s (s.polderOfCtx p.ctx) w b (cpUnit r 0) 64 with
    | (s1, false) => (s1, false)
    | (s1, true) => (match pktBlock s r with | some (host, a, n) => cpCharge s1 p.ctx host a n false | none => s1, true)

def Pkt.cmd (p : Pkt) (aux : List Nat) : Cmd := ⟨p.op, p.ctx, p.seq, p.irq, aux⟩

/-- A command ends with a reply. -/
def answer (s : State) (r : Nat) (p : Pkt) (status r0 r1 r2 : Nat) : State := s.reply r ((p.cmd []).reply status r0 r1 r2)

/-- A command ends with a status and no result. -/
def refuse (s : State) (r : Nat) (p : Pkt) (status : Nat) : State := answer s r p status 0 0 0

/-- A command is accepted (R307); `aux` holds what its completion needs. -/
def accept (s : State) (r : Nat) (p : Pkt) (aux : List Nat) : State :=
  s.modRing r (fun x => { x with accepted := x.accepted ++ [p.cmd aux] })

/-- Packets that no command row covers are answered as they come to the head. -/
def drainBad (r : Nat) : Nat → State → State
  | 0, s => s
  | k + 1, s =>
    match nextPkt s r with
    | none => s
    | some p =>
      match autoStatus r p with
      | some st => drainBad r k (refuse (advance s r) r p st)
      | none => s

/-- The packet at the head of a ring has an opcode and form, and its command row covers it. -/
def pktIs (r : Nat) (p : Pkt) (op : Nat) (form : Option Nat) : Bool :=
  p.op == op && (autoStatus r p).isNone && (match form with | some f => p.b 8 1 == f | none => true)

/-- The packet at the head of a ring, when it has the command's opcode and form, is taken; `body` gets the state after that, the
ring and the packet. A ring whose entry can no longer be read halts (R303); one whose reading a weir holds back waits (R350). -/
def takePkt (s : State) (r op : Nat) (form : Option Nat) (body : State → Nat → Pkt → State) : State :=
  match nextPkt s r with
  | none => if ringOpen s r && !entryReads s r then s.haltRing r 2 else s
  | some p =>
    if pktIs r p op form then
      (match pktPass s r p with
       | (s1, false) => s1
       | (s1, true) => drainBad r 65536 (body (advance s1 r) r p))
    else s

/-- The frame of a ring command. `reads` are the further device ranges that it reads: with its packet, they are where an upset
is met (R265), before what was read is used. -/
def ringCmdOf (s : State) (ring : Ring) (op : Nat) (form : Option Nat) (reads : State → Pkt → List (Nat × Nat))
    (body : State → Nat → Pkt → State) : State :=
  let r := ringNo ring
  match ringFlips ring with
  | none => takePkt s r op form body
  | some f =>
    match nextPkt s r with
    | none => s
    | some p =>
      if pktIs r p op form then drainBad r 65536 (takePkt (errorIn s (pktReads s r ++ reads s p) (some f)) r op form body)
      else s

/-- The frame of a ring command that reads nothing but its packet. -/
def ringCmd (s : State) (ring : Ring) (op : Nat) (form : Option Nat) (body : State → Nat → Pkt → State) : State :=
  ringCmdOf s ring op form (fun _ _ => []) body

/-- Parameters of an opcode (Table 12.9): packet byte, bytes, mask of the bits that carry meaning (0: all). Every other
bit is reserved (R306). -/
abbrev Fields := List (Nat × Nat × Nat)

/-- End of the last parameter. -/
def fieldsEnd (fs : Fields) : Nat := fs.foldl (fun a f => max a (f.1 + f.2.1)) 8

/-- Check 3 of R306 as far as plen, the packet's context and the reserved bits go. -/
def fieldsOk (p : Pkt) (fs : Fields) : Bool :=
  !p.bad && p.plen + 8 ≤ fieldsEnd fs &&
  (List.range p.plen).all (fun i => p.b (8 + i) 1 == 0 || fs.any (fun f => f.1 ≤ 8 + i && 8 + i < f.1 + f.2.1)) &&
  fs.all (fun f => f.2.2 == 0 || (p.b f.1 f.2.1) &&& f.2.2 == p.b f.1 f.2.1)

/-- Checks 1-3 of R306 that all commands share; `body` runs when they pass. -/
def checked (s : State) (r : Nat) (p : Pkt) (fs : Fields) (body : State) : State :=
  match pktDenied r p with
  | some st => refuse s r p st
  | none =>
    if !fieldsOk p fs then refuse s r p stBadParam
    else if p.outside then refuse s r p stDenied
    else body

/-- A context exists and is not being removed. -/
def State.ctxLive (s : State) (c : Nat) : Bool :=
  (aget? s.ctxs c).isSome &&
  !s.ringNos.any (fun r => (s.ring r).accepted.any (fun x => x.opcode == 0x21 && x.aux.headD 64 == c))

/-- A device range that a command names for reading or writing: on a user ring it lies in the polder's shares or tiles
(R308). -/
def mayReach (s : State) (r : Nat) (host : Bool) (a n : Nat) : Bool :=
  host || (match ringPolder s r with | some p => s.polderReaches p a n | none => r == privRing)

/-- Bytes that the command p of a ring writes to its destination. A device access that is unpopulated or closed is noted; a host write
that ends in an error writes nothing and is logged (R293). -/
def cmdWrite (s : State) (ring : Ring) (p : Pkt) (host : Bool) (a : Nat) (bs : List Byte) : State :=
  let s1 := cpCharge s p.ctx host a bs.length true
  if host then
    (if ringFails ring then s1.event 0x3202 14 7 (if ringNo ring < 64 then some (ringNo ring) else none) [] else s1.anyWrite true a bs)
  else (noteAccess s1 0 a bs.length).anyWrite false a bs

end Sys2Proof.Machine
end

