-- ==== Sys2Proof/Machine/Pages.lean ====
section
/-! DEFINITION. The page engine (11, R279-R284, R289): tables, entries, records and free lists in device memory, copies
of pages, and the guard of declared inputs (R234). -/

namespace Sys2Proof.Machine

/-! ## Declared inputs (R234) -/

/-- Staged images loaded on some tile. -/
def loadedImages (s : State) : List Image :=
  s.images.filter (fun i => i.tiles.any (fun n =>
    let t := s.ltile n
    t.sect.configured && t.sect.ctx.toNat == i.ctx && t.sect.handle.toNat == i.handle))

/-- Device range of a declared input. -/
def IoDecl.devRange (d : IoDecl) : Nat × Nat :=
  match d.tile with
  | some n => (tileMapBase + n * 2 ^ 24 + d.base, d.len)
  | none => (d.base, d.len)

/-- A device range meets a declared input of a loaded section. -/
def inputHit (s : State) (a n : Nat) : Bool :=
  (loadedImages s).any (fun i => i.inputs.any (fun d => overlap d.devRange (a, n)))

/-- A write of which something was discarded in a declared input (R234), by a hub agent or the like: source kind and index. -/
def inputDiscard (s : State) (src : Nat × Nat) : State := (s.bumpLdr 7 1).event 0x3181 src.1 src.2 none []

/-- The source of events of the page engine. -/
def engineSrc : Nat × Nat := (14, 2)

/-! ## Ranges of device memory, in pieces of one unit -/

/-- A range split at 4 KiB boundaries: (address, length). -/
def blocks (a n : Nat) : List (Nat × Nat) :=
  if n = 0 then []
  else (List.range ((a + n - 1) / 4096 - a / 4096 + 1)).map (fun i =>
    let lo := max a ((a / 4096 + i) * 4096)
    (lo, min (a + n) ((a / 4096 + i) * 4096 + 4096) - lo))

/-- Zeros written over places: marks go where a granule is covered whole. -/
def Memory.clear (m : Memory) (lo n : Nat) : Memory :=
  { cells := adelRange m.cells lo n
    poison := m.poison.filter (fun g => !(lo ≤ g * 64 && g * 64 + 64 ≤ lo + n)) }

/-- Zeros written to a device range by the page engine, but for what lies in a declared input. -/
def State.devZero (s : State) (a n : Nat) : State :=
  (blocks a n).foldl (fun x e =>
    if inputHit x e.1 e.2 then
      inputDiscard ((pieces e.1 e.2).foldl (fun y g =>
        match inputHit x g.1 g.2, y.place g.1 with
        | false, some p => { y with mem := y.mem.clear p g.2 }
        | _, _ => y) x) engineSrc
    else
      match x.place e.1 with
      | some p => { x with mem := x.mem.clear p e.2 }
      | none => x) s

/-- A write of the page engine to a table of its own: none lands in a declared input (R234). -/
def engineWrite (s : State) (a : Nat) (bs : List Byte) : State :=
  if inputHit s a bs.length then inputDiscard s engineSrc else s.devWrite a bs (fun _ => false)

/-! ## Tables (Tables 11.6, 11.7) -/

def PageTable.entries (t : PageTable) : Nat := leAt t.desc 8 4
def PageTable.sumLen (t : PageTable) : Nat := leAt t.desc 12 1
def PageTable.promote (t : PageTable) : Nat := leAt t.desc 13 1
def PageTable.init (t : PageTable) : Bool := bitOf (leAt t.desc 14 1) 0
def PageTable.records (t : PageTable) : Nat := leAt t.desc 24 4
def PageTable.entryAt (t : PageTable) (e : Nat) : Nat := leAt t.desc 0 8 + 8 * e
def PageTable.recordAt (t : PageTable) (r : Nat) : Nat := leAt t.desc 16 8 + 8 * r
def PageTable.sumAt (t : PageTable) (r : Nat) : Nat := leAt t.desc 32 8 + t.sumLen * r
def PageTable.listAt (t : PageTable) (tier : Nat) : Nat := leAt t.desc (40 + 8 * tier) 8
def PageTable.listSize (t : PageTable) (tier : Nat) : Nat := 2 ^ leAt t.desc (56 + tier) 1

/-- The areas of a table: address and length. -/
def PageTable.areas (t : PageTable) : List (Nat × Nat) :=
  [(t.entryAt 0, 8 * t.entries), (t.recordAt 0, 8 * t.records), (t.sumAt 0, t.sumLen * t.records),
   (t.listAt 0, 64 + 8 * t.listSize 0), (t.listAt 1, 64 + 8 * t.listSize 1)]

/-- Every field of a table descriptor is in range and no RSV bit is set, and no two areas overlap (R279). -/
def PageTable.ok (t : PageTable) : Bool :=
  leAt t.desc 0 8 % 4096 == 0 && 1 ≤ t.entries && t.entries ≤ 4194304 && [64, 128, 192, 256].contains t.sumLen &&
  leAt t.desc 14 1 < 2 && 1 ≤ t.records && t.records ≤ 4194304 && leAt t.desc 56 1 ≤ 22 && leAt t.desc 57 1 ≤ 22 &&
  leAt t.desc 15 1 == 0 && leAt t.desc 28 4 == 0 && leAt t.desc 58 6 == 0 &&
  (pairFail t.areas overlap).isNone

def State.table? (s : State) (t : Nat) : Option PageTable := aget? s.ms.tables t

/-- Fields of an entry. -/
def peValid (e : Nat) : Bool := bitOf e 0
def peTier (e : Nat) : Nat := fld e 1 1
def peBusy (e : Nat) : Bool := bitOf e 2
def peAddr (e : Nat) : Nat := fld e 16 26 * 65536
def peShare (e : Nat) : Nat := fld e 42 22

/-- A valid entry that maps a page: its number is Address[47:16]. -/
def mkEntry (tier page share : Nat) : Nat := 1 + 2 * tier + fld page 0 26 * 2 ^ 16 + share * 2 ^ 42

def rdEntry (s : State) (t : PageTable) (e : Nat) : Nat := leNat (s.devRead (t.entryAt e) 8)
def rdRecord (s : State) (t : PageTable) (r : Nat) : Nat := leNat (s.devRead (t.recordAt r) 8)
def wrEntry (s : State) (t : PageTable) (e v : Nat) : State := engineWrite s (t.entryAt e) (leBytes 8 v)
def wrRecord (s : State) (t : PageTable) (r v : Nat) : State := engineWrite s (t.recordAt r) (leBytes 8 v)

def recRefs (v : Nat) : Nat := fld v 0 16
def recGathers (v : Nat) : Nat := fld v 16 16

/-- An entry, or its record, is read with poison: the engine treats it as invalid (R283). -/
def entryBad (s : State) (t : PageTable) (e : Nat) : Bool :=
  s.devPoison (t.entryAt e) 8 || (peValid (rdEntry s t e) && s.devPoison (t.recordAt (peShare (rdEntry s t e))) 8)

/-- The entry as the engine takes it: 0 when it is invalid. -/
def entryOf (s : State) (t : PageTable) (e : Nat) : Nat :=
  if e < t.entries && peValid (rdEntry s t e) && !entryBad s t e then rdEntry s t e else 0

/-- Event 0x3174 when one of some entries was read with poison. -/
def notePoisonEntries (s : State) (t : PageTable) (es : List Nat) : State :=
  if es.any (entryBad s t) then s.event 0x3174 14 2 (some t.ctx) [] else s

/-! ## Free lists -/

def listHead (s : State) (t : PageTable) (tier : Nat) : Nat := leNat (s.devRead (t.listAt tier) 4)
def listCount (s : State) (t : PageTable) (tier : Nat) : Nat := leNat (s.devRead (t.listAt tier + 4) 4)
def listItemAt (t : PageTable) (tier i : Nat) : Nat := t.listAt tier + 64 + 8 * (i % t.listSize tier)
def listRoom (s : State) (t : PageTable) (tier n : Nat) : Bool := listCount s t tier + n ≤ t.listSize tier

def setList (s : State) (t : PageTable) (tier head count : Nat) : State :=
  engineWrite s (t.listAt tier) (leBytes 4 (head % 2 ^ 32) ++ leBytes 4 count)

/-- An item leaves a free list: (record, page). -/
def popFree (s : State) (t : PageTable) (tier : Nat) : Option ((Nat × Nat) × State) :=
  let c := listCount s t tier
  if c == 0 then none
  else
    let h := listHead s t tier
    let x := leNat (s.devRead (listItemAt t tier h) 8)
    some ((fld x 0 22, fld x 32 32), setList s t tier ((h + 1) % t.listSize tier) (c - 1))

/-- An item joins a free list; a full list loses it (log 18). -/
def pushFree (s : State) (t : PageTable) (tier record page : Nat) : State :=
  let c := listCount s t tier
  if c ≥ t.listSize tier then s
  else
    let h := listHead s t tier
    setList (engineWrite s (listItemAt t tier (h + c)) (leBytes 8 (record + page * 2 ^ 32))) t tier h (c + 1)

/-- A read that was translated to a page has not read it yet (R284). -/
def pageInUse (s : State) (page : Nat) : Bool := s.ms.txns.any (fun x => x.op ≤ 1 && x.page == some page)

/-- A page that is free again joins its list once every read that was translated to it has completed (R284). -/
def freePage (s : State) (k : Nat) (t : PageTable) (tier record page : Nat) : State :=
  if pageInUse s page then { s with ms := { s.ms with frees := s.ms.frees ++ [⟨k, tier, record, page⟩] } }
  else pushFree s t tier record page

/-- The free pages whose reads have completed join their lists. -/
def joinFrees (s : State) : State :=
  s.ms.frees.foldl (fun x f =>
    if pageInUse x f.page then x
    else
      let y := { x with ms := { x.ms with frees := x.ms.frees.erase f } }
      match y.table? f.table with
      | some t => pushFree y t f.tier f.record f.page
      | none => y) s

def bumpPage (s : State) (k n : Nat) : State := { s with ms := { s.ms with pageStat := bump s.ms.pageStat k n } }

/-- An entry becomes invalid: its record loses a reference, and at 0 returns with the page to the list of the page's
tier (R281). -/
def unmapEntry (s : State) (k : Nat) (t : PageTable) (e : Nat) : State :=
  let v := entryOf s t e
  if !peValid v then s
  else
    let r := peShare v
    let w := rdRecord s t r
    let refs := recRefs w - 1
    let s1 := wrRecord (wrEntry s t e 0) t r (w - recRefs w + refs)
    if refs == 0 then freePage s1 k t (peTier v) r (peAddr v / 65536) else s1

/-! ## Copies (R282-R284) -/

/-- A run of n bytes cut where its source or its destination crosses a boundary of `g` bytes, and at `top` bytes: offset and bytes. -/
def cutRun (g top src dst : Nat) : Nat → Nat → Nat → List (Nat × Nat)
  | 0, _, _ => []
  | k + 1, off, n =>
    if n = 0 then []
    else
      let c := min (min n top) (min (g - (src + off) % g) (g - (dst + off) % g))
      (off, c) :: cutRun g top src dst k (off + c) (n - c)

/-- Requester position and agent of the page engine (Table 11.2). -/
def engineReq : Nat := 17 * 2 ^ 6 + 8 * 2 ^ 11

/-- A transaction that stands at its requester, at a place of the device. -/
def mkTxn (id op : Nat) (at_ : Dest) (bytes : Nat) (data : List Byte) (cls : Nat) (dst : Option Dest) (queue xfer req : Nat)
    (polder page : Option Nat) (home : Spot) : Txn :=
  { id := id, op := op, at_ := at_, bytes := bytes, data := data, bad := 0, cls := cls, status := 0, dst := dst, queue := queue,
    xfer := xfer, req := req, polder := polder, page := page, home := home, from_ := home, goal := home, sent := false, arrived := false }

def devDest (a : Nat) : Dest := ⟨0, 0, 0, a, none⟩

/-- The page engine starts to copy the page of an entry, with its summary for a copy on write, as FETCHes of class 3 (R284): the entry
is busy until the copy ends. -/
def startCopy (s : State) (k : Nat) (t : PageTable) (e : Nat) (cow : Bool) (tier page record : Nat) : State :=
  let v := entryOf s t e
  let id := s.ms.nextId
  let old := peAddr v
  let parts := (List.range 16).map (fun i => (old + 4096 * i, page * 65536 + 4096 * i, 4096)) ++
    (if cow then (cutRun 4096 4096 (t.sumAt (peShare v)) (t.sumAt record) t.sumLen 0 t.sumLen).map (fun c =>
      (t.sumAt (peShare v) + c.1, t.sumAt record + c.1, c.2)) else [])
  let txns := parts.zipIdx.map (fun (x : (Nat × Nat × Nat) × Nat) =>
    mkTxn (id + 1 + x.2) 1 (devDest x.1.1) x.1.2.2 [] 3 (some (devDest x.1.2.1)) copyQueue id engineReq (s.polderOfCtx t.ctx)
      (some (old / 65536)) .hub)
  let s1 := wrEntry s t e (putBit v 2 true)
  { s1 with ms := { s1.ms with
      nextId := id + 1 + txns.length
      txns := s1.ms.txns ++ txns
      copies := s1.ms.copies ++ [⟨id, k, e, v, cow, tier, page, record, txns.length⟩] } }

/-- A copy has ended: the entry names the new page, and the old one leaves it (R282, R283). -/
def endCopy (s0 : State) (c : PageCopy) : State :=
  let s := { s0 with ms := { s0.ms with copies := s0.ms.copies.filter (fun x => x.id != c.id) } }
  match s.table? c.table with
  | none => s
  | some t =>
    let old := peAddr c.was / 65536
    if c.cow then
      let s1 := wrRecord (wrEntry s t c.entry (mkEntry c.tier c.page c.record)) t c.record 1
      let w := rdRecord s1 t (peShare c.was)
      let s2 := wrRecord s1 t (peShare c.was) (w - 1)
      bumpPage (if recRefs w == 1 then freePage s2 c.table t (peTier c.was) (peShare c.was) old else s2) 1 1
    else
      bumpPage (freePage (wrEntry s t c.entry (mkEntry c.tier c.page (peShare c.was))) c.table t (peTier c.was) c.record old) 2 1

/-- An entry starts to move to the other tier (R282). None when the target list is empty. -/
def migrateEntry (s : State) (k : Nat) (t : PageTable) (e : Nat) : Option State :=
  let tier := 1 - peTier (entryOf s t e)
  (popFree s t tier).map (fun x => startCopy x.2 k t e false tier x.1.2 x.1.1)

/-! ## Commands -/

/-- A table's engine is at work on a command or a copy (R284, log 41). -/
def tableBusy (s : State) (k : Nat) : Bool := s.ms.jobs.any (fun j => j.cmd.aux == [k]) || s.ms.copies.any (fun c => c.table == k)

/-- A command of a table whose engine is at work waits for its turn (R284). -/
def queueJob (s : State) (r : Nat) (p : Pkt) (k : Nat) : State :=
  let s1 := accept s r p [k]
  { s1 with ms := { s1.ms with jobs := s1.ms.jobs ++ [⟨r, p.cmd [k], p.par, false, [], 0, 0⟩] } }

/-- A command of a table whose checks are done: at once, or when its turn comes. -/
def inTurn (s : State) (r : Nat) (p : Pkt) (k : Nat) (body : State → State) : State :=
  if tableBusy s k then queueJob s r p k else body s

/-- The entries e0 to e0 + n - 1 exist. -/
def entriesIn (t : PageTable) (e0 n : Nat) : Bool := e0 + n ≤ t.entries
def entryRange (e0 n : Nat) : List Nat := (List.range n).map (e0 + ·)

/-- The frame of a command on the table in bytes 10-11: it exists and belongs to the context. -/
def withTable (s : State) (r : Nat) (p : Pkt) (body : Nat → PageTable → State) : State :=
  match s.table? (p.b 10 2) with
  | some t => if t.ctx == p.ctx then body (p.b 10 2) t else refuse s r p stBadParam
  | none => refuse s r p stBadParam

/-- PAGE_MAP form 0 (R279). -/
def execPageMapDefineTable (ring : Ring) (s : State) : Host.Outcome State Fault Refusal :=
  .next (done s (ringCmd s ring 0x58 (some 0) (fun s r p =>
    checked s r p [(8, 1, 0), (10, 2, 0), (12, 1, 1), (16, 64, 0)] (
      let t : PageTable := ⟨p.ctx, padTo 64 (p.par.drop 8)⟩
      let k := p.b 10 2
      if !s.ctxLive p.ctx || k ≥ 256 || !t.ok then refuse s r p stBadParam
      else if (s.table? k).isSome then refuse s r p stBusy
      else if !t.areas.all (fun a => match s.polderOfCtx p.ctx with | some q => s.polderHolds q a.1 a.2 | none => false) then
        refuse s r p stDenied
      else
        let s1 := { s with ms := { s.ms with tables := aput s.ms.tables k t } }
        let s2 := if t.init then
            setList (setList ((s1.devZero (t.entryAt 0) (8 * t.entries)).devZero (t.recordAt 0) (8 * t.records)) t 0 0 0) t 1 0 0
          else s1
        refuse s2 r p stOk))))

/-- PAGE_MAP form 1 (R281): the entries are mapped. -/
def pageMap (s : State) (r : Nat) (p : Pkt) (t : PageTable) : State :=
  let tier := p.b 12 1
  let n := p.b 20 4
  let es := entryRange (p.b 16 4) n
  if es.any (fun e => peValid (entryOf s t e)) then refuse (notePoisonEntries s t es) r p stBadParam
  else if listCount s t tier < n then refuse (notePoisonEntries s t es) r p stNoResource
  else
    refuse (es.foldl (fun x e => match popFree x t tier with
      | some ((rec', page), y) => wrRecord (wrEntry y t e (mkEntry tier page rec')) t rec' 1
      | none => x) (notePoisonEntries s t es)) r p stOk

/-- The array of a donation: device address, bytes and items. -/
def Pkt.array (p : Pkt) : Nat × Nat := (p.b 16 8, 8 * p.b 24 4)
def donated (s : State) (p : Pkt) : List Nat := (List.range (p.b 24 4)).map (fun i => leNat (s.devRead (p.b 16 8 + 8 * i) 8))

/-- PAGE_MAP form 2 (R281): the items join the list. A page outside the polder's shares is DENIED, also one that lies in no memory;
one of the other tier, or an item with a reserved bit or a record that the table does not have, is BAD_PARAM (log 42). -/
def pageDonate (s : State) (r : Nat) (p : Pkt) (t : PageTable) : State :=
  let tier := p.b 12 1
  let items := donated s p
  if !items.all (fun x => match s.polderOfCtx t.ctx with
      | some q => s.polderHolds q (fld x 32 32 * 65536) 65536 | none => false) then refuse s r p stDenied
  else if items.any (fun x => fld x 22 10 != 0 || fld x 0 22 ≥ t.records ||
      (segOf (fld x 32 32 * 65536)).any (fun k => k.1 != tier)) then refuse s r p stBadParam
  else if !listRoom s t tier (p.b 24 4) then refuse s r p stNoResource
  else refuse (items.foldl (fun x i => pushFree x t tier (fld i 0 22) (fld i 32 32)) s) r p stOk

/-- PAGE_UNMAP form 0 (R281): every valid entry that it names becomes invalid. -/
def pageUnmap (s : State) (r : Nat) (p : Pkt) (k : Nat) (t : PageTable) : State :=
  let es := entryRange (p.b 16 4) (p.b 20 4)
  refuse (es.foldl (fun x e => unmapEntry x k t e) (notePoisonEntries s t es)) r p stOk

/-- PAGE_UNMAP form 1 (R281): the table is removed; its memory stays. -/
def pageDrop (s : State) (r : Nat) (p : Pkt) (k : Nat) (t : PageTable) : State :=
  let es := List.range t.entries
  let s1 := notePoisonEntries s t es
  if es.any (fun e => peValid (entryOf s t e)) then refuse s1 r p stBusy
  else refuse { s1 with ms := { s1.ms with tables := adel s1.ms.tables k } } r p stOk

/-- PAGE_UNMAP form 2 (Table 12.8): busy is cleared, then every valid entry is unmapped as by form 0. -/
def pageInit (s : State) (r : Nat) (p : Pkt) (k : Nat) (t : PageTable) : State :=
  pageUnmap ((entryRange (p.b 16 4) (p.b 20 4)).foldl (fun x e =>
    let v := rdEntry x t e
    if peBusy v then wrEntry x t e (putBit v 2 false) else x) s) r p k t

/-- PAGE_SHARE (R281): the entries are copied, and each record gains its references. -/
def pageShare (s : State) (r : Nat) (p : Pkt) (t : PageTable) : State :=
  let src := entryRange (p.b 16 4) (p.b 24 4)
  let dst := entryRange (p.b 20 4) (p.b 24 4)
  let s1 := notePoisonEntries s t (src ++ dst)
  let vs := src.map (entryOf s t)
  if vs.any (fun v => !peValid v) || dst.any (fun e => peValid (entryOf s t e)) then refuse s1 r p stBadParam
  else if vs.any (fun v => recRefs (rdRecord s t (peShare v)) + (vs.filter (fun w => peShare w == peShare v)).length > 65535) then
    refuse s1 r p stNoResource
  else
    refuse ((vs.zip dst).foldl (fun x e =>
      wrRecord (wrEntry x t e.2 e.1) t (peShare e.1) (rdRecord x t (peShare e.1) + 1)) s1) r p stOk

/-- What a PAGE_MIGRATE does up to the next copy it starts (R282): the state, the entries moved and skipped, and, when a copy has
started, the entries behind it. `empty`: the target list has run empty. -/
def migrateScan (k : Nat) (t : PageTable) (tier : Nat) : List Nat → State → Nat → Nat → Bool → State × Nat × Nat × Option (List Nat)
  | [], s, moved, skipped, _ => (s, moved, skipped, none)
  | e :: rest, s, moved, skipped, empty =>
    let v := entryOf s t e
    if !peValid v || peTier v == tier then migrateScan k t tier rest s moved skipped empty
    else if recRefs (rdRecord s t (peShare v)) > 1 || empty then migrateScan k t tier rest s moved (skipped + 1) empty
    else
      match migrateEntry s k t e with
      | some y => (y, moved + 1, skipped, some rest)
      | none => migrateScan k t tier rest s moved (skipped + 1) true

/-- PAGE_MIGRATE (R282): it replies at once when nothing is to be moved; else when its last copy has ended. -/
def pageMigrate (s : State) (r : Nat) (p : Pkt) (k : Nat) (t : PageTable) : State :=
  let es := entryRange (p.b 16 4) (p.b 20 4)
  let x := migrateScan k t (p.b 12 1) es (notePoisonEntries s t es) 0 0 false
  match x.2.2.2 with
  | none => answer x.1 r p stOk x.2.1 x.2.2.1 0
  | some rest =>
    let s1 := accept x.1 r p [k]
    { s1 with ms := { s1.ms with jobs := ⟨r, p.cmd [k], p.par, true, rest, x.2.1, x.2.2.1⟩ :: s1.ms.jobs } }

/-- The packet of a command whose turn has come. -/
def PageJob.pkt (j : PageJob) : Pkt :=
  { op := j.cmd.opcode, irq := j.cmd.irq, fence := false, ctx := j.cmd.ctx, seq := j.cmd.seqNo, plen := j.par.length, par := j.par
    poison := false, bad := false, outside := false }

/-- A command of a table by its opcode and form. -/
def pageRun (s : State) (r : Nat) (p : Pkt) (k : Nat) (t : PageTable) : State :=
  match p.op, p.b 8 1 with
  | 0x58, 1 => pageMap s r p t
  | 0x58, _ => pageDonate s r p t
  | 0x59, 0 => pageUnmap s r p k t
  | 0x59, 1 => pageDrop s r p k t
  | 0x59, _ => pageInit s r p k t
  | 0x5A, _ => pageShare s r p t
  | _, _ => pageMigrate s r p k t

/-- The commands of a table that wait for its engine take their turns in the order they came (R284). -/
def runJobs (k : Nat) : Nat → State → State
  | 0, s => s
  | n + 1, s =>
    if s.ms.copies.any (fun c => c.table == k) then s
    else
      match s.ms.jobs.find? (fun j => j.cmd.aux == [k]) with
      | none => s
      | some j =>
        let s1 := { s with ms := { s.ms with jobs := s.ms.jobs.erase j } }
        let un (x : State) : State := x.modRing j.ring (fun g => { g with accepted := g.accepted.erase j.cmd })
        match s1.table? k with
        | none => runJobs k n (refuse (un s1) j.ring j.pkt stBadParam)
        | some t =>
          if j.started then
            let x := migrateScan k t (j.pkt.b 12 1) j.rest s1 j.moved j.skipped false
            match x.2.2.2 with
            | none => runJobs k n (answer (un x.1) j.ring j.pkt stOk x.2.1 x.2.2.1 0)
            | some rest => { x.1 with ms := { x.1.ms with jobs := { j with rest := rest, moved := x.2.1, skipped := x.2.2.1 } :: x.1.ms.jobs } }
          else runJobs k n (pageRun (un s1) j.ring j.pkt k t)

/-- The ACK of a write of a copy: after the last, the copy ends, and the table's next command takes its turn. -/
def ackCopy (s : State) (id : Nat) : State :=
  match s.ms.copies.find? (fun c => c.id == id) with
  | none => s
  | some c =>
    if c.left > 1 then
      { s with ms := { s.ms with copies := s.ms.copies.map (fun x => if x.id == id then { x with left := x.left - 1 } else x) } }
    else runJobs c.table (s.ms.jobs.length + 1) (endCopy s c)

/-! ### The rows of the table -/

/-- Bytes of a table that the engine reads for entries e0 on: the entries, the two list headers, and the records of the entries. -/
def tableReads (s : State) (t : PageTable) (e0 n : Nat) : List (Nat × Nat) :=
  [(t.entryAt e0, 8 * n), (t.listAt 0, 8), (t.listAt 1, 8)] ++
  ((entryRange e0 n).filter (fun e => peValid (entryOf s t e))).map (fun e => (t.recordAt (peShare (entryOf s t e)), 8))

/-- What a command of a table reads of device memory. -/
def pageReads (s : State) (p : Pkt) : List (Nat × Nat) :=
  match s.table? (p.b 10 2) with
  | none => []
  | some t =>
    if p.op == 0x58 && p.b 8 1 == 2 then [p.array, (t.listAt (p.b 12 1), 8)]
    else if p.op == 0x5A then tableReads s t (p.b 16 4) (p.b 24 4) ++ tableReads s t (p.b 20 4) (p.b 24 4)
    else if p.op == 0x59 && p.b 8 1 == 1 then [(t.entryAt 0, 8 * t.entries)]
    else tableReads s t (p.b 16 4) (p.b 20 4)

/-- The frame of a command on the entries of a table, in its turn. -/
def onEntries (s : State) (ring : Ring) (op : Nat) (form : Option Nat) (fs : Fields) (body : State → Nat → Pkt → Nat → PageTable → State) :
    State :=
  ringCmdOf s ring op form pageReads (fun s r p =>
    checked s r p fs (withTable s r p (fun k t =>
      if entriesIn t (p.b 16 4) (p.b 20 4) then inTurn s r p k (fun x => body x r p k t) else refuse s r p stBadParam)))

/-- PAGE_MAP form 1. -/
def execPageMapMap (ring : Ring) (s : State) : Host.Outcome State Fault Refusal :=
  .next (done s (onEntries s ring 0x58 (some 1) [(8, 1, 0), (10, 2, 0), (12, 1, 1), (16, 4, 0), (20, 4, 0)]
    (fun x r p _ t => pageMap x r p t)))

/-- PAGE_MAP form 2: the array at bytes 16-23 is read when the command is checked. -/
def execPageMapDonate (ring : Ring) (s : State) : Host.Outcome State Fault Refusal :=
  .next (done s (ringCmdOf s ring 0x58 (some 2) pageReads (fun s r p =>
    checked s r p [(8, 1, 0), (10, 2, 0), (12, 1, 1), (16, 8, 0), (24, 4, 0)] (withTable s r p (fun k t =>
      if !s.populated p.array.1 p.array.2 then refuse s r p stBadParam
      else if !mayReach s r false p.array.1 p.array.2 then refuse s r p stDenied
      else if s.devPoison p.array.1 p.array.2 then refuse s r p stPoisoned
      else inTurn s r p k (fun x => pageDonate (touchDev x p.array.1 p.array.2) r p t))))))

/-- PAGE_UNMAP form 0. -/
def execPageUnmapEntries (ring : Ring) (s : State) : Host.Outcome State Fault Refusal :=
  .next (done s (onEntries s ring 0x59 (some 0) [(8, 1, 0), (10, 2, 0), (16, 4, 0), (20, 4, 0)] pageUnmap))

/-- PAGE_UNMAP form 1. -/
def execPageUnmapTable (ring : Ring) (s : State) : Host.Outcome State Fault Refusal :=
  .next (done s (ringCmdOf s ring 0x59 (some 1) pageReads (fun s r p =>
    checked s r p [(8, 1, 0), (10, 2, 0), (16, 4, 0), (20, 4, 0)] (withTable s r p (fun k t =>
      inTurn s r p k (fun x => pageDrop x r p k t))))))

/-- PAGE_UNMAP form 2. -/
def execPageUnmapInit (ring : Ring) (s : State) : Host.Outcome State Fault Refusal :=
  .next (done s (onEntries s ring 0x59 (some 2) [(8, 1, 0), (10, 2, 0), (16, 4, 0), (20, 4, 0)] pageInit))

/-- PAGE_SHARE. -/
def execPageShare (ring : Ring) (s : State) : Host.Outcome State Fault Refusal :=
  .next (done s (ringCmdOf s ring 0x5A none pageReads (fun s r p =>
    checked s r p [(10, 2, 0), (16, 4, 0), (20, 4, 0), (24, 4, 0)] (withTable s r p (fun k t =>
      if entriesIn t (p.b 16 4) (p.b 24 4) && entriesIn t (p.b 20 4) (p.b 24 4) then inTurn s r p k (fun x => pageShare x r p t)
      else refuse s r p stBadParam)))))

/-- PAGE_MIGRATE. -/
def execPageMigrate (ring : Ring) (s : State) : Host.Outcome State Fault Refusal :=
  .next (done s (onEntries s ring 0x5B none [(10, 2, 0), (12, 1, 1), (16, 4, 0), (20, 4, 0)] pageMigrate))

end Sys2Proof.Machine
end

