-- ==== Sys2Proof/Machine/Pumps.lean ====
section
/-! DEFINITION. The pumps (11, R270-R277): queues and the forms of MOVE, the descriptor and its checks, merging, the start
and the end of a transfer. What its transactions do is in MemTxn.lean. -/

namespace Sys2Proof.Machine

def State.queue? (s : State) (k : Nat) : Option PumpQueue := aget? s.ms.queues k
def State.setQueue (s : State) (k : Nat) (q : PumpQueue) : State := { s with ms := { s.ms with queues := aput s.ms.queues k q } }
def State.modQueue (s : State) (k : Nat) (f : PumpQueue → PumpQueue) : State :=
  match s.queue? k with | some q => s.setQueue k (f q) | none => s
def bumpPump (s : State) (k n : Nat) : State := { s with ms := { s.ms with pumpStat := bump s.ms.pumpStat k n } }

/-- Pumps in service (R270, R312): 0-31 on the field dies, 32-39 on the hub. -/
def State.pumpPresent (s : State) (p : Nat) : Bool :=
  p < 40 && s.unitOn 4 p && (32 ≤ p || (p < 8 * s.dies && s.unitOn 0 (p / 8)))

/-! ## Queues -/

def qrTile (w : List Byte) : Nat := leAt w 12 2

/-- RSV bits and ranges of a queue record (Table 11.3). -/
def queueRecordOk (w : List Byte) : Bool :=
  leAt w 0 8 % 128 == 0 && leAt w 8 1 ≤ 12 && leAt w 9 1 < 40 && leAt w 10 2 < 2048 && fld (qrTile w) 10 5 == 0 &&
  allZero (w.drop 14)

/-- The tile a queue is bound to: its own when the ring lies in tile store (R271). -/
def queueTile (w : List Byte) : Option Nat :=
  match tileAt (leAt w 0 8) with
  | some (n, _) => some n
  | none => if bitOf (qrTile w) 15 then some (fld (qrTile w) 0 10) else none

/-- Blocks of 4 KiB of a range, each placed; and none in a closed area of a tile. -/
def rangePopulated (s : State) (a n : Nat) : Bool := (blocks a n).all (fun x => (s.place x.1).isSome)
def rangeOpen (s : State) (a n : Nat) : Bool := (blocks a n).all (fun x => s.tileOpen x.1 x.2)
def Polder.covers (p : Polder) (a n : Nat) : Bool := (blocks a n).all (fun x => p.reaches x.1 1)
def polderCovers (s : State) (c a n : Nat) : Bool :=
  match (s.polderOfCtx c).bind s.polder? with | some p => p.covers a n | none => false

/-- A queue that its pump serves sends the WAIT for its next entry (R271). -/
def armQueue (s : State) (k : Nat) : State :=
  match s.queue? k with
  | none => s
  | some q =>
    if q.halted || q.postWait != .none then s
    else
      hubWait (s.setQueue k { q with postWait := .waiting }) 1 1 k q.ctx q.post (q.consumed + 1) 0

/-- MOVE form 0 (R271). -/
def execMoveDefineQueue (ring : Ring) (s : State) : Host.Outcome State Fault Refusal :=
  .next (done s (ringCmd s ring 0x50 (some 0) (fun s r p =>
    checked s r p [(8, 1, 0), (9, 1, 0), (16, 32, 0)] (
      let k := p.b 9 1
      let w := padTo 32 (p.par.drop 8)
      let base := leAt w 0 8
      let size := leAt w 8 1
      let pump := leAt w 9 1
      let post := leAt w 10 2
      let tile := queueTile w
      let bytes := 128 * 2 ^ size
      if !s.ctxLive p.ctx || !queueRecordOk w then refuse s r p stBadParam
      else match s.gaugeOf p.ctx post with
      | none => refuse s r p stBadParam
      | some g =>
        if !s.pumpPresent pump || (match tile with | some n => s.ntiles ≤ n && n < 1024 | none => false) then refuse s r p stUnitAbsent
        else if !rangePopulated s base bytes || !polderCovers s p.ctx base bytes || !rangeOpen s base bytes then refuse s r p stBadParam
        else if (match tile with
            | some n => match (s.polderOfCtx p.ctx).bind s.polder? with | some x => !x.tiles.contains n | none => true
            | none => false) then refuse s r p stBadParam
        else if (s.queue? k).isSome then refuse s r p stBusy
        else if (s.ms.queues.filter (fun e => e.2.pump == pump)).length ≥ 16 then refuse s r p stNoResource
        else
          let q : PumpQueue :=
            { ctx := p.ctx, base := base, size := size, pump := pump, post := post, tile := tile, consumed := (s.gauge g).value, posts := 0,
              postWait := .none, head := none, headWait := .none, transfers := [], halted := false, code := 0, entry := 0,
              poisonSeen := false, retired := 0, discarded := 0 }
          refuse (armQueue (s.setQueue k q) k) r p stOk))))

/-- The frame of a MOVE on a defined queue of the context; another context's is out of a user ring's reach (R308). -/
def withQueue (s : State) (r : Nat) (p : Pkt) (body : Nat → PumpQueue → State) : State :=
  match s.queue? (p.b 9 1) with
  | some q => if q.ctx == p.ctx then body (p.b 9 1) q else refuse s r p (if r < 64 then stDenied else stBadParam)
  | none => refuse s r p stBadParam

/-- Ring index of the next entry that the command processor writes (R271): behind those whose signals its post gauge has not seen yet
(log 40). -/
def nextIndex (s : State) (q : PumpQueue) : Nat := (((postValue s q).getD q.consumed).toNat + q.posts) % 2 ^ q.size

/-- MOVE form 1: the descriptor is written at the next entry, and the post gauge is signalled. -/
def execMovePost (ring : Ring) (s : State) : Host.Outcome State Fault Refusal :=
  .next (done s (ringCmd s ring 0x50 (some 1) (fun s r p =>
    checked s r p [(8, 1, 0), (9, 1, 0), (16, 128, 0)] (withQueue s r p (fun k q =>
      let i := nextIndex s q
      let s1 := cmdWrite s ring p false (q.base + 128 * i) (padTo 128 (p.par.drop 8))
      let s2 := s1.modQueue k (fun x => { x with posts := x.posts + 1 })
      answer (hubSignal s2 0 k q.ctx q.post 1) r p stOk i 0 0)))))

/-- MOVE form 2 (R273): a halted queue goes on at its next entry. -/
def execMoveResume (ring : Ring) (s : State) : Host.Outcome State Fault Refusal :=
  .next (done s (ringCmd s ring 0x50 (some 2) (fun s r p =>
    checked s r p [(8, 1, 0), (9, 1, 0)] (withQueue s r p (fun k q =>
      refuse (armQueue (s.setQueue k { q with halted := false }) k) r p stOk)))))

/-- MOVE form 3: the queue is removed once none of its transfers is in progress. -/
def execMoveRemove (ring : Ring) (s : State) : Host.Outcome State Fault Refusal :=
  .next (done s (ringCmd s ring 0x50 (some 3) (fun s r p =>
    checked s r p [(8, 1, 0), (9, 1, 0)] (withQueue s r p (fun k q =>
      if !q.transfers.isEmpty then refuse s r p stBusy
      else
        let s1 := dropHubWaits s (fun h => h.unit == 1 && h.q == k)
        refuse { s1 with ms := { s1.ms with queues := adel s1.ms.queues k } } r p stOk)))))

/-- PUMP_CTL_WRITE (R277): ignored with err set unless the shares of a round sum to 16; err is W1C. -/
def execPumpCtlWrite (pump : BitVec 6) (v : W32) (s : State) : Host.Outcome State Fault Refusal :=
  let off := 0x205000 + 4 * pump.toNat
  let old := (s.reg off).toNat
  let w := v.toNat
  let err := bitOf old 13 && !bitOf w 13
  .next (done s (
    if !s.pumpPresent pump.toNat then s
    else if fld w 1 4 + fld w 5 4 + fld w 9 4 == 16 then s.setReg off (BitVec.ofNat 64 (fld w 0 13 + b2n err * 2 ^ 13))
    else s.setReg off (BitVec.ofNat 64 (fld old 0 13 + 2 ^ 13))))

/-! ## Descriptors (Table 11.4) -/

def pdOp (d : List Byte) : Nat := leAt d 0 1
def pdClass (d : List Byte) : Nat := fld (leAt d 1 1) 0 2
def pdNomerge (d : List Byte) : Bool := bitOf (leAt d 1 1) 2
def pdSrcSpace (d : List Byte) : Nat := fld (leAt d 2 1) 0 4
def pdDstSpace (d : List Byte) : Nat := fld (leAt d 2 1) 4 4
def pdSrcId (d : List Byte) : Nat := leAt d 4 2
def pdDstId (d : List Byte) : Nat := leAt d 6 2
def pdSrc (d : List Byte) : Nat := leAt d 8 8
def pdDst (d : List Byte) : Nat := leAt d 16 8
def pdLen (d : List Byte) : Nat := leAt d 24 4
def pdCount (d : List Byte) (i : Nat) : Nat := leAt d (28 + 2 * i) 2
def pdSrcStride (d : List Byte) (i : Nat) : Int := sext (leAt d (40 + 8 * i) 8) 64
def pdDstStride (d : List Byte) (i : Nat) : Int := sext (leAt d (64 + 8 * i) 8) 64
def pdFill (d : List Byte) : List Byte := (d.drop 88).take 4
def pdWaits (d : List Byte) : Bool := bitOf (leAt d 92 2) 15
def pdWaitVid (d : List Byte) : Nat := fld (leAt d 92 2) 0 11
def pdTarget (d : List Byte) : W32 := BitVec.ofNat 32 (leAt d 96 4)
/-- The signal of a descriptor: gauge and amount. -/
def pdSig (d : List Byte) : Option (Nat × Nat) :=
  if bitOf (leAt d 94 2) 15 then some (fld (leAt d 94 2) 0 11, leAt d 100 4) else none
def pdMc (d : List Byte) : Option (Nat × Nat) :=
  let w := leAt d 104 2
  if bitOf w 15 then some (fld w 0 4, fld w 4 5) else none

/-- Lowest and highest byte of a footprint (R57, R273). -/
def footLoHi (base : Nat) (stride : Nat → Int) (d : List Byte) (len : Nat) : Int × Int :=
  (List.range 3).foldl (fun (x : Int × Int) i =>
    let span := (Int.ofNat (pdCount d i) - 1) * stride i
    if span < 0 then (x.1 + span, x.2) else (x.1, x.2 + span)) (Int.ofNat base, Int.ofNat base + Int.ofNat len - 1)

def srcFoot (d : List Byte) : Int × Int := footLoHi (pdSrc d) (pdSrcStride d) d (pdLen d)
def dstFoot (d : List Byte) : Int × Int := footLoHi (pdDst d) (pdDstStride d) d (pdLen d)

/-- Tiles of the rectangle of a multicast from a target tile (R172). -/
def mcTiles (n x1 y1 : Nat) : List Nat :=
  (List.range 16).flatMap (fun y => ((List.range 16).filter (fun x =>
    lX n ≤ x && x ≤ x1 && lY n ≤ y && y ≤ y1)).map (fun x => lOf (lDie n) x y))

/-- A device footprint: (address, bytes); several for a multicast. -/
abbrev Feet := List (Nat × Nat)

/-- A footprint as a range; none when it starts below address 0. -/
def footRange (f : Int × Int) : Option (Nat × Nat) := if f.1 < 0 then none else some (f.1.toNat, (f.2 - f.1 + 1).toNat)

/-- Copies of a tile range in every tile of a rectangle. -/
def mcRanges (a n x1 y1 : Nat) : Feet :=
  match tileAt a with
  | some (t, o) => (mcTiles t x1 y1).map (fun m => (tileMapBase + m * 2 ^ 24 + o, n))
  | none => [(a, n)]

def dstMulti (d : List Byte) (r : Nat × Nat) : Feet :=
  match pdMc d with | some (x1, y1) => mcRanges r.1 r.2 x1 y1 | none => [r]

/-- Code 1 of Table 11.5 for COPY, FILL and SIGNAL. -/
def copyFieldBad (d : List Byte) : Bool :=
  let copy := pdOp d == 1
  let moves := copy || pdOp d == 2
  fld (leAt d 1 1) 3 5 != 0 || leAt d 3 1 != 0 || leAt d 34 6 != 0 || !allZero ((d.drop 106).take 22) ||
  fld (leAt d 104 2) 9 6 != 0 || fld (leAt d 92 2) 11 4 != 0 || fld (leAt d 94 2) 11 4 != 0 ||
  pdSrcSpace d > 3 || pdDstSpace d > 3 || (pdSrcSpace d != 3 && pdSrcId d != 0) || (pdDstSpace d < 2 && pdDstId d != 0) ||
  (moves && (pdLen d < 64 || pdLen d > 16777216 || pdLen d % 64 != 0 || (List.range 3).any (fun i => pdCount d i == 0) ||
    pdDst d % 64 != 0 || (List.range 3).any (fun i => pdDstStride d i % 64 != 0))) ||
  (copy && (pdSrc d % 64 != 0 || (List.range 3).any (fun i => pdSrcStride d i % 64 != 0))) ||
  (copy && pdSrcSpace d == pdDstSpace d && pdSrcId d == pdDstId d &&
    (match footRange (srcFoot d), footRange (dstFoot d) with
     | some a, some b => (dstMulti d b).any (overlap a)
     | _, _ => false)) ||
  (moves && (match pdMc d with
    | some (x1, y1) => pdDstSpace d != 0 || (match tileAt (pdDst d) with
        | some (t, _) => x1 < lX t || y1 < lY t || y1 > 15
        | none => true)
    | none => false))

/-- Gather fields (Table 11.8). -/
def sgE0 (d : List Byte) : Nat := leAt d 8 4
def sgN (d : List Byte) : Nat := leAt d 12 4
def sgDst (d : List Byte) : Nat := leAt d 16 8
def sgOff (d : List Byte) : Nat := leAt d 24 2
def sgBytes (d : List Byte) : Nat := leAt d 26 2
def pgRec (d : List Byte) : Nat := leAt d 16 8
def pgK (d : List Byte) : Nat := leAt d 24 2
def pgHead (d : List Byte) : Nat := leAt d 26 1
def pgTail (d : List Byte) : Nat := leAt d 27 1
def pgP (d : List Byte) : Nat := leAt d 28 2
def pgSkip (d : List Byte) : Nat := leAt d 30 2
def pgDst (d : List Byte) : Nat := leAt d 32 8
def pgList (d : List Byte) : Nat := leAt d 40 8
def pgPos (d : List Byte) : Nat := leAt d 48 4
def pgLimit (d : List Byte) : Nat := leAt d 52 2

/-- Code 1 for the gathers; the table's summary length bounds what a summary gather copies. -/
def gatherFieldBad (d : List Byte) (t : Option PageTable) : Bool :=
  fld (leAt d 1 1) 3 5 != 0 || leAt d 2 2 != 0 || leAt d 6 2 != 0 || fld (leAt d 92 2) 11 4 != 0 || fld (leAt d 94 2) 11 4 != 0 ||
  !allZero (d.drop 104) ||
  (if pdOp d == 0x10 then
    !allZero ((d.drop 28).take 64) || sgN d == 0 || sgDst d % 8 != 0 || sgOff d % 8 != 0 || sgBytes d % 8 != 0 || sgBytes d == 0 ||
    (match t with | some x => sgOff d + sgBytes d > x.sumLen | none => false)
  else
    !allZero ((d.drop 54).take 38) || sgN d == 0 || sgN d > 2097152 || pgRec d % 8 != 0 || pgK d > 1024 || pgP d == 0 || pgP d > 256 ||
    pgDst d % 65536 != 0 || (tileAt (pgDst d)).isNone || pgList d % 8 != 0 || (tileAt (pgList d)).isNone ||
    pgLimit d == 0 || pgLimit d > 4096)

def pdGather (d : List Byte) : Bool := pdOp d == 0x10 || pdOp d == 0x11

/-- Device ranges that a descriptor reads or writes; none when one starts below address 0. -/
def deviceFeet (d : List Byte) : Option Feet :=
  if pdOp d == 0x10 then some [(sgDst d, sgBytes d * sgN d)]
  else if pdOp d == 0x11 then some [(pgRec d, 8 * pgK d), (pgDst d, 65536 * pgP d), (pgList d, 8 * pgP d)]
  else
    let src : Option Feet := if pdOp d == 1 && pdSrcSpace d == 0 then (footRange (srcFoot d)).map (fun x => [x]) else some []
    let dst : Option Feet := if (pdOp d == 1 || pdOp d == 2) && pdDstSpace d == 0 then (footRange (dstFoot d)).map (dstMulti d) else some []
    match src, dst with
    | some a, some b => some (a ++ b)
    | _, _ => none

/-- Page-space footprints of a transfer: table, first and last entry; none when one starts below address 0. -/
def pageFeet (d : List Byte) : List (Nat × Option (Nat × Nat)) :=
  let es (f : Int × Int) : Option (Nat × Nat) := if f.1 < 0 then none else some (f.1.toNat / 65536, f.2.toNat / 65536)
  (if pdOp d == 1 && pdSrcSpace d == 3 then [(pdSrcId d, es (srcFoot d))] else []) ++
  (if (pdOp d == 1 || pdOp d == 2) && pdDstSpace d == 3 then [(pdDstId d, es (dstFoot d))] else [])

/-- Page tables that a descriptor names. -/
def pdTables (d : List Byte) : List Nat :=
  if pdGather d then [pdSrcId d]
  else (if pdOp d == 1 && pdSrcSpace d == 3 then [pdSrcId d] else []) ++
    (if (pdOp d == 1 || pdOp d == 2) && pdDstSpace d == 3 then [pdDstId d] else [])

/-! ## Chunks of a transfer -/

/-- Innermost runs of a descriptor: source and destination address. -/
def pdRuns (d : List Byte) : List (Nat × Nat) :=
  let at' (b : Nat) (st : Nat → Int) (i1 i2 i3 : Nat) : Nat :=
    (Int.ofNat b + Int.ofNat i1 * st 0 + Int.ofNat i2 * st 1 + Int.ofNat i3 * st 2).toNat
  (List.range (pdCount d 2)).flatMap (fun i3 => (List.range (pdCount d 1)).flatMap (fun i2 =>
    (List.range (pdCount d 0)).map (fun i1 =>
      (at' (pdSrc d) (pdSrcStride d) i1 i2 i3, at' (pdDst d) (pdDstStride d) i1 i2 i3))))

/-- Chunks of a descriptor: source, destination, bytes. A FILL has no source. -/
def pdChunks (d : List Byte) : List (Nat × Nat × Nat) :=
  (pdRuns d).flatMap (fun r =>
    let src := if pdOp d == 1 then r.1 else 0
    (cutRun 4096 4096 src r.2 (pdLen d / 64 + 1) 0 (pdLen d)).map (fun c => (r.1 + c.1, r.2 + c.1, c.2)))

/-! ## Reservations (R283) -/

/-- Distinct entries that a transfer writes and whose record has several references. -/
def sharedWrites (s : State) (d : List Byte) : List Nat :=
  if pdDstSpace d == 3 && (pdOp d == 1 || pdOp d == 2) then
    match s.table? (pdDstId d) with
    | some t =>
      ((pdChunks d).foldl (fun l c => insNat l (c.2.1 / 65536)) []).filter (fun e =>
        let v := entryOf s t e
        peValid v && recRefs (rdRecord s t (peShare v)) > 1)
    | none => []
  else []

/-- One free item reserved for each shared entry. -/
def reserveAll (s : State) (d : List Byte) : Option (List Reserve × State) :=
  match s.table? (pdDstId d) with
  | none => some ([], s)
  | some t =>
    (sharedWrites s d).foldl (fun (x : Option (List Reserve × State)) e =>
      match x with
      | none => none
      | some (l, y) =>
        match popFree y t (peTier (entryOf y t e)) with
        | some ((r, page), z) => some (l ++ [⟨pdDstId d, e, peTier (entryOf y t e), page, r⟩], z)
        | none => none) (some ([], s))

/-! ## Checks (Table 11.5) -/

/-- The refusal code of a descriptor of a queue, 0 when it passes. -/
def descCode (s : State) (q : PumpQueue) (x : Taken) : Nat :=
  let d := x.desc
  let t := s.table? (pdSrcId d)
  if x.bad || !([1, 2, 3, 0x10, 0x11].contains (pdOp d)) || (if pdGather d then gatherFieldBad d t else copyFieldBad d) then 1
  else if (pdOp d == 1 && pdSrcSpace d == 2) || (pdTables d).any (fun k => match s.table? k with | some y => y.ctx != q.ctx | none => true) then 2
  else match deviceFeet d with
  | none => 3
  | some fs =>
    if fs.any (fun f => !rangePopulated s f.1 f.2 || !polderCovers s q.ctx f.1 f.2) then 3
    else if fs.any (fun f => !rangeOpen s f.1 f.2) then 4
    else if (pageFeet d).any (fun f => match s.table? f.1, f.2 with
        | some y, some (lo, hi) => hi ≥ y.entries || (entryRange lo (hi + 1 - lo)).any (fun e => !peValid (entryOf s y e))
        | _, _ => true) then 5
    else if (reserveAll s d).isNone then 6
    else 0

/-- Source index of a pump in events. -/
def pumpSrc (pump : Nat) : Nat := 64 + pump

/-- A refused descriptor (R273). -/
def refuseDesc (s : State) (k : Nat) (q : PumpQueue) (x : Taken) (code : Nat) : State :=
  let s1 := bumpPump (s.setQueue k { q with head := none, headWait := .none, halted := true, code := code, entry := x.entry }) 3 1
  let s2 := s1.event 0x3171 14 (pumpSrc q.pump) (some q.ctx) (detailOf [(1, k), (2, x.entry), (1, code)])
  let s3 := if code == 5 then
      (pageFeet x.desc).foldl (fun y f => match y.table? f.1, f.2 with
        | some t, some (lo, hi) => notePoisonEntries y t (entryRange lo (min (hi + 1) t.entries - lo))
        | _, _ => y) s2
    else s2
  if code == 4 then
    match (((deviceFeet x.desc).getD []).flatMap (fun f => (blocks f.1 f.2).filterMap (fun b =>
        if s.tileOpen b.1 b.2 then none else tileAt b.1))).head? with
    | some (n, _) => s3.modTile (s3.phys n) (fun t => t.modRegs (fun r => { r with refused := sat32 r.refused 1 }))
    | none => s3
  else s3

/-! ## Taking an entry (R271) -/

def readEntry (s : State) (q : PumpQueue) (i : Nat) : Taken :=
  let a := q.base + 128 * i
  ⟨s.devRead a 128, i, s.devPoison a 128⟩

/-- The queue that a pump serves next, of its queues that are ready (R272): round robin in queue number, from the one after `last`. -/
def nextQueue (s : State) (pump : Nat) (last : Option Nat) (ready : PumpQueue → Bool) : Option Nat :=
  let l := s.ms.queues.filter (fun e => e.2.pump == pump && ready e.2)
  let turn (k : Nat) : Nat := match last with | some g => (k + 256 - (g + 1)) % 256 | none => k
  (l.foldl (fun best e => match best with
    | none => some e.1
    | some b => if turn e.1 < turn b then some e.1 else best) none)

def served (s : State) (key k : Nat) : State := { s with ms := { s.ms with lastQueue := aput s.ms.lastQueue key k } }

/-- A queue whose next entry its pump can take. -/
def canTake (x : PumpQueue) : Bool := !x.halted && x.head.isNone && x.postWait == .met

/-- QUEUE_ENTRY_TAKE (R271): the pump takes the next entry and sends the WAIT it asks for. A wait met before its entries
were retired is sent again. -/
def execQueueEntryTake (q : Byte) (flips : Option Flips) (s0 : State) : Host.Outcome State Fault Refusal :=
  let k := q.toNat
  .next (done s0 (
    match s0.queue? k with
    | none => s0
    | some x =>
      if !canTake x || !s0.unitOn 4 x.pump || nextQueue s0 x.pump (aget? s0.ms.lastQueue (64 + x.pump)) canTake != some k then s0
      else if postedAhead s0 x == 0 then armQueue (s0.setQueue k { x with postWait := .none }) k
      else
        let s := served (errorAt s0 (x.base + 128 * (x.consumed.toNat % 2 ^ x.size)) 128 flips) (64 + x.pump) k
        let e := readEntry s x (x.consumed.toNat % 2 ^ x.size)
        let waits := pdWaits e.desc && !e.bad
        let s1 := touchDev s (x.base + 128 * e.entry) 128
        let s2 := s1.setQueue k { x with
          consumed := x.consumed + 1, postWait := .none, head := some e
          headWait := if waits then .waiting else .met }
        let s3 := if waits then
            hubWait s2 1 2 k x.ctx (pdWaitVid e.desc) (pdTarget e.desc) 0
          else s2
        armQueue s3 k))

/-! ## Merging (R276, R172) -/

/-- The posted entries behind the head that the merge window holds, each of which passes R273. -/
def mergeWindow (s : State) (q : PumpQueue) : List Taken :=
  ((List.range (min 31 (postedAhead s q))).map (fun i => readEntry s q ((q.consumed.toNat + i) % 2 ^ q.size))).takeWhile
    (fun x => descCode s q x == 0)

/-- Descriptor e merges behind descriptor d, of which `len` bytes have been joined so far (R276); two multicasts merge when they go to
one rectangle (log 43). -/
def mergesBehind (d e : List Byte) (len : Nat) : Bool :=
  pdOp d == 1 && pdOp e == 1 && !pdNomerge d && !pdNomerge e && pdSrcSpace d == pdSrcSpace e && pdDstSpace d == pdDstSpace e &&
  pdSrcId d == pdSrcId e && pdDstId d == pdDstId e && pdClass d == pdClass e &&
  (List.range 3).all (fun i => pdCount d i == 1 && pdCount e i == 1) && !pdWaits e && pdMc d == pdMc e &&
  pdSrc e == pdSrc d + len && pdDst e == pdDst d + len && len + pdLen e ≤ 16777216

/-- Entries that chain behind the head: how many, and the bytes of all together. -/
def mergeChain (d : List Byte) : List Taken → Nat → Nat × Nat
  | [], len => (0, len)
  | x :: t, len =>
    if mergesBehind d x.desc len then
      let r := mergeChain d t (len + pdLen x.desc)
      (r.1 + 1, r.2)
    else (0, len)

/-- Descriptors that one multicast can stand for: the same bytes to one offset of tile stores. -/
def mcAlike (d e : List Byte) : Bool :=
  pdOp d == 1 && pdOp e == 1 && !pdNomerge d && !pdNomerge e && (pdMc d).isNone && (pdMc e).isNone && !pdWaits e &&
  pdDstSpace d == 0 && pdDstSpace e == 0 && pdSrcSpace d == pdSrcSpace e && pdSrcId d == pdSrcId e && pdSrc d == pdSrc e &&
  pdLen d == pdLen e && (List.range 3).all (fun i => pdCount d i == pdCount e i && pdSrcStride d i == pdSrcStride e i &&
    pdDstStride d i == pdDstStride e i) &&
  (match tileAt (pdDst d), tileAt (pdDst e) with
   | some (n, a), some (m, b) => a == b && lDie n == lDie m && (footRange (dstFoot e)).all (fun f => (tileAt (f.1 + f.2 - 1)).map (·.1) == some m)
   | _, _ => false)

/-- The rectangle that some tiles fill exactly: its corner and far corner. -/
def fillsRect (ns : List Nat) : Option (Nat × Nat × Nat) :=
  match ns with
  | [] => none
  | n :: _ =>
    let x0 := ns.foldl (fun a m => min a (lX m)) 15
    let y0 := ns.foldl (fun a m => min a (lY m)) 15
    let x1 := ns.foldl (fun a m => max a (lX m)) 0
    let y1 := ns.foldl (fun a m => max a (lY m)) 0
    let set := ns.foldl insNat []
    if set.length == ns.length && set.length == (x1 - x0 + 1) * (y1 - y0 + 1) then some (lOf (lDie n) x0 y0, x1, y1) else none

/-- The most entries behind the head that join it in one multicast, with the rectangle. -/
def mergeMulti (d : List Byte) (w : List Taken) : Option (Nat × Nat × Nat × Nat) :=
  let alike := w.takeWhile (fun x => mcAlike d x.desc)
  let tiles := (d :: alike.map (·.desc)).filterMap (fun e => (tileAt (pdDst e)).map (·.1))
  if !mcAlike d (d.set 93 0) then none
  else
    ((List.range alike.length).reverse.findSome? (fun i => (fillsRect (tiles.take (i + 2))).map (fun x => (i + 1, x))))

/-- The descriptor of a merged transfer: with another length, or as a multicast from the corner tile. -/
def withLen (d : List Byte) (len : Nat) : List Byte := d.take 24 ++ leBytes 4 len ++ d.drop 28
def withMulti (d : List Byte) (corner x1 y1 : Nat) : List Byte :=
  d.take 16 ++ leBytes 8 (tileMapBase + corner * 2 ^ 24 + pdDst d % 2 ^ 24) ++ (d.drop 24).take 80 ++
  leBytes 2 (x1 + y1 * 16 + 2 ^ 15) ++ d.drop 106

/-! ## Starting a descriptor (R272, R273, R276) -/

/-- Source and destination of a chunk. -/
def chunkSrc (d : List Byte) (a : Nat) : Dest := ⟨pdSrcSpace d, pdSrcId d, 0, a, none⟩
def chunkDst (d : List Byte) (a : Nat) : Dest := ⟨pdDstSpace d, pdDstId d, pdDstId d, a, pdMc d⟩

/-- How many ACKs a write to a destination brings (R269). -/
def Dest.acks (x : Dest) : Nat :=
  match x.mcast, tileAt x.addr with
  | some (x1, y1), some (n, _) => (mcTiles n x1 y1).length
  | _, _ => 1

/-- Where a pump stands (R270). -/
def pumpSpot (p : Nat) : Spot := if p < 32 then .pump (p / 8) (if p % 8 < 4 then p % 8 else p % 8 + 8) else .hub

/-- Requester position and agent of a pump (Table 11.2). -/
def pumpReq (p : Nat) : Nat :=
  (match pumpSpot p with | .pump d col => d + col * 2 ^ 2 + 16 * 2 ^ 6 | _ => 17 * 2 ^ 6) + p % 8 * 2 ^ 11

/-- A transaction of a transfer: a pump's, or the page engine's for a gather. -/
def xferTxn (s : State) (q : PumpQueue) (k xfer id : Nat) (d : List Byte) (op : Nat) (at_ : Dest) (bytes : Nat) (data : List Byte)
    (dst : Option Dest) : Txn :=
  mkTxn id op at_ bytes data (pdClass d) dst k xfer (if pdGather d then engineReq else pumpReq q.pump) (s.polderOfCtx q.ctx) none
    (if pdGather d then .hub else pumpSpot q.pump)

/-- The transactions of a transfer: WRITE for a FILL, FETCH for a COPY. The header of a FETCH has no page space (Table 11.2), so a COPY
to page space READs, and the pump writes what returns (log 44). -/
def chunkTxns (s : State) (q : PumpQueue) (k xfer id : Nat) (d : List Byte) : List Txn :=
  (pdChunks d).zipIdx.map (fun c =>
    if pdOp d == 1 then
      xferTxn s q k xfer (id + c.2) d (if pdDstSpace d == 3 then 0 else 1) (chunkSrc d c.1.1) c.1.2.2 [] (some (chunkDst d c.1.2.1))
    else xferTxn s q k xfer (id + c.2) d 2 (chunkDst d c.1.2.1) c.1.2.2 (List.replicate (c.1.2.2 / 4) (pdFill d)).flatten none)

/-- A transfer of a queue starts; a gather is handed to the page engine. -/
def startTransfer (s0 : State) (x : PumpQueue) (k : Nat) (d : List Byte) (sigs : List (Nat × Nat)) (reserved : List Reserve) : State :=
  let s := served s0 x.pump k
  let id := s.ms.nextId
  let moves := pdOp d == 1 || pdOp d == 2
  let l := if moves then chunkTxns s x k id (id + 1) d else []
  let t : Transfer :=
    { id := id, desc := d, sigs := sigs
      outstanding := if moves then l.length * (chunkDst d (pdDst d)).acks else if pdGather d then 1 else 0
      complete := !moves && !pdGather d
      reserved := reserved, after := [], poisonLogged := false, discLogged := false }
  let s1 := { s with ms := { s.ms with txns := s.ms.txns ++ l, nextId := id + 1 + l.length } }
  s1.modQueue k (fun q => { q with transfers := q.transfers ++ [t], head := none, headWait := .none })

/-- Transfers that a pump has in progress. -/
def pumpBusy (s : State) (pump : Nat) : Nat :=
  ((s.ms.queues.filter (fun e => e.2.pump == pump)).map (fun e => (e.2.transfers.filter (fun t => !t.complete)).length)).sum

/-- A gather holds its queue until it completes (R285). -/
def PumpQueue.held (q : PumpQueue) : Bool := q.transfers.any (fun t => pdGather t.desc && !t.complete)

/-- The entries that merged into the head leave the ring. -/
def takeMerged (s : State) (k n : Nat) : State :=
  if n == 0 then s
  else armQueue (dropHubWaits (s.modQueue k (fun q => { q with consumed := q.consumed + BitVec.ofNat 32 n, postWait := .none }))
    (fun h => h.unit == 1 && h.what == 1 && h.q == k)) k

/-- A queue whose head its pump can start. -/
def canStart (x : PumpQueue) : Bool := !x.halted && x.head.isSome && x.headWait == .met && !x.held

/-- What a pump reads to start a descriptor: the window's entries, and the page-table entries of its footprints. -/
def startReads (s : State) (x : PumpQueue) (d : List Byte) : List (Nat × Nat) :=
  (List.range (min 31 (postedAhead s x))).map (fun i => (x.base + 128 * ((x.consumed.toNat + i) % 2 ^ x.size), 128)) ++
  (pageFeet d).filterMap (fun f => match s.table? f.1, f.2 with
    | some t, some (lo, hi) => some (t.entryAt lo, 8 * (hi + 1 - lo))
    | _, _ => none)

/-- DESCRIPTOR_START (R272, R273, R276). -/
def execDescriptorStart (q : Byte) (flips : Option Flips) (s0 : State) : Host.Outcome State Fault Refusal :=
  let k := q.toNat
  .next (done s0 (
    match s0.queue? k with
    | none => s0
    | some x =>
      match x.head with
      | none => s0
      | some e =>
        if !canStart x || pumpBusy s0 x.pump ≥ 16 || !s0.unitOn 4 x.pump ||
           nextQueue s0 x.pump (aget? s0.ms.lastQueue x.pump) canStart != some k then s0
        else
          let s := errorIn s0 (startReads s0 x e.desc) flips
          let code := descCode s x e
          if code != 0 then refuseDesc (served s x.pump k) k x e code
          else
            let w := mergeWindow s x
            let chain := mergeChain e.desc w (pdLen e.desc)
            let s1 := bumpPump s 0 1
            let sigsOf (n : Nat) : List (Nat × Nat) := ((e :: w.take n).map (·.desc)).filterMap pdSig
            if chain.1 > 0 then
              match reserveAll s1 (withLen e.desc chain.2) with
              | some (l, s2) => takeMerged (startTransfer (bumpPump s2 1 chain.1) x k (withLen e.desc chain.2) (sigsOf chain.1) l) k chain.1
              | none =>
                match reserveAll s1 e.desc with
                | some (l, s2) => startTransfer s2 x k e.desc (sigsOf 0) l
                | none => s
            else
              match mergeMulti e.desc w with
              | some (n, corner, x1, y1) =>
                takeMerged (startTransfer (bumpPump (bumpPump s1 1 n) 2 1) x k (withMulti e.desc corner x1 y1) (sigsOf n) []) k n
              | none =>
                match reserveAll s1 e.desc with
                | some (l, s2) => startTransfer s2 x k e.desc (sigsOf 0) l
                | none => s))

/-- Reservations of a transfer that no copy has used return to their lists (R283). -/
def returnReserved (s : State) (t : Transfer) : State :=
  t.reserved.foldl (fun x r => match x.table? r.table with
    | some y => pushFree x y r.tier r.record r.page
    | none => x) s

/-- TRANSFER_COMPLETE (R272): the oldest transfer of the queue is complete; its signals go out in queue order. -/
def execTransferComplete (q : Byte) (s : State) : Host.Outcome State Fault Refusal :=
  let k := q.toNat
  .next (done s (
    match s.queue? k with
    | none => s
    | some x =>
      match x.transfers with
      | [] => s
      | t :: rest =>
        if t.complete then
          let s1 := returnReserved (s.setQueue k { x with transfers := rest }) t
          t.sigs.foldl (fun y g => hubSignal y 1 k x.ctx g.1 g.2) s1
        else s))

end Sys2Proof.Machine
end

