-- ==== Sys2Proof/Machine/MemTxn.lean ====
section
/-! DEFINITION. Memory transactions (11, R264, R267-R269, R274, R283-R284) at their targets and at their requesters, and the gather
operations of the page engine (R285-R289). How they travel is in Lane2.lean. -/

namespace Sys2Proof.Machine

def State.setTxns (s : State) (l : List Txn) : State := { s with ms := { s.ms with txns := l } }
def State.modTransfer (s : State) (k id : Nat) (f : Transfer → Transfer) : State :=
  s.modQueue k (fun q => { q with transfers := q.transfers.map (fun t => if t.id == id then f t else t) })
def State.transfer? (s : State) (k id : Nat) : Option Transfer :=
  (s.queue? k).bind (fun q => q.transfers.find? (fun t => t.id == id))

/-- Event source of a transaction: its pump, the page engine, or the port that brought it. -/
def txnSrc (s : State) (t : Txn) : Nat × Nat :=
  if 256 ≤ t.queue && t.queue < copyQueue then (13, t.queue - 256)
  else match s.queue? t.queue with | some q => (14, pumpSrc q.pump) | none => engineSrc

/-- A write reaches device space inside the part, at one of the places it goes to. -/
def writeFeet (t : Txn) : Feet :=
  match t.at_.mcast, tileAt t.at_.addr with
  | some (x1, y1), some _ => mcRanges t.at_.addr t.bytes x1 y1
  | _, _ => [(t.at_.addr, t.bytes)]

/-! ## The arbiters of memory (R264, R267, R350) -/

/-- The weir and bucket at the target of a transaction (R350): memory stacks, LP5X ports, the host port by direction. -/
def txnBucket (s : State) (t : Txn) : Option (Nat × Nat) :=
  if t.at_.space == 1 then some (2, b2n (t.op == 2))
  else if t.at_.space == 0 then (s.memAt t.at_.addr).map (fun x => if x.1 < 8 then (0, x.1) else (1, x.1 - 8))
  else none

/-- A transaction meets the weir at its target. -/
def txnWeir (s : State) (t : Txn) : State × Bool :=
  match txnBucket s t with
  | some (w, b) => weirPass s t.polder w b (2 * t.id) t.bytes
  | none => (s, true)

/-- A bucket would let a unit pass. -/
def weirOpen (s : State) (polder : Option Nat) (w b unit : Nat) : Bool := (weirPass s polder w b unit 0).2

/-- The arbiter that a transaction at its target asks, by the beat it begins with: a pseudo-channel of a stack, or an LP5X port. -/
def memArbiter (s : State) (t : Txn) : Option Nat :=
  if t.at_.space == 0 && t.op ≤ 2 && t.arrived then
    (s.memAt t.at_.addr).map (fun x => if x.1 < 8 then 32 * x.1 + x.2 / 256 % 32 else 256 + x.1)
  else none

/-- Its index there: the read or the write queue of the link, bridge or hub agents that brought it. -/
def memIndex (t : Txn) : Nat :=
  b2n (t.op == 2) + 2 * (match t.goal, t.from_ with
    | .stack u col, _ => col - (if u % 2 == 0 then 1 else 9)
    | _, .hub => 4
    | _, .tile p => pDie p
    | _, .stack u _ => u / 2
    | _, .pump d _ => d)

/-- An earlier write of the same requester to a granule that this one writes is under way (R269): writes are issued in the order of
their numbers. -/
def writeOrdered (s : State) (t : Txn) : Bool :=
  let who (x : Txn) : Nat × Nat := (x.req, match x.dst with | some d => if x.op == 2 then d.dev + 1 else 0 | none => 0)
  t.op != 2 || s.ms.txns.all (fun x =>
    !(x.op == 2 && x.sent && x.id < t.id && who x == who t && x.at_.space == t.at_.space && x.at_.dev == t.at_.dev &&
      (writeFeet x).any (fun a => (writeFeet t).any (fun b =>
        overlap (a.1 / 64 * 64, a.1 % 64 + a.2) (b.1 / 64 * 64, b.1 % 64 + b.2)))))

/-- The transactions at an arbiter that are at the head of their queue's line of their polder (R350), in the order they came. -/
def memHeads (s : State) (a : Nat) : List Txn :=
  let l := s.ms.txns.filter (fun t => memArbiter s t == some a && writeOrdered s t)
  l.filter (fun t => (l.find? (fun x => memIndex x == memIndex t && x.polder == t.polder)).any (fun x => x.id == t.id))

/-- Requesters of an arbiter: links or bridges, hub agents, and the scrubber last. -/
def memRequesters (a : Nat) : Nat := if a < 256 then 13 else 11

/-- What the arbiter grants, of the heads whose bucket lets them through and of `more` (R180). -/
def memGrant (s : State) (a : Nat) (more : List (Nat × Nat)) : Option (Nat × Nat) :=
  arbiter (memRequesters a) (fun c => aget? s.ms.memGrants (4 * a + c))
    (((memHeads s a).filter (fun t => match txnBucket s t with | some (w, b) => weirOpen s t.polder w b (2 * t.id) | none => true)).map
      (fun t => (memIndex t, t.cls)) ++ more)

def noteMemGrant (s : State) (a idx c : Nat) : State := { s with ms := { s.ms with memGrants := aput s.ms.memGrants (4 * a + c) idx } }

/-- Whether a transaction at its target goes on. -/
inductive Served where
  | waits                 -- behind another, or not granted
  | held (s : State)      -- by its weir (R350)
  | goes (s : State)      -- the state with its grant and its charge

def serve (s : State) (t : Txn) : Served :=
  if !t.arrived || !writeOrdered s t then .waits
  else
    match memArbiter s t with
    | none =>
      (match txnWeir s t with
       | (s1, true) => .goes s1
       | (s1, false) => .held s1)
    | some a =>
      if !(memHeads s a).any (fun x => x.id == t.id) then .waits
      else
        match txnWeir s t with
        | (s1, false) => .held s1
        | (s1, true) => if memGrant s a [] == some (memIndex t, t.cls) then .goes (noteMemGrant s1 a (memIndex t) t.cls) else .waits

/-! ## Reading: READ and FETCH -/

/-- The bytes and marks that a transaction reads at its target, and the state after. One whose page-table entry was invalid when it was
translated reads free bytes (log 19). -/
def txnRead (s : State) (t : Txn) (flips : Option Flips) : List Byte × Nat × State :=
  if t.at_.space == 3 then
    let (bs, s1) := freeBytes s t.bytes
    (bs, 0, s1)
  else
    let host := t.at_.space == 1
    let a := t.at_.addr
    let s2 := if host then s else errorAt (noteAccess s (txnSrc s t).2 a t.bytes) a t.bytes flips
    (s2.anyRead host a t.bytes, badPieces s2 host a t.bytes, s2)

/-- A source granule was read with poison: the queue shows it (Table 11.10). -/
def sawPoison (s : State) (t : Txn) (bad : Nat) : State :=
  if bad == 0 then s else s.modQueue t.queue (fun q => { q with poisonSeen := true })

/-- A transaction that has ended here goes on as another, from where it stands. -/
def nextLeg (s : State) (k : Nat) (t : Txn) (l : List Txn) : State :=
  joinFrees (s.setTxns (s.ms.txns.eraseIdx k ++ l.map (fun x => { x with from_ := t.goal, sent := false, arrived := false, page := none })))

/-- A read of a memory transaction at its target, and what it sends on. -/
def readTarget (s : State) (k : Nat) (t : Txn) (flips : Option Flips) (next : List Byte → Nat → Txn) : State :=
  match serve s t with
  | .waits => s
  | .held s1 => s1
  | .goes s0 =>
    let (bs, bad, s1) := txnRead s0 t flips
    sawPoison (nextLeg s1 k t [next bs bad]) t bad

/-- READ (R268): the data returns to the requester as DATA. -/
def execRead (k : Nat) (flips : Option Flips) (s : State) : Host.Outcome State Fault Refusal :=
  .next (done s (
    match s.ms.txns[k]? with
    | some t => if t.op != 0 then s else readTarget s k t flips (fun bs bad => { t with op := 4, data := bs, bad := bad })
    | none => s))

/-- FETCH (R268): the target reads, and sends the data as a WRITE to the fetch destination. -/
def execFetch (k : Nat) (flips : Option Flips) (s : State) : Host.Outcome State Fault Refusal :=
  .next (done s (
    match s.ms.txns[k]? with
    | some t =>
      (match t.dst with
       | none => s
       | some d =>
         if t.op != 1 then s
         else readTarget s k t flips (fun bs bad => { t with op := 2, at_ := d, dst := none, data := bs, bad := bad }))
    | none => s))

/-- DATA (R268): the requester writes what it read to where its operation puts it. -/
def execData (k : Nat) (s : State) : Host.Outcome State Fault Refusal :=
  .next (done s (
    match s.ms.txns[k]? with
    | some t =>
      (match t.dst with
       | some d => if t.op == 4 && t.arrived then nextLeg s k t [{ t with op := 2, at_ := d, dst := none }] else s
       | none => s)
    | none => s))

/-! ## Transactions on a link (Table 11.2, R327) -/

/-- The header of a transaction (Table 11.2). -/
def txnHeader (t : Txn) : Nat :=
  t.op % 16 + (if t.op == 3 then 0 else ((t.bytes + 63) / 64 - 1) % 64 * 2 ^ 4) + b2n (t.bad != 0) * 2 ^ 10 +
  (match t.at_.mcast with | some (x, y) => if t.op == 2 then 2 ^ 11 + x % 16 * 2 ^ 12 + y % 32 * 2 ^ 16 else 0 | none => 0) +
  t.cls % 4 * 2 ^ 21 + t.status % 4 * 2 ^ 23 + t.at_.addr % 2 ^ 48 * 2 ^ 32 +
  (match t.dst with
   | some d => if t.op == 1 then d.addr % 2 ^ 64 * 2 ^ 96 + d.space % 4 * 2 ^ 160 + d.dev % 2 ^ 16 * 2 ^ 164 else 0
   | none => 0) +
  t.req % 2 ^ 16 * 2 ^ 180 + t.xfer % 2 ^ 16 * 2 ^ 196

/-- The header as it leaves over a link: with the destination and the source device (R327). -/
def linkHeader (s : State) (t : Txn) (dev : Nat) : Nat := txnHeader t + dev % 2 ^ 16 * 2 ^ 80 + s.deviceId % 2 ^ 16 * 2 ^ 212

/-- Flits that carry a transaction: its 32-byte header, then its data. -/
def txnFlits (hdr : Nat) (data : List Byte) (bad : Nat) : List Flit :=
  let bs := leBytes 32 hdr ++ data
  (flitsOfBytes bs).zipIdx.map (fun (e : Flit × Nat) =>
    { e.1 with bad := (List.range ((data.length + 63) / 64)).any (fun i =>
        bad.testBit i && (32 + 64 * i) / 128 ≤ e.2 && e.2 ≤ (32 + 64 * i + 63) / 128) })

/-- A transaction for another device joins lane 2 of its port, or is dropped (R328). -/
def txnSend (s : State) (t : Txn) (dev : Nat) : State :=
  match linkRoute s dev none with
  | .drop c => linkDrop s dev none c
  | .send k => s.modLport k (fun x => x.push 2 (txnFlits (linkHeader s t dev) (if t.op == 2 then t.data else []) t.bad))

/-! ## WRITE -/

/-- Bytes land at a device address, piece by piece: what lies in a declared input is discarded (R234), and counted. -/
def landBytes (s : State) (agent a : Nat) (bs : List Byte) (bad : Nat) : State × Nat :=
  (pieces a bs.length).foldl (fun (x : State × Nat) e =>
    if inputHit s e.1 e.2 then (x.1, x.2 + 1)
    else (x.1.devWrite e.1 ((bs.drop (e.1 - a)).take e.2) (fun _ => bad.testBit ((e.1 - a) / 64)), x.2))
    (noteAccess s agent a bs.length, 0)

/-- Counts of a landed write of a pump: granules moved, poisoned, discarded (R274). -/
def countMoved (s : State) (t : Txn) (n lost : Nat) : State :=
  if t.queue ≥ 256 then s
  else
    let s1 := bumpPump (bumpPump (bumpPump s 5 (n - lost)) 6 (popBelow n t.bad)) 7 lost
    s1.modQueue t.queue (fun q => { q with discarded := sat32 q.discarded lost })

/-- A pump write for a queue bound to a tile is progress of that tile (R385). -/
def pumpProgress (s : State) (t : Txn) : State :=
  match (s.queue? t.queue).bind (·.tile) with
  | some n => s.noteProgress (s.phys n)
  | none => s

/-- The ACKs of a write take its place, each at the target that sends it (R269). -/
def ackTxn (s : State) (k : Nat) (t : Txn) (from_ : List Spot) (status : Nat) : State :=
  let id := s.ms.nextId
  { s with ms := { s.ms with
      nextId := id + from_.length
      txns := s.ms.txns.eraseIdx k ++ from_.zipIdx.map (fun (x : Spot × Nat) =>
        { t with id := id + x.2, op := 3, data := [], bad := 0, status := status, from_ := x.1, sent := false, arrived := false }) } }

/-- A WRITE in device space lands at each of its targets. -/
def writeDevice (s : State) (k : Nat) (t : Txn) : State :=
  let feet := writeFeet t
  let closed := feet.any (fun f => !rangeOpen s f.1 f.2)
  let gone := feet.any (fun f => !rangePopulated s f.1 f.2)
  let (s1, lost) := feet.foldl (fun (x : State × Nat) f =>
    let (y, n) := landBytes x.1 (txnSrc s t).2 f.1 t.data t.bad
    (y, x.2 + n)) (s, 0)
  let n := feet.length * ((t.bytes + 63) / 64)
  let s2 := countMoved (if lost == 0 then s1 else inputDiscard s1 (txnSrc s t)) t n lost
  ackTxn (pumpProgress s2 t) k t
    (feet.map (fun f => match feet.length, tileAt f.1 with
      | 1, _ => t.goal
      | _, some (m, _) => .tile (s.phys m)
      | _, none => t.goal)) (if gone then 1 else if closed then 2 else if lost > 0 then 3 else 0)

/-- A WRITE to host memory (R293, Table 15.3). -/
def writeHost (s : State) (k : Nat) (t : Txn) (ecc : Ecc) : State :=
  let n := (t.bytes + 63) / 64
  let src := (txnSrc s t).2
  let s1 := if ecc == .uncorrectable then
      countMoved (s.event 0x3202 14 src none (detailOf [(8, t.at_.addr)])) t n n
    else
      countMoved ((pieces t.at_.addr t.bytes).foldl (fun x e =>
        x.hostWrite e.1 ((t.data.drop (e.1 - t.at_.addr)).take e.2) (t.bad.testBit ((e.1 - t.at_.addr) / 64))) s) t n 0
  let logged := match s.transfer? t.queue t.xfer with | some x => x.poisonLogged | none => true
  let s2 := if t.bad != 0 && !logged then
      (s1.modTransfer t.queue t.xfer (fun x => { x with poisonLogged := true })).event 0x3304 14 src none []
    else s1
  ackTxn (pumpProgress s2 t) k t [.hub] 0

/-- A WRITE for another device leaves over a link (R327); its ACK comes back from there. -/
def writeRemote (s : State) (k : Nat) (t : Txn) : State :=
  txnSend (countMoved (pumpProgress (s.setTxns (s.ms.txns.eraseIdx k)) t) t ((t.bytes + 63) / 64) 0) t t.at_.dev

/-- A WRITE that a link brought lands only inside the polder that owns its port (R329). -/
def writeArrived (s : State) (k port : Nat) (t : Txn) : State :=
  let ok := match (s.polderOfPort port).bind s.polder? with
    | some p => (writeFeet t).all (fun f => p.covers f.1 f.2)
    | none => false
  if ok then writeDevice s k t
  else ackTxn (portOnce (s.bumpLink port 5 1) port 0x3232 (detailOf [(8, t.at_.addr)])) k t [t.goal] 2

/-- WRITE (R268, R274): it lands, is discarded or refused, and is acknowledged. `ecc` uncorrectable tells that the host
completes a host write with an error. -/
def execWrite (k : Nat) (ecc : Ecc) (s : State) : Host.Outcome State Fault Refusal :=
  .next (done s (
    match s.ms.txns[k]? with
    | some t =>
      if t.op != 2 then s
      else
        match serve s t with
        | .waits => s
        | .held s1 => s1
        | .goes s1 =>
          if 256 ≤ t.queue && t.queue < copyQueue then writeArrived s1 k (t.queue - 256) t
          else match t.at_.space with
            | 0 => writeDevice s1 k t
            | 1 => writeHost s1 k t ecc
            | _ => writeRemote s1 k t
    | none => s))

/-! ## ACK -/

/-- A write of a transfer is acknowledged (R272): after the last, what must follow it is written, and then the transfer is
complete. -/
def ackTransfer (s : State) (k id : Nat) : State :=
  match s.queue? k, s.transfer? k id with
  | some q, some t =>
    let left := t.outstanding - 1
    if left > 0 then s.modTransfer k id (fun x => { x with outstanding := left })
    else if t.after.isEmpty then s.modTransfer k id (fun x => { x with outstanding := 0, complete := true })
    else
      let next := s.ms.nextId
      let l := t.after.zipIdx.map (fun (e : (Nat × List Byte) × Nat) =>
        xferTxn s q k id (next + e.2) t.desc 2 (devDest e.1.1) e.1.2.length e.1.2 none)
      ({ s with ms := { s.ms with txns := s.ms.txns ++ l, nextId := next + l.length } }).modTransfer k id
        (fun x => { x with outstanding := l.length, after := [] })
  | _, _ => s

/-- ACK (R269): it reaches its requester, on this device or, over a link, on another. -/
def execAck (k : Nat) (s : State) : Host.Outcome State Fault Refusal :=
  .next (done s (
    match s.ms.txns[k]? with
    | some t =>
      if t.op != 3 || !t.arrived then s
      else
        let s1 := s.setTxns (s.ms.txns.eraseIdx k)
        if t.queue == copyQueue then ackCopy s1 t.xfer
        else if t.queue ≥ 256 then
          (match t.dst with
           | some d => txnSend s1 t d.dev
           | none => s1)
        else ackTransfer s1 t.queue t.xfer
    | none => s))

/-- A transaction that a link brings for this device (R327): a WRITE or an ACK goes on from the hub, and anything else is dropped. -/
def takeTxn (s : State) (port : Nat) (fs : List Flit) : State :=
  let bs := (fs.map (·.data)).flatten
  let h := leAt bs 0 32
  let op := fld h 0 4
  let id := s.ms.nextId
  let add (t : Txn) : State := { s with ms := { s.ms with txns := s.ms.txns ++ [t], nextId := id + 1 } }
  let tag := fld h 196 16
  if op == 2 then
    let n := 64 * (fld h 4 6 + 1)
    let marks := maskOf (n / 64) (fun i => ((fs.drop ((32 + 64 * i) / 128)).take ((32 + 64 * i + 63) / 128 + 1 - (32 + 64 * i) / 128)).any (·.bad))
    add { mkTxn id 2 ⟨0, 0, 0, fld h 32 48, if bitOf h 11 then some (fld h 12 4, fld h 16 5) else none⟩ n (padTo n (bs.drop 32))
            (fld h 21 2) (some ⟨2, 0, fld h 212 16, 0, none⟩) (256 + port) tag (fld h 180 16) none none .hub with
          bad := if bitOf h 10 && marks == 0 then 2 ^ (n / 64) - 1 else marks }
  else if op == 3 then
    match s.ms.queues.findSome? (fun e => (e.2.transfers.find? (fun t => t.id % 65536 == tag && !t.complete)).map (fun t => (e.1, e.2, t))) with
    | some (k, q, t) =>
      add { xferTxn s q k t.id id t.desc 3 (devDest (fld h 32 48)) 64 [] none with from_ := .hub, status := fld h 23 2 }
    | none => s
  else s.bumpLink port 5 1

/-! ## Gathers (R285-R289) -/

/-- The gather that holds a queue, with its table; when that has been removed, with one of no entries, so that every entry is
invalid. -/
def heldGather (s : State) (k op : Nat) : Option (PumpQueue × Transfer × PageTable) :=
  match s.queue? k with
  | none => none
  | some q =>
    match q.transfers.find? (fun t => pdOp t.desc == op && !t.complete && t.outstanding == 1 && t.after.isEmpty &&
        !s.ms.txns.any (fun x => x.queue == k && x.xfer == t.id)) with
    | some t => some (q, t, (s.table? (pdSrcId t.desc)).getD ⟨q.ctx, []⟩)
    | none => none

/-- Transactions of the page engine for a transfer. -/
def addTxns (s : State) (q : PumpQueue) (k id : Nat) (d : List Byte) (l : List (Nat × Dest × Nat × List Byte × Option Dest)) : State :=
  let next := s.ms.nextId
  let ts := l.zipIdx.map (fun e => xferTxn s q k id (next + e.2) d e.1.1 e.1.2.1 e.1.2.2.1 e.1.2.2.2.1 e.1.2.2.2.2)
  { s with ms := { s.ms with txns := s.ms.txns ++ ts, nextId := next + ts.length } }

/-- Event 0x3174 of a gather that met an invalid entry, once per operation. -/
def gatherEvent (s : State) (q : PumpQueue) (n : Nat) : State :=
  if n == 0 then s else (bumpPage s 5 n).event 0x3174 14 (pumpSrc q.pump) (some q.ctx) []

/-- SUMMARY_GATHER (R286): each summary is read and written behind the one before, granule by
granule, so that a mark goes where its bytes go (R274); zeros stand for an invalid entry's. -/
def execSummaryGather (q : Byte) (flips : Option Flips) (s0 : State) : Host.Outcome State Fault Refusal :=
  let k := q.toNat
  .next (done s0 (
    match heldGather s0 k 0x10 with
    | none => s0
    | some (x, t, pt) =>
      let d := t.desc
      let s := errorIn s0 (tableReads s0 pt (sgE0 d) (sgN d)) flips
      let n := sgBytes d
      let vs := (List.range (sgN d)).map (fun i => (i, entryOf s pt (sgE0 d + i)))
      let l := vs.flatMap (fun e =>
        let dst := sgDst d + n * e.1
        if peValid e.2 then
          let src := pt.sumAt (peShare e.2) + sgOff d
          (cutRun 64 64 src dst (n + 1) 0 n).map (fun c =>
            ((0 : Nat), devDest (src + c.1), c.2, ([] : List Byte), some (devDest (dst + c.1))))
        else [((2 : Nat), devDest dst, n, List.replicate n 0, none)])
      let bad := (vs.filter (fun e => !peValid e.2)).length
      let s1 := gatherEvent (bumpPage s 6 (sgN d - bad)) x bad
      addTxns (s1.modTransfer k t.id (fun y => { y with outstanding := l.length })) x k t.id d l))

/-- The pages that a PAGE_GATHER selects, in ascending order (R287). -/
def selectPages (n head tail limit : Nat) (records : List Nat) : List Nat :=
  let add (x : List Nat) (j : Nat) : List Nat := if x.contains j || x.length ≥ limit then x else insNat x j
  let s1 := (List.range (min head n)).foldl add []
  let s2 := ((List.range (min tail n)).map (fun i => n - min tail n + i)).foldl add s1
  records.foldl (fun x j => if j != 0xFFFFFFFF && j < n then add x j else x) s2

/-- An entry of a page list (R105). -/
def listEntry (off count first : Nat) : List Byte := leBytes 4 (fld off 0 24 + fld count 0 5 * 2 ^ 24) ++ leBytes 4 first

/-- A gathered entry is counted; at the promotion threshold an unshared LP5X page moves to HBM (R289). -/
def gatherCount (s : State) (k : Nat) (t : PageTable) (e : Nat) : State :=
  let v := entryOf s t e
  let w := rdRecord s t (peShare v)
  let g := min 65535 (recGathers w + 1)
  let s1 := bumpPage (wrRecord s t (peShare v) (recRefs w + g * 2 ^ 16)) 4 1
  if t.promote != 0 && g ≥ t.promote && peTier v == 1 && recRefs w == 1 && !peBusy v then
    let s2 := match migrateEntry s1 k t e with
      | some y => y
      | none => bumpPage s1 3 1
    wrRecord s2 t (peShare v) 1
  else s1

/-- PAGE_GATHER (R287): pages are selected and fetched into their slots; the list follows the last page byte. -/
def execPageGather (q : Byte) (flips : Option Flips) (s0 : State) : Host.Outcome State Fault Refusal :=
  let k := q.toNat
  .next (done s0 (
    match heldGather s0 k 0x11 with
    | none => s0
    | some (x, t, pt) =>
      let d := t.desc
      let s := errorIn s0 ((pgRec d, 8 * pgK d) :: tableReads s0 pt (sgE0 d) ((sgN d + 31) / 32)) flips
      let tok := sgN d
      let n := (tok + 31) / 32
      let records := (List.range (pgK d)).map (fun i => leAt (s.devRead (pgRec d + 8 * i) 8) 4 4)
      let l := selectPages n (pgHead d) (pgTail d) (pgLimit d) records
      let off := pgDst d % 2 ^ 24
      let slot (i : Nat) : Option (Nat × Bool) := (l[pgSkip d + i]?).map (fun j => (j, peValid (entryOf s pt (sgE0 d + j))))
      let got := (List.range (pgP d)).filterMap (fun i => match slot i with | some (j, true) => some (i, j) | _ => none)
      let bad := ((List.range (pgP d)).filter (fun i => match slot i with | some (_, false) => true | _ => false)).length
      let list := (List.range (pgP d)).flatMap (fun i => match slot i with
        | some (j, true) => listEntry (off + 65536 * i) (min 32 (tok - 32 * j) - 1) (pgPos d + 32 * j)
        | _ => listEntry off 0 0xFFFFFFE0)
      let fetches := got.flatMap (fun e => (List.range 16).map (fun c =>
        ((1 : Nat), (⟨3, pdSrcId d, 0, (sgE0 d + e.2) * 65536 + 4096 * c, none⟩ : Dest), (4096 : Nat), ([] : List Byte),
          some (devDest (pgDst d + 65536 * e.1 + 4096 * c)))))
      let lists := (cutRun 4096 4096 0 (pgList d) (list.length / 8 + 1) 0 list.length).map (fun c => (pgList d + c.1, (list.drop c.1).take c.2))
      let s1 := touchDev (gatherEvent s x bad) (pgRec d) (8 * pgK d)
      let s2 := got.foldl (fun y e => gatherCount y (pdSrcId d) pt (sgE0 d + e.2)) s1
      if fetches.isEmpty then ackTransfer (s2.modTransfer k t.id (fun y => { y with outstanding := 1, after := lists })) k t.id
      else addTxns (s2.modTransfer k t.id (fun y => { y with outstanding := fetches.length, after := lists })) x k t.id d fetches))

end Sys2Proof.Machine
end

