-- ==== Sys2Proof/Machine/Lane2.lean ====
section
/-! DEFINITION. Memory transactions on their way (07, R156, R157, R161; 11, R268, R277, R283, R284): the requests of pumps in their
turn, the translation of page-space addresses when a transaction is issued, and how it enters the fabric. -/

namespace Sys2Proof.Machine

/-! ## Ways -/

/-- The edge link of a stack that a transaction for it takes: the nearest column of the six (Table 7.1, log 45). -/
def linkCol (u c : Nat) : Nat :=
  let b := if u % 2 == 0 then 1 else 9
  max b (min (b + 5) c)

/-- The column that a spot stands at; the hub's is that of its gauge endpoint. -/
def Spot.col : Spot → Nat
  | .hub => 7
  | .tile p => pX p
  | .stack _ c => c
  | .pump _ c => c

/-- Where a place in device space, host memory or on another device is reached, from a column: LP5X, the host port and the links at the
hub, and so what is unpopulated (log 45). -/
def spotOf (s : State) (x : Dest) (col : Nat) : Spot :=
  if x.space != 0 then .hub
  else
    match tileAt x.addr with
    | some (n, _) =>
      if !s.tileOn n then .hub
      else if x.mcast.isSome then .tile (pOf (lDie n) (lX n) (lY n))
      else .tile (s.phys n)
    | none =>
      match s.memAt x.addr with
      | some (u, _) => if u < 8 then .stack u (linkCol u col) else .hub
      | none => .hub

/-- Bytes of a transaction on a lane: its header, and the data of a WRITE or DATA. -/
def txnBytes (t : Txn) : List Byte := leBytes 32 (txnHeader t) ++ (if t.op == 2 || t.op == 4 then t.data else [])

/-- The transaction on its way, as lane 2 carries it: the exit row of a tile is that of its address. -/
def parcelOf (s : State) (t : Txn) : Parcel :=
  let x : Parcel := ⟨t.id, txnBytes t, [], t.polder, 0, 0, 0, 0, .hub⟩
  match t.goal with
  | .hub => x
  | .tile p => { x with die := pDie p, row := min 15 (((s.logical p).map lY).getD (pY p)), x := pX p, y := pY p, goal := .tile }
  | .stack u col => { x with die := u / 2, row := 0, x := col, y := 0, goal := .north }
  | .pump d col => { x with die := d, row := 15, x := col, y := 16, goal := .south }

/-- The router and input at which what stands at a spot enters the mesh; none: the hub. -/
def Spot.input : Spot → Option (Nat × Side)
  | .hub => none
  | .tile p => some (p, .tile)
  | .stack u col => some (pOf (u / 2) col 0, .north)
  | .pump d col => some (pOf d col 16, .south)

/-! ## Translation (R283, R284) -/

/-- A write of page space whose entry has become invalid is discarded (R284): counted, logged once per transfer, acknowledged. -/
def discardWrite (s : State) (t : Txn) : State :=
  let logged := match s.transfer? t.queue t.xfer with | some x => x.discLogged | none => true
  let s1 := bumpPump (bumpPage (s.setTxns (s.ms.txns.filter (fun x => x.id != t.id))) 7 1) 7 ((t.bytes + 63) / 64)
  let s2 := if logged then s1
    else (s1.modTransfer t.queue t.xfer (fun x => { x with discLogged := true })).event 0x3174 (txnSrc s t).1 (txnSrc s t).2
      ((s.queue? t.queue).map (·.ctx)) []
  ackTransfer s2 t.queue t.xfer

/-- The reservation of a transfer for an entry, which leaves it. -/
def takeReserve (s : State) (t : Txn) (e : Nat) : Option (Reserve × State) :=
  ((s.transfer? t.queue t.xfer).bind (fun y => y.reserved.find? (fun r => r.table == t.at_.table && r.entry == e))).map (fun r =>
    (r, s.modTransfer t.queue t.xfer (fun y => { y with reserved := y.reserved.erase r })))

/-- What a translation of a transaction that is to be issued comes to. -/
inductive Translated where
  | issued (s : State) (t : Txn)
  | stays (s : State)       -- it waits, or is gone

/-- A read of page space takes the entry as it stands (R284); one that finds it invalid reads nothing that is the page's (log 19). -/
def translateRead (s : State) (t : Txn) : Translated :=
  let e := t.at_.addr / 65536
  match s.table? t.at_.table with
  | none => .issued s t
  | some pt =>
    let v := entryOf s pt e
    let s1 := bumpPage (notePoisonEntries s pt [e]) 0 1
    if peValid v then .issued s1 { t with at_ := devDest (peAddr v + t.at_.addr % 65536), page := some (peAddr v / 65536) }
    else .issued s1 t

/-- A write of page space (R283, R284): it waits while the entry is busy; before the first write to a shared entry its page is copied;
it is discarded when the entry is no longer valid. -/
def translateWrite (s : State) (t : Txn) : Translated :=
  let k := t.at_.table
  let e := t.at_.addr / 65536
  match s.table? k with
  | none => .stays (discardWrite s t)
  | some pt =>
    let v := entryOf s pt e
    if !peValid v then .stays (discardWrite (notePoisonEntries s pt [e]) t)
    else if peBusy v then .stays s
    else
      let on (x : State) : Translated :=
        .issued (bumpPage x 0 1) { t with at_ := devDest (peAddr v + t.at_.addr % 65536) }
      match takeReserve s t e with
      | none => on s
      | some (r, s1) =>
        if recRefs (rdRecord s pt (peShare v)) > 1 then .stays (startCopy s1 k pt e true r.tier r.page r.record)
        else on (pushFree s1 pt r.tier r.record r.page)

/-- A transaction is translated as it is issued. -/
def translate (s : State) (t : Txn) : Translated :=
  if t.at_.space != 3 then .issued s t
  else if t.op ≤ 1 then translateRead s t
  else if t.op == 2 then translateWrite s t
  else .issued s t

/-! ## The turns of a pump (R277) -/

/-- The descriptor that a transaction of a transfer carries out. -/
def txnDesc (s : State) (t : Txn) : Option (Nat × List Byte) :=
  match s.queue? t.queue, s.transfer? t.queue t.xfer with
  | some q, some x => some (q.pump, x.desc)
  | _, _ => none

/-- The pump whose request a transaction is, until it is issued: a read, or a write of a FILL. -/
def requestOf (s : State) (t : Txn) : Option Nat :=
  match txnDesc s t with
  | some (p, d) => if !t.sent && !t.arrived && !pdGather d && (t.op ≤ 1 || (t.op == 2 && pdOp d == 2)) then some p else none
  | none => none

/-- The kind of transfer that a round gives cycles to: 0 to tile store or the host, 1 to HBM or LP5X, 2 to another device. -/
def moveKind (d : List Byte) : Nat :=
  match pdDstSpace d with
  | 0 => if (tileAt (pdDst d)).isSome then 0 else 1
  | 1 => 0
  | 2 => 2
  | _ => 1

/-- PUMP_CTL in force for a pump. -/
def pumpCtl (s : State) (p : Nat) : Nat := ((aget? s.ms.pumpCtl p).getD (BitVec.ofNat 64 (8 * 2 + 6 * 2 ^ 5 + 2 * 2 ^ 9))).toNat

/-- The kind that this cycle of a round is for, in Odver-compatible mode. -/
def roundKind (s : State) (p : Nat) : Option Nat :=
  let w := pumpCtl s p
  let i := s.clk % 16
  if !bitOf w 0 then none
  else if i < fld w 1 4 then some 0
  else if i < fld w 1 4 + fld w 5 4 then some 1
  else some 2

/-- A pump issues this request now: one each cycle, of its oldest transfer that has any; in Odver-compatible mode, of the oldest of the
kind whose cycle it is. -/
def pumpTurn (s : State) (p : Nat) (t : Txn) : Bool :=
  let ok (x : Txn) : Bool := requestOf s x == some p &&
    (match roundKind s p with | none => true | some k => (txnDesc s x).any (fun d => moveKind d.2 == k))
  aget? s.ms.issuedAt p != some s.clk && ok t && s.ms.txns.all (fun x => !ok x || t.xfer ≤ x.xfer)

/-- In Odver-compatible mode a request is of up to 256 B: the rest of a longer one stays to be issued. -/
def splitRequest (s : State) (p : Nat) (t : Txn) : State × Txn :=
  if bitOf (pumpCtl s p) 0 && t.bytes > 256 then
    let a := { t with bytes := 256, data := t.data.take 256 }
    let on (x : Dest) : Dest := { x with addr := x.addr + 256 }
    let b := { t with id := s.ms.nextId, bytes := t.bytes - 256, data := t.data.drop 256, at_ := on t.at_, dst := t.dst.map on }
    let n := match t.dst with | some d => d.acks | none => t.at_.acks
    (({ s with ms := { s.ms with
        nextId := s.ms.nextId + 1
        txns := s.ms.txns.flatMap (fun (x : Txn) => if x.id == t.id then [a, b] else [x]) } }).modTransfer t.queue t.xfer
      (fun x => { x with outstanding := x.outstanding + n }), a)
  else (s, t)

/-! ## Into the fabric (R157, R268) -/

/-- The way of a transaction that leaves where it stands: reads and writes to their place, ACK and DATA home. -/
def goalOf (s : State) (t : Txn) : Spot := if t.op ≤ 2 then spotOf s t.at_ t.from_.col else t.home

/-- A transaction is on its way; a write gets its number now, in the order of issue (R269). -/
def markSent (s : State) (t : Txn) : State × Txn :=
  let t1 := { t with id := if t.op == 2 then s.ms.nextId else t.id, goal := goalOf s t, sent := true }
  ({ s with ms := { s.ms with
      nextId := if t.op == 2 then s.ms.nextId + 1 else s.ms.nextId
      txns := s.ms.txns.map (fun x => if x.id == t.id then t1 else x) } }, t1)

/-- A translated transaction enters the fabric at the spot where it stands; between two agents of the hub it only crosses the crossbar.
Left: its queue has no room, or a weir holds it, and this is what that leaves noted. -/
def launch (s : State) (t : Txn) (unit : Nat) (err : Option FlitError) : (State → State) ⊕ State :=
  let (s1, t1) := markSent s t
  let x := parcelOf s1 t1
  match t1.from_.input with
  | some (q, side) =>
    if inputRoom s q side 2 x.flits then
      (match linkCheck s1 q side err (.parcel x) with
       | (s2, some l) => .inr (arriveAt s2 q side 2 l)
       | (s2, none) => .inr s2)
    else .inl (fun y => refusedAt y q side 2 x.flits)
  | none =>
    if t1.goal == .hub then .inr (parcelArrives s1 x)
    else
      let q := pOf x.die (clampCol x.x) 16
      if inputRoom s q .south 2 x.flits then
        match enterDie s1 q 2 (17 + unit) (.parcel x) err with
        | (s2, true) => .inr s2
        | (s2, false) => .inl (fun y => { y with weirs := s2.weirs })
      else .inl (fun y => refusedAt y q .south 2 x.flits)

/-- The k-th memory transaction is issued, or sent on, from the spot where it stands. `flips`: the page-table entry that its translation
reads is read with flipped bits (R265). -/
def enterTxn (s0 : State) (k : Nat) (err : Option FlitError) (flips : Option Flips) : State :=
  match s0.ms.txns[k]? with
  | none => s0
  | some t0 =>
    if t0.arrived || t0.sent then s0
    else
      let req := requestOf s0 t0
      if req.any (fun p => !pumpTurn s0 p t0) then s0
      else
        let s1 := if t0.at_.space == 3 then
            (match s0.table? t0.at_.table with
             | some pt => errorIn s0 [(pt.entryAt (t0.at_.addr / 65536), 8)] flips
             | none => s0)
          else s0
        let (s2, t2) := match req with | some p => splitRequest s1 p t0 | none => (s1, t0)
        match translate s2 t2 with
        | .stays s3 => s3
        | .issued s3 t3 =>
          match launch { s3 with ms := { s3.ms with txns := s3.ms.txns.map (fun x => if x.id == t3.id then t3 else x) } } t3 k err with
          | .inl note => note s1
          | .inr s4 =>
            match req with
            | some p => { s4 with ms := { s4.ms with issuedAt := aput s4.ms.issuedAt p s1.clk } }
            | none => s4

/-- MESSAGE_HOP (R161, R168, R185): `p` names the router, 1,088 + k the ingress of Beytia port k, 1,096 + b gauge block b, and
1,104 + k the k-th memory transaction, which enters the fabric. -/
def execMessageHop (p : BitVec 11) (side : Side) (lane : BitVec 2) (err : Option FlitError) (flips : Option Flips) (s : State) :
    Host.Outcome State Fault Refusal :=
  .next (done s (
    if p.toNat ≥ 1104 then enterTxn s (p.toNat - 1104) err flips
    else if p.toNat ≥ 1096 then
      match (s.gout (p.toNat - 1096)).head? with
      | some m => if p.toNat ≤ 1100 then hopBlock s (p.toNat - 1096) err m else s
      | none => s
    else if p.toNat ≥ 1088 then
      match ((s.lport (p.toNat - 1088)).ingress lane.toNat).head? with
      | some m => hopIngress s (p.toNat - 1088) lane.toNat err m
      | none => s
    else
      match headLoad s p.toNat side lane.toNat with
      | some l => if loadSpreads s p.toNat side l then s else hopHead s p.toNat side lane.toNat err l
      | none => s))

end Sys2Proof.Machine
end

