-- ==== Sys2Proof/Machine/MemRegs.lean ====
section
/-! DEFINITION. The segment registers (R262, R263), the scrubbers of tile stores and memory units (R368), and the write-back of
corrected words (R152). -/

namespace Sys2Proof.Machine

/-! ## Segments -/

/-- Granules that all segments of a tier take from a unit. -/
def State.unitTaken (s : State) (tier j : Nat) : Nat := s.segBase tier 64 j
/-- Granules that a unit holds. -/
def MemUnit.granules (x : MemUnit) : Nat := x.cap * 2 ^ 18

/-- No unit of a tier gives more than it holds. -/
def segsFit (s : State) (tier : Nat) : Bool := (s.popUnits tier).all (fun j => s.unitTaken tier j ≤ (s.munit j).granules)

def segError (s : State) : State := { s with ms := { s.ms with segErr := true } }

/-- SEGMENT_WRITE (R263): a write is ignored, and seg_err set, while a polder exists, for mode 3, for a unit that is not
populated, or when a unit would have to give more than it holds. -/
def execSegmentWrite (lp5x : Bool) (k : BitVec 6) (v : W32) (s : State) : Host.Outcome State Fault Refusal :=
  let tier := b2n lp5x
  let w := fld v.toNat 0 5
  let s1 := { s with ms := { s.ms with segs := awrite 0 s.ms.segs (64 * tier + k.toNat) (BitVec.ofNat 5 w) } }
  .next (done s (
    if !s.polders.isEmpty || fld w 0 2 == 3 || (fld w 0 2 == 2 && !s.memOn (8 * tier + fld w 2 3)) || !segsFit s1 tier then segError s
    else s1))

/-- The segments of a tier as boot sets them (R262): interleaved in ascending order while every unit has room. -/
def defaultSegs (s : State) (tier : Nat) : State :=
  let pop := s.popUnits tier
  let m := pop.length
  let share := (segGranules tier + m - 1) / m
  let n := if m == 0 then 0 else min 64 ((pop.foldl (fun a j => min a ((s.munit j).granules / share)) 64))
  { s with ms := { s.ms with segs := (List.range 64).foldl (fun t k => awrite 0 t (64 * tier + k) (if k < n then 1 else 0)) s.ms.segs } }

/-! ## Scrubbers (R368) -/

/-- The number of a scrubber: a physical tile, 2048 + an HBM3E stack, 2056 + an LP5X port. -/
def scrubNo : ScrubStore → Nat
  | .tile p => p.toNat
  | .hbm u => 2048 + u.toNat
  | .lp5x u => 2056 + u.toNat

/-- Words of 64 bytes that a scrubber walks, 0 for a store that is not in service. -/
def scrubWords (s : State) (x : ScrubStore) : Nat :=
  let mem (u : Nat) : Nat := if s.memOn u then (s.munit u).cap * 2 ^ 24 else 0
  match x with
  | .tile p => if p.toNat < 272 * s.dies && s.unitOn 0 (pDie p.toNat) then 2 ^ 18 else 0
  | .hbm u => mem u.toNat
  | .lp5x u => mem (8 + u.toNat)

/-- Hours in `HEALTH_SCRUB` for a scrubber. -/
def scrubReg (s : State) (x : ScrubStore) : Nat :=
  let w := (s.reg 0x200020).toNat
  match x with
  | .tile _ => fld w 0 8
  | .hbm _ => fld w 8 8
  | .lp5x _ => fld w 16 8

/-- One hour in core cycles. -/
def hourCycles : Nat := 3600 * 1600000000

/-- Position, start and period of the present pass. -/
def scrubPass (s : State) (x : ScrubStore) : Nat × Nat × Nat :=
  let k := scrubNo x
  (agetD s.health.scrubPos k 0, agetD s.health.scrubStart k 0, agetD s.health.scrubHours k 24 * hourCycles)

def setPass (s : State) (x : ScrubStore) (pos start hours : Nat) : State :=
  let k := scrubNo x
  { s with health := { s.health with
      scrubPos := aput s.health.scrubPos k pos
      scrubStart := aput s.health.scrubStart k start
      scrubHours := aput s.health.scrubHours k hours } }

/-- Device address of a local address of a memory unit; 0 where no segment maps it. -/
def unitAddr (s : State) (u l : Nat) : Nat :=
  let tier := u / 8
  let g := l / 4096
  match (List.range 64).find? (fun k => s.segBase tier k u ≤ g && g < s.segBase tier k u + s.segTakes tier k u) with
  | none => 0
  | some k =>
    let i := g - s.segBase tier k u
    let pop := s.popUnits tier
    let og := if s.segMode tier k == 1 then i * pop.length + (pop.findIdx (· == u)) else i
    (if tier == 0 then 0 else lpMapBase) + k * segBytesOf tier + og * 4096 + l % 4096

/-- The words that a tile's scrubber reads are counted (`TDBG_TSC[6]`). -/
def countScrub (s : State) (x : ScrubStore) : State :=
  match x with
  | .tile p => s.bumpTile p.toNat (bankTsc 6) 1
  | _ => s

/-- What a scrubber finds at a word is handled as at any other read (R152, R265, R369). -/
def scrubWord (s : State) (x : ScrubStore) (w : Nat) (flips : Option Flips) : State :=
  match flips with
  | none => countScrub s x
  | some y =>
    match x with
    | .tile p => otherRead (countScrub s x) p.toNat w y.data y.check y.marks
    | .hbm u => unitRead s u.toNat (64 * w) (unitAddr s u.toNat (64 * w)) y.data y.check
    | .lp5x u => unitRead s (8 + u.toNat) (64 * w) (unitAddr s (8 + u.toNat) (64 * w)) y.data y.check

/-- The arbiter grants the scrubber of a memory unit its next word: it is the last requester, of class 3 (R264, R267). A tile's scrubber
asks no arbiter of memory. -/
def scrubGranted (s : State) (x : ScrubStore) (w : Nat) : Bool :=
  let ask (a : Nat) : Bool := memGrant s a [(memRequesters a - 1, 3)] == some (memRequesters a - 1, 3)
  match x with
  | .tile _ => true
  | .hbm u => ask (32 * u.toNat + 64 * w / 256 % 32)
  | .lp5x u => ask (256 + 8 + u.toNat)

def noteScrubGrant (s : State) (x : ScrubStore) (w : Nat) : State :=
  match x with
  | .tile _ => s
  | .hbm u => noteMemGrant s (32 * u.toNat + 64 * w / 256 % 32) 12 3
  | .lp5x u => noteMemGrant s (256 + 8 + u.toNat) 10 3

/-- SCRUB (R368): the scrubber reads its next word once that is due, reads being spread evenly over the period; after a
full pass the next one starts at the period's end, with the period then set. -/
def execScrub (x : ScrubStore) (flips : Option Flips) (s : State) : Host.Outcome State Fault Refusal :=
  let words := scrubWords s x
  let (pos, start, period) := scrubPass s x
  .next (done s (
    if words == 0 || scrubReg s x == 0 then s
    else if pos < words then
      (if pos * period ≤ (s.clk - start) * words && scrubGranted s x pos then
        scrubWord (setPass (noteScrubGrant s x pos) x (pos + 1) start (agetD s.health.scrubHours (scrubNo x) 24)) x pos flips
       else s)
    else if start + period ≤ s.clk && scrubGranted s x 0 then
      scrubWord (setPass (noteScrubGrant s x 0) x 1 (start + period) (scrubReg s x)) x 0 flips
    else s))

/-- SCRUB_OVERRUN (R368): the period ends before the pass does; event 0x1302, and the next pass begins. -/
def execScrubOverrun (x : ScrubStore) (s : State) : Host.Outcome State Fault Refusal :=
  let words := scrubWords s x
  let (pos, start, period) := scrubPass s x
  .next (done s (
    if words != 0 && scrubReg s x != 0 && pos < words && start + period ≤ s.clk then
      (setPass s x 0 (start + period) (scrubReg s x)).event 0x1302
        (match x with | .tile _ => 9 | _ => 12) (match x with | .tile p => p.toNat | .hbm u => u.toNat | .lp5x u => 8 + u.toNat) none []
    else s))

/-- CORRECTED_WRITE_BACK (R152): the oldest corrected word of a tile store is written back; its data is as it was
delivered. -/
def execCorrectedWriteBack (p : BitVec 11) (s : State) : Host.Outcome State Fault Refusal :=
  .next (done s (
    if (s.tile p.toNat).wbPending.isEmpty then s
    else (s.modTile p.toNat (fun t => { t with wbPending := t.wbPending.drop 1 })).bumpTile p.toNat (bankTsc 7) 1))

end Sys2Proof.Machine
end

