-- ==== Sys2Proof/Machine/Registers.lean ====
section
/-! DEFINITION. Registers of the hub as they are read: identity (Table 12.2), health and counters (Tables 7.8, 8.5, 9.10, 10.7,
11.9, 15.13, 17.12). -/

namespace Sys2Proof.Machine

/-- Healthy spares of a field die (R23). -/
def healthySpares (s : State) (d : Nat) : Nat :=
  16 - (s.part.fusedOut.filter (fun p => pDie p == d)).length -
    (s.tiles.filter (fun e => pDie e.1 == d && e.2.retired)).length

/-- `ID_PART`, `ID_STATUS`, `ID_FW`, `ID_CAPS` (Table 12.2). -/
def idPart (s : State) : Nat := s.family + b2n s.part.debugOpen * 2 ^ 20
def idStatus (s : State) : Nat :=
  b2n s.ready + b2n s.sec.awaitFw * 2 + b2n s.devFault * 4 + b2n s.sec.error * 8 + s.power.level % 256 * 16
def idFw (s : State) : Nat := if s.ready then s.sec.fwVersion.toNat else 0
def idCaps (s : State) : Nat := s.ntiles + 64 * 2 ^ 11 + 8 * 2 ^ 18

/-- `TIDE_STAT` (Table 13.7): the source in use, and the flags. -/
def tideInUse (s : State) : Nat := if s.tide.freeRun || s.tide.freeRunning then 2 else if s.tide.link then 1 else 0
def tideStat (s : State) : Nat :=
  tideInUse s + b2n s.tide.freeRunning * 4 + b2n s.tide.present * 8 + b2n s.tide.upstreamFree * 16 +
  s.tide.sched.length % 2048 * 32

/-- `PWR_TEMP[i]`, signed in 1/16 degree. -/
def tempAt (s : State) (i : Nat) : Option Int := (aget? s.power.temps i).map (fun t => sext t.toNat 16)
/-- Index of the hottest `PWR_TEMP`; the lowest of several. -/
def hottest (s : State) : Nat :=
  ((List.range 13).foldl (fun (x : Nat × Option Int) i =>
    match tempAt s i, x.2 with
    | some t, some m => if t > m then (i, some t) else x
    | some t, none => (i, some t)
    | none, _ => x) (0, none)).1

def pwrStat (s : State) : Nat := s.power.skip + b2n s.power.droop * 64 + hottest s * 128
def pwrTemp (s : State) (i : Nat) : Nat :=
  match aget? s.power.temps i with | some t => t.toNat + 2 ^ 16 | none => 0
/-- `PWR_RAIL[r]`: mv, and current with its valid bit above it. -/
def pwrRail (s : State) (r : Nat) : Nat :=
  match aget? s.power.rails r with | some (mv, c) => mv.toNat + c.toNat * 2 ^ 16 | none => 0
/-- `PWR_PKG`: watts over the valid rails, from mV and 0.1 A. -/
def pwrPkg (s : State) : Nat :=
  (s.power.rails.foldl (fun a e => if e.2.2.getLsbD 15 then a + e.2.1.toNat * (e.2.2.toNat % 2 ^ 15) else a) 0) / 10000 % 65536

def ctrOf (t : Assoc Ctr) (k : Nat) : Nat := (agetD t k Ctr.zero).word

def scrStat (s : State) (d : Nat) : Nat :=
  if d ≥ s.dies then 0
  else
    let x := s.health.scr.getD d Screener.reset
    x.pos.toNat + b2n (x.step == .running) * 2 ^ 9 + healthySpares s d % 32 * 2 ^ 10 +
    b2n (x.step == .waitMove || x.step == .waitReturn) * 2 ^ 15 + x.rounds.toNat * 2 ^ 16

def scrCtl (s : State) : Nat := s.health.duty % 256 + s.health.suspect % 16 * 256 + b2n s.health.tideMode * 4096
def healthReplica (s : State) : Nat :=
  b2n s.health.expelled + s.health.lastGroup % 16 * 2 + b2n s.health.lastMajority * 32

def present (s : State) (b : Nat) : Bool := b == 4 || b < s.dies

def gaugePool (s : State) (b : Nat) : Nat :=
  if present s b then (freeGauges s b).length % 8192 + (8192 - agetD s.gauges.waitersUsed b 0) * 2 ^ 13 else 0

def queueStat (s : State) (q w : Nat) : Nat :=
  match s.queue? q with
  | none => 0
  | some x =>
    match w with
    | 0 => 1 + b2n x.halted * 2 + x.code % 16 * 4 + x.entry % 4096 * 64 + b2n x.poisonSeen * 2 ^ 18
    | 1 => x.consumed.toNat
    | 2 => x.retired.toNat
    | _ => x.discarded.toNat

def memPort (s : State) (u : Nat) : Nat := if s.memOn u then (s.munit u).cap % 256 + 256 else 0
def memErr (s : State) (u : Nat) : Nat := (s.munit u).corr.toNat + (s.munit u).uncorr.toNat * 2 ^ 32

/-- The 32-bit word at an offset, a multiple of 4, of the health and counters block. -/
def healthWord (s : State) (o : Nat) : Nat :=
  let snap (i : Nat) : Nat := (s.gauges.snap.getD i 0).toNat
  let rw (off : Nat) : Nat := (s.reg (0x200000 + off)).toNat
  if o < 8 then halfOf s.cycles.toNat o
  else if o == 0x10 then rw 0x10
  else if o == 0x20 then rw 0x20
  else if o == 0x30 then scrCtl s
  else if 0x40 ≤ o && o < 0x60 then halfOf (scrStat s ((o - 0x40) / 8)) (o % 8)
  else if o == 0x60 then s.health.pack % 2 ^ 32
  else if o == 0x68 then healthReplica s
  else if 0x80 ≤ o && o < 0xC0 then halfOf (ctrOf s.health.sdc ((o - 0x80) / 8)) (o % 8)
  else if o == 0x1000 then rw 0x1000
  else if o == 0x1004 then rw 0x1004
  else if o == 0x2000 then s.gauges.sel.toNat
  else if o == 0x2004 then fld (snap 0) 0 32
  else if o == 0x2008 then fld (snap 1) 0 32
  else if 0x2010 ≤ o && o < 0x2018 then halfOf (snap 2) (o % 8)
  else if 0x2018 ≤ o && o < 0x2020 then halfOf (snap 3) (o % 8)
  else if 0x2100 ≤ o && o < 0x2500 then fld (snap (4 + (o - 0x2100) / 4)) 0 32
  else if 0x2800 ≤ o && o < 0x2940 then halfOf (ctrOf s.gauges.stat ((o - 0x2800) / 8)) (o % 8)
  else if 0x2A00 ≤ o && o < 0x2A14 then gaugePool s ((o - 0x2A00) / 4)
  else if o == 0x3000 then rw 0x3000
  else if o == 0x3004 then s.census? (fld (rw 0x3000) 0 10) (fld (rw 0x3000) 10 3)
  else if 0x3010 ≤ o && o < 0x3050 then halfOf (ctrOf s.ldrStat ((o - 0x3010) / 8)) (o % 8)
  else if 0x3100 ≤ o && o < 0x3300 then halfOf (ctrOf s.condSkip ((o - 0x3100) / 8)) (o % 8)
  else if o == 0x4000 then b2n (!s.polders.isEmpty) + b2n s.ms.segErr * 2
  else if o == 0x4004 then s.ms.unpop.toNat
  else if 0x4010 ≤ o && o < 0x4050 then memPort s ((o - 0x4010) / 4)
  else if 0x4080 ≤ o && o < 0x4100 then halfOf (memErr s ((o - 0x4080) / 8)) (o % 8)
  else if 0x5000 ≤ o && o < 0x50A0 then (if s.pumpPresent ((o - 0x5000) / 4) then rw o else 0)
  else if 0x5100 ≤ o && o < 0x5140 then halfOf (ctrOf s.ms.pumpStat ((o - 0x5100) / 8)) (o % 8)
  else if 0x6000 ≤ o && o < 0x7000 then queueStat s ((o - 0x6000) / 16) (o % 16 / 4)
  else if 0x7000 ≤ o && o < 0x7040 then halfOf (ctrOf s.ms.pageStat ((o - 0x7000) / 8)) (o % 8)
  else if o == 0x7800 then pwrStat s
  else if o == 0x7804 then rw 0x7804
  else if o == 0x7808 then s.power.cause % 4 + s.power.input % 16 * 4
  else if 0x7810 ≤ o && o < 0x7818 then halfOf s.power.skipCnt.word (o % 8)
  else if 0x7840 ≤ o && o < 0x7874 then pwrTemp s ((o - 0x7840) / 4)
  else if 0x7880 ≤ o && o < 0x78B8 then pwrRail s ((o - 0x7880) / 4)
  else if o == 0x78C0 then pwrPkg s
  else 0

/-- The health and counters block, offsets 0x0000-0x7FFF. -/
def healthImage (s : State) : List Byte := (List.range 0x2000).flatMap (fun i => leBytes 4 (healthWord s (4 * i)))

/-- The readable registers of a debug window as a 16 KiB image, `TDBG_CTL` read as zero (Table 12.8). -/
def windowImage (s : State) (p : Nat) : List Byte :=
  (List.range 0x1000).flatMap (fun i => leBytes 4 (if i == 1 then 0 else windowWord s p (4 * i)))

end Sys2Proof.Machine
end

