-- ==== Sys2Proof/Machine/Replies.lean ====
section
/-! DEFINITION. Replies of a ring (12, R301, R303, R314): their bytes, their place and their vector. -/

namespace Sys2Proof.Machine

/-- The host link carries accesses. -/
def hostUp (s : State) : Bool := s.host.link != .down

/-- The 32 bytes of reply j of a ring with C completion entries (Table 12.6). -/
def replyBytes (x : Reply) (j c : Nat) : List Byte :=
  leBytes 2 x.opcode ++ leBytes 1 x.status ++ leBytes 1 ((j / c + 1) % 2 + b2n x.purged * 2 + b2n x.late * 4) ++
  leBytes 2 x.seqNo ++ leBytes 1 x.ctx ++ leBytes 1 0 ++ leBytes 8 x.r0.toNat ++ leBytes 8 x.r1.toNat ++ leBytes 8 x.r2.toNat

/-- The vector of a ring's replies (Table 12.13). -/
def ringVector (r : Nat) : Nat := if r < 64 then 8 + r else 0

/-- A reply raises its ring's vector (R314). -/
def Reply.raises (x : Reply) : Bool := x.irq || !(x.status == stOk || x.status == stDeferred || x.status == stSkipped)

/-- A request for a ring's vector: sent, and an interval begun; within an interval it waits for the end (R314). -/
def requestVector (s : State) (r : Nat) : State :=
  let x := s.ring r
  if x.coalesce == 0 then s.vector (ringVector r)
  else if x.vecDue.isSome then s.modRing r (fun g => { g with vecWant := true })
  else (s.vector (ringVector r)).modRing r (fun g => { g with vecDue := some (s.clk + 1024 * x.coalesce) })

/-- The reply that is next in a ring's order: a halted ring writes none but the `DEVICE_FAULT` replies (R303, R363). -/
def dueReply (s : State) (r : Nat) : Option Reply :=
  let x := s.ring r
  if x.halted then x.replies.find? (fun y => s.devFault && y.status == stDeviceFault) else x.replies.head?

/-- The reply that a ring can write now. -/
def nextReply (s : State) (r : Nat) : Option Reply :=
  if (aget? s.rings r).isSome && hostUp s && (s.ring r).unread < (s.ring r).cplEntries then dueReply s r else none

/-- The handle of an IMAGE_STAGE is usable once its reply is written (R309). -/
def readyImage (r : Nat) (y : Reply) : List Image → List Image
  | [] => []
  | i :: t => if i.awaits == some (r, y.seqNo) && i.ctx == y.ctx then { i with awaits := none } :: t else i :: readyImage r y t

/-- A reply is written at the ring's place, and its vector is asked for (R301, R314). -/
def writeReply (s : State) (r : Nat) (y : Reply) : State :=
  let x := s.ring r
  let j := x.cplTail.toNat
  let s1 := s.hostWrite (x.cpl.toNat + 32 * (j % x.cplEntries)) (replyBytes y j x.cplEntries) false
  let s2 := s1.modRing r (fun g => { g with replies := g.replies.erase y, cplTail := g.cplTail + 1 })
  let s3 := if y.opcode == 0x30 && y.status == stOk then { s2 with images := readyImage r y s2.images } else s2
  if y.raises then requestVector s3 r else s3

/-- Up to `n` finished replies of a ring are written, as far as the completion ring has room. -/
def flushReplies (r : Nat) : Nat → State → State
  | 0, s => s
  | n + 1, s =>
    match nextReply s r with
    | none => s
    | some y => flushReplies r n (writeReply s r y)

end Sys2Proof.Machine
end

