-- ==== Sys2Proof/Machine/RingCmds.lean ====
section
/-! DEFINITION. Ring commands of the command processor itself (12, 14): NOP, QUERY, polders, weirs, contexts, gauges, the log,
counters and FABRIC_RESET. -/

namespace Sys2Proof.Machine

/-- NOP. -/
def execNop (ring : Ring) (s : State) : Host.Outcome State Fault Refusal :=
  .next (done s (ringCmd s ring 0x01 none (fun s r p => checked s r p [] (answer s r p stOk s.tideCount.toNat 0 0))))

/-! ## QUERY (Table 12.10) -/

/-- Bytes of a tier's populated units. -/
def tierBytes (s : State) (tier : Nat) : Nat := ((s.popUnits tier).map (fun u => (s.munit u).cap * 2 ^ 30)).sum

def queryRecord (s : State) : List Byte :=
  padTo 256 (
    leBytes 2 s.family ++ leBytes 1 0 ++ leBytes 1 s.power.level ++ leBytes 2 s.deviceId ++
    leBytes 1 (maskOf 8 (fun p => (s.polder? p).isSome)) ++ leBytes 1 s.ctxs.length ++ leBytes 4 (idFw s) ++
    (List.range 4).flatMap (fun d => leBytes 1 (if d < s.dies then healthySpares s d else 0xFF)) ++
    leBytes 1 (maskOf 4 (fun d => d < s.dies && s.unitOn 0 d)) ++ leBytes 1 (maskOf 8 s.memOn) ++
    leBytes 1 (maskOf 8 (fun u => s.memOn (8 + u))) ++ leBytes 1 (maskOf 8 (fun k => (s.lport k).up)) ++
    leBytes 1 (tideStat s % 16) ++ leBytes 1 (b2n s.health.expelled + b2n s.sec.error * 2 + b2n s.part.debugOpen * 4) ++
    leBytes 2 0 ++ leBytes 8 s.tideCount.toNat ++ leBytes 8 (tierBytes s 0) ++ leBytes 8 (tierBytes s 1))

/-- QUERY. -/
def execQuery (ring : Ring) (s : State) : Host.Outcome State Fault Refusal :=
  .next (done s (ringCmd s ring 0x02 none (fun s r p =>
    checked s r p [(8, 8, 0), (16, 1, 1)] (
      let host := bitOf (p.b 16 1) 0
      if !mayReach s r host (p.b 8 8) 256 then refuse s r p stDenied
      else answer (cmdWrite s ring p host (p.b 8 8) (queryRecord s)) r p stOk s.power.level 0 0))))

/-! ## Polders and weirs (R344-R351) -/

/-- Region entries of a PARTITION_CREATE. -/
def pcRects (p : Pkt) : List (List Byte) := (List.range (p.b 9 1)).map (fun i => leBytes 8 (p.b (40 + 8 * i) 8))

def pcFields (p : Pkt) : Fields :=
  [(8, 1, 7), (9, 1, 31), (10, 1, 0), (16, 8, 0), (24, 8, 0)] ++ (List.range (min 16 (p.b 9 1))).map (fun i => (40 + 8 * i, 8, 0))

/-- Segments of a mask that are unpopulated. -/
def segsUnpopulated (s : State) (tier mask : Nat) : Bool := (List.range 64).any (fun k => bitOf mask k && s.segMode tier k == 0)

/-- PARTITION_CREATE (R344-R346). -/
def execPartitionCreate (ring : Ring) (s : State) : Host.Outcome State Fault Refusal :=
  .next (done s (ringCmd s ring 0x10 none (fun s r p =>
    checked s r p (pcFields p) (
      let k := p.b 8 1
      let rects := pcRects p
      let tiles := rects.flatMap regionTiles
      let ports := p.b 10 1
      let hseg := p.b 16 8
      let lseg := p.b 24 8
      if rects.isEmpty || rects.length > 16 then refuse s r p stBadParam
      else if (s.polder? k).isSome then refuse s r p stBusy
      else if !rects.all regionWellFormed || (tiles.foldl insNat []).length != tiles.length || segsUnpopulated s 0 hseg ||
          segsUnpopulated s 1 lseg then refuse s r p stBadParam
      else if tiles.any (fun n => !s.tileOn n) || (List.range 8).any (fun i => bitOf ports i && i ≥ s.nports) then
        refuse s r p stUnitAbsent
      else if s.polders.any (fun e => tiles.any e.2.tiles.contains || e.2.hseg.toNat &&& hseg != 0 || e.2.lseg.toNat &&& lseg != 0 ||
          e.2.ports.toNat &&& ports != 0) then refuse s r p stBusy
      else
        let x : Polder := { rects := rects.map (fun e => BitVec.ofNat 64 (leNat e)), tiles := tiles.foldl insNat []
                            hseg := BitVec.ofNat 64 hseg, lseg := BitVec.ofNat 64 lseg, ports := BitVec.ofNat 8 ports }
        let s1 := { s with polders := aput s.polders k x }
        refuse ((List.range 6).foldl (fun y w => y.setWeir k w { Weir.reset with wait := (s.weir k w).wait }) s1) r p stOk))))

/-- PARTITION_DESTROY (R347). -/
def execPartitionDestroy (ring : Ring) (s : State) : Host.Outcome State Fault Refusal :=
  .next (done s (ringCmd s ring 0x11 none (fun s r p =>
    checked s r p [(8, 1, 7)] (
      let k := p.b 8 1
      if (s.polder? k).isNone then refuse s r p stBadParam
      else if s.ctxs.any (fun e => e.2.polder == k) then refuse s r p stBusy
      else
        let s1 := { s with polders := adel s.polders k }
        refuse ((List.range 6).foldl (fun y w => y.setWeir k w { s.weir k w with rate := 256, tokens := [] }) s1) r p stOk))))

/-- WEIR_SET (R351). -/
def execWeirSet (ring : Ring) (s : State) : Host.Outcome State Fault Refusal :=
  .next (done s (ringCmd s ring 0x12 none (fun s r p =>
    checked s r p [(8, 1, 7), (9, 1, 0), (10, 2, 0), (12, 4, 0)] (
      let k := p.b 8 1
      let w := p.b 9 1
      let rate := p.b 10 2
      let burst := p.b 12 4
      if (s.polder? k).isNone || w > 5 || rate > 256 || burst < 4 || burst > 1048576 then refuse s r p stBadParam
      else refuse (s.setWeir k w { s.weir k w with rate := rate, burst := burst, tokens := [] }) r p stOk))))

/-! ## Contexts (R299, R311, R352, R353) -/

/-- The placement rules of a ring (R299); a user ring's parts lie in its polder's shares. -/
def ringPlaced (s : State) (polder : Option Nat) (base line cpl cmdLog2 : Nat) : Bool :=
  let bytes := 64 * 2 ^ cmdLog2
  base % 4096 == 0 && line % 64 == 0 && cpl % 4096 == 0 && s.inMemory base bytes && s.inMemory line 64 &&
  (match polder with
   | some k => s.polderHolds k base bytes && s.polderHolds k line 64
   | none => true)

/-- CONTEXT_CREATE (R299, R352). -/
def execContextCreate (ring : Ring) (s : State) : Host.Outcome State Fault Refusal :=
  .next (done s (ringCmd s ring 0x20 none (fun s r p =>
    checked s r p [(8, 1, 63), (9, 1, 7), (10, 1, 0), (11, 1, 0), (12, 2, 0), (16, 8, 0), (24, 8, 0), (32, 8, 0)] (
      let c := p.b 8 1
      let k := p.b 9 1
      let cl := p.b 10 1
      let kl := p.b 11 1
      if (s.polder? k).isNone || cl < 6 || cl > 16 || kl < 6 || kl > 16 || !ringPlaced s (some k) (p.b 16 8) (p.b 24 8) (p.b 32 8) cl then
        refuse s r p stBadParam
      else if (aget? s.ctxs c).isSome then refuse s r p stBusy
      else
        let g : RingSt := { RingSt.reset with
          base := BitVec.ofNat 48 (p.b 16 8), line := BitVec.ofNat 48 (p.b 24 8), cpl := BitVec.ofNat 64 (p.b 32 8)
          cmdLog2 := cl, cplLog2 := kl, coalesce := p.b 12 2, enabled := true }
        refuse ({ s with ctxs := aput s.ctxs c ⟨k, 0, 0⟩ }.setRing c g) r p stOk))))

/-- Every other accepted command of a context ends with DENIED (R311): those of its ring, and those of the privileged ring
that act on it. -/
def denyCommands (s : State) (c : Nat) : State :=
  let s1 := s.ringNos.foldl (fun x r =>
    (x.ring r).accepted.foldl (fun y k =>
      let mine := if r == privRing then (k.opcode == 0x22 && k.aux == [c]) || ([0x32, 0x41, 0x58, 0x59, 0x5A, 0x5B, 0x61].contains k.opcode && k.ctx == c)
        else r == c && k.opcode != 0x40
      if mine then y.complete r k (k.reply stDenied 0 0 0) else y) x) s
  { s1 with
    saves := s1.saves.filter (fun x => x.ctx != c)
    ms := { s1.ms with jobs := s1.ms.jobs.filter (fun j => j.cmd.ctx != c) }
    links := { s1.links with forwards := s1.links.forwards.filter (fun f => f.cmd.ctx != c) } }

/-- The hold that a mid-section save put on a context's tiles ends. -/
def releaseSaved (s : State) (c : Nat) : State :=
  { s with tiles := s.tiles.map (fun e =>
      if e.2.sect.ctx.toNat == c then (e.1, e.2.modSect (fun q => { q with saving := false, rerun := false })) else e) }

/-- CONTEXT_DESTROY (R311, R353): runs end purged, other commands end with DENIED, the replies are written as far as the
completion ring has room, the ring halts, and once the switches of its regions have ended the context is removed. -/
def execContextDestroy (ring : Ring) (s : State) : Host.Outcome State Fault Refusal :=
  .next (done s (ringCmd s ring 0x21 none (fun s r p =>
    checked s r p [(8, 1, 63)] (
      let c := p.b 8 1
      if (aget? s.ctxs c).isNone then refuse s r p stBadParam
      else if !s.ctxLive c then refuse s r p stBusy
      else
        let (s1, runs) := stopSections s c none
        let s3 := flushReplies c 1024 (releaseSaved (denyCommands s1 c) c)
        let s2 := s3.modRing c (fun x => { x with halted := true, saving := false })
        settleStops (accept s2 r p (c :: runs))))))

/-- Sequencers of the context's running sections halt before their next step; one that waits in WAIT_GAUGE gives the wait
up and will run the step again (R357). -/
def holdForSave (s : State) (c : Nat) : State :=
  let tiles := savedTiles s c
  let s2 := dropWaiters s (fun w => w.hub || !tiles.contains w.tile.toNat)
  tiles.foldl (fun x n => x.modTile (x.phys n) (fun t =>
    let waits := t.seq.gwait.isSome
    { t with
      seq := { t.seq with gwait := none, st := if t.seq.st == .waitGauge then .running else t.seq.st }
      sect := { t.sect with saving := true, rerun := waits } })) s2

/-- CONTEXT_SAVE (R356, R357). -/
def execContextSave (ring : Ring) (s : State) : Host.Outcome State Fault Refusal :=
  .next (done s (ringCmd s ring 0x22 none (fun s r p =>
    checked s r p [(8, 1, 63), (9, 1, 1), (16, 8, 0), (24, 8, 0)] (
      let c := p.b 8 1
      let mid := bitOf (p.b 9 1) 0
      if !s.ctxLive c || (s.memAt (p.b 16 8)).isNone then refuse s r p stBadParam
      else
        let waits := if mid then [] else (s.runs.filter (fun x => x.ctx == c)).map (·.id)
        let x : Save := { ring := r, cmd := p.cmd [c], ctx := c, mid := mid, addr := p.b 16 8, cap := p.b 24 8, waits := waits
                          due := s.clk + 160000000 }
        let s1 := { accept s r p [c] with saves := s.saves ++ [x] }
        if mid then holdForSave s1 c else settleSaves (s1.modRing c (fun g => { g with saving := true }))))))

/-- The drain of a mid-section save has ended (R357 steps 2 and 3). -/
def drained (s : State) (c : Nat) : Bool :=
  let runs := savedRuns s c
  runs.all (fun r => (s.region r).all (fun n => s.censusLive n r.gen == 0)) &&
  !treePending s (ownedTrees s (runs.map (·.id))) &&
  (savedTiles s c).all (fun n =>
    let t := s.ltile n
    t.fabSpillUsed == 0 && t.condSpillUsed == 0 && t.queues.all (fun e => e.2.isEmpty) && t.egress.isEmpty && t.gq.isEmpty)

/-- MID_SECTION_DRAIN_END (R357): the record is written, and the sequencers resume. -/
def execMidSectionDrainEnd (ctx : BitVec 6) (s : State) : Host.Outcome State Fault Refusal :=
  let c := ctx.toNat
  .next (done s (
    match s.saves.find? (fun x => x.mid && x.ctx == c) with
    | some x => if drained s c then releaseSaved (finishSave s x) c else s
    | none => s))

/-- MID_SECTION_DRAIN_TIMEOUT (R357). -/
def execMidSectionDrainTimeout (ctx : BitVec 6) (s : State) : Host.Outcome State Fault Refusal :=
  let c := ctx.toNat
  .next (done s (
    match s.saves.find? (fun x => x.mid && x.ctx == c) with
    | some x =>
      if x.due ≤ s.clk then
        (releaseSaved { s with saves := s.saves.filter (fun y => !decide (y = x)) } c).complete x.ring x.cmd (x.cmd.reply stTimeout 0 0 0)
      else s
    | none => s))

/-! ## Gauges (R197, R310) -/

/-- A ring command that reads a virtual gauge's words (R207): one whose words are lost is accepted, and ends with the job fault. -/
def gaugeCommand (s : State) (r : Nat) (p : Pkt) (ecc : Ecc) (go : State → State) : State :=
  gaugeEccOf (if ecc == .uncorrectable then accept s r p [] else s) p.ctx (p.b 8 2) ecc none go

/-- GAUGE_SET. -/
def execGaugeSet (ring : Ring) (ecc : Ecc) (s : State) : Host.Outcome State Fault Refusal :=
  .next (done s (ringCmd s ring 0x60 none (fun s r p =>
    checked s r p [(8, 2, 0x7FF), (10, 1, 1), (12, 4, 0)] (
      gaugeCommand s r p ecc (fun s0 =>
        match s0.gaugeOf p.ctx (p.b 8 2) with
        | none => refuse s0 r p stBadParam
        | some g =>
          let s1 := applySignal s0 g (p.b 10 1 == 1) (BitVec.ofNat 32 (p.b 12 4)) 0 0 true
          answer s1 r p stOk (s1.gauge g).value.toNat 0 0)))))

/-- GAUGE_READ. -/
def execGaugeRead (ring : Ring) (ecc : Ecc) (s : State) : Host.Outcome State Fault Refusal :=
  .next (done s (ringCmd s ring 0x61 none (fun s r p =>
    checked s r p [(8, 2, 0x7FF), (10, 1, 1), (12, 4, 0), (16, 4, 0)] (
      gaugeCommand s r p ecc (fun s0 =>
        match s0.gaugeOf p.ctx (p.b 8 2) with
        | none => refuse s0 r p stBadParam
        | some g =>
          if p.b 10 1 == 0 then answer s0 r p stOk (s0.gauge g).value.toNat (physWord g).toNat 0
          else
            hubWait (accept s0 r p [s0.ms.nextId % 65536]) 0 0 0 p.ctx (p.b 8 2) (BitVec.ofNat 32 (p.b 12 4)) (1024 * p.b 16 4))))))

/-- The gauge at which a GAUGE_READ is registered. -/
def readAt (s : State) (h : HubWait) : Option Nat :=
  (s.gauges.gauges.find? (fun e => e.2.waiters.any (fun w => w.hub && w.unit.toNat == h.unit && w.hubId == h.tag))).map (·.1)

/-- GAUGE_READ_TIMEOUT (R310): the limit, which counts from the first WAIT, expires; no event, and no job fault. A waiter that is
registered replies with the gauge's value, one that waits to send again with that of the last retry WAKE (R200). -/
def execGaugeReadTimeout (ring : Ring) (sequence : BitVec 16) (s : State) : Host.Outcome State Fault Refusal :=
  let r := ringNo ring
  .next (done s (
    match (s.ring r).accepted.find? (fun c => c.opcode == 0x61 && c.seqNo == sequence.toNat) with
    | none => s
    | some c =>
      match s.gauges.hubWaits.find? (fun h => h.what == 0 && c.aux == [h.tag]) with
      | none => s
      | some h =>
        if (limitLeft h.limit (s.clk - h.start)).isSome then s
        else
          match readAt s h with
          | some g =>
            ((dropHubWaits s (· == h)).gaugeStat (g / 4096) 3 1).complete r c
              (c.reply stTimeout (s.gauge g).value.toNat (physWord g).toNat 0)
          | none =>
            if h.retryAt.isSome then (dropHubWaits s (· == h)).complete r c (c.reply stTimeout h.lastValue.toNat h.lastPhys.toNat 0)
            else s))

/-! ## The log, the counters, the fabric -/

/-- LOG_READ (R365, R391): the oldest entries, oldest first; one that its SRAM has lost is skipped. -/
def execLogRead (ring : Ring) (s : State) : Host.Outcome State Fault Refusal :=
  .next (done s (ringCmd s ring 0x80 none (fun s r p =>
    checked s r p [(8, 1, 1), (16, 8, 0), (24, 2, 0)] (
      let n := p.b 24 2
      if n == 0 || n > 4096 then refuse s r p stBadParam
      else
        let bad := (s.log.entries.filter (·.bad)).length
        let good := s.log.entries.filter (fun e => !e.bad)
        let out := good.reverse.take n
        let s1 := { s with log := { s.log with entries := good, lost := sat32 s.log.lost bad } }
        answer (cmdWrite s1 ring p (bitOf (p.b 8 1) 0) (p.b 16 8) (out.flatMap (·.bytes))) r p stOk out.length s.log.overwrite.toNat 0))))

/-- COUNTERS_READ (Table 12.8). -/
def execCountersRead (ring : Ring) (s : State) : Host.Outcome State Fault Refusal :=
  .next (done s (ringCmd s ring 0x81 none (fun s r p =>
    checked s r p [(8, 1, 1), (9, 1, 1), (10, 2, 0), (16, 8, 0)] (
      let t := p.b 10 2
      let host := bitOf (p.b 9 1) 0
      if p.b 8 1 == 0 && t ≥ 1088 then refuse s r p stBadParam
      else if p.b 8 1 == 0 && t ≥ 272 * s.dies then refuse s r p stUnitAbsent
      else
        let out := if p.b 8 1 == 0 then windowImage s t else healthImage s
        answer (cmdWrite s ring p host (p.b 16 8) out) r p stOk out.length 0 0))))

/-- FABRIC_RESET (R311). -/
def execFabricReset (ring : Ring) (s : State) : Host.Outcome State Fault Refusal :=
  .next (done s (ringCmd s ring 0xF0 none (fun s r p =>
    checked s r p [] (
      let s1 := endAccepted stJobFault 0 0 (fun _ _ => false) (s.event 0x4100 14 0 none [])
      refuse (s1.haltUsers).resetFabric r p stOk))))

end Sys2Proof.Machine
end

