-- ==== Sys2Proof/Machine/RunCmds.lean ====
section
/-! DEFINITION. Ring commands of the section loader and the schedule table: IMAGE_STAGE, IMAGE_DROP, SECTION_RUN, SECTION_STOP
(09, 12), SCHEDULE_ADD and SCHEDULE_CLEAR (R340-R342). -/

namespace Sys2Proof.Machine

/-! ## Images -/

/-- IMAGE_STAGE (R217-R220). `changed` tells that the second pass read bytes other than the first (R220). -/
def execImageStage (ring : Ring) (sigOk changed : Bool) (s : State) : Host.Outcome State Fault Refusal :=
  .next (done s (ringCmdOf s ring 0x30 none (fun _ p => if bitOf (p.b 9 1) 0 then [] else [(p.b 16 8, p.b 24 4)]) (fun s r p =>
    checked s r p [(8, 1, 0), (9, 1, 1), (16, 8, 0), (24, 4, 0)] (
      let host := bitOf (p.b 9 1) 0
      let a := p.b 16 8
      let len := p.b 24 4
      match s.polderOfCtx p.ctx with
      | none => refuse s r p stBadParam
      | some k =>
        if !s.ctxLive p.ctx then refuse s r p stBadParam
        else
          let rd (o n : Nat) : List Byte := s.anyRead host (a + o) n
          let s1 := cpCharge (if host then s else noteAccess s 1 a len) p.ctx host a len false
          match imgCheck s rd len p.ctx (p.b 8 1) k sigOk changed with
          | .error f =>
            let s2 := if changed && (imgCheck s rd len p.ctx (p.b 8 1) k sigOk false).toOption.isSome then zeroSlots s1 (imgTiles rd) else s1
            answer (refuseImage s2 p.ctx f) r p f.status f.item f.event 0
          | .ok verified =>
            answer (stageImage s1 rd host a len p.ctx (p.b 8 1) verified (some (r, p.seq))) r p stOk (b2n verified + b2n s.sec.error * 2) 0 0))))

/-- An image is loaded on some tile, or named by a run or a schedule entry (R221). -/
def imageInUse (s : State) (i : Image) : Bool :=
  (loadedImages s).any (fun x => x.ctx == i.ctx && x.handle == i.handle) ||
  s.runs.any (fun r => r.ctx == i.ctx && r.handle == i.handle) ||
  s.tide.sched.any (fun e => leAt e.2.bytes 0 1 == 1 && leAt e.2.bytes 1 1 == i.ctx && leAt e.2.bytes 28 1 == i.handle)

/-- IMAGE_DROP (R221). -/
def execImageDrop (ring : Ring) (s : State) : Host.Outcome State Fault Refusal :=
  .next (done s (ringCmd s ring 0x31 none (fun s r p =>
    checked s r p [(8, 1, 0)] (
      match s.image? p.ctx (p.b 8 1) with
      | none => refuse s r p stBadParam
      | some i => if imageInUse s i then refuse s r p stBusy else refuse (dropImage s i) r p stOk))))

/-! ## Runs -/

/-- Another section owns a tree or a gauge that the image declares (R216). -/
def ownedByOther (s : State) (i : Image) : Bool :=
  s.owners.any (fun e =>
    !(e.1 == i.ctx && e.2.1 == i.handle) &&
    (match s.image? e.1 e.2.1 with
     | some j =>
       i.trees.any (fun t => j.trees.any (fun u => u.die == t.die && u.tree == t.tree)) ||
       (j.ctx == i.ctx && i.gauges.any (fun g => j.gauges.any (fun h => h.own && h.vid == g.vid)))
     | none => false))

/-- Fields of SECTION_RUN (Table 12.11). -/
def srFields : Fields := [(8, 1, 0), (9, 1, 0), (10, 2, 0x7FF), (12, 4, 0), (16, 8, 0), (24, 4, 0xFFFFF), (28, 6, 0)]

/-- The run of a SECTION_RUN. -/
def runOf (s : State) (r : Nat) (p : Pkt) : Run :=
  let f := p.b 9 1
  { id := s.runId + 1, ctx := p.ctx, handle := p.b 8 1, seqNo := p.seq, sched := none, userRing := r < 64, irq := p.irq
    seed := p.b 28 6, explicitGen := if bitOf f 1 then some (fld f 2 3) else none, gen := 0
    pred := if bitOf f 6 then some (p.b 10 2, BitVec.ofNat 32 (p.b 12 4), bitOf f 7) else none
    purge := bitOf f 5, due := if bitOf f 0 then some (p.b 16 8, p.b 24 4) else none, armed := false, late := false
    phase := .accepted, replays := 0, committed := false, first := none, firstClk := 0, ran := 0, started := 0
    timeoutAt := none, outgoing := [] }

/-- A run joins the runs; one in PURGE mode with no tide count triggers at once where it can (R225, R257). -/
def addRun (s : State) (x : Run) (ecc : Ecc) : State :=
  let s1 := { s with runs := s.runs ++ [x], runId := x.id }
  if x.purge && x.due.isNone && switchFree s1 x then predicated s1 x ecc (fun y => startSwitch y x) else s1

/-- SECTION_RUN (R309). -/
def execSectionRun (ring : Ring) (ecc : Ecc) (s : State) : Host.Outcome State Fault Refusal :=
  .next (done s (ringCmd s ring 0x40 none (fun s r p =>
    checked s r p srFields (
      match s.usable? p.ctx (p.b 8 1) with
      | none => refuse s r p stBadParam
      | some i =>
        if !s.ctxLive p.ctx then refuse s r p stBadParam
        else if s.sec.error && s.sec.signed then refuse s r p stSecurity
        else if s.health.expelled || s.sec.attestHolds then refuse s r p stDenied
        else if ownedByOther s i then refuse s r p stBusy
        else
          let x := runOf s r p
          addRun (accept s r p [x.id]) x ecc))))

/-- SECTION_STOP (below R226): switch phases 1-4 in PURGE form; r0 tells whether a run was stopped. -/
def execSectionStop (ring : Ring) (s : State) : Host.Outcome State Fault Refusal :=
  .next (done s (ringCmd s ring 0x41 none (fun s r p =>
    checked s r p [(8, 1, 0)] (
      let h := p.b 8 1
      if (s.image? p.ctx h).isNone then refuse s r p stBadParam
      else
        let any := s.runs.any (fun x => x.ctx == p.ctx && x.handle == h)
        let (s1, runs) := stopSections s p.ctx (some h)
        settleStops (accept s1 r p (b2n any :: runs))))))

/-! ## The schedule table (R340, R342) -/

def seAction (e : List Byte) : Nat := leAt e 0 1
def seCtx (e : List Byte) : Nat := leAt e 1 1
def seFlags (e : List Byte) : Nat := leAt e 2 1
def seSeq (e : List Byte) : Nat := leAt e 4 2
def seTide (e : List Byte) : Nat := leAt e 8 8
def sePhase (e : List Byte) : Nat := leAt e 16 4
def sePeriod (e : List Byte) : Nat := leAt e 20 4
def seFirings (e : List Byte) : Nat := leAt e 24 4

/-- Parameters of an action: RSV bits clear and fields in range (Table 13.6, R378, R381). -/
def seParamsOk (e : List Byte) : Bool :=
  match seAction e with
  | 1 => fld (leAt e 30 2) 11 5 == 0 && allZero (e.drop 42)
  | 2 => fld (leAt e 28 2) 11 5 == 0 && leAt e 30 1 ≤ 1 && leAt e 31 1 == 0 && allZero (e.drop 36)
  | 3 => leAt e 29 1 < 8 && leAt e 30 2 == 0 && 1 ≤ leAt e 32 4 && leAt e 32 4 ≤ 1048575 && allZero (e.drop 36)
  | 4 => leAt e 28 1 < 16 && leAt e 29 1 == 0 && 1 ≤ leAt e 30 2 && leAt e 32 8 % 64 == 0 && leAt e 40 8 % 64 == 0 && allZero (e.drop 48)
  | 5 => leAt e 28 1 < 16 && allZero (e.drop 29)
  | _ => false

/-- An action names link ports or field dies that are not there (R5). -/
def seAbsent (s : State) (e : List Byte) : Bool :=
  (seAction e == 3 && leAt e 28 1 ≥ 2 ^ s.nports) || (seAction e == 5 && leAt e 28 1 ≥ 2 ^ s.dies)

/-- SCHEDULE_ADD (R340). -/
def execScheduleAdd (ring : Ring) (s : State) : Host.Outcome State Fault Refusal :=
  .next (done s (ringCmd s ring 0x42 none (fun s r p =>
    checked s r p [(8, 56, 0)] (
      let e := padTo 56 p.par
      let owned := seAction e == 1 || seAction e == 2
      if seAction e == 0 || seAction e > 5 || leAt e 3 1 != 0 || leAt e 6 2 != 0 || seFlags e > 7 || sePhase e ≥ 2 ^ 20 ||
          (owned && !s.ctxLive (seCtx e)) || (!owned && seCtx e != 0xFF) ||
          (seAction e == 1 && (s.image? (seCtx e) (leAt e 28 1)).isNone) || sePhase e ≥ s.tide.period ||
          (seFirings e != 0 && sePeriod e == 0) || !seParamsOk e then refuse s r p stBadParam
      else if seAbsent s e then refuse s r p stUnitAbsent
      else
        match findBelow 1024 (fun i => (aget? s.tide.sched i).isNone) with
        | none => refuse s r p stNoResource
        | some i =>
          answer { s with tide := { s.tide with sched := aput s.tide.sched i ⟨e, 0⟩ } } r p stOk i 0 0))))

/-- SCHEDULE_CLEAR (R342): an entry handed over already goes on. -/
def execScheduleClear (ring : Ring) (s : State) : Host.Outcome State Fault Refusal :=
  .next (done s (ringCmd s ring 0x43 none (fun s r p =>
    checked s r p [(8, 4, 0)] (
      let i := p.b 8 4
      if i == 0xFFFFFFFF then answer { s with tide := { s.tide with sched := [] } } r p stOk s.tide.sched.length 0 0
      else if i ≥ 1024 then refuse s r p stBadParam
      else answer { s with tide := { s.tide with sched := adel s.tide.sched i } } r p stOk (b2n (aget? s.tide.sched i).isSome) 0 0))))

end Sys2Proof.Machine
end

