-- ==== Sys2Proof/Machine/HostPort.lean ====
section
/-! DEFINITION. The host port (12): control lines and rings, replies and their vectors, the host-managed device memory, the host
link, and reads of registers that act. -/

namespace Sys2Proof.Machine

/-! ## Rings as the host moves them (R295, R299-R303) -/

/-- A ring's two parts in device memory can be read. -/
def ringReads (s : State) (r : Nat) : Bool :=
  let x := s.ring r
  s.inMemory x.base.toNat (64 * x.entries) && s.inMemory x.line.toNat 64 && !s.devPoison x.line.toNat 64

/-- The causes of R303 that a ring's counts and reads show: 0 too many commands posted, 1 too many replies unread,
2 a failed read. -/
def haltCause (s : State) (r : Nat) : Option Nat :=
  let x := s.ring r
  if x.posted > x.entries then some 0
  else if x.unread > x.cplEntries then some 1
  else if !ringReads s r then some 2
  else none

/-- A ring that must halt halts; else it answers the packets that no command row covers. -/
def settleRing (s : State) (r : Nat) : State :=
  let x := s.ring r
  if (aget? s.rings r).isNone || !x.enabled || x.halted then s
  else match haltCause s r with
    | some c => s.haltRing r c
    | none => drainBad r 65536 s

/-- The command processor observes a ring's control line as it stands in device memory (R295, R300). -/
def observeLine (s : State) (r : Nat) : State :=
  let x := s.ring r
  if (aget? s.rings r).isNone || !x.enabled then s
  else
    let bytes := s.devRead x.line.toNat 8
    settleRing ((touchDev s x.line.toNat 64).modRing r (fun g => { g with
      tail := BitVec.ofNat 32 (leAt bytes 0 4), cplHead := BitVec.ofNat 32 (leAt bytes 4 4) })) r

/-- Rings whose control line is the 64-byte line at a device address. -/
def ringsAt (s : State) (a : Nat) : List Nat := s.ringNos.filter (fun r => (s.ring r).line.toNat / 64 == a / 64)

/-- TAIL_WRITE_OBSERVED (R295, R300): tail and cpl_head reach the control line and are observed. -/
def execTailWriteObserved (ring : Ring) (tail cplHead : W32) (s : State) : Host.Outcome State Fault Refusal :=
  let r := ringNo ring
  .next (done s (
    if (aget? s.rings r).isSome && (s.ring r).enabled && hostUp s then
      observeLine (s.devWrite (s.ring r).line.toNat (leBytes 4 tail.toNat ++ leBytes 4 cplHead.toNat) (fun _ => false)) r
    else s))

/-! ## Replies (R301, R303, R314) -/

/-- REPLY_WRITE (R301, R303, R314); `hostError`: the host completes the write with an error (R293), the reply stays the
next one, and the ring halts. After a device fault a reply that finds its ring full, or whose write fails, is dropped
(R363). -/
def execReplyWrite (ring : Ring) (hostError : Bool) (s : State) : Host.Outcome State Fault Refusal :=
  let r := ringNo ring
  .next (done s (
    let drop (y : Reply) (s : State) : State := s.modRing r (fun g => { g with replies := g.replies.erase y })
    match nextReply s r with
    | none =>
      (match dueReply s r with
       | some y => if s.devFault && (s.ring r).unread ≥ (s.ring r).cplEntries then drop y s else s
       | none => s)
    | some y =>
      match weirPass s (s.polderOfCtx y.ctx) 2 1 (cpUnit r 1) 32 with
      | (s1, false) => s1
      | (s1, true) =>
        if hostError && s.devFault then drop y (s1.event 0x3202 14 7 (if r < 64 then some r else none) [])
        else if hostError then (s1.event 0x3202 14 7 (if r < 64 then some r else none) []).haltRing r 3
        else drainBad r 65536 (writeReply s1 r y)))

/-- MSIX_COALESCE_EXPIRY (R314): the interval ends, and what waits goes out as one message. -/
def execMsixCoalesceExpiry (ring : Ring) (s : State) : Host.Outcome State Fault Refusal :=
  let r := ringNo ring
  .next (done s (
    match (s.ring r).vecDue with
    | none => s
    | some d =>
      if d ≤ s.clk then
        let s1 := s.modRing r (fun g => { g with vecDue := none, vecWant := false })
        if (s.ring r).vecWant then s1.vector (ringVector r) else s1
      else s))

/-! ## Registers of the command processor (Table 12.3) -/

/-- The privileged ring as `CP_PRING_*` set it up; its counts stand. -/
def privFromRegs (s : State) : RingSt :=
  let size := (s.reg 0x10020).toNat
  { s.ring privRing with
    base := (s.reg 0x10008).setWidth 48
    line := (s.reg 0x10010).setWidth 48
    cpl := s.reg 0x10018
    cmdLog2 := fld size 0 5
    cplLog2 := fld size 8 5
    coalesce := 0
    enabled := true }

/-- The placement rules of R299 for the privileged ring, its sizes among them. -/
def privPlaced (s : State) (x : RingSt) : Bool :=
  6 ≤ x.cmdLog2 && x.cmdLog2 ≤ 16 && 6 ≤ x.cplLog2 && x.cplLog2 ≤ 16 &&
  ringPlaced s none x.base.toNat x.line.toNat x.cpl.toNat x.cmdLog2

/-- CP_CTL_WRITE (R297, R299): before ready the ring cannot be enabled (Table 12.2). -/
def execCpCtlWrite (v : W32) (s : State) : Host.Outcome State Fault Refusal :=
  let now := (s.ring privRing).enabled
  .next (done s (
    if !s.ready then s
    else if v.getLsbD 0 then
      (if now then s
       else
         let x := privFromRegs s
         if privPlaced s x then settleRing (s.setRing privRing x) privRing else s.setRing privRing { x with halted := true })
    else if now then s.modRing privRing (fun x => { x with enabled := false })
    else s))

/-- A halted ring resumes from its current head and cpl_tail, and halts again where a cause of R299 or R303 still holds. -/
def resumeRing (s : State) (r : Nat) : State :=
  let x := s.ring r
  if (aget? s.rings r).isNone || !x.halted then s
  else if r == privRing && x.enabled && !privPlaced s x then s
  else if r < 64 && !s.ctxLive r then s
  else settleRing (s.setRing r { x with halted := false }) r

/-- CP_HALT_RESUME (R303): `phalt` is the bit of `CP_STATUS`, `rings` the word written to `CP_HALT`. -/
def execCpHaltResume (phalt : Bool) (rings : W64) (s : State) : Host.Outcome State Fault Refusal :=
  .next (done s (
    (((List.range 64).filter rings.getLsbD) ++ (if phalt then [privRing] else [])).foldl resumeRing s))

/-- `CP_STATUS.landing`: a bundle is being received. -/
def landing (s : State) : Bool := s.links.ports.any (fun e => e.2.rxBundle.isSome)

/-- `CP_LAND_BASE` written (R297): held back while a bundle is landing. -/
def landBaseWrite (s : State) (v : W64) : State :=
  let w := BitVec.ofNat 64 (fld v.toNat 0 48)
  if landing s then { s with links := { s.links with landBase := some w } } else s.setReg 0x10038 w

/-- CP_LAND_WRITE (R297): held back while a bundle is landing. -/
def execCpLandWrite (size : Bool) (v : W64) (s : State) : Host.Outcome State Fault Refusal :=
  .next (done s (
    if size then
      let w := BitVec.ofNat 32 (fld v.toNat 0 20)
      if landing s then { s with links := { s.links with landSize := some w } } else s.setReg 0x10040 (w.setWidth 64)
    else landBaseWrite s v))

/-! ## Host-managed device memory (R136, R260, R294) -/

/-- `CP_HDM_TGT[i]`. -/
def hdmTarget (s : State) (i : Nat) : Nat := (s.reg (0x10080 + 8 * i)).toNat
def hdmOf (s : State) (i : Nat) : HdmDec := s.host.hdm.getD i HdmDec.reset

/-- A range of device addresses lies inside one range of Table 11.1. -/
def insideOneRange (a n : Nat) : Bool :=
  a + n ≤ 64 * hSegBytes || (lpMapBase ≤ a && a + n ≤ lpMapBase + 64 * lSegBytes) ||
  (tileMapBase ≤ a && a + n ≤ tileMapBase + 1024 * 2 ^ 24)

/-- HDM_DECODER_COMMIT (R294). -/
def execHdmDecoderCommit (i : BitVec 3) (base size : W64) (s : State) : Host.Outcome State Fault Refusal :=
  let t := hdmTarget s i.toNat
  let ok := base.toNat % 2 ^ 28 == 0 && size.toNat % 2 ^ 28 == 0 && t % 2 ^ 28 == 0 && size != 0 && insideOneRange t size.toNat
  .next (done s { s with host := { s.host with hdm := s.host.hdm.set i.toNat ⟨base, size, ok, !ok⟩ } })

/-- The device address behind a host physical address. -/
def hdmAddr (s : State) (h : Nat) : Option Nat :=
  ((List.range 8).find? (fun i =>
    let d := hdmOf s i
    d.committed && d.base.toNat ≤ h && h < d.base.toNat + d.size.toNat)).map (fun i =>
      hdmTarget s i + (h - (hdmOf s i).base.toNat))

/-- A host access to a device line is noted when it is unpopulated or refused (R136, R260). -/
def noteHost (s : State) (a : Nat) : State :=
  match s.place a with
  | none => unpopAccess s 7
  | some _ =>
    match closedTile s a 64 with
    | some t => refusedAccess s t
    | none => s

/-- The host holds the line from now on, until it is snooped (R294). -/
def hostHolds (s : State) (a : Nat) : State :=
  match s.place a with
  | some p => { s with host := { s.host with hostLines := aput s.host.hostLines (p / 64) a } }
  | none => s

/-- The bytes of a line that a write with byte enables leaves. -/
def mergeLine (old : List Byte) (enables : BitVec 64) (line : BitVec 512) : List Byte :=
  (List.range 64).map (fun i => if enables.getLsbD i then BitVec.ofNat 8 (fld line.toNat (8 * i) 8) else old.getD i 0)

/-- A host write of a device line: one with fewer than 64 enables is a read-modify-write and keeps a mark that stood
(R137, R153). -/
def hostStore (s : State) (a : Nat) (enables : BitVec 64) (line : BitVec 512) (poison : Bool) : State :=
  let new := mergeLine (s.devRead a 64) enables line
  if enables == 0 then s
  else if enables == BitVec.allOnes 64 then s.devWrite a new (fun _ => poison)
  else s.devMerge a new poison

/-- HOST_MEMORY_ACCESS (R136, R137, R260, R294, R295); `flips` are bits found flipped when the word is read, which a write
of every byte does not do (R151, R265). The host's own access snoops no line. -/
def execHostMemoryAccess (addr : W64) (op : HostOp) (flips : Option Flips) (s : State) : Host.Outcome State Fault Refusal :=
  .next (doneBoard s (
    if s.stopped || !hostUp s then s
    else match hdmAddr s (addr.toNat / 64 * 64) with
    | none => s
    | some a =>
      let s1 := noteHost s a
      match op with
      | .read =>
        let s2 := errorAt s1 a 64 flips
        hostHolds { s2 with host := { s2.host with answer := ⟨BitVec.ofNat 512 (leNat (s2.devRead a 64)), s2.devPoison a 64⟩ } } a
      | .write enables line poison =>
        let s2 := if enables == 0 || enables == BitVec.allOnes 64 then s1 else errorAt s1 a 64 flips
        (ringsAt s2 a).foldl observeLine (hostStore s2 a enables line poison)))

/-! ## The host link (R292, R293) -/

/-- HOST_LINK_RECOVERY. -/
def execHostLinkRecovery (s : State) : Host.Outcome State Fault Refusal :=
  .next (done s (
    if s.host.link == .up then { s with host := { s.host with link := .recovered } }.event 0x1201 14 7 none [] else s))

/-- HOST_LINK_DOWN: a device fault. -/
def execHostLinkDown (s : State) : Host.Outcome State Fault Refusal :=
  .next (done s (
    if hostUp s then { s with host := { s.host with link := .down } }.deviceFault 0x5201 14 7 true [] else s))

/-- HOST_SNOOP (R293): the device keeps no host line, so it answers a miss and nothing changes. -/
def execHostSnoop (_ : W64) (s : State) : Host.Outcome State Fault Refusal := .next (done s s)

/-! ## Registers that act when read or written -/

/-- The binding of a physical gauge: context and virtual ID (R193). -/
def boundAs (s : State) (g : Nat) : Option (Nat × Nat) :=
  (s.gauges.xlat.find? (fun e => bitOf e.2.toNat 15 && fld e.2.toNat 12 3 * 4096 + fld e.2.toNat 0 12 == g)).map
    (fun e => (e.1 / 2048, e.1 % 2048))

/-- `GAUGE_INFO` of a physical gauge (Table 8.6). -/
def gaugeInfo (s : State) (g : Nat) : Nat :=
  (match boundAs s g with | some (c, v) => v + c * 2 ^ 11 + 2 ^ 17 | none => 0) + (s.gauge g).waiters.length * 2 ^ 18

/-- The four words of a waiter entry (Table 8.7). -/
def waiterWords (s : State) (w : Waiter) : List Nat :=
  [(if w.hub then 0 else w.tile.toNat) + w.unit.toNat * 2 ^ 10 + b2n w.hub * 2 ^ 14 + 2 ^ 15 + w.wgen.toNat * 2 ^ 16, w.target.toNat,
   (match w.deadline with | some d => d - s.clk | none => 0), 0]

/-- The snapshot of a gauge (R209). -/
def gaugeSnap (s : State) (g : Nat) : List W64 :=
  let x := s.gauge g
  (([x.value.toNat, gaugeInfo s g, x.lastTide.toNat, x.lastSrc.toNat] ++ x.waiters.flatMap (waiterWords s))).map (BitVec.ofNat 64)

/-- GAUGE_SEL_WRITE (R209): an absent location snapshots zeros. -/
def execGaugeSelWrite (v : W32) (ecc : Ecc) (s : State) : Host.Outcome State Fault Refusal :=
  let w := fld v.toNat 0 15
  let b := w / 4096
  let s1 := { s with gauges := { s.gauges with sel := BitVec.ofNat 32 w, snap := [] } }
  .next (done s (
    if present s b && b < 5 then
      gaugeEccAt s1 b ecc none none (fun x => { x with gauges := { x.gauges with snap := gaugeSnap x (b * 4096 + w % 4096) } })
    else s1))

/-- A host read is answered. -/
def State.hostAnswer (s : State) (v : Nat) : State := { s with host := { s.host with answer := ⟨BitVec.ofNat 512 v, false⟩ } }

/-- CTX_GAUGE_READ (R298): 0 when the gauge is unbound or the context does not exist. A word that is lost is not used (R207):
what the read then returns is a free value. -/
def execCtxGaugeRead (ctx : BitVec 6) (vid : BitVec 11) (ecc : Ecc) (s : State) : Host.Outcome State Fault Refusal :=
  .next (done s (
    match if (aget? s.ctxs ctx.toNat).isSome then s.gaugeOf ctx.toNat vid.toNat else none with
    | none => s.hostAnswer 0
    | some g =>
      let (v, s1) := s.draw
      gaugeEccOf (if ecc == .uncorrectable then s1.hostAnswer (v % 2 ^ 32) else s) ctx.toNat vid.toNat ecc none
        (fun x => x.hostAnswer (x.gauge g).value.toNat)))

/-- TIDE_COUNT_READ (Table 13.7): the phase is latched, by a read of the whole register or of either half (R18). -/
def execTideCountRead (half : Option Bool) (s : State) : Host.Outcome State Fault Refusal :=
  let v := s.tideCount.toNat
  .next (done s ({ s with tide := { s.tide with latched := s.tidePhase } }.hostAnswer (match half with
    | none => v
    | some high => halfOf v (if high then 4 else 0))))

/-! ## REGISTER_WRITE (R15, R17, R18) -/

/-- The bits of one 32-bit word, at an offset that is a multiple of 4, that a write sets: the key of its register in
`regs`, the place of the word in that register, and the mask. Every other bit is RO, RSV, WO or W1C. -/
def rwWord (s : State) (o : Nat) : Option (Nat × Nat × Nat) :=
  let pair (base mask : Nat) : Option (Nat × Nat × Nat) := some (o / 8 * 8 + base % 8, o % 8 * 8, mask)
  let all := 0xFFFFFFFF
  let hi48 (o : Nat) : Nat := if o % 8 == 4 then 0xFFFF else all
  if 0x8000 ≤ o && o < 0x8480 then some (o, 0, if o % 16 == 12 then 1 else all)
  else if 0x10008 ≤ o && o < 0x10024 && (s.ring privRing).enabled then none
  else if 0x10008 ≤ o && o < 0x10018 then pair 0 (hi48 o)
  else if 0x10018 ≤ o && o < 0x10020 then pair 0 all
  else if o == 0x10020 then some (o, 0, 0x1F1F)
  else if 0x10080 ≤ o && o < 0x100C0 then (if (hdmOf s ((o - 0x10080) / 8)).committed then none else pair 0 (hi48 o))
  else if o == 0x100000 then (if s.links.ports.any (fun e => e.2.state == 3 || e.2.state == 2 || e.2.state == 4) then none else some (o, 0, 0xFFFF))
  else if o == 0x100008 then some (o, 0, 0xF)
  else if o == 0x100010 then some (o, 0, 0xFF)
  else if o == 0x100018 then some (o, 0, 0x3F)
  else if 0x100800 ≤ o && o < 0x101000 then pair 0 (if o % 8 == 4 then 0xF else all)
  else if 0x101000 ≤ o && o < 0x101000 + 0x100 * s.nports && o % 0x100 == 0 then some (o, 0, 1)
  else if o == 0x200010 then some (o, 0, 0x1F)
  else if o == 0x200020 then some (o, 0, 0xFFFFFF)
  else if o == 0x201000 then some (o, 0, 0x1FFFFF)
  else if o == 0x201004 then some (o, 0, 0x3FF)
  else if o == 0x203000 then some (o, 0, 0x1FFF)
  else if o == 0x207804 then some (o, 0, 0xFFFF)
  else none

/-- Values that a register does not take, so that the write is ignored whole (R386, Table 17.12). -/
def badValue (o v : Nat) : Bool :=
  if o == 0x200010 then fld v 0 5 < 16 || fld v 0 5 > 30
  else if o == 0x207804 then fld v 0 8 < 85 || fld v 0 8 > 105 || fld v 8 8 < 85 || fld v 8 8 > 100
  else false

/-- The overflow bit of a performance counter cleared. -/
def clearOver (t : Assoc Ctr) (k : Nat) : Assoc Ctr := amod t k Ctr.zero (fun c => { c with ovf := false })

/-- The overflow bit of the 64-bit counter register whose upper half is at offset o (R394). -/
def clearCtr (s : State) (o : Nat) : State :=
  let k (lo : Nat) : Nat := (o - lo) / 8
  if 0x202800 ≤ o && o < 0x202940 then { s with gauges := { s.gauges with stat := clearOver s.gauges.stat (k 0x202800) } }
  else if 0x203010 ≤ o && o < 0x203050 then { s with ldrStat := clearOver s.ldrStat (k 0x203010) }
  else if 0x203100 ≤ o && o < 0x203300 then { s with condSkip := clearOver s.condSkip (k 0x203100) }
  else if 0x205100 ≤ o && o < 0x205140 then { s with ms := { s.ms with pumpStat := clearOver s.ms.pumpStat (k 0x205100) } }
  else if 0x207000 ≤ o && o < 0x207040 then { s with ms := { s.ms with pageStat := clearOver s.ms.pageStat (k 0x207000) } }
  else if 0x200080 ≤ o && o < 0x2000C0 then { s with health := { s.health with sdc := clearOver s.health.sdc (k 0x200080) } }
  else if 0x207810 ≤ o && o < 0x207818 then { s with power := { s.power with skipCnt := { s.power.skipCnt with ovf := false } } }
  else if 0x20040 ≤ o && o < 0x20080 then { s with tide := { s.tide with cnt := clearOver s.tide.cnt (k 0x20040) } }
  else if 0x101000 ≤ o && o < 0x101000 + 0x100 * s.nports && 0x40 ≤ o % 0x100 && o % 0x100 < 0x80 then
    s.modLport ((o - 0x101000) / 0x100) (fun x => { x with cnt := clearOver x.cnt ((o % 0x100 - 0x40) / 8) })
  else if 0x80000 ≤ o && o < 0x88000 && 0x100 ≤ o % 0x1000 && o % 0x1000 < 0x160 && o % 16 == 12 then
    let p := (o - 0x80000) / 0x1000
    let w := (o % 0x1000 - 0x100) / 16
    s.setWeir p w { s.weir p w with wait := { (s.weir p w).wait with ovf := false } }
  else if 0x2000000 ≤ o && windowOpen s ((o - 0x2000000) / 0x4000) then
    (match windowCtr (o % 0x4000) with
     | some c => s.modTile ((o - 0x2000000) / 0x4000) (fun t => { t with ctrs := clearOver t.ctrs c })
     | none => s)
  else s

/-- Bits that a 1 clears (R15) in the 32-bit word at offset o. -/
def w1cWord (s : State) (o v : Nat) : State :=
  if o == 0x204000 then (if bitOf v 1 then { s with ms := { s.ms with segErr := false } } else s)
  else if 0x205000 ≤ o && o < 0x2050A0 then
    (if bitOf v 13 then s.setReg o (BitVec.ofNat 64 (putBit (s.reg o).toNat 13 false)) else s)
  else if o == 0x207800 then (if bitOf v 6 then { s with power := { s.power with droop := false } } else s)
  else if o % 8 == 4 && bitOf v 16 then clearCtr s o
  else s

/-- A masked vector that is pending sends when it is unmasked (R314). -/
def unmask (s : State) (v : Nat) : State :=
  if v < 72 && bitOf s.host.vecPending v && !(s.reg (0x8000 + 16 * v + 12)).getLsbD 0 then
    { s with host := { s.host with vecPending := putBit s.host.vecPending v false } }.vector v
  else s

/-- A 64-bit word with one of its 32-bit halves written. -/
def withHalf (w : W64) (o v : Nat) : W64 :=
  BitVec.ofNat 64 (if o % 8 == 0 then w.toNat / 2 ^ 32 * 2 ^ 32 + v else w.toNat % 2 ^ 32 + v * 2 ^ 32)

/-- The mailbox takes a write while the boot ROM waits for firmware (Table 16.11). -/
def mboxWord (s : State) (o v : Nat) : State :=
  if !s.sec.awaitFw then s
  else if o == 0x40010 || o == 0x40014 then { s with sec := { s.sec with mboxAddr := withHalf s.sec.mboxAddr (o % 8) v } }
  else if o == 0x40018 then { s with sec := { s.sec with mboxLen := BitVec.ofNat 32 v } }
  else s

/-- Half a 64-bit register of the command processor written (R18): `CP_HALT`, `CP_LAND_BASE`. -/
def cpHalf (s : State) (o v : Nat) : State :=
  if o == 0x10030 || o == 0x10034 then
    ((List.range 32).filter (bitOf v)).foldl (fun x c => resumeRing x (c + 8 * (o % 8))) s
  else if o == 0x10038 || o == 0x1003C then landBaseWrite s (withHalf (s.links.landBase.getD (s.reg 0x10038)) (o % 8) v)
  else s

/-- One 32-bit word written in BAR0. -/
def writeWord (s : State) (o v : Nat) : State :=
  match rwWord s o with
  | some (key, sh, mask) =>
    if badValue o v then s
    else
      let old := (s.reg key).toNat
      let new := old - (fld old sh 32 &&& mask) * 2 ^ sh + (v &&& mask) * 2 ^ sh
      let s1 := s.setReg key (BitVec.ofNat 64 new)
      if 0x8000 ≤ o && o < 0x8480 && o % 16 == 12 then unmask s1 ((o - 0x8000) / 16) else s1
  | none => mboxWord (cpHalf (w1cWord s o v) o v) o v

/-- `CTX_TILE_BASE` of a context's window (R298). A value that is no multiple of 128 is stored as it is written: the spec does not say what
such a write does (DESIGN CHOICE, log 62). -/
def writeBar2 (s : State) (o v : Nat) : State :=
  if o % 0x10000 == 0x10 then
    match aget? s.ctxs (o / 0x10000) with
    | some c => { s with ctxs := aput s.ctxs (o / 0x10000) { c with tileBase := BitVec.ofNat 10 v } }
    | none => s
  else s

/-- REGISTER_WRITE: a write of 32 bits, or of 64 as its two halves at once (R18), to registers without behaviour of their
own. An offset that is no multiple of 4 names no register. -/
def execRegisterWrite (bar2 : Bool) (off : BitVec 26) (wide : Bool) (v : W64) (s : State) : Host.Outcome State Fault Refusal :=
  let o := off.toNat
  let put (s : State) (o v : Nat) : State := if bar2 then writeBar2 s o v else writeWord s o v
  .next (done s (
    if o % 4 != 0 || !hostUp s then s
    else
      let s1 := put s o (fld v.toNat 0 32)
      if wide then put s1 (o + 4) (fld v.toNat 32 32) else s1))

end Sys2Proof.Machine
end

