-- ==== Sys2Proof/Machine/Restore.lean ====
section
/-! DEFINITION. CONTEXT_RESTORE (R358, R359): the checks of R358 in order, then the context, its images, queues, tables and
gauges, and the runs and tiles of a mid-section record. A record is read through a function of offset and length. -/

namespace Sys2Proof.Machine

/-! ## The record read back (Tables 14.4, 14.5) -/

/-- Why a restore ends: status, r0, and the state with the refusal of an image noted. -/
structure RestoreFail where
  status : Nat
  r0 : Nat
  after : State

/-- Offsets of the parts: handles, gauges, queues, tables, runs, tiles. -/
def recHandles (rd : Nat → Nat → List Byte) : List (List Byte) := (List.range (rdNum rd 104 2)).map (fun i => rd (256 + 48 * i) 48)
def recGaugeAt (rd : Nat → Nat → List Byte) : Nat := 256 + 48 * rdNum rd 104 2
def recGauges (rd : Nat → Nat → List Byte) : List (List Byte) := (List.range (rdNum rd 106 2)).map (fun i => rd (recGaugeAt rd + 16 * i) 16)
def recQueueAt (rd : Nat → Nat → List Byte) : Nat := recGaugeAt rd + 16 * rdNum rd 106 2
def recQueues (rd : Nat → Nat → List Byte) : List (List Byte) := (List.range (rdNum rd 108 2)).map (fun i => rd (recQueueAt rd + 48 * i) 48)
def recTableAt (rd : Nat → Nat → List Byte) : Nat := recQueueAt rd + 48 * rdNum rd 108 2
def recTables (rd : Nat → Nat → List Byte) : List (List Byte) := (List.range (rdNum rd 110 2)).map (fun i => rd (recTableAt rd + 72 * i) 72)
def recRunAt (rd : Nat → Nat → List Byte) : Nat := recTableAt rd + 72 * rdNum rd 110 2
def recRuns (rd : Nat → Nat → List Byte) : List (List Byte) := (List.range (rdNum rd 112 2)).map (fun i => rd (recRunAt rd + 32 * i) 32)
def recTileAt (rd : Nat → Nat → List Byte) : Nat := recRunAt rd + 32 * rdNum rd 112 2

/-- Bytes of the fixed parts of a tile record before its messages. -/
def tileFixed : Nat := 256 + 1024 + 1088 + 262144 + 262144

/-- Offsets of the tile records, and where the last one ends. -/
def recTilesGo (rd : Nat → Nat → List Byte) : Nat → Nat → List Nat × Nat
  | 0, o => ([], o)
  | k + 1, o =>
    let r := recTilesGo rd k (o + tileFixed + rdNum rd (o + 132) 4 + rdNum rd (o + 128) 4)
    (o :: r.1, r.2)

def recTiles (rd : Nat → Nat → List Byte) : List Nat × Nat := recTilesGo rd (rdNum rd 114 2) (recTileAt rd)

/-- Step 2: magic, version, length and digest. -/
def recordOk (rd : Nat → Nat → List Byte) (len : Nat) : Bool :=
  len ≥ 256 && rdNum rd 0 4 == 0x434B544C && rdNum rd 4 2 == 1 && rdNum rd 12 1 ≤ 1 && rdNum rd 16 8 == len &&
  recTileAt rd ≤ len && (recTiles rd).2 == len &&
  sha256 (rd 0 32 ++ List.replicate 32 0 ++ rd 64 (len - 64)) == rd 32 32

def recMid (rd : Nat → Nat → List Byte) : Bool := rdNum rd 12 1 == 1

/-- Fields of a handle part. -/
def hpHandle (h : List Byte) : Nat := leAt h 0 1
def hpHost (h : List Byte) : Bool := bitOf (leAt h 1 1) 0
def hpLen (h : List Byte) : Nat := leAt h 4 4
/-- The image that a handle part names. -/
def hpRd (s : State) (h : List Byte) (o n : Nat) : List Byte := s.anyRead (hpHost h) (leAt h 8 8 + o) n

/-- Logical tiles of a run part: the region of its handle's image. -/
def rpTiles (s : State) (rd : Nat → Nat → List Byte) (u : List Byte) : List Nat :=
  match (recHandles rd).find? (fun h => hpHandle h == leAt u 0 1) with
  | some h => imgTiles (hpRd s h)
  | none => []

/-! ## The checks (R358, R359) -/

/-- Step 3: geometry. -/
def geometryFail (s : State) (rd : Nat → Nat → List Byte) : Option Nat :=
  if recMid rd then (if rdNum rd 6 2 == s.family && rdNum rd 8 4 == s.geometry then none else some 0)
  else
    ((recHandles rd).find? (fun h => !imgStructOk (hpRd s h) (hpLen h) || !imgIdentityOk s (hpRd s h))).map hpHandle

/-- Step 4: placement of the ring, the queues, the tables and the run regions. -/
def placementFail (s : State) (rd : Nat → Nat → List Byte) (k : Nat) : Option (Nat × Nat) :=
  let cl := rdNum rd 64 1
  let kl := rdNum rd 65 1
  let qRec (e : List Byte) : List Byte := (e.drop 8).take 32
  let covers (a n : Nat) : Bool := ((s.polder? k).map (fun x => x.covers a n)).getD false
  let tiles := ((s.polder? k).map (·.tiles)).getD []
  if cl < 6 || cl > 16 || kl < 6 || kl > 16 || !ringPlaced s (some k) (rdNum rd 72 8) (rdNum rd 80 8) (rdNum rd 88 8) cl then
    some (stBadParam, 0)
  else
    match (recQueues rd).find? (fun e => !queueRecordOk (qRec e) || !s.pumpPresent (leAt e 17 1) ||
        !rangePopulated s (leAt e 8 8) (128 * 2 ^ leAt e 16 1)) with
    | some e => some (stBadParam, leAt e 0 1)
    | none =>
      match (recQueues rd).find? (fun e => !covers (leAt e 8 8) (128 * 2 ^ leAt e 16 1)) with
      | some e => some (stDenied, leAt e 0 1)
      | none =>
        match (recTables rd).find? (fun e => leAt e 0 2 ≥ 256 || !(PageTable.ok ⟨0, e.drop 8⟩)) with
        | some e => some (stBadParam, leAt e 0 2)
        | none =>
          match (recTables rd).find? (fun e => !(PageTable.areas ⟨0, e.drop 8⟩).all (fun a => s.polderHolds k a.1 a.2)) with
          | some e => some (stDenied, leAt e 0 2)
          | none =>
            let regions := (recRuns rd).flatMap (rpTiles s rd)
            match (recTiles rd).1.find? (fun o => !regions.contains (rdNum rd o 2)) with
            | some o => some (stBadParam, rdNum rd o 2)
            | none => (regions.find? (fun n => !tiles.contains n)).map (fun n => (stDenied, n))

/-- Step 5: numbers in use, and configured tiles. -/
def inUseFail (s : State) (rd : Nat → Nat → List Byte) : Option Nat :=
  match (recQueues rd).find? (fun e => (s.queue? (leAt e 0 1)).isSome) with
  | some e => some (leAt e 0 1)
  | none =>
    match (recTables rd).find? (fun e => (s.table? (leAt e 0 2)).isSome) with
    | some e => some (leAt e 0 2)
    | none => ((recRuns rd).flatMap (rpTiles s rd)).find? (fun n => (s.ltile n).sect.configured || (s.ltile n).sect.loading)

/-- Step 6: every handle staged, in order; bit i of `sigOk` is the outcome of the i-th handle's signature (R218). -/
def stageHandles (c k : Nat) (sigOk : Nat) : List (List Byte) → State → Except RestoreFail State
  | [], s => .ok s
  | h :: t, s =>
    match imgCheck s (hpRd s h) (hpLen h) c (hpHandle h) k (sigOk.testBit 0) false with
    | .error f => .error ⟨f.status, hpHandle h, refuseImage s c f⟩
    | .ok verified =>
      if hpRd s h 64 32 != (h.drop 16).take 32 then .error ⟨stImageSignature, hpHandle h, s⟩
      else stageHandles c k (sigOk / 2) t (stageImage s (hpRd s h) (hpHost h) (leAt h 8 8) (hpLen h) c (hpHandle h) verified none)

/-- Step 7: every recorded gauge bound at its location, with its value. -/
def bindRecorded (c : Nat) : List (List Byte) → State → Option State
  | [], s => some s
  | e :: t, s =>
    let vid := leAt e 0 2
    let g : GaugeDecl := ⟨vid, leAt e 2 1, false, false, 0, 0⟩
    let s1 := if (s.gaugeOf c vid).isNone then bindGauge s c g else s
    match s1.gaugeOf c vid with
    | none => none
    | some k =>
      if k / 4096 != g.loc then none
      else bindRecorded c t (s1.setGauge k { s1.gauge k with value := BitVec.ofNat 32 (leAt e 4 4) })

/-- Every check of R358; the answer is the state with the images staged and the gauges bound. -/
def restoreChecks (s : State) (rd : Nat → Nat → List Byte) (len c k : Nat) (sigOk : Nat) : Except RestoreFail State :=
  if (aget? s.ctxs c).isSome then .error ⟨stBusy, 0, s⟩
  else if (s.polder? k).isNone || !recordOk rd len then .error ⟨stBadParam, 0, s⟩
  else
    match geometryFail s rd with
    | some h => .error ⟨stGeometry, h, s⟩
    | none =>
      match placementFail s rd k with
      | some (st, x) => .error ⟨st, x, s⟩
      | none =>
        match inUseFail s rd with
        | some x => .error ⟨stBusy, x, s⟩
        | none =>
          match stageHandles c k sigOk (recHandles rd) s with
          | .error f => .error f
          | .ok s1 =>
            match bindRecorded c (recGauges rd) s1 with
            | none => .error ⟨stNoResource, 0, s⟩
            | some s2 => .ok s2

/-! ## Putting a context back -/

/-- The context and its ring, at the recorded counts. -/
def putContext (s : State) (rd : Nat → Nat → List Byte) (c k : Nat) : State :=
  let g : RingSt := { RingSt.reset with
    base := BitVec.ofNat 48 (rdNum rd 72 8), line := BitVec.ofNat 48 (rdNum rd 80 8), cpl := BitVec.ofNat 64 (rdNum rd 88 8)
    cmdLog2 := rdNum rd 64 1, cplLog2 := rdNum rd 65 1, coalesce := rdNum rd 66 2, enabled := true
    head := BitVec.ofNat 32 (rdNum rd 96 4), tail := BitVec.ofNat 32 (rdNum rd 96 4)
    cplTail := BitVec.ofNat 32 (rdNum rd 100 4), cplHead := BitVec.ofNat 32 (rdNum rd 100 4) }
  { s with ctxs := aput s.ctxs c ⟨k, BitVec.ofNat 3 (rdNum rd 15 1), 0⟩ }.setRing c g

/-- A queue part defined again; it goes on at its next entry. -/
def putQueue (c : Nat) (s : State) (e : List Byte) : State :=
  let w := (e.drop 8).take 32
  let q : PumpQueue :=
    { ctx := c, base := leAt w 0 8, size := leAt w 8 1, pump := leAt w 9 1, post := leAt w 10 2, tile := queueTile w
      consumed := BitVec.ofNat 32 (leAt e 40 4), postWait := .none, head := none, headWait := .none, transfers := []
      halted := bitOf (leAt e 1 1) 0, code := 0, entry := 0, poisonSeen := false, retired := 0, discarded := 0, posts := 0 }
  armQueue (s.setQueue (leAt e 0 1) q) (leAt e 0 1)

def putTable (c : Nat) (s : State) (e : List Byte) : State :=
  { s with ms := { s.ms with tables := aput s.ms.tables (leAt e 0 2) ⟨c, (padTo 64 (e.drop 8)).set 14 0⟩ } }

/-- Messages framed one after another. -/
def framedMsgs : Nat → List Byte → List Msg
  | 0, _ => []
  | k + 1, bs =>
    if bs.length < 128 then []
    else
      let m := msgOfBytes bs
      m :: framedMsgs k (bs.drop (128 * m.flits))

/-- Framed messages that a basin holds. -/
def basinCount (p b : Nat) : Nat → State → Nat
  | 0, _ => 0
  | k + 1, s => if ((s.tile p).basin b).used = 0 then 0 else 1 + basinCount p b k (popBasin s p b (basinHead s p b))

/-- Words of a list of bytes that are not zero, by index. -/
def nonzeroWords (bs : List Byte) (n : Nat) : Assoc W32 :=
  (List.range n).filterMap (fun i => if leAt bs (4 * i) 4 == 0 then none else some (i, BitVec.ofNat 32 (leAt bs (4 * i) 4)))

/-- The tile of a record written over its freshly loaded configuration (Table 14.5); `src` is the device address of the
record, o the offset of the tile's part. -/
def putTile (src : Nat) (rd : Nat → Nat → List Byte) (s : State) (o : Nat) : State :=
  let n := rdNum rd o 2
  let p := s.phys n
  let flags := rdNum rd (o + 7) 1
  let prog := rdNum rd (o + 128) 4
  let msgBytes := rdNum rd (o + 132) 4
  let basinAt := o + 256
  let accAt := basinAt + 1024 + 1088
  let vbAt := accAt + 262144
  let msgAt := vbAt + 262144
  let progAt := msgAt + msgBytes
  let basins := (List.range 64).filterMap (fun b =>
    let w (k : Nat) : Nat := rdNum rd (basinAt + 16 * b + 4 * k) 4
    if allZero (rd (basinAt + 16 * b) 16) then none
    else some (b, { head := fld (w 0) 0 23, tail := fld (w 1) 0 23, used := fld (w 2) 0 24, padValid := bitOf (w 2) 24
                    padAt := fld (w 3) 0 23, backp := bitOf (w 2) 25 : Basin }))
  let sluices := (List.range 4).map (fun k =>
    let w := rdNum rd (o + 64 + 16 * k) 4
    (k, { Sluice.reset with inRun := bitOf w 3, select := BitVec.ofNat 2 (fld w 4 2), remaining := fld w 6 16 }))
  let mem := (List.range (prog / 64)).foldl (fun m g =>
    m.write (tileBase p + 64 * g) (rd (progAt + 64 * g) 64) (s.devPoison (src + progAt + 64 * g) 64)) s.mem
  let s1 := { s with mem := mem }.modTile p (fun t => { t with
    seq := { t.seq with
      idx := BitVec.ofNat 10 (rdNum rd (o + 4) 2), st := if bitOf flags 0 then .ended else .running
      preds := BitVec.ofNat 8 (rdNum rd (o + 6) 1)
      ctrs := (List.range 4).map (fun k => BitVec.ofNat 20 (rdNum rd (o + 16 + 4 * k) 4)) }
    wbPending := t.wbPending.filter (fun w => prog ≤ 64 * w)
    localList := t.localList.filter (fun w => prog ≤ 64 * w)
    finished := rdNum rd (o + 8) 1
    firings := (List.range 7).map (fun k => (k + 1, rdNum rd (o + 32 + 4 * k) 4))
    sluices := sluices
    basins := basins
    hist := nonzeroWords (rd (basinAt + 1024) 1088) 272
    acc := nonzeroWords (rd accAt 262144) 65536
    vb := (List.range 262144).filterMap (fun i => let b := rdNum rd (vbAt + i) 1; if b == 0 then none else some (i, BitVec.ofNat 8 b))
    vbPoison := (List.range 4096).filter (fun g => s.devPoison (src + vbAt + 64 * g) 64) })
  let s2 := (framedMsgs 65536 (rd msgAt msgBytes)).foldl (fun x m =>
    x.modTile p (fun t =>
      let y := t.port m.dstUnit m.dstPort
      t.setPort m.dstUnit m.dstPort { y with fifo := y.fifo ++ [m] })) s1
  (List.range 48).foldl (fun x i =>
    let u := i / 8 + 1
    let t := x.tile p
    if t.bound u (i % 8) && t.ovfEn u (i % 8) then
      x.modTile p (fun t => t.setPort u (i % 8) { t.port u (i % 8) with inBasin := basinCount p (t.bindBasin u (i % 8)) 65536 x })
    else x) s2

/-- A run of the record: accepted on the restored ring, and its region loaded by a PURGE switch (R358). The tide of its
very first firing is not recorded: a free value. -/
def putRun (c : Nat) (s0 : State) (u : List Byte) : State :=
  let (a, s1) := s0.draw
  let (b, s) := s1.draw
  let f := leAt u 1 1
  let left := leAt u 12 4
  let x : Run :=
    { id := s.runId + 1, ctx := c, handle := leAt u 0 1, seqNo := leAt u 2 2, sched := none, userRing := true
      irq := bitOf (leAt u 10 1) 0, seed := leAt u 4 6, explicitGen := none, gen := fld f 0 3, pred := none, purge := bitOf f 5
      due := none, armed := false, late := false, phase := .running, replays := fld f 3 2, committed := false
      first := some (a % 2 ^ 64, b % 2 ^ 20), firstClk := s.clk, ran := leAt u 16 8, started := s.clk
      timeoutAt := if left == 0 then none else some (s.clk + 1024 * left), outgoing := [] }
  match s.image? c x.handle with
  | none => s
  | some i =>
    let s2 := { s with runs := s.runs ++ [x], runId := x.id, owners := s.owners ++ [(c, x.handle, x.id)] }
    let s3 := s2.modRing c (fun g => { g with accepted := g.accepted ++ [⟨0x40, c, x.seqNo, x.irq, [x.id]⟩] })
    let s4 := (movesOf s3 i.tiles).foldl applyMove s3
    let s5 := i.trees.foldl writeTree (i.tiles.foldl (fun y n => loadTile y i x n) s4)
    ((startSection s5).bumpLdr 0 1).bumpLdr 1 1

/-- The whole record put back, once every check has passed. -/
def putRecord (s : State) (src : Nat) (rd : Nat → Nat → List Byte) (c k : Nat) : State :=
  let s1 := putContext s rd c k
  let s2 := (recTables rd).foldl (putTable c) s1
  let s3 := (recRuns rd).foldl (putRun c) s2
  let s4 := (recTiles rd).1.foldl (putTile src rd) s3
  (recQueues rd).foldl (putQueue c) s4

/-- A switch of the restore must wait: the census of a run's generation is not zero for its region (R226 phase 1). -/
def restoreWaits (s : State) (rd : Nat → Nat → List Byte) : Bool :=
  (recRuns rd).any (fun u => (rpTiles s rd u).any (fun n => s.censusLive n (fld (leAt u 1 1) 0 3) != 0))

/-- Fields of CONTEXT_RESTORE. -/
def crFields : Fields := [(8, 1, 63), (9, 1, 7), (16, 8, 0), (24, 8, 0)]

/-- The restore that the packet at the head of a ring asks for stands until the generations of its runs are clear. -/
def restoreHeld (s : State) (r : Nat) (sigOk : Nat) : Bool :=
  match nextPkt s r with
  | none => false
  | some p =>
    let rd (o n : Nat) : List Byte := s.devRead (p.b 16 8 + o) n
    p.op == 0x23 && r == privRing && fieldsOk p crFields &&
    (match restoreChecks s rd (p.b 24 8) (p.b 8 1) (p.b 9 1) sigOk with
     | .ok _ => restoreWaits s rd
     | .error _ => false)

/-- CONTEXT_RESTORE (R358, R359). -/
def execContextRestore (ring : Ring) (sigOk : Nat) (s : State) : Host.Outcome State Fault Refusal :=
  .next (done s (
    if restoreHeld s (ringNo ring) sigOk then s
    else ringCmdOf s ring 0x23 none (fun _ p => [(p.b 16 8, p.b 24 8)]) (fun s0 r p =>
      checked s0 r p crFields (
        let a := p.b 16 8
        let c := p.b 8 1
        let k := p.b 9 1
        let s := cpCharge (noteAccess s0 0 a (p.b 24 8)) p.ctx false a (p.b 24 8) false
        let rd (o n : Nat) : List Byte := s.devRead (a + o) n
        match restoreChecks s rd (p.b 24 8) c k sigOk with
        | .error f => answer f.after r p f.status f.r0 0 0
        | .ok s1 => refuse (putRecord s1 a rd c k) r p stOk))))

end Sys2Proof.Machine
end

