-- ==== Sys2Proof/Machine/LinkCmds.lean ====
section
/-! DEFINITION. The Beytia ports (13): training, blocks sent and received, replay, and what a port that goes down loses. -/

namespace Sys2Proof.Machine

/-! ## A port that goes down (R322) -/

/-- What follows the rest of a message whose head has left. -/
def afterTorn : List Flit → List Flit
  | [] => []
  | f :: t => if f.head then f :: t else afterTorn t

/-- The slot bytes of a block, one for each slot 1-19 (Table 13.2). -/
def slotBytes (blk : List Byte) : List Nat := (List.range 19).map (fun i => leAt blk (20 + i) 1)

/-- Kind and sequence number of a block (Table 13.1). -/
def blockKind (blk : List Byte) : Nat := fld (leAt blk 2564 2) 12 2
def blockSeq (blk : List Byte) : Nat := fld (leAt blk 2564 2) 0 12

/-- Messages and transactions that a port loses when it goes down: those with their tails in its replay buffer, those cut
short, and those in its ingress. -/
def lostAt (x : LinkPort) : Nat :=
  ((x.buffer.filter (fun e => blockKind e.2.1 == 0)).map (fun e => ((slotBytes e.2.1).filter (fun b => bitOf b 0 && bitOf b 2)).length)).sum +
  (x.tx.filter (fun e => match e.2 with | f :: _ => !f.head | [] => false)).length +
  (x.rx.filter (fun e => !e.2.isEmpty)).length + (x.inq.map (fun e => e.2.length)).sum

/-- A port goes down: its replay buffer and its ingress are discarded, and what they held is lost. -/
def portDown (s : State) (k step : Nat) : State :=
  let x := s.lport k
  let s1 := (x.inq.flatMap (·.2)).foldl endMsg s
  let s2 := s1.setLport k { x with
    state := 1, step := step, tx := x.tx.map (fun e => (e.1, afterTorn e.2)), bundles := [], buffer := [], resend := []
    tries := 0, credit := [], sent := [], nack := false, gap := false, rx := [], inq := [], since := [], freed := [], held := []
    bundleIn := [], rxBundle := none, markers := [] }
  (s2.bumpLink k 5 (lostAt x)).event 0x3231 13 k none []

/-! ## Training (R325, R326, Table 13.3) -/

/-- The first failing step, 0 if none. -/
def trainFails (s : State) (t : Training) (want : Option Nat) : Nat :=
  let f := t.failStep.toNat
  if 1 ≤ f && f ≤ 3 then f
  else if t.neighbour == 0xFFFF || t.neighbour.toNat == s.deviceId || (match want with | some w => t.neighbour.toNat != w | none => false) then 4
  else if f == 5 || f == 6 then f
  else 0

/-- A link comes up from down: its credits and sequence numbers start anew. -/
def portUp (x : LinkPort) (t : Training) : LinkPort :=
  { x with
    state := 3, step := 0, neighbour := t.neighbour.toNat, delay := t.delay.toNat, corrected := sat32 x.corrected t.corrected.toNat
    next := 0, buffer := [], resend := [], tries := 0, credit := [], sent := [], expect := 0, acked := none, nack := false
    gap := false, rx := [], freed := [] }

/-- A port retrains (R322): it keeps its replay buffer and both sequence states, and the stream goes on by replay. -/
def retrain (s : State) (k : Nat) (t : Training) (want : Option Nat) : State :=
  let s1 := s.event 0x1231 13 k none []
  let x := s1.lport k
  let f := trainFails s t want
  if f != 0 then
    portDown (s1.setLport k { x with neighbour := if f ≤ 3 then x.neighbour else t.neighbour.toNat }) k f
  else
    let far := x.delay + 1 < t.delay.toNat || t.delay.toNat + 1 < x.delay
    let s2 := s1.setLport k { x with
      state := 3, step := 0, neighbour := t.neighbour.toNat, delay := t.delay.toNat, corrected := sat32 x.corrected t.corrected.toNat
      resend := x.buffer.map (fun e => e.2.1), tries := 0, buffer := x.buffer.map (fun e => (e.1, e.2.1, s.clk)) }
    if far then s2.event 0x1210 13 k none (detailOf [(2, x.delay), (2, t.delay.toNat)]) else s2

/-- LINK_TRAIN (R325). -/
def execLinkTrain (ring : Ring) (t : Training) (s : State) : Host.Outcome State Fault Refusal :=
  .next (done s (ringCmd s ring 0x92 none (fun s r p =>
    checked s r p [(8, 1, 0), (9, 1, 1), (10, 1, 1), (12, 2, 0)] (
      let k := p.b 8 1
      let want := if bitOf (p.b 10 1) 0 then some (p.b 12 2) else none
      if k ≥ 8 then refuse s r p stBadParam
      else if k ≥ s.nports then refuse s r p stUnitAbsent
      else if !s.unitOn 3 k then refuse s r p stBadParam
      else if s.deviceId == 0xFFFF then refuse s r p stBusy
      else
        let f := trainFails s t want
        let s0 := s.modLport k (fun x => { x with lr := p.b 9 1 == 1 })
        let x := s0.lport k
        let s1 :=
          if x.up then retrain s0 k t want
          else if f == 0 then s0.setLport k (portUp x t)
          else s0.setLport k { x with state := 1, step := f, neighbour := if f ≤ 3 then x.neighbour else t.neighbour.toNat }
        let y := s1.lport k
        answer s1 r p (if f == 0 then stOk else stTimeout) (f + y.neighbour * 2 ^ 16) y.delay (if f == 0 || f == 6 then t.corrected.toNat else 0)))))

/-! ## Sending (R319-R323, R330) -/

/-- Credit of a lane (R323). -/
def LinkPort.creditOf (x : LinkPort) (lane : Nat) : Nat :=
  (laneCredit lane + agetD x.credit lane 0 + 65536 - agetD x.sent lane 0) % 65536

/-- `LINK_PCTL.windowed` of a port. -/
def windowed (s : State) (k : Nat) : Bool := (s.reg (0x101000 + 0x100 * k)).getLsbD 0

/-- A lane may place its next flit: it has one, and credit, and a window where it needs one (R341). -/
def laneReady (s : State) (k lane : Nat) : Bool :=
  let x := s.lport k
  !(x.txq lane).isEmpty && x.creditOf lane > 0 &&
  (!windowed s k || (match aget? x.windows lane with | some c => s.clk < c | none => false))

/-- Flits of the message at the head of a lane queue. -/
def headFlits : List Flit → Nat
  | [] => 0
  | f :: t => if f.tail then 1 else headFlits t + 1

/-- The polder that the head of a lane belongs to (R348): that of the sending tile, or of the queue of a pump's
transaction. -/
def lanePolder (s : State) (lane : Nat) (f : Flit) : Option Nat :=
  if lane == 2 then
    let h := leAt f.data 0 32
    if fld h 212 16 == s.deviceId && fld h 0 4 != 3 then
      (s.ms.queues.find? (fun e => e.2.transfers.any (fun t => t.id % 65536 == fld h 196 16))).bind (fun e => s.polderOfCtx e.2.ctx)
    else none
  else msgPolder s (msgOfBytes f.data)

/-- A message of a run that leaves through a port commits the run, if that section still runs (R232). -/
def commitBySend (s : State) (lane : Nat) (f : Flit) : State :=
  let m := msgOfBytes f.data
  if lane != 2 && f.head && fromTile s m && m.gen == (s.ltile m.srcTile).sect.gen.toNat then
    match s.tileRun (s.phys m.srcTile) with
    | some r => s.modRun r.id (fun x => { x with committed := true })
    | none => s
  else s

/-- The next flit of one of these lanes, in turn: the first lane that may place one and that its weir lets pass (R350). -/
def pickFlit (k : Nat) : List Nat → State → State × Option (Nat × Flit)
  | [], s => (s, none)
  | l :: rest, s =>
    if laneReady s k l then
      match (s.lport k).txq l with
      | [] => pickFlit k rest s
      | f :: t =>
        let (s1, ok) := if f.head then weirPass s (lanePolder s l f) 3 k l (128 * headFlits (f :: t)) else (s, true)
        if ok then
          ((commitBySend s1 l f).modLport k (fun x => { x with tx := aput x.tx l t, sent := aput x.sent l ((agetD x.sent l 0 + 1) % 65536) }),
           some (l, f))
        else pickFlit k rest s1
    else pickFlit k rest s

/-- The lanes from one on, in the turn 1, 0, 2 (R330). -/
def laneTurn : Nat → List Nat
  | 0 => [1, 0, 2]
  | 1 => [0, 2, 1]
  | _ => [2, 1, 0]

/-- Where the turn goes on after a lane. -/
def laneAfter (lane : Nat) : Nat := if lane == 1 then 1 else if lane == 0 then 2 else 0

/-- The slots of a traffic block, ascending. -/
def packSlots (k : Nat) : Nat → Nat → State → State × List (Nat × Flit)
  | 0, _, s => (s, [])
  | n + 1, turn, s =>
    match pickFlit k (laneTurn turn) s with
    | (s1, none) => (s1, [])
    | (s1, some e) =>
      let r := packSlots k n (laneAfter e.1) s1
      (r.1, e :: r.2)

/-- The slot byte of a flit (Table 13.2). -/
def slotByte (e : Nat × Flit) : Nat := 1 + b2n e.2.head * 2 + b2n e.2.tail * 4 + b2n e.2.bad * 8 + e.1 * 16

/-- The control slot as the port stands (Table 13.2); every port that is up sends markers of the local tide (R337). -/
def controlSlot (s : State) (x : LinkPort) (slots : List Nat) (boff bid : Nat) : List Byte :=
  leBytes 2 ((match x.acked with | some a => a + 2 ^ 12 | none => 0) + b2n x.nack * 2 ^ 13) ++
  (List.range 3).flatMap (fun l => leBytes 2 (agetD x.freed l 0)) ++
  leBytes 8 s.tideCount.toNat ++
  leBytes 4 (s.tidePhase % 2 ^ 20 + 2 ^ 20 + b2n (tideInUse s == 2) * 2 ^ 21) ++
  padTo 19 (slots.flatMap (leBytes 1)) ++ leBytes 1 0 ++ leBytes 8 boff ++ leBytes 2 bid ++ List.replicate 14 0 ++
  padTo 64 (x.svc.headD [])

/-- A block of 2,570 bytes (Table 13.1, R318). -/
def mkBlock (control flits : List Byte) (seq kind : Nat) : List Byte :=
  let body := padTo 128 control ++ padTo 2432 flits
  let trailer := leBytes 6 (seq % 4096 + kind * 4096)
  body ++ leBytes 4 (crc32 (body ++ trailer)).toNat ++ trailer

/-- A block leaves: its service record and its nack are taken with it, and all but an idle block are buffered. -/
def sendBlock (s : State) (k kind : Nat) (slots : List Nat) (flits : List Byte) (boff bid : Nat) : State :=
  let x := s.lport k
  let seq := if kind == 2 then (x.next + 4095) % 4096 else x.next
  let blk := mkBlock (controlSlot s x slots boff bid) flits seq kind
  let s1 := s.setLport k { x with
    svc := x.svc.drop 1, nack := false, lastBlock := blk, lastBundle := if kind == 2 then x.lastBundle else kind == 1
    next := if kind == 2 then x.next else (x.next + 1) % 4096
    buffer := if kind == 2 then x.buffer else x.buffer ++ [(seq, blk, s.clk)] }
  let s2 := s1.bumpLink k 0 1
  if kind == 2 then s2.bumpLink k 3 1 else if kind == 1 then s2.bumpLink k 7 1 else s2

/-- The next bundle block of a port (R331). -/
def sendBundleBlock (s : State) (k : Nat) (b : TxBundle) (rest : List TxBundle) : State :=
  let piece := b.rest.take 2432
  let left := b.rest.drop 2432
  let s1 := s.modLport k (fun x => { x with bundles := if left.isEmpty then rest else ⟨b.bid, b.off + 2432, left⟩ :: rest })
  sendBlock s1 k 1 ((List.range ((piece.length + 127) / 128)).map (fun _ => 1)) piece b.off b.bid

/-- BLOCK_TRANSMIT: a replay first, else a bundle or a traffic block in alternation, else an idle block. While 512 blocks
wait for their acknowledgement, only idle blocks (R321). -/
def execBlockTransmit (port : BitVec 3) (s : State) : Host.Outcome State Fault Refusal :=
  let k := port.toNat
  let x := s.lport k
  .next (done s (
    if !x.up then s
    else match x.resend with
    | blk :: rest =>
      (s.setLport k { x with
        resend := rest, lastBlock := blk
        buffer := x.buffer.map (fun e => if e.2.1 == blk then (e.1, e.2.1, s.clk) else e) }).bumpLink k 0 1
    | [] =>
      if x.buffer.length ≥ 512 then sendBlock s k 2 [] [] 0 0
      else
        let (s1, slots) := packSlots k 19 0 s
        match x.bundles with
        | b :: rest =>
          if slots.isEmpty || !x.lastBundle then sendBundleBlock s k b rest
          else sendBlock s1 k 0 (slots.map slotByte) (slots.flatMap (fun e => e.2.data)) 0 0
        | [] =>
          if slots.isEmpty then sendBlock s1 k 2 [] [] 0 0
          else sendBlock s1 k 0 (slots.map slotByte) (slots.flatMap (fun e => e.2.data)) 0 0))

/-! ## Receiving (R318-R323, R329) -/

/-- A gauge message for a block of this device may come from port k (R194): the port belongs to the polder of the context that its
payload names. -/
def gaugePasses (s : State) (k : Nat) (m : Msg) : Bool :=
  !(m.kind == 4 && m.here s && m.dstY ≥ 16) ||
  (match s.polderOfCtx (gCtx m) with | some d => s.polderOfPort k == some d | none => false)

/-- A gauge message that fails that check is dropped at link ingress and logged, the first 16 of the port in a section (R184,
log 48). -/
def dropGaugeAt (s : State) (k : Nat) (m : Msg) : State :=
  if (s.lport k).once.count 0x3130 < 16 then
    (s.modLport k (fun x => { x with once := 0x3130 :: x.once })).event 0x3130 13 k none (hdrDetail m.hdr)
  else s

/-- A message of lane 0 or 1 has arrived whole: one for this device passes the firewall of its arrival port (R184, R194, R329) or
is dropped, and joins the ingress queue, counted in the census (R223). Flits that came poisoned stay so (R320). -/
def takeMsg (s : State) (k lane : Nat) (fs : List Flit) : State :=
  let m := { msgOfBytes ((fs.map (·.data)).flatten) with fp := (List.range fs.length).filter (fun i => (fs[i]?).any (·.bad)) }
  let drop (x : State) : State :=
    x.modLport k (fun y => { y with freed := aput y.freed lane ((agetD y.freed lane 0 + fs.length) % 65536) })
  match (m.countedTiles s).find? (fun n => !portPasses s k n) with
  | some n => drop (dropFirewall s (s.phys n) m)
  | none =>
    if !gaugePasses s k m then drop (dropGaugeAt s k m)
    else
    (s.count m 1).modLport k (fun x => { x with
      inq := aput x.inq lane (x.ingress lane ++ [m])
      since := if (x.ingress lane).isEmpty then aput x.since lane s.clk else x.since })

/-- A transaction has arrived whole on lane 2 (R327): for this device, or on to another. -/
def takeTransaction (s : State) (k : Nat) (fs : List Flit) : State :=
  let s1 := s.modLport k (fun x => { x with freed := aput x.freed 2 ((agetD x.freed 2 0 + fs.length) % 65536) })
  let dev := fld (leAt ((fs.headD ⟨[], true, true, false⟩).data) 0 32) 80 16
  if dev == s.deviceId then takeTxn s1 k fs
  else
    match linkRoute s1 dev (some k) with
    | .drop c => linkDrop s1 dev (some k) c
    | .send q => s1.modLport q (fun x => x.push 2 fs)

/-- A slot taken: its flit joins its lane, and a tail ends a message (R320). -/
def takeSlot (k : Nat) (s : State) (e : Nat × List Byte) : State :=
  let lane := fld e.1 4 2
  if !bitOf e.1 0 || lane == 3 then s
  else
    let fs := agetD (s.lport k).rx lane [] ++ [⟨e.2, bitOf e.1 1, bitOf e.1 2, bitOf e.1 3⟩]
    if bitOf e.1 2 then
      let s1 := s.modLport k (fun x => { x with rx := aput x.rx lane [] })
      if lane == 2 then takeTransaction s1 k fs else takeMsg s1 k lane fs
    else s.modLport k (fun x => { x with rx := aput x.rx lane fs })

/-- What a block carries is taken (R319, R320). -/
def takeSlots (s : State) (k : Nat) (blk : List Byte) : State :=
  if blockKind blk == 1 then
    s.modLport k (fun x => { x with bundleIn := x.bundleIn ++ [(leAt blk 48 2, leAt blk 40 8, (blk.drop 128).take 2432)] })
  else ((slotBytes blk).zipIdx.map (fun e => (e.1, (blk.drop (128 * (e.2 + 1))).take 128))).foldl (takeSlot k) s

/-- The first replay of each 2^30 cycles is logged, and every replay counted (R322). -/
def startReplay (s : State) (k : Nat) : State :=
  let x := s.lport k
  let due : Bool := match x.replayLog with | some c => c + 2 ^ 30 ≤ s.clk | none => true
  let s1 := (s.setLport k { x with
    resend := x.buffer.map (fun e => e.2.1), tries := x.tries + 1, buffer := x.buffer.map (fun e => (e.1, e.2.1, s.clk))
    replayLog := if due then some s.clk else x.replayLog }).bumpLink k 4 1
  if due then s1.event 0x2231 13 k none [] else s1

/-- The control slot of a good block acts (R319, R321, R323, R336). -/
def takeControl (s : State) (k : Nat) (blk : List Byte) : State :=
  let w := leAt blk 0 2
  let x := s.lport k
  let left := if bitOf w 12 then x.buffer.filter (fun e => (fld w 0 12 + 4096 - e.1) % 4096 ≥ 2048) else x.buffer
  let moved := left.length < x.buffer.length
  let ph := leAt blk 16 4
  let follows := s.tide.link && s.tide.port == k && !s.tide.freeRun
  let s1 := s.setLport k { x with
    buffer := left
    resend := x.resend.filter (fun b => left.any (fun e => e.2.1 == b))
    tries := if moved then 0 else x.tries
    credit := (List.range 3).foldl (fun t l => aput t l (leAt blk (2 + 2 * l) 2)) x.credit
    markers := if follows && bitOf ph 20 then
        x.markers ++ [⟨leAt blk 8 8, fld ph 0 20, bitOf ph 21, s.tideCount.toNat, s.tidePhase⟩] else x.markers
    svcIn := if bitOf (leAt blk 64 1) 0 then x.svcIn ++ [(blk.drop 64).take 64] else x.svcIn }
  if bitOf w 13 && !left.isEmpty then startReplay s1 k else s1

/-- The CRC of a block matches (R318). -/
def crcOk (blk : List Byte) : Bool :=
  leAt blk 2560 4 == (crc32 (blk.take 2560 ++ (blk.drop 2564).take 6)).toNat

/-- A good block (R319, R321). -/
def goodBlock (s : State) (k : Nat) (blk : List Byte) : State :=
  let s1 := takeControl (s.bumpLink k 1 1) k blk
  if blockKind blk ≥ 2 then s1
  else
    let x := s1.lport k
    let d := (blockSeq blk + 4096 - x.expect) % 4096
    if d == 0 then
      takeSlots (s1.setLport k { x with expect := (x.expect + 1) % 4096, acked := some (blockSeq blk), gap := false }) k blk
    else if d < 2048 && !x.gap then s1.setLport k { x with nack := true, gap := true }
    else s1

/-- BLOCK_RECEIVED (R318-R321). Of a good block of the reserved kind 3 the control slot acts, as of every good block, and nothing
else does: it is neither traffic nor a bundle (log 49). -/
def execBlockReceived (port : BitVec 3) (b : RxBlock) (s : State) : Host.Outcome State Fault Refusal :=
  let k := port.toNat
  let blk := padTo 2570 b.bytes
  let s0 := s.modLport k (fun x => { x with corrected := sat32 x.corrected b.corrected })
  if s.stopped || !(s.lport k).up then .next (done s s)
  else if !b.decodes || !crcOk blk then
    .next (done s ((s0.modLport k (fun x => { x with nack := true, gap := true })).bumpLink k 2 1))
  else .next (done s (goodBlock s0 k blk))

/-- LINK_REPLAY_TIMEOUT (R322): a replay, or after eight in vain a retraining, which meets `t`. -/
def execLinkReplayTimeout (port : BitVec 3) (t : Training) (s : State) : Host.Outcome State Fault Refusal :=
  let k := port.toNat
  let x := s.lport k
  .next (done s (
    match x.buffer with
    | [] => s
    | (_, _, sent) :: _ =>
      if x.up && sent + 16384 ≤ s.clk then
        (if x.tries ≥ 8 then retrain s k t none else startReplay s k)
      else s))

/-- INGRESS_STALL (R324): a head that has made no progress for the threshold is logged once per port per section. -/
def execIngressStall (port : BitVec 3) (lane : BitVec 2) (s : State) : Host.Outcome State Fault Refusal :=
  let k := port.toNat
  let x := s.lport k
  .next (done s (
    if !(x.ingress lane.toNat).isEmpty && s.threshold != 0 && agetD x.since lane.toNat s.clk + s.threshold ≤ s.clk then
      portOnce s k 0x1233 (detailOf [(1, lane.toNat)])
    else s))

end Sys2Proof.Machine
end

