-- ==== Sys2Proof/Machine/Bundles.lean ====
section
/-! DEFINITION. Bundles of images (R236-R238, R331, Table 9.7): sent, received block by block, kept and staged from the landing
area, and their statuses. -/

namespace Sys2Proof.Machine

/-! ## The layout (Table 9.7) -/

/-- An entry: device ID, context, handle, offset and length of its image. -/
structure BundleEntry where
  dev : Nat
  ctx : Nat
  handle : Nat
  off : Nat
  len : Nat

def bundleEntry (bs : List Byte) (i : Nat) : BundleEntry :=
  let o := 32 + 16 * i
  ⟨leAt bs o 2, leAt bs (o + 2) 1, leAt bs (o + 3) 1, leAt bs (o + 8) 4, leAt bs (o + 12) 4⟩

def bundleEntries (bs : List Byte) : List BundleEntry := (List.range (leAt bs 6 2)).map (bundleEntry bs)

/-- Images lie in entry order and do not overlap. -/
def inOrder : Nat → List BundleEntry → Bool
  | _, [] => true
  | o, e :: t => o ≤ e.off && inOrder (e.off + e.len) t

/-- The header and the entries of a bundle are there, and right. -/
def bundleHeadOk (bs : List Byte) : Bool :=
  let n := leAt bs 6 2
  bs.length ≥ 32 + 16 * n && leAt bs 0 4 == 0x424B544C && leAt bs 4 2 == 1 && 1 ≤ n && n ≤ 4096 &&
  leAt bs 16 16 == 0 && (List.range n).all (fun i => leAt bs (36 + 16 * i) 4 == 0) &&
  (bundleEntries bs).all (fun e => e.off % 8 == 0 && e.off + e.len ≤ leAt bs 8 8) && inOrder (32 + 16 * n) (bundleEntries bs)

def bundleOk (bs : List Byte) : Bool := bundleHeadOk bs && leAt bs 8 8 == bs.length

def entryImage (bs : List Byte) (e : BundleEntry) : List Byte := (bs.drop e.off).take e.len

/-- The images of some entries one after another, as far as their bytes are there. -/
def imagesOf (bs : List Byte) : List BundleEntry → List Byte
  | [] => []
  | e :: t =>
    let x := entryImage bs e
    if x.length < e.len then x else padTo (alignUp e.len 8) x ++ imagesOf bs t

/-- Bytes of a bundle of some entries. -/
def bundleLen (es : List BundleEntry) : Nat := 32 + 16 * es.length + (es.map (fun e => alignUp e.len 8)).sum

/-- Entries with the offsets that they get from o on. -/
def placedFrom : Nat → List BundleEntry → List (BundleEntry × Nat)
  | _, [] => []
  | o, e :: t => (e, o) :: placedFrom (o + alignUp e.len 8) t

/-- A bundle of these entries of another, with count and offsets rewritten (R236), as far as the other's bytes are there. -/
def rebundle (bs : List Byte) (es : List BundleEntry) : List Byte :=
  leBytes 4 0x424B544C ++ leBytes 2 1 ++ leBytes 2 es.length ++ leBytes 8 (bundleLen es) ++ leBytes 16 0 ++
  (placedFrom (32 + 16 * es.length) es).flatMap (fun x =>
    leBytes 2 x.1.dev ++ leBytes 1 x.1.ctx ++ leBytes 1 x.1.handle ++ leBytes 4 0 ++ leBytes 4 x.2 ++ leBytes 4 x.1.len) ++
  imagesOf bs es

/-! ## Sending -/

/-- A piece of a bundle joins the bundle queue of a port; a port that is not up drops it (R328). -/
def pushBundle (s : State) (k : Nat) (b : TxBundle) (arr : Option Nat) : State :=
  if (s.lport k).up then s.modLport k (fun x => { x with bundles := x.bundles ++ [b] })
  else linkDrop s 0xFFFF arr 1

/-- A piece of a bundle, from byte `off` of it, to the device of the bundle's first entry (R331). -/
def sendDaisy (s : State) (bid dev off : Nat) (bs : List Byte) (arr : Option Nat) : State :=
  match linkRoute s dev arr with
  | .drop c => linkDrop s dev arr c
  | .send k => pushBundle s k ⟨bid, off, bs⟩ arr

/-- The ports of `LINK_FWD.down`, without the arrival port (R331). -/
def downPorts (s : State) (arr : Option Nat) : List Nat :=
  (List.range s.nports).filter (fun k => (s.reg 0x100010).getLsbD k && arr != some k)

/-! ## Staging an entry (R218, R237) -/

/-- An entry's image staged from host or device memory under Table 9.4; its dev_id names the entry's device, or any. -/
def stageEntry (s : State) (e : BundleEntry) (host : Bool) (addr : Nat) (sigOk : Bool) : State × Nat :=
  let rd (o n : Nat) : List Byte := s.anyRead host (addr + o) n
  match s.polderOfCtx e.ctx with
  | none => (s, stBadParam)
  | some k =>
    if rdNum rd 24 2 != e.dev && rdNum rd 24 2 != 0xFFFF then (refuseImage s e.ctx ⟨stImageIdentity, 0x1181, 0⟩, stImageIdentity)
    else
      match imgCheck s rd e.len e.ctx e.handle k sigOk false with
      | .error f => (refuseImage s e.ctx f, f.status)
      | .ok verified => (stageImage s rd host addr e.len e.ctx e.handle verified none, stOk)

/-! ## IMAGE_FORWARD (R236, R238) -/

/-- r0 and r1 of the reply; an entry without a status counts as TIMEOUT. -/
def forwardWords (es : List (Nat × Option Nat)) : Nat × Nat :=
  let ok := (es.filter (fun e => e.2 == some stOk)).length
  (ok + es.length * 2 ^ 16,
   match es.findIdx? (fun e => e.2 != some stOk) with
   | some i => match es[i]? with
     | some e => e.1 + (e.2.getD stTimeout) * 2 ^ 16 + i * 2 ^ 32
     | none => 2 ^ 64 - 1
   | none => 2 ^ 64 - 1)

/-- A forwarding ends with its reply. -/
def endForward (s : State) (f : Forward) : State :=
  let w := forwardWords f.entries
  { s with links := { s.links with forwards := s.links.forwards.filter (fun g => !decide (g = f)) } }.complete f.ring f.cmd
    (f.cmd.reply stOk w.1 w.2 0)

/-- Forwardings whose entries all have a status end. -/
def settleForwards (s : State) : State :=
  s.links.forwards.foldl (fun x f => if f.entries.all (fun e => e.2.isSome) then endForward x f else x) s

/-- An entry that names this device. -/
def ownEntry (s : State) (e : BundleEntry) : Bool := e.dev == s.deviceId || e.dev == 0xFFFF

/-- IMAGE_FORWARD: entries for this device are staged as by IMAGE_STAGE, the rest goes out. Bit i of `sigOk` is the outcome of
entry i's signature (R218). -/
def execImageForward (ring : Ring) (sigOk : Nat) (s : State) : Host.Outcome State Fault Refusal :=
  .next (done s (ringCmdOf s ring 0x32 none (fun _ p => if bitOf (p.b 9 1) 0 then [] else [(p.b 16 8, p.b 24 8)]) (fun s r p =>
    checked s r p [(8, 1, 1), (9, 1, 1), (16, 8, 0), (24, 8, 0)] (
      let parallel := bitOf (p.b 8 1) 0
      let host := bitOf (p.b 9 1) 0
      let a := p.b 16 8
      let bs := s.anyRead host a (p.b 24 8)
      let s0 := cpCharge (if host then s else noteAccess s 1 a (p.b 24 8)) p.ctx host a (p.b 24 8) false
      if s.anyPoison host a (p.b 24 8) then refuse s0 r p stPoisoned
      else if !bundleOk bs then refuse s0 r p stBadParam
      else
        let es := bundleEntries bs
        let (s1, sts) := es.foldl (fun (x : State × List (Nat × Option Nat)) e =>
          if ownEntry s e then
            let y := stageEntry x.1 e host (a + e.off) (sigOk.testBit x.2.length)
            (y.1, x.2 ++ [(e.dev, some y.2)])
          else (x.1, x.2 ++ [(e.dev, none)])) (s0, [])
        let rest := es.filter (fun e => !ownEntry s e)
        let bid := s1.links.nextBid
        let s2 := if rest.isEmpty then s1
          else
            let s3 := { s1 with links := { s1.links with nextBid := (bid + 1) % 65536 } }
            if parallel then (downPorts s3 none).foldl (fun x k => pushBundle x k ⟨bid, 0, bs⟩ none) s3
            else sendDaisy s3 bid ((rest.head?.map (·.dev)).getD 0) 0 (rebundle bs rest) none
        let f : Forward := { ring := r, cmd := p.cmd [bid], entries := sts, due := s.clk + 160000000 }
        let s4 := accept s2 r p [bid]
        settleForwards { s4 with links := { s4.links with forwards := s4.links.forwards ++ [f] } }))))

/-- FORWARD_STATUS_TIMEOUT (R238): every forwarding whose 100 ms have passed ends. -/
def execForwardStatusTimeout (s : State) : Host.Outcome State Fault Refusal :=
  .next (done s (s.links.forwards.foldl (fun x f => if f.due ≤ s.clk then endForward x f else x) s))

/-- The status of a forwarded entry comes back from a device (R238): to the entry of that index, else to the first of the
device that still waits. -/
def forwardStatus (s : State) (dev idx st : Nat) : State :=
  let fits (f : Forward) (i : Nat) : Bool := match f.entries[i]? with | some e => e.1 == dev && e.2.isNone | none => false
  let place (f : Forward) : Option Nat :=
    if fits f idx then some idx else (List.range f.entries.length).find? (fits f)
  match s.links.forwards.find? (fun f => (place f).isSome) with
  | none => s
  | some f =>
    let i := (place f).getD 0
    let put (g : Forward) : Forward := if g == f then { g with entries := g.entries.set i (dev, some st) } else g
    settleForwards { s with links := { s.links with forwards := s.links.forwards.map put } }

/-! ## Receiving (R236, R237, R297) -/

/-- The landing area lies in HBM or LP5X memory outside every polder's shares, at a multiple of 64 KiB. -/
def landingOk (s : State) (base n : Nat) : Bool :=
  base % 65536 == 0 && (blocks base n).all (fun x => (s.memAt x.1).isSome && !s.polders.any (fun e => e.2.holds x.1 1))

/-- A refused entry (R237). -/
def refuseEntry (s : State) (e : BundleEntry) (idx st : Nat) : State × Nat :=
  (s.event 0x1186 14 1 (some e.ctx) (detailOf [(4, idx), (1, st)]), st)

/-- An entry kept by this device: its image lands at offset `at_` of the landing area, and is staged from there. -/
def keepEntry (s : State) (port : Nat) (bs : List Byte) (e : BundleEntry) (idx at_ : Nat) (sigOk : Bool) : State × Nat :=
  let base := (s.reg 0x10038).toNat
  let size := (s.reg 0x10040).toNat * 2 ^ 20
  let owner := s.polderOfPort port
  if owner.isNone || s.polderOfCtx e.ctx != owner || s.health.expelled then refuseEntry s e idx stDenied
  else if size == 0 || at_ + e.len > size || !landingOk s base size then refuseEntry s e idx stNoResource
  else stageEntry (s.devWrite (base + at_) (entryImage bs e) (fun _ => false)) e false (base + at_) sigOk

/-- A bundle has arrived whole: its own entries are kept, one after another in the landing area, and their statuses sent
(log 46). Bit i of `sigOk` is the outcome of entry i's signature (R218). -/
def takeBundle (s : State) (port bid : Nat) (bs : List Byte) (sigOk : Nat) : State :=
  if !bundleOk bs then s
  else
    ((bundleEntries bs).zipIdx.foldl (fun (x : State × Nat) e =>
      if ownEntry s e.1 then
        let y := keepEntry x.1 port bs e.1 e.2 x.2 (sigOk.testBit e.2)
        (serviceSend y.1 (serviceRec 1 (Config.bundleOrigin bid).toNat s.deviceId (leBytes 2 e.2 ++ leBytes 1 y.2)) none, x.2 + alignUp e.1.len 64)
      else x) (s, 0)).1

/-- What a bundle that is arriving in daisy-chain mode lets go on (R236): the rest, in whole blocks of 2,432 bytes and at last
whatever remains, from the bytes that have gone already. -/
def forwardRest (s : State) (port : Nat) (b : RxBundle) : State × RxBundle :=
  let rest := (bundleEntries b.bytes).filter (fun e => !ownEntry s e)
  if Config.bundleParallel b.bid || !bundleHeadOk b.bytes || rest.isEmpty then (s, b)
  else
    let known := rebundle b.bytes rest
    let upto := if known.length == bundleLen rest then known.length else known.length / 2432 * 2432
    if upto ≤ b.sent then (s, b)
    else
      (sendDaisy s b.bid ((rest.head?.map (·.dev)).getD 0) b.sent ((known.take upto).drop b.sent) (some port), { b with sent := upto })

/-- Writes of `CP_LAND_*` that waited for the landing take effect (R297). -/
def settleLanding (s : State) : State :=
  if landing s then s
  else
    let s1 := match s.links.landBase with | some w => s.setReg 0x10038 w | none => s
    let s2 := match s.links.landSize with | some w => s1.setReg 0x10040 (w.setWidth 64) | none => s1
    { s2 with links := { s2.links with landBase := none, landSize := none } }

/-- BUNDLE_BLOCK (R331): the next bundle block that a port has taken; in parallel mode it goes on unchanged, in daisy-chain mode
the rest of the bundle goes on as its bytes arrive (R236). -/
def execBundleBlock (port : BitVec 3) (sigOk : Nat) (s : State) : Host.Outcome State Fault Refusal :=
  let k := port.toNat
  let x := s.lport k
  .next (done s (
    match x.bundleIn with
    | [] => s
    | (bid, off, bytes) :: rest =>
      let s1 := s.setLport k { x with bundleIn := rest }
      let s2 := if Config.bundleParallel bid then (downPorts s (some k)).foldl (fun y q => pushBundle y q ⟨bid, off, bytes⟩ (some k)) s1 else s1
      let got : Option RxBundle :=
        if off == 0 then some ⟨bid, bytes, 0⟩
        else match x.rxBundle with
          | some b => if b.bid == bid && b.bytes.length == off then some ⟨bid, b.bytes ++ bytes, b.sent⟩ else none
          | none => none
      match got with
      | none => settleLanding (s2.modLport k (fun y => { y with rxBundle := none }))
      | some b0 =>
        let (s3, b) := forwardRest s2 k b0
        let len := leAt b.bytes 8 8
        if len ≤ b.bytes.length then
          settleLanding (takeBundle (s3.modLport k (fun y => { y with rxBundle := none })) k bid (b.bytes.take len) sigOk)
        else s3.modLport k (fun y => { y with rxBundle := some b })))

end Sys2Proof.Machine
end

