-- ==== Sys2Proof/Machine/TideCmds.lean ====
section
/-! DEFINITION. The tide (13, R334-R342): its source, edges, markers and ticks, and the firings of the schedule table that the
tide unit itself performs. -/

namespace Sys2Proof.Machine

def State.modTide (s : State) (f : Tide → Tide) : State := { s with tide := f s.tide }
def State.bumpTide (s : State) (k : Nat) : State := s.modTide (fun t => { t with cnt := bump t.cnt k 1 })

/-! ## TIDE_CONFIG (R339) -/

/-- Form 0. A newly selected source has given no tick yet (R337). -/
def execTideConfigSource (ring : Ring) (s : State) : Host.Outcome State Fault Refusal :=
  .next (done s (ringCmd s ring 0x93 (some 0) (fun s r p =>
    checked s r p [(8, 1, 0), (9, 1, 0x1F)] (
      let f := p.b 9 1
      if bitOf f 0 && fld f 1 3 ≥ s.nports then refuse s r p stUnitAbsent
      else refuse (s.modTide (fun t => { t with
        link := bitOf f 0, port := fld f 1 3, freeRun := bitOf f 4, freeRunning := true, present := false, upstreamFree := false
        lastEdge := none, holdovers := 0, accepts := 0, corr := 0, corrNext := 0, stepTo := none, lastMarker := none })) r p stOk))))

/-- Form 1. -/
def execTideConfigPeriod (ring : Ring) (s : State) : Host.Outcome State Fault Refusal :=
  .next (done s (ringCmd s ring 0x93 (some 1) (fun s r p =>
    checked s r p [(8, 1, 0), (12, 4, 0)] (
      let v := p.b 12 4
      if v < 160 || v > 16000 then refuse s r p stBadParam
      else if !s.tide.sched.isEmpty then refuse s r p stBusy
      else refuse (s.modTide (fun t => { t with period := v })) r p stOk))))

/-- Form 2. -/
def execTideConfigCount (ring : Ring) (s : State) : Host.Outcome State Fault Refusal :=
  .next (done s (ringCmd s ring 0x93 (some 2) (fun s r p =>
    checked s r p [(8, 1, 0), (16, 8, 0), (24, 8, 0)] (
      if s.tide.link then refuse s r p stBadParam
      else refuse (s.modTide (fun t => { t with jump := some (p.b 16 8, p.b 24 8) })) r p stOk))))

/-- Form 3. -/
def execTideConfigOutput (ring : Ring) (s : State) : Host.Outcome State Fault Refusal :=
  .next (done s (ringCmd s ring 0x93 (some 3) (fun s r p =>
    checked s r p [(8, 1, 0), (9, 1, 1), (10, 1, 0)] (
      refuse (s.modTide (fun t => { t with outEn := bitOf (p.b 9 1) 0, pinDelay := p.b 10 1 })) r p stOk))))

/-! ## Ticks -/

/-- The count after a tick: one more, or what form 2 set for it. -/
def countAfter (s : State) : Nat × Option (Nat × Nat) :=
  let n := (s.tideCount.toNat + 1) % 2 ^ 64
  match s.tide.jump with
  | some (v, a) => if n == a then (v, none) else (n, some (v, a))
  | none => (n, none)

/-- A tick: the count rises, the phase starts at `phase`, a step that waits is taken, and the pin gives its pulse (R335,
R336, R337). -/
def tideStep (s : State) (phase : Nat) : State :=
  let (n, jump) := countAfter s
  let per := s.tide.period
  let abs : Int := match s.tide.stepTo with
    | some (dc, dp) => (Int.ofNat n + dc) * Int.ofNat per + Int.ofNat phase + dp
    | none => Int.ofNat n * Int.ofNat per + Int.ofNat phase
  let at_ := if s.tide.stepTo.isSome then (Int.toNat (abs / Int.ofNat per) % 2 ^ 64, Int.toNat (abs % Int.ofNat per)) else (n, phase)
  { s with
    tideCount := BitVec.ofNat 64 at_.1
    tidePhase := at_.2
    tide := { s.tide with
      jump := jump, stepTo := none, corr := s.tide.corrNext, corrNext := 0, meas := s.tide.now - s.tide.ticked, ticked := s.tide.now
      pulses := s.tide.pulses + b2n s.tide.outEn } }

/-- The unit ticks on its own core clock: without an accepted source, or following markers (R336, R337). -/
def ownTicks (s : State) : Bool := s.tide.freeRun || s.tide.freeRunning || s.tide.link

/-- TIDE_TICK (R337): the period is over, with the correction of this tick. -/
def execTideTick (s : State) : Host.Outcome State Fault Refusal :=
  .next (done s (
    if ownTicks s && Int.ofNat s.tide.period + s.tide.corr ≤ Int.ofNat s.tidePhase then tideStep s 0 else s))

/-- Half the width of the window of R335. -/
def edgeWindow (s : State) : Nat := max 2 (s.tide.period / 1024)

/-- PIN_EDGE (R335): an edge is accepted when it follows the last one by the period, within the window; the first edge of
a source that free-runs only starts the measurement. -/
def execPinEdge (s : State) : Host.Outcome State Fault Refusal :=
  let t := s.tide
  .next (done s (
    if t.link || t.freeRun then s
    else
      let near : Bool := match t.lastEdge with
        | some e => t.now ≤ e + t.period + edgeWindow s && e + t.period ≤ t.now + edgeWindow s
        | none => false
      if !near then
        (s.modTide (fun x => { x with
          lastEdge := if x.freeRunning then some x.now else x.lastEdge, accepts := 0 })).bumpTide 1
      else
        let back := t.freeRunning && t.accepts + 1 ≥ 16
        let far := 3 ≤ s.tidePhase - t.pinDelay || 3 ≤ t.pinDelay - s.tidePhase
        let s1 := (s.modTide (fun x => { x with
          lastEdge := some x.now, accepts := x.accepts + 1, holdovers := 0, present := true
          freeRunning := x.freeRunning && !back })).bumpTide 0
        if !t.freeRunning then tideStep s1 t.pinDelay
        else if back then
          let s2 := s1.event 0x1212 14 3 none []
          if far then (s2.event 0x1210 14 3 none []).bumpTide 4 else s2
        else s1))

/-- The unit loses its source: it free-runs (R335). -/
def freeRunStart (s : State) : State :=
  (s.modTide (fun x => { x with freeRunning := true, present := false, lastEdge := none, accepts := 0, holdovers := 0 })).event 0x1211 14 3 none []

/-- HOLDOVER (R335, R336): no edge came by the end of the window, and a tick at the nominal instant stands in for it; or no
marker came for 16 nominal periods. -/
def execHoldover (s : State) : Host.Outcome State Fault Refusal :=
  let t := s.tide
  .next (done s (
    if t.freeRun || t.freeRunning then s
    else if t.link then
      (match t.lastMarker with
       | some m => if m + 16 * t.period ≤ t.now then freeRunStart s else s
       | none => s)
    else
      match t.lastEdge with
      | none => s
      | some e =>
        if e + t.period + edgeWindow s < t.now then
          let s1 := tideStep s (t.pinDelay + (t.now - (e + t.period)))
          let s2 := (s1.modTide (fun x => { x with
            lastEdge := some (e + t.period), ticked := e + t.period, holdovers := x.holdovers + 1, accepts := 0 })).bumpTide 2
          if t.holdovers + 1 ≥ 16 then freeRunStart s2 else s2
        else s))

/-- The difference between the source's tide and the local one at a marker, as counts and phases (R336). -/
def markerDiff (s : State) (m : Marker) (delay : Nat) : Int × Int :=
  let per := s.tide.period
  let total := m.phase + delay
  (Int.ofNat (m.count + total / per) - Int.ofNat m.atCount, Int.ofNat (total % per) - Int.ofNat m.atPhase)

/-- A marker is compared with the local tide, and slewed or stepped (R336). -/
def takeMarker (s : State) (m : Marker) (delay : Nat) : State :=
  let (dc, dp) := markerDiff s m delay
  let net := dp + s.tide.corr + s.tide.corrNext
  if s.tide.stepTo.isSome then s
  else if dc != 0 || 3 ≤ net || net ≤ -3 then
    ((s.modTide (fun t => { t with stepTo := some (dc, dp), corr := 0, corrNext := 0 })).bumpTide 4).event 0x1210 14 3 none []
  else if net != 0 && s.tide.corrNext == 0 then
    (s.modTide (fun t => { t with corrNext := if 0 < net then -1 else 1 })).bumpTide 3
  else s

/-- MARKER (R336): the next marker that the selected port has brought. Sixteen in a row end a free run. -/
def execMarker (port : BitVec 3) (s : State) : Host.Outcome State Fault Refusal :=
  let k := port.toNat
  .next (done s (
    if !s.tide.link || s.tide.freeRun || s.tide.port != k then s
    else match (s.lport k).markers with
    | [] => s
    | m :: rest =>
      let s1 := s.modLport k (fun x => { x with markers := rest })
      let back := s.tide.freeRunning && s.tide.accepts + 1 ≥ 16
      let s2 := (s1.modTide (fun t => { t with
        upstreamFree := m.free, present := true, lastMarker := some t.now, accepts := t.accepts + 1
        freeRunning := t.freeRunning && !back })).bumpTide 7
      takeMarker (if back then s2.event 0x1212 14 3 none [] else s2) m (s.lport k).delay))

/-! ## Firings (R341, R342) -/

/-- The due instant of firing k of an entry: tide count and phase. -/
def dueOf (e : List Byte) (k : Nat) : Nat × Nat := (seTide e + k * sePeriod e, sePhase e)

/-- An entry has no firing after its k-th. -/
def lastFiring (e : List Byte) (k : Nat) : Bool := if seFirings e == 0 then sePeriod e == 0 else k + 1 ≥ seFirings e

/-- Firing k of entry i has started: the next one is awaited, and an entry without one leaves the table. -/
def fired (s : State) (i : Nat) (x : Sched) : State :=
  s.modTide (fun t => { t with
    sched := if lastFiring x.bytes x.next then adel t.sched i else aput t.sched i { x with next := x.next + 1 } })

/-- A firing of the tide unit itself: entry i has the action, and its instant has come; counted, and late when more than 1
cycle has passed (R342). -/
def fire (s : State) (i action : Nat) (body : State → List Byte → Nat → State) : State :=
  match aget? s.tide.sched i with
  | none => s
  | some x =>
    let d := dueOf x.bytes x.next
    if seAction x.bytes != action || cyclesTo s d > 0 then s
    else
      let late := (-(cyclesTo s d)).toNat
      let s1 := (fired s i x).bumpTide 5
      let s2 := if late > 1 then
          lateEvent s1 (if seCtx x.bytes == 0xFF then none else some (seCtx x.bytes)) i ((seSeq x.bytes + x.next) % 65536) (x.next % 2 ^ 32) late
        else s1
      body s2 x.bytes x.next

/-- The run of firing k of an entry (Table 13.6, R341). -/
def firingRun (s : State) (e : List Byte) (i k : Nat) : Run :=
  let f := leAt e 29 1
  let g := if bitOf (seFlags e) 1 then (fld f 2 3 + k) % 8 else fld f 2 3
  { id := s.runId + 1, ctx := seCtx e, handle := leAt e 28 1, seqNo := (seSeq e + k) % 65536, sched := some (i, k), userRing := true
    irq := bitOf (seFlags e) 2, seed := if bitOf (seFlags e) 0 then (leAt e 36 6 + k) % 2 ^ 48 else leAt e 36 6
    explicitGen := if bitOf f 1 then some g else none, gen := 0
    pred := if bitOf f 6 then some (fld (leAt e 30 2) 0 11, BitVec.ofNat 32 (leAt e 32 4), bitOf f 7) else none
    purge := bitOf f 5, due := some (dueOf e k), armed := false, late := false, phase := .accepted, replays := 0, committed := false
    first := none, firstClk := 0, ran := 0, started := 0, timeoutAt := none, outgoing := [] }

/-- Why a firing is not run, as SECTION_RUN would refuse it (R309, R407). -/
def firingRefused (s : State) (x : Run) : Option Nat :=
  match s.usable? x.ctx x.handle with
  | none => some stBadParam
  | some i =>
    if !s.ctxLive x.ctx then some stBadParam
    else if s.sec.error && s.sec.signed then some stSecurity
    else if s.health.expelled || s.sec.attestHolds then some stDenied
    else if ownedByOther s i then some stBusy
    else none

/-- SECTION_START (R341): the next firing of the entry is handed over in time for its switch, once its predecessor has
started. -/
def execSectionStart (i : BitVec 10) (s : State) : Host.Outcome State Fault Refusal :=
  .next (done s (
    match aget? s.tide.sched i.toNat with
    | none => s
    | some x =>
      let r := firingRun s x.bytes i.toNat x.next
      let waits := s.runs.any (fun o => (match o.sched with | some e => e.1 == i.toNat | none => false) && o.first.isNone)
      if seAction x.bytes != 1 || waits || cyclesTo s (dueOf x.bytes x.next) > Int.ofNat (switchLead s r) then s
      else
        let s1 := fired s i.toNat x
        match firingRefused s r with
        | some st => s1.reply r.ctx (r.reply st 0 0 0)
        | none => addRun s1 r .clean))

/-- GAUGE_SIGNAL (R341): as a GAUGE_SET, without a reply; an unmapped virtual ID is logged. -/
def execGaugeSignal (i : BitVec 10) (ecc : Ecc) (s : State) : Host.Outcome State Fault Refusal :=
  .next (done s (fire s i.toNat 2 (fun s1 e _ =>
    let v := fld (leAt e 28 2) 0 11
    gaugeEccOf s1 (seCtx e) v ecc none (fun x =>
      match x.gaugeOf (seCtx e) v with
      | some g => applySignal x g (leAt e 30 1 == 1) (BitVec.ofNat 32 (leAt e 32 4)) 0 0 true
      | none => x.event 0x3160 14 3 (some (seCtx e)) []))))

/-- A window of some lanes of a port, open until a clock (R341). -/
def openLanes (x : LinkPort) (lanes until_ : Nat) : LinkPort :=
  (List.range 3).foldl (fun y l => if bitOf lanes l then { y with windows := aput y.windows l (max until_ (agetD y.windows l 0)) } else y) x

/-- LINK_WINDOW (R341). -/
def execLinkWindow (i : BitVec 10) (s : State) : Host.Outcome State Fault Refusal :=
  .next (done s (fire s i.toNat 3 (fun s1 e _ =>
    ((List.range s1.nports).filter (fun k => bitOf (leAt e 28 1) k && windowed s1 k)).foldl (fun y k =>
      y.modLport k (fun x => openLanes x (leAt e 29 1) (y.clk + leAt e 32 4))) s1)))

/-- LINK_WINDOW_CLOSE: windows whose duration has passed are closed. -/
def execLinkWindowClose (s : State) : Host.Outcome State Fault Refusal :=
  .next (done s { s with links := { s.links with
    ports := s.links.ports.map (fun e => (e.1, { e.2 with windows := e.2.windows.filter (fun w => s.clk < w.2) })) } })

end Sys2Proof.Machine
end

