-- ==== Sys2Proof/Machine/Replica.lean ====
section
/-! DEFINITION. Digests and replica votes (15, R379-R384), and the service records that carry them (R332). -/

namespace Sys2Proof.Machine

/-! ## The tree of hashes (R379) -/

/-- A leaf: 1 MiB, the last one shorter. -/
def leafBytes : Nat := 2 ^ 20
def leafCount (len : Nat) : Nat := (len + leafBytes - 1) / leafBytes

/-- Start and length of leaf i. -/
def leafAt (start len i : Nat) : Nat × Nat := (start + leafBytes * i, min leafBytes (len - leafBytes * i))

/-- The hash of a leaf; a poisoned leaf hashes to ones. -/
def leafHash (s : State) (start len i : Nat) : List Byte :=
  let l := leafAt start len i
  if s.devPoison l.1 l.2 then List.replicate 32 0xFF else sha256 (0x00 :: s.devRead l.1 l.2)

/-- One level of the tree: pairs from the left, an unpaired last node unchanged. -/
def hashPairs : List (List Byte) → List (List Byte)
  | a :: b :: t => sha256 (0x01 :: a ++ b) :: hashPairs t
  | l => l

/-- The root, by fuel: a level less at each step. -/
def hashRoot : Nat → List (List Byte) → List Byte
  | _, [] => []
  | _, [a] => a
  | 0, a :: _ => a
  | n + 1, l => hashRoot n (hashPairs l)

def leafHashes (s : State) (start len : Nat) : List (List Byte) := (List.range (leafCount len)).map (leafHash s start len)
def poisonedLeaves (s : State) (start len : Nat) : Nat :=
  ((List.range (leafCount len)).filter (fun i => let l := leafAt start len i; s.devPoison l.1 l.2)).length

def digestRoot (s : State) (start len : Nat) : List Byte := hashRoot 64 (leafHashes s start len)

/-- The record of Table 15.6. -/
def digestRecord (s : State) (start len : Nat) : List Byte :=
  leBytes 4 0x444B544C ++ leBytes 2 1 ++ leBytes 2 0 ++ leBytes 8 start ++ leBytes 8 len ++ leBytes 4 (leafCount len) ++
  leBytes 4 (poisonedLeaves s start len) ++ digestRoot s start len ++ (leafHashes s start len).flatten

/-- A range touches a staged-frame area (R235). -/
def touchesFrames (a n : Nat) : Bool :=
  (pieces a n).any (fun x => match tileAt x.1 with | some (_, o) => o + x.2 > 0xFC0000 | none => false)

/-- DIGEST. -/
def execDigest (ring : Ring) (s : State) : Host.Outcome State Fault Refusal :=
  .next (done s (ringCmdOf s ring 0x70 none (fun _ p => if touchesFrames (p.b 16 8) (p.b 24 8) then [] else [(p.b 16 8, p.b 24 8)]) (fun s r p =>
    checked s r p [(8, 1, 1), (16, 8, 0), (24, 8, 0), (32, 8, 0)] (
      let host := bitOf (p.b 8 1) 0
      let a := p.b 16 8
      let n := p.b 24 8
      let len := 64 + 32 * leafCount n
      if a % 64 != 0 || n % 64 != 0 || n == 0 || touchesFrames a n then refuse s r p stBadParam
      else if !mayReach s r false a n || !mayReach s r host (p.b 32 8) len then refuse s r p stDenied
      else
        let bad := poisonedLeaves s a n != 0
        let s1 := cpCharge (noteAccess s 0 a n) p.ctx false a n false
        let s2 := if bad then s1.event 0x3303 14 5 (if r < 64 then some r else none) [] else s1
        answer (cmdWrite s2 ring p host (p.b 32 8) (digestRecord s a n)) r p (if bad then stPoisoned else stOk) len 0 0))))

/-! ## Groups (R380) -/

/-- The members that a descriptor lists. -/
def groupMembers (p : Pkt) : List Nat := (List.range (p.b 10 1)).map (fun i => p.b (16 + 2 * i) 2)

/-- No member is listed twice. -/
def noRepeat : List Nat → Bool
  | [] => true
  | a :: t => !t.contains a && noRepeat t

def execReplicaGroupDefine (ring : Ring) (s : State) : Host.Outcome State Fault Refusal :=
  .next (done s (ringCmd s ring 0x71 (some 0) (fun s r p =>
    checked s r p [(8, 1, 0), (9, 1, 0), (10, 1, 0), (11, 1, 0), (16, 2 * p.b 10 1, 0)] (
      let n := p.b 10 1
      let ms := groupMembers p
      if p.b 9 1 > 15 || n < 3 || n > 16 || !noRepeat ms || ms[p.b 11 1]? != some s.deviceId then refuse s r p stBadParam
      else refuse { s with health := { s.health with groups := aput s.health.groups (p.b 9 1) ⟨ms, p.b 11 1⟩ } } r p stOk))))

/-- Form 1; the exchanges of the group go with it. -/
def execReplicaGroupRemove (ring : Ring) (s : State) : Host.Outcome State Fault Refusal :=
  .next (done s (ringCmd s ring 0x71 (some 1) (fun s r p =>
    checked s r p [(8, 1, 0), (9, 1, 0)] (
      let g := p.b 9 1
      if (aget? s.health.groups g).isNone then refuse s r p stBadParam
      else refuse { s with health := { s.health with
        groups := adel s.health.groups g, exchanges := s.health.exchanges.filter (fun x => x.group != g) } } r p stOk))))

/-- Form 2 (R380, R383). -/
def execClearExpulsion (ring : Ring) (s : State) : Host.Outcome State Fault Refusal :=
  .next (done s (ringCmd s ring 0x71 (some 2) (fun s r p =>
    checked s r p [(8, 1, 0)] (
      refuse ({ s with health := { s.health with expelled := false } }.event 0x1304 14 5 none []) r p stOk))))

/-! ## Exchanges (R381) -/

/-- Body of a digest record. -/
def voteBody (group : Nat) (due : Nat) (root : Option (List Byte)) : List Byte :=
  leBytes 1 group ++ leBytes 1 (b2n root.isNone) ++ leBytes 6 0 ++ leBytes 8 due ++ root.getD (List.replicate 32 0)

/-- DIGEST_EXCHANGE: the range is digested at the due instant, and the root sent to every other member. -/
def execDigestExchange (i : BitVec 10) (flips : Option Flips) (s : State) : Host.Outcome State Fault Refusal :=
  .next (done s (fire s i.toNat 4 (fun s0 e k =>
    let g := leAt e 28 1
    let a := leAt e 32 8
    let n := leAt e 40 8
    let s1 := errorAt s0 a n flips
    let due := (dueOf e k).1 % 2 ^ 64
    match aget? s1.health.groups g with
    | none => s1
    | some grp =>
      let bad := poisonedLeaves s1 a n != 0
      let root := if bad || !s1.populated a n || n == 0 then none else some (digestRoot s1 a n)
      let s2 := noteAccess s1 5 a n
      let s3 := if bad then s2.event 0x3303 14 5 none [] else s2
      let x : Exchange := { group := g, due := due, ends := due + leAt e 30 2, own := root, got := [] }
      let s4 := { s3 with health := { s3.health with exchanges := s3.health.exchanges ++ [x] } }
      (grp.members.filter (fun d => d != s.deviceId)).foldl (fun y d =>
        serviceSend y (serviceRec 2 d s.deviceId (voteBody g due root)) none) s4)))

/-- A digest record that matches an exchange in progress is kept, once per member (R381). -/
def keepRecord (s : State) (src : Nat) (rec : List Byte) : State :=
  let g := leAt rec 8 1
  let due := leAt rec 16 8
  let root := if bitOf (leAt rec 9 1) 0 then none else some ((rec.drop 24).take 32)
  match (aget? s.health.groups g).bind (fun x => x.members.findIdx? (fun d => d == src && d != s.deviceId)) with
  | none => s
  | some i =>
    { s with health := { s.health with exchanges := s.health.exchanges.map (fun x =>
      if x.group == g && x.due == due && !x.got.any (fun m => m.1 == i) then { x with got := x.got ++ [(i, root)] } else x) } }

/-- SERVICE_RECORD (R332): the next record that a port has taken; one for another device goes on. -/
def execServiceRecord (port : BitVec 3) (s : State) : Host.Outcome State Fault Refusal :=
  let k := port.toNat
  .next (done s (
    match (s.lport k).svcIn with
    | [] => s
    | rec :: rest =>
      let s1 := s.modLport k (fun x => { x with svcIn := rest })
      let src := leAt rec 4 2
      if leAt rec 2 2 != s.deviceId then serviceSend s1 rec (some k)
      else if fld (leAt rec 0 1) 1 3 == 1 then forwardStatus s1 src (leAt rec 8 2) (leAt rec 10 1)
      else if fld (leAt rec 0 1) 1 3 == 2 then keepRecord s1 src rec
      else s1))

/-! ## The vote (R382, R383) -/

/-- Roots held, by member index. -/
def heldRoots (g : Group) (x : Exchange) : List (Nat × List Byte) :=
  (match x.own with | some v => [(g.own, v)] | none => []) ++
    x.got.filterMap (fun m => m.2.map (fun v => (m.1, v)))

/-- The root that more than half the members hold. -/
def majorityRoot (g : Group) (x : Exchange) : Option (List Byte) :=
  let held := heldRoots g x
  (held.map (·.2)).find? (fun v => g.members.length < 2 * (held.filter (fun m => m.2 == v)).length)

def State.bumpSdc (s : State) (k n : Nat) : State := { s with health := { s.health with sdc := bump s.health.sdc k n } }

/-- What a member concludes from the records it holds. -/
def castVote (s : State) (g : Nat) (grp : Group) (x : Exchange) : State :=
  let maj := majorityRoot grp x
  let s1 := { s with health := { s.health with
    exchanges := s.health.exchanges.filter (fun y => !decide (y = x)), lastGroup := g, lastMajority := maj.isSome } }.bumpSdc 2 1
  match maj with
  | none => (s1.bumpSdc 3 1).event 0x3302 14 5 none []
  | some v =>
    if x.own.isSome && x.own != some v then
      ({ s1 with health := { s1.health with expelled := true } }.bumpSdc 5 1).jobFault 0x4301 14 5 none none 0 []
    else
      (heldRoots grp x).foldl (fun y m =>
        if m.2 != v then (y.bumpSdc 4 1).event 0x3301 14 5 none (detailOf [(2, grp.members.getD m.1 0)]) else y) s1

/-- VOTE: the oldest exchange of the group that holds every member's record, or whose window has ended. -/
def execVote (group : BitVec 4) (s : State) : Host.Outcome State Fault Refusal :=
  let g := group.toNat
  .next (done s (
    match aget? s.health.groups g with
    | none => s
    | some grp =>
      match s.health.exchanges.find? (fun x => x.group == g && (x.got.length + 1 ≥ grp.members.length || x.ends ≤ s.tideCount.toNat)) with
      | none => s
      | some x => castVote s g grp x))

end Sys2Proof.Machine
end

