-- ==== Sys2Proof/Machine/Screens.lean ====
section
/-! DEFINITION. Spare tiles and screens (15, R370-R378): the rotation, screens asked for, retirement, screen packs. -/

namespace Sys2Proof.Machine

/-! ## Tiles -/

/-- A tile that can be screened or serve: on a die in service, neither fused out nor retired. -/
def healthyTile (s : State) (p : Nat) : Bool :=
  pDie p < s.dies && s.unitOn 0 (pDie p) && !s.part.fusedOut.contains p && !(s.tile p).retired

/-- The physical tile at a place of a die's screen order. -/
def screenPlace (d k : Nat) : Nat := 272 * d + k % 272

/-- A tile that no pending move is about: one that serves can be vacated, any other is an idle spare. -/
def settledTile (s : State) (p : Nat) : Bool :=
  match s.logical p with
  | some n => !s.moves.any (fun m => m.logical == n)
  | none => idleTile s p

/-- The next tile of the rotation, and how many places it skips. -/
def rotationNext (s : State) (d : Nat) : Option Nat :=
  findBelow 272 (fun k =>
    healthyTile s (screenPlace d ((s.scr d).pos.toNat + k)) && settledTile s (screenPlace d ((s.scr d).pos.toNat + k)))

/-- The share of the die's tile time that the last screen took has been made up for (R371). -/
def dutyAllows (s : State) (x : Screener) : Bool :=
  s.health.duty != 0 && 1000 * x.spent ≤ 272 * s.health.duty * (s.clk - x.since)

/-- Cycles of a tile's screen (R371). -/
def screenCycles (s : State) : Nat := s.health.packMs * 1600000

/-- A screen begins (R373): the tile runs the pack's records until its time ends. -/
def beginScreen (s : State) (d : Nat) : State :=
  (s.modTile (s.scr d).cur (fun t => { t with screening := true })).modScr d (fun x => { x with step := .running, since := s.clk })

/-- The screener takes a tile: an idle spare in place, or one whose logical tile first moves onto an idle spare (R370). -/
def takeTile (s : State) (d p : Nat) (kind : ScrKind) (cmd : Option (Nat × Cmd)) : State :=
  let s1 := s.modScr d (fun x => { x with cur := p, kind := kind, cmd := cmd, vacated := s.logical p, tideGo := false })
  match s.logical p, idleSpare s d with
  | none, _ => beginScreen s1 d
  | some n, some q => { s1 with moves := s1.moves ++ [(⟨n, q⟩ : Move)] }.modScr d (fun x => { x with step := .waitMove })
  | some _, none => s

/-- SCREEN_TILE_START: a vacated tile's screen begins; else the next tile is taken, one asked for before the rotation's
(R370, R371, R375, R378). -/
def execScreenTileStart (die : BitVec 2) (s : State) : Host.Outcome State Fault Refusal :=
  let d := die.toNat
  let x := s.scr d
  .next (done s (
    if d ≥ s.dies || !s.unitOn 0 d || !s.ready then s
    else match x.step with
    | .ready => if healthySpares s d == 0 then s else beginScreen s d
    | .idle =>
      if !dutyAllows s x || (idleSpare s d).isNone || (s.health.tideMode && !x.tideGo) then s
      else match x.ahead with
      | (p, c) :: rest =>
        let s1 := s.modScr d (fun y => { y with ahead := rest })
        if healthyTile s p && !settledTile s p then s
        else if healthyTile s p then takeTile s1 d p (if c.isSome then .asked else .suspect) c
        else match c with
          | some (r, cmd) => s1.complete r cmd (cmd.reply stUnitAbsent 0 0 0)
          | none => s1
      | [] =>
        (match rotationNext s d with
         | none => s
         | some k =>
           let at_ := x.pos.toNat + k
           takeTile (s.modScr d (fun y => { y with
             pos := BitVec.ofNat 9 (at_ % 272), rounds := if at_ ≥ 272 then y.rounds + 1 else y.rounds }))
             d (screenPlace d at_) .rotation none)
    | _ => s))

/-- The rotation goes on to the next place; a full pass of the die is counted. -/
def Screener.advance (x : Screener) : Screener :=
  if x.kind == .rotation then
    if x.pos.toNat + 1 ≥ 272 then { x with pos := 0, rounds := x.rounds + 1 } else { x with pos := x.pos + 1 }
  else x

/-- A screen has ended, passed or not: its command completes. -/
def endScreen (s : State) (d : Nat) (passed : Bool) : State :=
  let x := s.scr d
  let s1 := (s.modTile x.cur (fun t => { t with screening := false })).modScr d (fun y =>
    { y.advance with step := .idle, cmd := none, spent := s.clk - x.since })
  let s2 := { s1 with health := { s1.health with suspects := s1.health.suspects.filter (· != x.cur) } }
  match x.cmd with
  | some (r, c) => s2.complete r c (c.reply stOk (b2n passed) 0 0)
  | none => s2

/-- SCREEN_TILE_END: the tile time is over and every run passed, or a run failed, with the record that failed (R373-R375).
After a pass the vacated tile's logical tile moves back, but that of a suspect stays. -/
def execScreenTileEnd (die : BitVec 2) (failed : Option (BitVec 16)) (s : State) : Host.Outcome State Fault Refusal :=
  let d := die.toNat
  let x := s.scr d
  .next (done s (
    if x.step != .running then s
    else match failed with
    | some rec =>
      if rec.toNat < s.health.packRecords then
        (endScreen (retireTile (s.bumpSdc 1 1) x.cur rec.toNat) d false).modScr d (fun y => { y with vacated := none })
      else s
    | none =>
      if s.clk - x.since < screenCycles s then s
      else
        let s1 := endScreen (s.bumpSdc 0 1) d true
        match x.vacated with
        | some n =>
          if x.kind == .suspect then s1.modScr d (fun y => { y with vacated := none })
          else { s1 with moves := s1.moves ++ [(⟨n, x.cur⟩ : Move)] }.modScr d (fun y => { y with step := .waitReturn })
        | none => s1))

/-! ## SCREEN_RUN (R378) -/

/-- The form that names tile p: what p must be. -/
def tileParam (s : State) (p : Nat) : Option Nat :=
  if p ≥ 1088 then some stBadParam
  else if pDie p ≥ s.dies || !s.unitOn 0 (pDie p) || s.part.fusedOut.contains p then some stUnitAbsent
  else none

/-- Form 0. A tile that is retired already cannot be screened. -/
def execScreenRunScreen (ring : Ring) (s : State) : Host.Outcome State Fault Refusal :=
  .next (done s (ringCmd s ring 0x72 (some 0) (fun s r p =>
    checked s r p [(8, 1, 0), (10, 2, 0)] (
      let t := p.b 10 2
      match tileParam s t with
      | some st => refuse s r p st
      | none =>
        if (s.tile t).retired then refuse s r p stUnitAbsent
        else if (s.logical t).isSome && (idleSpare s (pDie t)).isNone then refuse s r p stNoResource
        else
          (accept s r p [t]).modScr (pDie t) (fun x => { x with ahead := x.ahead ++ [(t, some (r, p.cmd [t]))] })))))

/-- A tile that its screener holds is let go: the command that asked for the screen ends. -/
def abandonScreen (s : State) (p : Nat) : State :=
  let d := pDie p
  let x := s.scr d
  if x.cur == p && (x.step == .running || x.step == .ready) then
    (endScreen s d false).modScr d (fun y => { y with vacated := none })
  else if x.cur == p && x.step == .waitReturn then
    { s with moves := s.moves.filter (fun m => x.vacated != some m.logical) }.modScr d (fun y => { y with step := .idle, vacated := none })
  else s

/-- A move that cannot be made is given up: the screen that waited for it ends unmade, and a retirement ends with `NO_RESOURCE`. -/
def giveUpMove (s : State) (m : Move) : State :=
  let d := lDie m.logical
  let x := s.scr d
  let waits := x.step == .waitMove && x.vacated == some m.logical
  let gone := x.retire.filter (fun e => s.phys m.logical == e.1)
  let s1 := { s with moves := s.moves.filter (fun y => y.logical != m.logical) }.modScr d (fun y =>
    { y with
      step := if waits then .idle else y.step
      vacated := if waits then none else y.vacated
      cmd := if waits then none else y.cmd
      retire := y.retire.filter (fun e => s.phys m.logical != e.1) })
  ((if waits then x.cmd.toList else []) ++ gone.map (·.2)).foldl (fun y e =>
    y.complete e.1 e.2 (e.2.reply stNoResource 0 0 0)) s1

/-- A spare that a pending move is bound for has been retired: the move takes another idle spare, or is given up (log 63). -/
def rebindMove (s : State) (p : Nat) : State :=
  match s.moves.find? (fun m => m.dest == p) with
  | none => s
  | some m =>
    match idleSpare s (pDie p) with
    | some q => { s with moves := s.moves.map (fun x => if x.logical == m.logical then { x with dest := q } else x) }
    | none => giveUpMove s m

/-- Form 1. A tile that serves no logical tile is retired at once; another once its logical tile has moved. -/
def execScreenRunRetire (ring : Ring) (s : State) : Host.Outcome State Fault Refusal :=
  .next (done s (ringCmd s ring 0x72 (some 1) (fun s r p =>
    checked s r p [(8, 1, 0), (10, 2, 0)] (
      let t := p.b 10 2
      match tileParam s t with
      | some st => refuse s r p st
      | none =>
        if (s.tile t).retired then refuse s r p stOk
        else match s.logical t with
        | none => refuse (rebindMove (retireTile (abandonScreen s t) t noRecord) t) r p stOk
        | some n =>
          let wait (y : State) : State :=
            (accept y r p [t]).modScr (pDie t) (fun x => { x with retire := x.retire ++ [(t, r, p.cmd [t])] })
          if s.moves.any (fun m => m.logical == n) then wait s
          else match idleSpare s (pDie t) with
            | some q => wait { s with moves := s.moves ++ [⟨n, q⟩] }
            | none => refuse s r p stNoResource))))

/-- Form 2. -/
def execScreenRunSetCtl (ring : Ring) (s : State) : Host.Outcome State Fault Refusal :=
  .next (done s (ringCmd s ring 0x72 (some 2) (fun s r p =>
    checked s r p [(8, 1, 0), (12, 1, 0), (13, 1, 0), (14, 1, 1)] (
      if p.b 12 1 > 15 || p.b 13 1 > 15 then refuse s r p stBadParam
      else refuse { s with health := { s.health with duty := p.b 12 1, suspect := p.b 13 1, tideMode := bitOf (p.b 14 1) 0 } } r p stOk))))

/-! ## Screen packs (R376, R377, Tables 15.4 and 15.5) -/

def packRecord (bs : List Byte) (i : Nat) : List Byte := (bs.drop (128 + 16448 * i)).take 16448

/-- Magic, version, length, counts and reserved bytes of a pack. -/
def packForm (bs : List Byte) : Bool :=
  let n := leAt bs 20 4
  leAt bs 0 4 == 0x504B544C && leAt bs 4 2 == 1 && leAt bs 6 2 < 4 && leAt bs 12 4 == bs.length &&
  1000 ≤ leAt bs 16 4 && leAt bs 16 4 ≤ 60000 && 1 ≤ n && n ≤ 4096 && leAt bs 28 4 == 0 && allZero ((bs.drop 64).take 64) &&
  bs.length == 128 + 16448 * n + 16224

/-- The ranges of a test record lie below the staged-frame area and the spillway, and its reserved bytes are zero. -/
def packRecordOk (e : List Byte) : Bool :=
  leAt e 16384 3 % 64 == 0 && leAt e 16388 3 % 64 == 0 &&
  leAt e 16384 3 + leAt e 16388 3 ≤ 0xFB0000 && leAt e 16392 3 + leAt e 16396 3 ≤ 0xFB0000 &&
  leAt e 16387 1 == 0 && leAt e 16391 1 == 0 && leAt e 16395 1 == 0 && leAt e 16399 1 == 0 && leAt e 16406 2 == 0 && leAt e 16412 4 == 0

/-- The digest of a pack: its own bytes and the signature block read as zero. -/
def packDigestOk (bs : List Byte) : Bool :=
  sha256 (bs.take 32 ++ List.replicate 32 0 ++ (bs.take (bs.length - 16224)).drop 64 ++ List.replicate 16224 0) == (bs.drop 32).take 32

/-- A vendor slot verifies (R396). -/
def vendorSlotOk (s : State) (k : Nat) : Bool := k < 3 && s.part.vendorSlots.getLsbD k && !s.part.vendorRevoked.getLsbD k

/-- The refusal of a pack, none when it is accepted. -/
def packRefused (s : State) (bs : List Byte) (sigOk : Bool) : Option Nat :=
  if !packForm bs then some stBadParam
  else if !packDigestOk bs || !vendorSlotOk s (leAt bs 24 4) || !sigOk then some stImageSignature
  else if !bitOf (leAt bs 6 2) (b2n s.part.is1620) then some stImageIdentity
  else if !(List.range (leAt bs 20 4)).all (fun i => packRecordOk (packRecord bs i)) then some stBadParam
  else if leAt bs 8 4 ≤ s.health.pack then some stDenied
  else none

/-- SCREEN_PACK_LOAD. -/
def execScreenPackLoad (ring : Ring) (sigOk : Bool) (s : State) : Host.Outcome State Fault Refusal :=
  .next (done s (ringCmdOf s ring 0x73 none (fun _ p => if bitOf (p.b 8 1) 0 then [] else [(p.b 16 8, p.b 24 4)]) (fun s r p =>
    checked s r p [(8, 1, 1), (16, 8, 0), (24, 4, 0)] (
      if s.sec.error then refuse s r p stSecurity
      else
        let host := bitOf (p.b 8 1) 0
        let bs := s.anyRead host (p.b 16 8) (p.b 24 4)
        let s1 := if host then s else noteAccess s 5 (p.b 16 8) (p.b 24 4)
        if s.anyPoison host (p.b 16 8) (p.b 24 4) then refuse s1 r p stPoisoned
        else match packRefused s bs sigOk with
        | some st => refuse s1 r p st
        | none =>
          refuse ({ s1 with health := { s1.health with
            pack := leAt bs 8 4, packRecords := leAt bs 20 4, packMs := leAt bs 16 4 } }.event 0x1301 14 5 none []) r p stOk))))

/-! ## SCREEN (R378) -/

/-- An action-5 firing lets the screeners of the dies it names start. -/
def execScreen (i : BitVec 10) (s : State) : Host.Outcome State Fault Refusal :=
  .next (done s (fire s i.toNat 5 (fun s1 e _ =>
    { s1 with health := { s1.health with
      scr := s1.health.scr.mapIdx (fun d x => if bitOf (leAt e 28 1) d then { x with tideGo := true } else x) } })))

end Sys2Proof.Machine
end

