-- ==== Sys2Proof/Machine/Units.lean ====
section
/-! DEFINITION. Units in and out of service (R312, R390, R423), the smallest set and the service level (R389), the warden (R385,
R386), the writing of the log (R391) and the loss of a memory unit (R390). -/

namespace Sys2Proof.Machine

/-! ## The service level (R389, Table 15.8) -/

/-- A tile that passed its tests and is not retired, on a die in service or not (R23). -/
def soundTile (s : State) (p : Nat) : Bool := !s.part.fusedOut.contains p && !(s.tile p).retired

/-- The physical tiles of a field die. -/
def dieTiles (d : Nat) : List Nat := (List.range 272).map (fun k => 272 * d + k)

/-- A field die has its 256 healthy tiles (R23). -/
def dieHealthy (s : State) (d : Nat) : Bool := 256 ≤ ((dieTiles d).filter (soundTile s)).length

/-- The part of R389 that units make up: a field die in service with an HBM3E stack of its own. -/
def smallestSet (s : State) : Bool :=
  (List.range s.dies).any (fun d => s.unitOn 0 d && dieHealthy s d && (s.memOn (2 * d) || s.memOn (2 * d + 1)))

/-- The level that the units in service give: 0 none, 1 reduced, 2 full. -/
def unitLevel (s : State) : Nat :=
  if !smallestSet s then 0
  else if (List.range s.dies).all (s.unitOn 0) && (List.range s.nstacks).all s.memOn then 2 else 1

def State.setLevel (s : State) : State := { s with power := { s.power with level := unitLevel s } }

/-! ## Bring-up (R376, R423) -/

/-- The displacement list that a die starts with: each logical tile whose home is not sound goes to the lowest sound tile
of row 16 that is left (R376). -/
def homeDisplacements (s : State) (d : Nat) : Assoc Nat :=
  let spares := ((List.range 16).map (fun x => pOf d x 16)).filter (soundTile s)
  let lost := ((List.range 256).map (fun k => 256 * d + k)).filter (fun n => !soundTile s (pOf d (lX n) (lY n)))
  lost.zip spares

/-- A field die brought up: its tile stores are zeroed, tiles that fail the generator self-test are retired, and its
displacement list is built anew. -/
def bringUpDie (s : State) (d : Nat) (bad : List Nat) : State :=
  let s1 := { s with
    mem := s.mem.zero (tileBase (272 * d)) (272 * 2 ^ 24)
    tiles := (s.tiles.filter (fun e => pDie e.1 != d || e.2.retired)).map (fun e =>
      if pDie e.1 == d then (e.1, { Tile.reset with retired := true }) else e)
    moves := s.moves.filter (fun m => lDie m.logical != d)
    displaced := s.displaced.filter (fun e => lDie e.1 != d) }
  let s2 := ((dieTiles d).filter (fun p => bad.contains p && soundTile s1 p)).foldl (fun x p => retireTile x p noRecord) s1
  { s2 with displaced := (homeDisplacements s2 d).foldl (fun t e => aput t e.1 e.2) s2.displaced }

/-- A memory unit brought up: trained, at its capacity, its memory holding nothing. -/
def bringUpMem (s : State) (u cap : Nat) : State :=
  { s.setMunit u { s.munit u with cap := cap, trained := true, lost := false } with
    mem := s.mem.zero (unitBase u) (if u < 8 then 2 ^ 37 else 2 ^ 38) }

/-- Usable capacity that a port trains at (R266). -/
def portCap (gib : Nat) : Nat := if gib ≥ 192 then 192 else if gib ≥ 96 then 96 else if gib ≥ 48 then 48 else if gib ≥ 24 then 24 else 0

/-- The memory unit of a unit of class 1 or 2. -/
def memOf (cls i : Nat) : Nat := if cls == 1 then i else 8 + i

/-- Power-good input of step 1 (Tables 17.5 and 17.9). -/
def pgOf (cls i : Nat) : Nat := if cls == 0 then 4 + i else if cls == 1 then 8 else 9

/-- The first step of Table 17.5 that fails, 0 none: step 1 by the power-good input, a later one as met. -/
def failsAt (s : State) (cls i met : Nat) : Nat :=
  let last := if cls == 0 then 5 else if cls ≤ 2 then 6 else 0
  if cls > 2 then 0
  else if !bitOf s.power.pg (pgOf cls i) then 1
  else if 2 ≤ met && met ≤ last then met
  else if cls == 2 && portCap (leAt s.power.board.portGib i 1) == 0 then 5
  else 0

/-! ## Requests (R312) -/

/-- A unit exists on the part, and its die is in service. -/
def unitPresent (s : State) (cls i : Nat) : Bool :=
  match cls with
  | 0 => i < s.dies
  | 1 => i < s.nstacks && s.unitOn 0 (i / 2)
  | 2 => i < s.nlp
  | 3 => i < s.nports
  | _ => 32 ≤ i || (i < 8 * s.dies && s.unitOn 0 (i / 8))

/-- Number of units of a class that an index can name. -/
def unitCount (cls : Nat) : Nat := if cls == 0 then 4 else if cls ≤ 3 then 8 else 40

def State.setUnit (s : State) (cls i : Nat) (x : UnitSt) : State := { s with units := aput s.units (256 * cls + i) x }

/-- The state a unit is in or is moving toward. -/
def UnitSt.toward (x : UnitSt) : Bool := x.phase == .enabled || x.phase == .enabling
def UnitSt.moving (x : UnitSt) : Bool := x.phase == .enabling || x.phase == .disabling
/-- The final target. -/
def UnitSt.final (x : UnitSt) : Bool := if x.held.isEmpty then x.toward else !x.toward

/-- A unit with its service taken away, and every stack with it that is being disabled, for the test of what is left. -/
def without (s : State) (cls i : Nat) : State :=
  let gone := (List.range 8).filter (fun u => (cls == 1 && u == i) || (s.unitSt 1 u).phase == .disabling)
  gone.foldl (fun x u => x.setMunit u { x.munit u with trained := false })
    (s.setUnit cls i { s.unitSt cls i with phase := .disabled })

/-- A disable that must not start (R312). -/
def disableBusy (s : State) (cls i : Nat) : Bool :=
  (cls ≤ 2 && !s.polders.isEmpty) || (cls ≤ 1 && !smallestSet (without s cls i)) ||
  (cls == 3 && s.polders.any (fun e => e.2.ports.getLsbD i)) || (cls == 4 && s.ms.queues.any (fun e => e.2.pump == i))

/-- Status of a request when the unit reaches the state: `DEFERRED` for one that joined or made a held request. -/
def unitReply (s : State) (status : Nat → Nat) (r0 : Nat) (cs : List (Nat × Cmd)) : State :=
  cs.foldl (fun x e => x.complete e.1 e.2 (e.2.reply (status (e.2.aux.headD 0)) r0 0 0)) s

/-- `OK`, or `DEFERRED` for a request that was held. -/
def okOrDeferred (held : Nat) : Nat := if held == 1 then stDeferred else stOk

/-- A request to enable or disable a unit. -/
def unitRequest (s : State) (r : Nat) (p : Pkt) (on : Bool) : State :=
  let cls := p.b 8 1
  let i := p.b 9 1
  let x := s.unitSt cls i
  if cls > 4 || i ≥ unitCount cls then refuse s r p stBadParam
  else if !unitPresent s cls i then refuse s r p stUnitAbsent
  else if on == x.final then
    if !x.moving then refuse s r p stOk
    else if x.held.isEmpty then (accept s r p [0, cls, i]).setUnit cls i { x with joined := x.joined ++ [(r, p.cmd [0, cls, i])] }
    else (accept s r p [1, cls, i]).setUnit cls i { x with held := x.held ++ [(r, p.cmd [1, cls, i])] }
  else if !x.held.isEmpty || (!on && disableBusy s cls i) then refuse s r p stBusy
  else if x.moving then (accept s r p [1, cls, i]).setUnit cls i { x with held := [(r, p.cmd [1, cls, i])] }
  else
    (accept s r p [0, cls, i]).setUnit cls i
      { phase := if on then .enabling else .disabling, joined := [(r, p.cmd [0, cls, i])], held := [] }

/-- UNIT_ENABLE. -/
def execUnitEnable (ring : Ring) (s : State) : Host.Outcome State Fault Refusal :=
  .next (done s (ringCmd s ring 0x90 none (fun s r p => checked s r p [(8, 1, 0), (9, 1, 0)] (unitRequest s r p true))))

/-- UNIT_DISABLE. -/
def execUnitDisable (ring : Ring) (s : State) : Host.Outcome State Fault Refusal :=
  .next (done s (ringCmd s ring 0x91 none (fun s r p => checked s r p [(8, 1, 0), (9, 1, 0)] (unitRequest s r p false))))

/-! ## The end of a transition (R312, R390) -/

/-- The screener of a die that leaves service stops, and its commands end. -/
def dropScreener (s : State) (d : Nat) : State :=
  let x := s.scr d
  let cs := x.cmd.toList ++ x.ahead.filterMap (·.2) ++ x.retire.map (·.2)
  unitReply ({ s with moves := s.moves.filter (fun m => lDie m.logical != d) }.modScr d (fun y =>
    { y with step := .idle, vacated := none, cmd := none, ahead := [], retire := [] })) (fun _ => stUnitAbsent) 0 cs

/-- What a disable that completes does to the unit. -/
def unitOff (s : State) (cls i : Nat) : State :=
  match cls with
  | 0 => (dropScreener s i).setLevel
  | 1 => (s.setMunit i { s.munit i with trained := false }).setLevel
  | 2 => s.setMunit (8 + i) { s.munit (8 + i) with trained := false }
  | 3 =>
    let s1 := if (s.lport i).state ≥ 2 then portDown s i (s.lport i).step else s
    s1.modLport i (fun x => { x with state := 0, tx := [], svc := [] })
  | _ => s

/-- What an enable that completes does to the unit. -/
def unitUp (s : State) (cls i : Nat) : State :=
  match cls with
  | 0 => (bringUpDie s i (s.power.board.generatorFail.map (·.toNat))).setLevel
  | 1 => (bringUpMem s i 96).setLevel
  | 2 => bringUpMem s (8 + i) (portCap (leAt s.power.board.portGib i 1))
  | 3 => s.modLport i (fun x => { x with state := 1 })
  | _ => s

/-- A held request starts once the transition before it has ended; one whose state the unit is in completes at once. -/
def startHeld (s : State) (cls i : Nat) (on : Bool) (cs : List (Nat × Cmd)) : State :=
  let x := s.unitSt cls i
  if cs.isEmpty || x.toward == on then unitReply s okOrDeferred 0 cs
  else if !on && disableBusy s cls i then unitReply s (fun _ => stBusy) 0 cs
  else s.setUnit cls i { phase := if on then .enabling else .disabling, joined := cs, held := [] }

/-- UNIT_TRANSITION_COMPLETE: a disable ends, or an enable ends at the step named, 0 when none fails. -/
def execUnitTransitionComplete (cls : BitVec 3) (index : Byte) (failStep : BitVec 3) (s : State) : Host.Outcome State Fault Refusal :=
  let c := cls.toNat
  let i := index.toNat
  let x := s.unitSt c i
  .next (done s (
    match x.phase with
    | .disabling =>
      startHeld (unitReply (unitOff (s.setUnit c i ⟨.disabled, [], []⟩) c i) okOrDeferred 0 x.joined) c i true x.held
    | .enabling =>
      let f := failsAt s c i failStep.toNat
      let ok := f == 0
      let s1 := unitUp (s.setUnit c i ⟨.enabled, [], []⟩) c i
      if ok && (c != 0 || dieHealthy s1 i) then startHeld (unitReply s1 okOrDeferred 0 x.joined) c i false x.held
      else
        startHeld (unitReply (s.setUnit c i ⟨.disabled, [], []⟩) (fun _ => stTimeout) (if ok then 5 else f) x.joined) c i false x.held
    | _ => s))

/-! ## The warden (R385, R386) -/

/-- 2^limit cycles. -/
def wardenLimit (s : State) : Nat := 2 ^ fld (s.reg 0x200010).toNat 0 5

/-- When the region of a run last made progress. -/
def lastProgress (s : State) (r : Run) : Nat := (s.region r).foldl (fun a n => max a (s.ltile n).progress) r.started

/-- WARDEN_BITE: an arbiter's count has reached the limit, or a running run has made no progress for as long. -/
def execWardenBite (b : Bite) (s : State) : Host.Outcome State Fault Refusal :=
  .next (done s (
    match b with
    | .arbiter i q => (s.bumpSdc 7 1).jobFault 0x4140 14 5 none none 0 (detailOf [(2, i), (2, q)])
    | .run id =>
      match s.run? id with
      | some r =>
        if r.phase == .running && lastProgress s r + wardenLimit s ≤ s.clk then
          (s.bumpSdc 7 1).jobFault 0x4141 14 5 (some r.ctx) (some id) stJobFault (detailOf [(1, r.ctx), (1, r.handle)])
        else s
      | none => s))

/-! ## The log (R391) -/

/-- LOG_ENTRY_WRITE: the oldest event of the queue becomes the newest entry; of 4,096 the oldest is overwritten. -/
def execLogEntryWrite (s : State) : Host.Outcome State Fault Refusal :=
  .next (done s (
    match s.log.queue with
    | [] => s
    | e :: rest =>
      let full := s.log.entries.length ≥ 4096
      { s with log := { s.log with
        queue := rest
        entries := e :: s.log.entries.take 4095
        written := s.log.written + 1
        overwrite := if full then sat32 s.log.overwrite 1 else s.log.overwrite } }))

/-- MEMORY_UNIT_LOST (R390). -/
def execMemoryUnitLost (u : BitVec 4) (s : State) : Host.Outcome State Fault Refusal :=
  let k := u.toNat
  .next (done s (
    if s.memOn k then (s.setMunit k { s.munit k with trained := false, lost := true }).deviceFault 0x5030 12 k true []
    else s))

end Sys2Proof.Machine
end

