-- ==== Sys2Proof/Machine/Security.lean ====
section
/-! DEFINITION. The security engine (16): firmware images and their checks, the owner policy, quotes, zeroisation, the error
state, and JTAG. -/

namespace Sys2Proof.Machine

/-! ## Firmware images (Tables 16.3 and 16.4) -/

/-- What the checks of Table 16.4 find in the bytes of an image: `rd` reads them, `reads` tells that they read without error. -/
def fwParse (rd : Nat → Nat → List Byte) (len : Nat) (reads sigOk : Bool) : FwImage :=
  { formOk := reads && 256 + 16224 ≤ len && rdNum rd 0 4 == 0x464B544C && rdNum rd 4 2 == 1 && rdNum rd 16 4 == len && fld (rdNum rd 6 2) 2 14 == 0 &&
      rdNum rd 12 1 ≤ 64 && rdNum rd 14 2 == 0 && rdNum rd 20 4 == 0 && allZero (rd 104 152)
    family := BitVec.ofNat 16 (rdNum rd 6 2)
    version := BitVec.ofNat 32 (rdNum rd 8 4)
    svn := BitVec.ofNat 8 (rdNum rd 12 1)
    slot := BitVec.ofNat 8 (rdNum rd 13 1)
    keyHash := BitVec.ofNat 256 (leNat (sha256 (rd 24 48)))
    digestOk := sha256 (rd 0 72 ++ List.replicate 32 0 ++ rd 104 (len - 16224 - 104)) == rd 72 32
    sigOk := sigOk
    measurement := BitVec.ofNat 256 (leNat (sha256 (rd 0 len))) }

/-- The first check of Table 16.4 that an image fails, 0 none. -/
def fwFails (s : State) (x : FwImage) : Nat :=
  if !x.formOk then 1
  else if !bitOf x.family.toNat (b2n s.part.is1620) then 2
  else if !vendorSlotOk s x.slot.toNat || x.keyHash != Config.vendorHash x.slot.toNat then 3
  else if !x.digestOk then 4
  else if !x.sigOk then 5
  else if x.svn.toNat < s.sec.svn then 6
  else 0

/-- Events of the security engine, with their detail (Table 16.10). -/
def secEvent (s : State) (code : Nat) (items : List (Nat × Nat)) : State := s.event code 14 4 none (detailOf items)

def State.modSec (s : State) (f : Security → Security) : State := { s with sec := f s.sec }

/-- Bytes 0-7 of a hash. -/
def head8 (x : BitVec 256) : Nat := x.toNat % 2 ^ 64

/-- Firmware starts from a source: 0 bank A, 1 bank B, 2 mailbox (R401). -/
def startFw (s : State) (source : Nat) (x : FwImage) : State :=
  secEvent (s.modSec (fun y => { y with
    source := source, measFw := x.measurement, fwVersion := x.version, awaitFw := false, running := true })) 0x6010
    [(1, source), (8, head8 x.measurement)]

/-- MAILBOX_GO (R399, R400): the image at `SEC_MBOX_ADDR` is read and checked; a failing delivery is recorded, and the ROM
waits again. -/
def execMailboxGo (sigOk : Bool) (s : State) : Host.Outcome State Fault Refusal :=
  let a := s.sec.mboxAddr.toNat
  let len := s.sec.mboxLen.toNat
  .next (done s (
    if !s.sec.awaitFw then s
    else
      let x := fwParse (fun o n => s.hostRead (a + o) n) len (hostUp s && !s.hostPoison a len) sigOk
      match fwFails s x with
      | 0 => startFw (s.modSec (fun y => { y with failM := 0 })) 2 x
      | k => s.modSec (fun y => { y with failM := k })))

/-- The bank that FW_UPDATE writes (R402): the one that did not boot; after a boot from the mailbox, the one not preferred. -/
def updateBank (s : State) : Nat := if s.sec.source == 0 then 1 else if s.sec.source == 1 then 0 else 1 - s.sec.preferred

/-- FW_UPDATE (R402, R403). -/
def execFwUpdate (ring : Ring) (sigOk : Bool) (s : State) : Host.Outcome State Fault Refusal :=
  .next (done s (ringCmdOf s ring 0xA1 none (fun _ p => if bitOf (p.b 8 1) 0 then [] else [(p.b 16 8, p.b 24 4)]) (fun s r p =>
    checked s r p [(8, 1, 3), (16, 8, 0), (24, 4, 0)] (
      let host := bitOf (p.b 8 1) 0
      let a := p.b 16 8
      let len := p.b 24 4
      if s.sec.error then refuse s r p stSecurity
      else if !s.power.board.flash then refuse s r p stNoResource
      else
        let s0 := if host then s else noteAccess s 4 a len
        let x := fwParse (fun o n => s.anyRead host (a + o) n) len (!s.anyPoison host a len) sigOk
        match fwFails s x with
        | 0 =>
          let b := updateBank s
          let s1 := secEvent (s0.modSec (fun y => { y with bank := aput y.bank b x, preferred := b })) 0x6011
            [(1, b), (4, x.version.toNat), (1, x.svn.toNat)]
          let s2 := if bitOf (p.b 8 1) 1 && s.sec.svn < x.svn.toNat then
              secEvent (s1.modSec (fun y => { y with svn := x.svn.toNat })) 0x6012 [(1, x.svn.toNat)]
            else s1
          answer s2 r p stOk b 0 0
        | k => answer s0 r p (if 3 ≤ k && k ≤ 5 then stImageSignature else stImageIdentity) k 0 0))))

/-! ## The owner policy (R405-R407) -/

/-- The policy measurement (R406). -/
def policyMeas (s : State) : List Byte := sha256 s.sec.policy

/-- Magic, version, length and reserved bits of a policy block (Table 16.5). -/
def policyOk (p : Pkt) : Bool :=
  let b := p.par
  !p.bad && p.plen == 208 && leAt b 0 4 == 0x4F4B544C && leAt b 4 2 == 1 && leAt b 6 2 == 0 && leAt b 8 1 < 16 && leAt b 9 1 < 16 && leAt b 10 6 == 0

/-- An image satisfies a policy that replaces the one in force. -/
def satisfiesPolicy (s : State) (new : Security) (i : Image) : Bool :=
  (i.sigChecked || !new.signed) &&
  (match i.sigSlot with
   | some k => !i.sigChecked || (new.ownerSlotOk k && new.ownerKey k == s.sec.ownerKey k)
   | none => true)

/-- OWNER_POLICY_SET. No staging is in progress when it runs: one completes in one step. -/
def execOwnerPolicySet (ring : Ring) (s : State) : Host.Outcome State Fault Refusal :=
  .next (done s (ringCmd s ring 0xA2 none (fun s r p =>
    match pktDenied r p with
    | some st => refuse s r p st
    | none =>
      let new := { s.sec with policy := p.par }
      if bitOf (leAt s.sec.policy 8 1) 3 then refuse (secEvent s 0x6021 [(1, stDenied)]) r p stDenied
      else if !policyOk p then refuse s r p stBadParam
      else if !s.images.all (satisfiesPolicy s new) then refuse (secEvent s 0x6021 [(1, stBusy)]) r p stBusy
      else
        let f := leAt p.par 8 1
        let s1 := s.modSec (fun y => { y with
          policy := p.par, debugLock := y.debugLock || bitOf f 2, quoted := y.quoted && !bitOf f 1 })
        refuse (secEvent s1 0x6020 [(1, f), (8, leNat ((policyMeas s1).take 8))]) r p stOk)))

/-! ## Attestation (R408-R410) -/

/-- The fuse measurement (R409). -/
def fuseMeas (s : State) : List Byte :=
  sha256 ((List.range 3).flatMap (fun k => leBytes 32 (Config.vendorHash k).toNat) ++ leBytes 1 s.part.vendorRevoked.toNat ++
    leBytes 1 (b2n (!s.part.debugOpen) + 2 * b2n s.sec.killed) ++ leBytes 6 0 ++ leBytes 8 (2 ^ s.sec.svn - 1))

/-- The identity certificate (Table 16.2). -/
def certificate (s : State) : List Byte :=
  let own (o n : Nat) : List Byte := (List.range n).map (fun i => Config.certByte (o + i))
  leBytes 4 0x494B544C ++ leBytes 2 1 ++ leBytes 2 s.family ++ leBytes 1 (b2n s.part.debugOpen) ++ own 9 1 ++ leBytes 6 0 ++
  own 16 16 ++ own 32 32 ++ leBytes 64 0 ++ own 128 16224

/-- The images a quote lists, in ascending context and then handle. -/
def quotedImages (s : State) (scope : Nat) : List Image :=
  sortBy (fun i => 256 * i.ctx + i.handle) (s.images.filter (fun i => scope == 0xFE || (scope != 0xFF && i.ctx == scope)))

/-- An image record of a quote. -/
def quoteRecord (s : State) (i : Image) : List Byte :=
  let loaded := (loadedImages s).any (fun x => x.ctx == i.ctx && x.handle == i.handle)
  leBytes 1 i.ctx ++ leBytes 1 i.handle ++
  leBytes 1 (b2n i.sigChecked + 2 * b2n (!i.sigChecked && i.sigSlot.isSome) + 4 * b2n loaded) ++ leBytes 1 0 ++
  leBytes 2 (i.sigSlot.getD 0xFFFF) ++ leBytes 10 0 ++ padTo 32 i.digest

/-- The signed bytes of a quote (Table 16.6). -/
def quoteBody (s : State) (scope : Nat) (nonce : List Byte) : List Byte :=
  let images := quotedImages s scope
  leBytes 4 0x514B544C ++ leBytes 2 1 ++ leBytes 2 s.family ++ leBytes 1 0 ++
  leBytes 1 (b2n s.part.debugOpen + 2 * b2n s.sec.debugLock + 4 * b2n (bitOf (leAt s.sec.policy 8 1) 3) + 8 * b2n s.health.expelled) ++
  leBytes 2 s.deviceId ++ leBytes 4 images.length ++ leBytes 8 s.tideCount.toNat ++ padTo 32 nonce ++ leBytes 32 s.sec.measFw.toNat ++
  fuseMeas s ++ policyMeas s ++ leBytes 4 s.sec.fwVersion.toNat ++ leBytes 1 s.sec.svn ++ leBytes 1 scope ++ leBytes 98 0 ++
  images.flatMap (quoteRecord s) ++ certificate s

/-- The signature of a quote, by a fresh draw of the generator (R410, R411). -/
def signature (rand : Nat) : List Byte := (List.range 17088).map (Config.quoteSig rand)

/-- A generate request of the generator, which reseeds after 2^20 (R411). -/
def Security.generate (x : Security) : Security := { x with drbgCount := if x.drbgCount + 1 ≥ 2 ^ 20 then 0 else x.drbgCount + 1 }

/-- The engine enters its error state (R413). -/
def enterError (s : State) (code : Nat) : State :=
  if s.sec.error then s else secEvent (s.modSec (fun y => { y with error := true, code := code })) 0x6002 [(1, code)]

/-- ATTEST. A quote whose signature does not verify never leaves the engine (test 8). -/
def execAttest (ring : Ring) (quoteVerifies : Bool) (s : State) : Host.Outcome State Fault Refusal :=
  .next (done s (ringCmd s ring 0xA0 none (fun s r p =>
    checked s r p [(8, 1, 1), (10, 1, 0), (16, 8, 0), (24, 32, 0), (56, 4, 0)] (
      let scope := p.b 10 1
      let len := 33696 + 48 * (quotedImages s scope).length
      if scope != 0xFE && scope != 0xFF && !(scope < 64 && s.ctxLive scope) then refuse s r p stBadParam
      else if s.sec.error then refuse s r p stSecurity
      else if s.sec.killed || !s.sec.key then refuse s r p stDenied
      else if p.b 56 4 < len then answer s r p stNoResource len 0 0
      else
        let (rand, s1) := s.draw
        let s2 := s1.modSec Security.generate
        if !quoteVerifies then refuse (enterError s2 8) r p stSecurity
        else
          let quote := quoteBody s scope (leBytes 32 (p.b 24 32)) ++ signature rand
          let s3 := cmdWrite (s2.modSec (fun y => { y with quoted := true })) ring p (bitOf (p.b 8 1) 0) (p.b 16 8) quote
          answer (secEvent s3 0x6030 [(1, scope), (4, (quotedImages s scope).length)]) r p stOk len 0 0))))

/-! ## Zeroisation (R416) -/

/-- Scope 0: the critical security parameters. -/
def zeroizeKeys (s : State) : State := s.modSec (fun y => { y with key := false, drbgCount := 0 })

/-- Scope 1: every tile store and every populated byte of HBM and LP5X memory. -/
def zeroizeMemory (s : State) : State :=
  ((List.range 16).filter s.memOn).foldl (fun x u => { x with mem := x.mem.zero (unitBase u) (if u < 8 then 2 ^ 37 else 2 ^ 38) })
    { s with mem := s.mem.zero 0 (1088 * 2 ^ 24) }

/-- ZEROIZE. Byte 9 is a parameter of scope 2 alone. -/
def execZeroize (ring : Ring) (s : State) : Host.Outcome State Fault Refusal :=
  .next (done s (ringCmd s ring 0xA3 none (fun s r p =>
    checked s r p (if p.b 8 1 == 2 then [(8, 1, 0), (9, 1, 0)] else [(8, 1, 0)]) (
      let scope := p.b 8 1
      if scope > 2 || (scope == 2 && p.b 9 1 != 0xA5) then refuse s r p stBadParam
      else if scope ≥ 1 && !s.polders.isEmpty then refuse s r p stBusy
      else
        let s1 := zeroizeKeys s
        let s2 := if scope ≥ 1 then zeroizeMemory s1 else s1
        let s3 := if scope == 2 then s2.modSec (fun y => { y with killed := true }) else s2
        refuse (secEvent s3 0x6040 [(1, scope)]) r p stOk))))

/-! ## Self-tests and debug -/

/-- ENTROPY_HEALTH_TEST_FAILURE (R411, R413): test 7, on raw bits of an engine that passed its power-up tests. -/
def execEntropyHealthTestFailure (s : State) : Host.Outcome State Fault Refusal :=
  .next (done s (if s.sec.passed then enterError s 7 else s))

end Sys2Proof.Machine
end

