-- ==== Sys2Proof/Machine/Power.lean ====
section
/-! DEFINITION. Power, reset and the board (17): power-good inputs, `PERST_N` and the boot, clocks, thermal control and cycle
skipping, telemetry. Most of these commands act whether or not the core clock runs. -/

namespace Sys2Proof.Machine

def State.modPower (s : State) (f : Power → Power) : State := { s with power := f s.power }

/-! ## Power-good inputs (R418, R419, Tables 17.2, 17.3, 17.9) -/

/-- The step of Table 17.3 after which an input rises. -/
def pgRank (i : Nat) : Nat := if i ≤ 3 then i else if i ≤ 7 then 4 else i - 3

/-- Inputs that the part ignores: those of the field dies an LTK-1620 lacks. -/
def pgIgnored (s : State) (i : Nat) : Bool := s.part.is1620 && (i == 6 || i == 7)

/-- An input rose before one that it must follow. -/
def pgEarly (s : State) (i : Nat) : Bool :=
  (((s.power.order.dropWhile (· != i)).drop 1).filter (fun j => !pgIgnored s j)).any (fun j => pgRank j < pgRank i)

/-- What is wrong with an input at a release: 0 nothing, 1 missing, 2 out of order. -/
def pgCause (s : State) (i : Nat) : Nat :=
  if pgIgnored s i then 0 else if !bitOf s.power.pg i then 1 else if pgEarly s i then 2 else 0

def pgBad (s : State) (i : Nat) : Bool := pgCause s i != 0

/-- A device fault of a lost rail (event 0x5020), which `PWR_SEQ` repeats. -/
def pgFault (s : State) (i cause : Nat) : State :=
  (s.modPower (fun x => { x with cause := cause, input := i })).deviceFault 0x5020 14 6 true (detailOf [(1, i), (1, cause)])

/-- POWER_GOOD_RISE: the monitor records the order. -/
def execPowerGoodRise (i : BitVec 4) (s : State) : Host.Outcome State Fault Refusal :=
  let k := i.toNat
  .next (doneBoard s (
    if k > 10 || bitOf s.power.pg k then s
    else s.modPower (fun x => { x with pg := putBit x.pg k true, order := x.order.filter (· != k) ++ [k] })))

/-- POWER_GOOD_LOSS: the loss of `PG_IO` takes the monitor and the thermal trip with it, and stops the device; `PG_HUB` stops
it; any other is a device fault in service. -/
def execPowerGoodLoss (i : BitVec 4) (s : State) : Host.Outcome State Fault Refusal :=
  let k := i.toNat
  .next (doneBoard s (
    if k > 10 || !bitOf s.power.pg k then s
    else
      let s1 := s.modPower (fun x => { x with pg := putBit x.pg k false, order := x.order.filter (· != k) })
      if k == 0 then s1.modPower (fun x => { x with order := [], trip := false, stopped := true })
      else if k == 2 then s1.modPower (fun x => { x with stopped := true })
      else if s.stopped || pgIgnored s k then s1
      else pgFault s1 k 3))

/-! ## PERST_N (R404, R420) -/

/-- The part under an asserted `PERST_N`: fuses, flash, the board's pins and host memory stand; the rest is at reset. -/
def perstState (s : State) : State :=
  { State.reset with
    pending := s.pending
    part := s.part
    free := s.free
    mem := { cells := s.mem.cells.filter (fun c => hostBase ≤ c.1), poison := s.mem.poison.filter (fun g => hostBase ≤ 64 * g) }
    sec := { Security.reset with svn := s.sec.svn, killed := s.sec.killed, bank := s.sec.bank, preferred := s.sec.preferred }
    power := { Power.reset with pg := s.power.pg, order := s.power.order, trip := s.power.trip, stopped := s.power.stopped, board := s.power.board } }

/-- PERST_N_ASSERT. -/
def execPerstNAssert (s : State) : Host.Outcome State Fault Refusal :=
  .next (doneBoard s (if s.power.perst then s else perstState s))

/-! ## Boot (R399, R418, R422, Table 17.4) -/

/-- The image in a flash bank: what FW_UPDATE wrote there, else what the board shows. -/
def bankImage (s : State) (b : Nat) : Option FwImage :=
  match aget? s.sec.bank b with
  | some x => some x
  | none => if b == 0 then s.power.board.bankA else s.power.board.bankB

/-- One bank tried: its failing check is recorded, or its firmware starts. -/
def tryBank (s : State) (b : Nat) : State :=
  if s.sec.running then s
  else
    let note (k : Nat) : State := s.modSec (fun y => if b == 0 then { y with failA := k } else { y with failB := k })
    match bankImage s b with
    | none => note 1
    | some x =>
      match fwFails s x with
      | 0 => startFw s b x
      | k => note k

/-- The ROM looks for firmware: the preferred bank, the other, and then the mailbox. -/
def bootFirmware (s : State) : State :=
  if !s.power.board.flash then s.modSec (fun y => { y with noflash := true, awaitFw := true })
  else
    let s1 := tryBank (tryBank s (s.sec.preferred % 2)) (1 - s.sec.preferred % 2)
    if s1.sec.running then s1 else s1.modSec (fun y => { y with awaitFw := true })

/-- The input that `PWR_SEQ` reports: the first that is a device fault, else the first that is wrong. -/
def pgReport (s : State) : Option Nat :=
  match [3, 10].find? (pgBad s) with
  | some i => some i
  | none => findBelow 11 (pgBad s)

/-- The host link trains, or `FAULT_N` is asserted (R292). -/
def trainHost (s : State) : State :=
  if s.power.board.hostTrains && !pgBad s 10 then { s with host := { s.host with link := .up } }
  else s.modPower (fun x => { x with faultN := true })

/-- The power-up self-tests, and the key (R398, R412). -/
def selfTests (s : State) : State :=
  let t := s.power.board.selfTest.toNat
  if 1 ≤ t && t ≤ 5 then
    secEvent (s.modSec (fun y => { y with passed := false, code := t })) 0x6001 [(1, t)] |>.modPower (fun x => { x with faultN := true })
  else bootFirmware (s.modSec (fun y => { y with passed := true, key := !y.killed }))

/-- PERST_N_RELEASE: the power-good inputs, the host link, the self-tests and the firmware. -/
def execPerstNRelease (b : Board) (s : State) : Host.Outcome State Fault Refusal :=
  .next (doneBoard s (
    if !s.power.perst then s
    else
      let s1 := s.modPower (fun x => { x with perst := false, board := b, stopped := pgBad s 0 || pgBad s 2 })
      if s1.stopped then s1
      else
        let s2 := match pgReport s1 with
          | some i => s1.modPower (fun x => { x with cause := pgCause s1 i, input := i })
          | none => s1
        match [3, 10].find? (pgBad s1) with
        | some i => pgFault s2 i (pgCause s1 i)
        | none => selfTests (trainHost s2)))

/-- A unit that a boot leaves out of service. -/
def leaveOut (s : State) (cls i : Nat) : State := s.setUnit cls i ⟨.disabled, [], []⟩

/-- The field dies of a boot. -/
def bootDies (s : State) : State :=
  (List.range s.dies).foldl (fun x d =>
    let y := bringUpDie x d (x.power.board.generatorFail.map (·.toNat))
    if pgBad x (4 + d) || failsAt x 0 d (x.power.board.dieFail.getD d 0).toNat != 0 then leaveOut x 0 d
    else if dieHealthy y d then y else leaveOut y 0 d) s

/-- The memory units of a boot. -/
def bootMemory (s : State) : State :=
  let s1 := (List.range s.nstacks).foldl (fun x u =>
    if pgBad x 1 || pgBad x 8 || !x.unitOn 0 (u / 2) || failsAt x 1 u (x.power.board.stackFail.getD u 0).toNat != 0 then leaveOut x 1 u
    else bringUpMem x u 96) s
  (List.range s.nlp).foldl (fun x u =>
    if pgBad x 9 || failsAt x 2 u (x.power.board.portFail.getD u 0).toNat != 0 then leaveOut x 2 u
    else bringUpMem x (8 + u) (portCap (x.power.board.portGib.getD u 0).toNat)) s1

/-- READY (R262, R389, R422, R430): the units are in service, and `ID_STATUS.ready` is set with the level. -/
def execReady (s : State) : Host.Outcome State Fault Refusal :=
  .next (done s (
    if !s.sec.running || s.ready || s.devFault then s
    else
      let s1 := bootMemory (bootDies s)
      let s2 := (defaultSegs (defaultSegs s1 0) 1).setLevel
      let s3 := if hostUp s2 && s2.sec.passed then s2 else s2.modPower (fun x => { x with level := 0 })
      { s3 with ready := true }.modPower (fun x => { x with faultN := x.faultN || x.level == 0 })))

/-! ## Clocks (R425) -/

/-- REFCLK_LOSS; how the detail names the clock is a free value. -/
def execRefclkLoss (s : State) : Host.Outcome State Fault Refusal :=
  let (v, s1) := s.draw
  .next (done s (s1.deviceFault 0x5010 14 6 true (detailOf [(1, v)])))

/-! ## Thermal control (R427-R429) -/

/-- The sensors of `PWR_TEMP` that are present: field dies, the hub, stacks. -/
def sensorOn (s : State) (i : Nat) : Bool := if i < 4 then i < s.dies && s.unitOn 0 i else i == 4 || s.memOn (i - 5)

/-- The hottest reading of some sensors, in 1/16 degree. -/
def hottestOf (s : State) (is : List Nat) : Option Int := (is.filterMap (tempAt s)).max?

/-- A reading is above a limit of so many degrees; it is well below it. -/
def tooHot (t : Option Int) (deg : Nat) : Bool := match t with | some x => x > Int.ofNat (16 * deg) | none => false
def wellBelow (t : Option Int) (deg : Nat) : Bool := match t with | some x => x ≤ Int.ofNat (16 * deg) - 32 | none => true

/-- The skip ratio after a sample. -/
def nextSkip (s : State) : Nat :=
  let lim := (s.reg 0x207804).toNat
  let j := hottestOf s [0, 1, 2, 3, 4]
  let h := hottestOf s [5, 6, 7, 8, 9, 10, 11, 12]
  if tooHot j (fld lim 0 8) || tooHot h (fld lim 8 8) then min 48 (s.power.skip + 1)
  else if wellBelow j (fld lim 0 8) && wellBelow h (fld lim 8 8) then s.power.skip - 1
  else s.power.skip

/-- THERMAL_SAMPLE (R428): the sensors are read, and the skip ratio follows. -/
def execThermalSample (temps : List (BitVec 16)) (s : State) : Host.Outcome State Fault Refusal :=
  let s1 := s.modPower (fun x => { x with
    temps := (List.range 13).filterMap (fun i => if sensorOn s i then (temps[i]?).map (fun t => (i, t)) else none) })
  let k := nextSkip s1
  let s2 := s1.modPower (fun x => { x with skip := k })
  .next (done s (
    if s.power.skip == 0 && k != 0 then s2.event 0x1250 14 6 none []
    else if s.power.skip != 0 && k == 0 then s2.event 0x1251 14 6 none []
    else s2))

/-- DROOP (R428). -/
def execDroop (die : BitVec 3) (s : State) : Host.Outcome State Fault Refusal :=
  .next (done s (if die.toNat < s.dies then s.modPower (fun x => { x with droopLeft := 64, droop := true }) else s))

/-- THERMTRIP (R429): while `VDD_IO` stands; the hub logs a device fault before its clock is gated. -/
def execThermtrip (s : State) : Host.Outcome State Fault Refusal :=
  .next (doneBoard s (
    if !bitOf s.power.pg 0 || s.power.trip then s
    else
      let s1 := if s.stopped || !s.sec.running then s else s.deviceFault 0x5001 14 6 false []
      s1.modPower (fun x => { x with trip := true })))

/-- `ALERT_N` (R430). -/
def alertN (s : State) : Bool := s.power.skip != 0 || s.power.faultN || s.power.trip

/-! ## Telemetry (R431, R432) -/

/-- Bus A answers: the hub is powered, and 20 us have passed since the release. -/
def busAnswers (s : State) : Bool :=
  bitOf s.power.pg 0 && bitOf s.power.pg 2 && !s.power.perst && !s.power.stopped && s.tide.now ≥ 32000

/-- Word i of Table 17.7. -/
def telemetryWord (s : State) (i : Nat) : Nat :=
  if i == 0 then idPart s
  else if i == 1 then idStatus s
  else if i == 2 then pwrStat s
  else if i ≤ 15 then pwrTemp s (i - 3)
  else if i ≤ 29 then pwrRail s (i - 16)
  else if i == 30 then pwrPkg s
  else if i == 31 then s.power.lastFault
  else 0

/-- TELEMETRY_READ: an answer, or none acknowledged. -/
def execTelemetryRead (i : Byte) (s : State) : Host.Outcome State Fault Refusal :=
  .next (doneBoard s (s.modPower (fun x => { x with
    busA := if busAnswers s then some (BitVec.ofNat 32 (telemetryWord s i.toNat)) else none })))

/-- RAIL_POLL: voltage in mV and current in 0.1 A; a regulator that does not answer clears valid. -/
def execRailPoll (r : BitVec 4) (reading : Option (BitVec 16 × BitVec 16)) (s : State) : Host.Outcome State Fault Refusal :=
  let k := r.toNat
  let old := agetD s.power.rails k (0, 0)
  let new : BitVec 16 × BitVec 16 := match reading with
    | some (mv, c) => (mv, BitVec.ofNat 16 (c.toNat % 2 ^ 15 + 2 ^ 15))
    | none => (old.1, BitVec.ofNat 16 (old.2.toNat % 2 ^ 15))
  .next (done s (if k < 14 then s.modPower (fun x => { x with rails := aput x.rails k new }) else s))

end Sys2Proof.Machine
end

