-- ==== Sys2Proof/Machine/Clock.lean ====
section
/-! DEFINITION. What a core cycle does by itself (log 8): the cycle count, the phase of the tide, cycle skipping (R427, R428), the
refill of the weirs (R349), and the counts of cycles. -/

namespace Sys2Proof.Machine

/-- The present cycle is skipped: for a droop, or at the skip ratio (R428). -/
def skips (s : State) : Bool :=
  s.power.droopLeft != 0 || (s.power.skip != 0 && s.power.frame * s.power.skip % 64 ≥ 64 - s.power.skip)

/-- What runs in every cycle: the frame, and the tide unit (R427). -/
def tickAlways (s : State) : State :=
  { s with
    tidePhase := s.tidePhase + 1
    tide := { s.tide with now := s.tide.now + 1 }
    power := { s.power with frame := (s.power.frame + 1) % 64, droopLeft := s.power.droopLeft - 1 } }

/-- An input lane of router p has a stall count above 0 (R187). -/
def laneStalls (s : State) (p : Nat) : Bool :=
  [Side.north, .east, .south, .west, .tile].any (fun d => (List.range 3).any (fun l => 0 < stallOf s p d l))

/-- The cycles of a tile with a stalled lane (`TDBG_FBC[2]`). -/
def tickTile (s : State) (p : Nat) (t : Tile) : Tile := if laneStalls s p then t.bump (bankFbc 2) 1 else t

/-- The routers with a message held at a dike (R185): one of their own, or one at the bridge end in front of them, which is counted
there (log 39). -/
def dikeRouters (s : State) : List Nat :=
  let ends := s.links.ports.flatMap (fun e => e.2.held.flatMap (fun l => ((e.2.ingress l).head?.map (hubEntry s)).toList)) ++
    (if s.gauges.outHeld.contains 4 then ((s.gout 4).head?.map (hubEntry s)).toList else [])
  ((s.tiles.filter (fun e => !e.2.router.dike.isEmpty)).map (·.1) ++ ends).foldl insNat []

/-- Their cycles are counted (`TDBG_FBC[7]`). -/
def tickDikes (s s1 : State) : State := (dikeRouters s).foldl (fun x p => x.bumpTile p (bankFbc 7) 1) s1

/-- The stalled cycles of a port's ingress lanes (R324). -/
def tickPort (s : State) (x : LinkPort) : LinkPort :=
  let n := ((List.range 2).filter (fun l =>
    !(x.ingress l).isEmpty && s.threshold != 0 && agetD x.since l s.clk + s.threshold ≤ s.clk)).length
  if n == 0 then x else { x with cnt := bump x.cnt 6 n }

/-- Runs whose switch waits in phase 1, and in phase 4 (`LDR_STAT[2]` and `[3]`). -/
def phase1 (s : State) : Nat := (s.runs.filter (fun r => r.phase == .waitCensus || r.phase == .stopping)).length
def phase4 (s : State) : Nat := (s.runs.filter (fun r => r.phase == .draining || r.phase == .stopDrain)).length

/-- At the end of a round of 16 cycles the PUMP_CTL of every pump comes into force (R277). -/
def nextRound (s : State) : MemSys :=
  if (s.clk + 1) % 16 == 0 then
    { s.ms with pumpCtl := (List.range 40).filterMap (fun p => (aget? s.regs (0x205000 + 4 * p)).map (fun v => (p, v))) }
  else s.ms

/-- A cycle that is not skipped. -/
def tickCore (s : State) : State :=
  tickDikes s { s with
    clk := s.clk + 1
    cycles := s.cycles + 1
    ms := nextRound s
    weirs := s.weirs.map (fun e => (e.1, Weir.tick e.1 e.2))
    tiles := s.tiles.map (fun e => (e.1, tickTile s e.1 e.2))
    links := { s.links with ports := s.links.ports.map (fun e => (e.1, tickPort s e.2)) }
    ldrStat := bump (bump s.ldrStat 2 (phase1 s)) 3 (phase4 s) }

/-- One core cycle. -/
def tick (s : State) : State :=
  if s.stopped then s
  else
    let s1 := tickAlways s
    if skips s then { s1 with power := { s1.power with skipCnt := s1.power.skipCnt.add 1 } } else tickCore s1

end Sys2Proof.Machine
end

