-- ==== Sys2Proof/Machine/Bar.lean ====
section
/-! DEFINITION. BAR0 and BAR2 as they read (R15, R18, R59, R296, R298; Tables 12.1-12.4, 13.7, 13.8, 14.8, 15.15, 16.11), and the access
that an open part gives over JTAG (R6, R414). A read of `TIDE_COUNT` or of `CTX_GAUGE` acts besides, and has a command of its own. -/

namespace Sys2Proof.Machine

/-- Word at offset o of an image of bytes. -/
def wordOf (bs : List Byte) (o : Nat) : Nat := leAt bs o 4

/-- Identity block (Tables 12.2), with the MSI-X table and its pending bits (R313). -/
def idWord (s : State) (o : Nat) : Nat :=
  if o == 0x00 then idPart s
  else if o == 0x04 then idStatus s
  else if o == 0x08 then idFw s
  else if o == 0x0C then idCaps s
  else if 0x8000 ≤ o && o < 0x8480 then fld (s.reg o).toNat 0 32
  else if 0x9000 ≤ o && o < 0x9010 then fld s.host.vecPending (8 * (o - 0x9000)) 32
  else 0

/-- `CP_HALT`. -/
def cpHalt (s : State) : Nat := maskOf 64 (fun c => (aget? s.rings c).isSome && (s.ring c).halted)

/-- Command-processor block (Table 12.3). A `CP_LAND_*` that waits for a landing reads as it was last written. -/
def cpWord (s : State) (o : Nat) : Nat :=
  let x := s.ring privRing
  if o == 0x00 then b2n x.enabled
  else if 0x08 ≤ o && o < 0x20 then halfOf (s.reg (0x10000 + o / 8 * 8)).toNat (o % 8)
  else if o == 0x20 then fld (s.reg 0x10020).toNat 0 32
  else if o == 0x24 then x.head.toNat
  else if o == 0x28 then x.cplTail.toNat
  else if o == 0x2C then b2n x.halted + b2n (landing s) * 2
  else if 0x30 ≤ o && o < 0x38 then halfOf (cpHalt s) (o % 8)
  else if 0x38 ≤ o && o < 0x40 then halfOf (s.links.landBase.getD (s.reg 0x10038)).toNat (o % 8)
  else if o == 0x40 then (s.links.landSize.getD ((s.reg 0x10040).setWidth 32)).toNat
  else if 0x80 ≤ o && o < 0xC0 then halfOf (s.reg (0x10000 + o / 8 * 8)).toNat (o % 8)
  else 0

/-- `TIDE_CTL` (Table 13.7). -/
def tideCtl (s : State) : Nat :=
  b2n s.tide.link + s.tide.port % 8 * 2 + b2n s.tide.freeRun * 2 ^ 4 + b2n s.tide.outEn * 2 ^ 5 + s.tide.pinDelay % 256 * 2 ^ 6

/-- Tide unit block (Table 13.7). -/
def tideWord (s : State) (o : Nat) : Nat :=
  if o == 0x00 then tideCtl s
  else if o == 0x04 then s.tide.period % 2 ^ 20
  else if 0x08 ≤ o && o < 0x10 then halfOf s.tideCount.toNat (o % 8)
  else if o == 0x10 then s.tide.latched % 2 ^ 20
  else if o == 0x14 then tideStat s
  else if o == 0x18 then s.tide.meas % 2 ^ 20
  else if 0x40 ≤ o && o < 0x80 then halfOf (ctrOf s.tide.cnt ((o - 0x40) / 8)) (o % 8)
  else 0

/-- Trouble-log block (Table 15.15). -/
def logWord (s : State) (o : Nat) : Nat :=
  if o < 0x08 then halfOf s.log.written.toNat o
  else if o == 0x08 then s.log.overwrite.toNat
  else if o == 0x0C then s.log.lost.toNat
  else if 0x20 ≤ o && o < 0x40 then (match s.log.entries with | e :: _ => wordOf e.bytes (o - 0x20) | [] => 0)
  else 0

/-- `SEC_STATE`, `SEC_FUSE`, `SEC_BOOT` (Table 16.11). -/
def secState (s : State) : Nat := b2n s.sec.passed + b2n s.sec.error * 2 + s.sec.code % 16 * 4 + b2n s.sec.key * 2 ^ 6
def secFuse (s : State) : Nat :=
  s.part.vendorRevoked.toNat + b2n (!s.part.debugOpen) * 2 ^ 3 + b2n s.sec.killed * 2 ^ 4 + s.sec.svn % 128 * 2 ^ 5
def secBoot (s : State) : Nat :=
  s.sec.source % 4 + s.sec.failA % 16 * 2 ^ 2 + s.sec.failB % 16 * 2 ^ 6 + s.sec.failM % 16 * 2 ^ 10 + b2n s.sec.noflash * 2 ^ 14

/-- Security mailbox block (Table 16.11). A delivery is read and checked within its command, so busy reads 0; the hash of a slot that is not
programmed reads 0. -/
def secWord (s : State) (o : Nat) : Nat :=
  if o == 0x00 then secState s
  else if o == 0x04 then secFuse s
  else if o == 0x08 then secBoot s
  else if 0x10 ≤ o && o < 0x18 then halfOf s.sec.mboxAddr.toNat (o % 8)
  else if o == 0x18 then s.sec.mboxLen.toNat
  else if 0x40 ≤ o && o < 0xA0 then
    (if s.part.vendorSlots.getLsbD ((o - 0x40) / 32) then fld (Config.vendorHash ((o - 0x40) / 32)).toNat (8 * (o % 32)) 32 else 0)
  else if 0x100 ≤ o && o < 0x120 then fld s.sec.measFw.toNat (8 * (o - 0x100)) 32
  else 0

/-- Contexts of a polder. -/
def polderContexts (s : State) (p : Nat) : Nat := (s.ctxs.filter (fun e => e.2.polder == p)).length

/-- Registers of polder p (Table 14.9). -/
def polderWord (s : State) (p o : Nat) : Nat :=
  let x := s.polder? p
  let of (f : Polder → Nat) : Nat := match x with | some y => f y | none => 0
  if o == 0x000 then of (fun y => 1 + y.rects.length * 2 ^ 5 + polderContexts s p * 2 ^ 10)
  else if 0x008 ≤ o && o < 0x010 then of (fun y => halfOf y.hseg.toNat (o % 8))
  else if 0x010 ≤ o && o < 0x018 then of (fun y => halfOf y.lseg.toNat (o % 8))
  else if o == 0x018 then of (fun y => y.ports.toNat)
  else if 0x040 ≤ o && o < 0x0C0 then of (fun y => halfOf (y.rects.getD ((o - 0x40) / 8) 0).toNat (o % 8))
  else if 0x100 ≤ o && o < 0x160 then
    let w := s.weir p ((o - 0x100) / 16)
    (match o % 16 / 4 with
     | 0 => w.rate % 512
     | 1 => w.burst % 2 ^ 32
     | k => halfOf w.wait.word (4 * (k - 2)))
  else 0

/-- Polders and weirs block (Tables 11.10, 14.8). -/
def poldersWord (s : State) (o : Nat) : Nat :=
  if o < 0x8000 then polderWord s (o / 0x1000) (o % 0x1000)
  else if o < 0x8200 then (agetD s.ms.segs ((o - 0x8000) / 4) 0).toNat % 32
  else if o == 0x9000 then s.health.faultLast.toNat
  else if 0x9008 ≤ o && o < 0x9010 then halfOf s.health.faultTide.toNat (o % 8)
  else 0

/-- Registers of Beytia port k (Table 13.8); a port that the part lacks reads as zero. -/
def portWord (s : State) (k o : Nat) : Nat :=
  let x := s.lport k
  if k ≥ s.nports then 0
  else if o == 0x00 then (s.reg (0x101000 + 0x100 * k)).toNat % 2
  else if o == 0x04 then x.state % 8 + b2n x.lr * 2 ^ 3 + x.step % 16 * 2 ^ 4 + x.neighbour % 2 ^ 16 * 2 ^ 16
  else if o == 0x08 then x.delay % 2 ^ 16
  else if o == 0x0C then x.corrected.toNat
  else if 0x40 ≤ o && o < 0x80 then halfOf (ctrOf x.cnt ((o - 0x40) / 8)) (o % 8)
  else 0

/-- Link ports block (Table 13.8). -/
def linkWord (s : State) (o : Nat) : Nat :=
  if o == 0x00 || o == 0x08 || o == 0x10 || o == 0x18 then fld (s.reg (0x100000 + o)).toNat 0 32
  else if 0x800 ≤ o && o < 0x1000 then halfOf (s.reg (0x100000 + o / 8 * 8)).toNat (o % 8)
  else if 0x1000 ≤ o && o < 0x1800 then portWord s ((o - 0x1000) / 0x100) (o % 0x100)
  else 0

/-- The debug window of a physical tile as the host reads it (R59). -/
def debugWord (s : State) (o : Nat) : Nat := if windowOpen s (o / 0x4000) then windowWord s (o / 0x4000) (o % 0x4000) else 0

/-- A 32-bit read of BAR0 at an offset that is a multiple of 4: zero where no block defines it (R296). -/
def bar0Word (s : State) (o : Nat) : Nat :=
  if o < 0x10000 then idWord s o
  else if o < 0x20000 then cpWord s (o - 0x10000)
  else if o < 0x30000 then tideWord s (o - 0x20000)
  else if o < 0x40000 then logWord s (o - 0x30000)
  else if o < 0x50000 then secWord s (o - 0x40000)
  else if 0x80000 ≤ o && o < 0x90000 then poldersWord s (o - 0x80000)
  else if 0x100000 ≤ o && o < 0x110000 then linkWord s (o - 0x100000)
  else if 0x200000 ≤ o && o < 0x208000 then healthWord s (o - 0x200000)
  else if 0x2000000 ≤ o then debugWord s (o - 0x2000000)
  else 0

/-- `CTX_STATE` of context c (Table 12.4). -/
def ctxState (s : State) (c : Nat) (x : Context) : Nat :=
  1 + b2n (s.ring c).halted * 2 + b2n s.health.expelled * 2 ^ 2 + x.polder % 8 * 2 ^ 3 + x.gencnt.toNat * 2 ^ 6

/-- The port-status view: tile base + i, the word at o of its 256 bytes; a tile outside the context's polder reads zero (R298). -/
def ctxPorts (s : State) (x : Context) (i o : Nat) : Nat :=
  let n := x.tileBase.toNat + i
  if n < s.ntiles && (match s.polder? x.polder with | some p => p.tiles.contains n | none => false) && o < 0xE0 then
    portStatus s (s.phys n) (o / 0x20 + 1) (o % 0x20 / 4)
  else 0

/-- A 32-bit read of BAR2 (Table 12.4): zero in every field while the context does not exist (R298). -/
def bar2Word (s : State) (a : Nat) : Nat :=
  let c := a / 0x10000
  let o := a % 0x10000
  match aget? s.ctxs c with
  | none => 0
  | some x =>
    if o == 0x0000 then (s.ring c).head.toNat
    else if o == 0x0004 then (s.ring c).cplTail.toNat
    else if o == 0x0008 then ctxState s c x
    else if o == 0x0010 then x.tileBase.toNat
    else if 0x2000 ≤ o && o < 0x4000 then (match s.gaugeOf c ((o - 0x2000) / 4) with | some g => (s.gauge g).value.toNat | none => 0)
    else if 0x4000 ≤ o && o < 0x4100 then maskOf 32 (fun k => (s.gaugeOf c (8 * (o - 0x4000) + k)).isSome)
    else if 0x8000 ≤ o then ctxPorts s x ((o - 0x8000) / 256) (o % 256)
    else 0

/-- A register as the host reads it, at any offset of a window: 4 bytes, or 8 as two halves at once (R18). -/
def barRead (s : State) (bar2 : Bool) (o : Nat) (wide : Bool) : Nat :=
  let word (a : Nat) : Nat := if bar2 then bar2Word s a else bar0Word s a
  if o % 4 != 0 then 0 else word o + (if wide then word (o + 4) * 2 ^ 32 else 0)

/-- An offset of BAR0 lies in the block of the security engine, which JTAG does not reach (R414). -/
def inSecurity (bar2 : Bool) (o : Nat) : Bool := !bar2 && 0x40000 ≤ o && o < 0x50000

/-- JTAG_ACCESS (R6, R414). With the debug fuse intact and debug_lock not in force, a register can be read and written as in BAR0 and BAR2,
the security engine's excepted; how the pins spell such an access the spec does not say (DESIGN CHOICE, log 61). -/
def execJtagAccess (i : JtagInstr) (s : State) : Host.Outcome State Fault Refusal :=
  let shown (v : Option Nat) (s : State) : State := { s with power := { s.power with jtag := v } }
  let opened : Bool := s.part.debugOpen && !s.sec.debugLock
  match i with
  | .bypass => .next (doneBoard s (shown (some 0) s))
  | .idcode => .next (doneBoard s (shown (some Config.idcode.toNat) s))
  | .peek bar2 off =>
    .next (doneBoard s (shown (if opened then some (if inSecurity bar2 off.toNat then 0 else barRead s bar2 off.toNat false) else none) s))
  | .poke bar2 off v =>
    .next (doneBoard s (
      if opened && off.toNat % 4 == 0 && !inSecurity bar2 off.toNat then
        shown (some v.toNat) (if bar2 then writeBar2 s off.toNat v.toNat else writeWord s off.toNat v.toNat)
      else shown none s))
  | .other _ => if opened then .refused .jtagDebug else .next (doneBoard s (shown none s))

end Sys2Proof.Machine
end

