-- ==== Sys2Proof/Machine/Sends.lean ====
section
/-! DEFINITION. The steps that read a payload from tile store (02): SEND, and the steps that wait for room in the egress buffer or in
the sequencer's gauge queue (R52, R197). -/

namespace Sys2Proof.Machine

/-- Messages of SEND steps in the egress buffer; the sequencer's gauge messages have a queue of their own (R197). -/
def Tile.sends (t : Tile) : Nat := (t.egress.filter (fun e => e.1 == 0 && e.2.kind != 4)).length

/-- Byte offset and length of the payload of a SEND. -/
def sendRange (w : Nat) : Nat × Nat := (fld w 0 24, 64 * (fld w 47 6 + 1))

/-- The message a SEND builds: the template with the step's tag and length and the section's generation (R52). What of the
payload lies in the spillway or the staged-frame area is a free value: the spec gives such a read no result
(log 12). -/
def sendMsg (s : State) (p w : Nat) : Msg × State :=
  let t := s.tile p
  let l := fld w 47 6 + 1
  let src := fld w 0 24
  let h0 := leAt (t.desc (fld w 53 5)) 0 16
  let h1 := hset (hset (hset h0 68 16 (fld w 31 16)) 91 6 (l - 1)) 84 3 t.sect.gen.toNat
  let n := min (64 * l) (t.spillBase - src)
  let bad := n != 0 && s.mem.poisoned (tileBase p + src) n
  let h := BitVec.ofNat 128 (if bad then hset h1 97 1 1 else h1)
  if n == 64 * l then (⟨h, s.mem.read (tileBase p + src) n, none, []⟩, s)
  else
    let (v, s1) := s.draw
    (⟨h, s.mem.read (tileBase p + src) n ++ leBytes (64 * l - n) v, none, []⟩, s1)

/-- The template of a SEND is of kind gauge. -/
def sendsGauge (t : Tile) (w : Nat) : Bool := fld (leAt (t.desc (fld w 53 5)) 0 16) 87 4 == 4

/-- SEND at a step: its payload is read into the egress buffer once that has room (R52), with what the read meets (R151). A template of
kind gauge joins the sequencer's gauge messages (R197). -/
def doSend (s : State) (p w : Nat) (upset : Option Upset) : State :=
  let r := sendRange w
  let t := s.tile p
  if r.1 % 64 != 0 then stepFault s p evStep
  else if r.1 + r.2 > 0x1000000 then stepFault s p evShape
  else if t.cfgMarked (0x2000 + 64 * fld w 53 5) 64 then stepFault s p evPoisonStep
  else if (if sendsGauge t w then t.gq.length == 8 else t.sends ≥ 8) then setSeqState s p .stallEgress
  else
    match meet s p upset [r] with
    | (s0, false) => s0
    | (s0, true) =>
      let (m, s1) := sendMsg s0 p w
      if sendsGauge t w then
        (match seqGauge s1 p m false with
         | some s2 => retire s2 p
         | none => s1)
      else retire (s1.modTile p (fun x => x.emit 0 m)) p

/-- SEND (R52). -/
def execSend (n : BitVec 10) (cfgParity : Bool) (upset : Option Upset) (s : State) : Host.Outcome State Fault Refusal :=
  .next (done s (withStep s n.toNat 4 cfgParity (fun p w => doSend s p w upset)))

/-- The egress buffer frees room, and a SEND stalled on egress completes (R52). -/
def execEgressBufferFree (n : BitVec 10) (upset : Option Upset) (s : State) : Host.Outcome State Fault Refusal :=
  let p := s.phys n.toNat
  let t := s.tile p
  let w := t.step64 t.seq.idx.toNat
  .next (done s (if t.seq.st == .stallEgress && stepOp w == 4 && !sendsGauge t w then doSend s p w upset else s))

/-- A full sequencer gauge queue frees an entry, and the stalled step proceeds (R197). -/
def execGaugeQueueFree (n : BitVec 10) (upset : Option Upset) (s : State) : Host.Outcome State Fault Refusal :=
  let p := s.phys n.toNat
  let t := s.tile p
  let w := t.step64 t.seq.idx.toNat
  .next (done s (
    if t.seq.st == .stallEgress then
      (match stepOp w with
       | 2 => doWaitGauge s p w
       | 3 => doSignalGauge s p w
       | 4 => if sendsGauge t w then doSend s p w upset else s
       | _ => s)
    else s))

end Sys2Proof.Machine
end

