-- ==== Sys2Proof/Machine/Dispatch.lean ====
section
/-! DEFINITION. What each command does to everything but the queue: one direct call of its meaning. -/

namespace Sys2Proof.Machine

def exec (i : Instr) (s : State) : Host.Outcome State Fault Refusal :=
  match i with
  | .nop r => Sys2Proof.Machine.execNop r s
  | .query r => Sys2Proof.Machine.execQuery r s
  | .partitionCreate r => Sys2Proof.Machine.execPartitionCreate r s
  | .partitionDestroy r => Sys2Proof.Machine.execPartitionDestroy r s
  | .weirSet r => Sys2Proof.Machine.execWeirSet r s
  | .contextCreate r => Sys2Proof.Machine.execContextCreate r s
  | .contextDestroy r => Sys2Proof.Machine.execContextDestroy r s
  | .contextSave r => Sys2Proof.Machine.execContextSave r s
  | .midSectionDrainEnd ctx => Sys2Proof.Machine.execMidSectionDrainEnd ctx s
  | .midSectionDrainTimeout ctx => Sys2Proof.Machine.execMidSectionDrainTimeout ctx s
  | .contextRestore r sigOk => Sys2Proof.Machine.execContextRestore r sigOk s
  | .imageStage r sigOk changed => Sys2Proof.Machine.execImageStage r sigOk changed s
  | .imageDrop r => Sys2Proof.Machine.execImageDrop r s
  | .imageForward r sigOk => Sys2Proof.Machine.execImageForward r sigOk s
  | .forwardStatusTimeout => Sys2Proof.Machine.execForwardStatusTimeout s
  | .sectionRun r ecc => Sys2Proof.Machine.execSectionRun r ecc s
  | .sectionStop r => Sys2Proof.Machine.execSectionStop r s
  | .scheduleAdd r => Sys2Proof.Machine.execScheduleAdd r s
  | .scheduleClear r => Sys2Proof.Machine.execScheduleClear r s
  | .moveDefineQueue r => Sys2Proof.Machine.execMoveDefineQueue r s
  | .movePost r => Sys2Proof.Machine.execMovePost r s
  | .moveResume r => Sys2Proof.Machine.execMoveResume r s
  | .moveRemove r => Sys2Proof.Machine.execMoveRemove r s
  | .pageMapDefineTable r => Sys2Proof.Machine.execPageMapDefineTable r s
  | .pageMapMap r => Sys2Proof.Machine.execPageMapMap r s
  | .pageMapDonate r => Sys2Proof.Machine.execPageMapDonate r s
  | .pageUnmapEntries r => Sys2Proof.Machine.execPageUnmapEntries r s
  | .pageUnmapTable r => Sys2Proof.Machine.execPageUnmapTable r s
  | .pageUnmapInit r => Sys2Proof.Machine.execPageUnmapInit r s
  | .pageShare r => Sys2Proof.Machine.execPageShare r s
  | .pageMigrate r => Sys2Proof.Machine.execPageMigrate r s
  | .gaugeSet r ecc => Sys2Proof.Machine.execGaugeSet r ecc s
  | .gaugeRead r ecc => Sys2Proof.Machine.execGaugeRead r ecc s
  | .gaugeReadTimeout r sequence => Sys2Proof.Machine.execGaugeReadTimeout r sequence s
  | .digest r => Sys2Proof.Machine.execDigest r s
  | .replicaGroupDefine r => Sys2Proof.Machine.execReplicaGroupDefine r s
  | .replicaGroupRemove r => Sys2Proof.Machine.execReplicaGroupRemove r s
  | .clearExpulsion r => Sys2Proof.Machine.execClearExpulsion r s
  | .screenRunScreen r => Sys2Proof.Machine.execScreenRunScreen r s
  | .screenRunRetire r => Sys2Proof.Machine.execScreenRunRetire r s
  | .screenRunSetCtl r => Sys2Proof.Machine.execScreenRunSetCtl r s
  | .screenPackLoad r sigOk => Sys2Proof.Machine.execScreenPackLoad r sigOk s
  | .logRead r => Sys2Proof.Machine.execLogRead r s
  | .countersRead r => Sys2Proof.Machine.execCountersRead r s
  | .unitEnable r => Sys2Proof.Machine.execUnitEnable r s
  | .unitDisable r => Sys2Proof.Machine.execUnitDisable r s
  | .unitTransitionComplete cls index failStep => Sys2Proof.Machine.execUnitTransitionComplete cls index failStep s
  | .linkTrain r t => Sys2Proof.Machine.execLinkTrain r t s
  | .tideConfigSource r => Sys2Proof.Machine.execTideConfigSource r s
  | .tideConfigPeriod r => Sys2Proof.Machine.execTideConfigPeriod r s
  | .tideConfigCount r => Sys2Proof.Machine.execTideConfigCount r s
  | .tideConfigOutput r => Sys2Proof.Machine.execTideConfigOutput r s
  | .attest r quoteVerifies => Sys2Proof.Machine.execAttest r quoteVerifies s
  | .fwUpdate r sigOk => Sys2Proof.Machine.execFwUpdate r sigOk s
  | .ownerPolicySet r => Sys2Proof.Machine.execOwnerPolicySet r s
  | .zeroize r => Sys2Proof.Machine.execZeroize r s
  | .fabricReset r => Sys2Proof.Machine.execFabricReset r s
  | .tailWriteObserved r tail cplHead => Sys2Proof.Machine.execTailWriteObserved r tail cplHead s
  | .replyWrite r hostError => Sys2Proof.Machine.execReplyWrite r hostError s
  | .msixCoalesceExpiry r => Sys2Proof.Machine.execMsixCoalesceExpiry r s
  | .cpCtlWrite v => Sys2Proof.Machine.execCpCtlWrite v s
  | .cpHaltResume phalt rings => Sys2Proof.Machine.execCpHaltResume phalt rings s
  | .cpLandWrite size v => Sys2Proof.Machine.execCpLandWrite size v s
  | .hdmDecoderCommit k base size => Sys2Proof.Machine.execHdmDecoderCommit k base size s
  | .hostMemoryAccess addr op flips => Sys2Proof.Machine.execHostMemoryAccess addr op flips s
  | .hostLinkRecovery => Sys2Proof.Machine.execHostLinkRecovery s
  | .hostLinkDown => Sys2Proof.Machine.execHostLinkDown s
  | .mailboxGo sigOk => Sys2Proof.Machine.execMailboxGo sigOk s
  | .gaugeSelWrite v ecc => Sys2Proof.Machine.execGaugeSelWrite v ecc s
  | .ctxGaugeRead ctx vid ecc => Sys2Proof.Machine.execCtxGaugeRead ctx vid ecc s
  | .tideCountRead half => Sys2Proof.Machine.execTideCountRead half s
  | .pumpCtlWrite pump v => Sys2Proof.Machine.execPumpCtlWrite pump v s
  | .segmentWrite lp5x seg v => Sys2Proof.Machine.execSegmentWrite lp5x seg v s
  | .halt p v => Sys2Proof.Machine.execHalt p v s
  | .step p => Sys2Proof.Machine.execStep p s
  | .registerWrite bar2 off wide v => Sys2Proof.Machine.execRegisterWrite bar2 off wide v s
  | .issue t cfgParity => Sys2Proof.Machine.execIssue t cfgParity s
  | .issueQueueSlotFree t => Sys2Proof.Machine.execIssueQueueSlotFree t s
  | .waitGauge t cfgParity => Sys2Proof.Machine.execWaitGauge t cfgParity s
  | .signalGauge t cfgParity => Sys2Proof.Machine.execSignalGauge t cfgParity s
  | .fenceRelease t => Sys2Proof.Machine.execFenceRelease t s
  | .gaugeQueueFree t upset => Sys2Proof.Machine.execGaugeQueueFree t upset s
  | .send t cfgParity upset => Sys2Proof.Machine.execSend t cfgParity upset s
  | .egressBufferFree t upset => Sys2Proof.Machine.execEgressBufferFree t upset s
  | .watch t cfgParity => Sys2Proof.Machine.execWatch t cfgParity s
  | .watchReevaluate t => Sys2Proof.Machine.execWatchReevaluate t s
  | .watchTimeout t => Sys2Proof.Machine.execWatchTimeout t s
  | .swap t cfgParity => Sys2Proof.Machine.execSwap t cfgParity s
  | .branch t cfgParity => Sys2Proof.Machine.execBranch t cfgParity s
  | .endProgram t cfgParity => Sys2Proof.Machine.execEndProgram t cfgParity s
  | .mma t upset => Sys2Proof.Machine.execMma t upset s
  | .attn t upset => Sys2Proof.Machine.execAttn t upset s
  | .vectorEngineOperation t upset => Sys2Proof.Machine.execVectorEngineOperation t upset s
  | .reductionOperation t upset => Sys2Proof.Machine.execReductionOperation t upset s
  | .draw t upset => Sys2Proof.Machine.execDraw t upset s
  | .verify t upset => Sys2Proof.Machine.execVerify t upset s
  | .dispatch t upset => Sys2Proof.Machine.execDispatch t upset s
  | .combine t upset => Sys2Proof.Machine.execCombine t upset s
  | .matrixStreamedFiring t upset => Sys2Proof.Machine.execMatrixStreamedFiring t upset s
  | .streamedFiring t reduction upset => Sys2Proof.Machine.execStreamedFiring t reduction upset s
  | .sluiceFiring t k upset => Sys2Proof.Machine.execSluiceFiring t k upset s
  | .messageEgress t upset => Sys2Proof.Machine.execMessageEgress t upset s
  | .messageHop p side lane err flips => Sys2Proof.Machine.execMessageHop p side lane err flips s
  | .multicastSpread p side lane east south => Sys2Proof.Machine.execMulticastSpread p side lane east south s
  | .messageDelivery p side lane err => Sys2Proof.Machine.execMessageDelivery p side lane err s
  | .backpressureReoffer t port => Sys2Proof.Machine.execBackpressureReoffer t port s
  | .overflowBasinMove t port upset => Sys2Proof.Machine.execOverflowBasinMove t port upset s
  | .steerSpillReturn t port => Sys2Proof.Machine.execSteerSpillReturn t port s
  | .treeInput p side => Sys2Proof.Machine.execTreeInput p side s
  | .instanceCombined p tree tag => Sys2Proof.Machine.execInstanceCombined p tree tag s
  | .downMessage p side => Sys2Proof.Machine.execDownMessage p side s
  | .probeSend p side lane => Sys2Proof.Machine.execProbeSend p side lane s
  | .probe k => Sys2Proof.Machine.execProbe k s
  | .reInjection p err => Sys2Proof.Machine.execReInjection p err s
  | .add b ecc => Sys2Proof.Machine.execAdd b ecc s
  | .set b ecc => Sys2Proof.Machine.execSet b ecc s
  | .wait b ecc => Sys2Proof.Machine.execWait b ecc s
  | .wake k side => Sys2Proof.Machine.execWake k side s
  | .waitRetry k => Sys2Proof.Machine.execWaitRetry k s
  | .waiterTimeout b gauge k ecc => Sys2Proof.Machine.execWaiterTimeout b gauge k ecc s
  | .switchTrigger run ecc => Sys2Proof.Machine.execSwitchTrigger run ecc s
  | .switchCensusClear run => Sys2Proof.Machine.execSwitchCensusClear run s
  | .switchDrainEnd run parity gauge => Sys2Proof.Machine.execSwitchDrainEnd run parity gauge s
  | .runDone run => Sys2Proof.Machine.execRunDone run s
  | .sectionTimeout run => Sys2Proof.Machine.execSectionTimeout run s
  | .bundleBlock port sigOk => Sys2Proof.Machine.execBundleBlock port sigOk s
  | .serviceRecord port => Sys2Proof.Machine.execServiceRecord port s
  | .queueEntryTake q flips => Sys2Proof.Machine.execQueueEntryTake q flips s
  | .descriptorStart q flips => Sys2Proof.Machine.execDescriptorStart q flips s
  | .transferComplete q => Sys2Proof.Machine.execTransferComplete q s
  | .summaryGather q flips => Sys2Proof.Machine.execSummaryGather q flips s
  | .pageGather q flips => Sys2Proof.Machine.execPageGather q flips s
  | .read k flips => Sys2Proof.Machine.execRead k flips s
  | .fetch k flips => Sys2Proof.Machine.execFetch k flips s
  | .write k ecc => Sys2Proof.Machine.execWrite k ecc s
  | .ack k => Sys2Proof.Machine.execAck k s
  | .data k => Sys2Proof.Machine.execData k s
  | .scrub store flips => Sys2Proof.Machine.execScrub store flips s
  | .scrubOverrun store => Sys2Proof.Machine.execScrubOverrun store s
  | .correctedWriteBack p => Sys2Proof.Machine.execCorrectedWriteBack p s
  | .blockReceived port b => Sys2Proof.Machine.execBlockReceived port b s
  | .linkReplayTimeout port t => Sys2Proof.Machine.execLinkReplayTimeout port t s
  | .ingressStall port lane => Sys2Proof.Machine.execIngressStall port lane s
  | .pinEdge => Sys2Proof.Machine.execPinEdge s
  | .holdover => Sys2Proof.Machine.execHoldover s
  | .marker port => Sys2Proof.Machine.execMarker port s
  | .tideTick => Sys2Proof.Machine.execTideTick s
  | .sectionStart k => Sys2Proof.Machine.execSectionStart k s
  | .gaugeSignal k ecc => Sys2Proof.Machine.execGaugeSignal k ecc s
  | .linkWindow k => Sys2Proof.Machine.execLinkWindow k s
  | .linkWindowClose => Sys2Proof.Machine.execLinkWindowClose s
  | .digestExchange k flips => Sys2Proof.Machine.execDigestExchange k flips s
  | .vote group => Sys2Proof.Machine.execVote group s
  | .screen k => Sys2Proof.Machine.execScreen k s
  | .screenTileStart die => Sys2Proof.Machine.execScreenTileStart die s
  | .screenTileEnd die failed => Sys2Proof.Machine.execScreenTileEnd die failed s
  | .wardenBite b => Sys2Proof.Machine.execWardenBite b s
  | .logEntryWrite => Sys2Proof.Machine.execLogEntryWrite s
  | .perstNAssert => Sys2Proof.Machine.execPerstNAssert s
  | .perstNRelease b => Sys2Proof.Machine.execPerstNRelease b s
  | .ready => Sys2Proof.Machine.execReady s
  | .powerGoodRise k => Sys2Proof.Machine.execPowerGoodRise k s
  | .powerGoodLoss k => Sys2Proof.Machine.execPowerGoodLoss k s
  | .refclkLoss => Sys2Proof.Machine.execRefclkLoss s
  | .thermalSample temps => Sys2Proof.Machine.execThermalSample temps s
  | .droop die => Sys2Proof.Machine.execDroop die s
  | .thermtrip => Sys2Proof.Machine.execThermtrip s
  | .telemetryRead k => Sys2Proof.Machine.execTelemetryRead k s
  | .railPoll r reading => Sys2Proof.Machine.execRailPoll r reading s
  | .transformEngineConversion t upset => Sys2Proof.Machine.execTransformEngineConversion t upset s
  | .timedSwitchStart run ecc => Sys2Proof.Machine.execTimedSwitchStart run ecc s
  | .entropyHealthTestFailure => Sys2Proof.Machine.execEntropyHealthTestFailure s
  | .memoryUnitLost u => Sys2Proof.Machine.execMemoryUnitLost u s
  | .sequencerRetryTimeout t => Sys2Proof.Machine.execSequencerRetryTimeout t s
  | .blockTransmit port => Sys2Proof.Machine.execBlockTransmit port s
  | .bucketRelease polder weir bucket => Sys2Proof.Machine.execBucketRelease polder weir bucket s
  | .hostSnoop addr => Sys2Proof.Machine.execHostSnoop addr s
  | .jtagAccess k => Sys2Proof.Machine.execJtagAccess k s

end Sys2Proof.Machine
end

