-- ==== Sys2Proof/Safety.lean ====
section
/-! DEFINITION. The terms in which statements speak of the part: which state is canonical, what a command may change, when a
ring takes a command, and what a reply says. -/

namespace Sys2Proof.Safety

open Sys2Proof.Machine

/-- The invariant that every step keeps: memory has its canonical form. -/
def Canonical (s : State) : Prop := s.mem.wf = true

/-- The core clock runs. -/
abbrev Runs (s : State) : Prop := s.stopped = false

/-! ## What a command leaves alone -/

/-- The kinds of state of the part, for frames. -/
inductive Kind where
  | mem | clk | tiles | displaced | threshold | probes | gauges | census | images | runs
  | loader | trees | polders | weirs | memUnits | segments | unpopulated | transactions | pumpQueues | pageTables
  | memCounters | links | tide | saves | security | power | contexts | rings | units | hostLink
  | hdm | vectors | answer | snoops | health | log | registers | status | free | arbiters | pageWork | pumpControls
deriving DecidableEq, Repr

/-- A kind of state reads the same in both states. -/
def Kind.same (s t : State) : Kind → Prop
  | .mem => t.mem = s.mem
  | .clk => t.clk = s.clk ∧ t.cycles = s.cycles
  | .tiles => t.tiles = s.tiles
  | .displaced => t.displaced = s.displaced ∧ t.moves = s.moves
  | .threshold => t.fabThreshold = s.fabThreshold ∧ t.fabClass = s.fabClass
  | .probes => t.probes = s.probes
  | .gauges => t.gauges = s.gauges
  | .census => t.census = s.census
  | .images => t.images = s.images
  | .runs => t.runs = s.runs ∧ t.runId = s.runId ∧ t.owners = s.owners
  | .loader => t.ldrStat = s.ldrStat ∧ t.condSkip = s.condSkip
  | .trees => t.trees = s.trees
  | .polders => t.polders = s.polders
  | .weirs => t.weirs = s.weirs
  | .memUnits => t.ms.units = s.ms.units
  | .segments => t.ms.segs = s.ms.segs ∧ t.ms.segErr = s.ms.segErr
  | .unpopulated => t.ms.unpop = s.ms.unpop ∧ t.ms.unpopAt = s.ms.unpopAt
  | .transactions => t.ms.txns = s.ms.txns ∧ t.ms.nextId = s.ms.nextId
  | .pumpQueues => t.ms.queues = s.ms.queues
  | .pageTables => t.ms.tables = s.ms.tables
  | .memCounters => t.ms.pumpStat = s.ms.pumpStat ∧ t.ms.pageStat = s.ms.pageStat
  | .links => t.links = s.links
  | .tide => t.tide = s.tide ∧ t.tideCount = s.tideCount ∧ t.tidePhase = s.tidePhase
  | .saves => t.saves = s.saves
  | .security => t.sec = s.sec
  | .power => t.power = s.power
  | .contexts => t.ctxs = s.ctxs
  | .rings => t.rings = s.rings
  | .units => t.units = s.units
  | .hostLink => t.host.link = s.host.link
  | .hdm => t.host.hdm = s.host.hdm
  | .vectors => t.host.vecPending = s.host.vecPending ∧ t.host.vecSent = s.host.vecSent
  | .answer => t.host.answer = s.host.answer
  | .snoops => t.host.snooped = s.host.snooped ∧ t.host.hostLines = s.host.hostLines
  | .health => t.health = s.health
  | .log => t.log = s.log
  | .registers => t.regs = s.regs
  | .status => t.devFault = s.devFault ∧ t.ready = s.ready
  | .free => t.free = s.free
  | .arbiters => t.bridgeGrants = s.bridgeGrants ∧ t.ms.memGrants = s.ms.memGrants ∧ t.ms.lastQueue = s.ms.lastQueue ∧
      t.ms.issuedAt = s.ms.issuedAt
  | .pageWork => t.ms.copies = s.ms.copies ∧ t.ms.jobs = s.ms.jobs ∧ t.ms.frees = s.ms.frees
  | .pumpControls => t.ms.pumpCtl = s.ms.pumpCtl

/-- Every kind of state but these reads as before; so do the queue of commands and what the fuses fix. -/
def Only (l : List Kind) (s t : State) : Prop :=
  t.pending = s.pending ∧ t.part = s.part ∧ ∀ k, k ∉ l → k.same s t

/-- Every byte of memory reads as before. -/
def SameBytes (s t : State) : Prop := ∀ a, t.mem.byte a = s.mem.byte a

/-- Every byte of memory outside n bytes from a on reads as before. -/
def SameBytesBut (a n : Nat) (s t : State) : Prop := ∀ x, x < a ∨ a + n ≤ x → t.mem.byte x = s.mem.byte x

/-- A place that a write of n bytes at host address a, or at device address a, does not reach. -/
def Outside (s : State) (host : Bool) (a n x : Nat) : Prop :=
  if host then x < hostBase + a ∨ hostBase + a + n ≤ x
  else ∀ e ∈ pieces a n, ∀ pa, s.place e.1 = some pa → x < pa ∨ pa + e.2 ≤ x

/-- The bytes bs are written from host address a on, or at device address a as device writes go, and no other byte of memory
changes. -/
def Stores (s t : State) (host : Bool) (a : Nat) (bs : List Byte) : Prop :=
  (host = true → t.mem.read (hostBase + a) bs.length = bs) ∧
  (host = false → t.mem = (s.devWrite a bs (fun _ => false)).mem) ∧
  ∀ x, Outside s host a bs.length x → t.mem.byte x = s.mem.byte x

/-- A destination of a command that takes every byte: host memory, or populated device memory outside closed areas. -/
def Open (s : State) (host : Bool) (a n : Nat) : Prop := host = true ∨ (s.populated a n = true ∧ closedTile s a n = none)

/-! ## Ring commands -/

/-- The weirs of a context's polder let the command processor's traffic pass, and hold none of it (R349, R350). -/
def Unheld (s : State) (ctx : Nat) : Prop :=
  ∀ q, s.polderOfCtx ctx = some q → ∀ w, (s.weir q w).rate = 256 ∧ (s.weir q w).held = [] ∧ (s.weir q w).granted = []

/-- No bit is found flipped in a word that the ring's command reads, and the host completes what it writes (R265, R293). -/
abbrev Sound (ring : Ring) : Prop := ringFlips ring = none ∧ ringFails ring = false

/-- Ring `ring` takes packet p next, as the last one posted, and no weir holds it back; p has the opcode, and passes the checks of
R306 that every command shares, with the parameters fs. -/
structure Takes (s : State) (ring : Ring) (op : Nat) (fs : Fields) (p : Pkt) : Prop where
  sound : Sound ring
  unheld : Unheld s p.ctx
  canonical : s.mem.wf = true
  runs : s.stopped = false
  next : nextPkt s (ringNo ring) = some p
  code : p.op = op
  form : autoStatus (ringNo ring) p = none
  allowed : pktDenied (ringNo ring) p = none
  inside : p.outside = false
  params : fieldsOk p fs = true
  last : (s.ring (ringNo ring)).tail = (s.ring (ringNo ring)).head + 1

/-- Every ring but this one stands as before. -/
def OtherRings (s t : State) (ring : Ring) : Prop := ∀ r, r ≠ ringNo ring → t.ring r = s.ring r

/-- The packet is taken, and its command ends with a reply that waits to be written; nothing else of the ring changes. -/
def Answered (s t : State) (ring : Ring) (p : Pkt) (status r0 r1 r2 : Nat) : Prop :=
  t.ring (ringNo ring) = { s.ring (ringNo ring) with
    head := (s.ring (ringNo ring)).head + 1
    replies := (s.ring (ringNo ring)).replies ++ [(p.cmd []).reply status r0 r1 r2] }

/-- The packet is taken and its command accepted; its reply comes later. -/
def Accepted (s t : State) (ring : Ring) (p : Pkt) (aux : List Nat) : Prop :=
  t.ring (ringNo ring) = { s.ring (ringNo ring) with
    head := (s.ring (ringNo ring)).head + 1
    accepted := (s.ring (ringNo ring)).accepted ++ [p.cmd aux] }

/-- The command ends with a reply, every other ring stands as before, and beside the rings only the kinds of state of `l`
change; the entry's lines are snooped where the host has read them (R294). -/
def Ends (s t : State) (ring : Ring) (p : Pkt) (l : List Kind) (status r0 r1 r2 : Nat) : Prop :=
  Answered s t ring p status r0 r1 r2 ∧ OtherRings s t ring ∧ Only (.rings :: .snoops :: l) s t

/-- The command is accepted, every other ring stands as before, and beside the rings only the kinds of state of `l` change. -/
def Begins (s t : State) (ring : Ring) (p : Pkt) (l : List Kind) (aux : List Nat) : Prop :=
  Accepted s t ring p aux ∧ OtherRings s t ring ∧ Only (.rings :: .snoops :: l) s t

/-- The kinds of state that the page engine's writes of a table touch: a write into a declared input is discarded and noted (R234),
and an entry read with poison is logged (R283). -/
def tableKinds : List Kind := [.mem, .tiles, .loader, .log, .vectors]

/-- A command of a table waits for the turn that the table's engine gives it (R284, log 41). -/
def WaitsTurn (s t : State) (ring : Ring) (p : Pkt) (k : Nat) : Prop :=
  Begins s t ring p [.pageWork] [k] ∧
  t.ms.jobs = s.ms.jobs ++ [⟨ringNo ring, p.cmd [k], p.par, false, [], 0, 0⟩] ∧ t.ms.copies = s.ms.copies ∧ t.ms.frees = s.ms.frees

/-- A transaction of traffic that belongs to no polder stands at its target, behind no earlier write to the same granules, and the
target's arbiter grants it (R264, R267, R269, R350). -/
structure Granted (s : State) (x : Txn) : Prop where
  arrived : x.arrived = true
  ordered : writeOrdered s x = true
  free : x.polder = none
  grant : ∀ a, memArbiter s x = some a →
    (memHeads s a).any (fun z => z.id == x.id) = true ∧ memGrant s a [] = some (memIndex x, x.cls)

/-- What a transaction becomes on its next leg, which starts where this one ended. -/
def onward (x z : Txn) : Txn := { z with from_ := x.goal, sent := false, arrived := false, page := none }

/-- The kinds of state that a corrected word of a gauge touches: its count, and the log (R207). -/
def eccKinds (e : Ecc) : List Kind := if e = .clean then [] else [.gauges, .log, .vectors]

/-! ## The QUERY record -/

/-- The 256 bytes of a QUERY record, field by field (Table 12.10). -/
structure QueryTable (s : State) (bs : List Byte) : Prop where
  length : bs.length = 256
  family : leAt bs 0 2 = s.family
  stepping : leAt bs 2 1 = 0
  level : leAt bs 3 1 = s.power.level % 256
  device : leAt bs 4 2 = s.deviceId
  polders : ∀ k, k < 8 → bitOf (leAt bs 6 1) k = (s.polder? k).isSome
  contexts : leAt bs 7 1 = s.ctxs.length % 256
  firmware : leAt bs 8 4 = idFw s % 2 ^ 32
  spares : ∀ d, d < 4 → leAt bs (12 + d) 1 = if d < s.dies then healthySpares s d else 0xFF
  dies : ∀ d, d < 4 → bitOf (leAt bs 16 1) d = (decide (d < s.dies) && s.unitOn 0 d)
  hbm : ∀ k, k < 8 → bitOf (leAt bs 17 1) k = s.memOn k
  lpPorts : ∀ k, k < 8 → bitOf (leAt bs 18 1) k = s.memOn (8 + k)
  ports : ∀ k, k < 8 → bitOf (leAt bs 19 1) k = (s.lport k).up
  tide : leAt bs 20 1 % 4 = tideInUse s ∧ bitOf (leAt bs 20 1) 2 = s.tide.freeRunning ∧ bitOf (leAt bs 20 1) 3 = s.tide.present
  flags : bitOf (leAt bs 21 1) 0 = s.health.expelled ∧ bitOf (leAt bs 21 1) 1 = s.sec.error ∧
    bitOf (leAt bs 21 1) 2 = s.part.debugOpen
  tideCount : leAt bs 24 8 = s.tideCount.toNat
  memory : leAt bs 32 8 = tierBytes s 0 % 2 ^ 64 ∧ leAt bs 40 8 = tierBytes s 1 % 2 ^ 64
  zero : leAt bs 22 2 = 0 ∧ ∀ i, 48 ≤ i → i < 256 → bs.getD i 0 = 0

/-! ## Faults -/

/-- What the reset of the fabric leaves, and the end of every command with it (R154, R208, R290, R311, R342, R360, R361): no
accepted command and no run; every user ring halted; tile stores at zero and other memory as before; gauges at reset; no staged
image, queue, table or transaction; of the schedule table the entries of action 3 and above. -/
structure Swept (s t : State) : Prop where
  ended : ∀ r, (t.ring r).accepted = []
  halted : ∀ e ∈ t.rings, e.1 < 64 → e.2.halted = true
  stores : ∀ a, a < 1088 * 2 ^ 24 → t.mem.byte a = 0
  beyond : ∀ a, 1088 * 2 ^ 24 ≤ a → t.mem.byte a = s.mem.byte a
  fabric : t.runs = [] ∧ t.saves = [] ∧ t.images = [] ∧ t.census = [] ∧ t.trees = [] ∧ t.owners = [] ∧ t.links.forwards = []
  gauges : t.gauges = s.gauges.fabricReset
  memory : t.ms.queues = [] ∧ t.ms.tables = [] ∧ t.ms.txns = [] ∧ t.ms.units = s.ms.units ∧ t.ms.segs = s.ms.segs
  pages : t.ms.copies = [] ∧ t.ms.jobs = [] ∧ t.ms.frees = []
  schedule : t.tide.sched = s.tide.sched.filter (fun e => leAt e.2.bytes 0 1 ≥ 3)

/-- The kinds of state that a reset of the fabric and the end of every command touch. -/
def sweptKinds : List Kind :=
  [.rings, .snoops, .health, .mem, .runs, .saves, .images, .census, .trees, .gauges, .pumpQueues, .pageTables, .transactions,
    .tide, .tiles, .probes, .contexts, .links, .displaced, .units, .log, .vectors, .pageWork]

/-- What a job fault leaves (R360): its record, and the reset. -/
structure Faulted (s t : State) (code : Nat) (ctx : Option Nat) : Prop where
  last : t.health.faultLast = BitVec.ofNat 32 (code + (match ctx with | some c => c % 64 * 2 ^ 16 + 2 ^ 22 | none => 0) + 2 ^ 23)
  instant : t.health.faultTide = s.tideCount
  swept : Swept s t
  rest : Only sweptKinds s t

/-- What a device fault leaves while the command processor runs (R363): `ID_STATUS.device_fault`, `FAULT_N`, level 0, every
accepted command ended, and every ring halted. -/
structure DeviceFaulted (s t : State) (code : Nat) : Prop where
  fault : t.devFault = true ∧ t.ready = s.ready
  power : t.power = { s.power with faultN := true, level := 0, lastFault := code }
  ended : ∀ r, (t.ring r).accepted = []
  halted : ∀ e ∈ t.rings, e.2.halted = true

/-! ## Tile programs -/

/-- Logical tile n runs on physical tile p, and its sequencer stands at step word w of opcode op, with every RSV bit 0 and without
poison (R47, R48). -/
structure AtStep (s : State) (n : BitVec 10) (op p w : Nat) : Prop where
  canonical : s.mem.wf = true
  runs : s.stopped = false
  present : n.toNat < s.ntiles
  place : s.phys n.toNat = p
  ready : seqReady (s.tile p) = true
  word : (s.tile p).step64 (s.tile p).seq.idx.toNat = w
  code : stepOp w = op
  plain : stepRsv w = false
  sound : (s.tile p).cfgMarked (8 * (s.tile p).seq.idx.toNat) 8 = false

/-- The sequencer of logical tile n, on physical tile p, is held in state q at step word w. -/
structure HeldAt (s : State) (n : BitVec 10) (q : SeqState) (p w : Nat) : Prop where
  canonical : s.mem.wf = true
  runs : s.stopped = false
  place : s.phys n.toNat = p
  held : (s.tile p).seq.st = q
  word : (s.tile p).step64 (s.tile p).seq.idx.toNat = w

/-- The program of the tile has step k, and neither halt, nor a breakpoint, nor a single step stops the sequencer there (R59). -/
structure RunsOn (y : Tile) (k : Nat) : Prop where
  inside : k < y.progLen
  free : y.seq.stepOne = false ∧ y.seq.halt = false ∧ y.seq.breakEn = false

/-- Tile y with its sequencer running at step k, which counts as progress at this clock. -/
def atNext (y : Tile) (k clk : Nat) : Tile :=
  { y with seq := { y.seq with idx := BitVec.ofNat 10 k, st := .running, stepOne := false }, progress := clk }

/-- The index of the step after the one at hand. -/
def nextIdx (y : Tile) : Nat := y.seq.idx.toNat + 1

/-- Physical tile p becomes y, every other tile stands as before, and no other kind of state but those of l changes. -/
def TileBecomes (s t : State) (p : Nat) (y : Tile) (l : List Kind) : Prop :=
  t.tile p = y ∧ (∀ q, q ≠ p → t.tile q = s.tile q) ∧ Only (.tiles :: l) s t

/-! ## Section switches -/

/-- Run x may switch in: its region has a tile, every tile of it is unconfigured or done, every other run has fired, and no
router holds an instance of a tree (R225). -/
structure RegionFree (s : State) (x : Run) : Prop where
  others : ∀ o ∈ s.runs, o.id ≠ x.id → o.phase = .running
  nonempty : s.region x ≠ []
  tiles : ∀ n ∈ s.region x, (s.ltile n).sect.configured = true → (s.ltile n).isDone = true
  trees : ∀ e ∈ s.tiles, e.2.router.insts = []

/-- The run leaves with its reply, the last of its ring; every other ring and run stands. -/
structure RunReplies (s t : State) (x : Run) (k : Cmd) (rep : Reply) : Prop where
  runs : t.runs = s.runs.filter (fun y => y.id != x.id)
  ring : t.ring x.ring = { s.ring x.ring with
    accepted := (s.ring x.ring).accepted.erase k, replies := (s.ring x.ring).replies ++ [rep] }
  others : ∀ r, r ≠ x.ring → t.ring r = s.ring r

/-! ## Routers -/

/-- Queue k of router p becomes l; every other queue of every router stands, and so do spilled messages and held heads, and, but for
those of a node whose own message has left, instances. -/
structure QueueBecomes (s t : State) (p k : Nat) (l : List Msg) : Prop where
  self : t.rq p k = l
  others : ∀ q j, (q ≠ p ∨ j ≠ k) → t.rq q j = s.rq q j
  rest : ∀ q, (t.tile q).router.spill = (s.tile q).router.spill ∧ (t.tile q).router.dike = (s.tile q).router.dike
  insts : ∀ q, (q ≠ p ∨ k < 15) → (t.tile q).router.insts = (s.tile q).router.insts

/-- Router p holds m at the head of queue k, with r behind it; its queues are in order. -/
structure HeadOf (s : State) (p k : Nat) (m : Msg) (r : List Msg) : Prop where
  canonical : s.mem.wf = true
  runs : s.stopped = false
  head : s.rq p k = m :: r
  sorted : asorted (s.tile p).router.queues = true

/-- A message for port k of unit u of the tile fits its FIFO now, with none of the port's messages spilled or in its basin
(R35, R245). -/
structure FifoTakes (y : Tile) (u k : Nat) (m : Msg) : Prop where
  unit : 1 ≤ u ∧ u ≤ 6
  spilled : ∀ e ∈ y.steerSpill, e.1 ≠ portNo u k
  basin : (y.port u k).inBasin = 0
  room : (y.port u k).entries + m.flits ≤ 8

/-- The port after it took m. -/
def portTook (x : Port) (m : Msg) : Port := { x with fifo := x.fifo ++ [m], backp := false }

/-! ## Engines -/

/-- Operation op stands at the front of the queue of unit u of logical tile n, on physical tile p, with `rest` behind it; the
tile runs, and every word on its local list lies inside a declared input (R369). -/
structure AtEngine (s : State) (n : BitVec 10) (u p : Nat) (op : Op) (rest : List Op) : Prop where
  canonical : s.mem.wf = true
  runs : s.stopped = false
  present : n.toNat < s.ntiles
  place : s.phys n.toNat = p
  live : (s.tile p).live = true
  queue : (s.tile p).queue u = op :: rest
  fresh : op.out = none
  clean : ∀ w ∈ (s.tile p).localList, inInput (s.tile p) w = true

/-- What the engines of a tile leave alone of it: of the corrected words that wait to be written back, one that they write drops out
(R152). -/
structure Untouched (y z : Tile) : Prop where
  config : z.cfg = y.cfg ∧ z.swaps = y.swaps ∧ z.sect = y.sect
  steps : z.opId = y.opId ∧ z.gq = y.gq
  ports : z.ports = y.ports ∧ z.sluices = y.sluices ∧ z.steerSpill = y.steerSpill ∧ z.router = y.router
  rest : z.firings = y.firings ∧ z.wbPending.Sublist y.wbPending ∧ z.retired = y.retired ∧ z.screening = y.screening

/-- A basin of this size after its head moved past a bytes (R148, R149): an advance beyond what it holds empties it. -/
def headMoved (x : Basin) (size a : Nat) : Basin :=
  if x.takes size a > x.used then { x with head := x.tail, used := 0, padValid := false } else x.advance size a

/-- One of n bytes of a stream of tile p from address a on, for one of these addresses. -/
def Reached (s : State) (p swaps : Nat) (st : Stream) (as : List Int) (n x : Nat) : Prop :=
  ∃ a ∈ as, ∃ i, i < n ∧ x = streamPlace s p swaps st (a + Int.ofNat i)

/-- Where an operation of the vector engine writes: its output elements of every loop point in tile store (R112, R438). -/
def vWrites (s : State) (p swaps : Nat) (d l : List Byte) (x : Nat) : Prop :=
  vLoc d 2 = 0 ∧ (loopStream l 2).enabled = true ∧
  Reached s p swaps (loopStream l 2) ((loopPoints (loopLevels l)).map (pointAddr (loopStream l 2) 2 (loopLevels l)))
    ((fmtBits (convFmt (vConv d)) * gOf ((vStreams d l).map (·.2)) + 7) / 8) x

/-- Where an issued MMA writes: its row segments, and their scale bytes (R91, R93). -/
def mmaWrites (s : State) (p swaps : Nat) (d l : List Byte) (x : Nat) : Prop :=
  mmaWrite d = true ∧
  (Reached s p swaps (loopStream l 2) ((segPoints l).map (mmaAddr l 2)) (segBytes (mmaFunc d) (convFmt (mmaConv d))) x ∨
   fmtIsBlock (convFmt (mmaConv d)) = true ∧
   Reached s p swaps (loopStream l 2) ((segPoints l).map (fun pt => companion (loopStream l 2) (mmaAddr l 2 pt)
       (segBytes (mmaFunc d) (convFmt (mmaConv d))) (mmaCScale d) (segCols (mmaFunc d) / fmtBlock (convFmt (mmaConv d)))))
     (segCols (mmaFunc d) / fmtBlock (convFmt (mmaConv d))) x)

/-- Where an ATTN writes: its output rows, their scale bytes, and the log-sum-exp words of its row records (R104, R106). -/
def attnWrites (s : State) (p swaps : Nat) (d l : List Byte) (x : Nat) : Prop :=
  let rows (k : Nat) (f : Int → Nat → Int) : List Int :=
    (attnPoints l).flatMap (fun pt => (List.range (attnRows d)).map (fun r => f (mmaAddr l k pt) r))
  let nb := 128 / fmtBlock (convFmt (attnConv d))
  Reached s p swaps (loopStream l 2) (rows 2 (fun a r => a + Int.ofNat (r * attnORow d))) (attnORow d) x ∨
  (fmtIsBlock (convFmt (attnConv d)) = true ∧
    Reached s p swaps (loopStream l 2)
      (rows 2 (fun a r => companion (loopStream l 2) (a + Int.ofNat (r * attnORow d)) (attnORow d) (leAt d 32 3) nb)) nb x) ∨
  (attnFlag d 3 = true ∧ Reached s p swaps (loopStream l 3) (rows 3 (fun a r => a + Int.ofNat (16 * r + 12))) 4 x)

/-- Where an operation of the reduction unit writes: its results, unless they leave on a tree (R120). -/
def rWrites (s : State) (p swaps : Nat) (d l : List Byte) (x : Nat) : Prop :=
  rNet d = false ∧ ∃ e ∈ rResults s p swaps d l, Reached s p swaps (loopStream l 2) [pointAddr (loopStream l 2) 2 (loopLevels l) e.1]
    ((e.2.map (·.out)).flatten).length x

/-- Where a DISPATCH writes: the 128 bytes of the route table of each row (R242). -/
def dispatchWrites (s : State) (p swaps : Nat) (d l : List Byte) (x : Nat) : Prop :=
  Reached s p swaps (loopStream l 2) ((List.range (dRows d)).map (fun r => Int.ofNat ((loopStream l 2).base + 128 * r))) 128 x

/-- Where a conversion writes: its output elements, and on stream 3 their scale bytes (R66, R75-R79, log 11). -/
def xWrites (s : State) (p swaps : Nat) (d l : List Byte) (x : Nat) : Prop :=
  let fo := convFmt (Config.xform d).conv
  let g := xG (Config.xform d).inFmt fo
  let as (k : Nat) := (loopPoints (loopLevels l)).map (pointAddr (loopStream l k) k (loopLevels l))
  Reached s p swaps (loopStream l 2) (as 2) ((fmtBits fo * g + 7) / 8) x ∨
  (fmtIsBlock fo = true ∧ Reached s p swaps (loopStream l 3) (as 3) (g / fmtBlock fo) x)

/-- A state in which the host's lines stand otherwise. -/
def seen (s : State) (a : List Nat) (b : Assoc Nat) : State := { s with host := { s.host with snooped := a, hostLines := b } }

/-- Tile p holds in t what x gives it to compute: memory, accumulator, vector buffers and histograms; what x has sent has left
first. -/
structure Computed (x t : State) (p : Nat) : Prop where
  mem : t.mem = x.mem
  acc : (t.tile p).acc = (x.tile p).acc
  vb : (t.tile p).vb = (x.tile p).vb ∧ (t.tile p).vbPoison = (x.tile p).vbPoison
  hist : (t.tile p).hist = (x.tile p).hist
  sent : (x.tile p).egress <+: (t.tile p).egress

/-- The operation at the front of unit u's queue has completed (R50, R148, R197): it has left the queue, the basins of which its
input streams `ins` took have moved on, its gauge is signalled, a step that waits for it is released; every other tile and
queue stands, and so does every byte of memory outside W. -/
structure Completed (s t : State) (p u : Nat) (op : Op) (rest : List Op) (l : List Byte) (ins : List (Nat × Nat))
    (W : Nat → Prop) : Prop where
  queue : (t.tile p).queue u = rest
  queues : ∀ v, v ≠ u → (t.tile p).queue v = (s.tile p).queue v
  sequencer : (t.tile p).seq =
    { (s.tile p).seq with holdOp := if (s.tile p).seq.holdOp = some op.id then none else (s.tile p).seq.holdOp }
  consumed : ∀ b a, (b, a) ∈ basinAdvances (s.tile p) u l ins →
    (t.tile p).basin b = headMoved ((s.tile p).basin b) (declSize ((s.tile p).basinDecl b)) a
  basins : ∀ b, (∀ a, (b, a) ∉ basinAdvances (s.tile p) u l ins) → (t.tile p).basin b = (s.tile p).basin b
  signal : ∀ v, op.signal = some v → (u, gaugeMsg p (s.tile p).sect.gen.toNat v 0 1 0) ∈ (t.tile p).egress
  tile : Untouched (s.tile p) (t.tile p)
  others : ∀ q, q ≠ p → t.tile q = s.tile q
  bytes : ∀ x, ¬ W x → t.mem.byte x = s.mem.byte x
  only : Only [.mem, .tiles, .log, .vectors, .snoops] s t

/-- The operation at the front of unit u's queue has run, and stays there until the last of its messages has left egress (R197, R244);
`adv` tells what its inputs take off their basins then. -/
structure Sending (s t : State) (p u : Nat) (op : Op) (rest : List Op) (l : List Byte) (ins : List (Nat × Nat))
    (W : Nat → Prop) : Prop where
  queue : (t.tile p).queue u = { op with out := some (basinAdvances (s.tile p) u l ins) } :: rest
  queues : ∀ v, v ≠ u → (t.tile p).queue v = (s.tile p).queue v
  sequencer : (t.tile p).seq = (s.tile p).seq
  basins : (t.tile p).basins = (s.tile p).basins
  tile : Untouched (s.tile p) (t.tile p)
  others : ∀ q, q ≠ p → t.tile q = s.tile q
  bytes : ∀ x, ¬ W x → t.mem.byte x = s.mem.byte x
  only : Only [.mem, .tiles, .log, .vectors, .snoops] s t

/-- An operation that may send messages has run, with x the state that its effect leaves: it waits for them, or has completed. -/
def SentOrCompleted (s x t : State) (p u : Nat) (op : Op) (rest : List Op) (l : List Byte) (ins : List (Nat × Nat)) (W : Nat → Prop) :
    Prop :=
  if (x.tile p).resultsOut u then Sending s t p u op rest l ins W else Completed s t p u op rest l ins W

/-- Logical tile n is the root of a sampler operation of code `op`, whose participating tiles all stand at it, with slices that
cover the row (R127), on a declared tree that joins them (R130); every word on the root's local list lies inside a declared input. -/
structure AtRoot (s : State) (n : BitVec 10) (op : Nat) (root : Part4) : Prop where
  canonical : s.mem.wf = true
  runs : s.stopped = false
  part : part4 s n.toNat = some root
  code : leAt root.d 1 1 = op
  isRoot : sRoot root.d = true
  cover : slicesCover (partners s root) = true
  joins : treeJoins s (lDie root.n) (sTree root.d) ((partners s root).map (·.n)) = true
  clean : ∀ w ∈ (s.tile root.p).localList, inInput (s.tile root.p) w = true
  places : ∀ a b, a < s.ntiles → b < s.ntiles → s.phys a = s.phys b → a = b

/-- Address of the result record of sequence q (Table 5.9). -/
def resultAddr (x : Part4) (q : Nat) : Int := pointAddr (loopStream x.l 2) 2 (loopLevels x.l) [0, q, 0, 0, 0, 0]

/-- The first eight bytes of a result record: token, status, accepted count, flags (Table 5.9). -/
def resultHead (r : SResult) : List Byte := leBytes 4 r.token ++ leBytes 1 r.status ++ leBytes 1 r.accepted ++ leBytes 1 r.flags ++ [0]

/-- A sampler operation has completed on every participating tile: it has left their queues, the records `rs` stand at the root's
stream 2 where no two of them overlap, and nothing else has changed but counters, consumed basins, a sent record and the log. -/
structure Sampled (s t : State) (root : Part4) (rs : List (Nat × SResult)) : Prop where
  queues : ∀ x ∈ partners s root, (t.tile x.p).queue 4 = ((s.tile x.p).queue 4).drop 1
  tiles : ∀ x ∈ partners s root, Untouched (s.tile x.p) (t.tile x.p)
  others : ∀ q, (∀ x ∈ partners s root, q ≠ x.p) → t.tile q = s.tile q
  records : (∀ q r i j, q ≠ r → i < 32 → j < 32 →
      streamPlace s root.p root.op.swaps (loopStream root.l 2) (resultAddr root q + Int.ofNat i) ≠
      streamPlace s root.p root.op.swaps (loopStream root.l 2) (resultAddr root r + Int.ofNat j)) →
    ∀ e ∈ rs, ∀ i, i < 8 →
      t.mem.byte (streamPlace s root.p root.op.swaps (loopStream root.l 2) (resultAddr root e.1 + Int.ofNat i)) = (resultHead e.2).getD i 0
  bytes : ∀ x, ¬ Reached s root.p root.op.swaps (loopStream root.l 2) (rs.map (fun e => resultAddr root e.1)) 32 x →
    t.mem.byte x = s.mem.byte x
  only : Only [.mem, .tiles, .log, .vectors, .snoops, .free] s t

/-- A port after its head token was taken (R36, R38). -/
def portLeft (x : Port) : Port :=
  match x.fifo with
  | _ :: r => { x with fifo := r }
  | [] => { x with inBasin := x.inBasin - 1 }

/-- The ports of unit u in the list have lost their heads, and every other port stands. -/
def PortsLost (y z : Tile) (u : Nat) (l : List Nat) : Prop :=
  (∀ k ∈ l, z.port u k = portLeft (y.port u k)) ∧
  ∀ v k, 1 ≤ v → k < 8 → (v ≠ u ∨ k ∉ l) → z.port v k = y.port v k

/-- Streamed unit u of logical tile n, on physical tile p, can fire: its tile runs, it has not finished, and every port of its
firing set holds a token (R38). -/
structure AtFiring (s : State) (n : BitVec 10) (u p : Nat) : Prop where
  canonical : s.mem.wf = true
  runs : s.stopped = false
  fires : canFire s n.toNat u = some p
  clean : ∀ w ∈ (s.tile p).localList, inInput (s.tile p) w = true

/-- Unit u has fired (R38, R40): its tokens are taken, the firing is counted, and what x holds has left it. -/
structure Fired (s x t : State) (p u : Nat) : Prop where
  ports : PortsLost (s.tile p) (t.tile p) u (firingPorts (s.tile p) u)
  count : agetD (t.tile p).firings u 0 = agetD (s.tile p).firings u 0 + 1
  egress : (t.tile p).egress = (x.tile p).egress
  acc : (t.tile p).acc = (x.tile p).acc
  config : (t.tile p).cfg = (s.tile p).cfg ∧ (t.tile p).sect = (s.tile p).sect ∧ (t.tile p).seq = (s.tile p).seq
  queues : (t.tile p).queues = (s.tile p).queues ∧ (t.tile p).gq = (s.tile p).gq ∧ (t.tile p).router = (s.tile p).router
  others : ∀ q, q ≠ p → t.tile q = s.tile q
  mem : t.mem = s.mem
  only : Only [.tiles, .log, .vectors, .snoops] s t

/-- Sluice k of logical tile n, on physical tile p, may fire: its tile runs, the steering block has not finished, and every word on its
local list lies inside a declared input (R369). -/
structure AtSluice (s : State) (n : BitVec 10) (p : Nat) : Prop where
  canonical : s.mem.wf = true
  runs : s.stopped = false
  present : n.toNat < s.ntiles
  place : s.phys n.toNat = p
  live : (s.tile p).live = true
  unfinished : (s.tile p).isFinished 6 = false
  clean : ∀ w ∈ (s.tile p).localList, inInput (s.tile p) w = true

/-- A sluice firing of physical tile p: the steering ports of l have lost their heads, the messages ms leave the tile, sluice k
becomes z, and the other sluices and every other tile stand. -/
structure Steered (s t : State) (p k : Nat) (l : List Nat) (ms : List (Nat × Msg)) (z : Sluice) : Prop where
  ports : PortsLost (s.tile p) (t.tile p) 6 l
  sent : (t.tile p).egress = (s.tile p).egress ++ ms
  sluice : (t.tile p).sluice k = z
  sluices : ∀ j, j ≠ k → (t.tile p).sluice j = (s.tile p).sluice j
  config : (t.tile p).cfg = (s.tile p).cfg ∧ (t.tile p).sect = (s.tile p).sect ∧ (t.tile p).seq = (s.tile p).seq
  queues : (t.tile p).queues = (s.tile p).queues ∧ (t.tile p).gq = (s.tile p).gq ∧ (t.tile p).router = (s.tile p).router
  others : ∀ q, q ≠ p → t.tile q = s.tile q
  mem : t.mem = s.mem
  only : Only [.tiles, .log, .vectors, .snoops] s t

/-! ## The whole part -/

/-- The commands of the board's pins, of its telemetry bus, and of JTAG, which reach the part while its core clock stands. -/
def ofBoard : Instr → Bool
  | .perstNAssert | .perstNRelease _ | .powerGoodRise _ | .powerGoodLoss _ | .thermtrip | .telemetryRead _ | .jtagAccess _ => true
  | _ => false

/-! ## Packets that a ring turns away, and errors met -/

/-- The commands that only the privileged ring may issue, with their opcode and the form in packet byte 8 (Tables 12.8, 12.9). -/
def privCommands (r : Ring) (ok changed : Bool) (oks : Nat) (tr : Training) : List (Instr × Nat × Option Nat) :=
  [(.partitionCreate r, 0x10, none), (.partitionDestroy r, 0x11, none), (.weirSet r, 0x12, none), (.contextCreate r, 0x20, none),
    (.contextDestroy r, 0x21, none), (.contextSave r, 0x22, none), (.contextRestore r oks, 0x23, none),
    (.imageStage r ok changed, 0x30, none), (.imageDrop r, 0x31, none), (.imageForward r oks, 0x32, none)] ++
  [(.scheduleAdd r, 0x42, none), (.scheduleClear r, 0x43, none), (.pageMigrate r, 0x5B, none), (.replicaGroupDefine r, 0x71, some 0),
    (.replicaGroupRemove r, 0x71, some 1), (.clearExpulsion r, 0x71, some 2), (.screenRunScreen r, 0x72, some 0),
    (.screenRunRetire r, 0x72, some 1), (.screenRunSetCtl r, 0x72, some 2), (.screenPackLoad r ok, 0x73, none)] ++
  [(.logRead r, 0x80, none), (.countersRead r, 0x81, none), (.unitEnable r, 0x90, none), (.unitDisable r, 0x91, none),
    (.linkTrain r tr, 0x92, none), (.tideConfigSource r, 0x93, some 0), (.tideConfigPeriod r, 0x93, some 1),
    (.tideConfigCount r, 0x93, some 2), (.tideConfigOutput r, 0x93, some 3)] ++
  [(.attest r ok, 0xA0, none), (.fwUpdate r ok, 0xA1, none), (.ownerPolicySet r, 0xA2, none), (.zeroize r, 0xA3, none),
    (.fabricReset r, 0xF0, none)]

/-- Ring `ring` takes packet p next, as the last one posted, and no weir holds it back; p has the opcode, with no poison and one of
its forms. -/
structure Posted (s : State) (ring : Ring) (op : Nat) (p : Pkt) : Prop where
  sound : Sound ring
  unheld : Unheld s p.ctx
  canonical : s.mem.wf = true
  runs : s.stopped = false
  next : nextPkt s (ringNo ring) = some p
  code : p.op = op
  form : autoStatus (ringNo ring) p = none
  last : (s.ring (ringNo ring)).tail = (s.ring (ringNo ring)).head + 1

/-- The operations that the engines of one tile run from their queues: command, engine, and the opcodes of their descriptors. -/
def issuedOps (n : BitVec 10) (e : Option Upset) : List (Instr × Nat × (Nat → Bool)) :=
  [(.mma n e, 1, fun o => o == 1), (.attn n e, 1, fun o => o == 2), (.vectorEngineOperation n e, 2, fun _ => true),
    (.reductionOperation n e, 3, fun _ => true), (.dispatch n e, 5, fun o => o == 0x40),
    (.transformEngineConversion n e, 5, fun o => o != 0x40 && o != 0x41)]

/-- Run r of tile p goes back to the wait before its switch (R231): one replay more, its next generation, and no limit running;
what it asked for stands. -/
def Replays (s t : State) (r : Run) : Prop :=
  ∃ g, t.run? r.id = some { r with
    replays := r.replays + 1, gen := g, phase := .waitCensus, timeoutAt := none, outgoing := (s.region r).map (fun n => (n, r.gen)) } ∧
  (∀ e, r.explicitGen = some e → g = e % 8) ∧
  (∀ c, r.explicitGen = none → aget? s.ctxs r.ctx = some c →
    g = (c.gencnt + 1).toNat ∧ aget? t.ctxs r.ctx = some { c with gencnt := c.gencnt + 1 })

end Sys2Proof.Safety
end

