-- ==== Sys2Proof/Certificates/Slice0/Obligations.lean ====
section
/-! DEFINITION. The statements of this model, from the numbered rules of the spec: what each command does and leaves alone, what
a step does, the invariant that every step keeps, and the part at reset. -/

open Sys2Proof Sys2Proof.Machine Sys2Proof.Safety

/-- NOP, QUERY, LOG_READ and COUNTERS_READ complete, each with an OK reply, when their packet passes the checks of R306 (Tables
12.9, 12.10; R365). NOP answers the tide count. QUERY answers the service level and writes its 256-byte record at its
destination; a destination that the ring may not reach is DENIED. LOG_READ writes as many of the oldest entries as asked, oldest
first, without those that the log's memory has lost, which are counted; COUNTERS_READ writes a tile's window or the health
block, and answers UNIT_ABSENT for a tile of an absent die. A destination that is closed or not populated changes no reply. -/
def Obligations.NopQueryLogCounters : Prop :=
  ((∀ (ring : Ring) (s : State) (p : Pkt), Takes s ring 0x01 [] p →
     ∃ t, exec (.nop ring) s = .next t ∧ Ends s t ring p [] stOk s.tideCount.toNat 0 0) ∧
   (∀ (ring : Ring) (s : State) (p : Pkt), Takes s ring 0x02 [(8, 8, 0), (16, 1, 1)] p →
     mayReach s (ringNo ring) (bitOf (p.b 16 1) 0) (p.b 8 8) 256 = true → Open s (bitOf (p.b 16 1) 0) (p.b 8 8) 256 →
     ∃ t bs, exec (.query ring) s = .next t ∧ Ends s t ring p [.mem, .tiles] stOk s.power.level 0 0 ∧
       QueryTable s bs ∧ Stores s t (bitOf (p.b 16 1) 0) (p.b 8 8) bs) ∧
   (∀ (ring : Ring) (s : State) (p : Pkt), Takes s ring 0x02 [(8, 8, 0), (16, 1, 1)] p →
     mayReach s (ringNo ring) (bitOf (p.b 16 1) 0) (p.b 8 8) 256 = true →
     ∃ t, exec (.query ring) s = .next t ∧ Answered s t ring p stOk s.power.level 0 0) ∧
   (∀ (ring : Ring) (s : State) (p : Pkt), Takes s ring 0x02 [(8, 8, 0), (16, 1, 1)] p →
     mayReach s (ringNo ring) (bitOf (p.b 16 1) 0) (p.b 8 8) 256 = false →
     ∃ t, exec (.query ring) s = .next t ∧ Ends s t ring p [] stDenied 0 0 0)) ∧
  ((∀ (ring : Ring) (s : State) (p : Pkt), Takes s ring 0x80 [(8, 1, 1), (16, 8, 0), (24, 2, 0)] p →
     1 ≤ p.b 24 2 → p.b 24 2 ≤ 4096 →
     let good := s.log.entries.filter (fun e => !e.bad)
     let out := good.reverse.take (p.b 24 2)
     Open s (bitOf (p.b 8 1) 0) (p.b 16 8) (out.flatMap (·.bytes)).length →
     ∃ t, exec (.logRead ring) s = .next t ∧
       Ends s t ring p [.mem, .tiles, .log] stOk out.length s.log.overwrite.toNat 0 ∧
       Stores s t (bitOf (p.b 8 1) 0) (p.b 16 8) (out.flatMap (·.bytes)) ∧
       t.log = { s.log with
         entries := good, lost := sat32 s.log.lost (s.log.entries.filter (·.bad)).length }) ∧
   (∀ (ring : Ring) (s : State) (p : Pkt), Takes s ring 0x80 [(8, 1, 1), (16, 8, 0), (24, 2, 0)] p →
     1 ≤ p.b 24 2 → p.b 24 2 ≤ 4096 →
     ∃ t, exec (.logRead ring) s = .next t ∧ Answered s t ring p stOk
       ((s.log.entries.filter (fun e => !e.bad)).reverse.take (p.b 24 2)).length s.log.overwrite.toNat 0) ∧
   (∀ (ring : Ring) (s : State) (p : Pkt), Takes s ring 0x81 [(8, 1, 1), (9, 1, 1), (10, 2, 0), (16, 8, 0)] p →
     (p.b 8 1 = 0 → p.b 10 2 < 272 * s.dies) →
     let out := if p.b 8 1 = 0 then windowImage s (p.b 10 2) else healthImage s
     Open s (bitOf (p.b 9 1) 0) (p.b 16 8) out.length →
     ∃ t, exec (.countersRead ring) s = .next t ∧ Ends s t ring p [.mem, .tiles] stOk out.length 0 0 ∧
       Stores s t (bitOf (p.b 9 1) 0) (p.b 16 8) out) ∧
   (∀ (ring : Ring) (s : State) (p : Pkt), Takes s ring 0x81 [(8, 1, 1), (9, 1, 1), (10, 2, 0), (16, 8, 0)] p →
     let out := if p.b 8 1 = 0 then windowImage s (p.b 10 2) else healthImage s
     ∃ t, exec (.countersRead ring) s = .next t ∧ (p.b 8 1 = 0 → 272 * s.dies ≤ p.b 10 2 → p.b 10 2 < 1088 →
         Ends s t ring p [] stUnitAbsent 0 0 0) ∧
       ((p.b 8 1 = 0 → p.b 10 2 < 272 * s.dies) → Answered s t ring p stOk out.length 0 0)))

/-- PARTITION_CREATE (R344-R346, R351): after the checks of R345 the polder holds the tiles, segments and ports of its
parameters, its weirs stand at rate 256 and burst 4 KiB, and no other polder or weir changes; an existing polder is BUSY.
PARTITION_DESTROY (R347): BUSY while a context of the polder exists; else the polder is gone and its weirs are open. -/
def Obligations.PolderCreateDestroy : Prop :=
  ((∀ (ring : Ring) (s : State) (p : Pkt), Takes s ring 0x10 (pcFields p) p →
     let k := p.b 8 1
     let tiles := (pcRects p).flatMap regionTiles
     1 ≤ p.b 9 1 → p.b 9 1 ≤ 16 → s.polder? k = none → (∀ e ∈ pcRects p, regionWellFormed e = true) → tiles.Nodup →
     segsUnpopulated s 0 (p.b 16 8) = false → segsUnpopulated s 1 (p.b 24 8) = false → (∀ n ∈ tiles, s.tileOn n = true) →
     (∀ i, i < 8 → bitOf (p.b 10 1) i = true → i < s.nports) →
     (∀ e ∈ s.polders, (∀ n ∈ tiles, n ∉ e.2.tiles) ∧ e.2.hseg.toNat &&& p.b 16 8 = 0 ∧ e.2.lseg.toNat &&& p.b 24 8 = 0 ∧
       e.2.ports.toNat &&& p.b 10 1 = 0) →
     ∃ t, exec (.partitionCreate ring) s = .next t ∧ Ends s t ring p [.polders, .weirs] stOk 0 0 0 ∧
       (∃ x, t.polder? k = some x ∧ (∀ n, n ∈ x.tiles ↔ n ∈ tiles) ∧ x.hseg = BitVec.ofNat 64 (p.b 16 8) ∧
         x.lseg = BitVec.ofNat 64 (p.b 24 8) ∧ x.ports = BitVec.ofNat 8 (p.b 10 1)) ∧
       (∀ j, j ≠ k → t.polder? j = s.polder? j) ∧
       (∀ w, w < 6 → (t.weir k w).rate = 256 ∧ (t.weir k w).burst = 4 ∧ (t.weir k w).tokens = []) ∧
       (∀ j w, j ≠ k → w < 6 → t.weir j w = s.weir j w)) ∧
   (∀ (ring : Ring) (s : State) (p : Pkt), Takes s ring 0x10 (pcFields p) p → 1 ≤ p.b 9 1 → p.b 9 1 ≤ 16 →
     (s.polder? (p.b 8 1)).isSome = true →
     ∃ t, exec (.partitionCreate ring) s = .next t ∧ Ends s t ring p [] stBusy 0 0 0)) ∧
  ((∀ (ring : Ring) (s : State) (p : Pkt), Takes s ring 0x11 [(8, 1, 7)] p → asorted s.polders = true →
     (s.polder? (p.b 8 1)).isSome = true → (∀ e ∈ s.ctxs, e.2.polder ≠ p.b 8 1) →
     ∃ t, exec (.partitionDestroy ring) s = .next t ∧ Ends s t ring p [.polders, .weirs] stOk 0 0 0 ∧
       t.polder? (p.b 8 1) = none ∧ (∀ j, j ≠ p.b 8 1 → t.polder? j = s.polder? j) ∧
       (∀ w, w < 6 → (t.weir (p.b 8 1) w).rate = 256) ∧
       (∀ j w, j ≠ p.b 8 1 → w < 6 → t.weir j w = s.weir j w)) ∧
   (∀ (ring : Ring) (s : State) (p : Pkt) (e : Nat × Context), Takes s ring 0x11 [(8, 1, 7)] p →
     (s.polder? (p.b 8 1)).isSome = true → e ∈ s.ctxs → e.2.polder = p.b 8 1 →
     ∃ t, exec (.partitionDestroy ring) s = .next t ∧ Ends s t ring p [] stBusy 0 0 0))

/-- Weirs (R351, R349, R350). WEIR_SET gives a weir of an existing polder its rate and burst, with every bucket full; a value
out of range is refused; a new polder starts with every weir at rate 256 and burst 4 KiB; FABRIC_RESET keeps the settings. A
bucket whose count is zero or above lets go what it held back, and nothing else changes. -/
def Obligations.WeirSettings : Prop :=
  (∀ (ring : Ring) (s : State) (p : Pkt), Takes s ring 0x12 [(8, 1, 7), (9, 1, 0), (10, 2, 0), (12, 4, 0)] p →
    (s.polder? (p.b 8 1)).isSome = true → p.b 9 1 ≤ 5 → p.b 10 2 ≤ 256 → 4 ≤ p.b 12 4 → p.b 12 4 ≤ 1048576 →
    ∃ t, exec (.weirSet ring) s = .next t ∧ Ends s t ring p [.weirs] stOk 0 0 0 ∧
      (t.weir (p.b 8 1) (p.b 9 1)).rate = p.b 10 2 ∧ (t.weir (p.b 8 1) (p.b 9 1)).burst = p.b 12 4 ∧
      (∀ b, (t.weir (p.b 8 1) (p.b 9 1)).t b = Int.ofNat (p.b 12 4 * 1024 * 256)) ∧
      (∀ j w, w ≤ 5 → (j, w) ≠ (p.b 8 1, p.b 9 1) → t.weir j w = s.weir j w)) ∧
  (∀ (ring : Ring) (s : State) (p : Pkt), Takes s ring 0x12 [(8, 1, 7), (9, 1, 0), (10, 2, 0), (12, 4, 0)] p →
    (s.polder? (p.b 8 1) = none ∨ 5 < p.b 9 1 ∨ 256 < p.b 10 2 ∨ p.b 12 4 < 4 ∨ 1048576 < p.b 12 4) →
    ∃ t, exec (.weirSet ring) s = .next t ∧ Ends s t ring p [] stBadParam 0 0 0) ∧
  (∀ (ring : Ring) (s : State) (p : Pkt), Takes s ring 0x10 (pcFields p) p → s.polder? (p.b 8 1) = none →
    ∃ t, exec (.partitionCreate ring) s = .next t ∧ ((t.polder? (p.b 8 1)).isSome = true →
      ∀ w, w < 6 → (t.weir (p.b 8 1) w).rate = 256 ∧ (t.weir (p.b 8 1) w).burst = 4)) ∧
  (∀ (ring : Ring) (s : State) (p : Pkt), Takes s ring 0xF0 [] p →
    ∃ t, exec (.fabricReset ring) s = .next t ∧ ∀ k w, (t.weir k w).rate = (s.weir k w).rate ∧ (t.weir k w).burst = (s.weir k w).burst) ∧
  (∀ (k : BitVec 3) (w : Byte) (b : BitVec 5) (unit : Nat) (s : State), Canonical s → Runs s →
    let x := s.weir k.toNat w.toNat
    w.toNat ≤ 5 → aget? x.held b.toNat = some unit → (x.rate = 256 ∨ (0 ≤ x.t b.toNat ∧ x.rate ≠ 0)) →
    exec (.bucketRelease k w b) s =
      .next (s.setWeir k.toNat w.toNat { x with held := adel x.held b.toNat, granted := x.granted ++ [unit] })) ∧
  (∀ (k : BitVec 3) (w : Byte) (b : BitVec 5) (s : State), Canonical s → Runs s →
    let x := s.weir k.toNat w.toNat
    x.rate ≠ 256 → (x.t b.toNat < 0 ∨ x.rate = 0) → exec (.bucketRelease k w b) s = .next s)

/-- CONTEXT_CREATE (R299, R352): the context stands in its polder with generation count 0, and its ring is enabled and empty
at the place the parameters give; a context that exists is BUSY. CONTEXT_DESTROY (R311, R353) of a context with no run, no
loaded section and no command or reply outstanding: the context is gone with its ring, its images, its queues, its tables and
its gauge bindings, and the command replies OK. -/
def Obligations.ContextCreateDestroy : Prop :=
  ((∀ (s : State) (p : Pkt), Takes s .priv 0x20 [(8, 1, 63), (9, 1, 7), (10, 1, 0), (11, 1, 0), (12, 2, 0), (16, 8, 0), (24, 8, 0), (32, 8, 0)] p →
     let c := p.b 8 1
     (s.polder? (p.b 9 1)).isSome = true → 6 ≤ p.b 10 1 → p.b 10 1 ≤ 16 → 6 ≤ p.b 11 1 → p.b 11 1 ≤ 16 →
     ringPlaced s (some (p.b 9 1)) (p.b 16 8) (p.b 24 8) (p.b 32 8) (p.b 10 1) = true → aget? s.ctxs c = none →
     ∃ t, exec (.contextCreate .priv) s = .next t ∧ Answered s t .priv p stOk 0 0 0 ∧
       Only [.rings, .snoops, .contexts] s t ∧ aget? t.ctxs c = some ⟨p.b 9 1, 0, 0⟩ ∧
       (∀ c', c' ≠ c → aget? t.ctxs c' = aget? s.ctxs c') ∧
       t.ring c = { RingSt.reset with
         base := BitVec.ofNat 48 (p.b 16 8), line := BitVec.ofNat 48 (p.b 24 8), cpl := BitVec.ofNat 64 (p.b 32 8)
         cmdLog2 := p.b 10 1, cplLog2 := p.b 11 1, coalesce := p.b 12 2, enabled := true } ∧
       (∀ r, r ≠ c → r ≠ privRing → t.ring r = s.ring r)) ∧
   (∀ (s : State) (p : Pkt), Takes s .priv 0x20 [(8, 1, 63), (9, 1, 7), (10, 1, 0), (11, 1, 0), (12, 2, 0), (16, 8, 0), (24, 8, 0), (32, 8, 0)] p →
     (s.polder? (p.b 9 1)).isSome = true → 6 ≤ p.b 10 1 → p.b 10 1 ≤ 16 → 6 ≤ p.b 11 1 → p.b 11 1 ≤ 16 →
     ringPlaced s (some (p.b 9 1)) (p.b 16 8) (p.b 24 8) (p.b 32 8) (p.b 10 1) = true → (aget? s.ctxs (p.b 8 1)).isSome = true →
     ∃ t, exec (.contextCreate .priv) s = .next t ∧ Ends s t .priv p [] stBusy 0 0 0)) ∧
  (∀ (s : State) (p : Pkt), Takes s .priv 0x21 [(8, 1, 63)] p →
     let c := p.b 8 1
     (aget? s.ctxs c).isSome = true → asorted s.ctxs = true → asorted s.rings = true → s.runs = [] →
     (∀ r, (s.ring r).accepted = []) → (s.ring c).replies = [] →
     (∀ n, (s.ltile n).sect.configured = true → (s.ltile n).sect.ctx.toNat ≠ c) →
     ∃ t, exec (.contextDestroy .priv) s = .next t ∧ Answered s t .priv p stOk 0 0 0 ∧
       aget? t.ctxs c = none ∧ aget? t.rings c = none ∧ (∀ i ∈ t.images, i.ctx ≠ c) ∧ (∀ e ∈ t.ms.queues, e.2.ctx ≠ c) ∧
       (∀ e ∈ t.ms.tables, e.2.ctx ≠ c) ∧ (∀ v, v < 2048 → aget? t.gauges.xlat (2048 * c + v) = none) ∧
       (∀ c', c' ≠ c → aget? t.ctxs c' = aget? s.ctxs c') ∧ t.mem = s.mem ∧ t.polders = s.polders ∧ t.weirs = s.weirs)

/-- CONTEXT_SAVE (R356, R357). At a boundary with runs outstanding the save waits and the context's ring takes nothing; with
none, the record is written and the reply gives its bytes, or NO_RESOURCE where the capacity is short, nothing then written. A
mid-section save is accepted and holds the sequencers of the context's running sections. The end of a mid-section save and its
timeout (R357): once drained the record is written, the command replies with its bytes and the tiles of the context go on; a
drain that its limit ends replies TIMEOUT and writes nothing. -/
def Obligations.ContextSaves : Prop :=
  ((∀ (s : State) (p : Pkt), Takes s .priv 0x22 [(8, 1, 63), (9, 1, 1), (16, 8, 0), (24, 8, 0)] p →
     let c := p.b 8 1
     s.ctxLive c = true → (s.memAt (p.b 16 8)).isSome = true → bitOf (p.b 9 1) 0 = false → s.saves = [] →
     (∃ r ∈ s.runs, r.ctx = c) →
     ∃ t, exec (.contextSave .priv) s = .next t ∧ Accepted s t .priv p [c] ∧
       (∃ x, t.saves = [x] ∧ x.ctx = c ∧ x.mid = false ∧ x.addr = p.b 16 8 ∧ x.cap = p.b 24 8 ∧
         x.waits = (s.runs.filter (fun r => r.ctx == c)).map (·.id)) ∧
       t.ring c = { s.ring c with saving := true } ∧ (∀ r, r ≠ c → r ≠ privRing → t.ring r = s.ring r) ∧
       Only [.rings, .snoops, .saves] s t) ∧
   (∀ (s : State) (p : Pkt), Takes s .priv 0x22 [(8, 1, 63), (9, 1, 1), (16, 8, 0), (24, 8, 0)] p →
     let c := p.b 8 1
     s.ctxLive c = true → (s.memAt (p.b 16 8)).isSome = true → bitOf (p.b 9 1) 0 = false → s.saves = [] →
     (∀ r ∈ s.runs, r.ctx ≠ c) → p.cmd [c] ∉ (s.ring privRing).accepted → (s.ring c).saving = false →
     let out := contextRecord s c false
     (out.length ≤ p.b 24 8 → s.inMemory (p.b 16 8) out.length = true →
       ∃ t, exec (.contextSave .priv) s = .next t ∧ Ends s t .priv p [.mem, .tiles] stOk out.length 0 0 ∧
         t.mem = (writeRecord s (p.b 16 8) out).mem ∧
         ∀ x, Outside s false (p.b 16 8) out.length x → t.mem.byte x = s.mem.byte x) ∧
     (p.b 24 8 < out.length →
       ∃ t, exec (.contextSave .priv) s = .next t ∧ Ends s t .priv p [] stNoResource out.length 0 0)) ∧
   (∀ (s : State) (p : Pkt), Takes s .priv 0x22 [(8, 1, 63), (9, 1, 1), (16, 8, 0), (24, 8, 0)] p →
     let c := p.b 8 1
     s.ctxLive c = true → (s.memAt (p.b 16 8)).isSome = true → bitOf (p.b 9 1) 0 = true →
     ∃ t, exec (.contextSave .priv) s = .next t ∧ Begins s t .priv p [.saves, .tiles, .gauges] [c] ∧
       (∃ x, t.saves = s.saves ++ [x] ∧ x.ctx = c ∧ x.mid = true ∧ x.addr = p.b 16 8 ∧ x.cap = p.b 24 8 ∧
         x.due = s.clk + 160000000) ∧
       ∀ n ∈ savedTiles s c, (t.ltile n).sect.saving = true ∧ (t.ltile n).seq.gwait = none)) ∧
  ((∀ (c : BitVec 6) (s : State) (x : Save), Canonical s → Runs s →
     s.saves.find? (fun y => y.mid && y.ctx == c.toNat) = some x → drained s c.toNat = true →
     let out := contextRecord s c.toNat true
     out.length ≤ x.cap → s.inMemory x.addr out.length = true →
     ∃ t, exec (.midSectionDrainEnd c) s = .next t ∧
       t.ring x.ring = { s.ring x.ring with
         accepted := (s.ring x.ring).accepted.erase x.cmd
         replies := (s.ring x.ring).replies ++ [x.cmd.reply stOk out.length 0 0] } ∧
       (∀ r, r ≠ x.ring → t.ring r = s.ring r) ∧ x ∉ t.saves ∧ (∀ y ∈ s.saves, y ≠ x → y ∈ t.saves) ∧
       t.mem = (writeRecord s x.addr out).mem ∧
       (∀ z, Outside s false x.addr out.length z → t.mem.byte z = s.mem.byte z) ∧
       (∀ e ∈ t.tiles, e.2.sect.ctx = c → e.2.sect.saving = false) ∧
       (Unheld s x.cmd.ctx → t.weirs = s.weirs) ∧ Only [.rings, .snoops, .saves, .mem, .tiles, .weirs] s t) ∧
   (∀ (c : BitVec 6) (s : State) (x : Save), Canonical s → Runs s →
     s.saves.find? (fun y => y.mid && y.ctx == c.toNat) = some x → x.due ≤ s.clk →
     ∃ t, exec (.midSectionDrainTimeout c) s = .next t ∧
       t.ring x.ring = { s.ring x.ring with
         accepted := (s.ring x.ring).accepted.erase x.cmd
         replies := (s.ring x.ring).replies ++ [x.cmd.reply stTimeout 0 0 0] } ∧
       (∀ r, r ≠ x.ring → t.ring r = s.ring r) ∧ x ∉ t.saves ∧ (∀ y ∈ s.saves, y ≠ x → y ∈ t.saves) ∧
       (∀ e ∈ t.tiles, e.2.sect.ctx = c → e.2.sect.saving = false) ∧ Only [.rings, .saves, .tiles] s t))

/-- CONTEXT_RESTORE (R358) of a boundary record that passes every check: the context stands in the polder named, with the
recorded generation count, and its ring goes on from the recorded head and cpl_tail. A context that exists is BUSY. -/
def Obligations.ContextRestorePutsContextBack : Prop :=
  (∀ (sigOk : Nat) (s s1 : State) (p : Pkt), Takes s .priv 0x23 [(8, 1, 63), (9, 1, 7), (16, 8, 0), (24, 8, 0)] p →
    let c := p.b 8 1
    let s0 := noteAccess (advance s privRing) 0 (p.b 16 8) (p.b 24 8)
    let rd (o n : Nat) : List Byte := s0.devRead (p.b 16 8 + o) n
    restoreHeld s privRing sigOk = false → restoreChecks s0 rd (p.b 24 8) c (p.b 9 1) sigOk = .ok s1 → recRuns rd = [] →
    (recTiles rd).1 = [] →
    ∃ t, exec (.contextRestore .priv sigOk) s = .next t ∧ Answered s t .priv p stOk 0 0 0 ∧
      aget? t.ctxs c = some ⟨p.b 9 1, BitVec.ofNat 3 (rdNum rd 15 1), 0⟩ ∧
      (∀ c', c' ≠ c → aget? t.ctxs c' = aget? s.ctxs c') ∧
      (t.ring c).head = BitVec.ofNat 32 (rdNum rd 96 4) ∧ (t.ring c).cplTail = BitVec.ofNat 32 (rdNum rd 100 4) ∧
      (t.ring c).base = BitVec.ofNat 48 (rdNum rd 72 8) ∧ (t.ring c).cmdLog2 = rdNum rd 64 1 ∧ (t.ring c).enabled = true ∧
      t.polders = s.polders ∧ t.weirs = s.weirs ∧ t.runs = s.runs) ∧
  (∀ (sigOk : Nat) (s : State) (p : Pkt), Takes s .priv 0x23 [(8, 1, 63), (9, 1, 7), (16, 8, 0), (24, 8, 0)] p →
    (aget? s.ctxs (p.b 8 1)).isSome = true → s.populated (p.b 16 8) (p.b 24 8) = true →
    closedTile s (p.b 16 8) (p.b 24 8) = none →
    ∃ t, exec (.contextRestore .priv sigOk) s = .next t ∧ Ends s t .priv p [] stBusy 0 0 0)

/-- IMAGE_STAGE (R217-R220) of an image that passes every check of Table 9.4 completes OK: its record is kept under the context and
the handle, not to be run before this reply is written; each frame lands in the lowest free shadow slot of its tile, and no byte
of memory outside the tiles' staged-frame areas changes; r0 tells what was verified. An image that fails a check is counted, and
answered with that check's status, item and event; memory, tiles and images stand, but for a second reading that differed from
the first: the slots that it filled are zero then. IMAGE_DROP (R221): an image that is neither loaded nor named by a run or a
schedule entry is gone, with its slots; one in use is BUSY and stays; a free handle is BAD_PARAM. -/
def Obligations.ImageStageAndDrop : Prop :=
  ((∀ (ring : Ring) (sigOk changed v : Bool) (k : Nat) (s : State) (p : Pkt),
     Takes s ring 0x30 [(8, 1, 0), (9, 1, 1), (16, 8, 0), (24, 4, 0)] p →
     let host := bitOf (p.b 9 1) 0
     let rd (o n : Nat) : List Byte := s.anyRead host (p.b 16 8 + o) n
     s.polderOfCtx p.ctx = some k → s.ctxLive p.ctx = true → Open s host (p.b 16 8) (p.b 24 4) →
     imgCheck s rd (p.b 24 4) p.ctx (p.b 8 1) k sigOk changed = .ok v →
     ∃ t, exec (.imageStage ring sigOk changed) s = .next t ∧
       Ends s t ring p [.mem, .tiles, .gauges, .free, .images, .loader] stOk (b2n v + b2n s.sec.error * 2) 0 0 ∧
       (∃ img, t.images = s.images ++ [img] ∧ img.ctx = p.ctx ∧ img.handle = p.b 8 1 ∧ img.host = host ∧
         img.addr = p.b 16 8 ∧ img.len = p.b 24 4 ∧ img.digest = rd 64 32 ∧ img.tiles = imgTiles rd ∧ img.sigChecked = v ∧
         img.awaits = some (ringNo ring, p.seq)) ∧
       t.ldrStat = bump s.ldrStat 5 1 ∧ t.condSkip = s.condSkip ∧
       ((∀ a b, s.phys a = s.phys b → a = b) → ∀ n j, n ∈ imgTiles rd → freeSlot (s.ltile n) = some j →
         ∀ q i, q < 4 → frameAt (imgFrames rd) n q = some i →
           t.mem.read (slotPlace (s.phys n) j q) 4096 = rd (ihFdOff rd + 4096 * i) 4096) ∧
       ∀ x, (∀ n ∈ imgTiles rd, x < tileBase (s.phys n) + 0xFC0000 ∨ tileBase (s.phys n) + 0x1000000 ≤ x) →
         t.mem.byte x = s.mem.byte x) ∧
   (∀ (ring : Ring) (sigOk changed : Bool) (k : Nat) (f : ImgFail) (s : State) (p : Pkt),
     Takes s ring 0x30 [(8, 1, 0), (9, 1, 1), (16, 8, 0), (24, 4, 0)] p →
     let host := bitOf (p.b 9 1) 0
     let rd (o n : Nat) : List Byte := s.anyRead host (p.b 16 8 + o) n
     s.polderOfCtx p.ctx = some k → s.ctxLive p.ctx = true → Open s host (p.b 16 8) (p.b 24 4) →
     imgCheck s rd (p.b 24 4) p.ctx (p.b 8 1) k sigOk false = .error f →
     ∃ t, exec (.imageStage ring sigOk changed) s = .next t ∧
       Ends s t ring p [.loader, .log, .vectors] f.status f.item f.event 0 ∧ t.ldrStat = bump s.ldrStat 6 1 ∧
       t.condSkip = s.condSkip) ∧
   (∀ (ring : Ring) (sigOk v : Bool) (k : Nat) (s : State) (p : Pkt),
     Takes s ring 0x30 [(8, 1, 0), (9, 1, 1), (16, 8, 0), (24, 4, 0)] p →
     let host := bitOf (p.b 9 1) 0
     let rd (o n : Nat) : List Byte := s.anyRead host (p.b 16 8 + o) n
     s.polderOfCtx p.ctx = some k → s.ctxLive p.ctx = true → Open s host (p.b 16 8) (p.b 24 4) →
     imgCheck s rd (p.b 24 4) p.ctx (p.b 8 1) k sigOk false = .ok v →
     ∃ t, exec (.imageStage ring sigOk true) s = .next t ∧
       Ends s t ring p [.mem, .tiles, .loader, .log, .vectors] stImageSignature 0 0x1183 0 ∧ t.ldrStat = bump s.ldrStat 6 1 ∧
       (∀ n j, n ∈ imgTiles rd → freeSlot (s.ltile n) = some j →
         freeSlot (t.ltile n) = some j ∧ ∀ i, i < 16384 → t.mem.byte (slotPlace (s.phys n) j 0 + i) = 0) ∧
       ∀ x, (∀ n ∈ imgTiles rd, x < tileBase (s.phys n) + 0xFC0000 ∨ tileBase (s.phys n) + 0x1000000 ≤ x) →
         t.mem.byte x = s.mem.byte x)) ∧
  ((∀ (ring : Ring) (s : State) (p : Pkt) (i : Image), Takes s ring 0x31 [(8, 1, 0)] p →
     s.image? p.ctx (p.b 8 1) = some i → imageInUse s i = false →
     ∃ t, exec (.imageDrop ring) s = .next t ∧ Ends s t ring p [.tiles, .images] stOk 0 0 0 ∧
       t.images = s.images.filter (fun x => !(x.ctx == i.ctx && x.handle == i.handle)) ∧
       t.image? p.ctx (p.b 8 1) = none) ∧
   (∀ (ring : Ring) (s : State) (p : Pkt) (i : Image), Takes s ring 0x31 [(8, 1, 0)] p →
     s.image? p.ctx (p.b 8 1) = some i → imageInUse s i = true →
     ∃ t, exec (.imageDrop ring) s = .next t ∧ Ends s t ring p [] stBusy 0 0 0) ∧
   (∀ (ring : Ring) (s : State) (p : Pkt), Takes s ring 0x31 [(8, 1, 0)] p → s.image? p.ctx (p.b 8 1) = none →
     ∃ t, exec (.imageDrop ring) s = .next t ∧ Ends s t ring p [] stBadParam 0 0 0))

/-- IMAGE_FORWARD in daisy-chain mode (R236, R238) of a bundle none of whose entries is for this device, with a link to the
device of its first entry: the command is accepted and waits 100 ms for a status of every entry, and the bundle with count and
offsets rewritten joins the bundle queue of that link. A malformed bundle is BAD_PARAM. FORWARD_STATUS_TIMEOUT ends what has
waited its 100 ms, the entries without a status counted as TIMEOUT. -/
def Obligations.ForwardWaitsForStatuses : Prop :=
  (∀ (ring : Ring) (sigOk k : Nat) (s : State) (p : Pkt),
    Takes s ring 0x32 [(8, 1, 1), (9, 1, 1), (16, 8, 0), (24, 8, 0)] p →
    let host := bitOf (p.b 9 1) 0
    let bs := s.anyRead host (p.b 16 8) (p.b 24 8)
    bitOf (p.b 8 1) 0 = false → Open s host (p.b 16 8) (p.b 24 8) → s.anyPoison host (p.b 16 8) (p.b 24 8) = false →
    bundleOk bs = true → (∀ e ∈ bundleEntries bs, ownEntry s e = false) → linkRoute s (bundleEntry bs 0).dev none = .send k →
    (∀ f ∈ s.links.forwards, ∃ e ∈ f.entries, e.2 = none) →
    ∃ t, exec (.imageForward ring sigOk) s = .next t ∧ Begins s t ring p [.links] [s.links.nextBid] ∧
      t.links.forwards = s.links.forwards ++ [⟨ringNo ring, p.cmd [s.links.nextBid],
        (bundleEntries bs).map (fun e => (e.dev, none)), s.clk + 160000000⟩] ∧
      (t.lport k).bundles = (s.lport k).bundles ++ [⟨s.links.nextBid, 0, rebundle bs (bundleEntries bs)⟩] ∧
      (∀ j, j ≠ k → t.lport j = s.lport j)) ∧
  (∀ (ring : Ring) (sigOk : Nat) (s : State) (p : Pkt),
    Takes s ring 0x32 [(8, 1, 1), (9, 1, 1), (16, 8, 0), (24, 8, 0)] p →
    let host := bitOf (p.b 9 1) 0
    Open s host (p.b 16 8) (p.b 24 8) → s.anyPoison host (p.b 16 8) (p.b 24 8) = false →
    bundleOk (s.anyRead host (p.b 16 8) (p.b 24 8)) = false →
    ∃ t, exec (.imageForward ring sigOk) s = .next t ∧ Ends s t ring p [] stBadParam 0 0 0) ∧
  (∀ (s : State) (f : Forward), Canonical s → Runs s → f ∈ s.links.forwards → s.links.forwards.Nodup → f.due ≤ s.clk →
    (∀ g ∈ s.links.forwards, g ≠ f → s.clk < g.due) →
    ∃ t, exec .forwardStatusTimeout s = .next t ∧ Only [.rings, .links] s t ∧
      t.links = { s.links with forwards := s.links.forwards.filter (fun g => !decide (g = f)) } ∧
      t.ring f.ring = { s.ring f.ring with
        accepted := (s.ring f.ring).accepted.erase f.cmd
        replies := (s.ring f.ring).replies ++ [f.cmd.reply stOk
          ((f.entries.filter (fun e => e.2 == some stOk)).length + f.entries.length * 2 ^ 16) (forwardWords f.entries).2 0] } ∧
      ∀ r, r ≠ f.ring → t.ring r = s.ring r)

/-- SECTION_RUN (R309) of an image whose IMAGE_STAGE has replied, by a live context of a device that is not expelled, whose
trees and gauges no other section owns: the command is accepted and the run joins the waiting runs; one in PURGE mode,
without tide count or predicate, whose tiles hold no section and may switch, starts its switch at once (R225). A handle that
is free or whose IMAGE_STAGE has not replied is BAD_PARAM, and an expelled device answers DENIED. SECTION_STOP (R225, R309)
of a handle with no section loaded: an accepted run that has not been switched in ends, its reply OK with purged set and zero
words, and the stop replies OK with r0 1; with no run it replies OK with r0 0. -/
def Obligations.SectionRunAndStop : Prop :=
  ((∀ (ring : Ring) (e : Ecc) (s : State) (p : Pkt) (i : Image), Takes s ring 0x40 srFields p →
     s.usable? p.ctx (p.b 8 1) = some i → s.ctxLive p.ctx = true → (s.sec.error && s.sec.signed) = false →
     s.health.expelled = false → s.sec.attestHolds = false → ownedByOther s i = false →
     let x := runOf s (ringNo ring) p
     let y := { s with runs := s.runs ++ [x], runId := x.id }
     ((bitOf (p.b 9 1) 5 = false ∨ bitOf (p.b 9 1) 0 = true ∨ switchFree y x = false) →
       ∃ t, exec (.sectionRun ring e) s = .next t ∧ Begins s t ring p [.runs] [x.id] ∧
         t.runs = s.runs ++ [x] ∧ t.runId = x.id ∧ t.owners = s.owners) ∧
     (bitOf (p.b 9 1) 5 = true → bitOf (p.b 9 1) 0 = false → bitOf (p.b 9 1) 6 = false → switchFree y x = true →
       (∀ n ∈ s.region x, (s.ltile n).sect.configured = false) →
       ∃ t, exec (.sectionRun ring e) s = .next t ∧ Accepted s t ring p [x.id] ∧ OtherRings s t ring ∧
         (∃ z, t.run? x.id = some z ∧ z.phase = .waitCensus) ∧ t.owners = s.owners ++ [(p.ctx, p.b 8 1, x.id)])) ∧
   (∀ (ring : Ring) (e : Ecc) (s : State) (p : Pkt), Takes s ring 0x40 srFields p → s.usable? p.ctx (p.b 8 1) = none →
     ∃ t, exec (.sectionRun ring e) s = .next t ∧ Ends s t ring p [] stBadParam 0 0 0) ∧
   (∀ (ring : Ring) (e : Ecc) (s : State) (p : Pkt) (i : Image), Takes s ring 0x40 srFields p →
     s.usable? p.ctx (p.b 8 1) = some i → s.ctxLive p.ctx = true → (s.sec.error && s.sec.signed) = false →
     s.health.expelled = true →
     ∃ t, exec (.sectionRun ring e) s = .next t ∧ Ends s t ring p [] stDenied 0 0 0)) ∧
  ((∀ (ring : Ring) (s : State) (p : Pkt) (i : Image) (x : Run) (k : Cmd), Takes s ring 0x41 [(8, 1, 0)] p →
     s.image? p.ctx (p.b 8 1) = some i → asorted s.rings = true → s.saves = [] → s.runs = [x] → x.ctx = p.ctx →
     x.handle = p.b 8 1 → x.phase = .accepted → x.first = none → s.runCmd x = some k →
     (∀ r, ∀ c ∈ (s.ring r).accepted, c.opcode ≠ 0x41 ∧ c.opcode ≠ 0x21) →
     (∀ n, (s.ltile n).sect.configured = true → (s.ltile n).sect.ctx.toNat ≠ p.ctx) →
     ∃ t, exec (.sectionStop ring) s = .next t ∧ t.runs = [] ∧
       { x.reply stOk 0 0 0 with purged := true } ∈ (t.ring x.ring).replies ∧
       (p.cmd []).reply stOk 1 0 0 ∈ (t.ring (ringNo ring)).replies ∧
       (t.ring (ringNo ring)).head = (s.ring (ringNo ring)).head + 1 ∧ (t.ring x.ring).accepted = (s.ring x.ring).accepted.erase k ∧
       (∀ r, r ≠ ringNo ring → r ≠ x.ring → t.ring r = s.ring r) ∧ Only [.rings, .snoops, .runs] s t) ∧
   (∀ (ring : Ring) (s : State) (p : Pkt) (i : Image), Takes s ring 0x41 [(8, 1, 0)] p →
     s.image? p.ctx (p.b 8 1) = some i → asorted s.rings = true →
     (∀ r, ∀ c ∈ (s.ring r).accepted, c.opcode ≠ 0x41 ∧ c.opcode ≠ 0x21) →
     (∀ x ∈ s.runs, x.ctx ≠ p.ctx) → (∀ n, (s.ltile n).sect.configured = true → (s.ltile n).sect.ctx.toNat ≠ p.ctx) →
     ∃ t, exec (.sectionStop ring) s = .next t ∧ Ends s t ring p [] stOk 0 0 0))

/-- SCHEDULE_ADD and SCHEDULE_CLEAR (R340, R342): a well-formed entry lands in the lowest free index, which r0 gives; a full
table answers NO_RESOURCE; an entry that names link ports or field dies which are not there answers UNIT_ABSENT (R5); an entry
cleared is gone and the others stay, and index 0xFFFFFFFF clears them all. -/
def Obligations.ScheduleAddAndClear : Prop :=
  (∀ (ring : Ring) (s : State) (p : Pkt), Takes s ring 0x42 [(8, 56, 0)] p →
    let e := padTo 56 p.par
    1 ≤ seAction e → seAction e ≤ 5 → leAt e 3 1 = 0 → leAt e 6 2 = 0 → seFlags e ≤ 7 → sePhase e < s.tide.period →
    sePhase e < 2 ^ 20 → (seAction e ≤ 2 → s.ctxLive (seCtx e) = true) → (2 < seAction e → seCtx e = 0xFF) →
    (seAction e = 1 → (s.image? (seCtx e) (leAt e 28 1)).isSome = true) → (seFirings e ≠ 0 → sePeriod e ≠ 0) →
    seParamsOk e = true →
    (seAbsent s e = true → ∃ t, exec (.scheduleAdd ring) s = .next t ∧ Ends s t ring p [] stUnitAbsent 0 0 0) ∧
    (∀ i, seAbsent s e = false → i < 1024 → aget? s.tide.sched i = none → (∀ j, j < i → (aget? s.tide.sched j).isSome = true) →
      ∃ t, exec (.scheduleAdd ring) s = .next t ∧ Ends s t ring p [.tide] stOk i 0 0 ∧
        t.tide = { s.tide with sched := aput s.tide.sched i ⟨e, 0⟩ } ∧ t.tideCount = s.tideCount ∧ t.tidePhase = s.tidePhase) ∧
    (seAbsent s e = false → (∀ i, i < 1024 → (aget? s.tide.sched i).isSome = true) →
      ∃ t, exec (.scheduleAdd ring) s = .next t ∧ Ends s t ring p [] stNoResource 0 0 0)) ∧
  (∀ (ring : Ring) (s : State) (p : Pkt), Takes s ring 0x43 [(8, 4, 0)] p → asorted s.tide.sched = true → p.b 8 4 < 1024 →
    ∃ t, exec (.scheduleClear ring) s = .next t ∧
      Ends s t ring p [.tide] stOk (if (aget? s.tide.sched (p.b 8 4)).isSome then 1 else 0) 0 0 ∧
      aget? t.tide.sched (p.b 8 4) = none ∧ (∀ j, j ≠ p.b 8 4 → aget? t.tide.sched j = aget? s.tide.sched j) ∧
      t.tide = { s.tide with sched := t.tide.sched } ∧ t.tideCount = s.tideCount ∧ t.tidePhase = s.tidePhase) ∧
  (∀ (ring : Ring) (s : State) (p : Pkt), Takes s ring 0x43 [(8, 4, 0)] p → p.b 8 4 = 0xFFFFFFFF →
    ∃ t, exec (.scheduleClear ring) s = .next t ∧ Ends s t ring p [.tide] stOk s.tide.sched.length 0 0 ∧
      t.tide = { s.tide with sched := [] } ∧ t.tideCount = s.tideCount ∧ t.tidePhase = s.tidePhase)

/-- MOVE form 0 (R271): a queue whose record, ring, bound tile, post gauge and pump are as the rules ask stands defined, its
consumed count at the post gauge's value; no other queue changes. A queue defined already is BUSY; a pump with 16 queues
answers NO_RESOURCE; a pump or tile that is not there is UNIT_ABSENT (R5); a record with a set RSV bit or a field out of range is
BAD_PARAM. MOVE forms 1, 2 and 3 (R271, R273) on a queue of the packet's own context. Form 1 writes the descriptor at the entry
that follows the posted ones, gives its index in r0, and sends an ADD of 1 to the post gauge. Form 2 makes a halted queue go on,
its consumed count as it stands. Form 3 removes a queue without transfers; with one in progress it is BUSY. A queue that does not
exist is BAD_PARAM, and so is one of another context on the privileged ring; on a user ring that is DENIED (R308). -/
def Obligations.MoveForms : Prop :=
  ((∀ (ring : Ring) (s : State) (p : Pkt) (g : Nat) (x : Polder), Takes s ring 0x50 [(8, 1, 0), (9, 1, 0), (16, 32, 0)] p →
     let k := p.b 9 1
     let w := padTo 32 (p.par.drop 8)
     p.b 8 1 = 0 → s.ctxLive p.ctx = true → queueRecordOk w = true → s.gaugeOf p.ctx (leAt w 10 2) = some g →
     s.pumpPresent (leAt w 9 1) = true → rangePopulated s (leAt w 0 8) (128 * 2 ^ leAt w 8 1) = true →
     (s.polderOfCtx p.ctx).bind s.polder? = some x → x.covers (leAt w 0 8) (128 * 2 ^ leAt w 8 1) = true →
     rangeOpen s (leAt w 0 8) (128 * 2 ^ leAt w 8 1) = true → (∀ n, queueTile w = some n → n ∈ x.tiles ∧ n < s.ntiles) →
     (s.queue? k = none → (s.ms.queues.filter (fun e => e.2.pump == leAt w 9 1)).length < 16 →
       ∃ t, exec (.moveDefineQueue ring) s = .next t ∧ Ends s t ring p [.gauges, .pumpQueues, .transactions] stOk 0 0 0 ∧ t.ms.txns = s.ms.txns ∧
         (∃ q, t.queue? k = some q ∧ q.ctx = p.ctx ∧ q.base = leAt w 0 8 ∧ q.size = leAt w 8 1 ∧ q.pump = leAt w 9 1 ∧
           q.post = leAt w 10 2 ∧ q.tile = queueTile w ∧ q.consumed = (s.gauge g).value ∧ q.halted = false ∧ q.transfers = []) ∧
         ∀ j, j ≠ k → t.queue? j = s.queue? j) ∧
     ((s.queue? k).isSome = true →
       ∃ t, exec (.moveDefineQueue ring) s = .next t ∧ Ends s t ring p [] stBusy 0 0 0) ∧
     (s.queue? k = none → 16 ≤ (s.ms.queues.filter (fun e => e.2.pump == leAt w 9 1)).length →
       ∃ t, exec (.moveDefineQueue ring) s = .next t ∧ Ends s t ring p [] stNoResource 0 0 0)) ∧
   (∀ (ring : Ring) (s : State) (p : Pkt) (g : Nat), Takes s ring 0x50 [(8, 1, 0), (9, 1, 0), (16, 32, 0)] p →
     let w := padTo 32 (p.par.drop 8)
     p.b 8 1 = 0 → s.ctxLive p.ctx = true → queueRecordOk w = true → s.gaugeOf p.ctx (leAt w 10 2) = some g →
     (s.pumpPresent (leAt w 9 1) = false ∨ ∃ n, queueTile w = some n ∧ s.ntiles ≤ n ∧ n < 1024) →
     ∃ t, exec (.moveDefineQueue ring) s = .next t ∧ Ends s t ring p [] stUnitAbsent 0 0 0) ∧
   (∀ (ring : Ring) (s : State) (p : Pkt), Takes s ring 0x50 [(8, 1, 0), (9, 1, 0), (16, 32, 0)] p →
     p.b 8 1 = 0 → queueRecordOk (padTo 32 (p.par.drop 8)) = false →
     ∃ t, exec (.moveDefineQueue ring) s = .next t ∧ Ends s t ring p [] stBadParam 0 0 0)) ∧
  ((∀ (ring : Ring) (s : State) (p : Pkt) (q : PumpQueue) (g : Nat),
     Takes s ring 0x50 [(8, 1, 0), (9, 1, 0), (16, 128, 0)] p → p.b 8 1 = 1 → s.queue? (p.b 9 1) = some q → q.ctx = p.ctx →
     s.gaugeOf q.ctx q.post = some g → q.ctx < 64 → q.post < 2048 →
     let i := ((s.gauge g).value.toNat + q.posts) % 2 ^ q.size
     let d := padTo 128 (p.par.drop 8)
     Open s false (q.base + 128 * i) 128 →
     ∃ t, exec (.movePost ring) s = .next t ∧ Ends s t ring p [.mem, .tiles, .gauges, .pumpQueues] stOk i 0 0 ∧
       Stores s t false (q.base + 128 * i) d ∧ t.queue? (p.b 9 1) = some { q with posts := q.posts + 1 } ∧
       (∀ j, j ≠ p.b 9 1 → t.queue? j = s.queue? j) ∧ (∀ j, t.gauge j = s.gauge j) ∧
       ∃ m, t.gin 4 = s.gin 4 ++ [m] ∧ gOp m = 0 ∧ gOperand m = 1 ∧ gVid m = q.post ∧ gCtx m = q.ctx) ∧
   (∀ (ring : Ring) (s : State) (p : Pkt) (q : PumpQueue), Takes s ring 0x50 [(8, 1, 0), (9, 1, 0)] p → p.b 8 1 = 2 →
     s.queue? (p.b 9 1) = some q → q.ctx = p.ctx →
     ∃ t, exec (.moveResume ring) s = .next t ∧ Ends s t ring p [.gauges, .pumpQueues, .transactions] stOk 0 0 0 ∧ t.ms.txns = s.ms.txns ∧
       (∃ y, t.queue? (p.b 9 1) = some { q with halted := false, postWait := y } ∧ y ≠ .none) ∧
       ∀ j, j ≠ p.b 9 1 → t.queue? j = s.queue? j) ∧
   (∀ (ring : Ring) (s : State) (p : Pkt) (q : PumpQueue), Takes s ring 0x50 [(8, 1, 0), (9, 1, 0)] p → p.b 8 1 = 3 →
     s.queue? (p.b 9 1) = some q → q.ctx = p.ctx → q.transfers = [] → asorted s.ms.queues = true →
     ∃ t, exec (.moveRemove ring) s = .next t ∧ Ends s t ring p [.gauges, .pumpQueues] stOk 0 0 0 ∧
       t.queue? (p.b 9 1) = none ∧ ∀ j, j ≠ p.b 9 1 → t.queue? j = s.queue? j) ∧
   (∀ (ring : Ring) (s : State) (p : Pkt) (q : PumpQueue), Takes s ring 0x50 [(8, 1, 0), (9, 1, 0)] p → p.b 8 1 = 3 →
     s.queue? (p.b 9 1) = some q → q.ctx = p.ctx → q.transfers ≠ [] →
     ∃ t, exec (.moveRemove ring) s = .next t ∧ Ends s t ring p [] stBusy 0 0 0) ∧
   (∀ (ring : Ring) (s : State) (p : Pkt) (st : Nat),
     (s.queue? (p.b 9 1) = none ∧ st = stBadParam ∨
       (∃ q, s.queue? (p.b 9 1) = some q ∧ q.ctx ≠ p.ctx) ∧ st = if ringNo ring < 64 then stDenied else stBadParam) →
     (Takes s ring 0x50 [(8, 1, 0), (9, 1, 0), (16, 128, 0)] p → p.b 8 1 = 1 →
       ∃ t, exec (.movePost ring) s = .next t ∧ Ends s t ring p [] st 0 0 0) ∧
     (Takes s ring 0x50 [(8, 1, 0), (9, 1, 0)] p → p.b 8 1 = 2 →
       ∃ t, exec (.moveResume ring) s = .next t ∧ Ends s t ring p [] st 0 0 0) ∧
     (Takes s ring 0x50 [(8, 1, 0), (9, 1, 0)] p → p.b 8 1 = 3 →
       ∃ t, exec (.moveRemove ring) s = .next t ∧ Ends s t ring p [] st 0 0 0)))

/-- PAGE_MAP (R279, R281) on a table of the packet's own context. Form 0 defines a table whose descriptor is well formed and
whose areas lie in the polder's shares; with init it also writes the entries and the records zero and empties both lists. Form 1
maps n invalid entries to the pages at the head of a tier's list, in order, and answers NO_RESOURCE where the list is short. Form 2
appends items to a list; a page outside the polder's shares is DENIED. Memory holds those writes and no others. A form 1 or 2
whose table's engine is at work is accepted and waits for its turn (log 41). -/
def Obligations.PageMapForms : Prop :=
  (∀ (ring : Ring) (s : State) (p : Pkt) (q : Nat), Takes s ring 0x58 [(8, 1, 0), (10, 2, 0), (12, 1, 1), (16, 64, 0)] p →
    let k := p.b 10 2
    let t : PageTable := ⟨p.ctx, padTo 64 (p.par.drop 8)⟩
    p.b 8 1 = 0 → s.ctxLive p.ctx = true → k < 256 → t.ok = true → s.table? k = none → s.polderOfCtx p.ctx = some q →
    (∀ a ∈ t.areas, s.polderHolds q a.1 a.2 = true) →
    ∃ x, exec (.pageMapDefineTable ring) s = .next x ∧
      x.table? k = some t ∧ (∀ j, j ≠ k → x.table? j = s.table? j) ∧
      (t.init = false → Ends s x ring p [.pageTables] stOk 0 0 0) ∧
      (t.init = true → Ends s x ring p (.pageTables :: tableKinds) stOk 0 0 0 ∧
        x.mem = (setList (setList ((s.devZero (t.entryAt 0) (8 * t.entries)).devZero (t.recordAt 0) (8 * t.records))
          t 0 0 0) t 1 0 0).mem)) ∧
  (∀ (ring : Ring) (s : State) (p : Pkt) (t : PageTable),
    Takes s ring 0x58 [(8, 1, 0), (10, 2, 0), (12, 1, 1), (16, 4, 0), (20, 4, 0)] p →
    let k := p.b 10 2
    let es := entryRange (p.b 16 4) (p.b 20 4)
    p.b 8 1 = 1 → s.table? k = some t → t.ctx = p.ctx → p.b 16 4 + p.b 20 4 ≤ t.entries →
    (tableBusy s k = true → ∃ x, exec (.pageMapMap ring) s = .next x ∧ WaitsTurn s x ring p k) ∧
    (tableBusy s k = false → (∀ e ∈ es, peValid (entryOf s t e) = false) → p.b 20 4 ≤ listCount s t (p.b 12 1) →
      ∃ x, exec (.pageMapMap ring) s = .next x ∧ Ends s x ring p tableKinds stOk 0 0 0 ∧
        x.mem = (es.foldl (fun y e => match popFree y t (p.b 12 1) with
          | some ((r, page), z) => wrRecord (wrEntry z t e (mkEntry (p.b 12 1) page r)) t r 1
          | none => y) (notePoisonEntries s t es)).mem) ∧
    (tableBusy s k = false → (∀ e ∈ es, peValid (entryOf s t e) = false) → listCount s t (p.b 12 1) < p.b 20 4 →
      ∃ x, exec (.pageMapMap ring) s = .next x ∧ Ends s x ring p [.log, .vectors] stNoResource 0 0 0)) ∧
  (∀ (ring : Ring) (s : State) (p : Pkt) (t : PageTable) (q : Nat),
    Takes s ring 0x58 [(8, 1, 0), (10, 2, 0), (12, 1, 1), (16, 8, 0), (24, 4, 0)] p →
    let k := p.b 10 2
    let items := donated s p
    p.b 8 1 = 2 → s.table? k = some t → t.ctx = p.ctx → s.populated (p.b 16 8) (8 * p.b 24 4) = true →
    mayReach s (ringNo ring) false (p.b 16 8) (8 * p.b 24 4) = true → s.devPoison (p.b 16 8) (8 * p.b 24 4) = false →
    s.polderOfCtx t.ctx = some q →
    (tableBusy s k = true → ∃ x, exec (.pageMapDonate ring) s = .next x ∧ WaitsTurn s x ring p k) ∧
    (tableBusy s k = false → (∃ i ∈ items, s.polderHolds q (fld i 32 32 * 65536) 65536 = false) →
      ∃ x, exec (.pageMapDonate ring) s = .next x ∧ Ends s x ring p [] stDenied 0 0 0) ∧
    (tableBusy s k = false →
      (∀ i ∈ items, fld i 22 10 = 0 ∧ fld i 0 22 < t.records ∧ (∃ a, segOf (fld i 32 32 * 65536) = some (p.b 12 1, a)) ∧
        s.polderHolds q (fld i 32 32 * 65536) 65536 = true) →
      listRoom s t (p.b 12 1) (p.b 24 4) = true →
      ∃ x, exec (.pageMapDonate ring) s = .next x ∧ Ends s x ring p tableKinds stOk 0 0 0 ∧
        x.mem = (items.foldl (fun y i => pushFree y t (p.b 12 1) (fld i 0 22) (fld i 32 32)) s).mem))

/-- PAGE_UNMAP, PAGE_SHARE and PAGE_MIGRATE (R281, R282, R284) on a table of the packet's own context whose engine is free; each
completes with OK. Form 0 of PAGE_UNMAP unmaps every valid entry that it names; form 1 removes a table without valid entries, and
is BUSY where one is valid; form 2 clears busy first. PAGE_SHARE copies valid entries onto invalid ones and counts a reference
each. PAGE_MIGRATE passes over the entries that are invalid, of the target tier already, or, counted as skipped, shared; with none
left it answers at once, and else it is accepted, marks the first of the rest busy and copies its page, as 16 FETCHes of class 3,
to the page at the head of the target list. Memory holds those writes and no others. -/
def Obligations.PageUnmapShareMigrate : Prop :=
  (∀ (ring : Ring) (s : State) (p : Pkt) (t : PageTable), Takes s ring 0x59 [(8, 1, 0), (10, 2, 0), (16, 4, 0), (20, 4, 0)] p →
    let k := p.b 10 2
    let es := entryRange (p.b 16 4) (p.b 20 4)
    s.table? k = some t → t.ctx = p.ctx → p.b 16 4 + p.b 20 4 ≤ t.entries → tableBusy s k = false →
    let cleared := es.foldl (fun y e => if peBusy (rdEntry y t e) then wrEntry y t e (putBit (rdEntry y t e) 2 false) else y) s
    (p.b 8 1 = 0 →
      let y := es.foldl (fun y e => unmapEntry y k t e) (notePoisonEntries s t es)
      ∃ x, exec (.pageUnmapEntries ring) s = .next x ∧ Ends s x ring p (.pageWork :: tableKinds) stOk 0 0 0 ∧
        x.mem = y.mem ∧ x.ms.frees = y.ms.frees ∧ x.ms.copies = s.ms.copies ∧ x.ms.jobs = s.ms.jobs) ∧
    (p.b 8 1 = 2 →
      let y := es.foldl (fun y e => unmapEntry y k t e) (notePoisonEntries cleared t es)
      ∃ x, exec (.pageUnmapInit ring) s = .next x ∧ Ends s x ring p (.pageWork :: tableKinds) stOk 0 0 0 ∧
        x.mem = y.mem ∧ x.ms.frees = y.ms.frees ∧ x.ms.copies = s.ms.copies ∧ x.ms.jobs = s.ms.jobs)) ∧
  (∀ (ring : Ring) (s : State) (p : Pkt) (t : PageTable), Takes s ring 0x59 [(8, 1, 0), (10, 2, 0), (16, 4, 0), (20, 4, 0)] p →
    p.b 8 1 = 1 → s.table? (p.b 10 2) = some t → t.ctx = p.ctx → asorted s.ms.tables = true → tableBusy s (p.b 10 2) = false →
    ((∀ e, e < t.entries → peValid (entryOf s t e) = false) →
      ∃ x, exec (.pageUnmapTable ring) s = .next x ∧ Ends s x ring p [.pageTables, .log, .vectors] stOk 0 0 0 ∧
        x.table? (p.b 10 2) = none ∧ ∀ j, j ≠ p.b 10 2 → x.table? j = s.table? j) ∧
    ((∃ e, e < t.entries ∧ peValid (entryOf s t e) = true) →
      ∃ x, exec (.pageUnmapTable ring) s = .next x ∧ Ends s x ring p [.log, .vectors] stBusy 0 0 0)) ∧
  (∀ (ring : Ring) (s : State) (p : Pkt) (t : PageTable), Takes s ring 0x5A [(10, 2, 0), (16, 4, 0), (20, 4, 0), (24, 4, 0)] p →
    let src := entryRange (p.b 16 4) (p.b 24 4)
    let dst := entryRange (p.b 20 4) (p.b 24 4)
    let vs := src.map (entryOf s t)
    s.table? (p.b 10 2) = some t → t.ctx = p.ctx → p.b 16 4 + p.b 24 4 ≤ t.entries → p.b 20 4 + p.b 24 4 ≤ t.entries →
    tableBusy s (p.b 10 2) = false → (∀ v ∈ vs, peValid v = true) → (∀ e ∈ dst, peValid (entryOf s t e) = false) →
    (∀ v ∈ vs, recRefs (rdRecord s t (peShare v)) + (vs.filter (fun w => peShare w == peShare v)).length ≤ 65535) →
    ∃ x, exec (.pageShare ring) s = .next x ∧ Ends s x ring p tableKinds stOk 0 0 0 ∧
      x.mem = ((vs.zip dst).foldl (fun y e => wrRecord (wrEntry y t e.2 e.1) t (peShare e.1) (rdRecord y t (peShare e.1) + 1))
        (notePoisonEntries s t (src ++ dst))).mem) ∧
  (∀ (ring : Ring) (s : State) (p : Pkt) (t : PageTable), Takes s ring 0x5B [(10, 2, 0), (12, 1, 1), (16, 4, 0), (20, 4, 0)] p →
    let k := p.b 10 2
    let tier := p.b 12 1
    let es := entryRange (p.b 16 4) (p.b 20 4)
    let other (e : Nat) : Bool := peValid (entryOf s t e) && peTier (entryOf s t e) != tier
    let shared (e : Nat) : Bool := other e && decide (1 < recRefs (rdRecord s t (peShare (entryOf s t e))))
    s.table? k = some t → t.ctx = p.ctx → p.b 16 4 + p.b 20 4 ≤ t.entries → tableBusy s k = false →
    ((∀ e ∈ es, other e = true → shared e = true) →
      ∃ x, exec (.pageMigrate ring) s = .next x ∧ Ends s x ring p [.log, .vectors] stOk 0 (es.filter shared).length 0) ∧
    (∀ a e b page r y, es = a ++ e :: b → (∀ i ∈ a, other i = true → shared i = true) → other e = true → shared e = false →
      popFree (notePoisonEntries s t es) t tier = some ((r, page), y) →
      ∃ x, exec (.pageMigrate ring) s = .next x ∧ Begins s x ring p (.transactions :: .pageWork :: tableKinds) [k] ∧
        x.mem = (wrEntry y t e (putBit (entryOf y t e) 2 true)).mem ∧
        (∃ c, x.ms.copies = s.ms.copies ++ [c] ∧ c.table = k ∧ c.entry = e ∧ c.was = entryOf y t e ∧ c.cow = false ∧ c.tier = tier ∧
          c.page = page ∧ c.record = r ∧ c.left = 16) ∧
        (∃ l, x.ms.txns = s.ms.txns ++ l ∧ l.length = 16 ∧ ∀ z ∈ l, z.op = 1 ∧ z.cls = 3 ∧ z.bytes = 4096) ∧
        ∃ j, x.ms.jobs = j :: s.ms.jobs ∧ j.started = true ∧ j.rest = b ∧ j.moved = 1 ∧ j.skipped = (a.filter shared).length))

/-- GAUGE_SET and GAUGE_READ (R197, R207, R310), the gauge's words read clean or corrected: set writes or adds to the bound
gauge and answers its new value; a read without wait answers the value and the physical gauge; a read that waits is accepted,
and sends a WAIT with its target to the gauge's block. Its limit, which counts from the first WAIT, ends it with TIMEOUT:
with the gauge's value where it is registered, and with that of the last retry WAKE where it waits to send again (R200). An
unbound virtual ID is BAD_PARAM. -/
def Obligations.GaugeSetAndRead : Prop :=
  (∀ (ring : Ring) (e : Ecc) (s : State) (p : Pkt) (g : Nat), Takes s ring 0x60 [(8, 2, 0x7FF), (10, 1, 1), (12, 4, 0)] p →
    s.gaugeOf p.ctx (p.b 8 2) = some g → e ≠ .uncorrectable →
    let v := if p.b 10 1 = 1 then BitVec.ofNat 32 (p.b 12 4) else (s.gauge g).value + BitVec.ofNat 32 (p.b 12 4)
    ∃ t, exec (.gaugeSet ring e) s = .next t ∧
      Ends s t ring p (.gauges :: .census :: eccKinds e) stOk v.toNat 0 0 ∧
      (t.gauge g).value = v ∧ ∀ j, j ≠ g → t.gauge j = s.gauge j) ∧
  (∀ (ring : Ring) (s : State) (p : Pkt), Takes s ring 0x60 [(8, 2, 0x7FF), (10, 1, 1), (12, 4, 0)] p →
    s.gaugeOf p.ctx (p.b 8 2) = none →
    ∃ t, exec (.gaugeSet ring .clean) s = .next t ∧ Ends s t ring p [] stBadParam 0 0 0) ∧
  (∀ (ring : Ring) (e : Ecc) (s : State) (p : Pkt) (g : Nat),
    Takes s ring 0x61 [(8, 2, 0x7FF), (10, 1, 1), (12, 4, 0), (16, 4, 0)] p →
    s.gaugeOf p.ctx (p.b 8 2) = some g → p.b 10 1 = 0 → e ≠ .uncorrectable →
    ∃ t, exec (.gaugeRead ring e) s = .next t ∧
      Ends s t ring p (eccKinds e) stOk (s.gauge g).value.toNat (physWord g).toNat 0) ∧
  (∀ (ring : Ring) (s : State) (p : Pkt) (g : Nat), Takes s ring 0x61 [(8, 2, 0x7FF), (10, 1, 1), (12, 4, 0), (16, 4, 0)] p →
    s.gaugeOf p.ctx (p.b 8 2) = some g → p.b 10 1 = 1 → p.ctx < 64 → p.b 8 2 < 2048 →
    let tag := s.ms.nextId % 65536
    ∃ t, exec (.gaugeRead ring .clean) s = .next t ∧ Begins s t ring p [.gauges, .transactions] [tag] ∧
      t.gauges.hubWaits = s.gauges.hubWaits ++
        [⟨0, tag, 0, 0, p.ctx, p.b 8 2, BitVec.ofNat 32 (p.b 12 4), s.clk, 1024 * p.b 16 4, none, 0, 0⟩] ∧
      (∃ m, t.gin 4 = s.gin 4 ++ [m] ∧ gOp m = 2 ∧ gOperand m = BitVec.ofNat 32 (p.b 12 4) ∧ gVid m = p.b 8 2 ∧ gCtx m = p.ctx ∧
        m.tag = tag) ∧
      (∀ j, t.gauge j = s.gauge j) ∧ t.ms.txns = s.ms.txns) ∧
  (∀ (ring : Ring) (sq : BitVec 16) (s : State) (c : Cmd) (h : HubWait), Canonical s → Runs s →
    (s.ring (ringNo ring)).accepted.find? (fun c => c.opcode == 0x61 && c.seqNo == sq.toNat) = some c →
    s.gauges.hubWaits.find? (fun h => h.what == 0 && c.aux == [h.tag]) = some h → h.limit ≠ 0 → h.limit ≤ s.clk - h.start →
    (∀ g, readAt s h = some g →
      ∃ t, exec (.gaugeReadTimeout ring sq) s = .next t ∧ Only [.rings, .gauges] s t ∧
        t.ring (ringNo ring) = { s.ring (ringNo ring) with
          accepted := (s.ring (ringNo ring)).accepted.erase c
          replies := (s.ring (ringNo ring)).replies ++ [c.reply stTimeout (s.gauge g).value.toNat (physWord g).toNat 0] } ∧
        (∀ r, r ≠ ringNo ring → t.ring r = s.ring r) ∧ h ∉ t.gauges.hubWaits) ∧
    (readAt s h = none → h.retryAt.isSome = true →
      ∃ t, exec (.gaugeReadTimeout ring sq) s = .next t ∧ Only [.rings, .gauges] s t ∧
        t.ring (ringNo ring) = { s.ring (ringNo ring) with
          accepted := (s.ring (ringNo ring)).accepted.erase c
          replies := (s.ring (ringNo ring)).replies ++ [c.reply stTimeout h.lastValue.toNat h.lastPhys.toNat 0] } ∧
        (∀ r, r ≠ ringNo ring → t.ring r = s.ring r) ∧ h ∉ t.gauges.hubWaits))

/-- ADD, SET and WAIT at a gauge block (R195, R200, R201), the head message well formed, of a context that binds its virtual
ID to a gauge of the block, and the words read clean: ADD adds the operand and SET writes it; WAIT sends a WAKE of result 0 at once
where the value satisfies its target, registers the waiter where there is room, and else sends a WAKE of result 2. The waiters
that the new value satisfies get a WAKE in the order they registered, and leave the gauge. No other gauge changes, and the message
leaves the block's queue. -/
def Obligations.GaugeBlockAppliesHead : Prop :=
  ∀ (b : BitVec 3) (s : State) (m : Msg) (c g : Nat), Canonical s → Runs s → asorted s.gauges.inq = true → b.toNat < 5 →
    (b.toNat = 4 ∨ b.toNat < s.dies) → (s.gin b.toNat).head? = some m → gaugeMalformed m = false →
    gaugeCtx s m = some c → s.gaugeOf c (gVid m) = some g → g / 4096 = b.toNat →
    let woken (v : W32) : List Msg := ((s.gauge g).waiters.filter (fun w => satisfied v w.target)).map (fun w =>
      wakeMsg s.deviceId b.toNat ⟨w, 0, v, physWord g⟩)
    let room := (s.gauge g).waiters.length < 64 ∧ agetD s.gauges.waitersUsed b.toNat 0 < 8192
    let fails := satisfied (s.gauge g).value (gOperand m) = false
    (∀ i v, gOp m = 0 ∧ i = .add b .clean ∧ v = (s.gauge g).value + gOperand m ∨ gOp m = 1 ∧ i = .set b .clean ∧ v = gOperand m →
      ∃ t, exec i s = .next t ∧ Only [.gauges, .runs, .census, .pumpQueues] s t ∧
        (t.gauge g).value = v ∧ (t.gauge g).waiters = (s.gauge g).waiters.filter (fun w => !satisfied v w.target) ∧
        (∀ j, j ≠ g → t.gauge j = s.gauge j) ∧ t.gout b.toNat = s.gout b.toNat ++ woken v ∧
        t.gin b.toNat = (s.gin b.toNat).drop 1) ∧
    (gOp m = 2 → fails → room →
      ∃ t, exec (.wait b .clean) s = .next t ∧ Only [.gauges] s t ∧
        t.gauge g = { s.gauge g with waiters := (s.gauge g).waiters ++ [waiterOf s m c] } ∧
        (∀ j, j ≠ g → t.gauge j = s.gauge j) ∧ t.gauges.out = s.gauges.out ∧ t.gin b.toNat = (s.gin b.toNat).drop 1) ∧
    (∀ r, gOp m = 2 → (¬ fails ∧ r = 0 ∨ fails ∧ ¬ room ∧ r = 2) →
      ∃ t, exec (.wait b .clean) s = .next t ∧ Only [.gauges, .census] s t ∧ (∀ j, t.gauge j = s.gauge j) ∧
        t.gout b.toNat = s.gout b.toNat ++ [wakeMsg s.deviceId b.toNat ⟨waiterOf s m c, r, (s.gauge g).value, physWord g⟩] ∧
        t.gin b.toNat = (s.gin b.toNat).drop 1)

/-- WAKE, the retry and the timeout of a waiter (R200-R205). A WAKE of result 0 for a pump's post wait meets it; one of
result 2 to a hub unit makes it wait 256 cycles, after which its WAIT goes to the block again with what is left of its limit.
A WAKE at the tile whose sequencer waits ends the wait with result 0, and with result 2 makes it wait 256 cycles too. A
registered waiter whose limit has passed leaves its gauge with a WAKE of result 1 that carries the value. -/
def Obligations.WakeRetryTimeout : Prop :=
  (∀ (k : Nat) (d : Side) (s : State) (m : Msg) (h : HubWait), Canonical s → Runs s → s.gauges.wakes[k]? = some m →
    s.gauges.hubWaits.find? (fun h => h.unit == m.dstUnit && h.tag == m.tag) = some h →
    (∀ q, gResult m = 0 → h.what = 1 → s.queue? h.q = some q →
      ∃ t, exec (.wake (1088 + k) d) s = .next t ∧ Only [.gauges, .pumpQueues] s t ∧
        t.gauges = { s.gauges with wakes := s.gauges.wakes.eraseIdx k, hubWaits := s.gauges.hubWaits.erase h } ∧
        t.queue? h.q = some { q with postWait := .met } ∧ ∀ j, j ≠ h.q → t.queue? j = s.queue? j) ∧
    (gResult m = 2 →
      exec (.wake (1088 + k) d) s = .next { s with gauges := { s.gauges with
        wakes := s.gauges.wakes.eraseIdx k
        hubWaits := s.gauges.hubWaits.map (fun x =>
          if x == h then { h with retryAt := some (s.clk + 256), lastValue := gValue m, lastPhys := gPhys m } else x) } })) ∧
  (∀ (k a left : Nat) (s : State) (h : HubWait), Canonical s → Runs s → s.gauges.hubWaits[k]? = some h → h.retryAt = some a →
    a ≤ s.clk → limitLeft h.limit (s.clk - h.start) = some left →
    ∃ t, exec (.waitRetry (1024 + k)) s = .next t ∧ Only [.gauges] s t ∧
      t.gauges.hubWaits = s.gauges.hubWaits.set k { h with retryAt := none } ∧ (∀ j, t.gauge j = s.gauge j) ∧
      ∃ m, t.gin 4 = s.gin 4 ++ [m] ∧ gOp m = 2 ∧ gOperand m = h.target ∧ (left < 2 ^ 32 → gTimeout m = left)) ∧
  (∀ (k : Nat) (d : Side) (s : State) (m : Msg) (g : GWait), Canonical s → Runs s → k < 1088 →
    headHere s k d 0 = some m → m.kind = 4 → ejectGranted s k (.lane d 0) = true → (s.tile k).sect.gen.toNat = gWgen m →
    (s.tile k).seq.gwait = some g → (s.tile k).seq.st = .waitGauge → m.dstUnit = 0 →
    (gResult m = 0 → ∃ t, exec (.wake k d) s = .next t ∧ (t.tile k).seq.gwait = none) ∧
    (gResult m = 2 → ∃ t, exec (.wake k d) s = .next t ∧ Only [.tiles, .census] s t ∧
      (t.tile k).seq = { (s.tile k).seq with
        gwait := some { g with retryAt := some (s.clk + 256), lastPhys := gPhys m, lastValue := gValue m } } ∧
      t.rq k (qKey d 0) = (s.rq k (qKey d 0)).drop 1)) ∧
  (∀ (b : BitVec 3) (n : BitVec 12) (k d : Nat) (s : State) (w : Waiter), Canonical s → Runs s →
    let g := b.toNat * 4096 + n.toNat
    (s.gauge g).waiters[k]? = some w → w.deadline = some d → d ≤ s.clk →
    ∃ t, exec (.waiterTimeout b n k .clean) s = .next t ∧ Only [.gauges, .census, .log, .vectors] s t ∧
      t.gauge g = { s.gauge g with waiters := (s.gauge g).waiters.eraseIdx k } ∧
      t.gout b.toNat = s.gout b.toNat ++ [wakeMsg s.deviceId b.toNat ⟨w, 1, (s.gauge g).value, physWord g⟩] ∧
      (∀ j, j ≠ g → t.gauge j = s.gauge j) ∧ (readsGauge s w = true → t.log = s.log))

/-- DIGEST and REPLICA_GROUP_SET (R379, R380): a digest of a range it may read, at a place it may write, stores the record of
Table 15.6 and answers its length, OK, or POISONED when some leaf is poisoned. Form 0 defines a group whose members differ and
name this device at its own index, form 1 removes it with its exchanges, form 2 clears the expelled state. Exchanges and votes
(R381-R383). At its due instant an exchange of a defined group digests its range and waits for the other members' records; a
record that matches it is kept, once per member; a record for another device goes on through its port. When every member's
record is held, or the window has ended, the group votes: with the own root in the majority the device stays, and without a
majority the vote is counted and logged. -/
def Obligations.DigestsGroupsAndVotes : Prop :=
  ((∀ (ring : Ring) (s : State) (p : Pkt), Takes s ring 0x70 [(8, 1, 1), (16, 8, 0), (24, 8, 0), (32, 8, 0)] p →
     let host := bitOf (p.b 8 1) 0
     let a := p.b 16 8
     let n := p.b 24 8
     let len := 64 + 32 * leafCount n
     a % 64 = 0 → n % 64 = 0 → n ≠ 0 → touchesFrames a n = false → mayReach s (ringNo ring) false a n = true →
     mayReach s (ringNo ring) host (p.b 32 8) len = true → s.populated a n = true → closedTile s a n = none →
     (digestRecord s a n).length = len → Open s host (p.b 32 8) len →
     ∃ t, exec (.digest ring) s = .next t ∧ Stores s t host (p.b 32 8) (digestRecord s a n) ∧
       (poisonedLeaves s a n = 0 → Ends s t ring p [.mem, .tiles] stOk len 0 0) ∧
       (poisonedLeaves s a n ≠ 0 → Ends s t ring p [.mem, .tiles, .log, .vectors] stPoisoned len 0 0)) ∧
   (∀ (ring : Ring) (s : State) (p : Pkt),
     Takes s ring 0x71 [(8, 1, 0), (9, 1, 0), (10, 1, 0), (11, 1, 0), (16, 2 * p.b 10 1, 0)] p → p.b 8 1 = 0 → p.b 9 1 ≤ 15 →
     3 ≤ p.b 10 1 → p.b 10 1 ≤ 16 → noRepeat (groupMembers p) = true → (groupMembers p)[p.b 11 1]? = some s.deviceId →
     ∃ t, exec (.replicaGroupDefine ring) s = .next t ∧ Ends s t ring p [.health] stOk 0 0 0 ∧
       t.health = { s.health with groups := aput s.health.groups (p.b 9 1) ⟨groupMembers p, p.b 11 1⟩ }) ∧
   (∀ (ring : Ring) (s : State) (p : Pkt), Takes s ring 0x71 [(8, 1, 0), (9, 1, 0)] p → p.b 8 1 = 1 →
     (aget? s.health.groups (p.b 9 1)).isSome = true → asorted s.health.groups = true →
     ∃ t, exec (.replicaGroupRemove ring) s = .next t ∧ Ends s t ring p [.health] stOk 0 0 0 ∧
       aget? t.health.groups (p.b 9 1) = none ∧ (∀ j, j ≠ p.b 9 1 → aget? t.health.groups j = aget? s.health.groups j) ∧
       (∀ x, x ∈ t.health.exchanges ↔ x ∈ s.health.exchanges ∧ x.group ≠ p.b 9 1)) ∧
   (∀ (ring : Ring) (s : State) (p : Pkt), Takes s ring 0x71 [(8, 1, 0)] p → p.b 8 1 = 2 →
     ∃ t, exec (.clearExpulsion ring) s = .next t ∧ Ends s t ring p [.health, .log, .vectors] stOk 0 0 0 ∧
       t.health = { s.health with expelled := false })) ∧
  ((∀ (i : BitVec 10) (s : State) (x : Sched) (grp : Group), Canonical s → Runs s → aget? s.tide.sched i.toNat = some x →
     seAction x.bytes = 4 → cyclesTo s (dueOf x.bytes x.next) ≤ 0 → -1 ≤ cyclesTo s (dueOf x.bytes x.next) →
     let a := leAt x.bytes 32 8
     let n := leAt x.bytes 40 8
     let due := (dueOf x.bytes x.next).1 % 2 ^ 64
     aget? s.health.groups (leAt x.bytes 28 1) = some grp → s.populated a n = true → closedTile s a n = none → n ≠ 0 →
     poisonedLeaves s a n = 0 →
     ∃ t, exec (.digestExchange i none) s = .next t ∧ Only [.tide, .health, .links, .log, .vectors, .snoops] s t ∧
       t.tide.sched = (fired s i.toNat x).tide.sched ∧
       t.health = { s.health with exchanges := s.health.exchanges ++
         [⟨leAt x.bytes 28 1, due, due + leAt x.bytes 30 2, some (digestRoot s a n), []⟩] }) ∧
   (∀ (port : BitVec 3) (s : State) (rec : List Byte) (rest : List (List Byte)) (x : Exchange) (grp : Group) (m : Nat),
     Canonical s → Runs s → (s.lport port.toNat).svcIn = rec :: rest → leAt rec 2 2 = s.deviceId → fld (leAt rec 0 1) 1 3 = 2 →
     s.health.exchanges = [x] → x.group = leAt rec 8 1 → x.due = leAt rec 16 8 → aget? s.health.groups x.group = some grp →
     grp.members.findIdx? (fun d => d == leAt rec 4 2 && d != s.deviceId) = some m → (∀ e ∈ x.got, e.1 ≠ m) →
     bitOf (leAt rec 9 1) 0 = false →
     ∃ t, exec (.serviceRecord port) s = .next t ∧ Only [.links, .health] s t ∧
       t.lport port.toNat = { s.lport port.toNat with svcIn := rest } ∧
       t.health = { s.health with exchanges := [{ x with got := x.got ++ [(m, some ((rec.drop 24).take 32))] }] }) ∧
   (∀ (port : BitVec 3) (s : State) (rec : List Byte) (rest : List (List Byte)) (k : Nat), Canonical s → Runs s →
     (s.lport port.toNat).svcIn = rec :: rest → leAt rec 2 2 ≠ s.deviceId → s.linkPort (leAt rec 2 2) = some k → k ≠ port.toNat →
     (s.lport k).up = true → (s.lport k).svc.length < 256 →
     ∃ t, exec (.serviceRecord port) s = .next t ∧ Only [.links] s t ∧
       t.lport port.toNat = { s.lport port.toNat with svcIn := rest } ∧
       t.lport k = { s.lport k with svc := (s.lport k).svc ++ [rec] } ∧
       ∀ j, j ≠ k → j ≠ port.toNat → t.lport j = s.lport j) ∧
   (∀ (g : BitVec 4) (s : State) (grp : Group) (x : Exchange), Canonical s → Runs s →
     aget? s.health.groups g.toNat = some grp →
     s.health.exchanges.find? (fun x => x.group == g.toNat && (x.got.length + 1 ≥ grp.members.length || x.ends ≤ s.tideCount.toNat)) =
       some x →
     (∀ v, majorityRoot grp x = some v → (∀ m ∈ heldRoots grp x, m.2 = v) → (x.own = none ∨ x.own = some v) →
       ∃ t, exec (.vote g) s = .next t ∧ Only [.health] s t ∧
         t.health = { s.health with
           exchanges := s.health.exchanges.filter (fun y => !decide (y = x)), lastGroup := g.toNat, lastMajority := true
           sdc := bump s.health.sdc 2 1 }) ∧
     (majorityRoot grp x = none →
       ∃ t, exec (.vote g) s = .next t ∧ Only [.health, .log, .vectors] s t ∧
         t.health = { s.health with
           exchanges := s.health.exchanges.filter (fun y => !decide (y = x)), lastGroup := g.toNat, lastMajority := false
           sdc := bump (bump s.health.sdc 2 1) 3 1 })))

/-- SCREEN_RUN and SCREEN_PACK_LOAD (R376-R378). Form 0 puts a tile that can be screened ahead of its die's rotation and
waits; form 1 retires a tile that serves no logical tile and is not held by its screener, and answers OK for one retired already; a
move that was bound for the tile takes another idle spare (log 63); form 2 sets the control values. A pack that passes every check
replaces the one loaded; one that fails a check answers its status. The screens themselves (R370, R371, R373-R378). A
schedule-table entry of action 5 lets the screeners of the dies it names start; a screener whose tile is vacated begins its screen
while its die has a healthy spare; a screen whose tile time is over has passed, is counted and frees its tile; a run that fails
retires the tile. -/
def Obligations.ScreensAsked : Prop :=
  ((∀ (ring : Ring) (s : State) (p : Pkt), Takes s ring 0x72 [(8, 1, 0), (10, 2, 0)] p →
     let t := p.b 10 2
     s.health.scr.length = 4 → tileParam s t = none → t < 1088 → pDie t < 4 →
     (p.b 8 1 = 0 → (s.tile t).retired = false → (s.logical t = none ∨ (idleSpare s (pDie t)).isSome = true) →
       ∃ x, exec (.screenRunScreen ring) s = .next x ∧ Begins s x ring p [.health] [t] ∧
         x.scr (pDie t) = { s.scr (pDie t) with ahead := (s.scr (pDie t)).ahead ++ [(t, some (ringNo ring, p.cmd [t]))] } ∧
         ∀ d, d ≠ pDie t → x.scr d = s.scr d) ∧
     (p.b 8 1 = 1 → (s.tile t).retired = true →
       ∃ x, exec (.screenRunRetire ring) s = .next x ∧ Ends s x ring p [] stOk 0 0 0) ∧
     (∀ m q, p.b 8 1 = 1 → (s.tile t).retired = false → s.logical t = none → (s.scr (pDie t)).cur ≠ t →
       s.moves.find? (fun m => m.dest == t) = some m → idleSpare (retireTile s t noRecord) (pDie t) = some q →
       ∃ x, exec (.screenRunRetire ring) s = .next x ∧ Ends s x ring p [.tiles, .log, .vectors, .displaced] stOk 0 0 0 ∧
         x.moves = s.moves.map (fun y => if y.logical == m.logical then { y with dest := q } else y) ∧ x.displaced = s.displaced) ∧
     (p.b 8 1 = 1 → (s.tile t).retired = false → s.logical t = none → (s.scr (pDie t)).cur ≠ t → (∀ m ∈ s.moves, m.dest ≠ t) →
       ∃ x, exec (.screenRunRetire ring) s = .next x ∧ Ends s x ring p [.tiles, .log, .vectors] stOk 0 0 0 ∧
         x.tile t = { s.tile t with retired := true, screening := false } ∧ ∀ n, n ≠ t → x.tile n = s.tile n)) ∧
   (∀ (ring : Ring) (s : State) (p : Pkt), Takes s ring 0x72 [(8, 1, 0), (12, 1, 0), (13, 1, 0), (14, 1, 1)] p → p.b 8 1 = 2 →
     p.b 12 1 ≤ 15 → p.b 13 1 ≤ 15 →
     ∃ x, exec (.screenRunSetCtl ring) s = .next x ∧ Ends s x ring p [.health] stOk 0 0 0 ∧
       x.health = { s.health with duty := p.b 12 1, suspect := p.b 13 1, tideMode := bitOf (p.b 14 1) 0 }) ∧
   (∀ (ring : Ring) (sigOk : Bool) (s : State) (p : Pkt), Takes s ring 0x73 [(8, 1, 1), (16, 8, 0), (24, 4, 0)] p →
     let host := bitOf (p.b 8 1) 0
     let bs := s.anyRead host (p.b 16 8) (p.b 24 4)
     s.sec.error = false → Open s host (p.b 16 8) (p.b 24 4) → s.anyPoison host (p.b 16 8) (p.b 24 4) = false →
     (packRefused s bs sigOk = none →
       ∃ x, exec (.screenPackLoad ring sigOk) s = .next x ∧ Ends s x ring p [.health, .log, .vectors] stOk 0 0 0 ∧
         x.health = { s.health with pack := leAt bs 8 4, packRecords := leAt bs 20 4, packMs := leAt bs 16 4 }) ∧
     (∀ st, packRefused s bs sigOk = some st →
       ∃ x, exec (.screenPackLoad ring sigOk) s = .next x ∧ Ends s x ring p [] st 0 0 0))) ∧
  ((∀ (i : BitVec 10) (s : State) (x : Sched), Canonical s → Runs s → aget? s.tide.sched i.toNat = some x →
     seAction x.bytes = 5 → cyclesTo s (dueOf x.bytes x.next) ≤ 0 → -1 ≤ cyclesTo s (dueOf x.bytes x.next) →
     ∃ t, exec (.screen i) s = .next t ∧ Only [.tide, .health] s t ∧ t.tide.sched = (fired s i.toNat x).tide.sched ∧
       ∀ d, d < s.health.scr.length → t.scr d = { s.scr d with tideGo := bitOf (leAt x.bytes 28 1) d || (s.scr d).tideGo }) ∧
   (∀ (die : BitVec 2) (s : State), Canonical s → Runs s → s.health.scr.length = 4 → die.toNat < s.dies →
     s.unitOn 0 die.toNat = true → s.ready = true → (s.scr die.toNat).step = .ready → healthySpares s die.toNat ≠ 0 →
     ∃ t, exec (.screenTileStart die) s = .next t ∧ Only [.tiles, .health] s t ∧
       t.tile (s.scr die.toNat).cur = { s.tile (s.scr die.toNat).cur with screening := true } ∧
       (∀ n, n ≠ (s.scr die.toNat).cur → t.tile n = s.tile n) ∧
       t.scr die.toNat = { s.scr die.toNat with step := .running, since := s.clk } ∧
       ∀ d, d ≠ die.toNat → t.scr d = s.scr d) ∧
   (∀ (die : BitVec 2) (s : State), Canonical s → Runs s → s.health.scr.length = 4 →
     let x := s.scr die.toNat
     x.step = .running → x.vacated = none → x.cmd = none → screenCycles s ≤ s.clk - x.since →
     ∃ t, exec (.screenTileEnd die none) s = .next t ∧ Only [.tiles, .health] s t ∧
       t.tile x.cur = { s.tile x.cur with screening := false } ∧ (∀ n, n ≠ x.cur → t.tile n = s.tile n) ∧
       (t.scr die.toNat).step = .idle ∧ (∀ d, d ≠ die.toNat → t.scr d = s.scr d) ∧ t.health.sdc = bump s.health.sdc 0 1) ∧
   (∀ (die : BitVec 2) (rec : BitVec 16) (s : State), Canonical s → Runs s → s.health.scr.length = 4 →
     let x := s.scr die.toNat
     x.step = .running → x.cmd = none → rec.toNat < s.health.packRecords →
     ∃ t, exec (.screenTileEnd die (some rec)) s = .next t ∧ Only [.tiles, .health, .log, .vectors] s t ∧
       t.tile x.cur = { s.tile x.cur with retired := true, screening := false } ∧ (∀ n, n ≠ x.cur → t.tile n = s.tile n) ∧
       (t.scr die.toNat).step = .idle ∧ (t.scr die.toNat).vacated = none ∧ (∀ d, d ≠ die.toNat → t.scr d = s.scr d) ∧
       t.health.sdc = bump s.health.sdc 1 1))

/-- UNIT_ENABLE and UNIT_DISABLE (R312) on a unit of the part that has no request held. A request opposite to the unit's
state, with no transition in progress, starts one; a request for the state that the unit is in ends OK; a disable that R312
forbids is BUSY; a unit that the part lacks answers UNIT_ABSENT. The end of a transition that one command began (R312, R266):
a port that an enable brings back stands down and ready to train; an HBM3E stack that trains serves 96 granules of memory that
holds nothing; an enable that fails at a step leaves the unit disabled and its command TIMEOUT with that step in r0; a pump
that a disable ends is out of service. -/
def Obligations.UnitsEnabledAndDisabled : Prop :=
  ((∀ (ring : Ring) (s : State) (p : Pkt), Takes s ring 0x90 [(8, 1, 0), (9, 1, 0)] p → p.b 8 1 ≤ 4 →
     p.b 9 1 < unitCount (p.b 8 1) →
     let x := s.unitSt (p.b 8 1) (p.b 9 1)
     (unitPresent s (p.b 8 1) (p.b 9 1) = true → x.phase = .disabled → x.held = [] →
       ∃ t, exec (.unitEnable ring) s = .next t ∧ Begins s t ring p [.units] [0, p.b 8 1, p.b 9 1] ∧
         t.unitSt (p.b 8 1) (p.b 9 1) = ⟨.enabling, [(ringNo ring, p.cmd [0, p.b 8 1, p.b 9 1])], []⟩ ∧
         ∀ c i, 256 * c + i ≠ 256 * p.b 8 1 + p.b 9 1 → t.unitSt c i = s.unitSt c i) ∧
     (unitPresent s (p.b 8 1) (p.b 9 1) = true → x.phase = .enabled → x.held = [] →
       ∃ t, exec (.unitEnable ring) s = .next t ∧ Ends s t ring p [] stOk 0 0 0) ∧
     (unitPresent s (p.b 8 1) (p.b 9 1) = false →
       ∃ t, exec (.unitEnable ring) s = .next t ∧ Ends s t ring p [] stUnitAbsent 0 0 0)) ∧
   (∀ (ring : Ring) (s : State) (p : Pkt), Takes s ring 0x91 [(8, 1, 0), (9, 1, 0)] p → p.b 8 1 ≤ 4 →
     p.b 9 1 < unitCount (p.b 8 1) →
     let x := s.unitSt (p.b 8 1) (p.b 9 1)
     (unitPresent s (p.b 8 1) (p.b 9 1) = true → x.phase = .enabled → x.held = [] →
       disableBusy s (p.b 8 1) (p.b 9 1) = false →
       ∃ t, exec (.unitDisable ring) s = .next t ∧ Begins s t ring p [.units] [0, p.b 8 1, p.b 9 1] ∧
         t.unitSt (p.b 8 1) (p.b 9 1) = ⟨.disabling, [(ringNo ring, p.cmd [0, p.b 8 1, p.b 9 1])], []⟩ ∧
         ∀ c i, 256 * c + i ≠ 256 * p.b 8 1 + p.b 9 1 → t.unitSt c i = s.unitSt c i) ∧
     (unitPresent s (p.b 8 1) (p.b 9 1) = true → x.phase = .enabled → x.held = [] →
       disableBusy s (p.b 8 1) (p.b 9 1) = true →
       ∃ t, exec (.unitDisable ring) s = .next t ∧ Ends s t ring p [] stBusy 0 0 0) ∧
     (unitPresent s (p.b 8 1) (p.b 9 1) = true → x.phase = .disabled → x.held = [] →
       ∃ t, exec (.unitDisable ring) s = .next t ∧ Ends s t ring p [] stOk 0 0 0))) ∧
  (∀ (cls : BitVec 3) (i : Byte) (fail : BitVec 3) (s : State) (r : Nat) (k : Cmd), Canonical s → Runs s → k.aux.headD 0 = 0 →
     let c := cls.toNat
     let x := s.unitSt c i.toNat
     x.joined = [(r, k)] → x.held = [] →
     (c = 3 → x.phase = .enabling →
       ∃ t, exec (.unitTransitionComplete cls i fail) s = .next t ∧ Only [.rings, .units, .links] s t ∧
         t.unitSt 3 i.toNat = ⟨.enabled, [], []⟩ ∧ t.lport i.toNat = { s.lport i.toNat with state := 1 } ∧
         t.ring r = { s.ring r with accepted := (s.ring r).accepted.erase k, replies := (s.ring r).replies ++ [k.reply stOk 0 0 0] }) ∧
     (c = 1 → x.phase = .enabling → bitOf s.power.pg 8 = true → (fail.toNat < 2 ∨ 6 < fail.toNat) →
       ∃ t, exec (.unitTransitionComplete cls i fail) s = .next t ∧ Only [.rings, .units, .memUnits, .mem, .power, .snoops] s t ∧
         t.unitSt 1 i.toNat = ⟨.enabled, [], []⟩ ∧ (t.munit i.toNat).trained = true ∧ (t.munit i.toNat).cap = 96 ∧
         (i.toNat < 8 → ∀ a, unitBase i.toNat ≤ a → a < unitBase i.toNat + 2 ^ 37 → t.mem.byte a = 0) ∧
         t.power = { s.power with level := unitLevel t } ∧
         t.ring r = { s.ring r with accepted := (s.ring r).accepted.erase k, replies := (s.ring r).replies ++ [k.reply stOk 0 0 0] }) ∧
     (∀ f, x.phase = .enabling → failsAt s c i.toNat fail.toNat = f → f ≠ 0 →
       ∃ t, exec (.unitTransitionComplete cls i fail) s = .next t ∧ Only [.rings, .units] s t ∧
         t.unitSt c i.toNat = ⟨.disabled, [], []⟩ ∧
         t.ring r = { s.ring r with accepted := (s.ring r).accepted.erase k, replies := (s.ring r).replies ++ [k.reply stTimeout f 0 0] }) ∧
     (c = 4 → x.phase = .disabling →
       ∃ t, exec (.unitTransitionComplete cls i fail) s = .next t ∧ Only [.rings, .units] s t ∧
         t.unitSt 4 i.toNat = ⟨.disabled, [], []⟩ ∧
         t.ring r = { s.ring r with accepted := (s.ring r).accepted.erase k, replies := (s.ring r).replies ++ [k.reply stOk 0 0 0] }))

/-- Faults that units and the warden raise, and the log (R360, R363, R385, R390, R391). A memory unit that loses training is a
device fault; the warden's bite is a job fault, counted, of the context and the run it names; the log writes the oldest
waiting event as its newest entry, and the oldest of 4,096 gives way. -/
def Obligations.FaultsAndLog : Prop :=
  (∀ (u : BitVec 4) (s : State), Canonical s → Runs s → s.memOn u.toNat = true →
    ∃ t, exec (.memoryUnitLost u) s = .next t ∧ DeviceFaulted s t 0x5030 ∧
      t.munit u.toNat = { s.munit u.toNat with trained := false, lost := true } ∧
      (∀ n, n ≠ u.toNat → t.munit n = s.munit n) ∧ s.mem = t.mem) ∧
  (∀ (i q : Nat) (s : State), Canonical s → Runs s →
    ∃ t, exec (.wardenBite (.arbiter i q)) s = .next t ∧ Faulted s t 0x4140 none ∧
      t.health.sdc = bump s.health.sdc 7 1) ∧
  (∀ (id : Nat) (r : Run) (s : State), Canonical s → Runs s → s.run? id = some r → r.phase = .running →
    lastProgress s r + wardenLimit s ≤ s.clk →
    ∃ t, exec (.wardenBite (.run id)) s = .next t ∧ Faulted s t 0x4141 (some r.ctx) ∧
      t.health.sdc = bump s.health.sdc 7 1) ∧
  (∀ (s : State) (e : LogEntry) (rest : List LogEntry), Canonical s → Runs s → s.log.queue = e :: rest →
    ∃ t, exec .logEntryWrite s = .next t ∧ Only [.log] s t ∧ t.log.queue = rest ∧
      t.log.entries = e :: s.log.entries.take 4095 ∧ t.log.written = s.log.written + 1 ∧
      t.log.overwrite = (if 4096 ≤ s.log.entries.length then sat32 s.log.overwrite 1 else s.log.overwrite) ∧
      t.log.lost = s.log.lost)

/-- LINK_TRAIN (R325, R326, Table 13.3) on a port that is down. Every step passed brings it up with both sequence states and
its credits anew, and the reply gives the neighbour, the delay and the codewords corrected; a failing step leaves the port
down with that step in r0 and TIMEOUT; a device without an ID is BUSY; a port that the part lacks answers UNIT_ABSENT. -/
def Obligations.LinkTrains : Prop :=
  ∀ (ring : Ring) (tr : Training) (s : State) (p : Pkt), Takes s ring 0x92 [(8, 1, 0), (9, 1, 1), (10, 1, 1), (12, 2, 0)] p →
    p.b 8 1 < 8 →
    let k := p.b 8 1
    let want := if bitOf (p.b 10 1) 0 then some (p.b 12 2) else none
    let x : LinkPort := { s.lport k with lr := p.b 9 1 == 1 }
    (k < s.nports → s.unitOn 3 k = true → s.deviceId ≠ 0xFFFF → (s.lport k).up = false → trainFails s tr want = 0 →
      ∃ t, exec (.linkTrain ring tr) s = .next t ∧
        Ends s t ring p [.links] stOk (tr.neighbour.toNat * 2 ^ 16) tr.delay.toNat tr.corrected.toNat ∧
        t.lport k = { x with
          state := 3, step := 0, neighbour := tr.neighbour.toNat, delay := tr.delay.toNat
          corrected := sat32 x.corrected tr.corrected.toNat, next := 0, buffer := [], resend := [], tries := 0, credit := []
          sent := [], expect := 0, acked := none, nack := false, gap := false, rx := [], freed := [] } ∧
        ∀ j, j ≠ k → t.lport j = s.lport j) ∧
    (∀ f, k < s.nports → s.unitOn 3 k = true → s.deviceId ≠ 0xFFFF → (s.lport k).up = false → trainFails s tr want = f → f ≠ 0 →
      ∃ t, exec (.linkTrain ring tr) s = .next t ∧
        Ends s t ring p [.links] stTimeout (f + (t.lport k).neighbour * 2 ^ 16) x.delay (if f = 6 then tr.corrected.toNat else 0) ∧
        t.lport k = { x with state := 1, step := f, neighbour := if f ≤ 3 then x.neighbour else tr.neighbour.toNat } ∧
        ∀ j, j ≠ k → t.lport j = s.lport j) ∧
    (k < s.nports → s.unitOn 3 k = true → s.deviceId = 0xFFFF →
      ∃ t, exec (.linkTrain ring tr) s = .next t ∧ Ends s t ring p [] stBusy 0 0 0) ∧
    (s.nports ≤ k → ∃ t, exec (.linkTrain ring tr) s = .next t ∧ Ends s t ring p [] stUnitAbsent 0 0 0)

/-- Blocks that a port receives (R318, R319, R321). A block with a codeword that does not decode, or whose CRC does not match,
makes a nack due and is counted, and nothing in it is used. A good block gives its credits; a good idle block, and one of
the reserved kind 3 (the model's choice, log 49), changes no sequence state; a good traffic block with the expected number
advances it and is acknowledged; one ahead of it makes a nack due once for the gap, and is discarded. -/
def Obligations.BlocksReceived : Prop :=
  ∀ (port : BitVec 3) (b : RxBlock) (s : State), Canonical s → Runs s →
    let k := port.toNat
    let blk := padTo 2570 b.bytes
    let x : LinkPort := { s.lport k with corrected := sat32 (s.lport k).corrected b.corrected }
    let credit := (List.range 3).foldl (fun t l => aput t l (leAt blk (2 + 2 * l) 2)) x.credit
    (s.lport k).up = true →
    ((b.decodes = false ∨ crcOk blk = false) →
      ∃ t, exec (.blockReceived port b) s = .next t ∧ Only [.links] s t ∧
        t.lport k = { x with nack := true, gap := true, cnt := bump x.cnt 2 1 } ∧ ∀ j, j ≠ k → t.lport j = s.lport j) ∧
    (b.decodes = true → crcOk blk = true → bitOf (leAt blk 0 2) 12 = false → bitOf (leAt blk 0 2) 13 = false →
      bitOf (leAt blk 64 1) 0 = false → (s.tide.port ≠ k ∨ s.tide.link = false) →
      let y : LinkPort := { x with
        cnt := bump x.cnt 1 1, credit := credit, resend := x.resend.filter (fun c => x.buffer.any (fun e => e.2.1 == c)) }
      (2 ≤ blockKind blk →
        ∃ t, exec (.blockReceived port b) s = .next t ∧ Only [.links] s t ∧ t.lport k = y ∧ ∀ j, j ≠ k → t.lport j = s.lport j) ∧
      (blockKind blk = 0 → (blockSeq blk + 4096 - x.expect) % 4096 = 0 → (∀ e ∈ slotBytes blk, bitOf e 0 = false) →
        ∃ t, exec (.blockReceived port b) s = .next t ∧ Only [.links] s t ∧
          t.lport k = { y with expect := (x.expect + 1) % 4096, acked := some (blockSeq blk), gap := false } ∧
          ∀ j, j ≠ k → t.lport j = s.lport j) ∧
      (blockKind blk = 0 → 0 < (blockSeq blk + 4096 - x.expect) % 4096 → (blockSeq blk + 4096 - x.expect) % 4096 < 2048 →
        x.gap = false →
        ∃ t, exec (.blockReceived port b) s = .next t ∧ Only [.links] s t ∧
          t.lport k = { y with nack := true, gap := true } ∧ ∀ j, j ≠ k → t.lport j = s.lport j))

/-- What a port does on its own (R319, R321, R322, R324, R331). It sends waiting replays first, unchanged; with nothing to
send it sends an idle block, which repeats the last sequence number and is not buffered. A block unacknowledged for 16,384
cycles makes it replay every block it holds. An ingress head that has stalled for the threshold is logged, once per port per
section. A bundle's first block begins it, whole bytes following in order join it. -/
def Obligations.PortsSendAndReplay : Prop :=
  (∀ (port : BitVec 3) (s : State) (blk : List Byte) (rest : List (List Byte)), Canonical s → Runs s →
    let x := s.lport port.toNat
    x.up = true → x.resend = blk :: rest →
    ∃ t, exec (.blockTransmit port) s = .next t ∧ Only [.links] s t ∧
      t.lport port.toNat = { x with
        resend := rest, lastBlock := blk, cnt := bump x.cnt 0 1
        buffer := x.buffer.map (fun e => if e.2.1 == blk then (e.1, e.2.1, s.clk) else e) } ∧
      ∀ j, j ≠ port.toNat → t.lport j = s.lport j) ∧
  (∀ (port : BitVec 3) (s : State), Canonical s → Runs s →
    let x := s.lport port.toNat
    x.up = true → x.resend = [] → x.bundles = [] → (∀ l, l < 3 → x.txq l = []) →
    ∃ t, exec (.blockTransmit port) s = .next t ∧ Only [.links] s t ∧
      t.lport port.toNat = { x with
        svc := x.svc.drop 1, nack := false, cnt := bump (bump x.cnt 0 1) 3 1
        lastBlock := mkBlock (controlSlot s x [] 0 0) [] ((x.next + 4095) % 4096) 2 } ∧
      ∀ j, j ≠ port.toNat → t.lport j = s.lport j) ∧
  (∀ (port : BitVec 3) (tr : Training) (s : State) (seq sent : Nat) (blk : List Byte) (rest : List (Nat × List Byte × Nat)),
    Canonical s → Runs s →
    let x := s.lport port.toNat
    x.up = true → x.buffer = (seq, blk, sent) :: rest → sent + 16384 ≤ s.clk → x.tries < 8 →
    ∃ t, exec (.linkReplayTimeout port tr) s = .next t ∧ Only [.links, .log, .vectors] s t ∧
      (t.lport port.toNat).resend = x.buffer.map (fun e => e.2.1) ∧ (t.lport port.toNat).tries = x.tries + 1 ∧
      (t.lport port.toNat).buffer = x.buffer.map (fun e => (e.1, e.2.1, s.clk)) ∧
      (t.lport port.toNat).cnt = bump x.cnt 4 1 ∧ (t.lport port.toNat).next = x.next ∧
      ∀ j, j ≠ port.toNat → t.lport j = s.lport j) ∧
  (∀ (port : BitVec 3) (lane : BitVec 2) (s : State), Canonical s → Runs s →
    let x := s.lport port.toNat
    x.ingress lane.toNat ≠ [] → s.threshold ≠ 0 → agetD x.since lane.toNat s.clk + s.threshold ≤ s.clk →
    (x.once.contains 0x1233 = false → s.log.queue.length < 64 →
      ∃ t, exec (.ingressStall port lane) s = .next t ∧ Only [.links, .log] s t ∧
        t.lport port.toNat = { x with once := 0x1233 :: x.once } ∧ (∀ j, j ≠ port.toNat → t.lport j = s.lport j) ∧
        t.log.queue = s.log.queue ++ [⟨entryBytes s.tideCount.toNat s.tidePhase none 0x1233 13 port.toNat
          (detailOf [(1, lane.toNat)]), false⟩]) ∧
    (x.once.contains 0x1233 = true →
      ∃ t, exec (.ingressStall port lane) s = .next t ∧ Only [] s t)) ∧
  (∀ (port : BitVec 3) (sigOk : Nat) (s : State) (bid off : Nat) (bytes : List Byte) (rest : List (Nat × Nat × List Byte)),
    Canonical s → Runs s →
    let x := s.lport port.toNat
    x.bundleIn = (bid, off, bytes) :: rest →
    (off = 0 → bytes.length < leAt bytes 8 8 →
      ∃ t, exec (.bundleBlock port sigOk) s = .next t ∧ Only [.links, .log, .vectors] s t ∧
        (t.lport port.toNat).bundleIn = rest ∧
          ((t.lport port.toNat).rxBundle).map (fun b => (b.bid, b.bytes)) = some (bid, bytes)) ∧
    (∀ b, off ≠ 0 → x.rxBundle = some b → b.bid = bid → b.bytes.length = off →
      (b.bytes ++ bytes).length < leAt (b.bytes ++ bytes) 8 8 →
      ∃ t, exec (.bundleBlock port sigOk) s = .next t ∧ Only [.links, .log, .vectors] s t ∧
        (t.lport port.toNat).bundleIn = rest ∧
          ((t.lport port.toNat).rxBundle).map (fun c => (c.bid, c.bytes)) = some (bid, b.bytes ++ bytes)))

/-- TIDE_CONFIG (R339). Form 0 selects the source, form 1 the nominal period, form 2 the count that a tick will give, form 3
the pin output and its compensation. A port that the part lacks is UNIT_ABSENT; a period out of range, and form 2 in link mode,
are BAD_PARAM; form 1 is BUSY while the schedule table holds an entry; then nothing changes. -/
def Obligations.TideConfigForms : Prop :=
  (∀ (ring : Ring) (s : State) (p : Pkt), Takes s ring 0x93 [(8, 1, 0), (9, 1, 0x1F)] p → p.b 8 1 = 0 →
    ((bitOf (p.b 9 1) 0 = false ∨ fld (p.b 9 1) 1 3 < s.nports) →
      ∃ t, exec (.tideConfigSource ring) s = .next t ∧ Ends s t ring p [.tide] stOk 0 0 0 ∧
        t.tide.link = bitOf (p.b 9 1) 0 ∧ t.tide.port = fld (p.b 9 1) 1 3 ∧ t.tide.freeRun = bitOf (p.b 9 1) 4 ∧
        t.tide.period = s.tide.period ∧ t.tide.sched = s.tide.sched ∧ t.tideCount = s.tideCount ∧ t.tidePhase = s.tidePhase) ∧
    (bitOf (p.b 9 1) 0 = true → s.nports ≤ fld (p.b 9 1) 1 3 →
      ∃ t, exec (.tideConfigSource ring) s = .next t ∧ Ends s t ring p [] stUnitAbsent 0 0 0)) ∧
  (∀ (ring : Ring) (s : State) (p : Pkt), Takes s ring 0x93 [(8, 1, 0), (12, 4, 0)] p → p.b 8 1 = 1 →
    (160 ≤ p.b 12 4 → p.b 12 4 ≤ 16000 → s.tide.sched = [] →
      ∃ t, exec (.tideConfigPeriod ring) s = .next t ∧ Ends s t ring p [.tide] stOk 0 0 0 ∧
        t.tide = { s.tide with period := p.b 12 4 } ∧ t.tideCount = s.tideCount ∧ t.tidePhase = s.tidePhase) ∧
    (160 ≤ p.b 12 4 → p.b 12 4 ≤ 16000 → s.tide.sched ≠ [] →
      ∃ t, exec (.tideConfigPeriod ring) s = .next t ∧ Ends s t ring p [] stBusy 0 0 0) ∧
    ((p.b 12 4 < 160 ∨ 16000 < p.b 12 4) →
      ∃ t, exec (.tideConfigPeriod ring) s = .next t ∧ Ends s t ring p [] stBadParam 0 0 0)) ∧
  (∀ (ring : Ring) (s : State) (p : Pkt), Takes s ring 0x93 [(8, 1, 0), (16, 8, 0), (24, 8, 0)] p → p.b 8 1 = 2 →
    (s.tide.link = false →
      ∃ t, exec (.tideConfigCount ring) s = .next t ∧ Ends s t ring p [.tide] stOk 0 0 0 ∧
        t.tide = { s.tide with jump := some (p.b 16 8, p.b 24 8) } ∧ t.tideCount = s.tideCount ∧ t.tidePhase = s.tidePhase) ∧
    (s.tide.link = true →
      ∃ t, exec (.tideConfigCount ring) s = .next t ∧ Ends s t ring p [] stBadParam 0 0 0)) ∧
  (∀ (ring : Ring) (s : State) (p : Pkt), Takes s ring 0x93 [(8, 1, 0), (9, 1, 1), (10, 1, 0)] p → p.b 8 1 = 3 →
    ∃ t, exec (.tideConfigOutput ring) s = .next t ∧ Ends s t ring p [.tide] stOk 0 0 0 ∧
      t.tide = { s.tide with outEn := bitOf (p.b 9 1) 0, pinDelay := p.b 10 1 } ∧ t.tideCount = s.tideCount ∧
      t.tidePhase = s.tidePhase)

/-- The tide's ticks (R335, R336, R337), with no step pending and no count that form 2 left for the tick. A pin edge within
the window of the nominal period sets the phase to the compensation and adds 1 to the count; an edge outside it is rejected
and counted. A period that ends without an accepted source ticks, at phase 0. An edge that stays away is replaced by a tick,
counted. A marker of the selected port whose tide differs in the count is counted and steps the tide at the next tick. -/
def Obligations.TideTicksAndMarkers : Prop :=
  (∀ (s : State) (e : Nat), Canonical s → Runs s → s.tide.link = false → s.tide.freeRun = false → s.tide.freeRunning = false →
    s.tide.stepTo = none → s.tide.jump = none → s.tide.lastEdge = some e → s.tide.now ≤ e + s.tide.period + edgeWindow s →
    e + s.tide.period ≤ s.tide.now + edgeWindow s →
    ∃ t, exec .pinEdge s = .next t ∧ Only [.tide] s t ∧ t.tideCount = s.tideCount + 1 ∧ t.tidePhase = s.tide.pinDelay ∧
      t.tide.lastEdge = some s.tide.now ∧ t.tide.holdovers = 0 ∧ t.tide.cnt = bump s.tide.cnt 0 1 ∧ t.tide.sched = s.tide.sched) ∧
  (∀ (s : State) (e : Nat), Canonical s → Runs s → s.tide.link = false → s.tide.freeRun = false → s.tide.freeRunning = false →
    s.tide.lastEdge = some e →
    (e + s.tide.period + edgeWindow s < s.tide.now ∨ s.tide.now + edgeWindow s < e + s.tide.period) →
    ∃ t, exec .pinEdge s = .next t ∧ Only [.tide] s t ∧ t.tideCount = s.tideCount ∧ t.tidePhase = s.tidePhase ∧
      t.tide = { s.tide with accepts := 0, cnt := bump s.tide.cnt 1 1 }) ∧
  (∀ (s : State), Canonical s → Runs s → ownTicks s = true → s.tide.stepTo = none → s.tide.jump = none →
    Int.ofNat s.tide.period + s.tide.corr ≤ Int.ofNat s.tidePhase →
    ∃ t, exec .tideTick s = .next t ∧ Only [.tide] s t ∧ t.tideCount = s.tideCount + 1 ∧ t.tidePhase = 0 ∧
      t.tide.corr = s.tide.corrNext ∧ t.tide.sched = s.tide.sched) ∧
  (∀ (s : State) (e : Nat), Canonical s → Runs s → s.tide.link = false → s.tide.freeRun = false → s.tide.freeRunning = false →
    s.tide.stepTo = none → s.tide.jump = none → s.tide.lastEdge = some e → e + s.tide.period + edgeWindow s < s.tide.now →
    s.tide.holdovers < 15 →
    ∃ t, exec .holdover s = .next t ∧ Only [.tide] s t ∧ t.tideCount = s.tideCount + 1 ∧
      t.tide.holdovers = s.tide.holdovers + 1 ∧ t.tide.cnt = bump s.tide.cnt 2 1 ∧ t.tide.freeRunning = false ∧
      t.tide.sched = s.tide.sched) ∧
  (∀ (port : BitVec 3) (m : Marker) (rest : List Marker) (s : State), Canonical s → Runs s → s.tide.link = true →
    s.tide.freeRun = false → s.tide.freeRunning = false → s.tide.port = port.toNat →
    (s.lport port.toNat).markers = m :: rest → s.tide.stepTo = none → (markerDiff s m (s.lport port.toNat).delay).1 ≠ 0 →
    ∃ t, exec (.marker port) s = .next t ∧ Only [.tide, .links, .log, .vectors] s t ∧
      t.lport port.toNat = { s.lport port.toNat with markers := rest } ∧ t.tide.lastMarker = some s.tide.now ∧
      t.tide.upstreamFree = m.free ∧ t.tide.stepTo = some (markerDiff s m (s.lport port.toNat).delay) ∧
      t.tide.cnt = bump (bump s.tide.cnt 7 1) 4 1 ∧ t.tideCount = s.tideCount ∧ t.tidePhase = s.tidePhase)

/-- The firings of the schedule table (R341). A section start whose instant lies within its switch's lead joins the runs with
the entry's values, or is refused as SECTION_RUN would refuse it, in the context's completion ring. A gauge signal, the gauge's
words read clean or corrected, acts as GAUGE_SET on the context's gauge; on an unmapped one it is logged. A link window opens the
selected lanes of the windowed ports it names for its duration, and closes when that has passed. The entry goes on to its next
firing. -/
def Obligations.ScheduleFirings : Prop :=
  (∀ (i : BitVec 10) (s : State) (x : Sched), Canonical s → Runs s → aget? s.tide.sched i.toNat = some x → seAction x.bytes = 1 →
    (∀ o ∈ s.runs, ∀ e, o.sched = some e → e.1 = i.toNat → o.first ≠ none) →
    cyclesTo s (dueOf x.bytes x.next) ≤ Int.ofNat (switchLead s (firingRun s x.bytes i.toNat x.next)) →
    (firingRefused s (firingRun s x.bytes i.toNat x.next) = none →
      ∃ t, exec (.sectionStart i) s = .next t ∧ Only [.tide, .runs] s t ∧
        t.runs = s.runs ++ [firingRun s x.bytes i.toNat x.next] ∧ t.tide.sched = (fired s i.toNat x).tide.sched) ∧
    (∀ st, firingRefused s (firingRun s x.bytes i.toNat x.next) = some st →
      ∃ t, exec (.sectionStart i) s = .next t ∧ Only [.tide, .rings] s t ∧ t.tide.sched = (fired s i.toNat x).tide.sched ∧
        t.ring (seCtx x.bytes) = { s.ring (seCtx x.bytes) with
          replies := (s.ring (seCtx x.bytes)).replies ++ [(firingRun s x.bytes i.toNat x.next).reply st 0 0 0] })) ∧
  (∀ (i : BitVec 10) (c : Ecc) (s : State) (x : Sched), Canonical s → Runs s → aget? s.tide.sched i.toNat = some x →
    seAction x.bytes = 2 → c ≠ .uncorrectable →
    cyclesTo s (dueOf x.bytes x.next) ≤ 0 → -1 ≤ cyclesTo s (dueOf x.bytes x.next) →
    (∀ g, s.gaugeOf (seCtx x.bytes) (fld (leAt x.bytes 28 2) 0 11) = some g →
      ∃ t, exec (.gaugeSignal i c) s = .next t ∧ Only (.tide :: .gauges :: .census :: eccKinds c) s t ∧
        t.tide.sched = (fired s i.toNat x).tide.sched ∧
        (t.gauge g).value = (if leAt x.bytes 30 1 = 1 then BitVec.ofNat 32 (leAt x.bytes 32 4)
          else (s.gauge g).value + BitVec.ofNat 32 (leAt x.bytes 32 4)) ∧
        ∀ j, j ≠ g → t.gauge j = s.gauge j) ∧
    (s.gaugeOf (seCtx x.bytes) (fld (leAt x.bytes 28 2) 0 11) = none → c = .clean → s.log.queue.length < 64 →
      ∃ t, exec (.gaugeSignal i c) s = .next t ∧ Only [.tide, .log] s t ∧
        t.log.queue = s.log.queue ++ [⟨entryBytes s.tideCount.toNat s.tidePhase (some (seCtx x.bytes)) 0x3160 14 3 [], false⟩])) ∧
  (∀ (i : BitVec 10) (s : State) (x : Sched) (k l : Nat), Canonical s → Runs s → aget? s.tide.sched i.toNat = some x →
    seAction x.bytes = 3 → cyclesTo s (dueOf x.bytes x.next) ≤ 0 → -1 ≤ cyclesTo s (dueOf x.bytes x.next) → k < s.nports →
    l < 3 → bitOf (leAt x.bytes 28 1) k = true → windowed s k = true → bitOf (leAt x.bytes 29 1) l = true →
    ∃ t, exec (.linkWindow i) s = .next t ∧ Only [.tide, .links] s t ∧ t.tide.sched = (fired s i.toNat x).tide.sched ∧
      aget? (t.lport k).windows l = some (max (s.clk + leAt x.bytes 32 4) (agetD (s.lport k).windows l 0)) ∧
      ∀ j, (s.nports ≤ j ∨ bitOf (leAt x.bytes 28 1) j = false ∨ windowed s j = false) → t.lport j = s.lport j) ∧
  (∀ (s : State), Canonical s → Runs s →
    ∃ t, exec .linkWindowClose s = .next t ∧ Only [.links] s t ∧
      ∀ k, t.lport k = { s.lport k with windows := (s.lport k).windows.filter (fun w => s.clk < w.2) })

/-- ATTEST, OWNER_POLICY_SET and ZEROIZE (R405, R408, R416, Table 16.6). ATTEST writes the quote for its scope and signature,
uses one generate request, and is DENIED without a key. OWNER_POLICY_SET replaces the policy in force when every check passes,
and is DENIED when that policy is locked. ZEROIZE clears the key, at scope 1 and 2 the tile stores too, at scope 2 kills the
identity, and is BUSY at scope 1 and above while a polder exists. -/
def Obligations.SecurityCommands : Prop :=
  (∀ (ring : Ring) (s : State) (p : Pkt), Takes s ring 0xA0 [(8, 1, 1), (10, 1, 0), (16, 8, 0), (24, 32, 0), (56, 4, 0)] p →
    let scope := p.b 10 1
    let host := bitOf (p.b 8 1) 0
    let quote := quoteBody s scope (leBytes 32 (p.b 24 32)) ++ signature (Config.freeWord s.free)
    let len := 33696 + 48 * (quotedImages s scope).length
    (scope = 0xFE ∨ scope = 0xFF ∨ (scope < 64 ∧ s.ctxLive scope = true)) → s.sec.error = false →
    (s.sec.killed = false → s.sec.key = true → len ≤ p.b 56 4 → Open s host (p.b 16 8) quote.length →
      ∃ t, exec (.attest ring true) s = .next t ∧
        Ends s t ring p [.mem, .tiles, .security, .free, .log, .vectors] stOk len 0 0 ∧
        Stores s t host (p.b 16 8) quote ∧ t.sec = { s.sec.generate with quoted := true } ∧ t.free = s.free + 1) ∧
    ((s.sec.killed = true ∨ s.sec.key = false) →
      ∃ t, exec (.attest ring true) s = .next t ∧ Ends s t ring p [] stDenied 0 0 0)) ∧
  (∀ (ring : Ring) (s : State) (p : Pkt), Takes s ring 0xA2 [(8, 208, 0)] p →
    (bitOf (leAt s.sec.policy 8 1) 3 = false → policyOk p = true →
      s.images.all (satisfiesPolicy s { s.sec with policy := p.par }) = true →
      ∃ t, exec (.ownerPolicySet ring) s = .next t ∧ Ends s t ring p [.security, .log, .vectors] stOk 0 0 0 ∧
        t.sec = { s.sec with
          policy := p.par, debugLock := s.sec.debugLock || bitOf (leAt p.par 8 1) 2
          quoted := s.sec.quoted && !bitOf (leAt p.par 8 1) 1 }) ∧
    (bitOf (leAt s.sec.policy 8 1) 3 = true →
      ∃ t, exec (.ownerPolicySet ring) s = .next t ∧ Ends s t ring p [.log, .vectors] stDenied 0 0 0)) ∧
  (∀ (ring : Ring) (s : State) (p : Pkt),
    Takes s ring 0xA3 (if p.b 8 1 == 2 then [(8, 1, 0), (9, 1, 0)] else [(8, 1, 0)]) p → p.b 8 1 ≤ 2 →
    (p.b 8 1 = 2 → p.b 9 1 = 0xA5) →
    (p.b 8 1 = 0 ∨ s.polders = [] →
      ∃ t, exec (.zeroize ring) s = .next t ∧ Ends s t ring p [.mem, .security, .log, .vectors] stOk 0 0 0 ∧
        t.sec = { s.sec with key := false, drbgCount := 0, killed := s.sec.killed || p.b 8 1 == 2 } ∧
        (p.b 8 1 = 0 → t.mem = s.mem) ∧
        (1 ≤ p.b 8 1 → (∀ a, a < 1088 * 2 ^ 24 → t.mem.byte a = 0) ∧
          ∀ u a, u < 16 → s.memOn u = true → unitBase u ≤ a →
            a < unitBase u + (if u < 8 then 2 ^ 37 else 2 ^ 38) → t.mem.byte a = 0)) ∧
    (1 ≤ p.b 8 1 → s.polders ≠ [] →
      ∃ t, exec (.zeroize ring) s = .next t ∧ Ends s t ring p [] stBusy 0 0 0))

/-- Firmware (R399-R403, Table 16.4). FW_UPDATE reads the image and checks it: one that passes goes to the bank that the rules
choose, which is then preferred, and a commit raises the security version to the image's where that is higher; one that fails
a check is refused with that check in r0. Without a flash device nothing changes. MAILBOX_GO, while the ROM waits, starts the
image that passes, or records the check that fails. -/
def Obligations.FirmwareImages : Prop :=
  (∀ (ring : Ring) (sigOk : Bool) (s : State) (p : Pkt), Takes s ring 0xA1 [(8, 1, 3), (16, 8, 0), (24, 4, 0)] p →
    let host := bitOf (p.b 8 1) 0
    let a := p.b 16 8
    let len := p.b 24 4
    let x := fwParse (fun o n => s.anyRead host (a + o) n) len (!s.anyPoison host a len) sigOk
    s.sec.error = false →
    (s.power.board.flash = true → Open s host a len →
      ∃ t, exec (.fwUpdate ring sigOk) s = .next t ∧
        (fwFails s x = 0 → Ends s t ring p [.security, .log, .vectors] stOk (updateBank s) 0 0 ∧
          t.sec = { s.sec with
            bank := aput s.sec.bank (updateBank s) x, preferred := updateBank s
            svn := if bitOf (p.b 8 1) 1 ∧ s.sec.svn < x.svn.toNat then x.svn.toNat else s.sec.svn }) ∧
        ∀ k, fwFails s x = k → k ≠ 0 →
          Ends s t ring p [] (if 3 ≤ k ∧ k ≤ 5 then stImageSignature else stImageIdentity) k 0 0) ∧
    (s.power.board.flash = false →
      ∃ t, exec (.fwUpdate ring sigOk) s = .next t ∧ Ends s t ring p [] stNoResource 0 0 0)) ∧
  (∀ (sigOk : Bool) (s : State), Canonical s → Runs s →
    let a := s.sec.mboxAddr.toNat
    let len := s.sec.mboxLen.toNat
    let x := fwParse (fun o n => s.hostRead (a + o) n) len (hostUp s && !s.hostPoison a len) sigOk
    (s.sec.awaitFw = true →
      ∃ t, exec (.mailboxGo sigOk) s = .next t ∧ Only [.security, .log, .vectors] s t ∧
        (fwFails s x = 0 → t.sec = { s.sec with
          failM := 0, source := 2, measFw := x.measurement, fwVersion := x.version, awaitFw := false, running := true }) ∧
        ∀ k, fwFails s x = k → k ≠ 0 → t.sec = { s.sec with failM := k } ∧ t.log = s.log) ∧
    (s.sec.awaitFw = false → ∃ t, exec (.mailboxGo sigOk) s = .next t ∧ Only [] s t))

/-- Self-tests, debug and the reset of the fabric (R6, R311, R411, R413, R414). An entropy health test that fails puts an engine
that passed its power-up tests into its error state, with code 7. JTAG answers BYPASS and IDCODE on every part, on the clock
or not, and nothing else where debug is closed. Where it is open, the model's JTAG read gives the register as the host reads it, and
its JTAG write acts as a host's write, the security engine's block excepted (the model's choice, log 61); an instruction code that
the spec does not give is refused by name. FABRIC_RESET ends every command, resets the fabric, and replies OK. -/
def Obligations.SelfTestsJtagAndReset : Prop :=
  (∀ (s : State), Canonical s → Runs s → s.sec.passed = true → s.sec.error = false →
    ∃ t, exec .entropyHealthTestFailure s = .next t ∧ Only [.security, .log, .vectors] s t ∧
      t.sec = { s.sec with error := true, code := 7 }) ∧
  (∀ (s : State), Canonical s →
    (∃ t, exec (.jtagAccess .bypass) s = .next t ∧ Only [.power] s t ∧ t.power = { s.power with jtag := some 0 }) ∧
    (∃ t, exec (.jtagAccess .idcode) s = .next t ∧ Only [.power] s t ∧
      t.power = { s.power with jtag := some Config.idcode.toNat }) ∧
    ((s.part.debugOpen = false ∨ s.sec.debugLock = true) →
      (∀ (bar2 : Bool) (off : BitVec 26), ∃ t, exec (.jtagAccess (.peek bar2 off)) s = .next t ∧ Only [.power] s t ∧
        t.power = { s.power with jtag := none }) ∧
      (∀ (bar2 : Bool) (off : BitVec 26) (v : W32), ∃ t, exec (.jtagAccess (.poke bar2 off v)) s = .next t ∧ Only [.power] s t ∧
        t.power = { s.power with jtag := none }) ∧
      ∀ n, ∃ t, exec (.jtagAccess (.other n)) s = .next t ∧ Only [.power] s t ∧ t.power = { s.power with jtag := none }) ∧
    (s.part.debugOpen = true → s.sec.debugLock = false →
      (∀ (bar2 : Bool) (off : BitVec 26), inSecurity bar2 off.toNat = false →
        ∃ t, exec (.jtagAccess (.peek bar2 off)) s = .next t ∧ Only [.power] s t ∧
          t.power = { s.power with jtag := some (barRead s bar2 off.toNat false) }) ∧
      (∀ (off : BitVec 26) (v : W32) (key sh mask : Nat), off.toNat % 4 = 0 → inSecurity false off.toNat = false →
        rwWord s off.toNat = some (key, sh, mask) → badValue off.toNat v.toNat = false →
        ¬ (0x8000 ≤ off.toNat ∧ off.toNat < 0x8480 ∧ off.toNat % 16 = 12) →
        ∃ t, exec (.jtagAccess (.poke false off v)) s = .next t ∧ Only [.registers, .power] s t ∧
          (∀ o, o ≠ key → t.reg o = s.reg o) ∧
          ∀ i, i < 64 → (t.reg key).getLsbD i =
            if sh ≤ i ∧ i < sh + 32 ∧ mask.testBit (i - sh) = true then v.getLsbD (i - sh) else (s.reg key).getLsbD i) ∧
      ∀ n, exec (.jtagAccess (.other n)) s = .refused .jtagDebug)) ∧
  (∀ (ring : Ring) (s : State) (p : Pkt), Takes s ring 0xF0 [] p →
    ∃ t, exec (.fabricReset ring) s = .next t ∧ Swept s t ∧ Only sweptKinds s t ∧
      (t.ring (ringNo ring)).head = (s.ring (ringNo ring)).head + 1 ∧
      ∃ l, (t.ring (ringNo ring)).replies = l ++ [(p.cmd []).reply stOk 0 0 0])

/-- A ring's counts as the host writes them (R295, R299, R300, R303). A write of tail and cpl_head reaches the control line
and is observed; with more commands posted than the ring has entries the ring halts; a halted ring only observes. Setting
CP_CTL.enable, once the part is ready, gives the privileged ring the values of its registers, and halts it where they break
the placement rules; clearing it disables the ring. A bit written to CP_HALT resumes a halted ring whose context lives and
whose causes are gone, from its counts. -/
def Obligations.RingsObservedAndResumed : Prop :=
  (∀ (ring : Ring) (tail cplHead : W32) (s : State) (pa : Nat), Canonical s → Runs s →
    let r := ringNo ring
    let x := s.ring r
    (aget? s.rings r).isSome = true → x.enabled = true → hostUp s = true → x.line.toNat % 64 = 0 →
    s.place x.line.toNat = some pa → tileAt x.line.toNat = none →
    ∃ t, exec (.tailWriteObserved ring tail cplHead) s = .next t ∧ Only [.rings, .mem, .snoops, .log, .vectors] s t ∧
      t.mem.read pa 8 = leBytes 4 tail.toNat ++ leBytes 4 cplHead.toNat ∧
      (∀ a, a < pa ∨ pa + 8 ≤ a → t.mem.byte a = s.mem.byte a) ∧
      (t.ring r).tail = tail ∧ (t.ring r).cplHead = cplHead ∧
      (x.halted = true → t.ring r = { x with tail := tail, cplHead := cplHead }) ∧
      (x.entries < (tail - x.head).toNat → t.ring r = { x with tail := tail, cplHead := cplHead, halted := true }) ∧
      ∀ q, q ≠ r → t.ring q = s.ring q) ∧
  (∀ (v : W32) (s : State), Canonical s → Runs s → s.ready = true →
    let x := s.ring privRing
    (v.getLsbD 0 = true → x.enabled = false → x.halted = false → x.tail = x.head → x.cplTail = x.cplHead →
      privPlaced s (privFromRegs s) = true → ringReads (s.setRing privRing (privFromRegs s)) privRing = true →
      ∃ t, exec (.cpCtlWrite v) s = .next t ∧ Only [.rings] s t ∧ t.ring privRing = privFromRegs s ∧
        ∀ q, q ≠ privRing → t.ring q = s.ring q) ∧
    (v.getLsbD 0 = true → x.enabled = false → privPlaced s (privFromRegs s) = false →
      ∃ t, exec (.cpCtlWrite v) s = .next t ∧ Only [.rings] s t ∧ t.ring privRing = { privFromRegs s with halted := true } ∧
        ∀ q, q ≠ privRing → t.ring q = s.ring q) ∧
    (v.getLsbD 0 = false → x.enabled = true →
      ∃ t, exec (.cpCtlWrite v) s = .next t ∧ Only [.rings] s t ∧ t.ring privRing = { x with enabled := false } ∧
        ∀ q, q ≠ privRing → t.ring q = s.ring q)) ∧
  (∀ (c : Nat) (s : State), Canonical s → Runs s → c < 64 → (aget? s.rings c).isSome = true → s.ctxLive c = true →
    let x := s.ring c
    x.halted = true → x.enabled = true → x.tail = x.head → x.unread ≤ x.cplEntries → ringReads s c = true →
    ∃ t, exec (.cpHaltResume false (BitVec.ofNat 64 (2 ^ c))) s = .next t ∧ Only [.rings] s t ∧
      t.ring c = { x with halted := false } ∧ ∀ q, q ≠ c → t.ring q = s.ring q)

/-- Replies and their vectors (R301, R303, R314). The next reply is one write of 32 bytes at its place of the completion ring,
with its phase, and raises its ring's vector when it asks or its status is not OK, DEFERRED or SKIPPED; the OK reply of an
IMAGE_STAGE makes its handle usable (R309); a write that the host ends with an error halts the ring, and the reply stays. The weirs
of the context's polder hold nothing. The end of a coalescing interval sends what has waited as one message. -/
def Obligations.RepliesAndVectors : Prop :=
  (∀ (ring : Ring) (s : State) (y : Reply), Canonical s → Runs s → nextReply s (ringNo ring) = some y →
    let r := ringNo ring
    let x := s.ring r
    let at_ := x.cpl.toNat + 32 * (x.cplTail.toNat % x.cplEntries)
    Unheld s y.ctx →
    (x.tail = x.head →
      ∃ t, exec (.replyWrite ring false) s = .next t ∧ Only [.rings, .mem, .snoops, .vectors, .images] s t ∧
        t.mem.read (hostBase + at_) 32 = replyBytes y x.cplTail.toNat x.cplEntries ∧
        (∀ a, a < hostBase + at_ ∨ hostBase + at_ + 32 ≤ a → t.mem.byte a = s.mem.byte a) ∧
        (t.ring r).replies = x.replies.erase y ∧ (t.ring r).cplTail = x.cplTail + 1 ∧ (t.ring r).head = x.head ∧
        t.images = (if y.opcode = 0x30 ∧ y.status = stOk then readyImage r y s.images else s.images) ∧
        (∀ q, q ≠ r → t.ring q = s.ring q) ∧
        (y.raises = true → x.coalesce = 0 → (s.reg (0x8000 + 16 * ringVector r + 12)).getLsbD 0 = false →
          t.host.vecSent = ringVector r :: s.host.vecSent) ∧
        (y.raises = false → t.host.vecSent = s.host.vecSent)) ∧
    (s.devFault = false →
      ∃ t, exec (.replyWrite ring true) s = .next t ∧ Only [.rings, .log, .vectors] s t ∧
        t.ring r = { x with halted := true } ∧ ∀ q, q ≠ r → t.ring q = s.ring q)) ∧
  (∀ (ring : Ring) (s : State) (d : Nat), Canonical s → Runs s → (s.ring (ringNo ring)).vecDue = some d → d ≤ s.clk →
    ∃ t, exec (.msixCoalesceExpiry ring) s = .next t ∧ Only [.rings, .vectors] s t ∧
      t.ring (ringNo ring) = { s.ring (ringNo ring) with vecDue := none, vecWant := false } ∧
      (∀ q, q ≠ ringNo ring → t.ring q = s.ring q) ∧
      ((s.ring (ringNo ring)).vecWant = true → (s.reg (0x8000 + 16 * ringVector (ringNo ring) + 12)).getLsbD 0 = false →
        t.host.vecSent = ringVector (ringNo ring) :: s.host.vecSent) ∧
      ((s.ring (ringNo ring)).vecWant = false → t.host.vecSent = s.host.vecSent))

/-- Registers that act when they are written or read (R59, R209, R263, R277, R297, R298, Table 13.7). The landing area of the
command processor is set, whole or one half of its base at a time (R18), while no bundle is landing, and else waits for the
landing's end. A pump's control register takes shares that sum to 16, and keeps its own, with its error bit, where they do
not. A segment entry takes a value that the rules allow while no polder exists, and else sets the error bit. GAUGE_SEL takes
a snapshot of its gauge; CTX_GAUGE gives a bound gauge's value, and 0 otherwise; the gauge's words are read clean or
corrected. Reading the tide count, or a half of it, latches the phase. The tile window halts, at the step that it names too,
resumes and single-steps a sequencer. Any other register word takes the bits of its mask, or keeps them where the value is
one the spec forbids; CTX_TILE_BASE of an existing context takes what is written, a value that is no multiple of 128 too (the
model's choice, log 62). -/
def Obligations.RegistersThatAct : Prop :=
  (∀ (v : W64) (s : State), Canonical s → Runs s → landing s = false →
    (∃ t, exec (.cpLandWrite false v) s = .next t ∧ Only [.registers] s t ∧ t.reg 0x10038 = BitVec.ofNat 64 (v.toNat % 2 ^ 48) ∧
      ∀ o, o ≠ 0x10038 → t.reg o = s.reg o) ∧
    (∃ t, exec (.cpLandWrite true v) s = .next t ∧ Only [.registers] s t ∧ t.reg 0x10040 = BitVec.ofNat 64 (v.toNat % 2 ^ 20) ∧
      ∀ o, o ≠ 0x10040 → t.reg o = s.reg o)) ∧
  (∀ (v : W32) (high : Bool) (s : State), Canonical s → Runs s → hostUp s = true → landing s = false →
    ∃ t, exec (.registerWrite false (if high then 0x1003C else 0x10038) false (v.setWidth 64)) s = .next t ∧ Only [.registers] s t ∧
      (∀ o, o ≠ 0x10038 → t.reg o = s.reg o) ∧
      ∀ i, i < 64 → (t.reg 0x10038).getLsbD i =
        (decide (i < 48) && if (if high then 32 ≤ i else i < 32) then v.getLsbD (i % 32) else (s.reg 0x10038).getLsbD i)) ∧
  (∀ (v : W64) (s : State), Canonical s → Runs s → landing s = true →
    ∃ t, exec (.cpLandWrite false v) s = .next t ∧ Only [.links] s t ∧
      t.links = { s.links with landBase := some (BitVec.ofNat 64 (v.toNat % 2 ^ 48)) }) ∧
  (∀ (pump : BitVec 6) (v : W32) (s : State), Canonical s → Runs s → s.pumpPresent pump.toNat = true →
    let off := 0x205000 + 4 * pump.toNat
    let old := (s.reg off).toNat
    ∃ t, exec (.pumpCtlWrite pump v) s = .next t ∧ Only [.registers] s t ∧ (∀ o, o ≠ off → t.reg o = s.reg o) ∧
      (fld v.toNat 1 4 + fld v.toNat 5 4 + fld v.toNat 9 4 = 16 → t.reg off = BitVec.ofNat 64 (fld v.toNat 0 13 +
        (if bitOf old 13 = true ∧ bitOf v.toNat 13 = false then 2 ^ 13 else 0))) ∧
      (fld v.toNat 1 4 + fld v.toNat 5 4 + fld v.toNat 9 4 ≠ 16 → t.reg off = BitVec.ofNat 64 (fld old 0 13 + 2 ^ 13))) ∧
  (∀ (lp5x : Bool) (k : BitVec 6) (v : W32) (s : State), Canonical s → Runs s →
    let tier := if lp5x then 1 else 0
    let w := fld v.toNat 0 5
    let segs := awrite 0 s.ms.segs (64 * tier + k.toNat) (BitVec.ofNat 5 w)
    ((s.polders = [] ∧ fld w 0 2 ≠ 3 ∧ (fld w 0 2 = 2 → s.memOn (8 * tier + fld w 2 3) = true) ∧
        segsFit { s with ms := { s.ms with segs := segs } } tier = true) →
      ∃ t, exec (.segmentWrite lp5x k v) s = .next t ∧ Only [.segments] s t ∧ t.ms.segs = segs ∧ t.ms.segErr = s.ms.segErr) ∧
    ((s.polders ≠ [] ∨ fld w 0 2 = 3 ∨ (fld w 0 2 = 2 ∧ s.memOn (8 * tier + fld w 2 3) = false) ∨
        segsFit { s with ms := { s.ms with segs := segs } } tier = false) →
      ∃ t, exec (.segmentWrite lp5x k v) s = .next t ∧ Only [.segments] s t ∧ t.ms.segs = s.ms.segs ∧ t.ms.segErr = true)) ∧
  (∀ (v : W32) (e : Ecc) (s : State), Canonical s → Runs s → e ≠ .uncorrectable →
    let b := fld v.toNat 0 15 / 4096
    ∃ t, exec (.gaugeSelWrite v e) s = .next t ∧ Only (.gauges :: eccKinds e) s t ∧ t.gauges.gauges = s.gauges.gauges ∧
      t.gauges.sel.toNat = fld v.toNat 0 15 ∧
      (present s b = true → b < 5 → t.gauges.snap = gaugeSnap s (fld v.toNat 0 15)) ∧
      ((present s b = false ∨ 5 ≤ b) → t.gauges.snap = [])) ∧
  (∀ (ctx : BitVec 6) (vid : BitVec 11) (e : Ecc) (s : State), Canonical s → Runs s → e ≠ .uncorrectable →
    ∃ t, exec (.ctxGaugeRead ctx vid e) s = .next t ∧ Only (.answer :: eccKinds e) s t ∧
      (∀ g, (aget? s.ctxs ctx.toNat).isSome = true → s.gaugeOf ctx.toNat vid.toNat = some g →
        t.host.answer.value.toNat = (s.gauge g).value.toNat) ∧
      ((aget? s.ctxs ctx.toNat = none ∨ s.gaugeOf ctx.toNat vid.toNat = none) → t.host.answer.value = 0)) ∧
  (∀ (h : Option Bool) (s : State), Canonical s → Runs s →
    ∃ t, exec (.tideCountRead h) s = .next t ∧ Only [.tide, .answer] s t ∧
      t.host.answer.value.toNat = (match h with
        | none => s.tideCount.toNat
        | some false => s.tideCount.toNat % 2 ^ 32
        | some true => s.tideCount.toNat / 2 ^ 32) ∧
      t.tide = { s.tide with latched := s.tidePhase } ∧ t.tideCount = s.tideCount ∧ t.tidePhase = s.tidePhase) ∧
  (∀ (p : BitVec 11) (v : W32) (s : State), Canonical s → Runs s → windowOpen s p.toNat = true →
    ∃ t, exec (.halt p v) s = .next t ∧ Only [.tiles] s t ∧ (∀ n, n ≠ p.toNat → t.tile n = s.tile n) ∧
      (t.tile p.toNat).seq.halt = v.getLsbD 0 ∧ (t.tile p.toNat).seq.breakEn = v.getLsbD 2 ∧
      (v.getLsbD 0 = true → (s.tile p.toNat).seq.st = .running → (t.tile p.toNat).seq.st = .halted) ∧
      (v.getLsbD 2 = true → fld v.toNat 3 10 = (s.tile p.toNat).seq.idx.toNat → (s.tile p.toNat).seq.st = .running →
        (t.tile p.toNat).seq.st = .halted) ∧
      (v.getLsbD 0 = false → (s.tile p.toNat).seq.st = .halted → (t.tile p.toNat).seq.st = .running)) ∧
  (∀ (p : BitVec 11) (s : State), Canonical s → Runs s → windowOpen s p.toNat = true → (s.tile p.toNat).seq.st = .halted →
    ∃ t, exec (.step p) s = .next t ∧ Only [.tiles] s t ∧ (∀ n, n ≠ p.toNat → t.tile n = s.tile n) ∧
      t.tile p.toNat = { s.tile p.toNat with seq := { (s.tile p.toNat).seq with st := .running, stepOne := true } }) ∧
  (∀ (off : BitVec 26) (v : W64) (s : State) (key sh mask : Nat), Canonical s → Runs s → hostUp s = true → off.toNat % 4 = 0 →
    rwWord s off.toNat = some (key, sh, mask) → ¬ (0x8000 ≤ off.toNat ∧ off.toNat < 0x8480 ∧ off.toNat % 16 = 12) →
    (badValue off.toNat (fld v.toNat 0 32) = false →
      ∃ t, exec (.registerWrite false off false v) s = .next t ∧ Only [.registers] s t ∧ (∀ o, o ≠ key → t.reg o = s.reg o) ∧
        ∀ i, i < 64 → (t.reg key).getLsbD i =
          if sh ≤ i ∧ i < sh + 32 ∧ mask.testBit (i - sh) = true then v.getLsbD (i - sh) else (s.reg key).getLsbD i) ∧
    (badValue off.toNat (fld v.toNat 0 32) = true →
      ∃ t, exec (.registerWrite false off false v) s = .next t ∧ Only [] s t)) ∧
  (∀ (off : BitVec 26) (v : W64) (s : State) (c : Context), Canonical s → Runs s → hostUp s = true → off.toNat % 4 = 0 →
    off.toNat % 0x10000 = 0x10 → aget? s.ctxs (off.toNat / 0x10000) = some c →
    ∃ t, exec (.registerWrite true off false v) s = .next t ∧ Only [.contexts] s t ∧
      aget? t.ctxs (off.toNat / 0x10000) = some { c with tileBase := BitVec.ofNat 10 (fld v.toNat 0 32) } ∧
      ∀ k, k ≠ off.toNat / 0x10000 → aget? t.ctxs k = aget? s.ctxs k)

/-- The host's view of device memory, and its link (R136, R137, R153, R260, R292-R295). A decoder commits when base, size and
target are multiples of 256 MB, the size is not 0 and the target range lies inside one range of the map; else it does not. A
read of a populated line brings its bytes and its poison, and the host holds the line from then on; an unpopulated line reads
as zeros with poison and is counted. Bits found flipped are handled first, and the read brings what the check code then
delivers. A write changes the bytes enabled and no other; it is poisoned when its data is, or when it writes a part of a
poisoned word. A write of a ring's control line is observed. Behind no decoder, and with the link down, nothing happens. A
recovery that the link reports is logged; a link that goes down is a device fault; a host's snoop finds nothing to change. -/
def Obligations.HostMemoryAndLink : Prop :=
  (∀ (i : BitVec 3) (base size : W64) (s : State), Canonical s → Runs s →
    let g := 2 ^ 28
    let good := base.toNat % g = 0 ∧ size.toNat % g = 0 ∧ hdmTarget s i.toNat % g = 0 ∧ size ≠ 0 ∧
      insideOneRange (hdmTarget s i.toNat) size.toNat = true
    (good → ∃ t, exec (.hdmDecoderCommit i base size) s = .next t ∧ Only [.hdm] s t ∧
      t.host.hdm = s.host.hdm.set i.toNat ⟨base, size, true, false⟩) ∧
    (¬ good → ∃ t, exec (.hdmDecoderCommit i base size) s = .next t ∧ Only [.hdm] s t ∧
      t.host.hdm = s.host.hdm.set i.toNat ⟨base, size, false, true⟩)) ∧
  (∀ (addr : W64) (s : State) (a : Nat), Canonical s → Runs s → hostUp s = true → hdmAddr s (addr.toNat / 64 * 64) = some a →
    a % 64 = 0 →
    (∀ (flips : Option Flips) (pa : Nat), s.place a = some pa → closedTile s a 64 = none →
      let u := errorAt s a 64 flips
      ∃ t, exec (.hostMemoryAccess addr .read flips) s = .next t ∧
        t.host.answer = ⟨BitVec.ofNat 512 (leNat (u.devRead a 64)), u.devPoison a 64⟩ ∧
        (flips = none → Only [.answer, .snoops] s t ∧ aget? t.host.hostLines (pa / 64) = some a ∧
          t.host.snooped = s.host.snooped)) ∧
    (∀ flips : Option Flips, s.place a = none →
      ∃ t, exec (.hostMemoryAccess addr .read flips) s = .next t ∧ Only [.answer, .unpopulated, .log] s t ∧
        t.host.answer = ⟨0, true⟩ ∧ t.ms.unpop = sat32 s.ms.unpop 1) ∧
    (∀ (enables : BitVec 64) (line : BitVec 512) (poison : Bool) (flips : Option Flips) (pa : Nat), s.place a = some pa →
      closedTile s a 64 = none → enables ≠ 0 → (enables = BitVec.allOnes 64 ∨ flips = none) →
      (ringsAt s a = [] →
        ∃ t, exec (.hostMemoryAccess addr (.write enables line poison) flips) s = .next t ∧ Only [.mem, .tiles] s t ∧
          t.mem.read pa 64 = mergeLine (s.devRead a 64) enables line ∧
          (∀ x, x < pa ∨ pa + 64 ≤ x → t.mem.byte x = s.mem.byte x) ∧
          (pa % 64 = 0 →
            t.mem.marked (pa / 64) = (poison || (decide (enables ≠ BitVec.allOnes 64) && s.mem.marked (pa / 64))))) ∧
      (∀ r, ringsAt s a = [r] → (aget? s.rings r).isSome = true → (s.ring r).enabled = true → (s.ring r).halted = true →
        (s.ring r).line.toNat % 64 = 0 →
        let bytes := mergeLine (s.devRead a 64) enables line
        ∃ t, exec (.hostMemoryAccess addr (.write enables line poison) flips) s = .next t ∧
          Only [.mem, .tiles, .rings, .snoops] s t ∧
          t.mem.read pa 64 = bytes ∧
          t.ring r = { s.ring r with
            tail := BitVec.ofNat 32 (leAt bytes 0 4), cplHead := BitVec.ofNat 32 (leAt bytes 4 4) })) ∧
    (∀ (line : BitVec 512) (poison : Bool) (flips : Option Flips) (pa : Nat), s.place a = some pa → closedTile s a 64 = none →
      ringsAt s a = [] →
      ∃ t, exec (.hostMemoryAccess addr (.write 0 line poison) flips) s = .next t ∧ Only [] s t)) ∧
  (∀ (addr : W64) (op : HostOp) (flips : Option Flips) (s : State), Canonical s →
    (hostUp s = false ∨ s.stopped = true ∨ hdmAddr s (addr.toNat / 64 * 64) = none) →
    ∃ t, exec (.hostMemoryAccess addr op flips) s = .next t ∧ Only [] s t) ∧
  (∀ (s : State), Canonical s → Runs s → s.host.link = .up →
    ∃ t, exec .hostLinkRecovery s = .next t ∧ Only [.hostLink, .log] s t ∧ t.host.link = .recovered ∧
      (s.log.queue.length < 64 →
        t.log.queue = s.log.queue ++ [⟨entryBytes s.tideCount.toNat s.tidePhase none 0x1201 14 7 [], false⟩])) ∧
  (∀ (s : State), Canonical s → Runs s → hostUp s = true →
    ∃ t, exec .hostLinkDown s = .next t ∧ DeviceFaulted s t 0x5201 ∧ t.host.link = .down ∧ t.mem = s.mem) ∧
  (∀ (addr : W64) (s : State), Canonical s → Runs s → ∃ t, exec (.hostSnoop addr) s = .next t ∧ Only [] s t)

/-- PERST_N, the boot, and READY (R262, R389, R398, R399, R401, R404, R412, R418, R420, R422). The assertion leaves fuses,
flash, the board's pins and host memory, and puts all else at reset. The release, with every power-good input as it should be,
trains the host link where the host does, or raises FAULT_N; a self-test that fails is recorded with its code and starts no
firmware; after the tests the ROM starts the preferred bank's image when it passes, and waits for a mailbox where there is no
flash. An input of the hub that is missing stops the device. READY sets the segments and the level of the units in service. -/
def Obligations.ResetAndBoot : Prop :=
  (∀ s : State, Canonical s → s.power.perst = false →
    ∃ t, exec .perstNAssert s = .next t ∧ t.pending = s.pending ∧ t.part = s.part ∧
      (∀ k, k ∉ [Kind.mem, Kind.security, Kind.power, Kind.free] → k.same State.reset t) ∧ Kind.free.same s t ∧
      (∀ a, a < hostBase → t.mem.byte a = 0) ∧ (∀ a, hostBase ≤ a → t.mem.byte a = s.mem.byte a) ∧
      t.sec = { Security.reset with
        svn := s.sec.svn, killed := s.sec.killed, bank := s.sec.bank, preferred := s.sec.preferred } ∧
      t.power = { Power.reset with
        pg := s.power.pg, order := s.power.order, trip := s.power.trip, stopped := s.power.stopped, board := s.power.board }) ∧
  (∀ (b : Board) (s : State), Canonical s → s.power.perst = true →
    (pgBad s 0 = true ∨ pgBad s 2 = true →
      ∃ t, exec (.perstNRelease b) s = .next t ∧ Only [.power] s t ∧
        t.power = { s.power with perst := false, board := b, stopped := true }) ∧
    (s.power.trip = false → (∀ i, i < 11 → pgBad s i = false) →
      (1 ≤ b.selfTest.toNat ∧ b.selfTest.toNat ≤ 5 →
        ∃ t, exec (.perstNRelease b) s = .next t ∧ Only [.power, .security, .hostLink, .log, .vectors] s t ∧
          t.sec = { s.sec with passed := false, code := b.selfTest.toNat } ∧ t.power.faultN = true) ∧
      (b.selfTest.toNat = 0 → b.flash = false →
        ∃ t, exec (.perstNRelease b) s = .next t ∧ Only [.power, .security, .hostLink] s t ∧
          t.host.link = (if b.hostTrains then .up else s.host.link) ∧
          t.power = { s.power with
            perst := false, board := b, stopped := false, faultN := s.power.faultN || !b.hostTrains } ∧
          t.sec = { s.sec with passed := true, key := !s.sec.killed, noflash := true, awaitFw := true }) ∧
      (∀ x, b.selfTest.toNat = 0 → b.flash = true → aget? s.sec.bank (s.sec.preferred % 2) = some x → fwFails s x = 0 →
        s.sec.running = false →
        ∃ t, exec (.perstNRelease b) s = .next t ∧ Only [.power, .security, .hostLink, .log, .vectors] s t ∧
          t.host.link = (if b.hostTrains then .up else s.host.link) ∧
          t.power = { s.power with
            perst := false, board := b, stopped := false, faultN := s.power.faultN || !b.hostTrains } ∧
          t.sec = { s.sec with
            passed := true, key := !s.sec.killed, source := s.sec.preferred % 2, measFw := x.measurement
            fwVersion := x.version, awaitFw := false, running := true }))) ∧
  (∀ s : State, Canonical s → Runs s → s.sec.running = true → s.ready = false → s.devFault = false →
    ∃ t, exec .ready s = .next t ∧
      Only [.tiles, .displaced, .mem, .units, .memUnits, .segments, .power, .status, .log, .vectors, .snoops] s t ∧
      t.ready = true ∧ t.devFault = false ∧
      t.power.level = (if hostUp s = true ∧ s.sec.passed = true then unitLevel t else 0) ∧
      t.power.faultN = (s.power.faultN || decide (t.power.level = 0)) ∧
      t.ms.units = (bootMemory (bootDies s)).ms.units ∧
      t.ms.segs = (defaultSegs (defaultSegs (bootMemory (bootDies s)) 0) 1).ms.segs)

/-- The other pins (R418, R419, R425, R429, Tables 17.3 and 17.9). A power-good input that rises is recorded behind those that
rose before; one that is lost stops the device when it is the monitor's or the hub's, and is a device fault of any other in
service. The loss of the reference clock is a device fault. THERMTRIP is asserted while VDD_IO stands, and the hub's clock
stops with it. Heat and telemetry (R428, R430-R432). A sample reads the sensors that are present, and the skip ratio follows
the hottest of them: up by one while a limit is passed, down by one while both are well below theirs. A droop skips 64 cycles.
Telemetry answers with the word asked for, or does not acknowledge; a rail's poll keeps what its regulator says. -/
def Obligations.PowerPinsHeatTelemetry : Prop :=
  ((∀ (i : BitVec 4) (s : State), Canonical s → i.toNat ≤ 10 → bitOf s.power.pg i.toNat = false →
     ∃ t, exec (.powerGoodRise i) s = .next t ∧ Only [.power] s t ∧
       t.power = { s.power with
         pg := putBit s.power.pg i.toNat true, order := s.power.order.filter (· != i.toNat) ++ [i.toNat] }) ∧
   (∀ (i : BitVec 4) (s : State), Canonical s → i.toNat ≤ 10 → bitOf s.power.pg i.toNat = true →
     let pg := putBit s.power.pg i.toNat false
     let order := s.power.order.filter (· != i.toNat)
     (i.toNat = 0 →
       ∃ t, exec (.powerGoodLoss i) s = .next t ∧ Only [.power] s t ∧
         t.power = { s.power with pg := pg, order := [], trip := false, stopped := true }) ∧
     (i.toNat = 2 →
       ∃ t, exec (.powerGoodLoss i) s = .next t ∧ Only [.power] s t ∧
         t.power = { s.power with pg := pg, order := order, stopped := true }) ∧
     (i.toNat ≠ 0 → i.toNat ≠ 2 → (s.stopped = true ∨ pgIgnored s i.toNat = true) →
       ∃ t, exec (.powerGoodLoss i) s = .next t ∧ Only [.power] s t ∧ t.power = { s.power with pg := pg, order := order }) ∧
     (i.toNat ≠ 0 → i.toNat ≠ 2 → s.stopped = false → pgIgnored s i.toNat = false →
       ∃ t, exec (.powerGoodLoss i) s = .next t ∧ t.devFault = true ∧ SameBytes s t ∧
         (∀ r, (t.ring r).accepted = []) ∧ (∀ e ∈ t.rings, e.2.halted = true) ∧
         t.power = { s.power with
           pg := pg, order := order, cause := 3, input := i.toNat, faultN := true, level := 0, lastFault := 0x5020 })) ∧
   (∀ s : State, Canonical s → Runs s →
     ∃ t, exec .refclkLoss s = .next t ∧ DeviceFaulted s t 0x5010 ∧ t.free = s.free + 1 ∧ SameBytes s t) ∧
   (∀ s : State, Canonical s → bitOf s.power.pg 0 = true → s.power.trip = false →
     (s.stopped = true ∨ s.sec.running = false →
       ∃ t, exec .thermtrip s = .next t ∧ Only [.power] s t ∧ t.power = { s.power with trip := true }) ∧
     (s.stopped = false → s.sec.running = true →
       ∃ t, exec .thermtrip s = .next t ∧ Only [.power, .rings, .status, .log, .vectors] s t ∧ t.devFault = true ∧
         t.stopped = true ∧ (∀ e ∈ t.rings, e.2.halted = true) ∧
         t.power = { s.power with faultN := true, level := 0, lastFault := 0x5001, trip := true }))) ∧
  ((∀ (temps : List (BitVec 16)) (s : State), Canonical s → Runs s →
     let now := { s.power with
       temps := (List.range 13).filterMap (fun i => if sensorOn s i then (temps[i]?).map (fun t => (i, t)) else none) }
     let u := { s with power := now }
     let lim := (s.reg 0x207804).toNat
     let j := hottestOf u [0, 1, 2, 3, 4]
     let h := hottestOf u [5, 6, 7, 8, 9, 10, 11, 12]
     let k := if tooHot j (fld lim 0 8) ∨ tooHot h (fld lim 8 8) then min 48 (s.power.skip + 1)
       else if wellBelow j (fld lim 0 8) ∧ wellBelow h (fld lim 8 8) then s.power.skip - 1 else s.power.skip
     ∃ t, exec (.thermalSample temps) s = .next t ∧ Only [.power, .log, .vectors] s t ∧ t.power = { now with skip := k } ∧
       (s.log.queue.length < 64 → s.power.skip = 0 → k ≠ 0 →
         t.log.queue = s.log.queue ++ [⟨entryBytes s.tideCount.toNat s.tidePhase none 0x1250 14 6 [], false⟩]) ∧
       (s.log.queue.length < 64 → s.power.skip ≠ 0 → k = 0 →
         t.log.queue = s.log.queue ++ [⟨entryBytes s.tideCount.toNat s.tidePhase none 0x1251 14 6 [], false⟩]) ∧
       ((s.power.skip = 0 ↔ k = 0) → t.log = s.log)) ∧
   (∀ (die : BitVec 3) (s : State), Canonical s → Runs s → die.toNat < s.dies →
     ∃ t, exec (.droop die) s = .next t ∧ Only [.power] s t ∧ t.power = { s.power with droopLeft := 64, droop := true }) ∧
   (∀ (i : Byte) (s : State), Canonical s →
     let word := if i = 0 then idPart s else if i = 1 then idStatus s else if i = 2 then pwrStat s
       else if i.toNat ≤ 15 then pwrTemp s (i.toNat - 3) else if i.toNat ≤ 29 then pwrRail s (i.toNat - 16)
       else if i = 30 then pwrPkg s else if i = 31 then s.power.lastFault else 0
     (busAnswers s = true →
       ∃ t, exec (.telemetryRead i) s = .next t ∧ Only [.power] s t ∧
         t.power = { s.power with busA := some (BitVec.ofNat 32 word) }) ∧
     (busAnswers s = false →
       ∃ t, exec (.telemetryRead i) s = .next t ∧ Only [.power] s t ∧ t.power = { s.power with busA := none })) ∧
   (∀ (r : BitVec 4) (mv c : BitVec 16) (s : State), Canonical s → Runs s → r.toNat < 14 →
     ∃ t, exec (.railPoll r (some (mv, c))) s = .next t ∧ Only [.power] s t ∧
       t.power = { s.power with rails := aput s.power.rails r.toNat (mv, BitVec.ofNat 16 (c.toNat % 2 ^ 15 + 2 ^ 15)) }) ∧
   (∀ (r : BitVec 4) (s : State), Canonical s → Runs s → r.toNat < 14 →
     let old := agetD s.power.rails r.toNat (0, 0)
     ∃ t, exec (.railPoll r none) s = .next t ∧ Only [.power] s t ∧
       t.power = { s.power with rails := aput s.power.rails r.toNat (old.1, BitVec.ofNat 16 (old.2.toNat % 2 ^ 15)) }))

/-- Scrubbers and written-back words (R152, R264, R265, R267, R368). A scrubber whose next word is due, and that the arbiter
of its memory unit grants, reads it and goes on to the next; without the grant it waits; a bit found flipped in one symbol of
a memory unit's word is corrected and counted, and the word stays as it was; flipped bits in two symbols are uncorrectable,
counted, and mark the word; a corrected word of a tile is counted and waits to be written back. A pass that its period
overtakes is logged and begins again. The oldest corrected word of a tile is written back. -/
def Obligations.Scrubbing : Prop :=
  (∀ (x : ScrubStore) (s : State), Canonical s → Runs s → scrubWords s x ≠ 0 → scrubReg s x ≠ 0 →
    let pos := (scrubPass s x).1
    let start := (scrubPass s x).2.1
    let period := (scrubPass s x).2.2
    (pos < scrubWords s x → pos * period ≤ (s.clk - start) * scrubWords s x → scrubGranted s x pos = false →
      ∃ t, exec (.scrub x none) s = .next t ∧ Only [] s t) ∧
    (pos < scrubWords s x → pos * period ≤ (s.clk - start) * scrubWords s x → scrubGranted s x pos = true →
      (∃ t, exec (.scrub x none) s = .next t ∧ Only [.health, .tiles, .arbiters] s t ∧ scrubPass t x = (pos + 1, start, period) ∧
        t.health.sdc = s.health.sdc) ∧
      (∀ u f, x = .hbm u → symbolsHit f.data f.check = 1 →
        ∃ t, exec (.scrub x (some f)) s = .next t ∧ Only [.health, .memUnits, .log, .vectors, .arbiters] s t ∧
          (t.munit u.toNat).corr = sat32 (s.munit u.toNat).corr 1 ∧ (t.munit u.toNat).uncorr = (s.munit u.toNat).uncorr ∧
          (scrubPass t x).1 = pos + 1) ∧
      (∀ u f, x = .lp5x u → symbolsHit f.data f.check = 2 →
        ∃ t, exec (.scrub x (some f)) s = .next t ∧ Only [.health, .memUnits, .mem, .log, .vectors, .snoops, .arbiters] s t ∧
          (t.munit (8 + u.toNat)).uncorr = BitVec.ofNat 16 (satAdd 16 (s.munit (8 + u.toNat)).uncorr.toNat 1) ∧
          (t.munit (8 + u.toNat)).corr = (s.munit (8 + u.toNat)).corr ∧
          t.mem.marked ((unitBase (8 + u.toNat) + 64 * pos) / 64) = true ∧ (scrubPass t x).1 = pos + 1) ∧
      (∀ p f, x = .tile p → readFlipped (wordAt s (p.toNat * 2 ^ 18 + pos)) f.data f.check =
          (.corrected, wordAt s (p.toNat * 2 ^ 18 + pos)) →
        markRead (s.mem.marked (p.toNat * 2 ^ 18 + pos)) f.marks = s.mem.marked (p.toNat * 2 ^ 18 + pos) →
        ∃ t, exec (.scrub x (some f)) s = .next t ∧ Only [.health, .tiles, .log] s t ∧ (scrubPass t x).1 = pos + 1 ∧
          (t.tile p.toNat).wbPending = (s.tile p.toNat).wbPending ++ [pos] ∧
          (t.tile p.toNat).regs.corr = sat32 (s.tile p.toNat).regs.corr 1 ∧
          (t.tile p.toNat).regs.lastErrWord = BitVec.ofNat 18 pos ∧ ∀ n, n ≠ p.toNat → t.tile n = s.tile n)) ∧
    (scrubWords s x ≤ pos → start + period ≤ s.clk → scrubGranted s x 0 = true →
      ∃ t, exec (.scrub x none) s = .next t ∧ Only [.health, .tiles, .arbiters] s t ∧
        scrubPass t x = (1, start + period, scrubReg s x * hourCycles)) ∧
    (pos < scrubWords s x → start + period ≤ s.clk →
      ∃ t, exec (.scrubOverrun x) s = .next t ∧ Only [.health, .log] s t ∧
        scrubPass t x = (0, start + period, scrubReg s x * hourCycles))) ∧
  (∀ (p : BitVec 11) (s : State) (w : Nat) (rest : List Nat), Canonical s → Runs s → (s.tile p.toNat).wbPending = w :: rest →
    ∃ t, exec (.correctedWriteBack p) s = .next t ∧ Only [.tiles] s t ∧ (t.tile p.toNat).wbPending = rest ∧
      ∀ n, n ≠ p.toNat → t.tile n = s.tile n)

/-- Transactions at their targets and requesters (R264, R268, R269, R272, R274, R283, R284, R327, R350). One that has
arrived, and that its target's arbiter grants, has its effect; one that the arbiter does not grant waits, and a weir that
holds one leaves it where it is. A READ brings back the bytes of its source as DATA; a FETCH sends them on as a WRITE; poison
among them shows in the queue; one whose entry was not valid when it was translated brings free bytes (log 19). DATA becomes
the WRITE of its requester. A WRITE lands at its target and is acknowledged OK; behind an earlier one to the same granule it
waits; for another device it leaves over the link that is its way. A WRITE of page space that is to be issued waits while its
entry is busy, takes the entry's page where the entry is valid, and is discarded where it is not. An ACK completes a write of
its transfer, and the last one the transfer. -/
def Obligations.TransactionsAtTargets : Prop :=
  (∀ (k : Nat) (s : State) (x : Txn), Canonical s → Runs s → s.ms.txns[k]? = some x → s.ms.frees = [] →
    let left := s.ms.txns.eraseIdx k
    let loc := x.at_.addr
    let n := x.bytes
    let acked : Txn := { x with
      id := s.ms.nextId, op := 3, data := [], bad := 0, status := 0, from_ := x.goal, sent := false, arrived := false }
    (Granted s x →
      ((x.at_.space = 1 ∨ (x.at_.space = 0 ∧ s.populated loc n = true ∧ closedTile s loc n = none)) →
        let host := decide (x.at_.space = 1)
        let data := s.anyRead host loc n
        let bad := badPieces s host loc n
        let noted (t : State) : Prop := (bad = 0 → Kind.pumpQueues.same s t) ∧
          ∀ q, s.queue? x.queue = some q → bad ≠ 0 → t.queue? x.queue = some { q with poisonSeen := true }
        (x.op = 0 →
          ∃ t, exec (.read k none) s = .next t ∧ Only [.transactions, .snoops, .arbiters, .pumpQueues] s t ∧ noted t ∧
            t.ms.txns = left ++ [onward x { x with op := 4, data := data, bad := bad }]) ∧
        ∀ d, x.op = 1 → x.dst = some d →
          ∃ t, exec (.fetch k none) s = .next t ∧ Only [.transactions, .snoops, .arbiters, .pumpQueues] s t ∧ noted t ∧
            t.ms.txns = left ++ [onward x { x with op := 2, at_ := d, dst := none, data := data, bad := bad }]) ∧
      (x.op = 0 → x.at_.space = 3 →
        ∃ t, exec (.read k none) s = .next t ∧ Only [.transactions, .free] s t ∧
          t.ms.txns = left ++ [onward x { x with op := 4, data := leBytes n (Config.freeWord s.free), bad := 0 }]) ∧
      (x.op = 2 → x.queue < 256 →
        (x.at_.space = 0 → x.at_.mcast = none → rangePopulated s loc n = true → rangeOpen s loc n = true →
          s.populated loc n = true → closedTile s loc n = none → (∀ e ∈ pieces loc n, inputHit s e.1 e.2 = false) →
          x.data.length = n →
          ∃ t, exec (.write k .clean) s = .next t ∧
            Only [.transactions, .mem, .tiles, .memCounters, .pumpQueues, .snoops, .arbiters] s t ∧
            (∀ z, Outside s false loc n z → t.mem.byte z = s.mem.byte z) ∧
            (∀ pa, pieces loc n = [(loc, n)] → s.place loc = some pa → s.tileOpen loc n = true → t.mem.read pa n = x.data) ∧
            t.ms.txns = left ++ [acked]) ∧
        (x.at_.space = 1 → x.data.length = n → x.bad = 0 →
          ∃ t, exec (.write k .clean) s = .next t ∧
            Only [.transactions, .mem, .tiles, .memCounters, .pumpQueues, .snoops] s t ∧
            t.mem.read (hostBase + loc) n = x.data ∧
            (∀ z, z < hostBase + loc ∨ hostBase + loc + n ≤ z → t.mem.byte z = s.mem.byte z) ∧
            t.ms.txns = left ++ [{ acked with from_ := .hub }]) ∧
        (x.at_.space = 1 →
          ∃ t, exec (.write k .uncorrectable) s = .next t ∧
            Only [.transactions, .tiles, .memCounters, .pumpQueues, .log] s t ∧
            t.ms.txns = left ++ [{ acked with from_ := .hub }]) ∧
        (∀ link, x.at_.space = 2 → linkRoute s x.at_.dev none = .send link →
          ∃ t, exec (.write k .clean) s = .next t ∧ Only [.transactions, .links, .tiles, .memCounters, .pumpQueues] s t ∧
            t.ms.txns = left ∧
            t.lport link = (s.lport link).push 2 (txnFlits (linkHeader s x x.at_.dev) x.data x.bad)))) ∧
    (∀ a, x.op = 0 → x.arrived = true → writeOrdered s x = true → x.polder = none → memArbiter s x = some a →
      memGrant s a [] ≠ some (memIndex x, x.cls) → ∃ t, exec (.read k none) s = .next t ∧ Only [] s t) ∧
    (x.op = 2 → writeOrdered s x = false → ∃ t, exec (.write k .clean) s = .next t ∧ Only [] s t) ∧
    (x.op = 0 → x.at_.space = 1 → x.arrived = true → (txnWeir s x).2 = false →
      ∃ t, exec (.read k none) s = .next t ∧ Only [.weirs] s t) ∧
    (∀ (p : BitVec 11) (side : Side) (lane : BitVec 2) (v : Nat), p.toNat = 1104 + k → x.op = 2 → x.at_.space = 3 → x.sent = false →
      x.arrived = false → requestOf s x = none →
      (∀ pt, s.table? x.at_.table = some pt → entryOf s pt (loc / 65536) = v → peValid v = true → peBusy v = true →
        ∃ t, exec (.messageHop p side lane none none) s = .next t ∧ Only [] s t) ∧
      (∀ pt, s.table? x.at_.table = some pt → entryOf s pt (loc / 65536) = v → peValid v = true → peBusy v = false →
        takeReserve s x (loc / 65536) = none → x.from_ = .hub → spotOf s (devDest (peAddr v + loc % 65536)) Spot.hub.col = .hub →
        (∀ z ∈ s.ms.txns, z.id < s.ms.nextId) →
        ∃ t, exec (.messageHop p side lane none none) s = .next t ∧ Only [.transactions, .memCounters] s t ∧
          ∃ z ∈ t.ms.txns, z.op = 2 ∧ z.arrived = true ∧ z.at_ = devDest (peAddr v + loc % 65536) ∧ z.data = x.data ∧
            z.bytes = x.bytes ∧ z.queue = x.queue ∧ z.xfer = x.xfer) ∧
      (∀ y, s.table? x.at_.table = none → s.transfer? x.queue x.xfer = some y → 1 < y.outstanding →
        ∃ t, exec (.messageHop p side lane none none) s = .next t ∧ Only [.transactions, .memCounters, .pumpQueues, .log] s t ∧
          t.ms.txns = s.ms.txns.filter (fun z => z.id != x.id) ∧
          t.transfer? x.queue x.xfer = some { y with outstanding := y.outstanding - 1, discLogged := true })) ∧
    (∀ d, x.op = 4 → x.arrived = true → x.dst = some d →
      ∃ t, exec (.data k) s = .next t ∧ Only [.transactions] s t ∧
        t.ms.txns = left ++ [onward x { x with op := 2, at_ := d, dst := none }]) ∧
    (∀ y, x.op = 3 → x.arrived = true → x.queue < 256 → s.transfer? x.queue x.xfer = some y →
      (1 < y.outstanding →
        ∃ t, exec (.ack k) s = .next t ∧ Only [.transactions, .pumpQueues] s t ∧ t.ms.txns = left ∧
          t.transfer? x.queue x.xfer = some { y with outstanding := y.outstanding - 1 }) ∧
      (y.outstanding ≤ 1 → y.after = [] →
        ∃ t, exec (.ack k) s = .next t ∧ Only [.transactions, .pumpQueues] s t ∧ t.ms.txns = left ∧
          t.transfer? x.queue x.xfer = some { y with outstanding := 0, complete := true }) ∧
      (y.outstanding ≤ 1 → y.after ≠ [] →
        ∃ t l, exec (.ack k) s = .next t ∧ Only [.transactions, .pumpQueues] s t ∧ t.ms.txns = left ++ l ∧
          l.map (fun z => (z.op, z.at_.addr, z.data)) = y.after.map (fun e => (2, e.1, e.2)) ∧
          t.transfer? x.queue x.xfer = some { y with outstanding := y.after.length, after := [] })) ∧
    (∀ c, x.op = 3 → x.arrived = true → x.queue = copyQueue → s.ms.copies.find? (fun c => c.id == x.xfer) = some c → 1 < c.left →
      ∃ t, exec (.ack k) s = .next t ∧ Only [.transactions, .pageWork] s t ∧ t.ms.txns = left ∧
        t.ms.copies = s.ms.copies.map (fun z => if z.id = x.xfer then { z with left := z.left - 1 } else z) ∧
        t.ms.jobs = s.ms.jobs ∧ t.ms.frees = s.ms.frees))

/-- Pump queues (R271-R273, R276, R283, R285-R288). A pump takes the entry that its post gauge shows, in the turn of its
ready queues, sends the wait the entry asks for, and waits for the next; a wait met too early is sent again. A descriptor, in
that turn too, that fails its checks halts the queue with the code and the entry. One that passes and may not merge starts a
transfer: a FETCH or a WRITE for each of its chunks, its signal kept for the end. The oldest transfer that is complete leaves
the queue, and its signal goes to the gauge blocks. The page engine reads each summary of a summary gather, or writes zeros
for an entry that is not valid; and fetches the pages a page gather selects, behind the pages that it begins to promote. No
word is found with flipped bits. -/
def Obligations.PumpQueuesRun : Prop :=
  (∀ (q : Byte) (s : State) (x : PumpQueue), Canonical s → Runs s → s.queue? q.toNat = some x → x.halted = false →
    x.head = none → x.postWait = .met → s.unitOn 4 x.pump = true →
    nextQueue s x.pump (aget? s.ms.lastQueue (64 + x.pump)) canTake = some q.toNat →
    (postedAhead s x = 0 →
      ∃ t, exec (.queueEntryTake q none) s = .next t ∧ Only [.pumpQueues, .gauges, .transactions] s t ∧
        t.ms.txns = s.ms.txns ∧ t.queue? q.toNat = some { x with postWait := .waiting }) ∧
    (postedAhead s x ≠ 0 →
      let e := readEntry s x (x.consumed.toNat % 2 ^ x.size)
      ∃ t, exec (.queueEntryTake q none) s = .next t ∧ Only [.pumpQueues, .gauges, .transactions, .snoops, .arbiters] s t ∧
        t.ms.txns = s.ms.txns ∧
        t.queue? q.toNat = some { x with
          consumed := x.consumed + 1, postWait := .waiting, head := some e
          headWait := if pdWaits e.desc = true ∧ e.bad = false then .waiting else .met })) ∧
  (∀ (q : Byte) (s : State) (x : PumpQueue) (e : Taken), Canonical s → Runs s → s.queue? q.toNat = some x → x.head = some e →
    x.halted = false → x.headWait = .met → x.held = false → pumpBusy s x.pump < 16 → s.unitOn 4 x.pump = true →
    nextQueue s x.pump (aget? s.ms.lastQueue x.pump) canStart = some q.toNat →
    (∀ c, descCode s x e = c → c ≠ 0 →
      ∃ t, exec (.descriptorStart q none) s = .next t ∧ Only [.pumpQueues, .memCounters, .log, .tiles, .arbiters] s t ∧
        t.queue? q.toNat = some { x with head := none, headWait := .none, halted := true, code := c, entry := e.entry } ∧
        (c ≠ 4 → Kind.tiles.same s t) ∧
        (c ≠ 5 → s.log.queue.length < 64 →
          t.log.queue = s.log.queue ++ [⟨entryBytes s.tideCount.toNat s.tidePhase (some x.ctx) 0x3171 14 (pumpSrc x.pump)
            (detailOf [(1, q.toNat), (2, e.entry), (1, c)]), false⟩])) ∧
    (descCode s x e = 0 → pdNomerge e.desc = true → (pdOp e.desc = 1 ∨ pdOp e.desc = 2) → pdDstSpace e.desc ≠ 3 →
      let d := e.desc
      let l := chunkTxns s x q.toNat s.ms.nextId (s.ms.nextId + 1) d
      ∃ t, exec (.descriptorStart q none) s = .next t ∧ Only [.pumpQueues, .memCounters, .transactions, .arbiters] s t ∧
        t.ms.txns = s.ms.txns ++ l ∧
        t.queue? q.toNat = some { x with
          head := none, headWait := .none
          transfers := x.transfers ++ [{
            id := s.ms.nextId, desc := d, sigs := (pdSig d).toList, outstanding := l.length * (chunkDst d (pdDst d)).acks
            complete := false, reserved := [], after := [], poisonLogged := false, discLogged := false }] })) ∧
  (∀ (q : Byte) (s : State) (x : PumpQueue) (y : Transfer) (rest : List Transfer), Canonical s → Runs s →
    s.queue? q.toNat = some x → x.transfers = y :: rest → y.complete = true → y.reserved = [] →
    (y.sigs = [] →
      ∃ t, exec (.transferComplete q) s = .next t ∧ Only [.pumpQueues] s t ∧
        t.queue? q.toNat = some { x with transfers := rest }) ∧
    (∀ vid n, y.sigs = [(vid, n)] → vid < 2048 → x.ctx < 64 →
      ∃ t m, exec (.transferComplete q) s = .next t ∧ Only [.pumpQueues, .gauges] s t ∧
        t.queue? q.toNat = some { x with transfers := rest } ∧ (∀ g, t.gauge g = s.gauge g) ∧
        t.gin 4 = s.gin 4 ++ [m] ∧ gOp m = 0 ∧ gVid m = vid ∧ gOperand m = BitVec.ofNat 32 n ∧ gCtx m = x.ctx)) ∧
  (∀ (q : Byte) (s : State) (x : PumpQueue) (y : Transfer) (pt : PageTable), Canonical s → Runs s →
    heldGather s q.toNat 0x10 = some (x, y, pt) →
    let d := y.desc
    let n := sgBytes d
    ∃ t l, exec (.summaryGather q none) s = .next t ∧ Only [.pumpQueues, .memCounters, .transactions, .log] s t ∧
      t.ms.txns = s.ms.txns ++ l ∧
      l.map (fun z => (z.op, z.at_, z.bytes, z.data, z.dst)) = (List.range (sgN d)).flatMap (fun i =>
        let v := entryOf s pt (sgE0 d + i)
        let dst := sgDst d + n * i
        let src := pt.sumAt (peShare v) + sgOff d
        if peValid v = true then
          (cutRun 64 64 src dst (n + 1) 0 n).map (fun c => (0, devDest (src + c.1), c.2, [], some (devDest (dst + c.1))))
        else [(2, devDest dst, n, List.replicate n 0, none)])) ∧
  (∀ (q : Byte) (s : State) (x : PumpQueue) (y : Transfer) (pt : PageTable), Canonical s → Runs s →
    heldGather s q.toNat 0x11 = some (x, y, pt) →
    let d := y.desc
    let records := (List.range (pgK d)).map (fun i => leAt (s.devRead (pgRec d + 8 * i) 8) 4 4)
    let l := selectPages ((sgN d + 31) / 32) (pgHead d) (pgTail d) (pgLimit d) records
    let got := (List.range (pgP d)).filterMap (fun i =>
      (l[pgSkip d + i]?).bind (fun j => if peValid (entryOf s pt (sgE0 d + j)) = true then some (i, j) else none))
    got ≠ [] →
      ∃ t promoted ts, exec (.pageGather q none) s = .next t ∧
        Only [.pumpQueues, .memCounters, .transactions, .pageWork, .log, .mem, .tiles, .loader, .snoops] s t ∧
        t.ms.txns = s.ms.txns ++ promoted ++ ts ∧ (∀ z ∈ promoted, z.queue = copyQueue) ∧ (pt.promote = 0 → promoted = []) ∧
        ts.map (fun z => (z.op, z.at_.space, z.at_.table, z.at_.addr, z.bytes, z.dst.map (·.addr))) =
          got.flatMap (fun e => (List.range 16).map (fun c =>
            (1, 3, pdSrcId d, (sgE0 d + e.2) * 65536 + 4096 * c, 4096, some (pgDst d + 65536 * e.1 + 4096 * c)))))

/-- A DRAIN run switches in once its region is free (R222, R225, R257): its generation is the one it names, or its context's
counter plus 1, which the counter takes; the census phase follows, and the section owns what its image names. A predicate that
does not hold ends it SKIPPED, one on an unmapped gauge BAD_PARAM; a tile that is not done keeps the trigger away. A timed run
enters the ranking when the switch must begin to meet its instant, and switches then if its region is free (R228). -/
def Obligations.SectionSwitchStarts : Prop :=
  (∀ (r : Nat) (e : Ecc) (s : State) (x : Run) (g : Nat) (cs : Assoc Context), Canonical s → Runs s → e ≠ .uncorrectable →
    s.run? r = some x → x.phase = .accepted →
    x.purge = false → RegionFree s x →
    ((∃ h, x.explicitGen = some h ∧ g = h % 8 ∧ cs = s.ctxs) ∨
      (∃ c, x.explicitGen = none ∧ aget? s.ctxs x.ctx = some c ∧ g = (c.gencnt + 1).toNat ∧
        cs = aput s.ctxs x.ctx { c with gencnt := c.gencnt + 1 })) →
    (x.pred = none ∨ (∃ v tg sense k, x.pred = some (v, tg, sense) ∧ s.gaugeOf x.ctx v = some k ∧
      (((s.gauge k).value - tg).toNat < 2 ^ 31 ↔ sense = false))) →
    let out := ((s.region x).filter (fun n => (s.ltile n).sect.configured)).map (fun n => (n, (s.ltile n).sect.gen.toNat))
    (x.due = none →
      ∃ t, exec (.switchTrigger r e) s = .next t ∧ Only (.runs :: .contexts :: .loader :: eccKinds e) s t ∧ t.ctxs = cs ∧
        t.runs = s.runs.map (fun y => if y.id == r then { y with gen := g, phase := .waitCensus, outgoing := out } else y) ∧
        t.owners = s.owners ++ [(x.ctx, x.handle, r)] ∧ t.runId = s.runId ∧ t.ldrStat = bump s.ldrStat 0 1 ∧
        t.condSkip = s.condSkip) ∧
    (∀ d, x.due = some d → x.armed = false → cyclesTo s d ≤ Int.ofNat (switchLead s x) →
      ∃ t, exec (.timedSwitchStart r e) s = .next t ∧ Only (.runs :: .contexts :: .loader :: eccKinds e) s t ∧ t.ctxs = cs ∧
        t.runs = s.runs.map (fun y => if y.id == r then
          { y with armed := true, pred := none, gen := g, phase := .waitCensus, outgoing := out } else y) ∧
        t.owners = s.owners ++ [(x.ctx, x.handle, r)] ∧ t.runId = s.runId ∧ t.ldrStat = bump s.ldrStat 0 1 ∧
        t.condSkip = s.condSkip)) ∧
  (∀ (r : Nat) (e : Ecc) (s : State) (x : Run) (k : Cmd) (v : Nat) (tg : W32) (sense : Bool), Canonical s → Runs s →
    e ≠ .uncorrectable → s.run? r = some x → x.phase = .accepted → x.purge = false → RegionFree s x →
    x.due = none → x.first = none → s.saves = [] →
    s.runCmd x = some k → x.pred = some (v, tg, sense) →
    (∀ j, s.gaugeOf x.ctx v = some j → (((s.gauge j).value - tg).toNat < 2 ^ 31 ↔ sense = true) →
      ∃ t, exec (.switchTrigger r e) s = .next t ∧ Only (.runs :: .rings :: .loader :: eccKinds e) s t ∧
        RunReplies s t x k (x.reply stSkipped 0 0 0) ∧
        t.condSkip = bump s.condSkip x.ctx 1 ∧ t.ldrStat = s.ldrStat ∧ t.owners = s.owners) ∧
    (s.gaugeOf x.ctx v = none →
      ∃ t, exec (.switchTrigger r e) s = .next t ∧ Only (.runs :: .rings :: eccKinds e) s t ∧ RunReplies s t x k (x.reply stBadParam 0 0 0) ∧
        t.owners = s.owners)) ∧
  (∀ (r : Nat) (e : Ecc) (s : State) (x : Run), Canonical s → Runs s → s.run? r = some x → x.phase = .accepted →
    x.purge = false → (∃ n ∈ s.region x, (s.ltile n).sect.configured = true ∧ (s.ltile n).isDone = false) →
    (x.due = none → ∃ t, exec (.switchTrigger r e) s = .next t ∧ Only [] s t) ∧
    (∀ d, x.due = some d → x.armed = false → x.pred = none →
      (cyclesTo s d ≤ Int.ofNat (switchLead s x) →
        ∃ t, exec (.timedSwitchStart r e) s = .next t ∧ Only [.runs] s t ∧ t.runId = s.runId ∧ t.owners = s.owners ∧
          t.runs = s.runs.map (fun y => if y.id == r then { y with armed := true, pred := none } else y)) ∧
      (Int.ofNat (switchLead s x) < cyclesTo s d → ∃ t, exec (.timedSwitchStart r e) s = .next t ∧ Only [] s t)))

/-- The phases of a switch and the end of a run (R211, R212, R224, R226, R309). Once the census of the new generation is zero
for the region, its tiles are unloaded inside the dike, what they held is discarded and counted, and the drain phase follows;
a stop waits for no census. Once the outgoing census is zero and no transfer is open, a stopped region's dike falls and its
run is gone; a run's own tile is loaded from its slot, takes the generation, and executes step 0; a tile whose state fails
parity twice is a job fault (R230). A run whose tiles are done replies OK with the instant and the cycles of its run, and one
whose timeout expires first is a job fault. -/
def Obligations.SectionSwitchPhases : Prop :=
  (∀ (r : Nat) (s : State) (x : Run), Canonical s → Runs s → s.run? r = some x → x.phase = .waitCensus →
    ((∀ n ∈ s.region x, s.censusLive n x.gen = 0) →
      ∃ t, exec (.switchCensusClear r) s = .next t ∧ Only [.runs, .tiles, .trees, .gauges] s t ∧ t.runId = s.runId ∧
        t.runs = s.runs.map (fun y => if y.id == r then { y with phase := .draining } else y) ∧
        (∀ n ∈ s.region x, let y := t.ltile n
          y.sect.configured = false ∧ y.sect.loading = true ∧ y.queues = [] ∧ y.egress = [] ∧ y.ports = [] ∧ y.gq = [] ∧
            y.seq.st = .idle) ∧
        (∀ q, (∀ n ∈ s.region x, s.phys n ≠ q) → { t.tile q with router := (s.tile q).router } = s.tile q)) ∧
    ((∃ n ∈ s.region x, s.censusLive n x.gen ≠ 0) → ∃ t, exec (.switchCensusClear r) s = .next t ∧ Only [] s t)) ∧
  (∀ (r : Nat) (s : State) (x : Run), Canonical s → Runs s → s.run? r = some x → x.phase = .stopping →
    ∃ t, exec (.switchCensusClear r) s = .next t ∧ Only [.runs, .tiles, .trees, .gauges] s t ∧
      t.runs = s.runs.map (fun y => if y.id == r then { y with phase := .stopDrain } else y) ∧
      ∀ e ∈ x.outgoing, (t.ltile e.1).sect.configured = false ∧ (t.ltile e.1).sect.loading = true) ∧
  (∀ (r : Nat) (par : Option (BitVec 10)) (hit : Option (BitVec 11 × Ecc)) (s : State) (x : Run), Canonical s → Runs s →
    s.run? r = some x → x.phase = .stopDrain →
    (∀ e ∈ x.outgoing, s.censusLive e.1 e.2 = 0) → (∀ e ∈ s.ms.queues, e.2.tile = none) → s.moves = [] → s.saves = [] →
    (∀ q, ∀ c ∈ (s.ring q).accepted, c.opcode ≠ 0x41 ∧ c.opcode ≠ 0x21) →
    ∃ t, exec (.switchDrainEnd r par hit) s = .next t ∧ Only [.runs, .tiles, .gauges] s t ∧ t.owners = s.owners ∧
      t.runs = s.runs.filter (fun y => y.id != r) ∧ (∀ e ∈ x.outgoing, (t.ltile e.1).sect.loading = false) ∧
      (∀ q, (∀ e ∈ x.outgoing, s.phys e.1 ≠ q) → t.tile q = s.tile q)) ∧
  (∀ (r : Nat) (hit : Option (BitVec 11 × Ecc)) (s : State) (x : Run) (i : Image) (n : Nat) (y : Tile), Canonical s → Runs s →
    s.run? r = some x → x.phase = .draining →
    s.image? x.ctx x.handle = some i → i.tiles = [n] → i.trees = [] → i.gauges = [] → x.due = none →
    (∀ e ∈ x.outgoing, s.censusLive e.1 e.2 = 0) → (∀ e ∈ s.ms.queues, e.2.tile = none) → s.moves = [] →
    y.cfg = slotCfg s (s.phys n) (agetD i.slot n 0) (agetD i.frames n 0) → y.seq = (s.ltile n).seq → RunsOn y 0 →
    ∃ t, exec (.switchDrainEnd r none hit) s = .next t ∧ Only [.runs, .tiles, .gauges, .threshold, .links] s t ∧
      (∀ q, q ≠ s.phys n → t.tile q = s.tile q) ∧
      (let z := t.ltile n
       z.cfg = y.cfg ∧ z.sect.configured = true ∧ z.sect.loading = false ∧ z.sect.gen = BitVec.ofNat 3 x.gen ∧ z.sect.run = x.id ∧
       z.sect.ctx = BitVec.ofNat 6 x.ctx ∧ z.swaps = 0 ∧ z.queues = [] ∧ z.acc = [] ∧ z.hist = [] ∧ z.seq.idx = 0 ∧
       z.seq.st = .running ∧ z.seq.preds = BitVec.ofNat 8 y.initPreds ∧
       z.seq.ctrs = (List.range 4).map (fun k => BitVec.ofNat 20 (y.initCtr k))) ∧
      t.runs = s.runs.map (fun v => if v.id == r then { v with
        phase := .running, due := none, started := s.clk, outgoing := []
        timeoutAt := if i.timeout == 0 then none else some (s.clk + i.timeout * 1024)
        first := if v.first.isSome then v.first else some (s.tideCount.toNat, s.tidePhase)
        firstClk := if v.first.isSome then v.firstClk else s.clk } else v)) ∧
  (∀ (r : Nat) (hit : Option (BitVec 11 × Ecc)) (s : State) (x : Run) (i : Image) (n : BitVec 10), Canonical s → Runs s →
    s.run? r = some x → x.phase = .draining →
    s.image? x.ctx x.handle = some i → n.toNat ∈ i.tiles → x.due = none → (∀ e ∈ x.outgoing, s.censusLive e.1 e.2 = 0) →
    (∀ e ∈ s.ms.queues, e.2.tile = none) → s.moves = [] →
    ∃ t, exec (.switchDrainEnd r (some n) hit) s = .next t ∧ Faulted s t 0x4122 (some x.ctx)) ∧
  (∀ (r : Nat) (s : State) (x : Run) (k : Cmd) (c ph : Nat), Canonical s → Runs s → s.run? r = some x → x.phase = .running →
    s.runCmd x = some k → s.saves = [] → x.first = some (c, ph) →
    (∀ n ∈ s.region x, (s.ltile n).sect.configured = true → (s.ltile n).sect.run = r → (s.ltile n).isDone = true) →
    (∀ e ∈ s.ms.queues, ∀ n ∈ s.region x, e.2.tile = some n → ∀ w ∈ e.2.transfers, w.complete = true) →
    ∃ t, exec (.runDone r) s = .next t ∧ Only [.runs, .rings] s t ∧ t.owners = s.owners ∧
      RunReplies s t x k (x.reply stOk c (ph % 2 ^ 20 + x.replays % 4 * 2 ^ 20) (x.cycles s))) ∧
  (∀ (r : Nat) (s : State) (x : Run), Canonical s → Runs s → s.run? r = some x → x.phase = .running →
    (∃ n ∈ s.region x, (s.ltile n).sect.configured = true ∧ (s.ltile n).sect.run = r ∧ (s.ltile n).isDone = false) →
    (∃ t, exec (.runDone r) s = .next t ∧ Only [] s t) ∧
    (∀ d, x.timeoutAt = some d → d ≤ s.clk → ∃ t, exec (.sectionTimeout r) s = .next t ∧ Faulted s t 0x4120 (some x.ctx)))

/-- ISSUE (R48, R50). A step that passes the checks enters the queue of its engine when that holds fewer than four operations,
with the halves in force now, and the next step follows, held when `wait` is set; a full queue stalls the sequencer, and a
slot that frees lets the same step complete. A parity failure or a mark on the step, its descriptor or its loop table, an absent
opcode, a set RSV bit or a failing check is a job fault. -/
def Obligations.IssueQueuesOrStalls : Prop :=
  (∀ (n : BitVec 10) (s : State) (p w : Nat), AtStep s n 1 p w →
    let y := s.tile p
    let u := fld w 54 4
    let op : Op := { id := y.opId, desc := fld w 49 5, loop := fld w 45 4, swaps := y.swaps,
                     signal := if bitOf w 43 then some (fld w 32 11) else none, hold := bitOf w 44, out := none }
    issueMarked y w = false → issueFail y u (fld w 49 5) (fld w 45 4) = none →
    ((y.queue u).length < 4 → RunsOn y (nextIdx y) →
      ∃ t, exec (.issue n false) s = .next t ∧
        TileBecomes s t p (atNext { y with queues := aput y.queues u (y.queue u ++ [op]), opId := y.opId + 1
                                           seq := { y.seq with holdOp := if bitOf w 44 then some y.opId else y.seq.holdOp } }
                            (nextIdx y) s.clk) []) ∧
    (4 ≤ (y.queue u).length →
      ∃ t, exec (.issue n false) s = .next t ∧ TileBecomes s t p { y with seq := { y.seq with st := .stallIssue } } [])) ∧
  (∀ (n : BitVec 10) (s : State) (p w : Nat), HeldAt s n .stallIssue p w →
    let y := s.tile p
    let u := fld w 54 4
    let op : Op := { id := y.opId, desc := fld w 49 5, loop := fld w 45 4, swaps := y.swaps,
                     signal := if bitOf w 43 then some (fld w 32 11) else none, hold := bitOf w 44, out := none }
    (y.queue u).length < 4 → RunsOn y (nextIdx y) →
    ∃ t, exec (.issueQueueSlotFree n) s = .next t ∧
      TileBecomes s t p (atNext { y with queues := aput y.queues u (y.queue u ++ [op]), opId := y.opId + 1
                                         seq := { y.seq with holdOp := if bitOf w 44 then some y.opId else y.seq.holdOp } }
                          (nextIdx y) s.clk) []) ∧
  (∀ (n : BitVec 10) (s : State) (p w e : Nat), AtStep s n 1 p w → issueMarked (s.tile p) w = false →
    issueFail (s.tile p) (fld w 54 4) (fld w 49 5) (fld w 45 4) = some e →
    ∃ t, exec (.issue n false) s = .next t ∧ Faulted s t e (s.tileCtx p)) ∧
  (∀ (n : BitVec 10) (s : State) (p : Nat), s.mem.wf = true → s.stopped = false → n.toNat < s.ntiles → s.phys n.toNat = p →
    seqReady (s.tile p) = true →
    let w := (s.tile p).step64 (s.tile p).seq.idx.toNat
    let marked := (s.tile p).cfgMarked (8 * (s.tile p).seq.idx.toNat) 8
    ((stepOp w = 1 ∨ stepOp w ∉ stepOps) → ∃ t, exec (.issue n true) s = .next t ∧ Faulted s t 0x4113 (s.tileCtx p)) ∧
    ((marked = true ∧ (stepOp w = 1 ∨ stepOp w ∉ stepOps) ∨ stepOp w = 1 ∧ stepRsv w = false ∧ issueMarked (s.tile p) w = true) →
      ∃ t, exec (.issue n false) s = .next t ∧ Faulted s t 0x4113 (s.tileCtx p)) ∧
    (marked = false → (stepOp w = 1 ∧ stepRsv w = true ∨ stepOp w ∉ stepOps) →
      ∃ t, exec (.issue n false) s = .next t ∧ Faulted s t 0x4111 (s.tileCtx p)))

/-- Gauge messages of the sequencer (R51, R197, R200). SIGNAL_GAUGE sends its ADD or SET at once when nothing waits before it
and no fence holds it, else it joins the gauge queue of 8, and the next step follows; WAIT_GAUGE sends its WAIT the same way
and gates the sequencer; a full queue stalls either, and an entry that frees lets it complete. Fenced messages leave in order
once the operations before their fences have completed, and not before. -/
def Obligations.GaugeMessagesOfSequencer : Prop :=
  (∀ (n : BitVec 10) (s : State) (p w : Nat), AtStep s n 3 p w →
    let y := s.tile p
    let m := gaugeMsg p y.sect.gen.toNat (fld w 47 11) (b2n (bitOf w 46)) (fld w 0 32) 0
    let free := y.gq = [] ∧ (bitOf w 45 = true → ∀ u, 1 ≤ u → u ≤ 5 → y.queue u = [])
    (free → RunsOn y (nextIdx y) →
      ∃ t, exec (.signalGauge n false) s = .next t ∧
        TileBecomes s t p (atNext { y with egress := y.egress ++ [(0, m)] } (nextIdx y) s.clk) []) ∧
    (¬ free → y.gq.length < 8 → RunsOn y (nextIdx y) →
      ∃ t, exec (.signalGauge n false) s = .next t ∧
        TileBecomes s t p (atNext { y with gq := y.gq ++ [⟨if bitOf w 45 then some y.opId else none, m⟩] } (nextIdx y) s.clk) []) ∧
    (¬ free → 8 ≤ y.gq.length →
      ∃ t, exec (.signalGauge n false) s = .next t ∧ TileBecomes s t p { y with seq := { y.seq with st := .stallEgress } } [])) ∧
  (∀ (n : BitVec 10) (s : State) (p w : Nat), AtStep s n 2 p w →
    let y := s.tile p
    let m := gaugeMsg p y.sect.gen.toNat (fld w 47 11) 2 (fld w 0 32) (y.timeoutEntry (fld w 45 2))
    let gated := { y.seq with st := .waitGauge
                              gwait := some ⟨fld w 47 11, BitVec.ofNat 32 (fld w 0 32), s.clk, y.timeoutEntry (fld w 45 2), none, 0, 0⟩ }
    (y.gq = [] →
      ∃ t, exec (.waitGauge n false) s = .next t ∧ TileBecomes s t p { y with egress := y.egress ++ [(0, m)], seq := gated } []) ∧
    (y.gq ≠ [] → y.gq.length < 8 →
      ∃ t, exec (.waitGauge n false) s = .next t ∧ TileBecomes s t p { y with gq := y.gq ++ [⟨none, m⟩], seq := gated } []) ∧
    (8 ≤ y.gq.length →
      ∃ t, exec (.waitGauge n false) s = .next t ∧ TileBecomes s t p { y with seq := { y.seq with st := .stallEgress } } [])) ∧
  (∀ (n : BitVec 10) (s : State) (p w : Nat), HeldAt s n .stallEgress p w → stepOp w = 3 → (s.tile p).gq.length < 8 →
    RunsOn (s.tile p) (nextIdx (s.tile p)) → (s.tile p).gq ≠ [] →
    let y := s.tile p
    let m := gaugeMsg p y.sect.gen.toNat (fld w 47 11) (b2n (bitOf w 46)) (fld w 0 32) 0
    ∃ t, exec (.gaugeQueueFree n none) s = .next t ∧
      TileBecomes s t p (atNext { y with gq := y.gq ++ [⟨if bitOf w 45 then some y.opId else none, m⟩] } (nextIdx y) s.clk) []) ∧
  (∀ (n : BitVec 10) (s : State) (p : Nat), s.mem.wf = true → s.stopped = false → n.toNat < s.ntiles → s.phys n.toNat = p →
    let y := s.tile p
    let older (f : Nat) := ∃ u, 1 ≤ u ∧ u ≤ 5 ∧ ∃ o ∈ y.queue u, o.id < f
    (y.gq.length ≤ 8 → (∀ e ∈ y.gq, (∀ f, e.fence = some f → ¬ older f) ∧ leAt e.msg.pay 2 1 ≠ 2) →
      ∃ t, exec (.fenceRelease n) s = .next t ∧
        TileBecomes s t p { y with gq := [], egress := y.egress ++ y.gq.map (fun e => (0, e.msg)) } []) ∧
    (∀ e r f, y.gq = e :: r → e.fence = some f → older f →
      ∃ t, exec (.fenceRelease n) s = .next t ∧ TileBecomes s t p y []))

/-- SEND (R52, R197). The message of a template that is no gauge message leaves with the template's header, the step's tag
and length, the section's generation and the bytes that the store holds at the step, those of the spillway and the staged
frames free (log 12), and the next step follows; with eight messages in the egress buffer it stalls, and room there lets it
complete. A template of kind gauge joins the sequencer's gauge messages. A source that is not a multiple of 64 is a job
fault, one that runs past the store another, and so is a marked descriptor. No word of the store that the step reads is found
in error, or stands on the tile's list of uncorrectable words outside a declared input. -/
def Obligations.SendBuildsMessage : Prop :=
  (∀ (s : State) (p w : Nat),
    let y := s.tile p
    let l := fld w 47 6 + 1
    let src := fld w 0 24
    let n := min (64 * l) (y.spillBase - src)
    let h := hset (hset (hset (leAt (y.desc (fld w 53 5)) 0 16) 68 16 (fld w 31 16)) 91 6 (l - 1)) 84 3 y.sect.gen.toNat
    let bad := n ≠ 0 ∧ s.mem.poisoned (tileBase p + src) n = true
    let m : Msg := ⟨BitVec.ofNat 128 (if bad then hset h 97 1 1 else h),
      s.mem.read (tileBase p + src) n ++ leBytes (64 * l - n) (Config.freeWord s.free), none, []⟩
    src % 64 = 0 → src + 64 * l ≤ 0x1000000 → y.cfgMarked (0x2000 + 64 * fld w 53 5) 64 = false → RunsOn y (nextIdx y) →
    (∀ k ∈ y.localList, inInput y k = true) →
    (sendsGauge y w = false → y.sends < 8 →
      (∀ k, AtStep s k 4 p w →
        ∃ t, exec (.send k false none) s = .next t ∧
          TileBecomes s t p (atNext { y with egress := y.egress ++ [(0, m)] } (nextIdx y) s.clk) [.snoops, .free]) ∧
      (∀ k, HeldAt s k .stallEgress p w → stepOp w = 4 →
        ∃ t, exec (.egressBufferFree k none) s = .next t ∧
          TileBecomes s t p (atNext { y with egress := y.egress ++ [(0, m)] } (nextIdx y) s.clk) [.snoops, .free])) ∧
    (sendsGauge y w = true → ∀ k, AtStep s k 4 p w →
      (y.gq = [] →
        ∃ t, exec (.send k false none) s = .next t ∧
          TileBecomes s t p (atNext { y with egress := y.egress ++ [(0, m)] } (nextIdx y) s.clk) [.snoops, .free]) ∧
      (y.gq ≠ [] → y.gq.length < 8 →
        ∃ t, exec (.send k false none) s = .next t ∧
          TileBecomes s t p (atNext { y with gq := y.gq ++ [⟨none, m⟩] } (nextIdx y) s.clk) [.snoops, .free]))) ∧
  (∀ (n : BitVec 10) (s : State) (p w : Nat), AtStep s n 4 p w → fld w 0 24 % 64 = 0 →
    fld w 0 24 + 64 * (fld w 47 6 + 1) ≤ 0x1000000 →
    ((s.tile p).cfgMarked (0x2000 + 64 * fld w 53 5) 64 = false →
      (if sendsGauge (s.tile p) w = true then (s.tile p).gq.length = 8 else 8 ≤ (s.tile p).sends) →
      ∃ t, exec (.send n false none) s = .next t ∧
        TileBecomes s t p { s.tile p with seq := { (s.tile p).seq with st := .stallEgress } } []) ∧
    ((s.tile p).cfgMarked (0x2000 + 64 * fld w 53 5) 64 = true →
      ∃ t, exec (.send n false none) s = .next t ∧ Faulted s t 0x4113 (s.tileCtx p))) ∧
  (∀ (n : BitVec 10) (s : State) (p w : Nat), AtStep s n 4 p w → fld w 0 24 % 64 ≠ 0 →
    ∃ t, exec (.send n false none) s = .next t ∧ Faulted s t 0x4111 (s.tileCtx p)) ∧
  (∀ (n : BitVec 10) (s : State) (p w : Nat), AtStep s n 4 p w → fld w 0 24 % 64 = 0 →
    0x1000000 < fld w 0 24 + 64 * (fld w 47 6 + 1) →
    ∃ t, exec (.send n false none) s = .next t ∧ Faulted s t 0x4110 (s.tileCtx p))

/-- WATCH, SWAP, BRANCH and END (R48, R53, R54, R55). A WATCH that holds sets its predicate, and the next step follows; else
it gates the sequencer with its deadline. A rewrite that makes it hold ends it so; at the deadline the predicate takes what
the condition says. SWAP exchanges the halves of every selected pair. BRANCH goes to its target when its condition holds, with
its counter stepped, and to the next step otherwise; a target past the program is a job fault. END stops the sequencer. A
sequencer that runs out of its timeout while it waits to send WAIT again ends the section with event 0x4101 (R200). -/
def Obligations.WatchSwapBranchEnd : Prop :=
  (∀ (n : BitVec 10) (s : State) (p w : Nat), AtStep s n 5 p w →
    let y := s.tile p
    let due := if y.timeoutEntry (fld w 49 2) = 0 then none else some (s.clk + y.timeoutEntry (fld w 49 2))
    let holds : Prop := (portStatus s p (fld w 54 4) (fld w 51 3) &&& fld w 0 32) ≠ 0
    (1 ≤ fld w 54 4 → fld w 54 4 ≤ 7 →
      (holds → RunsOn y (nextIdx y) →
        ∃ t, exec (.watch n false) s = .next t ∧
          TileBecomes s t p (atNext { y with seq := { y.seq with preds := BitVec.ofNat 8 (putBit y.seq.preds.toNat (fld w 46 3) true)
                                                                 watchDeadline := none } } (nextIdx y) s.clk) []) ∧
      (¬ holds →
        ∃ t, exec (.watch n false) s = .next t ∧
          TileBecomes s t p { y with seq := { y.seq with st := .watch, watchDeadline := due } } [])) ∧
    ((fld w 54 4 = 0 ∨ 7 < fld w 54 4) → ∃ t, exec (.watch n false) s = .next t ∧ Faulted s t 0x4111 (s.tileCtx p))) ∧
  (∀ (n : BitVec 10) (s : State) (p w : Nat), HeldAt s n .watch p w →
    let y := s.tile p
    let holds : Bool := portStatus s p (fld w 54 4) (fld w 51 3) &&& fld w 0 32 != 0
    let ends (b : Bool) : Tile := atNext { y with seq := { y.seq with preds := BitVec.ofNat 8 (putBit y.seq.preds.toNat (fld w 46 3) b)
                                                                      watchDeadline := none } } (nextIdx y) s.clk
    RunsOn y (nextIdx y) →
    (holds = true → ∃ t, exec (.watchReevaluate n) s = .next t ∧ TileBecomes s t p (ends true) []) ∧
    (∀ d, y.seq.watchDeadline = some d → d ≤ s.clk →
      ∃ t, exec (.watchTimeout n) s = .next t ∧ TileBecomes s t p (ends holds) [])) ∧
  (∀ (n : BitVec 10) (s : State) (p w : Nat), AtStep s n 6 p w → RunsOn (s.tile p) (nextIdx (s.tile p)) →
    let y := s.tile p
    ∃ t, exec (.swap n false) s = .next t ∧
      TileBecomes s t p (atNext { y with swaps := y.swaps ^^^ fld w 50 8 } (nextIdx y) s.clk) []) ∧
  (∀ (n : BitVec 10) (s : State) (p w : Nat), AtStep s n 7 p w →
    let y := s.tile p
    let v := y.seq.ctrs.getD (fld w 51 2) 0 - 1
    let pred := y.seq.preds.getLsbD (fld w 53 3)
    let stepped : Tile := { y with seq := { y.seq with ctrs := y.seq.ctrs.set (fld w 51 2) v } }
    (fld w 0 10 < y.progLen →
      (RunsOn y (fld w 0 10) → (fld w 56 2 = 0 ∧ pred = true ∨ fld w 56 2 = 1 ∧ pred = false ∨ fld w 56 2 = 3) →
        ∃ t, exec (.branch n false) s = .next t ∧ TileBecomes s t p (atNext y (fld w 0 10) s.clk) []) ∧
      (RunsOn y (nextIdx y) → (fld w 56 2 = 0 ∧ pred = false ∨ fld w 56 2 = 1 ∧ pred = true) →
        ∃ t, exec (.branch n false) s = .next t ∧ TileBecomes s t p (atNext y (nextIdx y) s.clk) []) ∧
      (RunsOn y (fld w 0 10) → fld w 56 2 = 2 → v ≠ 0 →
        ∃ t, exec (.branch n false) s = .next t ∧ TileBecomes s t p (atNext stepped (fld w 0 10) s.clk) []) ∧
      (RunsOn y (nextIdx y) → fld w 56 2 = 2 → v = 0 →
        ∃ t, exec (.branch n false) s = .next t ∧ TileBecomes s t p (atNext stepped (nextIdx y) s.clk) [])) ∧
    (y.progLen ≤ fld w 0 10 → ∃ t, exec (.branch n false) s = .next t ∧ Faulted s t 0x4112 (s.tileCtx p))) ∧
  (∀ (n : BitVec 10) (s : State) (p w : Nat), AtStep s n 0x3F p w →
    ∃ t, exec (.endProgram n false) s = .next t ∧
      TileBecomes s t p ({ s.tile p with seq := { (s.tile p).seq with st := .ended } } : Tile).finish []) ∧
  (∀ (n : BitVec 10) (s : State) (p : Nat) (g : GWait), s.mem.wf = true → s.stopped = false → s.phys n.toNat = p →
    (s.tile p).seq.gwait = some g → (s.tile p).seq.st = .waitGauge → g.retryAt.isSome = true → g.timeout ≠ 0 →
    g.timeout ≤ s.clk - g.start →
    ∃ t, exec (.sequencerRetryTimeout n) s = .next t ∧ Faulted s t 0x4101 (s.tileCtx p))

/-- Messages leave a tile, hop and spread (R39, R161, R164, R166, R168, R170, R180, R185, R223). The first message of the
egress list, when its lane has room, enters the local input with its source and device filled in, counted in the census; a
malformed one is dropped and counted; one for a port of its own tile is placed there and enters no router; a tile whose
section is being switched emits nothing. A head that the arbiters grant moves to the next router on its way, along x first
within its die; a parity error in its payload is counted and marks the flit, and one in its header discards it. A dike holds
the head it must, and the census falls. A multicast at a router inside its rectangle leaves a copy for that place and goes on
to each neighbour of its spread, all or none. -/
def Obligations.MessagesMove : Prop :=
  (∀ (n : BitVec 10) (s : State) (p u : Nat) (m : Msg) (r : List (Nat × Msg)), Canonical s → Runs s → n.toNat < s.ntiles →
    s.phys n.toNat = p → (s.tile p).egress = (u, m) :: r → (∀ op l, (s.tile p).queue u = op :: l → op.out = none) →
    let k := qKey .tile (kindLane m.kind)
    let m1 := egressMsg s n.toNat u m
    let port := (s.tile p).port m1.dstUnit m1.dstPort
    kindLane m1.kind = kindLane m.kind →
    ((s.tile p).sect.loading = false → malformed s m1 = false → inTile s n.toNat m1 = false →
      laneRoom ((s.tile p).router.held k) m.flits = true →
      ∃ t, exec (.messageEgress n none) s = .next t ∧ Only [.tiles, .census] s t ∧ QueueBecomes s t p k (s.rq p k ++ [m1]) ∧
        (t.tile p).egress = r ∧ t.census = (s.count m1 1).census ∧ ∀ q, q ≠ p → t.tile q = s.tile q) ∧
    ((s.tile p).sect.loading = false → malformed s m1 = true →
      ∃ t, exec (.messageEgress n none) s = .next t ∧ Only [.tiles, .log, .vectors] s t ∧ (∀ q j, t.rq q j = s.rq q j) ∧
        (t.tile p).egress = r ∧ (t.tile p).regs.malformed = sat32 (s.tile p).regs.malformed 1 ∧ ∀ q, q ≠ p → t.tile q = s.tile q) ∧
    ((s.tile p).sect.loading = false → malformed s m1 = false → inTile s n.toNat m1 = true → firewalled s m1 m1.dstTile = false →
      isOrphan (s.tile p) m1 = false → m1.gen = (s.tile p).sect.gen.toNat → FifoTakes (s.tile p) m1.dstUnit m1.dstPort m1 →
      ∃ t, exec (.messageEgress n none) s = .next t ∧ Only [.tiles] s t ∧ (t.tile p).egress = r ∧
        (t.tile p).port m1.dstUnit m1.dstPort = portTook port m1 ∧ (t.tile p).router = (s.tile p).router ∧
        (∀ v j, 8 * (v - 1) + j ≠ 8 * (m1.dstUnit - 1) + m1.dstPort → (t.tile p).port v j = (s.tile p).port v j) ∧
        ∀ q, q ≠ p → t.tile q = s.tile q) ∧
    ((s.tile p).sect.loading = true → ∃ t, exec (.messageEgress n none) s = .next t ∧ Only [] s t)) ∧
  (∀ (p : BitVec 11) (side d : Side) (lane : BitVec 2) (s : State) (m : Msg) (r : List Msg) (q : Nat),
    HeadOf s p.toNat (qKey side lane.toNat) m r → p.toNat < 1088 → lane.toNat < 2 → granted s p.toNat (.lane side lane.toNat) = true →
    (s.tile p.toNat).router.dike = [] → nextHop s p.toNat m = .hop q d → pDie q = pDie p.toNat → q ≠ p.toNat →
    (s.tile q).router.spill = [] →
    let k := qKey side lane.toNat
    let j := qKey d lane.toNat
    (∃ t, exec (.messageHop p side lane none none) s = .next t ∧ Only [.tiles] s t ∧ t.rq p.toNat k = r ∧ t.rq q j = s.rq q j ++ [m] ∧
      (∀ v i, (v, i) ≠ (p.toNat, k) → (v, i) ≠ (q, j) → t.rq v i = s.rq v i) ∧
      ∀ v, { t.tile v with router := (s.tile v).router, ctrs := (s.tile v).ctrs } = s.tile v) ∧
    (∀ e : FlitError, e.flit.toNat < m.flits →
      let bad := badLanes (m.flit e.flit.toNat) e
      (bad ≠ [] → (∀ i ∈ bad, e.flit.toNat = 0 → 2 ≤ i) → ∀ m1, (Load.msg m).marred e true = .msg m1 →
        ∃ t, exec (.messageHop p side lane (some e) none) s = .next t ∧ Only [.tiles, .log, .vectors] s t ∧ t.rq p.toNat k = r ∧
          t.rq q j = s.rq q j ++ [m1] ∧ e.flit.toNat ∈ m1.fp ∧
          (t.tile q).regs.parPayload = BitVec.ofNat 16 (satAdd 16 (s.tile q).regs.parPayload.toNat 1)) ∧
      ((∃ i ∈ bad, i < 2) → e.flit.toNat = 0 → s.tileRun q = none →
        ∃ t, exec (.messageHop p side lane (some e) none) s = .next t ∧ Only [.tiles, .census, .log, .vectors] s t ∧
          t.rq p.toNat k = r ∧ t.rq q j = s.rq q j ∧ t.census = (countAt s q d m (-1)).census ∧
          (t.tile q).regs.parHeader = BitVec.ofNat 16 (satAdd 16 (s.tile q).regs.parHeader.toNat 1))) ∧
    (m.here s = true → m.copy = none → m.mcast = false → m.dstY < 16 → m.dstDie = pDie p.toNat → pDie p.toNat < 4 →
      let a := s.phys m.dstTile
      (pX p.toNat < pX a → q = pOf (pDie p.toNat) (pX p.toNat + 1) (pY p.toNat) ∧ d = .west) ∧
      (pX a < pX p.toNat → q = pOf (pDie p.toNat) (pX p.toNat - 1) (pY p.toNat) ∧ d = .east) ∧
      (pX a = pX p.toNat → pY p.toNat < pY a → q = pOf (pDie p.toNat) (pX p.toNat) (pY p.toNat + 1) ∧ d = .north) ∧
      (pX a = pX p.toNat → pY a < pY p.toNat → q = pOf (pDie p.toNat) (pX p.toNat) (pY p.toNat - 1) ∧ d = .south))) ∧
  (∀ (p : BitVec 11) (side : Side) (lane : BitVec 2) (err : Option FlitError) (s : State) (m : Msg) (r : List Msg),
    HeadOf s p.toNat (qKey side lane.toNat) m r → p.toNat < 1088 → lane.toNat < 2 → spreads s p.toNat side m = false →
    dikeHolds s p.toNat side m = true → (s.tile p.toNat).router.dike = [] → (s.tile p.toNat).router.spill = [] →
    ∃ t, exec (.messageHop p side lane err none) s = .next t ∧ Only [.tiles, .census] s t ∧ t.census = (s.count m (-1)).census ∧
      (t.tile p.toNat).router = { (s.tile p.toNat).router with dike := [qKey side lane.toNat] } ∧
      (∀ q, q ≠ p.toNat → t.tile q = s.tile q)) ∧
  (∀ (p : BitVec 11) (side : Side) (lane : BitVec 2) (s : State) (m : Msg) (r : List Msg),
    HeadOf s p.toNat (qKey side lane.toNat) m r → lane.toNat < 2 → spreads s p.toNat side m = true →
    (s.tile p.toNat).router.spill = [] → (s.tile p.toNat).router.dike = [] →
    (∀ e ∈ spreadTo p.toNat m, (s.tile e.1).router.spill = [] ∧ e.1 ≠ p.toNat ∧ s.diked e.1 = false) →
    let d := pDie p.toNat
    let k := qKey side lane.toNat
    let room (e : Nat × Side) : Bool := laneRoom ((s.tile e.1).router.held (qKey e.2 lane.toNat)) m.flits
    ((∀ e ∈ spreadTo p.toNat m, room e = true) → (spreadTo p.toNat m).Pairwise (fun a b => a.1 ≠ b.1) →
      ∃ t, exec (.multicastSpread p side lane none none) s = .next t ∧ Only [.tiles] s t ∧
        t.rq p.toNat k = { m with copy := some (lOf d (pX p.toNat) (pY p.toNat)) } :: r ∧
        (∀ e ∈ spreadTo p.toNat m, t.rq e.1 (qKey e.2 lane.toNat) = s.rq e.1 (qKey e.2 lane.toNat) ++ [m]) ∧
        (∀ v j, (v, j) ≠ (p.toNat, k) → (∀ e ∈ spreadTo p.toNat m, (v, j) ≠ (e.1, qKey e.2 lane.toNat)) → t.rq v j = s.rq v j)) ∧
    ((∃ e ∈ spreadTo p.toNat m, room e = false) →
      ∃ t, exec (.multicastSpread p side lane none none) s = .next t ∧ Only [] s t))

/-- Delivery (R35, R36, R37, R180, R182, R184, R185, R186, R245). A lane-0 head whose way ends at its tile, and that the
ejection arbiter grants, joins its port's FIFO when the checks pass, leaves its queue, and the census falls; a stale one is
discarded and counted, one from another polder dropped and counted, one for a port that takes nothing is counted as an
orphan; without the grant it stays. A full port back-pressures. A head that waited for a full port is offered again the same
way. The whole message at the head of an overflow basin moves into the FIFO when it fits, and the first spilled message of a
port returns to it. -/
def Obligations.MessagesDelivered : Prop :=
  (∀ (p : BitVec 11) (side : Side) (s : State) (m0 : Msg) (r : List Msg), HeadOf s p.toNat (qKey side 0) m0 r →
    spreads s p.toNat side m0 = false → nextHop s p.toNat m0 = .tile → (s.tile p.toNat).router.spill = [] → m0.kind ≠ 4 →
    let m := m0.ingress
    let y := s.tile p.toNat
    let u := m.dstUnit
    let k := m.dstPort
    let gone (t : State) : Prop := QueueBecomes s t p.toNat (qKey side 0) r ∧ t.census = (s.count m (-1)).census ∧
      ∀ q, q ≠ p.toNat → t.tile q = s.tile q
    (ejectGranted s p.toNat (.lane side 0) = true →
      (firewalled s m m.dstTile = false → isOrphan y m = false → m.gen = y.sect.gen.toNat → FifoTakes y u k m →
        (∃ t, exec (.messageDelivery p side 0 none) s = .next t ∧ Only [.tiles, .census] s t ∧ gone t ∧
          (t.tile p.toNat).port u k = portTook (y.port u k) m ∧
          (∀ v j, 8 * (v - 1) + j ≠ 8 * (u - 1) + k → (t.tile p.toNat).port v j = y.port v j)) ∧
        (∀ (n : BitVec 10) (port : BitVec 6), s.phys n.toNat = p.toNat → n.toNat < s.ntiles → portNo u k = port.toNat →
          ∃ t, exec (.backpressureReoffer n port) s = .next t ∧ Only [.tiles, .census] s t ∧ gone t ∧
            (t.tile p.toNat).port u k = portTook (y.port u k) m)) ∧
      (firewalled s m m.dstTile = false → isOrphan y m = false → m.gen ≠ y.sect.gen.toNat →
        ∃ t, exec (.messageDelivery p side 0 none) s = .next t ∧ Only [.tiles, .census] s t ∧ gone t ∧
          (t.tile p.toNat).port u k = { y.port u k with staleSeen := true } ∧
          (t.tile p.toNat).regs = { y.regs with stale := sat32 y.regs.stale 1 }) ∧
      (firewalled s m m.dstTile = false → isOrphan y m = true →
        ∃ t, exec (.messageDelivery p side 0 none) s = .next t ∧ Only [.tiles, .census, .log, .vectors] s t ∧ gone t ∧
          (t.tile p.toNat).ports = y.ports ∧ (t.tile p.toNat).regs = { y.regs with orphan := sat32 y.regs.orphan 1 }) ∧
      (firewalled s m m.dstTile = true →
        ∃ t, exec (.messageDelivery p side 0 none) s = .next t ∧ Only [.tiles, .census, .log, .vectors] s t ∧ gone t ∧
          (t.tile p.toNat).ports = y.ports ∧
          (t.tile p.toNat).regs = { y.regs with fwPolder := BitVec.ofNat 24 (satAdd 24 y.regs.fwPolder.toNat 1) })) ∧
    (ejects s p.toNat (.lane side 0) = true → ejectGranted s p.toNat (.lane side 0) = false →
      ∃ t, exec (.messageDelivery p side 0 none) s = .next t ∧ Only [] s t) ∧
    (firewalled s m m.dstTile = false → isOrphan y m = false → m.gen = y.sect.gen.toNat → 1 ≤ u → u ≤ 6 → m.kind ≠ 5 →
      y.ovfEn u k = false → m.flits ≤ 8 → (∀ e ∈ y.steerSpill, e.1 ≠ portNo u k) → 8 < (y.port u k).entries + m.flits →
      ∃ t, exec (.messageDelivery p side 0 none) s = .next t ∧ Only [.tiles] s t ∧ t.rq p.toNat (qKey side 0) = m0 :: r ∧
        (t.tile p.toNat).port u k = { y.port u k with backp := true } ∧ ∀ q, q ≠ p.toNat → t.tile q = s.tile q)) ∧
  (∀ (n : BitVec 10) (port : BitVec 6) (s : State) (p : Nat), Canonical s → Runs s → s.phys n.toNat = p → n.toNat < s.ntiles →
    port.toNat < 48 →
    let u := port.toNat / 8 + 1
    let k := port.toNat % 8
    let y := s.tile p
    let x := y.port u k
    let b := y.bindBasin u k
    let m := basinHead s p b
    (x.inBasin ≠ 0 → m.flits ≤ 8 → x.entries + m.flits ≤ 8 → (∀ w ∈ y.localList, inInput y w = true) →
      ∃ t, exec (.overflowBasinMove n port none) s = .next t ∧ Only [.tiles, .snoops] s t ∧
        (t.tile p).port u k = { x with fifo := x.fifo ++ [m], inBasin := x.inBasin - 1 } ∧
        (t.tile p).basin b = (y.basin b).advance (declSize (y.basinDecl b)) (128 * m.flits) ∧
        { t.tile p with ports := y.ports, basins := y.basins } = y ∧ ∀ q, q ≠ p → t.tile q = s.tile q) ∧
    (x.inBasin ≠ 0 → 8 < x.entries + m.flits → ∃ t, exec (.overflowBasinMove n port none) s = .next t ∧ Only [] s t) ∧
    (∀ w r, y.steerSpill = (port.toNat, w) :: r → x.inBasin = 0 → x.entries + w.flits ≤ 8 →
      ∃ t, exec (.steerSpillReturn n port) s = .next t ∧ Only [.tiles] s t ∧ (t.tile p).port u k = portTook x w ∧
        (t.tile p).steerSpill = r ∧ (t.tile p).ctrs = bump y.ctrs (bankCcc 4) 1 ∧
        { t.tile p with ports := y.ports, steerSpill := y.steerSpill, finished := y.finished, ctrs := y.ctrs } = y ∧
        ∀ q, q ≠ p → t.tile q = s.tile q))

/-- Trees (R174, R176, R177, R178). An up input that its node's entry allows makes an instance, or joins the one of its tree,
tag and part; one that it does not allow is dropped and counted. A complete instance goes up as one message with the combined
payload, of a node that is no root to its parent, of a chained root to the tree above; at another root its result leaves as
data to its destination. What a node sends waits in its combine buffer, counted. A down message frees its instance and goes
on to each child. A full head that has stood still sends a probe, which a full queue behind it sends on; one that comes back
round confirms a cycle, is logged, and spills the lane where that is enabled; one that finds no cycle ends; a spilled message
that the arbiters grant is injected again, with bit 121 set (R187, R188, R189, R190). -/
def Obligations.TreesAndProbes : Prop :=
  (∀ (p : BitVec 11) (side : Side) (s : State) (m0 : Msg) (r : List Msg), HeadOf s p.toNat (qKey side 1) m0 r →
    nextHop s p.toNat m0 = .tile → spreads s p.toNat side m0 = false → (s.tile p.toNat).router.spill = [] →
    let m := m0.ingress
    m.down = false → firewalled s m m.dstTile = false →
    let y := s.tile p.toNat
    let e := s.member m.dstTile m.tree
    let src := treeSrc s m m.dstTile
    (treeRefuses e m src = false → y.router.insts = [] → (src = none ∨ 1 ≤ meChildren e) →
      ∃ t, exec (.treeInput p side) s = .next t ∧ Only [.tiles, .census] s t ∧ t.rq p.toNat (qKey side 1) = r ∧
        (t.tile p.toNat).router.insts = [⟨(s.ltile m.dstTile).router.instId, m.tree, m.tag, m.part, [⟨src, m⟩], false, false⟩] ∧
        t.census = (s.count m (-1)).census ∧
        (∀ j, j ≠ qKey side 1 → t.rq p.toNat j = s.rq p.toNat j) ∧ ∀ q, q ≠ p.toNat → t.tile q = s.tile q) ∧
    (∀ i x, treeRefuses e m src = false → isList m.rop = false → y.router.insts = [i] → i.tree = m.tree → i.tag = m.tag →
      i.part = m.part → i.done = false → i.root = false → i.inputs = [x] → x.src ≠ src →
      (∀ c, x.src = some c → src ≠ none → 2 ≤ meChildren e) → (x.src = none → src ≠ none → 1 ≤ meChildren e) →
      ∃ t, exec (.treeInput p side) s = .next t ∧ Only [.tiles, .census] s t ∧ t.rq p.toNat (qKey side 1) = r ∧
        (t.tile p.toNat).router.insts = [{ i with inputs := [x, ⟨src, m⟩] }] ∧ t.census = (s.count m (-1)).census) ∧
    (treeRefuses e m src = true →
      ∃ t, exec (.treeInput p side) s = .next t ∧ Only [.tiles, .census, .log, .vectors] s t ∧
        QueueBecomes s t p.toNat (qKey side 1) r ∧
        (t.tile p.toNat).regs = { y.regs with fwTree := BitVec.ofNat 8 (satAdd 8 y.regs.fwTree.toNat 1) } ∧
        t.census = (s.count m (-1)).census)) ∧
  (∀ (p : BitVec 11) (tree : BitVec 6) (tag : BitVec 16) (s : State) (n : Nat) (i : Inst), Canonical s → Runs s →
    s.logical p.toNat = some n → (s.tile p.toNat).router.insts = [i] → i.tree = tree.toNat → i.tag = tag.toNat →
    let y := s.tile p.toNat
    let e := s.member n tree.toNat
    let pay := (i.combined (meRop e)).1
    let bad := (i.combined (meRop e)).2 || i.poisoned
    let g := y.sect.gen.toNat
    let own (m : Msg) : Msg := if m.dstDev == 0xFFFF then m.put 0 16 s.deviceId else m
    let sends (t : State) (m : Msg) (root : Bool) : Prop := Only [.tiles, .census] s t ∧
      (t.tile p.toNat).router = { y.router with insts := [{ i with done := true, root := root }], nodeOut := y.router.nodeOut ++ [(i.id, own m)] } ∧
      t.census = (s.count (own m) 1).census ∧ ∀ q, q ≠ p.toNat → t.tile q = s.tile q
    i.complete e = true → isList (meRop e) = false →
    (meRoot e = false ∨ meChain e = true → ∀ m,
      upMsgs s n (if meRoot e then meDest e else tileDest (meParent e) 0 0) (if meRoot e then meChainTree e else i.tree) (meRop e)
        i.tag i.part g bad pay = [m] → malformed s (own m) = false →
      ∃ t, exec (.instanceCombined p tree tag) s = .next t ∧ sends t m false) ∧
    (meRoot e = true → meChain e = false → meValid e = true → meDown e = false → i.children = [] →
      ∀ m, dataMsgs (srcOf s n 0) (meDest e) i.tag g bad pay = [m] → malformed s (own m) = false →
      ∃ t, exec (.instanceCombined p tree tag) s = .next t ∧ sends t m true)) ∧
  (∀ (p : BitVec 11) (side : Side) (s : State) (m0 : Msg) (r : List Msg) (i : Inst), HeadOf s p.toNat (qKey side 1) m0 r →
    nextHop s p.toNat m0 = .tile → spreads s p.toNat side m0 = false → (s.tile p.toNat).router.spill = [] → side ≠ .node →
    let m := m0.ingress
    let y := s.tile p.toNat
    let e := s.member m.dstTile m.tree
    let own (m : Msg) : Msg := if m.dstDev == 0xFFFF then m.put 0 16 s.deviceId else m
    let l := (i.children.flatMap (fun c => downMsgs s m.src (tileDest c 0 0) m.tree (meRop e) m.tag m.part y.sect.gen.toNat m.poison m.pay)).map own
    m.down = true → firewalled s m m.dstTile = false → meIs e = true → m.srcDie = lDie m.dstTile → meDown e = false →
    isList (meRop e) = false → y.router.insts = [i] → i.tree = m.tree → i.tag = m.tag → i.part = m.part → i.done = true → i.root = false →
    (∀ x ∈ l, malformed s x = false) →
    ∃ t, exec (.downMessage p side) s = .next t ∧ Only [.tiles, .census] s t ∧ (t.tile p.toNat).router.insts = [] ∧
      t.rq p.toNat (qKey side 1) = r ∧ (t.tile p.toNat).router.nodeOut = y.router.nodeOut ++ l.map (fun x => (y.router.instId, x)) ∧
      t.census = (l.foldl (fun z x => z.count x 1) (s.count m (-1))).census ∧ ∀ q, q ≠ p.toNat → t.tile q = s.tile q) ∧
  (∀ (p : BitVec 11) (side d : Side) (lane : BitVec 2) (s : State) (m : Msg) (r : List Msg) (q : Nat),
    let k := qKey side lane.toNat
    HeadOf s p.toNat k m r → side ≠ .node → lane.toNat < 2 → s.fabThreshold ≠ 0 → 8 ≤ flitsOf (s.rq p.toNat k) →
    (s.tile p.toNat).router.dike = [] → spreads s p.toNat side m = false → nextHop s p.toNat m = .hop q d → pDie q = pDie p.toNat →
    max 64 s.fabThreshold ≤ s.clk - agetD (s.tile p.toNat).router.moved k s.clk → (∀ x ∈ s.probes, (x.origin, x.key) ≠ (p.toNat, k)) →
    ∃ t, exec (.probeSend p side lane) s = .next t ∧ Only [.probes] s t ∧
      t.probes = s.probes ++ [⟨p.toNat, k, sideNo d, q, 1, s.clk + 1⟩]) ∧
  (∀ (e : Probe) (s : State), Canonical s → Runs s → s.probes = [e] → e.at_ ≤ s.clk → e.router = e.origin → 3 * e.side + e.key % 3 = e.key →
    let y := s.tile e.origin
    (bitOf (s.reg 0x201000).toNat 20 = false →
      ∃ t, exec (.probe 0) s = .next t ∧ Only [.tiles, .log, .vectors, .probes] s t ∧ t.probes = [] ∧
        (t.tile e.origin).ctrs = bump y.ctrs (bankFbc 3) 1 ∧ ∀ q, q ≠ e.origin → t.tile q = s.tile q) ∧
    (∀ m, bitOf (s.reg 0x201000).toNat 20 = true → s.rq e.origin e.key = [m] → asorted y.router.queues = true → e.key < 15 →
      e.key % 3 ≠ 2 → y.spillFits m.flits = true →
      ∃ t, exec (.probe 0) s = .next t ∧ Only [.tiles, .log, .vectors, .probes] s t ∧ t.probes = [] ∧ t.rq e.origin e.key = [] ∧
        (t.tile e.origin).router.spill = y.router.spill ++ [⟨sideOf (e.key / 3), e.key % 3, .msg m⟩] ∧
        (t.tile e.origin).regs.fabSpillFull = false ∧ ∀ q, q ≠ e.origin → t.tile q = s.tile q)) ∧
  (∀ (e : Probe) (s : State), Canonical s → Runs s → s.probes = [e] → e.at_ ≤ s.clk → (e.router ≠ e.origin ∨ 3 * e.side + e.key % 3 ≠ e.key) →
    let k := 3 * e.side + e.key % 3
    (1024 ≤ e.hops ∨ flitsOf (s.rq e.router k) < 8 ∧ e.key % 3 ≠ 2 →
      ∃ t, exec (.probe 0) s = .next t ∧ Only [.probes] s t ∧ t.probes = []) ∧
    (∀ m r q d, e.hops < 1024 → e.key % 3 ≠ 2 → e.side < 5 → s.rq e.router k = m :: r → 8 ≤ flitsOf (s.rq e.router k) →
      (s.tile e.router).router.dike = [] → spreads s e.router (sideOf e.side) m = false → nextHop s e.router m = .hop q d →
      pDie q = pDie e.router →
      ∃ t, exec (.probe 0) s = .next t ∧ Only [.probes] s t ∧
        t.probes = [{ e with side := sideNo d, router := q, hops := e.hops + 1, at_ := e.at_ + 1 }])) ∧
  (∀ (p : BitVec 11) (s : State) (side d : Side) (lane q : Nat) (m0 : Msg) (r : List Spilled), Canonical s → Runs s →
    (s.tile p.toNat).router.spill = ⟨side, lane, .msg m0⟩ :: r → lane < 2 →
    let m := m0.respilled
    let j := qKey d lane
    spreads s p.toNat side m = false → dikeHolds s p.toNat side m = false → (s.tile p.toNat).router.dike = [] →
    nextHop s p.toNat m = .hop q d → pDie q = pDie p.toNat → q ≠ p.toNat → (s.tile q).router.spill = [] →
    granted s p.toNat .reinject = true →
    ∃ t, exec (.reInjection p none) s = .next t ∧ Only [.tiles] s t ∧ (t.tile p.toNat).router.spill = r ∧
      t.rq q j = s.rq q j ++ [m] ∧ ∀ v i, (v, i) ≠ (q, j) → t.rq v i = s.rq v i)

/-- Operations of the engines (R50, R90-R93, R104-R107, R112-R120, R148, R239-R244). An MMA, an ATTN, an operation of the
vector engine or of the reduction unit, a DISPATCH and a conversion at the front of its engine's queue completes: it leaves
the queue, the basins its inputs took advance, its gauge is signalled, and no byte of memory changes but the results it
writes: those of its chapter, computed in loop order. One that sends messages stays at the front until the last has left egress
(R197, R244). -/
def Obligations.EngineOperationsComplete : Prop :=
  ∀ (n : BitVec 10) (s : State) (p : Nat) (op : Op) (rest : List Op),
    let d := (s.tile p).desc op.desc
    let l := (s.tile p).loopT op.loop
    (AtEngine s n 1 p op rest → leAt d 1 1 = 1 →
      ∃ t, exec (.mma n none) s = .next t ∧ Completed s t p 1 op rest l (mmaIns d l) (mmaWrites s p op.swaps d l) ∧
        ∃ a b, Computed (mmaBody (seen s a b) p op d l) t p) ∧
    (AtEngine s n 1 p op rest → leAt d 1 1 = 2 →
      ∃ t, exec (.attn n none) s = .next t ∧ Completed s t p 1 op rest l (attnIns d l) (attnWrites s p op.swaps d l) ∧
        ∃ a b, Computed (attnBody (seen s a b) p op d l) t p) ∧
    (AtEngine s n 2 p op rest →
      ∃ t, exec (.vectorEngineOperation n none) s = .next t ∧ Completed s t p 2 op rest l (vIns d l) (vWrites s p op.swaps d l) ∧
        ∃ a b, Computed (vBody (seen s a b) p op d l) t p) ∧
    (AtEngine s n 3 p op rest →
      ∃ t a b, exec (.reductionOperation n none) s = .next t ∧
        let x := rBody (seen s a b) p op d l
        SentOrCompleted s x t p 3 op rest l (rIns d l) (rWrites s p op.swaps d l) ∧ Computed x t p) ∧
    (AtEngine s n 5 p op rest → leAt d 1 1 = 0x40 →
      ∃ t a b, exec (.dispatch n none) s = .next t ∧
        let x := dispatchBody (seen s a b) p op d l
        SentOrCompleted s x t p 5 op rest l (dispatchIns d l) (dispatchWrites s p op.swaps d l) ∧ Computed x t p) ∧
    (AtEngine s n 5 p op rest → leAt d 1 1 ≠ 0x40 → leAt d 1 1 ≠ 0x41 →
      ∃ t, exec (.transformEngineConversion n none) s = .next t ∧ Completed s t p 5 op rest l (xIns d l) (xWrites s p op.swaps d l) ∧
        ∃ a b, Computed (xBody (seen s a b) p op d l) t p)

/-- Results of one access (R71, R74, R92, R93, R103, R112-R115, R118, R119). One row segment of an MMA leaves its 64
accumulator entries and, with write, its converted elements; with zskip a row whose blocks are all zero leaves every entry as
it was. One loop point of an operation of the vector engine leaves its elements, packed, at the address of stream 2; a
reduction of axis 2 leaves its one result there. -/
def Obligations.EngineResults : Prop :=
  ∀ (n : BitVec 10) (s : State) (p : Nat) (op : Op) (rest : List Op),
    let y := s.tile p
    let d := y.desc op.desc
    let l := y.loopT op.loop
    let st := loopStream l 2
    (∀ pt, AtEngine s n 1 p op rest → leAt d 1 1 = 1 → segPoints l = [pt] → asorted y.acc = true →
      let chunk (k : Nat) := aChunkAt s p op.swaps d (loopStream l 0) (mmaAddr l 0 (pt.set 0 k))
      let entry (c : Nat) := accEntry d ((loopLevels l).getD 2 ⟨0, 0, []⟩).bound (pt.getD 1 0) (pt.getD 2 0) c
      let fmt := convFmt (mmaConv d)
      let row := issuedRow s p op.swaps d l pt
      let out := (mmaConvert s p d l pt (epiSegment d row (mmaExtra s p op.swaps d l pt))).bytes fmt
      let scales := companion st (mmaAddr l 2 pt) (segBytes (mmaFunc d) fmt) (mmaCScale d) (segCols (mmaFunc d) / fmtBlock fmt)
      ∃ t, exec (.mma n none) s = .next t ∧
        (∀ c, c < 64 → agetD (t.tile p).acc (entry c) 0 = (row.getD c (.of 0, false)).1.w) ∧
        (∀ i, i < out.length → out.length ≤ 4096 → mmaWrite d = true →
          ¬ (fmtIsBlock fmt = true ∧ Reached s p op.swaps st [scales] (segCols (mmaFunc d) / fmtBlock fmt)
              (streamPlace s p op.swaps st (mmaAddr l 2 pt + Int.ofNat i))) →
          t.mem.byte (streamPlace s p op.swaps st (mmaAddr l 2 pt + Int.ofNat i)) = out.getD i 0) ∧
        (mmaZskip d = true → mmaInit d = 1 →
          (∀ k, k < ((loopLevels l).getD 0 ⟨0, 0, []⟩).bound → ∀ j, j < chunkElems (mmaA d) / zeroBlock (mmaA d) (mmaB d) →
            (chunk k).zero (mmaA d) (zeroBlock (mmaA d) (mmaB d)) j = true) →
          ∀ c, c < 64 → agetD (t.tile p).acc (entry c) 0 = agetD y.acc (entry c) 0)) ∧
    (∀ pt, AtEngine s n 2 p op rest → loopPoints (loopLevels l) = [pt] → st.enabled = true → vLoc d 2 = 0 →
      let g := gOf ((vStreams d l).map (·.2))
      let i0 := pointIndex (vIndexBase d) (vStride d) (loopLevels l) pt
      let x (k e : Nat) := if vReadsOp (vOp d) k then (vOperand s p op.swaps d l pt k g).1.getD e 0 else 0
      let out := packElems (convFmt (vConv d)) ((List.range g).map (fun e => (vElem d (s.seed p) ((i0 + e) % 2 ^ 64) (x 0 e) (x 1 e) (x 2 e)).1))
      ∃ t, exec (.vectorEngineOperation n none) s = .next t ∧ ∀ i, i < out.length →
        t.mem.byte (streamPlace s p op.swaps st (pointAddr st 2 (loopLevels l) pt + Int.ofNat i)) = out.getD i 0) ∧
    (AtEngine s n 3 p op rest → rNet d = false → rAxis d = 2 →
      let rowsAt := (loopPoints (pinned (loopLevels l) (levelOf (loopLevels l) 0))).map (rRow s p op.swaps d l)
      let out := ((foldResults d (s.seed p) (rG d l) false rowsAt).map (·.out)).flatten
      ∃ t, exec (.reductionOperation n none) s = .next t ∧ ∀ i, i < out.length → out.length ≤ 4096 →
        t.mem.byte (streamPlace s p op.swaps st (pointAddr st 2 (loopLevels l) (List.replicate 6 0) + Int.ofNat i)) = out.getD i 0)

/-- DRAW and VERIFY (R127-R133) at the root of a sampler operation, and COMBINE (R248-R253). A draw leaves one record for each
row, a verification one for each sequence, on every participating tile the operation leaves its queue, and no other byte of
memory changes. A COMBINE takes the messages of its basin in order; with every column collected it writes its sums, clears its
collection and leaves the queue, and else it stays at the front. -/
def Obligations.SamplerAndCombine : Prop :=
  (∀ (n : BitVec 10) (s : State) (root : Part4), AtRoot s n 1 root →
    ∃ t, exec (.draw n none) s = .next t ∧
      Sampled s t root ((List.range (sRows root.d)).map (fun q => (q, drawSeq s (partners s root) root q)))) ∧
  (∀ (n : BitVec 10) (s : State) (root : Part4), AtRoot s n 2 root →
    ∃ t, exec (.verify n none) s = .next t ∧
      Sampled s t root ((verifyGo s (partners s root) root (sRows root.d) (sRows root.d) 0 0).map (fun e => (e.1, e.2.1)))) ∧
  (∀ (n : BitVec 10) (s : State) (p : Nat) (op : Op) (rest : List Op), AtEngine s n 5 p op rest →
    let d := (s.tile p).desc op.desc
    let l := (s.tile p).loopT op.loop
    leAt d 1 1 = 0x41 →
    ∃ a b, let x := collectGo p n.toNat op d l (((s.tile p).basin (cBasin d)).used / 128 + 1) (seen s a b)
      (∀ q, q ≠ p → x.tile q = s.tile q) ∧ Untouched (s.tile p) (x.tile p) ∧ (x.tile p).queue 5 = op :: rest ∧
      (collected x p op d l = true →
        let z := (List.range (cRows d)).foldl (combineRow p op d l) x
        ∃ t, exec (.combine n none) s = .next t ∧
          Completed x t p 5 op rest l (combineIns d l)
            (Reached x p op.swaps (loopStream l 2)
              ((List.range (cRows d)).map (fun r => Int.ofNat ((loopStream l 2).base + r * cWidth d * fmtBits (convFmt (cConv d)) / 8)))
              ((fmtBits (convFmt (cConv d)) * cWidth d + 7) / 8)) ∧
          Computed z t p ∧ (t.tile p).collect = ⟨[], false⟩ ∧ Only [.mem, .tiles, .log, .vectors, .snoops] s t) ∧
      (collected x p op d l = false →
        ∃ t, exec (.combine n none) s = .next t ∧ t.tile p = x.tile p ∧ t.mem = x.mem ∧ (∀ q, q ≠ p → t.tile q = s.tile q) ∧
          Only [.mem, .tiles, .log, .vectors, .snoops] s t))

/-- Streamed firings and sluices (R38, R40, R42-R46, R109, R117). A unit whose ports all hold a token takes one of each,
counts the firing and sends its results: the matrix engine one message for each row of a payload of whole records and each
batch iteration, and nothing but a count and an event for another; units 2 and 3 what their descriptor computes, and nothing
where the access counts differ. A fork sends its token to every enabled route; a switch, merge or gate sends or discards the
data token its control token selects, and takes the control token with the last of its run; without a control token a sluice
does nothing. -/
def Obligations.FiringsAndSluices : Prop :=
  (∀ (n : BitVec 10) (s : State) (p : Nat) (m : Msg), AtFiring s n 1 p → (firingPort (s.tile p) 1).bind (portHead s p 1) = some m →
    let d := (s.tile p).desc 0
    let rec_ := aRecord d ((loopLevels ((s.tile p).loopT 0)).getD 0 ⟨0, 0, []⟩).bound
    ∃ a b t, exec (.matrixStreamedFiring n none) s = .next t ∧ Fired s (matrixFire (seen s a b) p m) t p 1 ∧
      (m.pay.length % rec_ = 0 → rec_ ≠ 0 →
        ∃ ms, (t.tile p).egress = (s.tile p).egress ++ ms ∧
          ms.length = m.pay.length / rec_ * (outTiles (withRows ((s.tile p).loopT 0) (m.pay.length / rec_))).length ∧
          ∀ e ∈ ms, ∃ bad pay, e = (1, mkMsg (if m.kind = 5 ∧ fld (streamDest (s.tile p) d m) 27 4 = 15
              then tileDest (m.tag % 1024) 7 (fld (streamDest (s.tile p) d m) 31 3) else streamDest (s.tile p) d m)
            m.tag (s.tile p).sect.gen.toNat (if m.kind = 5 then 5 else 0) bad pay)) ∧
      (m.pay.length % rec_ ≠ 0 ∨ rec_ = 0 → (t.tile p).egress = (s.tile p).egress)) ∧
  (∀ (n : BitVec 10) (s : State) (p : Nat) (reduction : Bool), AtFiring s n (if reduction then 3 else 2) p →
    ∃ t, exec (.streamedFiring n reduction none) s = .next t ∧
      Fired s (if reduction then reductionFire s p else vectorFire s p) t p (if reduction then 3 else 2)) ∧
  (∀ (n : BitVec 10) (s : State) (p : Nat), AtFiring s n 2 p →
    let d := (s.tile p).desc 0
    let counts := ((vPortOperands d).zip (firingTokens s p 2)).map (fun e => accessCount e.2.pay.length (vFireG d) (vFmt d e.1))
    (∃ c ∈ counts, c ≠ counts.headD 0) →
    ∃ t, exec (.streamedFiring n false none) s = .next t ∧ (t.tile p).egress = (s.tile p).egress) ∧
  (∀ (n : BitVec 10) (k : BitVec 2) (s : State) (p : Nat), AtSluice s n p →
    let y := s.tile p
    let e := y.sluiceEntry k.toNat
    (∀ m, slKind e = 4 → slPortA e < 8 → portHead s p 6 (slPortA e) = some m →
      let routes := (List.range 4).filter (slEnabled e)
      ∃ t, exec (.sluiceFiring n k none) s = .next t ∧
        Steered s t p k.toNat [slPortA e] (routes.map (fun r => (6, routed m (slRoute e r) false)))
          { y.sluice k.toNat with forwarded := sat32 (y.sluice k.toNat).forwarded routes.length }) ∧
    (∀ ctl m, 1 ≤ slKind e → slKind e ≤ 3 → portHead s p 6 (slPortC e) = some ctl →
      let x := slRun (y.sluice k.toNat) ctl
      let x1 : Sluice := { x with remaining := x.remaining - 1, inRun := x.remaining - 1 != 0 }
      portHead s p 6 (slDataPort e x) = some m → slDataPort e x < 8 → slPortC e < 8 → slDataPort e x ≠ slPortC e →
      ∃ t, exec (.sluiceFiring n k none) s = .next t ∧
        Steered s t p k.toNat (if x.remaining - 1 = 0 then [slDataPort e x, slPortC e] else [slDataPort e x])
          (match slTarget e x with | some r => [(6, routed m (slRoute e r) x.poisoned)] | none => [])
          (match slTarget e x with
           | some _ => { x1 with forwarded := sat32 x1.forwarded 1 }
           | none => { x1 with discarded := sat32 x1.discarded 1 })) ∧
    (slKind e = 0 ∨ slKind e ≤ 3 ∧ portHead s p 6 (slPortC e) = none →
      ∃ t, exec (.sluiceFiring n k none) s = .next t ∧ Only [] s t))

/-- A step (R427, log 8): the command at the front of the queue has its effect on the rest of the queue; with no command
waiting, one cycle passes, and none while the part stands. -/
def Obligations.StepRunsFrontCommand : Prop :=
  (∀ (c : Instr) (rest : List Instr) (s : State), s.pending = c :: rest → step s = exec c { s with pending := rest }) ∧
  (∀ s : State, s.pending = [] → s.stopped = true → step s = .next s) ∧
  (∀ s : State, s.pending = [] → Runs s →
    ∃ t, step s = .next t ∧ t.pending = [] ∧ t.part = s.part ∧ t.mem = s.mem ∧ t.tide.now = s.tide.now + 1 ∧
      (skips s = false → t.clk = s.clk + 1) ∧
      (skips s = true → t.clk = s.clk ∧ t.tiles = s.tiles ∧ t.weirs = s.weirs ∧ t.power.skipCnt = s.power.skipCnt.add 1))

/-- Every step from a state whose memory is in its canonical form ends in such a state, with the front command gone from the
queue and what the fuses fix as before (R395); it stops only at a JTAG access beyond those of R414 on a part whose debug is open,
to which the spec gives no meaning. -/
def Obligations.StepsKeepMemoryAndQueue : Prop :=
  ∀ s : State, Canonical s →
    (∃ t, step s = .next t ∧ Canonical t ∧ t.pending = s.pending.tail ∧ t.part = s.part) ∨
    ((∃ code rest, s.pending = .jtagAccess (.other code) :: rest) ∧ s.part.debugOpen = true ∧ s.sec.debugLock = false ∧
      step s = .refused .jtagDebug)

/-- While the core clock stands (PERST_N asserted, a lost rail, THERMTRIP_N; R376, R424, R429) only the commands of the
board's pins, of its telemetry bus and of JTAG change anything. -/
def Obligations.StoppedPartHoldsStill : Prop :=
  ∀ (c : Instr) (s : State), Canonical s → s.stopped = true → ofBoard c = false → exec c s = .next s

/-- The part at reset (R154, R208, R420, Tables 6.6, 7.8, 12.3, 13.8): PERST_N is asserted and the core clock stands; memory
is in its canonical form and reads zero with no word poisoned (beyond tile store that is the model's choice, logs 3 and 5); no
command waits; every tile is unconfigured with the default classes of its store; every gauge is 0 and unbound; there is no
polder, context, run or image; every ring is disabled and empty with 64 entries; the host link is down, the device's ID unset,
the tide count 0 and the trouble log empty. -/
def Obligations.ResetState : Prop :=
  Canonical State.reset ∧ State.reset.pending = [] ∧ State.reset.stopped = true ∧ State.reset.ready = false ∧
  (∀ a, State.reset.mem.byte a = 0) ∧ (∀ g, State.reset.mem.marked g = false) ∧
  (∀ p, (State.reset.tile p).sect.configured = false ∧ (State.reset.tile p).regs.settings = 0x9155E155 ∧
    (State.reset.tile p).seq.st = .idle ∧ (State.reset.tile p).cfg = []) ∧
  (∀ g, State.reset.gauge g = Gauge.reset) ∧ (∀ c v, State.reset.gaugeOf c v = none) ∧
  State.reset.polders = [] ∧ State.reset.ctxs = [] ∧ State.reset.runs = [] ∧ State.reset.images = [] ∧
  (∀ r, (State.reset.ring r).enabled = false ∧ (State.reset.ring r).accepted = [] ∧ (State.reset.ring r).replies = [] ∧
    (State.reset.ring r).entries = 64 ∧ (State.reset.ring r).cplEntries = 64) ∧
  State.reset.host.link = .down ∧ State.reset.deviceId = 0xFFFF ∧ State.reset.fabThreshold = 0x1000 ∧
  State.reset.tideCount = 0 ∧ State.reset.log.entries = [] ∧ State.reset.log.queue = []

/-- After PERST_N and at every FABRIC_RESET (R208) every gauge value is 0 with no waiter and no last signaller, every entry of
the translation tables and of the tile context map is invalid, and every pool is wholly free; no WAKE is sent. -/
def Obligations.GaugesAtReset : Prop :=
  (∀ s : State, s.power.perst = false →
    ∃ t, exec .perstNAssert s = .next t ∧ (∀ g, (t.gauge g).value = 0 ∧ (t.gauge g).waiters = [] ∧ t.gauge g = Gauge.reset) ∧
      (∀ c v, t.gaugeOf c v = none) ∧ (∀ n, aget? t.gauges.tctx n = none) ∧ (∀ b, agetD t.gauges.waitersUsed b 0 = 0) ∧
      t.gauges.wakes = [] ∧ ∀ b, t.gout b = []) ∧
  (∀ (ring : Ring) (s : State) (p : Pkt), Takes s ring 0xF0 [] p →
    ∃ t, exec (.fabricReset ring) s = .next t ∧ (∀ g, (t.gauge g).value = 0 ∧ (t.gauge g).waiters = [] ∧ t.gauge g = Gauge.reset) ∧
      (∀ c v, t.gaugeOf c v = none) ∧ (∀ n, aget? t.gauges.tctx n = none) ∧ (∀ b, agetD t.gauges.waitersUsed b 0 = 0) ∧
      t.gauges.wakes = [] ∧ ∀ b, t.gout b = [])

/-- The vector of an event (R393), sent whether or not the log takes the entry: 1 for every 0x4xxx event; 2 for every 0x5xxx
event and for 0x1250, 0x2301, 0x2302, 0x3301 and 0x3302; 3 for every 0x6xxx event. A masked vector is left pending (R313). -/
def Obligations.EventVectors : Prop :=
  ∀ (s : State) (code kind index v : Nat) (ctx : Option Nat) (detail : List Byte),
    ((0x4000 ≤ code ∧ code < 0x5000 ∧ v = 1) ∨
      ((0x5000 ≤ code ∧ code < 0x6000 ∨ code = 0x1250 ∨ code = 0x2301 ∨ code = 0x2302 ∨ code = 0x3301 ∨ code = 0x3302) ∧ v = 2) ∨
      (0x6000 ≤ code ∧ code < 0x7000 ∧ v = 3)) →
    let t := s.event code kind index ctx detail
    ((s.reg (0x8000 + 16 * v + 12)).getLsbD 0 = false → t.host = { s.host with vecSent := v :: s.host.vecSent }) ∧
    ((s.reg (0x8000 + 16 * v + 12)).getLsbD 0 = true → t.host.vecPending.testBit v = true ∧ t.host.vecSent = s.host.vecSent)

/-- Block scales (R64): an element of a block reads as its value times 2 to the power X - 127 for a scale byte X of 0-254, and
as NaN for 0xFF; a scale has no sign, no zero and no infinity, so it changes neither the sign nor the class of an element. -/
def Obligations.BlockScales : Prop :=
  (∀ (c w : Nat), fmtIsBlock c = true → decScaled c w 0xFF = .nan) ∧
  (∀ (c w x : Nat), fmtIsBlock c = true → x ≤ 254 →
    (∀ n m e, decElem c w = .fin n m e → decScaled c w x = .fin n m (e + (Int.ofNat x - 127))) ∧
    (∀ n, decElem c w = .inf n → decScaled c w x = .inf n) ∧ (decElem c w = .nan → decScaled c w x = .nan))

/-- Packets that a ring turns away (R304, R306, R308). When the host posts one command whose packet, or whose indirect block,
reads with poison, it is not executed and its reply carries POISONED; one of no known opcode is answered BAD_OPCODE; nothing
else changes. A user ring that issues a command of the privileged ring is answered DENIED, and nothing else changes. -/
def Obligations.PacketsTurnedAway : Prop :=
  (∀ (ring : Ring) (tail cplHead : W32) (s : State) (pa st : Nat) (p : Pkt), Canonical s → Runs s →
    let r := ringNo ring
    let x := s.ring r
    let s1 := ({ s with mem := s.mem.write pa (leBytes 4 tail.toNat ++ leBytes 4 cplHead.toNat) false } : State).modRing r
      (fun g => { g with tail := tail, cplHead := cplHead })
    (aget? s.rings r).isSome = true → x.enabled = true → hostUp s = true → x.line.toNat % 64 = 0 →
    s.place x.line.toNat = some pa → tileAt x.line.toNat = none → x.halted = false → haltCause s1 r = none →
    tail = x.head + 1 → nextPkt s1 r = some p →
    (p.poison = true ∧ st = stPoisoned ∨ p.poison = false ∧ p.op ∉ userOps ∧ p.op ∉ privOps ∧ st = stBadOpcode) →
    ∃ t, exec (.tailWriteObserved ring tail cplHead) s = .next t ∧ Only [.rings, .mem, .snoops] s t ∧
      (∀ a, a < pa ∨ pa + 8 ≤ a → t.mem.byte a = s.mem.byte a) ∧
      t.ring r = { x with
        tail := tail, cplHead := cplHead, head := x.head + 1, replies := x.replies ++ [(p.cmd []).reply st 0 0 0] } ∧
      ∀ q, q ≠ r → t.ring q = s.ring q) ∧
  (∀ (ring : Ring) (ok changed : Bool) (oks : Nat) (tr : Training) (e : Instr × Nat × Option Nat) (s : State) (p : Pkt),
    ringNo ring < 64 → e ∈ privCommands ring ok changed oks tr → Posted s ring e.2.1 p → (∀ f, e.2.2 = some f → p.b 8 1 = f) →
    ∃ t, exec e.1 s = .next t ∧ Ends s t ring p [] stDenied 0 0 0)

/-- Errors that an engine meets (R155, R231, R232). A parity error in a structure of codes 1-5 stops the operation before any
effect: it is recorded, no byte of memory changes, and the operation is not taken from its queue. The run of the tile is
replayed, unless it is committed or has been replayed twice: then it is a job fault of code 0x4121. -/
def Obligations.DetectedErrorsReplayRuns : Prop :=
  ∀ (n : BitVec 10) (c : BitVec 3) (e : Instr × Nat × (Nat → Bool)) (s : State) (p : Nat) (op : Op) (rest : List Op) (r : Run),
    e ∈ issuedOps n (some (.parity c)) → AtEngine s n e.2.1 p op rest → e.2.2 (leAt ((s.tile p).desc op.desc) 1 1) = true →
    1 ≤ c.toNat → c.toNat ≤ 5 → s.tileRun p = some r → r.phase = .running →
    (r.committed = false → r.replays < 2 →
      ∃ t, exec e.1 s = .next t ∧ t.mem = s.mem ∧ (t.tile p).queue e.2.1 = op :: rest ∧
        (t.tile p).regs.parLast = c ∧
        (t.tile p).regs.parCount.toNat = min ((s.tile p).regs.parCount.toNat + 1) 65535 ∧ Replays s t r ∧
        (∀ k, (t.polder? k = s.polder? k)) ∧ t.rings = s.rings ∧ t.images = s.images) ∧
    (r.committed = true ∨ 2 ≤ r.replays → ∃ t, exec e.1 s = .next t ∧ Faulted s t 0x4121 (some r.ctx))
end

