-- ==== Sys2Proof/Laws/Assoc.lean ====
section
/-! SUPPORT. Sparse tables: what a look-up gives after a write or a removal, and the canonical form of memory. -/

namespace Sys2Proof.Machine

@[simp] theorem aget?_nil {α : Type} (i : Nat) : aget? ([] : Assoc α) i = none := rfl

@[simp] theorem aget?_aput_self {α : Type} (t : Assoc α) (i : Nat) (x : α) : aget? (aput t i x) i = some x := by
  induction t with
  | nil => simp [aput, aget?]
  | cons e t ih =>
    obtain ⟨k, v⟩ := e
    simp only [aput]
    split
    · simp [aget?]
    · split
      · simp [aget?]
      · rename_i h1 h2; simp only [aget?, h1, h2, if_false, Bool.false_eq_true]; exact ih

theorem aget?_aput_other {α : Type} (t : Assoc α) (i j : Nat) (x : α) (h : j ≠ i) :
    aget? (aput t i x) j = aget? t j := by
  induction t with
  | nil =>
    have h1 : (j == i) = false := by simpa using h
    simp [aput, aget?, h1]
  | cons e t ih =>
    obtain ⟨k, v⟩ := e
    have h1 : (j == i) = false := by simpa using h
    simp only [aput]
    split
    · rename_i hk
      have hk : i = k := by simpa using hk
      subst hk
      simp [aget?, h1]
    · split
      · rename_i hlt
        simp only [aget?, h1, Bool.false_eq_true, if_false]
        split
        · rename_i hji
          have e1 : (j == k) = false := by simp; omega
          have e2 : j < k := by omega
          simp [e1, e2]
        · rfl
      · simp only [aget?, ih]

@[simp] theorem agetD_aput_self {α : Type} (t : Assoc α) (i : Nat) (x d : α) : agetD (aput t i x) i d = x := by
  simp [agetD]

theorem agetD_aput_other {α : Type} (t : Assoc α) (i j : Nat) (x d : α) (h : j ≠ i) :
    agetD (aput t i x) j d = agetD t j d := by simp [agetD, aget?_aput_other t i j x h]

/-! ## Rising keys -/

/-- Every key of a table is above a bound. -/
def keysAbove {α : Type} (b : Nat) (t : Assoc α) : Prop := ∀ e ∈ t, b < e.1

theorem asorted_cons {α : Type} (e : Nat × α) (t : Assoc α) :
    asorted (e :: t) = true ↔ keysAbove e.1 t ∧ asorted t = true := by
  induction t generalizing e with
  | nil => simp [asorted, keysAbove]
  | cons f t ih =>
    obtain ⟨k, v⟩ := e
    obtain ⟨k', v'⟩ := f
    simp only [asorted, Bool.and_eq_true, decide_eq_true_eq]
    constructor
    · rintro ⟨h1, h2⟩
      refine ⟨?_, h2⟩
      have h3 := (ih (k', v')).mp h2
      intro g hg
      rcases List.mem_cons.mp hg with rfl | hg
      · exact h1
      · have := h3.1 g hg; simp at this ⊢; omega
    · rintro ⟨h1, h2⟩
      exact ⟨h1 (k', v') (by simp), h2⟩

theorem aput_mem {α : Type} (t : Assoc α) (i : Nat) (x : α) (e : Nat × α) (h : e ∈ aput t i x) : e = (i, x) ∨ e ∈ t := by
  induction t with
  | nil => simpa [aput] using h
  | cons f t ih =>
    obtain ⟨k, v⟩ := f
    simp only [aput] at h
    split at h
    · rcases List.mem_cons.mp h with h | h <;> simp [h]
    · split at h
      · rcases List.mem_cons.mp h with h | h <;> simp_all
      · rcases List.mem_cons.mp h with h | h
        · simp [h]
        · rcases ih h with h | h <;> simp [h]

theorem aput_sorted {α : Type} (t : Assoc α) (i : Nat) (x : α) (h : asorted t = true) : asorted (aput t i x) = true := by
  induction t with
  | nil => simp [aput, asorted]
  | cons f t ih =>
    obtain ⟨k, v⟩ := f
    have hs := (asorted_cons (k, v) t).mp h
    simp only [aput]
    split
    · rename_i hk
      have hk : i = k := by simpa using hk
      subst hk
      exact (asorted_cons _ _).mpr hs
    · rename_i hne
      have hne : i ≠ k := by simpa using hne
      split
      · rename_i hlt
        refine (asorted_cons _ _).mpr ⟨?_, h⟩
        intro e he
        rcases List.mem_cons.mp he with rfl | he
        · exact hlt
        · have := hs.1 e he; simp at this ⊢; omega
      · rename_i hge
        refine (asorted_cons _ _).mpr ⟨?_, ih hs.2⟩
        intro e he
        rcases aput_mem t i x e he with rfl | he
        · simp; omega
        · exact hs.1 e he

theorem adel_mem {α : Type} (t : Assoc α) (i : Nat) (e : Nat × α) (h : e ∈ adel t i) : e ∈ t := by
  induction t with
  | nil => simp [adel] at h
  | cons f t ih =>
    obtain ⟨k, v⟩ := f
    simp only [adel] at h
    split at h
    · exact List.mem_cons_of_mem _ h
    · split at h
      · exact h
      · rcases List.mem_cons.mp h with h | h
        · simp [h]
        · exact List.mem_cons_of_mem _ (ih h)

theorem adel_sorted {α : Type} (t : Assoc α) (i : Nat) (h : asorted t = true) : asorted (adel t i) = true := by
  induction t with
  | nil => simp [adel, asorted]
  | cons f t ih =>
    obtain ⟨k, v⟩ := f
    have hs := (asorted_cons (k, v) t).mp h
    simp only [adel]
    split
    · exact hs.2
    · split
      · exact h
      · exact (asorted_cons _ _).mpr ⟨fun e he => hs.1 e (adel_mem t i e he), ih hs.2⟩

/-! ## The canonical form of memory -/

theorem awrite_sorted {α : Type} [DecidableEq α] (d : α) (t : Assoc α) (i : Nat) (x : α) (h : asorted t = true) :
    asorted (awrite d t i x) = true := by
  unfold awrite
  split
  · exact adel_sorted t i h
  · exact aput_sorted t i x h

theorem awrite_nonzero {α : Type} [DecidableEq α] (d : α) (t : Assoc α) (i : Nat) (x : α) (h : ∀ e ∈ t, e.2 ≠ d) :
    ∀ e ∈ awrite d t i x, e.2 ≠ d := by
  unfold awrite
  split
  · intro e he; exact h e (adel_mem t i e he)
  · rename_i hx
    intro e he
    rcases aput_mem t i x e he with rfl | he
    · exact hx
    · exact h e he

theorem insNat_mem (l : List Nat) (x y : Nat) : y ∈ insNat l x ↔ y = x ∨ y ∈ l := by
  induction l with
  | nil => simp [insNat]
  | cons z t ih =>
    simp only [insNat]
    split
    · simp
    · split
      · rename_i h; subst h; simp
      · simp [ih]; constructor <;> (rintro (h | h | h) <;> simp [h])

theorem insNat_rising (l : List Nat) (x : Nat) (h : l.Pairwise (· < ·)) : (insNat l x).Pairwise (· < ·) := by
  induction l with
  | nil => simp [insNat]
  | cons z t ih =>
    have ⟨h1, h2⟩ := List.pairwise_cons.mp h
    simp only [insNat]
    split
    · rename_i hx
      refine List.pairwise_cons.mpr ⟨?_, h⟩
      intro y hy
      rcases List.mem_cons.mp hy with rfl | hy
      · exact hx
      · have := h1 y hy; omega
    · split
      · exact h
      · rename_i ha hb
        refine List.pairwise_cons.mpr ⟨?_, ih h2⟩
        intro y hy
        rcases (insNat_mem t x y).mp hy with rfl | hy
        · omega
        · exact h1 y hy

/-- What `canon` gives has the canonical form, whatever it was given. -/
theorem canon_wf (m : Memory) : m.canon.wf = true := by
  have h1 : ∀ l : List Host.Cell,
      asorted (l.foldr (fun c acc => awrite 0 acc c.1 c.2) []) = true ∧
      ∀ e ∈ l.foldr (fun c acc => awrite 0 acc c.1 c.2) [], e.2 ≠ 0 := by
    intro l
    induction l with
    | nil => simp [asorted]
    | cons c t ih => exact ⟨awrite_sorted 0 _ _ _ ih.1, awrite_nonzero 0 _ _ _ ih.2⟩
  have h2 : ∀ l : List Nat, (l.foldr (fun g acc => insNat acc g) []).Pairwise (· < ·) := by
    intro l
    induction l with
    | nil => simp
    | cons c t ih => exact insNat_rising _ _ ih
  have h3 := h1 m.cells
  have h4 := h2 m.poison
  simp only [Memory.wf, Memory.canon, Bool.and_eq_true, List.all_eq_true]
  exact ⟨⟨h3.1, fun e he => by simpa using h3.2 e he⟩, decide_eq_true h4⟩

theorem aput_front {α : Type} (t : Assoc α) (i : Nat) (x : α) (h : keysAbove i t) : aput t i x = (i, x) :: t := by
  cases t with
  | nil => rfl
  | cons f t =>
    obtain ⟨k, v⟩ := f
    have hk : i < k := h (k, v) (by simp)
    have hn : (i == k) = false := by simp; omega
    simp [aput, hn, hk]

theorem insNat_front (l : List Nat) (x : Nat) (h : ∀ y ∈ l, x < y) : insNat l x = x :: l := by
  cases l with
  | nil => rfl
  | cons z t => simp [insNat, h z (by simp)]

/-- Memory in canonical form is its own canonical form. -/
theorem canon_eq (m : Memory) (h : m.wf = true) : m.canon = m := by
  obtain ⟨cells, poison⟩ := m
  simp only [Memory.wf, Bool.and_eq_true, decide_eq_true_eq, List.all_eq_true] at h
  obtain ⟨⟨h1, h2⟩, h3⟩ := h
  have hc : cells.foldr (fun c acc => awrite 0 acc c.1 c.2) [] = cells := by
    clear h3
    induction cells with
    | nil => rfl
    | cons e t ih =>
      have hs := (asorted_cons e t).mp h1
      simp only [List.foldr_cons]
      rw [ih hs.2 (fun x hx => h2 x (List.mem_cons_of_mem _ hx))]
      have hz : e.2 ≠ 0 := by simpa using h2 e (by simp)
      unfold awrite
      rw [if_neg hz, aput_front t e.1 e.2 hs.1]
  have hp : poison.foldr (fun g acc => insNat acc g) [] = poison := by
    clear h1 h2 hc
    induction poison with
    | nil => rfl
    | cons g t ih =>
      have ⟨ha, hb⟩ := List.pairwise_cons.mp h3
      simp only [List.foldr_cons]
      rw [ih hb, insNat_front t g ha]
  simp only [Memory.canon, hc, hp]

/-! ## Every operation on memory keeps the canonical form -/

theorem putByte_wf (m : Memory) (a : Nat) (b : Byte) (h : m.wf = true) : (m.putByte a b).wf = true := by
  simp only [Memory.wf, Memory.putByte, Bool.and_eq_true, decide_eq_true_eq, List.all_eq_true] at *
  exact ⟨⟨awrite_sorted 0 _ _ _ h.1.1, fun e he => by
    simpa using awrite_nonzero 0 m.cells a b (fun e he => by simpa using h.1.2 e he) e he⟩, decide_eq_true h.2⟩

theorem putBytes_wf (m : Memory) (a : Nat) (bs : List Byte) (h : m.wf = true) : (m.putBytes a bs).wf = true := by
  induction bs generalizing m a with
  | nil => exact h
  | cons b t ih => exact ih _ _ (putByte_wf m a b h)

theorem mark_wf (m : Memory) (g : Nat) (v : Bool) (h : m.wf = true) : (m.mark g v).wf = true := by
  simp only [Memory.wf, Memory.mark, Bool.and_eq_true, decide_eq_true_eq] at *
  refine ⟨h.1, decide_eq_true ?_⟩
  split
  · exact insNat_rising _ _ h.2
  · exact h.2.filter _

theorem foldl_mark_wf (l : List Nat) (v : Bool) (m : Memory) (h : m.wf = true) :
    (l.foldl (fun x g => x.mark g v) m).wf = true := by
  induction l generalizing m with
  | nil => exact h
  | cons g t ih => exact ih _ (mark_wf m g v h)

theorem write_wf (m : Memory) (a : Nat) (bs : List Byte) (p : Bool) (h : m.wf = true) : (m.write a bs p).wf = true := by
  unfold Memory.write
  dsimp only
  split
  · exact foldl_mark_wf _ _ _ (putBytes_wf m a bs h)
  · exact foldl_mark_wf _ _ _ (putBytes_wf m a bs h)

theorem filter_sorted {α : Type} (t : Assoc α) (p : Nat × α → Bool) (h : asorted t = true) : asorted (t.filter p) = true := by
  induction t with
  | nil => simp [asorted]
  | cons e t ih =>
    have hs := (asorted_cons e t).mp h
    rw [List.filter_cons]
    split
    · exact (asorted_cons _ _).mpr ⟨fun f hf => hs.1 f (List.mem_filter.mp hf).1, ih hs.2⟩
    · exact ih hs.2

theorem zero_wf (m : Memory) (lo n : Nat) (h : m.wf = true) : (m.zero lo n).wf = true := by
  simp only [Memory.wf, Memory.zero, adelRange, Bool.and_eq_true, decide_eq_true_eq, List.all_eq_true] at *
  exact ⟨⟨filter_sorted _ _ h.1.1, fun e he => h.1.2 e (List.mem_filter.mp he).1⟩, decide_eq_true (h.2.filter _)⟩

/-! ## A byte read after a write -/

theorem byte_putByte_self (m : Memory) (a : Nat) (b : Byte) (h : m.wf = true) : (m.putByte a b).byte a = b := by
  simp only [Memory.wf, Bool.and_eq_true] at h
  simp only [Memory.byte, Memory.putByte, awrite, agetD]
  split
  · rename_i hb
    subst hb
    have hs := h.1.1
    have : ∀ t : List Host.Cell, asorted t = true → aget? (adel t a) a = none := by
      intro t ht
      induction t with
      | nil => rfl
      | cons e t ih =>
        obtain ⟨k, v⟩ := e
        have hs := (asorted_cons (k, v) t).mp ht
        simp only [adel]
        split
        · rename_i hk
          have hk : a = k := by simpa using hk
          subst hk
          cases t with
          | nil => rfl
          | cons f t =>
            have := hs.1 f (by simp)
            simp at this
            have e1 : (a == f.1) = false := by simp; omega
            simp [aget?, e1, this]
        · split
          · rename_i h1 h2; simp [aget?, h2]; simpa using h1
          · rename_i h1 h2; simp only [aget?, h1, h2, Bool.false_eq_true, if_false]; exact ih hs.2
    simp [this m.cells hs]
  · simp

theorem aput_same {α : Type} (t : Assoc α) (i : Nat) (x : α) (h : aget? t i = some x) : aput t i x = t := by
  induction t with
  | nil => simp at h
  | cons e t ih =>
    obtain ⟨k, w⟩ := e
    simp only [aget?] at h
    simp only [aput]
    split at h
    · rename_i hk
      have : i = k := by simpa using hk
      subst this; simp at h; simp [h]
    · rename_i hk
      split at h
      · simp at h
      · rename_i hlt
        simp [hlt, ih h]
        intro h2; exact absurd h2 (by simpa using hk)

theorem aput_aput {α : Type} (t : Assoc α) (i : Nat) (x y : α) : aput (aput t i x) i y = aput t i y := by
  induction t with
  | nil => simp [aput]
  | cons e t ih =>
    obtain ⟨k, w⟩ := e
    simp only [aput]
    split
    · simp [aput]
    · split
      · simp [aput]
      · rename_i h1 h2
        simp [aput, h1, h2, ih]

end Sys2Proof.Machine
end

