-- ==== Sys2Proof/Laws/State.lean ====
section
/-! SUPPORT. What each small update of the state leaves alone, one lemma for each field and update, and the same for `done`. -/

namespace Sys2Proof.Machine

/-! ## `setTile` -/

@[simp] theorem setTile_pending (s : State) (p : Nat) (t : Tile) : (s.setTile p t).pending = s.pending := rfl
@[simp] theorem setTile_part (s : State) (p : Nat) (t : Tile) : (s.setTile p t).part = s.part := rfl
@[simp] theorem setTile_mem (s : State) (p : Nat) (t : Tile) : (s.setTile p t).mem = s.mem := rfl
@[simp] theorem setTile_clk (s : State) (p : Nat) (t : Tile) : (s.setTile p t).clk = s.clk := rfl
@[simp] theorem setTile_cycles (s : State) (p : Nat) (t : Tile) : (s.setTile p t).cycles = s.cycles := rfl
@[simp] theorem setTile_displaced (s : State) (p : Nat) (t : Tile) : (s.setTile p t).displaced = s.displaced := rfl
@[simp] theorem setTile_moves (s : State) (p : Nat) (t : Tile) : (s.setTile p t).moves = s.moves := rfl
@[simp] theorem setTile_fabThreshold (s : State) (p : Nat) (t : Tile) : (s.setTile p t).fabThreshold = s.fabThreshold := rfl
@[simp] theorem setTile_fabClass (s : State) (p : Nat) (t : Tile) : (s.setTile p t).fabClass = s.fabClass := rfl
@[simp] theorem setTile_bridgeGrants (s : State) (p : Nat) (t : Tile) : (s.setTile p t).bridgeGrants = s.bridgeGrants := rfl
@[simp] theorem setTile_probes (s : State) (p : Nat) (t : Tile) : (s.setTile p t).probes = s.probes := rfl
@[simp] theorem setTile_gauges (s : State) (p : Nat) (t : Tile) : (s.setTile p t).gauges = s.gauges := rfl
@[simp] theorem setTile_census (s : State) (p : Nat) (t : Tile) : (s.setTile p t).census = s.census := rfl
@[simp] theorem setTile_images (s : State) (p : Nat) (t : Tile) : (s.setTile p t).images = s.images := rfl
@[simp] theorem setTile_runs (s : State) (p : Nat) (t : Tile) : (s.setTile p t).runs = s.runs := rfl
@[simp] theorem setTile_runId (s : State) (p : Nat) (t : Tile) : (s.setTile p t).runId = s.runId := rfl
@[simp] theorem setTile_owners (s : State) (p : Nat) (t : Tile) : (s.setTile p t).owners = s.owners := rfl
@[simp] theorem setTile_ldrStat (s : State) (p : Nat) (t : Tile) : (s.setTile p t).ldrStat = s.ldrStat := rfl
@[simp] theorem setTile_condSkip (s : State) (p : Nat) (t : Tile) : (s.setTile p t).condSkip = s.condSkip := rfl
@[simp] theorem setTile_trees (s : State) (p : Nat) (t : Tile) : (s.setTile p t).trees = s.trees := rfl
@[simp] theorem setTile_polders (s : State) (p : Nat) (t : Tile) : (s.setTile p t).polders = s.polders := rfl
@[simp] theorem setTile_weirs (s : State) (p : Nat) (t : Tile) : (s.setTile p t).weirs = s.weirs := rfl
@[simp] theorem setTile_ms (s : State) (p : Nat) (t : Tile) : (s.setTile p t).ms = s.ms := rfl
@[simp] theorem setTile_links (s : State) (p : Nat) (t : Tile) : (s.setTile p t).links = s.links := rfl
@[simp] theorem setTile_tide (s : State) (p : Nat) (t : Tile) : (s.setTile p t).tide = s.tide := rfl
@[simp] theorem setTile_saves (s : State) (p : Nat) (t : Tile) : (s.setTile p t).saves = s.saves := rfl
@[simp] theorem setTile_sec (s : State) (p : Nat) (t : Tile) : (s.setTile p t).sec = s.sec := rfl
@[simp] theorem setTile_power (s : State) (p : Nat) (t : Tile) : (s.setTile p t).power = s.power := rfl
@[simp] theorem setTile_ctxs (s : State) (p : Nat) (t : Tile) : (s.setTile p t).ctxs = s.ctxs := rfl
@[simp] theorem setTile_rings (s : State) (p : Nat) (t : Tile) : (s.setTile p t).rings = s.rings := rfl
@[simp] theorem setTile_units (s : State) (p : Nat) (t : Tile) : (s.setTile p t).units = s.units := rfl
@[simp] theorem setTile_host (s : State) (p : Nat) (t : Tile) : (s.setTile p t).host = s.host := rfl
@[simp] theorem setTile_health (s : State) (p : Nat) (t : Tile) : (s.setTile p t).health = s.health := rfl
@[simp] theorem setTile_log (s : State) (p : Nat) (t : Tile) : (s.setTile p t).log = s.log := rfl
@[simp] theorem setTile_regs (s : State) (p : Nat) (t : Tile) : (s.setTile p t).regs = s.regs := rfl
@[simp] theorem setTile_tideCount (s : State) (p : Nat) (t : Tile) : (s.setTile p t).tideCount = s.tideCount := rfl
@[simp] theorem setTile_tidePhase (s : State) (p : Nat) (t : Tile) : (s.setTile p t).tidePhase = s.tidePhase := rfl
@[simp] theorem setTile_devFault (s : State) (p : Nat) (t : Tile) : (s.setTile p t).devFault = s.devFault := rfl
@[simp] theorem setTile_ready (s : State) (p : Nat) (t : Tile) : (s.setTile p t).ready = s.ready := rfl
@[simp] theorem setTile_free (s : State) (p : Nat) (t : Tile) : (s.setTile p t).free = s.free := rfl

/-! ## `modTile` -/

@[simp] theorem modTile_pending (s : State) (p : Nat) (f : Tile → Tile) : (s.modTile p f).pending = s.pending := rfl
@[simp] theorem modTile_part (s : State) (p : Nat) (f : Tile → Tile) : (s.modTile p f).part = s.part := rfl
@[simp] theorem modTile_mem (s : State) (p : Nat) (f : Tile → Tile) : (s.modTile p f).mem = s.mem := rfl
@[simp] theorem modTile_clk (s : State) (p : Nat) (f : Tile → Tile) : (s.modTile p f).clk = s.clk := rfl
@[simp] theorem modTile_cycles (s : State) (p : Nat) (f : Tile → Tile) : (s.modTile p f).cycles = s.cycles := rfl
@[simp] theorem modTile_displaced (s : State) (p : Nat) (f : Tile → Tile) : (s.modTile p f).displaced = s.displaced := rfl
@[simp] theorem modTile_moves (s : State) (p : Nat) (f : Tile → Tile) : (s.modTile p f).moves = s.moves := rfl
@[simp] theorem modTile_fabThreshold (s : State) (p : Nat) (f : Tile → Tile) : (s.modTile p f).fabThreshold = s.fabThreshold := rfl
@[simp] theorem modTile_fabClass (s : State) (p : Nat) (f : Tile → Tile) : (s.modTile p f).fabClass = s.fabClass := rfl
@[simp] theorem modTile_bridgeGrants (s : State) (p : Nat) (f : Tile → Tile) : (s.modTile p f).bridgeGrants = s.bridgeGrants := rfl
@[simp] theorem modTile_probes (s : State) (p : Nat) (f : Tile → Tile) : (s.modTile p f).probes = s.probes := rfl
@[simp] theorem modTile_gauges (s : State) (p : Nat) (f : Tile → Tile) : (s.modTile p f).gauges = s.gauges := rfl
@[simp] theorem modTile_census (s : State) (p : Nat) (f : Tile → Tile) : (s.modTile p f).census = s.census := rfl
@[simp] theorem modTile_images (s : State) (p : Nat) (f : Tile → Tile) : (s.modTile p f).images = s.images := rfl
@[simp] theorem modTile_runs (s : State) (p : Nat) (f : Tile → Tile) : (s.modTile p f).runs = s.runs := rfl
@[simp] theorem modTile_runId (s : State) (p : Nat) (f : Tile → Tile) : (s.modTile p f).runId = s.runId := rfl
@[simp] theorem modTile_owners (s : State) (p : Nat) (f : Tile → Tile) : (s.modTile p f).owners = s.owners := rfl
@[simp] theorem modTile_ldrStat (s : State) (p : Nat) (f : Tile → Tile) : (s.modTile p f).ldrStat = s.ldrStat := rfl
@[simp] theorem modTile_condSkip (s : State) (p : Nat) (f : Tile → Tile) : (s.modTile p f).condSkip = s.condSkip := rfl
@[simp] theorem modTile_trees (s : State) (p : Nat) (f : Tile → Tile) : (s.modTile p f).trees = s.trees := rfl
@[simp] theorem modTile_polders (s : State) (p : Nat) (f : Tile → Tile) : (s.modTile p f).polders = s.polders := rfl
@[simp] theorem modTile_weirs (s : State) (p : Nat) (f : Tile → Tile) : (s.modTile p f).weirs = s.weirs := rfl
@[simp] theorem modTile_ms (s : State) (p : Nat) (f : Tile → Tile) : (s.modTile p f).ms = s.ms := rfl
@[simp] theorem modTile_links (s : State) (p : Nat) (f : Tile → Tile) : (s.modTile p f).links = s.links := rfl
@[simp] theorem modTile_tide (s : State) (p : Nat) (f : Tile → Tile) : (s.modTile p f).tide = s.tide := rfl
@[simp] theorem modTile_saves (s : State) (p : Nat) (f : Tile → Tile) : (s.modTile p f).saves = s.saves := rfl
@[simp] theorem modTile_sec (s : State) (p : Nat) (f : Tile → Tile) : (s.modTile p f).sec = s.sec := rfl
@[simp] theorem modTile_power (s : State) (p : Nat) (f : Tile → Tile) : (s.modTile p f).power = s.power := rfl
@[simp] theorem modTile_ctxs (s : State) (p : Nat) (f : Tile → Tile) : (s.modTile p f).ctxs = s.ctxs := rfl
@[simp] theorem modTile_rings (s : State) (p : Nat) (f : Tile → Tile) : (s.modTile p f).rings = s.rings := rfl
@[simp] theorem modTile_units (s : State) (p : Nat) (f : Tile → Tile) : (s.modTile p f).units = s.units := rfl
@[simp] theorem modTile_host (s : State) (p : Nat) (f : Tile → Tile) : (s.modTile p f).host = s.host := rfl
@[simp] theorem modTile_health (s : State) (p : Nat) (f : Tile → Tile) : (s.modTile p f).health = s.health := rfl
@[simp] theorem modTile_log (s : State) (p : Nat) (f : Tile → Tile) : (s.modTile p f).log = s.log := rfl
@[simp] theorem modTile_regs (s : State) (p : Nat) (f : Tile → Tile) : (s.modTile p f).regs = s.regs := rfl
@[simp] theorem modTile_tideCount (s : State) (p : Nat) (f : Tile → Tile) : (s.modTile p f).tideCount = s.tideCount := rfl
@[simp] theorem modTile_tidePhase (s : State) (p : Nat) (f : Tile → Tile) : (s.modTile p f).tidePhase = s.tidePhase := rfl
@[simp] theorem modTile_devFault (s : State) (p : Nat) (f : Tile → Tile) : (s.modTile p f).devFault = s.devFault := rfl
@[simp] theorem modTile_ready (s : State) (p : Nat) (f : Tile → Tile) : (s.modTile p f).ready = s.ready := rfl
@[simp] theorem modTile_free (s : State) (p : Nat) (f : Tile → Tile) : (s.modTile p f).free = s.free := rfl

/-! ## `bumpTile` -/

@[simp] theorem bumpTile_pending (s : State) (p k n : Nat) : (s.bumpTile p k n).pending = s.pending := rfl
@[simp] theorem bumpTile_part (s : State) (p k n : Nat) : (s.bumpTile p k n).part = s.part := rfl
@[simp] theorem bumpTile_mem (s : State) (p k n : Nat) : (s.bumpTile p k n).mem = s.mem := rfl
@[simp] theorem bumpTile_clk (s : State) (p k n : Nat) : (s.bumpTile p k n).clk = s.clk := rfl
@[simp] theorem bumpTile_cycles (s : State) (p k n : Nat) : (s.bumpTile p k n).cycles = s.cycles := rfl
@[simp] theorem bumpTile_displaced (s : State) (p k n : Nat) : (s.bumpTile p k n).displaced = s.displaced := rfl
@[simp] theorem bumpTile_moves (s : State) (p k n : Nat) : (s.bumpTile p k n).moves = s.moves := rfl
@[simp] theorem bumpTile_fabThreshold (s : State) (p k n : Nat) : (s.bumpTile p k n).fabThreshold = s.fabThreshold := rfl
@[simp] theorem bumpTile_fabClass (s : State) (p k n : Nat) : (s.bumpTile p k n).fabClass = s.fabClass := rfl
@[simp] theorem bumpTile_bridgeGrants (s : State) (p k n : Nat) : (s.bumpTile p k n).bridgeGrants = s.bridgeGrants := rfl
@[simp] theorem bumpTile_probes (s : State) (p k n : Nat) : (s.bumpTile p k n).probes = s.probes := rfl
@[simp] theorem bumpTile_gauges (s : State) (p k n : Nat) : (s.bumpTile p k n).gauges = s.gauges := rfl
@[simp] theorem bumpTile_census (s : State) (p k n : Nat) : (s.bumpTile p k n).census = s.census := rfl
@[simp] theorem bumpTile_images (s : State) (p k n : Nat) : (s.bumpTile p k n).images = s.images := rfl
@[simp] theorem bumpTile_runs (s : State) (p k n : Nat) : (s.bumpTile p k n).runs = s.runs := rfl
@[simp] theorem bumpTile_runId (s : State) (p k n : Nat) : (s.bumpTile p k n).runId = s.runId := rfl
@[simp] theorem bumpTile_owners (s : State) (p k n : Nat) : (s.bumpTile p k n).owners = s.owners := rfl
@[simp] theorem bumpTile_ldrStat (s : State) (p k n : Nat) : (s.bumpTile p k n).ldrStat = s.ldrStat := rfl
@[simp] theorem bumpTile_condSkip (s : State) (p k n : Nat) : (s.bumpTile p k n).condSkip = s.condSkip := rfl
@[simp] theorem bumpTile_trees (s : State) (p k n : Nat) : (s.bumpTile p k n).trees = s.trees := rfl
@[simp] theorem bumpTile_polders (s : State) (p k n : Nat) : (s.bumpTile p k n).polders = s.polders := rfl
@[simp] theorem bumpTile_weirs (s : State) (p k n : Nat) : (s.bumpTile p k n).weirs = s.weirs := rfl
@[simp] theorem bumpTile_ms (s : State) (p k n : Nat) : (s.bumpTile p k n).ms = s.ms := rfl
@[simp] theorem bumpTile_links (s : State) (p k n : Nat) : (s.bumpTile p k n).links = s.links := rfl
@[simp] theorem bumpTile_tide (s : State) (p k n : Nat) : (s.bumpTile p k n).tide = s.tide := rfl
@[simp] theorem bumpTile_saves (s : State) (p k n : Nat) : (s.bumpTile p k n).saves = s.saves := rfl
@[simp] theorem bumpTile_sec (s : State) (p k n : Nat) : (s.bumpTile p k n).sec = s.sec := rfl
@[simp] theorem bumpTile_power (s : State) (p k n : Nat) : (s.bumpTile p k n).power = s.power := rfl
@[simp] theorem bumpTile_ctxs (s : State) (p k n : Nat) : (s.bumpTile p k n).ctxs = s.ctxs := rfl
@[simp] theorem bumpTile_rings (s : State) (p k n : Nat) : (s.bumpTile p k n).rings = s.rings := rfl
@[simp] theorem bumpTile_units (s : State) (p k n : Nat) : (s.bumpTile p k n).units = s.units := rfl
@[simp] theorem bumpTile_host (s : State) (p k n : Nat) : (s.bumpTile p k n).host = s.host := rfl
@[simp] theorem bumpTile_health (s : State) (p k n : Nat) : (s.bumpTile p k n).health = s.health := rfl
@[simp] theorem bumpTile_log (s : State) (p k n : Nat) : (s.bumpTile p k n).log = s.log := rfl
@[simp] theorem bumpTile_regs (s : State) (p k n : Nat) : (s.bumpTile p k n).regs = s.regs := rfl
@[simp] theorem bumpTile_tideCount (s : State) (p k n : Nat) : (s.bumpTile p k n).tideCount = s.tideCount := rfl
@[simp] theorem bumpTile_tidePhase (s : State) (p k n : Nat) : (s.bumpTile p k n).tidePhase = s.tidePhase := rfl
@[simp] theorem bumpTile_devFault (s : State) (p k n : Nat) : (s.bumpTile p k n).devFault = s.devFault := rfl
@[simp] theorem bumpTile_ready (s : State) (p k n : Nat) : (s.bumpTile p k n).ready = s.ready := rfl
@[simp] theorem bumpTile_free (s : State) (p k n : Nat) : (s.bumpTile p k n).free = s.free := rfl

/-! ## `setReg` -/

@[simp] theorem setReg_pending (s : State) (o : Nat) (v : W64) : (s.setReg o v).pending = s.pending := rfl
@[simp] theorem setReg_part (s : State) (o : Nat) (v : W64) : (s.setReg o v).part = s.part := rfl
@[simp] theorem setReg_mem (s : State) (o : Nat) (v : W64) : (s.setReg o v).mem = s.mem := rfl
@[simp] theorem setReg_clk (s : State) (o : Nat) (v : W64) : (s.setReg o v).clk = s.clk := rfl
@[simp] theorem setReg_cycles (s : State) (o : Nat) (v : W64) : (s.setReg o v).cycles = s.cycles := rfl
@[simp] theorem setReg_tiles (s : State) (o : Nat) (v : W64) : (s.setReg o v).tiles = s.tiles := rfl
@[simp] theorem setReg_displaced (s : State) (o : Nat) (v : W64) : (s.setReg o v).displaced = s.displaced := rfl
@[simp] theorem setReg_moves (s : State) (o : Nat) (v : W64) : (s.setReg o v).moves = s.moves := rfl
@[simp] theorem setReg_fabThreshold (s : State) (o : Nat) (v : W64) : (s.setReg o v).fabThreshold = s.fabThreshold := rfl
@[simp] theorem setReg_fabClass (s : State) (o : Nat) (v : W64) : (s.setReg o v).fabClass = s.fabClass := rfl
@[simp] theorem setReg_bridgeGrants (s : State) (o : Nat) (v : W64) : (s.setReg o v).bridgeGrants = s.bridgeGrants := rfl
@[simp] theorem setReg_probes (s : State) (o : Nat) (v : W64) : (s.setReg o v).probes = s.probes := rfl
@[simp] theorem setReg_gauges (s : State) (o : Nat) (v : W64) : (s.setReg o v).gauges = s.gauges := rfl
@[simp] theorem setReg_census (s : State) (o : Nat) (v : W64) : (s.setReg o v).census = s.census := rfl
@[simp] theorem setReg_images (s : State) (o : Nat) (v : W64) : (s.setReg o v).images = s.images := rfl
@[simp] theorem setReg_runs (s : State) (o : Nat) (v : W64) : (s.setReg o v).runs = s.runs := rfl
@[simp] theorem setReg_runId (s : State) (o : Nat) (v : W64) : (s.setReg o v).runId = s.runId := rfl
@[simp] theorem setReg_owners (s : State) (o : Nat) (v : W64) : (s.setReg o v).owners = s.owners := rfl
@[simp] theorem setReg_ldrStat (s : State) (o : Nat) (v : W64) : (s.setReg o v).ldrStat = s.ldrStat := rfl
@[simp] theorem setReg_condSkip (s : State) (o : Nat) (v : W64) : (s.setReg o v).condSkip = s.condSkip := rfl
@[simp] theorem setReg_trees (s : State) (o : Nat) (v : W64) : (s.setReg o v).trees = s.trees := rfl
@[simp] theorem setReg_polders (s : State) (o : Nat) (v : W64) : (s.setReg o v).polders = s.polders := rfl
@[simp] theorem setReg_weirs (s : State) (o : Nat) (v : W64) : (s.setReg o v).weirs = s.weirs := rfl
@[simp] theorem setReg_ms (s : State) (o : Nat) (v : W64) : (s.setReg o v).ms = s.ms := rfl
@[simp] theorem setReg_links (s : State) (o : Nat) (v : W64) : (s.setReg o v).links = s.links := rfl
@[simp] theorem setReg_tide (s : State) (o : Nat) (v : W64) : (s.setReg o v).tide = s.tide := rfl
@[simp] theorem setReg_saves (s : State) (o : Nat) (v : W64) : (s.setReg o v).saves = s.saves := rfl
@[simp] theorem setReg_sec (s : State) (o : Nat) (v : W64) : (s.setReg o v).sec = s.sec := rfl
@[simp] theorem setReg_power (s : State) (o : Nat) (v : W64) : (s.setReg o v).power = s.power := rfl
@[simp] theorem setReg_ctxs (s : State) (o : Nat) (v : W64) : (s.setReg o v).ctxs = s.ctxs := rfl
@[simp] theorem setReg_rings (s : State) (o : Nat) (v : W64) : (s.setReg o v).rings = s.rings := rfl
@[simp] theorem setReg_units (s : State) (o : Nat) (v : W64) : (s.setReg o v).units = s.units := rfl
@[simp] theorem setReg_host (s : State) (o : Nat) (v : W64) : (s.setReg o v).host = s.host := rfl
@[simp] theorem setReg_health (s : State) (o : Nat) (v : W64) : (s.setReg o v).health = s.health := rfl
@[simp] theorem setReg_log (s : State) (o : Nat) (v : W64) : (s.setReg o v).log = s.log := rfl
@[simp] theorem setReg_tideCount (s : State) (o : Nat) (v : W64) : (s.setReg o v).tideCount = s.tideCount := rfl
@[simp] theorem setReg_tidePhase (s : State) (o : Nat) (v : W64) : (s.setReg o v).tidePhase = s.tidePhase := rfl
@[simp] theorem setReg_devFault (s : State) (o : Nat) (v : W64) : (s.setReg o v).devFault = s.devFault := rfl
@[simp] theorem setReg_ready (s : State) (o : Nat) (v : W64) : (s.setReg o v).ready = s.ready := rfl
@[simp] theorem setReg_free (s : State) (o : Nat) (v : W64) : (s.setReg o v).free = s.free := rfl

/-! ## `setRing` -/

@[simp] theorem setRing_pending (s : State) (r : Nat) (x : RingSt) : (s.setRing r x).pending = s.pending := rfl
@[simp] theorem setRing_part (s : State) (r : Nat) (x : RingSt) : (s.setRing r x).part = s.part := rfl
@[simp] theorem setRing_mem (s : State) (r : Nat) (x : RingSt) : (s.setRing r x).mem = s.mem := rfl
@[simp] theorem setRing_clk (s : State) (r : Nat) (x : RingSt) : (s.setRing r x).clk = s.clk := rfl
@[simp] theorem setRing_cycles (s : State) (r : Nat) (x : RingSt) : (s.setRing r x).cycles = s.cycles := rfl
@[simp] theorem setRing_tiles (s : State) (r : Nat) (x : RingSt) : (s.setRing r x).tiles = s.tiles := rfl
@[simp] theorem setRing_displaced (s : State) (r : Nat) (x : RingSt) : (s.setRing r x).displaced = s.displaced := rfl
@[simp] theorem setRing_moves (s : State) (r : Nat) (x : RingSt) : (s.setRing r x).moves = s.moves := rfl
@[simp] theorem setRing_fabThreshold (s : State) (r : Nat) (x : RingSt) : (s.setRing r x).fabThreshold = s.fabThreshold := rfl
@[simp] theorem setRing_fabClass (s : State) (r : Nat) (x : RingSt) : (s.setRing r x).fabClass = s.fabClass := rfl
@[simp] theorem setRing_bridgeGrants (s : State) (r : Nat) (x : RingSt) : (s.setRing r x).bridgeGrants = s.bridgeGrants := rfl
@[simp] theorem setRing_probes (s : State) (r : Nat) (x : RingSt) : (s.setRing r x).probes = s.probes := rfl
@[simp] theorem setRing_gauges (s : State) (r : Nat) (x : RingSt) : (s.setRing r x).gauges = s.gauges := rfl
@[simp] theorem setRing_census (s : State) (r : Nat) (x : RingSt) : (s.setRing r x).census = s.census := rfl
@[simp] theorem setRing_images (s : State) (r : Nat) (x : RingSt) : (s.setRing r x).images = s.images := rfl
@[simp] theorem setRing_runs (s : State) (r : Nat) (x : RingSt) : (s.setRing r x).runs = s.runs := rfl
@[simp] theorem setRing_runId (s : State) (r : Nat) (x : RingSt) : (s.setRing r x).runId = s.runId := rfl
@[simp] theorem setRing_owners (s : State) (r : Nat) (x : RingSt) : (s.setRing r x).owners = s.owners := rfl
@[simp] theorem setRing_ldrStat (s : State) (r : Nat) (x : RingSt) : (s.setRing r x).ldrStat = s.ldrStat := rfl
@[simp] theorem setRing_condSkip (s : State) (r : Nat) (x : RingSt) : (s.setRing r x).condSkip = s.condSkip := rfl
@[simp] theorem setRing_trees (s : State) (r : Nat) (x : RingSt) : (s.setRing r x).trees = s.trees := rfl
@[simp] theorem setRing_polders (s : State) (r : Nat) (x : RingSt) : (s.setRing r x).polders = s.polders := rfl
@[simp] theorem setRing_weirs (s : State) (r : Nat) (x : RingSt) : (s.setRing r x).weirs = s.weirs := rfl
@[simp] theorem setRing_ms (s : State) (r : Nat) (x : RingSt) : (s.setRing r x).ms = s.ms := rfl
@[simp] theorem setRing_links (s : State) (r : Nat) (x : RingSt) : (s.setRing r x).links = s.links := rfl
@[simp] theorem setRing_tide (s : State) (r : Nat) (x : RingSt) : (s.setRing r x).tide = s.tide := rfl
@[simp] theorem setRing_saves (s : State) (r : Nat) (x : RingSt) : (s.setRing r x).saves = s.saves := rfl
@[simp] theorem setRing_sec (s : State) (r : Nat) (x : RingSt) : (s.setRing r x).sec = s.sec := rfl
@[simp] theorem setRing_power (s : State) (r : Nat) (x : RingSt) : (s.setRing r x).power = s.power := rfl
@[simp] theorem setRing_ctxs (s : State) (r : Nat) (x : RingSt) : (s.setRing r x).ctxs = s.ctxs := rfl
@[simp] theorem setRing_units (s : State) (r : Nat) (x : RingSt) : (s.setRing r x).units = s.units := rfl
@[simp] theorem setRing_host (s : State) (r : Nat) (x : RingSt) : (s.setRing r x).host = s.host := rfl
@[simp] theorem setRing_health (s : State) (r : Nat) (x : RingSt) : (s.setRing r x).health = s.health := rfl
@[simp] theorem setRing_log (s : State) (r : Nat) (x : RingSt) : (s.setRing r x).log = s.log := rfl
@[simp] theorem setRing_regs (s : State) (r : Nat) (x : RingSt) : (s.setRing r x).regs = s.regs := rfl
@[simp] theorem setRing_tideCount (s : State) (r : Nat) (x : RingSt) : (s.setRing r x).tideCount = s.tideCount := rfl
@[simp] theorem setRing_tidePhase (s : State) (r : Nat) (x : RingSt) : (s.setRing r x).tidePhase = s.tidePhase := rfl
@[simp] theorem setRing_devFault (s : State) (r : Nat) (x : RingSt) : (s.setRing r x).devFault = s.devFault := rfl
@[simp] theorem setRing_ready (s : State) (r : Nat) (x : RingSt) : (s.setRing r x).ready = s.ready := rfl
@[simp] theorem setRing_free (s : State) (r : Nat) (x : RingSt) : (s.setRing r x).free = s.free := rfl

/-! ## `modRing` -/

@[simp] theorem modRing_pending (s : State) (r : Nat) (f : RingSt → RingSt) : (s.modRing r f).pending = s.pending := rfl
@[simp] theorem modRing_part (s : State) (r : Nat) (f : RingSt → RingSt) : (s.modRing r f).part = s.part := rfl
@[simp] theorem modRing_mem (s : State) (r : Nat) (f : RingSt → RingSt) : (s.modRing r f).mem = s.mem := rfl
@[simp] theorem modRing_clk (s : State) (r : Nat) (f : RingSt → RingSt) : (s.modRing r f).clk = s.clk := rfl
@[simp] theorem modRing_cycles (s : State) (r : Nat) (f : RingSt → RingSt) : (s.modRing r f).cycles = s.cycles := rfl
@[simp] theorem modRing_tiles (s : State) (r : Nat) (f : RingSt → RingSt) : (s.modRing r f).tiles = s.tiles := rfl
@[simp] theorem modRing_displaced (s : State) (r : Nat) (f : RingSt → RingSt) : (s.modRing r f).displaced = s.displaced := rfl
@[simp] theorem modRing_moves (s : State) (r : Nat) (f : RingSt → RingSt) : (s.modRing r f).moves = s.moves := rfl
@[simp] theorem modRing_fabThreshold (s : State) (r : Nat) (f : RingSt → RingSt) : (s.modRing r f).fabThreshold = s.fabThreshold := rfl
@[simp] theorem modRing_fabClass (s : State) (r : Nat) (f : RingSt → RingSt) : (s.modRing r f).fabClass = s.fabClass := rfl
@[simp] theorem modRing_bridgeGrants (s : State) (r : Nat) (f : RingSt → RingSt) : (s.modRing r f).bridgeGrants = s.bridgeGrants := rfl
@[simp] theorem modRing_probes (s : State) (r : Nat) (f : RingSt → RingSt) : (s.modRing r f).probes = s.probes := rfl
@[simp] theorem modRing_gauges (s : State) (r : Nat) (f : RingSt → RingSt) : (s.modRing r f).gauges = s.gauges := rfl
@[simp] theorem modRing_census (s : State) (r : Nat) (f : RingSt → RingSt) : (s.modRing r f).census = s.census := rfl
@[simp] theorem modRing_images (s : State) (r : Nat) (f : RingSt → RingSt) : (s.modRing r f).images = s.images := rfl
@[simp] theorem modRing_runs (s : State) (r : Nat) (f : RingSt → RingSt) : (s.modRing r f).runs = s.runs := rfl
@[simp] theorem modRing_runId (s : State) (r : Nat) (f : RingSt → RingSt) : (s.modRing r f).runId = s.runId := rfl
@[simp] theorem modRing_owners (s : State) (r : Nat) (f : RingSt → RingSt) : (s.modRing r f).owners = s.owners := rfl
@[simp] theorem modRing_ldrStat (s : State) (r : Nat) (f : RingSt → RingSt) : (s.modRing r f).ldrStat = s.ldrStat := rfl
@[simp] theorem modRing_condSkip (s : State) (r : Nat) (f : RingSt → RingSt) : (s.modRing r f).condSkip = s.condSkip := rfl
@[simp] theorem modRing_trees (s : State) (r : Nat) (f : RingSt → RingSt) : (s.modRing r f).trees = s.trees := rfl
@[simp] theorem modRing_polders (s : State) (r : Nat) (f : RingSt → RingSt) : (s.modRing r f).polders = s.polders := rfl
@[simp] theorem modRing_weirs (s : State) (r : Nat) (f : RingSt → RingSt) : (s.modRing r f).weirs = s.weirs := rfl
@[simp] theorem modRing_ms (s : State) (r : Nat) (f : RingSt → RingSt) : (s.modRing r f).ms = s.ms := rfl
@[simp] theorem modRing_links (s : State) (r : Nat) (f : RingSt → RingSt) : (s.modRing r f).links = s.links := rfl
@[simp] theorem modRing_tide (s : State) (r : Nat) (f : RingSt → RingSt) : (s.modRing r f).tide = s.tide := rfl
@[simp] theorem modRing_saves (s : State) (r : Nat) (f : RingSt → RingSt) : (s.modRing r f).saves = s.saves := rfl
@[simp] theorem modRing_sec (s : State) (r : Nat) (f : RingSt → RingSt) : (s.modRing r f).sec = s.sec := rfl
@[simp] theorem modRing_power (s : State) (r : Nat) (f : RingSt → RingSt) : (s.modRing r f).power = s.power := rfl
@[simp] theorem modRing_ctxs (s : State) (r : Nat) (f : RingSt → RingSt) : (s.modRing r f).ctxs = s.ctxs := rfl
@[simp] theorem modRing_units (s : State) (r : Nat) (f : RingSt → RingSt) : (s.modRing r f).units = s.units := rfl
@[simp] theorem modRing_host (s : State) (r : Nat) (f : RingSt → RingSt) : (s.modRing r f).host = s.host := rfl
@[simp] theorem modRing_health (s : State) (r : Nat) (f : RingSt → RingSt) : (s.modRing r f).health = s.health := rfl
@[simp] theorem modRing_log (s : State) (r : Nat) (f : RingSt → RingSt) : (s.modRing r f).log = s.log := rfl
@[simp] theorem modRing_regs (s : State) (r : Nat) (f : RingSt → RingSt) : (s.modRing r f).regs = s.regs := rfl
@[simp] theorem modRing_tideCount (s : State) (r : Nat) (f : RingSt → RingSt) : (s.modRing r f).tideCount = s.tideCount := rfl
@[simp] theorem modRing_tidePhase (s : State) (r : Nat) (f : RingSt → RingSt) : (s.modRing r f).tidePhase = s.tidePhase := rfl
@[simp] theorem modRing_devFault (s : State) (r : Nat) (f : RingSt → RingSt) : (s.modRing r f).devFault = s.devFault := rfl
@[simp] theorem modRing_ready (s : State) (r : Nat) (f : RingSt → RingSt) : (s.modRing r f).ready = s.ready := rfl
@[simp] theorem modRing_free (s : State) (r : Nat) (f : RingSt → RingSt) : (s.modRing r f).free = s.free := rfl

/-! ## `reply` -/

@[simp] theorem reply_pending (s : State) (r : Nat) (x : Reply) : (s.reply r x).pending = s.pending := rfl
@[simp] theorem reply_part (s : State) (r : Nat) (x : Reply) : (s.reply r x).part = s.part := rfl
@[simp] theorem reply_mem (s : State) (r : Nat) (x : Reply) : (s.reply r x).mem = s.mem := rfl
@[simp] theorem reply_clk (s : State) (r : Nat) (x : Reply) : (s.reply r x).clk = s.clk := rfl
@[simp] theorem reply_cycles (s : State) (r : Nat) (x : Reply) : (s.reply r x).cycles = s.cycles := rfl
@[simp] theorem reply_tiles (s : State) (r : Nat) (x : Reply) : (s.reply r x).tiles = s.tiles := rfl
@[simp] theorem reply_displaced (s : State) (r : Nat) (x : Reply) : (s.reply r x).displaced = s.displaced := rfl
@[simp] theorem reply_moves (s : State) (r : Nat) (x : Reply) : (s.reply r x).moves = s.moves := rfl
@[simp] theorem reply_fabThreshold (s : State) (r : Nat) (x : Reply) : (s.reply r x).fabThreshold = s.fabThreshold := rfl
@[simp] theorem reply_fabClass (s : State) (r : Nat) (x : Reply) : (s.reply r x).fabClass = s.fabClass := rfl
@[simp] theorem reply_bridgeGrants (s : State) (r : Nat) (x : Reply) : (s.reply r x).bridgeGrants = s.bridgeGrants := rfl
@[simp] theorem reply_probes (s : State) (r : Nat) (x : Reply) : (s.reply r x).probes = s.probes := rfl
@[simp] theorem reply_gauges (s : State) (r : Nat) (x : Reply) : (s.reply r x).gauges = s.gauges := rfl
@[simp] theorem reply_census (s : State) (r : Nat) (x : Reply) : (s.reply r x).census = s.census := rfl
@[simp] theorem reply_images (s : State) (r : Nat) (x : Reply) : (s.reply r x).images = s.images := rfl
@[simp] theorem reply_runs (s : State) (r : Nat) (x : Reply) : (s.reply r x).runs = s.runs := rfl
@[simp] theorem reply_runId (s : State) (r : Nat) (x : Reply) : (s.reply r x).runId = s.runId := rfl
@[simp] theorem reply_owners (s : State) (r : Nat) (x : Reply) : (s.reply r x).owners = s.owners := rfl
@[simp] theorem reply_ldrStat (s : State) (r : Nat) (x : Reply) : (s.reply r x).ldrStat = s.ldrStat := rfl
@[simp] theorem reply_condSkip (s : State) (r : Nat) (x : Reply) : (s.reply r x).condSkip = s.condSkip := rfl
@[simp] theorem reply_trees (s : State) (r : Nat) (x : Reply) : (s.reply r x).trees = s.trees := rfl
@[simp] theorem reply_polders (s : State) (r : Nat) (x : Reply) : (s.reply r x).polders = s.polders := rfl
@[simp] theorem reply_weirs (s : State) (r : Nat) (x : Reply) : (s.reply r x).weirs = s.weirs := rfl
@[simp] theorem reply_ms (s : State) (r : Nat) (x : Reply) : (s.reply r x).ms = s.ms := rfl
@[simp] theorem reply_links (s : State) (r : Nat) (x : Reply) : (s.reply r x).links = s.links := rfl
@[simp] theorem reply_tide (s : State) (r : Nat) (x : Reply) : (s.reply r x).tide = s.tide := rfl
@[simp] theorem reply_saves (s : State) (r : Nat) (x : Reply) : (s.reply r x).saves = s.saves := rfl
@[simp] theorem reply_sec (s : State) (r : Nat) (x : Reply) : (s.reply r x).sec = s.sec := rfl
@[simp] theorem reply_power (s : State) (r : Nat) (x : Reply) : (s.reply r x).power = s.power := rfl
@[simp] theorem reply_ctxs (s : State) (r : Nat) (x : Reply) : (s.reply r x).ctxs = s.ctxs := rfl
@[simp] theorem reply_units (s : State) (r : Nat) (x : Reply) : (s.reply r x).units = s.units := rfl
@[simp] theorem reply_host (s : State) (r : Nat) (x : Reply) : (s.reply r x).host = s.host := rfl
@[simp] theorem reply_health (s : State) (r : Nat) (x : Reply) : (s.reply r x).health = s.health := rfl
@[simp] theorem reply_log (s : State) (r : Nat) (x : Reply) : (s.reply r x).log = s.log := rfl
@[simp] theorem reply_regs (s : State) (r : Nat) (x : Reply) : (s.reply r x).regs = s.regs := rfl
@[simp] theorem reply_tideCount (s : State) (r : Nat) (x : Reply) : (s.reply r x).tideCount = s.tideCount := rfl
@[simp] theorem reply_tidePhase (s : State) (r : Nat) (x : Reply) : (s.reply r x).tidePhase = s.tidePhase := rfl
@[simp] theorem reply_devFault (s : State) (r : Nat) (x : Reply) : (s.reply r x).devFault = s.devFault := rfl
@[simp] theorem reply_ready (s : State) (r : Nat) (x : Reply) : (s.reply r x).ready = s.ready := rfl
@[simp] theorem reply_free (s : State) (r : Nat) (x : Reply) : (s.reply r x).free = s.free := rfl

/-! ## `complete` -/

@[simp] theorem complete_pending (s : State) (r : Nat) (c : Cmd) (x : Reply) : (s.complete r c x).pending = s.pending := rfl
@[simp] theorem complete_part (s : State) (r : Nat) (c : Cmd) (x : Reply) : (s.complete r c x).part = s.part := rfl
@[simp] theorem complete_mem (s : State) (r : Nat) (c : Cmd) (x : Reply) : (s.complete r c x).mem = s.mem := rfl
@[simp] theorem complete_clk (s : State) (r : Nat) (c : Cmd) (x : Reply) : (s.complete r c x).clk = s.clk := rfl
@[simp] theorem complete_cycles (s : State) (r : Nat) (c : Cmd) (x : Reply) : (s.complete r c x).cycles = s.cycles := rfl
@[simp] theorem complete_tiles (s : State) (r : Nat) (c : Cmd) (x : Reply) : (s.complete r c x).tiles = s.tiles := rfl
@[simp] theorem complete_displaced (s : State) (r : Nat) (c : Cmd) (x : Reply) : (s.complete r c x).displaced = s.displaced := rfl
@[simp] theorem complete_moves (s : State) (r : Nat) (c : Cmd) (x : Reply) : (s.complete r c x).moves = s.moves := rfl
@[simp] theorem complete_fabThreshold (s : State) (r : Nat) (c : Cmd) (x : Reply) : (s.complete r c x).fabThreshold = s.fabThreshold := rfl
@[simp] theorem complete_fabClass (s : State) (r : Nat) (c : Cmd) (x : Reply) : (s.complete r c x).fabClass = s.fabClass := rfl
@[simp] theorem complete_bridgeGrants (s : State) (r : Nat) (c : Cmd) (x : Reply) : (s.complete r c x).bridgeGrants = s.bridgeGrants := rfl
@[simp] theorem complete_probes (s : State) (r : Nat) (c : Cmd) (x : Reply) : (s.complete r c x).probes = s.probes := rfl
@[simp] theorem complete_gauges (s : State) (r : Nat) (c : Cmd) (x : Reply) : (s.complete r c x).gauges = s.gauges := rfl
@[simp] theorem complete_census (s : State) (r : Nat) (c : Cmd) (x : Reply) : (s.complete r c x).census = s.census := rfl
@[simp] theorem complete_images (s : State) (r : Nat) (c : Cmd) (x : Reply) : (s.complete r c x).images = s.images := rfl
@[simp] theorem complete_runs (s : State) (r : Nat) (c : Cmd) (x : Reply) : (s.complete r c x).runs = s.runs := rfl
@[simp] theorem complete_runId (s : State) (r : Nat) (c : Cmd) (x : Reply) : (s.complete r c x).runId = s.runId := rfl
@[simp] theorem complete_owners (s : State) (r : Nat) (c : Cmd) (x : Reply) : (s.complete r c x).owners = s.owners := rfl
@[simp] theorem complete_ldrStat (s : State) (r : Nat) (c : Cmd) (x : Reply) : (s.complete r c x).ldrStat = s.ldrStat := rfl
@[simp] theorem complete_condSkip (s : State) (r : Nat) (c : Cmd) (x : Reply) : (s.complete r c x).condSkip = s.condSkip := rfl
@[simp] theorem complete_trees (s : State) (r : Nat) (c : Cmd) (x : Reply) : (s.complete r c x).trees = s.trees := rfl
@[simp] theorem complete_polders (s : State) (r : Nat) (c : Cmd) (x : Reply) : (s.complete r c x).polders = s.polders := rfl
@[simp] theorem complete_weirs (s : State) (r : Nat) (c : Cmd) (x : Reply) : (s.complete r c x).weirs = s.weirs := rfl
@[simp] theorem complete_ms (s : State) (r : Nat) (c : Cmd) (x : Reply) : (s.complete r c x).ms = s.ms := rfl
@[simp] theorem complete_links (s : State) (r : Nat) (c : Cmd) (x : Reply) : (s.complete r c x).links = s.links := rfl
@[simp] theorem complete_tide (s : State) (r : Nat) (c : Cmd) (x : Reply) : (s.complete r c x).tide = s.tide := rfl
@[simp] theorem complete_saves (s : State) (r : Nat) (c : Cmd) (x : Reply) : (s.complete r c x).saves = s.saves := rfl
@[simp] theorem complete_sec (s : State) (r : Nat) (c : Cmd) (x : Reply) : (s.complete r c x).sec = s.sec := rfl
@[simp] theorem complete_power (s : State) (r : Nat) (c : Cmd) (x : Reply) : (s.complete r c x).power = s.power := rfl
@[simp] theorem complete_ctxs (s : State) (r : Nat) (c : Cmd) (x : Reply) : (s.complete r c x).ctxs = s.ctxs := rfl
@[simp] theorem complete_units (s : State) (r : Nat) (c : Cmd) (x : Reply) : (s.complete r c x).units = s.units := rfl
@[simp] theorem complete_host (s : State) (r : Nat) (c : Cmd) (x : Reply) : (s.complete r c x).host = s.host := rfl
@[simp] theorem complete_health (s : State) (r : Nat) (c : Cmd) (x : Reply) : (s.complete r c x).health = s.health := rfl
@[simp] theorem complete_log (s : State) (r : Nat) (c : Cmd) (x : Reply) : (s.complete r c x).log = s.log := rfl
@[simp] theorem complete_regs (s : State) (r : Nat) (c : Cmd) (x : Reply) : (s.complete r c x).regs = s.regs := rfl
@[simp] theorem complete_tideCount (s : State) (r : Nat) (c : Cmd) (x : Reply) : (s.complete r c x).tideCount = s.tideCount := rfl
@[simp] theorem complete_tidePhase (s : State) (r : Nat) (c : Cmd) (x : Reply) : (s.complete r c x).tidePhase = s.tidePhase := rfl
@[simp] theorem complete_devFault (s : State) (r : Nat) (c : Cmd) (x : Reply) : (s.complete r c x).devFault = s.devFault := rfl
@[simp] theorem complete_ready (s : State) (r : Nat) (c : Cmd) (x : Reply) : (s.complete r c x).ready = s.ready := rfl
@[simp] theorem complete_free (s : State) (r : Nat) (c : Cmd) (x : Reply) : (s.complete r c x).free = s.free := rfl

/-! ## `answer` -/

@[simp] theorem answer_pending (s : State) (r : Nat) (p : Pkt) (st a b c : Nat) : (answer s r p st a b c).pending = s.pending := rfl
@[simp] theorem answer_part (s : State) (r : Nat) (p : Pkt) (st a b c : Nat) : (answer s r p st a b c).part = s.part := rfl
@[simp] theorem answer_mem (s : State) (r : Nat) (p : Pkt) (st a b c : Nat) : (answer s r p st a b c).mem = s.mem := rfl
@[simp] theorem answer_clk (s : State) (r : Nat) (p : Pkt) (st a b c : Nat) : (answer s r p st a b c).clk = s.clk := rfl
@[simp] theorem answer_cycles (s : State) (r : Nat) (p : Pkt) (st a b c : Nat) : (answer s r p st a b c).cycles = s.cycles := rfl
@[simp] theorem answer_tiles (s : State) (r : Nat) (p : Pkt) (st a b c : Nat) : (answer s r p st a b c).tiles = s.tiles := rfl
@[simp] theorem answer_displaced (s : State) (r : Nat) (p : Pkt) (st a b c : Nat) : (answer s r p st a b c).displaced = s.displaced := rfl
@[simp] theorem answer_moves (s : State) (r : Nat) (p : Pkt) (st a b c : Nat) : (answer s r p st a b c).moves = s.moves := rfl
@[simp] theorem answer_fabThreshold (s : State) (r : Nat) (p : Pkt) (st a b c : Nat) : (answer s r p st a b c).fabThreshold = s.fabThreshold := rfl
@[simp] theorem answer_fabClass (s : State) (r : Nat) (p : Pkt) (st a b c : Nat) : (answer s r p st a b c).fabClass = s.fabClass := rfl
@[simp] theorem answer_bridgeGrants (s : State) (r : Nat) (p : Pkt) (st a b c : Nat) : (answer s r p st a b c).bridgeGrants = s.bridgeGrants := rfl
@[simp] theorem answer_probes (s : State) (r : Nat) (p : Pkt) (st a b c : Nat) : (answer s r p st a b c).probes = s.probes := rfl
@[simp] theorem answer_gauges (s : State) (r : Nat) (p : Pkt) (st a b c : Nat) : (answer s r p st a b c).gauges = s.gauges := rfl
@[simp] theorem answer_census (s : State) (r : Nat) (p : Pkt) (st a b c : Nat) : (answer s r p st a b c).census = s.census := rfl
@[simp] theorem answer_images (s : State) (r : Nat) (p : Pkt) (st a b c : Nat) : (answer s r p st a b c).images = s.images := rfl
@[simp] theorem answer_runs (s : State) (r : Nat) (p : Pkt) (st a b c : Nat) : (answer s r p st a b c).runs = s.runs := rfl
@[simp] theorem answer_runId (s : State) (r : Nat) (p : Pkt) (st a b c : Nat) : (answer s r p st a b c).runId = s.runId := rfl
@[simp] theorem answer_owners (s : State) (r : Nat) (p : Pkt) (st a b c : Nat) : (answer s r p st a b c).owners = s.owners := rfl
@[simp] theorem answer_ldrStat (s : State) (r : Nat) (p : Pkt) (st a b c : Nat) : (answer s r p st a b c).ldrStat = s.ldrStat := rfl
@[simp] theorem answer_condSkip (s : State) (r : Nat) (p : Pkt) (st a b c : Nat) : (answer s r p st a b c).condSkip = s.condSkip := rfl
@[simp] theorem answer_trees (s : State) (r : Nat) (p : Pkt) (st a b c : Nat) : (answer s r p st a b c).trees = s.trees := rfl
@[simp] theorem answer_polders (s : State) (r : Nat) (p : Pkt) (st a b c : Nat) : (answer s r p st a b c).polders = s.polders := rfl
@[simp] theorem answer_weirs (s : State) (r : Nat) (p : Pkt) (st a b c : Nat) : (answer s r p st a b c).weirs = s.weirs := rfl
@[simp] theorem answer_ms (s : State) (r : Nat) (p : Pkt) (st a b c : Nat) : (answer s r p st a b c).ms = s.ms := rfl
@[simp] theorem answer_links (s : State) (r : Nat) (p : Pkt) (st a b c : Nat) : (answer s r p st a b c).links = s.links := rfl
@[simp] theorem answer_tide (s : State) (r : Nat) (p : Pkt) (st a b c : Nat) : (answer s r p st a b c).tide = s.tide := rfl
@[simp] theorem answer_saves (s : State) (r : Nat) (p : Pkt) (st a b c : Nat) : (answer s r p st a b c).saves = s.saves := rfl
@[simp] theorem answer_sec (s : State) (r : Nat) (p : Pkt) (st a b c : Nat) : (answer s r p st a b c).sec = s.sec := rfl
@[simp] theorem answer_power (s : State) (r : Nat) (p : Pkt) (st a b c : Nat) : (answer s r p st a b c).power = s.power := rfl
@[simp] theorem answer_ctxs (s : State) (r : Nat) (p : Pkt) (st a b c : Nat) : (answer s r p st a b c).ctxs = s.ctxs := rfl
@[simp] theorem answer_units (s : State) (r : Nat) (p : Pkt) (st a b c : Nat) : (answer s r p st a b c).units = s.units := rfl
@[simp] theorem answer_host (s : State) (r : Nat) (p : Pkt) (st a b c : Nat) : (answer s r p st a b c).host = s.host := rfl
@[simp] theorem answer_health (s : State) (r : Nat) (p : Pkt) (st a b c : Nat) : (answer s r p st a b c).health = s.health := rfl
@[simp] theorem answer_log (s : State) (r : Nat) (p : Pkt) (st a b c : Nat) : (answer s r p st a b c).log = s.log := rfl
@[simp] theorem answer_regs (s : State) (r : Nat) (p : Pkt) (st a b c : Nat) : (answer s r p st a b c).regs = s.regs := rfl
@[simp] theorem answer_tideCount (s : State) (r : Nat) (p : Pkt) (st a b c : Nat) : (answer s r p st a b c).tideCount = s.tideCount := rfl
@[simp] theorem answer_tidePhase (s : State) (r : Nat) (p : Pkt) (st a b c : Nat) : (answer s r p st a b c).tidePhase = s.tidePhase := rfl
@[simp] theorem answer_devFault (s : State) (r : Nat) (p : Pkt) (st a b c : Nat) : (answer s r p st a b c).devFault = s.devFault := rfl
@[simp] theorem answer_ready (s : State) (r : Nat) (p : Pkt) (st a b c : Nat) : (answer s r p st a b c).ready = s.ready := rfl
@[simp] theorem answer_free (s : State) (r : Nat) (p : Pkt) (st a b c : Nat) : (answer s r p st a b c).free = s.free := rfl

/-! ## `refuse` -/

@[simp] theorem refuse_pending (s : State) (r : Nat) (p : Pkt) (st : Nat) : (refuse s r p st).pending = s.pending := rfl
@[simp] theorem refuse_part (s : State) (r : Nat) (p : Pkt) (st : Nat) : (refuse s r p st).part = s.part := rfl
@[simp] theorem refuse_mem (s : State) (r : Nat) (p : Pkt) (st : Nat) : (refuse s r p st).mem = s.mem := rfl
@[simp] theorem refuse_clk (s : State) (r : Nat) (p : Pkt) (st : Nat) : (refuse s r p st).clk = s.clk := rfl
@[simp] theorem refuse_cycles (s : State) (r : Nat) (p : Pkt) (st : Nat) : (refuse s r p st).cycles = s.cycles := rfl
@[simp] theorem refuse_tiles (s : State) (r : Nat) (p : Pkt) (st : Nat) : (refuse s r p st).tiles = s.tiles := rfl
@[simp] theorem refuse_displaced (s : State) (r : Nat) (p : Pkt) (st : Nat) : (refuse s r p st).displaced = s.displaced := rfl
@[simp] theorem refuse_moves (s : State) (r : Nat) (p : Pkt) (st : Nat) : (refuse s r p st).moves = s.moves := rfl
@[simp] theorem refuse_fabThreshold (s : State) (r : Nat) (p : Pkt) (st : Nat) : (refuse s r p st).fabThreshold = s.fabThreshold := rfl
@[simp] theorem refuse_fabClass (s : State) (r : Nat) (p : Pkt) (st : Nat) : (refuse s r p st).fabClass = s.fabClass := rfl
@[simp] theorem refuse_bridgeGrants (s : State) (r : Nat) (p : Pkt) (st : Nat) : (refuse s r p st).bridgeGrants = s.bridgeGrants := rfl
@[simp] theorem refuse_probes (s : State) (r : Nat) (p : Pkt) (st : Nat) : (refuse s r p st).probes = s.probes := rfl
@[simp] theorem refuse_gauges (s : State) (r : Nat) (p : Pkt) (st : Nat) : (refuse s r p st).gauges = s.gauges := rfl
@[simp] theorem refuse_census (s : State) (r : Nat) (p : Pkt) (st : Nat) : (refuse s r p st).census = s.census := rfl
@[simp] theorem refuse_images (s : State) (r : Nat) (p : Pkt) (st : Nat) : (refuse s r p st).images = s.images := rfl
@[simp] theorem refuse_runs (s : State) (r : Nat) (p : Pkt) (st : Nat) : (refuse s r p st).runs = s.runs := rfl
@[simp] theorem refuse_runId (s : State) (r : Nat) (p : Pkt) (st : Nat) : (refuse s r p st).runId = s.runId := rfl
@[simp] theorem refuse_owners (s : State) (r : Nat) (p : Pkt) (st : Nat) : (refuse s r p st).owners = s.owners := rfl
@[simp] theorem refuse_ldrStat (s : State) (r : Nat) (p : Pkt) (st : Nat) : (refuse s r p st).ldrStat = s.ldrStat := rfl
@[simp] theorem refuse_condSkip (s : State) (r : Nat) (p : Pkt) (st : Nat) : (refuse s r p st).condSkip = s.condSkip := rfl
@[simp] theorem refuse_trees (s : State) (r : Nat) (p : Pkt) (st : Nat) : (refuse s r p st).trees = s.trees := rfl
@[simp] theorem refuse_polders (s : State) (r : Nat) (p : Pkt) (st : Nat) : (refuse s r p st).polders = s.polders := rfl
@[simp] theorem refuse_weirs (s : State) (r : Nat) (p : Pkt) (st : Nat) : (refuse s r p st).weirs = s.weirs := rfl
@[simp] theorem refuse_ms (s : State) (r : Nat) (p : Pkt) (st : Nat) : (refuse s r p st).ms = s.ms := rfl
@[simp] theorem refuse_links (s : State) (r : Nat) (p : Pkt) (st : Nat) : (refuse s r p st).links = s.links := rfl
@[simp] theorem refuse_tide (s : State) (r : Nat) (p : Pkt) (st : Nat) : (refuse s r p st).tide = s.tide := rfl
@[simp] theorem refuse_saves (s : State) (r : Nat) (p : Pkt) (st : Nat) : (refuse s r p st).saves = s.saves := rfl
@[simp] theorem refuse_sec (s : State) (r : Nat) (p : Pkt) (st : Nat) : (refuse s r p st).sec = s.sec := rfl
@[simp] theorem refuse_power (s : State) (r : Nat) (p : Pkt) (st : Nat) : (refuse s r p st).power = s.power := rfl
@[simp] theorem refuse_ctxs (s : State) (r : Nat) (p : Pkt) (st : Nat) : (refuse s r p st).ctxs = s.ctxs := rfl
@[simp] theorem refuse_units (s : State) (r : Nat) (p : Pkt) (st : Nat) : (refuse s r p st).units = s.units := rfl
@[simp] theorem refuse_host (s : State) (r : Nat) (p : Pkt) (st : Nat) : (refuse s r p st).host = s.host := rfl
@[simp] theorem refuse_health (s : State) (r : Nat) (p : Pkt) (st : Nat) : (refuse s r p st).health = s.health := rfl
@[simp] theorem refuse_log (s : State) (r : Nat) (p : Pkt) (st : Nat) : (refuse s r p st).log = s.log := rfl
@[simp] theorem refuse_regs (s : State) (r : Nat) (p : Pkt) (st : Nat) : (refuse s r p st).regs = s.regs := rfl
@[simp] theorem refuse_tideCount (s : State) (r : Nat) (p : Pkt) (st : Nat) : (refuse s r p st).tideCount = s.tideCount := rfl
@[simp] theorem refuse_tidePhase (s : State) (r : Nat) (p : Pkt) (st : Nat) : (refuse s r p st).tidePhase = s.tidePhase := rfl
@[simp] theorem refuse_devFault (s : State) (r : Nat) (p : Pkt) (st : Nat) : (refuse s r p st).devFault = s.devFault := rfl
@[simp] theorem refuse_ready (s : State) (r : Nat) (p : Pkt) (st : Nat) : (refuse s r p st).ready = s.ready := rfl
@[simp] theorem refuse_free (s : State) (r : Nat) (p : Pkt) (st : Nat) : (refuse s r p st).free = s.free := rfl

/-! ## `accept` -/

@[simp] theorem accept_pending (s : State) (r : Nat) (p : Pkt) (aux : List Nat) : (accept s r p aux).pending = s.pending := rfl
@[simp] theorem accept_part (s : State) (r : Nat) (p : Pkt) (aux : List Nat) : (accept s r p aux).part = s.part := rfl
@[simp] theorem accept_mem (s : State) (r : Nat) (p : Pkt) (aux : List Nat) : (accept s r p aux).mem = s.mem := rfl
@[simp] theorem accept_clk (s : State) (r : Nat) (p : Pkt) (aux : List Nat) : (accept s r p aux).clk = s.clk := rfl
@[simp] theorem accept_cycles (s : State) (r : Nat) (p : Pkt) (aux : List Nat) : (accept s r p aux).cycles = s.cycles := rfl
@[simp] theorem accept_tiles (s : State) (r : Nat) (p : Pkt) (aux : List Nat) : (accept s r p aux).tiles = s.tiles := rfl
@[simp] theorem accept_displaced (s : State) (r : Nat) (p : Pkt) (aux : List Nat) : (accept s r p aux).displaced = s.displaced := rfl
@[simp] theorem accept_moves (s : State) (r : Nat) (p : Pkt) (aux : List Nat) : (accept s r p aux).moves = s.moves := rfl
@[simp] theorem accept_fabThreshold (s : State) (r : Nat) (p : Pkt) (aux : List Nat) : (accept s r p aux).fabThreshold = s.fabThreshold := rfl
@[simp] theorem accept_fabClass (s : State) (r : Nat) (p : Pkt) (aux : List Nat) : (accept s r p aux).fabClass = s.fabClass := rfl
@[simp] theorem accept_bridgeGrants (s : State) (r : Nat) (p : Pkt) (aux : List Nat) : (accept s r p aux).bridgeGrants = s.bridgeGrants := rfl
@[simp] theorem accept_probes (s : State) (r : Nat) (p : Pkt) (aux : List Nat) : (accept s r p aux).probes = s.probes := rfl
@[simp] theorem accept_gauges (s : State) (r : Nat) (p : Pkt) (aux : List Nat) : (accept s r p aux).gauges = s.gauges := rfl
@[simp] theorem accept_census (s : State) (r : Nat) (p : Pkt) (aux : List Nat) : (accept s r p aux).census = s.census := rfl
@[simp] theorem accept_images (s : State) (r : Nat) (p : Pkt) (aux : List Nat) : (accept s r p aux).images = s.images := rfl
@[simp] theorem accept_runs (s : State) (r : Nat) (p : Pkt) (aux : List Nat) : (accept s r p aux).runs = s.runs := rfl
@[simp] theorem accept_runId (s : State) (r : Nat) (p : Pkt) (aux : List Nat) : (accept s r p aux).runId = s.runId := rfl
@[simp] theorem accept_owners (s : State) (r : Nat) (p : Pkt) (aux : List Nat) : (accept s r p aux).owners = s.owners := rfl
@[simp] theorem accept_ldrStat (s : State) (r : Nat) (p : Pkt) (aux : List Nat) : (accept s r p aux).ldrStat = s.ldrStat := rfl
@[simp] theorem accept_condSkip (s : State) (r : Nat) (p : Pkt) (aux : List Nat) : (accept s r p aux).condSkip = s.condSkip := rfl
@[simp] theorem accept_trees (s : State) (r : Nat) (p : Pkt) (aux : List Nat) : (accept s r p aux).trees = s.trees := rfl
@[simp] theorem accept_polders (s : State) (r : Nat) (p : Pkt) (aux : List Nat) : (accept s r p aux).polders = s.polders := rfl
@[simp] theorem accept_weirs (s : State) (r : Nat) (p : Pkt) (aux : List Nat) : (accept s r p aux).weirs = s.weirs := rfl
@[simp] theorem accept_ms (s : State) (r : Nat) (p : Pkt) (aux : List Nat) : (accept s r p aux).ms = s.ms := rfl
@[simp] theorem accept_links (s : State) (r : Nat) (p : Pkt) (aux : List Nat) : (accept s r p aux).links = s.links := rfl
@[simp] theorem accept_tide (s : State) (r : Nat) (p : Pkt) (aux : List Nat) : (accept s r p aux).tide = s.tide := rfl
@[simp] theorem accept_saves (s : State) (r : Nat) (p : Pkt) (aux : List Nat) : (accept s r p aux).saves = s.saves := rfl
@[simp] theorem accept_sec (s : State) (r : Nat) (p : Pkt) (aux : List Nat) : (accept s r p aux).sec = s.sec := rfl
@[simp] theorem accept_power (s : State) (r : Nat) (p : Pkt) (aux : List Nat) : (accept s r p aux).power = s.power := rfl
@[simp] theorem accept_ctxs (s : State) (r : Nat) (p : Pkt) (aux : List Nat) : (accept s r p aux).ctxs = s.ctxs := rfl
@[simp] theorem accept_units (s : State) (r : Nat) (p : Pkt) (aux : List Nat) : (accept s r p aux).units = s.units := rfl
@[simp] theorem accept_host (s : State) (r : Nat) (p : Pkt) (aux : List Nat) : (accept s r p aux).host = s.host := rfl
@[simp] theorem accept_health (s : State) (r : Nat) (p : Pkt) (aux : List Nat) : (accept s r p aux).health = s.health := rfl
@[simp] theorem accept_log (s : State) (r : Nat) (p : Pkt) (aux : List Nat) : (accept s r p aux).log = s.log := rfl
@[simp] theorem accept_regs (s : State) (r : Nat) (p : Pkt) (aux : List Nat) : (accept s r p aux).regs = s.regs := rfl
@[simp] theorem accept_tideCount (s : State) (r : Nat) (p : Pkt) (aux : List Nat) : (accept s r p aux).tideCount = s.tideCount := rfl
@[simp] theorem accept_tidePhase (s : State) (r : Nat) (p : Pkt) (aux : List Nat) : (accept s r p aux).tidePhase = s.tidePhase := rfl
@[simp] theorem accept_devFault (s : State) (r : Nat) (p : Pkt) (aux : List Nat) : (accept s r p aux).devFault = s.devFault := rfl
@[simp] theorem accept_ready (s : State) (r : Nat) (p : Pkt) (aux : List Nat) : (accept s r p aux).ready = s.ready := rfl
@[simp] theorem accept_free (s : State) (r : Nat) (p : Pkt) (aux : List Nat) : (accept s r p aux).free = s.free := rfl

/-! ## `modRun` -/

@[simp] theorem modRun_pending (s : State) (k : Nat) (f : Run → Run) : (s.modRun k f).pending = s.pending := rfl
@[simp] theorem modRun_part (s : State) (k : Nat) (f : Run → Run) : (s.modRun k f).part = s.part := rfl
@[simp] theorem modRun_mem (s : State) (k : Nat) (f : Run → Run) : (s.modRun k f).mem = s.mem := rfl
@[simp] theorem modRun_clk (s : State) (k : Nat) (f : Run → Run) : (s.modRun k f).clk = s.clk := rfl
@[simp] theorem modRun_cycles (s : State) (k : Nat) (f : Run → Run) : (s.modRun k f).cycles = s.cycles := rfl
@[simp] theorem modRun_tiles (s : State) (k : Nat) (f : Run → Run) : (s.modRun k f).tiles = s.tiles := rfl
@[simp] theorem modRun_displaced (s : State) (k : Nat) (f : Run → Run) : (s.modRun k f).displaced = s.displaced := rfl
@[simp] theorem modRun_moves (s : State) (k : Nat) (f : Run → Run) : (s.modRun k f).moves = s.moves := rfl
@[simp] theorem modRun_fabThreshold (s : State) (k : Nat) (f : Run → Run) : (s.modRun k f).fabThreshold = s.fabThreshold := rfl
@[simp] theorem modRun_fabClass (s : State) (k : Nat) (f : Run → Run) : (s.modRun k f).fabClass = s.fabClass := rfl
@[simp] theorem modRun_bridgeGrants (s : State) (k : Nat) (f : Run → Run) : (s.modRun k f).bridgeGrants = s.bridgeGrants := rfl
@[simp] theorem modRun_probes (s : State) (k : Nat) (f : Run → Run) : (s.modRun k f).probes = s.probes := rfl
@[simp] theorem modRun_gauges (s : State) (k : Nat) (f : Run → Run) : (s.modRun k f).gauges = s.gauges := rfl
@[simp] theorem modRun_census (s : State) (k : Nat) (f : Run → Run) : (s.modRun k f).census = s.census := rfl
@[simp] theorem modRun_images (s : State) (k : Nat) (f : Run → Run) : (s.modRun k f).images = s.images := rfl
@[simp] theorem modRun_runId (s : State) (k : Nat) (f : Run → Run) : (s.modRun k f).runId = s.runId := rfl
@[simp] theorem modRun_owners (s : State) (k : Nat) (f : Run → Run) : (s.modRun k f).owners = s.owners := rfl
@[simp] theorem modRun_ldrStat (s : State) (k : Nat) (f : Run → Run) : (s.modRun k f).ldrStat = s.ldrStat := rfl
@[simp] theorem modRun_condSkip (s : State) (k : Nat) (f : Run → Run) : (s.modRun k f).condSkip = s.condSkip := rfl
@[simp] theorem modRun_trees (s : State) (k : Nat) (f : Run → Run) : (s.modRun k f).trees = s.trees := rfl
@[simp] theorem modRun_polders (s : State) (k : Nat) (f : Run → Run) : (s.modRun k f).polders = s.polders := rfl
@[simp] theorem modRun_weirs (s : State) (k : Nat) (f : Run → Run) : (s.modRun k f).weirs = s.weirs := rfl
@[simp] theorem modRun_ms (s : State) (k : Nat) (f : Run → Run) : (s.modRun k f).ms = s.ms := rfl
@[simp] theorem modRun_links (s : State) (k : Nat) (f : Run → Run) : (s.modRun k f).links = s.links := rfl
@[simp] theorem modRun_tide (s : State) (k : Nat) (f : Run → Run) : (s.modRun k f).tide = s.tide := rfl
@[simp] theorem modRun_saves (s : State) (k : Nat) (f : Run → Run) : (s.modRun k f).saves = s.saves := rfl
@[simp] theorem modRun_sec (s : State) (k : Nat) (f : Run → Run) : (s.modRun k f).sec = s.sec := rfl
@[simp] theorem modRun_power (s : State) (k : Nat) (f : Run → Run) : (s.modRun k f).power = s.power := rfl
@[simp] theorem modRun_ctxs (s : State) (k : Nat) (f : Run → Run) : (s.modRun k f).ctxs = s.ctxs := rfl
@[simp] theorem modRun_rings (s : State) (k : Nat) (f : Run → Run) : (s.modRun k f).rings = s.rings := rfl
@[simp] theorem modRun_units (s : State) (k : Nat) (f : Run → Run) : (s.modRun k f).units = s.units := rfl
@[simp] theorem modRun_host (s : State) (k : Nat) (f : Run → Run) : (s.modRun k f).host = s.host := rfl
@[simp] theorem modRun_health (s : State) (k : Nat) (f : Run → Run) : (s.modRun k f).health = s.health := rfl
@[simp] theorem modRun_log (s : State) (k : Nat) (f : Run → Run) : (s.modRun k f).log = s.log := rfl
@[simp] theorem modRun_regs (s : State) (k : Nat) (f : Run → Run) : (s.modRun k f).regs = s.regs := rfl
@[simp] theorem modRun_tideCount (s : State) (k : Nat) (f : Run → Run) : (s.modRun k f).tideCount = s.tideCount := rfl
@[simp] theorem modRun_tidePhase (s : State) (k : Nat) (f : Run → Run) : (s.modRun k f).tidePhase = s.tidePhase := rfl
@[simp] theorem modRun_devFault (s : State) (k : Nat) (f : Run → Run) : (s.modRun k f).devFault = s.devFault := rfl
@[simp] theorem modRun_ready (s : State) (k : Nat) (f : Run → Run) : (s.modRun k f).ready = s.ready := rfl
@[simp] theorem modRun_free (s : State) (k : Nat) (f : Run → Run) : (s.modRun k f).free = s.free := rfl

/-! ## `dropRun` -/

@[simp] theorem dropRun_pending (s : State) (k : Nat) : (s.dropRun k).pending = s.pending := rfl
@[simp] theorem dropRun_part (s : State) (k : Nat) : (s.dropRun k).part = s.part := rfl
@[simp] theorem dropRun_mem (s : State) (k : Nat) : (s.dropRun k).mem = s.mem := rfl
@[simp] theorem dropRun_clk (s : State) (k : Nat) : (s.dropRun k).clk = s.clk := rfl
@[simp] theorem dropRun_cycles (s : State) (k : Nat) : (s.dropRun k).cycles = s.cycles := rfl
@[simp] theorem dropRun_tiles (s : State) (k : Nat) : (s.dropRun k).tiles = s.tiles := rfl
@[simp] theorem dropRun_displaced (s : State) (k : Nat) : (s.dropRun k).displaced = s.displaced := rfl
@[simp] theorem dropRun_moves (s : State) (k : Nat) : (s.dropRun k).moves = s.moves := rfl
@[simp] theorem dropRun_fabThreshold (s : State) (k : Nat) : (s.dropRun k).fabThreshold = s.fabThreshold := rfl
@[simp] theorem dropRun_fabClass (s : State) (k : Nat) : (s.dropRun k).fabClass = s.fabClass := rfl
@[simp] theorem dropRun_bridgeGrants (s : State) (k : Nat) : (s.dropRun k).bridgeGrants = s.bridgeGrants := rfl
@[simp] theorem dropRun_probes (s : State) (k : Nat) : (s.dropRun k).probes = s.probes := rfl
@[simp] theorem dropRun_gauges (s : State) (k : Nat) : (s.dropRun k).gauges = s.gauges := rfl
@[simp] theorem dropRun_census (s : State) (k : Nat) : (s.dropRun k).census = s.census := rfl
@[simp] theorem dropRun_images (s : State) (k : Nat) : (s.dropRun k).images = s.images := rfl
@[simp] theorem dropRun_runId (s : State) (k : Nat) : (s.dropRun k).runId = s.runId := rfl
@[simp] theorem dropRun_owners (s : State) (k : Nat) : (s.dropRun k).owners = s.owners := rfl
@[simp] theorem dropRun_ldrStat (s : State) (k : Nat) : (s.dropRun k).ldrStat = s.ldrStat := rfl
@[simp] theorem dropRun_condSkip (s : State) (k : Nat) : (s.dropRun k).condSkip = s.condSkip := rfl
@[simp] theorem dropRun_trees (s : State) (k : Nat) : (s.dropRun k).trees = s.trees := rfl
@[simp] theorem dropRun_polders (s : State) (k : Nat) : (s.dropRun k).polders = s.polders := rfl
@[simp] theorem dropRun_weirs (s : State) (k : Nat) : (s.dropRun k).weirs = s.weirs := rfl
@[simp] theorem dropRun_ms (s : State) (k : Nat) : (s.dropRun k).ms = s.ms := rfl
@[simp] theorem dropRun_links (s : State) (k : Nat) : (s.dropRun k).links = s.links := rfl
@[simp] theorem dropRun_tide (s : State) (k : Nat) : (s.dropRun k).tide = s.tide := rfl
@[simp] theorem dropRun_saves (s : State) (k : Nat) : (s.dropRun k).saves = s.saves := rfl
@[simp] theorem dropRun_sec (s : State) (k : Nat) : (s.dropRun k).sec = s.sec := rfl
@[simp] theorem dropRun_power (s : State) (k : Nat) : (s.dropRun k).power = s.power := rfl
@[simp] theorem dropRun_ctxs (s : State) (k : Nat) : (s.dropRun k).ctxs = s.ctxs := rfl
@[simp] theorem dropRun_rings (s : State) (k : Nat) : (s.dropRun k).rings = s.rings := rfl
@[simp] theorem dropRun_units (s : State) (k : Nat) : (s.dropRun k).units = s.units := rfl
@[simp] theorem dropRun_host (s : State) (k : Nat) : (s.dropRun k).host = s.host := rfl
@[simp] theorem dropRun_health (s : State) (k : Nat) : (s.dropRun k).health = s.health := rfl
@[simp] theorem dropRun_log (s : State) (k : Nat) : (s.dropRun k).log = s.log := rfl
@[simp] theorem dropRun_regs (s : State) (k : Nat) : (s.dropRun k).regs = s.regs := rfl
@[simp] theorem dropRun_tideCount (s : State) (k : Nat) : (s.dropRun k).tideCount = s.tideCount := rfl
@[simp] theorem dropRun_tidePhase (s : State) (k : Nat) : (s.dropRun k).tidePhase = s.tidePhase := rfl
@[simp] theorem dropRun_devFault (s : State) (k : Nat) : (s.dropRun k).devFault = s.devFault := rfl
@[simp] theorem dropRun_ready (s : State) (k : Nat) : (s.dropRun k).ready = s.ready := rfl
@[simp] theorem dropRun_free (s : State) (k : Nat) : (s.dropRun k).free = s.free := rfl

/-! ## `bumpLdr` -/

@[simp] theorem bumpLdr_pending (s : State) (k n : Nat) : (s.bumpLdr k n).pending = s.pending := rfl
@[simp] theorem bumpLdr_part (s : State) (k n : Nat) : (s.bumpLdr k n).part = s.part := rfl
@[simp] theorem bumpLdr_mem (s : State) (k n : Nat) : (s.bumpLdr k n).mem = s.mem := rfl
@[simp] theorem bumpLdr_clk (s : State) (k n : Nat) : (s.bumpLdr k n).clk = s.clk := rfl
@[simp] theorem bumpLdr_cycles (s : State) (k n : Nat) : (s.bumpLdr k n).cycles = s.cycles := rfl
@[simp] theorem bumpLdr_tiles (s : State) (k n : Nat) : (s.bumpLdr k n).tiles = s.tiles := rfl
@[simp] theorem bumpLdr_displaced (s : State) (k n : Nat) : (s.bumpLdr k n).displaced = s.displaced := rfl
@[simp] theorem bumpLdr_moves (s : State) (k n : Nat) : (s.bumpLdr k n).moves = s.moves := rfl
@[simp] theorem bumpLdr_fabThreshold (s : State) (k n : Nat) : (s.bumpLdr k n).fabThreshold = s.fabThreshold := rfl
@[simp] theorem bumpLdr_fabClass (s : State) (k n : Nat) : (s.bumpLdr k n).fabClass = s.fabClass := rfl
@[simp] theorem bumpLdr_bridgeGrants (s : State) (k n : Nat) : (s.bumpLdr k n).bridgeGrants = s.bridgeGrants := rfl
@[simp] theorem bumpLdr_probes (s : State) (k n : Nat) : (s.bumpLdr k n).probes = s.probes := rfl
@[simp] theorem bumpLdr_gauges (s : State) (k n : Nat) : (s.bumpLdr k n).gauges = s.gauges := rfl
@[simp] theorem bumpLdr_census (s : State) (k n : Nat) : (s.bumpLdr k n).census = s.census := rfl
@[simp] theorem bumpLdr_images (s : State) (k n : Nat) : (s.bumpLdr k n).images = s.images := rfl
@[simp] theorem bumpLdr_runs (s : State) (k n : Nat) : (s.bumpLdr k n).runs = s.runs := rfl
@[simp] theorem bumpLdr_runId (s : State) (k n : Nat) : (s.bumpLdr k n).runId = s.runId := rfl
@[simp] theorem bumpLdr_owners (s : State) (k n : Nat) : (s.bumpLdr k n).owners = s.owners := rfl
@[simp] theorem bumpLdr_condSkip (s : State) (k n : Nat) : (s.bumpLdr k n).condSkip = s.condSkip := rfl
@[simp] theorem bumpLdr_trees (s : State) (k n : Nat) : (s.bumpLdr k n).trees = s.trees := rfl
@[simp] theorem bumpLdr_polders (s : State) (k n : Nat) : (s.bumpLdr k n).polders = s.polders := rfl
@[simp] theorem bumpLdr_weirs (s : State) (k n : Nat) : (s.bumpLdr k n).weirs = s.weirs := rfl
@[simp] theorem bumpLdr_ms (s : State) (k n : Nat) : (s.bumpLdr k n).ms = s.ms := rfl
@[simp] theorem bumpLdr_links (s : State) (k n : Nat) : (s.bumpLdr k n).links = s.links := rfl
@[simp] theorem bumpLdr_tide (s : State) (k n : Nat) : (s.bumpLdr k n).tide = s.tide := rfl
@[simp] theorem bumpLdr_saves (s : State) (k n : Nat) : (s.bumpLdr k n).saves = s.saves := rfl
@[simp] theorem bumpLdr_sec (s : State) (k n : Nat) : (s.bumpLdr k n).sec = s.sec := rfl
@[simp] theorem bumpLdr_power (s : State) (k n : Nat) : (s.bumpLdr k n).power = s.power := rfl
@[simp] theorem bumpLdr_ctxs (s : State) (k n : Nat) : (s.bumpLdr k n).ctxs = s.ctxs := rfl
@[simp] theorem bumpLdr_rings (s : State) (k n : Nat) : (s.bumpLdr k n).rings = s.rings := rfl
@[simp] theorem bumpLdr_units (s : State) (k n : Nat) : (s.bumpLdr k n).units = s.units := rfl
@[simp] theorem bumpLdr_host (s : State) (k n : Nat) : (s.bumpLdr k n).host = s.host := rfl
@[simp] theorem bumpLdr_health (s : State) (k n : Nat) : (s.bumpLdr k n).health = s.health := rfl
@[simp] theorem bumpLdr_log (s : State) (k n : Nat) : (s.bumpLdr k n).log = s.log := rfl
@[simp] theorem bumpLdr_regs (s : State) (k n : Nat) : (s.bumpLdr k n).regs = s.regs := rfl
@[simp] theorem bumpLdr_tideCount (s : State) (k n : Nat) : (s.bumpLdr k n).tideCount = s.tideCount := rfl
@[simp] theorem bumpLdr_tidePhase (s : State) (k n : Nat) : (s.bumpLdr k n).tidePhase = s.tidePhase := rfl
@[simp] theorem bumpLdr_devFault (s : State) (k n : Nat) : (s.bumpLdr k n).devFault = s.devFault := rfl
@[simp] theorem bumpLdr_ready (s : State) (k n : Nat) : (s.bumpLdr k n).ready = s.ready := rfl
@[simp] theorem bumpLdr_free (s : State) (k n : Nat) : (s.bumpLdr k n).free = s.free := rfl

/-! ## `haltUsers` -/

@[simp] theorem haltUsers_pending (s : State) : s.haltUsers.pending = s.pending := rfl
@[simp] theorem haltUsers_part (s : State) : s.haltUsers.part = s.part := rfl
@[simp] theorem haltUsers_mem (s : State) : s.haltUsers.mem = s.mem := rfl
@[simp] theorem haltUsers_clk (s : State) : s.haltUsers.clk = s.clk := rfl
@[simp] theorem haltUsers_cycles (s : State) : s.haltUsers.cycles = s.cycles := rfl
@[simp] theorem haltUsers_tiles (s : State) : s.haltUsers.tiles = s.tiles := rfl
@[simp] theorem haltUsers_displaced (s : State) : s.haltUsers.displaced = s.displaced := rfl
@[simp] theorem haltUsers_moves (s : State) : s.haltUsers.moves = s.moves := rfl
@[simp] theorem haltUsers_fabThreshold (s : State) : s.haltUsers.fabThreshold = s.fabThreshold := rfl
@[simp] theorem haltUsers_fabClass (s : State) : s.haltUsers.fabClass = s.fabClass := rfl
@[simp] theorem haltUsers_bridgeGrants (s : State) : s.haltUsers.bridgeGrants = s.bridgeGrants := rfl
@[simp] theorem haltUsers_probes (s : State) : s.haltUsers.probes = s.probes := rfl
@[simp] theorem haltUsers_gauges (s : State) : s.haltUsers.gauges = s.gauges := rfl
@[simp] theorem haltUsers_census (s : State) : s.haltUsers.census = s.census := rfl
@[simp] theorem haltUsers_images (s : State) : s.haltUsers.images = s.images := rfl
@[simp] theorem haltUsers_runs (s : State) : s.haltUsers.runs = s.runs := rfl
@[simp] theorem haltUsers_runId (s : State) : s.haltUsers.runId = s.runId := rfl
@[simp] theorem haltUsers_owners (s : State) : s.haltUsers.owners = s.owners := rfl
@[simp] theorem haltUsers_ldrStat (s : State) : s.haltUsers.ldrStat = s.ldrStat := rfl
@[simp] theorem haltUsers_condSkip (s : State) : s.haltUsers.condSkip = s.condSkip := rfl
@[simp] theorem haltUsers_trees (s : State) : s.haltUsers.trees = s.trees := rfl
@[simp] theorem haltUsers_polders (s : State) : s.haltUsers.polders = s.polders := rfl
@[simp] theorem haltUsers_weirs (s : State) : s.haltUsers.weirs = s.weirs := rfl
@[simp] theorem haltUsers_ms (s : State) : s.haltUsers.ms = s.ms := rfl
@[simp] theorem haltUsers_links (s : State) : s.haltUsers.links = s.links := rfl
@[simp] theorem haltUsers_tide (s : State) : s.haltUsers.tide = s.tide := rfl
@[simp] theorem haltUsers_saves (s : State) : s.haltUsers.saves = s.saves := rfl
@[simp] theorem haltUsers_sec (s : State) : s.haltUsers.sec = s.sec := rfl
@[simp] theorem haltUsers_power (s : State) : s.haltUsers.power = s.power := rfl
@[simp] theorem haltUsers_ctxs (s : State) : s.haltUsers.ctxs = s.ctxs := rfl
@[simp] theorem haltUsers_units (s : State) : s.haltUsers.units = s.units := rfl
@[simp] theorem haltUsers_host (s : State) : s.haltUsers.host = s.host := rfl
@[simp] theorem haltUsers_health (s : State) : s.haltUsers.health = s.health := rfl
@[simp] theorem haltUsers_log (s : State) : s.haltUsers.log = s.log := rfl
@[simp] theorem haltUsers_regs (s : State) : s.haltUsers.regs = s.regs := rfl
@[simp] theorem haltUsers_tideCount (s : State) : s.haltUsers.tideCount = s.tideCount := rfl
@[simp] theorem haltUsers_tidePhase (s : State) : s.haltUsers.tidePhase = s.tidePhase := rfl
@[simp] theorem haltUsers_devFault (s : State) : s.haltUsers.devFault = s.devFault := rfl
@[simp] theorem haltUsers_ready (s : State) : s.haltUsers.ready = s.ready := rfl
@[simp] theorem haltUsers_free (s : State) : s.haltUsers.free = s.free := rfl

/-! ## Snoops and `done` -/

@[simp] theorem backInv_pending (s : State) (gs : List Nat) : (s.backInv gs).pending = s.pending := by
  unfold State.backInv
  induction gs generalizing s with
  | nil => rfl
  | cons g gs ih => rw [List.foldl_cons, ih]; split <;> rfl
@[simp] theorem backInv_part (s : State) (gs : List Nat) : (s.backInv gs).part = s.part := by
  unfold State.backInv
  induction gs generalizing s with
  | nil => rfl
  | cons g gs ih => rw [List.foldl_cons, ih]; split <;> rfl
@[simp] theorem backInv_mem (s : State) (gs : List Nat) : (s.backInv gs).mem = s.mem := by
  unfold State.backInv
  induction gs generalizing s with
  | nil => rfl
  | cons g gs ih => rw [List.foldl_cons, ih]; split <;> rfl
@[simp] theorem backInv_clk (s : State) (gs : List Nat) : (s.backInv gs).clk = s.clk := by
  unfold State.backInv
  induction gs generalizing s with
  | nil => rfl
  | cons g gs ih => rw [List.foldl_cons, ih]; split <;> rfl
@[simp] theorem backInv_cycles (s : State) (gs : List Nat) : (s.backInv gs).cycles = s.cycles := by
  unfold State.backInv
  induction gs generalizing s with
  | nil => rfl
  | cons g gs ih => rw [List.foldl_cons, ih]; split <;> rfl
@[simp] theorem backInv_tiles (s : State) (gs : List Nat) : (s.backInv gs).tiles = s.tiles := by
  unfold State.backInv
  induction gs generalizing s with
  | nil => rfl
  | cons g gs ih => rw [List.foldl_cons, ih]; split <;> rfl
@[simp] theorem backInv_displaced (s : State) (gs : List Nat) : (s.backInv gs).displaced = s.displaced := by
  unfold State.backInv
  induction gs generalizing s with
  | nil => rfl
  | cons g gs ih => rw [List.foldl_cons, ih]; split <;> rfl
@[simp] theorem backInv_moves (s : State) (gs : List Nat) : (s.backInv gs).moves = s.moves := by
  unfold State.backInv
  induction gs generalizing s with
  | nil => rfl
  | cons g gs ih => rw [List.foldl_cons, ih]; split <;> rfl
@[simp] theorem backInv_fabThreshold (s : State) (gs : List Nat) : (s.backInv gs).fabThreshold = s.fabThreshold := by
  unfold State.backInv
  induction gs generalizing s with
  | nil => rfl
  | cons g gs ih => rw [List.foldl_cons, ih]; split <;> rfl
@[simp] theorem backInv_fabClass (s : State) (gs : List Nat) : (s.backInv gs).fabClass = s.fabClass := by
  unfold State.backInv
  induction gs generalizing s with
  | nil => rfl
  | cons g gs ih => rw [List.foldl_cons, ih]; split <;> rfl
@[simp] theorem backInv_bridgeGrants (s : State) (gs : List Nat) : (s.backInv gs).bridgeGrants = s.bridgeGrants := by
  unfold State.backInv
  induction gs generalizing s with
  | nil => rfl
  | cons g gs ih => rw [List.foldl_cons, ih]; split <;> rfl
@[simp] theorem backInv_probes (s : State) (gs : List Nat) : (s.backInv gs).probes = s.probes := by
  unfold State.backInv
  induction gs generalizing s with
  | nil => rfl
  | cons g gs ih => rw [List.foldl_cons, ih]; split <;> rfl
@[simp] theorem backInv_gauges (s : State) (gs : List Nat) : (s.backInv gs).gauges = s.gauges := by
  unfold State.backInv
  induction gs generalizing s with
  | nil => rfl
  | cons g gs ih => rw [List.foldl_cons, ih]; split <;> rfl
@[simp] theorem backInv_census (s : State) (gs : List Nat) : (s.backInv gs).census = s.census := by
  unfold State.backInv
  induction gs generalizing s with
  | nil => rfl
  | cons g gs ih => rw [List.foldl_cons, ih]; split <;> rfl
@[simp] theorem backInv_images (s : State) (gs : List Nat) : (s.backInv gs).images = s.images := by
  unfold State.backInv
  induction gs generalizing s with
  | nil => rfl
  | cons g gs ih => rw [List.foldl_cons, ih]; split <;> rfl
@[simp] theorem backInv_runs (s : State) (gs : List Nat) : (s.backInv gs).runs = s.runs := by
  unfold State.backInv
  induction gs generalizing s with
  | nil => rfl
  | cons g gs ih => rw [List.foldl_cons, ih]; split <;> rfl
@[simp] theorem backInv_runId (s : State) (gs : List Nat) : (s.backInv gs).runId = s.runId := by
  unfold State.backInv
  induction gs generalizing s with
  | nil => rfl
  | cons g gs ih => rw [List.foldl_cons, ih]; split <;> rfl
@[simp] theorem backInv_owners (s : State) (gs : List Nat) : (s.backInv gs).owners = s.owners := by
  unfold State.backInv
  induction gs generalizing s with
  | nil => rfl
  | cons g gs ih => rw [List.foldl_cons, ih]; split <;> rfl
@[simp] theorem backInv_ldrStat (s : State) (gs : List Nat) : (s.backInv gs).ldrStat = s.ldrStat := by
  unfold State.backInv
  induction gs generalizing s with
  | nil => rfl
  | cons g gs ih => rw [List.foldl_cons, ih]; split <;> rfl
@[simp] theorem backInv_condSkip (s : State) (gs : List Nat) : (s.backInv gs).condSkip = s.condSkip := by
  unfold State.backInv
  induction gs generalizing s with
  | nil => rfl
  | cons g gs ih => rw [List.foldl_cons, ih]; split <;> rfl
@[simp] theorem backInv_trees (s : State) (gs : List Nat) : (s.backInv gs).trees = s.trees := by
  unfold State.backInv
  induction gs generalizing s with
  | nil => rfl
  | cons g gs ih => rw [List.foldl_cons, ih]; split <;> rfl
@[simp] theorem backInv_polders (s : State) (gs : List Nat) : (s.backInv gs).polders = s.polders := by
  unfold State.backInv
  induction gs generalizing s with
  | nil => rfl
  | cons g gs ih => rw [List.foldl_cons, ih]; split <;> rfl
@[simp] theorem backInv_weirs (s : State) (gs : List Nat) : (s.backInv gs).weirs = s.weirs := by
  unfold State.backInv
  induction gs generalizing s with
  | nil => rfl
  | cons g gs ih => rw [List.foldl_cons, ih]; split <;> rfl
@[simp] theorem backInv_ms (s : State) (gs : List Nat) : (s.backInv gs).ms = s.ms := by
  unfold State.backInv
  induction gs generalizing s with
  | nil => rfl
  | cons g gs ih => rw [List.foldl_cons, ih]; split <;> rfl
@[simp] theorem backInv_links (s : State) (gs : List Nat) : (s.backInv gs).links = s.links := by
  unfold State.backInv
  induction gs generalizing s with
  | nil => rfl
  | cons g gs ih => rw [List.foldl_cons, ih]; split <;> rfl
@[simp] theorem backInv_tide (s : State) (gs : List Nat) : (s.backInv gs).tide = s.tide := by
  unfold State.backInv
  induction gs generalizing s with
  | nil => rfl
  | cons g gs ih => rw [List.foldl_cons, ih]; split <;> rfl
@[simp] theorem backInv_saves (s : State) (gs : List Nat) : (s.backInv gs).saves = s.saves := by
  unfold State.backInv
  induction gs generalizing s with
  | nil => rfl
  | cons g gs ih => rw [List.foldl_cons, ih]; split <;> rfl
@[simp] theorem backInv_sec (s : State) (gs : List Nat) : (s.backInv gs).sec = s.sec := by
  unfold State.backInv
  induction gs generalizing s with
  | nil => rfl
  | cons g gs ih => rw [List.foldl_cons, ih]; split <;> rfl
@[simp] theorem backInv_power (s : State) (gs : List Nat) : (s.backInv gs).power = s.power := by
  unfold State.backInv
  induction gs generalizing s with
  | nil => rfl
  | cons g gs ih => rw [List.foldl_cons, ih]; split <;> rfl
@[simp] theorem backInv_ctxs (s : State) (gs : List Nat) : (s.backInv gs).ctxs = s.ctxs := by
  unfold State.backInv
  induction gs generalizing s with
  | nil => rfl
  | cons g gs ih => rw [List.foldl_cons, ih]; split <;> rfl
@[simp] theorem backInv_rings (s : State) (gs : List Nat) : (s.backInv gs).rings = s.rings := by
  unfold State.backInv
  induction gs generalizing s with
  | nil => rfl
  | cons g gs ih => rw [List.foldl_cons, ih]; split <;> rfl
@[simp] theorem backInv_units (s : State) (gs : List Nat) : (s.backInv gs).units = s.units := by
  unfold State.backInv
  induction gs generalizing s with
  | nil => rfl
  | cons g gs ih => rw [List.foldl_cons, ih]; split <;> rfl
@[simp] theorem backInv_health (s : State) (gs : List Nat) : (s.backInv gs).health = s.health := by
  unfold State.backInv
  induction gs generalizing s with
  | nil => rfl
  | cons g gs ih => rw [List.foldl_cons, ih]; split <;> rfl
@[simp] theorem backInv_log (s : State) (gs : List Nat) : (s.backInv gs).log = s.log := by
  unfold State.backInv
  induction gs generalizing s with
  | nil => rfl
  | cons g gs ih => rw [List.foldl_cons, ih]; split <;> rfl
@[simp] theorem backInv_regs (s : State) (gs : List Nat) : (s.backInv gs).regs = s.regs := by
  unfold State.backInv
  induction gs generalizing s with
  | nil => rfl
  | cons g gs ih => rw [List.foldl_cons, ih]; split <;> rfl
@[simp] theorem backInv_tideCount (s : State) (gs : List Nat) : (s.backInv gs).tideCount = s.tideCount := by
  unfold State.backInv
  induction gs generalizing s with
  | nil => rfl
  | cons g gs ih => rw [List.foldl_cons, ih]; split <;> rfl
@[simp] theorem backInv_tidePhase (s : State) (gs : List Nat) : (s.backInv gs).tidePhase = s.tidePhase := by
  unfold State.backInv
  induction gs generalizing s with
  | nil => rfl
  | cons g gs ih => rw [List.foldl_cons, ih]; split <;> rfl
@[simp] theorem backInv_devFault (s : State) (gs : List Nat) : (s.backInv gs).devFault = s.devFault := by
  unfold State.backInv
  induction gs generalizing s with
  | nil => rfl
  | cons g gs ih => rw [List.foldl_cons, ih]; split <;> rfl
@[simp] theorem backInv_ready (s : State) (gs : List Nat) : (s.backInv gs).ready = s.ready := by
  unfold State.backInv
  induction gs generalizing s with
  | nil => rfl
  | cons g gs ih => rw [List.foldl_cons, ih]; split <;> rfl
@[simp] theorem backInv_free (s : State) (gs : List Nat) : (s.backInv gs).free = s.free := by
  unfold State.backInv
  induction gs generalizing s with
  | nil => rfl
  | cons g gs ih => rw [List.foldl_cons, ih]; split <;> rfl

theorem touchDev_eq (s : State) (a n : Nat) : ∃ x y, touchDev s a n = { s with host := { s.host with snooped := x, hostLines := y } } := by
  suffices h : ∀ (gs : List Nat) (s : State), ∃ x y, s.backInv gs = { s with host := { s.host with snooped := x, hostLines := y } } from h _ _
  intro gs
  induction gs with
  | nil => exact fun s => ⟨s.host.snooped, s.host.hostLines, rfl⟩
  | cons g gs ih =>
    intro s
    simp only [State.backInv, List.foldl_cons]
    split
    · obtain ⟨x, y, h⟩ := ih { s with host := { s.host with hostLines := adel s.host.hostLines g, snooped := _ :: s.host.snooped } }
      exact ⟨x, y, h⟩
    · exact ih s

/-- Snooping changes nothing but its bookkeeping. -/
theorem touchAll_eq (s : State) (l : List (Nat × Nat)) :
    ∃ x y, touchAll s l = { s with host := { s.host with snooped := x, hostLines := y } } := by
  induction l generalizing s with
  | nil => exact ⟨s.host.snooped, s.host.hostLines, rfl⟩
  | cons e l ih =>
    obtain ⟨a, b, h⟩ := touchDev_eq s e.1 e.2
    obtain ⟨x, y, g⟩ := ih (touchDev s e.1 e.2)
    refine ⟨x, y, ?_⟩
    change touchAll (touchDev s e.1 e.2) l = _
    rw [g, h]

@[simp] theorem touchDev_pending (s : State) (a n : Nat) : (touchDev s a n).pending = s.pending := by simp [touchDev]
@[simp] theorem touchAll_pending (s : State) (l : List (Nat × Nat)) : (touchAll s l).pending = s.pending := by obtain ⟨x, y, h⟩ := touchAll_eq s l; rw [h]
@[simp] theorem advance_pending (s : State) (r : Nat) : (advance s r).pending = s.pending := by simp [advance]
@[simp] theorem touchDev_part (s : State) (a n : Nat) : (touchDev s a n).part = s.part := by simp [touchDev]
@[simp] theorem touchAll_part (s : State) (l : List (Nat × Nat)) : (touchAll s l).part = s.part := by obtain ⟨x, y, h⟩ := touchAll_eq s l; rw [h]
@[simp] theorem advance_part (s : State) (r : Nat) : (advance s r).part = s.part := by simp [advance]
@[simp] theorem touchDev_mem (s : State) (a n : Nat) : (touchDev s a n).mem = s.mem := by simp [touchDev]
@[simp] theorem touchAll_mem (s : State) (l : List (Nat × Nat)) : (touchAll s l).mem = s.mem := by obtain ⟨x, y, h⟩ := touchAll_eq s l; rw [h]
@[simp] theorem advance_mem (s : State) (r : Nat) : (advance s r).mem = s.mem := by simp [advance]
@[simp] theorem touchDev_clk (s : State) (a n : Nat) : (touchDev s a n).clk = s.clk := by simp [touchDev]
@[simp] theorem touchAll_clk (s : State) (l : List (Nat × Nat)) : (touchAll s l).clk = s.clk := by obtain ⟨x, y, h⟩ := touchAll_eq s l; rw [h]
@[simp] theorem advance_clk (s : State) (r : Nat) : (advance s r).clk = s.clk := by simp [advance]
@[simp] theorem touchDev_cycles (s : State) (a n : Nat) : (touchDev s a n).cycles = s.cycles := by simp [touchDev]
@[simp] theorem touchAll_cycles (s : State) (l : List (Nat × Nat)) : (touchAll s l).cycles = s.cycles := by obtain ⟨x, y, h⟩ := touchAll_eq s l; rw [h]
@[simp] theorem advance_cycles (s : State) (r : Nat) : (advance s r).cycles = s.cycles := by simp [advance]
@[simp] theorem touchDev_tiles (s : State) (a n : Nat) : (touchDev s a n).tiles = s.tiles := by simp [touchDev]
@[simp] theorem touchAll_tiles (s : State) (l : List (Nat × Nat)) : (touchAll s l).tiles = s.tiles := by obtain ⟨x, y, h⟩ := touchAll_eq s l; rw [h]
@[simp] theorem advance_tiles (s : State) (r : Nat) : (advance s r).tiles = s.tiles := by simp [advance]
@[simp] theorem touchDev_displaced (s : State) (a n : Nat) : (touchDev s a n).displaced = s.displaced := by simp [touchDev]
@[simp] theorem touchAll_displaced (s : State) (l : List (Nat × Nat)) : (touchAll s l).displaced = s.displaced := by obtain ⟨x, y, h⟩ := touchAll_eq s l; rw [h]
@[simp] theorem advance_displaced (s : State) (r : Nat) : (advance s r).displaced = s.displaced := by simp [advance]
@[simp] theorem touchDev_moves (s : State) (a n : Nat) : (touchDev s a n).moves = s.moves := by simp [touchDev]
@[simp] theorem touchAll_moves (s : State) (l : List (Nat × Nat)) : (touchAll s l).moves = s.moves := by obtain ⟨x, y, h⟩ := touchAll_eq s l; rw [h]
@[simp] theorem advance_moves (s : State) (r : Nat) : (advance s r).moves = s.moves := by simp [advance]
@[simp] theorem touchDev_fabThreshold (s : State) (a n : Nat) : (touchDev s a n).fabThreshold = s.fabThreshold := by simp [touchDev]
@[simp] theorem touchDev_fabClass (s : State) (a n : Nat) : (touchDev s a n).fabClass = s.fabClass := by simp [touchDev]
@[simp] theorem touchDev_bridgeGrants (s : State) (a n : Nat) : (touchDev s a n).bridgeGrants = s.bridgeGrants := by simp [touchDev]
@[simp] theorem touchAll_fabThreshold (s : State) (l : List (Nat × Nat)) : (touchAll s l).fabThreshold = s.fabThreshold := by obtain ⟨x, y, h⟩ := touchAll_eq s l; rw [h]
@[simp] theorem touchAll_fabClass (s : State) (l : List (Nat × Nat)) : (touchAll s l).fabClass = s.fabClass := by obtain ⟨x, y, h⟩ := touchAll_eq s l; rw [h]
@[simp] theorem touchAll_bridgeGrants (s : State) (l : List (Nat × Nat)) : (touchAll s l).bridgeGrants = s.bridgeGrants := by obtain ⟨x, y, h⟩ := touchAll_eq s l; rw [h]
@[simp] theorem advance_fabThreshold (s : State) (r : Nat) : (advance s r).fabThreshold = s.fabThreshold := by simp [advance]
@[simp] theorem advance_fabClass (s : State) (r : Nat) : (advance s r).fabClass = s.fabClass := by simp [advance]
@[simp] theorem advance_bridgeGrants (s : State) (r : Nat) : (advance s r).bridgeGrants = s.bridgeGrants := by simp [advance]
@[simp] theorem touchDev_probes (s : State) (a n : Nat) : (touchDev s a n).probes = s.probes := by simp [touchDev]
@[simp] theorem touchAll_probes (s : State) (l : List (Nat × Nat)) : (touchAll s l).probes = s.probes := by obtain ⟨x, y, h⟩ := touchAll_eq s l; rw [h]
@[simp] theorem advance_probes (s : State) (r : Nat) : (advance s r).probes = s.probes := by simp [advance]
@[simp] theorem touchDev_gauges (s : State) (a n : Nat) : (touchDev s a n).gauges = s.gauges := by simp [touchDev]
@[simp] theorem touchAll_gauges (s : State) (l : List (Nat × Nat)) : (touchAll s l).gauges = s.gauges := by obtain ⟨x, y, h⟩ := touchAll_eq s l; rw [h]
@[simp] theorem advance_gauges (s : State) (r : Nat) : (advance s r).gauges = s.gauges := by simp [advance]
@[simp] theorem touchDev_census (s : State) (a n : Nat) : (touchDev s a n).census = s.census := by simp [touchDev]
@[simp] theorem touchAll_census (s : State) (l : List (Nat × Nat)) : (touchAll s l).census = s.census := by obtain ⟨x, y, h⟩ := touchAll_eq s l; rw [h]
@[simp] theorem advance_census (s : State) (r : Nat) : (advance s r).census = s.census := by simp [advance]
@[simp] theorem touchDev_images (s : State) (a n : Nat) : (touchDev s a n).images = s.images := by simp [touchDev]
@[simp] theorem touchAll_images (s : State) (l : List (Nat × Nat)) : (touchAll s l).images = s.images := by obtain ⟨x, y, h⟩ := touchAll_eq s l; rw [h]
@[simp] theorem advance_images (s : State) (r : Nat) : (advance s r).images = s.images := by simp [advance]
@[simp] theorem touchDev_runs (s : State) (a n : Nat) : (touchDev s a n).runs = s.runs := by simp [touchDev]
@[simp] theorem touchAll_runs (s : State) (l : List (Nat × Nat)) : (touchAll s l).runs = s.runs := by obtain ⟨x, y, h⟩ := touchAll_eq s l; rw [h]
@[simp] theorem advance_runs (s : State) (r : Nat) : (advance s r).runs = s.runs := by simp [advance]
@[simp] theorem touchDev_runId (s : State) (a n : Nat) : (touchDev s a n).runId = s.runId := by simp [touchDev]
@[simp] theorem touchAll_runId (s : State) (l : List (Nat × Nat)) : (touchAll s l).runId = s.runId := by obtain ⟨x, y, h⟩ := touchAll_eq s l; rw [h]
@[simp] theorem advance_runId (s : State) (r : Nat) : (advance s r).runId = s.runId := by simp [advance]
@[simp] theorem touchDev_owners (s : State) (a n : Nat) : (touchDev s a n).owners = s.owners := by simp [touchDev]
@[simp] theorem touchAll_owners (s : State) (l : List (Nat × Nat)) : (touchAll s l).owners = s.owners := by obtain ⟨x, y, h⟩ := touchAll_eq s l; rw [h]
@[simp] theorem advance_owners (s : State) (r : Nat) : (advance s r).owners = s.owners := by simp [advance]
@[simp] theorem touchDev_ldrStat (s : State) (a n : Nat) : (touchDev s a n).ldrStat = s.ldrStat := by simp [touchDev]
@[simp] theorem touchAll_ldrStat (s : State) (l : List (Nat × Nat)) : (touchAll s l).ldrStat = s.ldrStat := by obtain ⟨x, y, h⟩ := touchAll_eq s l; rw [h]
@[simp] theorem advance_ldrStat (s : State) (r : Nat) : (advance s r).ldrStat = s.ldrStat := by simp [advance]
@[simp] theorem touchDev_condSkip (s : State) (a n : Nat) : (touchDev s a n).condSkip = s.condSkip := by simp [touchDev]
@[simp] theorem touchAll_condSkip (s : State) (l : List (Nat × Nat)) : (touchAll s l).condSkip = s.condSkip := by obtain ⟨x, y, h⟩ := touchAll_eq s l; rw [h]
@[simp] theorem advance_condSkip (s : State) (r : Nat) : (advance s r).condSkip = s.condSkip := by simp [advance]
@[simp] theorem touchDev_trees (s : State) (a n : Nat) : (touchDev s a n).trees = s.trees := by simp [touchDev]
@[simp] theorem touchAll_trees (s : State) (l : List (Nat × Nat)) : (touchAll s l).trees = s.trees := by obtain ⟨x, y, h⟩ := touchAll_eq s l; rw [h]
@[simp] theorem advance_trees (s : State) (r : Nat) : (advance s r).trees = s.trees := by simp [advance]
@[simp] theorem touchDev_polders (s : State) (a n : Nat) : (touchDev s a n).polders = s.polders := by simp [touchDev]
@[simp] theorem touchAll_polders (s : State) (l : List (Nat × Nat)) : (touchAll s l).polders = s.polders := by obtain ⟨x, y, h⟩ := touchAll_eq s l; rw [h]
@[simp] theorem advance_polders (s : State) (r : Nat) : (advance s r).polders = s.polders := by simp [advance]
@[simp] theorem touchDev_weirs (s : State) (a n : Nat) : (touchDev s a n).weirs = s.weirs := by simp [touchDev]
@[simp] theorem touchAll_weirs (s : State) (l : List (Nat × Nat)) : (touchAll s l).weirs = s.weirs := by obtain ⟨x, y, h⟩ := touchAll_eq s l; rw [h]
@[simp] theorem advance_weirs (s : State) (r : Nat) : (advance s r).weirs = s.weirs := by simp [advance]
@[simp] theorem touchDev_ms (s : State) (a n : Nat) : (touchDev s a n).ms = s.ms := by simp [touchDev]
@[simp] theorem touchAll_ms (s : State) (l : List (Nat × Nat)) : (touchAll s l).ms = s.ms := by obtain ⟨x, y, h⟩ := touchAll_eq s l; rw [h]
@[simp] theorem advance_ms (s : State) (r : Nat) : (advance s r).ms = s.ms := by simp [advance]
@[simp] theorem touchDev_links (s : State) (a n : Nat) : (touchDev s a n).links = s.links := by simp [touchDev]
@[simp] theorem touchAll_links (s : State) (l : List (Nat × Nat)) : (touchAll s l).links = s.links := by obtain ⟨x, y, h⟩ := touchAll_eq s l; rw [h]
@[simp] theorem advance_links (s : State) (r : Nat) : (advance s r).links = s.links := by simp [advance]
@[simp] theorem touchDev_tide (s : State) (a n : Nat) : (touchDev s a n).tide = s.tide := by simp [touchDev]
@[simp] theorem touchAll_tide (s : State) (l : List (Nat × Nat)) : (touchAll s l).tide = s.tide := by obtain ⟨x, y, h⟩ := touchAll_eq s l; rw [h]
@[simp] theorem advance_tide (s : State) (r : Nat) : (advance s r).tide = s.tide := by simp [advance]
@[simp] theorem touchDev_saves (s : State) (a n : Nat) : (touchDev s a n).saves = s.saves := by simp [touchDev]
@[simp] theorem touchAll_saves (s : State) (l : List (Nat × Nat)) : (touchAll s l).saves = s.saves := by obtain ⟨x, y, h⟩ := touchAll_eq s l; rw [h]
@[simp] theorem advance_saves (s : State) (r : Nat) : (advance s r).saves = s.saves := by simp [advance]
@[simp] theorem touchDev_sec (s : State) (a n : Nat) : (touchDev s a n).sec = s.sec := by simp [touchDev]
@[simp] theorem touchAll_sec (s : State) (l : List (Nat × Nat)) : (touchAll s l).sec = s.sec := by obtain ⟨x, y, h⟩ := touchAll_eq s l; rw [h]
@[simp] theorem advance_sec (s : State) (r : Nat) : (advance s r).sec = s.sec := by simp [advance]
@[simp] theorem touchDev_power (s : State) (a n : Nat) : (touchDev s a n).power = s.power := by simp [touchDev]
@[simp] theorem touchAll_power (s : State) (l : List (Nat × Nat)) : (touchAll s l).power = s.power := by obtain ⟨x, y, h⟩ := touchAll_eq s l; rw [h]
@[simp] theorem advance_power (s : State) (r : Nat) : (advance s r).power = s.power := by simp [advance]
@[simp] theorem touchDev_ctxs (s : State) (a n : Nat) : (touchDev s a n).ctxs = s.ctxs := by simp [touchDev]
@[simp] theorem touchAll_ctxs (s : State) (l : List (Nat × Nat)) : (touchAll s l).ctxs = s.ctxs := by obtain ⟨x, y, h⟩ := touchAll_eq s l; rw [h]
@[simp] theorem advance_ctxs (s : State) (r : Nat) : (advance s r).ctxs = s.ctxs := by simp [advance]
@[simp] theorem touchDev_rings (s : State) (a n : Nat) : (touchDev s a n).rings = s.rings := by simp [touchDev]
@[simp] theorem touchAll_rings (s : State) (l : List (Nat × Nat)) : (touchAll s l).rings = s.rings := by obtain ⟨x, y, h⟩ := touchAll_eq s l; rw [h]
@[simp] theorem touchDev_units (s : State) (a n : Nat) : (touchDev s a n).units = s.units := by simp [touchDev]
@[simp] theorem touchAll_units (s : State) (l : List (Nat × Nat)) : (touchAll s l).units = s.units := by obtain ⟨x, y, h⟩ := touchAll_eq s l; rw [h]
@[simp] theorem advance_units (s : State) (r : Nat) : (advance s r).units = s.units := by simp [advance]
@[simp] theorem touchDev_health (s : State) (a n : Nat) : (touchDev s a n).health = s.health := by simp [touchDev]
@[simp] theorem touchAll_health (s : State) (l : List (Nat × Nat)) : (touchAll s l).health = s.health := by obtain ⟨x, y, h⟩ := touchAll_eq s l; rw [h]
@[simp] theorem advance_health (s : State) (r : Nat) : (advance s r).health = s.health := by simp [advance]
@[simp] theorem touchDev_log (s : State) (a n : Nat) : (touchDev s a n).log = s.log := by simp [touchDev]
@[simp] theorem touchAll_log (s : State) (l : List (Nat × Nat)) : (touchAll s l).log = s.log := by obtain ⟨x, y, h⟩ := touchAll_eq s l; rw [h]
@[simp] theorem advance_log (s : State) (r : Nat) : (advance s r).log = s.log := by simp [advance]
@[simp] theorem touchDev_regs (s : State) (a n : Nat) : (touchDev s a n).regs = s.regs := by simp [touchDev]
@[simp] theorem touchAll_regs (s : State) (l : List (Nat × Nat)) : (touchAll s l).regs = s.regs := by obtain ⟨x, y, h⟩ := touchAll_eq s l; rw [h]
@[simp] theorem advance_regs (s : State) (r : Nat) : (advance s r).regs = s.regs := by simp [advance]
@[simp] theorem touchDev_tideCount (s : State) (a n : Nat) : (touchDev s a n).tideCount = s.tideCount := by simp [touchDev]
@[simp] theorem touchAll_tideCount (s : State) (l : List (Nat × Nat)) : (touchAll s l).tideCount = s.tideCount := by obtain ⟨x, y, h⟩ := touchAll_eq s l; rw [h]
@[simp] theorem advance_tideCount (s : State) (r : Nat) : (advance s r).tideCount = s.tideCount := by simp [advance]
@[simp] theorem touchDev_tidePhase (s : State) (a n : Nat) : (touchDev s a n).tidePhase = s.tidePhase := by simp [touchDev]
@[simp] theorem touchAll_tidePhase (s : State) (l : List (Nat × Nat)) : (touchAll s l).tidePhase = s.tidePhase := by obtain ⟨x, y, h⟩ := touchAll_eq s l; rw [h]
@[simp] theorem advance_tidePhase (s : State) (r : Nat) : (advance s r).tidePhase = s.tidePhase := by simp [advance]
@[simp] theorem touchDev_devFault (s : State) (a n : Nat) : (touchDev s a n).devFault = s.devFault := by simp [touchDev]
@[simp] theorem touchAll_devFault (s : State) (l : List (Nat × Nat)) : (touchAll s l).devFault = s.devFault := by obtain ⟨x, y, h⟩ := touchAll_eq s l; rw [h]
@[simp] theorem advance_devFault (s : State) (r : Nat) : (advance s r).devFault = s.devFault := by simp [advance]
@[simp] theorem touchDev_ready (s : State) (a n : Nat) : (touchDev s a n).ready = s.ready := by simp [touchDev]
@[simp] theorem touchAll_ready (s : State) (l : List (Nat × Nat)) : (touchAll s l).ready = s.ready := by obtain ⟨x, y, h⟩ := touchAll_eq s l; rw [h]
@[simp] theorem advance_ready (s : State) (r : Nat) : (advance s r).ready = s.ready := by simp [advance]
@[simp] theorem touchDev_free (s : State) (a n : Nat) : (touchDev s a n).free = s.free := by simp [touchDev]
@[simp] theorem touchAll_free (s : State) (l : List (Nat × Nat)) : (touchAll s l).free = s.free := by obtain ⟨x, y, h⟩ := touchAll_eq s l; rw [h]
@[simp] theorem advance_free (s : State) (r : Nat) : (advance s r).free = s.free := by simp [advance]

@[simp] theorem doneBoard_clk (s x : State) : (doneBoard s x).clk = x.clk := rfl
theorem done_clk (s x : State) (h : s.stopped = false) : (done s x).clk = x.clk := by simp [done, h, doneBoard, State.snoopChanged]
@[simp] theorem doneBoard_cycles (s x : State) : (doneBoard s x).cycles = x.cycles := rfl
theorem done_cycles (s x : State) (h : s.stopped = false) : (done s x).cycles = x.cycles := by simp [done, h, doneBoard, State.snoopChanged]
@[simp] theorem doneBoard_tiles (s x : State) : (doneBoard s x).tiles = x.tiles := rfl
theorem done_tiles (s x : State) (h : s.stopped = false) : (done s x).tiles = x.tiles := by simp [done, h, doneBoard, State.snoopChanged]
@[simp] theorem doneBoard_displaced (s x : State) : (doneBoard s x).displaced = x.displaced := rfl
theorem done_displaced (s x : State) (h : s.stopped = false) : (done s x).displaced = x.displaced := by simp [done, h, doneBoard, State.snoopChanged]
@[simp] theorem doneBoard_moves (s x : State) : (doneBoard s x).moves = x.moves := rfl
theorem done_moves (s x : State) (h : s.stopped = false) : (done s x).moves = x.moves := by simp [done, h, doneBoard, State.snoopChanged]
@[simp] theorem doneBoard_fabThreshold (s x : State) : (doneBoard s x).fabThreshold = x.fabThreshold := rfl
@[simp] theorem doneBoard_fabClass (s x : State) : (doneBoard s x).fabClass = x.fabClass := rfl
@[simp] theorem doneBoard_bridgeGrants (s x : State) : (doneBoard s x).bridgeGrants = x.bridgeGrants := rfl
theorem done_fabThreshold (s x : State) (h : s.stopped = false) : (done s x).fabThreshold = x.fabThreshold := by simp [done, h, doneBoard, State.snoopChanged]
theorem done_fabClass (s x : State) (h : s.stopped = false) : (done s x).fabClass = x.fabClass := by simp [done, h, doneBoard, State.snoopChanged]
theorem done_bridgeGrants (s x : State) (h : s.stopped = false) : (done s x).bridgeGrants = x.bridgeGrants := by simp [done, h, doneBoard, State.snoopChanged]
@[simp] theorem doneBoard_probes (s x : State) : (doneBoard s x).probes = x.probes := rfl
theorem done_probes (s x : State) (h : s.stopped = false) : (done s x).probes = x.probes := by simp [done, h, doneBoard, State.snoopChanged]
@[simp] theorem doneBoard_gauges (s x : State) : (doneBoard s x).gauges = x.gauges := rfl
theorem done_gauges (s x : State) (h : s.stopped = false) : (done s x).gauges = x.gauges := by simp [done, h, doneBoard, State.snoopChanged]
@[simp] theorem doneBoard_census (s x : State) : (doneBoard s x).census = x.census := rfl
theorem done_census (s x : State) (h : s.stopped = false) : (done s x).census = x.census := by simp [done, h, doneBoard, State.snoopChanged]
@[simp] theorem doneBoard_images (s x : State) : (doneBoard s x).images = x.images := rfl
theorem done_images (s x : State) (h : s.stopped = false) : (done s x).images = x.images := by simp [done, h, doneBoard, State.snoopChanged]
@[simp] theorem doneBoard_runs (s x : State) : (doneBoard s x).runs = x.runs := rfl
theorem done_runs (s x : State) (h : s.stopped = false) : (done s x).runs = x.runs := by simp [done, h, doneBoard, State.snoopChanged]
@[simp] theorem doneBoard_runId (s x : State) : (doneBoard s x).runId = x.runId := rfl
theorem done_runId (s x : State) (h : s.stopped = false) : (done s x).runId = x.runId := by simp [done, h, doneBoard, State.snoopChanged]
@[simp] theorem doneBoard_owners (s x : State) : (doneBoard s x).owners = x.owners := rfl
theorem done_owners (s x : State) (h : s.stopped = false) : (done s x).owners = x.owners := by simp [done, h, doneBoard, State.snoopChanged]
@[simp] theorem doneBoard_ldrStat (s x : State) : (doneBoard s x).ldrStat = x.ldrStat := rfl
theorem done_ldrStat (s x : State) (h : s.stopped = false) : (done s x).ldrStat = x.ldrStat := by simp [done, h, doneBoard, State.snoopChanged]
@[simp] theorem doneBoard_condSkip (s x : State) : (doneBoard s x).condSkip = x.condSkip := rfl
theorem done_condSkip (s x : State) (h : s.stopped = false) : (done s x).condSkip = x.condSkip := by simp [done, h, doneBoard, State.snoopChanged]
@[simp] theorem doneBoard_trees (s x : State) : (doneBoard s x).trees = x.trees := rfl
theorem done_trees (s x : State) (h : s.stopped = false) : (done s x).trees = x.trees := by simp [done, h, doneBoard, State.snoopChanged]
@[simp] theorem doneBoard_polders (s x : State) : (doneBoard s x).polders = x.polders := rfl
theorem done_polders (s x : State) (h : s.stopped = false) : (done s x).polders = x.polders := by simp [done, h, doneBoard, State.snoopChanged]
@[simp] theorem doneBoard_weirs (s x : State) : (doneBoard s x).weirs = x.weirs := rfl
theorem done_weirs (s x : State) (h : s.stopped = false) : (done s x).weirs = x.weirs := by simp [done, h, doneBoard, State.snoopChanged]
@[simp] theorem doneBoard_ms (s x : State) : (doneBoard s x).ms = x.ms := rfl
theorem done_ms (s x : State) (h : s.stopped = false) : (done s x).ms = x.ms := by simp [done, h, doneBoard, State.snoopChanged]
@[simp] theorem doneBoard_links (s x : State) : (doneBoard s x).links = x.links := rfl
theorem done_links (s x : State) (h : s.stopped = false) : (done s x).links = x.links := by simp [done, h, doneBoard, State.snoopChanged]
@[simp] theorem doneBoard_tide (s x : State) : (doneBoard s x).tide = x.tide := rfl
theorem done_tide (s x : State) (h : s.stopped = false) : (done s x).tide = x.tide := by simp [done, h, doneBoard, State.snoopChanged]
@[simp] theorem doneBoard_saves (s x : State) : (doneBoard s x).saves = x.saves := rfl
theorem done_saves (s x : State) (h : s.stopped = false) : (done s x).saves = x.saves := by simp [done, h, doneBoard, State.snoopChanged]
@[simp] theorem doneBoard_sec (s x : State) : (doneBoard s x).sec = x.sec := rfl
theorem done_sec (s x : State) (h : s.stopped = false) : (done s x).sec = x.sec := by simp [done, h, doneBoard, State.snoopChanged]
@[simp] theorem doneBoard_power (s x : State) : (doneBoard s x).power = x.power := rfl
theorem done_power (s x : State) (h : s.stopped = false) : (done s x).power = x.power := by simp [done, h, doneBoard, State.snoopChanged]
@[simp] theorem doneBoard_ctxs (s x : State) : (doneBoard s x).ctxs = x.ctxs := rfl
theorem done_ctxs (s x : State) (h : s.stopped = false) : (done s x).ctxs = x.ctxs := by simp [done, h, doneBoard, State.snoopChanged]
@[simp] theorem doneBoard_rings (s x : State) : (doneBoard s x).rings = x.rings := rfl
theorem done_rings (s x : State) (h : s.stopped = false) : (done s x).rings = x.rings := by simp [done, h, doneBoard, State.snoopChanged]
@[simp] theorem doneBoard_units (s x : State) : (doneBoard s x).units = x.units := rfl
theorem done_units (s x : State) (h : s.stopped = false) : (done s x).units = x.units := by simp [done, h, doneBoard, State.snoopChanged]
@[simp] theorem doneBoard_health (s x : State) : (doneBoard s x).health = x.health := rfl
theorem done_health (s x : State) (h : s.stopped = false) : (done s x).health = x.health := by simp [done, h, doneBoard, State.snoopChanged]
@[simp] theorem doneBoard_log (s x : State) : (doneBoard s x).log = x.log := rfl
theorem done_log (s x : State) (h : s.stopped = false) : (done s x).log = x.log := by simp [done, h, doneBoard, State.snoopChanged]
@[simp] theorem doneBoard_regs (s x : State) : (doneBoard s x).regs = x.regs := rfl
theorem done_regs (s x : State) (h : s.stopped = false) : (done s x).regs = x.regs := by simp [done, h, doneBoard, State.snoopChanged]
@[simp] theorem doneBoard_tideCount (s x : State) : (doneBoard s x).tideCount = x.tideCount := rfl
theorem done_tideCount (s x : State) (h : s.stopped = false) : (done s x).tideCount = x.tideCount := by simp [done, h, doneBoard, State.snoopChanged]
@[simp] theorem doneBoard_tidePhase (s x : State) : (doneBoard s x).tidePhase = x.tidePhase := rfl
theorem done_tidePhase (s x : State) (h : s.stopped = false) : (done s x).tidePhase = x.tidePhase := by simp [done, h, doneBoard, State.snoopChanged]
@[simp] theorem doneBoard_devFault (s x : State) : (doneBoard s x).devFault = x.devFault := rfl
theorem done_devFault (s x : State) (h : s.stopped = false) : (done s x).devFault = x.devFault := by simp [done, h, doneBoard, State.snoopChanged]
@[simp] theorem doneBoard_ready (s x : State) : (doneBoard s x).ready = x.ready := rfl
theorem done_ready (s x : State) (h : s.stopped = false) : (done s x).ready = x.ready := by simp [done, h, doneBoard, State.snoopChanged]
@[simp] theorem doneBoard_free (s x : State) : (doneBoard s x).free = x.free := rfl
theorem done_free (s x : State) (h : s.stopped = false) : (done s x).free = x.free := by simp [done, h, doneBoard, State.snoopChanged]

@[simp] theorem doneBoard_pending (s x : State) : (doneBoard s x).pending = s.pending := rfl
@[simp] theorem doneBoard_part (s x : State) : (doneBoard s x).part = s.part := rfl
@[simp] theorem doneBoard_mem (s x : State) : (doneBoard s x).mem = x.mem.canon := rfl
@[simp] theorem done_pending (s x : State) : (done s x).pending = s.pending := by unfold done; split <;> rfl
@[simp] theorem done_part (s x : State) : (done s x).part = s.part := by unfold done; split <;> rfl
theorem done_mem (s x : State) (h : s.stopped = false) : (done s x).mem = x.mem.canon := by simp [done, h, doneBoard, State.snoopChanged]
theorem done_stopped (s x : State) (h : s.stopped = true) : done s x = doneBoard s s := by simp [done, h]

end Sys2Proof.Machine
end

