-- ==== Sys2Proof/Laws/Ring.lean ====
section
/-! SUPPORT. What the frame of a ring command does: the packet taken, the body run, and nothing after it when no other packet is
posted. -/

namespace Sys2Proof.Machine

open Sys2Proof.Safety

@[simp] theorem ring_setRing_self (s : State) (r : Nat) (x : RingSt) : (s.setRing r x).ring r = x := by
  simp [State.ring, State.setRing]

@[simp] theorem ring_modRing_self (s : State) (r : Nat) (f : RingSt → RingSt) : (s.modRing r f).ring r = f (s.ring r) := by
  simp [State.modRing]

@[simp] theorem ring_reply_self (s : State) (r : Nat) (x : Reply) :
    (s.reply r x).ring r = { s.ring r with replies := (s.ring r).replies ++ [x] } := by simp [State.reply]

@[simp] theorem ring_answer_self (s : State) (r : Nat) (p : Pkt) (st a b c : Nat) :
    (answer s r p st a b c).ring r = { s.ring r with replies := (s.ring r).replies ++ [(p.cmd []).reply st a b c] } := by
  simp [answer]

@[simp] theorem ring_refuse_self (s : State) (r : Nat) (p : Pkt) (st : Nat) :
    (refuse s r p st).ring r = { s.ring r with replies := (s.ring r).replies ++ [(p.cmd []).reply st 0 0 0] } := by
  simp [refuse]

@[simp] theorem ring_accept_self (s : State) (r : Nat) (p : Pkt) (aux : List Nat) :
    (accept s r p aux).ring r = { s.ring r with accepted := (s.ring r).accepted ++ [p.cmd aux] } := by simp [accept]

theorem ring_of_rings {s t : State} (h : s.rings = t.rings) (r : Nat) : s.ring r = t.ring r := by simp [State.ring, h]

theorem done_ring (s x : State) (h : s.stopped = false) (r : Nat) : (done s x).ring r = x.ring r :=
  ring_of_rings (done_rings s x h) r

@[simp] theorem advance_ring (s : State) (r : Nat) :
    (advance s r).ring r = { s.ring r with head := (s.ring r).head + 1 } := by
  have h : (touchAll s (pktReads s r)).ring r = s.ring r := ring_of_rings (touchAll_rings _ _) r
  simp [advance, h]

/-- A ring with nothing posted takes nothing. -/
theorem nextPkt_empty (s : State) (r : Nat) (h : (s.ring r).tail = (s.ring r).head) : nextPkt s r = none := by
  have : ringOpen s r = false := by simp [ringOpen, RingSt.posted, h]
  simp [nextPkt, this]

theorem drainBad_empty (s : State) (r n : Nat) (h : (s.ring r).tail = (s.ring r).head) : drainBad r n s = s := by
  cases n with
  | zero => rfl
  | succ n => simp [drainBad, nextPkt_empty s r h]

/-- An open weir that holds nothing lets a unit pass, and stays as it is. -/
theorem weirPass_open {s : State} {q : Option Nat} {w b u n : Nat}
    (h : ∀ p, q = some p → (s.weir p w).rate = 256 ∧ (s.weir p w).held = [] ∧ (s.weir p w).granted = []) :
    weirPass s q w b u n = (s, true) := by
  cases q with
  | none => rfl
  | some p => obtain ⟨h1, h2, h3⟩ := h p rfl; simp [weirPass, h1, h2, h3]

/-- Behind open weirs a command's bytes are charged to nothing. -/
theorem cpCharge_open {s : State} {c : Nat} (h : Unheld s c) (host : Bool) (a n : Nat) (w : Bool) : cpCharge s c host a n w = s := by
  unfold cpCharge
  split
  · rename_i q w b hq _
    simp [(h q hq w).1]
  · rfl

/-- Behind open weirs a packet is read at once. -/
theorem pktPass_open {s : State} {p : Pkt} (h : Unheld s p.ctx) (r : Nat) : pktPass s r p = (s, true) := by
  unfold pktPass
  split
  · rfl
  · rw [weirPass_open (fun q hq => h q hq _)]
    simp only
    split <;> simp [cpCharge_open h]

/-- A ring command whose packet is the last one posted: its body runs on the state with the head moved past the packet. -/
theorem ringCmd_takes {s : State} {ring : Ring} {op : Nat} {fs : Fields} {p : Pkt} (h : Takes s ring op fs p)
    (form : Option Nat) (hf : ∀ f, form = some f → p.b 8 1 = f) (body : State → Nat → Pkt → State)
    (hb : ((body (advance s (ringNo ring)) (ringNo ring) p).ring (ringNo ring)).tail =
      ((body (advance s (ringNo ring)) (ringNo ring) p).ring (ringNo ring)).head) :
    ringCmd s ring op form body = body (advance s (ringNo ring)) (ringNo ring) p := by
  have hd := drainBad_empty (body (advance s (ringNo ring)) (ringNo ring) p) (ringNo ring) 65536 hb
  have hp := pktPass_open h.unheld (ringNo ring)
  cases form with
  | none => simp [ringCmd, ringCmdOf, takePkt, pktIs, h.sound.1, h.next, h.code, h.form, hd, hp]
  | some f => simp [ringCmd, ringCmdOf, takePkt, pktIs, h.sound.1, h.next, h.code, h.form, hd, hp, hf f rfl]

/-- The same for a command that reads more than its packet: where nothing is found flipped, it is the same command. -/
theorem ringCmdOf_sound {ring : Ring} (h : ringFlips ring = none) (s : State) (op : Nat) (form : Option Nat)
    (reads : State → Pkt → List (Nat × Nat)) (body : State → Nat → Pkt → State) :
    ringCmdOf s ring op form reads body = ringCmd s ring op form body := by
  simp [ringCmd, ringCmdOf, h]

theorem checked_takes {s : State} {ring : Ring} {op : Nat} {fs : Fields} {p : Pkt} (h : Takes s ring op fs p) (s1 body : State) :
    checked s1 (ringNo ring) p fs body = body := by
  simp [checked, h.allowed, h.inside, h.params]

end Sys2Proof.Machine
end

