-- ==== Sys2Proof/Laws/Frame.lean ====
section
/-! SUPPORT. How a meaning ends: what `done` keeps of the state it is given, and the frame of a ring command that ends with a
reply or is accepted. -/

namespace Sys2Proof.Machine

open Sys2Proof.Safety

/-- `backInv` changes nothing but the snoop bookkeeping. -/
theorem backInv_shape (s : State) (gs : List Nat) :
    ∃ a b, s.backInv gs = { s with host := { s.host with snooped := a, hostLines := b } } := by
  induction gs generalizing s with
  | nil => exact ⟨s.host.snooped, s.host.hostLines, rfl⟩
  | cons g gs ih =>
    simp only [State.backInv, List.foldl_cons]
    split
    · obtain ⟨a, b, h⟩ := ih { s with host := { s.host with hostLines := adel s.host.hostLines g, snooped := _ :: s.host.snooped } }
      exact ⟨a, b, h⟩
    · exact ih s

theorem backInv_host (s : State) (gs : List Nat) :
    ∃ a b, (s.backInv gs).host = { s.host with snooped := a, hostLines := b } := by
  obtain ⟨a, b, h⟩ := backInv_shape s gs
  exact ⟨a, b, by rw [h]⟩

theorem touchDev_shape (s : State) (a n : Nat) :
    ∃ x y, touchDev s a n = { s with host := { s.host with snooped := x, hostLines := y } } := backInv_shape s _

theorem advance_shape (s : State) (r : Nat) :
    ∃ g x y, advance s r = { s with rings := g, host := { s.host with snooped := x, hostLines := y } } := by
  obtain ⟨a, b, h⟩ := touchAll_eq s (pktReads s r)
  simp only [advance, h]
  exact ⟨_, a, b, rfl⟩

theorem touchDev_host (s : State) (a n : Nat) : ∃ x y, (touchDev s a n).host = { s.host with snooped := x, hostLines := y } :=
  backInv_host s _

theorem touchAll_host (s : State) (l : List (Nat × Nat)) :
    ∃ x y, (touchAll s l).host = { s.host with snooped := x, hostLines := y } := by
  obtain ⟨x, y, h⟩ := touchAll_eq s l
  exact ⟨x, y, by rw [h]⟩

theorem advance_host (s : State) (r : Nat) : ∃ x y, (advance s r).host = { s.host with snooped := x, hostLines := y } :=
  touchAll_host s _

theorem done_host (s x : State) (h : s.stopped = false) :
    ∃ a b, (done s x).host = { x.host with snooped := a, hostLines := b } := by
  simp only [done, h, doneBoard, State.snoopChanged]
  exact backInv_host x _

theorem same_refl (k : Kind) (s : State) : k.same s s := by cases k <;> simp [Kind.same]

theorem same_trans {k : Kind} {s t u : State} (h : k.same s t) (g : k.same t u) : k.same s u := by
  cases k <;> simp only [Kind.same] at * <;> simp_all

/-- Beside the snoop bookkeeping, `done` keeps every kind of state of the state it is given; memory when it is canonical. -/
theorem done_same {s x : State} (h : s.stopped = false) (k : Kind) (hk : k ≠ .snoops) (hm : k = .mem → x.mem.wf = true) :
    k.same x (done s x) := by
  obtain ⟨a, b, e⟩ := done_host s x h
  cases k <;> simp_all [Kind.same, done_clk, done_cycles, done_tiles, done_displaced, done_moves, done_fabThreshold, done_fabClass, done_bridgeGrants, done_probes,
    done_gauges, done_census, done_images, done_runs, done_runId, done_owners, done_ldrStat, done_condSkip, done_trees, done_polders,
    done_weirs, done_ms, done_links, done_tide, done_saves, done_sec, done_power, done_ctxs, done_rings, done_units, done_health,
    done_log, done_regs, done_tideCount, done_tidePhase, done_devFault, done_ready, done_free, done_mem, canon_eq]

/-- A frame of the state given to `done` is a frame of the command. -/
theorem done_only {s x : State} {l : List Kind} (h : s.stopped = false) (hc : s.mem.wf = true) (hs : Kind.snoops ∈ l)
    (hx : ∀ k, k ∉ l → k.same s x) : Only l s (done s x) := by
  refine ⟨by simp, by simp, fun k hk => same_trans (hx k hk) (done_same h k ?_ ?_)⟩
  · rintro rfl; exact hk hs
  · rintro rfl
    have := hx _ hk
    simp only [Kind.same] at this
    rw [this]; exact hc

/-- A command that leaves memory as it is changes what its meaning says and nothing else. -/
theorem done_still {s x : State} (h : s.stopped = false) (hc : s.mem.wf = true) (hm : x.mem = s.mem) :
    done s x = { x with pending := s.pending, part := s.part } := by
  have e : s.snoopChanged x = x := by
    have f : ∀ l : List Nat, l.filter (fun _ => false) = [] := fun l => by induction l <;> simp_all
    simp [State.snoopChanged, hm, f, State.backInv]
  simp [done, h, e, doneBoard, hm, canon_eq _ hc]

theorem advance_same (s : State) (r : Nat) (k : Kind) (h1 : k ≠ .rings) (h2 : k ≠ .snoops) : k.same s (advance s r) := by
  obtain ⟨a, b, e⟩ := advance_host s r
  cases k <;> simp_all [Kind.same]

theorem ring_eq_of {s t : State} {r : Nat} (h : t.rings = s.rings) : t.ring r = s.ring r := by simp [State.ring, h]

theorem ring_setRing_other (s : State) (r r' : Nat) (x : RingSt) (h : r' ≠ r) : (s.setRing r x).ring r' = s.ring r' := by
  simp [State.ring, State.setRing, agetD_aput_other _ _ _ _ _ h]

theorem ring_advance_other (s : State) (r r' : Nat) (h : r' ≠ r) : (advance s r).ring r' = s.ring r' := by
  have e : (touchAll s (pktReads s r)).ring r' = s.ring r' := ring_of_rings (touchAll_rings _ _) r'
  simp [advance, State.modRing, ring_setRing_other _ _ _ _ h, e]

theorem ring_modRing_other (s : State) (r r' : Nat) (f : RingSt → RingSt) (h : r' ≠ r) : (s.modRing r f).ring r' = s.ring r' :=
  ring_setRing_other _ _ _ _ h

theorem ring_reply_other (s : State) (r r' : Nat) (x : Reply) (h : r' ≠ r) : (s.reply r x).ring r' = s.ring r' :=
  ring_modRing_other _ _ _ _ h

theorem ring_answer_other (s : State) (r r' : Nat) (p : Pkt) (st a b c : Nat) (h : r' ≠ r) :
    (answer s r p st a b c).ring r' = s.ring r' := ring_modRing_other _ _ _ _ h

theorem ring_accept_other (s : State) (r r' : Nat) (p : Pkt) (aux : List Nat) (h : r' ≠ r) :
    (accept s r p aux).ring r' = s.ring r' := ring_modRing_other _ _ _ _ h

@[simp] theorem ring_complete_self (s : State) (r : Nat) (c : Cmd) (x : Reply) : (s.complete r c x).ring r =
    { s.ring r with accepted := (s.ring r).accepted.erase c, replies := (s.ring r).replies ++ [x] } := by
  simp [State.complete]

theorem ring_complete_other (s : State) (r r' : Nat) (c : Cmd) (x : Reply) (h : r' ≠ r) :
    (s.complete r c x).ring r' = s.ring r' := by
  simp [State.complete, ring_reply_other _ _ _ _ h, ring_modRing_other _ _ _ _ h]

/-- A ring command whose packet is the last one posted completes with its body. -/
theorem ring_runs {s : State} {ring : Ring} {op : Nat} {fs : Fields} {p : Pkt} {form : Option Nat} {body : State → Nat → Pkt → State}
    {o : Host.Outcome State Fault Refusal} (ho : o = .next (done s (ringCmd s ring op form body))) {P : State → Prop} (x : State)
    (h : Takes s ring op fs p) (hf : ∀ f, form = some f → p.b 8 1 = f) (hb : body (advance s (ringNo ring)) (ringNo ring) p = x)
    (ht : (x.ring (ringNo ring)).tail = (x.ring (ringNo ring)).head) (hP : P (done s x)) : ∃ t, o = .next t ∧ P t := by
  have e := ringCmd_takes h form hf body (by rw [hb]; exact ht)
  exact ⟨_, by rw [ho, e, hb], hP⟩

/-- What `advance` leaves of a ring. -/
theorem advance_empty {s : State} {ring : Ring} {op : Nat} {fs : Fields} {p : Pkt} (h : Takes s ring op fs p) :
    ((advance s (ringNo ring)).ring (ringNo ring)).tail = ((advance s (ringNo ring)).ring (ringNo ring)).head := by
  rw [advance_ring]; exact h.last

/-- How a ring command ends that replies at once: `y` is the state after its own effect. -/
theorem ring_ends {s : State} {ring : Ring} {op : Nat} {fs : Fields} {p : Pkt} {form : Option Nat} {body : State → Nat → Pkt → State}
    {y : State} {st a b c : Nat} {l : List Kind} (h : Takes s ring op fs p) (hf : ∀ f, form = some f → p.b 8 1 = f)
    (hb : body (advance s (ringNo ring)) (ringNo ring) p = answer y (ringNo ring) p st a b c)
    (hr : y.rings = (advance s (ringNo ring)).rings)
    (hk : ∀ k, k ∉ Kind.rings :: .snoops :: l → k.same (advance s (ringNo ring)) y) :
    Ends s (done s (ringCmd s ring op form body)) ring p l st a b c ∧
    ringCmd s ring op form body = answer y (ringNo ring) p st a b c := by
  have e : ringCmd s ring op form body = answer y (ringNo ring) p st a b c := by
    rw [ringCmd_takes h form hf body (by rw [hb]; simp [ring_eq_of hr, h.last]), hb]
  refine ⟨⟨?_, ?_, ?_⟩, e⟩
  · rw [e]; simp [Answered, done_ring _ _ h.runs, ring_eq_of hr]
  · intro r hne
    rw [e, done_ring _ _ h.runs]
    simp [answer, State.reply, State.modRing, ring_setRing_other _ _ _ _ hne, ring_eq_of hr, ring_advance_other _ _ _ hne]
  · rw [e]
    refine done_only h.runs h.canonical (by simp) (fun k hk' => ?_)
    refine same_trans (advance_same s _ k ?_ ?_) (same_trans (hk k hk') ?_)
    · rintro rfl; simp at hk'
    · rintro rfl; simp at hk'
    · cases k <;> simp [Kind.same] at hk' ⊢

/-- The same for a command whose meaning is a ring command: it completes, and what holds of its own effect holds of the state
it answers. -/
theorem ring_completes {s : State} {ring : Ring} {op : Nat} {fs : Fields} {p : Pkt} {form : Option Nat} {body : State → Nat → Pkt → State}
    {o : Host.Outcome State Fault Refusal} (ho : o = .next (done s (ringCmd s ring op form body))) {P : State → Prop}
    (y : State) (st a b c : Nat) (l : List Kind) (h : Takes s ring op fs p) (hf : ∀ f, form = some f → p.b 8 1 = f)
    (hb : body (advance s (ringNo ring)) (ringNo ring) p = answer y (ringNo ring) p st a b c)
    (hr : y.rings = (advance s (ringNo ring)).rings)
    (hk : ∀ k, k ∉ Kind.rings :: .snoops :: l → k.same (advance s (ringNo ring)) y)
    (hP : Ends s (done s (answer y (ringNo ring) p st a b c)) ring p l st a b c → P (done s (answer y (ringNo ring) p st a b c))) :
    ∃ t, o = .next t ∧ P t := by
  have key := ring_ends (l := l) h hf hb hr hk
  exact ⟨_, by rw [ho, key.2], hP (key.2 ▸ key.1)⟩

/-- A ring command that replies and changes nothing else. -/
theorem ring_replies {s : State} {ring : Ring} {op : Nat} {fs : Fields} {p : Pkt} {form : Option Nat} {body : State → Nat → Pkt → State}
    {o : Host.Outcome State Fault Refusal} (ho : o = .next (done s (ringCmd s ring op form body))) {st a b c : Nat} {l : List Kind}
    (h : Takes s ring op fs p) (hf : ∀ f, form = some f → p.b 8 1 = f)
    (hb : body (advance s (ringNo ring)) (ringNo ring) p = answer (advance s (ringNo ring)) (ringNo ring) p st a b c) :
    ∃ t, o = .next t ∧ Ends s t ring p l st a b c :=
  ring_completes ho _ st a b c l h hf hb rfl (fun k _ => same_refl k _) id

/-- How a ring command ends that is accepted. -/
theorem ring_begins {s : State} {ring : Ring} {op : Nat} {fs : Fields} {p : Pkt} {form : Option Nat} {body : State → Nat → Pkt → State}
    {y : State} {aux : List Nat} {l : List Kind} (h : Takes s ring op fs p) (hf : ∀ f, form = some f → p.b 8 1 = f)
    (hb : body (advance s (ringNo ring)) (ringNo ring) p = y)
    (hr : y.rings = (accept (advance s (ringNo ring)) (ringNo ring) p aux).rings)
    (hk : ∀ k, k ∉ Kind.rings :: .snoops :: l → k.same (advance s (ringNo ring)) y) :
    Begins s (done s (ringCmd s ring op form body)) ring p l aux ∧ ringCmd s ring op form body = y := by
  have e : ringCmd s ring op form body = y := by
    rw [ringCmd_takes h form hf body (by rw [hb]; simp [ring_eq_of hr, h.last]), hb]
  refine ⟨⟨?_, ?_, ?_⟩, e⟩
  · rw [e]; simp [Accepted, done_ring _ _ h.runs, ring_eq_of hr]
  · intro r hne
    rw [e, done_ring _ _ h.runs]
    simp [ring_eq_of hr, accept, State.modRing, ring_setRing_other _ _ _ _ hne, ring_advance_other _ _ _ hne]
  · rw [e]
    refine done_only h.runs h.canonical (by simp) (fun k hk' => ?_)
    refine same_trans (advance_same s _ k ?_ ?_) (hk k hk')
    · rintro rfl; simp at hk'
    · rintro rfl; simp at hk'

/-- The same for a command whose meaning is a ring command. -/
theorem ring_accepts {s : State} {ring : Ring} {op : Nat} {fs : Fields} {p : Pkt} {form : Option Nat} {body : State → Nat → Pkt → State}
    {o : Host.Outcome State Fault Refusal} (ho : o = .next (done s (ringCmd s ring op form body))) {P : State → Prop}
    (y : State) (aux : List Nat) (l : List Kind) (h : Takes s ring op fs p) (hf : ∀ f, form = some f → p.b 8 1 = f)
    (hb : body (advance s (ringNo ring)) (ringNo ring) p = y)
    (hr : y.rings = (accept (advance s (ringNo ring)) (ringNo ring) p aux).rings)
    (hk : ∀ k, k ∉ Kind.rings :: .snoops :: l → k.same (advance s (ringNo ring)) y)
    (hP : Begins s (done s y) ring p l aux → P (done s y)) :
    ∃ t, o = .next t ∧ P t := by
  have key := ring_begins (aux := aux) (l := l) h hf hb hr hk
  exact ⟨_, by rw [ho, key.2], hP (key.2 ▸ key.1)⟩

/-- The frame of a command that leaves memory as it is, without the snoop bookkeeping. -/
theorem still_only {s x : State} {l : List Kind} (h : s.stopped = false) (hc : s.mem.wf = true) (hm : x.mem = s.mem)
    (hk : ∀ k, k ∉ l → k.same s x) : Only l s (done s x) := by
  rw [done_still h hc hm]
  refine ⟨rfl, rfl, fun k h => ?_⟩
  have := hk k h
  cases k <;> exact this

end Sys2Proof.Machine
end

