-- ==== Sys2Proof/Laws/Mem.lean ====
section
/-! SUPPORT. Bytes of memory after a write, and what a device write leaves alone. -/

namespace Sys2Proof.Machine

open Sys2Proof.Safety

theorem aget?_keysAbove {α : Type} (t : Assoc α) (i b : Nat) (h : keysAbove b t) (hi : i ≤ b) : aget? t i = none := by
  cases t with
  | nil => rfl
  | cons f t =>
    obtain ⟨k, v⟩ := f
    have := h (k, v) (by simp)
    simp only at this
    have e1 : (i == k) = false := by simp; omega
    have e2 : i < k := by omega
    simp [aget?, e1, e2]

theorem aget?_adel_other {α : Type} (t : Assoc α) (i j : Nat) (hs : asorted t = true) (h : j ≠ i) :
    aget? (adel t i) j = aget? t j := by
  induction t with
  | nil => rfl
  | cons e t ih =>
    obtain ⟨k, v⟩ := e
    have hs := (asorted_cons (k, v) t).mp hs
    simp only [adel]
    split
    · rename_i hk
      have hk : i = k := by simpa using hk
      subst hk
      have e1 : (j == i) = false := by simpa using h
      simp only [aget?, e1, Bool.false_eq_true, if_false]
      split
      · exact aget?_keysAbove t j i hs.1 (by omega)
      · rfl
    · split
      · rfl
      · simp only [aget?, ih hs.2]

theorem wf_sorted {m : Memory} (h : m.wf = true) : asorted m.cells = true := by
  simp only [Memory.wf, Bool.and_eq_true] at h; exact h.1.1

theorem byte_putByte_other (m : Memory) (a x : Nat) (b : Byte) (h : m.wf = true) (hx : x ≠ a) : (m.putByte a b).byte x = m.byte x := by
  simp only [Memory.byte, Memory.putByte, awrite, agetD]
  split
  · rw [aget?_adel_other _ _ _ (wf_sorted h) hx]
  · rw [aget?_aput_other _ _ _ _ hx]

theorem byte_putBytes_other (bs : List Byte) (m : Memory) (a x : Nat) (h : m.wf = true) (hx : x < a ∨ a + bs.length ≤ x) :
    (m.putBytes a bs).byte x = m.byte x := by
  induction bs generalizing m a with
  | nil => rfl
  | cons b t ih =>
    simp only [List.length_cons] at hx
    rw [Memory.putBytes, ih _ _ (putByte_wf m a b h) (by omega), byte_putByte_other _ _ _ _ h (by omega)]

theorem byte_putBytes_in (bs : List Byte) (m : Memory) (a i : Nat) (h : m.wf = true) (hi : i < bs.length) :
    (m.putBytes a bs).byte (a + i) = bs[i] := by
  induction bs generalizing m a i with
  | nil => simp at hi
  | cons b t ih =>
    rw [Memory.putBytes]
    cases i with
    | zero => rw [byte_putBytes_other _ _ _ _ (putByte_wf m a b h) (by omega)]; exact byte_putByte_self m a b h
    | succ i =>
      have := ih (m.putByte a b) (a + 1) i (putByte_wf m a b h) (by simpa using hi)
      rw [show a + (i + 1) = a + 1 + i by omega, this]; rfl

@[simp] theorem byte_mark (m : Memory) (g x : Nat) (v : Bool) : (m.mark g v).byte x = m.byte x := rfl

theorem byte_foldl_mark (l : List Nat) (v : Bool) (m : Memory) (x : Nat) :
    (l.foldl (fun y g => y.mark g v) m).byte x = m.byte x := by
  induction l generalizing m with
  | nil => rfl
  | cons g t ih => rw [List.foldl_cons, ih, byte_mark]

theorem byte_write (m : Memory) (a x : Nat) (bs : List Byte) (p : Bool) : (m.write a bs p).byte x = (m.putBytes a bs).byte x := by
  unfold Memory.write
  dsimp only
  split <;> exact byte_foldl_mark _ _ _ _

/-- A write leaves every byte outside it alone. -/
theorem byte_write_other (m : Memory) (a x : Nat) (bs : List Byte) (p : Bool) (h : m.wf = true) (hx : x < a ∨ a + bs.length ≤ x) :
    (m.write a bs p).byte x = m.byte x := by rw [byte_write, byte_putBytes_other _ _ _ _ h hx]

/-- A read of what was written gives what was written. -/
theorem read_write_self (m : Memory) (a : Nat) (bs : List Byte) (p : Bool) (h : m.wf = true) : (m.write a bs p).read a bs.length = bs := by
  apply List.ext_getElem
  · simp [Memory.read]
  · intro i h1 h2
    simp only [Memory.read, List.getElem_map, List.getElem_range]
    rw [byte_write, byte_putBytes_in _ _ _ _ h h2]

/-! ## Device writes -/

theorem wrote_shape (s : State) (p : Nat) (l w : List Nat) : ∃ tl, s.wrote p l w = { s with tiles := tl } := by
  unfold State.wrote
  dsimp only
  split
  · exact ⟨_, rfl⟩
  · exact ⟨s.tiles, rfl⟩

/-- A piece of a device write changes memory, keeping its canonical form, and what tiles note of the words written; nothing else.
It changes no byte outside its place. -/
theorem writePiece_shape (s : State) (a : Nat) (bs : List Byte) (bad : Nat → Bool) (e : Nat × Nat) :
    ∃ m tl, writePiece a bs bad s e = { s with mem := m, tiles := tl } ∧ (s.mem.wf = true → m.wf = true ∧
      ∀ x, (∀ pa, s.place e.1 = some pa → x < pa ∨ pa + e.2 ≤ x) → m.byte x = s.mem.byte x) := by
  unfold writePiece
  split
  · exact ⟨s.mem, s.tiles, rfl, fun h => ⟨h, fun _ _ => rfl⟩⟩
  · rename_i pa hp
    have key : s.mem.wf = true → (s.mem.write pa ((bs.drop (e.1 - a)).take e.2) (bad (e.1 / 64))).wf = true ∧
        ∀ x, (∀ pa', s.place e.1 = some pa' → x < pa' ∨ pa' + e.2 ≤ x) →
          (s.mem.write pa ((bs.drop (e.1 - a)).take e.2) (bad (e.1 / 64))).byte x = s.mem.byte x := fun hw =>
      ⟨write_wf _ _ _ _ hw, fun x hx => byte_write_other _ _ _ _ _ hw (by
        have h1 := hx pa hp
        have h2 : ((bs.drop (e.1 - a)).take e.2).length ≤ e.2 := by simp
        omega)⟩
    split
    · dsimp only
      split
      · obtain ⟨tl, h⟩ := wrote_shape { s with mem := s.mem.write pa ((bs.drop (e.1 - a)).take e.2) (bad (e.1 / 64)) }
          (State.phys { s with mem := s.mem.write pa ((bs.drop (e.1 - a)).take e.2) (bad (e.1 / 64)) } _) [pa / 64]
          (if e.2 == 64 then [pa / 64] else [])
        exact ⟨_, tl, h, key⟩
      · exact ⟨_, s.tiles, rfl, key⟩
    · exact ⟨s.mem, s.tiles, rfl, fun h => ⟨h, fun _ _ => rfl⟩⟩

/-- The same for a run of pieces. -/
theorem writePieces_shape (s : State) (a : Nat) (bs : List Byte) (bad : Nat → Bool) (l : List (Nat × Nat)) :
    ∃ m tl, l.foldl (writePiece a bs bad) s = { s with mem := m, tiles := tl } ∧ (s.mem.wf = true → m.wf = true ∧
      ∀ x, (∀ e ∈ l, ∀ z : State, z.displaced = s.displaced → z.ms = s.ms → z.units = s.units → z.part = s.part →
        ∀ pa, z.place e.1 = some pa → x < pa ∨ pa + e.2 ≤ x) → m.byte x = s.mem.byte x) := by
  induction l generalizing s with
  | nil => exact ⟨s.mem, s.tiles, rfl, fun h => ⟨h, fun _ _ => rfl⟩⟩
  | cons e l ih =>
    obtain ⟨m, tl, h1, h2⟩ := writePiece_shape s a bs bad e
    obtain ⟨m', tl', h3, h4⟩ := ih { s with mem := m, tiles := tl }
    refine ⟨m', tl', by rw [List.foldl_cons, h1, h3], fun hw => ⟨(h4 (h2 hw).1).1, fun x hx => ?_⟩⟩
    rw [(h4 (h2 hw).1).2 x (fun e' he' => hx e' (List.mem_cons_of_mem _ he'))]
    exact (h2 hw).2 x (hx e (by simp) s rfl rfl rfl rfl)

/-- Two states have the same memories: the bytes, the tiles and where they are served, the units and the memory system. -/
def SameStore (s z : State) : Prop :=
  z.mem = s.mem ∧ z.tiles = s.tiles ∧ z.displaced = s.displaced ∧ z.units = s.units ∧ z.ms = s.ms ∧ z.part = s.part

theorem SameStore.place {s z : State} (h : SameStore s z) (a : Nat) : z.place a = s.place a := by
  obtain ⟨h1, h2, h3, h4, h5, h6⟩ := h
  cases s; cases z; simp only at h1 h2 h3 h4 h5 h6; subst h1 h2 h3 h4 h5 h6; rfl

theorem SameStore.tileOpen {s z : State} (h : SameStore s z) (a n : Nat) : z.tileOpen a n = s.tileOpen a n := by
  obtain ⟨h1, h2, h3, h4, h5, h6⟩ := h
  cases s; cases z; simp only at h1 h2 h3 h4 h5 h6; subst h1 h2 h3 h4 h5 h6; rfl

/-- Where a device address lies does not depend on what memory holds. -/
theorem place_of {s z : State} (h1 : z.displaced = s.displaced) (h2 : z.ms = s.ms) (h3 : z.units = s.units) (h4 : z.part = s.part)
    (a : Nat) : z.place a = s.place a := by
  cases s; cases z; simp only at h1 h2 h3 h4; subst h1 h2 h3 h4; rfl

/-- A device write changes memory, keeping its canonical form, and what tiles note of the words written; nothing else. -/
theorem devWrite_shape (s : State) (a : Nat) (bs : List Byte) (bad : Nat → Bool) :
    ∃ m tl, s.devWrite a bs bad = { s with mem := m, tiles := tl } ∧ (s.mem.wf = true → m.wf = true) := by
  obtain ⟨m, tl, h1, h2⟩ := writePieces_shape s a bs bad (pieces a bs.length)
  exact ⟨m, tl, h1, fun h => (h2 h).1⟩

/-- A device write leaves every byte outside the places of its pieces alone. -/
theorem devWrite_outside (s : State) (a : Nat) (bs : List Byte) (bad : Nat → Bool) (x : Nat) (hw : s.mem.wf = true)
    (hx : Outside s false a bs.length x) : (s.devWrite a bs bad).mem.byte x = s.mem.byte x := by
  simp only [Outside, Bool.false_eq_true, if_false] at hx
  obtain ⟨m, tl, h1, h2⟩ := writePieces_shape s a bs bad (pieces a bs.length)
  have : (s.devWrite a bs bad).mem = m := by rw [State.devWrite, h1]
  rw [this]
  exact (h2 hw).2 x (fun e he z g1 g2 g3 g4 pa hp => hx e he pa (by rw [← place_of g1 g2 g3 g4]; exact hp))

theorem noteAccess_open (s : State) (agent a n : Nat) (h : s.populated a n = true) (hc : closedTile s a n = none) :
    noteAccess s agent a n = touchDev s a n := by
  obtain ⟨x, y, e⟩ := touchDev_shape s a n
  have h1 : (touchDev s a n).populated a n = s.populated a n := by rw [e]; rfl
  have h2 : closedTile (touchDev s a n) a n = closedTile s a n := by rw [e]; rfl
  simp [noteAccess, h1, h, h2, hc]

theorem wrote_same {s z : State} (p : Nat) (l w : List Nat) (h : SameStore s z) : SameStore (s.wrote p l w) (z.wrote p l w) := by
  obtain ⟨h1, h2, h3, h4, h5, h6⟩ := h
  have ht : z.tile p = s.tile p := by simp only [State.tile, h2]
  unfold State.wrote
  dsimp only
  rw [ht]
  split
  · exact ⟨h1, by simp only [State.modTile, State.setTile, State.tile, h2], h3, h4, h5, h6⟩
  · exact ⟨h1, h2, h3, h4, h5, h6⟩

theorem writePiece_same {s z : State} (a : Nat) (bs : List Byte) (bad : Nat → Bool) (e : Nat × Nat) (h : SameStore s z) :
    SameStore (writePiece a bs bad s e) (writePiece a bs bad z e) := by
  unfold writePiece
  rw [h.place, h.tileOpen]
  split
  · exact h
  · obtain ⟨h1, h2, h3, h4, h5, h6⟩ := h
    split
    · dsimp only
      rw [h1]
      split
      · simp only [State.phys, h3]
        exact wrote_same _ _ _ ⟨rfl, h2, rfl, h4, h5, h6⟩
      · exact ⟨rfl, h2, h3, h4, h5, h6⟩
    · exact ⟨h1, h2, h3, h4, h5, h6⟩

/-- What a device write stores depends on nothing but the memories. -/
theorem devWrite_view (s z : State) (a : Nat) (bs : List Byte) (bad : Nat → Bool) (h : SameStore s z) :
    (z.devWrite a bs bad).mem = (s.devWrite a bs bad).mem := by
  suffices g : ∀ (l : List (Nat × Nat)) (s z : State), SameStore s z →
      SameStore (l.foldl (writePiece a bs bad) s) (l.foldl (writePiece a bs bad) z) from (g _ s z h).1
  intro l
  induction l with
  | nil => exact fun _ _ h => h
  | cons e l ih =>
    intro s z h
    exact ih _ _ (writePiece_same a bs bad e h)

/-- What a command's write to its destination changes, and what it stores. -/
theorem cmdWrite_open (s : State) (ring : Ring) (p : Pkt) (host : Bool) (a : Nat) (bs : List Byte) (hw : s.mem.wf = true)
    (ho : Open s host a bs.length) (hr : Sound ring) (hu : Unheld s p.ctx) :
    ∃ m tl x y, cmdWrite s ring p host a bs = { s with mem := m, tiles := tl, host := { s.host with snooped := x, hostLines := y } } ∧
      m.wf = true ∧ Stores s (cmdWrite s ring p host a bs) host a bs := by
  cases host with
  | true =>
    have hc : cmdWrite s ring p true a bs = s.anyWrite true a bs := by simp [cmdWrite, cpCharge_open hu, hr.2]
    rw [hc]
    refine ⟨_, s.tiles, s.host.snooped, s.host.hostLines, rfl, write_wf _ _ _ _ hw, fun _ => ?_, by simp, fun x hx => ?_⟩
    · exact read_write_self _ _ _ _ hw
    · simp only [Outside, if_true] at hx
      exact byte_write_other _ _ _ _ _ hw hx
  | false =>
    obtain ⟨h1, h2⟩ := ho.resolve_left (by simp)
    obtain ⟨x, y, e⟩ := touchDev_shape s a bs.length
    obtain ⟨m, tl, e2, hm⟩ := devWrite_shape (touchDev s a bs.length) a bs (fun _ => false)
    have hc : cmdWrite s ring p false a bs = (touchDev s a bs.length).devWrite a bs (fun _ => false) := by
      simp [cmdWrite, cpCharge_open hu, noteAccess_open _ _ _ _ h1 h2, State.anyWrite]
    have hmem : ((touchDev s a bs.length).devWrite a bs (fun _ => false)).mem = (s.devWrite a bs (fun _ => false)).mem := by
      exact devWrite_view s _ a bs _ (by rw [e]; exact ⟨rfl, rfl, rfl, rfl, rfl, rfl⟩)
    refine ⟨m, tl, x, y, ?_, ?_, by simp, fun _ => by rw [hc, hmem], fun z hz => ?_⟩
    · rw [hc, e2, e]
    · exact hm (by rw [e]; exact hw)
    · rw [hc, hmem]; exact devWrite_outside s a bs _ z hw hz

/-! ## The destination of a ring command -/

theorem open_advance (s : State) (r : Nat) (host : Bool) (a n : Nat) : Open (advance s r) host a n = Open s host a n := by
  obtain ⟨g, x, y, e⟩ := advance_shape s r
  rw [e]; rfl

theorem mayReach_advance (s : State) (r r' : Nat) (host : Bool) (a n : Nat) :
    mayReach (advance s r) r' host a n = mayReach s r' host a n := by
  obtain ⟨g, x, y, e⟩ := advance_shape s r
  rw [e]; rfl

theorem stores_advance {s t : State} {r : Nat} {host : Bool} {a : Nat} {bs : List Byte} (h : Stores (advance s r) t host a bs) :
    Stores s t host a bs := by
  obtain ⟨g, x, y, e⟩ := advance_shape s r
  rw [e] at h
  exact ⟨h.1, fun g => (h.2.1 g).trans (devWrite_view _ _ _ _ _ ⟨rfl, rfl, rfl, rfl, rfl, rfl⟩), h.2.2⟩

theorem stores_done {s0 s x : State} (hr : s.stopped = false) (hw : x.mem.wf = true) {host : Bool} {a : Nat} {bs : List Byte}
    (hs : Stores s0 x host a bs) : Stores s0 (done s x) host a bs := by
  have : (done s x).mem = x.mem := by rw [done_mem _ _ hr, canon_eq _ hw]
  simpa [Stores, this] using hs

/-- How a ring command ends that writes bytes to a destination and replies. -/
theorem ring_writes {s : State} {ring : Ring} {op : Nat} {fs : Fields} {p : Pkt} {form : Option Nat} {body : State → Nat → Pkt → State}
    {lg : Log} {host : Bool} {d : Nat} {bs : List Byte} {st a b c : Nat} {l : List Kind} (h : Takes s ring op fs p)
    (hf : ∀ f, form = some f → p.b 8 1 = f) (ho : Open s host d bs.length)
    (hb : body (advance s (ringNo ring)) (ringNo ring) p =
      answer (cmdWrite { advance s (ringNo ring) with log := lg } ring p host d bs) (ringNo ring) p st a b c)
    (h1 : Kind.mem ∈ l) (h2 : Kind.tiles ∈ l) (h3 : Kind.log ∈ l ∨ lg = s.log) :
    Ends s (done s (ringCmd s ring op form body)) ring p l st a b c ∧
    Stores s (done s (ringCmd s ring op form body)) host d bs ∧
    (done s (ringCmd s ring op form body)).log = lg := by
  have ho' : Open { advance s (ringNo ring) with log := lg } host d bs.length := by
    rw [← open_advance s (ringNo ring)] at ho; exact ho
  have hc := h.canonical
  have hu : Unheld { advance s (ringNo ring) with log := lg } p.ctx := by
    obtain ⟨g, x, y, e⟩ := advance_shape s (ringNo ring)
    rw [e]; exact h.unheld
  obtain ⟨m, tl, x, y, e, hw, hst⟩ := cmdWrite_open { advance s (ringNo ring) with log := lg } ring p host d bs (by simpa using hc) ho'
    h.sound hu
  have key := ring_ends (l := l) h hf hb (by rw [e]) (fun k hk => by
    rw [e]
    cases k <;> simp [Kind.same] at hk ⊢ <;> simp_all)
  refine ⟨key.1, stores_done h.runs ?_ ?_, ?_⟩
  · rw [key.2, e]; exact hw
  · rw [key.2]
    obtain ⟨g, x', y', e'⟩ := advance_shape s (ringNo ring)
    refine ⟨hst.1, fun hh => (hst.2.1 hh).trans ?_, fun z hz => ?_⟩
    · rw [e']; exact devWrite_view s _ _ _ _ ⟨rfl, rfl, rfl, rfl, rfl, rfl⟩
    · refine (hst.2.2 z ?_).trans ?_
      · rw [e']; exact hz
      · rw [e']
  · rw [key.2, done_log _ _ h.runs, e]; rfl

/-- The same where the log stays as it is. -/
theorem ring_stores {s : State} {ring : Ring} {op : Nat} {fs : Fields} {p : Pkt} {form : Option Nat} {body : State → Nat → Pkt → State}
    {host : Bool} {d : Nat} {bs : List Byte} {st a b c : Nat} {l : List Kind} (h : Takes s ring op fs p)
    (hf : ∀ f, form = some f → p.b 8 1 = f) (ho : Open s host d bs.length)
    (hb : body (advance s (ringNo ring)) (ringNo ring) p =
      answer (cmdWrite (advance s (ringNo ring)) ring p host d bs) (ringNo ring) p st a b c) (h1 : Kind.mem ∈ l) (h2 : Kind.tiles ∈ l) :
    Ends s (done s (ringCmd s ring op form body)) ring p l st a b c ∧ Stores s (done s (ringCmd s ring op form body)) host d bs := by
  have hb' : body (advance s (ringNo ring)) (ringNo ring) p =
      answer (cmdWrite { advance s (ringNo ring) with log := s.log } ring p host d bs) (ringNo ring) p st a b c := by
    rw [hb]
    obtain ⟨g, x, y, e⟩ := advance_shape s (ringNo ring)
    rw [e]
  have key := ring_writes (l := l) h hf ho hb' h1 h2 (.inr rfl)
  exact ⟨key.1, key.2.1⟩

/-- The pieces of a range have its length. -/
theorem pieces_sum (a n : Nat) : ((pieces a n).map (·.2)).sum = n := by
  unfold pieces granules
  split
  · rename_i h; subst h; rfl
  · rename_i h
    have key : ∀ k, k ≤ (a + n - 1) / 64 - a / 64 →
      (((List.range (k + 1)).map (fun i => a / 64 + i)).map (fun g =>
        min (a + n) (g * 64 + 64) - max a (g * 64))).sum = min (a + n) ((a / 64 + k) * 64 + 64) - a := by
      intro k
      induction k with
      | zero => intro _; simp; omega
      | succ k ih =>
        intro hk
        rw [List.range_succ, List.map_append, List.map_append, List.sum_append, ih (by omega)]
        simp
        omega
    have := key _ (Nat.le_refl _)
    simp only [List.map_map, Function.comp_def] at this ⊢
    rw [this]
    omega
theorem readPiece_length (s : State) (x : Nat × Nat) : (s.readPiece x).1.length = x.2 := by
  unfold State.readPiece
  split
  · simp
  · split <;> simp [Memory.read]
theorem devRead_length (s : State) (a n : Nat) : (s.devRead a n).length = n := by
  simp only [State.devRead, List.length_flatten, List.map_map, Function.comp_def, readPiece_length]
  exact pieces_sum a n
theorem anyRead_length (s : State) (host : Bool) (a n : Nat) : (s.anyRead host a n).length = n := by
  cases host
  · exact devRead_length s a n
  · simp [State.anyRead, State.hostRead, Memory.read]

/-! ## Bytes and numbers -/

theorem leBytes_length (n v : Nat) : (leBytes n v).length = n := by
  induction n generalizing v with
  | zero => rfl
  | succ n ih => simp [leBytes, ih]

theorem leNat_leBytes (n v : Nat) : leNat (leBytes n v) = v % 256 ^ n := by
  induction n generalizing v with
  | zero => simp [leBytes, leNat, Nat.mod_one]
  | succ n ih => simp [leBytes, leNat, ih]; rw [Nat.pow_succ, Nat.mul_comm (256 ^ n), Nat.mod_mul]

theorem leNat_lt (bs : List Byte) : leNat bs < 256 ^ bs.length := by
  induction bs with
  | nil => simp [leNat]
  | cons b t ih => simp [leNat, Nat.pow_succ]; have := b.isLt; omega

theorem leAt_append_left (xs ys : List Byte) (o n : Nat) (h : o + n ≤ xs.length) : leAt (xs ++ ys) o n = leAt xs o n := by
  unfold leAt
  rw [List.drop_append_of_le_length (by omega), List.take_append_of_le_length (by simp; omega)]

theorem leAt_append_right (xs ys : List Byte) (o n : Nat) (h : xs.length ≤ o) : leAt (xs ++ ys) o n = leAt ys (o - xs.length) n := by
  unfold leAt
  rw [List.drop_append, List.drop_eq_nil_of_le h, List.nil_append]

end Sys2Proof.Machine
end

