-- ==== Sys2Proof/Laws/Shapes.lean ====
section
/-! SUPPORT. What the shared operations change, each said once: tables, rings, weirs, images, contexts. -/

namespace Sys2Proof.Machine

open Sys2Proof.Safety

theorem queryRecord_advance (s : State) (r : Nat) : queryRecord (advance s r) = queryRecord s := by
  obtain ⟨g, x, y, e⟩ := advance_shape s r
  rw [e]; rfl

theorem windowImage_advance (s : State) (r p : Nat) : windowImage (advance s r) p = windowImage s p := by
  obtain ⟨g, x, y, e⟩ := advance_shape s r
  rw [e]; rfl

theorem healthImage_advance (s : State) (r : Nat) : healthImage (advance s r) = healthImage s := by
  obtain ⟨g, x, y, e⟩ := advance_shape s r
  rw [e]; rfl

theorem dies_advance (s : State) (r : Nat) : (advance s r).dies = s.dies := by
  obtain ⟨g, x, y, e⟩ := advance_shape s r
  rw [e]; rfl

theorem queryRecord_length (s : State) : (queryRecord s).length = 256 := by simp [queryRecord, padTo]; omega

theorem insNat_length (l : List Nat) (x : Nat) (h : x ∉ l) : (insNat l x).length = l.length + 1 := by
  induction l with
  | nil => rfl
  | cons y t ih =>
    simp only [insNat]
    simp at h
    split
    · simp
    · split
      · omega
      · simp [ih h.2]

theorem foldl_insNat_mem (l a : List Nat) (x : Nat) : x ∈ l.foldl insNat a ↔ x ∈ a ∨ x ∈ l := by
  induction l generalizing a with
  | nil => simp
  | cons y t ih => simp [ih, insNat_mem]; grind

theorem foldl_insNat_length (l a : List Nat) (h : l.Nodup) (h2 : ∀ x ∈ l, x ∉ a) : (l.foldl insNat a).length = a.length + l.length := by
  induction l generalizing a with
  | nil => simp
  | cons y t ih =>
    simp at h
    rw [List.foldl_cons, ih _ h.2, insNat_length _ _ (h2 y (by simp))]
    · simp; omega
    · intro x hx; rw [insNat_mem]; rintro (rfl | h3)
      · exact h.1 hx
      · exact h2 x (by simp [hx]) h3

theorem weir_setWeir_self (s : State) (k w x) : (s.setWeir k w x).weir k w = x := by simp [State.weir, State.setWeir]

theorem weir_setWeir_other (s : State) (k w x j v) (h : 8 * j + v ≠ 8 * k + w) : (s.setWeir k w x).weir j v = s.weir j v := by
  simp [State.weir, State.setWeir, agetD_aput_other _ _ _ _ _ h]

theorem polder_advance (s : State) (r k) : (advance s r).polder? k = s.polder? k := by
  simp [State.polder?]

@[simp] theorem weir_advance (s : State) (r k w) : (advance s r).weir k w = s.weir k w := by
  simp [State.weir]

theorem weir_answer (s : State) (r p st a b c k w) : (answer s r p st a b c).weir k w = s.weir k w := by
  simp [State.weir]

theorem weir_done (s x : State) (k w) (h : s.stopped = false) : (done s x).weir k w = x.weir k w := by
  simp [State.weir, done_weirs _ _ h]

theorem polder_done (s x : State) (k) (h : s.stopped = false) : (done s x).polder? k = x.polder? k := by
  simp [State.polder?, done_polders _ _ h]

theorem setWeirs_shape (f : Nat → Weir) (l : List Nat) (k : Nat) (s : State) : ∃ W, l.foldl (fun y w => y.setWeir k w (f w)) s = { s with weirs := W } := by
  induction l generalizing s with
  | nil => exact ⟨s.weirs, rfl⟩
  | cons w t ih => obtain ⟨W, h⟩ := ih (s.setWeir k w (f w)); exact ⟨W, h⟩

theorem setWeirs_other (f : Nat → Weir) (l : List Nat) (k j v : Nat) (s : State) (hl : ∀ w ∈ l, 8 * j + v ≠ 8 * k + w) :
    (l.foldl (fun y w => y.setWeir k w (f w)) s).weir j v = s.weir j v := by
  induction l generalizing s with
  | nil => rfl
  | cons w t ih =>
    rw [List.foldl_cons, ih _ (fun w h => hl w (by simp [h])), weir_setWeir_other _ _ _ _ _ _ (hl w (by simp))]

theorem setWeirs_in (f : Nat → Weir) (l : List Nat) (k v : Nat) (s : State) (hv : v ∈ l) :
    (l.foldl (fun y w => y.setWeir k w (f w)) s).weir k v = f v := by
  induction l generalizing s with
  | nil => simp at hv
  | cons w t ih =>
    rw [List.foldl_cons]
    by_cases h : v ∈ t
    · exact ih _ h
    · rw [setWeirs_other]
      · have : v = w := by simpa [h] using hv
        subst this; exact weir_setWeir_self _ _ _ _
      · intro w' hw' e; have : v = w' := by omega
        subst this; exact h hw'

theorem aget?_adel_self {α : Type} (t : Assoc α) (i : Nat) (hs : asorted t = true) : aget? (adel t i) i = none := by
  induction t with
  | nil => rfl
  | cons e t ih =>
    obtain ⟨k, v⟩ := e
    have hs := (asorted_cons (k, v) t).mp hs
    simp only [adel]
    split
    · rename_i hk
      have hk : i = k := by simpa using hk
      subst hk
      exact aget?_keysAbove t i i hs.1 (by omega)
    · split
      · rename_i h1 h2
        have e1 : (i == k) = false := by simp; omega
        simp [aget?, e1, h2]
      · rename_i h1 h2; simp [aget?, h1, h2, ih hs.2]

theorem takes_ctx {s ring op fs p} (h : Takes s ring op fs p) {o m} (hm : (o, 1, m) ∈ fs) (h0 : m ≠ 0) : p.b o 1 ≤ m := by
  have := h.params
  simp only [fieldsOk, Bool.and_eq_true, List.all_eq_true] at this
  have := this.2 _ hm
  simp [h0] at this
  rw [← this]; exact Nat.and_le_right

theorem ringPlaced_advance (s r a b c d e) : ringPlaced (advance s r) a b c d e = ringPlaced s a b c d e := by
  obtain ⟨gg, hx, hy, ea⟩ := advance_shape s r
  rw [ea]; rfl

theorem dropImage_shape (s : State) (i : Image) : ∃ tl, dropImage s i = { s with tiles := tl, images := s.images.filter (fun x => !(x.ctx == i.ctx && x.handle == i.handle)) } := by
  have : ∀ l : List Nat, ∀ s : State, ∃ tl, l.foldl (fun x n =>
    x.modTile (x.phys n) (fun t => t.modRegs (fun r =>
      { r with slots := BitVec.ofNat 16 (putBit r.slots.toNat (agetD i.slot n 0) false) }))) s = { s with tiles := tl } := by
    intro l
    induction l with
    | nil => exact fun s => ⟨s.tiles, rfl⟩
    | cons n t ih => intro s; obtain ⟨tl, h⟩ := ih (s.modTile (s.phys n) (fun t => t.modRegs (fun r =>
      { r with slots := BitVec.ofNat 16 (putBit r.slots.toNat (agetD i.slot n 0) false) }))); exact ⟨tl, h⟩
  obtain ⟨tl, h⟩ := this i.tiles s
  exact ⟨tl, by simp [dropImage, h]⟩

theorem dropImages_shape (l : List Image) (s : State) : ∃ tl im, l.foldl dropImage s = { s with tiles := tl, images := im } ∧
   (∀ x ∈ im, x ∈ s.images ∧ ∀ i ∈ l, x.ctx ≠ i.ctx ∨ x.handle ≠ i.handle) := by
  induction l generalizing s with
  | nil => exact ⟨s.tiles, s.images, rfl, by simp⟩
  | cons i t ih =>
    obtain ⟨tl, h⟩ := dropImage_shape s i
    obtain ⟨tl', im, h1, h2⟩ := ih (dropImage s i)
    refine ⟨tl', im, ?_, fun x hx => ?_⟩
    · rw [List.foldl_cons, h1, h]
    · have := h2 x hx
      rw [h] at this
      simp at this
      refine ⟨this.1.1, fun j hj => ?_⟩
      rcases List.mem_cons.mp hj with rfl | hj
      · have := this.1.2; grind
      · have := this.2 j hj; grind

theorem unbindAll_shape (s : State) (c : Nat) : ∃ g, unbindAll s c = { s with gauges := g } ∧ g.xlat = adelRange s.gauges.xlat (2048 * c) 2048 := by
  have : ∀ l : List Nat, ∀ s : State, ∃ g, l.foldl (fun x g =>
    let b := g / 4096
    { x with gauges := { x.gauges with
        gauges := adel x.gauges.gauges g
        waitersUsed := amod x.gauges.waitersUsed b 0 (· - (x.gauge g).waiters.length) } }) s = { s with gauges := g } ∧ g.xlat = s.gauges.xlat := by
    intro l
    induction l with
    | nil => exact fun s => ⟨s.gauges, rfl, rfl⟩
    | cons n t ih => intro s; obtain ⟨g, h1, h2⟩ := ih _; exact ⟨g, h1, h2⟩
  obtain ⟨g, h, h2⟩ := this ((boundGauges s c).map (·.2)) s
  refine ⟨{ g with xlat := adelRange g.xlat (2048 * c) 2048 }, ?_, by simp [h2]⟩
  simp only [unbindAll, h]

theorem aget?_filter_none {α : Type} (t : Assoc α) (p : Nat × α → Bool) (i : Nat) (h : ∀ v, p (i, v) = false) : aget? (t.filter p) i = none := by
  induction t with
  | nil => rfl
  | cons e t ih =>
    obtain ⟨k, v⟩ := e
    rw [List.filter_cons]
    split
    · rename_i hp
      have : (i == k) = false := by
        simp; rintro rfl; rw [h] at hp; simp at hp
      simp only [aget?, this]
      simp [ih]
    · exact ih

/-- Dropping hub waits changes the gauges' own records and nothing of the translation tables. -/
theorem dropHubWaits_shape (s : State) (own : HubWait → Bool) :
    ∃ g, dropHubWaits s own = { s with gauges := g } ∧ g.xlat = s.gauges.xlat := ⟨_, rfl, rfl⟩

theorem removeContext_shape (x : State) (c : Nat) : ∃ tl im g ms td ow,
    removeContext x c = { x with tiles := tl, images := im, gauges := g, ms := ms, tide := td, owners := ow, ctxs := adel x.ctxs c, rings := adel x.rings c } ∧
    (∀ i ∈ im, i.ctx ≠ c) ∧ (∀ e ∈ ms.queues, e.2.ctx ≠ c) ∧ (∀ e ∈ ms.tables, e.2.ctx ≠ c) ∧ g.xlat = adelRange x.gauges.xlat (2048 * c) 2048 := by
  obtain ⟨tl', im, hd1, hd2⟩ := dropImages_shape (x.images.filter (fun i => i.ctx == c)) x
  obtain ⟨g, hu1, hu2⟩ := unbindAll_shape ((x.images.filter (fun i => i.ctx == c)).foldl dropImage x) c
  obtain ⟨g', hw1, hw2⟩ := dropHubWaits_shape (unbindAll ((x.images.filter (fun i => i.ctx == c)).foldl dropImage x) c) (fun h => h.ctx == c)
  have hx : dropHubWaits (unbindAll ((x.images.filter (fun i => i.ctx == c)).foldl dropImage x) c) (fun h => h.ctx == c) =
      { x with tiles := tl', images := im, gauges := g' } := by rw [hw1, hu1, hd1]
  refine ⟨tl', im, g', _, _, _, by unfold removeContext; simp only; rw [hx], ?_, ?_, ?_, ?_⟩
  · intro i hi hic
    have h := hd2 i hi
    simpa using h.2 i (by simp [h.1, hic])
  · intro e he; simp at he; exact he.2
  · intro e he; simp at he; exact he.2
  · rw [hw2, hu1]; simp only; rw [hu2, hd1]

/-- A fold over rings of which only one has an accepted command. -/
theorem fold_rings_one (f : State → Nat → Cmd → State) (l : List Nat) (s t : State) (r0 : Nat) (k : Cmd)
    (hl : r0 ∈ l) (hnd : l.Nodup) (h0 : (s.ring r0).accepted = [k]) (hs : ∀ r ∈ l, r ≠ r0 → (s.ring r).accepted = [])
    (hf : f s r0 k = t) (ht : ∀ r ∈ l, r ≠ r0 → (t.ring r).accepted = []) :
    l.foldl (fun x r => (x.ring r).accepted.foldl (fun y c => f y r c) x) s = t := by
  have hid : ∀ l : List Nat, ∀ u : State, (∀ r ∈ l, (u.ring r).accepted = []) →
      l.foldl (fun x r => (x.ring r).accepted.foldl (fun y c => f y r c) x) u = u := by
    intro l
    induction l with
    | nil => intros; rfl
    | cons a l ih => intro u hu; rw [List.foldl_cons, hu a (by simp)]; exact ih u (fun r hr => hu r (by simp [hr]))
  induction l with
  | nil => simp at hl
  | cons a l ih =>
    rw [List.foldl_cons]
    by_cases ha : a = r0
    · subst ha
      rw [h0]
      simp only [List.foldl_cons, List.foldl_nil, hf]
      simp at hnd
      exact hid l t (fun r hr => ht r (by simp [hr]) (by rintro rfl; exact hnd.1 hr))
    · rw [hs a (by simp) ha]
      simp at hnd
      exact ih (by simpa [Ne.symm ha] using hl) hnd.2 (fun r hr => hs r (by simp [hr])) (fun r hr => ht r (by simp [hr]))

theorem asorted_nodup {α : Type} (t : Assoc α) (h : asorted t = true) : (t.map (·.1)).Nodup := by
  induction t with
  | nil => simp
  | cons e t ih =>
    have hs := (asorted_cons e t).mp h
    simp only [List.map_cons, List.nodup_cons]
    refine ⟨fun hm => ?_, ih hs.2⟩
    obtain ⟨f, hf, he⟩ := List.mem_map.mp hm
    have := hs.1 f hf; omega

theorem aget?_mem {α : Type} (t : Assoc α) (i : Nat) (v : α) (h : aget? t i = some v) : (i, v) ∈ t := by
  induction t with
  | nil => simp at h
  | cons e t ih =>
    obtain ⟨k, w⟩ := e
    simp only [aget?] at h
    split at h
    · rename_i hk; have : i = k := by simpa using hk
      subst this; simp at h; simp [h]
    · split at h
      · simp at h
      · simp [ih h]

theorem fold_rings_none (f : State → Nat → Cmd → State) (l : List Nat) (u : State) (hu : ∀ r ∈ l, (u.ring r).accepted = []) :
      l.foldl (fun x r => (x.ring r).accepted.foldl (fun y c => f y r c) x) u = u := by
    induction l with
    | nil => intros; rfl
    | cons a l ih => rw [List.foldl_cons, hu a (by simp)]; exact ih (fun r hr => hu r (by simp [hr]))

theorem ring_isSome {s : State} {r : Nat} {p : Pkt} (h : nextPkt s r = some p) : (aget? s.rings r).isSome = true := by
  unfold nextPkt at h
  split at h
  · rename_i h1; simp only [ringOpen, Bool.and_eq_true] at h1; grind
  · simp at h

theorem tile_setTile (s : State) (p q : Nat) (x : Tile) : (s.setTile p x).tile q = if q = p then x else s.tile q := by
  unfold State.tile State.setTile
  split
  · rename_i h; subst h; exact agetD_aput_self _ _ _ _
  · rename_i h; exact agetD_aput_other _ _ _ _ _ h

theorem tile_modTile (s : State) (p q : Nat) (f : Tile → Tile) :
    (s.modTile p f).tile q = if q = p then f (s.tile p) else s.tile q := tile_setTile s p q _

@[simp] theorem phys_modTile (s : State) (p n : Nat) (f : Tile → Tile) : (s.modTile p f).phys n = s.phys n := rfl

@[simp] theorem phys_setTile (s : State) (p n : Nat) (x : Tile) : (s.setTile p x).phys n = s.phys n := rfl

theorem done_tile {s x : State} (h : s.stopped = false) (p : Nat) : (done s x).tile p = x.tile p := by
  simp [State.tile, done_tiles _ _ h]

theorem done_phys {s x : State} (h : s.stopped = false) (n : Nat) : (done s x).phys n = x.phys n := by
  simp [State.phys, done_displaced _ _ h]

theorem done_ltile {s x : State} (h : s.stopped = false) (n : Nat) : (done s x).ltile n = x.ltile n := by
  simp [State.ltile, done_tile h, done_phys h]

theorem ctxLive_advance (s : State) (r c : Nat) (h : s.ctxLive c = true) : (advance s r).ctxLive c = true := by
  simp only [State.ctxLive, advance_ctxs, Bool.and_eq_true] at h ⊢
  refine ⟨h.1, ?_⟩
  have h2 := h.2
  simp only [Bool.not_eq_true', List.any_eq_false] at h2 ⊢
  intro r' hr'
  have e : ((advance s r).ring r').accepted = (s.ring r').accepted := by
    by_cases hh : r' = r
    · subst hh; rw [advance_ring]
    · rw [ring_advance_other _ _ _ hh]
  rw [e]
  by_cases hm : r' ∈ s.ringNos
  · exact h2 r' hm
  · have : (s.ring r').accepted = [] := by
      have : aget? s.rings r' = none := by
        cases hh : aget? s.rings r' with
        | none => rfl
        | some v => exact absurd (List.mem_map.mpr ⟨_, aget?_mem _ _ _ hh, rfl⟩) hm
      simp [State.ring, agetD, this, RingSt.reset]
    simp [this]

theorem memAt_advance (s : State) (r a : Nat) : (advance s r).memAt a = s.memAt a := by
  obtain ⟨gg, hx, hy, ea⟩ := advance_shape s r
  rw [ea]; rfl

theorem run?_isSome {s : State} {r : Run} (h : r ∈ s.runs) : (s.run? r.id).isSome = true := by
  simp [State.run?, List.find?_isSome]; exact ⟨r, h, rfl⟩

theorem image?_advance (s : State) (r c h) : (advance s r).image? c h = s.image? c h := by
  obtain ⟨gg, hx, hy, ea⟩ := advance_shape s r
  rw [ea]; rfl

theorem imageInUse_advance (s : State) (r i) : imageInUse (advance s r) i = imageInUse s i := by
  obtain ⟨gg, hx, hy, ea⟩ := advance_shape s r
  rw [ea]; rfl

/-- A read of a command from an open place changes only the snoop bookkeeping. -/
theorem readEnd_shape (s : State) (r : Nat) (host : Bool) (a n agent : Nat) (ho : Open s host a n) :
    ∃ x y, (if host then advance s r else noteAccess (advance s r) agent a n) =
      { advance s r with host := { s.host with snooped := x, hostLines := y } } := by
  obtain ⟨gg, hx, hy, ea⟩ := advance_shape s r
  by_cases hh : host = true
  · exact ⟨hx, hy, by simp only [hh, if_true, ea]⟩
  · have ho2 := ho.resolve_left hh
    obtain ⟨x, y, e⟩ := touchDev_shape (advance s r) a n
    simp only [hh]
    rw [if_neg (by simp), noteAccess_open, e, ea]
    · exact ⟨x, y, rfl⟩
    · rw [ea]; exact ho2.1
    · rw [ea]; exact ho2.2

theorem foldl_push {α β : Type} (g : α → β) (q : α → Bool) (u : State → α → State × β) (l : List α) (s0 : State) (acc : List β) (h : ∀ e ∈ l, q e = false) :
    l.foldl (fun (x : State × List β) e => if q e then ((u x.1 e).1, x.2 ++ [(u x.1 e).2]) else (x.1, x.2 ++ [g e])) (s0, acc) = (s0, acc ++ l.map g) := by
  induction l generalizing acc with
  | nil => simp
  | cons a l ih => rw [List.foldl_cons, if_neg (by simp [h a])]; rw [ih _ (fun e he => h e (by simp [he]))]; simp

/-- The first entry of a bundle made again names the device of the first entry given. -/
theorem rebundle_dev (bs : List Byte) (e : BundleEntry) (es : List BundleEntry) (h : e.dev < 65536) :
    (bundleEntry (rebundle bs (e :: es)) 0).dev = e.dev := by
  show leAt (rebundle bs (e :: es)) 32 2 = _
  unfold rebundle
  simp only [placedFrom, List.flatMap_cons, List.append_assoc]
  iterate 4 rw [← List.append_assoc]
  rw [leAt_append_right _ _ _ _ (by simp [leBytes_length])]
  rw [leAt_append_left _ _ _ _ (by simp [leBytes_length])]
  simp [leBytes_length, leAt]
  rw [List.take_of_length_le (by simp [leBytes_length]), leNat_leBytes]
  omega

theorem settle_none (s : State) (h : ∀ f ∈ s.links.forwards, ∃ e ∈ f.entries, e.2 = none) : settleForwards s = s := by
  unfold settleForwards
  generalize s.links.forwards = l at h
  have : ∀ x : State, l.foldl (fun x f => if f.entries.all (fun e => e.2.isSome) then endForward x f else x) x = x := by
    induction l with
    | nil => intro; rfl
    | cons f l ih =>
      intro x
      obtain ⟨e, he, hn⟩ := h f (by simp)
      rw [List.foldl_cons, if_neg, ih (fun f hf => h f (by simp [hf]))]
      intro hall; have := List.all_eq_true.mp hall e he; simp [hn] at this
  exact this s

theorem ownedByOther_advance (s : State) (r i) : ownedByOther (advance s r) i = ownedByOther s i := by
  obtain ⟨gg, hx, hy, ea⟩ := advance_shape s r
  rw [ea]; rfl

theorem findBelow_some (n : Nat) (f : Nat → Bool) (i : Nat) (hi : i < n) (h : f i = true) (hl : ∀ j, j < i → f j = false) : findBelow n f = some i := by
  unfold findBelow
  rw [List.find?_range_eq_some]
  simp [hi, h]; exact hl

theorem findBelow_none (n : Nat) (f : Nat → Bool) (h : ∀ j, j < n → f j = false) : findBelow n f = none := by
  unfold findBelow
  rw [List.find?_range_eq_none]
  simpa using h

theorem settle_noSaves (s : State) (h : s.saves = []) : settleSaves s = s := by simp [settleSaves, h]

theorem complete_fold_skip (l : List Cmd) (h : ∀ c ∈ l, c.opcode ≠ 0x41 ∧ c.opcode ≠ 0x21) (r : Nat) (s : State) :
    l.foldl (fun y c =>
      if (c.opcode == 0x41 || c.opcode == 0x21) && (c.aux.drop 1).all (fun id => (y.run? id).isNone) then
        if c.opcode == 0x41 then y.complete r c (c.reply stOk (c.aux.headD 0) 0 0)
        else (removeContext y (c.aux.headD 0)).complete r c (c.reply stOk 0 0 0)
      else y) s = s := by
  induction l generalizing s with
  | nil => rfl
  | cons a l ih =>
    rw [List.foldl_cons, if_neg, ih (fun c hc => h c (by simp [hc]))]
    have := h a (by simp)
    simp [this.1, this.2]

/-- Of the commands accepted on all rings, only the last one of ring R is a stop that waits for nothing. -/
theorem settleStops_one (s : State) (R : Nat) (pre : List Cmd) (c : Cmd) (hs : (s.rings.map (·.1)).Nodup) (hR : R ∈ s.ringNos)
    (hacc : (s.ring R).accepted = pre ++ [c]) (hop : c.opcode = 0x41) (hw : c.aux.drop 1 = [])
    (h : ∀ r, ∀ k ∈ (s.ring r).accepted, (r = R ∧ k = c) ∨ (k.opcode ≠ 0x41 ∧ k.opcode ≠ 0x21))
    (hpre : ∀ k ∈ pre, k.opcode ≠ 0x41 ∧ k.opcode ≠ 0x21) :
    settleStops s = s.complete R c (c.reply stOk (c.aux.headD 0) 0 0) := by
  let t := s.complete R c (c.reply stOk (c.aux.headD 0) 0 0)
  unfold settleStops
  have key : ∀ l : List Nat, l.Nodup → (∀ u : State, (u = s ∨ u = t) → (∀ r ∈ l, u = s ∨ r ≠ R) →
      l.foldl (fun x r => (x.ring r).accepted.foldl (fun y c =>
      if (c.opcode == 0x41 || c.opcode == 0x21) && (c.aux.drop 1).all (fun id => (y.run? id).isNone) then
        if c.opcode == 0x41 then y.complete r c (c.reply stOk (c.aux.headD 0) 0 0)
        else (removeContext y (c.aux.headD 0)).complete r c (c.reply stOk 0 0 0)
      else y) x) u = if R ∈ l then t else u) := by
    intro l
    induction l with
    | nil => intros; rfl
    | cons a l ih =>
      intro hn u hu hl
      simp only [List.nodup_cons] at hn
      rw [List.foldl_cons]
      by_cases ha : a = R
      · subst ha
        have hus : u = s := (hl a (by simp)).resolve_right (by simp)
        subst hus
        have e : (u.ring a).accepted.foldl (fun y c =>
            if (c.opcode == 0x41 || c.opcode == 0x21) && (c.aux.drop 1).all (fun id => (y.run? id).isNone) then
              if c.opcode == 0x41 then y.complete a c (c.reply stOk (c.aux.headD 0) 0 0)
              else (removeContext y (c.aux.headD 0)).complete a c (c.reply stOk 0 0 0)
            else y) u = t := by
          rw [hacc, List.foldl_append, complete_fold_skip _ hpre]
          simp [hop, show c.aux.tail = [] by simpa using hw, t]
        rw [e, ih hn.2 t (Or.inr rfl) (fun r hr => Or.inr (by rintro rfl; exact hn.1 hr))]
        simp
      · have hskip : ∀ k ∈ (u.ring a).accepted, k.opcode ≠ 0x41 ∧ k.opcode ≠ 0x21 := by
          intro k hk
          have : (u.ring a).accepted = (s.ring a).accepted := by
            rcases hu with rfl | rfl
            · rfl
            · rw [ring_complete_other _ _ _ _ _ ha]
          rw [this] at hk
          exact (h a k hk).resolve_left (fun hh => ha hh.1)
        rw [complete_fold_skip _ hskip, ih hn.2 u hu (fun r hr => hl r (by simp [hr]))]
        simp [Ne.symm ha]
  have := key s.ringNos hs s (Or.inl rfl) (fun _ _ => Or.inl rfl)
  rw [if_pos hR] at this
  exact this

theorem stopLoaded_nil (s : State) (c h : Nat) : stopLoaded s c h [] = (s, []) := by simp [stopLoaded]

theorem ringNos_advance {s : State} {r : Nat} (hs : asorted s.rings = true) :
    asorted (advance s r).rings = true := by
  have h : (touchAll s (pktReads s r)).rings = s.rings := touchAll_rings _ _
  simp only [advance, State.modRing, State.setRing, h]
  exact aput_sorted _ _ _ hs

theorem ringNos_self (s : State) (r : Nat) (x : RingSt) : r ∈ (s.setRing r x).ringNos := by
  have : aget? (s.setRing r x).rings r = some x := aget?_aput_self _ _ _
  exact List.mem_map.mpr ⟨_, aget?_mem _ _ _ this, rfl⟩

end Sys2Proof.Machine
end

