-- ==== Sys2Proof/Laws/Same.lean ====
section
/-! SUPPORT. Which kinds of state a shared operation leaves alone. -/

namespace Sys2Proof.Machine

open Sys2Proof.Safety

theorem foldl_same {α : Type} (f : State → α → State) (k : Kind) (hf : ∀ s a, k.same s (f s a)) (l : List α) (s : State) :
    k.same s (l.foldl f s) := by
  induction l generalizing s with
  | nil => exact same_refl k s
  | cons a l ih => exact same_trans (hf s a) (ih _)

/-! ## Shapes: the fields an operation can change -/

theorem vector_shape (s : State) (v : Nat) :
    ∃ a b, s.vector v = { s with host := { s.host with vecPending := a, vecSent := b } } := by
  unfold State.vector; split
  · exact ⟨_, s.host.vecSent, rfl⟩
  · exact ⟨s.host.vecPending, _, rfl⟩

theorem event_shape (s : State) (code kind index : Nat) (ctx : Option Nat) (d : List Byte) :
    ∃ g a b, s.event code kind index ctx d = { s with log := g, host := { s.host with vecPending := a, vecSent := b } } := by
  unfold State.event
  dsimp only
  split
  · split
    · obtain ⟨a, b, h⟩ := vector_shape { s with log := { s.log with queue := s.log.queue ++ [_] } } _
      exact ⟨_, a, b, h⟩
    · obtain ⟨a, b, h⟩ := vector_shape { s with log := { s.log with lost := sat32 s.log.lost 1 } } _
      exact ⟨_, a, b, h⟩
  · split
    · exact ⟨_, s.host.vecPending, s.host.vecSent, rfl⟩
    · exact ⟨_, s.host.vecPending, s.host.vecSent, rfl⟩

theorem count_shape (s : State) (m : Msg) (d : Int) : ∃ c, s.count m d = { s with census := c } := by
  unfold State.count
  generalize m.countedTiles s = l
  induction l generalizing s with
  | nil => exact ⟨s.census, rfl⟩
  | cons n l ih => obtain ⟨c, h⟩ := ih (s.censusAdd n m.gen d); exact ⟨c, h⟩

/-- A block that sends a WAKE changes what it has to send, and the census. -/
theorem sendWake_shape (s : State) (b : Nat) (w : Wake) : ∃ o c, s.sendWake b w =
    { s with gauges := { s.gauges with out := o }, census := c } := by
  obtain ⟨c, h⟩ := count_shape s (wakeMsg s.deviceId b w) 1
  exact ⟨_, c, by simp only [State.sendWake, State.pushGout, State.setGout]; rw [h]⟩

theorem sendWakes_shape (b : Nat) (f : Waiter → Wake) (l : List Waiter) (s : State) : ∃ o c,
    l.foldl (fun y w => y.sendWake b (f w)) s = { s with gauges := { s.gauges with out := o }, census := c } := by
  induction l generalizing s with
  | nil => exact ⟨s.gauges.out, s.census, rfl⟩
  | cons a l ih =>
    obtain ⟨o, c, h⟩ := sendWake_shape s b (f a)
    obtain ⟨o', c', h'⟩ := ih (s.sendWake b (f a))
    exact ⟨o', c', by rw [List.foldl_cons, h', h]⟩

theorem waitAt_shape (s : State) (b g : Nat) (w : Waiter) : ∃ x c, waitAt s b g w = { s with gauges := x, census := c } := by
  unfold waitAt
  dsimp only
  split
  · obtain ⟨o, c, h⟩ := sendWake_shape s b ⟨w, 0, (s.gauge g).value, physWord g⟩
    exact ⟨_, c, by rw [h]; rfl⟩
  · split
    · exact ⟨_, s.census, rfl⟩
    · obtain ⟨o, c, h⟩ := sendWake_shape s b ⟨w, 2, (s.gauge g).value, physWord g⟩
      exact ⟨_, c, by rw [h]; rfl⟩

/-- A hub unit that starts to wait takes the next number, and leaves the rest of the memory system alone. -/
theorem hubWait_shape (s : State) (unit what q ctx vid : Nat) (target : W32) (limit : Nat) : ∃ x,
    hubWait s unit what q ctx vid target limit = { s with gauges := x, ms := { s.ms with nextId := s.ms.nextId + 1 } } := ⟨_, rfl⟩

theorem armQueue_shape (s : State) (k : Nat) :
    ∃ x q n, armQueue s k = { s with gauges := x, ms := { s.ms with queues := q, nextId := n } } := by
  unfold armQueue
  split
  · exact ⟨s.gauges, s.ms.queues, s.ms.nextId, rfl⟩
  · split
    · exact ⟨s.gauges, s.ms.queues, s.ms.nextId, rfl⟩
    · exact ⟨_, _, _, rfl⟩

theorem bindGauge_shape (s : State) (ctx : Nat) (g : GaugeDecl) :
    ∃ x n, bindGauge s ctx g = { s with gauges := x, free := n } := by
  unfold bindGauge
  dsimp only
  split
  · exact ⟨s.gauges, s.free, rfl⟩
  · exact ⟨_, _, rfl⟩

theorem wakeSatisfied_shape (s : State) (g : Nat) : ∃ x c, wakeSatisfied s g = { s with gauges := x, census := c } := by
  unfold wakeSatisfied
  dsimp only
  obtain ⟨o, c, h⟩ := sendWakes_shape (g / 4096) (fun w => ⟨w, 0, (s.gauge g).value, physWord g⟩)
    ((s.gauge g).waiters.filter (fun w => satisfied (s.gauge g).value w.target))
    (s.setGauge g { s.gauge g with waiters := (s.gauge g).waiters.filter (fun w => !satisfied (s.gauge g).value w.target) })
  exact ⟨_, c, by rw [h]; rfl⟩

theorem applySignal_shape (s : State) (g : Nat) (isSet : Bool) (v : W32) (t u : Nat) (h : Bool) :
    ∃ x c, applySignal s g isSet v t u h = { s with gauges := x, census := c } := by
  unfold applySignal
  dsimp only
  obtain ⟨x, c, h⟩ := wakeSatisfied_shape (s.setGauge g _) g
  exact ⟨_, c, by rw [h]; rfl⟩

theorem foldl_shape {α : Type} {P : State → State → Prop} (hr : ∀ s, P s s) (ht : ∀ a b c, P a b → P b c → P a c)
    (f : State → α → State) (hf : ∀ s a, P s (f s a)) (l : List α) (s : State) : P s (l.foldl f s) := by
  induction l generalizing s with
  | nil => exact hr s
  | cons a l ih => exact ht _ _ _ (hf s a) (ih _)

/-- Staging a tile changes tiles and memory only, keeping memory's canonical form. -/
theorem stageTile_shape (rd : Nat → Nat → List Byte) (x : State × Assoc Nat × Assoc Nat) (n : Nat) :
    ∃ tl m, (stageTile rd x n).1 = { x.1 with tiles := tl, mem := m } ∧ (x.1.mem.wf = true → m.wf = true) := by
  obtain ⟨s, a, b⟩ := x
  unfold stageTile
  dsimp only
  split
  · exact ⟨s.tiles, s.mem, rfl, id⟩
  · rename_i j _
    have key : ∀ l : List Nat, ∀ y : State, ∃ tl m, l.foldl (fun y k =>
        match frameAt (imgFrames rd) n k with
        | some i =>
          { y with mem := y.mem.write (slotPlace (s.phys n) j k) (rd (ihFdOff rd + 4096 * i) 4096) false }.wrote (s.phys n)
            (granules (slotPlace (s.phys n) j k) 4096) (granules (slotPlace (s.phys n) j k) 4096)
        | none => y) y = { y with tiles := tl, mem := m } ∧ (y.mem.wf = true → m.wf = true) := by
      intro l
      induction l with
      | nil => exact fun y => ⟨y.tiles, y.mem, rfl, id⟩
      | cons k l ih =>
        intro y
        rw [List.foldl_cons]
        split
        · obtain ⟨tl, e⟩ := wrote_shape { y with mem := y.mem.write (slotPlace (s.phys n) j k) (rd (ihFdOff rd + 4096 * _) 4096) false }
            (s.phys n) (granules (slotPlace (s.phys n) j k) 4096) (granules (slotPlace (s.phys n) j k) 4096)
          rw [e]
          obtain ⟨tl', m, h1, h2⟩ := ih _
          exact ⟨tl', m, h1, fun h => h2 (write_wf _ _ _ _ h)⟩
        · exact ih y
    obtain ⟨tl, m, h1, h2⟩ := key (List.range 4)
      (s.modTile (s.phys n) (fun t => t.modRegs (fun r => { r with slots := BitVec.ofNat 16 (putBit r.slots.toNat j true) })))
    exact ⟨tl, m, h1, h2⟩

theorem stageTiles_shape (rd : Nat → Nat → List Byte) (l : List Nat) (x : State × Assoc Nat × Assoc Nat) :
    ∃ tl m, (l.foldl (stageTile rd) x).1 = { x.1 with tiles := tl, mem := m } ∧ (x.1.mem.wf = true → m.wf = true) := by
  induction l generalizing x with
  | nil => exact ⟨x.1.tiles, x.1.mem, rfl, id⟩
  | cons n l ih =>
    obtain ⟨tl, m, h1, h2⟩ := stageTile_shape rd x n
    obtain ⟨tl', m', h3, h4⟩ := ih (stageTile rd x n)
    refine ⟨tl', m', ?_, fun h => h4 (by rw [h1]; exact h2 h)⟩
    rw [List.foldl_cons, h3, h1]

theorem bindGauges_shape (c : Nat) (l : List GaugeDecl) (s : State) :
    ∃ x n, l.foldl (fun y g => bindGauge y c g) s = { s with gauges := x, free := n } := by
  induction l generalizing s with
  | nil => exact ⟨s.gauges, s.free, rfl⟩
  | cons g l ih =>
    obtain ⟨x, n, h⟩ := bindGauge_shape s c g
    obtain ⟨x', n', h'⟩ := ih (bindGauge s c g)
    exact ⟨x', n', by rw [List.foldl_cons, h', h]⟩

/-- Staging an image changes tiles, memory, gauges, free values, the images and the loader's counters. -/
theorem stageImage_shape (s : State) (rd : Nat → Nat → List Byte) (host : Bool) (a len c h : Nat) (v : Bool) (w : Option (Nat × Nat)) :
    ∃ tl m g n img, stageImage s rd host a len c h v w =
      { s with tiles := tl, mem := m, gauges := g, free := n, images := s.images ++ [img], ldrStat := bump s.ldrStat 5 1 } ∧
      (s.mem.wf = true → m.wf = true) ∧ img.ctx = c ∧ img.handle = h ∧ img.host = host ∧ img.addr = a ∧ img.len = len ∧
      img.digest = rd 64 32 ∧ img.tiles = imgTiles rd ∧ img.sigChecked = v ∧ img.awaits = w := by
  unfold stageImage
  dsimp only
  obtain ⟨tl, m, h1, h2⟩ := stageTiles_shape rd (imgTiles rd) (s, [], [])
  obtain ⟨x, n, h3⟩ := bindGauges_shape c (newGauges s c (gaugeDecls rd)) ((imgTiles rd).foldl (stageTile rd) (s, [], [])).1
  rw [h3, h1]
  exact ⟨_, _, _, _, _, rfl, h2, rfl, rfl, rfl, rfl, rfl, rfl, rfl, rfl, rfl⟩

theorem refuseImage_shape (s : State) (c : Nat) (f : ImgFail) :
    ∃ g a b, refuseImage s c f =
      { s with ldrStat := bump s.ldrStat 6 1, log := g, host := { s.host with vecPending := a, vecSent := b } } := by
  obtain ⟨g, a, b, h⟩ := event_shape (s.bumpLdr 6 1) f.event 14 1 (some c) (detailOf [(4, f.item)])
  exact ⟨g, a, b, h⟩

theorem unpopAccess_shape (s : State) (agent : Nat) :
    ∃ ms g a b, unpopAccess s agent = { s with ms := ms, log := g, host := { s.host with vecPending := a, vecSent := b } } := by
  unfold unpopAccess
  extract_lets due s1
  split
  · obtain ⟨g, a, b, h⟩ := event_shape { s with ms := { s.ms with unpop := sat32 s.ms.unpop 1, unpopAt := aput s.ms.unpopAt agent s.clk } }
      0x3170 14 agent none []
    exact ⟨_, g, a, b, h⟩
  · exact ⟨_, s.log, s.host.vecPending, s.host.vecSent, rfl⟩

theorem physOnce_shape (s : State) (p code limit : Nat) (d : List Byte) :
    ∃ tl g a b, s.physOnce p code limit d =
      { s with tiles := tl, log := g, host := { s.host with vecPending := a, vecSent := b } } := by
  unfold State.physOnce
  dsimp only
  split
  · obtain ⟨g, a, b, h⟩ := event_shape
      (s.modTile p (fun t => { t with once := aput t.once (code * 16 + 9) (agetD (s.tile p).once (code * 16 + 9) 0 + 1) })) code 9 p
      (s.tileCtx p) d
    exact ⟨_, g, a, b, h⟩
  · exact ⟨s.tiles, s.log, s.host.vecPending, s.host.vecSent, rfl⟩

theorem noteAccess_shape (s : State) (agent a n : Nat) : ∃ ms tl g h, noteAccess s agent a n =
    { s with ms := ms, tiles := tl, log := g, host := h } := by
  unfold noteAccess
  dsimp only
  obtain ⟨x, y, e⟩ := touchDev_shape s a n
  have h1 : ∃ ms g h, (if (touchDev s a n).populated a n then touchDev s a n else unpopAccess (touchDev s a n) agent) =
      { s with ms := ms, log := g, host := h } := by
    split
    · exact ⟨s.ms, s.log, _, e⟩
    · obtain ⟨ms, g, p, q, h⟩ := unpopAccess_shape (touchDev s a n) agent
      exact ⟨ms, g, _, by rw [h, e]⟩
  obtain ⟨ms, g, h, e1⟩ := h1
  rw [e1]
  split
  · unfold refusedAccess
    obtain ⟨tl, g', p, q, e2⟩ := physOnce_shape (({ s with ms := ms, log := g, host := h } : State).modTile
      (({ s with ms := ms, log := g, host := h } : State).phys _) (fun t => t.modRegs (fun r => { r with refused := sat32 r.refused 1 }))) _ 0x3113 1 []
    exact ⟨ms, tl, g', _, e2⟩
  · exact ⟨ms, s.tiles, g, h, rfl⟩

/-! ## Bytes that staging leaves alone -/

theorem stageTile_frame (rd : Nat → Nat → List Byte) (hrd : ∀ o, (rd o 4096).length = 4096) (x : State × Assoc Nat × Assoc Nat) (n z : Nat) (hw : x.1.mem.wf = true)
    (hz : z < tileBase (x.1.phys n) + 0xFC0000 ∨ tileBase (x.1.phys n) + 0x1000000 ≤ z) :
    (stageTile rd x n).1.mem.byte z = x.1.mem.byte z := by
  obtain ⟨s, a, b⟩ := x
  unfold stageTile
  dsimp only
  split
  · rfl
  · rename_i j hj
    have hj : j < 16 := by
      have := List.find?_some hj
      have h2 := List.mem_of_find?_eq_some hj
      simpa using h2
    have key : ∀ l : List Nat, (∀ k ∈ l, k < 4) → ∀ y : State, y.mem.wf = true → (l.foldl (fun y k =>
        match frameAt (imgFrames rd) n k with
        | some i =>
          { y with mem := y.mem.write (slotPlace (s.phys n) j k) (rd (ihFdOff rd + 4096 * i) 4096) false }.wrote (s.phys n)
            (granules (slotPlace (s.phys n) j k) 4096) (granules (slotPlace (s.phys n) j k) 4096)
        | none => y) y).mem.byte z = y.mem.byte z := by
      intro l
      induction l with
      | nil => exact fun _ y _ => rfl
      | cons k l ih =>
        intro hl y hy
        have hk := hl k (by simp)
        rw [List.foldl_cons]
        split
        · obtain ⟨tl, e⟩ := wrote_shape { y with mem := y.mem.write (slotPlace (s.phys n) j k) (rd (ihFdOff rd + 4096 * _) 4096) false }
            (s.phys n) (granules (slotPlace (s.phys n) j k) 4096) (granules (slotPlace (s.phys n) j k) 4096)
          rw [e, ih (fun k h => hl k (by simp [h]))]
          · exact byte_write_other _ _ _ _ _ hy (by simp only [slotPlace, hrd]; simp only at hz; omega)
          · exact write_wf _ _ _ _ hy
        · exact ih (fun k h => hl k (by simp [h])) y hy
    exact key _ (by simp) _ hw

theorem stageTiles_frame (rd : Nat → Nat → List Byte) (hrd : ∀ o, (rd o 4096).length = 4096) (l : List Nat) (x : State × Assoc Nat × Assoc Nat) (z : Nat) (hw : x.1.mem.wf = true)
    (hz : ∀ n ∈ l, z < tileBase (x.1.phys n) + 0xFC0000 ∨ tileBase (x.1.phys n) + 0x1000000 ≤ z) :
    (l.foldl (stageTile rd) x).1.mem.byte z = x.1.mem.byte z := by
  induction l generalizing x with
  | nil => rfl
  | cons n l ih =>
    obtain ⟨tl, m, h1, h2⟩ := stageTile_shape rd x n
    rw [List.foldl_cons, ih, stageTile_frame rd hrd x n z hw (hz n (by simp))]
    · rw [h1]; exact h2 hw
    · intro n' hn'
      have : (stageTile rd x n).1.phys n' = x.1.phys n' := by rw [h1]; rfl
      rw [this]; exact hz n' (by simp [hn'])

theorem stageImage_frame (s : State) (rd : Nat → Nat → List Byte) (hrd : ∀ o, (rd o 4096).length = 4096) (host : Bool) (a len c h : Nat) (v : Bool) (w : Option (Nat × Nat)) (z : Nat) (hw : s.mem.wf = true)
    (hz : ∀ n ∈ imgTiles rd, z < tileBase (s.phys n) + 0xFC0000 ∨ tileBase (s.phys n) + 0x1000000 ≤ z) :
    (stageImage s rd host a len c h v w).mem.byte z = s.mem.byte z := by
  unfold stageImage
  dsimp only
  obtain ⟨x, n, h3⟩ := bindGauges_shape c (newGauges s c (gaugeDecls rd)) ((imgTiles rd).foldl (stageTile rd) (s, [], [])).1
  rw [h3]
  exact stageTiles_frame rd hrd _ (s, [], []) z hw hz

theorem queue?_advance (s : State) (r k : Nat) : (advance s r).queue? k = s.queue? k := by simp [State.queue?]

theorem queue?_done {s x : State} (h : s.stopped = false) (k : Nat) : (done s x).queue? k = x.queue? k := by
  simp [State.queue?, done_ms _ _ h]

theorem armQueue_self (s : State) (k : Nat) (q : PumpQueue) (hq : s.queue? k = some q) (hh : q.halted = false) :
    ∃ x y n, armQueue s k = { s with gauges := x, ms := { s.ms with queues := aput s.ms.queues k { q with postWait := y }, nextId := n } } ∧
      y ≠ .none := by
  unfold armQueue
  simp only [hq]
  by_cases hp : q.postWait = .none
  · rw [if_neg (by simp [hh, hp])]
    exact ⟨_, .waiting, _, rfl, by simp⟩
  · rw [if_pos (by simp [hp])]
    refine ⟨s.gauges, q.postWait, s.ms.nextId, ?_, hp⟩
    have : aput s.ms.queues k { q with postWait := q.postWait } = s.ms.queues := aput_same _ _ _ hq
    rw [this]

theorem armQueue_set (s : State) (k : Nat) (q : PumpQueue) (hh : q.halted = false) :
    ∃ x y n, armQueue (s.setQueue k q) k =
      { s with gauges := x, ms := { s.ms with queues := aput s.ms.queues k { q with postWait := y }, nextId := n } } ∧ y ≠ .none := by
  obtain ⟨x, y, n, e, hy⟩ := armQueue_self (s.setQueue k q) k q (by simp [State.queue?, State.setQueue]) hh
  refine ⟨x, y, n, ?_, hy⟩
  rw [e]; simp [State.setQueue, aput_aput]

theorem wakeSatisfied_gauge (s : State) (g : Nat) : ((wakeSatisfied s g).gauge g).value = (s.gauge g).value ∧
    (∀ j, j ≠ g → (wakeSatisfied s g).gauge j = s.gauge j) ∧ (wakeSatisfied s g).gauges.inq = s.gauges.inq := by
  unfold wakeSatisfied
  dsimp only
  obtain ⟨o, c, h⟩ := sendWakes_shape (g / 4096) (fun w => ⟨w, 0, (s.gauge g).value, physWord g⟩)
    ((s.gauge g).waiters.filter (fun w => satisfied (s.gauge g).value w.target))
    (s.setGauge g { s.gauge g with waiters := (s.gauge g).waiters.filter (fun w => !satisfied (s.gauge g).value w.target) })
  rw [h]
  exact ⟨by simp [State.gauge, State.setGauge], fun j hj => by simp [State.gauge, State.setGauge, agetD_aput_other _ _ _ _ _ hj], rfl⟩

theorem applySignal_gauge (s : State) (g : Nat) (isSet : Bool) (v : W32) (t u : Nat) (h : Bool) :
    ((applySignal s g isSet v t u h).gauge g).value = (if isSet then v else (s.gauge g).value + v) ∧
    (∀ j, j ≠ g → (applySignal s g isSet v t u h).gauge j = s.gauge j) ∧
    (applySignal s g isSet v t u h).gauges.inq = s.gauges.inq := by
  unfold applySignal
  dsimp only
  refine ⟨(wakeSatisfied_gauge _ g).1.trans ?_, fun j hj => ((wakeSatisfied_gauge _ g).2.1 j hj).trans ?_, (wakeSatisfied_gauge _ g).2.2⟩
  · simp [State.gauge, State.setGauge]
  · simp [State.gauge, State.setGauge, agetD_aput_other _ _ _ _ _ hj]

theorem gaugeOf_advance (s : State) (r c v : Nat) : (advance s r).gaugeOf c v = s.gaugeOf c v := by simp [State.gaugeOf]

theorem gauge_advance (s : State) (r g : Nat) : (advance s r).gauge g = s.gauge g := by simp [State.gauge]

theorem gauge_done {s x : State} (h : s.stopped = false) (g : Nat) : (done s x).gauge g = x.gauge g := by
  simp [State.gauge, done_gauges _ _ h]

theorem gin_setGin (s : State) (b : Nat) (l : List Msg) (hs : asorted s.gauges.inq = true) : (s.setGin b l).gin b = l := by
  unfold State.gin State.setGin
  dsimp only
  split
  · rename_i h; have : l = [] := by simpa using h
    subst this; simp [agetD, aget?_adel_self _ _ hs]
  · simp

theorem atBlock_some {s : State} {b : Nat} {m : Msg} {ops : Nat → Bool} (h5 : b < 5) (hd : b = 4 ∨ b < s.dies) (hm : (s.gin b).head? = some m) (ho : ops (gOp m) = true) :
    atBlock s b ops = some m := by
  unfold atBlock
  rw [if_pos (by simp [h5]; exact hd), hm]; simp [ho]

theorem gaugeTake_own {s : State} {b : Nat} {m : Msg} {c g : Nat} (f : State → Nat → Nat → State) (hm : gaugeMalformed m = false) (hc : gaugeCtx s m = some c) (hg : s.gaugeOf c (gVid m) = some g) (hb : g / 4096 = b) :
    gaugeTake s b m f = f (postTaken (s.setGin b ((s.gin b).drop 1)) m) c g := by
  unfold gaugeTake
  simp [hm, hc, hg, hb]

theorem commitBySignal_shape (s : State) (m : Msg) : ∃ r, commitBySignal s m = { s with runs := r } := by
  unfold commitBySignal
  split
  · split
    · dsimp only; split
      · split <;> exact ⟨_, rfl⟩
      · split <;> exact ⟨_, rfl⟩
    · exact ⟨_, rfl⟩
  · exact ⟨_, rfl⟩

theorem postTaken_shape (s : State) (m : Msg) : ∃ q, postTaken s m = { s with ms := { s.ms with queues := q } } := by
  unfold postTaken
  split
  · split
    · exact ⟨_, rfl⟩
    · exact ⟨s.ms.queues, rfl⟩
  · exact ⟨s.ms.queues, rfl⟩

/-- A well-formed signal at the block that holds its gauge changes that gauge's value by it, no other gauge, and leaves the queue. -/
theorem signalAt_applies (s : State) (m : Msg) (c g : Nat) (isSet : Bool) (hs : asorted s.gauges.inq = true) (hm : gaugeMalformed m = false)
    (hc : gaugeCtx s m = some c) (hg : s.gaugeOf c (gVid m) = some g) :
    ∃ x r k q, signalAt s (g / 4096) m isSet = { s with gauges := x, runs := r, census := k, ms := { s.ms with queues := q } } ∧
      (∀ y : State, y.gauges = x → (y.gauge g).value = (if isSet then gOperand m else (s.gauge g).value + gOperand m) ∧
        (∀ j, j ≠ g → y.gauge j = s.gauge j) ∧ y.gin (g / 4096) = (s.gin (g / 4096)).drop 1) := by
  unfold signalAt
  rw [gaugeTake_own _ hm hc hg rfl]
  obtain ⟨q, eq⟩ := postTaken_shape (s.setGin (g / 4096) ((s.gin (g / 4096)).drop 1)) m
  have hi0 := gin_setGin s (g / 4096) ((s.gin (g / 4096)).drop 1) hs
  rw [eq]
  obtain ⟨t, u, h⟩ := signaller s m
  dsimp only
  generalize hS : ({ s.setGin (g / 4096) ((s.gin (g / 4096)).drop 1) with
    ms := { (s.setGin (g / 4096) ((s.gin (g / 4096)).drop 1)).ms with queues := q } } : State) = S
  have hSg : ∀ j, S.gauge j = s.gauge j := fun j => by rw [← hS]; rfl
  have hSi : S.gin (g / 4096) = (s.gin (g / 4096)).drop 1 := by rw [← hS]; exact hi0
  obtain ⟨r, e1⟩ := commitBySignal_shape (applySignal S g isSet (gOperand m) t u h) m
  obtain ⟨x, k, e2⟩ := applySignal_shape S g isSet (gOperand m) t u h
  have hv := applySignal_gauge S g isSet (gOperand m) t u h
  rw [e2] at hv e1
  rw [e2, e1]
  have hval : ∀ y : State, y.gauges = x → ∀ j, y.gauge j = ({ S with gauges := x, census := k } : State).gauge j :=
    fun y hy j => by simp only [State.gauge, hy]
  refine ⟨x, r, k, q, by rw [← hS]; rfl, fun y hy => ⟨?_, fun j hj => ?_, ?_⟩⟩
  · rw [hval y hy, hv.1, hSg]
  · rw [hval y hy, hv.2.1 j hj, hSg]
  · rw [← hSi]; simp only [State.gin, hy]; rw [show x.inq = _ from hv.2.2]

end Sys2Proof.Machine
end

