-- ==== Sys2Proof/Laws/Pages.lean ====
section
/-! SUPPORT. What the page commands change, and that it depends on neither the rings nor the host: each operation over page
tables once. -/

namespace Sys2Proof.Machine

open Sys2Proof.Safety

/-- Two states that differ only in their rings, their host side and their page tables' descriptors. -/
def Aside (s z : State) : Prop := ∃ g h tb, z = { s with rings := g, host := h, ms := { s.ms with tables := tb } }

theorem aside_refl (s : State) : Aside s s := ⟨s.rings, s.host, s.ms.tables, rfl⟩

theorem aside_advance (s : State) (r : Nat) : Aside s (advance s r) := by
  obtain ⟨g, x, y, e⟩ := advance_shape s r
  exact ⟨g, _, s.ms.tables, e⟩

theorem aside_mem {s z : State} (h : Aside s z) : z.mem = s.mem := by obtain ⟨g, h, tb, rfl⟩ := h; rfl

theorem aside_devRead {s z : State} (h : Aside s z) (a n : Nat) : z.devRead a n = s.devRead a n := by obtain ⟨g, h, tb, rfl⟩ := h; rfl

theorem aside_devPoison {s z : State} (h : Aside s z) (a n : Nat) : z.devPoison a n = s.devPoison a n := by
  obtain ⟨g, h, tb, rfl⟩ := h; rfl

theorem aside_entryOf {s z : State} (h : Aside s z) (t : PageTable) (e : Nat) : entryOf z t e = entryOf s t e := by
  obtain ⟨g, h, tb, rfl⟩ := h; rfl

theorem aside_rdEntry {s z : State} (h : Aside s z) (t : PageTable) (e : Nat) : rdEntry z t e = rdEntry s t e := by
  obtain ⟨g, h, tb, rfl⟩ := h; rfl

theorem aside_rdRecord {s z : State} (h : Aside s z) (t : PageTable) (r : Nat) : rdRecord z t r = rdRecord s t r := by
  obtain ⟨g, h, tb, rfl⟩ := h; rfl

theorem aside_entryBad {s z : State} (h : Aside s z) (t : PageTable) (e : Nat) : entryBad z t e = entryBad s t e := by
  obtain ⟨g, h, tb, rfl⟩ := h; rfl

theorem aside_listCount {s z : State} (h : Aside s z) (t : PageTable) (k : Nat) : listCount z t k = listCount s t k := by
  obtain ⟨g, h, tb, rfl⟩ := h; rfl

theorem aside_listHead {s z : State} (h : Aside s z) (t : PageTable) (k : Nat) : listHead z t k = listHead s t k := by
  obtain ⟨g, h, tb, rfl⟩ := h; rfl

theorem aside_inputHit {s z : State} (h : Aside s z) (a n : Nat) : inputHit z a n = inputHit s a n := by
  obtain ⟨g, h, tb, rfl⟩ := h; rfl

theorem aside_foldl {α : Type} (f : State → α → State) (hf : ∀ s z a, Aside s z → Aside (f s a) (f z a)) (l : List α) (s z : State)
    (h : Aside s z) : Aside (l.foldl f s) (l.foldl f z) := by
  induction l generalizing s z with
  | nil => exact h
  | cons a l ih => exact ih _ _ (hf _ _ _ h)

theorem aside_wrote {s z : State} (h : Aside s z) (p : Nat) (l w : List Nat) : Aside (s.wrote p l w) (z.wrote p l w) := by
  obtain ⟨g, h, tb, rfl⟩ := h
  unfold State.wrote
  dsimp only
  have e : State.tile { s with rings := g, host := h, ms := { s.ms with tables := tb } } p = s.tile p := rfl
  rw [e]
  split <;> exact ⟨g, h, tb, rfl⟩

theorem aside_devWrite {s z : State} (h : Aside s z) (a : Nat) (bs : List Byte) (bad : Nat → Bool) :
    Aside (s.devWrite a bs bad) (z.devWrite a bs bad) := by
  unfold State.devWrite
  refine aside_foldl _ (fun s z e hh => ?_) _ _ _ h
  obtain ⟨g, h, tb, rfl⟩ := hh
  unfold writePiece
  have e1 : State.place { s with rings := g, host := h, ms := { s.ms with tables := tb } } e.1 = s.place e.1 := rfl
  have e2 : State.tileOpen { s with rings := g, host := h, ms := { s.ms with tables := tb } } e.1 e.2 = s.tileOpen e.1 e.2 := rfl
  rw [e1, e2]
  split
  · exact ⟨g, h, tb, rfl⟩
  · split
    · dsimp only
      split
      · exact aside_wrote ⟨g, h, tb, rfl⟩ _ _ _
      · exact ⟨g, h, tb, rfl⟩
    · exact ⟨g, h, tb, rfl⟩

theorem aside_event {s z : State} (h : Aside s z) (code kind index : Nat) (ctx : Option Nat) (d : List Byte) :
    Aside (s.event code kind index ctx d) (z.event code kind index ctx d) := by
  obtain ⟨g, h, tb, rfl⟩ := h
  have hv : ∀ (y : State) h' v, ∃ hh, ({ y with rings := g, host := h', ms := { y.ms with tables := tb } } : State).vector v =
      { y with rings := g, host := hh, ms := { y.ms with tables := tb } } := by
    intro y h' v; unfold State.vector; split <;> exact ⟨_, rfl⟩
  have hv2 : ∀ (y : State) v, ∃ hh, y.vector v = { y with host := hh } := by
    intro y v; unfold State.vector; split <;> exact ⟨_, rfl⟩
  unfold State.event
  dsimp only
  split
  · split
    · obtain ⟨h1, e1⟩ := hv { s with log := { s.log with queue := s.log.queue ++ [_] } } h _
      obtain ⟨h2, e2⟩ := hv2 { s with log := { s.log with queue := s.log.queue ++ [_] } } _
      rw [e2]
      exact ⟨g, h1, tb, e1⟩
    · obtain ⟨h1, e1⟩ := hv { s with log := { s.log with lost := sat32 s.log.lost 1 } } h _
      obtain ⟨h2, e2⟩ := hv2 { s with log := { s.log with lost := sat32 s.log.lost 1 } } _
      rw [e2]
      exact ⟨g, h1, tb, e1⟩
  · split <;> exact ⟨g, h, tb, rfl⟩

theorem aside_inputDiscard {s z : State} (h : Aside s z) (src : Nat × Nat) : Aside (inputDiscard s src) (inputDiscard z src) := by
  unfold inputDiscard
  refine aside_event ?_ _ _ _ _ _
  obtain ⟨g, h, tb, rfl⟩ := h
  exact ⟨g, h, tb, rfl⟩

theorem aside_engineWrite {s z : State} (h : Aside s z) (a : Nat) (bs : List Byte) : Aside (engineWrite s a bs) (engineWrite z a bs) := by
  unfold engineWrite
  rw [aside_inputHit h]
  split
  · exact aside_inputDiscard h _
  · exact aside_devWrite h _ _ _

theorem aside_setList {s z : State} (h : Aside s z) (t : PageTable) (k a b : Nat) : Aside (setList s t k a b) (setList z t k a b) :=
  aside_engineWrite h _ _

theorem aside_wrEntry {s z : State} (h : Aside s z) (t : PageTable) (e v : Nat) : Aside (wrEntry s t e v) (wrEntry z t e v) :=
  aside_engineWrite h _ _

theorem aside_wrRecord {s z : State} (h : Aside s z) (t : PageTable) (r v : Nat) : Aside (wrRecord s t r v) (wrRecord z t r v) :=
  aside_engineWrite h _ _

theorem aside_notePoison {s z : State} (h : Aside s z) (t : PageTable) (es : List Nat) :
    Aside (notePoisonEntries s t es) (notePoisonEntries z t es) := by
  unfold notePoisonEntries
  have : entryBad z t = entryBad s t := funext (fun e => aside_entryBad h t e)
  rw [this]
  split
  · exact aside_event h _ _ _ _ _
  · exact h

theorem aside_popFree {s z : State} (h : Aside s z) (t : PageTable) (k : Nat) :
    (popFree s t k = none ∧ popFree z t k = none) ∨
    ∃ x s1 z1, popFree s t k = some (x, s1) ∧ popFree z t k = some (x, z1) ∧ Aside s1 z1 := by
  unfold popFree
  simp only [aside_listCount h, aside_listHead h, aside_devRead h]
  split
  · exact .inl ⟨rfl, rfl⟩
  · exact .inr ⟨_, _, _, rfl, rfl, aside_setList h _ _ _ _⟩

theorem aside_pushFree {s z : State} (h : Aside s z) (t : PageTable) (k r p : Nat) : Aside (pushFree s t k r p) (pushFree z t k r p) := by
  unfold pushFree
  simp only [aside_listCount h, aside_listHead h]
  split
  · exact h
  · exact aside_setList (aside_engineWrite h _ _) _ _ _ _

theorem aside_freePage {s z : State} (h : Aside s z) (k : Nat) (t : PageTable) (tier r p : Nat) :
    Aside (freePage s k t tier r p) (freePage z k t tier r p) := by
  unfold freePage
  have e : pageInUse z p = pageInUse s p := by obtain ⟨g, h, tb, rfl⟩ := h; rfl
  rw [e]
  split
  · obtain ⟨g, h, tb, rfl⟩ := h
    exact ⟨g, h, tb, rfl⟩
  · exact aside_pushFree h _ _ _ _

theorem aside_unmapEntry {s z : State} (h : Aside s z) (k : Nat) (t : PageTable) (e : Nat) :
    Aside (unmapEntry s k t e) (unmapEntry z k t e) := by
  unfold unmapEntry
  simp only [aside_entryOf h, aside_rdRecord h]
  split
  · exact h
  · split
    · exact aside_freePage (aside_wrRecord (aside_wrEntry h _ _ _) _ _ _) _ _ _ _ _
    · exact aside_wrRecord (aside_wrEntry h _ _ _) _ _ _

/-! ## What they change -/

/-- What the page engine's writes change: memory, which keeps its canonical form, the tiles' notes of the words written, the log, the
loader's counters, the vectors due and the pages that wait to be free. -/
def Paged (s x : State) : Prop := ∃ m tl g ld a b fr,
  x = { s with mem := m, tiles := tl, log := g, ldrStat := ld, host := { s.host with vecPending := a, vecSent := b }
               ms := { s.ms with frees := fr } } ∧
  (s.mem.wf = true → m.wf = true)

theorem paged_refl (s : State) : Paged s s :=
  ⟨s.mem, s.tiles, s.log, s.ldrStat, s.host.vecPending, s.host.vecSent, s.ms.frees, rfl, id⟩

theorem paged_trans {a b c : State} (h : Paged a b) (g : Paged b c) : Paged a c := by
  obtain ⟨m, tl, l, ld, v, w, fr, rfl, h1⟩ := h
  obtain ⟨m2, tl2, l2, ld2, v2, w2, fr2, rfl, h2⟩ := g
  exact ⟨m2, tl2, l2, ld2, v2, w2, fr2, rfl, fun h => h2 (h1 h)⟩

theorem paged_event (s : State) (code kind index : Nat) (ctx : Option Nat) (d : List Byte) : Paged s (s.event code kind index ctx d) := by
  obtain ⟨g, a, b, h⟩ := event_shape s code kind index ctx d
  exact ⟨s.mem, s.tiles, g, s.ldrStat, a, b, s.ms.frees, h, id⟩

theorem paged_inputDiscard (s : State) (src : Nat × Nat) : Paged s (inputDiscard s src) :=
  paged_trans ⟨s.mem, s.tiles, s.log, _, s.host.vecPending, s.host.vecSent, s.ms.frees, rfl, id⟩ (paged_event _ _ _ _ _ _)

theorem paged_devWrite (s : State) (a : Nat) (bs : List Byte) (bad : Nat → Bool) : Paged s (s.devWrite a bs bad) := by
  obtain ⟨m, tl, h, hw⟩ := devWrite_shape s a bs bad
  exact ⟨m, tl, s.log, s.ldrStat, s.host.vecPending, s.host.vecSent, s.ms.frees, h, hw⟩

theorem paged_engineWrite (s : State) (a : Nat) (bs : List Byte) : Paged s (engineWrite s a bs) := by
  unfold engineWrite
  split
  · exact paged_inputDiscard _ _
  · exact paged_devWrite _ _ _ _

theorem paged_pushFree (s : State) (t : PageTable) (k r p : Nat) : Paged s (pushFree s t k r p) := by
  unfold pushFree
  dsimp only
  split
  · exact paged_refl s
  · exact paged_trans (paged_engineWrite _ _ _) (paged_engineWrite _ _ _)

theorem paged_popFree (s : State) (t : PageTable) (k : Nat) (x : Nat × Nat) (s1 : State) (h : popFree s t k = some (x, s1)) : Paged s s1 := by
  unfold popFree at h
  dsimp only at h
  split at h
  · simp at h
  · injection h with h; injection h with _ h; subst h
    exact paged_engineWrite _ _ _

theorem paged_freePage (s : State) (k : Nat) (t : PageTable) (tier r p : Nat) : Paged s (freePage s k t tier r p) := by
  unfold freePage
  split
  · exact ⟨s.mem, s.tiles, s.log, s.ldrStat, s.host.vecPending, s.host.vecSent, _, rfl, id⟩
  · exact paged_pushFree _ _ _ _ _

theorem paged_unmapEntry (s : State) (k : Nat) (t : PageTable) (e : Nat) : Paged s (unmapEntry s k t e) := by
  unfold unmapEntry
  dsimp only
  split
  · exact paged_refl s
  · have h : ∀ v w, Paged s (wrRecord (wrEntry s t e 0) t v w) := fun v w =>
      paged_trans (paged_engineWrite _ _ _) (paged_engineWrite _ _ _)
    split
    · exact paged_trans (h _ _) (paged_freePage _ _ _ _ _ _)
    · exact h _ _

theorem paged_notePoison (s : State) (t : PageTable) (es : List Nat) : Paged s (notePoisonEntries s t es) := by
  unfold notePoisonEntries
  split
  · exact paged_event _ _ _ _ _ _
  · exact paged_refl s

theorem paged_foldl {α : Type} (f : State → α → State) (hf : ∀ s a, Paged s (f s a)) (l : List α) (s : State) : Paged s (l.foldl f s) :=
  foldl_shape paged_refl (fun _ _ _ => paged_trans) f hf l s

/-- The kinds of state that a command of a page table may change. -/
abbrev pagedKinds : List Kind := [.mem, .tiles, .log, .vectors, .loader, .pageWork]

/-- How a command of a page table ends whose effect is the page engine's writes. -/
theorem page_ends {s : State} {ring : Ring} {op : Nat} {fs : Fields} {p : Pkt} {form : Option Nat} {body : State → Nat → Pkt → State}
    {o : Host.Outcome State Fault Refusal} (ho : o = .next (done s (ringCmd s ring op form body))) {st a b : Nat} {M : Memory} (Y : State)
    (h : Takes s ring op fs p) (hf : ∀ f, form = some f → p.b 8 1 = f)
    (hb : body (advance s (ringNo ring)) (ringNo ring) p = answer Y (ringNo ring) p st a b 0)
    (hY : Paged (advance s (ringNo ring)) Y) (hm : Y.mem = M) :
    ∃ t, o = .next t ∧ Ends s t ring p pagedKinds st a b 0 ∧ t.mem = M := by
  obtain ⟨m, tl, g, ld, v, w, fr, e, hw⟩ := hY
  refine ring_completes ho Y st a b 0 _ h hf hb ?_ ?_ (fun E => ⟨E, ?_⟩)
  · rw [e]
  · rw [e]; intro k hk; cases k <;> simp [Kind.same] at hk ⊢
  · have hwf : m.wf = true := hw (by simpa using h.canonical)
    rw [done_mem _ _ h.runs]
    show (answer Y _ p _ _ _ _).mem.canon = M
    have : (answer Y (ringNo ring) p st a b 0).mem = Y.mem := rfl
    rw [this, ← hm, e]; exact canon_eq _ hwf

theorem withTable_own {s : State} {ring : Ring} {p : Pkt} {t : PageTable} (r : Nat) (ht : s.table? (p.b 10 2) = some t) (hc : t.ctx = p.ctx)
    (body : Nat → PageTable → State) : withTable (advance s r) (ringNo ring) p body = body (p.b 10 2) t := by
  unfold withTable
  have : (advance s r).table? (p.b 10 2) = some t := by simpa [State.table?] using ht
  simp only [this, hc]; simp

theorem inTurn_now {s : State} {r k : Nat} {p : Pkt} (h : tableBusy s k = false) (body : State → State) : inTurn s r p k body = body s := by
  simp [inTurn, h]

theorem table?_done {s x : State} (h : s.stopped = false) (k : Nat) : (done s x).table? k = x.table? k := by
  simp [State.table?, done_ms _ _ h]

end Sys2Proof.Machine
end

