-- ==== Sys2Proof/Laws/Links.lean ====
section
/-! SUPPORT. What sending over links changes, and when a schedule-table entry fires. -/

namespace Sys2Proof.Machine

open Sys2Proof.Safety

theorem portOnce_shape (s : State) (k c : Nat) (d : List Byte) : ∃ ln g a b, portOnce s k c d = { s with links := ln, log := g, host := { s.host with vecPending := a, vecSent := b } } := by
  unfold portOnce
  split
  · exact ⟨s.links, s.log, s.host.vecPending, s.host.vecSent, rfl⟩
  · obtain ⟨g, a, b, e⟩ := event_shape (s.modLport k (fun x => { x with once := c :: x.once })) c 13 k none d
    exact ⟨_, g, a, b, e⟩

theorem linkDrop_shape (s : State) (id : Nat) (arr : Option Nat) (c : Nat) : ∃ ln g a b, linkDrop s id arr c = { s with links := ln, log := g, host := { s.host with vecPending := a, vecSent := b } } := by
  obtain ⟨ln, g, a, b, e⟩ := portOnce_shape (s.bumpLink (arr.getD 0) 5 1) (arr.getD 0) 0x3230 (detailOf [(2, id), (1, c)])
  exact ⟨ln, g, a, b, e⟩

theorem serviceSend_shape (s : State) (rec : List Byte) (arr : Option Nat) : ∃ ln g a b, serviceSend s rec arr = { s with links := ln, log := g, host := { s.host with vecPending := a, vecSent := b } } := by
  unfold serviceSend
  dsimp only
  split
  · exact linkDrop_shape _ _ _ _
  · split <;> exact ⟨_, s.log, s.host.vecPending, s.host.vecSent, rfl⟩

theorem serviceSends_shape (f : Nat → List Byte) (l : List Nat) (s : State) : ∃ ln g a b, l.foldl (fun y d => serviceSend y (f d) none) s = { s with links := ln, log := g, host := { s.host with vecPending := a, vecSent := b } } := by
  induction l generalizing s with
  | nil => exact ⟨s.links, s.log, s.host.vecPending, s.host.vecSent, rfl⟩
  | cons d l ih =>
    obtain ⟨ln, g, a, b, e⟩ := serviceSend_shape s (f d) none
    obtain ⟨ln', g', a', b', e'⟩ := ih (serviceSend s (f d) none)
    exact ⟨ln', g', a', b', by rw [List.foldl_cons, e', e]⟩

/-- A firing whose instant has come, no more than one cycle late. -/
theorem fire_due (s : State) (i a : Nat) (x : Sched) (body : State → List Byte → Nat → State) (hx : aget? s.tide.sched i = some x)
    (ha : seAction x.bytes = a) (h1 : cyclesTo s (dueOf x.bytes x.next) ≤ 0) (h2 : -1 ≤ cyclesTo s (dueOf x.bytes x.next)) :
    fire s i a body = body ((fired s i x).bumpTide 5) x.bytes x.next := by
  unfold fire
  simp only [hx]
  rw [if_neg (by simp [ha]; omega), if_neg (by omega)]

theorem lport_done {s x : State} (h : s.stopped = false) (k : Nat) : (done s x).lport k = x.lport k := by
  simp [State.lport, done_links _ _ h]

theorem foldl_id {α β : Type} (f : β → α → β) (l : List α) (s : β) (h : ∀ a ∈ l, ∀ y, f y a = y) : l.foldl f s = s := by
  induction l with
  | nil => rfl
  | cons a l ih => rw [List.foldl_cons, h a (by simp), ih (fun a ha => h a (by simp [ha]))]

theorem digestRoot_tide (s : State) (td : Tide) (a n : Nat) : digestRoot { s with tide := td } a n = digestRoot s a n := by
  have h1 : ∀ a n, ({ s with tide := td } : State).devRead a n = s.devRead a n := fun _ _ => rfl
  have h2 : ∀ a n, ({ s with tide := td } : State).devPoison a n = s.devPoison a n := fun _ _ => rfl
  unfold digestRoot leafHashes leafHash
  simp only [h1, h2]

theorem scr_modScr (s : State) (d e : Nat) (f : Screener → Screener) (h : s.health.scr.length = 4) (hd : d < 4) :
    (s.modScr d f).scr e = if e = d then f (s.scr e) else s.scr e := by
  unfold State.scr State.modScr
  simp only [List.getD_eq_getElem?_getD, List.getElem?_mapIdx]
  by_cases he : e < s.health.scr.length
  · rw [List.getElem?_eq_getElem he]; simp
  · rw [List.getElem?_eq_none (by omega)]
    rw [if_neg (by omega)]; rfl

theorem scr_done {s x : State} (h : s.stopped = false) (d : Nat) : (done s x).scr d = x.scr d := by
  simp [State.scr, done_health _ _ h]

theorem retireTile_shape (s : State) (p rec : Nat) : ∃ l a b, retireTile s p rec =
    { s.setTile p { s.tile p with retired := true, screening := false } with log := l, host := { s.host with vecPending := a, vecSent := b } } := by
  obtain ⟨l, a, b, e⟩ := event_shape (s.modTile p (fun t => { t with retired := true, screening := false })) 0x2301 9 p none (detailOf [(2, p), (2, rec)])
  exact ⟨l, a, b, e⟩

theorem lport_setLport (s : State) (k j : Nat) (x : LinkPort) : (s.setLport k x).lport j = if j = k then x else s.lport j := by
  simp only [State.lport, State.setLport]
  by_cases h : j = k
  · subst h; simp
  · rw [if_neg h]; exact agetD_aput_other _ _ _ _ _ h

theorem lport_modLport (s : State) (k j : Nat) (f : LinkPort → LinkPort) : (s.modLport k f).lport j = if j = k then f (s.lport k) else s.lport j :=
  lport_setLport _ _ _ _

theorem lport_bumpLink (s : State) (k j c n : Nat) : (s.bumpLink k c n).lport j = if j = k then { s.lport k with cnt := bump (s.lport k).cnt c n } else s.lport j :=
  lport_setLport _ _ _ _

theorem lport_adv (s : State) (r k : Nat) : (advance s r).lport k = s.lport k := by simp [State.lport]

theorem setLport_set (s : State) (k : Nat) (x y : LinkPort) : (s.setLport k x).setLport k y = s.setLport k y := by
  simp only [State.setLport, aput_aput]

theorem setLport_self (s : State) (k : Nat) (x : LinkPort) : (s.setLport k x).lport k = x := by rw [lport_setLport, if_pos rfl]

theorem modLport_set (s : State) (k : Nat) (x : LinkPort) (f : LinkPort → LinkPort) : (s.setLport k x).modLport k f = s.setLport k (f x) := by
  unfold State.modLport; rw [setLport_self, setLport_set]

theorem bumpLink_set (s : State) (k c n : Nat) (x : LinkPort) : (s.setLport k x).bumpLink k c n = s.setLport k { x with cnt := bump x.cnt c n } :=
  modLport_set _ _ _ _

theorem port_fin {s : State} {k : Nat} {z : LinkPort} {o : Host.Outcome State Fault Refusal} (hc : Canonical s) (hr : Runs s)
    (ho : o = .next (done s (s.setLport k z))) : ∃ t, o = .next t ∧ Only [.links] s t ∧ t.lport k = z ∧ ∀ j, j ≠ k → t.lport j = s.lport j := by
  refine ⟨_, ho, ?_, ?_, ?_⟩
  · refine still_only hr hc rfl (fun k hk => ?_)
    cases k <;> simp [Kind.same, State.setLport] at hk ⊢
  · rw [lport_done hr, setLport_self]
  · intro j hj; rw [lport_done hr, lport_setLport, if_neg hj]

theorem push_shape (s : State) (q : Nat) (b : TxBundle) (arr : Option Nat) (k : Nat) :
    ∃ ln g v w, pushBundle s q b arr = { s with links := ln, log := g, host := { s.host with vecPending := v, vecSent := w } } ∧
      ((pushBundle s q b arr).lport k).bundleIn = (s.lport k).bundleIn ∧ ((pushBundle s q b arr).lport k).rxBundle = (s.lport k).rxBundle := by
  unfold pushBundle
  split
  · refine ⟨_, s.log, s.host.vecPending, s.host.vecSent, rfl, ?_, ?_⟩
    · rw [lport_modLport]; split <;> simp_all
    · rw [lport_modLport]; split <;> simp_all
  · obtain ⟨ln, g, v, w, e⟩ := linkDrop_shape s 0xFFFF arr 1
    refine ⟨ln, g, v, w, e, ?_⟩
    unfold linkDrop portOnce
    split
    · rw [lport_bumpLink]; split <;> simp_all
    · obtain ⟨l, a, b, e⟩ := event_shape ((s.bumpLink (arr.getD 0) 5 1).modLport (arr.getD 0) (fun x => { x with once := 0x3230 :: x.once })) 0x3230 13 (arr.getD 0) none (detailOf [(2, 0xFFFF), (1, 1)])
      rw [e]
      have : ∀ (z : State) (l : Log) (hh : HostPort), ({ z with log := l, host := hh } : State).lport k = z.lport k := fun _ _ _ => rfl
      rw [this, lport_modLport]
      split
      · rw [lport_bumpLink, if_pos rfl]; simp_all
      · rw [lport_bumpLink]; split <;> simp_all

theorem pushes_shape (l : List Nat) (s : State) (b : TxBundle) (arr : Option Nat) (k : Nat) :
    ∃ ln g v w, l.foldl (fun y q => pushBundle y q b arr) s = { s with links := ln, log := g, host := { s.host with vecPending := v, vecSent := w } } ∧
      ((l.foldl (fun y q => pushBundle y q b arr) s).lport k).bundleIn = (s.lport k).bundleIn ∧ ((l.foldl (fun y q => pushBundle y q b arr) s).lport k).rxBundle = (s.lport k).rxBundle := by
  induction l generalizing s with
  | nil => exact ⟨s.links, s.log, s.host.vecPending, s.host.vecSent, rfl, rfl, rfl⟩
  | cons q l ih =>
    obtain ⟨ln, g, v, w, e, h1, h2⟩ := push_shape s q b arr k
    obtain ⟨ln', g', v', w', e', h1', h2'⟩ := ih (pushBundle s q b arr)
    exact ⟨ln', g', v', w', by rw [List.foldl_cons, e', e], h1'.trans h1, h2'.trans h2⟩

end Sys2Proof.Machine
end

