-- ==== Sys2Proof/Laws/Faults.lean ====
section
/-! SUPPORT. What a fault leaves: the end of every accepted command, the reset of the fabric, a job fault and a device fault. -/

namespace Sys2Proof.Machine

open Sys2Proof.Safety

theorem replyRun_shape (s : State) (r : Run) (x : Reply) : ∃ g, s.replyRun r x = { s with rings := g } := by
  unfold State.replyRun
  split
  · exact ⟨_, rfl⟩
  · split
    · exact ⟨_, rfl⟩
    · exact ⟨s.rings, rfl⟩

theorem replyRuns_shape (f : Run → Reply) (l : List Run) (s : State) :
    ∃ g, l.foldl (fun x r => x.replyRun r (f r)) s = { s with rings := g } := by
  induction l generalizing s with
  | nil => exact ⟨s.rings, rfl⟩
  | cons r l ih =>
    obtain ⟨g, e⟩ := replyRun_shape s r (f r)
    obtain ⟨g', e'⟩ := ih (s.replyRun r (f r))
    exact ⟨g', by rw [List.foldl_cons, e', e]⟩

theorem completes_shape (r : Nat) (f : Cmd → Reply) (l : List Cmd) (s : State) :
    ∃ g, l.foldl (fun y c => y.complete r c (f c)) s = { s with rings := g } := by
  induction l generalizing s with
  | nil => exact ⟨s.rings, rfl⟩
  | cons c l ih =>
    obtain ⟨g', e'⟩ := ih (s.complete r c (f c))
    exact ⟨g', by rw [List.foldl_cons, e']; rfl⟩

theorem completes_empty (r : Nat) (f : Cmd → Reply) (l : List Cmd) (s : State) (h : (s.ring r).accepted = l) :
    ((l.foldl (fun y c => y.complete r c (f c)) s).ring r).accepted = [] := by
  induction l generalizing s with
  | nil => exact h
  | cons c l ih => exact ih _ (by simp [h])

theorem completes_other (r q : Nat) (f : Cmd → Reply) (l : List Cmd) (s : State) (h : q ≠ r) :
    (l.foldl (fun y c => y.complete r c (f c)) s).ring q = s.ring q := by
  induction l generalizing s with
  | nil => rfl
  | cons c l ih => rw [List.foldl_cons, ih, ring_complete_other _ _ _ _ _ h]

theorem ends_shape (f : Cmd → Reply) (l : List Nat) (s : State) :
    ∃ g, l.foldl (fun x r => (x.ring r).accepted.foldl (fun y c => y.complete r c (f c)) x) s = { s with rings := g } := by
  induction l generalizing s with
  | nil => exact ⟨s.rings, rfl⟩
  | cons r l ih =>
    obtain ⟨g, e⟩ := completes_shape r f (s.ring r).accepted s
    obtain ⟨g', e'⟩ := ih ((s.ring r).accepted.foldl (fun y c => y.complete r c (f c)) s)
    exact ⟨g', by rw [List.foldl_cons, e', e]⟩

theorem ends_keep (f : Cmd → Reply) (l : List Nat) (s : State) (q : Nat) (h : (s.ring q).accepted = []) :
    ((l.foldl (fun x r => (x.ring r).accepted.foldl (fun y c => y.complete r c (f c)) x) s).ring q).accepted = [] := by
  induction l generalizing s with
  | nil => exact h
  | cons r l ih =>
    refine ih _ ?_
    by_cases hq : q = r
    · subst hq; exact completes_empty _ f _ s rfl
    · rw [completes_other _ _ f _ s hq]; exact h

theorem ends_empty (f : Cmd → Reply) (l : List Nat) (s : State) (q : Nat) (h : q ∈ l) :
    ((l.foldl (fun x r => (x.ring r).accepted.foldl (fun y c => y.complete r c (f c)) x) s).ring q).accepted = [] := by
  induction l generalizing s with
  | nil => simp at h
  | cons r l ih =>
    rw [List.foldl_cons]
    by_cases hq : q = r
    · subst hq; exact ends_keep f l _ q (completes_empty _ f _ s rfl)
    · exact ih _ (by simpa [hq] using h)

theorem aget?_missing {α : Type} (t : Assoc α) (q : Nat) (h : q ∉ t.map (·.1)) : aget? t q = none := by
  induction t with
  | nil => rfl
  | cons e t ih =>
    obtain ⟨k, v⟩ := e
    simp at h
    simp only [aget?]
    rw [if_neg (by simpa using h.1)]
    split
    · rfl
    · exact ih (by simpa using h.2)

theorem ring_missing (s : State) (q : Nat) (h : q ∉ s.ringNos) : s.ring q = RingSt.reset := by
  unfold State.ring agetD
  rw [aget?_missing s.rings q h]; rfl

theorem aget?_map {α : Type} (t : Assoc α) (f : Nat → α → α) (r : Nat) :
    aget? (t.map (fun e => (e.1, f e.1 e.2))) r = (aget? t r).map (f r) := by
  induction t with
  | nil => rfl
  | cons e t ih =>
    obtain ⟨k, v⟩ := e
    simp only [List.map, aget?]
    by_cases h : r = k
    · subst h; simp
    · have h' : ¬ (r == k) = true := by simpa using h
      rw [if_neg h', if_neg h']
      split
      · rfl
      · exact ih

theorem ring_map_accepted (s y : State) (f : Nat → RingSt → RingSt) (r : Nat) (hy : y.rings = s.rings.map (fun e => (e.1, f e.1 e.2)))
    (hk : ∀ i x, (f i x).accepted = x.accepted) : (y.ring r).accepted = (s.ring r).accepted := by
  unfold State.ring agetD
  rw [hy, aget?_map]
  cases aget? s.rings r
  · rfl
  · exact hk _ _

/-- The end of every accepted command: what it changes, and that no ring has one left. -/
theorem endAccepted_shape (status r0 r1 : Nat) (s : State) :
    ∃ g, endAccepted status r0 r1 (fun _ _ => false) s =
      { s with rings := g, runs := [], saves := [], links := { s.links with forwards := [] },
               health := { s.health with scr := s.health.scr.map Screener.release },
               moves := s.moves.filter (fun m => s.health.scr.any (fun x => x.vacated == some m.logical)),
               units := s.units.map (fun e => (e.1, { e.2 with joined := [], held := [] })) } ∧
      ∀ y : State, y.rings = g → ∀ r, (y.ring r).accepted = [] := by
  obtain ⟨g1, e1⟩ := replyRuns_shape (fun r => r.reply status r0 r1 0) s.runs s
  obtain ⟨g2, e2⟩ := ends_shape (fun c => c.reply status r0 r1 0) ({ s with rings := g1 } : State).ringNos { s with rings := g1 }
  unfold endAccepted
  rw [e1]
  have e3 : ({ s with rings := g1 } : State).ringNos.foldl (fun x r =>
      (x.ring r).accepted.foldl (fun y c => if (fun _ _ => false : Nat → Cmd → Bool) r c then y else y.complete r c (c.reply status r0 r1 0)) x) { s with rings := g1 } =
      { s with rings := g2 } := e2
  dsimp only at e3 ⊢
  rw [e3]
  refine ⟨_, rfl, fun y hy r => ?_⟩
  have h1 : (({ s with rings := g2 } : State).ring r).accepted = [] := by
    have e4 : ({ s with rings := g2 } : State) = ({ s with rings := g1 } : State).ringNos.foldl (fun x r =>
      (x.ring r).accepted.foldl (fun y c => y.complete r c (c.reply status r0 r1 0)) x) { s with rings := g1 } := e2.symm
    rw [e4]
    by_cases hr : r ∈ ({ s with rings := g1 } : State).ringNos
    · exact ends_empty _ _ _ r hr
    · exact ends_keep _ _ _ r (by rw [ring_missing _ _ hr]; rfl)
  rw [ring_map_accepted { s with rings := g2 } y (fun _ x => { x with saving := false }) r hy (fun _ _ => rfl)]
  exact h1

theorem byte_zero_in (m : Memory) (lo n a : Nat) (h : lo ≤ a) (h2 : a < lo + n) : (m.zero lo n).byte a = 0 := by
  have : aget? (m.zero lo n).cells a = none := aget?_filter_none _ _ _ (by intro v; simp; omega)
  unfold Memory.byte agetD
  rw [this]; rfl

theorem aget?_filter_kept {α : Type} (t : Assoc α) (p : Nat × α → Bool) (i : Nat) (hs : asorted t = true)
    (h : ∀ v, p (i, v) = true) : aget? (t.filter p) i = aget? t i := by
  induction t with
  | nil => rfl
  | cons e t ih =>
    obtain ⟨k, v⟩ := e
    have hs' := (asorted_cons (k, v) t).mp hs
    by_cases hk : i = k
    · subst hk
      rw [List.filter_cons_of_pos (h v)]
      simp [aget?]
    · by_cases hp : p (k, v) = true
      · rw [List.filter_cons_of_pos hp]
        simp only [aget?, ih hs'.2]
      · rw [List.filter_cons_of_neg hp, ih hs'.2]
        simp only [aget?]
        rw [if_neg (by simpa using hk)]
        split
        · rename_i hlt
          exact aget?_keysAbove t i k hs'.1 (Nat.le_of_lt hlt)
        · rfl

theorem byte_zero_out (m : Memory) (lo n a : Nat) (hw : m.wf = true) (h : a < lo ∨ lo + n ≤ a) : (m.zero lo n).byte a = m.byte a := by
  have : aget? (m.zero lo n).cells a = aget? m.cells a :=
    aget?_filter_kept _ _ _ (wf_sorted hw) (by intro v; simp; omega)
  unfold Memory.byte agetD
  rw [this]

theorem byte_done {s x : State} (h : s.stopped = false) (hw : x.mem.wf = true) (a : Nat) : (done s x).mem.byte a = x.mem.byte a := by
  rw [done_mem _ _ h, canon_eq _ hw]

/-- What comes before the reset of the fabric in a job fault. -/
theorem jobFaultCore_shape (s1 : State) (code : Nat) (ctx run : Option Nat) (status : Nat) (fl : Nat)
    (hfl : fl = code + (match ctx with | some c => c % 64 * 2 ^ 16 + 2 ^ 22 | none => 0) + 2 ^ 23) :
    ∃ g scr mv us, s1.jobFaultCore code ctx run status =
      ({ s1 with rings := g, runs := [], saves := [], links := { s1.links with forwards := [] }, moves := mv, units := us, health :=
        { s1.health with scr := scr, faultLast := BitVec.ofNat 32 fl, faultTide := s1.tideCount } } : State).resetFabric ∧
      (∀ y : State, y.rings = g → ∀ r, (y.ring r).accepted = []) ∧ (∀ e ∈ g, e.1 < 64 → e.2.halted = true) := by
  have key : ∀ r1 : Nat, ∃ g scr mv us,
      ((endAccepted stJobFault code r1 (fun _ _ => false) (match run.bind ({ s1 with health := { s1.health with faultLast := BitVec.ofNat 32 fl, faultTide := s1.tideCount } } : State).run? with
        | some r => (({ s1 with health := { s1.health with faultLast := BitVec.ofNat 32 fl, faultTide := s1.tideCount } } : State).replyRun r (r.reply status code r1 0)).dropRun r.id
        | none => { s1 with health := { s1.health with faultLast := BitVec.ofNat 32 fl, faultTide := s1.tideCount } })).haltUsers).resetFabric =
      ({ s1 with rings := g, runs := [], saves := [], links := { s1.links with forwards := [] }, moves := mv, units := us, health :=
        { s1.health with scr := scr, faultLast := BitVec.ofNat 32 fl, faultTide := s1.tideCount } } : State).resetFabric ∧
      (∀ y : State, y.rings = g → ∀ r, (y.ring r).accepted = []) ∧ (∀ e ∈ g, e.1 < 64 → e.2.halted = true) := by
    intro r1
    let s2 : State := { s1 with health := { s1.health with faultLast := BitVec.ofNat 32 fl, faultTide := s1.tideCount } }
    have h3 : ∃ g rn, (match run.bind s2.run? with
        | some r => (s2.replyRun r (r.reply status code r1 0)).dropRun r.id
        | none => s2) = { s2 with rings := g, runs := rn } := by
      split
      · rename_i r _
        obtain ⟨g, e⟩ := replyRun_shape s2 r (r.reply status code r1 0)
        exact ⟨g, _, by rw [e]; rfl⟩
      · exact ⟨s2.rings, s2.runs, rfl⟩
    obtain ⟨g, rn, e3⟩ := h3
    obtain ⟨g', e4, h4⟩ := endAccepted_shape stJobFault code r1 { s2 with rings := g, runs := rn }
    rw [e3, e4]
    refine ⟨_, _, _, _, rfl, fun y hy r => ?_, fun e he hlt => ?_⟩
    · have := h4 ({ s1 with rings := g' } : State) rfl r
      rw [ring_map_accepted { s1 with rings := g' } y (fun i x => if i < 64 then { x with halted := true } else x) r ?_ ?_]
      · exact this
      · rw [hy]; refine List.map_congr_left (fun e _ => ?_)
        split <;> rfl
      · intro i x; split <;> rfl
    · obtain ⟨a, ha, rfl⟩ := List.mem_map.mp he
      split
      · rfl
      · rename_i h; split at hlt <;> simp_all
  cases ctx with
  | none =>
    unfold State.jobFaultCore
    dsimp only at hfl ⊢
    rw [← hfl]
    exact key 0
  | some c =>
    unfold State.jobFaultCore
    dsimp only at hfl ⊢
    rw [← hfl]
    exact key _

/-- The reset of the fabric of a state that keeps what the reset reads, with no command left. -/
theorem sweeps {s x : State} (hr : s.stopped = false) (hc : s.mem.wf = true) (g : Assoc RingSt) (hm : x.mem = s.mem)
    (hg : x.gauges = s.gauges) (htd : x.tide.sched = s.tide.sched) (hms : x.ms.units = s.ms.units ∧ x.ms.segs = s.ms.segs)
    (hf : x.links.forwards = []) (ha : ∀ y : State, y.rings = g → ∀ r, (y.ring r).accepted = [])
    (hh : ∀ e ∈ g, e.1 < 64 → e.2.halted = true) : Swept s (done s { x.resetFabric with rings := g }) := by
  have hw : (x.mem.zero 0 (1088 * 2 ^ 24)).wf = true := zero_wf _ _ _ (by rw [hm]; exact hc)
  constructor
  · intro r; exact ha _ (done_rings _ _ hr) r
  · rw [done_rings _ _ hr]; exact hh
  · intro a ha
    rw [byte_done hr hw]
    exact byte_zero_in _ _ _ _ (Nat.zero_le _) (by omega)
  · intro a ha
    rw [byte_done hr hw]
    refine (byte_zero_out x.mem _ _ _ (by rw [hm]; exact hc) (by omega)).trans (by rw [hm])
  · rw [done_runs _ _ hr, done_saves _ _ hr, done_images _ _ hr, done_census _ _ hr, done_trees _ _ hr, done_owners _ _ hr, done_links _ _ hr]
    exact ⟨rfl, rfl, rfl, rfl, rfl, rfl, hf⟩
  · rw [done_gauges _ _ hr, ← hg]; rfl
  · rw [done_ms _ _ hr]; exact ⟨rfl, rfl, rfl, hms.1, hms.2⟩
  · rw [done_ms _ _ hr]; exact ⟨rfl, rfl, rfl⟩
  · rw [done_tide _ _ hr, ← htd]; rfl

theorem sweeps_self {s x : State} (hr : s.stopped = false) (hc : s.mem.wf = true) (hm : x.mem = s.mem)
    (hg : x.gauges = s.gauges) (htd : x.tide.sched = s.tide.sched) (hms : x.ms.units = s.ms.units ∧ x.ms.segs = s.ms.segs)
    (hf : x.links.forwards = []) (ha : ∀ y : State, y.rings = x.rings → ∀ r, (y.ring r).accepted = [])
    (hh : ∀ e ∈ x.rings, e.1 < 64 → e.2.halted = true) : Swept s (done s x.resetFabric) :=
  sweeps hr hc x.rings hm hg htd hms hf ha hh

/-- What a job fault leaves. -/
theorem jobFault_leaves {s b : State} (hr : s.stopped = false) (hc : s.mem.wf = true) (code kind index : Nat) (ctx run : Option Nat)
    (status : Nat) (d : List Byte) (h0 : Health) (hb : b = { s with health := h0 }) :
    Faulted s (done s (b.jobFault code kind index ctx run status d)) code ctx := by
  obtain ⟨l, v, w, e⟩ := event_shape b code kind index ctx d
  obtain ⟨g, scr, mv, us, ec, h1, h2⟩ := jobFaultCore_shape (b.event code kind index ctx d) code ctx run status _ rfl
  have hj : b.jobFault code kind index ctx run status d = (b.event code kind index ctx d).jobFaultCore code ctx run status := rfl
  subst hb
  rw [hj, ec, e]
  clear hj ec e
  constructor
  · rw [done_health _ _ hr]; rfl
  · rw [done_health _ _ hr]; rfl
  · exact sweeps_self hr hc rfl rfl rfl ⟨rfl, rfl⟩ rfl h1 h2
  · refine done_only hr hc (by simp [sweptKinds]) (fun k hk => ?_)
    cases k <;> simp [sweptKinds, Kind.same, State.resetFabric] at hk ⊢

/-- What a device fault leaves while the command processor runs. -/
theorem deviceFault_leaves {s b : State} (hr : s.stopped = false) (code kind index : Nat) (d : List Byte)
    (hd : b.devFault = s.devFault ∧ b.ready = s.ready ∧ b.power = s.power) :
    DeviceFaulted s (done s (b.deviceFault code kind index true d)) code := by
  obtain ⟨l, v, w, e⟩ := event_shape b code kind index none d
  obtain ⟨g, e2, h2⟩ := endAccepted_shape stDeviceFault 0 0 (b.event code kind index none d)
  have hj : b.deviceFault code kind index true d = { endAccepted stDeviceFault 0 0 (fun _ _ => false) (b.event code kind index none d) with
    devFault := true
    power := { (endAccepted stDeviceFault 0 0 (fun _ _ => false) (b.event code kind index none d)).power with faultN := true, level := 0, lastFault := code }
    rings := (endAccepted stDeviceFault 0 0 (fun _ _ => false) (b.event code kind index none d)).rings.map (fun e => (e.1, { e.2 with halted := true })) } := by
    unfold State.deviceFault
    simp
  rw [hj, e2, e]
  obtain ⟨hd1, hd2, hd3⟩ := hd
  constructor
  · rw [done_devFault _ _ hr, done_ready _ _ hr]; exact ⟨rfl, hd2⟩
  · rw [done_power _ _ hr]; simp [hd3]
  · intro r
    rw [ring_map_accepted { s with rings := g } _ (fun i x => { x with halted := true }) r (done_rings _ _ hr) (fun _ _ => rfl)]
    exact h2 _ rfl r
  · rw [done_rings _ _ hr]
    intro e he
    obtain ⟨a, ha, rfl⟩ := List.mem_map.mp he
    rfl

/-- The counts of silent errors that a job fault keeps. -/
theorem jobFault_sdc {s b : State} (hr : s.stopped = false) (code kind index : Nat) (ctx run : Option Nat) (status : Nat) (d : List Byte) :
    (done s (b.jobFault code kind index ctx run status d)).health.sdc = b.health.sdc := by
  obtain ⟨l, v, w, e⟩ := event_shape b code kind index ctx d
  obtain ⟨g, scr, mv, us, ec, _, _⟩ := jobFaultCore_shape (b.event code kind index ctx d) code ctx run status _ rfl
  have hj : b.jobFault code kind index ctx run status d = (b.event code kind index ctx d).jobFaultCore code ctx run status := rfl
  rw [done_health _ _ hr, hj, ec, e]; rfl

theorem munit_of {a b : State} (h : a.ms = b.ms) (n : Nat) : a.munit n = b.munit n := by simp [State.munit, h]

theorem unit_set (s : State) (c i d j : Nat) (x : UnitSt) : (s.setUnit c i x).unitSt d j = if 256 * d + j = 256 * c + i then x else s.unitSt d j := by
  simp only [State.unitSt, State.setUnit]
  by_cases h : 256 * d + j = 256 * c + i
  · rw [if_pos h, h]; simp [agetD]
  · rw [if_neg h]; exact agetD_aput_other _ _ _ _ _ h

theorem unit_adv (s : State) (r c i : Nat) : (advance s r).unitSt c i = s.unitSt c i := by simp [State.unitSt]

theorem unit_done {s x : State} (h : s.stopped = false) (c i : Nat) : (done s x).unitSt c i = x.unitSt c i := by simp [State.unitSt, done_units _ _ h]

theorem present_adv (s : State) (r c i : Nat) : unitPresent (advance s r) c i = unitPresent s c i := by
  obtain ⟨g,x,y,e⟩ := advance_shape s r; rw [e]; rfl

theorem smallest_congr {s t : State} (h1 : t.part = s.part) (h2 : t.units = s.units) (h3 : t.ms.units = s.ms.units) (h4 : t.tiles = s.tiles) : smallestSet t = smallestSet s := by
  unfold smallestSet State.dies State.unitOn dieHealthy soundTile State.memOn State.unitOn State.unitSt State.munit State.tile
  rw [h1, h2, h3, h4]

theorem level_congr {s t : State} (h1 : t.part = s.part) (h2 : t.units = s.units) (h3 : t.ms.units = s.ms.units) (h4 : t.tiles = s.tiles) : unitLevel t = unitLevel s := by
  unfold unitLevel
  rw [smallest_congr h1 h2 h3 h4]
  unfold State.dies State.nstacks State.memOn State.unitOn State.unitSt State.munit
  rw [h1, h2, h3]

theorem munits_adv (l : List Nat) (s : State) (g : Assoc RingSt) (h : HostPort) (f : MemUnit → MemUnit) :
    l.foldl (fun x u => x.setMunit u (f (x.munit u))) { s with rings := g, host := h } =
      { l.foldl (fun x u => x.setMunit u (f (x.munit u))) s with rings := g, host := h } := by
  induction l generalizing s with
  | nil => rfl
  | cons u l ih => exact ih (s.setMunit u (f (s.munit u)))

theorem busy_adv (s : State) (r c i : Nat) : disableBusy (advance s r) c i = disableBusy s c i := by
  obtain ⟨g, x, y, e⟩ := advance_shape s r
  have h2 : smallestSet (without (advance s r) c i) = smallestSet (without s c i) := by
    rw [e]
    have h := munits_adv ((List.range 8).filter (fun u => c == 1 && u == i || (s.unitSt 1 u).phase == .disabling))
      (s.setUnit c i { s.unitSt c i with phase := .disabled }) g { s.host with snooped := x, hostLines := y } (fun m => { m with trained := false })
    have h' : without { s with rings := g, host := { s.host with snooped := x, hostLines := y } } c i =
        { without s c i with rings := g, host := { s.host with snooped := x, hostLines := y } } := h
    rw [h']; rfl
  unfold disableBusy
  rw [h2]; simp

theorem reply_one (s : State) (f : Nat → Nat) (r0 r : Nat) (k : Cmd) : unitReply s f r0 [(r, k)] = s.complete r k (k.reply (f (k.aux.headD 0)) r0 0 0) := rfl

theorem held_none (s : State) (c i : Nat) (on : Bool) : startHeld s c i on [] = s := by
  unfold startHeld; rfl

theorem step_plain (s : State) (ph : Nat) (h1 : s.tide.stepTo = none) (h2 : s.tide.jump = none) :
    tideStep s ph = { s with
      tideCount := s.tideCount + 1
      tidePhase := ph
      tide := { s.tide with jump := none, stepTo := none, corr := s.tide.corrNext, corrNext := 0, meas := s.tide.now - s.tide.ticked, ticked := s.tide.now, pulses := s.tide.pulses + b2n s.tide.outEn } } := by
  have hn : BitVec.ofNat 64 ((s.tideCount.toNat + 1) % 2 ^ 64) = s.tideCount + 1 := by
    apply BitVec.eq_of_toNat_eq
    simp [BitVec.toNat_add]
  unfold tideStep countAfter
  rw [h2, h1]
  dsimp only [Option.isSome]
  simp only [Bool.false_eq_true, if_false]
  rw [hn]

theorem openLanes_get (x : LinkPort) (L u l : Nat) (hl : l < 3) (hb : bitOf L l = true) :
    aget? (openLanes x L u).windows l = some (max u (agetD x.windows l 0)) := by
  have gen : ∀ (ls : List Nat) (y : LinkPort), ls.Nodup → l ∈ ls →
      aget? (ls.foldl (fun y l => if bitOf L l then { y with windows := aput y.windows l (max u (agetD y.windows l 0)) } else y) y).windows l = some (max u (agetD y.windows l 0)) := by
    have keep : ∀ (ls : List Nat) (y : LinkPort), l ∉ ls → aget? (ls.foldl (fun y l => if bitOf L l then { y with windows := aput y.windows l (max u (agetD y.windows l 0)) } else y) y).windows l = aget? y.windows l := by
      intro ls
      induction ls with
      | nil => intro y _; rfl
      | cons a ls ih =>
        intro y h
        simp at h
        rw [List.foldl_cons, ih _ h.2]
        split
        · exact aget?_aput_other _ _ _ _ h.1
        · rfl
    intro ls
    induction ls with
    | nil => intro y _ h; simp at h
    | cons a ls ih =>
      intro y hn h
      simp at hn
      rw [List.foldl_cons]
      by_cases ha : l = a
      · subst ha
        rw [keep ls _ hn.1, if_pos hb]
        exact aget?_aput_self _ _ _
      · rw [ih _ hn.2 (by simpa [ha] using h)]
        split
        · simp only [agetD_aput_other _ _ _ _ _ ha]
        · rfl
  exact gen (List.range 3) x List.nodup_range (by simpa using hl)

theorem windows_fold (e : List Byte) (ls : List Nat) (s : State) (hn : ls.Nodup) :
    ∃ ln, ls.foldl (fun y k => y.modLport k (fun x => openLanes x (leAt e 29 1) (y.clk + leAt e 32 4))) s = { s with links := ln } ∧
      ∀ j, ({ s with links := ln } : State).lport j = if j ∈ ls then openLanes (s.lport j) (leAt e 29 1) (s.clk + leAt e 32 4) else s.lport j := by
  induction ls generalizing s with
  | nil => exact ⟨s.links, rfl, fun j => by simp⟩
  | cons k ls ih =>
    obtain ⟨ln, e1, h1⟩ := ih (s.modLport k (fun x => openLanes x (leAt e 29 1) (s.clk + leAt e 32 4))) (List.nodup_cons.mp hn).2
    refine ⟨ln, by rw [List.foldl_cons, e1]; rfl, fun j => ?_⟩
    have h2 := h1 j
    have hk := (List.nodup_cons.mp hn).1
    refine (show _ = _ from h2).trans ?_
    rw [lport_modLport]
    by_cases hj : j = k
    · subst hj
      rw [if_neg hk, if_pos rfl, if_pos (by simp)]
    · by_cases hm : j ∈ ls
      · rw [if_pos hm, if_neg hj, if_pos (by simp [hm])]; rfl
      · rw [if_neg hm, if_neg hj, if_neg (by simp [hm, hj])]

/-- Every ring's head and tail stand. -/
abbrev HeadsStand (s t : State) : Prop := ∀ r, (t.ring r).head = (s.ring r).head ∧ (t.ring r).tail = (s.ring r).tail

theorem heads_complete (s : State) (r : Nat) (c : Cmd) (x : Reply) : HeadsStand s (s.complete r c x) := by
  intro q
  by_cases h : q = r
  · subst h; simp
  · rw [ring_complete_other _ _ _ _ _ h]; exact ⟨rfl, rfl⟩

theorem heads_replyRun (s : State) (r : Run) (x : Reply) : HeadsStand s (s.replyRun r x) := by
  unfold State.replyRun
  split
  · exact heads_complete _ _ _ _
  · split
    · intro q
      by_cases h : q = r.ring
      · subst h; simp
      · rw [ring_reply_other _ _ _ _ h]; exact ⟨rfl, rfl⟩
    · intro q; exact ⟨rfl, rfl⟩

theorem heads_trans {s t u : State} (h : HeadsStand s t) (g : HeadsStand t u) : HeadsStand s u :=
  fun r => ⟨(g r).1.trans (h r).1, (g r).2.trans (h r).2⟩

theorem heads_fold {α : Type} (f : State → α → State) (hf : ∀ s a, HeadsStand s (f s a)) (l : List α) (s : State) : HeadsStand s (l.foldl f s) := by
  induction l generalizing s with
  | nil => intro r; exact ⟨rfl, rfl⟩
  | cons a l ih => exact heads_trans (hf s a) (ih _)

theorem heads_map (s y : State) (f : Nat → RingSt → RingSt) (hy : y.rings = s.rings.map (fun e => (e.1, f e.1 e.2)))
    (hk : ∀ i x, (f i x).head = x.head ∧ (f i x).tail = x.tail) : HeadsStand s y := by
  intro r
  unfold State.ring agetD
  rw [hy, aget?_map]
  cases aget? s.rings r
  · exact ⟨rfl, rfl⟩
  · exact hk _ _

theorem endAccepted_heads (status r0 r1 : Nat) (s : State) : HeadsStand s (endAccepted status r0 r1 (fun _ _ => false) s) := by
  have h1 : HeadsStand s (s.runs.foldl (fun x r => x.replyRun r (r.reply status r0 r1 0)) s) :=
    heads_fold _ (fun x r => heads_replyRun x r _) s.runs s
  have h2 : ∀ (l : List Nat) (x : State), HeadsStand x (l.foldl (fun x r => (x.ring r).accepted.foldl (fun y c =>
      if (fun _ _ => false : Nat → Cmd → Bool) r c then y else y.complete r c (c.reply status r0 r1 0)) x) x) := by
    intro l x
    refine heads_fold _ (fun x r => heads_fold _ (fun y c => ?_) _ _) l x
    split
    · exact fun q => ⟨rfl, rfl⟩
    · exact heads_complete _ _ _ _
  have h3 := heads_trans h1 (h2 (s.runs.foldl (fun x r => x.replyRun r (r.reply status r0 r1 0)) s).ringNos _)
  exact heads_trans h3 (heads_map _ (endAccepted status r0 r1 (fun _ _ => false) s) (fun _ x => { x with saving := false }) rfl (fun _ _ => ⟨rfl, rfl⟩))

theorem haltUsers_heads (s : State) : HeadsStand s s.haltUsers := by
  refine heads_map s s.haltUsers (fun i x => if i < 64 then { x with halted := true } else x) ?_ (fun i x => by split <;> exact ⟨rfl, rfl⟩)
  refine List.map_congr_left (fun e _ => ?_)
  split <;> rfl

end Sys2Proof.Machine
end

