-- ==== Sys2Proof/Laws/Engines.lean ====
section
/-! SUPPORT. What the operations of the engines can do (04, 05, 10): tiles as maps, the bodies of the engines, and the
completion of an operation. -/

namespace Sys2Proof.Laws

open Sys2Proof.Machine Sys2Proof.Safety

/-! ## Streams -/

theorem tile_modTile_self (s : State) (p : Nat) (f : Tile → Tile) : (s.modTile p f).tile p = f (s.tile p) := by
  rw [tile_modTile, if_pos rfl]

theorem tile_modTile_other (s : State) (p q : Nat) (f : Tile → Tile) (h : q ≠ p) : (s.modTile p f).tile q = s.tile q := by
  rw [tile_modTile, if_neg h]

/-- The kinds of state that an operation touches before it completes. -/
def engineKinds : List Kind := [.mem, .tiles, .log, .vectors, .snoops]

/-- What the body of an operation keeps of its tile. -/
structure Keeps (y z : Tile) : Prop where
  still : Untouched y z
  queues : z.queues = y.queues
  seq : z.seq = y.seq
  basins : z.basins = y.basins

theorem untouched_refl (y : Tile) : Untouched y y := ⟨⟨rfl, rfl, rfl⟩, ⟨rfl, rfl⟩, ⟨rfl, rfl, rfl, rfl⟩, ⟨rfl, List.Sublist.refl _, rfl, rfl⟩⟩

theorem untouched_trans {x y z : Tile} (h : Untouched x y) (g : Untouched y z) : Untouched x z := by
  obtain ⟨⟨a1, a2, a3⟩, ⟨b1, b2⟩, ⟨c1, c2, c3, c4⟩, d1, d2, d3, d4⟩ := h
  obtain ⟨⟨e1, e2, e3⟩, ⟨f1, f2⟩, ⟨g1, g2, g3, g4⟩, h1, h2, h3, h4⟩ := g
  exact ⟨⟨e1.trans a1, e2.trans a2, e3.trans a3⟩, ⟨f1.trans b1, f2.trans b2⟩, ⟨g1.trans c1, g2.trans c2, g3.trans c3, g4.trans c4⟩,
    h1.trans d1, h2.trans d2, h3.trans d3, h4.trans d4⟩

theorem keeps_refl (y : Tile) : Keeps y y := ⟨untouched_refl y, rfl, rfl, rfl⟩

theorem keeps_trans {x y z : Tile} (h : Keeps x y) (g : Keeps y z) : Keeps x z :=
  ⟨untouched_trans h.still g.still, g.queues.trans h.queues, g.seq.trans h.seq, g.basins.trans h.basins⟩

/-- t follows s by work of tile p that writes inside W only. -/
structure Acts (p : Nat) (W : Nat → Prop) (s t : State) : Prop where
  only : Only engineKinds s t
  wf : s.mem.wf = true → t.mem.wf = true
  self : Keeps (s.tile p) (t.tile p)
  others : ∀ q, q ≠ p → t.tile q = s.tile q
  bytes : s.mem.wf = true → ∀ x, ¬ W x → t.mem.byte x = s.mem.byte x

theorem only_refl (l : List Kind) (s : State) : Only l s s := ⟨rfl, rfl, fun k _ => same_refl k s⟩

theorem only_trans {l : List Kind} {a b c : State} (h : Only l a b) (g : Only l b c) : Only l a c :=
  ⟨g.1.trans h.1, g.2.1.trans h.2.1, fun k hk => same_trans (h.2.2 k hk) (g.2.2 k hk)⟩

theorem acts_refl (p : Nat) (W : Nat → Prop) (s : State) : Acts p W s s :=
  ⟨only_refl _ s, id, keeps_refl _, fun _ _ => rfl, fun _ _ _ => rfl⟩

theorem acts_trans {p : Nat} {W : Nat → Prop} {a b c : State} (h : Acts p W a b) (g : Acts p W b c) : Acts p W a c :=
  ⟨only_trans h.only g.only, fun w => g.wf (h.wf w), keeps_trans h.self g.self, fun q hq => (g.others q hq).trans (h.others q hq),
    fun w x hx => (g.bytes (h.wf w) x hx).trans (h.bytes w x hx)⟩

theorem acts_weaken {p : Nat} {W V : Nat → Prop} {a b : State} (hv : ∀ x, W x → V x) (h : Acts p W a b) : Acts p V a b :=
  ⟨h.only, h.wf, h.self, h.others, fun w x hx => h.bytes w x (fun e => hx (hv x e))⟩

theorem acts_modTile {p : Nat} (W : Nat → Prop) (s : State) (f : Tile → Tile) (hf : Keeps (s.tile p) (f (s.tile p))) :
    Acts p W s (s.modTile p f) := by
  refine ⟨⟨rfl, rfl, fun k hk => ?_⟩, id, by rw [tile_modTile_self]; exact hf, fun q hq => tile_modTile_other s p q f hq, fun _ _ _ => rfl⟩
  cases k <;> simp [engineKinds, Kind.same, State.modTile, State.setTile] at hk ⊢

theorem acts_event (p : Nat) (W : Nat → Prop) (s : State) (code kind index : Nat) (ctx : Option Nat) (d : List Byte) :
    Acts p W s (s.event code kind index ctx d) := by
  obtain ⟨g, a, b, e⟩ := event_shape s code kind index ctx d
  rw [e]
  refine ⟨⟨rfl, rfl, fun k hk => ?_⟩, id, keeps_refl _, fun _ _ => rfl, fun _ _ _ => rfl⟩
  cases k <;> simp [engineKinds, Kind.same] at hk ⊢

theorem acts_unitEvent (p : Nat) (W : Nat → Prop) (s : State) (q u code : Nat) (d : List Byte) : Acts p W s (s.unitEvent q u code d) :=
  acts_event p W s _ _ _ _ _

theorem acts_foldl {α : Type} {p : Nat} {W : Nat → Prop} (f : State → α → State) (l : List α) (s : State) (I : State → Prop)
    (hi : I s) (hf : ∀ x a, a ∈ l → I x → Acts p W x (f x a) ∧ I (f x a)) : Acts p W s (l.foldl f s) ∧ I (l.foldl f s) := by
  induction l generalizing s with
  | nil => exact ⟨acts_refl p W s, hi⟩
  | cons a l ih =>
    have h1 := hf s a (by simp) hi
    have h2 := ih (f s a) h1.2 (fun x b hb => hf x b (by simp [hb]))
    exact ⟨acts_trans h1.1 h2.1, h2.2⟩

/-- A fold whose every step acts within W where the tile is as it was in the first state. -/
theorem acts_fold {α : Type} {p : Nat} {W : Nat → Prop} (f : State → α → State) (l : List α) (s : State)
    (hf : ∀ x a, a ∈ l → Keeps (s.tile p) (x.tile p) → Acts p W x (f x a)) : Acts p W s (l.foldl f s) :=
  (acts_foldl f l s (fun x => Keeps (s.tile p) (x.tile p)) (keeps_refl _)
    (fun x a ha hk => ⟨hf x a ha hk, keeps_trans hk (hf x a ha hk).self⟩)).1

theorem place_keeps {s x : State} {p : Nat} (h : Keeps (s.tile p) (x.tile p)) (swaps : Nat) (st : Stream) (a : Int) :
    streamPlace x p swaps st a = streamPlace s p swaps st a := by
  unfold streamPlace streamAddr origin Tile.half Tile.basinDecl Tile.basin Tile.cfgNum Tile.cfgBytes
  rw [h.still.config.1, h.basins]

theorem byte_put_write (m : Memory) (o x : Nat) (xs : List Byte) (w bad : Bool) (h : m.wf = true) (hx : x < o ∨ o + xs.length ≤ x) :
    (if w || bad then m.write o xs bad else m.putBytes o xs).byte x = m.byte x := by
  split
  · exact byte_write_other m o x xs bad h hx
  · exact byte_putBytes_other xs m o x h hx

theorem byte_put_in (m : Memory) (o i : Nat) (xs : List Byte) (w bad : Bool) (h : m.wf = true) (hi : i < xs.length) :
    (if w || bad then m.write o xs bad else m.putBytes o xs).byte (o + i) = xs[i] := by
  split
  · rw [byte_write, byte_putBytes_in xs m o i h hi]
  · exact byte_putBytes_in xs m o i h hi

theorem wf_put_write (m : Memory) (o : Nat) (xs : List Byte) (w bad : Bool) (h : m.wf = true) :
    (if w || bad then m.write o xs bad else m.putBytes o xs).wf = true := by
  split
  · exact write_wf m o xs bad h
  · exact putBytes_wf m o xs h

/-- The first byte and the length of what the addresses of a stream wrap in (R56). -/
def wrapBase (t : Tile) (st : Stream) : Nat := if st.mode == 1 then declBase (t.basinDecl st.sel) else 0
def wrapSize (t : Tile) (st : Stream) : Nat := if st.mode == 1 then declSize (t.basinDecl st.sel) else 2 ^ 24

theorem wrapSize_ge (t : Tile) (st : Stream) : 4096 ≤ wrapSize t st := by
  unfold wrapSize declSize
  split
  · have := Nat.two_pow_pos (fld (leAt (t.basinDecl st.sel) 3 1) 0 4)
    omega
  · decide

/-- A stream address as an offset that wraps. -/
theorem streamAddr_mod (t : Tile) (swaps : Nat) (st : Stream) : ∃ o : Int,
    ∀ a, streamAddr t swaps st a = wrapBase t st + ((o + a) % Int.ofNat (wrapSize t st)).toNat := by
  unfold streamAddr wrapBase wrapSize
  split
  · exact ⟨Int.ofNat (t.basin st.sel).head, fun a => rfl⟩
  · refine ⟨Int.ofNat (origin t swaps st), fun a => ?_⟩
    unfold wrapInt
    generalize Int.ofNat (origin t swaps st) + a = v
    have e : Int.ofNat (2 ^ 32) = 4294967296 := by decide
    have e2 : Int.ofNat (2 ^ 24) = 16777216 := by decide
    rw [e, e2]
    omega

theorem streamRuns_eq (t : Tile) (swaps : Nat) (st : Stream) (a : Int) (n : Nat) :
    streamRuns t swaps st a n =
      (List.range ((streamAddr t swaps st a - wrapBase t st + n - 1) / wrapSize t st + 1)).map (fun k =>
        (max (streamAddr t swaps st a - wrapBase t st) (k * wrapSize t st) - (streamAddr t swaps st a - wrapBase t st),
         wrapBase t st + max (streamAddr t swaps st a - wrapBase t st) (k * wrapSize t st) - k * wrapSize t st,
         min (streamAddr t swaps st a - wrapBase t st + n) ((k + 1) * wrapSize t st) -
           max (streamAddr t swaps st a - wrapBase t st) (k * wrapSize t st))) := rfl

/-- The bytes of a run are those of the stream from the run's first on. -/
theorem run_place {t : Tile} {swaps : Nat} {st : Stream} {a : Int} {n : Nat} {r : Nat × Nat × Nat} (h : r ∈ streamRuns t swaps st a n)
    {j : Nat} (hj : j < r.2.2) : r.1 + j < n ∧ r.2.1 + j = streamAddr t swaps st (a + Int.ofNat (r.1 + j)) := by
  obtain ⟨org, he⟩ := streamAddr_mod t swaps st
  have hM := wrapSize_ge t st
  rw [streamRuns_eq] at h
  obtain ⟨k, hk, rfl⟩ := List.mem_map.mp h
  rw [he] at hj ⊢
  generalize wrapBase t st = c at *
  generalize hS : wrapSize t st = M at *
  generalize hO : ((org + a) % Int.ofNat M).toNat = o at *
  have e1 : c + o - c = o := by omega
  simp only [e1] at hj ⊢
  have hm : (k + 1) * M = k * M + M := by rw [Nat.succ_mul]
  refine ⟨by omega, ?_⟩
  rw [he]
  have h0 : (org + a) % (M : Int) = (o : Int) := by
    have h1 := Int.emod_nonneg (org + a) (show (M : Int) ≠ 0 by omega)
    have h2 : ((org + a) % (M : Int)).toNat = o := hO
    omega
  generalize hL : max o (k * M) = lo at *
  have h3 : (org + (a + Int.ofNat (lo - o + j))) % (Int.ofNat M) = ((lo + j - k * M : Nat) : Int) := by
    have e2 : org + (a + Int.ofNat (lo - o + j)) = org + a + ((lo - o + j : Nat) : Int) := by
      rw [← Int.add_assoc]; rfl
    rw [e2, show Int.ofNat M = (M : Int) from rfl, ← Int.emod_add_emod, h0]
    have e3 : ((o : Int) + ((lo - o + j : Nat) : Int)) = ((lo + j : Nat) : Int) := by omega
    rw [e3, ← Int.natCast_emod]
    congr 1
    have e4 : lo + j = (lo + j - k * M) + M * k := by rw [Nat.mul_comm M k]; omega
    rw [e4, Nat.add_mul_mod_self_left, Nat.mul_comm M k, Nat.add_sub_cancel]
    exact Nat.mod_eq_of_lt (by omega)
  rw [h3]
  omega

/-- Every byte lies in a run. -/
theorem run_covers (t : Tile) (swaps : Nat) (st : Stream) (a : Int) {n i : Nat} (hi : i < n) :
    ∃ r ∈ streamRuns t swaps st a n, r.1 ≤ i ∧ i < r.1 + r.2.2 := by
  have hM := wrapSize_ge t st
  rw [streamRuns_eq]
  generalize streamAddr t swaps st a - wrapBase t st = o
  generalize wrapBase t st = c
  generalize wrapSize t st = M at *
  refine ⟨_, List.mem_map.mpr ⟨(o + i) / M, List.mem_range.mpr ?_, rfl⟩, ?_⟩
  · have := Nat.div_le_div_right (c := M) (show o + i ≤ o + n - 1 by omega)
    omega
  · have h1 := Nat.div_add_mod (o + i) M
    have h2 := Nat.mod_lt (o + i) (show 0 < M by omega)
    have h3 : ((o + i) / M + 1) * M = (o + i) / M * M + M := Nat.succ_mul _ _
    have h4 : M * ((o + i) / M) = (o + i) / M * M := Nat.mul_comm _ _
    dsimp only
    generalize (o + i) / M * M = q at *
    omega

theorem ite_prop {α : Type} {P : α → Prop} {c : Prop} [Decidable c] {a b : α} (ha : c → P a) (hb : ¬ c → P b) : P (if c then a else b) := by
  split
  · rename_i h; exact ha h
  · rename_i h; exact hb h

theorem keeps_lists {y : Tile} {w l : List Nat} (h : w.Sublist y.wbPending) : Keeps y { y with wbPending := w, localList := l } :=
  ⟨⟨⟨rfl, rfl, rfl⟩, ⟨rfl, rfl⟩, ⟨rfl, rfl, rfl, rfl⟩, ⟨rfl, h, rfl, rfl⟩⟩, rfl, rfl, rfl⟩

/-- A tile's note of the words written changes nothing else. -/
theorem acts_wrote (p : Nat) (W : Nat → Prop) (s : State) (l w : List Nat) : Acts p W s (s.wrote p l w) := by
  unfold State.wrote
  dsimp only
  exact ite_prop (P := Acts p W s) (fun _ => acts_modTile W s _ (keeps_lists List.filter_sublist)) (fun _ => acts_refl p W s)

theorem wrote_mem (s : State) (p : Nat) (l w : List Nat) : (s.wrote p l w).mem = s.mem := by
  obtain ⟨tl, h⟩ := wrote_shape s p l w
  rw [h]

/-- A change of memory inside W. -/
theorem acts_mem {p : Nat} {W : Nat → Prop} {s : State} {m : Memory} (h : s.mem.wf = true → m.wf = true ∧ ∀ x, ¬ W x → m.byte x = s.mem.byte x) :
    Acts p W s { s with mem := m } := by
  refine ⟨⟨rfl, rfl, fun k hk => ?_⟩, fun wf => (h wf).1, keeps_refl _, fun _ _ => rfl, fun wf => (h wf).2⟩
  cases k <;> simp [engineKinds, Kind.same] at hk ⊢

/-- A write at a stream address changes no byte but those it names (R56, R153). -/
theorem acts_write {p : Nat} (s : State) (swaps : Nat) (st : Stream) (a : Int) (bs : List Byte) (bad : Bool) (W : Nat → Prop)
    (hw : ∀ i, i < bs.length → W (streamPlace s p swaps st (a + Int.ofNat i))) : Acts p W s (writeStream s p swaps st a bs bad) := by
  unfold writeStream
  refine acts_fold _ _ s (fun x r hr _ => ?_)
  refine acts_trans (acts_mem (fun wf => ⟨wf_put_write _ _ _ _ _ wf, fun y hy => byte_put_write _ _ _ _ _ _ wf ?_⟩)) (acts_wrote p W _ _ _)
  by_cases h1 : y < tileBase p + r.2.1
  · exact .inl h1
  · refine .inr (Nat.le_of_not_lt (fun h2 => hy ?_))
    have hl : ((bs.drop r.1).take r.2.2).length ≤ r.2.2 := by simp
    obtain ⟨g1, g2⟩ := run_place hr (j := y - (tileBase p + r.2.1)) (by omega)
    have := hw _ g1
    unfold streamPlace at this
    rw [← g2] at this
    have e : tileBase p + (r.2.1 + (y - (tileBase p + r.2.1))) = y := by omega
    rwa [e] at this

/-! ## Parts of the bodies -/

theorem keeps_bump (y : Tile) (k n : Nat) : Keeps y (y.bump k n) :=
  ⟨⟨⟨rfl, rfl, rfl⟩, ⟨rfl, rfl⟩, ⟨rfl, rfl, rfl, rfl⟩, ⟨rfl, List.Sublist.refl _, rfl, rfl⟩⟩, rfl, rfl, rfl⟩

theorem acts_bumpTile (p : Nat) (W : Nat → Prop) (s : State) (k n : Nat) : Acts p W s (s.bumpTile p k n) :=
  acts_modTile W s _ ⟨⟨⟨rfl, rfl, rfl⟩, ⟨rfl, rfl⟩, ⟨rfl, rfl, rfl, rfl⟩, ⟨rfl, List.Sublist.refl _, rfl, rfl⟩⟩, rfl, rfl, rfl⟩

theorem acts_countCalls (p : Nat) (W : Nat → Prop) (s : State) (conv i n : Nat) : Acts p W s (countCalls s p conv i n) := by
  unfold countCalls
  exact ite_prop (P := Acts p W s) (fun _ => acts_bumpTile p W s _ _) (fun _ => acts_refl p W s)

theorem acts_countConv (p : Nat) (W : Nat → Prop) (s : State) (conv : Nat) (bins : List Nat) : Acts p W s (countConv s p conv bins) := by
  unfold countConv
  exact ite_prop (P := Acts p W s) (fun _ => acts_modTile W s _ ⟨⟨⟨rfl, rfl, rfl⟩, ⟨rfl, rfl⟩, ⟨rfl, rfl, rfl, rfl⟩, ⟨rfl, List.Sublist.refl _, rfl, rfl⟩⟩, rfl, rfl, rfl⟩)
    (fun _ => acts_refl p W s)

theorem acts_emit (p : Nat) (W : Nat → Prop) (s : State) (u : Nat) (m : Tile → Msg) : Acts p W s (s.modTile p (fun t => t.emit u (m t))) :=
  acts_modTile W s _ ⟨⟨⟨rfl, rfl, rfl⟩, ⟨rfl, rfl⟩, ⟨rfl, rfl, rfl, rfl⟩, ⟨rfl, List.Sublist.refl _, rfl, rfl⟩⟩, rfl, rfl, rfl⟩

theorem acts_storeAcc (p : Nat) (W : Nat → Prop) (s : State) (d l : List Byte) (pt : List Nat) (vs : List W32) : Acts p W s (storeAcc s p d l pt vs) := by
  unfold storeAcc
  exact acts_modTile W s _ ⟨⟨⟨rfl, rfl, rfl⟩, ⟨rfl, rfl⟩, ⟨rfl, rfl, rfl, rfl⟩, ⟨rfl, List.Sublist.refl _, rfl, rfl⟩⟩, rfl, rfl, rfl⟩

theorem acts_vbWrite (p : Nat) (W : Nat → Prop) (s : State) (buf off : Nat) (bs : List Byte) (wide : Bool) (bad : List Nat) :
    Acts p W s (s.modTile p (fun t => t.vbWrite buf off bs wide bad)) :=
  acts_modTile W s _ ⟨⟨⟨rfl, rfl, rfl⟩, ⟨rfl, rfl⟩, ⟨rfl, rfl, rfl, rfl⟩, ⟨rfl, List.Sublist.refl _, rfl, rfl⟩⟩, rfl, rfl, rfl⟩

theorem marks_wf {α : Type} (g : α → Nat) (l : List α) (m : Memory) (h : m.wf = true) : (l.foldl (fun x a => x.mark (g a) true) m).wf = true := by
  induction l generalizing m with
  | nil => exact h
  | cons a l ih => exact ih _ (mark_wf m (g a) true h)

theorem marks_byte {α : Type} (g : α → Nat) (l : List α) (m : Memory) (x : Nat) : (l.foldl (fun x a => x.mark (g a) true) m).byte x = m.byte x := by
  induction l generalizing m with
  | nil => rfl
  | cons a l ih => rw [List.foldl_cons, ih]; rfl

/-- Marks change no byte. -/
theorem acts_marks {α : Type} (p : Nat) (W : Nat → Prop) (s : State) (g : α → Nat) (l : List α) :
    Acts p W s { s with mem := l.foldl (fun x a => x.mark (g a) true) s.mem } := by
  refine ⟨⟨rfl, rfl, fun k hk => ?_⟩, fun wf => marks_wf g l _ wf, keeps_refl _, fun _ _ => rfl, fun _ x _ => marks_byte g l _ x⟩
  cases k <;> simp [engineKinds, Kind.same] at hk ⊢

theorem acts_writeMarked {p : Nat} (s : State) (swaps : Nat) (st : Stream) (a : Int) (bs : List Byte) (bad : List Nat) (W : Nat → Prop)
    (hw : ∀ i, i < bs.length → W (streamPlace s p swaps st (a + Int.ofNat i))) : Acts p W s (writeMarked s p swaps st a bs bad) :=
  acts_trans (acts_write s swaps st a bs false W hw) (acts_marks p W _ _ bad)

theorem acts_vWrite {p : Nat} (s : State) (swaps loc : Nat) (st : Stream) (a : Int) (bs : List Byte) (bad : List Nat) (W : Nat → Prop)
    (hw : loc = 0 → ∀ i, i < bs.length → W (streamPlace s p swaps st (a + Int.ofNat i))) : Acts p W s (vWrite s p swaps loc st a bs bad) := by
  unfold vWrite
  split
  · rename_i h
    exact acts_writeMarked s swaps st a bs bad W (hw (eq_of_beq h))
  · exact acts_vbWrite p W s _ _ _ _ _

theorem packElems_length (c : Nat) (es : List Nat) : (packElems c es).length = (fmtBits c * es.length + 7) / 8 := by
  unfold packElems
  exact leBytes_length _ _

theorem encBlock_length (c : Nat) (r : Nat → Rnd) (nm : Bool) (vs : List Fv) : (encBlock c r nm vs).2.length = vs.length := by
  unfold encBlock
  split
  · simp
  · dsimp only
    split <;> simp

theorem convBlocks_length (conv seed : Nat) (k i : Nat) (vs : List Fv) (h : k * fmtBlock (convFmt conv) ≤ vs.length) :
    (convBlocks conv seed k i vs).elems.length = k * fmtBlock (convFmt conv) ∧ (convBlocks conv seed k i vs).scales.length = k := by
  induction k generalizing i vs with
  | zero => simp [convBlocks]
  | succ k ih =>
    have hn : (k + 1) * fmtBlock (convFmt conv) = k * fmtBlock (convFmt conv) + fmtBlock (convFmt conv) := by rw [Nat.succ_mul]
    have := ih (i + fmtBlock (convFmt conv)) (vs.drop (fmtBlock (convFmt conv))) (by rw [List.length_drop]; omega)
    unfold convBlocks
    simp only [List.length_append, List.length_cons, encBlock_length, List.length_take, this]
    constructor
    · rw [hn]
      have : min (fmtBlock (convFmt conv)) vs.length = fmtBlock (convFmt conv) := by
        apply Nat.min_eq_left; omega
      omega
    · trivial

/-- As many elements leave the conversion stage as whole blocks entered it, with one scale a block. -/
theorem convert_length (conv seed i : Nat) (fl : Bool) (vs : List Fv) (h : vs.length % fmtBlock (convFmt conv) = 0) :
    (convert conv seed i fl vs).elems.length = vs.length ∧
    (convert conv seed i fl vs).scales.length = if fmtIsBlock (convFmt conv) then vs.length / fmtBlock (convFmt conv) else 0 := by
  unfold convert
  split
  · have := convBlocks_length conv seed (vs.length / fmtBlock (convFmt conv)) i vs (Nat.div_mul_le_self _ _)
    rw [Nat.div_mul_cancel (Nat.dvd_of_mod_eq_zero h)] at this
    exact this
  · simp

theorem convert_le (conv seed i : Nat) (fl : Bool) (vs : List Fv) :
    (convert conv seed i fl vs).elems.length ≤ vs.length ∧
    (convert conv seed i fl vs).scales.length ≤ vs.length / fmtBlock (convFmt conv) := by
  unfold convert
  split
  · have := convBlocks_length conv seed (vs.length / fmtBlock (convFmt conv)) i vs (Nat.div_mul_le_self _ _)
    rw [this.1, this.2]
    exact ⟨Nat.div_mul_le_self _ _, Nat.le_refl _⟩
  · simp

/-! ## The bodies -/

theorem reached_one {s : State} {p swaps : Nat} {st : Stream} {as : List Int} {n : Nat} {a : Int} {i : Nat} (ha : a ∈ as) (hi : i < n) :
    Reached s p swaps st as n (streamPlace s p swaps st (a + Int.ofNat i)) := ⟨a, ha, i, hi, rfl⟩

/-- A write at one of the addresses, in a state where the tile stands as in the first. -/
theorem acts_reached {s x : State} {p swaps : Nat} {st w : Stream} {as : List Int} {n : Nat} {a : Int} {bs : List Byte} {bad : Bool}
    {W : Nat → Prop} (hk : Keeps (s.tile p) (x.tile p)) (hs : ∀ z b, streamPlace z p swaps w b = streamPlace z p swaps st b) (ha : a ∈ as)
    (hn : bs.length ≤ n) (hW : ∀ y, Reached s p swaps st as n y → W y) : Acts p W x (writeStream x p swaps w a bs bad) := by
  refine acts_write x swaps w a bs bad W (fun i hi => ?_)
  rw [hs, place_keeps hk]
  exact hW _ (reached_one ha (by omega))

theorem narrow_place (s : State) (p swaps : Nat) (st : Stream) (a : Int) : streamPlace s p swaps st.narrow a = streamPlace s p swaps st a := rfl

theorem acts_vPoint {s x : State} {p swaps : Nat} {d l : List Byte} {pt : List Nat} {W : Nat → Prop} (hk : Keeps (s.tile p) (x.tile p))
    (hW : vLoc d 2 = 0 → (loopStream l 2).enabled = true →
      ∀ y, Reached s p swaps (loopStream l 2) [pointAddr (loopStream l 2) 2 (loopLevels l) pt]
        ((fmtBits (convFmt (vConv d)) * gOf ((vStreams d l).map (·.2)) + 7) / 8) y → W y) :
    Acts p W x (vPoint p swaps d l x pt) := by
  unfold vPoint
  extract_lets g get a b c i seed rs fo bad st s1 s2 s3
  have h1 : Acts p W x s1 := ite_prop (P := Acts p W x) (fun _ => acts_bumpTile p W x _ _) (fun _ => acts_refl p W x)
  have h2 : Acts p W x s2 := acts_trans h1 (ite_prop (P := Acts p W s1) (fun _ => acts_refl p W s1) (fun _ => acts_countCalls p W s1 _ _ _))
  refine ite_prop (P := Acts p W x) (fun _ => h2) (fun he => ?_)
  have h3 : Acts p W x s3 := by
    refine acts_trans h2 (acts_vWrite s2 swaps (vLoc d 2) st _ _ _ W (fun h0 i hi => ?_))
    rw [place_keeps (keeps_trans hk h2.self)]
    refine hW h0 (by simpa using he) _ (reached_one (List.mem_singleton.mpr rfl) ?_)
    rw [packElems_length] at hi
    simpa [rs] using hi
  exact ite_prop (P := Acts p W x) (fun _ => acts_trans h3 (acts_countConv p W s3 _ _)) (fun _ => h3)

theorem acts_vBody (s : State) (p : Nat) (op : Op) (d l : List Byte) : Acts p (vWrites s p op.swaps d l) s (vBody s p op d l) := by
  unfold vBody
  refine acts_fold _ _ s (fun x pt hpt hk => acts_vPoint hk (fun h0 he y hy => ⟨h0, he, ?_⟩))
  obtain ⟨a, ha, i, hi, e⟩ := hy
  exact ⟨a, List.mem_map.mpr ⟨pt, hpt, (List.mem_singleton.mp ha).symm⟩, i, hi, e⟩

theorem cells_fold {α β : Type} (f : List β → α → List β) (hf : ∀ v a, v.length = 64 → (f v a).length = 64)
    (l : List α) (v : List β) (h : v.length = 64) : (l.foldl f v).length = 64 := by
  induction l generalizing v with
  | nil => exact h
  | cons a l ih => exact ih _ (hf v a h)

theorem stream3At_length (s : State) (p swaps : Nat) (st : Stream) (a : Int) (fmt : Nat) : (stream3At s p swaps st a fmt).length = 64 := by
  simp [stream3At, stream3Vals, unpack]

theorem mmaStart_length (s : State) (p swaps : Nat) (d l : List Byte) (pt : List Nat) : (mmaStart s p swaps d l pt).length = 64 := by
  unfold mmaStart
  dsimp only
  split
  · simp
  · simp
  · exact stream3At_length _ _ _ _ _ _

theorem mmaRow_length (s : State) (p swaps : Nat) (d l : List Byte) (pt : List Nat) (chunk : Nat → AChunk) :
    (mmaRow s p swaps d l pt chunk).length = 64 := by
  unfold mmaRow
  exact cells_fold _ (fun v k hv => by simp [hv]) _ _ (mmaStart_length s p swaps d l pt)

theorem mmaExtra_length (s : State) (p swaps : Nat) (d l : List Byte) (pt : List Nat) (h : mmaAdd d ≠ 0) :
    (mmaExtra s p swaps d l pt).length = 64 := by
  unfold mmaExtra
  rw [if_neg (by simpa using h)]
  exact stream3At_length _ _ _ _ _ _

theorem epiSegment_length (d : List Byte) (acc extra : List Cell) (h : acc.length = 64) (he : mmaAdd d ≠ 0 → extra.length = 64) :
    (epiSegment d acc extra).length = segCols (mmaFunc d) := by
  unfold epiSegment
  extract_lets sc
  have hv : (if (mmaAdd d == 0) = true then sc else (sc.zip extra).map (fun e => (madd e.1.1 e.2.1, e.1.2 || e.2.2))).length = 64 := by
    split
    · simp [sc, h]
    · rename_i hn
      simp [sc, h, he (by simpa using hn)]
  generalize (if (mmaAdd d == 0) = true then sc else (sc.zip extra).map (fun e => (madd e.1.1 e.2.1, e.1.2 || e.2.2))) = v at hv
  unfold epiFunc segCols
  split
  · rename_i h4; simp [hv, h4]
  · rename_i h4; simp [hv, h4]
  · rename_i h4; simp [hv, h4]
  · rename_i h4; simp [h4]
  · rename_i h4
    rw [if_neg (by simpa using h4), hv]

theorem convertFz_le (conv seed i : Nat) (vs : List Fz) :
    (convertFz conv seed i vs).elems.length ≤ vs.length ∧ (convertFz conv seed i vs).scales.length ≤ vs.length / fmtBlock (convFmt conv) := by
  have := convert_le conv seed i true (vs.map Fz.val)
  rwa [List.length_map] at this

theorem segBytes_eq (func fmt : Nat) : (fmtBits fmt * segCols func + 7) / 8 = segBytes func fmt := by
  unfold segBytes segCols
  split <;> omega

/-- The epilogue's write of a row segment. -/
theorem acts_mmaWriteSeg {s x : State} {p swaps : Nat} {d l : List Byte} {e : List Nat × List Cell} (hpt : e.1 ∈ segPoints l)
    (he : e.2.length = 64) (hw : mmaWrite d = true) (hk : Keeps (s.tile p) (x.tile p)) :
    Acts p (mmaWrites s p swaps d l) x (mmaWriteSeg p swaps d l x e) := by
  unfold mmaWriteSeg
  extract_lets pt ls ys c fmt sb st a s1 s2
  have hlen : (ys.map (·.1)).length = segCols (mmaFunc d) := by
    rw [List.length_map]; exact epiSegment_length d e.2 _ he (fun h => mmaExtra_length x p swaps d l pt h)
  have hc := convertFz_le (mmaConv d) (x.seed p) (mmaIndex d ls (ls.getD 1 ⟨1, 0, []⟩).bound pt) (ys.map (·.1))
  rw [show convertFz (mmaConv d) (x.seed p) (mmaIndex d ls (ls.getD 1 ⟨1, 0, []⟩).bound pt) (ys.map (·.1)) = c from rfl, hlen] at hc
  have h1 : Acts p (mmaWrites s p swaps d l) x s1 := by
    refine acts_writeMarked x swaps st a _ _ _ (fun i hi => ?_)
    rw [place_keeps hk]
    refine ⟨hw, Or.inl (reached_one (List.mem_map.mpr ⟨pt, hpt, rfl⟩) (Nat.lt_of_lt_of_le hi ?_))⟩
    unfold Converted.bytes
    rw [packElems_length, ← segBytes_eq]
    exact Nat.div_le_div_right (Nat.add_le_add_right (Nat.mul_le_mul_left _ hc.1) 7)
  refine acts_trans ?_ (acts_trans (acts_countCalls p _ _ _ _ _) (acts_countConv p _ _ _ _))
  refine ite_prop (P := Acts p (mmaWrites s p swaps d l) x) (fun hb => acts_trans h1 ?_) (fun _ => h1)
  have hs : c.scaleBytes.length ≤ segCols (mmaFunc d) / fmtBlock (convFmt (mmaConv d)) := by
    unfold Converted.scaleBytes
    rw [List.length_map]
    exact hc.2
  exact acts_reached (as := (segPoints l).map (fun pt => companion (loopStream l 2) (mmaAddr l 2 pt)
       (segBytes (mmaFunc d) (convFmt (mmaConv d))) (mmaCScale d) (segCols (mmaFunc d) / fmtBlock (convFmt (mmaConv d)))))
    (st := loopStream l 2) (keeps_trans hk h1.self) (fun z b => narrow_place z p swaps (loopStream l 2) b) (List.mem_map.mpr ⟨pt, hpt, rfl⟩) hs
    (fun y hy => ⟨hw, Or.inr ⟨hb, hy⟩⟩)

/-- A fold whose every step acts within W where the tile stands as in an earlier state. -/
theorem acts_foldFrom {α : Type} {p : Nat} {W : Nat → Prop} {s : State} (f : State → α → State) (l : List α) (x : State)
    (hk : Keeps (s.tile p) (x.tile p)) (hf : ∀ y a, a ∈ l → Keeps (s.tile p) (y.tile p) → Acts p W y (f y a)) : Acts p W x (l.foldl f x) :=
  acts_fold f l x (fun y a ha h => hf y a ha (keeps_trans hk h))

theorem acts_mmaTile {s x : State} {p swaps : Nat} {d l : List Byte} {pts : List (List Nat)} (hpts : ∀ pt ∈ pts, pt ∈ segPoints l)
    (hk : Keeps (s.tile p) (x.tile p)) : Acts p (mmaWrites s p swaps d l) x (mmaTile p swaps d l x pts) := by
  unfold mmaTile
  extract_lets rows s1
  have h1 : Acts p (mmaWrites s p swaps d l) x s1 := acts_fold _ _ x (fun y r _ _ => acts_storeAcc p _ y d l _ _)
  refine ite_prop (P := Acts p (mmaWrites s p swaps d l) x) (fun hw => acts_trans h1 ?_) (fun _ => h1)
  refine acts_foldFrom _ rows s1 (keeps_trans hk h1.self) (fun y e he hy => ?_)
  obtain ⟨pt, hpt, rfl⟩ := List.mem_map.mp he
  exact acts_mmaWriteSeg (hpts pt hpt) (mmaRow_length _ _ _ _ _ _ _) hw hy

theorem acts_mmaBody (s : State) (p : Nat) (op : Op) (d l : List Byte) : Acts p (mmaWrites s p op.swaps d l) s (mmaBody s p op d l) := by
  unfold mmaBody
  have h1 : Acts p (mmaWrites s p op.swaps d l) s (mmaCount s p d l (issuedChunk s p op.swaps d l)) := by
    unfold mmaCount
    extract_lets n q
    clear_value n q
    exact acts_modTile _ s _ (keeps_trans (keeps_trans (keeps_trans (keeps_bump _ _ _) (keeps_bump _ _ _)) (keeps_bump _ _ _)) (keeps_bump _ _ _))
  refine acts_trans h1 (acts_foldFrom _ _ _ h1.self (fun y b _ hy => ?_))
  exact acts_mmaTile (fun pt hpt => (List.mem_filter.mp hpt).1) hy

theorem attnPage_length (s : State) (p : Nat) (d : List Byte) (q : List Fv) (rc : Nat × Nat) (e : PageEnt) (x : AttnRow) (h : x.o.length = 128) :
    (attnPage s p d q rc e x).o.length = 128 := by
  unfold attnPage
  extract_lets bs sm sc mb mn alpha ps ln pq vals
  exact ite_prop (P := fun z : AttnRow => z.o.length = 128) (fun _ => h) (fun _ => by simp [h])

theorem attnPages_length (s : State) (p : Nat) (d : List Byte) (q : List Fv) (rc : Nat × Nat) (es : List PageEnt) (x : AttnRow) (h : x.o.length = 128) :
    (es.foldl (fun x e => attnPage s p d q rc e x) x).o.length = 128 := by
  induction es generalizing x with
  | nil => exact h
  | cons e es ih => exact ih _ (attnPage_length s p d q rc e x h)

theorem attnResult_length (x : AttnRow) (h : x.o.length = 128) : (attnResult x).1.length = 128 := by
  unfold attnResult
  split
  · simp
  · simp [h]

theorem mem_rows {l : List Byte} {d : List Byte} {k : Nat} {f : Int → Nat → Int} {pt : List Nat} {r : Nat} (hpt : pt ∈ attnPoints l)
    (hr : r < attnRows d) : f (mmaAddr l k pt) r ∈ (attnPoints l).flatMap (fun pt => (List.range (attnRows d)).map (fun r => f (mmaAddr l k pt) r)) :=
  List.mem_flatMap.mpr ⟨pt, hpt, List.mem_map.mpr ⟨r, List.mem_range.mpr hr, rfl⟩⟩

theorem attnRow_length (s : State) (p swaps : Nat) (d l : List Byte) (pt : List Nat) (es : List PageEnt) (r : Nat) :
    (attnRow s p swaps d l pt es r).ys.length = 128 := by
  unfold attnRow
  exact attnResult_length _ (attnPages_length _ _ _ _ _ _ _ (by simp))

theorem acts_attnWriteRow {s x : State} {p swaps : Nat} {d l : List Byte} {pt : List Nat} {batch : Nat} {e : Nat × AttnOut}
    (hpt : pt ∈ attnPoints l) (hr : e.1 < attnRows d) (he : e.2.ys.length = 128) (hk : Keeps (s.tile p) (x.tile p)) :
    Acts p (attnWrites s p swaps d l) x (attnWriteRow p swaps d l pt batch x e) := by
  unfold attnWriteRow
  extract_lets r i fmt c st a s1 s2 s3
  have hc := convertFz_le (attnConv d) (x.seed p) i e.2.ys
  rw [he] at hc
  have hb : (c.bytes fmt).length ≤ attnORow d := by
    unfold Converted.bytes attnORow
    rw [packElems_length]
    have hm : fmtBits fmt * c.elems.length ≤ fmtBits fmt * 128 := Nat.mul_le_mul_left (fmtBits fmt) hc.1
    have e : fmt = convFmt (attnConv d) := rfl
    rw [← e]
    generalize fmtBits fmt * c.elems.length = z at hm ⊢
    omega
  have hs : c.scaleBytes.length ≤ 128 / fmtBlock fmt := by
    unfold Converted.scaleBytes
    rw [List.length_map]
    exact hc.2
  have h1 : Acts p (attnWrites s p swaps d l) x s1 :=
    acts_reached (st := loopStream l 2) (n := attnORow d) hk (fun _ _ => rfl)
      (mem_rows (f := fun a r => a + Int.ofNat (r * attnORow d)) hpt hr) hb (fun y hy => Or.inl hy)
  have h2 : Acts p (attnWrites s p swaps d l) x s2 := by
    refine ite_prop (P := Acts p (attnWrites s p swaps d l) x) (fun hbk => acts_trans h1 ?_) (fun _ => h1)
    exact acts_reached (st := loopStream l 2) (n := 128 / fmtBlock fmt) (keeps_trans hk h1.self)
      (fun z b => narrow_place z p swaps (loopStream l 2) b)
      (mem_rows (f := fun a r => companion (loopStream l 2) (a + Int.ofNat (r * attnORow d)) (attnORow d) (leAt d 32 3) (128 / fmtBlock fmt)) hpt hr) hs
      (fun y hy => Or.inr (Or.inl ⟨hbk, hy⟩))
  have h3 : Acts p (attnWrites s p swaps d l) x s3 := by
    refine ite_prop (P := Acts p (attnWrites s p swaps d l) x) (fun hf => acts_trans h2 ?_) (fun _ => h2)
    exact acts_reached (st := loopStream l 3) (n := 4) (keeps_trans hk h2.self) (fun z b => narrow_place z p swaps (loopStream l 3) b)
      (mem_rows (k := 3) (f := fun a r => a + Int.ofNat (16 * r + 12)) hpt hr) (Nat.le_of_eq (leBytes_length _ _))
      (fun y hy => Or.inr (Or.inr ⟨hf, hy⟩))
  exact acts_trans h3 (acts_trans (acts_countCalls p _ _ _ _ _) (acts_countConv p _ _ _ _))

theorem acts_attnIter {s x : State} {p swaps : Nat} {d l : List Byte} {e : List Nat × Nat} (hpt : e.1 ∈ attnPoints l)
    (hk : Keeps (s.tile p) (x.tile p)) : Acts p (attnWrites s p swaps d l) x (attnIter p swaps d l x e) := by
  unfold attnIter
  extract_lets es rows recs unread outs
  have h3 : Acts p (attnWrites s p swaps d l) x (x.modTile p (fun t => t.bump (bankMxc 6) unread)) := acts_bumpTile p _ x _ _
  refine acts_trans h3 (acts_foldFrom _ outs _ (keeps_trans hk h3.self) (fun y o ho hy => ?_))
  obtain ⟨r, hr, rfl⟩ := List.mem_map.mp ho
  exact acts_attnWriteRow hpt (List.mem_range.mp hr) (attnRow_length _ _ _ _ _ _ _ _) hy

theorem acts_attnBody (s : State) (p : Nat) (op : Op) (d l : List Byte) : Acts p (attnWrites s p op.swaps d l) s (attnBody s p op d l) := by
  unfold attnBody
  extract_lets s1 pts
  have h1 : Acts p (attnWrites s p op.swaps d l) s s1 :=
    ite_prop (P := Acts p (attnWrites s p op.swaps d l) s) (fun _ => acts_unitEvent p _ s _ _ _ _) (fun _ => acts_refl p _ s)
  exact acts_trans h1 (acts_foldFrom _ _ _ h1.self (fun x e he hk => acts_attnIter (List.of_mem_zip he).1 hk))

theorem acts_rBody (s : State) (p : Nat) (op : Op) (d l : List Byte) : Acts p (rWrites s p op.swaps d l) s (rBody s p op d l) := by
  unfold rBody
  extract_lets n outs st
  refine ite_prop (P := Acts p (rWrites s p op.swaps d l) s) (fun _ => ?_) (fun hn => ?_)
  · exact acts_fold _ _ s (fun x r _ _ => acts_emit p _ x 3 (fun t => treeMsg t n (rTree d) (rRule d) 0 r.bad r.net))
  · refine acts_fold _ _ s (fun x e he hk => ?_)
    extract_lets bs one bad
    refine acts_vWrite x op.swaps 0 st _ bs bad _ (fun _ i hi => ?_)
    rw [place_keeps hk]
    exact ⟨by simpa using hn, e, he, reached_one (List.mem_singleton.mpr rfl) hi⟩

theorem padTo_length (n : Nat) (bs : List Byte) : (padTo n bs).length = n := by
  unfold padTo
  simp
  omega

theorem acts_sendParts (p n : Nat) (W : Nat → Prop) (op : Op) (d l : List Byte) (r x : Nat) (s : State) : Acts p W s (sendParts p n op d l r x s) := by
  unfold sendParts
  refine acts_fold _ _ s (fun y q _ _ => ?_)
  extract_lets st a bad
  exact acts_emit p W y 5 _

theorem acts_dispatchBody (s : State) (p : Nat) (op : Op) (d l : List Byte) :
    Acts p (dispatchWrites s p op.swaps d l) s (dispatchBody s p op d l) := by
  unfold dispatchBody
  extract_lets n rows drops s1 s2
  have h1 : Acts p (dispatchWrites s p op.swaps d l) s s1 := by
    unfold s1
    split
    · exact acts_unitEvent p _ s _ _ _ _
    · exact acts_refl p _ s
  have h2 : Acts p (dispatchWrites s p op.swaps d l) s s2 := by
    refine ite_prop (P := Acts p (dispatchWrites s p op.swaps d l) s) (fun _ => h1) (fun _ => acts_trans h1 ?_)
    exact acts_unitEvent p _ s1 _ _ _ _
  refine acts_trans h2 ?_
  refine (acts_foldl (W := dispatchWrites s p op.swaps d l) _ _ _ (fun x => Keeps (s.tile p) (x.tile p)) h2.self (fun x e he hk => ?_)).1
  have h3 : Acts p (dispatchWrites s p op.swaps d l) x (dispatchRow p n op d l drops x e) := by
    unfold dispatchRow
    extract_lets r kept ws sharedBad ents table shared bytes recBad t1 sent masked t2
    have g1 : Acts p (dispatchWrites s p op.swaps d l) x t1 := by
      have hr : r ∈ List.range (dRows d) := by
        have := (List.of_mem_zip he).2
        simpa [rows] using this
      exact acts_reached (st := loopStream l 2) (n := 128) hk (fun _ _ => rfl) (List.mem_map.mpr ⟨r, hr, rfl⟩) (Nat.le_of_eq (padTo_length 128 _)) (fun _ h => h)
    have g2 : Acts p (dispatchWrites s p op.swaps d l) x t2 :=
      acts_trans g1 (acts_modTile _ t1 _ (keeps_trans (keeps_trans (keeps_bump _ _ _) (keeps_bump _ _ _)) (keeps_bump _ _ _)))
    refine acts_trans g2 ?_
    exact acts_fold _ _ t2 (fun y a _ _ => acts_sendParts p n _ op d l r a y)
  exact ⟨h3, keeps_trans hk h3.self⟩

theorem acts_xBody (s : State) (p : Nat) (op : Op) (d l : List Byte) : Acts p (xWrites s p op.swaps d l) s (xBody s p op d l) := by
  unfold xBody
  refine acts_fold _ _ s (fun x pt hpt hk => ?_)
  unfold xPoint
  extract_lets fo g ls st a sc vs i c bad s1 s2
  have hv : vs.length = g := by simp [vs, unpack]
  have hc := convert_le (Config.xform d).conv (x.seed p) i false vs
  rw [hv] at hc
  have h1 : Acts p (xWrites s p op.swaps d l) x s1 := by
    refine acts_reached (st := loopStream l 2) (n := (fmtBits fo * g + 7) / 8) hk (fun _ _ => rfl) (List.mem_map.mpr ⟨pt, hpt, rfl⟩) ?_ (fun y hy => Or.inl hy)
    unfold Converted.bytes
    rw [packElems_length]
    exact Nat.div_le_div_right (Nat.add_le_add_right (Nat.mul_le_mul_left _ hc.1) 7)
  have h2 : Acts p (xWrites s p op.swaps d l) x s2 := by
    refine ite_prop (P := Acts p (xWrites s p op.swaps d l) x) (fun hb => acts_trans h1 ?_) (fun _ => h1)
    refine acts_reached (st := loopStream l 3) (n := g / fmtBlock fo) (keeps_trans hk h1.self) (fun _ _ => rfl)
      (List.mem_map.mpr ⟨pt, hpt, rfl⟩) ?_ (fun y hy => Or.inr ⟨hb, hy⟩)
    unfold Converted.scaleBytes
    rw [List.length_map]
    exact hc.2
  exact acts_trans h2 (acts_trans (acts_countCalls p _ _ _ _ _) (acts_countConv p _ _ _ _))

/-! ## Completion -/

/-- t follows s by work of tile p that leaves memory, queues, sequencer and egress alone. -/
structure Quiet (p : Nat) (s t : State) : Prop where
  only : Only engineKinds s t
  mem : t.mem = s.mem
  still : Untouched (s.tile p) (t.tile p)
  queues : (t.tile p).queues = (s.tile p).queues
  seq : (t.tile p).seq = (s.tile p).seq
  egress : (t.tile p).egress = (s.tile p).egress
  results : (t.tile p).acc = (s.tile p).acc ∧ (t.tile p).vb = (s.tile p).vb ∧ (t.tile p).vbPoison = (s.tile p).vbPoison ∧ (t.tile p).hist = (s.tile p).hist
  others : ∀ q, q ≠ p → t.tile q = s.tile q

theorem quiet_refl (p : Nat) (s : State) : Quiet p s s :=
  ⟨only_refl _ s, rfl, untouched_refl _, rfl, rfl, rfl, ⟨rfl, rfl, rfl, rfl⟩, fun _ _ => rfl⟩

theorem quiet_trans {p : Nat} {a b c : State} (h : Quiet p a b) (g : Quiet p b c) : Quiet p a c :=
  ⟨only_trans h.only g.only, g.mem.trans h.mem, untouched_trans h.still g.still, g.queues.trans h.queues, g.seq.trans h.seq,
    g.egress.trans h.egress, ⟨g.results.1.trans h.results.1, g.results.2.1.trans h.results.2.1, g.results.2.2.1.trans h.results.2.2.1,
      g.results.2.2.2.trans h.results.2.2.2⟩, fun q hq => (g.others q hq).trans (h.others q hq)⟩

theorem quiet_modTile {p : Nat} (s : State) (f : Tile → Tile) (h1 : Untouched (s.tile p) (f (s.tile p)))
    (h2 : (f (s.tile p)).queues = (s.tile p).queues) (h3 : (f (s.tile p)).seq = (s.tile p).seq)
    (h4 : (f (s.tile p)).egress = (s.tile p).egress)
    (h5 : (f (s.tile p)).acc = (s.tile p).acc ∧ (f (s.tile p)).vb = (s.tile p).vb ∧ (f (s.tile p)).vbPoison = (s.tile p).vbPoison ∧
      (f (s.tile p)).hist = (s.tile p).hist) : Quiet p s (s.modTile p f) := by
  refine ⟨⟨rfl, rfl, fun k hk => ?_⟩, rfl, ?_, ?_, ?_, ?_, ?_, fun q hq => tile_modTile_other s p q f hq⟩
  · cases k <;> simp [engineKinds, Kind.same, State.modTile, State.setTile] at hk ⊢
  all_goals rw [tile_modTile_self]; assumption

theorem quiet_event (p : Nat) (s : State) (code kind index : Nat) (ctx : Option Nat) (d : List Byte) : Quiet p s (s.event code kind index ctx d) := by
  obtain ⟨g, a, b, e⟩ := event_shape s code kind index ctx d
  rw [e]
  refine ⟨⟨rfl, rfl, fun k hk => ?_⟩, rfl, untouched_refl _, rfl, rfl, rfl, ⟨rfl, rfl, rfl, rfl⟩, fun _ _ => rfl⟩
  cases k <;> simp [engineKinds, Kind.same] at hk ⊢

theorem tile_event (s : State) (code kind index : Nat) (ctx : Option Nat) (d : List Byte) (q : Nat) :
    (s.event code kind index ctx d).tile q = s.tile q := by
  obtain ⟨g, a, b, e⟩ := event_shape s code kind index ctx d
  rw [e]; rfl

theorem quiet_onceEvent (p : Nat) (s : State) (u code limit : Nat) (d : List Byte) :
    Quiet p s (s.onceEvent p u code limit d) ∧ ((s.onceEvent p u code limit d).tile p).basins = (s.tile p).basins := by
  unfold State.onceEvent
  extract_lets n
  refine ite_prop (P := fun z : State => Quiet p s z ∧ (z.tile p).basins = (s.tile p).basins) (fun _ => ?_) (fun _ => ⟨quiet_refl p s, rfl⟩)
  have h1 : Quiet p s (s.modTile p (fun t => { t with once := aput t.once (code * 16 + u) (n + 1) })) :=
    quiet_modTile s _ ⟨⟨rfl, rfl, rfl⟩, ⟨rfl, rfl⟩, ⟨rfl, rfl, rfl, rfl⟩, ⟨rfl, List.Sublist.refl _, rfl, rfl⟩⟩ rfl rfl rfl ⟨rfl, rfl, rfl, rfl⟩
  refine ⟨quiet_trans h1 (quiet_event p _ _ _ _ _ _), ?_⟩
  unfold State.unitEvent
  rw [tile_event, tile_modTile_self]

theorem basin_setBasin (y : Tile) (b c : Nat) (x : Basin) : (y.setBasin b x).basin c = if c = b then x else y.basin c := by
  unfold Tile.setBasin Tile.basin
  simp only
  split
  · rename_i h; subst h; simp
  · rename_i h; rw [agetD_aput_other _ _ _ _ _ h]

theorem basin_of {y z : Tile} (h : z.basins = y.basins) (b : Nat) : z.basin b = y.basin b := by unfold Tile.basin; rw [h]

/-- One head advance (R148, R149). -/
theorem advanceBasin_leaves (s : State) (p b a : Nat) : Quiet p s (advanceBasin s p b a) ∧
    ((advanceBasin s p b a).tile p).basin b = headMoved ((s.tile p).basin b) (declSize ((s.tile p).basinDecl b)) a ∧
    ∀ c, c ≠ b → ((advanceBasin s p b a).tile p).basin c = (s.tile p).basin c := by
  unfold advanceBasin
  extract_lets t size x s1
  have hx : headMoved ((s.tile p).basin b) (declSize ((s.tile p).basinDecl b)) a =
      if x.takes size a > x.used then { x with head := x.tail, used := 0, padValid := false } else x.advance size a := rfl
  rw [hx]
  split
  · have h1 : Quiet p s s1 := quiet_modTile s _ ⟨⟨rfl, rfl, rfl⟩, ⟨rfl, rfl⟩, ⟨rfl, rfl, rfl, rfl⟩, ⟨rfl, List.Sublist.refl _, rfl, rfl⟩⟩ rfl rfl rfl ⟨rfl, rfl, rfl, rfl⟩
    have h2 := quiet_onceEvent p s1 0 0x3114 1 (detailOf [(1, b)])
    have h3 : ∀ c, (s1.tile p).basin c = if c = b then { x with head := x.tail, used := 0, padValid := false } else (s.tile p).basin c := by
      intro c
      unfold s1
      rw [tile_modTile_self]
      exact basin_setBasin _ _ _ _
    refine ⟨quiet_trans h1 h2.1, ?_, fun c hc => ?_⟩
    · rw [basin_of h2.2, h3, if_pos rfl]
    · rw [basin_of h2.2, h3, if_neg hc]
  · refine ⟨quiet_modTile s _ ⟨⟨rfl, rfl, rfl⟩, ⟨rfl, rfl⟩, ⟨rfl, rfl, rfl, rfl⟩, ⟨rfl, List.Sublist.refl _, rfl, rfl⟩⟩ rfl rfl rfl ⟨rfl, rfl, rfl, rfl⟩, ?_, fun c hc => ?_⟩
    · rw [tile_modTile_self]
      show ((s.tile p).setBasin b (x.advance size a)).basin b = _
      rw [basin_setBasin, if_pos rfl]
    · rw [tile_modTile_self]
      show ((s.tile p).setBasin b (x.advance size a)).basin c = _
      rw [basin_setBasin, if_neg hc]

theorem decl_quiet {p : Nat} {s t : State} (h : Untouched (s.tile p) (t.tile p)) (b : Nat) : (t.tile p).basinDecl b = (s.tile p).basinDecl b := by
  unfold Tile.basinDecl Tile.cfgBytes
  rw [h.config.1]

theorem advances_leave (l : List (Nat × Nat)) (hn : (l.map (·.1)).Nodup) (p : Nat) (s : State) :
    Quiet p s (l.foldl (fun x e => advanceBasin x p e.1 e.2) s) ∧
    (∀ b a, (b, a) ∈ l → ((l.foldl (fun x e => advanceBasin x p e.1 e.2) s).tile p).basin b =
      headMoved ((s.tile p).basin b) (declSize ((s.tile p).basinDecl b)) a) ∧
    ∀ b, (∀ a, (b, a) ∉ l) → ((l.foldl (fun x e => advanceBasin x p e.1 e.2) s).tile p).basin b = (s.tile p).basin b := by
  induction l generalizing s with
  | nil => exact ⟨quiet_refl p s, by simp, fun _ _ => rfl⟩
  | cons e l ih =>
    obtain ⟨b0, a0⟩ := e
    obtain ⟨h1, h2, h3⟩ := advanceBasin_leaves s p b0 a0
    rw [List.map_cons, List.nodup_cons] at hn
    obtain ⟨g1, g2, g3⟩ := ih hn.2 (advanceBasin s p b0 a0)
    rw [List.foldl_cons]
    refine ⟨quiet_trans h1 g1, fun b a hm => ?_, fun b hb => ?_⟩
    · rcases List.mem_cons.mp hm with he | he
      · have e1 : b = b0 := congrArg Prod.fst he
        have e2 : a = a0 := congrArg Prod.snd he
        subst e1; subst e2
        rw [g3 b (fun a' hm' => hn.1 (List.mem_map.mpr ⟨(b, a'), hm', rfl⟩)), h2]
      · have hne : b ≠ b0 := fun ee => hn.1 (List.mem_map.mpr ⟨(b, a), he, ee⟩)
        rw [g2 b a he, h3 b hne, decl_quiet h1.still]
    · have hne : b ≠ b0 := fun ee => hb a0 (by rw [ee]; simp)
      rw [g3 b (fun a hm => hb a (by simp [hm])), h3 b hne]

theorem filterMap_keys (f : Nat → Option (Nat × Nat)) (hf : ∀ b e, f b = some e → e.1 = b) (l : List Nat) (hl : l.Nodup) :
    ((l.filterMap f).map (·.1)).Nodup := by
  induction l with
  | nil => simp
  | cons b l ih =>
    rw [List.nodup_cons] at hl
    rw [List.filterMap_cons]
    cases h : f b with
    | none => exact ih hl.2
    | some e =>
      simp only [List.map_cons, List.nodup_cons]
      refine ⟨fun hm => ?_, ih hl.2⟩
      obtain ⟨e', hm, he⟩ := List.mem_map.mp hm
      obtain ⟨b', hb', hfe⟩ := List.mem_filterMap.mp hm
      have h1 := hf b e h
      have h2 := hf b' e' hfe
      exact hl.1 (by rw [← h1, ← he, h2]; exact hb')

theorem basinAdvances_keys (t : Tile) (u : Nat) (l : List Byte) (ins : List (Nat × Nat)) : ((basinAdvances t u l ins).map (·.1)).Nodup := by
  unfold basinAdvances
  refine filterMap_keys _ (fun b e h => ?_) _ List.nodup_range
  dsimp only at h
  split at h
  · simp at h
  · simp only [Option.some.injEq] at h
    rw [← h]

theorem queue_setQueue (y : Tile) (u v : Nat) (l : List Op) : (y.setQueue u l).queue v = if v = u then l else y.queue v := by
  unfold Tile.setQueue Tile.queue
  simp only
  split
  · rename_i h; subst h; simp
  · rename_i h; rw [agetD_aput_other _ _ _ _ _ h]

theorem queue_of {y z : Tile} (h : z.queues = y.queues) (u : Nat) : z.queue u = y.queue u := by unfold Tile.queue; rw [h]

theorem advances_congr {y z : Tile} (h : z.cfg = y.cfg) (u : Nat) (l : List Byte) (ins : List (Nat × Nat)) :
    basinAdvances z u l ins = basinAdvances y u l ins := by
  unfold basinAdvances Tile.basinDecl Tile.cfgBytes
  rw [h]

/-- The tile after the step that takes a completed operation out of its queue. -/
def opGone (p u : Nat) (op : Op) (t : Tile) : Tile :=
  let t1 := t.setQueue u ((t.queue u).drop 1)
  let t2 := match op.signal with
    | some v => t1.signal p u v
    | none => t1
  let t3 := if t2.seq.holdOp == some op.id then t2.modSeq (fun q => { q with holdOp := none }) else t2
  t3.bump (bankFire u) 1

theorem opGone_leaves (p u : Nat) (op : Op) (t : Tile) : Untouched t (opGone p u op t) ∧ (opGone p u op t).basins = t.basins ∧
    (opGone p u op t).queue u = (t.queue u).drop 1 ∧ (∀ v, v ≠ u → (opGone p u op t).queue v = t.queue v) ∧
    (opGone p u op t).seq = { t.seq with holdOp := if t.seq.holdOp = some op.id then none else t.seq.holdOp } ∧
    (∀ v, op.signal = some v → (u, gaugeMsg p t.sect.gen.toNat v 0 1 0) ∈ (opGone p u op t).egress) ∧
    t.egress <+: (opGone p u op t).egress ∧ (opGone p u op t).acc = t.acc ∧ (opGone p u op t).vb = t.vb ∧
    (opGone p u op t).vbPoison = t.vbPoison ∧ (opGone p u op t).hist = t.hist := by
  unfold opGone
  extract_lets t1 t2 t3
  have h2 : Untouched t t2 ∧ t2.basins = t.basins ∧ t2.queues = t1.queues ∧ t2.seq = t.seq ∧
      (∀ v, op.signal = some v → (u, gaugeMsg p t.sect.gen.toNat v 0 1 0) ∈ t2.egress) ∧
      t.egress <+: t2.egress ∧ t2.acc = t.acc ∧ t2.vb = t.vb ∧ t2.vbPoison = t.vbPoison ∧ t2.hist = t.hist := by
    unfold t2
    cases hs : op.signal with
    | none => exact ⟨⟨⟨rfl, rfl, rfl⟩, ⟨rfl, rfl⟩, ⟨rfl, rfl, rfl, rfl⟩, ⟨rfl, List.Sublist.refl _, rfl, rfl⟩⟩, rfl, rfl, rfl, fun v h => by simp at h, List.prefix_refl _, rfl, rfl, rfl, rfl⟩
    | some v =>
      refine ⟨⟨⟨rfl, rfl, rfl⟩, ⟨rfl, rfl⟩, ⟨rfl, rfl, rfl, rfl⟩, ⟨rfl, List.Sublist.refl _, rfl, rfl⟩⟩, rfl, rfl, rfl, fun w h => ?_, List.prefix_append _ _, rfl, rfl, rfl, rfl⟩
      have hv : v = w := Option.some.inj h
      subst hv
      show _ ∈ t1.egress ++ [_]
      exact List.mem_append.mpr (Or.inr (List.mem_singleton.mpr rfl))
  obtain ⟨a, b, c, d, e, f, g1, g2, g3, g4⟩ := h2
  have h3 : Untouched t2 t3 ∧ t3.basins = t2.basins ∧ t3.queues = t2.queues ∧ t3.egress = t2.egress ∧
      t3.seq = { t2.seq with holdOp := if t2.seq.holdOp = some op.id then none else t2.seq.holdOp } ∧
      t3.acc = t2.acc ∧ t3.vb = t2.vb ∧ t3.vbPoison = t2.vbPoison ∧ t3.hist = t2.hist := by
    unfold t3
    by_cases hh : t2.seq.holdOp = some op.id
    · rw [if_pos (by simpa using hh)]
      exact ⟨⟨⟨rfl, rfl, rfl⟩, ⟨rfl, rfl⟩, ⟨rfl, rfl, rfl, rfl⟩, ⟨rfl, List.Sublist.refl _, rfl, rfl⟩⟩, rfl, rfl, rfl, by rw [if_pos hh]; rfl, rfl, rfl, rfl, rfl⟩
    · rw [if_neg (by simpa using hh)]
      exact ⟨untouched_refl _, rfl, rfl, rfl, by rw [if_neg hh], rfl, rfl, rfl, rfl⟩
  obtain ⟨a3, b3, c3, d3, e3, f1, f2, f3, f4⟩ := h3
  have hq : ∀ v, (t3.bump (bankFire u) 1).queue v = t1.queue v := fun v => by
    rw [queue_of (show (t3.bump (bankFire u) 1).queues = t1.queues from c3.trans c)]
  refine ⟨untouched_trans a (untouched_trans a3 (keeps_bump t3 _ _).still), b3.trans b, ?_, fun v hv => ?_, ?_, fun v h => ?_,
    (show t.egress <+: t3.egress by rw [d3]; exact f), f1.trans g1, f2.trans g2, f3.trans g3, f4.trans g4⟩
  · rw [hq]; unfold t1; rw [queue_setQueue, if_pos rfl]
  · rw [hq]; unfold t1; rw [queue_setQueue, if_neg hv]
  · show t3.seq = _
    rw [e3, d]
  · show _ ∈ t3.egress
    rw [d3]; exact e v h

/-- A unit that may finish (R40): nothing but the mark changes. -/
theorem settle_leaves (s : State) (p : Nat) : Quiet p s (settle s p) ∧ ((settle s p).tile p).basins = (s.tile p).basins := by
  unfold settle
  refine ite_prop (P := fun z : State => Quiet p s z ∧ (z.tile p).basins = (s.tile p).basins) (fun _ => ?_) (fun _ => ⟨quiet_refl p s, rfl⟩)
  refine ⟨quiet_modTile s _ ⟨⟨rfl, rfl, rfl⟩, ⟨rfl, rfl⟩, ⟨rfl, rfl, rfl, rfl⟩, ⟨rfl, List.Sublist.refl _, rfl, rfl⟩⟩ rfl rfl rfl ⟨rfl, rfl, rfl, rfl⟩, ?_⟩
  rw [tile_modTile_self]
  rfl

theorem progress_leaves (s : State) (p : Nat) : Quiet p s (s.noteProgress p) ∧ ((s.noteProgress p).tile p).basins = (s.tile p).basins := by
  unfold State.noteProgress
  refine ⟨quiet_modTile s _ ⟨⟨rfl, rfl, rfl⟩, ⟨rfl, rfl⟩, ⟨rfl, rfl, rfl, rfl⟩, ⟨rfl, List.Sublist.refl _, rfl, rfl⟩⟩ rfl rfl rfl ⟨rfl, rfl, rfl, rfl⟩, ?_⟩
  rw [tile_modTile_self]

theorem only_done {s x : State} (hr : s.stopped = false) (hc : s.mem.wf = true) (h : Only engineKinds s x) : Only engineKinds s (done s x) :=
  done_only hr hc (by decide) h.2.2

/-- A completed operation, after a body that writes inside W only. -/
theorem op_completes {s x : State} {p u : Nat} {op : Op} {rest : List Op} {l : List Byte} {ins : List (Nat × Nat)} {W : Nat → Prop}
    (hr : s.stopped = false) (hc : s.mem.wf = true) (hq : (s.tile p).queue u = op :: rest) (h : Acts p W s x) :
    Completed s (done s (completeOp x p u op l ins)) p u op rest l ins W ∧ Computed x (done s (completeOp x p u op l ins)) p := by
  have hadv : basinAdvances (x.tile p) u l ins = basinAdvances (s.tile p) u l ins := advances_congr h.self.still.config.1 u l ins
  obtain ⟨a1, a2, a3⟩ := advances_leave (basinAdvances (s.tile p) u l ins) (basinAdvances_keys _ _ _ _) p x
  have hco : completeOp x p u op l ins = settle ((((basinAdvances (s.tile p) u l ins).foldl (fun x e => advanceBasin x p e.1 e.2) x).modTile p
      (opGone p u op)).noteProgress p) p := by
    unfold completeOp; rw [hadv]; rfl
  rw [hco]
  generalize (basinAdvances (s.tile p) u l ins).foldl (fun x e => advanceBasin x p e.1 e.2) x = y at a1 a2 a3
  obtain ⟨b1, b2, b3, b4, b5, b6, b7, b8, b9, b10, b11⟩ := opGone_leaves p u op (y.tile p)
  obtain ⟨c1, c2⟩ := progress_leaves (y.modTile p (opGone p u op)) p
  obtain ⟨d1, d2⟩ := settle_leaves ((y.modTile p (opGone p u op)).noteProgress p) p
  have hz := quiet_trans c1 d1
  have hzb := d2.trans c2
  generalize settle ((y.modTile p (opGone p u op)).noteProgress p) p = z at hz hzb
  have hgen : (y.tile p).sect.gen = (s.tile p).sect.gen := by
    rw [a1.still.config.2.2, h.self.still.config.2.2]
  have hseq : (y.tile p).seq = (s.tile p).seq := a1.seq.trans h.self.seq
  have hqs : (y.tile p).queues = (s.tile p).queues := a1.queues.trans h.self.queues
  have hself : (y.modTile p (opGone p u op)).tile p = opGone p u op (y.tile p) := tile_modTile_self _ _ _
  have hq2 : ∀ v, (z.tile p).queue v = (opGone p u op (y.tile p)).queue v := fun v => by rw [queue_of (hz.queues.trans (by rw [hself]))]
  have hbas : ∀ b, (z.tile p).basin b = (y.tile p).basin b := fun b => basin_of (hzb.trans (by rw [hself]; exact b2)) b
  have honly : Only engineKinds s z := by
    have h6 : Only engineKinds y (y.modTile p (opGone p u op)) := by
      refine ⟨rfl, rfl, fun k hk => ?_⟩
      cases k <;> simp [engineKinds, Kind.same, State.modTile, State.setTile] at hk ⊢
    exact only_trans (only_trans h.only a1.only) (only_trans h6 hz.only)
  have hmem : z.mem = x.mem := hz.mem.trans a1.mem
  have hfin : Computed x (done s z) p := by
    refine ⟨?_, ?_, ⟨?_, ?_⟩, ?_, ?_⟩
    · rw [done_mem _ _ hr, hmem, canon_eq _ (h.wf hc)]
    · rw [done_tile hr, hz.results.1, hself, b8, a1.results.1]
    · rw [done_tile hr, hz.results.2.1, hself, b9, a1.results.2.1]
    · rw [done_tile hr, hz.results.2.2.1, hself, b10, a1.results.2.2.1]
    · rw [done_tile hr, hz.results.2.2.2, hself, b11, a1.results.2.2.2]
    · rw [done_tile hr, hz.egress, hself, ← a1.egress]; exact b7
  refine ⟨?_, hfin⟩
  refine ⟨?_, fun v hv => ?_, ?_, fun b a hm => ?_, fun b hb => ?_, fun v hv => ?_, ?_, fun q hne => ?_, fun w hw => ?_, only_done hr hc honly⟩
  · rw [done_tile hr, hq2, b3, queue_of hqs, hq]; rfl
  · rw [done_tile hr, hq2, b4 v hv, queue_of hqs]
  · rw [done_tile hr, hz.seq, hself, b5, hseq]
  · rw [done_tile hr, hbas, a2 b a hm, decl_quiet h.self.still, basin_of h.self.basins]
  · rw [done_tile hr, hbas, a3 b hb, basin_of h.self.basins]
  · rw [done_tile hr, hz.egress, hself, ← hgen]; exact b6 v hv
  · rw [done_tile hr]
    have h5 : Untouched ((y.modTile p (opGone p u op)).tile p) (z.tile p) := hz.still
    rw [hself] at h5
    exact untouched_trans h.self.still (untouched_trans a1.still (untouched_trans b1 h5))
  · rw [done_tile hr, hz.others q hne, tile_modTile_other _ _ _ _ hne, a1.others q hne, h.others q hne]
  · rw [byte_done hr (by rw [hmem]; exact h.wf hc), hmem, h.bytes hc w hw]

/-! ## The frame of an operation -/

theorem acts_backInv (p : Nat) (W : Nat → Prop) (s : State) (gs : List Nat) : Acts p W s (s.backInv gs) := by
  obtain ⟨a, b, e⟩ := backInv_shape s gs
  rw [e]
  refine ⟨⟨rfl, rfl, fun k hk => ?_⟩, id, keeps_refl _, fun _ _ => rfl, fun _ _ _ => rfl⟩
  cases k <;> simp [engineKinds, Kind.same] at hk ⊢

theorem localRead_clean (s : State) (p : Nat) (ranges : List (Nat × Nat)) (h : ∀ w ∈ (s.tile p).localList, inInput (s.tile p) w = true) :
    localRead s p ranges = none := by
  unfold localRead
  have : (s.tile p).localList.find? (fun w => touches ranges w && !inInput (s.tile p) w) = none := by
    rw [List.find?_eq_none]; intro w hw; simp [h w hw]
  rw [this]

/-- An operation that nothing meets goes on; the host's lines of what it reads are taken back. -/
theorem meet_clean (s : State) (p : Nat) (ranges : List (Nat × Nat)) (h : ∀ w ∈ (s.tile p).localList, inInput (s.tile p) w = true) :
    ∃ a b, meet s p none ranges = (seen s a b, true) := by
  obtain ⟨a, b, e⟩ := backInv_shape s ((s.host.hostLines.map (·.1)).filter (fun g => g / 2 ^ 18 == p && touches ranges (g % 2 ^ 18)))
  refine ⟨a, b, ?_⟩
  have e1 : s.backInv ((s.host.hostLines.map (·.1)).filter (fun g => g / 2 ^ 18 == p && touches ranges (g % 2 ^ 18))) = seen s a b := e
  have e2 : localRead (seen s a b) p ranges = none := localRead_clean (seen s a b) p ranges h
  unfold meet
  simp only [e1, e2]

theorem frontOp_at {s : State} {n : BitVec 10} {u p : Nat} {op : Op} {rest : List Op} (h : AtEngine s n u p op rest) :
    frontOp s n.toNat u = some (p, op) := by
  unfold frontOp
  simp only [h.place]
  rw [h.queue, h.live]
  simp [h.present, h.fresh]

theorem runOp_at {s : State} {n : BitVec 10} {u p : Nat} {op : Op} {rest : List Op} (h : AtEngine s n u p op rest)
    (ends : State → Nat → Nat → Op → List Byte → List (Nat × Nat) → State)
    (ok : List Byte → Bool) (reads : State → Nat → Op → List Byte → List Byte → List (Nat × Nat))
    (ins : List Byte → List Byte → List (Nat × Nat)) (body : State → Nat → Op → List Byte → List Byte → State)
    (hok : ok ((s.tile p).desc op.desc) = true) :
    ∃ a b, runOpWith ends s n.toNat u ok none reads ins body =
      ends (body (seen s a b) p op ((s.tile p).desc op.desc) ((s.tile p).loopT op.loop))
        p u op ((s.tile p).loopT op.loop) (ins ((s.tile p).desc op.desc) ((s.tile p).loopT op.loop)) := by
  obtain ⟨a, b, e⟩ := meet_clean s p (reads s p op ((s.tile p).desc op.desc) ((s.tile p).loopT op.loop)) h.clean
  refine ⟨a, b, ?_⟩
  unfold runOpWith
  rw [frontOp_at h]
  simp only
  rw [if_pos hok, e]
  rfl

theorem acts_seen {p : Nat} {W : Nat → Prop} {s x : State} {a : List Nat} {b : Assoc Nat} (h : Acts p W (seen s a b) x) : Acts p W s x := by
  refine acts_trans (b := seen s a b) ⟨⟨rfl, rfl, fun k hk => ?_⟩, id, keeps_refl _, fun _ _ => rfl, fun _ _ _ => rfl⟩ h
  cases k <;> simp [engineKinds, Kind.same, seen] at hk ⊢

/-- Two bytes of one access lie at different places. -/
theorem place_inj (s : State) (p swaps : Nat) (st : Stream) (a : Int) (i j : Nat) (hi : i < 4096) (hj : j < 4096)
    (h : streamPlace s p swaps st (a + Int.ofNat i) = streamPlace s p swaps st (a + Int.ofNat j)) : i = j := by
  obtain ⟨o, he⟩ := streamAddr_mod (s.tile p) swaps st
  have hw := wrapSize_ge (s.tile p) st
  unfold streamPlace at h
  rw [he, he] at h
  generalize wrapBase (s.tile p) st = c at h
  obtain ⟨M, hMe⟩ : ∃ M : Int, M = Int.ofNat (wrapSize (s.tile p) st) := ⟨_, rfl⟩
  have hM : 4096 ≤ M := by rw [hMe]; simp only [Int.ofNat_eq_natCast]; omega
  rw [← hMe] at h
  have h1 : ((o + (a + Int.ofNat i)) % M).toNat = ((o + (a + Int.ofNat j)) % M).toNat := by omega
  have n1 := Int.emod_nonneg (o + (a + Int.ofNat i)) (show M ≠ 0 by omega)
  have n2 := Int.emod_nonneg (o + (a + Int.ofNat j)) (show M ≠ 0 by omega)
  have h2 : (o + (a + Int.ofNat i)) % M = (o + (a + Int.ofNat j)) % M := by omega
  have h3 := Int.emod_emod_of_dvd
  have d1 := Int.emod_add_mul_ediv (o + (a + Int.ofNat i)) M
  have d2 := Int.emod_add_mul_ediv (o + (a + Int.ofNat j)) M
  have e1 : Int.ofNat i = (i : Int) := rfl
  have e2 : Int.ofNat j = (j : Int) := rfl
  generalize (o + (a + Int.ofNat i)) / M = q1 at d1
  generalize (o + (a + Int.ofNat j)) / M = q2 at d2
  have h4 : (i : Int) - j = M * (q1 - q2) := by rw [Int.mul_sub]; omega
  have h5 : q1 - q2 = 0 := by
    rcases Int.lt_trichotomy (q1 - q2) 0 with hl | hl | hl
    · have : M * (q1 - q2) ≤ M * (-1) := Int.mul_le_mul_of_nonneg_left (by omega) (by omega)
      omega
    · exact hl
    · have : M * 1 ≤ M * (q1 - q2) := Int.mul_le_mul_of_nonneg_left (by omega) (by omega)
      omega
  rw [h5] at h4
  omega

/-- What a write at a stream address leaves there (R56). -/
theorem write_byte (s : State) (p swaps : Nat) (st : Stream) (a : Int) (bs : List Byte) (bad : Bool) (hw : s.mem.wf = true)
    (hl : bs.length ≤ 4096) (i : Nat) (hi : i < bs.length) :
    (writeStream s p swaps st a bs bad).mem.byte (streamPlace s p swaps st (a + Int.ofNat i)) = bs.getD i 0 := by
  have hinj : ∀ j, j < bs.length → streamPlace s p swaps st (a + Int.ofNat j) = streamPlace s p swaps st (a + Int.ofNat i) → j = i :=
    fun j hj e => place_inj s p swaps st a j i (by omega) (by omega) e
  unfold writeStream
  have key : ∀ (rs : List (Nat × Nat × Nat)) (x : State), (∀ r ∈ rs, r ∈ streamRuns (s.tile p) swaps st a bs.length) → x.mem.wf = true →
      ((∃ r ∈ rs, r.1 ≤ i ∧ i < r.1 + r.2.2) ∨ x.mem.byte (streamPlace s p swaps st (a + Int.ofNat i)) = bs.getD i 0) →
      (rs.foldl (fun x r =>
        let q := tileBase p + r.2.1
        let xs := (bs.drop r.1).take r.2.2
        let m := if st.wide || bad then x.mem.write q xs bad else x.mem.putBytes q xs
        { x with mem := m }.wrote p (granules q xs.length) (if st.wide then wholeGranules q xs.length else [])) x).mem.byte
          (streamPlace s p swaps st (a + Int.ofNat i)) = bs.getD i 0 := by
    intro rs
    induction rs with
    | nil =>
      intro x _ _ h
      rcases h with ⟨r, hr, _⟩ | h
      · simp at hr
      · exact h
    | cons r rs ih =>
      intro x hin hx h
      rw [List.foldl_cons]
      refine ih _ (fun r' h' => hin r' (by simp [h'])) (by rw [wrote_mem]; exact wf_put_write _ _ _ _ _ hx) ?_
      rw [wrote_mem]
      have hr := hin r (by simp)
      have hlen : ((bs.drop r.1).take r.2.2).length ≤ r.2.2 := by simp
      by_cases hc : r.1 ≤ i ∧ i < r.1 + r.2.2
      · right
        obtain ⟨g1, g2⟩ := run_place hr (j := i - r.1) (by omega)
        have e : r.1 + (i - r.1) = i := by omega
        rw [e] at g2
        unfold streamPlace
        rw [← g2, show tileBase p + (r.2.1 + (i - r.1)) = tileBase p + r.2.1 + (i - r.1) by omega,
          byte_put_in _ _ _ _ _ _ hx (by simp; omega)]
        simp [e, hi]
      · rcases h with ⟨r', hr', hc'⟩ | h
        · rcases List.mem_cons.mp hr' with e | e
          · subst e; exact absurd hc' hc
          · exact .inl ⟨r', e, hc'⟩
        · right
          rw [byte_put_write _ _ _ _ _ _ hx ?_]
          · exact h
          · refine Decidable.byContradiction (fun hn => hc ?_)
            obtain ⟨g1, g2⟩ := run_place hr (j := streamPlace s p swaps st (a + Int.ofNat i) - (tileBase p + r.2.1)) (by omega)
            have e : r.1 + (streamPlace s p swaps st (a + Int.ofNat i) - (tileBase p + r.2.1)) = i := by
              refine hinj _ g1 ?_
              show tileBase p + streamAddr (s.tile p) swaps st _ = _
              rw [← g2]; omega
            omega
  exact key _ s (fun r h => h) hw (.inl (run_covers _ _ _ _ hi))

/-- An operation of an engine whose body acts on its tile completes. -/
theorem run_completes {s : State} {n : BitVec 10} {u p : Nat} {op : Op} {rest : List Op} (h : AtEngine s n u p op rest)
    (ok : List Byte → Bool) (reads : State → Nat → Op → List Byte → List Byte → List (Nat × Nat))
    (ins : List Byte → List Byte → List (Nat × Nat)) (body : State → Nat → Op → List Byte → List Byte → State) (W : Nat → Prop)
    (hok : ok ((s.tile p).desc op.desc) = true)
    (hb : ∀ a b, Acts p W (seen s a b) (body (seen s a b) p op ((s.tile p).desc op.desc) ((s.tile p).loopT op.loop))) :
    ∃ t, Host.Outcome.next (done s (runOp s n.toNat u ok none reads ins body)) = (.next t : Host.Outcome State Fault Refusal) ∧
      Completed s t p u op rest ((s.tile p).loopT op.loop) (ins ((s.tile p).desc op.desc) ((s.tile p).loopT op.loop)) W ∧
      ∃ a b, Computed (body (seen s a b) p op ((s.tile p).desc op.desc) ((s.tile p).loopT op.loop)) t p := by
  obtain ⟨a, b, e⟩ := runOp_at h completeOp ok reads ins body hok
  have hc := op_completes (ins := ins ((s.tile p).desc op.desc) ((s.tile p).loopT op.loop)) (l := (s.tile p).loopT op.loop)
    h.runs h.canonical h.queue (acts_seen (hb a b))
  exact ⟨_, rfl, by rw [runOp, e]; exact hc.1, a, b, by rw [runOp, e]; exact hc.2⟩

/-- An operation that has run and whose messages stand in egress. -/
theorem op_sends {s x : State} {p u : Nat} {op : Op} {rest : List Op} {l : List Byte} {ins : List (Nat × Nat)} {W : Nat → Prop}
    (hr : s.stopped = false) (hc : s.mem.wf = true) (hq : (s.tile p).queue u = op :: rest) (h : Acts p W s x) :
    SentOrCompleted s x (done s (completeSent x p u op l ins)) p u op rest l ins W ∧ Computed x (done s (completeSent x p u op l ins)) p := by
  unfold SentOrCompleted completeSent
  dsimp only
  cases hb : (x.tile p).resultsOut u with
  | false =>
    rw [if_neg (by simp), if_neg (by simp)]
    exact op_completes hr hc hq h
  | true =>
    rw [if_pos rfl, if_pos rfl]
    have hadv : basinAdvances (x.tile p) u l ins = basinAdvances (s.tile p) u l ins := advances_congr h.self.still.config.1 u l ins
    rw [hadv]
    generalize ha : basinAdvances (s.tile p) u l ins = adv
    have hqx : (x.tile p).queue u = op :: rest := by rw [queue_of h.self.queues, hq]
    have hone : Only engineKinds x (x.modTile p (fun t => t.setQueue u ({ op with out := some adv } :: (t.queue u).drop 1))) := by
      refine ⟨rfl, rfl, fun k hk => ?_⟩
      cases k <;> simp [engineKinds, Kind.same, State.modTile, State.setTile] at hk ⊢
    have hself := tile_modTile_self x p (fun t => t.setQueue u ({ op with out := some adv } :: (t.queue u).drop 1))
    refine ⟨⟨?_, fun v hv => ?_, ?_, ?_, ?_, fun q hne => ?_, fun w hw => ?_, only_done hr hc (only_trans h.only hone)⟩, ⟨?_, ?_, ⟨?_, ?_⟩, ?_, ?_⟩⟩
    · rw [done_tile hr, hself, queue_setQueue, if_pos rfl, hqx, ha]; rfl
    · rw [done_tile hr, hself, queue_setQueue, if_neg hv, queue_of h.self.queues]
    · rw [done_tile hr, hself]; exact h.self.seq
    · rw [done_tile hr, hself]; exact h.self.basins
    · rw [done_tile hr, hself]
      exact untouched_trans h.self.still ⟨⟨rfl, rfl, rfl⟩, ⟨rfl, rfl⟩, ⟨rfl, rfl, rfl, rfl⟩, ⟨rfl, List.Sublist.refl _, rfl, rfl⟩⟩
    · rw [done_tile hr, tile_modTile_other _ _ _ _ hne, h.others q hne]
    · exact (byte_done (x := x.modTile p _) hr (h.wf hc) w).trans (h.bytes hc w hw)
    · rw [done_mem _ _ hr]; exact canon_eq _ (h.wf hc)
    · rw [done_tile hr, hself]; rfl
    · rw [done_tile hr, hself]; rfl
    · rw [done_tile hr, hself]; rfl
    · rw [done_tile hr, hself]; rfl
    · rw [done_tile hr, hself]; exact List.prefix_refl _

/-- The same for an operation that may send. -/
theorem run_sends {s : State} {n : BitVec 10} {u p : Nat} {op : Op} {rest : List Op} (h : AtEngine s n u p op rest)
    (ok : List Byte → Bool) (reads : State → Nat → Op → List Byte → List Byte → List (Nat × Nat))
    (ins : List Byte → List Byte → List (Nat × Nat)) (body : State → Nat → Op → List Byte → List Byte → State) (W : Nat → Prop)
    (hok : ok ((s.tile p).desc op.desc) = true)
    (hb : ∀ a b, Acts p W (seen s a b) (body (seen s a b) p op ((s.tile p).desc op.desc) ((s.tile p).loopT op.loop))) :
    ∃ a b t, Host.Outcome.next (done s (runSending s n.toNat u ok none reads ins body)) = (.next t : Host.Outcome State Fault Refusal) ∧
      SentOrCompleted s (body (seen s a b) p op ((s.tile p).desc op.desc) ((s.tile p).loopT op.loop)) t p u op rest ((s.tile p).loopT op.loop)
        (ins ((s.tile p).desc op.desc) ((s.tile p).loopT op.loop)) W ∧
      Computed (body (seen s a b) p op ((s.tile p).desc op.desc) ((s.tile p).loopT op.loop)) t p := by
  obtain ⟨a, b, e⟩ := runOp_at h completeSent ok reads ins body hok
  have hc := op_sends (ins := ins ((s.tile p).desc op.desc) ((s.tile p).loopT op.loop)) (l := (s.tile p).loopT op.loop)
    h.runs h.canonical h.queue (acts_seen (hb a b))
  exact ⟨a, b, _, rfl, by rw [runSending, e]; exact hc.1, by rw [runSending, e]; exact hc.2⟩

end Sys2Proof.Laws
end

