-- ==== Sys2Proof/Laws/Eval.lean ====
section
/-! SUPPORT. Functions of the model in the form in which Lean's kernel evaluates them fast, with the equation that says so:
SHA-256 (R213) and CRC-32 (R318) over plain numbers, each word evaluated as it is made (`sha256_eq`, `crc32_eq`), and a read of many bytes that walks the sparse
table once (`read_eq`). -/

namespace Sys2Proof.Laws.Eval

open Sys2Proof.Machine

/-! ## SHA-256 -/

/-- A number, evaluated, and what is done with it. -/
def force {α : Type} (x : Nat) (k : Nat → α) : α := Nat.casesOn x (k 0) (fun n => k (Nat.succ n))

theorem force_eq {α : Type} (x : Nat) (k : Nat → α) : force x k = k x := by cases x <;> rfl

/-- A list of numbers, each evaluated, and what is done with it. -/
def forceL {α : Type} : List Nat → (List Nat → α) → α
  | [], k => k []
  | x :: t, k => force x (fun y => forceL t (fun u => k (y :: u)))

theorem forceL_eq {α : Type} (l : List Nat) (k : List Nat → α) : forceL l k = k l := by
  induction l generalizing k with
  | nil => rfl
  | cons x t ih => simp only [forceL, force_eq, ih]

/-- Words with the same 32 bits above as below: a shift to the right turns them. -/
def twice (x : Nat) : Nat := Nat.mul x 4294967297

/-- Three shifts of one such word, combined: the big sigma functions (`sigma_eq`). -/
def sigma (x a b c : Nat) : Nat :=
  Nat.mod (Nat.xor (Nat.xor (Nat.shiftRight (twice x) a) (Nat.shiftRight (twice x) b)) (Nat.shiftRight (twice x) c)) 4294967296

/-- Two turns and a shift, combined: the small sigma functions (`sigma'_eq`). -/
def sigma' (x a b c : Nat) : Nat :=
  Nat.xor (Nat.mod (Nat.xor (Nat.shiftRight (twice x) a) (Nat.shiftRight (twice x) b)) 4294967296) (Nat.shiftRight x c)

/-- Sum of two words (`addN_eq`). -/
def addN (x y : Nat) : Nat := Nat.mod (Nat.add x y) 4294967296

/-- The next word of the message schedule. -/
def nextN (w1 w6 w14 w15 : Nat) : Nat :=
  Nat.mod (Nat.add (Nat.add (Nat.add (sigma' w1 17 19 10) w6) (sigma' w14 7 18 3)) w15) 4294967296

/-- The next word after these, the newest of them first (`lastN_eq`). -/
def lastN : List Nat → Nat
  | _ :: w1 :: _ :: _ :: _ :: _ :: w6 :: _ :: _ :: _ :: _ :: _ :: _ :: _ :: w14 :: w15 :: _ => nextN w1 w6 w14 w15
  | w => nextN (w.getD 1 0) (w.getD 6 0) (w.getD 14 0) (w.getD 15 0)

/-- The message schedule, newest word first (`scheduleN_eq`). -/
def scheduleN : Nat → List Nat → List Nat
  | 0, w => w
  | n + 1, w => force (lastN w) fun x => scheduleN n (x :: w)

/-- Rounds with these constants and words on the eight working words (`roundsN_eq`). -/
def roundsN : List Nat → List Nat → Nat → Nat → Nat → Nat → Nat → Nat → Nat → Nat → List Nat
  | k :: ks, w :: ws, a, b, c, d, e, f, g, h =>
    force (Nat.add (Nat.add (Nat.add (Nat.add h (sigma e 6 11 25)) (Nat.xor (Nat.land e f) (Nat.land (Nat.sub 4294967295 e) g))) k) w) fun t =>
    force (addN t (Nat.add (sigma a 2 13 22) (Nat.xor (Nat.xor (Nat.land a b) (Nat.land a c)) (Nat.land b c)))) fun x =>
    force (addN d t) fun y => roundsN ks ws x a b c y e f g
  | _, _, a, b, c, d, e, f, g, h => [a, b, c, d, e, f, g, h]

theorem shiftRight_twice (x : W32) (r : Nat) (h : r < 32) : Nat.shiftRight (twice x.toNat) r % 4294967296 = (x.rotateRight r).toNat := by
  have hx := x.isLt
  rw [BitVec.toNat_rotateRight, Nat.mod_eq_of_lt h]
  generalize x.toNat = n at hx
  show (n * 4294967297) >>> r % 4294967296 = _
  have hp : 2 ^ r * 2 ^ (32 - r) = 2 ^ 32 := by rw [← Nat.pow_add]; congr 1; omega
  have h0 : 0 < 2 ^ r := Nat.two_pow_pos r
  have hlo : n >>> r < 2 ^ (32 - r) := by
    rw [Nat.shiftRight_eq_div_pow, Nat.div_lt_iff_lt_mul h0, Nat.mul_comm, hp]; exact hx
  have e1 : (n * 4294967297) >>> r = n >>> r + n * 2 ^ (32 - r) := by
    rw [Nat.shiftRight_eq_div_pow, Nat.shiftRight_eq_div_pow, show n * 4294967297 = n + n * 2 ^ (32 - r) * 2 ^ r by
      rw [Nat.mul_assoc, Nat.mul_comm (2 ^ (32 - r)), hp]; omega]
    exact Nat.add_mul_div_right _ _ h0
  have e2 : n <<< (32 - r) % 2 ^ 32 = (n % 2 ^ r) <<< (32 - r) := by
    rw [Nat.shiftLeft_eq, Nat.shiftLeft_eq, ← hp, Nat.mul_mod_mul_right]
  have top : n % 2 ^ r * 2 ^ (32 - r) + 2 ^ (32 - r) ≤ 2 ^ 32 := by
    rw [← Nat.succ_mul, ← hp]; exact Nat.mul_le_mul_right _ (Nat.mod_lt _ h0)
  have e3 : n * 2 ^ (32 - r) % 2 ^ 32 = n % 2 ^ r * 2 ^ (32 - r) := by rw [← hp, Nat.mul_mod_mul_right]
  rw [e2, Nat.or_comm, ← Nat.shiftLeft_add_eq_or_of_lt hlo, e1, Nat.shiftLeft_eq]
  show _ % 2 ^ 32 = _
  rw [← Nat.add_mod_mod, e3]
  generalize n % 2 ^ r * 2 ^ (32 - r) = u at *
  generalize n >>> r = v at *
  generalize 2 ^ (32 - r) = c at *
  omega

theorem sigma_eq (x : W32) (a b c : Nat) (ha : a < 32) (hb : b < 32) (hc : c < 32) :
    sigma x.toNat a b c = (x.rotateRight a ^^^ x.rotateRight b ^^^ x.rotateRight c).toNat := by
  rw [BitVec.toNat_xor, BitVec.toNat_xor, ← shiftRight_twice x a ha, ← shiftRight_twice x b hb, ← shiftRight_twice x c hc]
  exact (Nat.xor_mod_two_pow (n := 32)).trans (congrArg (· ^^^ _) (Nat.xor_mod_two_pow (n := 32)))

theorem sigma'_eq (x : W32) (a b c : Nat) (ha : a < 32) (hb : b < 32) :
    sigma' x.toNat a b c = (x.rotateRight a ^^^ x.rotateRight b ^^^ x >>> c).toNat := by
  rw [BitVec.toNat_xor, BitVec.toNat_xor, ← shiftRight_twice x a ha, ← shiftRight_twice x b hb, BitVec.toNat_ushiftRight]
  exact congrArg (· ^^^ _) (Nat.xor_mod_two_pow (n := 32))

theorem addN_eq (x y : W32) : (x + y).toNat = addN x.toNat y.toNat := by
  rw [BitVec.toNat_add]; rfl

theorem getD_toNat (w : List W32) (i : Nat) : (w.map BitVec.toNat).getD i 0 = (w.getD i 0).toNat := by
  simp only [List.getD_eq_getElem?_getD, List.getElem?_map]
  cases w[i]? <;> rfl

theorem lastN_eq (w : List Nat) : lastN w = nextN (w.getD 1 0) (w.getD 6 0) (w.getD 14 0) (w.getD 15 0) := by
  unfold lastN; split <;> rfl

theorem scheduleN_eq (n : Nat) (w : List W32) : scheduleN n (w.map BitVec.toNat) = (shaSchedule n w).map BitVec.toNat := by
  induction n generalizing w with
  | zero => rfl
  | succ n ih =>
    rw [shaSchedule, ← ih, scheduleN, force_eq, lastN_eq, nextN]
    simp only [getD_toNat]
    rw [sigma'_eq _ 17 19 10 (by decide) (by decide), sigma'_eq _ 7 18 3 (by decide) (by decide), List.map_cons]
    congr 2
    simp only [BitVec.toNat_add, Nat.mod_add_mod]
    rfl

theorem mod_sum (h s c k w : Nat) : ((((h + s) % 2 ^ 32 + c) % 2 ^ 32 + k) % 2 ^ 32 + w) % 2 ^ 32 = (h + s + c + k + w) % 2 ^ 32 := by omega

theorem roundsN_eq (ks ws : List W32) (a b c d e f g h : W32) :
    roundsN (ks.map BitVec.toNat) (ws.map BitVec.toNat) a.toNat b.toNat c.toNat d.toNat e.toNat f.toNat g.toNat h.toNat =
      ((ks.zip ws).foldl shaRound [a, b, c, d, e, f, g, h]).map BitVec.toNat := by
  induction ks generalizing ws a b c d e f g h with
  | nil => cases ws <;> rfl
  | cons k ks ih =>
    cases ws with
    | nil => rfl
    | cons w ws =>
      simp only [List.zip_cons_cons, List.foldl_cons, shaRound, ← ih, List.map_cons, roundsN, force_eq]
      rw [sigma_eq e 6 11 25 (by decide) (by decide) (by decide), sigma_eq a 2 13 22 (by decide) (by decide) (by decide)]
      congr 1
      · simp only [BitVec.toNat_add, mod_sum, addN]
        simp only [BitVec.toNat_xor, BitVec.toNat_and, BitVec.toNat_not]
        simp only [Nat.add_mod_mod, Nat.mod_add_mod]
        rfl
      · simp only [BitVec.toNat_add, mod_sum, addN]
        simp only [BitVec.toNat_xor, BitVec.toNat_and, BitVec.toNat_not]
        simp only [Nat.add_mod_mod]
        rfl

/-- The big-endian words of a block (`wordsN_eq`). -/
def wordsN : List Byte → List Nat
  | a :: b :: c :: d :: t => (((a.toNat * 256 + b.toNat) * 256 + c.toNat) * 256 + d.toNat) :: wordsN t
  | _ => []

theorem wordsN_eq : ∀ bs : List Byte, wordsN bs = (beWords bs).map BitVec.toNat
  | [] | [_] | [_, _] | [_, _, _] => rfl
  | a :: b :: c :: d :: t => by
    have h := a.isLt; have h1 := b.isLt; have h2 := c.isLt; have h3 := d.isLt
    simp only [wordsN, beWords, beNat, List.map_cons, wordsN_eq t, List.foldl_cons, List.foldl_nil, BitVec.toNat_ofNat]
    congr 1
    omega

/-- Round constants. -/
def kN : List Nat := shaK.map BitVec.toNat
/-- Initial hash value. -/
def h0N : List Nat := shaH0.map BitVec.toNat

/-- One block (`blockN_eq`). -/
def blockN (h w : List Nat) : List Nat :=
  forceL kN fun k =>
  match h with
  | [a, b, c, d, e, f, g, i] => (h.zip (roundsN k (scheduleN 48 w).reverse a b c d e f g i)).map fun p => addN p.1 p.2
  | _ => []

theorem blockN_eq (h : List W32) (blk : List Byte) (e : h.length = 8) :
    blockN (h.map BitVec.toNat) (wordsN blk).reverse = (shaBlock h blk).map BitVec.toNat := by
  match h, e with
  | [a, b, c, d, e, f, g, i], _ =>
    simp only [blockN, forceL_eq, wordsN_eq, ← List.map_reverse, scheduleN_eq, kN, List.map_cons, List.map_nil, roundsN_eq, shaBlock]
    rw [show [a.toNat, b.toNat, c.toNat, d.toNat, e.toNat, f.toNat, g.toNat, i.toNat] = [a, b, c, d, e, f, g, i].map BitVec.toNat from rfl,
      List.zip_map, List.map_map, List.map_map]
    exact List.map_congr_left fun p _ => (addN_eq p.1 p.2).symm

theorem shaRound_length (v : List W32) (p : W32 × W32) : (shaRound v p).length = v.length := by
  unfold shaRound; split <;> rfl

theorem shaBlock_length (h : List W32) (blk : List Byte) (e : h.length = 8) : (shaBlock h blk).length = 8 := by
  have k (l : List (W32 × W32)) (v : List W32) : (l.foldl shaRound v).length = v.length := by
    induction l generalizing v with
    | nil => rfl
    | cons p t ih => rw [List.foldl_cons, ih, shaRound_length]
  simp only [shaBlock, List.length_map, List.length_zip, k, e, Nat.min_self]

/-- Words of a block, newest first, and what follows it (`feed_eq`). -/
def feed {α : Type} : Nat → List Byte → List Nat → (List Nat → List Byte → α) → α
  | 0, bs, acc, k => k acc bs
  | n + 1, a :: b :: c :: d :: t, acc, k =>
    force (((a.toNat * 256 + b.toNat) * 256 + c.toNat) * 256 + d.toNat) fun w => feed n t (w :: acc) k
  | _ + 1, _, acc, k => k acc []

theorem feed_eq {α : Type} (n : Nat) (bs : List Byte) (acc : List Nat) (k : List Nat → List Byte → α) :
    feed n bs acc k = k ((wordsN (bs.take (4 * n))).reverse ++ acc) (bs.drop (4 * n)) := by
  induction n generalizing bs acc with
  | zero => rfl
  | succ n ih =>
    match bs with
    | [] | [_] | [_, _] | [_, _, _] => simp [feed, wordsN, Nat.mul_add]
    | a :: b :: c :: d :: t => simp [feed, force_eq, ih, wordsN, Nat.mul_add]

/-- The blocks of a padded message (`goN_eq`). -/
def goN : Nat → List Nat → List Byte → List Nat
  | 0, h, _ => h
  | n + 1, h, bs => match bs with
    | [] => h
    | _ :: _ => feed 16 bs [] fun w rest => forceL (blockN h w) fun g => goN n g rest

theorem goN_eq (n : Nat) (h : List W32) (bs : List Byte) (e : h.length = 8) :
    goN n (h.map BitVec.toNat) bs = (shaGo n h bs).map BitVec.toNat := by
  induction n generalizing h bs with
  | zero => rfl
  | succ n ih => cases bs with
    | nil => rfl
    | cons b t =>
      simp only [goN, shaGo, feed_eq, forceL_eq, List.append_nil]
      rw [blockN_eq h _ e, ih _ _ (shaBlock_length h _ e)]

/-- SHA-256 of a list of bytes (`sha256_eq`). -/
def sha256N (bs : List Byte) : List Byte :=
  let n := bs.length
  let msg := bs ++ (0x80 :: List.replicate ((119 - n % 64) % 64) 0) ++ beBytes 8 (8 * n)
  (goN (msg.length / 64 + 1) h0N msg).flatMap (beBytes 4)

theorem sha256_eq (bs : List Byte) : sha256 bs = sha256N bs := by
  simp only [sha256, sha256N, h0N, goN_eq _ shaH0 _ rfl, List.flatMap_map]

/-! ## Reads of memory -/

/-- `n` bytes from a place on, in one walk over the table (`read_eq`). -/
def readT : Assoc Byte → Nat → Nat → List Byte
  | [], _, n => List.replicate n 0
  | (k, v) :: t, a, n =>
    if k < a then readT t a n
    else if a + n ≤ k then List.replicate n 0
    else List.replicate (k - a) 0 ++ v :: readT t (k + 1) (a + n - (k + 1))

theorem agetD_keysAbove {t : Assoc Byte} {b i : Nat} (h : keysAbove b t) (hi : i ≤ b) : agetD t i 0 = 0 := by
  cases t with
  | nil => rfl
  | cons e t =>
    have := h e (by simp)
    have e1 : (i == e.1) = false := by simp; omega
    have e2 : i < e.1 := by omega
    simp [agetD, aget?, e1, e2]

theorem map_range_zero (f : Nat → Byte) (n : Nat) (h : ∀ i, i < n → f i = 0) : (List.range n).map f = List.replicate n 0 := by
  apply List.ext_getElem
  · simp
  · intro i h1 _
    simp only [List.length_map, List.length_range] at h1
    simp [h i h1]

theorem readT_eq (t : Assoc Byte) (a n : Nat) (h : asorted t = true) : (List.range n).map (fun i => agetD t (a + i) 0) = readT t a n := by
  induction t generalizing a n with
  | nil => exact map_range_zero _ _ fun _ _ => rfl
  | cons e t ih =>
    obtain ⟨k, v⟩ := e
    have hs := (asorted_cons (k, v) t).mp h
    have below (i : Nat) (hi : i < k) : agetD ((k, v) :: t) i 0 = 0 := by
      have e1 : (i == k) = false := by simp; omega
      simp [agetD, aget?, e1, hi]
    have above (i : Nat) (hi : k < i) : agetD ((k, v) :: t) i 0 = agetD t i 0 := by
      have e1 : (i == k) = false := by simp; omega
      have e2 : ¬ i < k := by omega
      simp [agetD, aget?, e1, e2]
    rw [readT]
    split
    · rw [← ih _ _ hs.2]
      exact List.map_congr_left fun i _ => above _ (by omega)
    · split
      · exact map_range_zero _ _ fun i hi => below _ (by omega)
      · rw [show n = (k - a) + (1 + (a + n - (k + 1))) by omega, List.range_add, List.map_append, map_range_zero _ (k - a)
          fun i hi => below _ (by omega), List.map_map, List.range_add, List.map_append, List.map_map, ← ih _ _ hs.2]
        congr 1
        rw [show List.range 1 = [0] from rfl, List.map_singleton, List.singleton_append]
        congr 1
        · simp [agetD, aget?, show a + (k - a) = k by omega]
        · rw [show a + (k - a + (1 + (a + n - (k + 1)))) - (k + 1) = a + n - (k + 1) by omega]
          exact List.map_congr_left fun i _ => by
            simp only [Function.comp]
            rw [above _ (by omega), show a + (k - a + (1 + i)) = k + 1 + i by omega]

theorem read_eq (m : Memory) (a n : Nat) (h : asorted m.cells = true) : m.read a n = readT m.cells a n := readT_eq _ _ _ h

/-! ## CRC-32 -/

/-- One bit of the reflected CRC (`crcStepN_eq`). -/
def crcStepN (x : Nat) : Nat := Nat.xor (Nat.shiftRight x 1) (Nat.mul (Nat.mod x 2) 0xEDB88320)

/-- Eight bits. -/
def crcByteN (x : Nat) : Nat :=
  force (crcStepN x) fun x => force (crcStepN x) fun x => force (crcStepN x) fun x => force (crcStepN x) fun x =>
  force (crcStepN x) fun x => force (crcStepN x) fun x => force (crcStepN x) fun x => crcStepN x

/-- The register after some bytes (`crcGoN_eq`). -/
def crcGoN : List Byte → Nat → Nat
  | [], c => c
  | b :: t, c => force (crcByteN (Nat.xor c b.toNat)) fun x => crcGoN t x

theorem crcStepN_eq (x : W32) : (if x.getLsbD 0 then (x >>> 1) ^^^ 0xEDB88320 else x >>> 1).toNat = crcStepN x.toNat := by
  have hb : x.getLsbD 0 = decide (x.toNat % 2 = 1) := by simp [BitVec.getLsbD, Nat.testBit_zero]
  have hm : Nat.mod x.toNat 2 = x.toNat % 2 := rfl
  rw [hb]
  rcases Nat.mod_two_eq_zero_or_one x.toNat with h | h
  · simp only [h, crcStepN, hm]
    show (x >>> 1).toNat = (x.toNat >>> 1) ^^^ (0 * 0xEDB88320)
    simp
  · simp only [h, crcStepN, hm]
    show ((x >>> 1) ^^^ 0xEDB88320).toNat = (x.toNat >>> 1) ^^^ (1 * 0xEDB88320)
    simp

theorem crcByteN_eq (c : W32) (b : Byte) : (crcByte c b).toNat = crcByteN (Nat.xor c.toNat b.toNat) := by
  have h0 : (c ^^^ b.zeroExtend 32).toNat = Nat.xor c.toNat b.toNat := by
    show _ = c.toNat ^^^ b.toNat
    have := b.isLt
    simp [BitVec.toNat_setWidth]
    omega
  simp only [crcByte, iter, crcByteN, force_eq, crcStepN_eq, h0]

theorem crcGoN_eq (bs : List Byte) (c : W32) : (bs.foldl crcByte c).toNat = crcGoN bs c.toNat := by
  induction bs generalizing c with
  | nil => rfl
  | cons b t ih => simp only [List.foldl_cons, ih, crcByteN_eq, crcGoN, force_eq]

/-- The CRC of some bytes, evaluated byte by byte. -/
theorem crc32_eq (bs : List Byte) : (crc32 bs).toNat = 2 ^ 32 - 1 - crcGoN bs 0xFFFFFFFF := by
  simp only [crc32, BitVec.toNat_not, crcGoN_eq]
  rfl

end Sys2Proof.Laws.Eval
end

