-- ==== Sys2Proof/Laws/PerInstr.lean ====
section
/-! SUPPORT. What holds of every command as syntax: a command that takes a packet has an opcode of Table 12.9, and a form where
its opcode has forms. -/

namespace Sys2Proof.Laws.RingCommand

open Sys2Proof.Machine

/-- Opcode and form of the packet that a command takes (Tables 12.8, 12.9); none for a command that takes no packet. -/
def packetOf : Instr → Option (Nat × Option Nat)
  | .nop _ => some (0x01, none)
  | .query _ => some (0x02, none)
  | .partitionCreate _ => some (0x10, none)
  | .partitionDestroy _ => some (0x11, none)
  | .weirSet _ => some (0x12, none)
  | .contextCreate _ => some (0x20, none)
  | .contextDestroy _ => some (0x21, none)
  | .contextSave _ => some (0x22, none)
  | .midSectionDrainEnd _ => none
  | .midSectionDrainTimeout _ => none
  | .contextRestore _ _ => some (0x23, none)
  | .imageStage _ _ _ => some (0x30, none)
  | .imageDrop _ => some (0x31, none)
  | .imageForward _ _ => some (0x32, none)
  | .forwardStatusTimeout => none
  | .sectionRun _ _ => some (0x40, none)
  | .sectionStop _ => some (0x41, none)
  | .scheduleAdd _ => some (0x42, none)
  | .scheduleClear _ => some (0x43, none)
  | .moveDefineQueue _ => some (0x50, some 0)
  | .movePost _ => some (0x50, some 1)
  | .moveResume _ => some (0x50, some 2)
  | .moveRemove _ => some (0x50, some 3)
  | .pageMapDefineTable _ => some (0x58, some 0)
  | .pageMapMap _ => some (0x58, some 1)
  | .pageMapDonate _ => some (0x58, some 2)
  | .pageUnmapEntries _ => some (0x59, some 0)
  | .pageUnmapTable _ => some (0x59, some 1)
  | .pageUnmapInit _ => some (0x59, some 2)
  | .pageShare _ => some (0x5A, none)
  | .pageMigrate _ => some (0x5B, none)
  | .gaugeSet _ _ => some (0x60, none)
  | .gaugeRead _ _ => some (0x61, none)
  | .gaugeReadTimeout _ _ => none
  | .digest _ => some (0x70, none)
  | .replicaGroupDefine _ => some (0x71, some 0)
  | .replicaGroupRemove _ => some (0x71, some 1)
  | .clearExpulsion _ => some (0x71, some 2)
  | .screenRunScreen _ => some (0x72, some 0)
  | .screenRunRetire _ => some (0x72, some 1)
  | .screenRunSetCtl _ => some (0x72, some 2)
  | .screenPackLoad _ _ => some (0x73, none)
  | .logRead _ => some (0x80, none)
  | .countersRead _ => some (0x81, none)
  | .unitEnable _ => some (0x90, none)
  | .unitDisable _ => some (0x91, none)
  | .unitTransitionComplete _ _ _ => none
  | .linkTrain _ _ => some (0x92, none)
  | .tideConfigSource _ => some (0x93, some 0)
  | .tideConfigPeriod _ => some (0x93, some 1)
  | .tideConfigCount _ => some (0x93, some 2)
  | .tideConfigOutput _ => some (0x93, some 3)
  | .attest _ _ => some (0xA0, none)
  | .fwUpdate _ _ => some (0xA1, none)
  | .ownerPolicySet _ => some (0xA2, none)
  | .zeroize _ => some (0xA3, none)
  | .fabricReset _ => some (0xF0, none)
  | .tailWriteObserved _ _ _ => none
  | .replyWrite _ _ => none
  | .msixCoalesceExpiry _ => none
  | .cpCtlWrite _ => none
  | .cpHaltResume _ _ => none
  | .cpLandWrite _ _ => none
  | .hdmDecoderCommit _ _ _ => none
  | .hostMemoryAccess _ _ _ => none
  | .hostLinkRecovery => none
  | .hostLinkDown => none
  | .mailboxGo _ => none
  | .gaugeSelWrite _ _ => none
  | .ctxGaugeRead _ _ _ => none
  | .tideCountRead _ => none
  | .pumpCtlWrite _ _ => none
  | .segmentWrite _ _ _ => none
  | .halt _ _ => none
  | .step _ => none
  | .registerWrite _ _ _ _ => none
  | .issue _ _ => none
  | .issueQueueSlotFree _ => none
  | .waitGauge _ _ => none
  | .signalGauge _ _ => none
  | .fenceRelease _ => none
  | .gaugeQueueFree _ _ => none
  | .send _ _ _ => none
  | .egressBufferFree _ _ => none
  | .watch _ _ => none
  | .watchReevaluate _ => none
  | .watchTimeout _ => none
  | .swap _ _ => none
  | .branch _ _ => none
  | .endProgram _ _ => none
  | .mma _ _ => none
  | .attn _ _ => none
  | .vectorEngineOperation _ _ => none
  | .reductionOperation _ _ => none
  | .draw _ _ => none
  | .verify _ _ => none
  | .dispatch _ _ => none
  | .combine _ _ => none
  | .matrixStreamedFiring _ _ => none
  | .streamedFiring _ _ _ => none
  | .sluiceFiring _ _ _ => none
  | .messageEgress _ _ => none
  | .messageHop _ _ _ _ _ => none
  | .multicastSpread _ _ _ _ _ => none
  | .messageDelivery _ _ _ _ => none
  | .backpressureReoffer _ _ => none
  | .overflowBasinMove _ _ _ => none
  | .steerSpillReturn _ _ => none
  | .treeInput _ _ => none
  | .instanceCombined _ _ _ => none
  | .downMessage _ _ => none
  | .probeSend _ _ _ => none
  | .probe _ => none
  | .reInjection _ _ => none
  | .add _ _ => none
  | .set _ _ => none
  | .wait _ _ => none
  | .wake _ _ => none
  | .waitRetry _ => none
  | .waiterTimeout _ _ _ _ => none
  | .switchTrigger _ _ => none
  | .switchCensusClear _ => none
  | .switchDrainEnd _ _ _ => none
  | .runDone _ => none
  | .sectionTimeout _ => none
  | .bundleBlock _ _ => none
  | .serviceRecord _ => none
  | .queueEntryTake _ _ => none
  | .descriptorStart _ _ => none
  | .transferComplete _ => none
  | .summaryGather _ _ => none
  | .pageGather _ _ => none
  | .read _ _ => none
  | .fetch _ _ => none
  | .write _ _ => none
  | .ack _ => none
  | .data _ => none
  | .scrub _ _ => none
  | .scrubOverrun _ => none
  | .correctedWriteBack _ => none
  | .blockReceived _ _ => none
  | .linkReplayTimeout _ _ => none
  | .ingressStall _ _ => none
  | .pinEdge => none
  | .holdover => none
  | .marker _ => none
  | .tideTick => none
  | .sectionStart _ => none
  | .gaugeSignal _ _ => none
  | .linkWindow _ => none
  | .linkWindowClose => none
  | .digestExchange _ _ => none
  | .vote _ => none
  | .screen _ => none
  | .screenTileStart _ => none
  | .screenTileEnd _ _ => none
  | .wardenBite _ => none
  | .logEntryWrite => none
  | .perstNAssert => none
  | .perstNRelease _ => none
  | .ready => none
  | .powerGoodRise _ => none
  | .powerGoodLoss _ => none
  | .refclkLoss => none
  | .thermalSample _ => none
  | .droop _ => none
  | .thermtrip => none
  | .telemetryRead _ => none
  | .railPoll _ _ => none
  | .transformEngineConversion _ _ => none
  | .timedSwitchStart _ _ => none
  | .entropyHealthTestFailure => none
  | .memoryUnitLost _ => none
  | .sequencerRetryTimeout _ => none
  | .blockTransmit _ => none
  | .bucketRelease _ _ _ => none
  | .hostSnoop _ => none
  | .jtagAccess _ => none

/-- The opcode of the packet stands in Table 12.9, and the form is one of its forms. -/
def Statement (i : Instr) : Prop :=
  ∀ op form, packetOf i = some (op, form) →
    (op ∈ userOps ∨ op ∈ privOps) ∧
    match form with
    | some f => ∃ n, formsOf op = some n ∧ f < n
    | none => formsOf op = none

theorem no_packet {i : Instr} (h : packetOf i = none) : Statement i :=
  fun _ _ k => nomatch h.symm.trans k

theorem packet_ok {i : Instr} {op : Nat} (h : packetOf i = some (op, none)) (ho : op ∈ userOps ∨ op ∈ privOps)
    (hf : formsOf op = none) : Statement i := by
  intro op' form k
  obtain ⟨rfl, rfl⟩ := Prod.mk.inj (Option.some.inj (h.symm.trans k))
  exact ⟨ho, hf⟩

theorem form_ok {i : Instr} {op f n : Nat} (h : packetOf i = some (op, some f)) (ho : op ∈ userOps ∨ op ∈ privOps)
    (hf : formsOf op = some n) (hn : f < n) : Statement i := by
  intro op' form k
  obtain ⟨rfl, rfl⟩ := Prod.mk.inj (Option.some.inj (h.symm.trans k))
  exact ⟨ho, n, hf, hn⟩

theorem nop (x0 : Ring) : Statement (.nop x0) := packet_ok rfl (by decide) rfl

theorem query (x0 : Ring) : Statement (.query x0) := packet_ok rfl (by decide) rfl

theorem partitionCreate (x0 : Ring) : Statement (.partitionCreate x0) := packet_ok rfl (by decide) rfl

theorem partitionDestroy (x0 : Ring) : Statement (.partitionDestroy x0) := packet_ok rfl (by decide) rfl

theorem weirSet (x0 : Ring) : Statement (.weirSet x0) := packet_ok rfl (by decide) rfl

theorem contextCreate (x0 : Ring) : Statement (.contextCreate x0) := packet_ok rfl (by decide) rfl

theorem contextDestroy (x0 : Ring) : Statement (.contextDestroy x0) := packet_ok rfl (by decide) rfl

theorem contextSave (x0 : Ring) : Statement (.contextSave x0) := packet_ok rfl (by decide) rfl

theorem midSectionDrainEnd (x0 : BitVec 6) : Statement (.midSectionDrainEnd x0) := no_packet rfl

theorem midSectionDrainTimeout (x0 : BitVec 6) : Statement (.midSectionDrainTimeout x0) := no_packet rfl

theorem contextRestore (x0 : Ring) (x1 : Nat) : Statement (.contextRestore x0 x1) := packet_ok rfl (by decide) rfl

theorem imageStage (x0 : Ring) (x1 : Bool) (x2 : Bool) : Statement (.imageStage x0 x1 x2) := packet_ok rfl (by decide) rfl

theorem imageDrop (x0 : Ring) : Statement (.imageDrop x0) := packet_ok rfl (by decide) rfl

theorem imageForward (x0 : Ring) (x1 : Nat) : Statement (.imageForward x0 x1) := packet_ok rfl (by decide) rfl

theorem forwardStatusTimeout : Statement (.forwardStatusTimeout) := no_packet rfl

theorem sectionRun (x0 : Ring) (x1 : Ecc) : Statement (.sectionRun x0 x1) := packet_ok rfl (by decide) rfl

theorem sectionStop (x0 : Ring) : Statement (.sectionStop x0) := packet_ok rfl (by decide) rfl

theorem scheduleAdd (x0 : Ring) : Statement (.scheduleAdd x0) := packet_ok rfl (by decide) rfl

theorem scheduleClear (x0 : Ring) : Statement (.scheduleClear x0) := packet_ok rfl (by decide) rfl

theorem moveDefineQueue (x0 : Ring) : Statement (.moveDefineQueue x0) := form_ok rfl (by decide) rfl (by decide)

theorem movePost (x0 : Ring) : Statement (.movePost x0) := form_ok rfl (by decide) rfl (by decide)

theorem moveResume (x0 : Ring) : Statement (.moveResume x0) := form_ok rfl (by decide) rfl (by decide)

theorem moveRemove (x0 : Ring) : Statement (.moveRemove x0) := form_ok rfl (by decide) rfl (by decide)

theorem pageMapDefineTable (x0 : Ring) : Statement (.pageMapDefineTable x0) := form_ok rfl (by decide) rfl (by decide)

theorem pageMapMap (x0 : Ring) : Statement (.pageMapMap x0) := form_ok rfl (by decide) rfl (by decide)

theorem pageMapDonate (x0 : Ring) : Statement (.pageMapDonate x0) := form_ok rfl (by decide) rfl (by decide)

theorem pageUnmapEntries (x0 : Ring) : Statement (.pageUnmapEntries x0) := form_ok rfl (by decide) rfl (by decide)

theorem pageUnmapTable (x0 : Ring) : Statement (.pageUnmapTable x0) := form_ok rfl (by decide) rfl (by decide)

theorem pageUnmapInit (x0 : Ring) : Statement (.pageUnmapInit x0) := form_ok rfl (by decide) rfl (by decide)

theorem pageShare (x0 : Ring) : Statement (.pageShare x0) := packet_ok rfl (by decide) rfl

theorem pageMigrate (x0 : Ring) : Statement (.pageMigrate x0) := packet_ok rfl (by decide) rfl

theorem gaugeSet (x0 : Ring) (x1 : Ecc) : Statement (.gaugeSet x0 x1) := packet_ok rfl (by decide) rfl

theorem gaugeRead (x0 : Ring) (x1 : Ecc) : Statement (.gaugeRead x0 x1) := packet_ok rfl (by decide) rfl

theorem gaugeReadTimeout (x0 : Ring) (x1 : BitVec 16) : Statement (.gaugeReadTimeout x0 x1) := no_packet rfl

theorem digest (x0 : Ring) : Statement (.digest x0) := packet_ok rfl (by decide) rfl

theorem replicaGroupDefine (x0 : Ring) : Statement (.replicaGroupDefine x0) := form_ok rfl (by decide) rfl (by decide)

theorem replicaGroupRemove (x0 : Ring) : Statement (.replicaGroupRemove x0) := form_ok rfl (by decide) rfl (by decide)

theorem clearExpulsion (x0 : Ring) : Statement (.clearExpulsion x0) := form_ok rfl (by decide) rfl (by decide)

theorem screenRunScreen (x0 : Ring) : Statement (.screenRunScreen x0) := form_ok rfl (by decide) rfl (by decide)

theorem screenRunRetire (x0 : Ring) : Statement (.screenRunRetire x0) := form_ok rfl (by decide) rfl (by decide)

theorem screenRunSetCtl (x0 : Ring) : Statement (.screenRunSetCtl x0) := form_ok rfl (by decide) rfl (by decide)

theorem screenPackLoad (x0 : Ring) (x1 : Bool) : Statement (.screenPackLoad x0 x1) := packet_ok rfl (by decide) rfl

theorem logRead (x0 : Ring) : Statement (.logRead x0) := packet_ok rfl (by decide) rfl

theorem countersRead (x0 : Ring) : Statement (.countersRead x0) := packet_ok rfl (by decide) rfl

theorem unitEnable (x0 : Ring) : Statement (.unitEnable x0) := packet_ok rfl (by decide) rfl

theorem unitDisable (x0 : Ring) : Statement (.unitDisable x0) := packet_ok rfl (by decide) rfl

theorem unitTransitionComplete (x0 : BitVec 3) (x1 : Byte) (x2 : BitVec 3) : Statement (.unitTransitionComplete x0 x1 x2) := no_packet rfl

theorem linkTrain (x0 : Ring) (x1 : Training) : Statement (.linkTrain x0 x1) := packet_ok rfl (by decide) rfl

theorem tideConfigSource (x0 : Ring) : Statement (.tideConfigSource x0) := form_ok rfl (by decide) rfl (by decide)

theorem tideConfigPeriod (x0 : Ring) : Statement (.tideConfigPeriod x0) := form_ok rfl (by decide) rfl (by decide)

theorem tideConfigCount (x0 : Ring) : Statement (.tideConfigCount x0) := form_ok rfl (by decide) rfl (by decide)

theorem tideConfigOutput (x0 : Ring) : Statement (.tideConfigOutput x0) := form_ok rfl (by decide) rfl (by decide)

theorem attest (x0 : Ring) (x1 : Bool) : Statement (.attest x0 x1) := packet_ok rfl (by decide) rfl

theorem fwUpdate (x0 : Ring) (x1 : Bool) : Statement (.fwUpdate x0 x1) := packet_ok rfl (by decide) rfl

theorem ownerPolicySet (x0 : Ring) : Statement (.ownerPolicySet x0) := packet_ok rfl (by decide) rfl

theorem zeroize (x0 : Ring) : Statement (.zeroize x0) := packet_ok rfl (by decide) rfl

theorem fabricReset (x0 : Ring) : Statement (.fabricReset x0) := packet_ok rfl (by decide) rfl

theorem tailWriteObserved (x0 : Ring) (x1 : W32) (x2 : W32) : Statement (.tailWriteObserved x0 x1 x2) := no_packet rfl

theorem replyWrite (x0 : Ring) (x1 : Bool) : Statement (.replyWrite x0 x1) := no_packet rfl

theorem msixCoalesceExpiry (x0 : Ring) : Statement (.msixCoalesceExpiry x0) := no_packet rfl

theorem cpCtlWrite (x0 : W32) : Statement (.cpCtlWrite x0) := no_packet rfl

theorem cpHaltResume (x0 : Bool) (x1 : W64) : Statement (.cpHaltResume x0 x1) := no_packet rfl

theorem cpLandWrite (x0 : Bool) (x1 : W64) : Statement (.cpLandWrite x0 x1) := no_packet rfl

theorem hdmDecoderCommit (x0 : BitVec 3) (x1 : W64) (x2 : W64) : Statement (.hdmDecoderCommit x0 x1 x2) := no_packet rfl

theorem hostMemoryAccess (x0 : W64) (x1 : HostOp) (x2 : Option Flips) : Statement (.hostMemoryAccess x0 x1 x2) := no_packet rfl

theorem hostLinkRecovery : Statement (.hostLinkRecovery) := no_packet rfl

theorem hostLinkDown : Statement (.hostLinkDown) := no_packet rfl

theorem mailboxGo (x0 : Bool) : Statement (.mailboxGo x0) := no_packet rfl

theorem gaugeSelWrite (x0 : W32) (x1 : Ecc) : Statement (.gaugeSelWrite x0 x1) := no_packet rfl

theorem ctxGaugeRead (x0 : BitVec 6) (x1 : BitVec 11) (x2 : Ecc) : Statement (.ctxGaugeRead x0 x1 x2) := no_packet rfl

theorem tideCountRead (x0 : Option Bool) : Statement (.tideCountRead x0) := no_packet rfl

theorem pumpCtlWrite (x0 : BitVec 6) (x1 : W32) : Statement (.pumpCtlWrite x0 x1) := no_packet rfl

theorem segmentWrite (x0 : Bool) (x1 : BitVec 6) (x2 : W32) : Statement (.segmentWrite x0 x1 x2) := no_packet rfl

theorem halt (x0 : BitVec 11) (x1 : W32) : Statement (.halt x0 x1) := no_packet rfl

theorem step (x0 : BitVec 11) : Statement (.step x0) := no_packet rfl

theorem registerWrite (x0 : Bool) (x1 : BitVec 26) (x2 : Bool) (x3 : W64) : Statement (.registerWrite x0 x1 x2 x3) := no_packet rfl

theorem issue (x0 : BitVec 10) (x1 : Bool) : Statement (.issue x0 x1) := no_packet rfl

theorem issueQueueSlotFree (x0 : BitVec 10) : Statement (.issueQueueSlotFree x0) := no_packet rfl

theorem waitGauge (x0 : BitVec 10) (x1 : Bool) : Statement (.waitGauge x0 x1) := no_packet rfl

theorem signalGauge (x0 : BitVec 10) (x1 : Bool) : Statement (.signalGauge x0 x1) := no_packet rfl

theorem fenceRelease (x0 : BitVec 10) : Statement (.fenceRelease x0) := no_packet rfl

theorem gaugeQueueFree (x0 : BitVec 10) (x1 : Option Upset) : Statement (.gaugeQueueFree x0 x1) := no_packet rfl

theorem send (x0 : BitVec 10) (x1 : Bool) (x2 : Option Upset) : Statement (.send x0 x1 x2) := no_packet rfl

theorem egressBufferFree (x0 : BitVec 10) (x1 : Option Upset) : Statement (.egressBufferFree x0 x1) := no_packet rfl

theorem watch (x0 : BitVec 10) (x1 : Bool) : Statement (.watch x0 x1) := no_packet rfl

theorem watchReevaluate (x0 : BitVec 10) : Statement (.watchReevaluate x0) := no_packet rfl

theorem watchTimeout (x0 : BitVec 10) : Statement (.watchTimeout x0) := no_packet rfl

theorem swap (x0 : BitVec 10) (x1 : Bool) : Statement (.swap x0 x1) := no_packet rfl

theorem branch (x0 : BitVec 10) (x1 : Bool) : Statement (.branch x0 x1) := no_packet rfl

theorem endProgram (x0 : BitVec 10) (x1 : Bool) : Statement (.endProgram x0 x1) := no_packet rfl

theorem mma (x0 : BitVec 10) (x1 : Option Upset) : Statement (.mma x0 x1) := no_packet rfl

theorem attn (x0 : BitVec 10) (x1 : Option Upset) : Statement (.attn x0 x1) := no_packet rfl

theorem vectorEngineOperation (x0 : BitVec 10) (x1 : Option Upset) : Statement (.vectorEngineOperation x0 x1) := no_packet rfl

theorem reductionOperation (x0 : BitVec 10) (x1 : Option Upset) : Statement (.reductionOperation x0 x1) := no_packet rfl

theorem draw (x0 : BitVec 10) (x1 : Option Upset) : Statement (.draw x0 x1) := no_packet rfl

theorem verify (x0 : BitVec 10) (x1 : Option Upset) : Statement (.verify x0 x1) := no_packet rfl

theorem dispatch (x0 : BitVec 10) (x1 : Option Upset) : Statement (.dispatch x0 x1) := no_packet rfl

theorem combine (x0 : BitVec 10) (x1 : Option Upset) : Statement (.combine x0 x1) := no_packet rfl

theorem matrixStreamedFiring (x0 : BitVec 10) (x1 : Option Upset) : Statement (.matrixStreamedFiring x0 x1) := no_packet rfl

theorem streamedFiring (x0 : BitVec 10) (x1 : Bool) (x2 : Option Upset) : Statement (.streamedFiring x0 x1 x2) := no_packet rfl

theorem sluiceFiring (x0 : BitVec 10) (x1 : BitVec 2) (x2 : Option Upset) : Statement (.sluiceFiring x0 x1 x2) := no_packet rfl

theorem messageEgress (x0 : BitVec 10) (x1 : Option Upset) : Statement (.messageEgress x0 x1) := no_packet rfl

theorem messageHop (x0 : BitVec 11) (x1 : Side) (x2 : BitVec 2) (x3 : Option FlitError) (x4 : Option Flips) : Statement (.messageHop x0 x1 x2 x3 x4) := no_packet rfl

theorem multicastSpread (x0 : BitVec 11) (x1 : Side) (x2 : BitVec 2) (x3 : Option FlitError) (x4 : Option FlitError) : Statement (.multicastSpread x0 x1 x2 x3 x4) := no_packet rfl

theorem messageDelivery (x0 : BitVec 11) (x1 : Side) (x2 : BitVec 2) (x3 : Option FlitError) : Statement (.messageDelivery x0 x1 x2 x3) := no_packet rfl

theorem backpressureReoffer (x0 : BitVec 10) (x1 : BitVec 6) : Statement (.backpressureReoffer x0 x1) := no_packet rfl

theorem overflowBasinMove (x0 : BitVec 10) (x1 : BitVec 6) (x2 : Option Upset) : Statement (.overflowBasinMove x0 x1 x2) := no_packet rfl

theorem steerSpillReturn (x0 : BitVec 10) (x1 : BitVec 6) : Statement (.steerSpillReturn x0 x1) := no_packet rfl

theorem treeInput (x0 : BitVec 11) (x1 : Side) : Statement (.treeInput x0 x1) := no_packet rfl

theorem instanceCombined (x0 : BitVec 11) (x1 : BitVec 6) (x2 : BitVec 16) : Statement (.instanceCombined x0 x1 x2) := no_packet rfl

theorem downMessage (x0 : BitVec 11) (x1 : Side) : Statement (.downMessage x0 x1) := no_packet rfl

theorem probeSend (x0 : BitVec 11) (x1 : Side) (x2 : BitVec 2) : Statement (.probeSend x0 x1 x2) := no_packet rfl

theorem probe (x0 : Nat) : Statement (.probe x0) := no_packet rfl

theorem reInjection (x0 : BitVec 11) (x1 : Option FlitError) : Statement (.reInjection x0 x1) := no_packet rfl

theorem add (x0 : BitVec 3) (x1 : Ecc) : Statement (.add x0 x1) := no_packet rfl

theorem set (x0 : BitVec 3) (x1 : Ecc) : Statement (.set x0 x1) := no_packet rfl

theorem wait (x0 : BitVec 3) (x1 : Ecc) : Statement (.wait x0 x1) := no_packet rfl

theorem wake (x0 : Nat) (x1 : Side) : Statement (.wake x0 x1) := no_packet rfl

theorem waitRetry (x0 : Nat) : Statement (.waitRetry x0) := no_packet rfl

theorem waiterTimeout (x0 : BitVec 3) (x1 : BitVec 12) (x2 : Nat) (x3 : Ecc) : Statement (.waiterTimeout x0 x1 x2 x3) := no_packet rfl

theorem switchTrigger (x0 : Nat) (x1 : Ecc) : Statement (.switchTrigger x0 x1) := no_packet rfl

theorem switchCensusClear (x0 : Nat) : Statement (.switchCensusClear x0) := no_packet rfl

theorem switchDrainEnd (x0 : Nat) (x1 : Option (BitVec 10)) (x2 : Option (BitVec 11 × Ecc)) : Statement (.switchDrainEnd x0 x1 x2) := no_packet rfl

theorem runDone (x0 : Nat) : Statement (.runDone x0) := no_packet rfl

theorem sectionTimeout (x0 : Nat) : Statement (.sectionTimeout x0) := no_packet rfl

theorem bundleBlock (x0 : BitVec 3) (x1 : Nat) : Statement (.bundleBlock x0 x1) := no_packet rfl

theorem serviceRecord (x0 : BitVec 3) : Statement (.serviceRecord x0) := no_packet rfl

theorem queueEntryTake (x0 : Byte) (x1 : Option Flips) : Statement (.queueEntryTake x0 x1) := no_packet rfl

theorem descriptorStart (x0 : Byte) (x1 : Option Flips) : Statement (.descriptorStart x0 x1) := no_packet rfl

theorem transferComplete (x0 : Byte) : Statement (.transferComplete x0) := no_packet rfl

theorem summaryGather (x0 : Byte) (x1 : Option Flips) : Statement (.summaryGather x0 x1) := no_packet rfl

theorem pageGather (x0 : Byte) (x1 : Option Flips) : Statement (.pageGather x0 x1) := no_packet rfl

theorem read (x0 : Nat) (x1 : Option Flips) : Statement (.read x0 x1) := no_packet rfl

theorem fetch (x0 : Nat) (x1 : Option Flips) : Statement (.fetch x0 x1) := no_packet rfl

theorem write (x0 : Nat) (x1 : Ecc) : Statement (.write x0 x1) := no_packet rfl

theorem ack (x0 : Nat) : Statement (.ack x0) := no_packet rfl

theorem data (x0 : Nat) : Statement (.data x0) := no_packet rfl

theorem scrub (x0 : ScrubStore) (x1 : Option Flips) : Statement (.scrub x0 x1) := no_packet rfl

theorem scrubOverrun (x0 : ScrubStore) : Statement (.scrubOverrun x0) := no_packet rfl

theorem correctedWriteBack (x0 : BitVec 11) : Statement (.correctedWriteBack x0) := no_packet rfl

theorem blockReceived (x0 : BitVec 3) (x1 : RxBlock) : Statement (.blockReceived x0 x1) := no_packet rfl

theorem linkReplayTimeout (x0 : BitVec 3) (x1 : Training) : Statement (.linkReplayTimeout x0 x1) := no_packet rfl

theorem ingressStall (x0 : BitVec 3) (x1 : BitVec 2) : Statement (.ingressStall x0 x1) := no_packet rfl

theorem pinEdge : Statement (.pinEdge) := no_packet rfl

theorem holdover : Statement (.holdover) := no_packet rfl

theorem marker (x0 : BitVec 3) : Statement (.marker x0) := no_packet rfl

theorem tideTick : Statement (.tideTick) := no_packet rfl

theorem sectionStart (x0 : BitVec 10) : Statement (.sectionStart x0) := no_packet rfl

theorem gaugeSignal (x0 : BitVec 10) (x1 : Ecc) : Statement (.gaugeSignal x0 x1) := no_packet rfl

theorem linkWindow (x0 : BitVec 10) : Statement (.linkWindow x0) := no_packet rfl

theorem linkWindowClose : Statement (.linkWindowClose) := no_packet rfl

theorem digestExchange (x0 : BitVec 10) (x1 : Option Flips) : Statement (.digestExchange x0 x1) := no_packet rfl

theorem vote (x0 : BitVec 4) : Statement (.vote x0) := no_packet rfl

theorem screen (x0 : BitVec 10) : Statement (.screen x0) := no_packet rfl

theorem screenTileStart (x0 : BitVec 2) : Statement (.screenTileStart x0) := no_packet rfl

theorem screenTileEnd (x0 : BitVec 2) (x1 : Option (BitVec 16)) : Statement (.screenTileEnd x0 x1) := no_packet rfl

theorem wardenBite (x0 : Bite) : Statement (.wardenBite x0) := no_packet rfl

theorem logEntryWrite : Statement (.logEntryWrite) := no_packet rfl

theorem perstNAssert : Statement (.perstNAssert) := no_packet rfl

theorem perstNRelease (x0 : Board) : Statement (.perstNRelease x0) := no_packet rfl

theorem ready : Statement (.ready) := no_packet rfl

theorem powerGoodRise (x0 : BitVec 4) : Statement (.powerGoodRise x0) := no_packet rfl

theorem powerGoodLoss (x0 : BitVec 4) : Statement (.powerGoodLoss x0) := no_packet rfl

theorem refclkLoss : Statement (.refclkLoss) := no_packet rfl

theorem thermalSample (x0 : List (BitVec 16)) : Statement (.thermalSample x0) := no_packet rfl

theorem droop (x0 : BitVec 3) : Statement (.droop x0) := no_packet rfl

theorem thermtrip : Statement (.thermtrip) := no_packet rfl

theorem telemetryRead (x0 : Byte) : Statement (.telemetryRead x0) := no_packet rfl

theorem railPoll (x0 : BitVec 4) (x1 : Option (BitVec 16 × BitVec 16)) : Statement (.railPoll x0 x1) := no_packet rfl

theorem transformEngineConversion (x0 : BitVec 10) (x1 : Option Upset) : Statement (.transformEngineConversion x0 x1) := no_packet rfl

theorem timedSwitchStart (x0 : Nat) (x1 : Ecc) : Statement (.timedSwitchStart x0 x1) := no_packet rfl

theorem entropyHealthTestFailure : Statement (.entropyHealthTestFailure) := no_packet rfl

theorem memoryUnitLost (x0 : BitVec 4) : Statement (.memoryUnitLost x0) := no_packet rfl

theorem sequencerRetryTimeout (x0 : BitVec 10) : Statement (.sequencerRetryTimeout x0) := no_packet rfl

theorem blockTransmit (x0 : BitVec 3) : Statement (.blockTransmit x0) := no_packet rfl

theorem bucketRelease (x0 : BitVec 3) (x1 : Byte) (x2 : BitVec 5) : Statement (.bucketRelease x0 x1 x2) := no_packet rfl

theorem hostSnoop (x0 : W64) : Statement (.hostSnoop x0) := no_packet rfl

theorem jtagAccess (x0 : JtagInstr) : Statement (.jtagAccess x0) := no_packet rfl

end Sys2Proof.Laws.RingCommand
end

