-- ==== Sys2Proof/Tests/Base.lean ====
section
/-! SUPPORT. Small states for the tests: a part that has booted, with one polder, one context, its ring and the privileged
ring, and a command packet posted to a ring. -/

namespace Sys2Proof.Tests

open Sys2Proof.Machine Sys2Proof.Safety

/-- A booted part: stack 0 trained and behind segment 0, the host link up, polder 0 with tiles 0 and 1 and segment 0, context 0
in it. The privileged ring's entries lie at device address 0, those of ring 0 at 0x1000. -/
def part0 : State := { State.reset with
  power := { Power.reset with perst := false, pg := 0x7FF, level := 2 }
  ready := true
  host := { HostPort.reset with link := .up }
  ms := { MemSys.reset with units := [(0, ⟨96, true, 0, 0, none, false⟩)], segs := [(0, 2)] }
  polders := [(0, ⟨[0x10000], [0, 1], 1, 0, 0⟩)]
  ctxs := [(0, ⟨0, 0, 0⟩)]
  rings := [(0, { RingSt.reset with base := 0x1000, line := 0x3000, cpl := 0x1000, enabled := true }),
    (64, { RingSt.reset with line := 0x2000, cpl := 0x2000, enabled := true })] }

/-- Memory with bytes at device address a of segment 0. -/
def putDev (s : State) (a : Nat) (bs : List Byte) : State := { s with mem := s.mem.putBytes (2 ^ 40 + a) bs }
/-- Memory with bytes at host address a. -/
def putHost (s : State) (a : Nat) (bs : List Byte) : State := { s with mem := s.mem.putBytes (hostBase + a) bs }

/-- Numbers as bytes: pairs of width and value. -/
def bytesOf : List (Nat × Nat) → List Byte
  | [] => []
  | (n, v) :: t => leBytes n v ++ bytesOf t

/-- A packet posted to a ring: up to 56 bytes of parameters in the packet, more in a block of host memory. -/
def post (s : State) (ring : Ring) (op : Nat) (par : List Byte) : State :=
  let r := ringNo ring
  let ctx := if r < 64 then r else 0
  let w := op + ctx * 2 ^ 24 + par.length * 2 ^ 48
  let a := (s.ring r).headAddr
  let s1 := if par.length ≤ 56 then putDev s a (leBytes 8 w ++ par)
    else putHost (putDev s a (leBytes 8 (w + 3 * 2 ^ 16) ++ leBytes 8 0x8000)) 0x8000 par
  s1.modRing r (fun x => { x with tail := x.head + 1 })

/-- The packet at the head of a ring. -/
abbrev pkt (s : State) (ring : Ring) : Pkt := readPkt s (ringNo ring)

/-- Weirs that hold nothing and stand open hold back no polder. -/
theorem unheld_of {s : State} (h : ∀ e ∈ s.weirs, e.2.rate = 256 ∧ e.2.held = [] ∧ e.2.granted = []) (c : Nat) : Unheld s c := by
  intro q _ w
  unfold State.weir agetD
  cases e : aget? s.weirs (8 * q + w) with
  | none => exact ⟨rfl, rfl, rfl⟩
  | some v => exact h _ (Sys2Proof.Machine.aget?_mem _ _ _ e)

/-- `Takes`, as a computation. -/
def takes (s : State) (ring : Ring) (op : Nat) (fs : Fields) : Bool :=
  let r := ringNo ring
  let p := pkt s ring
  decide (Sound ring ∧ (∀ e ∈ s.weirs, e.2.rate = 256 ∧ e.2.held = [] ∧ e.2.granted = []) ∧ s.mem.wf = true ∧ s.stopped = false ∧
    nextPkt s r = some p ∧ p.op = op ∧ autoStatus r p = none ∧ pktDenied r p = none ∧ p.outside = false ∧ fieldsOk p fs = true ∧
    (s.ring r).tail = (s.ring r).head + 1)

theorem takes_of {s : State} {ring : Ring} {op : Nat} {fs : Fields} (h : takes s ring op fs = true) :
    Takes s ring op fs (pkt s ring) :=
  have ⟨rings, weirs, state, rest⟩ := of_decide_eq_true h
  { sound := rings, unheld := unheld_of weirs _, canonical := state, runs := rest.1, next := rest.2.1, code := rest.2.2.1
    form := rest.2.2.2.1, allowed := rest.2.2.2.2.1, inside := rest.2.2.2.2.2.1, params := rest.2.2.2.2.2.2.1
    last := rest.2.2.2.2.2.2.2 }

theorem open_of {s : State} {host : Bool} {a n : Nat} (h : (host || s.populated a n && (closedTile s a n).isNone) = true) :
    Open s host a n := by
  simp only [Bool.or_eq_true, Bool.and_eq_true, Option.isNone_iff_eq_none] at h
  exact h

/-- What a test of the value shows of every value it may be. -/
theorem some_all {α : Type} {o : Option α} {P : α → Prop} [DecidablePred P] (h : o.all (fun a => decide (P a)) = true) :
    ∀ a, o = some a → P a := by
  rintro a rfl
  simpa using h

/-- What holds of every listed value and of the default holds of every value of a table. -/
theorem agetD_all {α : Type} {P : α → Prop} {t : Assoc α} {d : α} (h0 : P d) (h : ∀ e ∈ t, P e.2) (i : Nat) : P (agetD t i d) := by
  unfold agetD
  cases e : aget? t i with
  | none => exact h0
  | some v => exact h _ (Sys2Proof.Machine.aget?_mem t i v e)

theorem ring_all {s : State} {P : RingSt → Prop} (h0 : P RingSt.reset) (h : ∀ e ∈ s.rings, P e.2) (r : Nat) : P (s.ring r) :=
  agetD_all h0 h r

theorem tile_all {s : State} {P : Tile → Prop} (h0 : P Tile.reset) (h : ∀ e ∈ s.tiles, P e.2) (p : Nat) : P (s.tile p) :=
  agetD_all h0 h p

/-- A run of image 3 of context 0, asked for on the privileged ring and not switched in. -/
def run0 : Run :=
  { id := 1, ctx := 0, handle := 3, seqNo := 0, sched := none, userRing := false, irq := false, seed := 0, explicitGen := none
    gen := 0, pred := none, purge := false, due := none, armed := false, late := false, phase := .accepted, replays := 0
    committed := false, first := none, firstClk := 0, ran := 0, started := 0, timeoutAt := none, outgoing := [] }

/-- The command of that run. -/
def cmd0 : Cmd := ⟨0x40, 0, 0, false, [1]⟩

/-- Image 3 of context 0: one tile, staged in its slot 0. -/
def img0 : Image :=
  { ctx := 0, handle := 3, host := true, addr := 0x100000, len := 8192, digest := List.replicate 32 0, header := List.replicate 256 0
    timeout := 0, tiles := [0], slot := [(0, 0)], frames := [(0, 8)], settings := [], gauges := [], trees := [], inputs := []
    outputs := [], sigChecked := false, sigSlot := none, awaits := none }

end Sys2Proof.Tests
end

