-- ==== Sys2Proof/WellFormed.lean ====
section
/-! DEFINITION. Which operands a command can bring: those that name a place that the part has (R20, R59, R156, R264, Tables
13.1, 17.2, 17.4, 17.8) and facts of the outside that can hold there. The machine is total: a command that is not well formed
finds nothing to act on, or is read as its docstring says, and no statement rests on this check. -/

namespace Sys2Proof

/-- The steps of training that can fail on the line (Table 13.3). -/
def Training.wellFormed (t : Training) : Bool := [0, 1, 2, 3, 5, 6].contains t.failStep.toNat

def ScrubStore.wellFormed : ScrubStore → Bool
  | .tile p => p.toNat < 1088
  | .hbm _ => true
  | .lp5x _ => true

/-- One entry for each field die, stack and port; self-tests of codes 1-5 (Table 16.9). -/
def Board.wellFormed (b : Board) : Bool :=
  b.selfTest.toNat ≤ 5 && b.dieFail.length == 4 && b.stackFail.length == 8 && b.portFail.length == 8 && b.portGib.length == 8

def Instr.wellFormed : Instr → Bool
  | .nop _ => true
  | .query _ => true
  | .partitionCreate _ => true
  | .partitionDestroy _ => true
  | .weirSet _ => true
  | .contextCreate _ => true
  | .contextDestroy _ => true
  | .contextSave _ => true
  | .midSectionDrainEnd _ => true
  | .midSectionDrainTimeout _ => true
  | .contextRestore _ _ => true
  | .imageStage _ _ _ => true
  | .imageDrop _ => true
  | .imageForward _ _ => true
  | .forwardStatusTimeout => true
  | .sectionRun _ _ => true
  | .sectionStop _ => true
  | .scheduleAdd _ => true
  | .scheduleClear _ => true
  | .moveDefineQueue _ => true
  | .movePost _ => true
  | .moveResume _ => true
  | .moveRemove _ => true
  | .pageMapDefineTable _ => true
  | .pageMapMap _ => true
  | .pageMapDonate _ => true
  | .pageUnmapEntries _ => true
  | .pageUnmapTable _ => true
  | .pageUnmapInit _ => true
  | .pageShare _ => true
  | .pageMigrate _ => true
  | .gaugeSet _ _ => true
  | .gaugeRead _ _ => true
  | .gaugeReadTimeout _ _ => true
  | .digest _ => true
  | .replicaGroupDefine _ => true
  | .replicaGroupRemove _ => true
  | .clearExpulsion _ => true
  | .screenRunScreen _ => true
  | .screenRunRetire _ => true
  | .screenRunSetCtl _ => true
  | .screenPackLoad _ _ => true
  | .logRead _ => true
  | .countersRead _ => true
  | .unitEnable _ => true
  | .unitDisable _ => true
  | .unitTransitionComplete cls _ failStep => cls.toNat ≤ 4 && failStep.toNat ≤ 6
  | .linkTrain _ t => t.wellFormed
  | .tideConfigSource _ => true
  | .tideConfigPeriod _ => true
  | .tideConfigCount _ => true
  | .tideConfigOutput _ => true
  | .attest _ _ => true
  | .fwUpdate _ _ => true
  | .ownerPolicySet _ => true
  | .zeroize _ => true
  | .fabricReset _ => true
  | .tailWriteObserved _ _ _ => true
  | .replyWrite _ _ => true
  | .msixCoalesceExpiry _ => true
  | .cpCtlWrite _ => true
  | .cpHaltResume _ _ => true
  | .cpLandWrite _ _ => true
  | .hdmDecoderCommit _ _ _ => true
  | .hostMemoryAccess _ _ flips => (flips.map (·.piece)).all (· == 0)
  | .hostLinkRecovery => true
  | .hostLinkDown => true
  | .mailboxGo _ => true
  | .gaugeSelWrite _ _ => true
  | .ctxGaugeRead _ _ _ => true
  | .tideCountRead _ => true
  | .pumpCtlWrite pump _ => pump.toNat < 40
  | .segmentWrite _ _ _ => true
  | .halt p _ => p.toNat < 1088
  | .step p => p.toNat < 1088
  | .registerWrite _ off wide _ => off.toNat % (if wide then 8 else 4) == 0
  | .issue _ _ => true
  | .issueQueueSlotFree _ => true
  | .waitGauge _ _ => true
  | .signalGauge _ _ => true
  | .fenceRelease _ => true
  | .gaugeQueueFree _ _ => true
  | .send _ _ _ => true
  | .egressBufferFree _ _ => true
  | .watch _ _ => true
  | .watchReevaluate _ => true
  | .watchTimeout _ => true
  | .swap _ _ => true
  | .branch _ _ => true
  | .endProgram _ _ => true
  | .mma _ _ => true
  | .attn _ _ => true
  | .vectorEngineOperation _ _ => true
  | .reductionOperation _ _ => true
  | .draw _ _ => true
  | .verify _ _ => true
  | .dispatch _ _ => true
  | .combine _ _ => true
  | .matrixStreamedFiring _ _ => true
  | .streamedFiring _ _ _ => true
  | .sluiceFiring _ _ _ => true
  | .messageEgress _ _ => true
  | .messageHop p _ lane _ _ => 1088 ≤ p.toNat || lane.toNat < 3
  | .multicastSpread p _ lane _ _ => p.toNat < 1088 && lane.toNat < 3
  | .messageDelivery p _ lane _ => p.toNat < 1088 && lane.toNat < 3
  | .backpressureReoffer _ port => port.toNat < 56
  | .overflowBasinMove _ port _ => port.toNat < 48
  | .steerSpillReturn _ port => port.toNat < 48
  | .treeInput p _ => p.toNat < 1088
  | .instanceCombined p _ _ => p.toNat < 1088
  | .downMessage p _ => p.toNat < 1088
  | .probeSend p _ lane => p.toNat < 1088 && lane.toNat < 3
  | .probe _ => true
  | .reInjection p _ => p.toNat < 1088
  | .add b _ => b.toNat ≤ 4
  | .set b _ => b.toNat ≤ 4
  | .wait b _ => b.toNat ≤ 4
  | .wake _ _ => true
  | .waitRetry _ => true
  | .waiterTimeout b _ _ _ => b.toNat ≤ 4
  | .switchTrigger _ _ => true
  | .switchCensusClear _ => true
  | .switchDrainEnd _ _ _ => true
  | .runDone _ => true
  | .sectionTimeout _ => true
  | .bundleBlock _ _ => true
  | .serviceRecord _ => true
  | .queueEntryTake _ _ => true
  | .descriptorStart _ _ => true
  | .transferComplete _ => true
  | .summaryGather _ _ => true
  | .pageGather _ _ => true
  | .read _ _ => true
  | .fetch _ _ => true
  | .write _ _ => true
  | .ack _ => true
  | .data _ => true
  | .scrub store _ => store.wellFormed
  | .scrubOverrun store => store.wellFormed
  | .correctedWriteBack p => p.toNat < 1088
  | .blockReceived _ b => b.bytes.length == 2570
  | .linkReplayTimeout _ t => t.wellFormed
  | .ingressStall _ lane => lane.toNat < 3
  | .pinEdge => true
  | .holdover => true
  | .marker _ => true
  | .tideTick => true
  | .sectionStart _ => true
  | .gaugeSignal _ _ => true
  | .linkWindow _ => true
  | .linkWindowClose => true
  | .digestExchange _ _ => true
  | .vote _ => true
  | .screen _ => true
  | .screenTileStart _ => true
  | .screenTileEnd _ _ => true
  | .wardenBite _ => true
  | .logEntryWrite => true
  | .perstNAssert => true
  | .perstNRelease b => b.wellFormed
  | .ready => true
  | .powerGoodRise i => i.toNat ≤ 10
  | .powerGoodLoss i => i.toNat ≤ 10
  | .refclkLoss => true
  | .thermalSample temps => temps.length == 13
  | .droop die => die.toNat < 4
  | .thermtrip => true
  | .telemetryRead _ => true
  | .railPoll r _ => r.toNat < 14
  | .transformEngineConversion _ _ => true
  | .timedSwitchStart _ _ => true
  | .entropyHealthTestFailure => true
  | .memoryUnitLost _ => true
  | .sequencerRetryTimeout _ => true
  | .blockTransmit _ => true
  | .bucketRelease _ weir _ => weir.toNat ≤ 5
  | .hostSnoop _ => true
  | .jtagAccess _ => true

end Sys2Proof
end

