-- ==== Sys2Proof/Tests/Slice0.lean ====
section
/-! SUPPORT. Tests: a command that each check of `Instr.wellFormed` refuses, beside its neighbour that passes, and small facts of
the spec by hand. The witnesses of the statements stand in Tests/WitnessA.lean and the files after it. -/

namespace Sys2Proof.Tests

set_option Elab.async false

open Sys2Proof.Machine

/-! ## Well-formed commands -/

def board (selfTest : BitVec 4) (nst : Nat) : Board :=
  ⟨true, none, none, selfTest, true, List.replicate 4 0, List.replicate nst 0, List.replicate 8 0, List.replicate 8 16, []⟩

theorem test_wellFormed_unit : Instr.wellFormed (.unitTransitionComplete 4 0 6) = true ∧
    Instr.wellFormed (.unitTransitionComplete 5 0 0) = false ∧ Instr.wellFormed (.unitTransitionComplete 0 0 7) = false := by decide

/-- Step 4 of training is a check of the part's own, and fails on no line (R322). -/
theorem test_wellFormed_training : Instr.wellFormed (.linkTrain .priv ⟨6, 0, 0, 0⟩) = true ∧
    Instr.wellFormed (.linkTrain .priv ⟨4, 0, 0, 0⟩) = false ∧ Instr.wellFormed (.linkReplayTimeout 0 ⟨7, 0, 0, 0⟩) = false := by decide

theorem test_wellFormed_hostAccess : Instr.wellFormed (.hostMemoryAccess 0 .read (some ⟨0, 1, 0, 0⟩)) = true ∧
    Instr.wellFormed (.hostMemoryAccess 0 .read (some ⟨1, 1, 0, 0⟩)) = false := by decide

theorem test_wellFormed_pump : Instr.wellFormed (.pumpCtlWrite 39 0) = true ∧ Instr.wellFormed (.pumpCtlWrite 40 0) = false := by decide

theorem test_wellFormed_window : Instr.wellFormed (.halt 1087 1) = true ∧ Instr.wellFormed (.halt 1088 1) = false ∧
    Instr.wellFormed (.step 1087) = true ∧ Instr.wellFormed (.step 1088) = false := by decide

theorem test_wellFormed_register : Instr.wellFormed (.registerWrite false 0x1C false 0) = true ∧
    Instr.wellFormed (.registerWrite false 0x1E false 0) = false ∧ Instr.wellFormed (.registerWrite false 0x1C true 0) = false := by decide

theorem test_wellFormed_router : Instr.wellFormed (.messageHop 1087 .north 2 none none) = true ∧
    Instr.wellFormed (.messageHop 1088 .north 3 none none) = true ∧ Instr.wellFormed (.messageHop 0 .north 3 none none) = false ∧
    Instr.wellFormed (.multicastSpread 0 .tile 3 none none) = false ∧ Instr.wellFormed (.messageDelivery 1088 .tile 0 none) = false ∧
    Instr.wellFormed (.treeInput 1088 .west) = false ∧ Instr.wellFormed (.instanceCombined 1088 0 0) = false ∧
    Instr.wellFormed (.downMessage 1088 .west) = false ∧ Instr.wellFormed (.probeSend 0 .west 3) = false ∧
    Instr.wellFormed (.reInjection 1088 none) = false := by decide

theorem test_wellFormed_port : Instr.wellFormed (.backpressureReoffer 0 55) = true ∧ Instr.wellFormed (.backpressureReoffer 0 56) = false ∧
    Instr.wellFormed (.overflowBasinMove 0 48 none) = false ∧ Instr.wellFormed (.steerSpillReturn 0 48) = false := by decide

theorem test_wellFormed_gauge : Instr.wellFormed (.add 4 .clean) = true ∧ Instr.wellFormed (.add 5 .clean) = false ∧
    Instr.wellFormed (.set 5 .clean) = false ∧ Instr.wellFormed (.wait 5 .clean) = false ∧
    Instr.wellFormed (.waiterTimeout 5 0 0 .clean) = false := by decide

theorem test_wellFormed_scrub : Instr.wellFormed (.scrub (.tile 1087) none) = true ∧ Instr.wellFormed (.scrub (.tile 1088) none) = false ∧
    Instr.wellFormed (.scrubOverrun (.tile 1088)) = false ∧ Instr.wellFormed (.correctedWriteBack 1088) = false := by decide

theorem test_wellFormed_link : Instr.wellFormed (.blockReceived 0 ⟨true, 0, []⟩) = false ∧
    Instr.wellFormed (.ingressStall 0 2) = true ∧ Instr.wellFormed (.ingressStall 0 3) = false := by decide

theorem test_wellFormed_board : Instr.wellFormed (.perstNRelease (board 5 8)) = true ∧
    Instr.wellFormed (.perstNRelease (board 6 8)) = false ∧ Instr.wellFormed (.perstNRelease (board 0 7)) = false := by decide

theorem test_wellFormed_power : Instr.wellFormed (.powerGoodRise 10) = true ∧ Instr.wellFormed (.powerGoodRise 11) = false ∧
    Instr.wellFormed (.powerGoodLoss 11) = false ∧ Instr.wellFormed (.thermalSample (List.replicate 13 0)) = true ∧
    Instr.wellFormed (.thermalSample (List.replicate 12 0)) = false ∧ Instr.wellFormed (.droop 3) = true ∧
    Instr.wellFormed (.droop 4) = false ∧ Instr.wellFormed (.railPoll 13 none) = true ∧ Instr.wellFormed (.railPoll 14 none) = false := by decide

theorem test_wellFormed_weir : Instr.wellFormed (.bucketRelease 0 5 0) = true ∧ Instr.wellFormed (.bucketRelease 0 6 0) = false := by decide

/-! ## Numbers -/

/-- Worked example, a stochastic rounding draw (03): 1.5 + 4,660 of 65,536 of a step, drawn with 2,748 and with 23,841. -/
theorem test_stochastic_rounding : fmtBf16.enc (.stoch 2748) false (d32 0x3FC01234) = 0x3FC1 ∧
    fmtBf16.enc (.stoch 23841) false (d32 0x3FC01234) = 0x3FC0 := by decide +kernel

/-- Worked example, a block-scaled dot product (03): the products of Table 3.6, and the sum 2^24 + 9 rounded once. -/
theorem test_dot_product :
    (List.zipWith (fun a b => r32 ((fmtE2m1.dec a).mul (fmtE4m3.dec b))) [3, 9, 7, 0] [0x40, 0x44, 0x20, 0x7E] =
      [0x40400000, 0xBFC00000, 0x3F400000, 0]) ∧ fadd 0x4B800000 0x41100000 = 0x4B800004 ∧
    decScaled 0x0C 3 0x7C = .fin false 3 (-4) := by
  decide +kernel

/-- The table of outcomes under R151: a clean word, data bit 64 × 2 + 5 flipped, a check bit of a row flipped, and two data bits. -/
theorem test_check_code :
    readFlipped 0x123 0 0 = (.clean, 0x123) ∧ readFlipped 0x123 (1 <<< 133) 0 = (.corrected, 0x123) ∧
    readFlipped 0x123 0 1 = (.corrected, 0x123) ∧ (readFlipped 0x123 3 0).1 = .uncorrectable := by decide +kernel

/-- SHA-256 of the three bytes of "abc" (FIPS 180-4, R398), and the CRC-32 of the digits 1 to 9 (IEEE 802.3, R318). -/
theorem test_digests :
    (sha256 [0x61, 0x62, 0x63]).take 8 = [0xBA, 0x78, 0x16, 0xBF, 0x8F, 0x01, 0xCF, 0xEA] ∧
    crc32 [0x31, 0x32, 0x33, 0x34, 0x35, 0x36, 0x37, 0x38, 0x39] = 0xCBF43926 := by
  rw [Laws.Eval.sha256_eq]; decide +kernel

end Sys2Proof.Tests
end

