-- ==== Sys2Proof/Tests/WitnessA.lean ====
section
/-! SUPPORT. Witnesses: for the statements about ring commands, states and operands that meet the hypotheses of each clause. -/

namespace Sys2Proof.Tests

-- One theorem after the other: each evaluation by the kernel waits for all before it, and would hold a thread while it waits.
set_option Elab.async false

open Sys2Proof.Machine Sys2Proof.Safety

/-! ## NopQueryLogCounters -/

theorem witness_nop : let s := post part0 (.user 0) 0x01 []
    Takes s (.user 0) 0x01 [] (pkt s (.user 0)) := takes_of (by decide +kernel)

def sQuery (a : Nat) : State := post part0 (.user 0) 0x02 (bytesOf [(8, a), (1, 0)])

theorem witness_query : let s := sQuery 0x4000; let p := pkt s (.user 0)
    Takes s (.user 0) 0x02 [(8, 8, 0), (16, 1, 1)] p ∧ Open s (bitOf (p.b 16 1) 0) (p.b 8 8) 256 ∧
    mayReach s (ringNo (.user 0)) (bitOf (p.b 16 1) 0) (p.b 8 8) 256 = true :=
  ⟨takes_of (by decide +kernel), open_of (by decide +kernel), by decide +kernel⟩

/-- The last 256 bytes of segment 0 and the first beyond it. -/
theorem witness_query_denied : let s := sQuery (12 * 2 ^ 30); let p := pkt s (.user 0)
    Takes s (.user 0) 0x02 [(8, 8, 0), (16, 1, 1)] p ∧ mayReach s (ringNo (.user 0)) (bitOf (p.b 16 1) 0) (p.b 8 8) 256 = false :=
  ⟨takes_of (by decide +kernel), by decide +kernel⟩

def sLog (n : Nat) : State := post ({ part0 with log := { Log.reset with entries := [⟨List.replicate 32 7, false⟩, ⟨List.replicate 32 9, true⟩] } })
  .priv 0x80 (bytesOf [(1, 1), (7, 0), (8, 0x9000), (2, n)])

theorem witness_logRead : ∀ n ∈ [1, 4096], let s := sLog n; let p := pkt s .priv
    Takes s .priv 0x80 [(8, 1, 1), (16, 8, 0), (24, 2, 0)] p ∧ 1 ≤ p.b 24 2 ∧ p.b 24 2 ≤ 4096 ∧
    Open s (bitOf (p.b 8 1) 0) (p.b 16 8) (((s.log.entries.filter (fun e => !e.bad)).reverse.take (p.b 24 2)).flatMap (·.bytes)).length := by
  intro n hn
  simp only [List.mem_cons, List.not_mem_nil, or_false] at hn
  rcases hn with rfl | rfl <;> exact ⟨takes_of (by decide +kernel), by decide +kernel, by decide +kernel, open_of (by decide +kernel)⟩

def sCounters (w t : Nat) : State := post part0 .priv 0x81 (bytesOf [(1, w), (1, 1), (2, t), (4, 0), (8, 0x9000)])

theorem witness_countersRead : ∀ e ∈ [(0, 1087), (1, 1088)], let s := sCounters e.1 e.2; let p := pkt s .priv
    Takes s .priv 0x81 [(8, 1, 1), (9, 1, 1), (10, 2, 0), (16, 8, 0)] p ∧ (p.b 8 1 = 0 → p.b 10 2 < 272 * s.dies) ∧
    Open s (bitOf (p.b 9 1) 0) (p.b 16 8) (if p.b 8 1 = 0 then windowImage s (p.b 10 2) else healthImage s).length := by
  intro e he
  simp only [List.mem_cons, List.not_mem_nil, or_false] at he
  rcases he with rfl | rfl <;> exact ⟨takes_of (by decide +kernel), by decide +kernel, open_of (by decide +kernel)⟩

/-- The same of an LTK-1620, whose first absent tile is 544. -/
def sAbsent : State := post { part0 with part := { Part.reset with is1620 := true } } .priv 0x81
  (bytesOf [(1, 0), (1, 1), (2, 544), (4, 0), (8, 0x9000)])

theorem witness_countersRead_absent : let s := sAbsent; let p := pkt s .priv
    Takes s .priv 0x81 [(8, 1, 1), (9, 1, 1), (10, 2, 0), (16, 8, 0)] p ∧ p.b 8 1 = 0 ∧ 272 * s.dies ≤ p.b 10 2 ∧ p.b 10 2 < 1088 :=
  ⟨takes_of (by decide +kernel), by decide +kernel⟩

/-! ## PolderCreateDestroy, WeirSettings -/

/-- PARTITION_CREATE of polder k with one rectangle of tiles 2 and 3. -/
def sCreate (k : Nat) : State := post part0 .priv 0x10
  (bytesOf [(1, k), (1, 1), (1, 0), (5, 0), (8, 0), (8, 0), (8, 0), (1, 0), (1, 2), (1, 3), (1, 0), (1, 0), (3, 0)])

theorem witness_partitionCreate : let s := sCreate 7; let p := pkt s .priv; let tiles := (pcRects p).flatMap regionTiles
    Takes s .priv 0x10 (pcFields p) p ∧ 1 ≤ p.b 9 1 ∧ p.b 9 1 ≤ 16 ∧ s.polder? (p.b 8 1) = none ∧
    (∀ e ∈ pcRects p, regionWellFormed e = true) ∧ tiles.Nodup ∧ segsUnpopulated s 0 (p.b 16 8) = false ∧
    segsUnpopulated s 1 (p.b 24 8) = false ∧ (∀ n ∈ tiles, s.tileOn n = true) ∧
    (∀ i, i < 8 → bitOf (p.b 10 1) i = true → i < s.nports) ∧
    (∀ e ∈ s.polders, (∀ n ∈ tiles, n ∉ e.2.tiles) ∧ e.2.hseg.toNat &&& p.b 16 8 = 0 ∧ e.2.lseg.toNat &&& p.b 24 8 = 0 ∧
      e.2.ports.toNat &&& p.b 10 1 = 0) :=
  ⟨takes_of (by decide +kernel), by decide +kernel⟩

theorem witness_partitionCreate_busy : let s := sCreate 0; let p := pkt s .priv
    Takes s .priv 0x10 (pcFields p) p ∧ 1 ≤ p.b 9 1 ∧ p.b 9 1 ≤ 16 ∧ (s.polder? (p.b 8 1)).isSome = true :=
  ⟨takes_of (by decide +kernel), by decide +kernel⟩

theorem witness_partitionDestroy : let s := post { part0 with ctxs := [] } .priv 0x11 [0]; let p := pkt s .priv
    Takes s .priv 0x11 [(8, 1, 7)] p ∧ asorted s.polders = true ∧ (s.polder? (p.b 8 1)).isSome = true ∧
    (∀ e ∈ s.ctxs, e.2.polder ≠ p.b 8 1) :=
  ⟨takes_of (by decide +kernel), by decide +kernel⟩

theorem witness_partitionDestroy_busy : let s := post part0 .priv 0x11 [0]; let p := pkt s .priv
    Takes s .priv 0x11 [(8, 1, 7)] p ∧ (s.polder? (p.b 8 1)).isSome = true ∧ (0, ⟨0, 0, 0⟩) ∈ s.ctxs ∧
    (⟨0, 0, 0⟩ : Context).polder = p.b 8 1 :=
  ⟨takes_of (by decide +kernel), by decide +kernel⟩

def sWeir (k w r b : Nat) : State := post part0 .priv 0x12 (bytesOf [(1, k), (1, w), (2, r), (4, b)])

theorem witness_weirSet : ∀ e ∈ [(5, 256, 1048576), (0, 0, 4)], let s := sWeir 0 e.1 e.2.1 e.2.2; let p := pkt s .priv
    Takes s .priv 0x12 [(8, 1, 7), (9, 1, 0), (10, 2, 0), (12, 4, 0)] p ∧ (s.polder? (p.b 8 1)).isSome = true ∧ p.b 9 1 ≤ 5 ∧
    p.b 10 2 ≤ 256 ∧ 4 ≤ p.b 12 4 ∧ p.b 12 4 ≤ 1048576 := by
  intro e he
  simp only [List.mem_cons, List.not_mem_nil, or_false] at he
  rcases he with rfl | rfl <;> exact ⟨takes_of (by decide +kernel), by decide +kernel⟩

theorem witness_weirSet_refused : ∀ e ∈ [(1, 5, 256, 4), (0, 6, 0, 4), (0, 0, 257, 4), (0, 0, 0, 3), (0, 0, 0, 1048577)],
    let s := sWeir e.1 e.2.1 e.2.2.1 e.2.2.2; let p := pkt s .priv
    Takes s .priv 0x12 [(8, 1, 7), (9, 1, 0), (10, 2, 0), (12, 4, 0)] p ∧
    (s.polder? (p.b 8 1) = none ∨ 5 < p.b 9 1 ∨ 256 < p.b 10 2 ∨ p.b 12 4 < 4 ∨ 1048576 < p.b 12 4) := by
  intro e he
  simp only [List.mem_cons, List.not_mem_nil, or_false] at he
  rcases he with rfl | rfl | rfl | rfl | rfl <;> exact ⟨takes_of (by decide +kernel), by decide +kernel⟩

theorem witness_fabricReset : let s := post part0 .priv 0xF0 []
    Takes s .priv 0xF0 [] (pkt s .priv) := takes_of (by decide +kernel)

/-- A weir of polder 0 that holds back unit 9 at bucket 3. -/
def sHeld (rate : Nat) (tokens : Int) : State :=
  part0.setWeir 0 1 { part0.weir 0 1 with rate := rate, tokens := [(3, tokens)], held := [(3, 9)] }

theorem witness_bucketRelease : ∀ e ∈ [(256, -1), (1, 0)], let s := sHeld e.1 e.2; let x := s.weir (0 : BitVec 3).toNat (1 : Byte).toNat
    Canonical s ∧ Runs s ∧ (1 : Byte).toNat ≤ 5 ∧ aget? x.held (3 : BitVec 5).toNat = some 9 ∧
    (x.rate = 256 ∨ (0 ≤ x.t (3 : BitVec 5).toNat ∧ x.rate ≠ 0)) := by
  unfold Canonical Runs; decide +kernel

theorem witness_bucketRelease_waits : ∀ e ∈ [(255, -1), (0, 5)], let s := sHeld e.1 e.2; let x := s.weir (0 : BitVec 3).toNat (1 : Byte).toNat
    Canonical s ∧ Runs s ∧ x.rate ≠ 256 ∧ (x.t (3 : BitVec 5).toNat < 0 ∨ x.rate = 0) := by
  unfold Canonical Runs; decide +kernel

end Sys2Proof.Tests
end

