-- ==== Sys2Proof/Tests/WitnessB.lean ====
section
/-! SUPPORT. Witnesses: for the statements about contexts, images and runs, states and operands that meet the hypotheses of each
clause. -/

namespace Sys2Proof.Tests

-- One theorem after the other: each evaluation by the kernel waits for all before it, and would hold a thread while it waits.
set_option Elab.async false

open Sys2Proof.Machine Sys2Proof.Safety

/-! ## ContextCreateDestroy -/

def ccFields : Fields := [(8, 1, 63), (9, 1, 7), (10, 1, 0), (11, 1, 0), (12, 2, 0), (16, 8, 0), (24, 8, 0), (32, 8, 0)]

def sCtx (c : Nat) : State := post part0 .priv 0x20
  (bytesOf [(1, c), (1, 0), (1, 6), (1, 16), (2, 0), (2, 0), (8, 0x4000), (8, 0x8000), (8, 0x6000)])

theorem witness_contextCreate : let s := sCtx 63; let p := pkt s .priv
    Takes s .priv 0x20 ccFields p ∧ (s.polder? (p.b 9 1)).isSome = true ∧ 6 ≤ p.b 10 1 ∧ p.b 10 1 ≤ 16 ∧ 6 ≤ p.b 11 1 ∧
    p.b 11 1 ≤ 16 ∧ ringPlaced s (some (p.b 9 1)) (p.b 16 8) (p.b 24 8) (p.b 32 8) (p.b 10 1) = true ∧
    aget? s.ctxs (p.b 8 1) = none :=
  ⟨takes_of (by decide +kernel), by decide +kernel⟩

theorem witness_contextCreate_busy : let s := sCtx 0; let p := pkt s .priv
    Takes s .priv 0x20 ccFields p ∧ (s.polder? (p.b 9 1)).isSome = true ∧ 6 ≤ p.b 10 1 ∧ p.b 10 1 ≤ 16 ∧ 6 ≤ p.b 11 1 ∧
    p.b 11 1 ≤ 16 ∧ ringPlaced s (some (p.b 9 1)) (p.b 16 8) (p.b 24 8) (p.b 32 8) (p.b 10 1) = true ∧
    (aget? s.ctxs (p.b 8 1)).isSome = true :=
  ⟨takes_of (by decide +kernel), by decide +kernel⟩

def sDestroy : State := post { part0 with images := [img0] } .priv 0x21 [0]

theorem sDestroy_tiles (n : Nat) : (sDestroy.ltile n).sect.configured = false :=
  tile_all (P := fun x => x.sect.configured = false) (by decide) (by decide +kernel) (sDestroy.phys n)

theorem witness_contextDestroy : let s := sDestroy; let p := pkt s .priv; let c := p.b 8 1
    Takes s .priv 0x21 [(8, 1, 63)] p ∧ (aget? s.ctxs c).isSome = true ∧ asorted s.ctxs = true ∧ asorted s.rings = true ∧
    s.runs = [] ∧ (∀ r, (s.ring r).accepted = []) ∧ (s.ring c).replies = [] ∧
    (∀ n, (s.ltile n).sect.configured = true → (s.ltile n).sect.ctx.toNat ≠ c) :=
  ⟨takes_of (by decide +kernel), by decide +kernel, by decide +kernel, by decide +kernel, by decide +kernel,
    ring_all (P := fun x => x.accepted = []) (by decide) (by decide +kernel), by decide +kernel,
    fun n h => absurd ((sDestroy_tiles n).symm.trans h) (by decide)⟩

/-! ## ContextSaves -/

def csFields : Fields := [(8, 1, 63), (9, 1, 1), (16, 8, 0), (24, 8, 0)]

/-- CONTEXT_SAVE of context 0 at 0x10000 with this capacity; `mid` asks for a save within a section. -/
def sSave (s : State) (mid cap : Nat) : State := post s .priv 0x22 (bytesOf [(1, 0), (1, mid), (6, 0), (8, 0x10000), (8, cap)])

theorem witness_save_waits : let s := sSave { part0 with runs := [run0] } 0 256; let p := pkt s .priv
    Takes s .priv 0x22 csFields p ∧ s.ctxLive (p.b 8 1) = true ∧ (s.memAt (p.b 16 8)).isSome = true ∧ bitOf (p.b 9 1) 0 = false ∧
    s.saves = [] ∧ (∃ r ∈ s.runs, r.ctx = p.b 8 1) :=
  ⟨takes_of (by decide +kernel), by decide +kernel⟩

theorem witness_save : ∀ cap ∈ [256, 255], let s := sSave part0 0 cap; let p := pkt s .priv
    Takes s .priv 0x22 csFields p ∧ s.ctxLive (p.b 8 1) = true ∧ (s.memAt (p.b 16 8)).isSome = true ∧ bitOf (p.b 9 1) 0 = false ∧
    s.saves = [] ∧ (∀ r ∈ s.runs, r.ctx ≠ p.b 8 1) ∧ p.cmd [p.b 8 1] ∉ (s.ring privRing).accepted ∧
    (s.ring (p.b 8 1)).saving = false ∧
    (cap = 256 → (contextRecord s (p.b 8 1) false).length ≤ p.b 24 8 ∧
      s.inMemory (p.b 16 8) (contextRecord s (p.b 8 1) false).length = true) ∧
    (cap = 255 → p.b 24 8 < (contextRecord s (p.b 8 1) false).length) := by
  intro e he
  simp only [List.mem_cons, List.not_mem_nil, or_false] at he
  rcases he with rfl | rfl <;> exact ⟨takes_of (by decide +kernel), by decide +kernel⟩

theorem witness_save_mid : let s := sSave { part0 with runs := [{ run0 with phase := .running }], images := [img0] } 1 256; let p := pkt s .priv
    Takes s .priv 0x22 csFields p ∧ s.ctxLive (p.b 8 1) = true ∧ (s.memAt (p.b 16 8)).isSome = true ∧ bitOf (p.b 9 1) 0 = true ∧
    savedTiles s (p.b 8 1) = [0] :=
  ⟨takes_of (by decide +kernel), by decide +kernel⟩

def save0 : Save := ⟨64, ⟨0x22, 0, 0, false, [0]⟩, 0, true, 0x10000, 256, [], 5⟩

theorem witness_drainEnd : let s : State := { part0 with saves := [save0] }
    Canonical s ∧ Runs s ∧ s.saves.find? (fun y => y.mid && y.ctx == (0 : BitVec 6).toNat) = some save0 ∧
    drained s (0 : BitVec 6).toNat = true ∧ (contextRecord s (0 : BitVec 6).toNat true).length ≤ save0.cap ∧
    s.inMemory save0.addr (contextRecord s (0 : BitVec 6).toNat true).length = true := by
  unfold Canonical Runs; decide +kernel

theorem witness_drainTimeout : let s : State := { part0 with saves := [save0], clk := 5 }
    Canonical s ∧ Runs s ∧ s.saves.find? (fun y => y.mid && y.ctx == (0 : BitVec 6).toNat) = some save0 ∧ save0.due ≤ s.clk := by
  unfold Canonical Runs; decide +kernel

/-! ## ContextRestorePutsContextBack -/

def crParams : Fields := [(8, 1, 63), (9, 1, 7), (16, 8, 0), (24, 8, 0)]

/-- A boundary record of a context without handles, gauges, queues or tables, written out from Table 14.4. -/
def record0 : List Byte := padTo 256 (bytesOf [(4, 0x434B544C), (2, 1), (2, 0x1640), (4, 2359360), (4, 0), (8, 256), (8, 0),
  (32, 108413411060804821900116516382870665309134492515510420853141389855511874544430), (1, 6), (1, 6), (2, 0), (4, 0), (8, 0x1000),
  (8, 0x3000), (8, 0x1000)])

/-- CONTEXT_RESTORE of context c from that record. -/
def sRestore (c : Nat) : State :=
  post { putDev part0 0x10000 record0 with ctxs := [(1, ⟨0, 0, 0⟩)], rings := [(64, part0.ring 64)] } .priv 0x23
    (bytesOf [(1, c), (1, 0), (6, 0), (8, 0x10000), (8, 256)])

/-- A computation answers, as a Bool. -/
def answers {ε α : Type} : Except ε α → Bool
  | .ok _ => true
  | .error _ => false

theorem of_answers {ε α : Type} {x : Except ε α} (h : answers x = true) : ∃ a, x = .ok a := by
  cases x with
  | ok a => exact ⟨a, rfl⟩
  | error _ => exact absurd h (by simp [answers])

theorem witness_restore : let s := sRestore 63; let p := pkt s .priv; let s0 := noteAccess (advance s privRing) 0 (p.b 16 8) (p.b 24 8)
    let rd (o n : Nat) : List Byte := s0.devRead (p.b 16 8 + o) n
    Takes s .priv 0x23 crParams p ∧ restoreHeld s privRing 0 = false ∧
    (∃ s1, restoreChecks s0 rd (p.b 24 8) (p.b 8 1) (p.b 9 1) 0 = .ok s1) ∧ recRuns rd = [] ∧ (recTiles rd).1 = [] :=
  ⟨takes_of (by decide +kernel), by decide +kernel, of_answers (by decide +kernel), by decide +kernel, by decide +kernel⟩

theorem witness_restore_busy : let s := sRestore 1; let p := pkt s .priv
    Takes s .priv 0x23 crParams p ∧ (aget? s.ctxs (p.b 8 1)).isSome = true ∧ s.populated (p.b 16 8) (p.b 24 8) = true ∧
    closedTile s (p.b 16 8) (p.b 24 8) = none :=
  ⟨takes_of (by decide +kernel), by decide +kernel⟩

end Sys2Proof.Tests
end

