-- ==== Sys2Proof/Tests/WitnessC.lean ====
section
/-! SUPPORT. Witnesses: for the statements about images, bundles, runs, the schedule and pump queues, states and operands that
meet the hypotheses of each clause. -/

namespace Sys2Proof.Tests

-- One theorem after the other: each evaluation by the kernel waits for all before it, and would hold a thread while it waits.
set_option Elab.async false

open Sys2Proof.Machine Sys2Proof.Safety

/-! ## ImageStageAndDrop -/

/-- An image of 8,192 bytes for tile 0 with its configuration frame 3, in pieces by offset, written out from Tables 9.1 and 9.2:
header with digest d, the region with the frame table, and the program length of the frame. Every byte between is zero. -/
def putImage (s : State) (a d : Nat) : State :=
  putHost (putHost (putHost s a (bytesOf [(4, 0x534B544C), (2, 1), (2, 0x1640), (4, 1), (4, 2359360), (4, 8192), (8, 0), (4, 256), (2, 1),
    (2, 0), (4, 272), (4, 0), (4, 264), (4, 1), (4, 4096), (8, 0), (32, d)])) (a + 256) (bytesOf [(8, 0), (8, 0xC00)])) (a + 4096 + 0x3A4) [1]

/-- The digest of that image: SHA-256 with the digest bytes read as zero (R213). -/
def digest1 : Nat := 4931037940538862201514911628077796458948985907902840079528584990109325383536

/-- The image is in host memory and IMAGE_STAGE names it, as handle 3 of context 0. -/
def sStage (d len : Nat) : State :=
  post (putImage part0 0x100000 d) .priv 0x30 (bytesOf [(1, 3), (1, 1), (6, 0), (8, 0x100000), (4, len)])

def isFields : Fields := [(8, 1, 0), (9, 1, 1), (16, 8, 0), (24, 4, 0)]

/-- The checks of an image, one by one. -/
theorem imgCheck_ok {s : State} {rd : Nat → Nat → List Byte} {len ctx h k : Nat} (h1 : (imgStructOk rd len && imgIdentityOk s rd) = true)
    (h2 : imgDigestOk rd len = true) (h3 : imgSignature s rd false = .ok false) (h4 : imgRegionFail s rd k = none)
    (h5 : imgResourceFail s rd k = none) (h6 : imgCapacityFail s rd ctx h = none) :
    imgCheck s rd len ctx h k false false = .ok false := by
  simp only [Bool.and_eq_true] at h1
  simp [imgCheck, h1.1, h1.2, h2, h3, h4, h5, h6]

/-- The function through which `sStage` reads that image. -/
def rdStage (o n : Nat) : List Byte := (sStage digest1 8192).anyRead true (0x100000 + o) n

theorem rdStage_eq : rdStage = fun o n => Laws.Eval.readT (sStage digest1 8192).mem.cells (hostBase + (0x100000 + o)) n :=
  funext fun _ => funext fun _ => Laws.Eval.read_eq _ _ _ (by decide +kernel)

theorem sStage_checks {host : Bool} {a len ctx h : Nat} (e1 : host = true) (e2 : a = 0x100000) (e3 : len = 8192) (e4 : ctx = 0) (e5 : h = 3) :
    imgCheck (sStage digest1 8192) (fun o n => (sStage digest1 8192).anyRead host (a + o) n) len ctx h 0 false false = .ok false := by
  subst e1 e2 e3 e4 e5
  show imgCheck _ rdStage _ _ _ _ _ _ = _
  apply imgCheck_ok
  · rw [rdStage_eq]; decide +kernel
  · rw [rdStage_eq, imgDigestOk, Laws.Eval.sha256_eq]; decide +kernel
  · simp [imgSignature, (by decide +kernel : (sStage digest1 8192).sec.error = false), (by decide +kernel : (sStage digest1 8192).sec.signed = false),
      (by rw [rdStage_eq]; decide +kernel : ihSigOff rdStage = 0)]
  · rw [rdStage_eq]; decide +kernel
  · rw [rdStage_eq]; decide +kernel
  · rw [rdStage_eq]; decide +kernel

/-- A check that fails. -/
def failed (x : Except ImgFail Bool) : Bool :=
  match x with
  | .ok _ => false
  | .error _ => true

theorem of_failed {x : Except ImgFail Bool} (h : failed x = true) : ∃ f, x = .error f := by
  cases x with
  | ok _ => exact absurd h (by simp [failed])
  | error f => exact ⟨f, rfl⟩

theorem witness_imageStage : let s := sStage digest1 8192; let p := pkt s .priv
    let rd (o n : Nat) : List Byte := s.anyRead (bitOf (p.b 9 1) 0) (p.b 16 8 + o) n
    Takes s .priv 0x30 isFields p ∧ s.polderOfCtx p.ctx = some 0 ∧ s.ctxLive p.ctx = true ∧
    Open s (bitOf (p.b 9 1) 0) (p.b 16 8) (p.b 24 4) ∧ imgCheck s rd (p.b 24 4) p.ctx (p.b 8 1) 0 false false = .ok false :=
  ⟨takes_of (by decide +kernel), by decide +kernel, by decide +kernel, open_of (by decide +kernel),
    sStage_checks (by decide +kernel) (by decide +kernel) (by decide +kernel) (by decide +kernel) (by decide +kernel)⟩

/-- The length of the header is not the length of the command. -/
theorem witness_imageStage_fails : let s := sStage 0 8184; let p := pkt s .priv
    let rd (o n : Nat) : List Byte := s.anyRead (bitOf (p.b 9 1) 0) (p.b 16 8 + o) n
    Takes s .priv 0x30 isFields p ∧ s.polderOfCtx p.ctx = some 0 ∧ s.ctxLive p.ctx = true ∧
    Open s (bitOf (p.b 9 1) 0) (p.b 16 8) (p.b 24 4) ∧ ∃ f, imgCheck s rd (p.b 24 4) p.ctx (p.b 8 1) 0 false false = .error f :=
  ⟨takes_of (by decide +kernel), by decide +kernel, by decide +kernel, open_of (by decide +kernel), of_failed (by decide +kernel)⟩

def sDrop (s : State) : State := post { s with images := [img0] } .priv 0x31 [3]

theorem witness_imageDrop : let s := sDrop part0; let p := pkt s .priv
    Takes s .priv 0x31 [(8, 1, 0)] p ∧ s.image? p.ctx (p.b 8 1) = some img0 ∧ imageInUse s img0 = false :=
  ⟨takes_of (by decide +kernel), by decide +kernel⟩

theorem witness_imageDrop_busy : let s := sDrop { part0 with runs := [run0] }; let p := pkt s .priv
    Takes s .priv 0x31 [(8, 1, 0)] p ∧ s.image? p.ctx (p.b 8 1) = some img0 ∧ imageInUse s img0 = true :=
  ⟨takes_of (by decide +kernel), by decide +kernel⟩

theorem witness_imageDrop_free : let s := post part0 .priv 0x31 [3]; let p := pkt s .priv
    Takes s .priv 0x31 [(8, 1, 0)] p ∧ s.image? p.ctx (p.b 8 1) = none :=
  ⟨takes_of (by decide +kernel), by decide +kernel⟩

/-! ## ForwardWaitsForStatuses -/

def fwFields : Fields := [(8, 1, 1), (9, 1, 1), (16, 8, 0), (24, 8, 0)]

/-- A bundle of one image of eight bytes for device 7, which lies beyond port 2 (Table 9.6). -/
def sForward (n : Nat) : State :=
  post (putHost { part0 with
      links := { Links.reset with ports := [(2, { LinkPort.reset with state := 3 })] }
      regs := [(0x100000, 5), (0x100008, 10)] } 0x100000
    (bytesOf [(4, 0x424B544C), (2, 1), (2, 1), (8, n), (16, 0), (2, 7), (1, 0), (1, 3), (4, 0), (4, 48), (4, 8), (8, 0)]))
    .priv 0x32 (bytesOf [(1, 0), (1, 1), (6, 0), (8, 0x100000), (8, 56)])

theorem witness_forward : let s := sForward 56; let p := pkt s .priv; let host := bitOf (p.b 9 1) 0
    let bs := s.anyRead host (p.b 16 8) (p.b 24 8)
    Takes s .priv 0x32 fwFields p ∧ bitOf (p.b 8 1) 0 = false ∧ Open s host (p.b 16 8) (p.b 24 8) ∧
    s.anyPoison host (p.b 16 8) (p.b 24 8) = false ∧ bundleOk bs = true ∧ (∀ e ∈ bundleEntries bs, ownEntry s e = false) ∧
    linkRoute s (bundleEntry bs 0).dev none = .send 2 ∧ (∀ f ∈ s.links.forwards, ∃ e ∈ f.entries, e.2 = none) :=
  ⟨takes_of (by decide +kernel), by decide +kernel, open_of (by decide +kernel), by decide +kernel, by decide +kernel,
    by decide +kernel, rfl, by decide +kernel⟩

theorem witness_forward_malformed : let s := sForward 57; let p := pkt s .priv; let host := bitOf (p.b 9 1) 0
    Takes s .priv 0x32 fwFields p ∧ Open s host (p.b 16 8) (p.b 24 8) ∧ s.anyPoison host (p.b 16 8) (p.b 24 8) = false ∧
    bundleOk (s.anyRead host (p.b 16 8) (p.b 24 8)) = false :=
  ⟨takes_of (by decide +kernel), open_of (by decide +kernel), by decide +kernel, by decide +kernel⟩

def forward0 (due : Nat) : Forward := ⟨64, ⟨0x32, 0, 0, false, [due]⟩, [(7, none)], due⟩

theorem witness_forwardTimeout : let s : State := { part0 with
      links := { Links.reset with forwards := [forward0 5, forward0 6] }, clk := 5 }
    Canonical s ∧ Runs s ∧ forward0 5 ∈ s.links.forwards ∧ s.links.forwards.Nodup ∧ (forward0 5).due ≤ s.clk ∧
    (∀ g ∈ s.links.forwards, g ≠ forward0 5 → s.clk < g.due) := by
  unfold Canonical Runs; decide +kernel

/-! ## SectionRunAndStop -/

/-- SECTION_RUN of image 3 with these flags, by context 0. -/
def sRun (s : State) (flags : Nat) : State :=
  post s (.user 0) 0x40 (bytesOf [(1, 3), (1, flags), (2, 0), (4, 0), (8, 0), (4, 0), (6, 0)])

theorem witness_sectionRun : ∀ flags ∈ [0, 0x21], let s := sRun { part0 with images := [img0] } flags; let p := pkt s (.user 0)
    Takes s (.user 0) 0x40 srFields p ∧ s.usable? p.ctx (p.b 8 1) = some img0 ∧ s.ctxLive p.ctx = true ∧
    (s.sec.error && s.sec.signed) = false ∧ s.health.expelled = false ∧ s.sec.attestHolds = false ∧ ownedByOther s img0 = false ∧
    (bitOf (p.b 9 1) 5 = false ∨ bitOf (p.b 9 1) 0 = true) := by
  intro e he
  simp only [List.mem_cons, List.not_mem_nil, or_false] at he
  rcases he with rfl | rfl <;> exact ⟨takes_of (by decide +kernel), by decide +kernel⟩

/-- A run in PURGE mode whose tile holds no section. -/
theorem witness_sectionRun_purge : let s := sRun { part0 with images := [img0] } 0x20; let p := pkt s (.user 0)
    let x := runOf s 0 p
    let y := { s with runs := s.runs ++ [x], runId := x.id }
    Takes s (.user 0) 0x40 srFields p ∧ s.usable? p.ctx (p.b 8 1) = some img0 ∧ s.ctxLive p.ctx = true ∧
    (s.sec.error && s.sec.signed) = false ∧ s.health.expelled = false ∧ s.sec.attestHolds = false ∧ ownedByOther s img0 = false ∧
    bitOf (p.b 9 1) 5 = true ∧ bitOf (p.b 9 1) 0 = false ∧ bitOf (p.b 9 1) 6 = false ∧ switchFree y x = true ∧
    (∀ n ∈ s.region x, (s.ltile n).sect.configured = false) :=
  ⟨takes_of (by decide +kernel), by decide +kernel⟩

/-- No image has the handle; and an image whose IMAGE_STAGE has not replied. -/
theorem witness_sectionRun_free : ∀ l ∈ [[], [{ img0 with awaits := some (64, 5) }]], let s := sRun { part0 with images := l } 0
    let p := pkt s (.user 0)
    Takes s (.user 0) 0x40 srFields p ∧ s.usable? p.ctx (p.b 8 1) = none := by
  intro e he
  simp only [List.mem_cons, List.not_mem_nil, or_false] at he
  rcases he with rfl | rfl <;> exact ⟨takes_of (by decide +kernel), by decide +kernel⟩

theorem witness_sectionRun_expelled :
    let s := sRun { part0 with images := [img0], health := { Health.reset with expelled := true } } 0; let p := pkt s (.user 0)
    Takes s (.user 0) 0x40 srFields p ∧ s.usable? p.ctx (p.b 8 1) = some img0 ∧ s.ctxLive p.ctx = true ∧
    (s.sec.error && s.sec.signed) = false ∧ s.health.expelled = true :=
  ⟨takes_of (by decide +kernel), by decide +kernel⟩

/-- SECTION_STOP of image 3 by context 0, with these runs and commands of the privileged ring. -/
def sStop (runs : List Run) (cmds : List Cmd) : State :=
  post ({ part0 with images := [img0], runs := runs }.modRing 64 (fun x => { x with accepted := cmds })) (.user 0) 0x41 [3]

theorem sStop_tiles (runs : List Run) (cmds : List Cmd) (n : Nat) : ((sStop runs cmds).ltile n).sect.configured = false :=
  tile_all (P := fun x => x.sect.configured = false) (by decide) (show ∀ e ∈ part0.tiles, _ by decide) ((sStop runs cmds).phys n)

/-- No STOP and no CONTEXT_DESTROY waits, where every listed ring says so. -/
theorem no_stop {s : State} (h : ∀ e ∈ s.rings, ∀ c ∈ e.2.accepted, c.opcode ≠ 0x41 ∧ c.opcode ≠ 0x21) (r : Nat) :
    ∀ c ∈ (s.ring r).accepted, c.opcode ≠ 0x41 ∧ c.opcode ≠ 0x21 :=
  ring_all (P := fun x => ∀ c ∈ x.accepted, c.opcode ≠ 0x41 ∧ c.opcode ≠ 0x21) (by decide) h r

/-- No tile of that state holds a section of context c. -/
theorem sStop_free (runs : List Run) (cmds : List Cmd) (c n : Nat) (h : ((sStop runs cmds).ltile n).sect.configured = true) :
    ((sStop runs cmds).ltile n).sect.ctx.toNat ≠ c := absurd ((sStop_tiles runs cmds n).symm.trans h) (by decide)

theorem witness_sectionStop : let s := sStop [run0] [cmd0]; let p := pkt s (.user 0)
    (s.image? p.ctx (p.b 8 1) = some img0 ∧ asorted s.rings = true ∧ s.saves = [] ∧ s.runs = [run0] ∧ run0.ctx = p.ctx ∧
      run0.handle = p.b 8 1 ∧ run0.phase = .accepted ∧ run0.first = none ∧ s.runCmd run0 = some cmd0) ∧
    Takes s (.user 0) 0x41 [(8, 1, 0)] p ∧ (∀ r, ∀ c ∈ (s.ring r).accepted, c.opcode ≠ 0x41 ∧ c.opcode ≠ 0x21) ∧
    (∀ n, (s.ltile n).sect.configured = true → (s.ltile n).sect.ctx.toNat ≠ p.ctx) :=
  ⟨by decide +kernel, takes_of (by decide +kernel), no_stop (by decide +kernel), sStop_free _ _ _⟩

theorem witness_sectionStop_none : let s := sStop [] []; let p := pkt s (.user 0)
    (s.image? p.ctx (p.b 8 1) = some img0 ∧ asorted s.rings = true ∧ ∀ x ∈ s.runs, x.ctx ≠ p.ctx) ∧
    Takes s (.user 0) 0x41 [(8, 1, 0)] p ∧ (∀ r, ∀ c ∈ (s.ring r).accepted, c.opcode ≠ 0x41 ∧ c.opcode ≠ 0x21) ∧
    (∀ n, (s.ltile n).sect.configured = true → (s.ltile n).sect.ctx.toNat ≠ p.ctx) :=
  ⟨by decide +kernel, takes_of (by decide +kernel), no_stop (by decide +kernel), sStop_free _ _ _⟩

/-! ## ScheduleAddAndClear -/

/-- An entry of action 3 that fires every 10 ticks, opening lane 1 of port 0 for 1,000 cycles (Tables 13.5, 13.6). -/
def entry3 : List Byte := padTo 56 (bytesOf [(1, 3), (1, 0xFF), (2, 0), (2, 0), (2, 0), (8, 5), (4, 100), (4, 10), (4, 0), (1, 1), (1, 2), (2, 0), (4, 1000)])

def sAdd (sched : Assoc Sched) : State :=
  post { part0 with tide := { Tide.reset with sched := sched } } .priv 0x42 entry3

/-- What SCHEDULE_ADD asks of its entry. -/
def EntryMet (s : State) (e : List Byte) : Prop :=
  1 ≤ seAction e ∧ seAction e ≤ 5 ∧ leAt e 3 1 = 0 ∧ leAt e 6 2 = 0 ∧ seFlags e ≤ 7 ∧
  sePhase e < s.tide.period ∧ sePhase e < 2 ^ 20 ∧ (seAction e ≤ 2 → s.ctxLive (seCtx e) = true) ∧ (2 < seAction e → seCtx e = 0xFF) ∧
  (seAction e = 1 → (s.image? (seCtx e) (leAt e 28 1)).isSome = true) ∧ (seFirings e ≠ 0 → sePeriod e ≠ 0) ∧ seParamsOk e = true

theorem witness_scheduleAdd : let s := sAdd [(0, ⟨entry3, 0⟩)]; let p := pkt s .priv; let e := padTo 56 p.par
    Takes s .priv 0x42 [(8, 56, 0)] p ∧ EntryMet s e ∧ seAbsent s e = false ∧ aget? s.tide.sched 1 = none ∧
    (∀ j, j < 1 → (aget? s.tide.sched j).isSome = true) :=
  ⟨takes_of (by decide +kernel), by unfold EntryMet; decide +kernel⟩

/-- The same entry for port 4 of an LTK-1620. -/
theorem witness_scheduleAdd_absent :
    let s := post { part0 with part := { Part.reset with is1620 := true } } .priv 0x42 (entry3.set 28 0x10)
    let p := pkt s .priv
    Takes s .priv 0x42 [(8, 56, 0)] p ∧ EntryMet s (padTo 56 p.par) ∧ seAbsent s (padTo 56 p.par) = true :=
  ⟨takes_of (by decide +kernel), by unfold EntryMet; decide +kernel⟩

/-- A schedule table with every index taken. -/
def fullTable : Assoc Sched := (List.range' 0 1024).map (fun i => (i, ⟨[], 0⟩))

theorem aget?_range' {α : Type} (x : α) (n k i : Nat) (h : k ≤ i) (h' : i < k + n) :
    (aget? ((List.range' k n).map (fun j => (j, x))) i).isSome = true := by
  induction n generalizing k with
  | zero => omega
  | succ n ih =>
    rw [List.range'_succ, List.map_cons, aget?]
    split
    · rfl
    · rename_i hk
      have hk : i ≠ k := by simpa using hk
      rw [if_neg (by omega)]
      exact ih (k + 1) (by omega) (by omega)

/-- The same with every index taken. -/
theorem witness_scheduleAdd_full : let s := sAdd fullTable; let p := pkt s .priv; let e := padTo 56 p.par
    Takes s .priv 0x42 [(8, 56, 0)] p ∧ (EntryMet s e ∧ seAbsent s e = false) ∧ (∀ i, i < 1024 → (aget? s.tide.sched i).isSome = true) :=
  ⟨takes_of (by decide +kernel), by unfold EntryMet; decide +kernel, fun i hi => aget?_range' _ 1024 0 i (Nat.zero_le i) (by omega)⟩

def sClear (i : Nat) : State :=
  post { part0 with tide := { Tide.reset with sched := [(1023, ⟨entry3, 0⟩)] } } .priv 0x43 (bytesOf [(4, i)])

theorem witness_scheduleClear : let s := sClear 1023; let p := pkt s .priv
    Takes s .priv 0x43 [(8, 4, 0)] p ∧ asorted s.tide.sched = true ∧ p.b 8 4 < 1024 :=
  ⟨takes_of (by decide +kernel), by decide +kernel⟩

theorem witness_scheduleClear_all : let s := sClear 0xFFFFFFFF; let p := pkt s .priv
    Takes s .priv 0x43 [(8, 4, 0)] p ∧ p.b 8 4 = 0xFFFFFFFF :=
  ⟨takes_of (by decide +kernel), by decide +kernel⟩

end Sys2Proof.Tests
end

