-- ==== Sys2Proof/Tests/WitnessD.lean ====
section
/-! SUPPORT. Witnesses: for the statements about pump queues, page tables and gauges, states and operands that meet the hypotheses
of each clause. -/

namespace Sys2Proof.Tests

-- One theorem after the other: each evaluation by the kernel waits for all before it, and would hold a thread while it waits.
set_option Elab.async false

open Sys2Proof.Machine Sys2Proof.Safety

/-! ## MoveForms -/

/-- The booted part with virtual gauge 5 of context 0 bound to gauge 7 of field die 0, which holds 6. -/
def partG : State := { part0 with gauges := { Gauges.reset with
  xlat := [(5, 0x8007)], gauges := [(7, { Gauge.reset with bound := some (0, 5), value := 6 })] } }

/-- A pump queue of context 0 with one entry at device address 0x20000, post gauge 5, on hub pump 32. -/
def queue0 : PumpQueue :=
  { ctx := 0, base := 0x20000, size := 0, pump := 32, post := 5, tile := none, consumed := 6, postWait := .waiting, head := none
    headWait := .none, transfers := [], halted := false, code := 0, entry := 0, poisonSeen := false, retired := 0, discarded := 0
    posts := 0 }

/-- A transfer in progress. -/
def xfer0 : Transfer := ⟨3, [], [], 1, false, [], [], false, false⟩

def withQueues (s : State) (qs : Assoc PumpQueue) : State := { s with ms := { s.ms with queues := qs } }

/-- MOVE form 0 of queue k with this record base, in the store of tile 0 or in segment 0. -/
def sDefine (qs : Assoc PumpQueue) (k base pump : Nat) : State :=
  post (withQueues partG qs) (.user 0) 0x50 (bytesOf [(1, 0), (1, k), (6, 0), (8, base), (1, 0), (1, pump), (2, 5), (2, 0), (18, 0)])

def mdFields : Fields := [(8, 1, 0), (9, 1, 0), (16, 32, 0)]

/-- The queue's hypotheses but for the last. -/
def DefineMet (s : State) : Prop :=
  let p := pkt s (.user 0)
  let w := padTo 32 (p.par.drop 8)
  (p.b 8 1 = 0 ∧ s.ctxLive p.ctx = true ∧ queueRecordOk w = true ∧
    s.gaugeOf p.ctx (leAt w 10 2) = some 7 ∧ s.pumpPresent (leAt w 9 1) = true ∧
    rangePopulated s (leAt w 0 8) (128 * 2 ^ leAt w 8 1) = true ∧
    (s.polderOfCtx p.ctx).bind s.polder? = some ⟨[0x10000], [0, 1], 1, 0, 0⟩ ∧
    (⟨[0x10000], [0, 1], 1, 0, 0⟩ : Polder).covers (leAt w 0 8) (128 * 2 ^ leAt w 8 1) = true ∧
    rangeOpen s (leAt w 0 8) (128 * 2 ^ leAt w 8 1) = true) ∧
  Takes s (.user 0) 0x50 mdFields p ∧ (∀ n, queueTile w = some n → n ∈ [0, 1] ∧ n < s.ntiles)

theorem witness_moveDefine : ∀ base ∈ [0x20000, tileMapBase + 2 ^ 24], let s := sDefine [] 255 base 39; let p := pkt s (.user 0)
    DefineMet s ∧ s.queue? (p.b 9 1) = none ∧
    (s.ms.queues.filter (fun e => e.2.pump == leAt (padTo 32 (p.par.drop 8)) 9 1)).length < 16 := by
  intro e he
  simp only [List.mem_cons, List.not_mem_nil, or_false] at he
  rcases he with rfl | rfl <;>
    exact ⟨⟨by decide +kernel, takes_of (by decide +kernel), some_all (by decide +kernel)⟩, by decide +kernel⟩

theorem witness_moveDefine_busy : let s := sDefine [(0, queue0)] 0 0x20000 39; let p := pkt s (.user 0)
    DefineMet s ∧ (s.queue? (p.b 9 1)).isSome = true :=
  ⟨⟨by decide +kernel, takes_of (by decide +kernel), some_all (by decide +kernel)⟩, by decide +kernel⟩

theorem witness_moveDefine_full : let s := sDefine ((List.range 16).map (fun k => (k, queue0))) 16 0x20000 32; let p := pkt s (.user 0)
    DefineMet s ∧ s.queue? (p.b 9 1) = none ∧
    16 ≤ (s.ms.queues.filter (fun e => e.2.pump == leAt (padTo 32 (p.par.drop 8)) 9 1)).length :=
  ⟨⟨by decide +kernel, takes_of (by decide +kernel), some_all (by decide +kernel)⟩, by decide +kernel⟩

/-- On an LTK-1620, pump 31 stands on die 3 and tile 600 on die 2: neither is there. -/
theorem witness_moveDefine_absent : ∀ x ∈ [(31, 0), (39, 0x8000 + 600)],
    let s := post { partG with part := { Part.reset with is1620 := true } } (.user 0) 0x50
      (bytesOf [(1, 0), (1, 9), (6, 0), (8, 0x20000), (1, 0), (1, x.1), (2, 5), (2, x.2), (18, 0)])
    let p := pkt s (.user 0)
    let w := padTo 32 (p.par.drop 8)
    Takes s (.user 0) 0x50 mdFields p ∧ p.b 8 1 = 0 ∧ s.ctxLive p.ctx = true ∧ queueRecordOk w = true ∧
    s.gaugeOf p.ctx (leAt w 10 2) = some 7 ∧
    (s.pumpPresent (leAt w 9 1) = false ∨ queueTile w = some 600 ∧ s.ntiles ≤ 600) := by
  intro e he
  simp only [List.mem_cons, List.not_mem_nil, or_false] at he
  rcases he with rfl | rfl <;> exact ⟨takes_of (by decide +kernel), by decide +kernel⟩

/-- Pump 40 does not exist. -/
theorem witness_moveDefine_bad : let s := sDefine [] 0 0x20000 40; let p := pkt s (.user 0)
    Takes s (.user 0) 0x50 mdFields p ∧ p.b 8 1 = 0 ∧ queueRecordOk (padTo 32 (p.par.drop 8)) = false :=
  ⟨takes_of (by decide +kernel), by decide +kernel⟩

theorem witness_movePost :
    let s := post (withQueues partG [(3, queue0)]) (.user 0) 0x50 (bytesOf [(1, 1), (1, 3), (6, 0), (128, 1)]); let p := pkt s (.user 0)
    Takes s (.user 0) 0x50 [(8, 1, 0), (9, 1, 0), (16, 128, 0)] p ∧ p.b 8 1 = 1 ∧ s.queue? (p.b 9 1) = some queue0 ∧
    queue0.ctx = p.ctx ∧ s.gaugeOf queue0.ctx queue0.post = some 7 ∧ queue0.ctx < 64 ∧ queue0.post < 2048 ∧
    Open s false (queue0.base + 128 * (((s.gauge 7).value.toNat + queue0.posts) % 2 ^ queue0.size)) 128 :=
  ⟨takes_of (by decide +kernel), by decide +kernel, by decide +kernel, by decide +kernel, by decide +kernel, by decide +kernel,
    by decide +kernel, open_of (by decide +kernel)⟩

/-- MOVE form f of queue k, of context 0. -/
def sMove (qs : Assoc PumpQueue) (f k : Nat) : State := post (withQueues partG qs) (.user 0) 0x50 (bytesOf [(1, f), (1, k)])

def mvFields : Fields := [(8, 1, 0), (9, 1, 0)]

theorem witness_moveResume : let s := sMove [(255, { queue0 with halted := true })] 2 255; let p := pkt s (.user 0)
    Takes s (.user 0) 0x50 mvFields p ∧ p.b 8 1 = 2 ∧ s.queue? (p.b 9 1) = some { queue0 with halted := true } ∧ queue0.ctx = p.ctx :=
  ⟨takes_of (by decide +kernel), by decide +kernel⟩

theorem witness_moveRemove : let s := sMove [(3, queue0)] 3 3; let p := pkt s (.user 0)
    Takes s (.user 0) 0x50 mvFields p ∧ p.b 8 1 = 3 ∧ s.queue? (p.b 9 1) = some queue0 ∧ queue0.ctx = p.ctx ∧
    queue0.transfers = [] ∧ asorted s.ms.queues = true :=
  ⟨takes_of (by decide +kernel), by decide +kernel⟩

theorem witness_moveRemove_busy : let s := sMove [(3, { queue0 with transfers := [xfer0] })] 3 3; let p := pkt s (.user 0)
    Takes s (.user 0) 0x50 mvFields p ∧ p.b 8 1 = 3 ∧ s.queue? (p.b 9 1) = some { queue0 with transfers := [xfer0] } ∧
    queue0.ctx = p.ctx ∧ [xfer0] ≠ [] :=
  ⟨takes_of (by decide +kernel), by decide +kernel⟩

theorem witness_move_foreign : ∀ f ∈ [2, 3], let s := sMove [(3, { queue0 with ctx := 1 })] f 3; let p := pkt s (.user 0)
    Takes s (.user 0) 0x50 mvFields p ∧ (∀ q, s.queue? (p.b 9 1) = some q → q.ctx ≠ p.ctx) ∧ p.b 8 1 = f := by
  intro e he
  simp only [List.mem_cons, List.not_mem_nil, or_false] at he
  rcases he with rfl | rfl <;> exact ⟨takes_of (by decide +kernel), some_all (by decide +kernel), by decide +kernel⟩

/-- No queue of that number, on the user ring; and a queue of another context, on the privileged ring. -/
theorem witness_movePost_foreign : ∀ x ∈ [(Ring.user 0, ([] : Assoc PumpQueue)), (.priv, [(3, { queue0 with ctx := 1 })])],
    let s := post (withQueues partG x.2) x.1 0x50 (bytesOf [(1, 1), (1, 3), (6, 0), (128, 1)]); let p := pkt s x.1
    Takes s x.1 0x50 [(8, 1, 0), (9, 1, 0), (16, 128, 0)] p ∧ p.b 8 1 = 1 ∧
    (s.queue? (p.b 9 1) = none ∨ s.queue? (p.b 9 1) = some { queue0 with ctx := 1 } ∧ 1 ≠ p.ctx) := by
  intro e he
  simp only [List.mem_cons, List.not_mem_nil, or_false] at he
  rcases he with rfl | rfl <;> exact ⟨takes_of (by decide +kernel), by decide +kernel⟩

/-! ## PageMapForms -/

/-- A table of context 0 at device address 0x40000: 16 entries, 16 records, summaries of 64 bytes, lists of 4 items each. -/
def tableDesc (init : Nat) : List Byte :=
  bytesOf [(8, 0x40000), (4, 16), (1, 64), (1, 0), (1, init), (1, 0), (8, 0x41000), (4, 16), (4, 0), (8, 0x42000), (8, 0x43000),
    (8, 0x44000), (1, 2), (1, 2), (6, 0)]
def table0 : PageTable := ⟨0, tableDesc 0⟩

def withTables (s : State) (ts : Assoc PageTable) : State := { s with ms := { s.ms with tables := ts } }

/-- Entry e of the table written. -/
def putEntry (s : State) (e v : Nat) : State := putDev s (0x40000 + 8 * e) (leBytes 8 v)
/-- Record r of the table written. -/
def putRecord (s : State) (r v : Nat) : State := putDev s (0x41000 + 8 * r) (leBytes 8 v)
/-- The HBM3E list written: its head, and its items. -/
def putItems (s : State) (items : List Nat) : State :=
  putDev s 0x43000 (leBytes 4 0 ++ leBytes 4 items.length ++ List.replicate 56 0 ++ items.flatMap (leBytes 8))

theorem witness_pageMapDefineTable : ∀ init ∈ [0, 1],
    let s := post part0 (.user 0) 0x58 (bytesOf [(1, 0), (1, 0), (2, 255), (1, 0), (3, 0)] ++ tableDesc init); let p := pkt s (.user 0)
    let t : PageTable := ⟨p.ctx, padTo 64 (p.par.drop 8)⟩
    Takes s (.user 0) 0x58 [(8, 1, 0), (10, 2, 0), (12, 1, 1), (16, 64, 0)] p ∧ p.b 8 1 = 0 ∧ s.ctxLive p.ctx = true ∧
    p.b 10 2 < 256 ∧ t.ok = true ∧ s.table? (p.b 10 2) = none ∧ s.polderOfCtx p.ctx = some 0 ∧
    (∀ a ∈ t.areas, s.polderHolds 0 a.1 a.2 = true) ∧ t.init = (init == 1) := by
  intro e he
  simp only [List.mem_cons, List.not_mem_nil, or_false] at he
  rcases he with rfl | rfl <;> exact ⟨takes_of (by decide +kernel), by decide +kernel⟩

/-- A copy that the engine of table 1 has in progress. -/
def copy0 : PageCopy := ⟨4, 1, 3, 0, false, 1, 5, 7, 2⟩
def withCopies (s : State) (l : List PageCopy) : State := { s with ms := { s.ms with copies := l } }

/-- PAGE_MAP form 1 of n entries from e on, with one item on the list. -/
def sMap (l : List PageCopy) (e n : Nat) : State :=
  post (withCopies (putItems (withTables part0 [(1, table0)]) [3 + 0x5 * 2 ^ 32]) l) (.user 0) 0x58
    (bytesOf [(1, 1), (1, 0), (2, 1), (1, 0), (3, 0), (4, e), (4, n)])

/-- The last entry; two entries with one item; and an engine at work. -/
theorem witness_pageMapMap : ∀ x ∈ [(15, 1, true), (14, 2, false)], let s := sMap [] x.1 x.2.1; let p := pkt s (.user 0)
    Takes s (.user 0) 0x58 [(8, 1, 0), (10, 2, 0), (12, 1, 1), (16, 4, 0), (20, 4, 0)] p ∧ p.b 8 1 = 1 ∧
    s.table? (p.b 10 2) = some table0 ∧ table0.ctx = p.ctx ∧ p.b 16 4 + p.b 20 4 ≤ table0.entries ∧ tableBusy s (p.b 10 2) = false ∧
    (∀ e ∈ entryRange (p.b 16 4) (p.b 20 4), peValid (entryOf s table0 e) = false) ∧
    (x.2.2 = true → p.b 20 4 ≤ listCount s table0 (p.b 12 1)) ∧ (x.2.2 = false → listCount s table0 (p.b 12 1) < p.b 20 4) := by
  intro e he
  simp only [List.mem_cons, List.not_mem_nil, or_false] at he
  rcases he with rfl | rfl <;> exact ⟨takes_of (by decide +kernel), by decide +kernel⟩

theorem witness_pageMapMap_waits : let s := sMap [copy0] 15 1; let p := pkt s (.user 0)
    Takes s (.user 0) 0x58 [(8, 1, 0), (10, 2, 0), (12, 1, 1), (16, 4, 0), (20, 4, 0)] p ∧ p.b 8 1 = 1 ∧
    s.table? (p.b 10 2) = some table0 ∧ table0.ctx = p.ctx ∧ p.b 16 4 + p.b 20 4 ≤ table0.entries ∧ tableBusy s (p.b 10 2) = true :=
  ⟨takes_of (by decide +kernel), by decide +kernel⟩

/-- PAGE_MAP form 2 of one item, page n of memory with record 15. -/
def sDonate (l : List PageCopy) (n : Nat) : State :=
  post (putDev (withCopies (withTables part0 [(1, table0)]) l) 0x50000 (leBytes 8 (15 + n * 2 ^ 32))) (.user 0) 0x58
    (bytesOf [(1, 2), (1, 0), (2, 1), (1, 0), (3, 0), (8, 0x50000), (4, 1)])

def DonateMet (s : State) : Prop :=
  let p := pkt s (.user 0)
  Takes s (.user 0) 0x58 [(8, 1, 0), (10, 2, 0), (12, 1, 1), (16, 8, 0), (24, 4, 0)] p ∧ p.b 8 1 = 2 ∧
  s.table? (p.b 10 2) = some table0 ∧ table0.ctx = p.ctx ∧ s.populated (p.b 16 8) (8 * p.b 24 4) = true ∧
  mayReach s (ringNo (.user 0)) false (p.b 16 8) (8 * p.b 24 4) = true ∧ s.devPoison (p.b 16 8) (8 * p.b 24 4) = false ∧
  s.polderOfCtx table0.ctx = some 0

theorem sDonate_items : donated (sDonate [] 5) (pkt (sDonate [] 5) (.user 0)) = [15 + 5 * 2 ^ 32] := by decide +kernel

theorem witness_pageMapDonate : let s := sDonate [] 5; let p := pkt s (.user 0)
    DonateMet s ∧ (tableBusy s (p.b 10 2) = false ∧ listRoom s table0 (p.b 12 1) (p.b 24 4) = true) ∧
    (∀ i ∈ donated s p, fld i 22 10 = 0 ∧ fld i 0 22 < table0.records ∧ (∃ a, segOf (fld i 32 32 * 65536) = some (p.b 12 1, a)) ∧
      s.polderHolds 0 (fld i 32 32 * 65536) 65536 = true) :=
  ⟨⟨takes_of (by decide +kernel), by decide +kernel⟩, by decide +kernel, by
    intro i hi
    rw [sDonate_items, List.mem_singleton] at hi
    subst hi
    exact ⟨by decide +kernel, by decide +kernel, ⟨0, by decide +kernel⟩, by decide +kernel⟩⟩

/-- An engine at work; and a page of segment 1, which is no share of the polder. -/
theorem witness_pageMapDonate_not :
    (let s := sDonate [copy0] 5; DonateMet s ∧ tableBusy s ((pkt s (.user 0)).b 10 2) = true) ∧
    (let s := sDonate [] (12 * 2 ^ 14); let p := pkt s (.user 0)
     DonateMet s ∧ tableBusy s (p.b 10 2) = false ∧ ∃ i ∈ donated s p, s.polderHolds 0 (fld i 32 32 * 65536) 65536 = false) :=
  ⟨⟨⟨takes_of (by decide +kernel), by decide +kernel⟩, by decide +kernel⟩,
   ⟨⟨takes_of (by decide +kernel), by decide +kernel⟩, by decide +kernel⟩⟩

/-! ## PageUnmapShareMigrate -/

/-- Entry 2 maps page 5 by record 7, referred to this often; the list of HBM3E holds these items. -/
def sPaged (refs : Nat) (items : List Nat) : State :=
  putItems (putRecord (putEntry (withTables part0 [(1, table0)]) 2 (mkEntry 0 5 7)) 7 refs) items

def puFields : Fields := [(8, 1, 0), (10, 2, 0), (16, 4, 0), (20, 4, 0)]

/-- PAGE_UNMAP form f of n entries from entry e on. -/
def sUnmap (s : State) (f e n : Nat) : State := post s (.user 0) 0x59 (bytesOf [(1, f), (1, 0), (2, 1), (4, 0), (4, e), (4, n)])

/-- With room on the list; and with none. -/
theorem witness_pageUnmapEntries : ∀ n ∈ [0, 4], let s := sUnmap (sPaged 1 (List.replicate n 0)) 0 2 1; let p := pkt s (.user 0)
    Takes s (.user 0) 0x59 puFields p ∧ s.table? (p.b 10 2) = some table0 ∧ table0.ctx = p.ctx ∧ p.b 16 4 + p.b 20 4 ≤ table0.entries ∧
    tableBusy s (p.b 10 2) = false ∧ p.b 8 1 = 0 := by
  intro e he
  simp only [List.mem_cons, List.not_mem_nil, or_false] at he
  rcases he with rfl | rfl <;> exact ⟨takes_of (by decide +kernel), by decide +kernel⟩

/-- The entry is busy. -/
theorem witness_pageUnmapInit : let s := sUnmap (putEntry (sPaged 1 []) 2 (mkEntry 0 5 7 + 4)) 2 2 1; let p := pkt s (.user 0)
    Takes s (.user 0) 0x59 puFields p ∧ s.table? (p.b 10 2) = some table0 ∧ table0.ctx = p.ctx ∧ p.b 16 4 + p.b 20 4 ≤ table0.entries ∧
    tableBusy s (p.b 10 2) = false ∧ p.b 8 1 = 2 ∧ peBusy (entryOf s table0 2) = true :=
  ⟨takes_of (by decide +kernel), by decide +kernel⟩

theorem witness_pageUnmapTable : let s := sUnmap (withTables part0 [(1, table0)]) 1 0 0; let p := pkt s (.user 0)
    Takes s (.user 0) 0x59 puFields p ∧ p.b 8 1 = 1 ∧ s.table? (p.b 10 2) = some table0 ∧ table0.ctx = p.ctx ∧
    asorted s.ms.tables = true ∧ tableBusy s (p.b 10 2) = false ∧ (∀ e, e < table0.entries → peValid (entryOf s table0 e) = false) :=
  ⟨takes_of (by decide +kernel), by decide +kernel⟩

theorem witness_pageUnmapTable_busy : let s := sUnmap (sPaged 1 []) 1 0 0; let p := pkt s (.user 0)
    Takes s (.user 0) 0x59 puFields p ∧ p.b 8 1 = 1 ∧ s.table? (p.b 10 2) = some table0 ∧ table0.ctx = p.ctx ∧
    asorted s.ms.tables = true ∧ tableBusy s (p.b 10 2) = false ∧ (∃ e, e < table0.entries ∧ peValid (entryOf s table0 e) = true) :=
  ⟨takes_of (by decide +kernel), by decide +kernel, by decide +kernel, by decide +kernel, by decide +kernel, by decide +kernel, 2,
    by decide +kernel⟩

/-- A record whose count reaches its limit with this share. -/
theorem witness_pageShare :
    let s := post (sPaged 65534 []) (.user 0) 0x5A (bytesOf [(2, 0), (2, 1), (4, 0), (4, 2), (4, 15), (4, 1)]); let p := pkt s (.user 0)
    let src := entryRange (p.b 16 4) (p.b 24 4)
    let dst := entryRange (p.b 20 4) (p.b 24 4)
    let vs := src.map (entryOf s table0)
    Takes s (.user 0) 0x5A [(10, 2, 0), (16, 4, 0), (20, 4, 0), (24, 4, 0)] p ∧ s.table? (p.b 10 2) = some table0 ∧ table0.ctx = p.ctx ∧
    p.b 16 4 + p.b 24 4 ≤ table0.entries ∧ p.b 20 4 + p.b 24 4 ≤ table0.entries ∧ tableBusy s (p.b 10 2) = false ∧ (∀ v ∈ vs, peValid v = true) ∧
    (∀ e ∈ dst, peValid (entryOf s table0 e) = false) ∧
    (∀ v ∈ vs, recRefs (rdRecord s table0 (peShare v)) + (vs.filter (fun w => peShare w == peShare v)).length ≤ 65535) :=
  ⟨takes_of (by decide +kernel), by decide +kernel⟩

theorem first_of {α β : Type} [DecidableEq α] {o : Option (α × β)} {a : α} (h : o.map (·.1) = some a) : ∃ y, o = some (a, y) := by
  cases o with
  | none => simp at h
  | some e => exact ⟨e.2, by simp at h; simp [← h]⟩

/-- PAGE_MIGRATE to LP5X of every entry of a table whose entry 2 has so many references, with one item on the list. -/
def sMigrate (refs : Nat) : State :=
  post (putDev (sPaged refs []) 0x44000 (leBytes 4 0 ++ leBytes 4 1 ++ List.replicate 56 0 ++ leBytes 8 (9 + 6 * 2 ^ 32))) .priv 0x5B
    (bytesOf [(2, 0), (2, 1), (1, 1), (3, 0), (4, 0), (4, 16)])

def MigrateMet (s : State) : Prop :=
  let p := pkt s .priv
  Takes s .priv 0x5B [(10, 2, 0), (12, 1, 1), (16, 4, 0), (20, 4, 0)] p ∧ s.table? (p.b 10 2) = some table0 ∧ table0.ctx = p.ctx ∧
  p.b 16 4 + p.b 20 4 ≤ table0.entries ∧ tableBusy s (p.b 10 2) = false

/-- Entry e is valid and of HBM3E; and shared. -/
def inHbm (s : State) (e : Nat) : Bool := peValid (entryOf s table0 e) && peTier (entryOf s table0 e) != (pkt s .priv).b 12 1
def inHbmShared (s : State) (e : Nat) : Bool := inHbm s e && decide (1 < recRefs (rdRecord s table0 (peShare (entryOf s table0 e))))

theorem witness_pageMigrate_none : let s := sMigrate 2; let p := pkt s .priv
    MigrateMet s ∧ (∀ e ∈ entryRange (p.b 16 4) (p.b 20 4), inHbm s e = true → inHbmShared s e = true) :=
  ⟨⟨takes_of (by decide +kernel), by decide +kernel⟩, by decide +kernel⟩

theorem witness_pageMigrate : let s := sMigrate 1; let p := pkt s .priv; let es := entryRange (p.b 16 4) (p.b 20 4)
    (MigrateMet s ∧ es = [0, 1] ++ 2 :: [3, 4, 5, 6, 7, 8, 9, 10, 11, 12, 13, 14, 15] ∧
      (∀ i ∈ [0, 1], inHbm s i = true → inHbmShared s i = true) ∧ inHbm s 2 = true ∧ inHbmShared s 2 = false) ∧
    ∃ y, popFree (notePoisonEntries s table0 es) table0 (p.b 12 1) = some ((9, 6), y) :=
  ⟨⟨⟨takes_of (by decide +kernel), by decide +kernel⟩, by decide +kernel⟩, first_of (by decide +kernel)⟩

/-! ## GaugeSetAndRead -/

def gsFields : Fields := [(8, 2, 0x7FF), (10, 1, 1), (12, 4, 0)]
def grFields : Fields := [(8, 2, 0x7FF), (10, 1, 1), (12, 4, 0), (16, 4, 0)]

/-- GAUGE_SET of virtual gauge v: add, or set. -/
def sSet (v f : Nat) : State := post partG (.user 0) 0x60 (bytesOf [(2, v), (1, f), (1, 0), (4, 0xFFFFFFFF)])

theorem witness_gaugeSet : ∀ f ∈ [0, 1], let s := sSet 5 f; let p := pkt s (.user 0)
    Takes s (.user 0) 0x60 gsFields p ∧ s.gaugeOf p.ctx (p.b 8 2) = some 7 ∧ p.b 10 1 = f := by
  intro e he
  simp only [List.mem_cons, List.not_mem_nil, or_false] at he
  rcases he with rfl | rfl <;> exact ⟨takes_of (by decide +kernel), by decide +kernel⟩

theorem witness_gaugeSet_unbound : let s := sSet 2047 0; let p := pkt s (.user 0)
    Takes s (.user 0) 0x60 gsFields p ∧ s.gaugeOf p.ctx (p.b 8 2) = none :=
  ⟨takes_of (by decide +kernel), by decide +kernel⟩

/-- GAUGE_READ of virtual gauge 5, waiting or not, for 7. -/
def sRead (wait : Nat) : State := post partG (.user 0) 0x61 (bytesOf [(2, 5), (1, wait), (1, 0), (4, 7), (4, 100)])

theorem witness_gaugeRead : let s := sRead 0; let p := pkt s (.user 0)
    Takes s (.user 0) 0x61 grFields p ∧ s.gaugeOf p.ctx (p.b 8 2) = some 7 ∧ p.b 10 1 = 0 :=
  ⟨takes_of (by decide +kernel), by decide +kernel⟩

theorem witness_gaugeRead_waits : let s := sRead 1; let p := pkt s (.user 0)
    Takes s (.user 0) 0x61 grFields p ∧ s.gaugeOf p.ctx (p.b 8 2) = some 7 ∧ p.b 10 1 = 1 ∧ p.ctx < 64 ∧ p.b 8 2 < 2048 ∧
    satisfied (s.gauge 7).value (BitVec.ofNat 32 (p.b 12 4)) = false ∧ (s.gauge 7).waiters.length < 64 ∧
    agetD s.gauges.waitersUsed (7 / 4096) 0 < 8192 :=
  ⟨takes_of (by decide +kernel), by decide +kernel⟩

/-- A GAUGE_READ of gauge 5 that waits with tag 3, asked for at cycle 1 with a limit of 8 cycles; and its waiter. -/
def readCmd : Cmd := ⟨0x61, 0, 0xFFFF, false, [3]⟩
def readWait : HubWait := ⟨0, 3, 0, 0, 0, 5, 7, 1, 8, none, 0, 0⟩
def readWaiter : Waiter := ⟨true, 0, 0, 0, 5, 0, 7, some 9, 3, blockDest 0 4 0⟩

/-- The command waits on the privileged ring, at cycle 9. -/
def sTimeout (h : HubWait) (ws : List Waiter) : State :=
  { partG.modRing 64 (fun x => { x with accepted := [readCmd] }) with
    clk := 9, gauges := { partG.gauges with hubWaits := [h], gauges := [(7, { Gauge.reset with waiters := ws })] } }

def TimeoutMet (s : State) (h : HubWait) : Prop :=
  Canonical s ∧ Runs s ∧
  (s.ring (ringNo .priv)).accepted.find? (fun c => c.opcode == 0x61 && c.seqNo == (0xFFFF : BitVec 16).toNat) = some readCmd ∧
  s.gauges.hubWaits.find? (fun h => h.what == 0 && readCmd.aux == [h.tag]) = some h ∧ h.limit ≠ 0 ∧ h.limit ≤ s.clk - h.start

/-- At the gauge; and waiting to send again after a retry WAKE. -/
theorem witness_gaugeReadTimeout : let s := sTimeout readWait [readWaiter]
    TimeoutMet s readWait ∧ readAt s readWait = some 7 := by
  unfold TimeoutMet Canonical Runs; decide +kernel
theorem witness_gaugeReadTimeout_retry : let h := { readWait with retryAt := some 100, lastValue := 6, lastPhys := 7 }
    let s := sTimeout h []
    TimeoutMet s h ∧ readAt s h = none ∧ h.retryAt.isSome = true := by
  unfold TimeoutMet Canonical Runs; decide +kernel

/-! ## GaugeBlockAppliesHead -/

/-- A gauge message of tile 0's tile program for virtual gauge 5: op, operand. -/
def gmsg (op v : Nat) : Msg := (gaugeMsg 0 0 5 op v 0).put 34 34 (srcOf part0 0 0)

/-- Tile 0 holds a section of context 0, and its message waits at gauge block 0; the gauge holds v. -/
def sBlock (op v operand : Nat) : State :=
  { partG with gauges := { partG.gauges with
    tctx := [(0, 0)], inq := [(0, [gmsg op operand])], gauges := [(7, { Gauge.reset with bound := some (0, 5), value := BitVec.ofNat 32 v })] } }

def BlockMet (s : State) (m : Msg) : Prop :=
  Canonical s ∧ Runs s ∧ asorted s.gauges.inq = true ∧ (0 : BitVec 3).toNat < 5 ∧ ((0 : BitVec 3).toNat = 4 ∨ (0 : BitVec 3).toNat < s.dies) ∧
  (s.gin (0 : BitVec 3).toNat).head? = some m ∧ gaugeMalformed m = false ∧ gaugeCtx s m = some 0 ∧ s.gaugeOf 0 (gVid m) = some 7 ∧
  7 / 4096 = (0 : BitVec 3).toNat

theorem witness_gaugeSignals : ∀ op ∈ [0, 1], let m := gmsg op 0xFFFFFFFF; BlockMet (sBlock op 6 0xFFFFFFFF) m ∧ gOp m = op := by
  unfold BlockMet Canonical Runs; decide +kernel

theorem witness_gaugeWaits : ∀ e ∈ [(6, true), (7, false)], let m := gmsg 2 e.1; let s := sBlock 2 6 e.1
    BlockMet s m ∧ gOp m = 2 ∧ satisfied (s.gauge 7).value (gOperand m) = e.2 ∧ (s.gauge 7).waiters.length < 64 ∧
    agetD s.gauges.waitersUsed (0 : BitVec 3).toNat 0 < 8192 := by
  unfold BlockMet Canonical Runs; decide +kernel

/-- WAITs that no room is left for: 64 waiters at the gauge; 8,192 at the block. -/
theorem witness_gaugeWaits_full : ∀ e ∈ [(64, 0), (0, 8192)], let m := gmsg 2 7; let s0 := sBlock 2 6 7
    let s := { s0 with gauges := { s0.gauges with
      gauges := [(7, { s0.gauge 7 with waiters := List.replicate e.1 readWaiter })], waitersUsed := [(0, e.2)] } }
    BlockMet s m ∧ gOp m = 2 ∧ satisfied (s.gauge 7).value (gOperand m) = false ∧
    ¬ ((s.gauge 7).waiters.length < 64 ∧ agetD s.gauges.waitersUsed (0 : BitVec 3).toNat 0 < 8192) := by
  unfold BlockMet Canonical Runs; decide +kernel

/-! ## WakeRetryTimeout -/

/-- The wait of queue 3 on hub pump 32 for its post gauge, begun at cycle 44; and its waiter. -/
def postWait : HubWait := ⟨1, 6, 1, 3, 0, 5, 6, 44, 1024, none, 0, 0⟩
def postWaiter : Waiter := ⟨true, 1, 0, 0, 5, 0, 6, none, 6, destWord 0 0 0 17 1 0⟩

/-- A WAKE for it, of this result, has reached the hub behind another. -/
def hubWake (r : BitVec 8) : Msg := wakeMsg 0 0 ⟨postWaiter, r, 7, 7⟩
def sHubWake (r : BitVec 8) : State :=
  { withQueues partG [(3, queue0)] with gauges := { partG.gauges with wakes := [hubWake 1, hubWake r], hubWaits := [postWait] } }

theorem witness_wake : ∀ r ∈ [(0 : BitVec 8), 2], let s := sHubWake r; let m := hubWake r
    Canonical s ∧ Runs s ∧ s.gauges.wakes[1]? = some m ∧
    s.gauges.hubWaits.find? (fun h => h.unit == m.dstUnit && h.tag == m.tag) = some postWait ∧ gResult m = r.toNat ∧ postWait.what = 1 ∧
    s.queue? postWait.q = some queue0 := by
  unfold Canonical Runs; decide +kernel

/-- 256 cycles of its 1,024 have passed at the retry; and a wait that has no limit. -/
theorem witness_waitRetry : ∀ e ∈ [(1024, 768), (0, 0)], let h := { postWait with retryAt := some 300, limit := e.1 }
    let s : State := { partG with clk := 300, gauges := { partG.gauges with hubWaits := [readWait, h] } }
    Canonical s ∧ Runs s ∧ s.gauges.hubWaits[1]? = some h ∧ h.retryAt = some 300 ∧ 300 ≤ s.clk ∧
    limitLeft h.limit (s.clk - h.start) = some e.2 ∧ e.2 < 2 ^ 32 := by
  unfold Canonical Runs; decide +kernel

/-- The sequencer of logical tile 1 waits; a WAKE of this result for it stands at the head of its south input. -/
def seqWait : GWait := ⟨5, 7, 0, 0, none, 0, 0⟩
def tileWake (r : BitVec 8) : Msg := wakeMsg 0 0 ⟨⟨false, 0, 1, 0, 5, 5, 7, none, 0, tileDest 1 0 0⟩, r, 7, 7⟩
def sTileWake (r : BitVec 8) : State := { part0 with
  tiles := [(part0.phys 1, { Tile.reset with
    sect := { TileSect.reset with gen := 5 }, seq := { Seq.reset with st := .waitGauge, gwait := some seqWait }
    router := { Router.empty with queues := [(qKey .south 0, [tileWake r])] } })] }

theorem witness_wake_tile : ∀ r ∈ [(0 : BitVec 8), 2], let s := sTileWake r; let m := tileWake r; let k := s.phys 1
    Canonical s ∧ Runs s ∧ k < 1088 ∧ headHere s k .south 0 = some m ∧ m.kind = 4 ∧ ejectGranted s k (.lane .south 0) = true ∧
    (s.tile k).sect.gen.toNat = gWgen m ∧ (s.tile k).seq.gwait = some seqWait ∧ (s.tile k).seq.st = .waitGauge ∧ m.dstUnit = 0 ∧
    gResult m = r.toNat := by
  unfold Canonical Runs; decide +kernel

/-- A GAUGE_READ, another wait of the hub, and one of a tile, at the last gauge of the hub's block. -/
theorem witness_waiterTimeout : ∀ e ∈ [(true, true), (true, false), (false, false)],
    let w := { readWaiter with hub := e.1 }
    let s : State := { partG with clk := 9, gauges := { partG.gauges with
      hubWaits := if e.2 then [readWait] else [], gauges := [(20479, { Gauge.reset with waiters := [w] })] } }
    let g := (4 : BitVec 3).toNat * 4096 + (4095 : BitVec 12).toNat
    Canonical s ∧ Runs s ∧ (s.gauge g).waiters[0]? = some w ∧ w.deadline = some 9 ∧ 9 ≤ s.clk ∧ readsGauge s w = e.2 := by
  unfold Canonical Runs; decide +kernel

end Sys2Proof.Tests
end

