-- ==== Sys2Proof/Tests/WitnessE.lean ====
section
/-! SUPPORT. Witnesses: for the statements about digests and votes, screens, units, faults and the log, states and operands that meet
the hypotheses of each clause. -/

namespace Sys2Proof.Tests

-- One theorem after the other: each evaluation by the kernel waits for all before it, and would hold a thread while it waits.
set_option Elab.async false

open Sys2Proof.Machine Sys2Proof.Safety

/-! ## DigestsGroupsAndVotes -/

/-- One granule of segment 0, clean or poisoned. -/
theorem witness_digest : ∀ marks ∈ [[], [(2 ^ 40 + 0x8000) / 64]],
    let s := post { part0 with mem := { part0.mem with poison := marks } } (.user 0) 0x70 (bytesOf [(8, 0), (8, 0x8000), (8, 64), (8, 0x9000)])
    let p := pkt s (.user 0)
    let host := bitOf (p.b 8 1) 0
    let a := p.b 16 8
    let n := p.b 24 8
    let len := 64 + 32 * leafCount n
    Takes s (.user 0) 0x70 [(8, 1, 1), (16, 8, 0), (24, 8, 0), (32, 8, 0)] p ∧
    (a % 64 = 0 ∧ n % 64 = 0 ∧ n ≠ 0 ∧ touchesFrames a n = false ∧ mayReach s (ringNo (.user 0)) false a n = true ∧
      mayReach s (ringNo (.user 0)) host (p.b 32 8) len = true ∧ s.populated a n = true ∧ closedTile s a n = none ∧
      (digestRecord s a n).length = len ∧ (poisonedLeaves s a n = 0 ↔ marks = [])) ∧ Open s host (p.b 32 8) len := by
  intro e he
  simp only [List.mem_cons, List.not_mem_nil, or_false] at he
  rcases he with rfl | rfl <;>
    exact ⟨takes_of (by decide +kernel), by decide +kernel, open_of (by decide +kernel)⟩

theorem witness_replicaGroupDefine : ∀ own ∈ [0, 2],
    let s := post part0 .priv 0x71 (bytesOf [(1, 0), (1, 15), (1, 3), (1, own), (4, 0), (2, if own = 0 then 0xFFFF else 7), (2, 1),
      (2, if own = 0 then 7 else 0xFFFF)])
    let p := pkt s .priv
    Takes s .priv 0x71 [(8, 1, 0), (9, 1, 0), (10, 1, 0), (11, 1, 0), (16, 2 * p.b 10 1, 0)] p ∧ p.b 8 1 = 0 ∧ p.b 9 1 ≤ 15 ∧
    3 ≤ p.b 10 1 ∧ p.b 10 1 ≤ 16 ∧ noRepeat (groupMembers p) = true ∧ (groupMembers p)[p.b 11 1]? = some s.deviceId := by
  intro e he
  simp only [List.mem_cons, List.not_mem_nil, or_false] at he
  rcases he with rfl | rfl <;> exact ⟨takes_of (by decide +kernel), by decide +kernel⟩

/-- A group of this device, whose ID is not set, and devices 1 and 7. -/
def group0 : Group := ⟨[0xFFFF, 1, 7], 0⟩

def withHealth (s : State) (groups : Assoc Group) (xs : List Exchange) : State :=
  { s with health := { s.health with groups := groups, exchanges := xs } }

theorem witness_replicaGroupRemove : let s := post (withHealth part0 [(15, group0)] []) .priv 0x71 [1, 15]; let p := pkt s .priv
    Takes s .priv 0x71 [(8, 1, 0), (9, 1, 0)] p ∧ p.b 8 1 = 1 ∧ (aget? s.health.groups (p.b 9 1)).isSome = true ∧
    asorted s.health.groups = true :=
  ⟨takes_of (by decide +kernel), by decide +kernel⟩

theorem witness_clearExpulsion : let s := post part0 .priv 0x71 [2]; let p := pkt s .priv
    Takes s .priv 0x71 [(8, 1, 0)] p ∧ p.b 8 1 = 2 :=
  ⟨takes_of (by decide +kernel), by decide +kernel⟩

/-- A schedule entry of an action with these parameters, due at count 5 and phase 100. -/
def schedEntry (action : Nat) (par : List Byte) : Sched :=
  ⟨padTo 56 (bytesOf [(1, action), (1, 0xFF), (2, 0), (2, 0), (2, 0), (8, 5), (4, 100), (4, 10), (4, 0)] ++ par), 0⟩

/-- The booted part at count 5 and phase n, with this entry at index 1023. -/
def sDue (n : Nat) (x : Sched) : State := { part0 with tideCount := 5, tidePhase := n, tide := { Tide.reset with sched := [(1023, x)] } }

def exchangeEntry : Sched := schedEntry 4 (bytesOf [(1, 15), (1, 0), (2, 3), (8, 0x8000), (8, 64)])

theorem witness_digestExchange : ∀ n ∈ [100, 101], let s := withHealth (sDue n exchangeEntry) [(15, group0)] []; let x := exchangeEntry
    let a := leAt x.bytes 32 8
    Canonical s ∧ Runs s ∧ aget? s.tide.sched (1023 : BitVec 10).toNat = some x ∧ seAction x.bytes = 4 ∧
    cyclesTo s (dueOf x.bytes x.next) ≤ 0 ∧ -1 ≤ cyclesTo s (dueOf x.bytes x.next) ∧
    aget? s.health.groups (leAt x.bytes 28 1) = some group0 ∧ s.populated a (leAt x.bytes 40 8) = true ∧
    closedTile s a (leAt x.bytes 40 8) = none ∧ leAt x.bytes 40 8 ≠ 0 ∧ poisonedLeaves s a (leAt x.bytes 40 8) = 0 := by
  unfold Canonical Runs; decide +kernel

/-- A service record with a digest for group 15, due at 5, from device 7 to this device. -/
def record7 : List Byte := padTo 64 (bytesOf [(1, 4), (1, 0), (2, 0xFFFF), (2, 7), (2, 0), (1, 15), (1, 0), (6, 0), (8, 5), (32, 9)])

def exchange0 : Exchange := ⟨15, 5, 8, some (leBytes 32 9), [(1, some (leBytes 32 9))]⟩

theorem witness_serviceRecord :
    let s : State := { withHealth part0 [(15, group0)] [exchange0] with
      links := { Links.reset with ports := [(7, { LinkPort.reset with svcIn := [record7] })] } }
    let rec7 := record7
    Canonical s ∧ Runs s ∧ (s.lport (7 : BitVec 3).toNat).svcIn = [rec7] ∧ leAt rec7 2 2 = s.deviceId ∧ fld (leAt rec7 0 1) 1 3 = 2 ∧
    s.health.exchanges = [exchange0] ∧ exchange0.group = leAt rec7 8 1 ∧ exchange0.due = leAt rec7 16 8 ∧
    aget? s.health.groups exchange0.group = some group0 ∧
    group0.members.findIdx? (fun d => d == leAt rec7 4 2 && d != s.deviceId) = some 2 ∧ (∀ e ∈ exchange0.got, e.1 ≠ 2) ∧
    bitOf (leAt rec7 9 1) 0 = false := by
  unfold Canonical Runs; decide +kernel

/-- This device is 5; a record for device 7, which lies beyond port 2, came in at port 0. -/
theorem witness_serviceRecord_forwarded :
    let r := padTo 64 (bytesOf [(1, 4), (1, 0), (2, 7), (2, 1)])
    let s : State := { part0 with
      links := { Links.reset with ports := [(0, { LinkPort.reset with svcIn := [r] }), (2, { LinkPort.reset with state := 3 })] }
      regs := [(0x100000, 5), (0x100008, 10)] }
    Canonical s ∧ Runs s ∧ (s.lport (0 : BitVec 3).toNat).svcIn = [r] ∧ leAt r 2 2 ≠ s.deviceId ∧ s.linkPort (leAt r 2 2) = some 2 ∧
    2 ≠ (0 : BitVec 3).toNat ∧ (s.lport 2).up = true ∧ (s.lport 2).svc.length < 256 := by
  unfold Canonical Runs; decide +kernel

def voteFound (s : State) : Option Exchange := s.health.exchanges.find? (fun x =>
  x.group == (15 : BitVec 4).toNat && (x.got.length + 1 ≥ group0.members.length || x.ends ≤ s.tideCount.toNat))

/-- Every record is held; and one is held when the window ends. -/
theorem witness_vote : ∀ e ∈ [([(1, some (leBytes 32 9)), (2, some (leBytes 32 9))], 0), ([(1, some (leBytes 32 9))], 8)],
    let x : Exchange := { exchange0 with got := e.1 }
    let s : State := { withHealth part0 [(15, group0)] [x] with tideCount := e.2 }
    Canonical s ∧ Runs s ∧ aget? s.health.groups (15 : BitVec 4).toNat = some group0 ∧ voteFound s = some x ∧
    majorityRoot group0 x = some (leBytes 32 9) ∧ (∀ m ∈ heldRoots group0 x, m.2 = leBytes 32 9) ∧ x.own = some (leBytes 32 9) := by
  unfold Canonical Runs; decide +kernel

theorem witness_vote_none : let x : Exchange := { exchange0 with got := [(1, some (leBytes 32 1)), (2, none)] }
    let s := withHealth part0 [(15, group0)] [x]
    Canonical s ∧ Runs s ∧ aget? s.health.groups (15 : BitVec 4).toNat = some group0 ∧ voteFound s = some x ∧
    majorityRoot group0 x = none := by
  unfold Canonical Runs; decide +kernel

/-! ## ScreensAsked -/

def sScreen (s : State) (f t : Nat) : State := post s .priv 0x72 (bytesOf [(1, f), (1, 0), (2, t)])
def ssFields : Fields := [(8, 1, 0), (10, 2, 0)]

/-- The last spare of die 3, and tile 0 of die 0, which serves a logical tile. -/
theorem witness_screenRunScreen : ∀ n ∈ [0, 1087], let s := sScreen part0 0 n; let p := pkt s .priv; let t := p.b 10 2
    Takes s .priv 0x72 ssFields p ∧ s.health.scr.length = 4 ∧ tileParam s t = none ∧ t < 1088 ∧ pDie t < 4 ∧ p.b 8 1 = 0 ∧
    (s.tile t).retired = false ∧ (s.logical t = none ∨ (idleSpare s (pDie t)).isSome = true) := by
  intro e he
  simp only [List.mem_cons, List.not_mem_nil, or_false] at he
  rcases he with rfl | rfl <;> exact ⟨takes_of (by decide +kernel), by decide +kernel⟩

theorem witness_screenRunRetire_again : let s := sScreen { part0 with tiles := [(1087, { Tile.reset with retired := true })] } 1 1087
    let p := pkt s .priv; let t := p.b 10 2
    Takes s .priv 0x72 ssFields p ∧ s.health.scr.length = 4 ∧ tileParam s t = none ∧ t < 1088 ∧ pDie t < 4 ∧ p.b 8 1 = 1 ∧
    (s.tile t).retired = true :=
  ⟨takes_of (by decide +kernel), by decide +kernel⟩

theorem witness_screenRunRetire : let s := sScreen part0 1 1087; let p := pkt s .priv; let t := p.b 10 2
    Takes s .priv 0x72 ssFields p ∧ s.health.scr.length = 4 ∧ tileParam s t = none ∧ t < 1088 ∧ pDie t < 4 ∧ p.b 8 1 = 1 ∧
    (s.tile t).retired = false ∧ s.logical t = none ∧ (s.scr (pDie t)).cur ≠ t ∧ (∀ m ∈ s.moves, m.dest ≠ t) :=
  ⟨takes_of (by decide +kernel), by decide +kernel⟩

/-- A move of tile 1023 is bound for the spare. -/
def moveTo : Move := ⟨1023, 1087⟩
theorem witness_screenRunRetire_bound : let s := sScreen { part0 with moves := [moveTo] } 1 1087; let p := pkt s .priv; let t := p.b 10 2
    Takes s .priv 0x72 ssFields p ∧ s.health.scr.length = 4 ∧ tileParam s t = none ∧ t < 1088 ∧ pDie t < 4 ∧ p.b 8 1 = 1 ∧
    (s.tile t).retired = false ∧ s.logical t = none ∧ (s.scr (pDie t)).cur ≠ t ∧
    s.moves.find? (fun m => m.dest == t) = some moveTo ∧ idleSpare (retireTile s t noRecord) (pDie t) = some 1072 :=
  ⟨takes_of (by decide +kernel), by decide +kernel⟩

theorem witness_screenRunSetCtl : let s := post part0 .priv 0x72 (bytesOf [(1, 2), (3, 0), (1, 15), (1, 15), (1, 1)]); let p := pkt s .priv
    Takes s .priv 0x72 [(8, 1, 0), (12, 1, 0), (13, 1, 0), (14, 1, 1)] p ∧ p.b 8 1 = 2 ∧ p.b 12 1 ≤ 15 ∧ p.b 13 1 ≤ 15 :=
  ⟨takes_of (by decide +kernel), by decide +kernel⟩

/-- A screen pack of one record of zeros with these digest bytes, written out from Table 15.4. -/
def putPack (s : State) (a d : Nat) : State :=
  putHost s a (bytesOf [(4, 0x504B544C), (2, 1), (2, 1), (4, 9), (4, 32800), (4, 1000), (4, 1), (4, 0), (4, 0), (32, d)])

def sPack (d : Nat) : State := post (putPack part0 0x100000 d) .priv 0x73 (bytesOf [(1, 1), (7, 0), (8, 0x100000), (4, 32800)])

def spFields : Fields := [(8, 1, 1), (16, 8, 0), (24, 4, 0)]

/-- The digest of that pack: SHA-256 with the digest and the signature read as zero. -/
def packDigest : Nat := 35810079056208141998163093356516253603713062851189216779762331353254036833135

/-- The pack as `sPack` reads it. -/
theorem sPack_bytes {host : Bool} {a n : Nat} (e1 : host = true) (e2 : a = 0x100000) (e3 : n = 32800) :
    (sPack packDigest).anyRead host a n = Laws.Eval.readT (sPack packDigest).mem.cells (hostBase + 0x100000) 32800 := by
  subst e1 e2 e3
  exact Laws.Eval.read_eq _ _ _ (by decide +kernel)

theorem packRefused_none {s : State} {bs : List Byte} (h1 : packForm bs = true) (h2 : packDigestOk bs = true)
    (h3 : vendorSlotOk s (leAt bs 24 4) = true) (h4 : bitOf (leAt bs 6 2) (b2n s.part.is1620) = true)
    (h5 : (List.range (leAt bs 20 4)).all (fun i => packRecordOk (packRecord bs i)) = true) (h6 : s.health.pack < leAt bs 8 4) :
    packRefused s bs true = none := by
  simp [packRefused, h1, h2, h3, h4, h5, h6]

theorem witness_screenPackLoad : let s := sPack packDigest; let p := pkt s .priv; let host := bitOf (p.b 8 1) 0
    let bs := s.anyRead host (p.b 16 8) (p.b 24 4)
    Takes s .priv 0x73 spFields p ∧ s.sec.error = false ∧ Open s host (p.b 16 8) (p.b 24 4) ∧
    s.anyPoison host (p.b 16 8) (p.b 24 4) = false ∧ packRefused s bs true = none := by
  refine ⟨takes_of (by decide +kernel), by decide +kernel, open_of (by decide +kernel), by decide +kernel, ?_⟩
  show packRefused _ ((sPack packDigest).anyRead _ _ _) true = none
  rw [sPack_bytes (by decide +kernel) (by decide +kernel) (by decide +kernel)]
  apply packRefused_none
  · decide +kernel
  · rw [packDigestOk, Laws.Eval.sha256_eq]; decide +kernel
  · decide +kernel
  · decide +kernel
  · decide +kernel
  · decide +kernel

/-- 64 bytes that have not the form of a pack. -/
theorem witness_screenPackLoad_refused :
    let s := post part0 .priv 0x73 (bytesOf [(1, 1), (7, 0), (8, 0x100000), (4, 64)]); let p := pkt s .priv; let host := bitOf (p.b 8 1) 0
    Takes s .priv 0x73 spFields p ∧ s.sec.error = false ∧ Open s host (p.b 16 8) (p.b 24 4) ∧
    s.anyPoison host (p.b 16 8) (p.b 24 4) = false ∧ packRefused s (s.anyRead host (p.b 16 8) (p.b 24 4)) true = some stBadParam :=
  ⟨takes_of (by decide +kernel), by decide +kernel, open_of (by decide +kernel), by decide +kernel⟩

def screenEntry : Sched := schedEntry 5 [0x0F]

theorem witness_screen : ∀ n ∈ [100, 101], let s := sDue n screenEntry; let x := screenEntry
    Canonical s ∧ Runs s ∧ aget? s.tide.sched (1023 : BitVec 10).toNat = some x ∧ seAction x.bytes = 5 ∧
    cyclesTo s (dueOf x.bytes x.next) ≤ 0 ∧ -1 ≤ cyclesTo s (dueOf x.bytes x.next) := by
  unfold Canonical Runs; decide +kernel

/-- The part with the screener of die 3 as given, at this clock. -/
def sScreener (x : Screener) (clk : Nat) : State :=
  { part0 with clk := clk, health := { Health.reset with scr := [Screener.reset, Screener.reset, Screener.reset, x] } }

theorem witness_screenTileStart : let s := sScreener { Screener.reset with step := .ready, cur := 1087 } 0
    Canonical s ∧ Runs s ∧ s.health.scr.length = 4 ∧ (3 : BitVec 2).toNat < s.dies ∧ s.unitOn 0 (3 : BitVec 2).toNat = true ∧
    s.ready = true ∧ (s.scr (3 : BitVec 2).toNat).step = .ready ∧ healthySpares s (3 : BitVec 2).toNat ≠ 0 := by
  unfold Canonical Runs; decide +kernel

def running1087 : Screener := { Screener.reset with step := .running, cur := 1087, since := 1 }

theorem witness_screenTileEnd : let s := sScreener running1087 4800000001; let x := s.scr (3 : BitVec 2).toNat
    Canonical s ∧ Runs s ∧ s.health.scr.length = 4 ∧ x.step = .running ∧ x.vacated = none ∧ x.cmd = none ∧
    screenCycles s ≤ s.clk - x.since := by
  unfold Canonical Runs; decide +kernel

theorem witness_screenTileEnd_failed : let s := sScreener running1087 1; let x := s.scr (3 : BitVec 2).toNat
    Canonical s ∧ Runs s ∧ s.health.scr.length = 4 ∧ x.step = .running ∧ x.cmd = none ∧ (4095 : BitVec 16).toNat < s.health.packRecords := by
  unfold Canonical Runs; decide +kernel

/-! ## UnitsEnabledAndDisabled -/

def withUnit (s : State) (cls i : Nat) (ph : UnitPhase) : State := { s with units := [(256 * cls + i, ⟨ph, [], []⟩)] }
def sUnit (s : State) (op cls i : Nat) : State := post s .priv op [BitVec.ofNat 8 cls, BitVec.ofNat 8 i]
def ueFields : Fields := [(8, 1, 0), (9, 1, 0)]

/-- The hypotheses that every clause shares. -/
def UnitMet (s : State) (op : Nat) : Prop :=
  let p := pkt s .priv
  Takes s .priv op ueFields p ∧ p.b 8 1 ≤ 4 ∧ p.b 9 1 < unitCount (p.b 8 1)

/-- The last hub pump. -/
theorem witness_unitEnable : ∀ ph ∈ [UnitPhase.disabled, .enabled], let s := sUnit (withUnit part0 4 39 ph) 0x90 4 39; let p := pkt s .priv
    let x := s.unitSt (p.b 8 1) (p.b 9 1)
    UnitMet s 0x90 ∧ unitPresent s (p.b 8 1) (p.b 9 1) = true ∧ x.phase = ph ∧ x.held = [] := by
  intro e he
  simp only [List.mem_cons, List.not_mem_nil, or_false] at he
  rcases he with rfl | rfl <;> exact ⟨⟨takes_of (by decide +kernel), by decide +kernel⟩, by decide +kernel⟩

/-- Field die 2 of an LTK-1620. -/
theorem witness_unitEnable_absent : let s := sUnit { part0 with part := { Part.reset with is1620 := true } } 0x90 0 2; let p := pkt s .priv
    UnitMet s 0x90 ∧ unitPresent s (p.b 8 1) (p.b 9 1) = false :=
  ⟨⟨takes_of (by decide +kernel), by decide +kernel⟩, by decide +kernel⟩

theorem witness_unitDisable : ∀ ph ∈ [UnitPhase.disabled, .enabled], let s := sUnit (withUnit part0 4 39 ph) 0x91 4 39; let p := pkt s .priv
    let x := s.unitSt (p.b 8 1) (p.b 9 1)
    UnitMet s 0x91 ∧ unitPresent s (p.b 8 1) (p.b 9 1) = true ∧ x.phase = ph ∧ x.held = [] ∧ disableBusy s (p.b 8 1) (p.b 9 1) = false := by
  intro e he
  simp only [List.mem_cons, List.not_mem_nil, or_false] at he
  rcases he with rfl | rfl <;> exact ⟨⟨takes_of (by decide +kernel), by decide +kernel⟩, by decide +kernel⟩

/-- A polder stands. -/
theorem witness_unitDisable_busy : let s := sUnit part0 0x91 2 7; let p := pkt s .priv; let x := s.unitSt (p.b 8 1) (p.b 9 1)
    UnitMet s 0x91 ∧ unitPresent s (p.b 8 1) (p.b 9 1) = true ∧ x.phase = .enabled ∧ x.held = [] ∧ disableBusy s (p.b 8 1) (p.b 9 1) = true :=
  ⟨⟨takes_of (by decide +kernel), by decide +kernel⟩, by decide +kernel⟩

/-- A transition of a unit by one command of the privileged ring. -/
def sTransition (cls i : Nat) (ph : UnitPhase) : State := { part0 with units := [(256 * cls + i, ⟨ph, [(64, cmdU)], []⟩)] }
  where cmdU : Cmd := ⟨0x90, 0, 0, false, [0, cls, i]⟩

def TransitionMet (s : State) (k : Cmd) (cls : BitVec 3) (i : Byte) : Prop :=
  Canonical s ∧ Runs s ∧ k.aux.headD 0 = 0 ∧ (s.unitSt cls.toNat i.toNat).joined = [(64, k)] ∧ (s.unitSt cls.toNat i.toNat).held = []

theorem witness_transition_port : let s := sTransition 3 7 .enabling
    TransitionMet s (sTransition.cmdU 3 7) 3 7 ∧ (s.unitSt 3 (7 : Byte).toNat).phase = .enabling := by
  unfold TransitionMet Canonical Runs; decide +kernel

theorem witness_transition_stack : ∀ fail ∈ [(0 : BitVec 3), 1, 7], let s := sTransition 1 7 .enabling
    TransitionMet s (sTransition.cmdU 1 7) 1 7 ∧ (s.unitSt 1 (7 : Byte).toNat).phase = .enabling ∧ bitOf s.power.pg 8 = true ∧
    (fail.toNat < 2 ∨ 6 < fail.toNat) := by
  unfold TransitionMet Canonical Runs; decide +kernel

/-- At the last step, and at the first with its input low. -/
theorem witness_transition_fails : ∀ e ∈ [((6 : BitVec 3), 0x7FF, 6), (0, 0x6FF, 1)],
    let s : State := { sTransition 1 7 .enabling with power := { part0.power with pg := e.2.1 } }
    TransitionMet s (sTransition.cmdU 1 7) 1 7 ∧ (s.unitSt 1 (7 : Byte).toNat).phase = .enabling ∧
    failsAt s 1 (7 : Byte).toNat e.1.toNat = e.2.2 ∧ e.2.2 ≠ 0 := by
  unfold TransitionMet Canonical Runs; decide +kernel

theorem witness_transition_pump : let s := sTransition 4 39 .disabling
    TransitionMet s (sTransition.cmdU 4 39) 4 39 ∧ (s.unitSt 4 (39 : Byte).toNat).phase = .disabling := by
  unfold TransitionMet Canonical Runs; decide +kernel

/-! ## FaultsAndLog -/

theorem witness_memoryUnitLost : let s := part0; Canonical s ∧ Runs s ∧ s.memOn (0 : BitVec 4).toNat = true := by
  unfold Canonical Runs; decide +kernel

theorem witness_wardenBite : let r := { run0 with phase := .running }; let s : State := { part0 with images := [img0], runs := [r], clk := 2 ^ 20 }
    Canonical s ∧ Runs s ∧ s.run? 1 = some r ∧ r.phase = .running ∧ lastProgress s r + wardenLimit s ≤ s.clk := by
  unfold Canonical Runs; decide +kernel

/-- An event waits, with the log empty or full. -/
theorem witness_logEntryWrite : ∀ n ∈ [0, 4096], let e : LogEntry := ⟨List.replicate 32 1, false⟩
    let s : State := { part0 with log := { Log.reset with entries := List.replicate n e, queue := [e, e] } }
    Canonical s ∧ Runs s ∧ s.log.queue = e :: [e] := by
  unfold Canonical Runs; decide +kernel

end Sys2Proof.Tests
end

