-- ==== Sys2Proof/Tests/WitnessF.lean ====
section
/-! SUPPORT. Witnesses: for the statements about Beytia ports, the tide and the schedule table (O21 to O26), states and operands that
meet the hypotheses of each clause. -/

namespace Sys2Proof.Tests

-- One theorem after the other: each evaluation by the kernel waits for all before it, and would hold a thread while it waits.
set_option Elab.async false

open Sys2Proof.Machine Sys2Proof.Safety

/-! ## LinkTrains -/

/-- Port k is to be trained, with neighbour 8 wanted; this device is n. -/
def sTrain (n k : Nat) : State :=
  post { part0 with regs := [(0x100000, BitVec.ofNat 64 n)] } .priv 0x92 (bytesOf [(1, k), (1, 1), (1, 1), (1, 0), (2, 8)])

def ltFields : Fields := [(8, 1, 0), (9, 1, 1), (10, 1, 1), (12, 2, 0)]

/-- Every step passed, and each that can fail, the neighbour's name among them. -/
theorem witness_linkTrain : ∀ e ∈ [((0 : BitVec 4), (8 : BitVec 16), 0), (1, 8, 1), (3, 8, 3), (0, 9, 4), (5, 8, 5), (6, 8, 6)],
    let s := sTrain 5 7; let p := pkt s .priv; let k := p.b 8 1
    Takes s .priv 0x92 ltFields p ∧ k < 8 ∧ k < s.nports ∧ s.unitOn 3 k = true ∧ s.deviceId ≠ 0xFFFF ∧ (s.lport k).up = false ∧
    trainFails s ⟨e.1, e.2.1, 40, 2⟩ (if bitOf (p.b 10 1) 0 then some (p.b 12 2) else none) = e.2.2 := by
  intro e he
  have h : ∀ e ∈ [((0 : BitVec 4), (8 : BitVec 16), 0), (1, 8, 1), (3, 8, 3), (0, 9, 4), (5, 8, 5), (6, 8, 6)],
      trainFails (sTrain 5 7) ⟨e.1, e.2.1, 40, 2⟩ (some 8) = e.2.2 := by decide +kernel
  have q : bitOf ((pkt (sTrain 5 7) .priv).b 10 1) 0 = true ∧ (pkt (sTrain 5 7) .priv).b 12 2 = 8 := by decide +kernel
  exact ⟨takes_of (by decide +kernel), by decide +kernel, by decide +kernel, by decide +kernel, by decide +kernel, by decide +kernel,
    by rw [if_pos q.1, q.2]; exact h e he⟩

theorem witness_linkTrain_noId : let s := sTrain 0xFFFF 7; let p := pkt s .priv; let k := p.b 8 1
    Takes s .priv 0x92 ltFields p ∧ k < 8 ∧ k < s.nports ∧ s.unitOn 3 k = true ∧ s.deviceId = 0xFFFF :=
  ⟨takes_of (by decide +kernel), by decide +kernel⟩

/-- The first port that an LTK-1620 lacks. -/
theorem witness_linkTrain_absent :
    let s := post { part0 with part := { Part.reset with is1620 := true } } .priv 0x92 (bytesOf [(1, 4), (1, 0), (1, 0), (1, 0), (2, 0)])
    let p := pkt s .priv
    Takes s .priv 0x92 ltFields p ∧ p.b 8 1 < 8 ∧ s.nports ≤ p.b 8 1 :=
  ⟨takes_of (by decide +kernel), by decide +kernel⟩

/-! ## BlocksReceived -/

/-- Port k of the booted part is up, else as given. -/
def sUp (k : Nat) (x : LinkPort) : State := { part0 with links := { Links.reset with ports := [(k, { x with state := 3 })] } }

/-- A block of zeros with this CRC, sequence number and kind, written out from Table 13.1. -/
def block (crc seq kind : Nat) : List Byte := List.replicate 2560 0 ++ leBytes 4 crc ++ leBytes 6 (seq + kind * 4096)

theorem witness_blockReceived_bad : let s := sUp 7 LinkPort.reset; let b : RxBlock := ⟨false, 3, block 0 0 0⟩
    Canonical s ∧ Runs s ∧ (s.lport (7 : BitVec 3).toNat).up = true ∧ b.decodes = false := by
  unfold Canonical Runs; decide +kernel

/-- The CRCs of the blocks below, from the polynomial of R318. -/
theorem witness_blocks_crc : ∀ e ∈ [(0x33F5F3E2, 4095, 2), (0x53156460, 4095, 3), (0x94A0E0FB, 0, 0), (0xC2449727, 2047, 0)],
    crcOk (padTo 2570 (block e.1 e.2.1 e.2.2)) = true := by
  intro e he
  rw [crcOk, Laws.Eval.crc32_eq]
  revert e
  decide +kernel

/-- An idle block; one of the reserved kind; a traffic block with the number expected; and one as far ahead of it as can be told. -/
theorem witness_blockReceived : ∀ e ∈ [(0x33F5F3E2, 4095, 2), (0x53156460, 4095, 3), (0x94A0E0FB, 0, 0), (0xC2449727, 2047, 0)],
    let s := sUp 7 LinkPort.reset; let blk := padTo 2570 (block e.1 e.2.1 e.2.2)
    Canonical s ∧ Runs s ∧ (s.lport (7 : BitVec 3).toNat).up = true ∧ bitOf (leAt blk 0 2) 12 = false ∧
    bitOf (leAt blk 0 2) 13 = false ∧ bitOf (leAt blk 64 1) 0 = false ∧ s.tide.port ≠ (7 : BitVec 3).toNat ∧
    blockKind blk = e.2.2 ∧ (blockSeq blk + 4096 - (s.lport 7).expect) % 4096 = e.2.1 ∧ (∀ x ∈ slotBytes blk, bitOf x 0 = false) ∧
    (s.lport 7).gap = false := by
  unfold Canonical Runs; decide +kernel

/-! ## PortsSendAndReplay -/

theorem witness_blockTransmit_replay : let s := sUp 7 { LinkPort.reset with resend := [[1], [2]], buffer := [(9, [1], 0)] }
    Canonical s ∧ Runs s ∧ (s.lport (7 : BitVec 3).toNat).up = true ∧ (s.lport (7 : BitVec 3).toNat).resend = [1] :: [[2]] := by
  unfold Canonical Runs; decide +kernel

theorem witness_blockTransmit_idle : let s := sUp 7 LinkPort.reset; let x := s.lport (7 : BitVec 3).toNat
    Canonical s ∧ Runs s ∧ x.up = true ∧ x.resend = [] ∧ x.bundles = [] ∧ ∀ l, l < 3 → x.txq l = [] := by
  unfold Canonical Runs; decide +kernel

theorem witness_linkReplayTimeout : let s := { sUp 7 { LinkPort.reset with buffer := [(9, [1], 5), (10, [2], 6)], tries := 7 } with clk := 16389 }
    let x := s.lport (7 : BitVec 3).toNat
    Canonical s ∧ Runs s ∧ x.up = true ∧ x.buffer = (9, [1], 5) :: [(10, [2], 6)] ∧ 5 + 16384 ≤ s.clk ∧ x.tries < 8 := by
  unfold Canonical Runs; decide +kernel

def msg0 : Msg := mkMsg 0 0 0 0 false (List.replicate 64 0)

/-- At the threshold: not logged before in this section, or logged. -/
theorem witness_ingressStall : ∀ once ∈ [[], [0x1233]],
    let s := { sUp 7 { LinkPort.reset with inq := [(1, [msg0])], since := [(1, 5)], once := once } with clk := 5 + 4096 }
    let x := s.lport (7 : BitVec 3).toNat
    Canonical s ∧ Runs s ∧ x.ingress (1 : BitVec 2).toNat ≠ [] ∧ s.threshold ≠ 0 ∧
    agetD x.since (1 : BitVec 2).toNat s.clk + s.threshold ≤ s.clk ∧ (x.once.contains 0x1233 = true ↔ once ≠ []) ∧ s.log.queue.length < 64 := by
  unfold Canonical Runs; decide +kernel

/-- The first 16 bytes of a bundle of 100 bytes. -/
def bundle16 : List Byte := bytesOf [(8, 0), (8, 100)]

theorem witness_bundleBlock_first : let s := sUp 7 { LinkPort.reset with bundleIn := [(3, 0, bundle16)] }
    let x := s.lport (7 : BitVec 3).toNat
    Canonical s ∧ Runs s ∧ x.bundleIn = (3, 0, bundle16) :: [] ∧ bundle16.length < leAt bundle16 8 8 := by
  unfold Canonical Runs; decide +kernel

/-- All but the last byte of that bundle are there once the second block is. -/
theorem witness_bundleBlock_next : let bytes : List Byte := List.replicate 83 0
    let s := sUp 7 { LinkPort.reset with bundleIn := [(3, 16, bytes)], rxBundle := some ⟨3, bundle16, 0⟩ }
    let x := s.lport (7 : BitVec 3).toNat
    Canonical s ∧ Runs s ∧ x.bundleIn = (3, 16, bytes) :: [] ∧ x.rxBundle = some ⟨3, bundle16, 0⟩ ∧ bundle16.length = 16 ∧
    (bundle16 ++ bytes).length < leAt (bundle16 ++ bytes) 8 8 := by
  unfold Canonical Runs; decide +kernel

/-! ## TideConfigForms -/

/-- The pin; the last port; and a port that an LTK-1620 lacks. -/
theorem witness_tideConfigSource : ∀ e ∈ [(false, 0x1E, true), (false, 0x0F, true), (true, 0x09, false)],
    let s := post { part0 with part := { Part.reset with is1620 := e.1 } } .priv 0x93 (bytesOf [(1, 0), (1, e.2.1)]); let p := pkt s .priv
    Takes s .priv 0x93 [(8, 1, 0), (9, 1, 0x1F)] p ∧ p.b 8 1 = 0 ∧
    ((bitOf (p.b 9 1) 0 = false ∨ fld (p.b 9 1) 1 3 < s.nports) ↔ e.2.2 = true) := by
  intro e he
  simp only [List.mem_cons, List.not_mem_nil, or_false] at he
  rcases he with rfl | rfl | rfl <;> exact ⟨takes_of (by decide +kernel), by decide +kernel, by decide +kernel⟩

theorem witness_tideConfigPeriod : ∀ e ∈ [(160, true, true), (16000, true, false), (159, false, true), (16001, false, true)],
    let s := post { part0 with tide := { Tide.reset with sched := if e.2.2 then [] else [(0, screenEntry)] } } .priv 0x93
      (bytesOf [(1, 1), (3, 0), (4, e.1)])
    let p := pkt s .priv
    Takes s .priv 0x93 [(8, 1, 0), (12, 4, 0)] p ∧ p.b 8 1 = 1 ∧ ((160 ≤ p.b 12 4 ∧ p.b 12 4 ≤ 16000) ↔ e.2.1 = true) ∧
    (s.tide.sched = [] ↔ e.2.2 = true) := by
  intro e he
  simp only [List.mem_cons, List.not_mem_nil, or_false] at he
  rcases he with rfl | rfl | rfl | rfl <;> exact ⟨takes_of (by decide +kernel), by decide +kernel, by decide +kernel, by decide +kernel⟩

theorem witness_tideConfigCount : ∀ l ∈ [false, true],
    let s := post { part0 with tide := { Tide.reset with link := l } } .priv 0x93 (bytesOf [(1, 2), (7, 0), (8, 77), (8, 100)])
    let p := pkt s .priv
    Takes s .priv 0x93 [(8, 1, 0), (16, 8, 0), (24, 8, 0)] p ∧ p.b 8 1 = 2 ∧ s.tide.link = l := by
  intro e he
  simp only [List.mem_cons, List.not_mem_nil, or_false] at he
  rcases he with rfl | rfl <;> exact ⟨takes_of (by decide +kernel), by decide +kernel⟩

theorem witness_tideConfigOutput : let s := post part0 .priv 0x93 [3, 1, 255]; let p := pkt s .priv
    Takes s .priv 0x93 [(8, 1, 0), (9, 1, 1), (10, 1, 0)] p ∧ p.b 8 1 = 3 :=
  ⟨takes_of (by decide +kernel), by decide +kernel⟩

/-! ## TideTicksAndMarkers -/

/-- The tide follows the pin: the last edge came at 100, and it is `now`. -/
def sPin (now : Nat) : State := { part0 with tide := { Tide.reset with freeRunning := false, lastEdge := some 100, now := now, pinDelay := 9 } }

/-- Both ends of the window. -/
theorem witness_pinEdge : ∀ n ∈ [1698, 1702], let s := sPin n
    Canonical s ∧ Runs s ∧ s.tide.link = false ∧ s.tide.freeRun = false ∧ s.tide.freeRunning = false ∧ s.tide.stepTo = none ∧
    s.tide.jump = none ∧ s.tide.lastEdge = some 100 ∧ s.tide.now ≤ 100 + s.tide.period + edgeWindow s ∧
    100 + s.tide.period ≤ s.tide.now + edgeWindow s := by
  unfold Canonical Runs; decide +kernel

theorem witness_pinEdge_rejected : ∀ n ∈ [1697, 1703], let s := sPin n
    Canonical s ∧ Runs s ∧ s.tide.link = false ∧ s.tide.freeRun = false ∧ s.tide.freeRunning = false ∧ s.tide.lastEdge = some 100 ∧
    (100 + s.tide.period + edgeWindow s < s.tide.now ∨ s.tide.now + edgeWindow s < 100 + s.tide.period) := by
  unfold Canonical Runs; decide +kernel

/-- The period, as it is and a cycle longer. -/
theorem witness_tideTick : ∀ c ∈ [(0 : Int), 1], let s : State := { part0 with
      tide := { Tide.reset with corr := c }, tidePhase := 1600 + c.toNat }
    Canonical s ∧ Runs s ∧ ownTicks s = true ∧ s.tide.stepTo = none ∧ s.tide.jump = none ∧
    Int.ofNat s.tide.period + s.tide.corr ≤ Int.ofNat s.tidePhase := by
  unfold Canonical Runs; decide +kernel

theorem witness_holdover : let s := { sPin 1703 with tide := { (sPin 1703).tide with holdovers := 14 } }
    Canonical s ∧ Runs s ∧ s.tide.link = false ∧ s.tide.freeRun = false ∧ s.tide.freeRunning = false ∧ s.tide.stepTo = none ∧
    s.tide.jump = none ∧ s.tide.lastEdge = some 100 ∧ 100 + s.tide.period + edgeWindow s < s.tide.now ∧ s.tide.holdovers < 15 := by
  unfold Canonical Runs; decide +kernel

theorem witness_marker : let m : Marker := ⟨8, 0, false, 7, 0⟩
    let s : State := { sUp 7 { LinkPort.reset with markers := [m] } with tide := { Tide.reset with link := true, port := 7, freeRunning := false } }
    Canonical s ∧ Runs s ∧ s.tide.link = true ∧ s.tide.freeRun = false ∧ s.tide.freeRunning = false ∧ s.tide.port = (7 : BitVec 3).toNat ∧
    (s.lport (7 : BitVec 3).toNat).markers = m :: [] ∧ s.tide.stepTo = none ∧
    (markerDiff s m (s.lport (7 : BitVec 3).toNat).delay).1 ≠ 0 := by
  unfold Canonical Runs; decide +kernel

/-! ## ScheduleFirings -/

/-- A schedule entry of context 0 with an action and these parameters, due at count 5 and phase 100. -/
def schedOf (action : Nat) (par : List Byte) : Sched :=
  ⟨padTo 56 (bytesOf [(1, action), (1, 0), (2, 0), (2, 0), (2, 0), (8, 5), (4, 100), (4, 10), (4, 0)] ++ par), 0⟩

/-- A start of image 3. -/
def startEntry : Sched := schedOf 1 [3]

/-- The firing before has started. -/
def startedRun : Run := { run0 with sched := some (1023, 0), first := some (1, 2) }

/-- The image is there, and is not. -/
theorem witness_sectionStart : ∀ e ∈ [([img0], true), ([], false)],
    let s : State := { sDue 100 startEntry with images := e.1, runs := [startedRun] }; let x := startEntry
    Canonical s ∧ Runs s ∧ aget? s.tide.sched (1023 : BitVec 10).toNat = some x ∧ seAction x.bytes = 1 ∧
    (∀ o ∈ s.runs, ∀ d, o.sched = some d → d.1 = (1023 : BitVec 10).toNat → o.first ≠ none) ∧
    cyclesTo s (dueOf x.bytes x.next) ≤ Int.ofNat (switchLead s (firingRun s x.bytes (1023 : BitVec 10).toNat x.next)) ∧
    ((firingRefused s (firingRun s x.bytes (1023 : BitVec 10).toNat x.next)).isNone = e.2) := by
  intro e he
  have h : ∀ o ∈ [startedRun], ∀ d, o.sched = some d → d.1 = (1023 : BitVec 10).toNat → o.first ≠ none := by
    intro o ho d _ _
    simp only [List.mem_singleton] at ho
    subst ho
    decide
  simp only [List.mem_cons, List.not_mem_nil, or_false] at he
  rcases he with rfl | rfl <;>
    exact ⟨by unfold Canonical; decide +kernel, by decide +kernel, by decide +kernel, by decide +kernel, h, by decide +kernel, by decide +kernel⟩

/-- ADD 7 to virtual gauge 2047. -/
def signalEntry : Sched := schedOf 2 (bytesOf [(2, 2047), (1, 0), (1, 0), (4, 7)])

theorem witness_gaugeSignal : ∀ n ∈ [100, 101],
    let s : State := { sDue n signalEntry with gauges := { Gauges.reset with xlat := [(2047, 0xC005)] } }; let x := signalEntry
    Canonical s ∧ Runs s ∧ aget? s.tide.sched (1023 : BitVec 10).toNat = some x ∧ seAction x.bytes = 2 ∧
    cyclesTo s (dueOf x.bytes x.next) ≤ 0 ∧ -1 ≤ cyclesTo s (dueOf x.bytes x.next) ∧
    s.gaugeOf (seCtx x.bytes) (fld (leAt x.bytes 28 2) 0 11) = some 16389 := by
  unfold Canonical Runs; decide +kernel

theorem witness_gaugeSignal_unmapped : ∀ n ∈ [100, 101], let s := sDue n signalEntry; let x := signalEntry
    Canonical s ∧ Runs s ∧ aget? s.tide.sched (1023 : BitVec 10).toNat = some x ∧ seAction x.bytes = 2 ∧
    cyclesTo s (dueOf x.bytes x.next) ≤ 0 ∧ -1 ≤ cyclesTo s (dueOf x.bytes x.next) ∧
    s.gaugeOf (seCtx x.bytes) (fld (leAt x.bytes 28 2) 0 11) = none ∧ s.log.queue.length < 64 := by
  unfold Canonical Runs; decide +kernel

/-- Lanes 0 and 2 of port 7 for 1,000 cycles. -/
def windowEntry : Sched := schedEntry 3 (bytesOf [(1, 0x80), (1, 5), (2, 0), (4, 1000)])

theorem witness_linkWindow : ∀ n ∈ [100, 101], let s : State := { sDue n windowEntry with regs := [(0x101700, 1)] }; let x := windowEntry
    Canonical s ∧ Runs s ∧ aget? s.tide.sched (1023 : BitVec 10).toNat = some x ∧ seAction x.bytes = 3 ∧
    cyclesTo s (dueOf x.bytes x.next) ≤ 0 ∧ -1 ≤ cyclesTo s (dueOf x.bytes x.next) ∧ 7 < s.nports ∧
    bitOf (leAt x.bytes 28 1) 7 = true ∧ windowed s 7 = true ∧ bitOf (leAt x.bytes 29 1) 2 = true := by
  unfold Canonical Runs; decide +kernel

theorem witness_linkWindowClose : let s := sUp 7 { LinkPort.reset with windows := [(2, 0)] }; Canonical s ∧ Runs s := by
  unfold Canonical Runs; decide +kernel

end Sys2Proof.Tests
end

