-- ==== Sys2Proof/Tests/WitnessG.lean ====
section
/-! SUPPORT. Witnesses: for the statements about security, rings, registers, the host, the boot and the board (O27 to O35), states and
operands that meet the hypotheses of each clause. -/

namespace Sys2Proof.Tests

-- One theorem after the other: each evaluation by the kernel waits for all before it, and would hold a thread while it waits.
set_option Elab.async false

open Sys2Proof.Machine Sys2Proof.Safety

/-! ## SecurityCommands -/

def atFields : Fields := [(8, 1, 1), (10, 1, 0), (16, 8, 0), (24, 32, 0), (56, 4, 0)]

/-- An ATTEST to host memory with room for n bytes; the engine as given. -/
def sAttest (scope n : Nat) (x : Security) : State :=
  post { part0 with sec := x, images := [img0] } .priv 0xA0 (bytesOf [(1, 1), (1, 0), (1, scope), (5, 0), (8, 0x10000), (32, 77), (4, n)])

theorem quote_open (s : State) {p : Pkt} (n : Nat) (h : bitOf (p.b 8 1) 0 = true) : Open s (bitOf (p.b 8 1) 0) (p.b 16 8) n := Or.inl h

/-- Every scope, with room to the byte: the one image of context 0 adds 48 bytes. -/
theorem witness_attest : ∀ e ∈ [(0xFE, 33744), (0xFF, 33696), (0, 33744)],
    let s := sAttest e.1 e.2 { Security.reset with key := true }; let p := pkt s .priv; let scope := p.b 10 1
    let quote := quoteBody s scope (leBytes 32 (p.b 24 32)) ++ signature (Config.freeWord s.free)
    let len := 33696 + 48 * (quotedImages s scope).length
    Takes s .priv 0xA0 atFields p ∧ (scope = 0xFE ∨ scope = 0xFF ∨ (scope < 64 ∧ s.ctxLive scope = true)) ∧ s.sec.error = false ∧
    s.sec.killed = false ∧ s.sec.key = true ∧ len ≤ p.b 56 4 ∧ Open s (bitOf (p.b 8 1) 0) (p.b 16 8) quote.length := by
  intro e he
  simp only [List.mem_cons, List.not_mem_nil, or_false] at he
  rcases he with rfl | rfl | rfl <;>
    exact ⟨takes_of (by decide +kernel), by decide +kernel, by decide +kernel, by decide, by decide, by decide +kernel,
      quote_open _ _ (by decide +kernel)⟩

theorem witness_attest_denied : ∀ e ∈ [(true, true), (false, false)],
    let s := sAttest 0xFF 0 { Security.reset with killed := e.1, key := e.2 }; let p := pkt s .priv; let scope := p.b 10 1
    Takes s .priv 0xA0 atFields p ∧ (scope = 0xFE ∨ scope = 0xFF ∨ (scope < 64 ∧ s.ctxLive scope = true)) ∧ s.sec.error = false ∧
    (s.sec.killed = true ∨ s.sec.key = false) := by
  intro e he
  simp only [List.mem_cons, List.not_mem_nil, or_false] at he
  rcases he with rfl | rfl <;> exact ⟨takes_of (by decide +kernel), by decide +kernel⟩

/-- A policy block with these flags and one owner key, written out from Table 16.5. -/
def policy (flags : Nat) : List Byte := bytesOf [(4, 0x4F4B544C), (2, 1), (2, 0), (1, flags), (1, 0), (6, 0), (48, 7), (144, 0)]

theorem witness_ownerPolicySet : let s := post { part0 with images := [img0] } .priv 0xA2 (policy 14); let p := pkt s .priv
    Takes s .priv 0xA2 [(8, 208, 0)] p ∧ bitOf (leAt s.sec.policy 8 1) 3 = false ∧ policyOk p = true ∧
    s.images.all (satisfiesPolicy s { s.sec with policy := p.par }) = true :=
  ⟨takes_of (by decide +kernel), by decide +kernel⟩

theorem witness_ownerPolicySet_locked :
    let s := post { part0 with sec := { Security.reset with policy := policy 8 } } .priv 0xA2 (policy 0); let p := pkt s .priv
    Takes s .priv 0xA2 [(8, 208, 0)] p ∧ bitOf (leAt s.sec.policy 8 1) 3 = true :=
  ⟨takes_of (by decide +kernel), by decide +kernel⟩

/-- Every scope, and the two above 0 while a polder exists. -/
theorem witness_zeroize : ∀ e ∈ [([0], true), ([1], false), ([1], true), ([2, 0xA5], false), ([2, 0xA5], true)],
    let s := post { part0 with polders := if e.2 then part0.polders else [] } .priv 0xA3 e.1; let p := pkt s .priv
    Takes s .priv 0xA3 (if p.b 8 1 == 2 then [(8, 1, 0), (9, 1, 0)] else [(8, 1, 0)]) p ∧ p.b 8 1 ≤ 2 ∧ (p.b 8 1 = 2 → p.b 9 1 = 0xA5) ∧
    [BitVec.ofNat 8 (p.b 8 1)] = e.1.take 1 ∧ (s.polders = [] ↔ e.2 = false) ∧ s.memOn 0 = true := by
  intro e he
  simp only [List.mem_cons, List.not_mem_nil, or_false] at he
  rcases he with rfl | rfl | rfl | rfl | rfl <;> exact ⟨takes_of (by decide +kernel), by decide +kernel⟩

/-! ## FirmwareImages -/

/-- A firmware image of 16,480 bytes in host memory with its digest, written out from Table 16.3: for both parts, version 3, slot 0, a
key of zeros. -/
def putFw (s : State) (a digest : Nat) : State :=
  putHost s a (bytesOf [(4, 0x464B544C), (2, 1), (2, 3), (4, 3), (1, 2), (1, 0), (2, 0), (4, 16480), (4, 0), (48, 0), (32, digest)])

def sFw (flash : Bool) (digest : Nat) : State :=
  post (putFw { part0 with power := { part0.power with board := { Board.none with flash := flash } } } 0x100000 digest) .priv 0xA1
    (bytesOf [(1, 3), (7, 0), (8, 0x100000), (4, 16480)])

def fwUpFields : Fields := [(8, 1, 3), (16, 8, 0), (24, 4, 0)]

/-- What the checks find of the image that a FW_UPDATE names. -/
def fwOf (s : State) (sigOk : Bool) : FwImage :=
  let p := pkt s .priv
  let host := bitOf (p.b 8 1) 0
  fwParse (fun o n => s.anyRead host (p.b 16 8 + o) n) (p.b 24 4) (!s.anyPoison host (p.b 16 8) (p.b 24 4)) sigOk

theorem witness_fwUpdate : let s := sFw true 0; let p := pkt s .priv
    Takes s .priv 0xA1 fwUpFields p ∧ s.sec.error = false ∧ s.power.board.flash = true ∧
    Open s (bitOf (p.b 8 1) 0) (p.b 16 8) (p.b 24 4) ∧ (fwOf s true).formOk = true :=
  ⟨takes_of (by decide +kernel), by decide +kernel, by decide +kernel, open_of (by decide +kernel), by decide +kernel⟩

/-- Its slot's key is not the one fused, unless the fused hash is that of a key of zeros: check 3 fails. -/
theorem witness_fwUpdate_key (h : Config.vendorHash 0 ≠ (fwOf (sFw true 0) true).keyHash) : fwFails (sFw true 0) (fwOf (sFw true 0) true) = 3 := by
  have h1 : (fwOf (sFw true 0) true).formOk = true := by decide +kernel
  have h2 : (fwOf (sFw true 0) true).slot.toNat = 0 := by decide +kernel
  have h3 : bitOf (fwOf (sFw true 0) true).family.toNat (b2n (sFw true 0).part.is1620) = true := by decide +kernel
  simp only [fwFails, h1, h2, h3, Bool.not_true, Bool.false_eq_true, if_false]
  rw [if_pos]
  simp only [Bool.or_eq_true, bne_iff_ne, ne_eq]
  exact Or.inr (fun e => h e.symm)

/-- An image of fewer bytes than a header and a signature fails check 1. -/
theorem witness_fwUpdate_form :
    let s := post { part0 with power := { part0.power with board := { Board.none with flash := true } } } .priv 0xA1
      (bytesOf [(1, 1), (7, 0), (8, 0x100000), (4, 16479)])
    let p := pkt s .priv
    Takes s .priv 0xA1 fwUpFields p ∧ s.sec.error = false ∧ s.power.board.flash = true ∧
    Open s (bitOf (p.b 8 1) 0) (p.b 16 8) (p.b 24 4) ∧ fwFails s (fwOf s true) = 1 := by
  refine ⟨takes_of (by decide +kernel), by decide +kernel, by decide +kernel, open_of (by decide +kernel), ?_⟩
  rw [fwFails, if_pos (by decide +kernel)]

theorem witness_fwUpdate_noFlash : let s := sFw false 0; let p := pkt s .priv
    Takes s .priv 0xA1 fwUpFields p ∧ s.sec.error = false ∧ s.power.board.flash = false :=
  ⟨takes_of (by decide +kernel), by decide +kernel⟩

/-- The ROM waits, and does not. -/
theorem witness_mailboxGo : ∀ w ∈ [true, false],
    let s : State := putFw { part0 with sec := { Security.reset with awaitFw := w, mboxAddr := 0x100000, mboxLen := 16480 } } 0x100000 0
    Canonical s ∧ Runs s ∧ s.sec.awaitFw = w := by
  unfold Canonical Runs; decide +kernel

/-! ## SelfTestsJtagAndReset -/

theorem witness_entropyHealthTestFailure : let s : State := { part0 with sec := { Security.reset with passed := true } }
    Canonical s ∧ Runs s ∧ s.sec.passed = true ∧ s.sec.error = false := by
  unfold Canonical Runs; decide +kernel

theorem witness_jtagAccess : ∀ e ∈ [(false, false), (true, true), (true, false)],
    let s : State := { part0 with part := { Part.reset with debugOpen := e.1 }, sec := { Security.reset with debugLock := e.2 } }
    Canonical s ∧ s.part.debugOpen = e.1 ∧ s.sec.debugLock = e.2 := by
  unfold Canonical; decide +kernel

/-- The upper half of `LINK_ROUTE[255]`. -/
theorem witness_jtagAccess_poke : let s : State := { part0 with part := { Part.reset with debugOpen := true } }; let off : BitVec 26 := 0x100FFC
    Canonical s ∧ s.part.debugOpen = true ∧ s.sec.debugLock = false ∧ off.toNat % 4 = 0 ∧ inSecurity false off.toNat = false ∧
    rwWord s off.toNat = some (0x100FF8, 32, 0xF) ∧ badValue off.toNat (0xFFFFFFFF : W32).toNat = false ∧
    ¬ (0x8000 ≤ off.toNat ∧ off.toNat < 0x8480 ∧ off.toNat % 16 = 12) := by
  unfold Canonical; decide +kernel

/-- With a run under way. -/
theorem witness_fabricReset_running :
    let s := post ({ part0 with images := [img0], runs := [run0] }.modRing 64 (fun x => { x with accepted := [cmd0] })) .priv 0xF0 []
    let p := pkt s .priv
    Takes s .priv 0xF0 [] p :=
  takes_of (by decide +kernel)

/-! ## RingsObservedAndResumed -/

/-- A ring that runs and one that is halted, with as many commands posted as it has entries, or more. -/
theorem witness_tailWriteObserved : ∀ e ∈ [(false, 64), (true, 64), (false, 65), (true, 65)], let h := e.1; let tail := BitVec.ofNat 32 e.2
    let s := part0.modRing 0 (fun x => { x with halted := h }); let x := s.ring (ringNo (.user 0)); let pa := 2 ^ 40 + 0x3000
    Canonical s ∧ Runs s ∧ (aget? s.rings (ringNo (.user 0))).isSome = true ∧ x.enabled = true ∧ hostUp s = true ∧
    x.line.toNat % 64 = 0 ∧ s.place x.line.toNat = some pa ∧ tileAt x.line.toNat = none ∧ x.halted = h ∧
    (x.entries < (tail - x.head).toNat ↔ e.2 = 65) := by
  intro e he
  simp only [List.mem_cons, List.not_mem_nil, or_false] at he
  unfold Canonical Runs
  rcases he with rfl | rfl | rfl | rfl <;> decide +kernel

/-- The privileged ring as its registers give it, its control line at `line`. -/
def sPriv (enabled : Bool) (line : Nat) : State :=
  { part0 with rings := [(64, { RingSt.reset with enabled := enabled })], regs := [(0x10010, BitVec.ofNat 64 line), (0x10018, 0x2000)] }

theorem witness_cpCtlWrite : let s := sPriv false 0x2000; let x := s.ring privRing
    Canonical s ∧ Runs s ∧ s.ready = true ∧ (1 : W32).getLsbD 0 = true ∧ x.enabled = false ∧ x.halted = false ∧ x.tail = x.head ∧
    x.cplTail = x.cplHead ∧ privPlaced s (privFromRegs s) = true ∧ ringReads (s.setRing privRing (privFromRegs s)) privRing = true := by
  unfold Canonical Runs; decide +kernel

theorem witness_cpCtlWrite_misplaced : let s := sPriv false 0x2020; let x := s.ring privRing
    Canonical s ∧ Runs s ∧ s.ready = true ∧ (1 : W32).getLsbD 0 = true ∧ x.enabled = false ∧ privPlaced s (privFromRegs s) = false := by
  unfold Canonical Runs; decide +kernel

theorem witness_cpCtlWrite_off : let s := sPriv true 0x2000; let x := s.ring privRing
    Canonical s ∧ Runs s ∧ s.ready = true ∧ (0xFFFFFFFE : W32).getLsbD 0 = false ∧ x.enabled = true := by
  unfold Canonical Runs; decide +kernel

/-- As many replies unread as the completion ring holds. -/
theorem witness_cpHaltResume : let s := part0.modRing 0 (fun x => { x with halted := true, cplTail := 64 }); let x := s.ring 0
    Canonical s ∧ Runs s ∧ 0 < 64 ∧ (aget? s.rings 0).isSome = true ∧ s.ctxLive 0 = true ∧ x.halted = true ∧ x.enabled = true ∧
    x.tail = x.head ∧ x.unread ≤ x.cplEntries ∧ ringReads s 0 = true := by
  unfold Canonical Runs; decide +kernel

/-! ## RepliesAndVectors -/

/-- The last reply that fits, of a command that asked for its vector and of one that did not; the vector is not masked. -/
theorem witness_replyWrite : ∀ irq ∈ [true, false], let y : Reply := ⟨0x01, 0, false, false, 5, 0, 0, 0, 0, irq⟩
    let s := { part0 with regs := [(0x808C, 0)] }.modRing 0 (fun x => { x with replies := [y], cplTail := 63 }); let r := ringNo (.user 0)
    Canonical s ∧ Runs s ∧ nextReply s r = some y ∧ y.ctx = 0 ∧ (s.ring r).tail = (s.ring r).head ∧ y.raises = irq ∧ (s.ring r).coalesce = 0 ∧
    (s.reg (0x8000 + 16 * ringVector r + 12)).getLsbD 0 = false ∧ s.devFault = false := by
  unfold Canonical Runs; decide +kernel

theorem witness_replyWrite_unheld : Unheld part0 0 := unheld_of (by decide +kernel) 0

/-- The OK reply of an IMAGE_STAGE whose image waits for it; a reply behind it waits. -/
theorem witness_replyWrite_image : let y : Reply := ⟨0x30, 0, false, false, 5, 0, 3, 0, 0, false⟩
    let s := { part0 with images := [{ img0 with awaits := some (0, 5) }] }.modRing 0 (fun x => { x with replies := [y, { y with opcode := 1 }] })
    let r := ringNo (.user 0)
    Canonical s ∧ Runs s ∧ nextReply s r = some y ∧ y.ctx = 0 ∧ (s.ring r).tail = (s.ring r).head ∧ y.opcode = 0x30 ∧ y.status = stOk ∧
    readyImage r y s.images = [img0] := by
  unfold Canonical Runs; decide +kernel

theorem witness_msixCoalesceExpiry : ∀ w ∈ [true, false],
    let s := { part0 with regs := [(0x808C, 0)], clk := 7 }.modRing 0 (fun x => { x with vecDue := some 7, vecWant := w }); let r := ringNo (.user 0)
    Canonical s ∧ Runs s ∧ (s.ring r).vecDue = some 7 ∧ 7 ≤ s.clk ∧ (s.ring r).vecWant = w ∧
    (s.reg (0x8000 + 16 * ringVector r + 12)).getLsbD 0 = false := by
  unfold Canonical Runs; decide +kernel

/-! ## RegistersThatAct -/

/-- No bundle lands; one does. -/
theorem witness_cpLandWrite : ∀ b ∈ [none, some (⟨3, [], 0⟩ : RxBundle)], let s := sUp 7 { LinkPort.reset with rxBundle := b }
    Canonical s ∧ Runs s ∧ hostUp s = true ∧ landing s = b.isSome := by
  unfold Canonical Runs; decide +kernel

/-- The last hub pump, with shares of 4, 6 and 6, and of 4, 6 and 7. -/
theorem witness_pumpCtlWrite : ∀ e ∈ [((0xCC8 : W32), true), (0xEC8, false)], let s := part0
    Canonical s ∧ Runs s ∧ s.pumpPresent (39 : BitVec 6).toNat = true ∧
    ((fld e.1.toNat 1 4 + fld e.1.toNat 5 4 + fld e.1.toNat 9 4 = 16) ↔ e.2 = true) := by
  intro e he
  simp only [List.mem_cons, List.not_mem_nil, or_false] at he
  unfold Canonical Runs
  rcases he with rfl | rfl <;> decide +kernel

/-- Segment 63 behind stack 0, which then gives two of its eight segments. -/
theorem witness_segmentWrite : let s : State := { part0 with polders := [] }; let w := fld (2 : W32).toNat 0 5
    Canonical s ∧ Runs s ∧ s.polders = [] ∧ fld w 0 2 ≠ 3 ∧ (fld w 0 2 = 2 → s.memOn (8 * 0 + fld w 2 3) = true) ∧
    segsFit { s with ms := { s.ms with segs := awrite 0 s.ms.segs (64 * 0 + (63 : BitVec 6).toNat) (BitVec.ofNat 5 w) } } 0 = true := by
  unfold Canonical Runs; decide +kernel

/-- A polder stands; mode 3; a stack that is not populated; and a ninth segment of a stack that holds eight. -/
theorem witness_segmentWrite_refused :
    ∀ e ∈ [(part0, (2 : W32)), ({ part0 with polders := [] }, 3), ({ part0 with polders := [] }, 6),
      ({ part0 with polders := [], ms := { part0.ms with segs := (List.range 8).map (fun i => (i, 2)) } }, 2)],
    let s : State := e.1; let w := fld e.2.toNat 0 5
    Canonical s ∧ Runs s ∧ (s.polders ≠ [] ∨ fld w 0 2 = 3 ∨ (fld w 0 2 = 2 ∧ s.memOn (8 * 0 + fld w 2 3) = false) ∨
      segsFit { s with ms := { s.ms with segs := awrite 0 s.ms.segs (64 * 0 + (63 : BitVec 6).toNat) (BitVec.ofNat 5 w) } } 0 = false) := by
  unfold Canonical Runs; decide +kernel

/-- The hub's block, and a die that an LTK-1620 lacks. -/
theorem witness_gaugeSelWrite : ∀ e ∈ [(4, true), (3, false)], let s : State := { part0 with part := { Part.reset with is1620 := true } }
    let b := fld (BitVec.ofNat 32 (4096 * e.1 + 5)).toNat 0 15 / 4096
    Canonical s ∧ Runs s ∧ (present s b && decide (b < 5)) = e.2 := by
  unfold Canonical Runs; decide +kernel

/-- Virtual gauge 2047 of context 0 is bound; and is not. -/
theorem witness_ctxGaugeRead : ∀ e ∈ [([(2047, (0xC005 : BitVec 16))], some 16389), ([], none)],
    let s : State := { part0 with gauges := { Gauges.reset with xlat := e.1 } }
    Canonical s ∧ Runs s ∧ (aget? s.ctxs (0 : BitVec 6).toNat).isSome = true ∧
    s.gaugeOf (0 : BitVec 6).toNat (2047 : BitVec 11).toNat = e.2 := by
  unfold Canonical Runs; decide +kernel

/-- An FE part with the last physical tile in this state. -/
def sWindow (q : SeqState) : State :=
  { part0 with part := { Part.reset with debugOpen := true }, tiles := [(1087, { Tile.reset with seq := { Seq.reset with st := q } })] }

theorem witness_halt : ∀ q ∈ [SeqState.running, .halted], let s := sWindow q
    Canonical s ∧ Runs s ∧ windowOpen s (1087 : BitVec 11).toNat = true ∧ (s.tile (1087 : BitVec 11).toNat).seq.st = q ∧
    (4 : W32).getLsbD 2 = true ∧ fld (4 : W32).toNat 3 10 = (s.tile (1087 : BitVec 11).toNat).seq.idx.toNat := by
  unfold Canonical Runs; decide +kernel

/-- `LINK_ROUTE[255]`, whose upper word has four bits; and the warden's limit at both ends of its range and beyond them. -/
theorem witness_registerWrite :
    ∀ e ∈ [((0x100FFC : BitVec 26), (0xFF : W64), (0x100FF8, 32, 0xF), false), (0x200010, 16, (0x200010, 0, 0x1F), false),
      (0x200010, 30, (0x200010, 0, 0x1F), false), (0x200010, 15, (0x200010, 0, 0x1F), true), (0x200010, 31, (0x200010, 0, 0x1F), true)],
    let s := part0
    Canonical s ∧ Runs s ∧ hostUp s = true ∧ e.1.toNat % 4 = 0 ∧ rwWord s e.1.toNat = some e.2.2.1 ∧
    ¬ (0x8000 ≤ e.1.toNat ∧ e.1.toNat < 0x8480 ∧ e.1.toNat % 16 = 12) ∧ badValue e.1.toNat (fld e.2.1.toNat 0 32) = e.2.2.2 := by
  unfold Canonical Runs; decide +kernel

theorem witness_registerWrite_tileBase : let s := part0; let off : BitVec 26 := 0x10
    Canonical s ∧ Runs s ∧ hostUp s = true ∧ off.toNat % 4 = 0 ∧ off.toNat % 0x10000 = 0x10 ∧
    aget? s.ctxs (off.toNat / 0x10000) = some ⟨0, 0, 0⟩ := by
  unfold Canonical Runs; decide +kernel

/-! ## HostMemoryAndLink -/

/-- The largest range of HBM memory; and one that is a byte too long. -/
theorem witness_hdmDecoderCommit : ∀ e ∈ [(64 * 48 * 2 ^ 28, true), ((64 * 48 + 1) * 2 ^ 28, false), (0, false)],
    let s := part0; let g := 2 ^ 28; let base : W64 := 0x10000000; let size := BitVec.ofNat 64 e.1
    Canonical s ∧ Runs s ∧ ((base.toNat % g = 0 ∧ size.toNat % g = 0 ∧ hdmTarget s (7 : BitVec 3).toNat % g = 0 ∧ size ≠ 0 ∧
      insideOneRange (hdmTarget s (7 : BitVec 3).toNat) size.toNat = true) ↔ e.2 = true) := by
  unfold Canonical Runs; decide +kernel

/-- Decoder 7 shows the device from this target on, at host address 1 TiB. -/
def sHdm (target : Nat) : State := { part0 with
  regs := [(0x100B8, BitVec.ofNat 64 target)]
  host := { part0.host with hdm := List.replicate 7 HdmDec.reset ++ [⟨0x10000000000, 0x10000000, true, false⟩] } }

/-- The last line behind the decoder. -/
theorem witness_hostMemoryAccess : let s := sHdm 0; let addr : W64 := 0x1000FFFFFFF; let a := 0xFFFFFC0
    Canonical s ∧ Runs s ∧ hostUp s = true ∧ hdmAddr s (addr.toNat / 64 * 64) = some a ∧ a % 64 = 0 ∧ s.place a = some (2 ^ 40 + a) ∧
    closedTile s a 64 = none ∧ (1 : BitVec 64) ≠ 0 ∧ ringsAt s a = [] ∧ (2 ^ 40 + a) % 64 = 0 := by
  unfold Canonical Runs; decide +kernel

/-- The control line of ring 0, which is halted. -/
theorem witness_hostMemoryAccess_line : let s := (sHdm 0).modRing 0 (fun x => { x with halted := true }); let addr : W64 := 0x10000003000
    let a := 0x3000
    Canonical s ∧ Runs s ∧ hostUp s = true ∧ hdmAddr s (addr.toNat / 64 * 64) = some a ∧ a % 64 = 0 ∧ s.place a = some (2 ^ 40 + a) ∧
    closedTile s a 64 = none ∧ ringsAt s a = [0] ∧ (aget? s.rings 0).isSome = true ∧ (s.ring 0).enabled = true ∧
    (s.ring 0).halted = true ∧ (s.ring 0).line.toNat % 64 = 0 := by
  unfold Canonical Runs; decide +kernel

/-- The first line of segment 1, which no unit backs. -/
theorem witness_hostMemoryAccess_unpopulated : let s := sHdm (48 * 2 ^ 28); let addr : W64 := 0x10000000000; let a := 48 * 2 ^ 28
    Canonical s ∧ Runs s ∧ hostUp s = true ∧ hdmAddr s (addr.toNat / 64 * 64) = some a ∧ a % 64 = 0 ∧ s.place a = none := by
  unfold Canonical Runs; decide +kernel

/-- No decoder; the link down; the part under reset. -/
theorem witness_hostMemoryAccess_none :
    ∀ s ∈ [part0, { sHdm 0 with host := { (sHdm 0).host with link := .down } }, { sHdm 0 with power := Power.reset }], let addr : W64 := 0x10000000000
    Canonical s ∧ (hostUp s = false ∨ s.stopped = true ∨ hdmAddr s (addr.toNat / 64 * 64) = none) := by
  unfold Canonical; decide +kernel

theorem witness_hostLink : let s := part0; Canonical s ∧ Runs s ∧ s.host.link = .up ∧ hostUp s = true ∧ s.log.queue.length < 64 := by
  unfold Canonical Runs; decide +kernel

/-! ## ResetAndBoot -/

theorem witness_perstNAssert : let s := part0; Canonical s ∧ s.power.perst = false := by unfold Canonical; decide +kernel

def withPg (s : State) (pg : Nat) (order : List Nat) : State := { s with power := { s.power with pg := pg, order := order } }

/-- `PG_IO` missing; `PG_HUB` missing; `PG_HUB` risen before `PG_VPP`. -/
theorem witness_perstNRelease_missing :
    ∀ s ∈ [withPg State.reset 0x7FE [1, 2, 3, 4, 5, 6, 7, 8, 9, 10], withPg State.reset 0x7FB [0, 1, 3, 4, 5, 6, 7, 8, 9, 10],
      withPg State.reset 0x7FF [0, 2, 1, 3, 4, 5, 6, 7, 8, 9, 10]],
    Canonical s ∧ s.power.perst = true ∧ (pgBad s 0 = true ∨ pgBad s 2 = true) := by
  unfold Canonical; decide +kernel

theorem witness_perstNRelease : let s := State.reset
    Canonical s ∧ s.power.perst = true ∧ s.power.trip = false ∧ (∀ i, i < 11 → pgBad s i = false) := by
  unfold Canonical; decide +kernel

theorem witness_boards : ∀ e ∈ [((1 : BitVec 4), true), (5, true), (0, false)], let b := { Board.none with selfTest := e.1 }
    ((1 ≤ b.selfTest.toNat ∧ b.selfTest.toNat ≤ 5) ↔ e.2 = true) ∧ (b.selfTest.toNat = 0 ↔ e.2 = false) ∧ b.flash = false := by
  decide +kernel

/-- Firmware for the LTK-1640 under the key of slot 0. -/
def fw0 : FwImage := ⟨true, 1, 3, 0, 0, Config.vendorHash 0, true, true, 0⟩

/-- It stands in the preferred bank, and passes every check. -/
theorem witness_perstNRelease_boots :
    let s : State := { State.reset with sec := { Security.reset with bank := [(1, fw0)], preferred := 1 } }
    let b := { Board.none with flash := true }
    Canonical s ∧ s.power.perst = true ∧ s.power.trip = false ∧ (∀ i, i < 11 → pgBad s i = false) ∧ b.selfTest.toNat = 0 ∧
    b.flash = true ∧ aget? s.sec.bank (s.sec.preferred % 2) = some fw0 ∧ fwFails s fw0 = 0 ∧ s.sec.running = false :=
  ⟨by unfold Canonical; decide +kernel, by decide, by decide, by decide +kernel, by decide, by decide, rfl,
    by simp [fwFails, fw0, vendorSlotOk, State.reset, Part.reset, Security.reset, bitOf, b2n], by decide +kernel⟩

theorem witness_ready :
    let s : State := { part0 with ready := false, sec := { Security.reset with running := true, passed := true } }
    Canonical s ∧ Runs s ∧ s.sec.running = true ∧ s.ready = false ∧ s.devFault = false := by
  unfold Canonical Runs; decide +kernel

/-! ## PowerPinsHeatTelemetry -/

theorem witness_powerGoodRise : let s := withPg State.reset 0x3FF [0, 1, 2, 3, 4, 5, 6, 7, 8, 9]
    Canonical s ∧ (10 : BitVec 4).toNat ≤ 10 ∧ bitOf s.power.pg (10 : BitVec 4).toNat = false := by
  unfold Canonical; decide +kernel

/-- The monitor's, the hub's, an input that an LTK-1620 ignores, one of a part under reset, and one in service. -/
theorem witness_powerGoodLoss :
    ∀ e ∈ [((0 : BitVec 4), part0), (2, part0), (6, { part0 with part := { Part.reset with is1620 := true } }), (10, State.reset), (10, part0)],
    let s : State := e.2
    Canonical s ∧ e.1.toNat ≤ 10 ∧ bitOf s.power.pg e.1.toNat = true ∧
    (e.1.toNat = 6 → pgIgnored s e.1.toNat = true) ∧ (e.1.toNat = 10 → pgIgnored s e.1.toNat = false) := by
  unfold Canonical; decide +kernel

theorem witness_powerGoodLoss_states : State.reset.stopped = true ∧ part0.stopped = false := by decide +kernel

/-- Before firmware runs, and with it. -/
theorem witness_thermtrip : ∀ r ∈ [false, true], let s : State := { part0 with sec := { Security.reset with running := r } }
    Canonical s ∧ bitOf s.power.pg 0 = true ∧ s.power.trip = false ∧ s.stopped = false ∧ s.sec.running = r := by
  unfold Canonical; decide +kernel

/-- The ratio leaves 0, and comes back to it. -/
theorem witness_thermalSample : ∀ e ∈ [(0, 1700, 1), (1, 800, 0)],
    let s : State := { part0 with power := { part0.power with skip := e.1 } }
    let s1 : State := { s with power := { s.power with temps := (List.range 13).filterMap (fun i =>
      if sensorOn s i then ((List.replicate 13 (BitVec.ofNat 16 e.2.1))[i]?).map (fun t => (i, t)) else none) } }
    Canonical s ∧ Runs s ∧ s.log.queue.length < 64 ∧ s.power.skip = e.1 ∧ nextSkip s1 = e.2.2 := by
  unfold Canonical Runs; decide +kernel

/-- The last die; the last rail; bus A as soon as it answers, and a cycle before that. -/
theorem witness_droop_telemetry_rail : ∀ e ∈ [(32000, true), (31999, false)], let s : State := { part0 with tide := { Tide.reset with now := e.1 } }
    Canonical s ∧ Runs s ∧ (3 : BitVec 3).toNat < s.dies ∧ busAnswers s = e.2 ∧ (13 : BitVec 4).toNat < 14 := by
  unfold Canonical Runs; decide +kernel

end Sys2Proof.Tests
end

