-- ==== Sys2Proof/Tests/WitnessH.lean ====
section
/-! SUPPORT. Witnesses: for the statements about scrubbers, transactions and pump queues (O36 to O38), states and operands that
meet the hypotheses of each clause. -/

namespace Sys2Proof.Tests

-- One theorem after the other: each evaluation by the kernel waits for all before it, and would hold a thread while it waits.
set_option Elab.async false

open Sys2Proof.Machine Sys2Proof.Safety

/-! ## Scrubbing -/

/-- A transaction of 64 bytes of transfer 7 of queue 255, of the last hub pump, of no polder, at its target. -/
def txn9 (op space table addr : Nat) (dst : Option Dest) : Txn :=
  { id := 1, op := op, at_ := ⟨space, table, 7, addr, none⟩, bytes := 64, data := List.replicate 64 5, bad := 0, cls := 0, status := 0,
    dst := dst, queue := 255, xfer := 7, req := 39, polder := none, page := none, home := .hub, from_ := .hub
    goal := if space = 0 then .stack 0 1 else .hub, sent := true, arrived := true }

/-- A part with stack 0 and LP5X port 7 at this clock, each scrubber at this word of its pass. -/
def sScrub (pos clk : Nat) : State := { part0 with
  ms := { part0.ms with units := [(0, ⟨96, true, 0, 0, none, false⟩), (15, ⟨16, true, 0, 0, none, false⟩)] }
  clk := clk
  health := { Health.reset with scrubPos := [(1087, pos), (2048, pos), (2063, pos)] } }

/-- The last word of each pass, at the first cycle that it is due. -/
theorem witness_scrub : ∀ e ∈ [(ScrubStore.tile 1087, 2 ^ 18), (.hbm 0, 96 * 2 ^ 24), (.lp5x 7, 16 * 2 ^ 24)],
    let s := sScrub (e.2 - 1) (24 * hourCycles - 24 * hourCycles / e.2); let x := e.1
    let pos := (scrubPass s x).1; let start := (scrubPass s x).2.1; let period := (scrubPass s x).2.2
    Canonical s ∧ Runs s ∧ scrubWords s x ≠ 0 ∧ scrubReg s x ≠ 0 ∧ scrubWords s x = pos + 1 ∧
    pos * period ≤ (s.clk - start) * scrubWords s x ∧ scrubGranted s x pos = true := by
  unfold Canonical Runs; decide +kernel

/-- A read of class 2 at the same pseudo-channel is granted first. -/
theorem witness_scrub_waits : let s := { sScrub (96 * 2 ^ 24 - 1) (24 * hourCycles - 1) with
      ms := { (sScrub 0 0).ms with segs := [(0, 2)], txns := [{ txn9 0 0 0 0x1F00 none with cls := 2 }] } }
    let x := ScrubStore.hbm 0
    let pos := (scrubPass s x).1; let start := (scrubPass s x).2.1; let period := (scrubPass s x).2.2
    Canonical s ∧ Runs s ∧ scrubWords s x ≠ 0 ∧ scrubReg s x ≠ 0 ∧ pos < scrubWords s x ∧
    pos * period ≤ (s.clk - start) * scrubWords s x ∧ scrubGranted s x pos = false := by
  unfold Canonical Runs; decide +kernel

/-- One symbol of a memory word; two symbols; one bit of a tile's word. -/
theorem witness_scrub_flips : symbolsHit (0xFF : BitVec 512) 0 = 1 ∧ symbolsHit (0x101 : BitVec 512) 0 = 2 ∧
    (let s := sScrub (2 ^ 18 - 1) 0; let g := (1087 : BitVec 11).toNat * 2 ^ 18 + (2 ^ 18 - 1)
     readFlipped (wordAt s g) 1 0 = (.corrected, wordAt s g) ∧ markRead (s.mem.marked g) 1 = s.mem.marked g) := by
  decide +kernel

/-- A pass that is over when its period is; and one that has a word left. -/
theorem witness_scrub_ends : ∀ pos ∈ [2 ^ 18, 2 ^ 18 - 1], let s := sScrub pos (24 * hourCycles); let x := ScrubStore.tile 1087
    let start := (scrubPass s x).2.1; let period := (scrubPass s x).2.2
    Canonical s ∧ Runs s ∧ scrubWords s x ≠ 0 ∧ scrubReg s x ≠ 0 ∧ (scrubPass s x).1 = pos ∧ scrubWords s x = 2 ^ 18 ∧
    start + period ≤ s.clk ∧ scrubGranted s x 0 = true := by
  unfold Canonical Runs; decide +kernel

theorem witness_correctedWriteBack : let s : State := { part0 with tiles := [(1087, { Tile.reset with wbPending := [262143, 0] })] }
    Canonical s ∧ Runs s ∧ (s.tile (1087 : BitVec 11).toNat).wbPending = 262143 :: [0] := by
  unfold Canonical Runs; decide +kernel

/-! ## TransactionsAtTargets -/

/-- The last queue, of a context in no polder, on the last hub pump. -/
def queue9 : PumpQueue := { queue0 with ctx := 9, pump := 39, postWait := .met }

/-- Only these transactions; the way to device 7 lies over port 2; table 1 is the context's; LP5X port 7 stands behind segment 0 of its
range. -/
def sTxn (l : List Txn) : State := { part0 with
  ms := { part0.ms with
    queues := [(255, queue9)], txns := l, nextId := 10, tables := [(1, { table0 with ctx := 9 })]
    units := [(0, ⟨96, true, 0, 0, none, false⟩), (15, ⟨16, true, 0, 0, none, false⟩)], segs := [(0, 2), (64, 30)] }
  links := { Links.reset with ports := [(2, { LinkPort.reset with state := 3 })] }
  regs := [(0x100000, 5), (0x100008, 10)] }

/-- What every clause asks of the transaction in place k. -/
def TxnMet (s : State) (k : Nat) (x : Txn) : Prop := Canonical s ∧ Runs s ∧ s.ms.txns[k]? = some x ∧ s.ms.frees = []

/-- `Granted`, as a computation. -/
def grantedTxn (s : State) (x : Txn) : Bool :=
  x.arrived && writeOrdered s x && x.polder.isNone &&
  (memArbiter s x).all (fun a => (memHeads s a).any (fun z => z.id == x.id) && memGrant s a [] == some (memIndex x, x.cls))

theorem grantedTxn_of {s : State} {x : Txn} (h : grantedTxn s x = true) : Granted s x := by
  simp only [grantedTxn, Bool.and_eq_true, Option.isNone_iff_eq_none] at h
  obtain ⟨⟨⟨h1, h2⟩, h3⟩, h4⟩ := h
  refine ⟨h1, h2, h3, fun a ha => ?_⟩
  rw [ha] at h4
  simpa using h4

/-- The last line of segment 0. -/
theorem witness_read_device : let x := txn9 0 0 0 (48 * 2 ^ 28 - 64) none; let s := sTxn [x]; let loc := x.at_.addr
    TxnMet s 0 x ∧ grantedTxn s x = true ∧ x.op = 0 ∧ x.at_.space = 0 ∧ s.populated loc x.bytes = true ∧ closedTile s loc x.bytes = none := by
  unfold TxnMet Canonical Runs; decide +kernel

/-- Host memory; and a page whose entry was not valid when it was translated. -/
theorem witness_read_host : ∀ space ∈ [1, 3], let x := txn9 0 space 1 0x4000 none; let s := sTxn [x]
    TxnMet s 0 x ∧ grantedTxn s x = true ∧ x.op = 0 ∧ x.at_.space = space := by
  unfold TxnMet Canonical Runs; decide +kernel

/-- Bytes without poison, and with it. -/
theorem witness_fetch : ∀ marks ∈ [[], [(hostBase + 0x4000) / 64]], let d : Dest := ⟨0, 0, 0, 0x8000, none⟩
    let x := txn9 1 1 0 0x4000 (some d); let s : State := { sTxn [x] with mem := { part0.mem with poison := marks } }
    TxnMet s 0 x ∧ grantedTxn s x = true ∧ x.op = 1 ∧ x.at_.space = 1 ∧ x.dst = some d ∧ s.queue? x.queue = some queue9 ∧
    (badPieces s true x.at_.addr x.bytes = 0 ↔ marks = []) := by
  unfold TxnMet Canonical Runs; decide +kernel

/-- Behind a write of another place. -/
theorem witness_write_device : let x := txn9 2 0 0 0x8000 none; let s := sTxn [{ txn9 2 0 0 0x8040 none with id := 0, goal := .stack 0 2 }, x]
    let loc := x.at_.addr; let n := x.bytes
    TxnMet s 1 x ∧ grantedTxn s x = true ∧ x.op = 2 ∧ x.queue < 256 ∧ x.at_.space = 0 ∧ x.at_.mcast = none ∧
    rangePopulated s loc n = true ∧ rangeOpen s loc n = true ∧ s.populated loc n = true ∧ closedTile s loc n = none ∧
    (∀ e ∈ pieces loc n, inputHit s e.1 e.2 = false) ∧ x.data.length = n ∧ pieces loc n = [(loc, n)] ∧
    s.place loc = some (2 ^ 40 + 0x8000) ∧ s.tileOpen loc n = true := by
  unfold TxnMet Canonical Runs; decide +kernel

theorem witness_write_host : let x := txn9 2 1 0 0x8000 none; let s := sTxn [x]
    TxnMet s 0 x ∧ grantedTxn s x = true ∧ x.op = 2 ∧ x.queue < 256 ∧ x.at_.space = 1 ∧ x.data.length = x.bytes ∧ x.bad = 0 := by
  unfold TxnMet Canonical Runs; decide +kernel

theorem witness_write_remote : let x := txn9 2 2 0 0x8000 none; let s := sTxn [x]
    (TxnMet s 0 x ∧ grantedTxn s x = true ∧ x.op = 2 ∧ x.queue < 256 ∧ x.at_.space = 2) ∧ linkRoute s x.at_.dev none = .send 2 :=
  ⟨by unfold TxnMet Canonical Runs; decide +kernel, rfl⟩

/-- A read of class 1 beside one of class 0, at the same pseudo-channel. -/
theorem witness_read_waits : let x := { txn9 0 0 0 0x8000 none with cls := 1 }
    let s := sTxn [{ txn9 0 0 0 0x8000 none with id := 2, goal := .stack 0 2 }, x]
    ∃ a, TxnMet s 1 x ∧ x.op = 0 ∧ x.arrived = true ∧ writeOrdered s x = true ∧ x.polder = none ∧ memArbiter s x = some a ∧
      memGrant s a [] ≠ some (memIndex x, x.cls) :=
  ⟨0, by unfold TxnMet Canonical Runs; decide +kernel⟩

/-- An earlier write to the last byte of the same granule. -/
theorem witness_write_ordered : let x := txn9 2 0 0 0x8000 none; let s := sTxn [{ txn9 2 0 0 0x803F none with id := 0 }, x]
    TxnMet s 1 x ∧ x.op = 2 ∧ writeOrdered s x = false := by
  unfold TxnMet Canonical Runs; decide +kernel

/-- Traffic of polder 0, whose weir of the host port holds another transaction that reads. -/
theorem witness_read_held : let x := { txn9 0 1 0 0x8000 none with polder := some 0 }
    let s := (sTxn [x]).setWeir 0 2 { part0.weir 0 2 with rate := 1, tokens := [(0, -1)], held := [(0, 9)] }
    TxnMet s 0 x ∧ x.op = 0 ∧ x.at_.space = 1 ∧ x.arrived = true ∧ (txnWeir s x).2 = false := by
  unfold TxnMet Canonical Runs; decide +kernel

/-- A write of page space to be issued: its entry is valid, of a page of LP5X, and busy or not. -/
theorem witness_write_page : ∀ b ∈ [0, 4],
    let x := { txn9 2 3 1 (2 * 65536) none with sent := false, arrived := false }; let v := mkEntry 1 (lpMapBase / 65536 + 5) 7 + b
    let s := putEntry (sTxn [x]) 2 v; let pt := { table0 with ctx := 9 }
    TxnMet s 0 x ∧ (1104 : BitVec 11).toNat = 1104 + 0 ∧ x.op = 2 ∧ x.at_.space = 3 ∧ x.sent = false ∧ x.arrived = false ∧
    requestOf s x = none ∧ s.table? x.at_.table = some pt ∧ entryOf s pt (x.at_.addr / 65536) = v ∧ peValid v = true ∧
    (peBusy v = true ↔ b = 4) ∧ (takeReserve s x (x.at_.addr / 65536)).isNone = true ∧ x.from_ = .hub ∧
    spotOf s (devDest (peAddr v + x.at_.addr % 65536)) Spot.hub.col = .hub ∧ (∀ z ∈ s.ms.txns, z.id < s.ms.nextId) := by
  unfold TxnMet Canonical Runs; decide +kernel

/-- The table is not defined. -/
theorem witness_write_gone : let x := { txn9 2 3 2 0 none with sent := false, arrived := false }
    let y : Transfer := { xfer0 with id := 7, outstanding := 2 }
    let s : State := { sTxn [x] with ms := { (sTxn [x]).ms with queues := [(255, { queue9 with transfers := [y] })] } }
    TxnMet s 0 x ∧ x.op = 2 ∧ x.at_.space = 3 ∧ x.sent = false ∧ x.arrived = false ∧ requestOf s x = none ∧
    s.table? x.at_.table = none ∧ s.transfer? x.queue x.xfer = some y ∧ 1 < y.outstanding := by
  unfold TxnMet Canonical Runs; decide +kernel

theorem witness_data : let d : Dest := ⟨0, 0, 0, 0x8000, none⟩; let x := txn9 4 0 0 0 (some d); let s := sTxn [x]
    TxnMet s 0 x ∧ x.op = 4 ∧ x.arrived = true ∧ x.dst = some d := by
  unfold TxnMet Canonical Runs; decide +kernel

/-- Two writes outstanding; the last one; and the last one, with a write that follows it. -/
theorem witness_ack : ∀ e ∈ [(2, []), (1, []), (1, [(0x9000, List.replicate 64 (1 : Byte))])],
    let y : Transfer := { xfer0 with id := 7, outstanding := e.1, after := e.2 }
    let x := txn9 3 0 0 0 none
    let s : State := { sTxn [x] with ms := { (sTxn [x]).ms with queues := [(255, { queue9 with transfers := [y] })] } }
    TxnMet s 0 x ∧ x.op = 3 ∧ x.arrived = true ∧ x.queue < 256 ∧ s.transfer? x.queue x.xfer = some y ∧ (1 < y.outstanding ↔ e.1 = 2) := by
  unfold TxnMet Canonical Runs; decide +kernel

/-- A copy of the page engine with two chunks to come. -/
theorem witness_ack_copy : let x := { txn9 3 0 0 0 none with queue := copyQueue, xfer := 4 }; let s := withCopies (sTxn [x]) [copy0]
    TxnMet s 0 x ∧ x.op = 3 ∧ x.arrived = true ∧ x.queue = copyQueue ∧ s.ms.copies.find? (fun c => c.id == x.xfer) = some copy0 ∧
    1 < copy0.left := by
  unfold TxnMet Canonical Runs; decide +kernel

/-! ## PumpQueuesRun -/

/-- Queue 255 of context 0, on the last hub pump, served. -/
def queueP : PumpQueue := { queue0 with pump := 39, postWait := .met }

/-- Nothing posted; one entry, that asks for no wait and that asks for one. -/
theorem witness_queueEntryTake : ∀ e ∈ [((6 : W32), 0, 0), (5, 0, 1), (5, 0x8005, 1)], let x := { queueP with consumed := e.1 }
    let s := putDev (withQueues partG [(255, x)]) (0x20000 + 92) (leBytes 2 e.2.1)
    Canonical s ∧ Runs s ∧ s.queue? (255 : Byte).toNat = some x ∧ x.halted = false ∧ x.head = none ∧ x.postWait = .met ∧
    s.unitOn 4 x.pump = true ∧ nextQueue s x.pump (aget? s.ms.lastQueue (64 + x.pump)) canTake = some (255 : Byte).toNat ∧
    postedAhead s x = e.2.2 ∧
    (e.2.2 = 1 → (pdWaits (readEntry s x (x.consumed.toNat % 2 ^ x.size)).desc = true ↔ e.2.1 ≠ 0)) := by
  unfold Canonical Runs; decide +kernel

/-- A descriptor of one run of n bytes from host memory to a device address, or that fills there (Table 11.4). -/
def moveDesc (op n dst : Nat) : List Byte :=
  bytesOf [(1, op), (1, 4), (1, if op = 1 then 1 else 0), (1, 0), (4, 0), (8, if op = 1 then 0x4000 else 0), (8, dst), (4, n),
    (2, 1), (2, 1), (2, 1), (6, 0), (24, 0), (24, 0), (4, 0x11223344), (36, 0)]

def sStart (d : List Byte) : State := withQueues partG [(255, { queueP with head := some ⟨d, 3, false⟩, headWait := .met })]

/-- What every clause asks of the queue. -/
def StartMet (s : State) (x : PumpQueue) (e : Taken) : Prop :=
  Canonical s ∧ Runs s ∧ s.queue? (255 : Byte).toNat = some x ∧ x.head = some e ∧ x.halted = false ∧ x.headWait = .met ∧ x.held = false ∧
  pumpBusy s x.pump < 16 ∧ s.unitOn 4 x.pump = true ∧
  nextQueue s x.pump (aget? s.ms.lastQueue x.pump) canStart = some (255 : Byte).toNat

/-- A copy of two chunks, and a fill. -/
theorem witness_descriptorStart : ∀ e ∈ [(1, 8192, 0x8000), (2, 64, 48 * 2 ^ 28 - 64)], let d := moveDesc e.1 e.2.1 e.2.2; let s := sStart d
    let x := { queueP with head := some ⟨d, 3, false⟩, headWait := .met }
    StartMet s x ⟨d, 3, false⟩ ∧ descCode s x ⟨d, 3, false⟩ = 0 ∧ pdNomerge d = true ∧ (pdOp d = 1 ∨ pdOp d = 2) ∧ pdDstSpace d ≠ 3 := by
  unfold StartMet Canonical Runs; decide +kernel

/-- An opcode that does not exist; and a store beyond segment 0. -/
theorem witness_descriptorStart_refused : ∀ e ∈ [(4, 64, 0x8000, 1), (1, 64, 48 * 2 ^ 28, 3)], let d := moveDesc e.1 e.2.1 e.2.2.1; let s := sStart d
    let x := { queueP with head := some ⟨d, 3, false⟩, headWait := .met }
    StartMet s x ⟨d, 3, false⟩ ∧ descCode s x ⟨d, 3, false⟩ = e.2.2.2 ∧ s.log.queue.length < 64 := by
  unfold StartMet Canonical Runs; decide +kernel

theorem witness_transferComplete : ∀ sigs ∈ [[], [(5, 0xFFFFFFFF)]], let y : Transfer := { xfer0 with sigs := sigs, complete := true }
    let x := { queueP with transfers := [y, xfer0] }; let s := withQueues partG [(255, x)]
    Canonical s ∧ Runs s ∧ s.queue? (255 : Byte).toNat = some x ∧ x.transfers = y :: [xfer0] ∧ y.complete = true ∧ y.reserved = [] ∧
    y.sigs = sigs ∧ 5 < 2048 ∧ x.ctx < 64 := by
  unfold Canonical Runs; decide +kernel

/-- A gather in progress on queue 255, of table 1, whose entry 2 maps a page. -/
def sGather (d : List Byte) : State :=
  withQueues (sPaged 1 []) [(255, { queueP with transfers := [{ xfer0 with desc := d }] })]

/-- SUMMARY_GATHER of the entries 2 and 3 (Table 11.8). -/
def sgDesc : List Byte := bytesOf [(1, 0x10), (1, 0), (2, 0), (2, 1), (2, 0), (4, 2), (4, 2), (8, 0x60000), (2, 0), (2, 64), (100, 0)]

theorem witness_summaryGather : let s := sGather sgDesc
    let x := { queueP with transfers := [{ xfer0 with desc := sgDesc }] }
    Canonical s ∧ Runs s ∧ heldGather s (255 : Byte).toNat 0x10 = some (x, { xfer0 with desc := sgDesc }, table0) ∧
    peValid (entryOf s table0 (sgE0 sgDesc)) = true ∧ peValid (entryOf s table0 (sgE0 sgDesc + 1)) = false ∧ sgN sgDesc = 2 := by
  unfold Canonical Runs; decide +kernel

/-- PAGE_GATHER of 64 tokens from entry 2 on: the first page, into tile 0. -/
def pgDesc : List Byte :=
  bytesOf [(1, 0x11), (1, 0), (2, 0), (2, 1), (2, 0), (4, 2), (4, 64), (8, 0), (2, 0), (1, 1), (1, 0), (2, 1), (2, 0), (8, tileMapBase),
    (8, tileMapBase + 0x80000), (4, 0), (2, 1), (74, 0)]

theorem witness_pageGather : let s := sGather pgDesc; let d := pgDesc
    let x := { queueP with transfers := [{ xfer0 with desc := d }] }
    let records := (List.range (pgK d)).map (fun i => leAt (s.devRead (pgRec d + 8 * i) 8) 4 4)
    let l := selectPages ((sgN d + 31) / 32) (pgHead d) (pgTail d) (pgLimit d) records
    Canonical s ∧ Runs s ∧ heldGather s (255 : Byte).toNat 0x11 = some (x, { xfer0 with desc := d }, table0) ∧
    (List.range (pgP d)).filterMap (fun i =>
      (l[pgSkip d + i]?).bind (fun j => if peValid (entryOf s table0 (sgE0 d + j)) = true then some (i, j) else none)) = [(0, 0)] := by
  unfold Canonical Runs; decide +kernel

end Sys2Proof.Tests
end

