-- ==== Sys2Proof/Tests/WitnessI.lean ====
section
/-! SUPPORT. Witnesses: for the statements about switches and the phases of a run (O39, O40), states and operands that meet the
hypotheses of each clause. -/

namespace Sys2Proof.Tests

-- One theorem after the other: each evaluation by the kernel waits for all before it, and would hold a thread while it waits.
set_option Elab.async false

open Sys2Proof.Machine Sys2Proof.Safety

/-! ## SectionSwitchStarts -/

/-- Configuration bytes: offset, width and value, in ascending order. -/
def cfgOf (l : List (Nat × Nat × Nat)) : Assoc Byte := l.flatMap (fun e => (leBytes e.2.1 e.2.2).zipIdx.map (fun b => (e.1 + b.2, b.1)))

/-- A tile whose section of run 1 has ended: every unit has finished. -/
def doneTile : Tile :=
  { Tile.reset with seq := { Seq.reset with st := .ended }, finished := 0xFE, sect := { TileSect.reset with configured := true, run := 1 } }

/-- A tile of run 1 that executes step 0. -/
def busyTile : Tile :=
  { Tile.reset with seq := { Seq.reset with st := .running }, sect := { TileSect.reset with configured := true, run := 1 } }

/-- Run 1 of image 3 on tile 0, with gauge 5 of context 0 at 6; the run's command waits. -/
def sSwitch (x : Run) (y : Tile) : State :=
  ({ partG with images := [img0], runs := [x], tiles := [(0, y)] }).modRing 64 (fun z => { z with accepted := [cmd0] })

theorem free_of {s : State} {x : Run} (h : (s.runs.all (fun o => o.id == x.id || o.phase == .running) && !(s.region x).isEmpty &&
    (s.region x).all (fun n => !(s.ltile n).sect.configured || (s.ltile n).isDone) && s.tiles.all (fun e => e.2.router.insts.isEmpty)) = true) :
    RegionFree s x := by
  simp only [Bool.and_eq_true, List.all_eq_true, Bool.or_eq_true, beq_iff_eq, Bool.not_eq_true', List.isEmpty_iff] at h
  obtain ⟨⟨⟨h1, h2⟩, h3⟩, h4⟩ := h
  refine ⟨fun o ho hn => (h1 o ho).resolve_left hn, fun e => by simp [e] at h2, fun n hn hc => (h3 n hn).resolve_left (by simp [hc]), h4⟩

/-- A tile that was never loaded and one that is done; the run's own generation and its context's next; its instant due as soon
as its lead allows. -/
theorem witness_switchTrigger : ∀ e ∈ [(Tile.reset, none, none), (doneTile, some 15, none), (doneTile, none, some (0, 640))],
    let x : Run := { run0 with explicitGen := e.2.1, due := e.2.2 }; let s := sSwitch x e.1
    (Canonical s ∧ Runs s ∧ s.run? 1 = some x ∧ x.phase = .accepted ∧ x.purge = false ∧ x.pred = none ∧ x.armed = false ∧
      aget? s.ctxs x.ctx = some ⟨0, 0, 0⟩) ∧ (∀ d, x.due = some d → cyclesTo s d ≤ Int.ofNat (switchLead s x)) ∧ RegionFree s x := by
  intro e he
  simp only [List.mem_cons, List.not_mem_nil, or_false] at he
  unfold Canonical Runs
  rcases he with rfl | rfl | rfl <;>
    exact ⟨by decide +kernel, some_all (by decide +kernel), free_of (by decide +kernel)⟩

/-- A predicate that holds, in either sense: 6 has passed 6, and has not passed 7. -/
theorem witness_predicate_holds : ∀ e ∈ [((6 : Nat), false), (7, true)], let tg := BitVec.ofNat 32 e.1
    let x : Run := { run0 with pred := some (5, tg, e.2) }; let s := sSwitch x doneTile
    s.gaugeOf x.ctx 5 = some 7 ∧ (((s.gauge 7).value - tg).toNat < 2 ^ 31 ↔ e.2 = false) := by
  decide +kernel

/-- A predicate that does not hold; and one on gauge 6, which is not mapped. -/
theorem witness_skipped : ∀ e ∈ [((5 : Nat), (6 : Nat), true, true), (5, 7, false, true), (6, 6, false, false)], let tg := BitVec.ofNat 32 e.2.1
    let x : Run := { run0 with pred := some (e.1, tg, e.2.2.1) }; let s := sSwitch x doneTile
    (Canonical s ∧ Runs s ∧ s.run? 1 = some x ∧ x.phase = .accepted ∧ x.purge = false ∧ x.due = none ∧ x.first = none ∧ s.saves = [] ∧
      s.runCmd x = some cmd0 ∧ s.gaugeOf x.ctx e.1 = (if e.2.2.2 then some 7 else none) ∧
      (e.2.2.2 = true → (((s.gauge 7).value - tg).toNat < 2 ^ 31 ↔ e.2.2.1 = true))) ∧ RegionFree s x := by
  intro e he
  simp only [List.mem_cons, List.not_mem_nil, or_false] at he
  unfold Canonical Runs
  rcases he with rfl | rfl | rfl <;> exact ⟨by decide +kernel, free_of (by decide +kernel)⟩

/-- A tile that still runs keeps the trigger away; its instant may come, or lie ahead. -/
theorem witness_switch_waits : ∀ e ∈ [(none, false), (some (0, 640), false), (some (0, 641), true)], let x : Run := { run0 with due := e.1 }
    let s := sSwitch x busyTile
    (Canonical s ∧ Runs s ∧ s.run? 1 = some x ∧ x.phase = .accepted ∧ x.purge = false ∧ x.armed = false ∧ x.pred = none ∧
      (∃ n ∈ s.region x, (s.ltile n).sect.configured = true ∧ (s.ltile n).isDone = false)) ∧
    (∀ d, x.due = some d → (Int.ofNat (switchLead s x) < cyclesTo s d ↔ e.2 = true)) := by
  intro e he
  simp only [List.mem_cons, List.not_mem_nil, or_false] at he
  unfold Canonical Runs
  rcases he with rfl | rfl | rfl <;> exact ⟨by decide +kernel, some_all (by decide +kernel)⟩

/-! ## SectionSwitchPhases -/

/-- The census of tile 0 in the run's generation is zero; and is one. -/
theorem witness_censusClear : ∀ e ∈ [([], true), ([(5, (1 : BitVec 24))], false)], let x : Run := { run0 with phase := .waitCensus, gen := 5 }
    let s : State := { sSwitch x doneTile with census := e.1 }
    Canonical s ∧ Runs s ∧ s.run? 1 = some x ∧ x.phase = .waitCensus ∧ ((∀ n ∈ s.region x, s.censusLive n x.gen = 0) ↔ e.2 = true) := by
  unfold Canonical Runs; decide +kernel

theorem witness_stopping : let x : Run := { run0 with phase := .stopping, outgoing := [(0, 5)] }; let s := sSwitch x doneTile
    Canonical s ∧ Runs s ∧ s.run? 1 = some x ∧ x.phase = .stopping := by
  unfold Canonical Runs; decide +kernel

theorem witness_stopDrain : let x : Run := { run0 with phase := .stopDrain, outgoing := [(0, 5)] }
    let s : State := { partG with images := [img0], runs := [x], tiles := [(0, doneTile)] }
    (Canonical s ∧ Runs s ∧ s.run? 1 = some x ∧ x.phase = .stopDrain ∧ (∀ e ∈ x.outgoing, s.censusLive e.1 e.2 = 0) ∧
      (∀ e ∈ s.ms.queues, e.2.tile = none) ∧ s.moves = [] ∧ s.saves = []) ∧
    (∀ q, ∀ c ∈ (s.ring q).accepted, c.opcode ≠ 0x41 ∧ c.opcode ≠ 0x21) :=
  ⟨by unfold Canonical Runs; decide +kernel,
    ring_all (P := fun x => ∀ c ∈ x.accepted, c.opcode ≠ 0x41 ∧ c.opcode ≠ 0x21) (by decide) (by decide +kernel)⟩

/-- Run 1 drains; slot 0 of its tile holds a program of one step. -/
def drainRun : Run := { run0 with phase := .draining, outgoing := [(0, 5)] }
def sDrain : State :=
  { sSwitch drainRun Tile.reset with mem := part0.mem.putBytes (slotPlace 0 0 3 + 0x3A4) [1] }

theorem witness_switchDrainEnd : let s := sDrain; let x := drainRun
    let y : Tile := { Tile.reset with cfg := slotCfg s (s.phys 0) (agetD img0.slot 0 0) (agetD img0.frames 0 0) }
    (Canonical s ∧ Runs s ∧ s.run? 1 = some x ∧ x.phase = .draining ∧ s.image? x.ctx x.handle = some img0 ∧ img0.tiles = [0] ∧
      img0.trees = [] ∧ img0.gauges = [] ∧ x.due = none ∧ (∀ e ∈ x.outgoing, s.censusLive e.1 e.2 = 0) ∧
      (∀ e ∈ s.ms.queues, e.2.tile = none) ∧ s.moves = [] ∧ y.seq = (s.ltile 0).seq) ∧ RunsOn y 0 :=
  ⟨by unfold Canonical Runs; decide +kernel, by decide +kernel, by decide +kernel⟩

theorem witness_runDone : let x : Run := { run0 with phase := .running, first := some (1, 2), timeoutAt := some 5 }; let s := sSwitch x doneTile
    Canonical s ∧ Runs s ∧ s.run? 1 = some x ∧ x.phase = .running ∧ s.runCmd x = some cmd0 ∧ s.saves = [] ∧ x.first = some (1, 2) ∧
    (∀ n ∈ s.region x, (s.ltile n).sect.configured = true → (s.ltile n).sect.run = 1 → (s.ltile n).isDone = true) ∧
    (∀ e ∈ s.ms.queues, ∀ n ∈ s.region x, e.2.tile = some n → ∀ w ∈ e.2.transfers, w.complete = true) := by
  unfold Canonical Runs; decide +kernel

theorem witness_sectionTimeout : let x : Run := { run0 with phase := .running, first := some (1, 2), timeoutAt := some 5 }
    let s : State := { sSwitch x busyTile with clk := 5 }
    Canonical s ∧ Runs s ∧ s.run? 1 = some x ∧ x.phase = .running ∧ x.timeoutAt = some 5 ∧ 5 ≤ s.clk ∧
    (∃ n ∈ s.region x, (s.ltile n).sect.configured = true ∧ (s.ltile n).sect.run = 1 ∧ (s.ltile n).isDone = false) := by
  unfold Canonical Runs; decide +kernel

end Sys2Proof.Tests
end

