-- ==== Sys2Proof/Tests/WitnessJ.lean ====
section
/-! SUPPORT. Witnesses: for the statements about tile programs (O41 to O44), states and operands that meet the hypotheses of each
clause. -/

namespace Sys2Proof.Tests

-- One theorem after the other: each evaluation by the kernel waits for all before it, and would hold a thread while it waits.
set_option Elab.async false

open Sys2Proof.Machine Sys2Proof.Safety

/-- A step word: its opcode, and fields by their lowest bit (Table 2.10). -/
def stepWord (op : Nat) (fs : List (Nat × Nat)) : Nat := op * 2 ^ 58 + (fs.map (fun e => e.2 * 2 ^ e.1)).sum

/-- A tile of run 1 in generation 5 whose sequencer stands at step 1022 of a program of n steps, with these configuration bytes. -/
def progTile (w : Nat) (more : List (Nat × Nat × Nat)) (st : SeqState) (n : Nat) : Tile :=
  { Tile.reset with
    cfg := cfgOf ((8 * 1022, 8, w) :: more ++ [(0x33A4, 2, n)])
    seq := { Seq.reset with idx := 1022, st := st }
    sect := { TileSect.reset with configured := true, gen := 5, run := 1 } }

/-- The last logical tile, on its own physical tile. -/
def sProg (y : Tile) : State := { part0 with tiles := [(1071, y)], clk := 1000 }

theorem step_of {s : State} {n : BitVec 10} {op p w : Nat}
    (h : s.mem.wf = true ∧ s.stopped = false ∧ n.toNat < s.ntiles ∧ s.phys n.toNat = p ∧ seqReady (s.tile p) = true ∧
      (s.tile p).step64 (s.tile p).seq.idx.toNat = w ∧ stepOp w = op ∧ stepRsv w = false ∧
      (s.tile p).cfgMarked (8 * (s.tile p).seq.idx.toNat) 8 = false) : AtStep s n op p w where
  canonical := h.1
  runs := h.2.1
  present := h.2.2.1
  place := h.2.2.2.1
  ready := h.2.2.2.2.1
  word := h.2.2.2.2.2.1
  code := h.2.2.2.2.2.2.1
  plain := h.2.2.2.2.2.2.2.1
  sound := h.2.2.2.2.2.2.2.2

theorem held_of {s : State} {n : BitVec 10} {q : SeqState} {p w : Nat}
    (h : s.mem.wf = true ∧ s.stopped = false ∧ s.phys n.toNat = p ∧ (s.tile p).seq.st = q ∧
      (s.tile p).step64 (s.tile p).seq.idx.toNat = w) : HeldAt s n q p w where
  canonical := h.1
  runs := h.2.1
  place := h.2.2.1
  held := h.2.2.2.1
  word := h.2.2.2.2

theorem runsOn_of {y : Tile} {k : Nat} (h : k < y.progLen ∧ y.seq.stepOne = false ∧ y.seq.halt = false ∧ y.seq.breakEn = false) :
    RunsOn y k where
  inside := h.1
  free := h.2

/-! ## IssueQueuesOrStalls -/

def op0 : Op := ⟨4, 0, 0, 0, none, false, none⟩

/-- ISSUE of the sampler's operation in descriptor 31 with loop table 15: it signals gauge 2047, and `wait` is set. -/
def issueWord : Nat := stepWord 1 [(54, 4), (49, 31), (45, 15), (44, 1), (43, 1), (32, 2047)]

/-- That descriptor: a draw over a slice of `width` columns of a row of 64, no root; its loop table, with wide streams 0 and 1; and half 0 of
buffer pair 0, in which they lie. -/
def drawDesc (width : Nat) : List (Nat × Nat × Nat) :=
  [(0x2000 + 64 * 31, 2, 0x104), (0x2000 + 64 * 31 + 12, 8, width + 64 * 2 ^ 32), (0x2800 + 128 * 15, 8, 0x0300100003000000),
    (0x3308, 4, 0x2000)]

def issueTile (st : SeqState) (k : Nat) : Tile := { progTile issueWord (drawDesc 64) st 1024 with queues := [(4, List.replicate k op0)] }

/-- With an empty queue, with one slot left, and with a full one. -/
theorem witness_issue : ∀ k ∈ [0, 3, 4], let y := issueTile .running k; let s := sProg y
    AtStep s 1023 1 1071 issueWord ∧ RunsOn y (nextIdx y) ∧ s.tile 1071 = y ∧ issueMarked y issueWord = false ∧
    issueFail y (fld issueWord 54 4) (fld issueWord 49 5) (fld issueWord 45 4) = none ∧ (y.queue (fld issueWord 54 4)).length = k := by
  intro e he
  simp only [List.mem_cons, List.not_mem_nil, or_false] at he
  rcases he with rfl | rfl | rfl <;> exact ⟨step_of (by decide +kernel), runsOn_of (by decide +kernel), by decide +kernel⟩

theorem witness_issueQueueSlotFree : let y := issueTile .stallIssue 3; let s := sProg y
    HeldAt s 1023 .stallIssue 1071 issueWord ∧ RunsOn y (nextIdx y) ∧ s.tile 1071 = y ∧ (y.queue (fld issueWord 54 4)).length < 4 :=
  ⟨held_of (by decide +kernel), runsOn_of (by decide +kernel), by decide +kernel⟩

/-- No unit 0; a descriptor of no engine; a slice without columns. -/
theorem witness_issue_fails :
    ∀ e ∈ [(stepWord 1 [], 64, 0x4111), (stepWord 1 [(54, 4)], 64, 0x4111), (issueWord, 0, 0x4110)],
    let y := progTile e.1 (drawDesc e.2.1) .running 1024; let s := sProg y
    AtStep s 1023 1 1071 e.1 ∧ s.tile 1071 = y ∧ issueMarked y e.1 = false ∧ issueFail y (fld e.1 54 4) (fld e.1 49 5) (fld e.1 45 4) = some e.2.2 := by
  intro e he
  simp only [List.mem_cons, List.not_mem_nil, or_false] at he
  rcases he with rfl | rfl | rfl <;> exact ⟨step_of (by decide +kernel), by decide +kernel⟩

/-- A mark on the granule of an ISSUE's step, on that of a step of no opcode, and on an ISSUE's descriptor. -/
theorem witness_issue_marked : ∀ e ∈ [(issueWord, 127, true), (stepWord 8 [], 127, true), (issueWord, 159, false)],
    let s := sProg { progTile e.1 (drawDesc 64) .running 1024 with cfgBad := [e.2.1] }
    let w := (s.tile 1071).step64 (s.tile 1071).seq.idx.toNat
    let marked := (s.tile 1071).cfgMarked (8 * (s.tile 1071).seq.idx.toNat) 8
    s.mem.wf = true ∧ s.stopped = false ∧ (1023 : BitVec 10).toNat < s.ntiles ∧ s.phys (1023 : BitVec 10).toNat = 1071 ∧
    seqReady (s.tile 1071) = true ∧ marked = e.2.2 ∧
    (if e.2.2 then stepOp w = 1 ∨ stepOp w ∉ stepOps else stepOp w = 1 ∧ stepRsv w = false ∧ issueMarked (s.tile 1071) w = true) := by
  decide +kernel

/-- An ISSUE with an RSV bit, and an opcode that does not exist. -/
theorem witness_issue_step : ∀ e ∈ [(stepWord 1 [(0, 1)], true), (stepWord 8 [], false)], let s := sProg (progTile e.1 [] .running 1024)
    let w := (s.tile 1071).step64 (s.tile 1071).seq.idx.toNat
    s.mem.wf = true ∧ s.stopped = false ∧ (1023 : BitVec 10).toNat < s.ntiles ∧ s.phys (1023 : BitVec 10).toNat = 1071 ∧
    seqReady (s.tile 1071) = true ∧ (s.tile 1071).cfgMarked (8 * (s.tile 1071).seq.idx.toNat) 8 = false ∧
    (stepOp w = 1 ∧ stepRsv w = true ↔ e.2 = true) ∧ (stepOp w ∉ stepOps ↔ e.2 = false) := by
  decide +kernel

/-! ## GaugeMessagesOfSequencer -/

/-- SIGNAL_GAUGE of gauge 2047, fenced. -/
def signalWord : Nat := stepWord 3 [(47, 2047), (46, 1), (45, 1), (0, 7)]

def gauged (w : Nat) (st : SeqState) (k : Nat) (qs : Assoc (List Op)) : Tile :=
  { progTile w [(0x3380 + 12, 4, 50)] st 1024 with gq := List.replicate k ⟨none, mkMsg 0 0 0 4 false []⟩, queues := qs, opId := 5 }

/-- Nothing waits. -/
theorem witness_signalGauge : let y := gauged signalWord .running 0 []; let s := sProg y
    AtStep s 1023 3 1071 signalWord ∧ RunsOn y (nextIdx y) ∧ s.tile 1071 = y ∧
    (y.gq = [] ∧ (bitOf signalWord 45 = true → ∀ u, 1 ≤ u → u ≤ 5 → y.queue u = [])) :=
  ⟨step_of (by decide +kernel), runsOn_of (by decide +kernel), by decide +kernel, by decide +kernel, fun _ _ _ _ => rfl⟩

/-- An operation holds the fence; messages wait, with room and without. -/
theorem witness_signalGauge_held : ∀ e ∈ [(0, [(5, [op0])]), (7, []), (8, [])], let y := gauged signalWord .running e.1 e.2; let s := sProg y
    AtStep s 1023 3 1071 signalWord ∧ RunsOn y (nextIdx y) ∧ s.tile 1071 = y ∧ y.gq.length = e.1 ∧
    ¬ (y.gq = [] ∧ (bitOf signalWord 45 = true → ∀ u, 1 ≤ u → u ≤ 5 → y.queue u = [])) := by
  intro e he
  simp only [List.mem_cons, List.not_mem_nil, or_false] at he
  rcases he with rfl | rfl | rfl <;> refine ⟨step_of (by decide +kernel), runsOn_of (by decide +kernel), by decide +kernel, by decide +kernel, ?_⟩
  · exact fun h => absurd (h.2 (by decide +kernel) 5 (by decide) (by decide)) (by decide +kernel)
  · exact fun h => absurd h.1 (by decide +kernel)
  · exact fun h => absurd h.1 (by decide +kernel)

/-- WAIT_GAUGE with the timeout of entry 3. -/
def waitWord : Nat := stepWord 2 [(47, 2047), (45, 3), (0, 7)]

theorem witness_waitGauge : ∀ k ∈ [0, 7, 8], let y := gauged waitWord .running k []; let s := sProg y
    AtStep s 1023 2 1071 waitWord ∧ s.tile 1071 = y ∧ y.gq.length = k ∧ y.timeoutEntry (fld waitWord 45 2) = 50 := by
  intro e he
  simp only [List.mem_cons, List.not_mem_nil, or_false] at he
  rcases he with rfl | rfl | rfl <;> exact ⟨step_of (by decide +kernel), by decide +kernel⟩

theorem witness_gaugeQueueFree : let y := gauged signalWord .stallEgress 7 []; let s := sProg y
    HeldAt s 1023 .stallEgress 1071 signalWord ∧ stepOp signalWord = 3 ∧ s.tile 1071 = y ∧ y.gq.length < 8 ∧ RunsOn y (nextIdx y) ∧ y.gq ≠ [] :=
  ⟨held_of (by decide +kernel), by decide +kernel, by decide +kernel, by decide +kernel, runsOn_of (by decide +kernel), by decide +kernel⟩

/-- Nothing is older than the fence; an operation is. -/
theorem witness_fenceRelease : ∀ f ∈ [4, 5],
    let e : GqEntry := ⟨some f, mkMsg 0 0 0 4 false (List.replicate 64 0)⟩
    let y := { gauged signalWord .running 0 [(5, [op0])] with gq := [e] }; let s := sProg y
    (s.mem.wf = true ∧ s.stopped = false ∧ (1023 : BitVec 10).toNat < s.ntiles ∧ s.phys (1023 : BitVec 10).toNat = 1071 ∧ s.tile 1071 = y ∧
      y.gq.length ≤ 8 ∧ leAt e.msg.pay 2 1 ≠ 2) ∧ ((∃ u, 1 ≤ u ∧ u ≤ 5 ∧ ∃ o ∈ y.queue u, o.id < f) ↔ f = 5) := by
  intro f hf
  simp only [List.mem_cons, List.not_mem_nil, or_false] at hf
  rcases hf with rfl | rfl <;> refine ⟨by decide +kernel, ?_, ?_⟩
  · rintro ⟨u, h1, h5, o, ho, hl⟩
    have hu : u = 1 ∨ u = 2 ∨ u = 3 ∨ u = 4 ∨ u = 5 := by omega
    rcases hu with rfl | rfl | rfl | rfl | rfl <;> simp [gauged, progTile, Tile.queue, agetD, aget?, op0] at ho
    subst ho; simp at hl
  · intro h; exact absurd h (by decide)
  · intro _; rfl
  · intro _; exact ⟨5, by decide, by decide, op0, by decide +kernel, by decide⟩

/-! ## SendBuildsMessage -/

/-- SEND of template 31 with this length and source. -/
def sendWord (l src : Nat) : Nat := stepWord 4 [(53, 31), (47, l - 1), (31, 0xFFFF), (0, src)]

def sender (l src : Nat) (st : SeqState) (k : Nat) : Tile :=
  { progTile (sendWord l src) [] st 1024 with egress := (2, mkMsg 0 0 0 0 false []) :: List.replicate k (0, mkMsg 0 0 0 0 false []) }

/-- The last bytes of the program area, and bytes of which the last 64 lie behind it; room for one message. -/
theorem witness_send : ∀ e ∈ [(SeqState.running, 4096), (.stallEgress, 4096), (.running, 4032)], let st := e.1
    let w := sendWord 64 (0xFB0000 - e.2); let y := sender 64 (0xFB0000 - e.2) st 7; let s := sProg y
    let src := fld w 0 24
    (s.tile 1071 = y ∧ fld w 47 6 = 63 ∧ stepOp w = 4 ∧ src % 64 = 0 ∧ src + 64 * 64 ≤ 0x1000000 ∧
      min (64 * 64) (y.spillBase - src) = e.2 ∧ y.cfgMarked (0x2000 + 64 * fld w 53 5) 64 = false ∧
      (∀ k ∈ y.localList, inInput y k = true) ∧ sendsGauge y w = false ∧ y.sends = 7) ∧
    RunsOn y (nextIdx y) ∧ (st = .running → AtStep s 1023 4 1071 w) ∧ (st = .stallEgress → HeldAt s 1023 .stallEgress 1071 w) := by
  intro e he
  simp only [List.mem_cons, List.not_mem_nil, or_false] at he
  rcases he with rfl | rfl | rfl
  · exact ⟨by decide +kernel, runsOn_of (by decide +kernel), fun _ => step_of (by decide +kernel), fun h => absurd h (by decide)⟩
  · exact ⟨by decide +kernel, runsOn_of (by decide +kernel), fun h => absurd h (by decide), fun _ => held_of (by decide +kernel)⟩
  · exact ⟨by decide +kernel, runsOn_of (by decide +kernel), fun _ => step_of (by decide +kernel), fun h => absurd h (by decide)⟩

/-- A template of kind gauge, with this many gauge messages waiting. -/
def gaugeSender (k : Nat) : Tile :=
  { progTile (sendWord 1 0) [(0x2000 + 64 * 31, 16, 4 * 2 ^ 87)] .running 1024 with gq := List.replicate k ⟨none, mkMsg 0 0 0 4 false []⟩ }

theorem witness_send_gauge : ∀ k ∈ [0, 7, 8], let w := sendWord 1 0; let y := gaugeSender k; let s := sProg y
    AtStep s 1023 4 1071 w ∧ RunsOn y (nextIdx y) ∧ s.tile 1071 = y ∧ fld w 0 24 % 64 = 0 ∧
    fld w 0 24 + 64 * (fld w 47 6 + 1) ≤ 0x1000000 ∧ y.cfgMarked (0x2000 + 64 * fld w 53 5) 64 = false ∧
    (∀ x ∈ y.localList, inInput y x = true) ∧ sendsGauge y w = true ∧ y.gq.length = k := by
  intro e he
  simp only [List.mem_cons, List.not_mem_nil, or_false] at he
  rcases he with rfl | rfl | rfl <;> exact ⟨step_of (by decide +kernel), runsOn_of (by decide +kernel), by decide +kernel⟩

/-- A full egress buffer; and a mark on the template. -/
theorem witness_send_stalls : ∀ e ∈ [([], false), ([159], true)], let w := sendWord 1 0
    let y : Tile := { sender 1 0 .running 8 with cfgBad := e.1 }; let s := sProg y
    AtStep s 1023 4 1071 w ∧ s.tile 1071 = y ∧ fld w 0 24 % 64 = 0 ∧ fld w 0 24 + 64 * (fld w 47 6 + 1) ≤ 0x1000000 ∧
    y.cfgMarked (0x2000 + 64 * fld w 53 5) 64 = e.2 ∧ sendsGauge y w = false ∧ 8 ≤ y.sends := by
  intro e he
  simp only [List.mem_cons, List.not_mem_nil, or_false] at he
  rcases he with rfl | rfl <;> exact ⟨step_of (by decide +kernel), by decide +kernel⟩

/-- A source that is not a multiple of 64, and one that runs past the store. -/
theorem witness_send_fails : ∀ e ∈ [(1, 63), (2, 0xFFFFC0)], let w := sendWord e.1 e.2; let s := sProg (sender e.1 e.2 .running 0)
    AtStep s 1023 4 1071 w ∧ (fld w 0 24 % 64 ≠ 0 ↔ e.1 = 1) ∧ (0x1000000 < fld w 0 24 + 64 * (fld w 47 6 + 1) ↔ e.1 = 2) := by
  intro e he
  simp only [List.mem_cons, List.not_mem_nil, or_false] at he
  rcases he with rfl | rfl <;> exact ⟨step_of (by decide +kernel), by decide +kernel⟩

/-! ## WatchSwapBranchEnd -/

/-- WATCH of bit 30, stale_seen, of port 7 of this unit; predicate 7, timeout entry 3. -/
def watchWord (u : Nat) : Nat := stepWord 5 [(54, u), (51, 7), (49, 3), (46, 7), (0, 2 ^ 30)]

def watcher (u : Nat) (st : SeqState) (seen : Bool) : Tile :=
  { progTile (watchWord u) [(0x3380 + 12, 4, 50)] st 1024 with ports := [(8 * (u - 1) + 7, { Port.empty with staleSeen := seen })] }

theorem witness_watch : ∀ e ∈ [(1, true), (7, true), (1, false), (7, false)], let w := watchWord e.1; let y := watcher e.1 .running e.2; let s := sProg y
    AtStep s 1023 5 1071 w ∧ RunsOn y (nextIdx y) ∧ s.tile 1071 = y ∧ 1 ≤ fld w 54 4 ∧ fld w 54 4 ≤ 7 ∧ y.timeoutEntry (fld w 49 2) = 50 ∧
    ((portStatus s 1071 (fld w 54 4) (fld w 51 3) &&& fld w 0 32) ≠ 0 ↔ e.2 = true) := by
  intro e he
  simp only [List.mem_cons, List.not_mem_nil, or_false] at he
  rcases he with rfl | rfl | rfl | rfl <;> exact ⟨step_of (by decide +kernel), runsOn_of (by decide +kernel), by decide +kernel⟩

theorem witness_watch_fails : ∀ u ∈ [0, 8, 15], let s := sProg (watcher u .running false)
    AtStep s 1023 5 1071 (watchWord u) ∧ (fld (watchWord u) 54 4 = 0 ∨ 7 < fld (watchWord u) 54 4) := by
  intro e he
  simp only [List.mem_cons, List.not_mem_nil, or_false] at he
  rcases he with rfl | rfl | rfl <;> exact ⟨step_of (by decide +kernel), by decide +kernel⟩

/-- The condition holds; the deadline is reached, and it does not. -/
theorem witness_watch_ends : ∀ e ∈ [true, false], let w := watchWord 7
    let y := { watcher 7 .watch e with seq := { (watcher 7 .watch e).seq with watchDeadline := some 1000 } }; let s := sProg y
    HeldAt s 1023 .watch 1071 w ∧ RunsOn y (nextIdx y) ∧ s.tile 1071 = y ∧ y.seq.watchDeadline = some 1000 ∧ 1000 ≤ s.clk ∧
    ((portStatus s 1071 (fld w 54 4) (fld w 51 3) &&& fld w 0 32) ≠ 0 ↔ e = true) := by
  intro e he
  simp only [List.mem_cons, List.not_mem_nil, or_false] at he
  rcases he with rfl | rfl <;> exact ⟨held_of (by decide +kernel), runsOn_of (by decide +kernel), by decide +kernel⟩

theorem witness_swap_end : ∀ e ∈ [(6, 50, 0xFF), (0x3F, 0, 0)], let w := stepWord e.1 [(e.2.1, e.2.2)]; let y := progTile w [] .running 1024; let s := sProg y
    AtStep s 1023 e.1 1071 w ∧ RunsOn y (nextIdx y) ∧ s.tile 1071 = y := by
  intro e he
  simp only [List.mem_cons, List.not_mem_nil, or_false] at he
  rcases he with rfl | rfl <;> exact ⟨step_of (by decide +kernel), runsOn_of (by decide +kernel), by decide +kernel⟩

/-- A BRANCH of this mode on predicate 7 or counter 3 to step 1021. -/
def branchWord (mode : Nat) : Nat := stepWord 7 [(56, mode), (53, 7), (51, 3), (0, 1021)]

/-- Every mode with its predicate set and clear, and with its counter at 2 and at 1. -/
theorem witness_branch : ∀ e ∈ [(0, (0x80 : Byte), (2 : BitVec 20), true, true), (0, 0x7F, 2, false, true), (1, 0x7F, 2, false, true), (1, 0x80, 2, true, true),
      (3, 0, 2, false, true), (2, 0, 2, false, true), (2, 0, 1, false, false)],
    let w := branchWord e.1; let y0 := progTile w [] .running 1024
    let y := { y0 with seq := { y0.seq with preds := e.2.1, ctrs := [0, 0, 0, e.2.2.1] } }; let s := sProg y
    AtStep s 1023 7 1071 w ∧ RunsOn y (nextIdx y) ∧ RunsOn y (fld w 0 10) ∧ s.tile 1071 = y ∧ fld w 0 10 < y.progLen ∧ fld w 56 2 = e.1 ∧
    y.seq.preds.getLsbD (fld w 53 3) = e.2.2.2.1 ∧ (y.seq.ctrs.getD (fld w 51 2) 0 - 1 ≠ 0 ↔ e.2.2.2.2 = true) := by
  intro e he
  simp only [List.mem_cons, List.not_mem_nil, or_false] at he
  rcases he with rfl | rfl | rfl | rfl | rfl | rfl | rfl <;>
    exact ⟨step_of (by decide +kernel), runsOn_of (by decide +kernel), runsOn_of (by decide +kernel), by decide +kernel⟩

/-- The first step past the program. -/
theorem witness_branch_fails : let w := stepWord 7 [(0, 1023)]; let y := progTile w [] .running 1023; let s := sProg y
    AtStep s 1023 7 1071 w ∧ s.tile 1071 = y ∧ y.progLen ≤ fld w 0 10 :=
  ⟨step_of (by decide +kernel), by decide +kernel⟩

theorem witness_sequencerRetryTimeout : let g : GWait := ⟨5, 7, 950, 50, some 2000, 0, 0⟩
    let y0 := progTile waitWord [] .waitGauge 1024; let y := { y0 with seq := { y0.seq with gwait := some g } }; let s := sProg y
    s.mem.wf = true ∧ s.stopped = false ∧ s.phys (1023 : BitVec 10).toNat = 1071 ∧ (s.tile 1071).seq.gwait = some g ∧
    (s.tile 1071).seq.st = .waitGauge ∧ g.retryAt.isSome = true ∧ g.timeout ≠ 0 ∧ g.timeout ≤ s.clk - g.start := by
  decide +kernel

end Sys2Proof.Tests
end

