-- ==== Sys2Proof/Tests/WitnessK.lean ====
section
/-! SUPPORT. Witnesses: for the statements about messages (O45, O46), states and operands that meet the hypotheses of each
clause. -/

namespace Sys2Proof.Tests

-- One theorem after the other: each evaluation by the kernel waits for all before it, and would hold a thread while it waits.
set_option Elab.async false

open Sys2Proof.Machine Sys2Proof.Safety

/-! ## MessagesMove -/

/-- A data message of one flit in generation 5 to port 7 of unit 6 of logical tile n. -/
def msgTo (n : Nat) : Msg := mkMsg (tileDest n 6 7) 7 5 0 false (List.replicate 64 3)

/-- The last logical tile has one message to send, with this many flits in its local input. -/
def sEgress (m : Msg) (k : Nat) (loading : Bool) : State := { part0 with
  tiles := [(1071, { Tile.reset with
    egress := [(2, m), (3, m)], sect := { TileSect.reset with loading := loading }
    router := { Router.empty with queues := [(12, List.replicate k (msgTo 0))] } })] }

/-- Room for one flit; a malformed message; a region under a switch. -/
theorem witness_messageEgress :
    ∀ e ∈ [(msgTo 1022, false, false), ((msgTo 1022).put 87 4 6, false, true), (msgTo 1022, true, false)], let m := e.1
    let s := sEgress m 7 e.2.1; let k := qKey .tile (kindLane m.kind); let m1 := egressMsg s (1023 : BitVec 10).toNat 2 m
    Canonical s ∧ Runs s ∧ (1023 : BitVec 10).toNat < s.ntiles ∧ s.phys (1023 : BitVec 10).toNat = 1071 ∧ (s.tile 1071).egress = (2, m) :: [(3, m)] ∧
    (s.tile 1071).queue 2 = [] ∧ laneRoom ((s.tile 1071).router.held k) m.flits = true ∧ kindLane m1.kind = kindLane m.kind ∧
    (s.tile 1071).sect.loading = e.2.1 ∧ malformed s m1 = e.2.2 ∧ inTile s (1023 : BitVec 10).toNat m1 = false := by
  unfold Canonical Runs; decide +kernel

theorem head_of {s : State} {p k : Nat} {m : Msg} {r : List Msg}
    (h : (s.mem.wf && !s.stopped && s.rq p k == m :: r && asorted (s.tile p).router.queues) = true) : HeadOf s p k m r := by
  simp only [Bool.and_eq_true, beq_iff_eq, Bool.not_eq_true'] at h
  obtain ⟨⟨⟨h1, h2⟩, h3⟩, h4⟩ := h
  exact ⟨h1, h2, h3, h4⟩

/-- Router (7, 7) of die 3 with m at the head of its local input, and these tiles behind it. -/
def sRouter (m : Msg) (more : Assoc Tile) : State := { part0 with
  tiles := (935, { Tile.reset with router := { Router.empty with queues := [(12, [m, msgTo 0])] } }) :: more }

/-- East, west, south and north, the east neighbour with room for one flit. -/
theorem witness_messageHop : ∀ e ∈ [(888, 936, Side.west), (886, 934, .east), (903, 951, .north), (871, 919, .south)], let m := msgTo e.1
    let s := sRouter m [(936, { Tile.reset with router := { Router.empty with queues := [(qKey .west 0, List.replicate 7 m)] } })]
    let p := (935 : BitVec 11).toNat
    HeadOf s p (qKey .tile (0 : BitVec 2).toNat) m [msgTo 0] ∧ nextHop s p m = .hop e.2.1 e.2.2 ∧
    (p < 1088 ∧ granted s p (.lane .tile (0 : BitVec 2).toNat) = true ∧ (s.tile p).router.dike = [] ∧ pDie e.2.1 = pDie p ∧ e.2.1 ≠ p ∧
      (s.tile e.2.1).router.spill = [] ∧ m.here s = true ∧ m.copy = none ∧ m.mcast = false ∧ m.dstY < 16 ∧ m.dstDie = pDie p ∧ pDie p < 4) := by
  intro e he
  simp only [List.mem_cons, List.not_mem_nil, or_false] at he
  rcases he with rfl | rfl | rfl | rfl <;> exact ⟨head_of (by decide +kernel), rfl, by decide +kernel⟩

/-- A bit of the payload, and one of the header, of the head flit comes flipped; both neighbours run nothing. -/
theorem witness_messageHop_error : ∀ e ∈ [((2 : Nat) ^ 128, [2]), (1, [0])], let m := msgTo 888; let s := sRouter m []
    let f : FlitError := ⟨0, BitVec.ofNat 1024 e.1, 0⟩
    f.flit.toNat < m.flits ∧ badLanes (m.flit f.flit.toNat) f = e.2 ∧ s.tileRun 936 = none ∧
    (match (Load.msg m).marred f true with | .msg m1 => m1.fp == [0] | .parcel _ => false) = true := by
  decide +kernel

/-- The east neighbour lies in a region under a switch. -/
theorem witness_messageHop_dike : let m := msgTo 888
    let s := sRouter m [(936, { Tile.reset with sect := { TileSect.reset with loading := true } })]; let p := (935 : BitVec 11).toNat
    HeadOf s p (qKey .tile (0 : BitVec 2).toNat) m [msgTo 0] ∧ p < 1088 ∧ spreads s p .tile m = false ∧ dikeHolds s p .tile m = true ∧
    (s.tile p).router.dike = [] ∧ (s.tile p).router.spill = [] :=
  ⟨head_of (by decide +kernel), by decide +kernel⟩

/-- A multicast to the rectangle from (7, 7) to (8, 8). -/
def spread0 : Msg := (((msgTo 887).put 98 1 1).put 99 4 8).put 103 4 8

/-- Both neighbours have room for one flit; the southern one has none. -/
theorem witness_multicastSpread : ∀ k ∈ [7, 8], let m := spread0
    let s := sRouter m [(951, { Tile.reset with router := { Router.empty with queues := [(0, List.replicate k (msgTo 0))] } })]
    let p := (935 : BitVec 11).toNat
    HeadOf s p (qKey .tile (0 : BitVec 2).toNat) m [msgTo 0] ∧ spreads s p .tile m = true ∧
    spreadTo p m = [(936, .west), (951, .north)] ∧ (spreadTo p m).Pairwise (fun a b => a.1 ≠ b.1) ∧
    (s.tile p).router.spill = [] ∧ (s.tile p).router.dike = [] ∧
    (∀ e ∈ spreadTo p m, (s.tile e.1).router.spill = [] ∧ e.1 ≠ p ∧ s.diked e.1 = false) ∧
    ((∀ e ∈ spreadTo p m, laneRoom ((s.tile e.1).router.held (qKey e.2 (0 : BitVec 2).toNat)) m.flits = true) ↔ k = 7) ∧
    ((∃ e ∈ spreadTo p m, laneRoom ((s.tile e.1).router.held (qKey e.2 (0 : BitVec 2).toNat)) m.flits = false) ↔ k = 8) := by
  intro e he
  simp only [List.mem_cons, List.not_mem_nil, or_false] at he
  rcases he with rfl | rfl <;> exact ⟨head_of (by decide +kernel), by decide +kernel⟩

/-! ## MessagesDelivered -/

/-- A tile in generation 5 with port 7 of unit 6 bound by this word, with basin 63 for its overflow, and k flits in its FIFO; m waits
at its router's north input. -/
def boundTile (bind : Nat) (m : Msg) (k : Nat) : Tile :=
  { Tile.reset with
    cfg := cfgOf [(0x3080 + 5 * 0x20 + 28, 4, bind), (0x3400 + 16 * 63, 4, 0x10000000)]
    sect := { TileSect.reset with configured := true, gen := 5, run := 1 }
    ports := [(47, { Port.empty with fifo := List.replicate k m })]
    router := { Router.empty with queues := [(0, [m, msgTo 0])] } }

/-- Its overflow into basin 63 is enabled. -/
def portTile (m : Msg) (k : Nat) : Tile := boundTile (3 + 63 * 4) m k

/-- It is logical tile n, on physical tile p. -/
def sPort (p : Nat) (y : Tile) : State := { part0 with tiles := [(p, y)] }

/-- What every clause of a delivery asks of m at the north input of router p. -/
def ArrivedMet (s : State) (p : Nat) (m : Msg) : Prop :=
  HeadOf s p (qKey .north 0) m [msgTo 0] ∧ nextHop s p m = .tile ∧
  (spreads s p .north m = false ∧ (s.tile p).router.spill = [] ∧ m.kind ≠ 4 ∧ m.ingress = m)

/-- Room for one flit: the message is taken; a message of another generation. -/
theorem witness_messageDelivery : ∀ g ∈ [5, 4], let m := (msgTo 1023).put 84 3 g; let y := portTile m 7; let s := sPort 1071 y
    let p := (1071 : BitVec 11).toNat; let u := m.dstUnit; let k := m.dstPort
    ArrivedMet s p m ∧
    (ejectGranted s p (.lane .north 0) = true ∧ s.tile p = y ∧ firewalled s m m.dstTile = false ∧ isOrphan y m = false ∧
      (m.gen = y.sect.gen.toNat ↔ g = 5) ∧ s.phys (1023 : BitVec 10).toNat = p ∧ (1023 : BitVec 10).toNat < s.ntiles ∧
      portNo u k = (47 : BitVec 6).toNat) ∧ FifoTakes y u k m := by
  intro e he
  simp only [List.mem_cons, List.not_mem_nil, or_false] at he
  rcases he with rfl | rfl <;>
    exact ⟨⟨head_of (by decide +kernel), rfl, by decide +kernel⟩, by decide +kernel, by decide +kernel, by decide +kernel, by decide +kernel, by decide +kernel⟩

/-- To port 6, which is not bound; and from a tile of no polder to tile 0, which has one. -/
theorem witness_messageDelivery_dropped :
    ∀ e ∈ [((msgTo 1023).put 31 3 6, 1071, true, false), ((msgTo 0).put 34 34 (srcOf part0 5 2), 0, false, true)], let m := e.1
    let y := portTile m 0; let s := sPort e.2.1 y; let p := e.2.1
    ArrivedMet s p m ∧ ejectGranted s p (.lane .north 0) = true ∧ s.tile p = y ∧ isOrphan y m = e.2.2.1 ∧ firewalled s m m.dstTile = e.2.2.2 := by
  intro e he
  simp only [List.mem_cons, List.not_mem_nil, or_false] at he
  rcases he with rfl | rfl <;> exact ⟨⟨head_of (by decide +kernel), rfl, by decide +kernel⟩, by decide +kernel⟩

/-- A message at the south input has its turn. -/
theorem witness_messageDelivery_waits : let m := msgTo 1023; let y0 := portTile m 0
    let y := { y0 with router := { y0.router with queues := [(0, [m, msgTo 0]), (qKey .south 0, [m])], granted := [(18, 0)] } }
    let s := sPort 1071 y
    ArrivedMet s 1071 m ∧ ejects s 1071 (.lane .north 0) = true ∧ ejectGranted s 1071 (.lane .north 0) = false :=
  ⟨⟨head_of (by decide +kernel), rfl, by decide +kernel⟩, by decide +kernel⟩

/-- Eight flits in the FIFO, and no overflow. -/
theorem witness_messageDelivery_full : let m := (msgTo 1023).put 84 3 5; let y := boundTile 1 m 8; let s := sPort 1071 y
    let u := m.dstUnit; let k := m.dstPort
    ArrivedMet s 1071 m ∧ s.tile 1071 = y ∧ firewalled s m m.dstTile = false ∧ isOrphan y m = false ∧ m.gen = y.sect.gen.toNat ∧
    1 ≤ u ∧ u ≤ 6 ∧ m.kind ≠ 5 ∧ y.ovfEn u k = false ∧ m.flits ≤ 8 ∧ (∀ e ∈ y.steerSpill, e.1 ≠ portNo u k) ∧
    8 < (y.port u k).entries + m.flits :=
  ⟨⟨head_of (by decide +kernel), rfl, by decide +kernel⟩, by decide +kernel⟩

/-- The unit of a tile sends to a port of that tile. -/
theorem witness_messageEgress_inTile : let m := (msgTo 1023).put 84 3 5; let y := { portTile m 7 with egress := [(2, m)] }; let s := sPort 1071 y
    let n := (1023 : BitVec 10).toNat; let m1 := egressMsg s n 2 m
    (Canonical s ∧ Runs s ∧ n < s.ntiles ∧ s.phys n = 1071 ∧ s.tile 1071 = y ∧ y.egress = (2, m) :: [] ∧ y.queue 2 = [] ∧
      kindLane m1.kind = kindLane m.kind ∧ y.sect.loading = false ∧ malformed s m1 = false ∧ inTile s n m1 = true ∧
      firewalled s m1 m1.dstTile = false ∧ isOrphan y m1 = false ∧ m1.gen = y.sect.gen.toNat) ∧ FifoTakes y m1.dstUnit m1.dstPort m1 :=
  ⟨by unfold Canonical Runs; decide +kernel, by decide +kernel, by decide +kernel, by decide +kernel, by decide +kernel⟩

/-- A message of one flit at the head of the basin, with room for it and with none. -/
theorem witness_overflowBasinMove : ∀ k ∈ [7, 8], let y0 := portTile (msgTo 1023) 0
    let y := { y0 with ports := [(47, { Port.empty with fifo := List.replicate k (msgTo 1023), inBasin := 1 })] }; let s := sPort 1071 y
    let x := y.port ((47 : BitVec 6).toNat / 8 + 1) ((47 : BitVec 6).toNat % 8); let m := basinHead s 1071 (y.bindBasin 6 7)
    Canonical s ∧ Runs s ∧ s.phys (1023 : BitVec 10).toNat = 1071 ∧ (1023 : BitVec 10).toNat < s.ntiles ∧ (47 : BitVec 6).toNat < 48 ∧
    s.tile 1071 = y ∧ x.inBasin ≠ 0 ∧ m.flits ≤ 8 ∧ (∀ w ∈ y.localList, inInput y w = true) ∧ (x.entries + m.flits ≤ 8 ↔ k = 7) := by
  unfold Canonical Runs; decide +kernel

theorem witness_steerSpillReturn : let w := (msgTo 1023).put 87 4 5
    let y := { portTile (msgTo 1023) 7 with steerSpill := [(47, w), (46, w)] }; let s := sPort 1071 y
    let x := y.port ((47 : BitVec 6).toNat / 8 + 1) ((47 : BitVec 6).toNat % 8)
    Canonical s ∧ Runs s ∧ s.phys (1023 : BitVec 10).toNat = 1071 ∧ (1023 : BitVec 10).toNat < s.ntiles ∧ s.tile 1071 = y ∧
    y.steerSpill = ((47 : BitVec 6).toNat, w) :: [(46, w)] ∧ x.inBasin = 0 ∧ x.entries + w.flits ≤ 8 := by
  unfold Canonical Runs; decide +kernel

end Sys2Proof.Tests
end

