-- ==== Sys2Proof/Tests/WitnessL.lean ====
section
/-! SUPPORT. Witnesses: for the statement about trees, probes and spilled messages (O47), states and operands that meet the
hypotheses of each clause. -/

namespace Sys2Proof.Tests

-- One theorem after the other: each evaluation by the kernel waits for all before it, and would hold a thread while it waits.
set_option Elab.async false

open Sys2Proof.Machine Sys2Proof.Safety

/-- An up message of tree 63 with tag 7, from a unit of logical tile `src`, for the last logical tile. -/
def treeMsg (src unit : Nat) : Msg :=
  (((mkMsg (tileDest 1023 0 0) 7 5 2 false (List.replicate 64 0)).put 34 34 (srcOf part0 src unit)).put 107 6 63).put 119 1 1

/-- Router of the last logical tile, with m at the head of lane 1 of its north input, these instances, and this member entry of tree 63
(Table 7.5). -/
def sTree (m : Msg) (insts : List Inst) (e : Nat × Nat) : State := { part0 with
  trees := [(64 * 1023 + 63, (BitVec.ofNat 64 e.1, BitVec.ofNat 64 e.2))]
  tiles := [(1071, { Tile.reset with
    sect := { TileSect.reset with configured := true, gen := 5 }
    router := { Router.empty with queues := [(1, [m, m])], insts := insts } })] }

/-- A member with this number of children and its own input, up to the node of tile 0; rule FADD. -/
def memberOf (children : Nat) : Nat := 1 + children * 2 + 16

/-- What every clause asks of an input m at lane 1 of the north side of router p. -/
def InputMet (s : State) (p : Nat) (m : Msg) : Prop :=
  HeadOf s p (qKey .north 1) m [m] ∧ nextHop s p m = .tile ∧
  (spreads s p .north m = false ∧ (s.tile p).router.spill = [] ∧ m.ingress = m ∧ firewalled s m m.dstTile = false)

theorem inputMet_of {s : State} {p : Nat} {m : Msg} (h : HeadOf s p (qKey .north 1) m [m]) (hop : nextHop s p m = .tile)
    (k : spreads s p .north m = false ∧ (s.tile p).router.spill = [] ∧ m.ingress = m ∧ firewalled s m m.dstTile = false) :
    InputMet s p m := ⟨h, hop, k⟩

/-- A child's input, and the tile's own. -/
theorem witness_treeInput : ∀ e ∈ [(1022, 1), (1023, 0)], let m := treeMsg e.1 3; let s := sTree m [] (memberOf e.2, 0); let p := (1071 : BitVec 11).toNat
    let src := treeSrc s m m.dstTile
    InputMet s p m ∧ m.down = false ∧
    treeRefuses (s.member m.dstTile m.tree) m src = false ∧ (s.tile p).router.insts = [] ∧
    (src = none ∨ 1 ≤ meChildren (s.member m.dstTile m.tree)) := by
  intro e he
  simp only [List.mem_cons, List.not_mem_nil, or_false] at he
  rcases he with rfl | rfl <;> exact ⟨inputMet_of (head_of (by decide +kernel)) rfl (by decide +kernel), by decide +kernel⟩

/-- An instance of tree 63 with these inputs. -/
def inst0 (l : List TreeIn) (done : Bool) : Inst := ⟨2, 63, 7, 0, l, done, false⟩

/-- The input of the second of two children behind that of the first; and the tile's own behind that of a child. -/
theorem witness_treeInput_joins : ∀ e ∈ [(1021, some 1021, 2), (1023, none, 1)], let m := treeMsg e.1 3
    let x : TreeIn := ⟨some 1022, treeMsg 1022 3⟩; let i := inst0 [x] false
    let s := sTree m [i] (memberOf e.2.2, 0); let p := (1071 : BitVec 11).toNat; let src := treeSrc s m m.dstTile; let y := s.member m.dstTile m.tree
    InputMet s p m ∧ m.down = false ∧
    treeRefuses y m src = false ∧ isList m.rop = false ∧ (s.tile p).router.insts = [i] ∧ i.tree = m.tree ∧ i.tag = m.tag ∧ i.part = m.part ∧
    i.done = false ∧ i.root = false ∧ i.inputs = [x] ∧ x.src ≠ src ∧ x.src = some 1022 ∧ src = e.2.1 ∧ meChildren y = e.2.2 := by
  intro e he
  simp only [List.mem_cons, List.not_mem_nil, or_false] at he
  rcases he with rfl | rfl <;> exact ⟨inputMet_of (head_of (by decide +kernel)) rfl (by decide +kernel), by decide +kernel⟩

/-- A tile that is no member. -/
theorem witness_treeInput_refused : let m := treeMsg 1022 3; let s := sTree m [] (0, 0); let p := (1071 : BitVec 11).toNat
    InputMet s p m ∧ m.down = false ∧ treeRefuses (s.member m.dstTile m.tree) m (treeSrc s m m.dstTile) = true :=
  ⟨inputMet_of (head_of (by decide +kernel)) rfl (by decide +kernel), by decide +kernel⟩

/-- The device's own ID in place of 0xFFFF. -/
def ownOf (s : State) (m : Msg) : Msg := if m.dstDev == 0xFFFF then m.put 0 16 s.deviceId else m

/-- An instance that has its child's input and its own: below a parent; at a chained root, whose tree above is 5; and one of a root that
has its own only. -/
theorem witness_instanceCombined :
    ∀ x ∈ [([(⟨some 1022, treeMsg 1022 3⟩ : TreeIn), ⟨none, treeMsg 1023 3⟩], (memberOf 1, 0), false, false),
      ([⟨some 1022, treeMsg 1022 3⟩, ⟨none, treeMsg 1023 3⟩], (memberOf 1 + 32 + 2 ^ 28 + 5 * 2 ^ 29, 2 ^ 34 + tileDest 1020 0 0), true, true),
      ([⟨none, treeMsg 1023 3⟩], (memberOf 0 + 32, 2 ^ 34 + tileDest 1022 2 3), true, false)],
    let i := inst0 x.1 false; let s := sTree (treeMsg 1022 3) [i] x.2.1; let p := (1071 : BitVec 11).toNat; let e := s.member 1023 (63 : BitVec 6).toNat
    let pay := (i.combined (meRop e)).1; let bad := (i.combined (meRop e)).2 || i.poisoned; let g := (s.tile p).sect.gen.toNat
    let up := upMsgs s 1023 (if meRoot e then meDest e else tileDest (meParent e) 0 0) (if meRoot e then meChainTree e else i.tree) (meRop e)
      i.tag i.part g bad pay
    let out := dataMsgs (srcOf s 1023 0) (meDest e) i.tag g bad pay
    Canonical s ∧ Runs s ∧ s.logical p = some 1023 ∧ (s.tile p).router.insts = [i] ∧ i.tree = (63 : BitVec 6).toNat ∧ i.tag = (7 : BitVec 16).toNat ∧
    i.complete e = true ∧ isList (meRop e) = false ∧ meRoot e = x.2.2.1 ∧ meChain e = x.2.2.2 ∧ up.length = 1 ∧
    (∀ m ∈ up, malformed s (ownOf s m) = false) ∧
    (x.2.2.1 = true → x.2.2.2 = false → meValid e = true ∧ meDown e = false ∧ i.children = [] ∧ out.length = 1 ∧
      ∀ m ∈ out, malformed s (ownOf s m) = false) := by
  unfold Canonical Runs; decide +kernel

/-- At a node with one child, from the root of the same die. -/
theorem witness_downMessage : let m := (treeMsg 1020 0).put 120 1 1; let i := inst0 [⟨some 1022, treeMsg 1022 3⟩] true
    let s := sTree m [i] (memberOf 1, 0); let p := (1071 : BitVec 11).toNat
    let e := s.member m.dstTile m.tree
    let l := (i.children.flatMap (fun c =>
      downMsgs s m.src (tileDest c 0 0) m.tree (meRop e) m.tag m.part (s.tile p).sect.gen.toNat m.poison m.pay)).map (ownOf s)
    InputMet s p m ∧ m.down = true ∧ meIs e = true ∧ m.srcDie = lDie m.dstTile ∧ meDown e = false ∧
    isList (meRop e) = false ∧ (s.tile p).router.insts = [i] ∧ i.tree = m.tree ∧ i.tag = m.tag ∧ i.part = m.part ∧ i.done = true ∧ i.root = false ∧
    i.children = [1022] ∧ (∀ x ∈ l, malformed s x = false) :=
  ⟨inputMet_of (head_of (by decide +kernel)) rfl (by decide +kernel), by decide +kernel⟩

/-- A full input whose head has stood for as long as the threshold. -/
theorem witness_probeSend : let m := msgTo 888
    let s : State := { part0 with
      clk := 4096, tiles := [(935, { Tile.reset with router := { Router.empty with queues := [(12, List.replicate 8 m)], moved := [(12, 0)] } })] }
    let p := (935 : BitVec 11).toNat; let k := qKey .tile (0 : BitVec 2).toNat
    HeadOf s p k m (List.replicate 7 m) ∧ nextHop s p m = .hop 936 .west ∧ s.fabThreshold ≠ 0 ∧ 8 ≤ flitsOf (s.rq p k) ∧ (s.tile p).router.dike = [] ∧
    spreads s p .tile m = false ∧ pDie 936 = pDie p ∧ max 64 s.fabThreshold ≤ s.clk - agetD (s.tile p).router.moved k s.clk ∧
    (∀ x ∈ s.probes, (x.origin, x.key) ≠ (p, k)) :=
  ⟨head_of (by decide +kernel), rfl, by decide +kernel⟩

/-- A probe of router 935 that has come back round to the input it left from, the spillway off, and on. -/
def probeBack : Probe := ⟨935, 12, 4, 935, 9, 0⟩
theorem witness_probe_cycle : ∀ on ∈ [false, true], let e := probeBack
    let s : State := { part0 with
      probes := [e], regs := [(0x201000, 0x1000 + if on then 2 ^ 20 else 0)]
      tiles := [(935, { Tile.reset with router := { Router.empty with queues := [(12, [msgTo 888])] } })] }
    Canonical s ∧ Runs s ∧ s.probes = [e] ∧ e.at_ ≤ s.clk ∧ e.router = e.origin ∧ 3 * e.side + e.key % 3 = e.key ∧
    bitOf (s.reg 0x201000).toNat 20 = on ∧ s.rq e.origin e.key = [msgTo 888] ∧ asorted (s.tile e.origin).router.queues = true ∧
    e.key < 15 ∧ e.key % 3 ≠ 2 ∧ (on = true → (s.tile e.origin).spillFits (msgTo 888).flits = true) := by
  unfold Canonical Runs; decide +kernel

/-- A probe elsewhere: after the last hop it may make, before it at an input that has room, and at a full one. -/
theorem witness_probe_ends : ∀ x ∈ [(1024, 0), (1023, 0), (1023, 8)], let e : Probe := ⟨935, 12, 3, 936, x.1, 0⟩; let m := msgTo 889
    let s : State := { part0 with
      probes := [e], tiles := [(936, { Tile.reset with router := { Router.empty with queues := [(9, List.replicate x.2 m)] } })] }
    Canonical s ∧ Runs s ∧ s.probes = [e] ∧ e.at_ ≤ s.clk ∧ e.router ≠ e.origin ∧ (1024 ≤ e.hops ↔ x.1 = 1024) ∧ e.key % 3 ≠ 2 ∧ e.side < 5 ∧
    (flitsOf (s.rq e.router (3 * e.side + e.key % 3)) < 8 ↔ x.2 = 0) ∧ (s.tile e.router).router.dike = [] ∧
    spreads s e.router (sideOf e.side) m = false ∧ pDie 937 = pDie e.router ∧
    nextHop s e.router m = .hop 937 .west ∧
    (x.2 = 8 → s.rq e.router (3 * e.side + e.key % 3) = m :: List.replicate 7 m) := by
  unfold Canonical Runs; decide +kernel

/-- The next input holds four flits. -/
theorem witness_reInjection : let x : Spilled := ⟨.tile, 0, .msg (msgTo 888)⟩; let m := (msgTo 888).respilled
    let s : State := { part0 with tiles :=
      [(935, { Tile.reset with router := { Router.empty with spill := [x, x] } }),
        (936, { Tile.reset with router := { Router.empty with queues := [(9, List.replicate 4 (msgTo 0))] } })] }
    let p := (935 : BitVec 11).toNat
    nextHop s p m = .hop 936 .west ∧
    (Canonical s ∧ Runs s ∧ (s.tile p).router.spill = x :: [x] ∧ spreads s p x.side m = false ∧ dikeHolds s p x.side m = false ∧
      (s.tile p).router.dike = [] ∧ pDie 936 = pDie p ∧ 936 ≠ p ∧ (s.tile 936).router.spill = [] ∧ granted s p .reinject = true) :=
  ⟨rfl, by unfold Canonical Runs; decide +kernel⟩

end Sys2Proof.Tests
end

