-- ==== Sys2Proof/Tests/WitnessM.lean ====
section
/-! SUPPORT. Witnesses: for the statements about engines, the sampler, firings and sluices (O48 to O51), states and operands that meet
the hypotheses of each clause. -/

namespace Sys2Proof.Tests

-- One theorem after the other: each evaluation by the kernel waits for all before it, and would hold a thread while it waits.
set_option Elab.async false

open Sys2Proof.Machine Sys2Proof.Safety

/-! ## EngineOperationsComplete -/

/-- The operation of descriptor 31 and loop table 15, which signals gauge 2047. -/
def opE : Op := ⟨9, 31, 15, 0, some 2047, true, none⟩

/-- A tile that runs, with that operation and another in the queue of unit u; descriptor and loop table bytes by their offset. -/
def engTile (u : Nat) (d l : List (Nat × Nat × Nat)) : Tile :=
  { Tile.reset with
    cfg := cfgOf (d.map (fun e => (0x27C0 + e.1, e.2)) ++ l.map (fun e => (0x2F80 + e.1, e.2)))
    seq := { Seq.reset with st := .running, holdOp := some 9 }
    sect := { TileSect.reset with configured := true, gen := 5, run := 1 }
    queues := [(u, [opE, op0])] }

theorem engine_of {s : State} {n : BitVec 10} {u p : Nat} {op : Op} {rest : List Op}
    (h : s.mem.wf = true ∧ s.stopped = false ∧ n.toNat < s.ntiles ∧ s.phys n.toNat = p ∧ (s.tile p).live = true ∧
      (s.tile p).queue u = op :: rest ∧ op.out = none ∧ ∀ w ∈ (s.tile p).localList, inInput (s.tile p) w = true) :
    AtEngine s n u p op rest where
  canonical := h.1
  runs := h.2.1
  present := h.2.2.1
  place := h.2.2.2.1
  live := h.2.2.2.2.1
  queue := h.2.2.2.2.2.1
  fresh := h.2.2.2.2.2.2.1
  clean := h.2.2.2.2.2.2.2

/-- MMA, ATTN, an operation of the vector engine and of the reduction unit, DISPATCH, COMBINE and a conversion. -/
theorem witness_engines : ∀ e ∈ [(1, 1), (1, 2), (2, 1), (3, 1), (5, 0x40), (5, 0x41), (5, 0x10)], let y := engTile e.1 [(0, 2, e.1 + 256 * e.2)] []
    let s := sProg y; let d := (s.tile 1071).desc opE.desc
    AtEngine s 1023 e.1 1071 opE [op0] ∧ leAt d 1 1 = e.2 := by
  intro e he
  simp only [List.mem_cons, List.not_mem_nil, or_false] at he
  rcases he with rfl | rfl | rfl | rfl | rfl | rfl | rfl <;> exact ⟨engine_of (by decide +kernel), by decide +kernel⟩

/-! ## EngineResults -/

/-- An MMA of BF16 with write, zskip and init 1, of one row segment with K = 128: every block of its row is zero. -/
theorem witness_mma : let y := { engTile 1 [(0, 5, 1 + 2 ^ 8 + 2 ^ 16 + 2 ^ 24 + 13 * 2 ^ 32)]
      [(0, 4, 0x03000000), (4, 4, 0x03001000), (8, 4, 0x03002000), (32, 3, 1), (48, 3, 1 + 2 ^ 20), (64, 3, 1 + 2 * 2 ^ 20)] with acc := [(0, 7), (3, 9)] }
    let s := sProg y; let p := 1071; let op := opE; let d := (s.tile p).desc op.desc; let l := (s.tile p).loopT op.loop
    let pt := [0, 0, 0, 0, 0, 0]; let chunk (k : Nat) := aChunkAt s p op.swaps d (loopStream l 0) (mmaAddr l 0 (pt.set 0 k))
    AtEngine s 1023 1 p op [op0] ∧ leAt d 1 1 = 1 ∧ segPoints l = [pt] ∧ asorted (s.tile p).acc = true ∧ mmaWrite d = true ∧
    mmaZskip d = true ∧ mmaInit d = 1 ∧ ((loopLevels l).getD 0 ⟨0, 0, []⟩).bound = 1 ∧
    (∀ k, k < 1 → ∀ j, j < chunkElems (mmaA d) / zeroBlock (mmaA d) (mmaB d) →
      (chunk k).zero (mmaA d) (zeroBlock (mmaA d) (mmaB d)) j = true) :=
  ⟨engine_of (by decide +kernel), by decide +kernel⟩

/-- One loop point of an addition, to tile store; and a reduction of both axes. -/
theorem witness_vector_reduction :
    ∀ e ∈ [(2, 2 + 256), (3, 3 + 256 + 2 * 2 ^ 24)], let y := engTile e.1 [(0, 4, e.2)] [(0, 4, 0x01000000), (4, 4, 0x01001000), (8, 4, 0x01002000), (32, 3, 1)]
    let s := sProg y; let p := 1071; let op := opE; let d := (s.tile p).desc op.desc; let l := (s.tile p).loopT op.loop
    AtEngine s 1023 e.1 p op [op0] ∧ loopPoints (loopLevels l) = [[0, 0, 0, 0, 0, 0]] ∧ (loopStream l 2).enabled = true ∧ vLoc d 2 = 0 ∧
    (e.1 = 3 → rNet d = false ∧ rAxis d = 2) := by
  intro e he
  simp only [List.mem_cons, List.not_mem_nil, or_false] at he
  rcases he with rfl | rfl <;> exact ⟨engine_of (by decide +kernel), by decide +kernel⟩

/-! ## SamplerAndCombine -/

/-- A sampler operation of one row of 64 columns, with its root on the same tile (Table 5.8). -/
def samplerTile (op : Nat) : Tile := engTile 4 [(0, 4, 4 + 256 * op + 2 ^ 24), (12, 8, 64 + 64 * 2 ^ 32)] [(0, 4, 0x03000000), (8, 4, 0x01002000)]

/-- That tile as the one node of tree 0 of its die, root and local input at once (Table 7.5). -/
def sSampler (y : Tile) : State := { sProg y with trees := [(64 * 1023, (49, 0))] }

/-- The place of a logical tile that is not displaced. -/
theorem phys_of {s : State} (h : s.displaced = []) {a b : Nat} (ha : a < 1024) (hb : b < 1024) (e : s.phys a = s.phys b) : a = b := by
  simp only [State.phys, h, agetD, aget?, Option.getD_none, pOf, lDie, lX, lY] at e
  omega

theorem witness_sampler : ∀ op ∈ [1, 2], let y := samplerTile op; let s := sSampler y; let root : Part4 := ⟨1023, 1071, opE, y.desc 31, y.loopT 15⟩
    AtRoot s 1023 op root := by
  intro op h
  have part : ∀ y : Tile, frontOp (sSampler y) 1023 4 = some (1071, opE) → (sSampler y).tile 1071 = y →
      part4 (sSampler y) (1023 : BitVec 10).toNat = some ⟨1023, 1071, opE, y.desc 31, y.loopT 15⟩ := by
    intro y h1 h2
    show part4 (sSampler y) 1023 = _
    simp only [part4, h1, Option.map_some, h2]
    rfl
  simp only [List.mem_cons, List.not_mem_nil, or_false] at h
  have all : ∀ {s : State} {n : BitVec 10} {op : Nat} {root : Part4}, part4 s n.toNat = some root → s.displaced = [] → s.ntiles ≤ 1024 →
      s.mem.wf = true ∧ s.stopped = false ∧ leAt root.d 1 1 = op ∧ sRoot root.d = true → slicesCover (partners s root) = true →
      treeJoins s (lDie root.n) (Machine.sTree root.d) ((partners s root).map (·.n)) = true ∧
        (∀ w ∈ (s.tile root.p).localList, inInput (s.tile root.p) w = true) → AtRoot s n op root :=
    fun h hd hn ⟨h1, h2, h3, h4⟩ h5 ⟨h6, h7⟩ =>
      ⟨h1, h2, h, h3, h4, h5, h6, h7, fun a b ha hb e => phys_of hd (by omega) (by omega) e⟩
  rcases h with rfl | rfl <;>
    exact all (part _ (by decide +kernel) (by decide +kernel)) rfl (by decide +kernel) (by decide +kernel) (by decide +kernel) (by decide +kernel)

/-- A COMBINE of one column of one row, of which one contribution is due: it has come, and has not. -/
theorem witness_combine : ∀ e ∈ [([(0, 0, 0, 1, false)], true), ([], false)],
    let y := { engTile 5 [(0, 6, 5 + 256 * 0x41 + 2 ^ 32)] [(4, 4, 0x01000400), (8, 4, 0x01002000), (12, 4, 0x01003000)] with collect := ⟨e.1, false⟩ }
    let s : State := { sProg y with mem := part0.mem.putBytes (tileBase 1071 + 0x400) (leBytes 8 (2 ^ 12)) }
    let d := (s.tile 1071).desc opE.desc; let l := (s.tile 1071).loopT opE.loop
    AtEngine s 1023 5 1071 opE [op0] ∧ leAt d 1 1 = 0x41 ∧ ((s.tile 1071).basin (cBasin d)).used = 0 ∧ cRows d = 1 ∧ cWidth d = 1 ∧
    collected s 1071 opE d l = e.2 := by
  intro e he
  simp only [List.mem_cons, List.not_mem_nil, or_false] at he
  rcases he with rfl | rfl <;> exact ⟨engine_of (by decide +kernel), by decide +kernel⟩

/-! ## FiringsAndSluices -/

/-- Unit u fires on the ports of `mask`, which hold these messages; descriptor 0 has these bytes, and loop table 0 one level. -/
def fireTile (u mask : Nat) (ms : List Msg) (d : Nat) : Tile :=
  { Tile.reset with
    cfg := cfgOf [(0x2000, 4, d), (0x2820, 3, 1), (0x3000 + 8 * u, 4, 1 + mask * 256)]
    seq := { Seq.reset with st := .running }
    sect := { TileSect.reset with configured := true, gen := 5, run := 1 }
    ports := (ms.zipIdx).map (fun e => (8 * (u - 1) + e.2, { Port.empty with fifo := [e.1, e.1] })) }

/-- A data message with a payload of n bytes. -/
def dataMsg (n : Nat) : Msg := mkMsg (tileDest 1023 6 7) 7 5 0 false (List.replicate n 1)

theorem firing_of {s : State} {n : BitVec 10} {u p : Nat} (h : s.mem.wf = true ∧ s.stopped = false ∧ canFire s n.toNat u = some p ∧
    ∀ w ∈ (s.tile p).localList, inInput (s.tile p) w = true) : AtFiring s n u p where
  canonical := h.1
  runs := h.2.1
  fires := h.2.2.1
  clean := h.2.2.2

/-- Two whole rows; a payload that is no whole row. -/
theorem witness_matrixStreamedFiring : ∀ e ∈ [(512, 0), (64, 64)], let m := dataMsg e.1; let y := fireTile 1 1 [m] (1 + 256 + 2 ^ 16 + 2 ^ 24); let s := sProg y
    let rec_ := aRecord (y.desc 0) ((loopLevels (y.loopT 0)).getD 0 ⟨0, 0, []⟩).bound
    AtFiring s 1023 1 1071 ∧ s.tile 1071 = y ∧ (firingPort y 1).bind (portHead s 1071 1) = some m ∧ m.pay.length % rec_ = e.2 ∧ rec_ ≠ 0 := by
  intro e he
  simp only [List.mem_cons, List.not_mem_nil, or_false] at he
  rcases he with rfl | rfl <;> exact ⟨firing_of (by decide +kernel), by decide +kernel⟩

/-- Both units with as many accesses on each port, and the vector engine with one and two. -/
theorem witness_streamedFiring : ∀ e ∈ [(2, 256, true), (3, 256, true), (2, 512, false)],
    let y := fireTile e.1 3 [dataMsg 256, dataMsg e.2.1] (e.1 + 256); let s := sProg y
    let counts := ((vPortOperands (y.desc 0)).zip (firingTokens s 1071 2)).map (fun x => accessCount x.2.pay.length (vFireG (y.desc 0)) (vFmt (y.desc 0) x.1))
    AtFiring s 1023 e.1 1071 ∧ s.tile 1071 = y ∧ ((∃ c ∈ counts, c ≠ counts.headD 0) ↔ e.2.2 = false) := by
  intro e he
  simp only [List.mem_cons, List.not_mem_nil, or_false] at he
  rcases he with rfl | rfl | rfl <;> exact ⟨firing_of (by decide +kernel), by decide +kernel⟩

/-- A control message: this select and run count. -/
def ctlMsg (select n : Nat) : Msg := mkMsg (tileDest 1023 6 7) 7 5 1 false (bytesOf [(4, n + select * 2 ^ 16), (60, 0)])

/-- Sluice 3 of this kind, on the ports 5, 6 and 7, with the routes of `enabled`; these messages wait there. -/
def sluiceTile (kind enabled : Nat) (a b c : List Msg) : Tile :=
  { Tile.reset with
    cfg := cfgOf [(0x3200 + 192, 5, kind + 5 * 2 ^ 8 + 6 * 2 ^ 16 + 7 * 2 ^ 24 + enabled * 2 ^ 32)]
    seq := { Seq.reset with st := .running }
    sect := { TileSect.reset with configured := true, gen := 5, run := 1 }
    ports := [(45, { Port.empty with fifo := a }), (46, { Port.empty with fifo := b }), (47, { Port.empty with fifo := c })] }

theorem sluice_of {s : State} {n : BitVec 10} {p : Nat} (h : s.mem.wf = true ∧ s.stopped = false ∧ n.toNat < s.ntiles ∧
    s.phys n.toNat = p ∧ (s.tile p).live = true ∧ (s.tile p).isFinished 6 = false ∧
    ∀ w ∈ (s.tile p).localList, inInput (s.tile p) w = true) : AtSluice s n p where
  canonical := h.1
  runs := h.2.1
  present := h.2.2.1
  place := h.2.2.2.1
  live := h.2.2.2.2.1
  unfinished := h.2.2.2.2.2.1
  clean := h.2.2.2.2.2.2

theorem witness_fork : let m := dataMsg 64; let y := sluiceTile 4 15 [m] [] []; let s := sProg y; let e := y.sluiceEntry (3 : BitVec 2).toNat
    AtSluice s 1023 1071 ∧ s.tile 1071 = y ∧ slKind e = 4 ∧ slPortA e < 8 ∧ portHead s 1071 6 (slPortA e) = some m ∧
    (List.range 4).filter (slEnabled e) = [0, 1, 2, 3] :=
  ⟨sluice_of (by decide +kernel), by decide +kernel⟩

/-- A switch to an enabled route, and to one that is not; a merge of port B; a gate that is shut; each with the last token of its run,
or with one to follow. -/
theorem witness_switchMergeGate : ∀ x ∈ [(1, 4, 2, 1, 5, true), (1, 4, 3, 2, 5, false), (2, 1, 1, 1, 6, true), (3, 1, 0, 2, 5, false)],
    let m := dataMsg 64; let ctl := ctlMsg x.2.2.1 x.2.2.2.1; let y := sluiceTile x.1 x.2.1 [m] [m] [ctl]; let s := sProg y
    let e := y.sluiceEntry (3 : BitVec 2).toNat; let z := slRun (y.sluice (3 : BitVec 2).toNat) ctl
    AtSluice s 1023 1071 ∧ s.tile 1071 = y ∧ 1 ≤ slKind e ∧ slKind e ≤ 3 ∧ portHead s 1071 6 (slPortC e) = some ctl ∧
    slDataPort e z = x.2.2.2.2.1 ∧ portHead s 1071 6 (slDataPort e z) = some m ∧ slDataPort e z < 8 ∧ slPortC e < 8 ∧ slDataPort e z ≠ slPortC e ∧
    ((slTarget e z).isSome = true ↔ x.2.2.2.2.2 = true) ∧ z.remaining = x.2.2.2.1 := by
  intro e he
  simp only [List.mem_cons, List.not_mem_nil, or_false] at he
  rcases he with rfl | rfl | rfl | rfl <;> exact ⟨sluice_of (by decide +kernel), by decide +kernel⟩

/-- A sluice that is not used; and one without a control token. -/
theorem witness_sluice_waits : ∀ k ∈ [0, 3],
    let m := dataMsg 64; let y := sluiceTile k 15 [m] [m] []; let s := sProg y; let e := y.sluiceEntry (3 : BitVec 2).toNat
    AtSluice s 1023 1071 ∧ s.tile 1071 = y ∧ (slKind e = 0 ∨ slKind e ≤ 3 ∧ portHead s 1071 6 (slPortC e) = none) := by
  intro e he
  simp only [List.mem_cons, List.not_mem_nil, or_false] at he
  rcases he with rfl | rfl <;> exact ⟨sluice_of (by decide +kernel), by decide +kernel⟩

end Sys2Proof.Tests
end

