-- ==== Sys2Proof/Tests/WitnessN.lean ====
section
/-! SUPPORT. Witnesses: for the statements about the whole part, packets turned away and errors met (O52 to O60), states and operands
that meet the hypotheses of each clause. -/

namespace Sys2Proof.Tests

-- One theorem after the other: each evaluation by the kernel waits for all before it, and would hold a thread while it waits.
set_option Elab.async false

open Sys2Proof.Machine Sys2Proof.Safety

/-! ## The whole part -/

/-- A command that waits in front of another; a part that stands; a cycle that runs, and two that are skipped. -/
theorem witness_step :
    ({ part0 with pending := [.ready, .linkWindowClose] } : State).pending = .ready :: [.linkWindowClose] ∧
    State.reset.pending = [] ∧ State.reset.stopped = true ∧
    ∀ e ∈ [((0 : Nat), (0 : Nat), false), (1, 63, true), (1, 62, false)],
      let s : State := { part0 with power := { part0.power with skip := e.1, frame := e.2.1 } }
      s.pending = [] ∧ Runs s ∧ skips s = e.2.2 := by
  unfold Runs; decide +kernel

/-- A part that runs, one that stands, and two whose front command the spec gives no meaning. -/
theorem witness_canonical : ∀ s ∈ [part0, State.reset,
      ({ part0 with pending := [.jtagAccess (.other 5)], part := { Part.reset with debugOpen := true } } : State)], Canonical s := by
  unfold Canonical; decide +kernel

theorem witness_stands : Canonical State.reset ∧ State.reset.stopped = true ∧ ofBoard .ready = false ∧ ofBoard .linkWindowClose = false := by
  unfold Canonical; decide +kernel

/-- A gauge that holds a value before PERST_N is asserted and before FABRIC_RESET. -/
theorem witness_gaugesAtReset : let s := post { part0 with gauges := { part0.gauges with gauges := [(1, { Gauge.reset with value := 3 })] } } .priv 0xF0 []
    s.power.perst = false ∧ (s.gauge 1).value = 3 ∧ Takes s .priv 0xF0 [] (pkt s .priv) :=
  ⟨by decide +kernel, by decide +kernel, takes_of (by decide +kernel)⟩

/-- The first and the last event of each range and those between, with their vector; the vector open, and masked. -/
theorem witness_eventVectors :
    (∀ e ∈ [(0x4000, 1), (0x4FFF, 1), (0x5000, 2), (0x5FFF, 2), (0x1250, 2), (0x2301, 2), (0x2302, 2), (0x3301, 2), (0x3302, 2), (0x6000, 3), (0x6FFF, 3)],
      ((0x4000 ≤ e.1 ∧ e.1 < 0x5000 ∧ e.2 = 1) ∨
        ((0x5000 ≤ e.1 ∧ e.1 < 0x6000 ∨ e.1 = 0x1250 ∨ e.1 = 0x2301 ∨ e.1 = 0x2302 ∨ e.1 = 0x3301 ∨ e.1 = 0x3302) ∧ e.2 = 2) ∨
        (0x6000 ≤ e.1 ∧ e.1 < 0x7000 ∧ e.2 = 3))) ∧
    ∀ v ∈ [1, 2, 3], ∀ m ∈ [0, 1],
      (({ part0 with regs := [(0x8000 + 16 * v + 12, BitVec.ofNat 64 m)] } : State).reg (0x8000 + 16 * v + 12)).getLsbD 0 = (m == 1) := by
  decide +kernel

/-- E5M2 has a number, an infinity and a NaN; MXINT8 and NVFP4 (scales of 16) have numbers; the scales at both ends. -/
theorem witness_blockScales :
    (fmtIsBlock 9 = true ∧ decElem 9 0x3C = .fin false 4 (-2) ∧ decElem 9 0xFC = .inf true ∧ decElem 9 0x7D = .nan) ∧
    (∀ c ∈ [8, 13, 16, 18], fmtIsBlock c = true) ∧ ∀ x ∈ [0, 254], x ≤ 254 := by
  decide +kernel

/-! ## PacketsTurnedAway -/

/-- A packet that reads with poison, one whose indirect block does, and ones of no known opcode. -/
theorem witness_packetsTurnedAway : ∀ e ∈ [(0x40, 8, [2 ^ 40 / 64 + 64], stPoisoned), (0x40, 64, [(hostBase + 0x8000) / 64], stPoisoned),
      (0x00, 8, [], stBadOpcode), (0xFF, 8, [], stBadOpcode)],
    let s0 := post { part0 with mem := { part0.mem with poison := e.2.2.1 } } (.user 0) e.1 (List.replicate e.2.1 1)
    let s := s0.modRing 0 (fun g => { g with tail := 0 }); let r := ringNo (.user 0); let x := s.ring r; let pa := 2 ^ 40 + 0x3000
    let s1 := ({ s with mem := s.mem.write pa (leBytes 4 (1 : W32).toNat ++ leBytes 4 (0 : W32).toNat) false } : State).modRing r
      (fun g => { g with tail := 1, cplHead := 0 })
    let p := pkt s1 (.user 0)
    Canonical s ∧ Runs s ∧ (aget? s.rings r).isSome = true ∧ x.enabled = true ∧ hostUp s = true ∧ x.line.toNat % 64 = 0 ∧
    s.place x.line.toNat = some pa ∧ tileAt x.line.toNat = none ∧ x.halted = false ∧ haltCause s1 r = none ∧ (1 : W32) = x.head + 1 ∧
    nextPkt s1 r = some p ∧
    (p.poison = true ∧ e.2.2.2 = stPoisoned ∨ p.poison = false ∧ p.op ∉ userOps ∧ p.op ∉ privOps ∧ e.2.2.2 = stBadOpcode) := by
  intro e he
  simp only [List.mem_cons, List.not_mem_nil, or_false] at he
  unfold Canonical Runs
  rcases he with rfl | rfl | rfl | rfl <;> decide +kernel

/-- `Posted`, as a computation. -/
def posted (s : State) (ring : Ring) (op : Nat) : Bool :=
  let p := pkt s ring
  decide (Sound ring ∧ (∀ e ∈ s.weirs, e.2.rate = 256 ∧ e.2.held = [] ∧ e.2.granted = []) ∧ s.mem.wf = true ∧ s.stopped = false ∧
    nextPkt s (ringNo ring) = some p ∧ p.op = op ∧ autoStatus (ringNo ring) p = none ∧
    (s.ring (ringNo ring)).tail = (s.ring (ringNo ring)).head + 1)

theorem posted_of {s : State} {ring : Ring} {op : Nat} (h : posted s ring op = true) : Posted s ring op (pkt s ring) :=
  have ⟨rings, weirs, rest⟩ := of_decide_eq_true h
  { sound := rings, unheld := unheld_of weirs _, canonical := rest.1, runs := rest.2.1, next := rest.2.2.1, code := rest.2.2.2.1
    form := rest.2.2.2.2.1, last := rest.2.2.2.2.2 }

/-- Every command of the privileged ring, on a user ring. -/
theorem witness_denied : ∀ e ∈ privCommands (.user 0) true false 1 ⟨0, 8, 0, 0⟩,
    let s := post part0 (.user 0) e.2.1 [BitVec.ofNat 8 (e.2.2.getD 0)]; let p := pkt s (.user 0)
    ringNo (.user 0) < 64 ∧ Posted s (.user 0) e.2.1 p ∧ (∀ f, e.2.2 = some f → p.b 8 1 = f) := by
  have h : (privCommands (.user 0) true false 1 ⟨0, 8, 0, 0⟩).all (fun e =>
      let s := post part0 (.user 0) e.2.1 [BitVec.ofNat 8 (e.2.2.getD 0)]
      posted s (.user 0) e.2.1 && e.2.2.all (fun f => decide ((pkt s (.user 0)).b 8 1 = f))) = true := by decide +kernel
  intro e he
  have := List.all_eq_true.mp h e he
  simp only [Bool.and_eq_true] at this
  exact ⟨by decide, posted_of this.1, some_all this.2⟩

/-! ## DetectedErrorsReplayRuns -/

/-- A running run of image 3 that has been replayed n times. -/
def runN (n : Nat) (committed : Bool) : Run := { run0 with phase := .running, replays := n, committed := committed, gen := 5 }

/-- Every engine with an operation in its queue, on a tile of a run that may be replayed, of one that has been replayed twice, and of a
committed one; the first and the last structure of Table 6.6 that ends a run. -/
theorem witness_detectedErrors : ∀ x ∈ [(0, 1, 1), (1, 1, 2), (2, 2, 1), (3, 3, 1), (4, 5, 0x40), (5, 5, 0x10)],
    ∀ z ∈ [(1, 1, false), (5, 2, false), (5, 0, true)],
    let c := BitVec.ofNat 3 z.1; let r := runN z.2.1 z.2.2
    let s : State := { sProg (engTile x.2.1 [(0, 2, x.2.1 + 256 * x.2.2)] []) with runs := [r], images := [img0] }
    ∃ e, (issuedOps 1023 (some (.parity c)))[x.1]? = some e ∧ AtEngine s 1023 e.2.1 1071 opE [op0] ∧
      e.2.2 (leAt ((s.tile 1071).desc opE.desc) 1 1) = true ∧ 1 ≤ c.toNat ∧ c.toNat ≤ 5 ∧ s.tileRun 1071 = some r ∧ r.phase = .running ∧
      (r.committed = false ∧ r.replays < 2 ∨ r.committed = true ∨ 2 ≤ r.replays) := by
  intro x hx z hz
  simp only [List.mem_cons, List.not_mem_nil, or_false] at hx hz
  rcases hx with rfl | rfl | rfl | rfl | rfl | rfl <;> rcases hz with rfl | rfl | rfl <;>
    exact ⟨_, rfl, engine_of (by decide +kernel), by decide +kernel⟩

end Sys2Proof.Tests
end

section
/-! SUPPORT. Rules of the tile program: what a write of one tile leaves, how a step retires, and what a step fault leaves. -/

namespace Sys2Proof.TileProofs

open Sys2Proof.Machine Sys2Proof.Safety Sys2Proof.Laws

/-! ## A state that differs in one tile -/

@[simp] theorem tile_setTile_self (s : State) (p : Nat) (y : Tile) : (s.setTile p y).tile p = y := by
  rw [tile_setTile, if_pos rfl]

@[simp] theorem setTile_setTile (s : State) (p : Nat) (y z : Tile) : (s.setTile p y).setTile p z = s.setTile p z := by
  simp [State.setTile, aput_aput]

@[simp] theorem modTile_setTile (s : State) (p : Nat) (y : Tile) (f : Tile → Tile) :
    (s.setTile p y).modTile p f = s.setTile p (f y) := by
  simp [State.modTile]

theorem modTile_eq_setTile (s : State) (p : Nat) (f : Tile → Tile) : s.modTile p f = s.setTile p (f (s.tile p)) := rfl

theorem only_setTile (s : State) (p : Nat) (y : Tile) : Only [.tiles] s (s.setTile p y) := by
  refine ⟨rfl, rfl, fun k hk => ?_⟩
  cases k <;> simp [Kind.same] at hk ⊢

/-- A command that leaves memory as it is ends with the frame that its meaning has. -/
theorem done_frame {s x : State} {l : List Kind} (hr : s.stopped = false) (hc : s.mem.wf = true) (hm : x.mem = s.mem)
    (h : Only l s x) : Only l s (done s x) := by
  rw [done_still hr hc hm]
  exact ⟨rfl, rfl, fun k hk => by have := h.2.2 k hk; cases k <;> exact this⟩

/-- A command whose meaning writes one tile and leaves memory as it is. -/
theorem becomes_of_tiles {s x : State} {p : Nat} {y : Tile} {l : List Kind} (hr : s.stopped = false) (hc : s.mem.wf = true)
    (hm : x.mem = s.mem) (ht : x.tiles = (s.setTile p y).tiles) (h : Only (.tiles :: l) s x) : TileBecomes s (done s x) p y l := by
  have tile_x (q : Nat) : (done s x).tile q = (s.setTile p y).tile q := by
    rw [done_tile hr]; unfold State.tile; rw [ht]
  exact ⟨by rw [tile_x, tile_setTile_self], fun q hq => by rw [tile_x, tile_setTile, if_neg hq], done_frame hr hc hm h⟩

/-- A command whose meaning writes one tile and nothing else. -/
theorem becomes_setTile {s : State} (hr : s.stopped = false) (hc : s.mem.wf = true) (p : Nat) (y : Tile) :
    TileBecomes s (done s (s.setTile p y)) p y [] :=
  becomes_of_tiles hr hc rfl rfl (only_setTile s p y)

/-! ## Steps -/

theorem atStep_at {s : State} {n : BitVec 10} {op p w : Nat} (h : AtStep s n op p w) : atStep s n.toNat op = some (p, w) := by
  obtain ⟨_, _, present, rfl, ready, rfl, code, _, _⟩ := h
  simp [atStep, present, ready, code]

/-- A step that is read whole has the effect of its opcode (R48). -/
theorem withStep_at {s : State} {n : BitVec 10} {op p w : Nat} (h : AtStep s n op p w) (f : Nat → Nat → State) :
    withStep s n.toNat op false f = f p w := by
  simp [withStep, atStep_at h, h.sound, h.plain]

/-- The sequencer goes on with step k, where nothing stops it (R47). -/
theorem seqGo_on {s : State} {p k : Nat} (h : RunsOn (s.tile p) k) :
    seqGo s p k = s.setTile p (atNext (s.tile p) k s.clk) := by
  obtain ⟨inside, one, halt, brk⟩ := h
  simp [seqGo, Nat.not_le.mpr inside, one, halt, brk, State.noteProgress, modTile_eq_setTile, atNext, Tile.modSeq]

/-- The step at hand retires into the next one. -/
theorem retire_on {s : State} {p : Nat} (h : RunsOn (s.tile p) (nextIdx (s.tile p))) :
    retire s p = s.setTile p (atNext (s.tile p) (nextIdx (s.tile p)) s.clk) := seqGo_on h

/-- After a write of its tile a step retires from the tile as written. -/
theorem retire_setTile (s : State) {p : Nat} {y : Tile} (h : RunsOn y (nextIdx y)) :
    retire (s.setTile p y) p = s.setTile p (atNext y (nextIdx y) s.clk) := by
  have := retire_on (s := s.setTile p y) (p := p) (by rw [tile_setTile_self]; exact h)
  rwa [tile_setTile_self, setTile_setTile] at this

theorem setSeqState_eq (s : State) (p : Nat) (q : SeqState) :
    setSeqState s p q = s.setTile p { s.tile p with seq := { (s.tile p).seq with st := q } } := rfl

/-! ## Step faults -/

/-- A job fault whose event is logged, raised by a meaning that has written tiles and logged events (R360). -/
theorem jobFaultCore_leaves {s x : State} (hr : s.stopped = false) (hc : s.mem.wf = true) (code : Nat) (ctx run : Option Nat)
    (status : Nat) (tl : Assoc Tile) (lg : Log) (v : Nat) (w : List Nat)
    (hx : x = { s with tiles := tl, log := lg, host := { s.host with vecPending := v, vecSent := w } }) :
    Faulted s (done s (x.jobFaultCore code ctx run status)) code ctx := by
  obtain ⟨g, scr, mv, us, ec, h1, h2⟩ := jobFaultCore_shape x code ctx run status _ rfl
  subst hx
  rw [ec]
  refine ⟨by rw [done_health _ _ hr]; rfl, by rw [done_health _ _ hr]; rfl, sweeps_self hr hc rfl rfl rfl ⟨rfl, rfl⟩ rfl h1 h2,
    done_only hr hc (by simp [sweptKinds]) (fun k hk => ?_)⟩
  cases k <;> simp [sweptKinds, Kind.same, State.resetFabric] at hk ⊢

theorem tileCtx_of_sect {s t : State} {p : Nat} (h : (t.tile p).sect = (s.tile p).sect) : t.tileCtx p = s.tileCtx p := by
  unfold State.tileCtx; rw [h]

/-- A step fault is a job fault of the tile's section with the fault's own event, whatever the step has written of its tiles
(R49, R360). -/
theorem stepFault_leaves {s x : State} (hr : s.stopped = false) (hc : s.mem.wf = true) (p code : Nat)
    (hx : x = { s with tiles := x.tiles }) (hs : (x.tile p).sect = (s.tile p).sect) :
    Faulted s (done s (stepFault x p code)) code (s.tileCtx p) := by
  unfold stepFault State.tileFault State.jobFault
  generalize hz : x.modTile p _ = z
  have z_tiles : z = { s with tiles := z.tiles } := by rw [← hz, hx]; rfl
  have z_ctx : z.tileCtx p = s.tileCtx p := tileCtx_of_sect (by rw [← hz, tile_modTile_self]; exact hs)
  dsimp only
  rw [z_ctx]
  generalize detailOf _ = d
  obtain ⟨lg, v, w, e⟩ := event_shape z code 0 ((z.logical p).getD 0) (s.tileCtx p) d
  rw [e, z_tiles]
  exact jobFaultCore_leaves hr hc code _ _ _ z.tiles lg v w rfl

theorem stepFault_self {s : State} (hr : s.stopped = false) (hc : s.mem.wf = true) (p code : Nat) :
    Faulted s (done s (stepFault s p code)) code (s.tileCtx p) :=
  stepFault_leaves hr hc p code rfl rfl

/-- A parity failure of a configuration word is poison met by the step (R48, R155). -/
theorem cfgParityFault_leaves {s : State} (hr : s.stopped = false) (hc : s.mem.wf = true) (p : Nat) :
    Faulted s (done s (cfgParityFault s p)) 0x4113 (s.tileCtx p) :=
  stepFault_leaves hr hc p evPoisonStep rfl (by rw [tile_modTile_self]; rfl)

end Sys2Proof.TileProofs
end

section
/-! PROOFS. ISSUE: the queues of the engines, the stall on a full one, and the step faults (R48, R50). -/

namespace Sys2Proof.TileProofs

open Sys2Proof.Machine Sys2Proof.Safety Sys2Proof.Laws

/-- The operation that step word w of tile y issues (Table 2.10). -/
def issuedOp (y : Tile) (w : Nat) : Op :=
  { id := y.opId, desc := fld w 49 5, loop := fld w 45 4, swaps := y.swaps,
    signal := if bitOf w 43 then some (fld w 32 11) else none, hold := bitOf w 44, out := none }

/-- Tile y with the operation of step word w in its queue. -/
def withIssued (y : Tile) (w : Nat) : Tile :=
  { y with queues := aput y.queues (fld w 54 4) (y.queue (fld w 54 4) ++ [issuedOp y w]), opId := y.opId + 1
           seq := { y.seq with holdOp := if bitOf w 44 then some y.opId else y.seq.holdOp } }

/-- The operation of an ISSUE enters its queue, and the next step follows. -/
theorem queueOp_on {s : State} {p w : Nat} (h : RunsOn (s.tile p) (nextIdx (s.tile p))) :
    queueOp s p w = s.setTile p (atNext (withIssued (s.tile p) w) (nextIdx (s.tile p)) s.clk) := by
  have queued : queueOp s p w = retire (s.setTile p (withIssued (s.tile p) w)) p := by
    unfold queueOp withIssued
    cases hw : bitOf w 44 <;> simp [issuedOp, hw, Tile.setQueue, Tile.modSeq]
  rw [queued]
  exact retire_setTile s (y := withIssued (s.tile p) w) ⟨h.inside, h.free⟩

/-- What an ISSUE does whose step word is read whole: a poisoned descriptor or loop table, a failing check, or the queue. -/
theorem exec_issue_at {s : State} {n : BitVec 10} {p w : Nat} (h : AtStep s n 1 p w) :
    exec (.issue n false) s = .next (done s (if issueMarked (s.tile p) w then stepFault s p evPoisonStep else
      (issueFail (s.tile p) (fld w 54 4) (fld w 49 5) (fld w 45 4)).elim
        (if ((s.tile p).queue (fld w 54 4)).length < 4 then queueOp s p w else setSeqState s p .stallIssue) (stepFault s p))) := by
  obtain ⟨_, _, present, rfl, ready, rfl, code, plain, sound⟩ := h
  simp only [exec, execIssue, present, ready, code, plain, sound, decide_true, Bool.and_self, beq_self_eq_true, Bool.true_or,
    if_true, Bool.false_eq_true, if_false, Bool.not_false, Bool.true_and, bne_self_eq_false, Bool.or_self]
  cases issueFail _ _ _ _ <;> rfl

/-- A stalled ISSUE queues its operation once a slot is free. -/
theorem exec_issueQueueSlotFree_at {s : State} {n : BitVec 10} {p w : Nat} (h : HeldAt s n .stallIssue p w)
    (room : ((s.tile p).queue (fld w 54 4)).length < 4) :
    exec (.issueQueueSlotFree n) s = .next (done s (queueOp s p w)) := by
  obtain ⟨_, _, rfl, held, rfl⟩ := h
  simp only [exec, execIssueQueueSlotFree, held, beq_self_eq_true, Bool.true_and, decide_eq_true room, if_true]

/-- The step faults of ISSUE that need no operation: a parity failure, a mark, an absent opcode, a set RSV bit (R48, R155). -/
theorem exec_issue_unread {s : State} {n : BitVec 10} (parity : Bool) (present : n.toNat < s.ntiles)
    (ready : seqReady (s.ltile n.toNat) = true) :
    let y := s.ltile n.toNat
    let w := y.step64 y.seq.idx.toNat
    (stepOp w = 1 ∨ stepOp w ∉ stepOps) →
    parity = true ∨ y.cfgMarked (8 * y.seq.idx.toNat) 8 = true ∨ stepOp w ≠ 1 ∨ stepRsv w = true ∨ issueMarked y w = true →
    exec (.issue n parity) s = .next (done s (if parity then cfgParityFault s (s.phys n.toNat)
      else if y.cfgMarked (8 * y.seq.idx.toNat) 8 = true ∨ stepOp w = 1 ∧ stepRsv w = false ∧ issueMarked y w = true then
        stepFault s (s.phys n.toNat) evPoisonStep
      else stepFault s (s.phys n.toNat) evStep)) := by
  intro y w op bad
  have hop : (stepOp w == 1 || !stepOps.contains (stepOp w)) = true := by simpa using op
  have hy : s.tile (s.phys n.toNat) = y := rfl
  simp only [exec, execIssue, hy, present, show seqReady y = true from ready, show y.step64 y.seq.idx.toNat = w from rfl, hop,
    decide_true, Bool.and_self, if_true]
  cases parity
  case true => rfl
  cases hm : y.cfgMarked (8 * y.seq.idx.toNat) 8
  case true => simp
  by_cases h1 : stepOp w = 1
  case neg => simp [h1]
  cases hr : stepRsv w <;> cases hi : issueMarked y w <;> simp_all

/-- Settles O41: the branches of ISSUE, each with the rule of the queue, the stall or the fault it ends in. -/
theorem issueQueuesOrStalls : Obligations.IssueQueuesOrStalls := by
  unfold Obligations.IssueQueuesOrStalls
  refine ⟨?_, ?_, ?_, ?_⟩
  · intro n s p w h y u op unmarked passes
    refine ⟨fun room on => ⟨_, exec_issue_at h, ?_⟩, fun full => ⟨_, exec_issue_at h, ?_⟩⟩
    · rw [unmarked, passes, Option.elim_none, if_pos room, queueOp_on on]
      exact becomes_setTile h.runs h.canonical p _
    · rw [unmarked, passes, Option.elim_none, if_neg (Nat.not_lt.mpr full)]
      exact becomes_setTile h.runs h.canonical p _
  · intro n s p w h y u op room on
    refine ⟨_, exec_issueQueueSlotFree_at h room, ?_⟩
    rw [queueOp_on on]
    exact becomes_setTile h.runs h.canonical p _
  · intro n s p w e h unmarked fails
    refine ⟨_, exec_issue_at h, ?_⟩
    rw [unmarked, fails, Option.elim_some]
    exact stepFault_self h.runs h.canonical p e
  · rintro n s p hc hr present rfl ready w marked
    refine ⟨fun op => ⟨_, exec_issue_unread true present ready op (.inl rfl), cfgParityFault_leaves hr hc _⟩, fun bad => ?_, fun sound bad => ?_⟩
    · refine ⟨_, exec_issue_unread false present ready (by tauto) (by tauto), ?_⟩
      rw [if_neg Bool.false_ne_true, if_pos (by tauto)]
      exact stepFault_self hr hc _ _
    · have one (hw : stepOp w ∉ stepOps) : stepOp w ≠ 1 := fun e => hw (by simp [e, stepOps])
      refine ⟨_, exec_issue_unread false present ready (by tauto) (by tauto), ?_⟩
      rw [if_neg Bool.false_ne_true, if_neg]
      · exact stepFault_self hr hc _ _
      · rintro (hm | ⟨h1, h2, _⟩)
        · exact Bool.false_ne_true (sound.symm.trans hm)
        · rcases bad with ⟨_, hb⟩ | hb
          · exact Bool.false_ne_true (h2.symm.trans hb)
          · exact one hb h1

end Sys2Proof.TileProofs
end

section
/-! PROOFS. Gauge messages of the sequencer: SIGNAL_GAUGE, WAIT_GAUGE, the gauge queue and its fences (R51, R197, R200). -/

namespace Sys2Proof.TileProofs

open Sys2Proof.Machine Sys2Proof.Safety Sys2Proof.Laws

/-- No operation waits in an engine's queue. -/
theorem queues_idle_iff (y : Tile) :
    (List.range 5).any (fun u => !(y.queue (u + 1)).isEmpty) = false ↔ ∀ u, 1 ≤ u → u ≤ 5 → y.queue u = [] := by
  simp only [List.any_eq_false, List.mem_range, Bool.not_eq_true', Bool.not_eq_false, List.isEmpty_iff]
  constructor
  · intro h u h1 h5
    have := h (u - 1) (by omega)
    rwa [Nat.sub_add_cancel h1] at this
  · exact fun h u hu => h (u + 1) (by omega) (by omega)

/-- Nothing waits before a gauge message of tile y, and no fence holds it (R197). -/
def GaugeFree (y : Tile) (fence : Bool) : Prop := y.gq = [] ∧ (fence = true → ∀ u, 1 ≤ u → u ≤ 5 → y.queue u = [])

theorem gaugeFree_unfenced {y : Tile} (h : y.gq = []) : GaugeFree y false := ⟨h, fun h => absurd h Bool.false_ne_true⟩

/-- The test by which `seqGauge` sends at once. -/
theorem gaugeFree_iff (y : Tile) (fence : Bool) : GaugeFree y fence ↔
    (y.gq.isEmpty && !(fence && (List.range 5).any (fun u => !(y.queue (u + 1)).isEmpty))) = true := by
  unfold GaugeFree
  rw [← queues_idle_iff]
  cases fence <;> cases (List.range 5).any _ <;> simp

theorem seqGauge_free {s : State} {p : Nat} {fence : Bool} (m : Msg) (h : GaugeFree (s.tile p) fence) :
    seqGauge s p m fence = some (s.setTile p { s.tile p with egress := (s.tile p).egress ++ [(0, m)] }) := by
  simp only [seqGauge, if_pos ((gaugeFree_iff _ _).mp h)]; rfl

theorem seqGauge_waits {s : State} {p : Nat} {fence : Bool} (m : Msg) (h : ¬ GaugeFree (s.tile p) fence) (room : (s.tile p).gq.length < 8) :
    seqGauge s p m fence =
      some (s.setTile p { s.tile p with gq := (s.tile p).gq ++ [⟨if fence then some (s.tile p).opId else none, m⟩] }) := by
  simp only [seqGauge, if_neg (mt (gaugeFree_iff _ _).mpr h), if_pos room]

theorem seqGauge_full {s : State} {p : Nat} {fence : Bool} (m : Msg) (h : ¬ GaugeFree (s.tile p) fence) (full : 8 ≤ (s.tile p).gq.length) :
    seqGauge s p m fence = none := by
  simp only [seqGauge, if_neg (mt (gaugeFree_iff _ _).mpr h), if_neg (Nat.not_lt.mpr full)]

/-! ## SIGNAL_GAUGE and WAIT_GAUGE -/

/-- The ADD or SET of a SIGNAL_GAUGE step word (Table 2.10). -/
def signalMsg (y : Tile) (p w : Nat) : Msg := gaugeMsg p y.sect.gen.toNat (fld w 47 11) (b2n (bitOf w 46)) (fld w 0 32) 0

theorem exec_signalGauge_at {s : State} {n : BitVec 10} {p w : Nat} (h : AtStep s n 3 p w) :
    exec (.signalGauge n false) s = .next (done s (doSignalGauge s p w)) := by
  rw [show exec (.signalGauge n false) s = execSignalGauge n false s from rfl, execSignalGauge, withStep_at h]

theorem exec_waitGauge_at {s : State} {n : BitVec 10} {p w : Nat} (h : AtStep s n 2 p w) :
    exec (.waitGauge n false) s = .next (done s (doWaitGauge s p w)) := by
  rw [show exec (.waitGauge n false) s = execWaitGauge n false s from rfl, execWaitGauge, withStep_at h]

/-- A SIGNAL_GAUGE whose message `seqGauge` takes, leaving tile y, retires. -/
theorem doSignalGauge_taken {s : State} {p w : Nat} {y : Tile}
    (h : seqGauge s p (signalMsg (s.tile p) p w) (bitOf w 45) = some (s.setTile p y)) (on : RunsOn y (nextIdx y)) :
    doSignalGauge s p w = s.setTile p (atNext y (nextIdx y) s.clk) := by
  unfold doSignalGauge
  dsimp only
  rw [← signalMsg, h]
  exact retire_setTile s on

theorem doSignalGauge_full {s : State} {p w : Nat} (h : seqGauge s p (signalMsg (s.tile p) p w) (bitOf w 45) = none) :
    doSignalGauge s p w = setSeqState s p .stallEgress := by
  unfold doSignalGauge
  dsimp only
  rw [← signalMsg, h]

/-- A SIGNAL_GAUGE stalled on a full gauge queue runs again. -/
theorem exec_gaugeQueueFree_signal {s : State} {n : BitVec 10} {p w : Nat} (h : HeldAt s n .stallEgress p w) (op : stepOp w = 3) :
    exec (.gaugeQueueFree n none) s = .next (done s (doSignalGauge s p w)) := by
  obtain ⟨_, _, rfl, held, rfl⟩ := h
  simp only [exec, execGaugeQueueFree, held, beq_self_eq_true, if_true, op]

/-- The WAIT of a WAIT_GAUGE step word (R200). -/
def waitMsg (y : Tile) (p w : Nat) : Msg := gaugeMsg p y.sect.gen.toNat (fld w 47 11) 2 (fld w 0 32) (y.timeoutEntry (fld w 45 2))

/-- A WAIT_GAUGE whose message `seqGauge` takes, leaving tile y, gates the sequencer. -/
theorem doWaitGauge_taken {s : State} {p w : Nat} {y : Tile} (h : seqGauge s p (waitMsg (s.tile p) p w) false = some (s.setTile p y)) :
    doWaitGauge s p w = s.setTile p { y with seq := { y.seq with
      st := .waitGauge
      gwait := some ⟨fld w 47 11, BitVec.ofNat 32 (fld w 0 32), s.clk, (s.tile p).timeoutEntry (fld w 45 2), none, 0, 0⟩ } } := by
  unfold doWaitGauge
  dsimp only
  rw [← waitMsg, h]
  exact modTile_setTile s p y _

theorem doWaitGauge_full {s : State} {p w : Nat} (h : seqGauge s p (waitMsg (s.tile p) p w) false = none) :
    doWaitGauge s p w = setSeqState s p .stallEgress := by
  unfold doWaitGauge
  dsimp only
  rw [← waitMsg, h]

/-! ## The gauge queue and its fences -/

/-- An older operation than fence f stands in an engine's queue. -/
def Older (y : Tile) (f : Nat) : Prop := ∃ u, 1 ≤ u ∧ u ≤ 5 ∧ ∃ o ∈ y.queue u, o.id < f

theorem older_iff (y : Tile) (f : Nat) : (List.range 5).any (fun u => (y.queue (u + 1)).any (fun o => o.id < f)) = true ↔ Older y f := by
  simp only [List.any_eq_true, List.mem_range, decide_eq_true_eq, Older]
  constructor
  · rintro ⟨u, hu, o, ho⟩
    exact ⟨u + 1, by omega, by omega, o, ho⟩
  · rintro ⟨u, h1, h5, o, ho⟩
    exact ⟨u - 1, by omega, o, by rwa [Nat.sub_add_cancel h1]⟩

theorem releaseGqGo_nil (k clk : Nat) {y : Tile} (h : y.gq = []) : releaseGqGo k clk y = y := by
  cases k <;> simp [releaseGqGo, h]

/-- The message at the head leaves when no operation before its fence is left. -/
theorem releaseGqGo_free (k clk : Nat) {y : Tile} {e : GqEntry} {r : List GqEntry} (h : y.gq = e :: r)
    (free : ∀ f, e.fence = some f → ¬ Older y f) (noWait : leAt e.msg.pay 2 1 ≠ 2) :
    releaseGqGo (k + 1) clk y = releaseGqGo k clk { y with gq := r, egress := y.egress ++ [(0, e.msg)] } := by
  have hw : (leAt e.msg.pay 2 1 == 2) = false := beq_false_of_ne noWait
  cases hf : e.fence with
  | none => simp [releaseGqGo, h, hf, hw, Tile.emit]
  | some f =>
    have := mt (older_iff y f).mp (free f hf)
    simp only [releaseGqGo, h, hf, hw, if_neg this, Bool.false_eq_true, if_false]; rfl

/-- A message whose fence holds it keeps those behind it, too. -/
theorem releaseGqGo_held (k clk : Nat) {y : Tile} {e : GqEntry} {r : List GqEntry} {f : Nat} (h : y.gq = e :: r)
    (fenced : e.fence = some f) (older : Older y f) : releaseGqGo k clk y = y := by
  cases k with
  | zero => rfl
  | succ k => simp only [releaseGqGo, h, fenced, if_pos ((older_iff y f).mpr older)]

/-- All messages leave in order, where nothing holds them and none is a WAIT. -/
theorem releaseGqGo_all (clk : Nat) (l : List GqEntry) : ∀ (k : Nat) (y : Tile), y.gq = l → l.length ≤ k →
    (∀ e ∈ l, (∀ f, e.fence = some f → ¬ Older y f) ∧ leAt e.msg.pay 2 1 ≠ 2) →
    releaseGqGo k clk y = { y with gq := [], egress := y.egress ++ l.map (fun e => (0, e.msg)) } := by
  induction l with
  | nil =>
    intro k y h _ _
    rw [releaseGqGo_nil k clk h, List.map_nil, List.append_nil, ← h]
  | cons e r ih =>
    intro k y h hk free
    obtain ⟨k, rfl⟩ : ∃ j, k = j + 1 := ⟨k - 1, by simp at hk; omega⟩
    obtain ⟨unfenced, noWait⟩ := free e List.mem_cons_self
    rw [releaseGqGo_free k clk h unfenced noWait]
    exact (ih k { y with gq := r, egress := y.egress ++ [(0, e.msg)] } rfl (by simpa using hk)
      (fun e he => free e (List.mem_cons_of_mem _ he))).trans (by simp)

theorem exec_fenceRelease_at {s : State} {n : BitVec 10} (h : n.toNat < s.ntiles) :
    exec (.fenceRelease n) s = .next (done s (s.modTile (s.phys n.toNat) (releaseGqGo 9 s.clk))) := by
  rw [show exec (.fenceRelease n) s = execFenceRelease n s from rfl, execFenceRelease, if_pos h, releaseGq]

/-- Settles O42: the branches of `seqGauge` under each step, and the release of the gauge queue up to a fence. -/
theorem gaugeMessagesOfSequencer : Obligations.GaugeMessagesOfSequencer := by
  unfold Obligations.GaugeMessagesOfSequencer
  refine ⟨?_, ?_, ?_, ?_⟩
  · intro n s p w h y m free
    refine ⟨fun hf on => ⟨_, exec_signalGauge_at h, ?_⟩, fun hf room on => ⟨_, exec_signalGauge_at h, ?_⟩,
      fun hf full => ⟨_, exec_signalGauge_at h, ?_⟩⟩
    · rw [doSignalGauge_taken (seqGauge_free _ hf) ⟨on.inside, on.free⟩]
      exact becomes_setTile h.runs h.canonical p _
    · rw [doSignalGauge_taken (seqGauge_waits _ hf room) ⟨on.inside, on.free⟩]
      exact becomes_setTile h.runs h.canonical p _
    · rw [doSignalGauge_full (seqGauge_full _ hf full)]
      exact becomes_setTile h.runs h.canonical p _
  · intro n s p w h y m gated
    refine ⟨fun empty => ⟨_, exec_waitGauge_at h, ?_⟩, fun queued room => ⟨_, exec_waitGauge_at h, ?_⟩,
      fun full => ⟨_, exec_waitGauge_at h, ?_⟩⟩
    · rw [doWaitGauge_taken (seqGauge_free _ (gaugeFree_unfenced empty))]
      exact becomes_setTile h.runs h.canonical p _
    · rw [doWaitGauge_taken (seqGauge_waits _ (fun hf => queued hf.1) room)]
      exact becomes_setTile h.runs h.canonical p _
    · have queued : y.gq ≠ [] := fun e => by rw [e] at full; simp at full
      rw [doWaitGauge_full (seqGauge_full _ (fun hf => queued hf.1) full)]
      exact becomes_setTile h.runs h.canonical p _
  · intro n s p w h op room on queued y m
    refine ⟨_, exec_gaugeQueueFree_signal h op, ?_⟩
    rw [doSignalGauge_taken (seqGauge_waits _ (fun hf => queued hf.1) room) ⟨on.inside, on.free⟩]
    exact becomes_setTile h.runs h.canonical p _
  · rintro n s p hc hr present rfl y older
    refine ⟨fun len free => ⟨_, exec_fenceRelease_at present, ?_⟩, fun e r f hq fenced old => ⟨_, exec_fenceRelease_at present, ?_⟩⟩
    · rw [modTile_eq_setTile, releaseGqGo_all s.clk y.gq 9 y rfl (by omega) free]
      exact becomes_setTile hr hc _ _
    · rw [modTile_eq_setTile, releaseGqGo_held 9 s.clk hq fenced old]
      exact becomes_setTile hr hc _ _

end Sys2Proof.TileProofs
end

section
/-! PROOFS. SEND: its message, the room that it waits for, and its step faults (R52, R197). -/

namespace Sys2Proof.TileProofs

open Sys2Proof.Machine Sys2Proof.Safety Sys2Proof.Laws

/-- Bytes of a SEND's payload that lie below the spillway. -/
def sendBytes (y : Tile) (w : Nat) : Nat := min (64 * (fld w 47 6 + 1)) (y.spillBase - fld w 0 24)

/-- The header that a SEND makes of its template (R52). -/
def sendHdr (y : Tile) (w : Nat) : Nat :=
  hset (hset (hset (leAt (y.desc (fld w 53 5)) 0 16) 68 16 (fld w 31 16)) 91 6 (fld w 47 6 + 1 - 1)) 84 3 y.sect.gen.toNat

/-- The message of the SEND with step word w (R52, log 12). -/
def sentMsg (s : State) (p w : Nat) : Msg :=
  let n := sendBytes (s.tile p) w
  ⟨BitVec.ofNat 128 (if n ≠ 0 ∧ s.mem.poisoned (tileBase p + fld w 0 24) n = true then hset (sendHdr (s.tile p) w) 97 1 1
      else sendHdr (s.tile p) w),
    s.mem.read (tileBase p + fld w 0 24) n ++ leBytes (64 * (fld w 47 6 + 1) - n) (Config.freeWord s.free), none, []⟩

/-- The state s after reads whose lines the host had, and after free values drawn. -/
def drawn (s : State) (a : List Nat) (b : Assoc Nat) (f : Nat) : State := { seen s a b with free := f }

/-- `sendMsg` builds the message of the step, and draws at most a free value. -/
theorem sendMsg_eq (s : State) (a : List Nat) (b : Assoc Nat) (p w : Nat) :
    ∃ f, sendMsg (seen s a b) p w = (sentMsg s p w, drawn s a b f) := by
  have flag (n : Nat) (c : Bool) (x y : Nat) : (if (n != 0 && c) = true then x else y) = if n ≠ 0 ∧ c = true then x else y := by
    simp
  unfold sendMsg
  dsimp only
  split
  case isTrue h =>
    refine ⟨s.free, Prod.ext ?_ rfl⟩
    have none_left : 64 * (fld w 47 6 + 1) - sendBytes (s.tile p) w = 0 := by
      rw [Nat.sub_eq_zero_iff_le]; exact Nat.le_of_eq (beq_iff_eq.mp h).symm
    simp only [sentMsg, none_left, flag, leBytes, List.append_nil]; rfl
  case isFalse h =>
    refine ⟨s.free + 1, Prod.ext ?_ rfl⟩
    simp only [sentMsg, flag]; rfl

/-- The source of a SEND lies on a word and in the store, and its descriptor is sound (R52). -/
structure SendSound (y : Tile) (w : Nat) : Prop where
  aligned : fld w 0 24 % 64 = 0
  inside : fld w 0 24 + 64 * (fld w 47 6 + 1) ≤ 0x1000000
  sound : y.cfgMarked (0x2000 + 64 * fld w 53 5) 64 = false

/-- The place that a SEND's message takes is full: the gauge queue for a gauge message, else the egress buffer. -/
def SendFull (y : Tile) (w : Nat) : Prop := if sendsGauge y w = true then y.gq.length = 8 else 8 ≤ y.sends

theorem doSend_full {s : State} {p w : Nat} (h : SendSound (s.tile p) w) (full : SendFull (s.tile p) w) (u : Option Upset) :
    doSend s p w u = setSeqState s p .stallEgress := by
  obtain ⟨aligned, inside, sound⟩ := h
  unfold SendFull at full
  unfold doSend sendRange
  simp only [aligned, bne_self_eq_false, Bool.false_eq_true, if_false, gt_iff_lt, if_neg (Nat.not_lt.mpr inside), sound]
  cases hg : sendsGauge (s.tile p) w <;> simp [hg] at full ⊢ <;> intro h <;> omega

theorem doSend_on {s : State} {p w : Nat} (h : SendSound (s.tile p) w) (room : ¬ SendFull (s.tile p) w)
    (clean : ∀ k ∈ (s.tile p).localList, inInput (s.tile p) k = true) :
    ∃ a b f, doSend s p w none =
      if sendsGauge (s.tile p) w then
        (seqGauge (drawn s a b f) p (sentMsg s p w) false).elim (drawn s a b f) (fun x => retire x p)
      else retire ((drawn s a b f).modTile p (fun x => x.emit 0 (sentMsg s p w))) p := by
  obtain ⟨aligned, inside, sound⟩ := h
  obtain ⟨a, b, hm⟩ := meet_clean s p [sendRange w] clean
  obtain ⟨f, hs⟩ := sendMsg_eq s a b p w
  refine ⟨a, b, f, ?_⟩
  have room' : ¬ (if sendsGauge (s.tile p) w then (s.tile p).gq.length == 8 else decide ((s.tile p).sends ≥ 8)) = true := by
    unfold SendFull at room
    cases hg : sendsGauge (s.tile p) w <;> simpa [hg] using room
  unfold doSend
  simp only [hm, hs, if_neg room', sound, Bool.false_eq_true, if_false]
  simp only [sendRange, aligned, bne_self_eq_false, Bool.false_eq_true, if_false, gt_iff_lt,
    if_neg (Nat.not_lt.mpr inside)]
  cases seqGauge (drawn s a b f) p (sentMsg s p w) false <;> rfl

/-- A state drawn and written in one tile. -/
theorem becomes_drawn {s : State} (hr : s.stopped = false) (hc : s.mem.wf = true) (a : List Nat) (b : Assoc Nat) (f p : Nat) (y : Tile) :
    TileBecomes s (done s ((drawn s a b f).setTile p y)) p y [.snoops, .free] := by
  refine becomes_of_tiles hr hc rfl rfl ⟨rfl, rfl, fun k hk => ?_⟩
  cases k <;> simp [Kind.same, drawn, seen] at hk ⊢

/-- The message of a sound SEND, with room for it, leaves at once: a gauge message when none waits before it. -/
theorem doSend_leaves {s : State} {p w : Nat} (h : SendSound (s.tile p) w) (room : ¬ SendFull (s.tile p) w)
    (clean : ∀ k ∈ (s.tile p).localList, inInput (s.tile p) k = true) (first : sendsGauge (s.tile p) w = true → (s.tile p).gq = [])
    (on : RunsOn (s.tile p) (nextIdx (s.tile p))) : ∃ a b f, doSend s p w none = (drawn s a b f).setTile p
      (atNext { s.tile p with egress := (s.tile p).egress ++ [(0, sentMsg s p w)] } (nextIdx (s.tile p)) s.clk) := by
  obtain ⟨a, b, f, e⟩ := doSend_on h room clean
  refine ⟨a, b, f, ?_⟩
  have retires := retire_setTile (drawn s a b f) (p := p)
    (y := { s.tile p with egress := (s.tile p).egress ++ [(0, sentMsg s p w)] }) ⟨on.inside, on.free⟩
  rw [e]
  cases hg : sendsGauge (s.tile p) w with
  | false => exact retires
  | true =>
    rw [if_pos rfl, seqGauge_free (s := drawn s a b f) _ (gaugeFree_unfenced (first hg))]
    exact retires

/-- A gauge message of a SEND joins the gauge queue when others wait there. -/
theorem doSend_queues {s : State} {p w : Nat} (h : SendSound (s.tile p) w) (gauge : sendsGauge (s.tile p) w = true)
    (clean : ∀ k ∈ (s.tile p).localList, inInput (s.tile p) k = true) (queued : (s.tile p).gq ≠ []) (room : (s.tile p).gq.length < 8)
    (on : RunsOn (s.tile p) (nextIdx (s.tile p))) : ∃ a b f, doSend s p w none = (drawn s a b f).setTile p
      (atNext { s.tile p with gq := (s.tile p).gq ++ [⟨none, sentMsg s p w⟩] } (nextIdx (s.tile p)) s.clk) := by
  obtain ⟨a, b, f, e⟩ := doSend_on h (by unfold SendFull; rw [if_pos gauge]; omega) clean
  refine ⟨a, b, f, ?_⟩
  rw [e, if_pos gauge, seqGauge_waits (s := drawn s a b f) _ (fun free => queued free.1) room]
  exact retire_setTile (drawn s a b f) (y := { s.tile p with gq := (s.tile p).gq ++ [⟨none, sentMsg s p w⟩] }) ⟨on.inside, on.free⟩

theorem exec_send_at {s : State} {n : BitVec 10} {p w : Nat} (h : AtStep s n 4 p w) :
    exec (.send n false none) s = .next (done s (doSend s p w none)) := by
  rw [show exec (.send n false none) s = execSend n false none s from rfl, execSend, withStep_at h]

/-- A SEND stalled on the egress buffer runs again. -/
theorem exec_egressBufferFree_at {s : State} {n : BitVec 10} {p w : Nat} (h : HeldAt s n .stallEgress p w) (op : stepOp w = 4)
    (data : sendsGauge (s.tile p) w = false) :
    exec (.egressBufferFree n none) s = .next (done s (doSend s p w none)) := by
  obtain ⟨_, _, rfl, held, rfl⟩ := h
  simp only [exec, execEgressBufferFree, held, op, data, beq_self_eq_true, Bool.not_false, Bool.and_self, if_true]

/-- The step faults of SEND, in the order of its checks. -/
theorem doSend_faults {s : State} (p w : Nat) (u : Option Upset) :
    (fld w 0 24 % 64 ≠ 0 → doSend s p w u = stepFault s p evStep) ∧
    (fld w 0 24 % 64 = 0 → 0x1000000 < fld w 0 24 + 64 * (fld w 47 6 + 1) → doSend s p w u = stepFault s p evShape) ∧
    (fld w 0 24 % 64 = 0 → fld w 0 24 + 64 * (fld w 47 6 + 1) ≤ 0x1000000 →
      (s.tile p).cfgMarked (0x2000 + 64 * fld w 53 5) 64 = true → doSend s p w u = stepFault s p evPoisonStep) := by
  unfold doSend sendRange
  refine ⟨fun h => ?_, fun h0 h1 => ?_, fun h0 h1 h2 => ?_⟩
  · simp only [bne_iff_ne.mpr h, if_true]
  · simp only [h0, bne_self_eq_false, Bool.false_eq_true, if_false, gt_iff_lt, if_pos h1]
  · simp only [h0, bne_self_eq_false, Bool.false_eq_true, if_false, gt_iff_lt, if_neg (Nat.not_lt.mpr h1), h2, if_true]

/-- Settles O43: the message that `sendMsg` builds, where the step sends, queues or stalls it, and the order of its checks. -/
theorem sendBuildsMessage : Obligations.SendBuildsMessage := by
  unfold Obligations.SendBuildsMessage
  refine ⟨?_, ?_, ?_, ?_⟩
  · intro s p w y l src n h bad m aligned inside sound on clean
    have ok : SendSound (s.tile p) w := ⟨aligned, inside, sound⟩
    refine ⟨fun data free => ?_, fun gauge k hk => ?_⟩
    · have room : ¬ SendFull (s.tile p) w := by
        unfold SendFull
        rw [if_neg (ne_true_of_eq_false data)]
        exact Nat.not_le.mpr free
      obtain ⟨a, b, f, e⟩ := doSend_leaves ok room clean (fun hg => absurd hg (ne_true_of_eq_false data)) on
      refine ⟨fun k hk => ⟨_, exec_send_at hk, ?_⟩, fun k hk op => ⟨_, exec_egressBufferFree_at hk op data, ?_⟩⟩
      · rw [e]; exact becomes_drawn hk.runs hk.canonical a b f p _
      · rw [e]; exact becomes_drawn hk.runs hk.canonical a b f p _
    · have room (hl : (s.tile p).gq.length < 8) : ¬ SendFull (s.tile p) w := by
        unfold SendFull
        rw [if_pos gauge]
        exact Nat.ne_of_lt hl
      refine ⟨fun empty => ⟨_, exec_send_at hk, ?_⟩, fun queued hl => ⟨_, exec_send_at hk, ?_⟩⟩
      · obtain ⟨a, b, f, e⟩ := doSend_leaves ok (room (by rw [show (s.tile p).gq = [] from empty]; decide)) clean (fun _ => empty) on
        rw [e]; exact becomes_drawn hk.runs hk.canonical a b f p _
      · obtain ⟨a, b, f, e⟩ := doSend_queues ok gauge clean queued hl on
        rw [e]; exact becomes_drawn hk.runs hk.canonical a b f p _
  · intro n s p w h aligned inside
    refine ⟨fun sound full => ⟨_, exec_send_at h, ?_⟩, fun marked => ⟨_, exec_send_at h, ?_⟩⟩
    · rw [doSend_full ⟨aligned, inside, sound⟩ full]
      exact becomes_setTile h.runs h.canonical p _
    · rw [(doSend_faults p w none).2.2 aligned inside marked]
      exact stepFault_self h.runs h.canonical p _
  · intro n s p w h odd
    refine ⟨_, exec_send_at h, ?_⟩
    rw [(doSend_faults p w none).1 odd]
    exact stepFault_self h.runs h.canonical p _
  · intro n s p w h aligned beyond
    refine ⟨_, exec_send_at h, ?_⟩
    rw [(doSend_faults p w none).2.1 aligned beyond]
    exact stepFault_self h.runs h.canonical p _

end Sys2Proof.TileProofs
end

section
/-! PROOFS. WATCH, SWAP, BRANCH and END, and a sequencer that runs out of its timeout while it waits to send WAIT again (R48, R53-R55,
R200). -/

namespace Sys2Proof.TileProofs

open Sys2Proof.Machine Sys2Proof.Safety Sys2Proof.Laws

/-! ## WATCH -/

/-- Tile y with the predicate of a WATCH step word set as the condition says. -/
def watched (y : Tile) (w : Nat) (b : Bool) : Tile :=
  { y with seq := { y.seq with preds := BitVec.ofNat 8 (putBit y.seq.preds.toNat (fld w 46 3) b), watchDeadline := none } }

/-- The deadline of a WATCH that starts at this clock (R53). -/
def watchDue (y : Tile) (w clk : Nat) : Option Nat :=
  if y.timeoutEntry (fld w 49 2) = 0 then none else some (clk + y.timeoutEntry (fld w 49 2))

/-- A WATCH that ends sets its predicate, and the next step follows. -/
theorem watch_ends {s : State} {p : Nat} (w : Nat) (b : Bool) (on : RunsOn (s.tile p) (nextIdx (s.tile p))) :
    retire (setPred s p (fld w 46 3) b) p = s.setTile p (atNext (watched (s.tile p) w b) (nextIdx (s.tile p)) s.clk) :=
  retire_setTile s (y := watched (s.tile p) w b) ⟨on.inside, on.free⟩

theorem exec_watch_at {s : State} {n : BitVec 10} {p w : Nat} (h : AtStep s n 5 p w) :
    exec (.watch n false) s = .next (done s (if fld w 54 4 = 0 ∨ 7 < fld w 54 4 then stepFault s p evStep
      else if watchTrue s p w then retire (setPred s p (fld w 46 3) true) p
      else s.setTile p { s.tile p with seq := { (s.tile p).seq with st := .watch, watchDeadline := watchDue (s.tile p) w s.clk } })) := by
  rw [show exec (.watch n false) s = execWatch n false s from rfl, execWatch, withStep_at h]
  simp [modTile_eq_setTile, Tile.modSeq, watchDue]

theorem exec_watchReevaluate_at {s : State} {n : BitVec 10} {p w : Nat} (h : HeldAt s n .watch p w) (holds : watchTrue s p w = true) :
    exec (.watchReevaluate n) s = .next (done s (retire (setPred s p (fld w 46 3) true) p)) := by
  obtain ⟨_, _, rfl, held, rfl⟩ := h
  simp only [exec, execWatchReevaluate, held, holds, beq_self_eq_true, Bool.and_self, if_true]

theorem exec_watchTimeout_at {s : State} {n : BitVec 10} {p w d : Nat} (h : HeldAt s n .watch p w)
    (due : (s.tile p).seq.watchDeadline = some d) (past : d ≤ s.clk) :
    exec (.watchTimeout n) s = .next (done s (retire (setPred s p (fld w 46 3) (watchTrue s p w)) p)) := by
  obtain ⟨_, _, rfl, held, rfl⟩ := h
  simp only [exec, execWatchTimeout, held, due, past, beq_self_eq_true, decide_true, Bool.and_self, if_true]

/-! ## SWAP, BRANCH, END -/

theorem exec_swap_at {s : State} {n : BitVec 10} {p w : Nat} (h : AtStep s n 6 p w) (on : RunsOn (s.tile p) (nextIdx (s.tile p))) :
    exec (.swap n false) s = .next (done s (s.setTile p
      (atNext { s.tile p with swaps := (s.tile p).swaps ^^^ fld w 50 8 } (nextIdx (s.tile p)) s.clk))) := by
  rw [show exec (.swap n false) s = execSwap n false s from rfl, execSwap, withStep_at h]
  exact congrArg (fun x => Host.Outcome.next (done s x))
    (retire_setTile s (y := { s.tile p with swaps := (s.tile p).swaps ^^^ fld w 50 8 }) ⟨on.inside, on.free⟩)

/-- The tile after the counters of a BRANCH. -/
def branched (y : Tile) (w : Nat) : Tile := { y with seq := { y.seq with ctrs := (branchTaken y.seq w).2 } }

/-- A BRANCH within the program goes to its target when it is taken, and on otherwise. -/
theorem exec_branch_at {s : State} {n : BitVec 10} {p w k : Nat} (h : AtStep s n 7 p w) (target : fld w 0 10 < (s.tile p).progLen)
    (hk : k = if (branchTaken (s.tile p).seq w).1 then fld w 0 10 else nextIdx (s.tile p)) (on : RunsOn (s.tile p) k) :
    exec (.branch n false) s = .next (done s (s.setTile p (atNext (branched (s.tile p) w) k s.clk))) := by
  rw [show exec (.branch n false) s = execBranch n false s from rfl, execBranch, withStep_at h]
  dsimp only
  rw [if_neg (Nat.not_le.mpr target)]
  have goes := seqGo_on (s := s.setTile p (branched (s.tile p) w)) (p := p) (k := k) (by rw [tile_setTile_self]; exact ⟨on.inside, on.free⟩)
  rw [tile_setTile_self, setTile_setTile] at goes
  refine congrArg (fun x => Host.Outcome.next (done s x)) (Eq.trans ?_ goes)
  subst hk
  cases (branchTaken (s.tile p).seq w).1
  · simp only [Bool.false_eq_true, if_false, retire, nextIdx]
    rw [show ((s.setTile p _).tile p) = _ from tile_setTile_self s p _]; rfl
  · rfl

theorem exec_branch_beyond {s : State} {n : BitVec 10} {p w : Nat} (h : AtStep s n 7 p w) (beyond : (s.tile p).progLen ≤ fld w 0 10) :
    exec (.branch n false) s = .next (done s (stepFault s p evBranch)) := by
  rw [show exec (.branch n false) s = execBranch n false s from rfl, execBranch, withStep_at h]
  dsimp only
  rw [if_pos beyond]

theorem exec_endProgram_at {s : State} {n : BitVec 10} {p w : Nat} (h : AtStep s n 0x3F p w) :
    exec (.endProgram n false) s = .next (done s (s.setTile p
      ({ s.tile p with seq := { (s.tile p).seq with st := .ended } } : Tile).finish)) := by
  have configured : (s.tile p).sect.configured = true := by
    have := h.ready
    unfold seqReady at this
    simp_all
  rw [show exec (.endProgram n false) s = execEndProgram n false s from rfl, execEndProgram, withStep_at h]
  simp [setSeqState_eq, settle, configured]

/-- What a BRANCH of each condition does with its counters (Table 2.10). -/
theorem branchTaken_eq (q : Seq) (w : Nat) :
    (fld w 56 2 = 0 → branchTaken q w = (q.preds.getLsbD (fld w 53 3), q.ctrs)) ∧
    (fld w 56 2 = 1 → branchTaken q w = (!q.preds.getLsbD (fld w 53 3), q.ctrs)) ∧
    (fld w 56 2 = 2 → branchTaken q w = (q.ctrs.getD (fld w 51 2) 0 - 1 != 0, q.ctrs.set (fld w 51 2) (q.ctrs.getD (fld w 51 2) 0 - 1))) ∧
    (fld w 56 2 = 3 → branchTaken q w = (true, q.ctrs)) := by
  unfold branchTaken
  refine ⟨?_, ?_, ?_, ?_⟩ <;> intro h <;> simp only [h]

/-! ## The sequencer's own timeout -/

theorem exec_sequencerRetryTimeout_at {s : State} {n : BitVec 10} {p : Nat} {g : GWait} (place : s.phys n.toNat = p)
    (wait : (s.tile p).seq.gwait = some g) (held : (s.tile p).seq.st = .waitGauge) (retries : g.retryAt.isSome = true)
    (limited : g.timeout ≠ 0) (past : g.timeout ≤ s.clk - g.start) :
    ∃ d, exec (.sequencerRetryTimeout n) s = .next (done s (waitFault (s.unitEvent p 0 0x4101 d) p 0x4101 stTimeout)) := by
  subst place
  have no_left : limitLeft g.timeout (s.clk - g.start) = none := by
    unfold limitLeft
    rw [if_neg (by simpa using limited), if_neg (Nat.not_lt.mpr past)]
  simp only [exec, execSequencerRetryTimeout, wait, held, retries, no_left, beq_self_eq_true, Bool.and_self, if_true]
  exact ⟨_, rfl⟩

/-- The end of a section at a wait whose event is logged (R200, R360). -/
theorem waitFault_leaves {s : State} (hr : s.stopped = false) (hc : s.mem.wf = true) (p code status : Nat) (d : List Byte) :
    Faulted s (done s (waitFault (s.unitEvent p 0 code d) p code status)) code (s.tileCtx p) := by
  unfold waitFault
  obtain ⟨lg, v, w, e⟩ := event_shape s code 0 ((s.logical p).getD 0) (s.tileCtx p) d
  have he : s.unitEvent p 0 code d = _ := e
  generalize hz : setSeqState _ p .faulted = z
  have z_ctx : z.tileCtx p = s.tileCtx p := by
    refine tileCtx_of_sect ?_
    rw [← hz, setSeqState_eq, tile_setTile_self, he]; rfl
  dsimp only
  rw [z_ctx]
  exact jobFaultCore_leaves hr hc code _ _ _ z.tiles lg v w (by rw [← hz, he]; rfl)

/-- Settles O44: each step's rule, and the branches of BRANCH by its condition field. -/
theorem watchSwapBranchEnd : Obligations.WatchSwapBranchEnd := by
  unfold Obligations.WatchSwapBranchEnd
  refine ⟨?_, ?_, ?_, ?_, ?_, ?_⟩
  · intro n s p w h y due holds
    have holds_iff : watchTrue s p w = true ↔ holds := bne_iff_ne
    refine ⟨fun low high => ?_, fun bad => ⟨_, exec_watch_at h, ?_⟩⟩
    · have port : ¬ (fld w 54 4 = 0 ∨ 7 < fld w 54 4) := by omega
      refine ⟨fun hw on => ⟨_, exec_watch_at h, ?_⟩, fun hw => ⟨_, exec_watch_at h, ?_⟩⟩
      · rw [if_neg port, if_pos (holds_iff.mpr hw), watch_ends w true on]
        exact becomes_setTile h.runs h.canonical p _
      · rw [if_neg port, if_neg (mt holds_iff.mp hw)]
        exact becomes_setTile h.runs h.canonical p _
    · rw [if_pos bad]
      exact stepFault_self h.runs h.canonical p _
  · intro n s p w h y holds ends on
    refine ⟨fun hw => ⟨_, exec_watchReevaluate_at h hw, ?_⟩, fun d due past => ⟨_, exec_watchTimeout_at h due past, ?_⟩⟩
    · rw [watch_ends w true on]
      exact becomes_setTile h.runs h.canonical p _
    · rw [watch_ends w _ on]
      exact becomes_setTile h.runs h.canonical p _
  · intro n s p w h on y
    exact ⟨_, exec_swap_at h on, becomes_setTile h.runs h.canonical p _⟩
  · intro n s p w h y v pred stepped
    obtain ⟨b0, b1, b2, b3⟩ := branchTaken_eq y.seq w
    have goes {k : Nat} {z : Tile} (target : fld w 0 10 < y.progLen) (hz : branched y w = z)
        (hk : k = if (branchTaken y.seq w).1 then fld w 0 10 else nextIdx y) (on : RunsOn y k) :
        ∃ t, exec (.branch n false) s = .next t ∧ TileBecomes s t p (atNext z k s.clk) [] :=
      ⟨_, exec_branch_at h target hk on, hz ▸ becomes_setTile h.runs h.canonical p _⟩
    refine ⟨fun target => ⟨fun on taken => ?_, fun on kept => ?_, fun on dec hv => ?_, fun on dec hv => ?_⟩, fun beyond => ?_⟩
    · rcases taken with ⟨c, hp⟩ | ⟨c, hp⟩ | c
      · exact goes target (by rw [branched, b0 c]) (by rw [b0 c]; exact (if_pos hp).symm) on
      · exact goes target (by rw [branched, b1 c]) (by rw [b1 c]; exact (if_pos (by rw [show y.seq.preds.getLsbD _ = _ from hp]; rfl)).symm) on
      · exact goes target (by rw [branched, b3 c]) (by rw [b3 c]; rfl) on
    · rcases kept with ⟨c, hp⟩ | ⟨c, hp⟩
      · exact goes target (by rw [branched, b0 c]) (by rw [b0 c]; exact (if_neg (ne_true_of_eq_false hp)).symm) on
      · exact goes target (by rw [branched, b1 c]) (by rw [b1 c]; exact (if_neg (by rw [show y.seq.preds.getLsbD _ = _ from hp]; simp)).symm) on
    · exact goes target (by rw [branched, b2 dec]) (by rw [b2 dec]; exact (if_pos (bne_iff_ne.mpr hv)).symm) on
    · exact goes target (by rw [branched, b2 dec]) (by rw [b2 dec]; exact (if_neg (fun ne => bne_iff_ne.mp ne hv)).symm) on
    · exact ⟨_, exec_branch_beyond h beyond, stepFault_self h.runs h.canonical p _⟩
  · intro n s p w h
    exact ⟨_, exec_endProgram_at h, becomes_setTile h.runs h.canonical p _⟩
  · intro n s p g hc hr place wait held retries limited past
    obtain ⟨d, e⟩ := exec_sequencerRetryTimeout_at place wait held retries limited past
    exact ⟨_, e, waitFault_leaves hr hc p _ _ d⟩

end Sys2Proof.TileProofs
end

section
/-! SUPPORT. Where the engines' operations write does not depend on the host's lines, and the obligation on their completion. -/

namespace Sys2Proof.TileProofs

open Sys2Proof.Machine Sys2Proof.Safety Sys2Proof.Laws

/-! ## Engines: the host's lines play no part in where an operation writes -/

theorem reached_seen (s : State) (a : List Nat) (b : Assoc Nat) : Reached (seen s a b) = Reached s := rfl

theorem rResults_seen (s : State) (a : List Nat) (b : Assoc Nat) : rResults (seen s a b) = rResults s := rfl

theorem mmaWrites_seen (s : State) (a : List Nat) (b : Assoc Nat) : mmaWrites (seen s a b) = mmaWrites s := by
  unfold mmaWrites; rw [reached_seen]

theorem attnWrites_seen (s : State) (a : List Nat) (b : Assoc Nat) : attnWrites (seen s a b) = attnWrites s := by
  unfold attnWrites; rw [reached_seen]

theorem vWrites_seen (s : State) (a : List Nat) (b : Assoc Nat) : vWrites (seen s a b) = vWrites s := by
  unfold vWrites; rw [reached_seen]

theorem rWrites_seen (s : State) (a : List Nat) (b : Assoc Nat) : rWrites (seen s a b) = rWrites s := by
  unfold rWrites; rw [reached_seen, rResults_seen]

theorem dispatchWrites_seen (s : State) (a : List Nat) (b : Assoc Nat) : dispatchWrites (seen s a b) = dispatchWrites s := by
  unfold dispatchWrites; rw [reached_seen]

theorem xWrites_seen (s : State) (a : List Nat) (b : Assoc Nat) : xWrites (seen s a b) = xWrites s := by
  unfold xWrites; rw [reached_seen]

/-- An operation that may send, with its outcome in the order in which the obligation states it. -/
theorem run_sends_in {s : State} {n : BitVec 10} {u p : Nat} {op : Op} {rest : List Op} (h : AtEngine s n u p op rest)
    (ok : List Byte → Bool) (reads : State → Nat → Op → List Byte → List Byte → List (Nat × Nat))
    (ins : List Byte → List Byte → List (Nat × Nat)) (body : State → Nat → Op → List Byte → List Byte → State) (W : Nat → Prop)
    (hok : ok ((s.tile p).desc op.desc) = true)
    (hb : ∀ a b, Acts p W (seen s a b) (body (seen s a b) p op ((s.tile p).desc op.desc) ((s.tile p).loopT op.loop))) :
    ∃ t a b, Host.Outcome.next (done s (runSending s n.toNat u ok none reads ins body)) = (.next t : Host.Outcome State Fault Refusal) ∧
      SentOrCompleted s (body (seen s a b) p op ((s.tile p).desc op.desc) ((s.tile p).loopT op.loop)) t p u op rest ((s.tile p).loopT op.loop)
        (ins ((s.tile p).desc op.desc) ((s.tile p).loopT op.loop)) W ∧
      Computed (body (seen s a b) p op ((s.tile p).desc op.desc) ((s.tile p).loopT op.loop)) t p :=
  have ⟨a, b, t, ht⟩ := run_sends h ok reads ins body W hok hb
  ⟨t, a, b, ht⟩

/-- Settles O48: each engine's body acts on its own tile and writes inside its results only, so the frame of an operation carries
it to its completion. -/
theorem engineOperationsComplete : Obligations.EngineOperationsComplete := by
  unfold Obligations.EngineOperationsComplete
  intro n s p op rest d l
  refine ⟨fun h ho => ?_, fun h ho => ?_, fun h => ?_, fun h => ?_, fun h ho => ?_, fun h h40 h41 => ?_⟩
  case refine_1 =>
    exact run_completes h _ mmaReads mmaIns mmaBody _ (beq_iff_eq.mpr ho)
      (fun a b => mmaWrites_seen s a b ▸ acts_mmaBody (seen s a b) p op d l)
  case refine_2 =>
    exact run_completes h _ attnReads attnIns attnBody _ (beq_iff_eq.mpr ho)
      (fun a b => attnWrites_seen s a b ▸ acts_attnBody (seen s a b) p op d l)
  case refine_3 =>
    exact run_completes h _ vReads vIns vBody _ rfl (fun a b => vWrites_seen s a b ▸ acts_vBody (seen s a b) p op d l)
  case refine_4 =>
    exact run_sends_in h _ rReads rIns rBody _ rfl (fun a b => rWrites_seen s a b ▸ acts_rBody (seen s a b) p op d l)
  case refine_5 =>
    exact run_sends_in h _ dispatchReads dispatchIns dispatchBody _ (beq_iff_eq.mpr ho)
      (fun a b => dispatchWrites_seen s a b ▸ acts_dispatchBody (seen s a b) p op d l)
  case refine_6 =>
    exact run_completes h _ xReads xIns xBody _ (Bool.and_eq_true _ _ ▸ ⟨bne_iff_ne.mpr h40, bne_iff_ne.mpr h41⟩)
      (fun a b => xWrites_seen s a b ▸ acts_xBody (seen s a b) p op d l)

end Sys2Proof.TileProofs
end

section
/-! SUPPORT. Work of one tile that leaves memory alone: what it keeps, the heads that ports lose, and the end of a firing (R36-R40). -/

namespace Sys2Proof.TileProofs

open Sys2Proof.Machine Sys2Proof.Safety Sys2Proof.Laws

/-- The kinds of state that a firing touches. -/
abbrev firingKinds : List Kind := [.tiles, .log, .vectors, .snoops]

/-- t follows s by work of tile p that leaves memory, other tiles, and its own configuration, steps and router alone. -/
structure Local (p : Nat) (s t : State) : Prop where
  config : (t.tile p).cfg = (s.tile p).cfg ∧ (t.tile p).sect = (s.tile p).sect ∧ (t.tile p).seq = (s.tile p).seq
  queues : (t.tile p).queues = (s.tile p).queues ∧ (t.tile p).gq = (s.tile p).gq ∧ (t.tile p).router = (s.tile p).router
  others : ∀ q, q ≠ p → t.tile q = s.tile q
  mem : t.mem = s.mem
  only : Only firingKinds s t

theorem local_refl (p : Nat) (s : State) : Local p s s :=
  ⟨⟨rfl, rfl, rfl⟩, ⟨rfl, rfl, rfl⟩, fun _ _ => rfl, rfl, only_refl _ s⟩

theorem local_trans {p : Nat} {a b c : State} (h : Local p a b) (g : Local p b c) : Local p a c := by
  obtain ⟨⟨h1, h2, h3⟩, ⟨h4, h5, h6⟩, h7, h8, h9⟩ := h
  obtain ⟨⟨g1, g2, g3⟩, ⟨g4, g5, g6⟩, g7, g8, g9⟩ := g
  exact ⟨⟨g1.trans h1, g2.trans h2, g3.trans h3⟩, ⟨g4.trans h4, g5.trans h5, g6.trans h6⟩,
    fun q hq => (g7 q hq).trans (h7 q hq), g8.trans h8, only_trans h9 g9⟩

theorem only_modTile (s : State) (p : Nat) (f : Tile → Tile) : Only firingKinds s (s.modTile p f) := by
  refine ⟨rfl, rfl, fun k hk => ?_⟩
  cases k <;> simp [Kind.same] at hk ⊢

theorem local_modTile {p : Nat} {s : State} {f : Tile → Tile}
    (config : (f (s.tile p)).cfg = (s.tile p).cfg ∧ (f (s.tile p)).sect = (s.tile p).sect ∧ (f (s.tile p)).seq = (s.tile p).seq)
    (queues : (f (s.tile p)).queues = (s.tile p).queues ∧ (f (s.tile p)).gq = (s.tile p).gq ∧ (f (s.tile p)).router = (s.tile p).router) :
    Local p s (s.modTile p f) := by
  refine ⟨?_, ?_, fun q hq => tile_modTile_other s p q f hq, rfl, only_modTile s p f⟩ <;> rw [tile_modTile_self]
  · exact config
  · exact queues

theorem local_event (p : Nat) (s : State) (code kind index : Nat) (ctx : Option Nat) (d : List Byte) :
    Local p s (s.event code kind index ctx d) := by
  obtain ⟨g, a, b, e⟩ := event_shape s code kind index ctx d
  rw [e]
  refine ⟨⟨rfl, rfl, rfl⟩, ⟨rfl, rfl, rfl⟩, fun _ _ => rfl, rfl, rfl, rfl, fun k hk => ?_⟩
  cases k <;> simp [Kind.same] at hk ⊢

theorem local_seen (p : Nat) (s : State) (a : List Nat) (b : Assoc Nat) : Local p s (seen s a b) := by
  refine ⟨⟨rfl, rfl, rfl⟩, ⟨rfl, rfl, rfl⟩, fun _ _ => rfl, rfl, rfl, rfl, fun k hk => ?_⟩
  cases k <;> simp [Kind.same, seen] at hk ⊢

theorem local_ite {p : Nat} {s x y : State} (c : Prop) [Decidable c] (hx : Local p s x) (hy : Local p s y) :
    Local p s (if c then x else y) := ite_prop (fun _ => hx) (fun _ => hy)

theorem local_settle (p : Nat) (s : State) : Local p s (settle s p) :=
  local_ite _ (local_modTile ⟨rfl, rfl, rfl⟩ ⟨rfl, rfl, rfl⟩) (local_refl p s)

/-- Work of a tile stands when the command ends. -/
theorem local_done {s x : State} {p : Nat} (hr : s.stopped = false) (hc : s.mem.wf = true) (h : Local p s x) :
    Local p s (done s x) := by
  obtain ⟨h1, h2, h3, h4, h5⟩ := h
  refine ⟨by rwa [done_tile hr], by rwa [done_tile hr], fun q hq => by rw [done_tile hr, h3 q hq], ?_, done_frame hr hc h4 h5⟩
  rw [done_still hr hc h4]; exact h4

/-! ## Ports that lose their heads -/

theorem port_of_ports {y z : Tile} (h : z.ports = y.ports) (u k : Nat) : z.port u k = y.port u k := by
  unfold Tile.port; rw [h]

theorem port_setPort (y : Tile) (u k v j : Nat) (x : Port) :
    (y.setPort u k x).port v j = if 8 * (v - 1) + j = 8 * (u - 1) + k then x else y.port v j := by
  unfold Tile.setPort Tile.port
  split
  case isTrue h => simp [h]
  case isFalse h => exact agetD_aput_other _ _ _ _ _ h

/-- Ports of different units, or different ports of one, have different numbers. -/
theorem portNo_ne {u k v j : Nat} (hu : 1 ≤ u) (hk : k < 8) (hv : 1 ≤ v) (hj : j < 8) (h : v ≠ u ∨ j ≠ k) :
    8 * (v - 1) + j ≠ 8 * (u - 1) + k := by omega

theorem portsLost_nil {y z : Tile} (h : z.ports = y.ports) (u : Nat) : PortsLost y z u [] :=
  ⟨fun _ hk => absurd hk List.not_mem_nil, fun v k _ _ _ => port_of_ports h v k⟩

theorem portsLost_of_ports {y z x w : Tile} {u : Nat} {l : List Nat} (h : PortsLost y z u l) (hx : x.ports = y.ports) (hw : w.ports = z.ports) :
    PortsLost x w u l :=
  ⟨fun k hk => by rw [port_of_ports hx, port_of_ports hw]; exact h.1 k hk,
    fun v k hv hk hd => by rw [port_of_ports hx, port_of_ports hw]; exact h.2 v k hv hk hd⟩

/-- Port k has lost its head, and then those of l, which does not name it. -/
theorem portsLost_cons {y z w : Tile} {u k : Nat} {l : List Nat} (hu : 1 ≤ u) (hk : k < 8) (hl : ∀ j ∈ l, j < 8) (hkl : k ∉ l)
    (h : PortsLost y z u [k]) (g : PortsLost z w u l) : PortsLost y w u (k :: l) := by
  refine ⟨fun j hj => ?_, fun v j hv hj hd => ?_⟩
  · rcases List.mem_cons.mp hj with rfl | hj
    · rw [g.2 u j hu hk (.inr hkl), h.1 j (List.mem_singleton.mpr rfl)]
    · have hjk : j ≠ k := fun e => hkl (e ▸ hj)
      rw [g.1 j hj, h.2 u j hu (hl j hj) (.inr (by simpa using hjk))]
  · rw [g.2 v j hv hj (hd.imp_right (fun hn hm => hn (List.mem_cons_of_mem _ hm))),
      h.2 v j hv hj (hd.imp_right (fun hn hm => hn (by rw [List.mem_singleton.mp hm]; exact List.mem_cons_self)))]

theorem portLeft_empty {x : Port} (hf : x.fifo = []) (h0 : x.inBasin = 0) : portLeft x = x := by
  obtain ⟨fifo, inBasin, backp, stale⟩ := x
  subst hf h0
  rfl

/-- What taking the heads of ports l of unit u leaves of a state: its tile but for ports and basins. -/
structure Popped (p u : Nat) (l : List Nat) (s t : State) : Prop where
  here : Local p s t
  ports : PortsLost (s.tile p) (t.tile p) u l
  tile : ∃ P B, t.tile p = { s.tile p with ports := P, basins := B }

theorem popBasin_eq (s : State) (p b : Nat) (m : Msg) : ∃ B, popBasin s p b m = s.setTile p { s.tile p with basins := B } := ⟨_, rfl⟩

/-- The head of a port is taken (R36, R38). -/
theorem popPort_popped (s : State) {p u k : Nat} (hu : 1 ≤ u) (hk : k < 8) : Popped p u [k] s (popPort s p u k) := by
  have lost (B : Assoc Basin) : PortsLost (s.tile p)
      (({ s.tile p with basins := B } : Tile).setPort u k (portLeft ((s.tile p).port u k))) u [k] := by
    refine ⟨fun j hj => ?_, fun v j hv hj hd => ?_⟩
    · rw [List.mem_singleton.mp hj, port_setPort, if_pos rfl]
    · rw [port_setPort, if_neg (portNo_ne hu hk hv hj (hd.imp_right (fun hn e => hn (List.mem_singleton.mpr e))))]; rfl
  have wrote (B : Assoc Basin) (t : State) (ht : t = s.setTile p (({ s.tile p with basins := B } : Tile).setPort u k (portLeft ((s.tile p).port u k)))) :
      Popped p u [k] s t := by
    subst ht
    exact ⟨local_modTile (f := fun _ => ({ s.tile p with basins := B } : Tile).setPort u k (portLeft ((s.tile p).port u k)))
      ⟨rfl, rfl, rfl⟩ ⟨rfl, rfl, rfl⟩, by rw [tile_setTile_self]; exact lost B, by rw [tile_setTile_self]; exact ⟨_, _, rfl⟩⟩
  unfold popPort
  dsimp only
  split
  case h_1 m r hf => exact wrote (s.tile p).basins _ (by simp only [portLeft, hf])
  case h_2 hf =>
    split
    case isTrue h0 =>
      refine ⟨local_refl p s, ⟨fun j hj => ?_, fun _ _ _ _ _ => rfl⟩, _, _, rfl⟩
      rw [List.mem_singleton.mp hj, portLeft_empty hf h0]
    case isFalse h0 =>
      obtain ⟨B, e⟩ := popBasin_eq s p ((s.tile p).bindBasin u k) (basinHead s p ((s.tile p).bindBasin u k))
      exact wrote B _ (by rw [e, modTile_setTile]; simp only [portLeft, hf])

/-- The heads of the ports of a list are taken in turn. -/
theorem popPorts_popped (p u : Nat) (hu : 1 ≤ u) (l : List Nat) : ∀ s : State, (∀ k ∈ l, k < 8) → l.Nodup →
    Popped p u l s (l.foldl (fun x k => popPort x p u k) s) := by
  induction l with
  | nil => exact fun s _ _ => ⟨local_refl p s, portsLost_nil rfl u, _, _, rfl⟩
  | cons k l ih =>
    intro s hl hn
    obtain ⟨hk, hl⟩ := List.forall_mem_cons.mp hl
    obtain ⟨hkl, hn⟩ := List.nodup_cons.mp hn
    obtain ⟨here, ports, P, B, tile⟩ := popPort_popped s (p := p) hu hk
    obtain ⟨here', ports', P', B', tile'⟩ := ih (popPort s p u k) hl hn
    exact ⟨local_trans here here', portsLost_cons hu hk hl hkl ports ports', P', B', by rw [List.foldl_cons, tile', tile]⟩

theorem mem_firingPorts {y : Tile} {u k : Nat} (h : k ∈ firingPorts y u) : k < 8 :=
  List.mem_range.mp (List.mem_filter.mp h).1

theorem takeTokens_popped (s : State) {p u : Nat} (hu : 1 ≤ u) : Popped p u (firingPorts (s.tile p) u) s (takeTokens s p u) :=
  popPorts_popped p u hu _ s (fun _ hk => mem_firingPorts hk) (List.nodup_range.filter _)

/-! ## The end of a firing -/

/-- The end of a firing counts it, and touches marks and counters of the tile beside (R40). -/
theorem endFiring_tile (s : State) (p u : Nat) : Local p s (endFiring s p u) ∧
    ∃ f c g, (endFiring s p u).tile p =
      { s.tile p with firings := amod (s.tile p).firings u 0 (· + 1), finished := f, ctrs := c, progress := g } := by
  have ended : ∃ c, (s.noteProgress p).modTile p (fun t => { t with firings := amod t.firings u 0 (· + 1) }.bump (bankFire u) 1) =
      s.setTile p { s.tile p with firings := amod (s.tile p).firings u 0 (· + 1), ctrs := c, progress := s.clk } :=
    ⟨_, by rw [State.noteProgress, modTile_eq_setTile s, modTile_setTile]; rfl⟩
  obtain ⟨c, e⟩ := ended
  unfold endFiring
  rw [e]
  refine ⟨local_trans (local_modTile (f := fun _ => { s.tile p with firings := amod (s.tile p).firings u 0 (· + 1), ctrs := c, progress := s.clk })
    ⟨rfl, rfl, rfl⟩ ⟨rfl, rfl, rfl⟩) (local_settle p _), ?_⟩
  unfold settle
  split
  · rw [modTile_setTile, tile_setTile_self]
    exact ⟨_, _, _, rfl⟩
  · rw [tile_setTile_self]
    exact ⟨_, _, _, rfl⟩

/-- What a firing sends and keeps, before its tokens are taken: work of the tile that leaves its ports and firings alone. -/
structure Sends (p : Nat) (s t : State) : Prop where
  here : Local p s t
  ports : (t.tile p).ports = (s.tile p).ports
  cfg : (t.tile p).cfg = (s.tile p).cfg
  firings : (t.tile p).firings = (s.tile p).firings

/-- A firing whose work is x ends (R38, R40). -/
theorem firing_ends {s x : State} {p u : Nat} (hr : s.stopped = false) (hc : s.mem.wf = true) (hu : 1 ≤ u) (h : Sends p s x) :
    Fired s x (done s (endFiring (takeTokens x p u) p u)) p u := by
  have same_ports : firingPorts (x.tile p) u = firingPorts (s.tile p) u := by
    unfold firingPorts Tile.fireMask Tile.cfgNum Tile.cfgBytes; rw [h.cfg]
  obtain ⟨here, ports, P, B, tile⟩ := takeTokens_popped x (p := p) hu
  obtain ⟨here', f, c, g, tile'⟩ := endFiring_tile (takeTokens x p u) p u
  rw [tile] at tile'
  have whole := local_done hr hc (local_trans h.here (local_trans here here'))
  rw [same_ports] at ports
  refine ⟨?_, ?_, ?_, ?_, whole.config, whole.queues, whole.others, whole.mem, whole.only⟩ <;> rw [done_tile hr, tile']
  · exact portsLost_of_ports ports h.ports.symm (by rw [tile])
  · show agetD (amod (x.tile p).firings u 0 (· + 1)) u 0 = _
    rw [h.firings, amod, agetD_aput_self]

end Sys2Proof.TileProofs
end

section
/-! SUPPORT. Streamed firings: what they send and keep, and that the host's lines play no part in it (R38, R109, R117). -/

namespace Sys2Proof.TileProofs

open Sys2Proof.Machine Sys2Proof.Safety Sys2Proof.Laws

/-! ## What a firing keeps -/

theorem sends_refl (p : Nat) (s : State) : Sends p s s := ⟨local_refl p s, rfl, rfl, rfl⟩

theorem sends_trans {p : Nat} {a b c : State} (h : Sends p a b) (g : Sends p b c) : Sends p a c :=
  ⟨local_trans h.here g.here, g.ports.trans h.ports, g.cfg.trans h.cfg, g.firings.trans h.firings⟩

theorem sends_ite {p : Nat} {s x y : State} (c : Prop) [Decidable c] (hx : Sends p s x) (hy : Sends p s y) :
    Sends p s (if c then x else y) := ite_prop (fun _ => hx) (fun _ => hy)

theorem sends_modTile {p : Nat} {s : State} {f : Tile → Tile}
    (config : (f (s.tile p)).cfg = (s.tile p).cfg ∧ (f (s.tile p)).sect = (s.tile p).sect ∧ (f (s.tile p)).seq = (s.tile p).seq)
    (queues : (f (s.tile p)).queues = (s.tile p).queues ∧ (f (s.tile p)).gq = (s.tile p).gq ∧ (f (s.tile p)).router = (s.tile p).router)
    (ports : (f (s.tile p)).ports = (s.tile p).ports) (firings : (f (s.tile p)).firings = (s.tile p).firings) :
    Sends p s (s.modTile p f) :=
  ⟨local_modTile config queues, by rw [tile_modTile_self]; exact ports, by rw [tile_modTile_self]; exact config.1,
    by rw [tile_modTile_self]; exact firings⟩

theorem sends_event (p : Nat) (s : State) (code kind index : Nat) (ctx : Option Nat) (d : List Byte) :
    Sends p s (s.event code kind index ctx d) :=
  ⟨local_event p s code kind index ctx d, by rw [tile_event], by rw [tile_event], by rw [tile_event]⟩

theorem sends_onceEvent (p : Nat) (s : State) (u code limit : Nat) (d : List Byte) : Sends p s (s.onceEvent p u code limit d) :=
  sends_ite _ (sends_trans (sends_modTile ⟨rfl, rfl, rfl⟩ ⟨rfl, rfl, rfl⟩ rfl rfl) (sends_event p _ _ _ _ _ _)) (sends_refl p s)

theorem sends_bumpTile (p : Nat) (s : State) (k n : Nat) : Sends p s (s.bumpTile p k n) :=
  sends_modTile ⟨rfl, rfl, rfl⟩ ⟨rfl, rfl, rfl⟩ rfl rfl

theorem sends_countCalls (p : Nat) (s : State) (conv i n : Nat) : Sends p s (countCalls s p conv i n) :=
  sends_ite _ (sends_bumpTile p s _ _) (sends_refl p s)

theorem sends_emit (p : Nat) (s : State) (u : Nat) (m : Tile → Msg) : Sends p s (s.modTile p (fun t => t.emit u (m t))) :=
  sends_modTile ⟨rfl, rfl, rfl⟩ ⟨rfl, rfl, rfl⟩ rfl rfl

theorem sends_foldl {α : Type} {p : Nat} (f : State → α → State) (hf : ∀ x a, Sends p x (f x a)) (l : List α) (s : State) :
    Sends p s (l.foldl f s) := by
  induction l generalizing s with
  | nil => exact sends_refl p s
  | cons a l ih => exact sends_trans (hf s a) (ih _)

theorem sends_sendResult (p : Nat) (s : State) (u dest tag : Nat) (steer bad : Bool) (pay : List Byte) :
    Sends p s (sendResult s p u dest tag steer bad pay) := by
  unfold sendResult
  exact sends_emit p s u _

theorem sends_sendLong (p : Nat) (s : State) (u dest tag : Nat) (steer bad : Bool) (pay : List Byte) :
    Sends p s (sendLong s p u dest tag steer bad pay) :=
  sends_foldl _ (fun x _ => sends_sendResult p x u _ _ _ _ _) _ s

theorem sends_vectorFire (p : Nat) (s : State) : Sends p s (vectorFire s p) := by
  unfold vectorFire
  extract_lets
  refine sends_ite _ (sends_onceEvent p s _ _ _ _) ?_
  extract_lets
  exact sends_trans (sends_trans (sends_ite _ (sends_bumpTile p s _ _) (sends_refl p s)) (sends_ite _ (sends_refl p _) (sends_countCalls p _ _ _ _)))
    (sends_sendLong p _ _ _ _ _ _ _)

theorem sends_reductionFire (p : Nat) (s : State) : Sends p s (reductionFire s p) := by
  unfold reductionFire
  extract_lets
  split
  · exact sends_refl p s
  · extract_lets
    exact sends_ite _ (sends_foldl _ (fun x _ => sends_emit p x 3 _) _ s) (sends_sendLong p s _ _ _ _ _ _)

/-! ## The host's lines -/

/-- The state s with another host port. -/
def atHost (s : State) (h : HostPort) : State := { s with host := h }

/-- A part of a firing does not look at the host's port. -/
def HostBlind (f : State → State) : Prop := ∀ s h, ∃ h', f (atHost s h) = atHost (f s) h'

theorem blind_id : HostBlind (fun s => s) := fun _ h => ⟨h, rfl⟩

theorem blind_ite {b : State → Prop} [∀ s, Decidable (b s)] {f g : State → State} (hb : ∀ s h, b (atHost s h) ↔ b s)
    (hf : HostBlind f) (hg : HostBlind g) : HostBlind (fun s => if b s then f s else g s) := by
  intro s h
  show ∃ h', (if b (atHost s h) then f (atHost s h) else g (atHost s h)) = atHost (if b s then f s else g s) h'
  by_cases hs : b s
  · rw [if_pos hs, if_pos ((hb s h).mpr hs)]; exact hf s h
  · rw [if_neg hs, if_neg (mt (hb s h).mp hs)]; exact hg s h

theorem blind_modTile {x : State → State} {f : State → Tile → Tile} {p : Nat} (hx : HostBlind x) (hf : ∀ s h, f (atHost s h) = f s) :
    HostBlind (fun s => (x s).modTile p (f s)) := by
  intro s h
  obtain ⟨h', e⟩ := hx s h
  exact ⟨h', by dsimp only; rw [e, hf]; rfl⟩

theorem blind_vector (v : Nat) : HostBlind (fun s => s.vector v) :=
  blind_ite (fun _ _ => Iff.rfl) (fun _ _ => ⟨_, rfl⟩) (fun _ _ => ⟨_, rfl⟩)

theorem blind_comp {f g : State → State} (hg : HostBlind g) (hf : HostBlind f) : HostBlind (fun s => g (f s)) := by
  intro s h
  obtain ⟨h', e⟩ := hf s h
  show ∃ h'', g (f (atHost s h)) = atHost (g (f s)) h''
  rw [e]
  exact hg (f s) h'

theorem blind_event (code kind index : Nat) (ctx : Option Nat) (d : List Byte) : HostBlind (fun s => s.event code kind index ctx d) := by
  unfold State.event
  cases eventVector code with
  | none => exact blind_ite (fun _ _ => Iff.rfl) (fun _ h => ⟨h, rfl⟩) (fun _ h => ⟨h, rfl⟩)
  | some v =>
    exact blind_comp (blind_vector v) (blind_ite (b := fun s => s.log.queue.length < 64) (fun _ _ => Iff.rfl)
      (fun _ h => ⟨h, rfl⟩) (fun _ h => ⟨h, rfl⟩))

theorem blind_unitEvent (p u code : Nat) (d : List Byte) : HostBlind (fun s => s.unitEvent p u code d) :=
  fun s h => blind_event code u ((s.logical p).getD 0) (s.tileCtx p) d s h

theorem blind_onceEvent (p u code limit : Nat) (d : List Byte) : HostBlind (fun s => s.onceEvent p u code limit d) :=
  blind_ite (fun _ _ => Iff.rfl) (blind_comp (blind_unitEvent p u code d) (blind_modTile blind_id (fun _ _ => rfl))) blind_id

theorem blind_bumpTile {k n : State → Nat} (p : Nat) (hk : ∀ s h, k (atHost s h) = k s) (hn : ∀ s h, n (atHost s h) = n s) :
    HostBlind (fun s => s.bumpTile p (k s) (n s)) :=
  blind_modTile blind_id (fun s h => by rw [hk, hn])

theorem blind_foldl {α : Type} {f : State → α → State} (hf : ∀ a, HostBlind (fun s => f s a)) (l : List α) :
    HostBlind (fun s => l.foldl f s) := by
  induction l with
  | nil => exact blind_id
  | cons a l ih => exact blind_comp ih (hf a)

theorem blind_sendResult (p u dest tag : Nat) (steer bad : Bool) (pay : List Byte) :
    HostBlind (fun s => sendResult s p u dest tag steer bad pay) := by
  unfold sendResult
  exact blind_modTile blind_id (fun _ _ => rfl)

/-- Results leave the same way, where their destination, tag and bytes are the same. -/
theorem blind_sendLong {x : State → State} {dest tag : State → Nat} {steer bad : State → Bool} {pay : State → List Byte} (p u : Nat)
    (hx : HostBlind x) (hd : ∀ s h, dest (atHost s h) = dest s) (ht : ∀ s h, tag (atHost s h) = tag s)
    (hs : ∀ s h, steer (atHost s h) = steer s) (hb : ∀ s h, bad (atHost s h) = bad s) (hp : ∀ s h, pay (atHost s h) = pay s) :
    HostBlind (fun s => sendLong (x s) p u (dest s) (tag s) (steer s) (bad s) (pay s)) := by
  intro s h
  dsimp only
  rw [hd, ht, hs, hb, hp]
  exact blind_comp (g := fun s' => sendLong s' p u (dest s) (tag s) (steer s) (bad s) (pay s))
    (blind_foldl (fun _ => blind_sendResult p u _ _ _ _ _) _) hx s h

theorem blind_countCalls {x : State → State} {conv i n : State → Nat} (p : Nat) (hx : HostBlind x) (hc : ∀ s h, conv (atHost s h) = conv s)
    (hi : ∀ s h, i (atHost s h) = i s) (hn : ∀ s h, n (atHost s h) = n s) : HostBlind (fun s => countCalls (x s) p (conv s) (i s) (n s)) :=
  blind_ite (fun s h => by rw [hc]) (blind_modTile hx (fun s h => by rw [hi, hn])) hx

theorem blind_vectorFire (p : Nat) : HostBlind (fun s => vectorFire s p) := by
  unfold vectorFire
  refine blind_ite (fun _ _ => Iff.rfl) (blind_onceEvent p _ _ _ _) ?_
  refine blind_sendLong p 2 ?_ (fun _ _ => rfl) (fun _ _ => rfl) (fun _ _ => rfl) (fun _ _ => rfl) (fun _ _ => rfl)
  exact blind_ite (fun _ _ => Iff.rfl)
    (blind_ite (fun _ _ => Iff.rfl) (blind_bumpTile p (fun _ _ => rfl) (fun _ _ => rfl)) blind_id)
    (blind_countCalls p (blind_ite (fun _ _ => Iff.rfl) (blind_bumpTile p (fun _ _ => rfl) (fun _ _ => rfl)) blind_id)
      (fun _ _ => rfl) (fun _ _ => rfl) (fun _ _ => rfl))

/-- What a firing of the reduction unit on token m sends: the results rs, on the tree or on route 0 (R117, R120). -/
def reductionSends (rs : State → List RResult) (p : Nat) (m : Msg) (s : State) : State :=
  let y := s.tile p
  let d := y.desc 0
  if rNet d then (rs s).foldl (fun x r => x.modTile p (fun z => z.emit 3
    (treeMsg z ((s.logical p).getD 0) (rTree d) (rRule d) m.tag r.bad r.net))) s
  else sendLong s p 3 (y.route 3 0) m.tag ((firingTokens s p 3).any (fun x => x.kind == 5)) ((rs s).any (·.bad)) (((rs s).map (·.out)).flatten)

theorem blind_reductionSends {rs : State → List RResult} (hrs : ∀ s h, rs (atHost s h) = rs s) (p : Nat) (m : Msg) :
    HostBlind (reductionSends rs p m) := by
  refine blind_ite (fun _ _ => Iff.rfl) (fun s h => ?_) (blind_sendLong p 3 blind_id (fun _ _ => rfl) (fun _ _ => rfl) (fun _ _ => rfl)
    (fun s h => by rw [hrs]) (fun s h => by rw [hrs]))
  rw [hrs]
  exact blind_foldl (fun r => blind_modTile blind_id (fun _ _ => rfl)) (rs s) s h

/-- The results of a firing of the reduction unit are computed from its tile, not from the host's lines. -/
theorem reductionFire_some (p : Nat) (m : Msg) : ∃ rs : State → List RResult, (∀ s h, rs (atHost s h) = rs s) ∧
    ∀ s, (firingTokens s p 3).head? = some m → reductionFire s p = reductionSends rs p m s := by
  refine ⟨?rs, ?blind, fun s hm => ?eq⟩
  case eq =>
    unfold reductionFire reductionSends
    dsimp only
    rw [hm]
  case blind => exact fun _ _ => rfl

theorem reductionFire_none {s : State} {p : Nat} (h : (firingTokens s p 3).head? = none) : reductionFire s p = s := by
  unfold reductionFire
  dsimp only
  rw [h]

theorem blind_reductionFire (p : Nat) : HostBlind (fun s => reductionFire s p) := by
  intro s h
  show ∃ h', reductionFire (atHost s h) p = atHost (reductionFire s p) h'
  have same : firingTokens (atHost s h) p 3 = firingTokens s p 3 := rfl
  cases hm : (firingTokens s p 3).head? with
  | none => exact ⟨h, by rw [reductionFire_none hm, reductionFire_none (same ▸ hm)]⟩
  | some m =>
    obtain ⟨rs, hrs, e⟩ := reductionFire_some p m
    rw [e s hm, e (atHost s h) (same ▸ hm)]
    exact blind_reductionSends hrs p m s h

end Sys2Proof.TileProofs
end

section
/-! SUPPORT. The messages of a streamed firing of the matrix engine (R109, log 58). -/

namespace Sys2Proof.TileProofs

open Sys2Proof.Machine Sys2Proof.Safety Sys2Proof.Laws

/-- A part of a firing of tile p that sends n messages, each of them as P says. -/
structure Streams (P : Nat × Msg → Prop) (p n : Nat) (s t : State) : Prop where
  sends : Sends p s t
  sent : ∃ ms, (t.tile p).egress = (s.tile p).egress ++ ms ∧ ms.length = n ∧ ∀ e ∈ ms, P e

theorem streams_trans {P : Nat × Msg → Prop} {p n k : Nat} {a b c : State} (h : Streams P p n a b) (g : Streams P p k b c) :
    Streams P p (n + k) a c := by
  obtain ⟨ms, e, len, all⟩ := h.sent
  obtain ⟨ms', e', len', all'⟩ := g.sent
  refine ⟨sends_trans h.sends g.sends, ms ++ ms', by rw [e', e, List.append_assoc], by rw [List.length_append, len, len'], fun x hx => ?_⟩
  exact (List.mem_append.mp hx).elim (all x) (all' x)

/-- A part of a firing that sends nothing. -/
theorem streams_none {P : Nat × Msg → Prop} {p : Nat} {s t : State} (h : Sends p s t) (he : (t.tile p).egress = (s.tile p).egress) :
    Streams P p 0 s t := ⟨h, [], by rw [he, List.append_nil], rfl, fun _ hx => absurd hx List.not_mem_nil⟩

/-- Steps that send n messages each, as long as the tile's configuration and section stand. -/
theorem streams_foldl {α : Type} {P : Nat × Msg → Prop} {p n : Nat} (f : State → α → State) (l : List α) :
    ∀ s : State, (∀ x a, a ∈ l → Local p s x → Streams P p n x (f x a)) → Streams P p (l.length * n) s (l.foldl f s) := by
  induction l with
  | nil => exact fun s _ => by rw [List.length_nil, Nat.zero_mul]; exact streams_none (sends_refl p s) rfl
  | cons a l ih =>
    intro s hf
    have first := hf s a List.mem_cons_self (local_refl p s)
    have rest := ih (f s a) (fun x b hb hx => hf x b (List.mem_cons_of_mem a hb) (local_trans first.sends.here hx))
    rw [List.length_cons, Nat.add_mul, Nat.one_mul, Nat.add_comm]
    exact streams_trans first rest

theorem streamDest_of_cfg {y z : Tile} (h : z.cfg = y.cfg) (d : List Byte) (m : Msg) : streamDest z d m = streamDest y d m := by
  unfold streamDest Tile.route Tile.cfgNum Tile.cfgBytes; rw [h]

/-- A result message of a streamed firing of tile y on token m, of descriptor d (R109, R247). -/
def StreamMsg (y : Tile) (d : List Byte) (m : Msg) (e : Nat × Msg) : Prop :=
  ∃ bad pay, e = (1, mkMsg (if m.kind = 5 ∧ fld (streamDest y d m) 27 4 = 15 then tileDest (m.tag % 1024) 7 (fld (streamDest y d m) 31 3)
    else streamDest y d m) m.tag y.sect.gen.toNat (if m.kind = 5 then 5 else 0) bad pay)

/-- One result of a streamed firing is one message. -/
theorem sendResult_streams {y : Tile} {x : State} {p : Nat} (d : List Byte) (m : Msg) (bad : Bool) (pay : List Byte)
    (hc : (x.tile p).cfg = y.cfg) (hs : (x.tile p).sect = y.sect) :
    Streams (StreamMsg y d m) p 1 x (sendResult x p 1 (streamDest (x.tile p) d m) m.tag (m.kind == 5) bad pay) := by
  refine ⟨sends_sendResult p x _ _ _ _ _ _, ?_⟩
  unfold sendResult
  dsimp only
  rw [tile_modTile_self, streamDest_of_cfg hc, Tile.emit, hs]
  refine ⟨_, rfl, rfl, fun e he => ⟨bad, padTo (alignUp (max 1 pay.length) 64) pay, ?_⟩⟩
  rw [List.mem_singleton.mp he]
  simp [Bool.and_eq_true]

theorem countCalls_egress (s : State) (p conv i n : Nat) : ((countCalls s p conv i n).tile p).egress = (s.tile p).egress := by
  unfold countCalls
  split
  · unfold State.bumpTile; rw [tile_modTile_self]; rfl
  · rfl

theorem streamRow_streams {y : Tile} {x : State} {p : Nat} (d l : List Byte) (m : Msg) (segs : List (List Nat × List Cell))
    (hc : (x.tile p).cfg = y.cfg) (hs : (x.tile p).sect = y.sect) : Streams (StreamMsg y d m) p 1 x (streamRow p d l m x segs) := by
  unfold streamRow
  extract_lets t fmt outs pay ls i
  have counted := sends_countCalls p x (mmaConv d) i (segs.length * segCols (mmaFunc d))
  have row := sendResult_streams (y := y) (x := countCalls x p (mmaConv d) i (segs.length * segCols (mmaFunc d))) d m (outs.any (·.2)) pay
    (counted.cfg.trans hc) (counted.here.config.2.1.trans hs)
  rw [streamDest_of_cfg counted.cfg] at row
  exact streams_trans (streams_none counted (countCalls_egress x p _ _ _)) row

theorem storeAcc_sends (s : State) (p : Nat) (d l : List Byte) (pt : List Nat) (vs : List W32) :
    Sends p s (storeAcc s p d l pt vs) ∧ ((storeAcc s p d l pt vs).tile p).egress = (s.tile p).egress := by
  unfold storeAcc
  exact ⟨sends_modTile ⟨rfl, rfl, rfl⟩ ⟨rfl, rfl, rfl⟩ rfl rfl, by rw [tile_modTile_self]⟩

/-- Keeping row segments in the accumulator sends nothing. -/
theorem storeAccs_streams {P : Nat × Msg → Prop} (p : Nat) (d l : List Byte) (es : List (List Nat × List Cell)) (x : State) :
    Streams P p 0 x (es.foldl (fun z e => storeAcc z p d l e.1 (e.2.map (·.1.w))) x) := by
  have kept := streams_foldl (P := P) (p := p) (n := 0) (fun z (e : List Nat × List Cell) => storeAcc z p d l e.1 (e.2.map (·.1.w))) es x
    (fun z e _ _ => streams_none (storeAcc_sends z p d l e.1 _).1 (storeAcc_sends z p d l e.1 _).2)
  rwa [Nat.mul_zero] at kept

theorem streamRows_streams {y : Tile} {x : State} {p : Nat} (d l : List Byte) (m : Msg) (segs : List (List (List Nat × List Cell)))
    (hc : (x.tile p).cfg = y.cfg) (hs : (x.tile p).sect = y.sect) : Streams (StreamMsg y d m) p segs.length x (segs.foldl (streamRow p d l m) x) := by
  have sent := streams_foldl (P := StreamMsg y d m) (p := p) (n := 1) (streamRow p d l m) segs x (fun z e _ hz =>
    streamRow_streams d l m e (hz.config.1.trans hc) (hz.config.2.1.trans hs))
  rwa [Nat.mul_one] at sent

theorem streamTile_streams {y : Tile} {x : State} {p : Nat} (d l : List Byte) (m : Msg) (rows : Nat) (b : List Nat)
    (hc : (x.tile p).cfg = y.cfg) (hs : (x.tile p).sect = y.sect) : Streams (StreamMsg y d m) p rows x (streamTile p d l m rows x b) := by
  unfold streamTile
  extract_lets ls bk segs s1
  have all : segs.length = rows := by rw [List.length_map, List.length_range]
  have kept : Streams (StreamMsg y d m) p 0 x s1 := storeAccs_streams p d l segs.flatten x
  clear_value s1 segs
  have both := streams_trans kept (streamRows_streams (y := y) d l m segs (kept.sends.cfg.trans hc) (kept.sends.here.config.2.1.trans hs))
  rwa [all, Nat.zero_add] at both

theorem bumpTile_streams {P : Nat × Msg → Prop} (s : State) (p k n : Nat) : Streams P p 0 s (s.bumpTile p k n) :=
  streams_none (sends_bumpTile p s k n) (by rw [State.bumpTile, tile_modTile_self]; rfl)

/-- Four counters of a tile are raised. -/
theorem bumps_streams {P : Nat × Msg → Prop} (s : State) (p i a j b k c l e : Nat) :
    Streams P p 0 s (s.modTile p (fun t => (((t.bump i a).bump j b).bump k c).bump l e)) := by
  have four : s.modTile p (fun t => (((t.bump i a).bump j b).bump k c).bump l e) =
      (((s.bumpTile p i a).bumpTile p j b).bumpTile p k c).bumpTile p l e := by
    simp only [State.bumpTile, modTile_eq_setTile s, modTile_setTile]
  rw [four]
  exact streams_trans (streams_trans (streams_trans (bumpTile_streams s p i a) (bumpTile_streams _ p j b)) (bumpTile_streams _ p k c))
    (bumpTile_streams _ p l e)

theorem mmaCount_streams {P : Nat × Msg → Prop} (s : State) (p : Nat) (d l : List Byte) (chunk : List Nat → AChunk) :
    Streams P p 0 s (mmaCount s p d l chunk) := by
  unfold mmaCount
  exact bumps_streams s p _ _ _ _ _ _ _ _

/-- A firing on a payload of whole records sends a message for each row of each output tile. -/
theorem matrixFire_rows {s : State} {p rows : Nat} {m : Msg} (h : tokenRows ((s.tile p).desc 0) ((s.tile p).loopT 0) m = some rows) :
    Streams (StreamMsg (s.tile p) ((s.tile p).desc 0) m) p ((outTiles (withRows ((s.tile p).loopT 0) rows)).length * rows) s (matrixFire s p m) := by
  unfold matrixFire
  dsimp only
  rw [h]
  have counted := mmaCount_streams (P := StreamMsg (s.tile p) ((s.tile p).desc 0) m) s p ((s.tile p).desc 0) (withRows ((s.tile p).loopT 0) rows)
    (firedChunk ((s.tile p).desc 0) (withRows ((s.tile p).loopT 0) rows) m)
  have sent := streams_foldl (streamTile p ((s.tile p).desc 0) (withRows ((s.tile p).loopT 0) rows) m rows)
    (outTiles (withRows ((s.tile p).loopT 0) rows)) (mmaCount s p ((s.tile p).desc 0) (withRows ((s.tile p).loopT 0) rows)
    (firedChunk ((s.tile p).desc 0) (withRows ((s.tile p).loopT 0) rows) m)) (fun z b _ hz => streamTile_streams (y := s.tile p) _ _ m rows b
      (hz.config.1.trans counted.sends.cfg) (hz.config.2.1.trans counted.sends.here.config.2.1))
  have both := streams_trans counted sent
  rwa [Nat.zero_add] at both

theorem onceEvent_egress (s : State) (p u code limit : Nat) (d : List Byte) : ((s.onceEvent p u code limit d).tile p).egress = (s.tile p).egress :=
  (quiet_onceEvent p s u code limit d).1.egress

/-- A firing on any other payload is counted and logged, and sends nothing. -/
theorem matrixFire_partial {s : State} {p : Nat} {m : Msg} (P : Nat × Msg → Prop)
    (h : tokenRows ((s.tile p).desc 0) ((s.tile p).loopT 0) m = none) : Streams P p 0 s (matrixFire s p m) := by
  unfold matrixFire
  dsimp only
  rw [h]
  refine streams_none (sends_trans (sends_bumpTile p s (bankMxc 7) 1) (sends_onceEvent p _ _ _ _ _)) ?_
  rw [onceEvent_egress, tile_modTile_self]; rfl

theorem tokenRows_eq (d l : List Byte) (m : Msg) :
    let rec_ := aRecord d ((loopLevels l).getD 0 ⟨0, 0, []⟩).bound
    (m.pay.length % rec_ = 0 → rec_ ≠ 0 → tokenRows d l m = some (m.pay.length / rec_)) ∧
    (m.pay.length % rec_ ≠ 0 ∨ rec_ = 0 → tokenRows d l m = none) := by
  intro rec_
  unfold tokenRows
  refine ⟨fun h1 h2 => ?_, fun h => ?_⟩
  · exact if_neg (by simpa using ⟨h2, h1⟩)
  · exact if_pos (by rw [Bool.or_eq_true, beq_iff_eq, bne_iff_ne]; exact h.symm)

theorem sends_matrixFire (s : State) (p : Nat) (m : Msg) : Sends p s (matrixFire s p m) := by
  cases h : tokenRows ((s.tile p).desc 0) ((s.tile p).loopT 0) m with
  | none => exact (matrixFire_partial (fun _ => True) h).sends
  | some rows => exact (matrixFire_rows h).sends

end Sys2Proof.TileProofs
end

section
/-! PROOFS. Streamed firings: R38, R40, R109, R117. -/

namespace Sys2Proof.TileProofs

open Sys2Proof.Machine Sys2Proof.Safety Sys2Proof.Laws

/-- The state that a streamed firing leaves, where x is what its work leaves. -/
def afterFiring (s x : State) (p u : Nat) : State := done s (endFiring (takeTokens x p u) p u)

theorem exec_matrixStreamedFiring {n : BitVec 10} {s : State} {p : Nat} {m : Msg} (h : AtFiring s n 1 p)
    (hm : (firingPort (s.tile p) 1).bind (portHead s p 1) = some m) :
    ∃ a b, exec (.matrixStreamedFiring n none) s = .next (afterFiring s (matrixFire (seen s a b) p m) p 1) := by
  obtain ⟨a, b, e⟩ := meet_clean s p ((firingPorts (s.tile p) 1).flatMap (portWords s p 1) ++ matrixFireReads s p m) h.clean
  have head : (firingPort ((seen s a b).tile p) 1).bind (portHead (seen s a b) p 1) = some m := hm
  refine ⟨a, b, ?_⟩
  simp only [exec, execMatrixStreamedFiring, h.fires, hm, e, head, Option.getD_some, if_true, afterFiring]

theorem exec_streamedFiring {n : BitVec 10} {s : State} {p : Nat} {reduction : Bool} (h : AtFiring s n (if reduction then 3 else 2) p) :
    ∃ a b, exec (.streamedFiring n reduction none) s = .next (afterFiring s
      (if reduction then reductionFire (seen s a b) p else vectorFire (seen s a b) p) p (if reduction then 3 else 2)) := by
  obtain ⟨a, b, e⟩ := meet_clean s p ((firingPorts (s.tile p) (if reduction then 3 else 2)).flatMap
    (portWords s p (if reduction then 3 else 2))) h.clean
  refine ⟨a, b, ?_⟩
  simp only [exec, execStreamedFiring, h.fires, e, if_true, afterFiring]

theorem sends_seen (p : Nat) (s : State) (a : List Nat) (b : Assoc Nat) : Sends p s (seen s a b) := ⟨local_seen p s a b, rfl, rfl, rfl⟩

theorem afterFiring_fired {n : BitVec 10} {s x : State} {p u : Nat} (h : AtFiring s n u p) (hu : 1 ≤ u) (hx : Sends p s x) :
    Fired s x (afterFiring s x p u) p u := firing_ends h.runs h.canonical hu hx

/-- What a firing sends and accumulates is what another state of the same tile says. -/
theorem fired_atHost {s x t : State} {h : HostPort} {p u : Nat} (f : Fired s (atHost x h) t p u) : Fired s x t p u :=
  ⟨f.ports, f.count, f.egress, f.acc, f.config, f.queues, f.others, f.mem, f.only⟩

theorem matrixFiring_holds (n : BitVec 10) (s : State) (p : Nat) (m : Msg) (h : AtFiring s n 1 p)
    (hm : (firingPort (s.tile p) 1).bind (portHead s p 1) = some m) :
    let d := (s.tile p).desc 0
    let rec_ := aRecord d ((loopLevels ((s.tile p).loopT 0)).getD 0 ⟨0, 0, []⟩).bound
    ∃ a b t, exec (.matrixStreamedFiring n none) s = .next t ∧ Fired s (matrixFire (seen s a b) p m) t p 1 ∧
      (m.pay.length % rec_ = 0 → rec_ ≠ 0 →
        ∃ ms, (t.tile p).egress = (s.tile p).egress ++ ms ∧
          ms.length = m.pay.length / rec_ * (outTiles (withRows ((s.tile p).loopT 0) (m.pay.length / rec_))).length ∧
          ∀ e ∈ ms, StreamMsg (s.tile p) d m e) ∧
      (m.pay.length % rec_ ≠ 0 ∨ rec_ = 0 → (t.tile p).egress = (s.tile p).egress) := by
  intro d rec_
  obtain ⟨a, b, e⟩ := exec_matrixStreamedFiring h hm
  have fired := afterFiring_fired h (Nat.le_refl 1) (sends_trans (sends_seen p s a b) (sends_matrixFire (seen s a b) p m))
  refine ⟨a, b, _, e, fired, fun hwhole h0 => ?_, fun hpart => ?_⟩
  · obtain ⟨ms, sent, len, all⟩ := (matrixFire_rows (s := seen s a b) ((tokenRows_eq d ((s.tile p).loopT 0) m).1 hwhole h0)).sent
    exact ⟨ms, fired.egress.trans sent, len.trans (Nat.mul_comm _ _), all⟩
  · obtain ⟨ms, sent, len, -⟩ := (matrixFire_partial (s := seen s a b) (fun _ => True) ((tokenRows_eq d ((s.tile p).loopT 0) m).2 hpart)).sent
    rw [List.eq_nil_of_length_eq_zero len, List.append_nil] at sent
    exact fired.egress.trans sent

theorem unitFiring_holds (n : BitVec 10) (s : State) (p : Nat) (reduction : Bool) (h : AtFiring s n (if reduction then 3 else 2) p) :
    ∃ t, exec (.streamedFiring n reduction none) s = .next t ∧
      Fired s (if reduction then reductionFire s p else vectorFire s p) t p (if reduction then 3 else 2) := by
  obtain ⟨a, b, e⟩ := exec_streamedFiring h
  refine ⟨_, e, ?_⟩
  cases reduction with
  | true =>
    obtain ⟨k, same⟩ : ∃ k, reductionFire (seen s a b) p = atHost (reductionFire s p) k := blind_reductionFire p s (seen s a b).host
    have fired := afterFiring_fired h (by decide) (sends_trans (sends_seen p s a b) (sends_reductionFire p (seen s a b)))
    exact fired_atHost (h := k) (same ▸ fired)
  | false =>
    obtain ⟨k, same⟩ : ∃ k, vectorFire (seen s a b) p = atHost (vectorFire s p) k := blind_vectorFire p s (seen s a b).host
    have fired := afterFiring_fired h (by decide) (sends_trans (sends_seen p s a b) (sends_vectorFire p (seen s a b)))
    exact fired_atHost (h := k) (same ▸ fired)

/-- The vector engine sends nothing where the access counts of its ports differ (R117). -/
theorem vectorFire_differing {s : State} {p : Nat}
    (h : ∃ c ∈ ((vPortOperands ((s.tile p).desc 0)).zip (firingTokens s p 2)).map
        (fun e => accessCount e.2.pay.length (vFireG ((s.tile p).desc 0)) (vFmt ((s.tile p).desc 0) e.1)),
      c ≠ (((vPortOperands ((s.tile p).desc 0)).zip (firingTokens s p 2)).map
        (fun e => accessCount e.2.pay.length (vFireG ((s.tile p).desc 0)) (vFmt ((s.tile p).desc 0) e.1))).headD 0) :
    ((vectorFire s p).tile p).egress = (s.tile p).egress := by
  unfold vectorFire
  extract_lets y d l toks ops g counts fo st first n acc l0 vbBad
  have differ : (counts.any (fun c => c != counts.headD 0) || vbBad) = true := by
    obtain ⟨c, hc, hne⟩ := h
    rw [Bool.or_eq_true]
    exact .inl (List.any_eq_true.mpr ⟨c, hc, bne_iff_ne.mpr hne⟩)
  rw [if_pos differ]
  exact onceEvent_egress s p 2 _ _ _

theorem differingFiring_holds (n : BitVec 10) (s : State) (p : Nat) (h : AtFiring s n 2 p) :
    let d := (s.tile p).desc 0
    let counts := ((vPortOperands d).zip (firingTokens s p 2)).map (fun e => accessCount e.2.pay.length (vFireG d) (vFmt d e.1))
    (∃ c ∈ counts, c ≠ counts.headD 0) →
    ∃ t, exec (.streamedFiring n false none) s = .next t ∧ (t.tile p).egress = (s.tile p).egress := by
  intro d counts differ
  obtain ⟨t, e, fired⟩ := unitFiring_holds n s p false h
  exact ⟨t, e, fired.egress.trans (vectorFire_differing differ)⟩

end Sys2Proof.TileProofs
end

section
/-! PROOFS. Sluices: R41-R46. Settles O51. -/

namespace Sys2Proof.TileProofs

open Sys2Proof.Machine Sys2Proof.Safety Sys2Proof.Laws

/-! ## What a sluice firing leaves -/

/-- Work of tile p that leaves its ports, sluices and egress alone beside. -/
structure Idle (p : Nat) (s t : State) : Prop where
  here : Local p s t
  ports : (t.tile p).ports = (s.tile p).ports
  egress : (t.tile p).egress = (s.tile p).egress
  sluices : (t.tile p).sluices = (s.tile p).sluices

theorem idle_refl (p : Nat) (s : State) : Idle p s s := ⟨local_refl p s, rfl, rfl, rfl⟩

theorem idle_trans {p : Nat} {a b c : State} (h : Idle p a b) (g : Idle p b c) : Idle p a c :=
  ⟨local_trans h.here g.here, g.ports.trans h.ports, g.egress.trans h.egress, g.sluices.trans h.sluices⟩

theorem idle_ite {p : Nat} {s x y : State} (c : Prop) [Decidable c] (hx : Idle p s x) (hy : Idle p s y) : Idle p s (if c then x else y) :=
  ite_prop (fun _ => hx) (fun _ => hy)

theorem idle_modTile {p : Nat} {s : State} {f : Tile → Tile}
    (config : (f (s.tile p)).cfg = (s.tile p).cfg ∧ (f (s.tile p)).sect = (s.tile p).sect ∧ (f (s.tile p)).seq = (s.tile p).seq)
    (queues : (f (s.tile p)).queues = (s.tile p).queues ∧ (f (s.tile p)).gq = (s.tile p).gq ∧ (f (s.tile p)).router = (s.tile p).router)
    (rest : (f (s.tile p)).ports = (s.tile p).ports ∧ (f (s.tile p)).egress = (s.tile p).egress ∧ (f (s.tile p)).sluices = (s.tile p).sluices) :
    Idle p s (s.modTile p f) := by
  obtain ⟨ports, egress, sluices⟩ := rest
  refine ⟨local_modTile config queues, ?_, ?_, ?_⟩ <;> rw [tile_modTile_self] <;> assumption

theorem idle_event (p : Nat) (s : State) (code kind index : Nat) (ctx : Option Nat) (d : List Byte) : Idle p s (s.event code kind index ctx d) :=
  ⟨local_event p s code kind index ctx d, by rw [tile_event], by rw [tile_event], by rw [tile_event]⟩

theorem idle_discardEvent (s : State) (p k : Nat) (x : Sluice) : Idle p s (slDiscardEvent s p k x) := by
  unfold slDiscardEvent
  exact idle_ite _ (idle_trans (idle_modTile ⟨rfl, rfl, rfl⟩ ⟨rfl, rfl, rfl⟩ ⟨rfl, rfl, rfl⟩) (idle_event p _ _ _ _ _ _)) (idle_refl p s)

/-- The end of a sluice firing: it is counted, and the steering block may finish. -/
def endSteering (s : State) (p : Nat) : State := settle ((s.noteProgress p).bumpTile p (bankFire 6) 1) p

theorem idle_endSteering (s : State) (p : Nat) : Idle p s (endSteering s p) :=
  idle_trans (idle_trans (idle_modTile ⟨rfl, rfl, rfl⟩ ⟨rfl, rfl, rfl⟩ ⟨rfl, rfl, rfl⟩)
      (idle_modTile ⟨rfl, rfl, rfl⟩ ⟨rfl, rfl, rfl⟩ ⟨rfl, rfl, rfl⟩))
    (idle_ite _ (idle_modTile ⟨rfl, rfl, rfl⟩ ⟨rfl, rfl, rfl⟩ ⟨rfl, rfl, rfl⟩) (idle_refl p _))

/-- Work of sluice k of tile p: the steering ports of l lose their heads, the messages ms leave, and the sluice becomes z. -/
structure Turned (p k : Nat) (l : List Nat) (ms : List (Nat × Msg)) (z : Sluice) (s t : State) : Prop where
  here : Local p s t
  ports : PortsLost (s.tile p) (t.tile p) 6 l
  sent : (t.tile p).egress = (s.tile p).egress ++ ms
  sluices : (t.tile p).sluices = aput (s.tile p).sluices k z

section
variable {p k : Nat} {l : List Nat} {ms : List (Nat × Msg)} {z : Sluice} {s x t : State}

theorem turned_after (h : Turned p k l ms z s x) (g : Idle p x t) : Turned p k l ms z s t :=
  ⟨local_trans h.here g.here, portsLost_of_ports h.ports rfl g.ports, g.egress.trans h.sent, g.sluices.trans h.sluices⟩

/-- The sluice takes the head of port j first. -/
theorem turned_first {j : Nat} (hj : j < 8) (hl : ∀ i ∈ l, i < 8) (hjl : j ∉ l) (h : Popped p 6 [j] s x) (g : Turned p k l ms z x t) :
    Turned p k (j :: l) ms z s t := by
  obtain ⟨here, ports, P, B, tile⟩ := h
  exact ⟨local_trans here g.here, portsLost_cons (by decide) hj hl hjl ports g.ports, by rw [g.sent, tile], by rw [g.sluices, tile]⟩

/-- The sluice takes the heads of the ports of l at the end. -/
theorem turned_last (hl : ∀ i ∈ l, i < 8) (h : Turned p k [] ms z s x) (g : Popped p 6 l x t) : Turned p k l ms z s t := by
  obtain ⟨here, ports, P, B, tile⟩ := g
  have still (v i : Nat) (hv : 1 ≤ v) (hi : i < 8) : (x.tile p).port v i = (s.tile p).port v i := h.ports.2 v i hv hi (.inr List.not_mem_nil)
  refine ⟨local_trans h.here here, ⟨fun i hi => ?_, fun v i hv hi hd => ?_⟩, by rw [tile]; exact h.sent, by rw [tile]; exact h.sluices⟩
  · rw [ports.1 i hi, still 6 i (by decide) (hl i hi)]
  · rw [ports.2 v i hv hi hd, still v i hv hi]

theorem turned_modTile {f : Tile → Tile}
    (config : (f (s.tile p)).cfg = (s.tile p).cfg ∧ (f (s.tile p)).sect = (s.tile p).sect ∧ (f (s.tile p)).seq = (s.tile p).seq)
    (queues : (f (s.tile p)).queues = (s.tile p).queues ∧ (f (s.tile p)).gq = (s.tile p).gq ∧ (f (s.tile p)).router = (s.tile p).router)
    (ports : (f (s.tile p)).ports = (s.tile p).ports) (sent : (f (s.tile p)).egress = (s.tile p).egress ++ ms)
    (sluices : (f (s.tile p)).sluices = aput (s.tile p).sluices k z) : Turned p k [] ms z s (s.modTile p f) :=
  ⟨local_modTile config queues, portsLost_nil (by rw [tile_modTile_self]; exact ports) 6, by rw [tile_modTile_self]; exact sent,
    by rw [tile_modTile_self]; exact sluices⟩

/-- A sluice firing stands when the command ends. -/
theorem steered_of_turned (hr : s.stopped = false) (hc : s.mem.wf = true) (h : Turned p k l ms z s t) :
    Steered s (done s (endSteering t p)) p k l ms z := by
  obtain ⟨here, ports, sent, sluices⟩ := turned_after h (idle_endSteering t p)
  have whole := local_done hr hc here
  refine ⟨?_, ?_, ?_, fun j hj => ?_, whole.config, whole.queues, whole.others, whole.mem, whole.only⟩ <;> rw [done_tile hr]
  · exact ports
  · exact sent
  · rw [Tile.sluice, sluices, agetD_aput_self]
  · rw [Tile.sluice, sluices, agetD_aput_other _ _ _ _ _ hj, Tile.sluice]

end

/-! ## Forks -/

theorem emits_eq (u : Nat) (f : Nat → Msg) (l : List Nat) : ∀ y : Tile,
    l.foldl (fun z r => z.emit u (f r)) y = { y with egress := y.egress ++ l.map (fun r => (u, f r)) } := by
  induction l with
  | nil => exact fun y => by rw [List.foldl_nil, List.map_nil, List.append_nil]
  | cons r l ih => exact fun y => by rw [List.foldl_cons, ih, List.map_cons, List.append_cons]; rfl

/-- A fork takes its token and sends it to every enabled route (R43). -/
theorem forkFire_turned (s : State) (p k : Nat) (e : List Byte) (m : Msg) (ha : slPortA e < 8) :
    Turned p k [slPortA e] (((List.range 4).filter (slEnabled e)).map (fun r => (6, routed m (slRoute e r) false)))
      { (s.tile p).sluice k with forwarded := sat32 ((s.tile p).sluice k).forwarded ((List.range 4).filter (slEnabled e)).length }
      s (forkFire s p k e m) := by
  have popped := popPort_popped s (p := p) (u := 6) (by decide) ha
  obtain ⟨P, B, tile⟩ := popped.tile
  have same : ((popPort s p 6 (slPortA e)).tile p).sluice k = (s.tile p).sluice k := by rw [tile]; rfl
  refine turned_first ha (fun _ hi => absurd hi List.not_mem_nil) List.not_mem_nil popped ?_
  unfold forkFire
  dsimp only
  simp only [emits_eq, ← same]
  exact turned_modTile ⟨rfl, rfl, rfl⟩ ⟨rfl, rfl, rfl⟩ rfl rfl rfl

/-! ## Switches, merges and gates -/

/-- The ports whose heads a sluice takes: its data port, and with the last of a run its control port (R42). -/
def slTaken (e : List Byte) (x : Sluice) : List Nat := if x.remaining - 1 = 0 then [slDataPort e x, slPortC e] else [slDataPort e x]

/-- The run of a sluice after one more of its tokens. -/
def slStepped (x : Sluice) : Sluice := { x with remaining := x.remaining - 1, inRun := x.remaining - 1 != 0 }

section
variable {s : State} {p k : Nat} {e : List Byte} {ctl m : Msg} {x : Sluice}

/-- The heads that a sluice takes frame what it writes in between. -/
theorem turned_taken {ms : List (Nat × Msg)} {z : Sluice} {t : State} (hd : slDataPort e x < 8) (hp : slPortC e < 8)
    (hdp : slDataPort e x ≠ slPortC e) (h : Turned p k [] ms z (popPort s p 6 (slDataPort e x)) t) :
    Turned p k (slTaken e x) ms z s (if x.remaining - 1 == 0 then popPort t p 6 (slPortC e) else t) := by
  have popped := popPort_popped s (p := p) (u := 6) (by decide) hd
  have one : ∀ i ∈ [slPortC e], i < 8 := fun i hi => by rw [List.mem_singleton.mp hi]; exact hp
  unfold slTaken
  by_cases h0 : x.remaining - 1 = 0
  · rw [if_pos h0, if_pos (beq_iff_eq.mpr h0)]
    exact turned_first hd one (fun hi => hdp (List.mem_singleton.mp hi)) popped (turned_last one h (popPort_popped t (by decide) hp))
  · rw [if_neg h0, if_neg (fun hb => h0 (beq_iff_eq.mp hb))]
    exact turned_first hd (fun _ hi => absurd hi List.not_mem_nil) List.not_mem_nil popped h

/-- A sluice whose control token selects route r sends the data token there. -/
theorem slFire_sends {r : Nat} (hx : slRun ((s.tile p).sluice k) ctl = x) (hm : portHead s p 6 (slDataPort e x) = some m)
    (hd : slDataPort e x < 8) (hp : slPortC e < 8) (hdp : slDataPort e x ≠ slPortC e) (ht : slTarget e x = some r) :
    Turned p k (slTaken e x) [(6, routed m (slRoute e r) x.poisoned)]
      { slStepped x with forwarded := sat32 (slStepped x).forwarded 1 } s (slFire s p k e ctl) := by
  unfold slFire
  dsimp only
  rw [hx, hm, ht]
  exact turned_taken hd hp hdp (turned_modTile ⟨rfl, rfl, rfl⟩ ⟨rfl, rfl, rfl⟩ rfl rfl rfl)

/-- A sluice whose control token selects no route discards the data token. -/
theorem slFire_discards (hx : slRun ((s.tile p).sluice k) ctl = x) (hm : portHead s p 6 (slDataPort e x) = some m)
    (hd : slDataPort e x < 8) (hp : slPortC e < 8) (hdp : slDataPort e x ≠ slPortC e) (ht : slTarget e x = none) :
    Turned p k (slTaken e x) [] { slStepped x with discarded := sat32 (slStepped x).discarded 1 } s (slFire s p k e ctl) := by
  unfold slFire
  dsimp only
  rw [hx, hm, ht]
  refine turned_taken hd hp hdp (turned_after (turned_modTile ⟨rfl, rfl, rfl⟩ ⟨rfl, rfl, rfl⟩ rfl (List.append_nil _).symm rfl)
    (idle_ite _ (idle_discardEvent _ p k x) (idle_refl p _)))

end

/-! ## SLUICE_FIRING -/

section
variable {n : BitVec 10} {k : BitVec 2} {s : State} {p : Nat}

/-- The check that lets a sluice look at its ports passes. -/
theorem sluice_looks (h : AtSluice s n p) : (decide (n.toNat < s.ntiles) && (s.tile p).live && !(s.tile p).isFinished 6) = true := by
  rw [decide_eq_true h.present, h.live, h.unfinished]; rfl

theorem exec_fork (h : AtSluice s n p) {m : Msg} (hk : slKind ((s.tile p).sluiceEntry k.toNat) = 4)
    (hm : portHead s p 6 (slPortA ((s.tile p).sluiceEntry k.toNat)) = some m) :
    ∃ a b, exec (.sluiceFiring n k none) s =
      .next (done s (endSteering (forkFire (seen s a b) p k.toNat ((s.tile p).sluiceEntry k.toNat) m) p)) := by
  obtain ⟨a, b, e⟩ := meet_clean s p (portWords s p 6 (slPortA ((s.tile p).sluiceEntry k.toNat)) ++ []) h.clean
  have head : portHead (seen s a b) p 6 (slPortA ((s.tile p).sluiceEntry k.toNat)) = some m := hm
  refine ⟨a, b, ?_⟩
  simp only [exec, execSluiceFiring, h.place, if_pos (sluice_looks h), hk, hm, beq_self_eq_true, if_true, e, Bool.not_true, Bool.false_eq_true,
    if_false, head, Option.getD_some, endSteering]

theorem exec_switch (h : AtSluice s n p) {ctl m : Msg} (h1 : 1 ≤ slKind ((s.tile p).sluiceEntry k.toNat)) (h3 : slKind ((s.tile p).sluiceEntry k.toNat) ≤ 3)
    (hp : portHead s p 6 (slPortC ((s.tile p).sluiceEntry k.toNat)) = some ctl)
    (hm : portHead s p 6 (slDataPort ((s.tile p).sluiceEntry k.toNat) (slRun ((s.tile p).sluice k.toNat) ctl)) = some m) :
    ∃ a b, exec (.sluiceFiring n k none) s =
      .next (done s (endSteering (slFire (seen s a b) p k.toNat ((s.tile p).sluiceEntry k.toNat) ctl) p)) := by
  obtain ⟨a, b, e⟩ := meet_clean s p (portWords s p 6 (slDataPort ((s.tile p).sluiceEntry k.toNat)
    (slRun ((s.tile p).sluice k.toNat) ctl)) ++ portWords s p 6 (slPortC ((s.tile p).sluiceEntry k.toNat))) h.clean
  have head : portHead (seen s a b) p 6 (slPortC ((s.tile p).sluiceEntry k.toNat)) = some ctl := hp
  have kinds : slKind ((s.tile p).sluiceEntry k.toNat) = 1 ∨ slKind ((s.tile p).sluiceEntry k.toNat) = 2 ∨
    slKind ((s.tile p).sluiceEntry k.toNat) = 3 := by omega
  refine ⟨a, b, ?_⟩
  simp only [exec, execSluiceFiring, h.place, if_pos (sluice_looks h)]
  rcases kinds with hk | hk | hk <;> simp [hk, hp, hm, e, head, endSteering]

/-- A sluice without a kind, or without its control token, does nothing. -/
theorem exec_unready (h : AtSluice s n p) (hk : slKind ((s.tile p).sluiceEntry k.toNat) = 0 ∨
      slKind ((s.tile p).sluiceEntry k.toNat) ≤ 3 ∧ portHead s p 6 (slPortC ((s.tile p).sluiceEntry k.toNat)) = none) :
    exec (.sluiceFiring n k none) s = .next (done s s) := by
  have kinds : slKind ((s.tile p).sluiceEntry k.toNat) = 0 ∨ (slKind ((s.tile p).sluiceEntry k.toNat) = 1 ∨
      slKind ((s.tile p).sluiceEntry k.toNat) = 2 ∨ slKind ((s.tile p).sluiceEntry k.toNat) = 3) ∧
      portHead s p 6 (slPortC ((s.tile p).sluiceEntry k.toNat)) = none := by
    rcases hk with h0 | ⟨h3, hp⟩
    · exact .inl h0
    · by_cases h0 : slKind ((s.tile p).sluiceEntry k.toNat) = 0
      · exact .inl h0
      · exact .inr ⟨by omega, hp⟩
  simp only [exec, execSluiceFiring, h.place, if_pos (sluice_looks h)]
  rcases kinds with h0 | ⟨h1 | h2 | h3, hp⟩
  · simp [h0]
  · simp [h1, hp]
  · simp [h2, hp]
  · simp [h3, hp]

end

theorem turned_seen {p k : Nat} {l : List Nat} {ms : List (Nat × Msg)} {z : Sluice} {s t : State} {a : List Nat} {b : Assoc Nat}
    (h : Turned p k l ms z (seen s a b) t) : Turned p k l ms z s t :=
  ⟨local_trans (local_seen p s a b) h.here, h.ports, h.sent, h.sluices⟩

/-- Settles O51: a firing takes its tokens and ends as `firing_ends` says; what it sends is a sum over the rows of its output tiles
for the matrix engine, and does not depend on the lines that the host held for the other units. A sluice's ports, messages and
state follow the order of R43: data token, what it writes, control token. -/
theorem firingsAndSluices : Obligations.FiringsAndSluices := by
  unfold Obligations.FiringsAndSluices
  refine ⟨matrixFiring_holds, unitFiring_holds, differingFiring_holds, ?_⟩
  intro n k s p h y e
  refine ⟨?fork, ?run, ?idle⟩
  case fork =>
    intro m hk ha hm routes
    obtain ⟨a, b, ex⟩ := exec_fork h hk hm
    exact ⟨_, ex, steered_of_turned h.runs h.canonical (turned_seen (forkFire_turned (seen s a b) p k.toNat e m ha))⟩
  case run =>
    intro ctl m h1 h3 hp x x1 hm hd hpc hdp
    obtain ⟨a, b, ex⟩ := exec_switch h h1 h3 hp hm
    refine ⟨_, ex, ?_⟩
    have head : portHead (seen s a b) p 6 (slDataPort e x) = some m := hm
    cases ht : slTarget e x with
    | some r => exact steered_of_turned h.runs h.canonical (turned_seen (slFire_sends rfl head hd hpc hdp ht))
    | none => exact steered_of_turned h.runs h.canonical (turned_seen (slFire_discards rfl head hd hpc hdp ht))
  case idle =>
    intro hk
    exact ⟨_, exec_unready h hk, done_frame h.runs h.canonical rfl (only_refl _ s)⟩

end Sys2Proof.TileProofs
end

section
/-! SUPPORT. Router queues: the head that a queue loses, and the one that is written back as it was (R180, R187). -/

namespace Sys2Proof.TileProofs

open Sys2Proof.Machine Sys2Proof.Safety Sys2Proof.Laws

/-! ## The tree node's messages -/

/-- Without its first element of a kind, a list keeps the others of the kind. -/
theorem filter_eraseIdx_findIdx_self {α : Type} (f : α → Bool) (l : List α) :
    (l.eraseIdx (l.findIdx f)).filter f = (l.filter f).drop 1 := by
  induction l with
  | nil => rfl
  | cons a l ih =>
    cases h : f a with
    | true => simp [List.findIdx_cons, h]
    | false => simp [List.findIdx_cons, h, ih]

theorem filter_eraseIdx_findIdx_other {α : Type} (f g : α → Bool) (hfg : ∀ a, f a = true → g a = false) (l : List α) :
    (l.eraseIdx (l.findIdx f)).filter g = l.filter g := by
  induction l with
  | nil => rfl
  | cons a l ih =>
    cases h : f a with
    | true => simp [List.findIdx_cons, h, hfg a h]
    | false => simp [List.findIdx_cons, h, List.filter_cons, ih]

/-- A list whose first element of a kind is written as it was stands. -/
theorem modify_findIdx_same {α : Type} (f : α → Bool) (g : α → α) (l : List α)
    (h : ∀ a, (l.filter f).head? = some a → g a = a) : l.modify (l.findIdx f) g = l := by
  induction l with
  | nil => rfl
  | cons a l ih =>
    cases hf : f a with
    | true => simp [List.findIdx_cons, hf, h a (by simp [hf])]
    | false => simp [List.findIdx_cons, hf, ih (fun b hb => h b (by simpa [hf] using hb))]

/-! ## A queue loses its head -/

theorem agetD_setQ_self (r : Router) (k : Nat) (l : List Msg) (hs : asorted r.queues = true) : agetD (r.setQ k l).queues k [] = l := by
  unfold Router.setQ
  cases l with
  | nil => simp [agetD, aget?_adel_self _ _ hs]
  | cons m l => exact agetD_aput_self _ _ _ _

theorem agetD_setQ_other (r : Router) (k j : Nat) (l : List Msg) (hs : asorted r.queues = true) (h : j ≠ k) :
    agetD (r.setQ k l).queues j [] = agetD r.queues j [] := by
  unfold Router.setQ
  cases l with
  | nil => simp [agetD, aget?_adel_other _ _ _ hs h]
  | cons m l => exact agetD_aput_other _ _ _ _ _ h

section
variable {r : Router} {k : Nat} (clk : Nat)

/-- A queue of lane 0 or 1 of an input loses its head. -/
theorem pop_below (hk : k < 15) (h2 : lane2Key k = false) : ∃ v, r.pop k clk = { r.setQ k ((r.q k).drop 1) with moved := v } := by
  unfold Router.pop
  rw [if_neg (Nat.not_le.mpr hk), h2, if_neg Bool.false_ne_true]
  exact ⟨_, rfl⟩

/-- A lane of the tree node loses its first message. -/
theorem pop_above (hk : 15 ≤ k) : ∃ v, r.pop k clk = { r.popNode (k - 15) with moved := v } := by
  unfold Router.pop
  rw [if_pos hk]
  exact ⟨_, rfl⟩

theorem q_pop_self (hs : asorted r.queues = true) (h2 : lane2Key k = false) : (r.pop k clk).q k = (r.q k).drop 1 := by
  by_cases hk : k < 15
  · obtain ⟨v, e⟩ := pop_below (r := r) clk hk h2
    rw [e, Router.q, if_pos hk]
    exact agetD_setQ_self r k _ hs
  · obtain ⟨v, e⟩ := pop_above (r := r) clk (Nat.not_lt.mp hk)
    rw [e, Router.q, if_neg hk, Router.q, if_neg hk]
    show List.map _ (List.filter _ (List.eraseIdx _ _)) = _
    rw [filter_eraseIdx_findIdx_self, Router.nodeLane, List.map_drop]

theorem q_pop_other {j : Nat} (hs : asorted r.queues = true) (h2 : lane2Key k = false) (hj : j ≠ k) : (r.pop k clk).q j = r.q j := by
  by_cases hk : k < 15
  · obtain ⟨v, e⟩ := pop_below (r := r) clk hk h2
    rw [e]
    exact ite_congr rfl (fun _ => agetD_setQ_other r k j _ hs hj) (fun _ => rfl)
  · obtain ⟨v, e⟩ := pop_above (r := r) clk (Nat.not_lt.mp hk)
    rw [e]
    refine ite_congr rfl (fun _ => rfl) (fun hj15 => ?_)
    show List.map _ (List.filter _ (List.eraseIdx _ _)) = List.map _ (List.filter _ _)
    rw [filter_eraseIdx_findIdx_other]
    intro a ha
    have hak : kindLane a.2.kind = k - 15 := by simpa using ha
    simp only [hak, beq_eq_false_iff_ne]
    omega

/-- What a queue's loss of its head leaves of a router. -/
theorem pop_rest (h2 : lane2Key k = false) : ((r.pop k clk).spill = r.spill ∧ (r.pop k clk).dike = r.dike) ∧
    (k < 15 → (r.pop k clk).insts = r.insts) := by
  by_cases hk : k < 15
  · obtain ⟨v, e⟩ := pop_below (r := r) clk hk h2
    rw [e]
    exact ⟨⟨rfl, rfl⟩, fun _ => rfl⟩
  · obtain ⟨v, e⟩ := pop_above (r := r) clk (Nat.not_lt.mp hk)
    rw [e]
    exact ⟨⟨rfl, rfl⟩, fun h => absurd h hk⟩

end

/-! ## A head written as it was -/

theorem setHead_same {r : Router} {k : Nat} {m : Msg} {l : List Msg} (h : r.q k = m :: l) : r.setHead k m = r := by
  unfold Router.setHead
  by_cases hk : k < 15
  · rw [if_pos hk, h]
    have listed : aget? r.queues k = some (m :: l) := by
      rw [Router.q, if_pos hk, agetD] at h
      cases hq : aget? r.queues k with
      | none => rw [hq] at h; exact absurd h (by simp)
      | some x => rw [hq] at h; exact congrArg some h
    show { r with queues := aput r.queues k (m :: l) } = r
    rw [aput_same _ _ _ listed]
  · rw [if_neg hk]
    rw [Router.q, if_neg hk, Router.nodeLane] at h
    rw [modify_findIdx_same]
    intro e he
    have : some e.2 = some m := by rw [← List.head?_cons (a := m) (l := l), ← h, List.head?_map, he]; rfl
    rw [← Option.some.inj this]

/-- A tile that differs from one at reset is listed, and stands when it is written as it was. -/
theorem setTile_same {s : State} {p : Nat} (h : s.tile p ≠ Tile.reset) : s.setTile p (s.tile p) = s := by
  have listed : aget? s.tiles p = some (s.tile p) := by
    unfold State.tile agetD at h ⊢
    cases hp : aget? s.tiles p with
    | none => rw [hp] at h; exact absurd rfl h
    | some y => rfl
  show { s with tiles := aput s.tiles p (s.tile p) } = s
  rw [aput_same _ _ _ listed]

theorem state_setHead_same {s : State} {p k : Nat} {m : Msg} {l : List Msg} (h : s.rq p k = m :: l) : s.setHead p k m = s := by
  have router : (s.tile p).router.setHead k m = (s.tile p).router := setHead_same h
  have tile : s.setHead p k m = s.setTile p (s.tile p) := by
    unfold State.setHead
    rw [modTile_eq_setTile, Tile.modRouter, router]
  rw [tile]
  refine setTile_same (fun hreset => ?_)
  rw [State.rq, hreset] at h
  have none : Tile.reset.router.q k = [] := by
    unfold Router.q
    split <;> rfl
  rw [none] at h
  cases h

end Sys2Proof.TileProofs
end

section
/-! SUPPORT. A message that its own tile takes from a router's queue, or leaves there (R35, R180, R182, R184, R186). -/

namespace Sys2Proof.TileProofs

open Sys2Proof.Machine Sys2Proof.Safety Sys2Proof.Laws

/-! ## The census of a message that ends -/

theorem countedTiles_of_regs {s t : State} (h : t.regs = s.regs) (m : Msg) : m.countedTiles t = m.countedTiles s := by
  have device : t.deviceId = s.deviceId := by unfold State.deviceId State.reg; rw [h]
  unfold Msg.countedTiles Msg.here
  rw [device]

/-- The census after a message depends on the census before it, and on the device's ID. -/
theorem count_census {s t : State} (hc : t.census = s.census) (hr : t.regs = s.regs) (m : Msg) (d : Int) :
    (t.count m d).census = (s.count m d).census := by
  unfold State.count
  rw [countedTiles_of_regs hr]
  generalize m.countedTiles s = l
  clear hr
  induction l generalizing s t with
  | nil => exact hc
  | cons n l ih => exact ih (by simp only [State.censusAdd, State.census?, hc])

/-! ## What a taken head leaves -/

/-- z follows s by what tile p does with a message that the ejection arbiter may have granted: the queues stand yet. -/
structure Ejected (l : List Kind) (p : Nat) (s z : State) : Prop where
  router : ∃ g, (z.tile p).router = { (s.tile p).router with granted := g }
  others : ∀ q, q ≠ p → z.tile q = s.tile q
  still : z.mem = s.mem ∧ z.census = s.census ∧ z.regs = s.regs
  only : Only (.tiles :: .census :: l) s z

/-- t follows z by the loss of the head of queue k of router p, with message m at its end. -/
structure Gone (p k : Nat) (m : Msg) (z t : State) : Prop where
  tile : ∃ clk c f g, t.tile p = { z.tile p with router := (z.tile p).router.pop k clk, ctrs := c, finished := f, progress := g }
  others : ∀ q, q ≠ p → t.tile q = z.tile q
  census : t.census = (z.count m (-1)).census
  shape : ∃ tl c, t = { z with tiles := tl, census := c }

theorem only_tilesCensus (l : List Kind) (z : State) (tl : Assoc Tile) (c : Assoc (BitVec 24)) :
    Only (.tiles :: .census :: l) z { z with tiles := tl, census := c } := by
  refine ⟨rfl, rfl, fun k hk => ?_⟩
  cases k <;> simp [Kind.same] at hk ⊢

/-- A head of a queue that its tile takes. -/
theorem taken_leaves {l : List Kind} {p k : Nat} {m m0 : Msg} {r : List Msg} {s z t : State} (h : HeadOf s p k m0 r) (h2 : lane2Key k = false)
    (e : Ejected l p s z) (g : Gone p k m z t) :
    Only (.tiles :: .census :: l) s (done s t) ∧
    (QueueBecomes s (done s t) p k r ∧ (done s t).census = (s.count m (-1)).census ∧ ∀ q, q ≠ p → (done s t).tile q = s.tile q) ∧
    ((done s t).tile p).ports = (z.tile p).ports ∧ ((done s t).tile p).regs = (z.tile p).regs := by
  obtain ⟨hc, hr, head, sorted⟩ := h
  obtain ⟨⟨gr, router⟩, others, ⟨mem, census, regs⟩, only⟩ := e
  obtain ⟨⟨clk, c, f, pr, tile⟩, others', census', tl, cs, rfl⟩ := g
  have sorted' : asorted (z.tile p).router.queues = true := by rw [router]; exact sorted
  have queue (j : Nat) : (z.tile p).router.q j = s.rq p j := by rw [router]; rfl
  have self := q_pop_self clk sorted' h2
  have other (j : Nat) (hj : j ≠ k) := q_pop_other (k := k) (j := j) clk sorted' h2 hj
  obtain ⟨⟨spill, dike⟩, insts⟩ := pop_rest (r := (z.tile p).router) clk h2
  have elsewhere (q : Nat) (hq : q ≠ p) : ({ z with tiles := tl, census := cs } : State).tile q = s.tile q := (others' q hq).trans (others q hq)
  refine ⟨done_frame hr hc mem (only_trans only (only_tilesCensus l z tl cs)), ⟨⟨?_, fun q j hqj => ?_, fun q => ?_, fun q hq => ?_⟩, ?_,
    fun q hq => ?_⟩, ?_, ?_⟩
  · rw [State.rq, done_tile hr, tile]
    show ((z.tile p).router.pop k clk).q k = r
    rw [self, queue, head]; rfl
  · rw [State.rq, done_tile hr]
    by_cases hq : q = p
    · subst hq
      rw [tile]
      show ((z.tile q).router.pop k clk).q j = _
      rw [other j (hqj.resolve_left (fun hn => hn rfl)), queue]
    · rw [elsewhere q hq]; rfl
  · rw [done_tile hr]
    by_cases hq : q = p
    · subst hq
      rw [tile]
      exact ⟨spill.trans (by rw [router]), dike.trans (by rw [router])⟩
    · rw [elsewhere q hq]; exact ⟨rfl, rfl⟩
  · rw [done_tile hr]
    by_cases hp : q = p
    · subst hp
      rw [tile]
      exact (insts (hq.resolve_left (fun hn => hn rfl))).trans (by rw [router])
    · rw [elsewhere q hp]
  · rw [done_census _ _ hr, census']
    exact count_census census regs m (-1)
  · rw [done_tile hr, elsewhere q hq]
  · rw [done_tile hr, tile]
  · rw [done_tile hr, tile]

/-- A message ends: the census moves, and no tile. -/
theorem endMsg_gone {p k : Nat} {m : Msg} {z x : State} {c : Assoc Ctr} {f g clk : Nat}
    (hx : x = z.setTile p { z.tile p with router := (z.tile p).router.pop k clk, ctrs := c, finished := f, progress := g }) :
    Gone p k m z (endMsg x m) := by
  obtain ⟨cs, e⟩ := count_shape x m (-1)
  have census : (endMsg x m).census = (z.count m (-1)).census := count_census (by rw [hx]; rfl) (by rw [hx]; rfl) m (-1)
  have tiles : (endMsg x m).tiles = x.tiles := by rw [endMsg, e]
  have tile (q : Nat) : (endMsg x m).tile q = x.tile q := by rw [State.tile, tiles, State.tile]
  refine ⟨⟨clk, c, f, g, ?_⟩, fun q hq => ?_, census, x.tiles, cs, ?_⟩
  · rw [tile, hx, tile_setTile_self]
  · rw [tile, hx, tile_setTile, if_neg hq]
  · rw [endMsg, e, hx]; rfl

/-- The counter of messages that leave the router for their tile, but for those that the firewall drops. -/
def countEjected (b : Bool) (z : State) (p : Nat) : State := if b then z else z.bumpTile p (bankFbc 1) 1

theorem countEjected_eq (b : Bool) (z : State) (p : Nat) : ∃ c, countEjected b z p = z.setTile p { z.tile p with ctrs := c } ∨ countEjected b z p = z := by
  cases b with
  | true => exact ⟨[], .inr rfl⟩
  | false => exact ⟨_, .inl rfl⟩

theorem dropped_gone (b : Bool) (p k : Nat) (m : Msg) (z : State) : Gone p k m z (endMsg ((countEjected b z p).popRq p k) m) := by
  obtain ⟨c, e | e⟩ := countEjected_eq b z p
  · refine endMsg_gone (c := c) (f := (z.tile p).finished) (g := (z.tile p).progress) (clk := z.clk) ?_
    rw [e, State.popRq, modTile_setTile]; rfl
  · refine endMsg_gone (c := (z.tile p).ctrs) (f := (z.tile p).finished) (g := (z.tile p).progress) (clk := z.clk) ?_
    rw [e]; rfl

theorem settle_gone {p k : Nat} {m : Msg} {z t : State} (h : Gone p k m z t) : Gone p k m z (settle t p) := by
  obtain ⟨⟨clk, c, f, g, tile⟩, others, census, tl, cs, e⟩ := h
  unfold settle
  refine ite_prop (P := fun x => Gone p k m z x) (fun _ => ?_) (fun _ => ⟨⟨clk, c, f, g, tile⟩, others, census, tl, cs, e⟩)
  refine ⟨⟨clk, c, (Tile.finish (t.tile p)).finished, g, ?_⟩, fun q hq => ?_, census, (t.modTile p Tile.finish).tiles, cs, ?_⟩
  · rw [tile_modTile_self, Tile.finish, tile]
  · rw [tile_modTile_other _ _ _ _ hq, others q hq]
  · rw [modTile_eq_setTile, e]; rfl

theorem placed_gone (b : Bool) (p k : Nat) (m : Msg) (z : State) :
    Gone p k m z (settle (endMsg (((countEjected b z p).popRq p k).noteProgress p) m) p) := by
  refine settle_gone ?_
  obtain ⟨c, e | e⟩ := countEjected_eq b z p
  · refine endMsg_gone (c := c) (f := (z.tile p).finished) (g := z.clk) (clk := z.clk) ?_
    rw [e, State.popRq, modTile_setTile, State.noteProgress, modTile_setTile]; rfl
  · refine endMsg_gone (c := (z.tile p).ctrs) (f := (z.tile p).finished) (g := z.clk) (clk := z.clk) ?_
    rw [e, State.popRq, modTile_eq_setTile, State.noteProgress, modTile_setTile]; rfl

/-! ## The checks at the tile (R182) -/

section
variable {s : State} {p : Nat} {m : Msg}

theorem deliver_firewalled (h : firewalled s m m.dstTile = true) : deliverMsg s p m = .dropped (dropFirewall s p m) := by
  unfold deliverMsg; rw [if_pos h]

theorem deliver_orphan (h : firewalled s m m.dstTile = false) (h1 : isOrphan (s.tile p) m = true) :
    deliverMsg s p m = .dropped (orphan s p m.dstUnit m) := by
  unfold deliverMsg
  simp [h, h1]

theorem deliver_stale (h : firewalled s m m.dstTile = false) (h1 : isOrphan (s.tile p) m = false) (h2 : m.gen ≠ (s.tile p).sect.gen.toNat) :
    deliverMsg s p m = .dropped (dropStale s p m) := by
  unfold deliverMsg
  simp [h, h1, h2]

theorem deliver_passes (h : firewalled s m m.dstTile = false) (h1 : isOrphan (s.tile p) m = false) (h2 : m.gen = (s.tile p).sect.gen.toNat) :
    deliverMsg s p m = placeMsg s p m.dstUnit m.dstPort m := by
  unfold deliverMsg
  simp [h, h1, h2]

/-- A message of 8 entries or fewer can always be accepted at a port of units 1-6. -/
theorem oversize_small {y : Tile} {u k : Nat} (hu : u ≤ 6) (h : m.flits ≤ 8) : oversize y u k m = false := by
  unfold oversize
  have h7 : (u == 7) = false := by rw [beq_eq_false_iff_ne]; omega
  simp [h7, h]

theorem not_spilled {y : Tile} {n : Nat} (h : ∀ e ∈ y.steerSpill, e.1 ≠ n) : y.steerSpill.any (fun e => e.1 == n) = false := by
  rw [List.any_eq_false]
  exact fun e he hb => h e he (beq_iff_eq.mp hb)

theorem tryPlace_fits {u k : Nat} (hu : u ≤ 6) (hb : ((s.tile p).port u k).inBasin = 0) (hr : ((s.tile p).port u k).entries + m.flits ≤ 8) :
    tryPlace s p u k m = some (s.setTile p ((s.tile p).setPort u k (portTook ((s.tile p).port u k) m))) := by
  unfold tryPlace
  have h7 : (u == 7) = false := by rw [beq_eq_false_iff_ne]; omega
  simp [h7, hb, hr, portTook]

theorem tryPlace_full {u k : Nat} (hu : u ≤ 6) (ho : (s.tile p).ovfEn u k = false) (hr : 8 < ((s.tile p).port u k).entries + m.flits) :
    tryPlace s p u k m = none := by
  unfold tryPlace
  have h7 : (u == 7) = false := by rw [beq_eq_false_iff_ne]; omega
  simp [h7, ho, Nat.not_le.mpr hr]

theorem placeMsg_fits {u k : Nat} (h : FifoTakes (s.tile p) u k m) :
    placeMsg s p u k m = .placed (s.setTile p ((s.tile p).setPort u k (portTook ((s.tile p).port u k) m))) := by
  obtain ⟨⟨-, hu⟩, spilled, basin, room⟩ := h
  unfold placeMsg
  simp [oversize_small hu (Nat.le_trans (Nat.le_add_left _ _) room), not_spilled spilled, tryPlace_fits hu basin room]

theorem placeMsg_waits {u k : Nat} (hu : u ≤ 6) (hk : m.kind ≠ 5) (ho : (s.tile p).ovfEn u k = false) (hf : m.flits ≤ 8)
    (hs : ∀ e ∈ (s.tile p).steerSpill, e.1 ≠ portNo u k) (hr : 8 < ((s.tile p).port u k).entries + m.flits) :
    placeMsg s p u k m = .waits (markBackpressure s p u k) := by
  unfold placeMsg
  simp [oversize_small hu hf, not_spilled hs, tryPlace_full hu ho hr, hk]

end

end Sys2Proof.TileProofs
end

section
/-! SUPPORT. The ejection arbiter's grant, and what MESSAGE_DELIVERY and BACKPRESSURE_REOFFER do with a head whose way ends (R35, R180, R182). -/

namespace Sys2Proof.TileProofs

open Sys2Proof.Machine Sys2Proof.Safety Sys2Proof.Laws

/-! ## Grants -/

/-- The lane-0 inputs of a router have different numbers at its ejection arbiter (Table 7.7). -/
theorem requesterNo_injective (d e : Side) (h : requesterNo 4 (.lane d 0) = requesterNo 4 (.lane e 0)) : d = e := by
  cases d <;> cases e <;> simp [requesterNo, sideNo] at h ⊢

/-- The ejection arbiter grants one requester at a time (R180). -/
theorem ejectGranted_unique {s : State} {p : Nat} {d e : Side} (hd : ejectGranted s p (.lane d 0) = true)
    (he : ejectGranted s p (.lane e 0) = true) : d = e := by
  unfold ejectGranted at hd he
  cases hg : ejectGrant s p with
  | none => rw [hg] at hd; exact absurd hd (by simp)
  | some g =>
    rw [hg, Option.any_some, beq_iff_eq] at hd he
    exact requesterNo_injective d e (hd.symm.trans he)

/-! ## What the tile does with a granted head -/

theorem takeEject_eq (s : State) (p : Nat) (q : Requester) :
    ∃ g, takeEject s p q = s.setTile p { s.tile p with router := { (s.tile p).router with granted := g } } := ⟨_, rfl⟩

theorem only_setTile_census (l : List Kind) (s : State) (p : Nat) (y : Tile) : Only (.tiles :: .census :: l) s (s.setTile p y) :=
  only_tilesCensus l s _ s.census

theorem ejected_takeEject (l : List Kind) (s : State) (p : Nat) (q : Requester) : Ejected l p s (takeEject s p q) := by
  obtain ⟨g, e⟩ := takeEject_eq s p q
  rw [e]
  exact ⟨⟨g, by rw [tile_setTile_self]⟩, fun q hq => by rw [tile_setTile, if_neg hq], ⟨rfl, rfl, rfl⟩, only_setTile_census l s p _⟩

theorem ejected_modTile {l : List Kind} {p : Nat} {s z : State} (h : Ejected l p s z) (f : Tile → Tile)
    (hf : (f (z.tile p)).router = (z.tile p).router) : Ejected l p s (z.modTile p f) := by
  obtain ⟨⟨g, router⟩, others, still, only⟩ := h
  exact ⟨⟨g, by rw [tile_modTile_self, hf, router]⟩, fun q hq => by rw [tile_modTile_other _ _ _ _ hq, others q hq], still,
    only_trans only (only_setTile_census l z p _)⟩

theorem ejected_event {p : Nat} {s z : State} (h : Ejected [.log, .vectors] p s z) (code kind index : Nat) (ctx : Option Nat) (d : List Byte) :
    Ejected [.log, .vectors] p s (z.event code kind index ctx d) := by
  obtain ⟨⟨g, router⟩, others, still, only⟩ := h
  obtain ⟨lg, a, b, e⟩ := event_shape z code kind index ctx d
  rw [e]
  refine ⟨⟨g, router⟩, others, still, only_trans only ⟨rfl, rfl, fun k hk => ?_⟩⟩
  cases k <;> simp [Kind.same] at hk ⊢

theorem ejected_ite {l : List Kind} {p : Nat} {s x y : State} (c : Prop) [Decidable c] (hx : Ejected l p s x) (hy : Ejected l p s y) :
    Ejected l p s (if c then x else y) := ite_prop (fun _ => hx) (fun _ => hy)

theorem ejected_onceEvent {p : Nat} {s z : State} (h : Ejected [.log, .vectors] p s z) (u code limit : Nat) (d : List Byte) :
    Ejected [.log, .vectors] p s (z.onceEvent p u code limit d) :=
  ejected_ite _ (ejected_event (ejected_modTile h _ rfl) _ _ _ _ _) h

theorem ejected_routerOnce {p : Nat} {s z : State} (h : Ejected [.log, .vectors] p s z) (code limit : Nat) (d : List Byte) :
    Ejected [.log, .vectors] p s (routerOnce z p code limit d) :=
  ejected_ite _ (ejected_event (ejected_modTile h _ rfl) _ _ _ _ _) h

/-- An event that is logged once leaves ports and registers of the tile alone. -/
theorem onceEvent_registers (z : State) (p u code limit : Nat) (d : List Byte) :
    ((z.onceEvent p u code limit d).tile p).ports = (z.tile p).ports ∧ ((z.onceEvent p u code limit d).tile p).regs = (z.tile p).regs := by
  unfold State.onceEvent State.unitEvent
  refine ite_prop (P := fun x : State => (x.tile p).ports = (z.tile p).ports ∧ (x.tile p).regs = (z.tile p).regs) (fun _ => ?_) (fun _ => ⟨rfl, rfl⟩)
  rw [tile_event, tile_modTile_self]
  exact ⟨rfl, rfl⟩

theorem routerOnce_registers (z : State) (p code limit : Nat) (d : List Byte) :
    ((routerOnce z p code limit d).tile p).ports = (z.tile p).ports ∧ ((routerOnce z p code limit d).tile p).regs = (z.tile p).regs := by
  unfold routerOnce
  refine ite_prop (P := fun x : State => (x.tile p).ports = (z.tile p).ports ∧ (x.tile p).regs = (z.tile p).regs) (fun _ => ?_) (fun _ => ⟨rfl, rfl⟩)
  rw [tile_event, tile_modTile_self]
  exact ⟨rfl, rfl⟩

/-! ## Delivery of a head -/

section
variable {s z : State} {p : Nat} {m : Msg} {k : Nat}

theorem deliverHead_placed (h : deliverMsg s p m = .placed z) : deliverHead s p (fun y => y.popRq p k) m =
    settle (endMsg (((countEjected (firewalled s m m.dstTile) z p).popRq p k).noteProgress p) m) p := by
  unfold deliverHead
  rw [h]
  rfl

theorem deliverHead_dropped (h : deliverMsg s p m = .dropped z) : deliverHead s p (fun y => y.popRq p k) m =
    endMsg ((countEjected (firewalled s m m.dstTile) z p).popRq p k) m := by
  unfold deliverHead
  rw [h]
  rfl

theorem deliverHead_waits (h : deliverMsg s p m = .waits z) (pop : State → State) : deliverHead s p pop m = z := by
  unfold deliverHead
  rw [h]

end

/-- A head that the tile would take stays without the arbiter's grant. -/
theorem ejectMsg_refused {s : State} {p : Nat} {q : Requester} (pop : State → State) (m : Msg) (he : ejects s p q = true)
    (hg : ejectGranted s p q = false) : ejectMsg s p q pop m = s := by
  unfold ejectMsg
  rw [he, hg]
  rfl

/-- A lane-0 head of router p whose way ends at its tile, with no spill before it. -/
structure Arrived (s : State) (p : Nat) (side : Side) (m0 : Msg) (r : List Msg) : Prop where
  head : HeadOf s p (qKey side 0) m0 r
  whole : spreads s p side m0 = false
  ends : nextHop s p m0 = .tile
  spill : (s.tile p).router.spill = []
  kind : m0.kind ≠ 4

theorem lane2Key_qKey (side : Side) : lane2Key (qKey side 0) = false := by cases side <;> rfl

section
variable {s : State} {p : Nat} {side : Side} {m0 : Msg} {r : List Msg} (h : Arrived s p side m0 r)
include h

theorem headLoad_arrived : headLoad s p side 0 = some (.msg m0) := by
  have queue : (s.tile p).router.q (qKey side 0) = m0 :: r := h.head.head
  have lane : spilledLane s p side 0 = false := by unfold spilledLane; rw [h.spill]; rfl
  unfold headLoad Router.loadHead
  rw [lane, lane2Key_qKey, queue]
  rfl

theorem endsHere_arrived : endsHere s p side (.msg m0) = true := by
  unfold endsHere loadSpreads loadHop
  simp [h.whole, h.ends]

/-- The tile asks for the head when no port refuses it. -/
theorem ejects_arrived : ejects s p (.lane side 0) = !(deliverMsg s p m0.ingress).isWaiting := by
  unfold ejects
  simp [requesterLoad, headLoad_arrived h, endsHere_arrived h, h.kind]

theorem headHere_arrived : headHere s p side 0 = some m0.ingress := by
  unfold headHere laneHead
  rw [headLoad_arrived h]
  simp [endsHere_arrived h]

theorem ejectMsg_granted (pop : State → State) (hg : ejectGranted s p (.lane side 0) = true) (hw : (deliverMsg s p m0.ingress).isWaiting = false) :
    ejectMsg s p (.lane side 0) pop m0.ingress = deliverHead (takeEject s p (.lane side 0)) p pop m0.ingress := by
  unfold ejectMsg
  rw [ejects_arrived h, hw, hg]
  rfl

theorem ejectMsg_waits {z : State} (pop : State → State) (hw : deliverMsg s p m0.ingress = .waits z) :
    ejectMsg s p (.lane side 0) pop m0.ingress = z := by
  unfold ejectMsg
  rw [ejects_arrived h, hw, deliverHead_waits hw]
  rfl

end

/-- The state after the lane-0 head of an input of router p, message m, was offered to its tile. -/
def offered (s : State) (p : Nat) (side : Side) (m : Msg) : State :=
  done s (ejectMsg s p (.lane side 0) (fun y => y.popRq p (qKey side 0)) m)

/-- MESSAGE_DELIVERY at such a head offers it to its tile. -/
theorem exec_messageDelivery {s : State} {p : BitVec 11} {side : Side} {m0 : Msg} {r : List Msg} (h : Arrived s p.toNat side m0 r) :
    exec (.messageDelivery p side 0 none) s = .next (offered s p.toNat side m0.ingress) := by
  have head : headLoad s p.toNat side (0 : BitVec 2).toNat = some (.msg m0) := headLoad_arrived h
  have lane : ((0 : BitVec 2) == 1) = false := rfl
  have kind : (m0.kind == 4) = false := by simpa using h.kind
  simp only [exec, execMessageDelivery, head, endsHere_arrived h, linkCheck, lane, kind, Bool.not_true, Bool.or_false, Bool.false_eq_true, if_false]
  rw [show qKey side (0 : BitVec 2).toNat = qKey side 0 from rfl, state_setHead_same h.head.head, offered]

/-- A search that one element answers finds its answer. -/
theorem findSome?_only {α β : Type} {l : List α} {f : α → Option β} {a : α} {b : β} (ha : a ∈ l) (hf : f a = some b)
    (ho : ∀ x ∈ l, x ≠ a → f x = none) : l.findSome? f = some b := by
  induction l with
  | nil => exact absurd ha List.not_mem_nil
  | cons x l ih =>
    by_cases hx : x = a
    · rw [List.findSome?_cons, hx, hf]
    · rw [List.findSome?_cons, ho x List.mem_cons_self hx]
      exact ih ((List.mem_cons.mp ha).resolve_left (fun e => hx e.symm)) (fun y hy => ho y (List.mem_cons_of_mem x hy))

theorem ingress_kind (m : Msg) : m.ingress.kind = m.kind := by
  unfold Msg.ingress
  split
  · rfl
  · show fld (BitVec.ofNat 128 (hset m.hdr.toNat 97 1 (b2n true))).toNat 87 4 = fld m.hdr.toNat 87 4
    simp only [fld, hset, b2n, BitVec.toNat_ofNat, Nat.shiftRight_eq_div_pow]
    have := m.hdr.isLt
    norm_num at this ⊢
    omega

/-- BACKPRESSURE_REOFFER for the port of such a head offers it again, when the arbiter grants it. -/
theorem exec_backpressureReoffer {n : BitVec 10} {port : BitVec 6} {s : State} {p : Nat} {side : Side} {m0 : Msg} {r : List Msg}
    (h : Arrived s p side m0 r) (hn : s.phys n.toNat = p) (hp : n.toNat < s.ntiles)
    (hport : portNo m0.ingress.dstUnit m0.ingress.dstPort = port.toNat) (hu : 1 ≤ m0.ingress.dstUnit ∧ m0.ingress.dstUnit ≤ 7)
    (hg : ejectGranted s p (.lane side 0) = true) :
    exec (.backpressureReoffer n port) s = .next (offered s p side m0.ingress) := by
  have kind : (m0.ingress.kind != 4) = true := by rw [ingress_kind, bne_iff_ne]; exact h.kind
  have mem : side ∈ sides := by cases side <;> simp [sides]
  simp only [exec, execBackpressureReoffer, hn, hp, if_true]
  rw [findSome?_only (a := side) (b := (side, m0.ingress)) mem]
  · rfl
  · rw [headHere_arrived h]
    simp [kind, hport, hu.1, hu.2, hg]
  · intro d _ hd
    have lost : ejectGranted s p (.lane d 0) = false := by
      by_contra hne
      exact hd (ejectGranted_unique (Bool.not_eq_false _ |>.mp hne) hg)
    cases headHere s p d 0 with
    | none => rfl
    | some m => simp [lost]

end Sys2Proof.TileProofs
end

section
/-! PROOFS. Delivery at a tile (R35-R37, R180, R182-R186), overflow basins (R36, R147) and the steer spill (R245). Settles O46. -/

namespace Sys2Proof.TileProofs

open Sys2Proof.Machine Sys2Proof.Safety Sys2Proof.Laws

/-! ## The checks after the grant is noted -/

section
variable (s : State) (p : Nat) (q : Requester)

theorem takeEject_tile : ∃ g, (takeEject s p q).tile p = { s.tile p with router := { (s.tile p).router with granted := g } } := by
  obtain ⟨g, e⟩ := takeEject_eq s p q
  exact ⟨g, by rw [e, tile_setTile_self]⟩

theorem takeEject_isOrphan (m : Msg) : isOrphan ((takeEject s p q).tile p) m = isOrphan (s.tile p) m := by
  obtain ⟨g, e⟩ := takeEject_tile s p q
  rw [e]; rfl

theorem takeEject_gen : ((takeEject s p q).tile p).sect = (s.tile p).sect := by
  obtain ⟨g, e⟩ := takeEject_tile s p q
  rw [e]

theorem takeEject_registers : ((takeEject s p q).tile p).ports = (s.tile p).ports ∧ ((takeEject s p q).tile p).regs = (s.tile p).regs := by
  obtain ⟨g, e⟩ := takeEject_tile s p q
  rw [e]
  exact ⟨rfl, rfl⟩

theorem takeEject_fifo {u k : Nat} {m : Msg} (h : FifoTakes (s.tile p) u k m) : FifoTakes ((takeEject s p q).tile p) u k m := by
  obtain ⟨g, e⟩ := takeEject_tile s p q
  rw [e]
  exact ⟨h.unit, h.spilled, h.basin, h.room⟩

end

/-! ## A granted head -/

section
variable {s : State} {p : Nat} {side : Side} {m0 : Msg} {r : List Msg}

/-- What a granted head's delivery leaves, where z is what the tile makes of the message. -/
structure Delivers (l : List Kind) (s : State) (p : Nat) (side : Side) (m : Msg) (r : List Msg) (z t : State) : Prop where
  only : Only (.tiles :: .census :: l) s t
  gone : QueueBecomes s t p (qKey side 0) r ∧ t.census = (s.count m (-1)).census ∧ ∀ q, q ≠ p → t.tile q = s.tile q
  ports : (t.tile p).ports = (z.tile p).ports
  regs : (t.tile p).regs = (z.tile p).regs

theorem delivers_placed {l : List Kind} {z : State} (h : Arrived s p side m0 r) (hg : ejectGranted s p (.lane side 0) = true)
    (hw : (deliverMsg s p m0.ingress).isWaiting = false) (hz : deliverMsg (takeEject s p (.lane side 0)) p m0.ingress = .placed z)
    (e : Ejected l p s z) :
    Delivers l s p side m0.ingress r z (offered s p side m0.ingress) := by
  rw [offered, ejectMsg_granted h _ hg hw, deliverHead_placed hz]
  obtain ⟨only, gone, ports, regs⟩ := taken_leaves h.head (lane2Key_qKey side) e (placed_gone _ p (qKey side 0) m0.ingress z)
  exact ⟨only, gone, ports, regs⟩

theorem delivers_dropped {l : List Kind} {z : State} (h : Arrived s p side m0 r) (hg : ejectGranted s p (.lane side 0) = true)
    (hw : (deliverMsg s p m0.ingress).isWaiting = false) (hz : deliverMsg (takeEject s p (.lane side 0)) p m0.ingress = .dropped z)
    (e : Ejected l p s z) :
    Delivers l s p side m0.ingress r z (offered s p side m0.ingress) := by
  rw [offered, ejectMsg_granted h _ hg hw, deliverHead_dropped hz]
  obtain ⟨only, gone, ports, regs⟩ := taken_leaves h.head (lane2Key_qKey side) e (dropped_gone _ p (qKey side 0) m0.ingress z)
  exact ⟨only, gone, ports, regs⟩

section
variable (h : Arrived s p side m0 r) (hg : ejectGranted s p (.lane side 0) = true)
include h hg

/-- A head that passes the checks joins its port's FIFO. -/
theorem delivers_fits (hf : firewalled s m0.ingress m0.ingress.dstTile = false) (ho : isOrphan (s.tile p) m0.ingress = false)
    (hgen : m0.ingress.gen = (s.tile p).sect.gen.toNat) (takes : FifoTakes (s.tile p) m0.ingress.dstUnit m0.ingress.dstPort m0.ingress) :
    ∃ z, Delivers [] s p side m0.ingress r z (offered s p side m0.ingress) ∧
      (z.tile p).ports = ((s.tile p).setPort m0.ingress.dstUnit m0.ingress.dstPort
        (portTook ((s.tile p).port m0.ingress.dstUnit m0.ingress.dstPort) m0.ingress)).ports := by
  have fits : deliverMsg s p m0.ingress = _ := (deliver_passes hf ho hgen).trans (placeMsg_fits takes)
  have hf' : firewalled (takeEject s p (.lane side 0)) m0.ingress m0.ingress.dstTile = false := hf
  have fits' : deliverMsg (takeEject s p (.lane side 0)) p m0.ingress = _ :=
    (deliver_passes hf' (by rw [takeEject_isOrphan, ho]) (by rw [takeEject_gen, hgen])).trans (placeMsg_fits (takeEject_fifo s p _ takes))
  refine ⟨_, delivers_placed h hg (by rw [fits]; rfl) fits' (ejected_modTile (ejected_takeEject [] s p _)
    (fun y => y.setPort m0.ingress.dstUnit m0.ingress.dstPort (portTook (y.port m0.ingress.dstUnit m0.ingress.dstPort) m0.ingress)) rfl), ?_⟩
  rw [tile_setTile_self, Tile.setPort, Tile.setPort, Tile.port, Tile.port, (takeEject_registers s p _).1]

/-- A stale head is discarded and counted. -/
theorem delivers_stale (hf : firewalled s m0.ingress m0.ingress.dstTile = false) (ho : isOrphan (s.tile p) m0.ingress = false)
    (hgen : m0.ingress.gen ≠ (s.tile p).sect.gen.toNat) :
    ∃ z, Delivers [] s p side m0.ingress r z (offered s p side m0.ingress) ∧
      (z.tile p).ports = ((s.tile p).setPort m0.ingress.dstUnit m0.ingress.dstPort
        { (s.tile p).port m0.ingress.dstUnit m0.ingress.dstPort with staleSeen := true }).ports ∧
      (z.tile p).regs = { (s.tile p).regs with stale := sat32 (s.tile p).regs.stale 1 } := by
  have stale : deliverMsg s p m0.ingress = _ := deliver_stale hf ho hgen
  have hf' : firewalled (takeEject s p (.lane side 0)) m0.ingress m0.ingress.dstTile = false := hf
  have stale' : deliverMsg (takeEject s p (.lane side 0)) p m0.ingress = _ :=
    deliver_stale hf' (by rw [takeEject_isOrphan, ho]) (by rw [takeEject_gen]; exact hgen)
  refine ⟨_, delivers_dropped h hg (by rw [stale]; rfl) stale' (ejected_modTile (ejected_takeEject [] s p _) _ rfl), ?_⟩
  obtain ⟨g, tile⟩ := takeEject_tile s p (.lane side 0)
  rw [dropStale, tile_modTile_self, tile]
  exact ⟨rfl, rfl⟩

/-- A head for a port that takes nothing is counted as an orphan. -/
theorem delivers_orphan (hf : firewalled s m0.ingress m0.ingress.dstTile = false) (ho : isOrphan (s.tile p) m0.ingress = true) :
    ∃ z, Delivers [.log, .vectors] s p side m0.ingress r z (offered s p side m0.ingress) ∧
      (z.tile p).ports = (s.tile p).ports ∧ (z.tile p).regs = { (s.tile p).regs with orphan := sat32 (s.tile p).regs.orphan 1 } := by
  have lost : deliverMsg s p m0.ingress = _ := deliver_orphan hf ho
  have hf' : firewalled (takeEject s p (.lane side 0)) m0.ingress m0.ingress.dstTile = false := hf
  have lost' : deliverMsg (takeEject s p (.lane side 0)) p m0.ingress = _ := deliver_orphan hf' (by rw [takeEject_isOrphan, ho])
  refine ⟨_, delivers_dropped h hg (by rw [lost]; rfl) lost'
    (ejected_onceEvent (ejected_modTile (ejected_takeEject [.log, .vectors] s p _) _ rfl) _ _ _ _), ?_⟩
  obtain ⟨ports, regs⟩ := takeEject_registers s p (.lane side 0)
  rw [orphan, (onceEvent_registers _ p _ _ _ _).1, (onceEvent_registers _ p _ _ _ _).2, tile_modTile_self]
  exact ⟨ports, by rw [Tile.modRegs, regs]⟩

/-- A head from another polder is dropped and counted. -/
theorem delivers_firewalled (hf : firewalled s m0.ingress m0.ingress.dstTile = true) :
    ∃ z, Delivers [.log, .vectors] s p side m0.ingress r z (offered s p side m0.ingress) ∧
      (z.tile p).ports = (s.tile p).ports ∧ (z.tile p).regs =
        { (s.tile p).regs with fwPolder := BitVec.ofNat 24 (satAdd 24 (s.tile p).regs.fwPolder.toNat 1) } := by
  have walled : deliverMsg s p m0.ingress = _ := deliver_firewalled hf
  have hf' : firewalled (takeEject s p (.lane side 0)) m0.ingress m0.ingress.dstTile = true := hf
  have walled' : deliverMsg (takeEject s p (.lane side 0)) p m0.ingress = _ := deliver_firewalled hf'
  refine ⟨_, delivers_dropped h hg (by rw [walled]; rfl) walled'
    (ejected_routerOnce (ejected_modTile (ejected_takeEject [.log, .vectors] s p _) _ rfl) _ _ _), ?_⟩
  obtain ⟨ports, regs⟩ := takeEject_registers s p (.lane side 0)
  rw [dropFirewall, (routerOnce_registers _ p _ _ _).1, (routerOnce_registers _ p _ _ _).2, tile_modTile_self]
  exact ⟨ports, by rw [Tile.modRegs, regs]⟩

end

/-- A head that finds its port full waits there. -/
theorem delivers_waits (h : Arrived s p side m0 r) (hf : firewalled s m0.ingress m0.ingress.dstTile = false)
    (ho : isOrphan (s.tile p) m0.ingress = false) (hgen : m0.ingress.gen = (s.tile p).sect.gen.toNat) (hu : m0.ingress.dstUnit ≤ 6)
    (hk : m0.ingress.kind ≠ 5) (hov : (s.tile p).ovfEn m0.ingress.dstUnit m0.ingress.dstPort = false) (hfl : m0.ingress.flits ≤ 8)
    (hs : ∀ e ∈ (s.tile p).steerSpill, e.1 ≠ portNo m0.ingress.dstUnit m0.ingress.dstPort)
    (hfull : 8 < ((s.tile p).port m0.ingress.dstUnit m0.ingress.dstPort).entries + m0.ingress.flits) :
    offered s p side m0.ingress = done s (s.setTile p ((s.tile p).setPort m0.ingress.dstUnit m0.ingress.dstPort
      { (s.tile p).port m0.ingress.dstUnit m0.ingress.dstPort with backp := true })) := by
  rw [offered, ejectMsg_waits h _ ((deliver_passes hf ho hgen).trans (placeMsg_waits hu hk hov hfl hs hfull)), markBackpressure, modTile_eq_setTile]
  have h7 : (m0.ingress.dstUnit == 7) = false := by rw [beq_eq_false_iff_ne]; omega
  simp [h7, hov]

end

/-! ## Overflow basins and the steer spill -/

section
variable {n : BitVec 10} {port : BitVec 6} {s : State} {p : Nat}

theorem portUnit_le (port : BitVec 6) (h : port.toNat < 48) : port.toNat / 8 + 1 ≤ 6 := by omega

theorem basinHead_seen (s : State) (a : List Nat) (c : Assoc Nat) (p b : Nat) : basinHead (seen s a c) p b = basinHead s p b := rfl

/-- The head of a basin moves past a message of n entries (R147). -/
theorem popBasin_setTile (s : State) (p b : Nat) (m : Msg) : popBasin s p b m =
    s.setTile p ((s.tile p).setBasin b (((s.tile p).basin b).advance (declSize ((s.tile p).basinDecl b)) (128 * m.flits))) := by
  unfold popBasin basinBytes
  rw [modTile_eq_setTile]
  rfl

/-- The whole message at the head of a port's basin moves into its FIFO. -/
theorem exec_basinMove (hn : s.phys n.toNat = p) (hp : n.toNat < s.ntiles) (h48 : port.toNat < 48)
    (clean : ∀ w ∈ (s.tile p).localList, inInput (s.tile p) w = true) :
    let u := port.toNat / 8 + 1
    let k := port.toNat % 8
    let x := (s.tile p).port u k
    let b := (s.tile p).bindBasin u k
    let m := basinHead s p b
    x.inBasin ≠ 0 → m.flits ≤ 8 → x.entries + m.flits ≤ 8 →
    ∃ a c, exec (.overflowBasinMove n port none) s = .next (done s ((seen s a c).setTile p
      (((s.tile p).setBasin b (((s.tile p).basin b).advance (declSize ((s.tile p).basinDecl b)) (128 * m.flits))).setPort u k
        { x with fifo := x.fifo ++ [m], inBasin := x.inBasin - 1 }))) := by
  intro u k x b m hb hm hx
  obtain ⟨a, c, e⟩ := meet_clean s p (basinWords s p b) clean
  have unit : u ≤ 6 := portUnit_le port h48
  refine ⟨a, c, ?_⟩
  have cond : (decide (n.toNat < s.ntiles) && decide (u ≤ 6) && x.inBasin != 0) = true := by
    rw [decide_eq_true hp, decide_eq_true unit, Bool.true_and, Bool.true_and, bne_iff_ne]; exact hb
  have room : (decide (m.flits ≤ 8) && decide (x.entries + m.flits ≤ 8)) = true := by rw [decide_eq_true hm, decide_eq_true hx]; rfl
  simp only [exec, execOverflowBasinMove, hn]
  rw [if_pos cond, if_pos room, e]
  dsimp only
  rw [popBasin_setTile, modTile_setTile, basinHead_seen]
  have tile : (seen s a c).tile p = s.tile p := rfl
  rw [tile]

theorem exec_basinStays (hn : s.phys n.toNat = p)
    (hx : 8 < ((s.tile p).port (port.toNat / 8 + 1) (port.toNat % 8)).entries +
      (basinHead s p ((s.tile p).bindBasin (port.toNat / 8 + 1) (port.toNat % 8))).flits) :
    exec (.overflowBasinMove n port none) s = .next (done s s) := by
  simp only [exec, execOverflowBasinMove, hn]
  split
  · rw [if_neg (by simp [Nat.not_le.mpr hx])]
  · rfl

theorem settle_finished (s : State) (p : Nat) (y : Tile) : ∃ f, settle (s.setTile p y) p = s.setTile p { y with finished := f } := by
  unfold settle
  split
  · rw [modTile_setTile]; exact ⟨_, rfl⟩
  · exact ⟨y.finished, rfl⟩

/-- The first spilled message of a port returns to it. -/
theorem exec_spillReturn (hn : s.phys n.toNat = p) (hp : n.toNat < s.ntiles) (h48 : port.toNat < 48) {w : Msg} {r : List (Nat × Msg)}
    (hs : (s.tile p).steerSpill = (port.toNat, w) :: r)
    (hb : ((s.tile p).port (port.toNat / 8 + 1) (port.toNat % 8)).inBasin = 0)
    (hx : ((s.tile p).port (port.toNat / 8 + 1) (port.toNat % 8)).entries + w.flits ≤ 8) :
    ∃ f, exec (.steerSpillReturn n port) s = .next (done s (s.setTile p
      { (s.tile p).setPort (port.toNat / 8 + 1) (port.toNat % 8) (portTook ((s.tile p).port (port.toNat / 8 + 1) (port.toNat % 8)) w) with
        steerSpill := r, ctrs := bump (s.tile p).ctrs (bankCcc 4) 1, finished := f })) := by
  obtain ⟨f, settled⟩ := settle_finished s p
    ({ (s.tile p).setPort (port.toNat / 8 + 1) (port.toNat % 8) (portTook ((s.tile p).port (port.toNat / 8 + 1) (port.toNat % 8)) w) with
        steerSpill := r, ctrs := bump (s.tile p).ctrs (bankCcc 4) 1 })
  refine ⟨f, ?_⟩
  have placed := tryPlace_fits (s := s) (p := p) (m := w) (portUnit_le port h48) hb hx
  simp only [exec, execSteerSpillReturn, hn, hp, if_true, hs, List.length_cons, List.range_succ_eq_map, List.find?_cons, List.getElem?_cons_zero,
    beq_self_eq_true, placed, modTile_setTile]
  rw [← settled]
  simp only [Tile.setPort, Tile.bump, hs, List.eraseIdx_zero, List.tail_cons]

end

theorem port_of_setPort {y z : Tile} {u k : Nat} {x : Port} (h : z.ports = (y.setPort u k x).ports) :
    z.port u k = x ∧ ∀ v j, 8 * (v - 1) + j ≠ 8 * (u - 1) + k → z.port v j = y.port v j :=
  ⟨by rw [port_of_ports h, port_setPort, if_pos rfl], fun v j hj => by rw [port_of_ports h, port_setPort, if_neg hj]⟩

/-- Settles O46: a granted head is taken off its queue whatever the tile makes of it (`taken_leaves`), and what the tile makes of it
is the outcome of the checks of R182; a reoffer finds the same head, for the ejection arbiter grants one input only. -/
theorem messagesDelivered : Obligations.MessagesDelivered := by
  unfold Obligations.MessagesDelivered
  refine ⟨?delivery, ?basins⟩
  case delivery =>
    intro p side s m0 r head whole ends spill kind m y u k gone
    have h : Arrived s p.toNat side m0 r := ⟨head, whole, ends, spill, kind⟩
    refine ⟨fun hg => ⟨?fits, ?stale, ?orphan, ?walled⟩, ?refused, ?full⟩
    case fits =>
      intro hf ho hgen takes
      obtain ⟨z, d, ports⟩ := delivers_fits h hg hf ho hgen takes
      obtain ⟨here, others⟩ := port_of_setPort (d.ports.trans ports)
      exact ⟨⟨_, exec_messageDelivery h, d.only, d.gone, here, others⟩, fun n port hn hp hport =>
        ⟨_, exec_backpressureReoffer h hn hp hport ⟨takes.unit.1, Nat.le_succ_of_le takes.unit.2⟩ hg, d.only, d.gone, here⟩⟩
    case stale =>
      intro hf ho hgen
      obtain ⟨z, d, ports, regs⟩ := delivers_stale h hg hf ho hgen
      exact ⟨_, exec_messageDelivery h, d.only, d.gone, (port_of_setPort (d.ports.trans ports)).1, d.regs.trans regs⟩
    case orphan =>
      intro hf ho
      obtain ⟨z, d, ports, regs⟩ := delivers_orphan h hg hf ho
      exact ⟨_, exec_messageDelivery h, d.only, d.gone, d.ports.trans ports, d.regs.trans regs⟩
    case walled =>
      intro hf
      obtain ⟨z, d, ports, regs⟩ := delivers_firewalled h hg hf
      exact ⟨_, exec_messageDelivery h, d.only, d.gone, d.ports.trans ports, d.regs.trans regs⟩
    case refused =>
      intro he hg
      refine ⟨_, exec_messageDelivery h, ?_⟩
      rw [offered, ejectMsg_refused _ _ he hg]
      exact done_frame head.runs head.canonical rfl (only_refl _ s)
    case full =>
      intro hf ho hgen _ hu hk hov hfl hs hfull
      refine ⟨_, exec_messageDelivery h, ?_⟩
      rw [delivers_waits h hf ho hgen hu hk hov hfl hs hfull]
      obtain ⟨tile, others, only⟩ := becomes_setTile head.runs head.canonical p.toNat (y.setPort u k { y.port u k with backp := true })
      refine ⟨only, ?_, ?_, others⟩
      · rw [State.rq, tile]; exact head.head
      · rw [tile, port_setPort, if_pos rfl]
  case basins =>
    intro n port s p hc hr hn hp h48 u k y x b m
    refine ⟨?moves, ?stays, ?returns⟩
    case moves =>
      intro hb hm hx clean
      obtain ⟨a, c, e⟩ := exec_basinMove hn hp h48 clean hb hm hx
      refine ⟨_, e, done_frame hr hc rfl ⟨rfl, rfl, fun j hj => ?_⟩, ?_, ?_, ?_, fun q hq => ?_⟩
      · cases j <;> simp [Kind.same, seen] at hj ⊢
      · rw [done_tile hr, tile_setTile_self, port_setPort, if_pos rfl]
      · rw [done_tile hr, tile_setTile_self]
        exact agetD_aput_self _ _ _ _
      · rw [done_tile hr, tile_setTile_self]; rfl
      · rw [done_tile hr, tile_setTile, if_neg hq]; rfl
    case stays =>
      intro _ hx
      exact ⟨_, exec_basinStays hn hx, done_frame hr hc rfl (only_refl _ s)⟩
    case returns =>
      intro w r hs hb hx
      obtain ⟨f, e⟩ := exec_spillReturn hn hp h48 hs hb hx
      obtain ⟨tile, others, only⟩ := becomes_setTile hr hc p
        { y.setPort u k (portTook x w) with steerSpill := r, ctrs := bump y.ctrs (bankCcc 4) 1, finished := f }
      refine ⟨_, e, only, ?_, ?_, ?_, ?_, others⟩ <;> rw [tile]
      · exact agetD_aput_self _ _ _ _
      · rfl

end Sys2Proof.TileProofs
end

section
/-! PROOFS. O32 fails: a write of one half of `CP_LAND_BASE` while an earlier write is still held back (R18, R297). -/

namespace Sys2Proof.TileProofs

open Sys2Proof.Machine Sys2Proof.Safety Sys2Proof.Laws

/-- A running part with a write of `CP_LAND_BASE` held back and no bundle landing any more, as a port leaves it that goes down in the
middle of a bundle: `portDown` drops the bundle and does not settle the write. -/
def strandedWrite : State :=
  { State.reset with
    power := { Power.reset with perst := false }
    host := { HostPort.reset with link := .up }
    links := { Links.reset with landBase := some (BitVec.ofNat 64 (2 ^ 40)) } }

/-- A word of `CP_LAND_BASE` has no mask of its own, clears no bits and reaches no mailbox: its half joins the held value, where there is
one. -/
theorem writeWord_landLow : writeWord strandedWrite 0x10038 0 = strandedWrite.setReg 0x10038 (BitVec.ofNat 64 (2 ^ 40)) := by rfl

theorem exec_landLow : exec (.registerWrite false 0x10038 false 0) strandedWrite =
    .next (done strandedWrite (strandedWrite.setReg 0x10038 (BitVec.ofNat 64 (2 ^ 40)))) := by
  rw [← writeWord_landLow]
  rfl

/-- The register after the write holds bit 40 of the held value, in the half that was not written. -/
theorem landBase_after : ((done strandedWrite (strandedWrite.setReg 0x10038 (BitVec.ofNat 64 (2 ^ 40)))).reg 0x10038).getLsbD 40 = true := by
  have running : strandedWrite.stopped = false := rfl
  rw [State.reg, done_regs _ _ running, State.setReg, agetD_aput_self]
  decide

/-- Refutes O32: a half of `CP_LAND_BASE` is merged into the value held back for the landing's end, when there is one, and not into the
register. In `strandedWrite` no bundle lands, the register holds 0 and 2^40 is held back: a write of 0 to the lower half sets bit 40 of
the register, which the clause on halves says it keeps. -/
theorem not_registersThatAct : ¬ Obligations.RegistersThatAct := by
  unfold Obligations.RegistersThatAct
  rintro ⟨-, halves, -⟩
  obtain ⟨t, ran, -, -, bits⟩ := halves 0 false strandedWrite rfl rfl rfl rfl
  have after : t = done strandedWrite (strandedWrite.setReg 0x10038 (BitVec.ofNat 64 (2 ^ 40))) :=
    (Host.Outcome.next.inj (exec_landLow.symm.trans ran)).symm
  have zero : strandedWrite.reg 0x10038 = 0 := rfl
  have claimed := bits 40 (by decide)
  rw [after, landBase_after, zero] at claimed
  exact absurd claimed (by decide)

end Sys2Proof.TileProofs
end

section
/-! PROOFS. Block scales (R64). -/

namespace Sys2Proof.FormatProofs

open Sys2Proof.Machine

/-- The value 0xFF of a scale byte is NaN, and so is every element under it (R64). -/
theorem decScaled_nan {c : Nat} (w : Nat) (h : fmtIsBlock c = true) : decScaled c w 0xFF = .nan := by
  rw [decScaled, if_pos h]
  rfl

/-- Any other scale byte multiplies by a power of two (R64). -/
theorem decScaled_scale {c x : Nat} (w : Nat) (h : fmtIsBlock c = true) (hx : x ≤ 254) :
    decScaled c w x = (decElem c w).scale (Int.ofNat x - 127) := by
  have number : ¬ (x == 0xFF) = true := by simp; omega
  rw [decScaled, if_pos h, if_neg number]

/-- Settles O58: a scale byte other than 0xFF multiplies by a power of two, and `Fv.scale` keeps sign and class. -/
theorem blockScales : Obligations.BlockScales := by
  unfold Obligations.BlockScales
  refine ⟨fun c w h => decScaled_nan w h, fun c w x h hx => ?_⟩
  rw [decScaled_scale w h hx]
  refine ⟨fun n m e value => ?_, fun n value => ?_, fun value => ?_⟩ <;> rw [value] <;> rfl

end Sys2Proof.FormatProofs
end

section
/-! SUPPORT. Bytes that an access leaves in tile store, and what a state must share with another for an engine to read the same of both. -/

namespace Sys2Proof.FormatProofs

open Sys2Proof.Machine Sys2Proof.Safety Sys2Proof.Laws Sys2Proof.TileProofs

/-! ## Bytes of one access -/

/-- Marks change no byte: the bytes of a marked write are those of the write. -/
theorem byte_writeMarked (s : State) (p swaps : Nat) (st : Stream) (a : Int) (bs : List Byte) (bad : List Nat) (x : Nat) :
    (writeMarked s p swaps st a bs bad).mem.byte x = (writeStream s p swaps st a bs false).mem.byte x :=
  marks_byte _ bad _ x

/-- A write at the address of a stream leaves its bytes there, in whatever state the tile stands as in s. -/
theorem writeMarked_leaves {s x : State} {p swaps : Nat} {st : Stream} {a : Int} {bs : List Byte} {i : Nat} (bad : List Nat)
    (hk : Keeps (s.tile p) (x.tile p)) (hw : x.mem.wf = true) (hl : bs.length ≤ 4096) (hi : i < bs.length) :
    (writeMarked x p swaps st a bs bad).mem.byte (streamPlace s p swaps st (a + Int.ofNat i)) = bs.getD i 0 := by
  rw [byte_writeMarked, ← place_keeps hk, write_byte x p swaps st a bs false hw hl i hi]

@[simp] theorem countConv_mem (s : State) (p conv : Nat) (bins : List Nat) : (countConv s p conv bins).mem = s.mem := by
  unfold countConv
  split <;> rfl

@[simp] theorem countCalls_mem (s : State) (p conv i n : Nat) : (countCalls s p conv i n).mem = s.mem := by
  unfold countCalls
  split <;> rfl

theorem fmtBits_le (c : Nat) : fmtBits c ≤ 32 := by
  unfold fmtBits
  split <;> decide

/-! ## What an engine reads -/

/-- x holds what an engine of tile p reads in s: memory, the tile's configuration and basins, and the seed of its run. -/
structure SameInputs (p : Nat) (s x : State) : Prop where
  mem : x.mem = s.mem
  tile : Keeps (s.tile p) (x.tile p)
  seed : x.seed p = s.seed p

theorem seed_setTile {s : State} {p : Nat} {y : Tile} (h : Keeps (s.tile p) y) : (s.setTile p y).seed p = s.seed p := by
  obtain ⟨-, -, sect⟩ := h.still.config
  unfold State.seed State.tileRun
  rw [tile_setTile_self, sect]
  rfl

theorem sameInputs_modTile {s : State} {p : Nat} {f : Tile → Tile} (h : Keeps (s.tile p) (f (s.tile p))) : SameInputs p s (s.modTile p f) :=
  ⟨rfl, by rwa [tile_modTile_self], seed_setTile h⟩

theorem sameInputs_trans {p : Nat} {s x y : State} (h : SameInputs p s x) (g : SameInputs p x y) : SameInputs p s y :=
  ⟨g.mem.trans h.mem, keeps_trans h.tile g.tile, g.seed.trans h.seed⟩

/-- The host's lines play no part. -/
theorem sameInputs_seen (p : Nat) (s : State) (a : List Nat) (b : Assoc Nat) : SameInputs p s (seen s a b) :=
  ⟨rfl, keeps_refl _, rfl⟩

section
variable {p : Nat} {s x : State} (h : SameInputs p s x)
include h

theorem streamAddr_same (swaps : Nat) (st : Stream) (a : Int) : streamAddr (x.tile p) swaps st a = streamAddr (s.tile p) swaps st a :=
  Nat.add_left_cancel (place_keeps h.tile swaps st a)

theorem readStream_same : readStream x p = readStream s p := by
  funext swaps st a n
  simp only [readStream, h.mem, streamAddr_same h]

theorem streamPoison_same : streamPoison x p = streamPoison s p := by
  funext swaps st a n
  simp only [streamPoison, h.mem, streamAddr_same h]

theorem aChunkAt_same : aChunkAt x p = aChunkAt s p := by
  funext swaps d st a
  simp only [aChunkAt, h.mem, readStream_same h, streamPoison_same h]

theorem bColumn_same : bColumn x p = bColumn s p := by
  funext swaps d st a c
  simp only [bColumn, readStream_same h]

theorem panelBad_same : panelBad x p = panelBad s p := by
  funext swaps d st a blocks
  simp only [panelBad, h.mem, streamPoison_same h]

theorem stream3At_same : stream3At x p = stream3At s p := by
  funext swaps st a fmt
  simp only [stream3At, h.mem, readStream_same h, streamPoison_same h]

theorem mmaExtra_same : mmaExtra x p = mmaExtra s p := by
  funext swaps d l pt
  simp only [mmaExtra, stream3At_same h]

theorem mmaConvert_same : mmaConvert x p = mmaConvert s p := by
  funext d l pt ys
  simp only [mmaConvert, h.seed]

/-- A row segment starts from the accumulator, too. -/
theorem issuedRow_same (acc : (x.tile p).acc = (s.tile p).acc) : issuedRow x p = issuedRow s p := by
  funext swaps d l pt
  simp only [issuedRow, mmaRow, mmaStart, acc, aChunkAt_same h, bColumn_same h, panelBad_same h, stream3At_same h]

end

end Sys2Proof.FormatProofs
end

section
/-! SUPPORT. What one loop point of the vector engine and one fold of the reduction unit leave (R112-R115, R118, R119). -/

namespace Sys2Proof.FormatProofs

open Sys2Proof.Machine Sys2Proof.Safety Sys2Proof.Laws Sys2Proof.TileProofs

/-! ## The vector engine -/

/-- Element e of operand k at a loop point: 0 for an operand that the operation does not read. -/
def vArg (s : State) (p swaps : Nat) (d l : List Byte) (pt : List Nat) (k e : Nat) : Nat :=
  if vReadsOp (vOp d) k then (vOperand s p swaps d l pt k (gOf ((vStreams d l).map (·.2)))).1.getD e 0 else 0

/-- The packed output elements of a loop point (R113-R115). -/
def vOut (s : State) (p swaps : Nat) (d l : List Byte) (pt : List Nat) : List Byte :=
  packElems (convFmt (vConv d)) ((List.range (gOf ((vStreams d l).map (·.2)))).map (fun e =>
    (vElem d (s.seed p) ((pointIndex (vIndexBase d) (vStride d) (loopLevels l) pt + e) % 2 ^ 64)
      (vArg s p swaps d l pt 0 e) (vArg s p swaps d l pt 1 e) (vArg s p swaps d l pt 2 e)).1))

theorem gOf_le (fs : List Nat) : gOf fs ≤ 256 := by
  unfold gOf
  split
  · decide
  · split <;> decide

theorem vOut_length_le (s : State) (p swaps : Nat) (d l : List Byte) (pt : List Nat) : (vOut s p swaps d l pt).length ≤ 4096 := by
  rw [vOut, packElems_length, List.length_map, List.length_range]
  have := Nat.mul_le_mul (fmtBits_le (convFmt (vConv d))) (gOf_le ((vStreams d l).map (·.2)))
  omega

/-- An operand that is not read stands for zeros. -/
theorem getD_unread (c : Prop) [Decidable c] (xs : List Nat × (Nat → Bool)) (g e : Nat) :
    (if c then xs else (List.replicate g 0, fun _ => false)).1.getD e 0 = if c then xs.1.getD e 0 else 0 := by
  split
  · rfl
  · simp

/-- A loop point writes its elements at the address of stream 2 (R112). -/
theorem vPoint_byte {s : State} {p swaps : Nat} {d l : List Byte} {pt : List Nat} {i : Nat} (hw : s.mem.wf = true)
    (enabled : (loopStream l 2).enabled = true) (store : vLoc d 2 = 0) (hi : i < (vOut s p swaps d l pt).length) :
    (vPoint p swaps d l s pt).mem.byte
        (streamPlace s p swaps (loopStream l 2) (pointAddr (loopStream l 2) 2 (loopLevels l) pt + Int.ofNat i)) =
      (vOut s p swaps d l pt).getD i 0 := by
  unfold vPoint
  extract_lets g get a b c j seed rs fo bad st s1 s2 s3
  have h1 : Acts p (fun _ => False) s s1 := ite_prop (fun _ => acts_bumpTile p _ s _ _) (fun _ => acts_refl p _ s)
  have h2 : Acts p (fun _ => False) s s2 :=
    acts_trans h1 (ite_prop (P := Acts p _ s1) (fun _ => acts_refl p _ s1) (fun _ => acts_countCalls p _ s1 _ _ _))
  have packed : packElems fo (rs.map (·.1)) = vOut s p swaps d l pt := by
    simp only [rs, fo, a, b, c, get, getD_unread, List.map_map]
    rfl
  rw [if_neg (by simp [st, enabled]), if_pos (by simp [store]), countConv_mem]
  simp only [s3, packed, store, vWrite, beq_self_eq_true, if_true]
  exact writeMarked_leaves _ h2.self (h2.wf hw) (vOut_length_le s p swaps d l pt) hi

theorem vBody_one {s : State} {p : Nat} {op : Op} {d l : List Byte} {pt : List Nat} (one : loopPoints (loopLevels l) = [pt]) :
    vBody s p op d l = vPoint p op.swaps d l s pt := by
  rw [vBody, one]
  rfl

theorem vOut_seen (s : State) (a : List Nat) (b : Assoc Nat) : vOut (seen s a b) = vOut s := rfl

/-! ## The reduction unit -/

/-- The fold of all rows of a reduction. -/
def allRows (s : State) (p swaps : Nat) (d l : List Byte) : List RResult :=
  foldResults d (s.seed p) (rG d l) false ((loopPoints (pinned (loopLevels l) (levelOf (loopLevels l) 0))).map (rRow s p swaps d l))

/-- A reduction of axis 2 has that fold for its one result, at the origin of stream 2 (R118). -/
theorem rResults_both {s : State} {p swaps : Nat} {d : List Byte} (l : List Byte) (axis : rAxis d = 2) :
    rResults s p swaps d l = [(List.replicate 6 0, allRows s p swaps d l)] := by
  rw [rResults, if_pos (by simp [axis])]
  rfl

/-- The bytes of that result for stream 2. -/
def foldOut (s : State) (p swaps : Nat) (d l : List Byte) : List Byte := ((allRows s p swaps d l).map (·.out)).flatten

/-- Results that do not leave on a tree are written at their address of stream 2. -/
theorem rBody_byte {s : State} {p : Nat} {op : Op} {d l : List Byte} {pt : List Nat} {rs : List RResult} {i : Nat} (hw : s.mem.wf = true)
    (net : rNet d = false) (one : rResults s p op.swaps d l = [(pt, rs)]) (hl : ((rs.map (·.out)).flatten).length ≤ 4096)
    (hi : i < ((rs.map (·.out)).flatten).length) :
    (rBody s p op d l).mem.byte
        (streamPlace s p op.swaps (loopStream l 2) (pointAddr (loopStream l 2) 2 (loopLevels l) pt + Int.ofNat i)) =
      ((rs.map (·.out)).flatten).getD i 0 := by
  unfold rBody
  simp only [net, one, Bool.false_eq_true, if_false, List.foldl_cons, List.foldl_nil, vWrite, beq_self_eq_true, if_true]
  exact writeMarked_leaves _ (keeps_refl _) hw hl hi

end Sys2Proof.FormatProofs
end

section
/-! SUPPORT. What one row segment of an MMA leaves: its accumulator entries and its converted elements (R92, R93, R103). -/

namespace Sys2Proof.FormatProofs

open Sys2Proof.Machine Sys2Proof.Safety Sys2Proof.Laws Sys2Proof.TileProofs

/-! ## Sparse tables written in turn -/

theorem agetD_awrite_self {α : Type} [DecidableEq α] (t : Assoc α) (i : Nat) (x d : α) (ht : asorted t = true) :
    agetD (awrite d t i x) i d = x := by
  unfold awrite
  split
  case isTrue e => rw [agetD, aget?_adel_self t i ht, e]; rfl
  case isFalse => exact agetD_aput_self t i x d

theorem agetD_awrite_other {α : Type} [DecidableEq α] (t : Assoc α) (i j : Nat) (x d : α) (ht : asorted t = true) (h : j ≠ i) :
    agetD (awrite d t i x) j d = agetD t j d := by
  unfold awrite
  split
  · rw [agetD, aget?_adel_other t i j ht h]; rfl
  · exact agetD_aput_other t i j x d h

/-- A key that none of the writes names keeps its entry. -/
theorem agetD_writes_other {α β : Type} [DecidableEq α] (key : β → Nat) (val : β → α) (d : α) (j : Nat) (es : List β) (t : Assoc α)
    (ht : asorted t = true) (h : ∀ e ∈ es, j ≠ key e) : agetD (es.foldl (fun a e => awrite d a (key e) (val e)) t) j d = agetD t j d := by
  induction es generalizing t with
  | nil => rfl
  | cons e es ih =>
    obtain ⟨he, hes⟩ := List.forall_mem_cons.mp h
    rw [List.foldl_cons, ih _ (awrite_sorted d t _ _ ht) hes, agetD_awrite_other t _ j _ d ht he]

/-- Writes of different keys leave each its value. -/
theorem agetD_writes_mem {α β : Type} [DecidableEq α] (key : β → Nat) (val : β → α) (d : α) (es : List β) (t : Assoc α)
    (ht : asorted t = true) (distinct : es.Pairwise (fun e f => key e ≠ key f)) {e : β} (he : e ∈ es) :
    agetD (es.foldl (fun a e => awrite d a (key e) (val e)) t) (key e) d = val e := by
  induction es generalizing t with
  | nil => exact absurd he List.not_mem_nil
  | cons f es ih =>
    obtain ⟨hf, hes⟩ := List.pairwise_cons.mp distinct
    rw [List.foldl_cons]
    rcases List.mem_cons.mp he with rfl | he
    · rw [agetD_writes_other key val d _ es _ (awrite_sorted d t _ _ ht) hf, agetD_awrite_self t _ _ d ht]
    · exact ih _ (awrite_sorted d t _ _ ht) hes he

/-! ## The accumulator -/

/-- The entry of column c of a row segment (R92). -/
def segEntry (d l : List Byte) (pt : List Nat) (c : Nat) : Nat :=
  accEntry d ((loopLevels l).getD 2 ⟨0, 0, []⟩).bound (pt.getD 1 0) (pt.getD 2 0) c

theorem segEntry_ne (d l : List Byte) (pt : List Nat) {b c : Nat} (h : b ≠ c) : segEntry d l pt b ≠ segEntry d l pt c :=
  fun e => h (Nat.add_left_cancel e)

/-- The values of a row segment stand in its 64 entries. -/
theorem storeAcc_entry {s : State} {p c : Nat} {d l : List Byte} {pt : List Nat} {vs : List W32} (sorted : asorted (s.tile p).acc = true)
    (hl : vs.length = 64) (hc : c < 64) : agetD ((storeAcc s p d l pt vs).tile p).acc (segEntry d l pt c) 0 = vs.getD c 0 := by
  have distinct : (vs.zip (List.range 64)).Pairwise (fun e f => segEntry d l pt e.2 ≠ segEntry d l pt f.2) := by
    have columns : ((vs.zip (List.range 64)).map (·.2)).Nodup := by
      rw [List.map_snd_zip (by simp [hl])]
      exact List.nodup_range
    exact (List.pairwise_map.mp columns).imp (segEntry_ne d l pt)
  have column : (vs.getD c 0, c) ∈ vs.zip (List.range 64) := by
    have inside : c < vs.length := by omega
    exact List.mem_iff_getElem.mpr ⟨c, by simp [hl, hc], by simp [inside]⟩
  rw [storeAcc, tile_modTile_self]
  exact agetD_writes_mem (fun e => segEntry d l pt e.2) (·.1) 0 _ _ sorted distinct column

theorem wrote_acc (s : State) (p : Nat) (l w : List Nat) : ((s.wrote p l w).tile p).acc = (s.tile p).acc := by
  unfold State.wrote
  dsimp only
  split
  · rw [tile_modTile_self]
  · rfl

theorem writeStream_acc (s : State) (p swaps : Nat) (st : Stream) (a : Int) (bs : List Byte) (bad : Bool) :
    ((writeStream s p swaps st a bs bad).tile p).acc = (s.tile p).acc := by
  unfold writeStream
  refine List.foldlRecOn (motive := fun x : State => (x.tile p).acc = (s.tile p).acc) _ _ rfl (fun x hx r _ => ?_)
  rw [wrote_acc]
  exact hx

theorem countConv_acc (s : State) (p conv : Nat) (bins : List Nat) : ((countConv s p conv bins).tile p).acc = (s.tile p).acc := by
  unfold countConv
  split
  · rw [tile_modTile_self]; rfl
  · rfl

theorem countCalls_acc (s : State) (p conv i n : Nat) : ((countCalls s p conv i n).tile p).acc = (s.tile p).acc := by
  unfold countCalls
  split
  · rw [State.bumpTile, tile_modTile_self]; rfl
  · rfl

/-- The epilogue's write leaves the accumulator as it was. -/
theorem mmaWriteSeg_acc (p swaps : Nat) (d l : List Byte) (s : State) (e : List Nat × List Cell) :
    ((mmaWriteSeg p swaps d l s e).tile p).acc = (s.tile p).acc := by
  unfold mmaWriteSeg
  extract_lets pt ls ys c fmt sb st a s1 s2
  have h1 : (s1.tile p).acc = (s.tile p).acc := writeStream_acc s p swaps st a _ false
  have h2 : (s2.tile p).acc = (s.tile p).acc :=
    ite_prop (P := fun x : State => (x.tile p).acc = (s.tile p).acc) (fun _ => (writeStream_acc s1 p swaps _ _ _ _).trans h1) (fun _ => h1)
  rw [countConv_acc, countCalls_acc, h2]

/-! ## A row of zero blocks -/

/-- With every block of its chunks skipped, a row segment ends as it starts (R103). -/
theorem mmaRow_skipped {s : State} {p swaps : Nat} {d l : List Byte} {pt : List Nat} {chunk : Nat → AChunk}
    (skipped : ∀ k, k < ((loopLevels l).getD 0 ⟨0, 0, []⟩).bound → readBlocks d (chunk k) = []) :
    (mmaRow s p swaps d l pt chunk).map (·.1) = (mmaStart s p swaps d l pt).map (·.1) := by
  unfold mmaRow
  refine List.foldlRecOn (motive := fun v : List Cell => v.map (·.1) = (mmaStart s p swaps d l pt).map (·.1)) _ _ rfl (fun v hv k hk => ?_)
  have hl : v.length = 64 := by simpa [mmaStart_length] using congrArg List.length hv
  rw [← hv]
  simp only [skipped k (List.mem_range.mp hk), List.isEmpty_nil, if_true, List.map_map]
  conv_rhs => rw [← List.map_fst_zip (l₁ := v) (l₂ := List.range 64) (by simp [hl]), List.map_map]
  rfl

theorem readBlocks_eq_nil {d : List Byte} {x : AChunk} (zskip : mmaZskip d = true)
    (zero : ∀ j, j < chunkElems (mmaA d) / zeroBlock (mmaA d) (mmaB d) → x.zero (mmaA d) (zeroBlock (mmaA d) (mmaB d)) j = true) :
    readBlocks d x = [] := by
  refine List.filter_eq_nil_iff.mpr (fun j hj => ?_)
  simp [zskip, zero j (List.mem_range.mp hj)]

/-- With init = 1 a row segment starts from its entries of the accumulator (R92). -/
theorem mmaStart_entry {s : State} {p swaps c : Nat} {d l : List Byte} {pt : List Nat} (init : mmaInit d = 1) (hc : c < 64) :
    ((mmaStart s p swaps d l pt).map (·.1)).getD c (.of 0) = .of (agetD (s.tile p).acc (segEntry d l pt c) 0) := by
  simp only [mmaStart, init]
  simp [hc, segEntry]

/-! ## One row segment -/

theorem outTiles_one {l : List Byte} {pt : List Nat} (one : segPoints l = [pt]) : outTiles l = [pt.drop 3] := by
  simp [outTiles, one]

/-- The state in which an MMA of one row segment has counted its skips and kept its row. -/
def segKept (s : State) (p swaps : Nat) (d l : List Byte) (pt : List Nat) : State :=
  storeAcc (mmaCount s p d l (issuedChunk s p swaps d l)) p d l pt ((issuedRow s p swaps d l pt).map (·.1.w))

theorem bump_acc (y : Tile) (k n : Nat) : (y.bump k n).acc = y.acc := rfl

/-- The counters of an MMA are all that its count changes: of the tile, neither an input nor the accumulator. -/
theorem mmaCount_same (s : State) (p : Nat) (d l : List Byte) (chunk : List Nat → AChunk) :
    SameInputs p s (mmaCount s p d l chunk) ∧ ((mmaCount s p d l chunk).tile p).acc = (s.tile p).acc := by
  unfold mmaCount
  extract_lets n q
  clear_value n q
  refine ⟨sameInputs_modTile ?_, by simp only [tile_modTile_self, bump_acc]⟩
  exact keeps_trans (keeps_trans (keeps_trans (keeps_bump _ _ _) (keeps_bump _ _ _)) (keeps_bump _ _ _)) (keeps_bump _ _ _)

theorem storeAcc_same (s : State) (p : Nat) (d l : List Byte) (pt : List Nat) (vs : List W32) : SameInputs p s (storeAcc s p d l pt vs) := by
  unfold storeAcc
  exact sameInputs_modTile ⟨⟨⟨rfl, rfl, rfl⟩, ⟨rfl, rfl⟩, ⟨rfl, rfl, rfl, rfl⟩, ⟨rfl, List.Sublist.refl _, rfl, rfl⟩⟩, rfl, rfl, rfl⟩

theorem segKept_same (s : State) (p swaps : Nat) (d l : List Byte) (pt : List Nat) : SameInputs p s (segKept s p swaps d l pt) :=
  sameInputs_trans (mmaCount_same s p d l _).1 (storeAcc_same _ p d l pt _)

theorem mmaBody_one {s : State} {p : Nat} {op : Op} {d l : List Byte} {pt : List Nat} (one : segPoints l = [pt]) :
    mmaBody s p op d l =
      if mmaWrite d then mmaWriteSeg p op.swaps d l (segKept s p op.swaps d l pt) (pt, issuedRow s p op.swaps d l pt)
      else segKept s p op.swaps d l pt := by
  obtain ⟨same, acc⟩ := mmaCount_same s p d l (issuedChunk s p op.swaps d l)
  have row := issuedRow_same same acc
  simp only [mmaBody, outTiles_one one, one, List.foldl_cons, List.foldl_nil, List.filter_cons, List.filter_nil, beq_self_eq_true, if_true,
    mmaTile, List.map_cons, List.map_nil, row, segKept]

/-- The 64 entries of the one row segment hold its values (R92). -/
theorem mmaBody_entry {s : State} {p c : Nat} {op : Op} {d l : List Byte} {pt : List Nat} (one : segPoints l = [pt])
    (sorted : asorted (s.tile p).acc = true) (hc : c < 64) :
    agetD ((mmaBody s p op d l).tile p).acc (segEntry d l pt c) 0 = ((issuedRow s p op.swaps d l pt).getD c (.of 0, false)).1.w := by
  have kept : ((mmaBody s p op d l).tile p).acc = ((segKept s p op.swaps d l pt).tile p).acc := by
    rw [mmaBody_one one]
    exact ite_prop (P := fun x : State => (x.tile p).acc = _) (fun _ => mmaWriteSeg_acc p op.swaps d l _ _) (fun _ => rfl)
  obtain ⟨-, acc⟩ := mmaCount_same s p d l (issuedChunk s p op.swaps d l)
  rw [kept, segKept, storeAcc_entry (acc ▸ sorted) (by simp [issuedRow, mmaRow_length]) hc]
  exact List.getD_map (f := fun x : Cell => x.1.w) (d := (.of 0, false)) ..

/-- With zskip and init = 1, a row whose blocks are all zero leaves every entry as it was (R103). -/
theorem issuedRow_skipped {s : State} {p swaps c : Nat} {d l : List Byte} {pt : List Nat} (zskip : mmaZskip d = true) (init : mmaInit d = 1)
    (zero : ∀ k, k < ((loopLevels l).getD 0 ⟨0, 0, []⟩).bound → ∀ j, j < chunkElems (mmaA d) / zeroBlock (mmaA d) (mmaB d) →
      (aChunkAt s p swaps d (loopStream l 0) (mmaAddr l 0 (pt.set 0 k))).zero (mmaA d) (zeroBlock (mmaA d) (mmaB d)) j = true) (hc : c < 64) :
    ((issuedRow s p swaps d l pt).getD c (.of 0, false)).1.w = agetD (s.tile p).acc (segEntry d l pt c) 0 := by
  have row : (issuedRow s p swaps d l pt).map (·.1) = (mmaStart s p swaps d l pt).map (·.1) :=
    mmaRow_skipped (fun k hk => readBlocks_eq_nil zskip (zero k hk))
  have value : ((issuedRow s p swaps d l pt).getD c (.of 0, false)).1 = ((issuedRow s p swaps d l pt).map (·.1)).getD c (.of 0) :=
    (List.getD_map (f := fun x : Cell => x.1) (d := (.of 0, false)) ..).symm
  rw [value, row, mmaStart_entry init hc]
  rfl

/-- The converted row segment of a point, from its accumulator values (R93). -/
def segConverted (s : State) (p swaps : Nat) (d l : List Byte) (pt : List Nat) (row : List Cell) : Converted :=
  mmaConvert s p d l pt (epiSegment d row (mmaExtra s p swaps d l pt))

/-- Its elements, packed. -/
def segOut (s : State) (p swaps : Nat) (d l : List Byte) (pt : List Nat) : List Byte :=
  (segConverted s p swaps d l pt (issuedRow s p swaps d l pt)).bytes (convFmt (mmaConv d))

/-- Where the scale bytes of a row segment begin (R91). -/
def segScales (d l : List Byte) (pt : List Nat) : Int :=
  companion (loopStream l 2) (mmaAddr l 2 pt) (segBytes (mmaFunc d) (convFmt (mmaConv d))) (mmaCScale d)
    (segCols (mmaFunc d) / fmtBlock (convFmt (mmaConv d)))

/-- Place x holds a scale byte of the row segment of a point (R91). -/
def OnScales (s : State) (p swaps : Nat) (d l : List Byte) (pt : List Nat) (x : Nat) : Prop :=
  fmtIsBlock (convFmt (mmaConv d)) = true ∧
    Reached s p swaps (loopStream l 2) [segScales d l pt] (segCols (mmaFunc d) / fmtBlock (convFmt (mmaConv d))) x

theorem segConverted_same {s x : State} {p : Nat} (h : SameInputs p s x) : segConverted x p = segConverted s p := by
  funext swaps d l pt row
  simp only [segConverted, mmaConvert_same h, mmaExtra_same h]

/-- A row segment has at most one scale byte a block of its columns. -/
theorem segConverted_scales (s : State) (p swaps : Nat) (d l : List Byte) (pt : List Nat) {row : List Cell} (hl : row.length = 64) :
    (segConverted s p swaps d l pt row).scaleBytes.length ≤ segCols (mmaFunc d) / fmtBlock (convFmt (mmaConv d)) := by
  have columns := epiSegment_length d row (mmaExtra s p swaps d l pt) hl (fun h => mmaExtra_length s p swaps d l pt h)
  rw [Converted.scaleBytes, List.length_map, ← columns, ← List.length_map (f := fun x : Cell => x.1)]
  exact (convertFz_le ..).2

/-- The epilogue's write leaves the converted elements at the address of stream 2, but for bytes on which their own scale bytes fall. -/
theorem mmaWriteSeg_byte {s x : State} {p swaps : Nat} {d l : List Byte} {pt : List Nat} {row : List Cell} {i : Nat} (h : SameInputs p s x)
    (hw : s.mem.wf = true) (hl : row.length = 64) (hb : ((segConverted s p swaps d l pt row).bytes (convFmt (mmaConv d))).length ≤ 4096)
    (hi : i < ((segConverted s p swaps d l pt row).bytes (convFmt (mmaConv d))).length)
    (apart : ¬ OnScales s p swaps d l pt (streamPlace s p swaps (loopStream l 2) (mmaAddr l 2 pt + Int.ofNat i))) :
    (mmaWriteSeg p swaps d l x (pt, row)).mem.byte (streamPlace s p swaps (loopStream l 2) (mmaAddr l 2 pt + Int.ofNat i)) =
      ((segConverted s p swaps d l pt row).bytes (convFmt (mmaConv d))).getD i 0 := by
  unfold mmaWriteSeg
  extract_lets pt' ls ys c fmt sb st a s1 s2
  have converted : c = segConverted s p swaps d l pt row := by rw [← segConverted_same h]; rfl
  have wf : x.mem.wf = true := by rw [h.mem]; exact hw
  have elements : s1.mem.byte (streamPlace s p swaps st (a + Int.ofNat i)) = (c.bytes fmt).getD i 0 :=
    writeMarked_leaves _ h.tile wf (converted ▸ hb) (converted ▸ hi)
  have acts1 : Acts p (fun _ => True) x s1 := acts_writeMarked x swaps st a _ _ _ (fun _ _ => trivial)
  rw [countConv_mem, countCalls_mem, ← converted, ← elements]
  by_cases block : fmtIsBlock fmt = true
  · have scales : Acts p (Reached s p swaps st [segScales d l pt] (segCols (mmaFunc d) / fmtBlock fmt)) s1
        (writeStream s1 p swaps st.narrow (segScales d l pt) c.scaleBytes false) :=
      acts_reached (keeps_trans h.tile acts1.self) (fun z b => narrow_place z p swaps st b) (List.mem_singleton.mpr rfl)
        (converted ▸ segConverted_scales s p swaps d l pt hl) (fun _ reached => reached)
    rw [show s2 = writeStream s1 p swaps st.narrow (segScales d l pt) c.scaleBytes false from if_pos block]
    exact scales.bytes (acts1.wf wf) _ (fun reached => apart ⟨block, reached⟩)
  · rw [show s2 = s1 from if_neg block]

end Sys2Proof.FormatProofs
end

section
/-! PROOFS. Results of one access of the matrix engine, the vector engine and the reduction unit (R71, R74, R92, R93, R103, R112-R115,
R118, R119). -/

namespace Sys2Proof.FormatProofs

open Sys2Proof.Machine Sys2Proof.Safety Sys2Proof.Laws Sys2Proof.TileProofs

section
variable {n : BitVec 10} {s : State} {p : Nat} {op : Op} {rest : List Op} {d l : List Byte}
  (descriptor : (s.tile p).desc op.desc = d) (loops : (s.tile p).loopT op.loop = l)
include descriptor loops

/-- An MMA of one row segment leaves its values in the accumulator and, with write, its converted elements at the address of stream 2
(R92, R93). -/
theorem mma_leaves {pt : List Nat} (h : AtEngine s n 1 p op rest) (ho : leAt d 1 1 = 1) (one : segPoints l = [pt])
    (sorted : asorted (s.tile p).acc = true) :
    ∃ t, exec (.mma n none) s = .next t ∧
      (∀ c, c < 64 → agetD (t.tile p).acc (segEntry d l pt c) 0 = ((issuedRow s p op.swaps d l pt).getD c (.of 0, false)).1.w) ∧
      (mmaWrite d = true → ∀ i, i < (segOut s p op.swaps d l pt).length → (segOut s p op.swaps d l pt).length ≤ 4096 →
        ¬ OnScales s p op.swaps d l pt (streamPlace s p op.swaps (loopStream l 2) (mmaAddr l 2 pt + Int.ofNat i)) →
        t.mem.byte (streamPlace s p op.swaps (loopStream l 2) (mmaAddr l 2 pt + Int.ofNat i)) =
          (segOut s p op.swaps d l pt).getD i 0) := by
  obtain ⟨t, ran, -, a, b, results⟩ := (engineOperationsComplete n s p op rest).1 h (descriptor ▸ ho)
  rw [descriptor, loops] at results
  have same := sameInputs_seen p s a b
  have row := issuedRow_same same rfl
  refine ⟨t, ran, fun c hc => ?_, fun write i hi hl apart => ?_⟩
  · rw [results.acc, mmaBody_entry (s := seen s a b) one sorted hc, row]
  · rw [results.mem, mmaBody_one one, if_pos write, row]
    exact mmaWriteSeg_byte (sameInputs_trans same (segKept_same _ p op.swaps d l pt)) h.canonical (mmaRow_length ..) hl hi apart

/-- One loop point of the vector engine leaves its elements, packed, at the address of stream 2 (R112-R115). -/
theorem vector_leaves {pt : List Nat} (h : AtEngine s n 2 p op rest) (one : loopPoints (loopLevels l) = [pt])
    (enabled : (loopStream l 2).enabled = true) (store : vLoc d 2 = 0) :
    ∃ t, exec (.vectorEngineOperation n none) s = .next t ∧ ∀ i, i < (vOut s p op.swaps d l pt).length →
      t.mem.byte (streamPlace s p op.swaps (loopStream l 2) (pointAddr (loopStream l 2) 2 (loopLevels l) pt + Int.ofNat i)) =
        (vOut s p op.swaps d l pt).getD i 0 := by
  obtain ⟨-, -, vector, -⟩ := engineOperationsComplete n s p op rest
  obtain ⟨t, ran, -, a, b, results⟩ := vector h
  rw [descriptor, loops] at results
  refine ⟨t, ran, fun i hi => ?_⟩
  rw [results.mem, vBody_one one, ← vOut_seen s a b]
  exact vPoint_byte (s := seen s a b) h.canonical enabled store hi

/-- A reduction of axis 2 leaves its result at the origin of stream 2 (R118, R119). -/
theorem reduction_leaves (h : AtEngine s n 3 p op rest) (net : rNet d = false) (axis : rAxis d = 2) :
    ∃ t, exec (.reductionOperation n none) s = .next t ∧ ∀ i, i < (foldOut s p op.swaps d l).length →
      (foldOut s p op.swaps d l).length ≤ 4096 →
      t.mem.byte (streamPlace s p op.swaps (loopStream l 2) (pointAddr (loopStream l 2) 2 (loopLevels l) (List.replicate 6 0) + Int.ofNat i)) =
        (foldOut s p op.swaps d l).getD i 0 := by
  obtain ⟨-, -, -, reduction, -⟩ := engineOperationsComplete n s p op rest
  obtain ⟨t, a, b, ran, -, results⟩ := reduction h
  rw [descriptor, loops] at results
  refine ⟨t, ran, fun i hi hl => ?_⟩
  have folded := rResults_both (s := s) (p := p) (swaps := op.swaps) l axis
  rw [← rResults_seen s a b] at folded
  rw [results.mem]
  exact rBody_byte (s := seen s a b) h.canonical net folded hl hi

end

/-- Settles O49: what the body of an operation leaves stands when it completes (O48), and the one access of each body writes its values
last. -/
theorem engineResults : Obligations.EngineResults := by
  unfold Obligations.EngineResults
  intro n s p op rest
  refine ⟨fun pt h ho one sorted => ?_, fun pt h one enabled store => ?_, fun h net axis => ?_⟩
  case refine_1 =>
    obtain ⟨t, ran, entries, elements⟩ := mma_leaves rfl rfl h ho one sorted
    refine ⟨t, ran, entries, fun i hi hl write apart => elements write i hi hl apart, fun zskip init zero c hc => ?_⟩
    exact (entries c hc).trans (issuedRow_skipped zskip init zero hc)
  case refine_2 => exact vector_leaves rfl rfl h one enabled store
  case refine_3 => exact reduction_leaves rfl rfl h net axis

end Sys2Proof.FormatProofs
end

section
/-! SUPPORT. What the completion of an operation and the taking of a basin's message leave of a tile (R50, R147, R148). -/

namespace Sys2Proof.SamplerProofs

open Sys2Proof.Machine Sys2Proof.Safety Sys2Proof.Laws Sys2Proof.TileProofs

/-! ## Completion -/

/-- The first operation of unit u's queue on tile p has ended, between s and t: memory and every other tile stand. -/
structure Ended (p u : Nat) (s t : State) : Prop where
  only : Only engineKinds s t
  mem : t.mem = s.mem
  still : Untouched (s.tile p) (t.tile p)
  queue : (t.tile p).queue u = ((s.tile p).queue u).drop 1
  others : ∀ q, q ≠ p → t.tile q = s.tile q

theorem only_modTile_engine (s : State) (p : Nat) (f : Tile → Tile) : Only engineKinds s (s.modTile p f) := by
  refine ⟨rfl, rfl, fun k hk => ?_⟩
  cases k <;> simp [engineKinds, Kind.same] at hk ⊢

/-- Completion is the advance of the consumed basins, the step that takes the operation out, and the marks of progress. -/
theorem completeOp_eq (s : State) (p u : Nat) (op : Op) (l : List Byte) (ins : List (Nat × Nat)) :
    completeOp s p u op l ins = settle ((((basinAdvances (s.tile p) u l ins).foldl (fun x e => advanceBasin x p e.1 e.2) s).modTile p
      (opGone p u op)).noteProgress p) p := rfl

/-- A completed operation has left its queue (R50). -/
theorem completeOp_ended (s : State) (p u : Nat) (op : Op) (l : List Byte) (ins : List (Nat × Nat)) :
    Ended p u s (completeOp s p u op l ins) := by
  obtain ⟨advanced, -, -⟩ := advances_leave (basinAdvances (s.tile p) u l ins) (basinAdvances_keys ..) p s
  rw [completeOp_eq]
  generalize (basinAdvances (s.tile p) u l ins).foldl (fun x e => advanceBasin x p e.1 e.2) s = x at advanced
  obtain ⟨gone, -, queue, -⟩ := opGone_leaves p u op (x.tile p)
  have settled := quiet_trans (progress_leaves (x.modTile p (opGone p u op)) p).1 (settle_leaves _ p).1
  have here := tile_modTile_self x p (opGone p u op)
  refine ⟨only_trans advanced.only (only_trans (only_modTile_engine x p _) settled.only), settled.mem.trans advanced.mem,
    untouched_trans advanced.still (untouched_trans gone (here ▸ settled.still)), ?_, fun q hq => ?_⟩
  · rw [queue_of settled.queues, here, queue, queue_of advanced.queues]
  · rw [settled.others q hq, tile_modTile_other x p q _ hq, advanced.others q hq]

/-- Counters of the tile that move before the operation ends change nothing of that. -/
theorem ended_after {p u : Nat} {s x t : State} (h : Quiet p s x) (g : Ended p u x t) : Ended p u s t :=
  ⟨only_trans h.only g.only, g.mem.trans h.mem, untouched_trans h.still g.still, by rw [g.queue, queue_of h.queues],
    fun q hq => (g.others q hq).trans (h.others q hq)⟩

/-! ## The collection of a tile -/

theorem onceEvent_collect (s : State) (p u code limit : Nat) (d : List Byte) :
    ((s.onceEvent p u code limit d).tile p).collect = (s.tile p).collect := by
  unfold State.onceEvent State.unitEvent
  extract_lets k
  split
  · rw [tile_event, tile_modTile_self]
  · rfl

theorem advanceBasin_collect (s : State) (p b a : Nat) : ((advanceBasin s p b a).tile p).collect = (s.tile p).collect := by
  unfold advanceBasin
  extract_lets t size x s1
  split
  · rw [onceEvent_collect, tile_modTile_self]; rfl
  · rw [tile_modTile_self]; rfl

theorem opGone_collect (p u : Nat) (op : Op) (y : Tile) : (opGone p u op y).collect = y.collect := by
  unfold opGone
  extract_lets t1 t2 t3
  have signalled : t2.collect = y.collect := by
    unfold t2
    split <;> rfl
  have released : t3.collect = t2.collect := by
    unfold t3
    split <;> rfl
  exact released.trans signalled

theorem settle_collect (s : State) (p : Nat) : ((settle s p).tile p).collect = (s.tile p).collect := by
  unfold settle
  split
  · rw [tile_modTile_self]; rfl
  · rfl

/-- Completion leaves the collection of a COMBINE as it is (R251). -/
theorem completeOp_collect (s : State) (p u : Nat) (op : Op) (l : List Byte) (ins : List (Nat × Nat)) :
    ((completeOp s p u op l ins).tile p).collect = (s.tile p).collect := by
  rw [completeOp_eq, settle_collect, State.noteProgress, tile_modTile_self, tile_modTile_self, opGone_collect]
  refine List.foldlRecOn (motive := fun x : State => (x.tile p).collect = (s.tile p).collect) _ _ rfl (fun x hx e _ => ?_)
  rw [advanceBasin_collect, hx]

/-! ## Work of a tile that may move its basins -/

/-- t follows s by work of tile p that leaves its queues, and every other tile, as they were. -/
structure Works (p : Nat) (s t : State) : Prop where
  only : Only engineKinds s t
  wf : s.mem.wf = true → t.mem.wf = true
  still : Untouched (s.tile p) (t.tile p)
  queues : (t.tile p).queues = (s.tile p).queues
  others : ∀ q, q ≠ p → t.tile q = s.tile q

theorem works_refl (p : Nat) (s : State) : Works p s s := ⟨only_refl _ s, id, untouched_refl _, rfl, fun _ _ => rfl⟩

theorem works_trans {p : Nat} {a b c : State} (h : Works p a b) (g : Works p b c) : Works p a c :=
  ⟨only_trans h.only g.only, fun w => g.wf (h.wf w), untouched_trans h.still g.still, g.queues.trans h.queues,
    fun q hq => (g.others q hq).trans (h.others q hq)⟩

theorem works_of_acts {p : Nat} {W : Nat → Prop} {s t : State} (h : Acts p W s t) : Works p s t :=
  ⟨h.only, h.wf, h.self.still, h.self.queues, h.others⟩

/-- The head of a basin that moves past a message is work of its tile (R147). -/
theorem popBasin_works (s : State) (p b : Nat) (m : Msg) : Works p s (popBasin s p b m) := by
  refine ⟨only_modTile_engine s p _, id, ?_, ?_, fun q hq => tile_modTile_other s p q _ hq⟩ <;> rw [popBasin, tile_modTile_self]
  · exact ⟨⟨rfl, rfl, rfl⟩, ⟨rfl, rfl⟩, ⟨rfl, rfl, rfl, rfl⟩, ⟨rfl, List.Sublist.refl _, rfl, rfl⟩⟩
  · rfl

end Sys2Proof.SamplerProofs
end

section
/-! SUPPORT. COMBINE: the messages that it takes, and the sums that it writes (R248-R251). -/

namespace Sys2Proof.SamplerProofs

open Sys2Proof.Machine Sys2Proof.Safety Sys2Proof.Laws Sys2Proof.TileProofs

/-! ## The collection -/

theorem keeps_collect (y : Tile) (c : Collect) : Keeps y { y with collect := c } :=
  ⟨⟨⟨rfl, rfl, rfl⟩, ⟨rfl, rfl⟩, ⟨rfl, rfl, rfl, rfl⟩, ⟨rfl, List.Sublist.refl _, rfl, rfl⟩⟩, rfl, rfl, rfl⟩

/-- A message taken from the combine basin is kept or counted as discarded; either is work of the tile (R250). The definition is
unfolded as a function: to compare its two applied forms, the kernel recurses too deep. -/
theorem collectOne_works (s : State) (p n : Nat) (op : Op) (d l : List Byte) : Works p s (collectOne s p n op d l) := by
  obtain ⟨collect, h⟩ : ∃ f, f = collectOne := ⟨_, rfl⟩
  rw [← h]
  delta collectOne at h
  subst h
  beta_reduce
  extract_lets +onlyGivenNames b m s1
  refine works_trans (popBasin_works s p b m) ?_
  generalize contribution s p n op d l m = c
  cases c with
  | none =>
    extract_lets +onlyGivenNames s2
    refine works_of_acts (W := fun _ => True) (acts_trans (b := s2) (acts_bumpTile p _ s1 _ _) ?_)
    refine ite_prop (P := Acts p _ s2) (fun _ => acts_refl p _ s2) (fun _ => ?_)
    exact acts_trans (acts_modTile _ _ _ (keeps_collect _ _)) (acts_unitEvent p _ _ _ _ _ _)
  | some e =>
    obtain ⟨r, j, c0, k⟩ := e
    dsimp only
    refine works_of_acts (W := fun _ => True) (acts_trans ?_ (acts_modTile _ _ _ (keeps_trans (keeps_collect _ _) (keeps_bump _ _ _))))
    exact acts_write s1 _ _ _ _ _ _ (fun _ _ => trivial)

theorem collectGo_works (p n : Nat) (op : Op) (d l : List Byte) (k : Nat) (s : State) : Works p s (collectGo p n op d l k s) := by
  induction k generalizing s with
  | zero => exact works_refl p s
  | succ k ih =>
    unfold collectGo
    exact ite_prop (P := Works p s) (fun _ => works_refl p s) (fun _ => works_trans (collectOne_works s p n op d l) (ih _))

/-! ## The sums -/

/-- Where a COMBINE writes: its sums, row by row, at stream 2 (R250). -/
def combineWrites (s : State) (p swaps : Nat) (d l : List Byte) : Nat → Prop :=
  Reached s p swaps (loopStream l 2)
    ((List.range (cRows d)).map (fun r => Int.ofNat ((loopStream l 2).base + r * cWidth d * fmtBits (convFmt (cConv d)) / 8)))
    ((fmtBits (convFmt (cConv d)) * cWidth d + 7) / 8)

/-- The sum pass over a row writes there. -/
theorem combineRow_acts {s x : State} {p r : Nat} {op : Op} {d : List Byte} (l : List Byte) (hk : Keeps (s.tile p) (x.tile p))
    (hr : r < cRows d) : Acts p (combineWrites s p op.swaps d l) x (combineRow p op d l x r) := by
  unfold combineRow
  extract_lets js w fo vs c bad st s1 s2
  have columns : c.elems.length ≤ w := by simpa [vs] using (convert_le (cConv d) (x.seed p) (r * w) false vs).1
  have written : Acts p (combineWrites s p op.swaps d l) x s1 := by
    refine acts_vWrite x op.swaps 0 st _ _ _ _ (fun _ i hi => ?_)
    rw [place_keeps hk]
    refine reached_one (List.mem_map.mpr ⟨r, List.mem_range.mpr hr, rfl⟩) (Nat.lt_of_lt_of_le hi ?_)
    rw [Converted.bytes, packElems_length]
    exact Nat.div_le_div_right (Nat.add_le_add_right (Nat.mul_le_mul_left _ columns) 7)
  have counted : Acts p (combineWrites s p op.swaps d l) x s2 :=
    acts_trans written (acts_trans (acts_countCalls p _ _ _ _ _) (acts_countConv p _ _ _ _))
  exact ite_prop (P := Acts p _ x) (fun _ => acts_trans counted (acts_bumpTile p _ s2 _ _)) (fun _ => counted)

theorem combineRows_acts (s : State) (p : Nat) (op : Op) (d l : List Byte) :
    Acts p (combineWrites s p op.swaps d l) s ((List.range (cRows d)).foldl (combineRow p op d l) s) :=
  acts_fold _ _ s (fun _ _ hr hk => combineRow_acts l hk (List.mem_range.mp hr))

/-! ## The end of the command -/

theorem snoopChanged_seen (s y : State) : ∃ a b, s.snoopChanged y = seen y a b := backInv_shape y _

/-- A command that begins at s ends as it would from x, but for the host's lines. -/
theorem done_from {s x : State} (y : State) (hs : s.stopped = false) (hx : x.stopped = false) (pending : x.pending = s.pending)
    (part : x.part = s.part) : ∃ a b, done s y = seen (done x y) a b := by
  obtain ⟨a, b, fromS⟩ := snoopChanged_seen s y
  obtain ⟨_, _, fromX⟩ := snoopChanged_seen x y
  refine ⟨a, b, ?_⟩
  simp only [done, hs, hx, Bool.false_eq_true, if_false, fromS, fromX, doneBoard, pending, part, seen]

theorem completed_seen {s t : State} {p u : Nat} {op : Op} {rest : List Op} {l : List Byte} {ins : List (Nat × Nat)} {W : Nat → Prop}
    (h : Completed s t p u op rest l ins W) (a : List Nat) (b : Assoc Nat) : Completed s (seen t a b) p u op rest l ins W :=
  have lines : Only engineKinds t (seen t a b) := (acts_seen (W := W) (acts_refl p W (seen t a b))).only
  ⟨h.queue, h.queues, h.sequencer, h.consumed, h.basins, h.signal, h.tile, h.others, h.bytes, only_trans h.only lines⟩

theorem computed_seen {x t : State} {p : Nat} (h : Computed x t p) (a : List Nat) (b : Assoc Nat) : Computed x (seen t a b) p :=
  ⟨h.mem, h.acc, h.vb, h.hist, h.sent⟩

theorem stopped_of_only {s t : State} (h : Only engineKinds s t) : t.stopped = s.stopped := by
  have power : t.power = s.power := h.2.2 .power (by decide)
  simp only [State.stopped, power]

end Sys2Proof.SamplerProofs
end

section
/-! PROOFS. COMBINE at the front of its engine's queue (R248-R251). -/

namespace Sys2Proof.SamplerProofs

open Sys2Proof.Machine Sys2Proof.Safety Sys2Proof.Laws Sys2Proof.TileProofs

/-- The state in which a COMBINE has taken what its basin holds, with these lines at the host. -/
def combineTaken (s : State) (n p : Nat) (op : Op) (d l : List Byte) (a : List Nat) (b : Assoc Nat) : State :=
  collectGo p n op d l (((s.tile p).basin (cBasin d)).used / 128 + 1) (seen s a b)

theorem combineTaken_works (s : State) (n p : Nat) (op : Op) (d l : List Byte) (a : List Nat) (b : Assoc Nat) :
    Works p s (combineTaken s n p op d l a b) :=
  works_trans (works_of_acts (W := fun _ => True) (acts_seen (acts_refl p _ (seen s a b)))) (collectGo_works p n op d l _ _)

/-- The state in which it has written the sums of all rows. -/
def combineSummed (p : Nat) (op : Op) (d l : List Byte) (x : State) : State := (List.range (cRows d)).foldl (combineRow p op d l) x

/-- The collection of a tile cleared (R251). -/
def collectionCleared (p : Nat) (x : State) : State := x.modTile p (fun y => { y with collect := ⟨[], false⟩ })

/-- COMBINE takes its messages, and completes when it has collected every column. -/
theorem exec_combine_at {s : State} {n : BitVec 10} {p : Nat} {op : Op} {rest : List Op} {d l : List Byte} (h : AtEngine s n 5 p op rest)
    (descriptor : (s.tile p).desc op.desc = d) (loops : (s.tile p).loopT op.loop = l) (code : leAt d 1 1 = 0x41) :
    ∃ a b, let x := combineTaken s n.toNat p op d l a b
      (collected x p op d l = true → exec (.combine n none) s =
        .next (done s (completeOp (collectionCleared p (combineSummed p op d l x)) p 5 op l (combineIns d l)))) ∧
      (collected x p op d l = false → exec (.combine n none) s = .next (done s x)) := by
  obtain ⟨a, b, met⟩ := meet_clean s p (combineReads s p op d l) h.clean
  have ran : exec (.combine n none) s =
      .next (done s (if collected (combineTaken s n.toNat p op d l a b) p op d l then
        completeOp (collectionCleared p (combineSummed p op d l (combineTaken s n.toNat p op d l a b))) p 5 op l (combineIns d l)
        else combineTaken s n.toNat p op d l a b)) := by
    simp only [exec, execCombine, frontOp_at h, descriptor, loops, code, beq_self_eq_true, if_true, met, Bool.not_true,
      Bool.false_eq_true, if_false]
    rfl
  exact ⟨a, b, fun all => ran.trans (by rw [if_pos all]), fun missing => ran.trans (by rw [if_neg (ne_true_of_eq_false missing)])⟩

section
variable {s x : State} {p : Nat} {op : Op} {rest : List Op} {d l : List Byte} (runs : s.stopped = false) (canonical : s.mem.wf = true)
  (works : Works p s x)
include runs canonical works

/-- With every column collected, the sums are written, the collection is cleared and the operation completes (R250, R251). -/
theorem combine_completes (queue : (s.tile p).queue 5 = op :: rest) :
    let z := combineSummed p op d l x
    let t := done s (completeOp (collectionCleared p z) p 5 op l (combineIns d l))
    Completed x t p 5 op rest l (combineIns d l) (combineWrites x p op.swaps d l) ∧ Computed z t p ∧ (t.tile p).collect = ⟨[], false⟩ ∧
      Only engineKinds s t := by
  intro z t
  have summed : Acts p (combineWrites x p op.swaps d l) x (collectionCleared p z) :=
    acts_trans (combineRows_acts x p op d l) (acts_modTile _ _ _ (keeps_collect _ _))
  have stands : x.stopped = false := (stopped_of_only works.only).trans runs
  obtain ⟨a, b, (same : t = _)⟩ := done_from (completeOp (collectionCleared p z) p 5 op l (combineIns d l)) runs stands works.only.1 works.only.2.1
  obtain ⟨completed, computed⟩ := op_completes (ins := combineIns d l) (l := l) stands (works.wf canonical)
    ((queue_of works.queues 5).trans queue) summed
  have cleared : Computed z (done x (completeOp (collectionCleared p z) p 5 op l (combineIns d l))) p := by
    obtain ⟨mem, acc, vb, hist, sent⟩ := computed
    rw [collectionCleared, tile_modTile_self] at acc vb hist sent
    exact ⟨mem, acc, vb, hist, sent⟩
  refine ⟨?_, ?_, ?_, ?_⟩
  · exact same ▸ completed_seen completed a b
  · exact same ▸ computed_seen cleared a b
  · rw [done_tile runs, completeOp_collect, collectionCleared, tile_modTile_self]
  · exact only_done runs canonical (only_trans works.only (only_trans summed.only (completeOp_ended _ p 5 op l _).only))

/-- With columns missing, the operation stays as it is with what it has taken (R250). -/
theorem combine_waits : ((done s x).tile p = x.tile p ∧ (done s x).mem = x.mem ∧ (∀ q, q ≠ p → (done s x).tile q = s.tile q)) ∧
    Only engineKinds s (done s x) := by
  refine ⟨⟨done_tile runs p, ?_, fun q hq => ?_⟩, only_done runs canonical works.only⟩
  · rw [done_mem _ _ runs, canon_eq _ (works.wf canonical)]
  · rw [done_tile runs, works.others q hq]

end

end Sys2Proof.SamplerProofs
end

section
/-! SUPPORT. DRAW and VERIFY: the result records, and the end of the operation on every participating tile (R127-R133). -/

namespace Sys2Proof.SamplerProofs

open Sys2Proof.Machine Sys2Proof.Safety Sys2Proof.Laws Sys2Proof.TileProofs

/-! ## Work that takes free values -/

/-- s with another count of free values (log 7). -/
def atFree (s : State) (k : Nat) : State := { s with free := k }

/-- t follows s by work of tile p that writes inside W only and takes free values. -/
def Draws (p : Nat) (W : Nat → Prop) (s t : State) : Prop := ∃ k, Acts p W (atFree s k) t

theorem acts_atFree {p : Nat} {W : Nat → Prop} {s t : State} (h : Acts p W s t) (k : Nat) : Acts p W (atFree s k) (atFree t k) := by
  obtain ⟨⟨pending, part, kinds⟩, wf, self, others, bytes⟩ := h
  refine ⟨⟨pending, part, fun i hi => ?_⟩, wf, self, others, bytes⟩
  have same := kinds i hi
  cases i
  case free => rfl
  all_goals exact same

theorem draws_of_acts {p : Nat} {W : Nat → Prop} {s t : State} (h : Acts p W s t) : Draws p W s t := ⟨s.free, h⟩

theorem draws_trans {p : Nat} {W : Nat → Prop} {a b c : State} (h : Draws p W a b) (g : Draws p W b c) : Draws p W a c := by
  obtain ⟨j, h⟩ := h
  obtain ⟨k, g⟩ := g
  exact ⟨k, acts_trans (acts_atFree h k) g⟩

theorem draws_weaken {p : Nat} {W V : Nat → Prop} {a b : State} (hv : ∀ x, W x → V x) (h : Draws p W a b) : Draws p V a b := by
  obtain ⟨k, h⟩ := h
  exact ⟨k, acts_weaken hv h⟩

section
variable {p : Nat} {W : Nat → Prop} {s t : State} (h : Draws p W s t)
include h

theorem draws_self : Keeps (s.tile p) (t.tile p) := by obtain ⟨_, h⟩ := h; exact h.self
theorem draws_others {q : Nat} (hq : q ≠ p) : t.tile q = s.tile q := by obtain ⟨_, h⟩ := h; exact h.others q hq
theorem draws_wf (hw : s.mem.wf = true) : t.mem.wf = true := by obtain ⟨_, h⟩ := h; exact h.wf hw
theorem draws_bytes (hw : s.mem.wf = true) {x : Nat} (hx : ¬ W x) : t.mem.byte x = s.mem.byte x := by
  obtain ⟨_, h⟩ := h; exact h.bytes hw x hx

end

/-- The kinds of state that a sampler operation touches. -/
abbrev samplerKinds : List Kind := engineKinds ++ [.free]

theorem only_sampler {s t : State} (h : Only engineKinds s t) : Only samplerKinds s t :=
  ⟨h.1, h.2.1, fun k hk => h.2.2 k (fun hm => hk (List.mem_append_left [.free] hm))⟩

theorem draws_only {p : Nat} {W : Nat → Prop} {s t : State} (h : Draws p W s t) : Only samplerKinds s t := by
  obtain ⟨k, h⟩ := h
  refine only_trans (b := atFree s k) ⟨rfl, rfl, fun i hi => ?_⟩ (only_sampler h.only)
  cases i <;> simp [engineKinds, Kind.same, atFree] at hi ⊢

/-! ## Result records -/

/-- The bytes of a record that its result fixes come first (Table 5.9). -/
theorem resultBytes_eq (s : State) (r : SResult) : ∃ more, (r.bytes s).1 = padTo 32 (resultHead r ++ more) := by
  simp only [SResult.bytes, resultHead, List.append_assoc]
  exact ⟨_, rfl⟩

theorem resultBytes_length (s : State) (r : SResult) : (r.bytes s).1.length = 32 := by
  obtain ⟨more, e⟩ := resultBytes_eq s r
  rw [e, padTo_length]

theorem resultBytes_head (s : State) (r : SResult) {i : Nat} (hi : i < 8) : (r.bytes s).1.getD i 0 = (resultHead r).getD i 0 := by
  obtain ⟨more, e⟩ := resultBytes_eq s r
  have long : i < (resultHead r).length := by simpa [resultHead, leBytes_length] using hi
  have short : i < 32 := by omega
  simp [e, padTo, List.getD_eq_getElem?_getD, long, short, Nat.lt_add_right]

/-- Fields that the spec leaves open take free values (log 26). -/
theorem resultBytes_free (s : State) (r : SResult) : ∃ k, (r.bytes s).2 = atFree s k := by
  simp only [SResult.bytes]
  exact ite_prop (P := fun t => ∃ k, t = atFree s k) (fun _ => ⟨s.free, rfl⟩) (fun _ => ⟨_, rfl⟩)

theorem sendResult_acts (p : Nat) (W : Nat → Prop) (s : State) (u dest tag : Nat) (steer bad : Bool) (pay : List Byte) :
    Acts p W s (sendResult s p u dest tag steer bad pay) := by
  unfold sendResult
  exact acts_emit p W s u _

/-- Where the root's records of sequences qs lie. -/
def recordPlaces (s : State) (root : Part4) (qs : List Nat) : Nat → Prop :=
  Reached s root.p root.op.swaps (loopStream root.l 2) (qs.map (resultAddr root)) 32

/-- Place of byte i of the record of sequence q. -/
def recordPlace (s : State) (root : Part4) (q i : Nat) : Nat :=
  streamPlace s root.p root.op.swaps (loopStream root.l 2) (resultAddr root q + Int.ofNat i)

section
variable {s x : State} {root : Part4} (q : Nat) (r : SResult) (hk : Keeps (s.tile root.p) (x.tile root.p))
include hk

/-- A record written is work of the root's tile inside the record's 32 bytes; a sent one leaves memory alone. -/
theorem putResult_draws : Draws root.p (recordPlaces s root [q]) x (putResult x root q r) := by
  obtain ⟨k, drawn⟩ := resultBytes_free x r
  refine ⟨k, ?_⟩
  unfold putResult
  dsimp only
  rw [drawn]
  have written : Acts root.p (recordPlaces s root [q]) (atFree x k)
      (writeStream (atFree x k) root.p root.op.swaps (loopStream root.l 2) (resultAddr root q) (r.bytes x).1 false) :=
    acts_reached (st := loopStream root.l 2) (n := 32) hk (fun _ _ => rfl) (List.mem_singleton.mpr rfl)
      (Nat.le_of_eq (resultBytes_length x r)) (fun _ reached => reached)
  exact ite_prop (P := Acts root.p _ (atFree x k)) (fun _ => acts_trans written (sendResult_acts root.p _ _ _ _ _ _ _ _))
    (fun _ => written)

/-- The record stands where it was written. -/
theorem putResult_head (hw : x.mem.wf = true) {i : Nat} (hi : i < 8) :
    (putResult x root q r).mem.byte (recordPlace s root q i) = (resultHead r).getD i 0 := by
  obtain ⟨k, drawn⟩ := resultBytes_free x r
  have length := resultBytes_length x r
  have written : (writeStream (atFree x k) root.p root.op.swaps (loopStream root.l 2) (resultAddr root q) (r.bytes x).1 false).mem.byte
      (recordPlace s root q i) = (resultHead r).getD i 0 := by
    rw [recordPlace, ← place_keeps (x := atFree x k) hk,
      write_byte (atFree x k) root.p root.op.swaps _ _ _ false hw (by omega) i (by omega), resultBytes_head x r hi]
  unfold putResult
  dsimp only
  rw [drawn, ← written]
  split <;> rfl

end

/-- The records of a sampler operation, written in turn. -/
def putResults (root : Part4) (es : List (Nat × SResult)) (s : State) : State := es.foldl (fun x e => putResult x root e.1 e.2) s

theorem recordPlaces_mono {s : State} {root : Part4} {qs rs : List Nat} (h : ∀ q ∈ qs, q ∈ rs) {x : Nat} (hx : recordPlaces s root qs x) :
    recordPlaces s root rs x := by
  obtain ⟨a, ha, i, hi, e⟩ := hx
  obtain ⟨q, hq, rfl⟩ := List.mem_map.mp ha
  exact ⟨_, List.mem_map.mpr ⟨q, h q hq, rfl⟩, i, hi, e⟩

/-- Records written in turn stay inside the places of all of them. -/
theorem putResults_draws {s : State} {root : Part4} (es : List (Nat × SResult)) (x : State) (hk : Keeps (s.tile root.p) (x.tile root.p)) :
    Draws root.p (recordPlaces s root (es.map (·.1))) x (putResults root es x) := by
  induction es generalizing x with
  | nil => exact draws_of_acts (acts_refl root.p _ x)
  | cons e es ih =>
    have first := putResult_draws e.1 e.2 hk
    have rest := ih (putResult x root e.1 e.2) (keeps_trans hk (draws_self first))
    exact draws_trans (draws_weaken (fun _ => recordPlaces_mono (fun q hq => by simp_all)) first)
      (draws_weaken (fun _ => recordPlaces_mono (fun q hq => by simp_all)) rest)

/-- No two of the records of sequences qs overlap. -/
def RecordsApart (s : State) (root : Part4) (qs : List Nat) : Prop :=
  qs.Pairwise (fun q r => ∀ i j, i < 32 → j < 32 → recordPlace s root q i ≠ recordPlace s root r j)

/-- Records that do not overlap all stand after the last is written: a later one spares the earlier. -/
theorem putResults_head {s : State} {root : Part4} (es : List (Nat × SResult)) (x : State) (hk : Keeps (s.tile root.p) (x.tile root.p))
    (hw : x.mem.wf = true) (apart : RecordsApart s root (es.map (·.1))) {e : Nat × SResult} (he : e ∈ es) {i : Nat} (hi : i < 8) :
    (putResults root es x).mem.byte (recordPlace s root e.1 i) = (resultHead e.2).getD i 0 := by
  induction es generalizing x with
  | nil => exact absurd he List.not_mem_nil
  | cons f es ih =>
    obtain ⟨first_apart, rest_apart⟩ := List.pairwise_cons.mp apart
    have first := putResult_draws f.1 f.2 hk
    have hk' := keeps_trans hk (draws_self first)
    have hw' := draws_wf first hw
    rcases List.mem_cons.mp he with rfl | he
    · have spared : ¬ recordPlaces s root (es.map (·.1)) (recordPlace s root e.1 i) := by
        rintro ⟨a, ha, j, hj, same⟩
        obtain ⟨r, hr, rfl⟩ := List.mem_map.mp ha
        exact first_apart r hr i j (by omega) hj same
      exact (draws_bytes (putResults_draws es _ hk') hw' spared).trans (putResult_head e.1 e.2 hk hw hi)
    · exact ih _ hk' hw' rest_apart he

/-! ## Participating tiles -/

theorem part4_some {s : State} {n : Nat} {x : Part4} (h : part4 s n = some x) : x.n = n ∧ x.p = s.phys n ∧ n < s.ntiles := by
  obtain ⟨e, front, rfl⟩ := Option.map_eq_some_iff.mp h
  unfold frontOp at front
  extract_lets p t at front
  split at front
  case isFalse => cases front
  case isTrue live =>
    have present : n < s.ntiles := by simp_all
    refine ⟨rfl, ?_, present⟩
    split at front
    · split at front
      · cases front
      · exact (congrArg Prod.fst (Option.some.inj front)).symm
    · cases front

/-- The root takes part in its own operation. -/
theorem root_mem_partners {s : State} {n : Nat} {root : Part4} (h : part4 s n = some root) : root ∈ partners s root := by
  unfold partners
  refine List.mem_filter.mpr ⟨List.mem_filterMap.mpr ⟨n, List.mem_range.mpr (part4_some h).2.2, h⟩, ?_⟩
  simp

/-- Tiles that take part stand at different places. -/
theorem partners_places {s : State} {root : Part4} (places : ∀ a b, a < s.ntiles → b < s.ntiles → s.phys a = s.phys b → a = b) :
    ((partners s root).map (·.p)).Nodup := by
  unfold partners
  refine List.Nodup.sublist (List.filter_sublist.map _) ?_
  rw [List.Nodup, List.pairwise_map, List.pairwise_filterMap]
  refine List.nodup_range.imp (fun {a b} apart x hx y hy same => ?_)
  obtain ⟨-, px, ax⟩ := part4_some hx
  obtain ⟨-, py, ay⟩ := part4_some hy
  exact apart (places a b ax ay (px ▸ py ▸ same))

/-- What ends an operation of unit u on every tile of a list. -/
structure AllEnded (u : Nat) (ps : List Part4) (s t : State) : Prop where
  only : Only engineKinds s t
  mem : t.mem = s.mem
  still : ∀ y ∈ ps, Untouched (s.tile y.p) (t.tile y.p)
  queue : ∀ y ∈ ps, (t.tile y.p).queue u = ((s.tile y.p).queue u).drop 1
  others : ∀ q, (∀ y ∈ ps, q ≠ y.p) → t.tile q = s.tile q

/-- Ends on different tiles, one after the other. -/
theorem ended_fold {u : Nat} (f : State → Part4 → State) (hf : ∀ x y, Ended y.p u x (f x y)) (ps : List Part4) (s : State)
    (apart : (ps.map (·.p)).Nodup) : AllEnded u ps s (ps.foldl f s) := by
  induction ps generalizing s with
  | nil => exact ⟨only_refl _ s, rfl, by simp, by simp, fun _ _ => rfl⟩
  | cons y ps ih =>
    obtain ⟨new, apart⟩ := List.nodup_cons.mp apart
    obtain ⟨only, mem, still, queue, others⟩ := hf s y
    obtain ⟨only', mem', still', queue', others'⟩ := ih (f s y) apart
    have first : (ps.foldl f (f s y)).tile y.p = (f s y).tile y.p :=
      others' _ (fun z hz same => new (List.mem_map.mpr ⟨z, hz, same.symm⟩))
    have later {z : Part4} (hz : z ∈ ps) : (f s y).tile z.p = s.tile z.p :=
      others _ (fun same => new (List.mem_map.mpr ⟨z, hz, same⟩))
    refine ⟨only_trans only only', mem'.trans mem, fun z hz => ?_, fun z hz => ?_, fun q hq => ?_⟩
    · rcases List.mem_cons.mp hz with rfl | hz
      · exact first ▸ still
      · exact later hz ▸ still' z hz
    · rcases List.mem_cons.mp hz with rfl | hz
      · exact first ▸ queue
      · exact later hz ▸ queue' z hz
    · obtain ⟨away, rest⟩ := List.forall_mem_cons.mp hq
      exact (others' q rest).trans (others q away)

/-- The counters of a sampler operation on a tile (Table 5.11). -/
def samplerCounted (rows poisoned accepted offered : Nat) (y : Tile) : Tile :=
  (((y.bump (bankVrc 4) rows).bump (bankVrc 5) poisoned).bump (bankVrc 6) accepted).bump (bankVrc 7) offered

theorem quiet_bump (s : State) (p k n : Nat) : Quiet p s (s.modTile p (fun y => y.bump k n)) :=
  quiet_modTile s _ (keeps_bump _ k n).still rfl rfl rfl ⟨rfl, rfl, rfl, rfl⟩

theorem samplerCounted_quiet (s : State) (p rows poisoned accepted offered : Nat) :
    Quiet p s (s.modTile p (samplerCounted rows poisoned accepted offered)) := by
  have four := quiet_trans (quiet_trans (quiet_trans (quiet_bump s p (bankVrc 4) rows) (quiet_bump _ p (bankVrc 5) poisoned))
    (quiet_bump _ p (bankVrc 6) accepted)) (quiet_bump _ p (bankVrc 7) offered)
  rwa [modTile_eq_setTile s, modTile_setTile, modTile_setTile, modTile_setTile] at four

/-- The operation ends on every tile that takes part (R131, R133). -/
theorem sFinish_ends (s : State) (ps : List Part4) (root : Part4) (rows poisoned accepted offered : Nat) (apart : (ps.map (·.p)).Nodup) :
    AllEnded 4 ps s (sFinish s ps root rows poisoned accepted offered) := by
  unfold sFinish
  extract_lets s1
  have logged (q : Nat) : Quiet q s s1 ∧ s1.tile q = s.tile q :=
    ite_prop (P := fun t : State => Quiet q s t ∧ t.tile q = s.tile q)
      (fun _ => ⟨quiet_event q s _ _ _ _ _, tile_event s _ _ _ _ _ q⟩) (fun _ => ⟨quiet_refl q s, rfl⟩)
  obtain ⟨only, mem, still, queue, others⟩ := ended_fold (u := 4) _ (fun x y => ended_after
    (samplerCounted_quiet x y.p rows poisoned accepted offered) (completeOp_ended _ y.p 4 y.op y.l _)) ps s1 apart
  refine ⟨only_trans (logged 0).1.only only, mem.trans (logged 0).1.mem, fun y hy => ?_, fun y hy => ?_, fun q hq => ?_⟩
  · exact (logged y.p).2 ▸ still y hy
  · exact (logged y.p).2 ▸ queue y hy
  · exact (others q hq).trans (logged q).2

end Sys2Proof.SamplerProofs
end

section
/-! PROOFS. DRAW and VERIFY at the root of a sampler operation, and the obligation on them and COMBINE (R127-R133, R248-R253). -/

namespace Sys2Proof.SamplerProofs

open Sys2Proof.Machine Sys2Proof.Safety Sys2Proof.Laws Sys2Proof.TileProofs

/-! ## The host's lines play no part in a draw and a verification -/

theorem drawSeq_seen (s : State) (a : List Nat) (b : Assoc Nat) : drawSeq (seen s a b) = drawSeq s := rfl

theorem verifySeq_seen (s : State) (a : List Nat) (b : Assoc Nat) : verifySeq (seen s a b) = verifySeq s := rfl

theorem verifyGo_seen (s : State) (a : List Nat) (b : Assoc Nat) (ps : List Part4) (root : Part4) (rows k q row0 : Nat) :
    verifyGo (seen s a b) ps root rows k q row0 = verifyGo s ps root rows k q row0 := by
  induction k generalizing q row0 with
  | zero => rfl
  | succ k ih => simp only [verifyGo, verifySeq_seen, ih]

/-- The sequences of a verification have different numbers. -/
theorem verifyGo_sequences (s : State) (ps : List Part4) (root : Part4) (rows k q row0 : Nat) :
    (∀ e ∈ verifyGo s ps root rows k q row0, q ≤ e.1) ∧ ((verifyGo s ps root rows k q row0).map (·.1)).Nodup := by
  induction k generalizing q row0 with
  | zero => simp [verifyGo]
  | succ k ih =>
    unfold verifyGo
    split
    · simp
    · extract_lets v
      obtain ⟨later, distinct⟩ := ih (q + 1) (row0 + v.2)
      refine ⟨List.forall_mem_cons.mpr ⟨Nat.le_refl q, fun e he => Nat.le_of_succ_le (later e he)⟩, List.nodup_cons.mpr ⟨fun hq => ?_, distinct⟩⟩
      obtain ⟨e, he, same⟩ := List.mem_map.mp hq
      have := later e he
      simp only at same
      omega

/-! ## The end of a sampler operation -/

section
variable {s : State} {n : BitVec 10} {code : Nat} {root : Part4} (h : AtRoot s n code root)
include h

/-- At its root, with its tiles assembled, an operation runs. -/
theorem atSampler_at (f : State → List Part4 → Part4 → State) :
    ∃ a b, atSampler s n.toNat code none f = f (seen s a b) (partners s root) root := by
  obtain ⟨a, b, met⟩ := meet_clean s root.p (sReads s root) h.clean
  refine ⟨a, b, ?_⟩
  simp only [atSampler, h.part, h.code, h.isRoot, h.cover, h.joins, beq_self_eq_true, Bool.and_self, if_true, met]

end

/-- The state in which a sampler operation has written these records at its root, with these lines at the host. -/
def recordsPut (s : State) (root : Part4) (es : List (Nat × SResult)) (a : List Nat) (b : Assoc Nat) : State :=
  putResults root es (seen s a b)

theorem recordsPut_draws (s : State) (root : Part4) (es : List (Nat × SResult)) (a : List Nat) (b : Assoc Nat) :
    Draws root.p (recordPlaces s root (es.map (·.1))) s (recordsPut s root es a b) :=
  draws_trans (draws_of_acts (acts_seen (acts_refl _ _ _))) (putResults_draws es _ (keeps_refl _))

/-- Writing the records leaves every tile's configuration and sampler queue. -/
theorem recordsPut_tile (s : State) (root : Part4) (es : List (Nat × SResult)) (a : List Nat) (b : Assoc Nat) (q : Nat) :
    Untouched (s.tile q) ((recordsPut s root es a b).tile q) ∧ ((recordsPut s root es a b).tile q).queue 4 = (s.tile q).queue 4 := by
  have written := recordsPut_draws s root es a b
  by_cases here : q = root.p
  · rw [here]
    exact ⟨(draws_self written).still, queue_of (draws_self written).queues 4⟩
  · rw [draws_others written here]
    exact ⟨untouched_refl _, rfl⟩

section
variable {s t : State} {n : BitVec 10} {code : Nat} {root : Part4} {es : List (Nat × SResult)} {a : List Nat} {b : Assoc Nat}
  (h : AtRoot s n code root) (ends : AllEnded 4 (partners s root) (recordsPut s root es a b) t)
include h ends

/-- The end of the operation leaves memory as the records left it. -/
theorem sampler_byte (x : Nat) : (done s t).mem.byte x = (recordsPut s root es a b).mem.byte x := by
  have canonical : t.mem.wf = true := by rw [ends.mem]; exact draws_wf (recordsPut_draws s root es a b) h.canonical
  rw [byte_done h.runs canonical, ends.mem]

/-- Records of which no two overlap stand at the root's stream 2; only the operation's own records need lie apart (Table 5.9). -/
theorem sampler_records (apart : RecordsApart s root (es.map (·.1))) {e : Nat × SResult} (he : e ∈ es) {i : Nat} (hi : i < 8) :
    (done s t).mem.byte (recordPlace s root e.1 i) = (resultHead e.2).getD i 0 :=
  (sampler_byte h ends _).trans (putResults_head es (seen s a b) (keeps_refl _) h.canonical apart he hi)

/-- An operation that has written its records at the root, and has ended on every participating tile, is sampled. -/
theorem sampled_of_ended (distinct : (es.map (·.1)).Nodup) : Sampled s (done s t) root es := by
  have written := recordsPut_draws s root es a b
  have kept := recordsPut_tile s root es a b
  refine ⟨fun y hy => ?_, fun y hy => ?_, fun q hq => ?_, fun apart e he i hi => ?_, fun x hx => ?_, ?_⟩
  · rw [done_tile h.runs, ends.queue y hy, (kept y.p).2]
  · rw [done_tile h.runs]
    exact untouched_trans (kept y.p).1 (ends.still y hy)
  · rw [done_tile h.runs, ends.others q hq, draws_others written (hq root (root_mem_partners h.part))]
  · exact sampler_records h ends (distinct.imp (fun ne i j hi hj => apart _ _ i j ne hi hj)) he hi
  · rw [sampler_byte h ends]
    refine draws_bytes written h.canonical (fun reached => hx ?_)
    rwa [recordPlaces, List.map_map] at reached
  · exact done_only h.runs h.canonical (by decide) (only_trans (draws_only written) (only_sampler ends.only)).2.2

end

/-- DRAW writes the records of its rows in turn, and ends (R129-R131). -/
theorem draw_samples {s : State} {n : BitVec 10} {root : Part4} (h : AtRoot s n 1 root) :
    ∃ t, exec (.draw n none) s = .next t ∧
      Sampled s t root ((List.range (sRows root.d)).map (fun q => (q, drawSeq s (partners s root) root q))) := by
  simp only [exec, execDraw]
  obtain ⟨a, b, ran⟩ := atSampler_at h _
  rw [ran]
  refine ⟨_, rfl, ?_⟩
  rw [drawSeq_seen]
  generalize drawSeq s (partners s root) root = r
  have in_turn : (((List.range (sRows root.d)).map r).zip (List.range (sRows root.d))).foldl (fun x e => putResult x root e.2 e.1) (seen s a b) =
      recordsPut s root ((List.range (sRows root.d)).map (fun q => (q, r q))) a b := by
    rw [recordsPut, ← List.map_prod_right_eq_zip, putResults, List.foldl_map, List.foldl_map]
  rw [in_turn]
  exact sampled_of_ended h (sFinish_ends _ _ root _ _ _ _ (partners_places h.places)) (by simpa [Function.comp_def] using List.nodup_range)

/-- VERIFY writes the records of its sequences in turn, and ends (R132, R133). -/
theorem verify_samples {s : State} {n : BitVec 10} {root : Part4} (h : AtRoot s n 2 root) :
    ∃ t, exec (.verify n none) s = .next t ∧
      Sampled s t root ((verifyGo s (partners s root) root (sRows root.d) (sRows root.d) 0 0).map (fun e => (e.1, e.2.1))) := by
  simp only [exec, execVerify]
  obtain ⟨a, b, ran⟩ := atSampler_at h _
  rw [ran]
  refine ⟨_, rfl, ?_⟩
  rw [verifyGo_seen]
  have distinct := (verifyGo_sequences s (partners s root) root (sRows root.d) (sRows root.d) 0 0).2
  generalize verifyGo s (partners s root) root (sRows root.d) (sRows root.d) 0 0 = vs at distinct
  have in_turn : vs.foldl (fun x e => putResult x root e.1 e.2.1) (seen s a b) =
      recordsPut s root (vs.map (fun e => (e.1, e.2.1))) a b := by rw [recordsPut, putResults, List.foldl_map]
  rw [in_turn]
  exact sampled_of_ended h (sFinish_ends _ _ root _ _ _ _ (partners_places h.places)) (by simpa [Function.comp_def] using distinct)

/-- Settles O50: a sampler operation writes its records at the root and then ends tile by tile; a COMBINE takes what its basin holds, and
completes from there or waits. -/
theorem samplerAndCombine : Obligations.SamplerAndCombine := by
  unfold Obligations.SamplerAndCombine
  refine ⟨fun n s root h => draw_samples h, fun n s root h => verify_samples h, fun n s p op rest h => ?_⟩
  intro d l code
  obtain ⟨a, b, completes, waits⟩ := exec_combine_at h rfl rfl code
  have works := combineTaken_works s n.toNat p op d l a b
  refine ⟨a, b, works.others, works.still, (queue_of works.queues 5).trans h.queue, fun all => ?_, fun missing => ?_⟩
  · obtain ⟨completed, computed, cleared, only⟩ := combine_completes h.runs h.canonical works h.queue
    exact ⟨_, completes all, completed, computed, cleared, only⟩
  · obtain ⟨⟨tile, mem, others⟩, only⟩ := combine_waits h.runs h.canonical works
    exact ⟨_, waits missing, tile, mem, others, only⟩

end Sys2Proof.SamplerProofs
end

section
/-! SUPPORT. Frames put together, the end of a command that keeps memory's canonical form, events without a vector, and marks. -/

namespace Sys2Proof.StoreProofs

open Sys2Proof.Machine Sys2Proof.Safety Sys2Proof.Laws Sys2Proof.TileProofs

/-! ## Frames and the end of a command -/

theorem only_mono {l l' : List Kind} {s t : State} (sub : ∀ k ∈ l, k ∈ l') (h : Only l s t) : Only l' s t :=
  ⟨h.1, h.2.1, fun k hk => h.2.2 k (fun hl => hk (sub k hl))⟩

theorem doneBoard_self {s x : State} (pending : x.pending = s.pending) (part : x.part = s.part) (canonical : x.mem.wf = true) :
    doneBoard s x = x := by
  rw [doneBoard, canon_eq _ canonical, ← pending, ← part]

/-- A command on the core clock that leaves memory as it is ends with the state that its meaning gives. -/
theorem done_self {s x : State} (hr : s.stopped = false) (hc : s.mem.wf = true) (mem : x.mem = s.mem) (pending : x.pending = s.pending)
    (part : x.part = s.part) : done s x = x := by
  rw [done_still hr hc mem, ← pending, ← part]

theorem done_idle {s : State} (hr : s.stopped = false) (hc : s.mem.wf = true) : done s s = s := done_self hr hc rfl rfl rfl

/-- An event that sends no vector is noted in the log and nowhere else (R393). -/
theorem event_log {code : Nat} (h : eventVector code = none) (s : State) (kind index : Nat) (ctx : Option Nat) (d : List Byte) :
    ∃ g, s.event code kind index ctx d = { s with log := g } := by
  unfold State.event
  rw [h]
  dsimp only
  split
  · exact ⟨_, rfl⟩
  · exact ⟨_, rfl⟩

/-- With room in the queue, such an event is its last entry (R391). -/
theorem event_queued {code : Nat} (h : eventVector code = none) {s : State} (room : s.log.queue.length < 64) (kind index : Nat)
    (ctx : Option Nat) (d : List Byte) : (s.event code kind index ctx d).log.queue =
      s.log.queue ++ [⟨entryBytes s.tideCount.toNat s.tidePhase ctx code kind index d, false⟩] := by
  simp [State.event, h, room]

/-! ## Marks of memory -/

theorem marked_mark_self (m : Memory) (g : Nat) (v : Bool) : (m.mark g v).marked g = v := by
  cases v <;> simp [Memory.mark, Memory.marked, delNat, insNat_mem]

theorem marked_putBytes (bs : List Byte) (m : Memory) (a g : Nat) : (m.putBytes a bs).marked g = m.marked g := by
  induction bs generalizing m a with
  | nil => rfl
  | cons b bs ih => rw [Memory.putBytes, ih]; rfl

theorem granules_line {a n : Nat} (aligned : a % 64 = 0) (pos : 0 < n) (short : n ≤ 64) : granules a n = [a / 64] := by
  have one : (a + n - 1) / 64 - a / 64 + 1 = 1 := by omega
  simp [granules, one, Nat.pos_iff_ne_zero.mp pos]

theorem wholeGranules_line {a : Nat} (aligned : a % 64 = 0) : wholeGranules a 64 = [a / 64] := by
  have first : a / 64 * 64 = a := by omega
  simp [wholeGranules, granules_line aligned, first]

/-- A whole word written takes its mark from the write (R153). -/
theorem marked_write_line (m : Memory) {a : Nat} {bs : List Byte} (aligned : a % 64 = 0) (length : bs.length = 64) (bad : Bool) :
    (m.write a bs bad).marked (a / 64) = bad := by
  unfold Memory.write
  dsimp only
  rw [length, granules_line aligned (by decide) (by decide), wholeGranules_line aligned]
  cases bad <;> exact marked_mark_self _ _ _

theorem read_putBytes_self (m : Memory) (a : Nat) (bs : List Byte) (h : m.wf = true) : (m.putBytes a bs).read a bs.length = bs := by
  refine List.ext_getElem (by simp [Memory.read]) (fun i _ hi => ?_)
  simp only [Memory.read, List.getElem_map, List.getElem_range]
  exact byte_putBytes_in bs m a i h hi

theorem read_take (m : Memory) (a : Nat) {k n : Nat} (h : k ≤ n) : m.read a k = (m.read a n).take k := by
  rw [Memory.read, Memory.read, ← List.map_take, List.take_range, Nat.min_eq_left h]

theorem setWord_shape (s : State) (g : Nat) (w : BitVec 512) :
    ∃ m, setWord s g w = { s with mem := m } ∧ (s.mem.wf = true → m.wf = true) := by
  unfold setWord
  split
  · exact ⟨s.mem, rfl, id⟩
  · exact ⟨_, rfl, putBytes_wf _ _ _⟩

end Sys2Proof.StoreProofs
end


section
/-! PROOFS. The part at reset (R154, R208, R420). -/

namespace Sys2Proof.StoreProofs

open Sys2Proof.Machine Sys2Proof.Safety

/-- Nothing is listed in a table at reset, so each look-up gives the default of its table. -/
theorem tile_reset (p : Nat) : State.reset.tile p = Tile.reset := rfl

theorem ring_reset (r : Nat) : State.reset.ring r = RingSt.reset := rfl

theorem gaugeOf_reset (ctx vid : Nat) : State.reset.gaugeOf ctx vid = none := by
  simp [State.gaugeOf, State.reset, Gauges.reset, agetD, bitOf]

/-- Settles O55: no table of `State.reset` lists anything, and the registers without a home stand at their Reset column. -/
theorem resetState : Obligations.ResetState := by
  unfold Obligations.ResetState
  refine ⟨rfl, rfl, rfl, rfl, fun _ => rfl, fun _ => rfl, fun p => ?_, fun _ => rfl, gaugeOf_reset, rfl, rfl, rfl, rfl, fun r => ?_,
    rfl, rfl, rfl, rfl, rfl, rfl⟩
  · rw [tile_reset]
    exact ⟨rfl, rfl, rfl, rfl⟩
  · rw [ring_reset]
    exact ⟨rfl, rfl, rfl, rfl, rfl⟩

end Sys2Proof.StoreProofs
end


section
/-! SUPPORT. The replay of a run after a detected error: what each of its parts changes (R225, R231, R275, R375). -/

namespace Sys2Proof.StoreProofs

open Sys2Proof.Machine Sys2Proof.Safety Sys2Proof.Laws

/-! ## The parts of a replay -/

theorem noteReplay_shape (s : State) (p : Nat) : ∃ h lg v w, noteReplay s p =
    { s with health := h, log := lg, host := { s.host with vecPending := v, vecSent := w } } := by
  have whole (h : Health) : ∃ h' lg v w, ({ s with health := h } : State) =
      { s with health := h', log := lg, host := { s.host with vecPending := v, vecSent := w } } :=
    ⟨h, s.log, s.host.vecPending, s.host.vecSent, rfl⟩
  unfold noteReplay
  dsimp only
  generalize (if s.health.replayLog.all (fun e => e.2 / 2 ^ 42 == s.cycles.toNat / 2 ^ 42) then s.health.suspectLogged else []) = listed
  split
  · exact whole _
  · split
    · split
      · exact whole _
      · exact whole _
    · split
      · exact whole _
      · obtain ⟨lg, v, w, e⟩ := event_shape _ 0x2302 9 p none (detailOf [(2, p)])
        exact ⟨_, lg, v, w, e⟩

/-- The generation that a run takes next, from its own choice or from its context's counter, which moves on (R222). -/
theorem takeGen_shape (s : State) (ctx : Nat) (explicit : Option Nat) : ∃ g cx, takeGen s ctx explicit = (g, { s with ctxs := cx }) ∧
    (∀ e, explicit = some e → g = e % 8) ∧
    (∀ c, explicit = none → aget? s.ctxs ctx = some c →
      g = (c.gencnt + 1).toNat ∧ aget? cx ctx = some { c with gencnt := c.gencnt + 1 }) := by
  unfold takeGen
  split
  · exact ⟨_, s.ctxs, rfl, fun _ h => by rw [Option.some.inj h], fun _ h => absurd h (by simp)⟩
  · split
    next c found =>
      refine ⟨_, _, rfl, fun _ h => absurd h (by simp), fun d _ h => ?_⟩
      obtain rfl := Option.some.inj (found.symm.trans h)
      exact ⟨rfl, aget?_aput_self _ _ _⟩
    next missing => exact ⟨_, s.ctxs, rfl, fun _ h => absurd h (by simp), fun d _ h => absurd (missing.symm.trans h) (by simp)⟩

/-- Tiles that differ in their sequencers only. -/
def SameButSeq (s t : State) : Prop := ∀ q, ∃ z, t.tile q = { s.tile q with seq := z }

/-- A tile as the stop of a PURGE leaves it: a loaded section's sequencer is idle and waits for nothing. -/
def purged (y : Tile) : Tile :=
  if y.sect.configured then y.modSeq (fun q => { q with st := .idle, holdOp := none, gwait := none, watchDeadline := none }) else y

theorem purged_shape (y : Tile) : ∃ z, purged y = { y with seq := z } := by
  by_cases h : y.sect.configured = true
  · exact ⟨_, if_pos h⟩
  · exact ⟨y.seq, if_neg h⟩

/-- The stop of a PURGE reaches the sequencers of tiles and nothing else (R225). -/
theorem stopTiles_shape (l : List Nat) (s : State) :
    ∃ tl, stopTiles s l = { s with tiles := tl } ∧ SameButSeq s { s with tiles := tl } := by
  induction l generalizing s with
  | nil => exact ⟨s.tiles, rfl, fun q => ⟨(s.tile q).seq, rfl⟩⟩
  | cons n l ih =>
    obtain ⟨tl, shape, tiles⟩ := ih (s.modTile (s.phys n) purged)
    refine ⟨tl, shape, fun q => ?_⟩
    obtain ⟨z, later⟩ := tiles q
    have first : ∃ z, (s.modTile (s.phys n) purged).tile q = { s.tile q with seq := z } := by
      by_cases here : q = s.phys n
      · rw [here, tile_modTile_self]
        exact purged_shape _
      · rw [tile_modTile_other _ _ _ _ here]
        exact ⟨(s.tile q).seq, rfl⟩
    obtain ⟨_, first⟩ := first
    exact ⟨z, later.trans (by rw [first])⟩

theorem retireQueue_shape (s : State) (k : Nat) (q : PumpQueue) : ∃ g ms, retireQueue s k q = { s with gauges := g, ms := ms } := by
  obtain ⟨g, e, -⟩ := dropHubWaits_shape s (fun h => h.unit == 1 && h.what == 2 && h.q == k)
  unfold retireQueue
  rw [e]
  exact ⟨g, _, rfl⟩

theorem retireBound_shape (s : State) (tiles : List Nat) : ∃ g ms, retireBound s tiles = { s with gauges := g, ms := ms } := by
  unfold retireBound
  generalize boundQueues s tiles = l
  induction l generalizing s with
  | nil => exact ⟨s.gauges, s.ms, rfl⟩
  | cons e l ih =>
    obtain ⟨g, ms, first⟩ := retireQueue_shape s e.1 e.2
    obtain ⟨g', ms', rest⟩ := ih (retireQueue s e.1 e.2)
    exact ⟨g', ms', by rw [List.foldl_cons, rest, first]⟩

/-- The run that is looked up by its number, after it has changed. -/
theorem run?_modRun {s : State} {r : Run} {k : Nat} (h : s.run? k = some r) (f : Run → Run) (named : ∀ x, (f x).id = x.id) :
    (s.modRun r.id f).run? r.id = some (f r) := by
  have number : r.id = k := beq_iff_eq.mp (List.find?_some (p := fun x : Run => x.id == k) h)
  have same (x : Run) : ((if x.id == r.id then f x else x).id == r.id) = (x.id == r.id) := by
    split
    · rw [named]
    · rfl
  unfold State.run? State.modRun
  rw [List.find?_map]
  simp only [Function.comp_def, same]
  rw [show s.runs.find? (fun x => x.id == r.id) = some r from number ▸ h]
  simp

/-! ## The replay -/

/-- The run after a replay: it goes back to the wait before its switch (R231). -/
def replayed (s : State) (r : Run) (g : Nat) (x : Run) : Run :=
  { x with replays := x.replays + 1, gen := g, phase := .waitCensus, timeoutAt := none, outgoing := (s.region r).map (fun n => (n, r.gen)) }

/-- What a replay leaves: memory, queues of operations, polders, rings and images stand, and the run waits with its next generation. -/
structure ReplayLeaves (s t : State) (r : Run) : Prop where
  still : t.mem = s.mem ∧ t.polders = s.polders ∧ t.rings = s.rings ∧ t.images = s.images
  same : t.pending = s.pending ∧ t.part = s.part
  tiles : SameButSeq s t
  run : Replays s t r

theorem replayRun_replays {s : State} {r : Run} {k : Nat} (p : Nat) (h : s.run? k = some r) (uncommitted : r.committed = false)
    (few : r.replays < 2) : ReplayLeaves s (replayRun s r p) r := by
  have again : ¬ ((r.committed || decide (r.replays ≥ 2)) = true) := by simp [uncommitted, few]
  obtain ⟨l1, v1, w1, logged⟩ := event_shape s 0x3180 14 1 (some r.ctx) []
  obtain ⟨h2, l2, v2, w2, noted⟩ := noteReplay_shape (s.event 0x3180 14 1 (some r.ctx) []) p
  obtain ⟨g, cx, taken, explicit, counted⟩ := takeGen_shape (noteReplay (s.event 0x3180 14 1 (some r.ctx) []) p) r.ctx r.explicitGen
  generalize hx : noteReplay (s.event 0x3180 14 1 (some r.ctx) []) p = x at taken counted
  obtain ⟨tl, halted, tiles⟩ := stopTiles_shape (s.region r) { x with ctxs := cx }
  obtain ⟨gs, ms, retired⟩ := retireBound_shape { x with ctxs := cx, tiles := tl } (s.region r)
  have result : replayRun s r p =
      (((({ x with ctxs := cx, tiles := tl, gauges := gs, ms := ms } : State).modRun r.id (replayed s r g)).bumpLdr 4 1).bumpLdr 0
        1).bumpLdr 1 1 := by
    unfold replayRun
    rw [if_neg again, hx]
    dsimp only
    rw [taken]
    dsimp only
    rw [halted, retired]
    rfl
  have before : x = { s with health := h2, log := l2, host := { s.host with vecPending := v2, vecSent := w2 } } := by
    rw [← hx, noted, logged]
  subst before
  rw [result]
  refine ⟨⟨rfl, rfl, rfl, rfl⟩, ⟨rfl, rfl⟩, tiles, g, run?_modRun (s := s) h (replayed s r g) (fun _ => rfl),
    explicit, counted⟩

end Sys2Proof.StoreProofs
end

section
/-! PROOFS. Errors that an engine meets (R155, R231, R232). -/

namespace Sys2Proof.StoreProofs

open Sys2Proof.Machine Sys2Proof.Safety Sys2Proof.Laws Sys2Proof.TileProofs

/-! ## The error stops the operation -/

/-- A parity error of codes 1-5 is met before the effect, where no word on the local list is read (R155, R369). -/
theorem meet_parity {s : State} {p : Nat} (c : BitVec 3) (ranges : List (Nat × Nat))
    (clean : ∀ w ∈ (s.tile p).localList, inInput (s.tile p) w = true) (lo : 1 ≤ c.toNat) (hi : c.toNat ≤ 5) :
    ∃ a b, meet s p (some (.parity c)) ranges = (parityUpset (seen s a b) p c.toNat, false) := by
  obtain ⟨a, b, snooped⟩ :=
    backInv_shape s ((s.host.hostLines.map (·.1)).filter (fun g => g / 2 ^ 18 == p && touches ranges (g % 2 ^ 18)))
  have listed : localRead (seen s a b) p ranges = none := localRead_clean (seen s a b) p ranges clean
  have code : c ≠ 6#3 := by
    rintro rfl
    exact absurd hi (by decide)
  refine ⟨a, b, ?_⟩
  unfold meet
  simp only [snooped]
  rw [show ({ s with host := { s.host with snooped := a, hostLines := b } } : State) = seen s a b from rfl, listed]
  simp [code, lo, hi]

/-- An operation at the front of its queue that meets such an error has no effect of its own. -/
theorem runOp_parity {s : State} {n : BitVec 10} {u p : Nat} {op : Op} {rest : List Op} (h : AtEngine s n u p op rest) {c : BitVec 3}
    (lo : 1 ≤ c.toNat) (hi : c.toNat ≤ 5) (ends : State → Nat → Nat → Op → List Byte → List (Nat × Nat) → State)
    (ok : List Byte → Bool) (reads : State → Nat → Op → List Byte → List Byte → List (Nat × Nat))
    (ins : List Byte → List Byte → List (Nat × Nat)) (body : State → Nat → Op → List Byte → List Byte → State)
    (hok : ok ((s.tile p).desc op.desc) = true) :
    ∃ a b, runOpWith ends s n.toNat u ok (some (.parity c)) reads ins body = parityUpset (seen s a b) p c.toNat := by
  obtain ⟨a, b, met⟩ := meet_parity c (reads s p op ((s.tile p).desc op.desc) ((s.tile p).loopT op.loop)) h.clean lo hi
  refine ⟨a, b, ?_⟩
  unfold runOpWith
  rw [frontOp_at h]
  simp only
  rw [if_pos hok, met]
  rfl

/-- The same for each of the engines' commands. -/
theorem exec_issued_parity {n : BitVec 10} {c : BitVec 3} {e : Instr × Nat × (Nat → Bool)} {s : State} {p : Nat} {op : Op}
    {rest : List Op} (he : e ∈ issuedOps n (some (.parity c))) (h : AtEngine s n e.2.1 p op rest)
    (hok : e.2.2 (leAt ((s.tile p).desc op.desc) 1 1) = true) (lo : 1 ≤ c.toNat) (hi : c.toNat ≤ 5) : ∃ a b, exec e.1 s = .next (done s (parityUpset (seen s a b) p c.toNat)) := by
  have ends {x : State} (run : ∃ a b, x = parityUpset (seen s a b) p c.toNat) :
      ∃ a b, (.next (done s x) : Host.Outcome State Fault Refusal) = .next (done s (parityUpset (seen s a b) p c.toNat)) := by
    obtain ⟨a, b, e⟩ := run
    exact ⟨a, b, by rw [e]⟩
  simp only [issuedOps, List.mem_cons, List.not_mem_nil, or_false] at he
  rcases he with rfl | rfl | rfl | rfl | rfl | rfl
  case inl => exact ends (runOp_parity h lo hi completeOp _ mmaReads mmaIns mmaBody hok)
  case inr.inl => exact ends (runOp_parity h lo hi completeOp _ attnReads attnIns attnBody hok)
  case inr.inr.inl => exact ends (runOp_parity h lo hi completeOp _ vReads vIns vBody hok)
  case inr.inr.inr.inl => exact ends (runOp_parity h lo hi completeSent _ rReads rIns rBody hok)
  case inr.inr.inr.inr.inl => exact ends (runOp_parity h lo hi completeSent _ dispatchReads dispatchIns dispatchBody hok)
  case inr.inr.inr.inr.inr => exact ends (runOp_parity h lo hi completeOp _ xReads xIns xBody hok)

/-! ## The error is recorded, and its run is replayed or faults -/

/-- The state with a parity error of this code counted at tile p (R155). -/
def parityCounted (s : State) (p code : Nat) : State :=
  s.modTile p (fun t => t.modRegs (fun r =>
    { r with parCount := BitVec.ofNat 16 (satAdd 16 r.parCount.toNat 1), parLast := BitVec.ofNat 3 code }))

/-- The same state with its event. -/
def parityNoted (s : State) (p code : Nat) : State :=
  (parityCounted s p code).event 0x3112 9 p (s.tileCtx p) (detailOf [(1, code)])

theorem parityNoted_shape (s : State) (p code : Nat) : ∃ lg v w, parityNoted s p code =
    { parityCounted s p code with log := lg, host := { s.host with vecPending := v, vecSent := w } } :=
  event_shape (parityCounted s p code) _ _ _ _ _

theorem parityNoted_tile (s : State) (p code : Nat) : (parityNoted s p code).tile p = (s.tile p).modRegs (fun r =>
    { r with parCount := BitVec.ofNat 16 (satAdd 16 r.parCount.toNat 1), parLast := BitVec.ofNat 3 code }) := by
  unfold parityNoted parityCounted
  rw [tile_event, tile_modTile_self]

theorem parityNoted_runs (s : State) (p code : Nat) : (parityNoted s p code).runs = s.runs := by
  obtain ⟨lg, v, w, e⟩ := parityNoted_shape s p code
  rw [e]
  rfl

/-- The run on a tile is the one that its section names. -/
theorem run?_of_tileRun {s : State} {p : Nat} {r : Run} (h : s.tileRun p = some r) : s.run? (s.tile p).sect.run = some r := by
  unfold State.tileRun at h
  split at h
  · exact h
  · cases h

theorem tileRun_of {s t : State} {p : Nat} (sect : (t.tile p).sect = (s.tile p).sect) (runs : t.runs = s.runs) :
    t.tileRun p = s.tileRun p := by
  unfold State.tileRun State.run?
  rw [sect, runs]

theorem detect_running {s : State} {p : Nat} {r : Run} (h : s.tileRun p = some r) (running : r.phase = .running) :
    detect s p = replayRun s r p := by
  simp [detect, h, running]

/-- A parity error in a running run (R231). -/
theorem parityUpset_running {s : State} {p code : Nat} {r : Run} (h : s.tileRun p = some r) (running : r.phase = .running) :
    parityUpset s p code = replayRun (parityNoted s p code) r p :=
  detect_running (s := parityNoted s p code) ((tileRun_of (by rw [parityNoted_tile]; rfl) (parityNoted_runs s p code)).trans h) running

/-- A committed run, and one that was replayed twice, faults (R232). -/
theorem replayRun_faults {s : State} {r : Run} (p : Nat) (spent : r.committed = true ∨ 2 ≤ r.replays) :
    replayRun s r p = s.jobFault 0x4121 14 1 (some r.ctx) (some r.id) stJobFault [] :=
  if_pos (by simpa using spent)

/-- The end of a command looks at none of the host's lines. -/
theorem done_seen {s : State} (hr : s.stopped = false) (a : List Nat) (b : Assoc Nat) (y : State) : done (seen s a b) y = done s y := by
  have stands : (seen s a b).stopped = false := hr
  simp only [done, hr, stands, Bool.false_eq_true, if_false]
  rfl

/-- What the host's lines are plays no part in what a job fault leaves. -/
theorem faulted_seen {s t : State} {code : Nat} {ctx : Option Nat} {a : List Nat} {b : Assoc Nat} (h : Faulted (seen s a b) t code ctx) :
    Faulted s t code ctx := by
  have lines : Only engineKinds s (seen s a b) := (acts_seen (p := 0) (W := fun _ => False) (acts_refl _ _ _)).only
  obtain ⟨last, instant, ⟨ended, halted, stores, beyond, fabric, gauges, memory, pages, schedule⟩, rest⟩ := h
  exact ⟨last, instant, ⟨ended, halted, stores, beyond, fabric, gauges, memory, pages, schedule⟩,
    only_trans (only_mono (by decide) lines) rest⟩

/-- The fault of a run leaves what every job fault leaves, beside the count of the error. -/
theorem parity_faults {s : State} {p code : Nat} {r : Run} (a : List Nat) (b : Assoc Nat) (hr : s.stopped = false) (hc : s.mem.wf = true)
    (h : s.tileRun p = some r) (running : r.phase = .running) (spent : r.committed = true ∨ 2 ≤ r.replays) :
    Faulted s (done s (parityUpset (seen s a b) p code)) 0x4121 (some r.ctx) := by
  obtain ⟨l1, v1, w1, noted⟩ := parityNoted_shape (seen s a b) p code
  obtain ⟨l2, v2, w2, logged⟩ := event_shape (parityNoted (seen s a b) p code) 0x4121 14 1 (some r.ctx) []
  rw [parityUpset_running (s := seen s a b) h running, replayRun_faults p spent, State.jobFault, ← done_seen hr a b]
  refine faulted_seen (jobFaultCore_leaves (s := seen s a b) hr hc 0x4121 _ _ _ (parityCounted (seen s a b) p code).tiles l2 v2 w2 ?_)
  rw [logged, noted]
  rfl

/-- Settles O60: the error is recorded and its event logged; the rest is the replay of the run, or its job fault. -/
theorem detectedErrorsReplayRuns : Obligations.DetectedErrorsReplayRuns := by
  unfold Obligations.DetectedErrorsReplayRuns
  intro n c e s p op rest r he h hok lo hi loaded running
  obtain ⟨a, b, ran⟩ := exec_issued_parity he h hok lo hi
  refine ⟨fun uncommitted few => ⟨_, ran, ?_⟩, fun spent => ⟨_, ran, parity_faults a b h.runs h.canonical loaded running spent⟩⟩
  have sect : ((parityNoted (seen s a b) p c.toNat).tile p).sect = (s.tile p).sect := by rw [parityNoted_tile]; rfl
  have named : (parityNoted (seen s a b) p c.toNat).run? (s.tile p).sect.run = some r := by
    rw [State.run?, parityNoted_runs]
    exact run?_of_tileRun loaded
  obtain ⟨⟨mem, polders, rings, images⟩, ⟨pending, part⟩, tiles, replays⟩ := replayRun_replays p named uncommitted few
  rw [parityUpset_running (s := seen s a b) loaded running]
  obtain ⟨z, tile⟩ := tiles p
  rw [parityNoted_tile] at tile
  obtain ⟨lg, v, w, noted⟩ := parityNoted_shape (seen s a b) p c.toNat
  rw [noted] at mem polders rings images pending part replays
  rw [done_self h.runs h.canonical (by rw [noted]; exact mem) (by rw [noted]; exact pending) (by rw [noted]; exact part)]
  rw [noted] at tile ⊢
  refine ⟨mem, by rw [tile]; exact h.queue, by rw [tile]; exact by simp [Tile.modRegs], ?_, replays,
    fun k => congrArg (aget? · k) polders, rings, images⟩
  rw [tile, show (seen s a b).tile p = s.tile p from rfl]
  simp [Tile.modRegs, satAdd]

end Sys2Proof.StoreProofs
end


section
/-! SUPPORT. Scrubbers: the pass of a scrubber, and what an error leaves at a memory unit and at a tile store (R152, R265, R368). -/

namespace Sys2Proof.StoreProofs

open Sys2Proof.Machine Sys2Proof.Safety Sys2Proof.Laws Sys2Proof.TileProofs

/-! ## The pass -/

theorem scrubPass_of_health {s t : State} (h : t.health = s.health) (x : ScrubStore) : scrubPass t x = scrubPass s x := by
  unfold scrubPass
  rw [h]

theorem scrubPass_setPass (s : State) (x : ScrubStore) (pos start hours : Nat) :
    scrubPass (setPass s x pos start hours) x = (pos, start, hours * hourCycles) := by
  simp [scrubPass, setPass]

theorem setPass_sdc (s : State) (x : ScrubStore) (pos start hours : Nat) : (setPass s x pos start hours).health.sdc = s.health.sdc := rfl

/-- The state in which a scrubber has been granted word w, and its pass stands at pos. -/
def wordTaken (s : State) (x : ScrubStore) (w pos start hours : Nat) : State := setPass (noteScrubGrant s x w) x pos start hours

theorem only_setPass (s : State) (x : ScrubStore) (pos start hours : Nat) : Only [.health] s (setPass s x pos start hours) := by
  refine ⟨rfl, rfl, fun k hk => ?_⟩
  cases k <;> simp [Kind.same, setPass] at hk ⊢

theorem only_noteMemGrant (s : State) (a idx c : Nat) : Only [.arbiters] s (noteMemGrant s a idx c) := by
  refine ⟨rfl, rfl, fun k hk => ?_⟩
  cases k <;> simp [Kind.same, noteMemGrant] at hk ⊢

theorem only_noteScrubGrant (s : State) (x : ScrubStore) (w : Nat) : Only [.arbiters] s (noteScrubGrant s x w) := by
  cases x with
  | tile _ => exact only_refl _ s
  | hbm _ => exact only_noteMemGrant s _ _ _
  | lp5x _ => exact only_noteMemGrant s _ _ _

theorem only_wordTaken (s : State) (x : ScrubStore) (w pos start hours : Nat) :
    Only [.health, .arbiters] s (wordTaken s x w pos start hours) :=
  only_trans (only_mono (by decide) (only_noteScrubGrant s x w)) (only_mono (by decide) (only_setPass _ x pos start hours))

theorem noteScrubGrant_health (s : State) (x : ScrubStore) (w : Nat) : (noteScrubGrant s x w).health = s.health :=
  (only_noteScrubGrant s x w).2.2 .health (by decide)

theorem only_countScrub (s : State) (x : ScrubStore) : Only [.tiles] s (countScrub s x) := by
  cases x with
  | tile p => exact only_setTile s p.toNat _
  | hbm _ => exact only_refl _ s
  | lp5x _ => exact only_refl _ s

/-- A word read without an error is counted, and moves the pass on. -/
theorem scrub_moves_on {s t : State} (hr : s.stopped = false) (hc : s.mem.wf = true) {x : ScrubStore} {w pos start hours : Nat}
    (ht : t = done s (scrubWord (wordTaken s x w pos start hours) x w none)) :
    Only [.health, .tiles, .arbiters] s t ∧ scrubPass t x = (pos, start, hours * hourCycles) ∧ t.health.sdc = s.health.sdc := by
  have taken := only_wordTaken s x w pos start hours
  have counted := only_countScrub (wordTaken s x w pos start hours) x
  have both : Only [.health, .tiles, .arbiters] s (scrubWord (wordTaken s x w pos start hours) x w none) :=
    only_trans (only_mono (by decide) taken) (only_mono (by decide) counted)
  have health : (scrubWord (wordTaken s x w pos start hours) x w none).health = (wordTaken s x w pos start hours).health :=
    counted.2.2 .health (by decide)
  rw [done_self hr hc (both.2.2 .mem (by decide)) both.1 both.2.1] at ht
  subst ht
  refine ⟨both, (scrubPass_of_health health x).trans (scrubPass_setPass _ x pos start hours), ?_⟩
  rw [health]
  exact (setPass_sdc _ x pos start hours).trans (congrArg Health.sdc (noteScrubGrant_health s x w))

/-! ## Errors at a memory unit (R265) -/

theorem munit_setMunit_self (s : State) (u : Nat) (x : MemUnit) : (s.setMunit u x).munit u = x := by
  simp [State.munit, State.setMunit]

theorem munit_set {s t : State} {u : Nat} {x : MemUnit} (h : t.ms = (s.setMunit u x).ms) : t.munit u = x :=
  (munit_of h u).trans (munit_setMunit_self s u x)

theorem unitCorr_shape (s : State) (u : Nat) : ∃ x g, unitCorr s u = { s.setMunit u x with log := g } ∧
    x.corr = sat32 (s.munit u).corr 1 ∧ x.uncorr = (s.munit u).uncorr := by
  unfold unitCorr
  extract_lets x due s1
  split
  · obtain ⟨g, e⟩ := event_log (code := 0x2170) rfl s1 12 u none []
    exact ⟨_, g, e, rfl, rfl⟩
  · exact ⟨_, s.log, rfl, rfl, rfl⟩

theorem unitUncorr_shape (s : State) (u l a : Nat) : ∃ x g, unitUncorr s u l a =
      { s.setMunit u x with mem := s.mem.mark ((unitBase u + l) / 64) true, log := g } ∧
    x.uncorr = BitVec.ofNat 16 (satAdd 16 (s.munit u).uncorr.toNat 1) ∧ x.corr = (s.munit u).corr := by
  unfold unitUncorr
  extract_lets x s1
  obtain ⟨g, e⟩ :=
    event_log (code := 0x3173) rfl { s1 with mem := s1.mem.mark ((unitBase u + l) / 64) true } 12 u none (detailOf [(8, a)])
  exact ⟨_, g, e, rfl, rfl⟩

/-- Flipped bits in one symbol are corrected and counted; the word stays as it was. -/
theorem unitRead_one {s : State} {u l a : Nat} {e : BitVec 512} {f : BitVec 16} (one : symbolsHit e f = 1) :
    Only [.memUnits, .log] s (unitRead s u l a e f) ∧
    ((unitRead s u l a e f).munit u).corr = sat32 (s.munit u).corr 1 ∧ ((unitRead s u l a e f).munit u).uncorr = (s.munit u).uncorr := by
  have corrected : unitRead s u l a e f = unitCorr s u := by simp [unitRead, one]
  obtain ⟨x, g, shape, corr, uncorr⟩ := unitCorr_shape s u
  rw [corrected, shape]
  refine ⟨⟨rfl, rfl, fun k hk => ?_⟩, (congrArg MemUnit.corr (munit_set (s := s) rfl)).trans corr,
    (congrArg MemUnit.uncorr (munit_set (s := s) rfl)).trans uncorr⟩
  cases k <;> simp [Kind.same, State.setMunit] at hk ⊢

/-- Flipped bits in two symbols are counted, and mark the word. -/
theorem unitRead_two {s : State} {u l a : Nat} {e : BitVec 512} {f : BitVec 16} (two : symbolsHit e f = 2) (hc : s.mem.wf = true) :
    Only [.memUnits, .mem, .log] s (unitRead s u l a e f) ∧ (unitRead s u l a e f).mem.wf = true ∧
    (unitRead s u l a e f).mem.marked ((unitBase u + l) / 64) = true ∧
    ((unitRead s u l a e f).munit u).uncorr = BitVec.ofNat 16 (satAdd 16 (s.munit u).uncorr.toNat 1) ∧
    ((unitRead s u l a e f).munit u).corr = (s.munit u).corr := by
  have detected : unitRead s u l a e f =
      unitUncorr (setWord s ((unitBase u + l) / 64) (wordAt s ((unitBase u + l) / 64) ^^^ e)) u l a := by simp [unitRead, two]
  obtain ⟨m, stored, canonical⟩ := setWord_shape s ((unitBase u + l) / 64) (wordAt s ((unitBase u + l) / 64) ^^^ e)
  obtain ⟨x, g, shape, uncorr, corr⟩ := unitUncorr_shape { s with mem := m } u l a
  rw [detected, stored, shape]
  have unit {t : State} := munit_set (s := { s with mem := m }) (t := t) (u := u) (x := x)
  refine ⟨⟨rfl, rfl, fun k hk => ?_⟩, mark_wf _ _ _ (canonical hc), marked_mark_self _ _ _,
    (congrArg MemUnit.uncorr (unit rfl)).trans uncorr, (congrArg MemUnit.corr (unit rfl)).trans corr⟩
  cases k <;> simp [Kind.same, State.setMunit] at hk ⊢

/-! ## Corrected words of a tile store (R152) -/

/-- A tile with a corrected word noted: counted, and waiting to be written back. -/
def wordCorrected (y : Tile) (w : Nat) : Tile :=
  { y with wbPending := y.wbPending ++ [w] }.modRegs (fun r =>
    { r with corr := sat32 r.corr 1, lastErrWord := BitVec.ofNat 18 w, lastErrUncorr := false })

theorem physOnce_setTile {code : Nat} (h : eventVector code = none) (s : State) (p : Nat) (y : Tile) (limit : Nat) (d : List Byte) :
    ∃ once g, (s.setTile p y).physOnce p code limit d = { s.setTile p { y with once := once } with log := g } := by
  unfold State.physOnce
  extract_lets n
  split
  · obtain ⟨g, e⟩ := event_log h
      ((s.setTile p y).modTile p (fun t => { t with once := aput t.once (code * 16 + 9) (n + 1) })) 9 p ((s.setTile p y).tileCtx p) d
    exact ⟨_, g, e.trans (by rw [modTile_setTile])⟩
  · exact ⟨y.once, s.log, rfl⟩

theorem corrWord_shape (s : State) (p w : Nat) : ∃ once g, corrWord s p w =
    { s.setTile p { wordCorrected (s.tile p) w with once := once } with log := g } :=
  physOnce_setTile (by decide) s p (wordCorrected (s.tile p) w) 1 []

/-- A word of which the code delivers what it held, with its mark, is corrected, and stays as it was (R150, R151). -/
theorem otherRead_corrected {s : State} {p w : Nat} {e : BitVec 512} {f : BitVec 16} {c : BitVec 3}
    (found : readFlipped (wordAt s (p * 2 ^ 18 + w)) e f = (.corrected, wordAt s (p * 2 ^ 18 + w)))
    (mark : markRead (s.mem.marked (p * 2 ^ 18 + w)) c = s.mem.marked (p * 2 ^ 18 + w)) : otherRead s p w e f c = corrWord s p w := by
  have read : tileWordRead s p w e f c = (.corrected, s) := by
    simp only [tileWordRead, found, setWord, beq_self_eq_true, if_true, setMark, mark]
  unfold otherRead
  rw [read]

end Sys2Proof.StoreProofs
end

section
/-! PROOFS. SCRUB, SCRUB_OVERRUN and CORRECTED_WRITE_BACK (R152, R264, R265, R267, R368). -/

namespace Sys2Proof.StoreProofs

open Sys2Proof.Machine Sys2Proof.Safety Sys2Proof.Laws Sys2Proof.TileProofs

section
variable {s : State} {x : ScrubStore} (words : scrubWords s x ≠ 0) (on : scrubReg s x ≠ 0)
include words on

theorem exec_scrub_waits (inside : (scrubPass s x).1 < scrubWords s x) (refused : scrubGranted s x (scrubPass s x).1 = false)
    (flips : Option Flips) : exec (.scrub x flips) s = .next (done s s) := by
  simp [exec, execScrub, words, on, inside, refused]

/-- The next word is due, and granted. -/
theorem exec_scrub_reads (inside : (scrubPass s x).1 < scrubWords s x)
    (due : (scrubPass s x).1 * (scrubPass s x).2.2 ≤ (s.clk - (scrubPass s x).2.1) * scrubWords s x)
    (granted : scrubGranted s x (scrubPass s x).1 = true) (flips : Option Flips) :
    exec (.scrub x flips) s = .next (done s (scrubWord (wordTaken s x (scrubPass s x).1 ((scrubPass s x).1 + 1) (scrubPass s x).2.1
      (agetD s.health.scrubHours (scrubNo x) 24)) x (scrubPass s x).1 flips)) := by
  simp [exec, execScrub, words, on, inside, due, granted, wordTaken]

/-- The pass is full, and its period over: the next one begins. -/
theorem exec_scrub_begins (full : scrubWords s x ≤ (scrubPass s x).1) (ended : (scrubPass s x).2.1 + (scrubPass s x).2.2 ≤ s.clk)
    (granted : scrubGranted s x 0 = true) (flips : Option Flips) :
    exec (.scrub x flips) s = .next (done s (scrubWord (wordTaken s x 0 1 ((scrubPass s x).2.1 + (scrubPass s x).2.2) (scrubReg s x))
      x 0 flips)) := by
  simp [exec, execScrub, words, on, Nat.not_lt.mpr full, ended, granted, wordTaken]

/-- A pass that its period overtakes (R368). -/
theorem exec_scrubOverrun_at (inside : (scrubPass s x).1 < scrubWords s x) (ended : (scrubPass s x).2.1 + (scrubPass s x).2.2 ≤ s.clk) :
    ∃ g, exec (.scrubOverrun x) s =
      .next (done s { setPass s x 0 ((scrubPass s x).2.1 + (scrubPass s x).2.2) (scrubReg s x) with log := g }) := by
  have late : (scrubWords s x != 0 && scrubReg s x != 0 && decide ((scrubPass s x).1 < scrubWords s x) &&
      decide ((scrubPass s x).2.1 + (scrubPass s x).2.2 ≤ s.clk)) = true := by simp [words, on, inside, ended]
  have ran : ∃ k i, exec (.scrubOverrun x) s =
      .next (done s ((setPass s x 0 ((scrubPass s x).2.1 + (scrubPass s x).2.2) (scrubReg s x)).event 0x1302 k i none [])) := by
    cases x with
    | tile p => exact ⟨9, p.toNat, congrArg (fun y => Host.Outcome.next (done s y)) (if_pos late)⟩
    | hbm u => exact ⟨12, u.toNat, congrArg (fun y => Host.Outcome.next (done s y)) (if_pos late)⟩
    | lp5x u => exact ⟨12, 8 + u.toNat, congrArg (fun y => Host.Outcome.next (done s y)) (if_pos late)⟩
  obtain ⟨k, i, ran⟩ := ran
  obtain ⟨g, e⟩ := event_log (code := 0x1302) rfl (setPass s x 0 ((scrubPass s x).2.1 + (scrubPass s x).2.2) (scrubReg s x)) k i none []
  exact ⟨g, by rw [ran, e]⟩

end

/-! ## A word read with an error -/

/-- An error in one symbol of a stack's word (R265). -/
theorem scrub_corrects_unit {s : State} (hr : s.stopped = false) (hc : s.mem.wf = true) (u : BitVec 3) (w start hours : Nat) (f : Flips)
    (one : symbolsHit f.data f.check = 1) {t : State}
    (ht : t = done s (scrubWord (wordTaken s (.hbm u) w (w + 1) start hours) (.hbm u) w (some f))) :
    Only [.health, .memUnits, .log, .vectors, .arbiters] s t ∧ (t.munit u.toNat).corr = sat32 (s.munit u.toNat).corr 1 ∧
      (t.munit u.toNat).uncorr = (s.munit u.toNat).uncorr ∧ (scrubPass t (.hbm u)).1 = w + 1 := by
  have taken := only_wordTaken s (.hbm u) w (w + 1) start hours
  obtain ⟨only, corr, uncorr⟩ := unitRead_one (s := wordTaken s (.hbm u) w (w + 1) start hours) (u := u.toNat) (l := 64 * w)
    (a := unitAddr (wordTaken s (.hbm u) w (w + 1) start hours) u.toNat (64 * w)) one
  have both : Only [.health, .memUnits, .log, .vectors, .arbiters] s
      (scrubWord (wordTaken s (.hbm u) w (w + 1) start hours) (.hbm u) w (some f)) :=
    only_trans (only_mono (by decide) taken) (only_mono (by decide) only)
  rw [done_self hr hc (both.2.2 .mem (by decide)) both.1 both.2.1] at ht
  subst ht
  exact ⟨both, corr, uncorr, congrArg Prod.fst
    ((scrubPass_of_health (only.2.2 .health (by decide)) _).trans (scrubPass_setPass _ (.hbm u) (w + 1) start hours))⟩

/-- An error in two symbols of a port's word (R265). -/
theorem scrub_marks_word {s : State} (hr : s.stopped = false) (hc : s.mem.wf = true) (u : BitVec 3) (w start hours : Nat) (f : Flips)
    (two : symbolsHit f.data f.check = 2) {t : State}
    (ht : t = done s (scrubWord (wordTaken s (.lp5x u) w (w + 1) start hours) (.lp5x u) w (some f))) :
    Only [.health, .memUnits, .mem, .log, .vectors, .snoops, .arbiters] s t ∧
      (t.munit (8 + u.toNat)).uncorr = BitVec.ofNat 16 (satAdd 16 (s.munit (8 + u.toNat)).uncorr.toNat 1) ∧
      (t.munit (8 + u.toNat)).corr = (s.munit (8 + u.toNat)).corr ∧
      t.mem.marked ((unitBase (8 + u.toNat) + 64 * w) / 64) = true ∧ (scrubPass t (.lp5x u)).1 = w + 1 := by
  have taken := only_wordTaken s (.lp5x u) w (w + 1) start hours
  obtain ⟨only, canonical, marked, uncorr, corr⟩ := unitRead_two (s := wordTaken s (.lp5x u) w (w + 1) start hours) (u := 8 + u.toNat)
    (l := 64 * w) (a := unitAddr (wordTaken s (.lp5x u) w (w + 1) start hours) (8 + u.toNat) (64 * w)) two hc
  have both : Only [.health, .memUnits, .mem, .log, .vectors, .snoops, .arbiters] s
      (scrubWord (wordTaken s (.lp5x u) w (w + 1) start hours) (.lp5x u) w (some f)) :=
    only_trans (only_mono (by decide) taken) (only_mono (by decide) only)
  subst ht
  have units := munit_of (done_ms s (scrubWord (wordTaken s (.lp5x u) w (w + 1) start hours) (.lp5x u) w (some f)) hr) (8 + u.toNat)
  refine ⟨done_only hr hc (by decide) both.2.2, ?_, ?_, ?_, ?_⟩
  · rw [units]
    exact uncorr
  · rw [units]
    exact corr
  · rw [done_mem _ _ hr]
    exact (congrArg (Memory.marked · _) (canon_eq _ canonical)).trans marked
  · rw [scrubPass_of_health (done_health _ _ hr)]
    exact congrArg Prod.fst
      ((scrubPass_of_health (only.2.2 .health (by decide)) _).trans (scrubPass_setPass _ (.lp5x u) (w + 1) start hours))

/-- A word of a tile store that is corrected (R152). -/
theorem scrub_corrects_tile {s : State} (hr : s.stopped = false) (hc : s.mem.wf = true) (p : BitVec 11) (w start hours : Nat) (f : Flips)
    (found : readFlipped (wordAt s (p.toNat * 2 ^ 18 + w)) f.data f.check = (.corrected, wordAt s (p.toNat * 2 ^ 18 + w)))
    (mark : markRead (s.mem.marked (p.toNat * 2 ^ 18 + w)) f.marks = s.mem.marked (p.toNat * 2 ^ 18 + w)) {t : State}
    (ht : t = done s (scrubWord (wordTaken s (.tile p) w (w + 1) start hours) (.tile p) w (some f))) :
    Only [.health, .tiles, .log] s t ∧ (scrubPass t (.tile p)).1 = w + 1 ∧
      (t.tile p.toNat).wbPending = (s.tile p.toNat).wbPending ++ [w] ∧
      (t.tile p.toNat).regs.corr = sat32 (s.tile p.toNat).regs.corr 1 ∧
      (t.tile p.toNat).regs.lastErrWord = BitVec.ofNat 18 w ∧ ∀ n, n ≠ p.toNat → t.tile n = s.tile n := by
  have corrected : scrubWord (wordTaken s (.tile p) w (w + 1) start hours) (.tile p) w (some f) =
      corrWord (countScrub (setPass s (.tile p) (w + 1) start hours) (.tile p)) p.toNat w := otherRead_corrected found mark
  obtain ⟨once, g, shape⟩ := corrWord_shape (countScrub (setPass s (.tile p) (w + 1) start hours) (.tile p)) p.toNat w
  have counted : countScrub (setPass s (.tile p) (w + 1) start hours) (.tile p) =
      (setPass s (.tile p) (w + 1) start hours).setTile p.toNat ((s.tile p.toNat).bump (bankTsc 6) 1) := rfl
  rw [corrected, shape, counted, tile_setTile_self, setTile_setTile] at ht
  replace ht := ht.trans (done_self hr hc rfl rfl rfl)
  have tile (n : Nat) : t.tile n = if n = p.toNat then
      { wordCorrected ((s.tile p.toNat).bump (bankTsc 6) 1) w with once := once } else s.tile n := by
    rw [ht]
    exact tile_setTile (setPass s (.tile p) (w + 1) start hours) p.toNat n _
  refine ⟨?_, ?_, ?_, ?_, ?_, fun n hn => (tile n).trans (if_neg hn)⟩
  · rw [ht]
    refine ⟨rfl, rfl, fun k hk => ?_⟩
    cases k <;> simp [Kind.same, setPass] at hk ⊢
  · rw [ht]
    exact congrArg Prod.fst (scrubPass_setPass s (.tile p) (w + 1) start hours)
  all_goals rw [tile, if_pos rfl]; rfl

/-- Settles O36: a scrubber's word moves its pass on, and an error at it is handled as at any other read. -/
theorem scrubbing : Obligations.Scrubbing := by
  unfold Obligations.Scrubbing
  refine ⟨fun x s hc hr words on => ⟨fun inside _ refused => ?_, fun inside due granted => ⟨?_, ?_, ?_, ?_⟩,
    fun full ended granted => ?_, fun inside ended => ?_⟩, fun p s w rest hc hr waiting => ?_⟩
  case refine_1 => exact ⟨_, exec_scrub_waits words on inside refused none, by rw [done_idle hr hc]; exact only_refl _ s⟩
  case refine_2 => exact ⟨_, exec_scrub_reads words on inside due granted none, scrub_moves_on hr hc rfl⟩
  case refine_3 =>
    rintro u f rfl one
    exact ⟨_, exec_scrub_reads words on inside due granted (some f), scrub_corrects_unit hr hc u _ _ _ f one rfl⟩
  case refine_4 =>
    rintro u f rfl two
    exact ⟨_, exec_scrub_reads words on inside due granted (some f), scrub_marks_word hr hc u _ _ _ f two rfl⟩
  case refine_5 =>
    rintro p f rfl found mark
    exact ⟨_, exec_scrub_reads words on inside due granted (some f), scrub_corrects_tile hr hc p _ _ _ f found mark rfl⟩
  case refine_6 =>
    obtain ⟨only, pass, -⟩ := scrub_moves_on (x := x) (w := 0) (pos := 1)
      (start := (scrubPass s x).2.1 + (scrubPass s x).2.2) (hours := scrubReg s x) hr hc rfl
    exact ⟨_, exec_scrub_begins words on full ended granted none, only, pass⟩
  case refine_7 =>
    obtain ⟨g, ran⟩ := exec_scrubOverrun_at words on inside ended
    refine ⟨_, ran.trans (congrArg _ (done_self hr hc rfl rfl rfl)), ?_⟩
    refine ⟨⟨rfl, rfl, fun k hk => ?_⟩, scrubPass_setPass s x 0 _ _⟩
    cases k <;> simp [Kind.same, setPass] at hk ⊢
  case refine_8 =>
    obtain ⟨tile, others, only⟩ := becomes_setTile hr hc p.toNat
      ({ s.tile p.toNat with wbPending := (s.tile p.toNat).wbPending.drop 1 }.bump (bankTsc 7) 1)
    refine ⟨_, ?_, only, ?_, others⟩
    · simp [exec, execCorrectedWriteBack, waiting, State.bumpTile, modTile_eq_setTile]
    · rw [tile]
      exact congrArg (List.drop 1) waiting

end Sys2Proof.StoreProofs
end


section
/-! SUPPORT. A line of device memory as the host's port reads and writes it (R136, R137, R153, R260). -/

namespace Sys2Proof.StoreProofs

open Sys2Proof.Machine Sys2Proof.Safety Sys2Proof.Laws Sys2Proof.TileProofs

/-! ## Lines -/

/-- The line at device address a lies at place pa, in no closed area of a tile. -/
structure OpenLine (s : State) (a pa : Nat) : Prop where
  aligned : a % 64 = 0
  place : s.place a = some pa
  opens : closedTile s a 64 = none

theorem pieces_line {a n : Nat} (aligned : a % 64 = 0) (pos : 0 < n) (short : n ≤ 64) : pieces a n = [(a, n)] := by
  have first : a / 64 * 64 = a := by omega
  simp [pieces, granules_line aligned pos short, first, short]

theorem tileOn_of_place {s : State} {a t o : Nat} (tile : tileAt a = some (t, o)) : (s.place a).isSome = s.tileOn t := by
  simp only [State.place, tile]
  cases s.tileOn t <;> rfl

section
variable {s : State} {a pa : Nat} (h : OpenLine s a pa)
include h

theorem tileOpen_line {n : Nat} (pos : 0 < n) (short : n ≤ 64) : s.tileOpen a n = true := by
  have opens := h.opens
  simp only [State.tileOpen, pieces_line h.aligned pos short, List.all_cons, List.all_nil, Bool.and_true]
  cases tile : tileAt a with
  | none => rfl
  | some e =>
    obtain ⟨t, o⟩ := e
    have live : s.tileOn t = true := by rw [← tileOn_of_place tile, h.place]; rfl
    simp [closedTile, pieces_line h.aligned (by decide : 0 < 64) (Nat.le_refl 64), tile, live] at opens
    simp
    omega

theorem devRead_line {n : Nat} (pos : 0 < n) (short : n ≤ 64) : s.devRead a n = s.mem.read pa n := by
  simp [State.devRead, pieces_line h.aligned pos short, State.readPiece, h.place, tileOpen_line h pos short]

theorem noteHost_open : noteHost s a = s := by
  simp [noteHost, h.place, h.opens]

end

/-! ## Unpopulated lines (R260) -/

theorem leNat_zeros (n : Nat) : leNat (List.replicate n 0) = 0 := by
  induction n with
  | zero => rfl
  | succ n ih => rw [List.replicate_succ, leNat, ih]; rfl

theorem unpopAccess_log (s : State) (agent : Nat) : ∃ since g, unpopAccess s agent =
    { s with ms := { s.ms with unpop := sat32 s.ms.unpop 1, unpopAt := since }, log := g } := by
  unfold unpopAccess
  extract_lets due ms counted
  split
  · obtain ⟨g, e⟩ := event_log (code := 0x3170) rfl
      { s with ms := { s.ms with unpop := sat32 s.ms.unpop 1, unpopAt := aput s.ms.unpopAt agent s.clk } } 14 agent none []
    exact ⟨_, g, e⟩
  · exact ⟨s.ms.unpopAt, s.log, rfl⟩

section
variable {s : State} {a : Nat} (aligned : a % 64 = 0) (nowhere : s.place a = none)
include aligned nowhere

/-- No word is read at an unpopulated line, so no flipped bit is met. -/
theorem errorAt_unpopulated (flips : Option Flips) : errorAt s a 64 flips = s := by
  unfold errorAt errorIn
  split
  · rfl
  · split
    · rfl
    next y found =>
      have line : y = (a, 64) := by
        have listed := (List.mem_filter.mp (List.mem_of_getElem? found)).1
        simpa [pieces_line aligned] using listed
      subst line
      split
      next t o tile =>
        have off : s.tileOn t = false := by rw [← tileOn_of_place tile, nowhere]; rfl
        simp [off]
      next tile =>
        have unmapped : s.memAt a = none := by simpa [State.place, tile] using nowhere
        simp [unmapped]

theorem devRead_unpopulated : s.devRead a 64 = List.replicate 64 0 := by
  simp [State.devRead, pieces_line aligned, State.readPiece, nowhere]

theorem devPoison_unpopulated : s.devPoison a 64 = true := by
  simp [State.devPoison, pieces_line aligned, State.readPiece, nowhere]

end

/-! ## Writes of a line -/

/-- Tiles that differ in their lists of words only. -/
def SameButLists (s t : State) : Prop := ∀ q, ∃ wb ll, t.tile q = { s.tile q with wbPending := wb, localList := ll }

theorem sameButLists_setTile (s : State) (p : Nat) (wb ll : List Nat) :
    SameButLists s (s.setTile p { s.tile p with wbPending := wb, localList := ll }) := by
  intro q
  rw [tile_setTile]
  split
  next here => exact ⟨wb, ll, by rw [here]⟩
  next => exact ⟨_, _, rfl⟩

theorem wrote_lists (s : State) (p : Nat) (l w : List Nat) :
    ∃ tl, s.wrote p l w = { s with tiles := tl } ∧ SameButLists s { s with tiles := tl } := by
  unfold State.wrote
  extract_lets t
  split
  · exact ⟨_, rfl, sameButLists_setTile s p _ _⟩
  · exact ⟨s.tiles, rfl, fun q => ⟨_, _, rfl⟩⟩

/-- t follows s by a write of the line at pa: it reads bs, its mark is as `bad` tells, and nothing else of memory changes. -/
structure LineStored (s t : State) (pa : Nat) (bs : List Byte) (bad : Bool) : Prop where
  shape : ∃ m tl, t = { s with mem := m, tiles := tl }
  lists : SameButLists s t
  canonical : t.mem.wf = true
  read : t.mem.read pa 64 = bs
  outside : ∀ x, x < pa ∨ pa + 64 ≤ x → t.mem.byte x = s.mem.byte x
  mark : pa % 64 = 0 → t.mem.marked (pa / 64) = bad

theorem mergeLine_length (old : List Byte) (enables : BitVec 64) (line : BitVec 512) : (mergeLine old enables line).length = 64 := by
  simp [mergeLine]

/-- Memory after a merge of bytes into a line: it is poisoned where the data is, and keeps a mark that stands (R153). -/
def mergedInto (m : Memory) (pa : Nat) (bs : List Byte) (bad : Bool) : Memory :=
  if bad then (m.putBytes pa bs).mark (pa / 64) true else m.putBytes pa bs

theorem byte_mergedInto (m : Memory) (pa : Nat) (bs : List Byte) (bad : Bool) (x : Nat) :
    (mergedInto m pa bs bad).byte x = (m.putBytes pa bs).byte x := by
  cases bad <;> rfl

theorem mergedInto_wf (m : Memory) (pa : Nat) (bs : List Byte) (bad : Bool) (h : m.wf = true) : (mergedInto m pa bs bad).wf = true := by
  cases bad
  · exact putBytes_wf _ _ _ h
  · exact mark_wf _ _ _ (putBytes_wf _ _ _ h)

theorem marked_mergedInto (m : Memory) (pa : Nat) (bs : List Byte) (bad : Bool) :
    (mergedInto m pa bs bad).marked (pa / 64) = (bad || m.marked (pa / 64)) := by
  cases bad
  · exact marked_putBytes bs m pa _
  · exact marked_mark_self _ _ _

section
variable {s : State} {a pa : Nat} (h : OpenLine s a pa) (hc : s.mem.wf = true) {bs : List Byte} (length : bs.length = 64)
include h hc length

/-- A line written whole. -/
theorem devWrite_line (bad : Bool) : LineStored s (s.devWrite a bs (fun _ => bad)) pa bs bad := by
  have written : ∃ tl, s.devWrite a bs (fun _ => bad) = { s with mem := s.mem.write pa bs bad, tiles := tl } ∧
      SameButLists s { s with tiles := tl } := by
    have whole : ((bs.drop (a - a)).take 64) = bs := by rw [Nat.sub_self, List.drop_zero, ← length, List.take_length]
    simp only [State.devWrite, length, pieces_line h.aligned (by decide : 0 < 64) (Nat.le_refl 64), List.foldl_cons, List.foldl_nil,
      writePiece, h.place, tileOpen_line h (by decide) (Nat.le_refl 64), if_true, whole]
    split
    · exact wrote_lists { s with mem := s.mem.write pa bs bad } _ _ _
    · exact ⟨s.tiles, rfl, fun q => ⟨_, _, rfl⟩⟩
  obtain ⟨tl, shape, lists⟩ := written
  rw [shape]
  refine ⟨⟨_, _, rfl⟩, lists, write_wf _ _ _ _ hc, ?_, fun x hx => byte_write_other _ _ _ _ _ hc (by rwa [length]),
    fun first => marked_write_line _ first length bad⟩
  have back := read_write_self s.mem pa bs bad hc
  rwa [length] at back

/-- A line merged with some new bytes keeps a mark that stood. -/
theorem devMerge_line (bad : Bool) : LineStored s (s.devMerge a bs bad) pa bs (bad || s.mem.marked (pa / 64)) := by
  have merged : ∃ tl, s.devMerge a bs bad = { s with mem := mergedInto s.mem pa bs bad, tiles := tl } ∧
      SameButLists s { s with tiles := tl } := by
    simp only [State.devMerge, h.place, tileOpen_line h (by decide : 0 < 64) (Nat.le_refl 64), if_true]
    split
    · exact wrote_lists { s with mem := mergedInto s.mem pa bs bad } _ _ _
    · exact ⟨s.tiles, rfl, fun q => ⟨_, _, rfl⟩⟩
  obtain ⟨tl, shape, lists⟩ := merged
  rw [shape]
  refine ⟨⟨_, _, rfl⟩, lists, mergedInto_wf _ _ _ _ hc, ?_, fun x hx => ?_, fun _ => marked_mergedInto _ _ _ _⟩
  · have back := read_putBytes_self s.mem pa bs hc
    rw [length] at back
    exact (List.map_congr_left (fun i _ => byte_mergedInto s.mem pa bs bad (pa + i))).trans back
  · exact (byte_mergedInto s.mem pa bs bad x).trans (byte_putBytes_other _ _ _ _ hc (by rwa [length]))

end

/-- A write that enables no byte stores nothing. -/
theorem hostStore_none (s : State) (a : Nat) (line : BitVec 512) (poison : Bool) : hostStore s a 0 line poison = s := rfl

/-- What the host's write of a line stores, whole or in part (R137, R153). -/
theorem hostStore_line {s : State} {a pa : Nat} (h : OpenLine s a pa) (hc : s.mem.wf = true) {enables : BitVec 64} (writes : enables ≠ 0)
    (line : BitVec 512) (poison : Bool) : LineStored s (hostStore s a enables line poison) pa (mergeLine (s.devRead a 64) enables line)
      (poison || (decide (enables ≠ BitVec.allOnes 64) && s.mem.marked (pa / 64))) := by
  have length := mergeLine_length (s.devRead a 64) enables line
  have nonzero : ¬ (enables == 0) = true := by simpa using writes
  unfold hostStore
  extract_lets new
  rw [if_neg nonzero]
  by_cases whole : enables = BitVec.allOnes 64
  · rw [if_pos (beq_iff_eq.mpr whole), decide_eq_false (not_not.mpr whole), Bool.false_and, Bool.or_false]
    exact devWrite_line h hc length poison
  · rw [if_neg (by simpa using whole), decide_eq_true whole, Bool.true_and]
    exact devMerge_line h hc length poison

/-- A stored line reads back as it was stored. -/
theorem devRead_stored {s t : State} {a pa : Nat} {bs : List Byte} {bad : Bool} (h : OpenLine s a pa) (st : LineStored s t pa bs bad)
    {n : Nat} (pos : 0 < n) (short : n ≤ 64) : t.devRead a n = bs.take n := by
  obtain ⟨⟨m, tl, rfl⟩, lists, -, read, -, -⟩ := st
  have spill (k : Nat) : (({ s with mem := m, tiles := tl } : State).ltile k).spillBase = (s.ltile k).spillBase := by
    obtain ⟨wb, ll, e⟩ := lists (s.phys k)
    have base := congrArg Tile.spillBase e
    exact base
  have opens : ({ s with mem := m, tiles := tl } : State).tileOpen a n = true := by
    rw [← tileOpen_line h pos short]
    simp only [State.tileOpen, spill]
  have place : ({ s with mem := m, tiles := tl } : State).place a = some pa := (place_of rfl rfl rfl rfl a).trans h.place
  rw [← read, ← read_take m pa short]
  simp [State.devRead, pieces_line h.aligned pos short, State.readPiece, place, opens]

/-! ## Control lines (R295) -/

theorem leAt_take {bs : List Byte} {k o n : Nat} (h : o + n ≤ k) : leAt (bs.take k) o n = leAt bs o n := by
  unfold leAt
  rw [List.drop_take, List.take_take, Nat.min_eq_left (by omega)]

/-- A halted ring's control line is observed, and the ring stays halted. -/
theorem observeLine_halted {s : State} {r : Nat} (known : (aget? s.rings r).isSome = true) (enabled : (s.ring r).enabled = true)
    (halted : (s.ring r).halted = true) : observeLine s r =
      (touchDev s (s.ring r).line.toNat 64).modRing r (fun g => { g with
        tail := BitVec.ofNat 32 (leAt (s.devRead (s.ring r).line.toNat 8) 0 4)
        cplHead := BitVec.ofNat 32 (leAt (s.devRead (s.ring r).line.toNat 8) 4 4) }) := by
  have ring : (touchDev s (s.ring r).line.toNat 64).ring r = s.ring r := ring_of_rings (touchDev_rings _ _ _) r
  have found : (aget? s.rings r).isNone = false := by rw [← Option.not_isSome, known]; rfl
  simp only [observeLine, found, enabled, settleRing, ring_modRing_self, ring, halted, Bool.not_true, Bool.or_self, Bool.or_true, if_true,
    Bool.false_eq_true, if_false]

end Sys2Proof.StoreProofs
end

section
/-! PROOFS. The host's reads and writes of device memory, and its link (R136, R137, R153, R260, R292-R295). -/

namespace Sys2Proof.StoreProofs

open Sys2Proof.Machine Sys2Proof.Safety Sys2Proof.Laws Sys2Proof.TileProofs

/-! ## Decoders -/

/-- The conditions of R294 on a decoder. -/
def decoderOk (s : State) (i : Nat) (base size : W64) : Bool :=
  base.toNat % 2 ^ 28 == 0 && size.toNat % 2 ^ 28 == 0 && hdmTarget s i % 2 ^ 28 == 0 && size != 0 &&
    insideOneRange (hdmTarget s i) size.toNat

theorem decoderOk_iff {s : State} {i : Nat} {base size : W64} : decoderOk s i base size = true ↔
    base.toNat % 2 ^ 28 = 0 ∧ size.toNat % 2 ^ 28 = 0 ∧ hdmTarget s i % 2 ^ 28 = 0 ∧ size ≠ 0 ∧
      insideOneRange (hdmTarget s i) size.toNat = true := by
  simp only [decoderOk, Bool.and_eq_true, beq_iff_eq, bne_iff_ne, and_assoc]

/-- A decoder commits where they hold, and else takes its error bit. -/
theorem exec_hdmDecoderCommit_at {s : State} (hr : s.stopped = false) (hc : s.mem.wf = true) (i : BitVec 3) (base size : W64) :
    ∃ t, exec (.hdmDecoderCommit i base size) s = .next t ∧ Only [.hdm] s t ∧
      t.host.hdm = s.host.hdm.set i.toNat ⟨base, size, decoderOk s i.toNat base size, !decoderOk s i.toNat base size⟩ := by
  refine ⟨_, congrArg Host.Outcome.next (done_self hr hc rfl rfl rfl), ⟨rfl, rfl, fun k hk => ?_⟩, rfl⟩
  cases k <;> simp [Kind.same] at hk ⊢

/-! ## Reads -/

/-- The state in which the host's read of line a is answered. -/
def answered (s : State) (a : Nat) : State :=
  { s with host := { s.host with answer := ⟨BitVec.ofNat 512 (leNat (s.devRead a 64)), s.devPoison a 64⟩ } }

section
variable {s : State} {addr : W64} {a : Nat} (hr : s.stopped = false) (up : hostUp s = true)
  (decoded : hdmAddr s (addr.toNat / 64 * 64) = some a)
include hr up decoded

theorem exec_hostRead_at (flips : Option Flips) : exec (.hostMemoryAccess addr .read flips) s =
    .next (doneBoard s (hostHolds (answered (errorAt (noteHost s a) a 64 flips) a) a)) := by
  simp only [exec, execHostMemoryAccess, hr, up, decoded, Bool.not_true, Bool.or_self, Bool.false_eq_true, if_false]
  rfl

/-- A write that reads no flipped word. -/
theorem exec_hostWrite_at {enables : BitVec 64} {flips : Option Flips}
    (unread : enables = 0 ∨ enables = BitVec.allOnes 64 ∨ flips = none) (line : BitVec 512) (poison : Bool) :
    exec (.hostMemoryAccess addr (.write enables line poison) flips) s =
      .next (doneBoard s ((ringsAt (noteHost s a) a).foldl observeLine (hostStore (noteHost s a) a enables line poison))) := by
  have unmet : (if enables == 0 || enables == BitVec.allOnes 64 then noteHost s a else errorAt (noteHost s a) a 64 flips) =
      noteHost s a := by
    rcases unread with rfl | rfl | rfl
    · rfl
    · rfl
    · exact ite_self _
  simp only [exec, execHostMemoryAccess, hr, up, decoded, Bool.not_true, Bool.or_self, Bool.false_eq_true, if_false, unmet]

end

theorem hostHolds_answer (s : State) (a : Nat) : (hostHolds s a).host.answer = s.host.answer := by
  unfold hostHolds
  split <;> rfl

/-- A clean read of a populated line. -/
theorem hostHolds_open {s : State} {a pa : Nat} (h : OpenLine s a pa) : hostHolds (answered s a) a =
    { answered s a with host := { (answered s a).host with hostLines := aput s.host.hostLines (pa / 64) a } } := by
  have place : (answered s a).place a = some pa := h.place
  simp only [hostHolds, place]
  rfl

theorem read_open {s : State} {a pa : Nat} (h : OpenLine s a pa) (hc : s.mem.wf = true) :
    Only [.answer, .snoops] s (doneBoard s (hostHolds (answered s a) a)) ∧
    aget? (doneBoard s (hostHolds (answered s a) a)).host.hostLines (pa / 64) = some a ∧
    (doneBoard s (hostHolds (answered s a) a)).host.snooped = s.host.snooped := by
  have line : doneBoard s (hostHolds (answered s a) a) =
      { answered s a with host := { (answered s a).host with hostLines := aput s.host.hostLines (pa / 64) a } } := by
    rw [hostHolds_open h]
    exact doneBoard_self rfl rfl hc
  rw [line]
  refine ⟨⟨rfl, rfl, fun k hk => ?_⟩, aget?_aput_self _ _ _, rfl⟩
  cases k <;> simp [Kind.same, answered] at hk ⊢

/-- A read of an unpopulated line (R260). -/
theorem read_unpopulated {s : State} {a : Nat} (hc : s.mem.wf = true) (aligned : a % 64 = 0) (nowhere : s.place a = none)
    (flips : Option Flips) {t : State} (ht : t = doneBoard s (hostHolds (answered (errorAt (noteHost s a) a 64 flips) a) a)) :
    Only [.answer, .unpopulated, .log] s t ∧ t.host.answer = ⟨0, true⟩ ∧ t.ms.unpop = sat32 s.ms.unpop 1 := by
  have noted : noteHost s a = unpopAccess s 7 := by simp [noteHost, nowhere]
  obtain ⟨since, g, counted⟩ := unpopAccess_log s 7
  rw [noted, counted] at ht
  generalize hx : ({ s with ms := { s.ms with unpop := sat32 s.ms.unpop 1, unpopAt := since }, log := g } : State) = x at ht
  have place : x.place a = none := by rw [← hx]; exact nowhere
  have held : hostHolds (answered x a) a = answered x a := by
    have place : (answered x a).place a = none := place
    simp [hostHolds, place]
  rw [errorAt_unpopulated aligned place, held] at ht
  have answer : (answered x a).host.answer = ⟨0, true⟩ := by
    rw [answered, devRead_unpopulated aligned place, devPoison_unpopulated aligned place, leNat_zeros]
    rfl
  rw [← hx] at ht answer
  replace ht := ht.trans (doneBoard_self rfl rfl hc)
  subst ht
  refine ⟨⟨rfl, rfl, fun k hk => ?_⟩, answer, rfl⟩
  cases k <;> simp [Kind.same, answered] at hk ⊢

/-! ## Writes -/

/-- A write of a line that is no ring's control line. -/
theorem store_leaves {s y : State} {pa : Nat} {bs : List Byte} {bad : Bool} (st : LineStored s y pa bs bad) :
    doneBoard s y = y ∧ Only [.mem, .tiles] s y := by
  obtain ⟨⟨m, tl, rfl⟩, -, canonical, -, -, -⟩ := st
  refine ⟨doneBoard_self rfl rfl canonical, rfl, rfl, fun k hk => ?_⟩
  cases k <;> simp [Kind.same] at hk ⊢

theorem ringsAt_line {s : State} {a r : Nat} (h : ringsAt s a = [r]) (aligned : a % 64 = 0) (line : (s.ring r).line.toNat % 64 = 0) :
    (s.ring r).line.toNat = a := by
  have listed : r ∈ ringsAt s a := by simp [h]
  have same : (s.ring r).line.toNat / 64 = a / 64 := beq_iff_eq.mp (List.mem_filter.mp listed).2
  omega

/-- A write of the control line of a halted ring (R295). -/
theorem store_observed {s y : State} {a pa r : Nat} {bs : List Byte} {bad : Bool} (h : OpenLine s a pa) (st : LineStored s y pa bs bad)
    (known : (aget? s.rings r).isSome = true) (enabled : (s.ring r).enabled = true) (halted : (s.ring r).halted = true)
    (line : (s.ring r).line.toNat = a) :
    Only [.mem, .tiles, .rings, .snoops] s (doneBoard s (observeLine y r)) ∧ (doneBoard s (observeLine y r)).mem.read pa 64 = bs ∧
    (doneBoard s (observeLine y r)).ring r =
      { s.ring r with tail := BitVec.ofNat 32 (leAt bs 0 4), cplHead := BitVec.ofNat 32 (leAt bs 4 4) } := by
  have rings : y.rings = s.rings := by
    obtain ⟨m, tl, rfl⟩ := st.shape
    rfl
  have ring : y.ring r = s.ring r := ring_of_rings rings r
  obtain ⟨v, w, snooped⟩ := touchDev_shape y a 64
  have observed := observeLine_halted (s := y) (r := r) (by rw [rings]; exact known) (by rw [ring]; exact enabled)
    (by rw [ring]; exact halted)
  rw [ring, line, devRead_stored h st (by decide) (by decide), leAt_take (by decide), leAt_take (by decide), snooped] at observed
  have same : (observeLine y r).pending = s.pending ∧ (observeLine y r).part = s.part ∧ (observeLine y r).mem = y.mem := by
    rw [observed]
    obtain ⟨m, tl, rfl⟩ := st.shape
    exact ⟨rfl, rfl, rfl⟩
  rw [doneBoard_self same.1 same.2.1 (by rw [same.2.2]; exact st.canonical)]
  refine ⟨⟨same.1, same.2.1, fun k hk => ?_⟩, by rw [same.2.2]; exact st.read, ?_⟩
  · rw [observed]
    obtain ⟨m, tl, rfl⟩ := st.shape
    cases k <;> simp [Kind.same, State.modRing, State.setRing] at hk ⊢
  · rw [observed, ring_modRing_self]
    exact congrArg (fun x : RingSt =>
      { x with tail := BitVec.ofNat 32 (leAt bs 0 4), cplHead := BitVec.ofNat 32 (leAt bs 4 4) }) ring

/-! ## The link -/

theorem exec_hostMemoryAccess_idle {s : State} {addr : W64}
    (shut : hostUp s = false ∨ s.stopped = true ∨ hdmAddr s (addr.toNat / 64 * 64) = none) (op : HostOp) (flips : Option Flips) :
    exec (.hostMemoryAccess addr op flips) s = .next (doneBoard s s) := by
  simp only [exec, execHostMemoryAccess]
  rcases shut with down | stands | nowhere
  · simp [down]
  · simp [stands]
  · simp [nowhere]

/-- What a device fault leaves of memory and of the host port. -/
theorem deviceFault_keeps (s : State) (code kind index : Nat) (d : List Byte) : (s.deviceFault code kind index true d).mem = s.mem ∧
    (s.deviceFault code kind index true d).host.link = s.host.link := by
  obtain ⟨lg, v, w, logged⟩ := event_shape s code kind index none d
  obtain ⟨g, ended, -⟩ := endAccepted_shape stDeviceFault 0 0 (s.event code kind index none d)
  simp only [State.deviceFault, if_true, ended]
  rw [logged]
  exact ⟨rfl, rfl⟩

theorem hostLinkRecovers {s : State} (hr : s.stopped = false) (hc : s.mem.wf = true) (up : s.host.link = .up) :
    ∃ t, exec .hostLinkRecovery s = .next t ∧ Only [.hostLink, .log] s t ∧ t.host.link = .recovered ∧
      (s.log.queue.length < 64 →
        t.log.queue = s.log.queue ++ [⟨entryBytes s.tideCount.toNat s.tidePhase none 0x1201 14 7 [], false⟩]) := by
  let x : State := { s with host := { s.host with link := .recovered } }
  have ran : exec .hostLinkRecovery s = .next (done s (x.event 0x1201 14 7 none [])) := by
    simp [exec, execHostLinkRecovery, up, x]
  obtain ⟨g, logged⟩ := event_log (code := 0x1201) rfl x 14 7 none []
  have same : done s (x.event 0x1201 14 7 none []) = x.event 0x1201 14 7 none [] := by
    rw [logged]
    exact done_self hr hc rfl rfl rfl
  refine ⟨_, ran, ?_⟩
  rw [same]
  refine ⟨?_, by rw [logged], fun room => event_queued rfl (s := x) room 14 7 none []⟩
  rw [logged]
  refine ⟨rfl, rfl, fun k hk => ?_⟩
  cases k <;> simp [Kind.same, x] at hk ⊢

theorem hostLinkFails {s : State} (hr : s.stopped = false) (hc : s.mem.wf = true) (up : hostUp s = true) :
    ∃ t, exec .hostLinkDown s = .next t ∧ DeviceFaulted s t 0x5201 ∧ t.host.link = .down ∧ t.mem = s.mem := by
  let x : State := { s with host := { s.host with link := .down } }
  have ran : exec .hostLinkDown s = .next (done s (x.deviceFault 0x5201 14 7 true [])) := by
    simp [exec, execHostLinkDown, up, x]
  obtain ⟨mem, link⟩ := deviceFault_keeps x 0x5201 14 7 []
  obtain ⟨a, b, host⟩ := done_host s (x.deviceFault 0x5201 14 7 true []) hr
  refine ⟨_, ran, deviceFault_leaves hr _ _ _ _ ⟨rfl, rfl, rfl⟩, by rw [host]; exact link, ?_⟩
  rw [done_mem _ _ hr, mem]
  exact canon_eq _ hc

/-- Settles O33: a host's access reaches one line, whose place and open state say what it reads, stores and leaves. -/
theorem hostMemoryAndLink : Obligations.HostMemoryAndLink := by
  unfold Obligations.HostMemoryAndLink
  refine ⟨fun i base size s hc hr => ?_, fun addr s a hc hr up decoded aligned => ⟨?_, ?_, ?_, ?_⟩, fun addr op flips s hc shut => ?_,
    fun s hc hr up => hostLinkRecovers hr hc up, fun s hc hr up => hostLinkFails hr hc up, fun addr s hc hr => ?_⟩
  case refine_1 =>
    intro g good
    have ended := exec_hdmDecoderCommit_at hr hc i base size
    refine ⟨fun yes => ?_, fun no => ?_⟩
    · rwa [decoderOk_iff.mpr yes] at ended
    · rwa [Bool.eq_false_iff.mpr (mt decoderOk_iff.mp no)] at ended
  case refine_2 =>
    intro flips pa place opens u
    have line : OpenLine s a pa := ⟨aligned, place, opens⟩
    refine ⟨_, exec_hostRead_at hr up decoded flips, ?_⟩
    rw [noteHost_open line]
    refine ⟨hostHolds_answer _ a, ?_⟩
    rintro rfl
    exact read_open line hc
  case refine_3 =>
    intro flips nowhere
    exact ⟨_, exec_hostRead_at hr up decoded flips, read_unpopulated hc aligned nowhere flips rfl⟩
  case refine_4 =>
    intro enables line poison flips pa place opens writes unread
    have located : OpenLine s a pa := ⟨aligned, place, opens⟩
    have stored := hostStore_line located hc writes line poison
    have ran := exec_hostWrite_at hr up decoded (.inr unread) line poison
    rw [noteHost_open located] at ran
    refine ⟨fun plain => ?_, fun r rings known enabled halted whole => ?_⟩
    · rw [plain] at ran
      obtain ⟨same, only⟩ := store_leaves stored
      exact ⟨_, ran.trans (congrArg Host.Outcome.next same), only, stored.read, stored.outside, stored.mark⟩
    · rw [rings] at ran
      exact ⟨_, ran, store_observed located stored known enabled halted (ringsAt_line rings aligned whole)⟩
  case refine_5 =>
    intro line poison flips pa place opens plain
    have ran := exec_hostWrite_at hr up decoded (.inl rfl) line poison (flips := flips)
    rw [noteHost_open ⟨aligned, place, opens⟩, plain] at ran
    exact ⟨_, ran, by rw [List.foldl_nil, hostStore_none, doneBoard_self rfl rfl hc]; exact only_refl _ s⟩
  case refine_6 =>
    exact ⟨_, exec_hostMemoryAccess_idle shut op flips, by rw [doneBoard_self rfl rfl hc]; exact only_refl _ s⟩
  case refine_7 =>
    exact ⟨_, rfl, by rw [done_idle hr hc]; exact only_refl _ s⟩

end Sys2Proof.StoreProofs
end

section
/-! SUPPORT. Router queues that messages join and leave, and what the small operations of the fabric leave alone (R156, R180, R187). -/

namespace Sys2Proof.FabricProofs

open Sys2Proof.Machine Sys2Proof.Safety Sys2Proof.Laws Sys2Proof.TileProofs Sys2Proof.StoreProofs

/-! ## Frames -/

/-- A command ends with the state that its meaning gives, when that leaves memory alone. -/
theorem done_only {l : List Kind} {s x : State} (hr : s.stopped = false) (hc : s.mem.wf = true) (h : Only l s x) (hl : Kind.mem ∉ l) :
    done s x = x := by
  obtain ⟨pending, part, same⟩ := h
  exact done_self hr hc (same .mem hl) pending part

theorem regs_of_only {l : List Kind} {s x : State} (h : Only l s x) (hl : Kind.registers ∉ l) : x.regs = s.regs := h.2.2 .registers hl

theorem only_event (s : State) (code kind index : Nat) (ctx : Option Nat) (d : List Byte) :
    Only [.log, .vectors] s (s.event code kind index ctx d) := by
  obtain ⟨g, a, b, e⟩ := event_shape s code kind index ctx d
  rw [e]
  refine ⟨rfl, rfl, fun k hk => ?_⟩
  cases k <;> simp [Kind.same] at hk ⊢

theorem only_censusAdd (s : State) (n g : Nat) (d : Int) : Only [.census] s (s.censusAdd n g d) := by
  refine ⟨rfl, rfl, fun k hk => ?_⟩
  cases k <;> simp [Kind.same, State.censusAdd] at hk ⊢

theorem only_foldl {α : Type} {l : List Kind} {f : State → α → State} (hf : ∀ s a, Only l s (f s a)) (as : List α) (s : State) :
    Only l s (as.foldl f s) :=
  foldl_shape (P := Only l) (only_refl l) (fun _ _ _ => only_trans) f hf as s

theorem only_count (s : State) (m : Msg) (d : Int) : Only [.census] s (s.count m d) :=
  only_foldl (fun s n => only_censusAdd s n m.gen d) _ s

theorem only_countAt (s : State) (p : Nat) (side : Side) (m : Msg) (d : Int) : Only [.census] s (countAt s p side m d) :=
  only_foldl (fun s n => only_censusAdd s n m.gen d) _ s

theorem only_probes (s : State) (l : List Probe) : Only [.probes] s { s with probes := l } := by
  refine ⟨rfl, rfl, fun k hk => ?_⟩
  cases k <;> simp [Kind.same] at hk ⊢

theorem tile_of_only {l : List Kind} {s x : State} (h : Only l s x) (hl : Kind.tiles ∉ l) (p : Nat) : x.tile p = s.tile p := by
  have tiles : x.tiles = s.tiles := h.2.2 .tiles hl
  rw [State.tile, State.tile, tiles]

theorem tile_count (s : State) (m : Msg) (d : Int) (p : Nat) : (s.count m d).tile p = s.tile p :=
  tile_of_only (only_count s m d) (by decide) p

theorem rq_of_router {s t : State} {p : Nat} (h : (t.tile p).router = (s.tile p).router) (k : Nat) : t.rq p k = s.rq p k := by
  rw [State.rq, State.rq, h]

/-- The census moves for a list of tiles, whatever else differs. -/
theorem foldl_censusAdd_census {s t : State} (h : t.census = s.census) (g : Nat) (d : Int) (l : List Nat) :
    (l.foldl (fun x n => x.censusAdd n g d) t).census = (l.foldl (fun x n => x.censusAdd n g d) s).census := by
  induction l generalizing s t with
  | nil => exact h
  | cons n l ih => exact ih (by simp only [State.censusAdd, State.census?, h])

/-! ## A write of tiles -/

/-- A change of a tile that leaves its router alone leaves every router alone. -/
theorem router_modTile {f : Tile → Tile} (hf : ∀ y, (f y).router = y.router) (s : State) (p v : Nat) :
    ((s.modTile p f).tile v).router = (s.tile v).router := by
  by_cases h : v = p
  · rw [h, tile_modTile_self, hf]
  · rw [tile_modTile_other _ _ _ _ h]

theorem router_bumpTile (s : State) (p k n v : Nat) : ((s.bumpTile p k n).tile v).router = (s.tile v).router :=
  router_modTile (f := fun t => t.bump k n) (fun _ => rfl) s p v

theorem router_sentFlits (s : State) (p n v : Nat) : ((sentFlits s p n).tile v).router = (s.tile v).router := router_bumpTile s p _ n v

theorem rq_sentFlits (s : State) (p n v k : Nat) : (sentFlits s p n).rq v k = s.rq v k := rq_of_router (router_sentFlits s p n v) k

theorem rq_setTile_self (s : State) (p k : Nat) (y : Tile) : (s.setTile p y).rq p k = y.router.q k := by
  rw [State.rq, tile_setTile_self]

theorem rq_setTile_other (s : State) (p k v : Nat) (y : Tile) (h : v ≠ p) : (s.setTile p y).rq v k = s.rq v k := by
  rw [State.rq, tile_setTile, if_neg h, State.rq]

/-- An event that a router logs a limited number of times leaves its count and the log, and nothing else. -/
theorem routerOnce_leaves (s : State) (p code limit : Nat) (d : List Byte) :
    ∃ o, (routerOnce s p code limit d).tile p = { s.tile p with once := o } ∧
      (∀ q, q ≠ p → (routerOnce s p code limit d).tile q = s.tile q) ∧ Only [.tiles, .log, .vectors] s (routerOnce s p code limit d) := by
  unfold routerOnce
  extract_lets k n
  refine ite_prop (P := fun x : State => ∃ o, x.tile p = { s.tile p with once := o } ∧ (∀ q, q ≠ p → x.tile q = s.tile q) ∧
    Only [.tiles, .log, .vectors] s x) (fun _ => ?_) (fun _ => ⟨(s.tile p).once, rfl, fun _ _ => rfl, only_refl _ s⟩)
  refine ⟨aput (s.tile p).once k (n + 1), by rw [tile_event, tile_modTile_self], fun q hq => by rw [tile_event, tile_modTile_other _ _ _ _ hq], ?_⟩
  exact only_trans (only_mono (by simp) (only_setTile s p _)) (only_mono (by simp) (only_event _ _ _ _ _ _))

/-! ## Queues of lanes 0 and 1 -/

/-- Lanes 0 and 1 hold messages. -/
theorem lane2Key_mod {k : Nat} (h : k % 3 ≠ 2) : lane2Key k = false := by
  rw [lane2Key, beq_eq_false_iff_ne.mpr h, Bool.false_and]

theorem lane2Key_low (side : Side) {lane : Nat} (h : lane < 2) : lane2Key (qKey side lane) = false :=
  lane2Key_mod (by rw [qKey]; omega)

theorem qKey_lt {side : Side} {lane : Nat} (hs : side ≠ .node) (h : lane < 3) : qKey side lane < 15 := by
  cases side <;> simp [qKey, sideNo] at hs ⊢ <;> omega

/-- A message joins the end of its queue. -/
theorem q_push_self (r : Router) {k : Nat} (clk : Nat) (m : Msg) (h : k < 15) : (r.push k clk (.msg m)).q k = r.q k ++ [m] := by
  simp [Router.push, Router.setQ, Router.q, h]

theorem q_push_other (r : Router) {k j : Nat} (clk : Nat) (m : Msg) (h : j ≠ k) : (r.push k clk (.msg m)).q j = r.q j := by
  by_cases low : j < 15
  · simp [Router.push, Router.setQ, Router.q, low, agetD_aput_other _ _ _ _ _ h]
  · simp [Router.push, Router.setQ, Router.q, low, Router.nodeLane]

section
variable (s : State) {p k : Nat} (m : Msg)

theorem tile_pushRq_self : (s.pushRq p k m).tile p = { s.tile p with router := (s.tile p).router.push k s.clk (.msg m) } :=
  tile_modTile_self _ _ _

theorem tile_pushRq_other {v : Nat} (h : v ≠ p) : (s.pushRq p k m).tile v = s.tile v := tile_modTile_other _ _ _ _ h

theorem rq_pushRq_self (h : k < 15) : (s.pushRq p k m).rq p k = s.rq p k ++ [m] := by
  rw [State.rq, tile_pushRq_self]
  exact q_push_self _ _ _ h

theorem rq_pushRq_other {v i : Nat} (h : (v, i) ≠ (p, k)) : (s.pushRq p k m).rq v i = s.rq v i := by
  by_cases hv : v = p
  · have hi : i ≠ k := fun hi => h (by rw [hv, hi])
    rw [hv, State.rq, tile_pushRq_self]
    exact q_push_other _ _ _ hi
  · rw [State.rq, tile_pushRq_other _ _ hv, State.rq]

theorem spill_pushRq (v : Nat) : ((s.pushRq p k m).tile v).router.spill = (s.tile v).router.spill := by
  by_cases hv : v = p
  · rw [hv, tile_pushRq_self]; rfl
  · rw [tile_pushRq_other _ _ hv]

theorem only_pushRq : Only [.tiles] s (s.pushRq p k m) := only_setTile s p _

end

section
variable {s : State} {p k : Nat}

theorem tile_popRq_self : (s.popRq p k).tile p = { s.tile p with router := (s.tile p).router.pop k s.clk } := tile_modTile_self _ _ _

theorem tile_popRq_other {v : Nat} (h : v ≠ p) : (s.popRq p k).tile v = s.tile v := tile_modTile_other _ _ _ _ h

theorem rq_popRq_self (hs : asorted (s.tile p).router.queues = true) (h2 : lane2Key k = false) : (s.popRq p k).rq p k = (s.rq p k).drop 1 := by
  rw [State.rq, tile_popRq_self]
  exact q_pop_self _ hs h2

theorem rq_popRq_other {v i : Nat} (hs : asorted (s.tile p).router.queues = true) (h2 : lane2Key k = false) (h : (v, i) ≠ (p, k)) :
    (s.popRq p k).rq v i = s.rq v i := by
  by_cases hv : v = p
  · have hi : i ≠ k := fun hi => h (by rw [hv, hi])
    rw [hv, State.rq, tile_popRq_self]
    exact q_pop_other _ hs h2 hi
  · rw [State.rq, tile_popRq_other hv, State.rq]

theorem only_popRq : Only [.tiles] s (s.popRq p k) := only_setTile s p _

end

/-! ## Heads -/

theorem loadHead_msg {r : Router} {k : Nat} {m : Msg} {l : List Msg} (h2 : lane2Key k = false) (h : r.q k = m :: l) :
    r.loadHead k = some (.msg m) := by
  simp [Router.loadHead, h2, h]

/-- Without a spill, no lane of the router is being spilled. -/
theorem spilledLane_nil {s : State} {p : Nat} (h : (s.tile p).router.spill = []) (side : Side) (lane : Nat) : spilledLane s p side lane = false := by
  simp [spilledLane, h]

/-- The head of a lane that the router's arbiters see is the head of its queue. -/
theorem headLoad_eq {s : State} {p : Nat} {side : Side} {lane : Nat} {l : Load} (h : headLoad s p side lane = some l) :
    (s.tile p).router.loadHead (qKey side lane) = some l := by
  unfold headLoad at h
  split at h
  · cases h
  · exact h

theorem headLoad_msg {s : State} {p : Nat} {side : Side} {lane : Nat} {m : Msg} {r : List Msg} (h : HeadOf s p (qKey side lane) m r)
    (hl : lane < 2) (spill : (s.tile p).router.spill = []) : headLoad s p side lane = some (.msg m) := by
  have low : ¬ (decide (lane ≥ 3) || spilledLane s p side lane) = true := by
    rw [spilledLane_nil spill]; simp; omega
  rw [headLoad, if_neg low]
  exact loadHead_msg (lane2Key_low side hl) h.head

/-! ## Links between routers -/

theorem inputRoom_unspilled {s : State} {q : Nat} (spill : (s.tile q).router.spill = []) (side : Side) (lane n : Nat) :
    inputRoom s q side lane n = laneRoom ((s.tile q).router.held (qKey side lane)) n := by
  simp [inputRoom, spilledLane_nil spill]

theorem arriveAt_unspilled {s : State} {q : Nat} (spill : (s.tile q).router.spill = []) (side : Side) (lane : Nat) (m : Msg) :
    arriveAt s q side lane (.msg m) = s.pushRq q (qKey side lane) m := by
  simp [arriveAt, spilledLane_nil spill, State.pushRq]

theorem refusedAt_unspilled {s : State} {q : Nat} (spill : (s.tile q).router.spill = []) (side : Side) (lane n : Nat) :
    refusedAt s q side lane n = s := by
  simp [refusedAt, spilledLane_nil spill]

/-- No bridge weir stands between routers of one die (R350). -/
theorem bridgePass_within {s : State} {p q : Nat} {d : Side} {l : Load} (hop : loadHop s p l = .hop q d) (die : pDie q = pDie p) (k : Nat) :
    bridgePass s p k l = (s, true) := by
  simp [bridgePass, bridgeBucket, hop, die]

/-- A step between routers never enters the next one by its tree node. -/
theorem stepXY_side {die x y tx ty q : Nat} {arrived : Hop} (h : arrived ≠ .hop q .node) : stepXY die x y tx ty arrived ≠ .hop q .node := by
  unfold stepXY stepEast stepWest stepSouth stepNorth
  split_ifs <;> simp [h]

theorem stepYX_side {die x y tx ty q : Nat} {arrived : Hop} (h : arrived ≠ .hop q .node) : stepYX die x y tx ty arrived ≠ .hop q .node := by
  unfold stepYX stepEast stepWest stepSouth stepNorth
  split_ifs <;> simp [h]

theorem routeTo_side {s : State} {p die row tx ty q : Nat} {arrived : Hop} (h : arrived ≠ .hop q .node) :
    routeTo s p die row tx ty arrived ≠ .hop q .node := by
  unfold routeTo
  dsimp only
  split_ifs with _ crosses_east crosses_west
  · simp
  · exact stepYX_side (by simp)
  · exact stepYX_side (by simp)
  · exact stepXY_side h

/-- A message enters a router from one of its links. -/
theorem nextHop_side {s : State} {p q : Nat} {m : Msg} {d : Side} (h : nextHop s p m = .hop q d) : d ≠ .node := by
  rintro rfl
  unfold nextHop at h
  split at h
  · exact stepYX_side (by simp) h
  · exact routeTo_side (by split <;> simp) h

end Sys2Proof.FabricProofs
end

section
/-! SUPPORT. What the arbiters' grants let a router do, and what the receiver of a link makes of a load (R161, R168, R180). -/

namespace Sys2Proof.FabricProofs

open Sys2Proof.Machine Sys2Proof.Safety Sys2Proof.Laws Sys2Proof.TileProofs Sys2Proof.StoreProofs

/-! ## Grants -/

section
variable {s : State} {p : Nat} {a : Requester}

theorem granted_asks (h : granted s p a = true) : ∃ e, asks s p a = some e := by
  unfold granted at h
  cases hq : asks s p a with
  | none => rw [hq] at h; cases h
  | some e => exact ⟨e, rfl⟩

/-- A requester that asks for an output has a load that neither spreads nor is held at a dike. -/
theorem asks_load {e : Hop × Bool} (h : asks s p a = some e) : ∃ side lane l, requesterLoad s p a = some (side, lane, l) ∧
    e = (loadHop s p l, redirects p l) ∧ loadSpreads s p side l = false ∧ loadDiked s p side l = false := by
  unfold asks at h
  cases hq : requesterLoad s p a with
  | none => rw [hq] at h; cases h
  | some x =>
    obtain ⟨side, lane, l⟩ := x
    rw [hq] at h
    dsimp only at h
    split at h
    · cases h
    next free =>
      simp only [Bool.or_eq_true, not_or, Bool.not_eq_true] at free
      obtain ⟨⟨⟨spreads, diked⟩, -⟩, -⟩ := free
      exact ⟨side, lane, l, rfl, (Option.some.inj h).symm, spreads, diked⟩

theorem granted_load {side : Side} {lane : Nat} {l : Load} (h : granted s p a = true) (load : requesterLoad s p a = some (side, lane, l)) :
    asks s p a = some (loadHop s p l, redirects p l) ∧ loadSpreads s p side l = false ∧ loadDiked s p side l = false := by
  obtain ⟨e, asked⟩ := granted_asks h
  obtain ⟨_, _, _, load', rfl, spreads, diked⟩ := asks_load asked
  cases load.symm.trans load'
  exact ⟨asked, spreads, diked⟩

end

section
variable {s : State} {p q lane : Nat} {a : Requester} {side d : Side} {l0 : Load} (grant : granted s p a = true)
  (load : requesterLoad s p a = some (side, lane, l0)) (hop0 : loadHop s p l0 = .hop q d) (die : pDie q = pDie p)
include grant load hop0 die

/-- A grant within a die is noted at the router's output alone. -/
theorem takeGrant_within : ∃ v, takeGrant s p a = s.setTile p { s.tile p with router := { (s.tile p).router with granted := v } } := by
  obtain ⟨asked, -, -⟩ := granted_load grant load
  have stays : bridges p (.hop q d) = false := by simp [bridges, die]
  unfold takeGrant
  rw [asked, load, hop0]
  simp only [takeCrossbar, stays]
  exact ⟨_, rfl⟩

variable {l : Load} (hop : loadHop s p l = .hop q d) (err : Option FlitError) (pop : State → State)
include hop

theorem loadHop_takeGrant : loadHop (takeGrant s p a) p l = .hop q d := by
  obtain ⟨v, e⟩ := takeGrant_within grant load hop0 die
  rw [e]
  exact hop

/-- A granted load that the next router accepts arrives there. -/
theorem hopGranted_lands {x : State} {c : Load}
    (link : linkCheck (sentFlits (pop (takeGrant s p a)) p l.flits) q d err l = (x, some c)) :
    hopGranted s p a err l pop = arriveAt x q d lane c := by
  unfold hopGranted
  rw [load]
  dsimp only
  rw [bridgePass_within hop die]
  dsimp only
  rw [if_pos grant, hopMsg, loadHop_takeGrant grant load hop0 die hop]
  dsimp only
  rw [link]

/-- A granted load that the next router discards is gone. -/
theorem hopGranted_lost {x : State} (link : linkCheck (sentFlits (pop (takeGrant s p a)) p l.flits) q d err l = (x, none)) :
    hopGranted s p a err l pop = x := by
  unfold hopGranted
  rw [load]
  dsimp only
  rw [bridgePass_within hop die]
  dsimp only
  rw [if_pos grant, hopMsg, loadHop_takeGrant grant load hop0 die hop]
  dsimp only
  rw [link]

end

/-! ## The receiver of a link (R168) -/

section
variable (s : State) (q : Nat) (d : Side) {m : Msg} {e : FlitError}

theorem linkCheck_payload (inside : e.flit.toNat < m.flits) (bad : badLanes (m.flit e.flit.toNat) e ≠ [])
    (safe : ∀ i ∈ badLanes (m.flit e.flit.toNat) e, e.flit.toNat = 0 → 2 ≤ i) :
    linkCheck s q d (some e) (.msg m) = (parityPayload s q, some ((Load.msg m).marred e true)) := by
  obtain ⟨i, hi⟩ := List.exists_mem_of_ne_nil _ bad
  have payload : (badLanes ((Load.msg m).flit e.flit.toNat) e).any (fun j => !(e.flit.toNat == 0 && decide (j < 2))) = true := by
    refine List.any_eq_true.mpr ⟨i, hi, ?_⟩
    have := safe i hi
    simp only [Bool.not_eq_true', Bool.and_eq_false_iff, beq_eq_false_iff_ne, decide_eq_false_iff_not]
    omega
  have header : (e.flit.toNat == 0 && (badLanes ((Load.msg m).flit e.flit.toNat) e).any (fun j => decide (j < 2))) = false := by
    rw [Bool.and_eq_false_iff]
    by_cases first : e.flit.toNat = 0
    · refine .inr (List.any_eq_false.mpr (fun j hj => ?_))
      have := safe j hj first
      simp only [decide_eq_true_eq]
      omega
    · exact .inl (beq_eq_false_iff_ne.mpr first)
  have some_bad : (!(badLanes ((Load.msg m).flit e.flit.toNat) e).isEmpty) = true := by
    rw [Bool.not_eq_true', List.isEmpty_eq_false_iff]
    exact bad
  have within : ¬ e.flit.toNat ≥ (Load.msg m).flits := Nat.not_le.mpr inside
  unfold linkCheck
  dsimp only
  rw [if_neg within, if_neg (by rw [header]; exact Bool.false_ne_true), if_pos payload, some_bad]

end

/-- A message that comes with flits in error carries their marks. -/
theorem marred_marks {m m1 : Msg} {e : FlitError} (h : (Load.msg m).marred e true = .msg m1) : e.flit.toNat ∈ m1.fp := by
  cases h
  exact (insNat_mem _ _ _).mpr (.inl rfl)

theorem parityPayload_leaves (s : State) (q : Nat) : ∃ o, (parityPayload s q).tile q = { s.tile q with
      once := o, regs := { (s.tile q).regs with parPayload := BitVec.ofNat 16 (satAdd 16 (s.tile q).regs.parPayload.toNat 1) } } ∧
    (∀ v, v ≠ q → (parityPayload s q).tile v = s.tile v) ∧ Only [.tiles, .log, .vectors] s (parityPayload s q) := by
  unfold parityPayload
  generalize hz : s.modTile q _ = z
  obtain ⟨o, self, others, only⟩ := routerOnce_leaves z q 0x3131 1 []
  have only' : Only [.tiles] s z := hz ▸ only_setTile s q _
  refine ⟨o, ?_, fun v hv => ?_, only_trans (only_mono (by simp) only') only⟩
  · rw [self, ← hz, tile_modTile_self]; rfl
  · rw [others v hv, ← hz, tile_modTile_other _ _ _ _ hv]

theorem parityHeader_leaves (s : State) (q : Nat) (l : Load) : (parityHeader s q l).tile q = { s.tile q with
      regs := { (s.tile q).regs with parHeader := BitVec.ofNat 16 (satAdd 16 (s.tile q).regs.parHeader.toNat 1) } } ∧
    (∀ v, v ≠ q → (parityHeader s q l).tile v = s.tile v) ∧ Only [.tiles, .log, .vectors] s (parityHeader s q l) := by
  unfold parityHeader
  refine ⟨by rw [tile_event, tile_modTile_self]; rfl, fun v hv => by rw [tile_event, tile_modTile_other _ _ _ _ hv], ?_⟩
  exact only_trans (only_mono (by simp) (only_setTile s q _)) (only_mono (by simp) (only_event _ _ _ _ _ _))

/-- Where no run is loaded, a detection replays none (R231). -/
theorem detect_idle {s : State} {q : Nat} (h : s.tileRun q = none) : detect s q = s := by
  rw [detect, h]

theorem tileRun_of {s t : State} {q : Nat} (sect : (t.tile q).sect = (s.tile q).sect) (runs : t.runs = s.runs) : t.tileRun q = s.tileRun q := by
  rw [State.tileRun, State.tileRun, State.run?, State.run?, sect, runs]

/-! ## The census of a message on its way (R223) -/

theorem here_of_regs {s t : State} (h : t.regs = s.regs) (m : Msg) : m.here t = m.here s := by
  have device : t.deviceId = s.deviceId := by unfold State.deviceId State.reg; rw [h]
  rw [Msg.here, Msg.here, device]

theorem spreads_of_regs {s t : State} (h : t.regs = s.regs) (p : Nat) (side : Side) (m : Msg) : spreads t p side m = spreads s p side m := by
  rw [spreads, spreads, here_of_regs h]

theorem countAt_census {s t : State} (hc : t.census = s.census) (hr : t.regs = s.regs) (p : Nat) (side : Side) (m : Msg) (d : Int) :
    (countAt t p side m d).census = (countAt s p side m d).census := by
  have tiles : tilesBeyond t p side m = tilesBeyond s p side m := by
    rw [tilesBeyond, tilesBeyond, spreads_of_regs hr, countedTiles_of_regs hr]
  rw [countAt, countAt, tiles]
  exact foldl_censusAdd_census hc m.gen d _

theorem countAt_whole {s : State} {p : Nat} {side : Side} {m : Msg} (h : spreads s p side m = false) (d : Int) :
    countAt s p side m d = s.count m d := by
  simp [countAt, tilesBeyond, h, State.count]

/-- A head flit in error in its header is counted, and its message discarded. -/
theorem linkCheck_header (s : State) (q : Nat) (d : Side) {m : Msg} {e : FlitError} (inside : e.flit.toNat < m.flits) (first : e.flit.toNat = 0)
    (bad : ∃ i ∈ badLanes (m.flit e.flit.toNat) e, i < 2) (idle : s.tileRun q = none) :
    ∃ x, linkCheck s q d (some e) (.msg m) = (x, none) ∧ Only [.tiles, .census, .log, .vectors] s x ∧
      (∀ v, (x.tile v).router = (s.tile v).router) ∧ x.census = (countAt s q d m (-1)).census ∧
      (x.tile q).regs.parHeader = BitVec.ofNat 16 (satAdd 16 (s.tile q).regs.parHeader.toNat 1) := by
  obtain ⟨i, hi, low⟩ := bad
  have header : (e.flit.toNat == 0 && (badLanes ((Load.msg m).flit e.flit.toNat) e).any (fun j => decide (j < 2))) = true := by
    rw [Bool.and_eq_true]
    exact ⟨beq_iff_eq.mpr first, List.any_eq_true.mpr ⟨i, hi, decide_eq_true low⟩⟩
  have within : ¬ e.flit.toNat ≥ (Load.msg m).flits := Nat.not_le.mpr inside
  unfold linkCheck
  dsimp only
  rw [if_neg within, if_pos header]
  generalize hs : ite ((List.any _ fun j => !(e.flit.toNat == 0 && decide (j < 2))) = true) (parityPayload s q) s = s1
  obtain ⟨tile1, others1, only1⟩ : (∃ o v, s1.tile q = { s.tile q with once := o, regs := { (s.tile q).regs with parPayload := v } }) ∧
      (∀ v, v ≠ q → s1.tile v = s.tile v) ∧ Only [.tiles, .log, .vectors] s s1 := by
    rw [← hs]
    split
    · obtain ⟨o, self, rest⟩ := parityPayload_leaves s q
      exact ⟨⟨o, _, self⟩, rest⟩
    · exact ⟨⟨(s.tile q).once, (s.tile q).regs.parPayload, rfl⟩, fun _ _ => rfl, only_refl _ s⟩
  obtain ⟨o, v, tile1⟩ := tile1
  obtain ⟨tile2, others2, only2⟩ := parityHeader_leaves s1 q (.msg m)
  generalize parityHeader s1 q (.msg m) = s2 at tile2 others2 only2 ⊢
  have only : Only [.tiles, .log, .vectors] s s2 := only_trans only1 only2
  have census := only_countAt s2 q d m (-1)
  have tile (v : Nat) : (countAt s2 q d m (-1)).tile v = s2.tile v := tile_of_only census (by decide) v
  have still : (countAt s2 q d m (-1)).tileRun q = none := by
    rw [tileRun_of (s := s) (by rw [tile, tile2, tile1]) ((census.2.2 .runs (by decide)).1.trans (only.2.2 .runs (by decide)).1), idle]
  refine ⟨countAt s2 q d m (-1), by rw [discardLoad, detect_idle still], only_trans (only_mono (by simp) only) (only_mono (by simp) census),
    fun v => ?_, countAt_census (only.2.2 .census (by decide)) (regs_of_only only (by decide)) q d m (-1), ?_⟩
  · rw [tile]
    by_cases hv : v = q
    · rw [hv, tile2, tile1]
    · rw [others2 v hv, others1 v hv]
  · rw [tile, tile2, tile1]

end Sys2Proof.FabricProofs
end

section
/-! SUPPORT. MESSAGE_HOP within a die, dike holds, and MULTICAST_SPREAD (R161, R168, R170, R180, R185). -/

namespace Sys2Proof.FabricProofs

open Sys2Proof.Machine Sys2Proof.Safety Sys2Proof.Laws Sys2Proof.TileProofs Sys2Proof.StoreProofs

/-! ## A head that leaves its router -/

/-- z follows s by the loss of the head of queue k of router p, sent on: no tile changes but by its router and counters. -/
structure Departed (s : State) (p k : Nat) (z : State) : Prop where
  only : Only [.tiles] s z
  self : z.rq p k = (s.rq p k).drop 1
  queues : ∀ v i, (v, i) ≠ (p, k) → z.rq v i = s.rq v i
  rest : ∀ v, { z.tile v with router := (s.tile v).router, ctrs := (s.tile v).ctrs } = s.tile v
  others : ∀ v, v ≠ p → z.tile v = s.tile v

theorem departed_of_grant {s : State} {p k : Nat} {m : Msg} {r : List Msg} (h : HeadOf s p k m r) (h2 : lane2Key k = false) (g : Assoc Nat)
    (n : Nat) :
    Departed s p k (sentFlits ((s.setTile p { s.tile p with router := { (s.tile p).router with granted := g } }).popRq p k) p n) := by
  generalize hx : s.setTile p { s.tile p with router := { (s.tile p).router with granted := g } } = x
  have queues (v i : Nat) : x.rq v i = s.rq v i := by
    rw [← hx]
    by_cases hv : v = p
    · rw [hv, rq_setTile_self]; rfl
    · rw [rq_setTile_other _ _ _ _ _ hv]
  have sorted : asorted (x.tile p).router.queues = true := by rw [← hx, tile_setTile_self]; exact h.sorted
  have only : Only [.tiles] s x := hx ▸ only_setTile s p _
  refine ⟨only_trans (only_trans only only_popRq) (only_setTile _ p _), ?_, fun v i hvi => ?_, fun v => ?_, fun v hv => ?_⟩
  · rw [rq_sentFlits, rq_popRq_self sorted h2, queues]
  · rw [rq_sentFlits, rq_popRq_other sorted h2 hvi, queues]
  · by_cases hv : v = p
    · rw [hv, sentFlits, State.bumpTile, tile_modTile_self, tile_popRq_self, ← hx, tile_setTile_self]; rfl
    · rw [sentFlits, State.bumpTile, tile_modTile_other _ _ _ _ hv, tile_popRq_other hv, ← hx, tile_setTile, if_neg hv]
  · rw [sentFlits, State.bumpTile, tile_modTile_other _ _ _ _ hv, tile_popRq_other hv, ← hx, tile_setTile, if_neg hv]

/-- MESSAGE_HOP at a head that does not spread. -/
theorem exec_messageHop {p : BitVec 11} {side : Side} {lane : BitVec 2} {s : State} {m : Msg} (hp : p.toNat < 1088)
    (head : headLoad s p.toNat side lane.toNat = some (.msg m)) (whole : spreads s p.toNat side m = false) (err : Option FlitError)
    (flips : Option Flips) :
    exec (.messageHop p side lane err flips) s = .next (done s (hopHead s p.toNat side lane.toNat err (.msg m))) := by
  simp only [exec, execMessageHop, head, loadSpreads, whole]
  rw [if_neg (by omega), if_neg (by omega), if_neg (by omega)]
  rfl

/-- A head that no dike holds, at a router that holds none, goes to the arbiters. -/
theorem hopHead_free {s : State} {p : Nat} {side : Side} {lane : Nat} {m : Msg} (none_held : (s.tile p).router.dike = [])
    (free : dikeHolds s p side m = false) (err : Option FlitError) :
    hopHead s p side lane err (.msg m) = hopGranted s p (.lane side lane) err (.msg m) (fun x => x.popRq p (qKey side lane)) := by
  simp [hopHead, atDike, free, none_held, releaseHead]

/-- A head of router p that the arbiters grant, and whose next router q in its die spills nothing. -/
structure Hops (s : State) (p : Nat) (side : Side) (lane : Nat) (m : Msg) (r : List Msg) (q : Nat) (d : Side) : Prop where
  head : HeadOf s p (qKey side lane) m r
  low : lane < 2
  grant : granted s p (.lane side lane) = true
  dike : (s.tile p).router.dike = []
  hop : nextHop s p m = .hop q d
  die : pDie q = pDie p
  apart : q ≠ p
  spill : (s.tile q).router.spill = []

section
variable {s : State} {p q lane : Nat} {side d : Side} {m : Msg} {r : List Msg} (h : Hops s p side lane m r q d)
include h

theorem headLoad_hops : headLoad s p side lane = some (.msg m) := by
  obtain ⟨e, asked⟩ := granted_asks h.grant
  obtain ⟨_, _, l, load, -, -, -⟩ := asks_load asked
  cases found : headLoad s p side lane with
  | none => simp [requesterLoad, found] at load
  | some x =>
    have own := headLoad_eq found
    rw [loadHead_msg (lane2Key_low side h.low) h.head.head] at own
    exact own.symm

theorem requesterLoad_hops : requesterLoad s p (.lane side lane) = some (side, lane, .msg m) := by
  simp [requesterLoad, headLoad_hops h]

theorem whole_hops : spreads s p side m = false := (granted_load h.grant (requesterLoad_hops h)).2.1

theorem free_hops : dikeHolds s p side m = false := (granted_load h.grant (requesterLoad_hops h)).2.2

theorem loadHop_hops : loadHop s p (.msg m) = .hop q d := h.hop

/-- The head leaves the router: the state of which the next router's check speaks. -/
theorem departed_hops : Departed s p (qKey side lane) (sentFlits ((takeGrant s p (.lane side lane)).popRq p (qKey side lane)) p m.flits) := by
  obtain ⟨g, e⟩ := takeGrant_within h.grant (requesterLoad_hops h) (loadHop_hops h) h.die
  rw [e]
  exact departed_of_grant h.head (lane2Key_low side h.low) g _

theorem lands_hops {err : Option FlitError} {x : State} {m1 : Msg} (hx : (x.tile q).router.spill = [])
    (link : linkCheck (sentFlits ((takeGrant s p (.lane side lane)).popRq p (qKey side lane)) p m.flits) q d err (.msg m) = (x, some (.msg m1))) :
    hopHead s p side lane err (.msg m) = x.pushRq q (qKey d lane) m1 := by
  rw [hopHead_free h.dike (free_hops h), hopGranted_lands h.grant (requesterLoad_hops h) (loadHop_hops h) h.die (loadHop_hops h) err _ link,
    arriveAt_unspilled hx]

theorem lost_hops {err : Option FlitError} {x : State}
    (link : linkCheck (sentFlits ((takeGrant s p (.lane side lane)).popRq p (qKey side lane)) p m.flits) q d err (.msg m) = (x, none)) :
    hopHead s p side lane err (.msg m) = x := by
  rw [hopHead_free h.dike (free_hops h), hopGranted_lost h.grant (requesterLoad_hops h) (loadHop_hops h) h.die (loadHop_hops h) err _ link]

end

/-- Queues after a head has left router p and a message has joined queue j of router q. -/
theorem rq_moved {s z : State} {p q k j : Nat} {m m1 : Msg} {r : List Msg} (dep : Departed s p k z) (head : s.rq p k = m :: r) (apart : q ≠ p)
    (hj : j < 15) : (z.pushRq q j m1).rq p k = r ∧ (z.pushRq q j m1).rq q j = s.rq q j ++ [m1] ∧
    ∀ v i, (v, i) ≠ (p, k) → (v, i) ≠ (q, j) → (z.pushRq q j m1).rq v i = s.rq v i := by
  have away : (p, k) ≠ (q, j) := fun e => apart (Prod.mk.inj e).1.symm
  refine ⟨?_, ?_, fun v i hp hq => ?_⟩
  · rw [rq_pushRq_other _ _ away, dep.self, head]; rfl
  · rw [rq_pushRq_self _ _ hj, dep.queues _ _ away.symm]
  · rw [rq_pushRq_other _ _ hq, dep.queues _ _ hp]

/-! ## The way within a die (R161) -/

/-- Within its die a message goes along x first, then along y. -/
theorem nextHop_inside {s : State} {p q : Nat} {m : Msg} {d : Side} (h : nextHop s p m = .hop q d) (here : m.here s = true)
    (copy : m.copy = none) (single : m.mcast = false) (row : m.dstY < 16) (die : m.dstDie = pDie p) :
    stepXY (pDie p) (pX p) (pY p) (pX (s.phys m.dstTile)) (pY (s.phys m.dstTile)) .tile = .hop q d := by
  have not_hub : (m.dstY == 17) = false := by rw [beq_eq_false_iff_ne]; omega
  have not_block : (m.dstY == 16) = false := by rw [beq_eq_false_iff_ne]; omega
  simp [nextHop, here, not_hub, not_block, aimOf, dieOf, copy, single, die, routeTo, Nat.not_le.mpr row] at h
  split_ifs at h
  exact h

/-! ## Multicast (R170) -/

/-- A copy of m goes from router p to a neighbour. -/
def copyTo (p lane : Nat) (m : Msg) (x : State) (e : Nat × Side) : State := arriveAt (sentFlits x p m.flits) e.1 e.2 lane (.msg m)

/-- What the copies of m leave, from router p to the neighbours in l. -/
structure Copied (p lane : Nat) (m : Msg) (l : List (Nat × Side)) (x t : State) : Prop where
  only : Only [.tiles] x t
  there : ∀ e ∈ l, t.rq e.1 (qKey e.2 lane) = x.rq e.1 (qKey e.2 lane) ++ [m]
  queues : ∀ v i, (∀ e ∈ l, (v, i) ≠ (e.1, qKey e.2 lane)) → t.rq v i = x.rq v i
  own : (t.tile p).router = (x.tile p).router

theorem copyTo_pushRq {p lane : Nat} {m : Msg} {x : State} {e : Nat × Side} (spill : (x.tile e.1).router.spill = []) :
    copyTo p lane m x e = (sentFlits x p m.flits).pushRq e.1 (qKey e.2 lane) m :=
  arriveAt_unspilled (by rw [router_sentFlits]; exact spill) _ _ _

theorem copied_foldl {p lane : Nat} {m : Msg} (low : lane < 2) (l : List (Nat × Side)) (distinct : l.Pairwise (fun a b => a.1 ≠ b.1)) (x : State)
    (open_ : ∀ e ∈ l, (x.tile e.1).router.spill = [] ∧ e.1 ≠ p ∧ e.2 ≠ .node) : Copied p lane m l x (l.foldl (copyTo p lane m) x) := by
  induction l generalizing x with
  | nil => exact ⟨only_refl _ x, fun _ h => absurd h List.not_mem_nil, fun _ _ _ => rfl, rfl⟩
  | cons e l ih =>
    obtain ⟨first, rest⟩ := List.pairwise_cons.mp distinct
    obtain ⟨spill, apart, side⟩ := open_ e List.mem_cons_self
    have step := copyTo_pushRq (p := p) (lane := lane) (m := m) spill
    have sent (v i : Nat) : (sentFlits x p m.flits).rq v i = x.rq v i := rq_sentFlits x p _ v i
    obtain ⟨only, there, queues, own⟩ := ih rest (copyTo p lane m x e) (fun a ha => by
      obtain ⟨spill, away⟩ := open_ a (List.mem_cons_of_mem e ha)
      exact ⟨by rw [step, spill_pushRq, router_sentFlits]; exact spill, away⟩)
    have apart_key {a : Nat × Side} (ha : a ∈ l) : (e.1, qKey e.2 lane) ≠ (a.1, qKey a.2 lane) := fun h => first a ha (Prod.mk.inj h).1
    refine ⟨?_, fun a ha => ?_, fun v i hvi => ?_, ?_⟩
    · refine only_trans ?_ only
      rw [step]
      exact only_trans (only_setTile x p _) (only_pushRq _ _)
    · rcases List.mem_cons.mp ha with rfl | ha
      · rw [List.foldl_cons, queues _ _ (fun b hb => apart_key hb), step, rq_pushRq_self _ _ (qKey_lt side (by omega)), sent]
      · rw [List.foldl_cons, there a ha, step, rq_pushRq_other _ _ (apart_key ha).symm, sent]
    · rw [List.foldl_cons, queues v i (fun a ha => hvi a (List.mem_cons_of_mem e ha)), step,
        rq_pushRq_other _ _ (hvi e List.mem_cons_self), sent]
    · rw [List.foldl_cons, own, step, tile_pushRq_other _ _ (Ne.symm apart), router_sentFlits]

/-- The neighbours that a multicast spreads to receive it from the north or the west. -/
theorem spreadTo_side {p : Nat} {m : Msg} {e : Nat × Side} (h : e ∈ spreadTo p m) : e.2 ≠ .node := by
  unfold spreadTo at h
  simp only [List.mem_append] at h
  rcases h with h | h <;> split at h <;> simp at h <;> rw [h] <;> simp

section
variable {s : State} {p lane : Nat} {m : Msg} (spills : ∀ e ∈ spreadTo p m, (s.tile e.1).router.spill = [])
include spills

/-- With room at every neighbour, each receives a copy, and one stays for this place. -/
theorem spreadMsg_room (room : ∀ e ∈ spreadTo p m, laneRoom ((s.tile e.1).router.held (qKey e.2 lane)) m.flits = true) :
    spreadMsg s p lane m none none =
      ((spreadTo p m).foldl (copyTo p lane m) s, some { m with copy := some (lOf (pDie p) (pX p) (pY p)) }) := by
  have all : (spreadTo p m).all (fun e => inputRoom s e.1 e.2 lane m.flits) = true :=
    List.all_eq_true.mpr (fun e he => by rw [inputRoom_unspilled (spills e he)]; exact room e he)
  unfold spreadMsg
  dsimp only
  rw [if_pos all]
  refine Prod.ext ?_ rfl
  show List.foldl _ s _ = List.foldl _ s _
  congr 1
  funext x ⟨v, side⟩
  cases side <;> rfl

/-- Without room at one neighbour, none receives a copy. -/
theorem spreadMsg_blocked (full : ∃ e ∈ spreadTo p m, laneRoom ((s.tile e.1).router.held (qKey e.2 lane)) m.flits = false) :
    spreadMsg s p lane m none none = (s, none) := by
  obtain ⟨e, he, full⟩ := full
  have blocked : ¬ (spreadTo p m).all (fun e => inputRoom s e.1 e.2 lane m.flits) = true := by
    intro h
    have := List.all_eq_true.mp h e he
    rw [inputRoom_unspilled (spills e he), full] at this
    cases this
  have stays (l : List (Nat × Side)) (hl : ∀ e ∈ l, (s.tile e.1).router.spill = []) :
      l.foldl (fun x e => if inputRoom s e.1 e.2 lane m.flits then x else refusedAt x e.1 e.2 lane m.flits) s = s := by
    induction l with
    | nil => rfl
    | cons a l ih =>
      rw [List.foldl_cons, refusedAt_unspilled (hl a List.mem_cons_self), ite_self]
      exact ih (fun b hb => hl b (List.mem_cons_of_mem a hb))
  unfold spreadMsg
  dsimp only
  rw [if_neg blocked, stays _ spills]

end

/-- MULTICAST_SPREAD at a head that no dike holds. -/
theorem exec_multicastSpread {p : BitVec 11} {side : Side} {lane : BitVec 2} {s x : State} {m : Msg} {o : Option Msg}
    (head : headLoad s p.toNat side lane.toNat = some (.msg m)) (spreads_ : spreads s p.toNat side m = true)
    (dike : (s.tile p.toNat).router.dike = []) (open_ : ∀ e ∈ spreadTo p.toNat m, s.diked e.1 = false)
    (sent : spreadMsg s p.toNat lane.toNat m none none = (x, o)) :
    exec (.multicastSpread p side lane none none) s = .next (done s (o.elim x (x.setHead p.toNat (qKey side lane.toNat)))) := by
  have free : dikeHolds s p.toNat side m = false := by
    have none_diked : (spreadTo p.toNat m).any (fun e => s.diked e.1) = false :=
      List.any_eq_false.mpr (fun e he => by rw [open_ e he]; exact Bool.false_ne_true)
    simp [dikeHolds, spreads_, spreadHeld, none_diked]
  simp only [exec, execMulticastSpread, laneHead, head, spreads_, atDike, free, dike, releaseHead, if_true, Bool.false_eq_true, if_false,
    List.contains_nil, Bool.false_and, sent]
  cases o <;> rfl

/-! ## A head that becomes another message -/

/-- The first element of a kind is written, and stays of the kind. -/
theorem filter_modify_findIdx_self {α : Type} (f : α → Bool) (g : α → α) (hg : ∀ a, f (g a) = true) (l : List α) :
    (l.modify (l.findIdx f) g).filter f = (l.filter f).modifyHead g := by
  induction l with
  | nil => rfl
  | cons a l ih =>
    cases h : f a with
    | true => simp [List.findIdx_cons, h, hg]
    | false => simp [List.findIdx_cons, h, ih]

theorem filter_modify_findIdx_other {α : Type} (f h : α → Bool) (g : α → α) (hg : ∀ a, h (g a) = false) (hf : ∀ a, f a = true → h a = false)
    (l : List α) : (l.modify (l.findIdx f) g).filter h = l.filter h := by
  induction l with
  | nil => rfl
  | cons a l ih =>
    cases ha : f a with
    | true => simp [List.findIdx_cons, ha, hg, hf a ha]
    | false => simp [List.findIdx_cons, ha, List.filter_cons, ih]

section
variable {r : Router} {k : Nat} {m m1 : Msg} {l : List Msg} (h : r.q k = m :: l) (kind : m1.kind = m.kind)
include h kind

/-- What the tree node has to send in a lane is of the kinds of that lane. -/
theorem kindLane_of_node (hk : ¬ k < 15) : kindLane m1.kind = k - 15 := by
  rw [Router.q, if_neg hk, Router.nodeLane] at h
  have mem : m ∈ (r.nodeOut.filter (fun e => kindLane e.2.kind == k - 15)).map (·.2) := by rw [h]; exact List.mem_cons_self
  obtain ⟨e, he, rfl⟩ := List.mem_map.mp mem
  rw [kind]
  exact beq_iff_eq.mp (List.mem_filter.mp he).2

theorem q_setHead_self : (r.setHead k m1).q k = m1 :: l := by
  by_cases hk : k < 15
  · rw [Router.setHead, if_pos hk, h]
    simp [Router.setQ, Router.q, hk]
  · have lane := kindLane_of_node h kind hk
    rw [Router.q, if_neg hk, Router.nodeLane] at h
    rw [Router.setHead, if_neg hk, Router.q, if_neg hk, Router.nodeLane]
    dsimp only
    rw [filter_modify_findIdx_self (fun e : Nat × Msg => kindLane e.2.kind == k - 15) (fun e => (e.1, m1)) (fun _ => by simp [lane])]
    revert h
    cases r.nodeOut.filter (fun e => kindLane e.2.kind == k - 15) with
    | nil => simp
    | cons e es => simp

theorem q_setHead_other {j : Nat} (hj : j ≠ k) : (r.setHead k m1).q j = r.q j := by
  by_cases hk : k < 15
  · rw [Router.setHead, if_pos hk]
    by_cases low : j < 15
    · simp [Router.setQ, Router.q, low, agetD_aput_other _ _ _ _ _ hj]
    · simp [Router.setQ, Router.q, low, Router.nodeLane]
  · have lane := kindLane_of_node h kind hk
    rw [Router.setHead, if_neg hk]
    by_cases low : j < 15
    · simp [Router.q, low]
    · have apart : k - 15 ≠ j - 15 := by omega
      rw [Router.q, if_neg low, Router.nodeLane, Router.q, if_neg low, Router.nodeLane]
      dsimp only
      rw [filter_modify_findIdx_other]
      · intro e
        rw [lane]
        exact beq_eq_false_iff_ne.mpr apart
      · intro e he
        rw [beq_iff_eq.mp he]
        exact beq_eq_false_iff_ne.mpr apart

end

end Sys2Proof.FabricProofs
end

section
/-! PROOFS. Messages leave a tile, hop from router to router, and spread (R39, R161, R164, R166, R168, R170, R180, R185, R223). Settles O45. -/

namespace Sys2Proof.FabricProofs

open Sys2Proof.Machine Sys2Proof.Safety Sys2Proof.Laws Sys2Proof.TileProofs Sys2Proof.StoreProofs

/-! ## Egress -/

/-- The state after the message m1 of tile n, on p, has left the egress list, which s2 holds without it. -/
def egressed (s : State) (n p : Nat) (m1 : Msg) (s2 : State) : State :=
  if malformed s m1 then dropMalformed s2 p m1
  else if inTile s n m1 then
    (match deliverMsg s2 p m1 with
     | .placed z => z.noteProgress p
     | .dropped z => z
     | .waits z => z)
  else (s2.count m1 1).pushRq p (qKey .tile (kindLane m1.kind)) m1

/-- The first message of the egress list leaves when it is dropped, or finds room on its way. -/
theorem egressPick_first {s : State} {n : Nat} {takes : Nat → Msg → Bool} {u : Nat} {m : Msg} {r : List (Nat × Msg)}
    (leaves : (malformed s (egressMsg s n u m) || (if egressPath s n u m == 3 then takes u m
      else laneRoom ((s.tile (s.phys n)).router.held (qKey .tile (kindLane m.kind))) m.flits)) = true) :
    egressPick s n takes ((u, m) :: r) = some 0 := by
  simp only [egressPick, List.length_cons, List.range_succ_eq_map, List.find?_cons, List.getElem?_cons_zero, List.take_zero, egressBehind,
    List.any_nil, Bool.not_false, Bool.true_and, leaves]

theorem meet_nothing (s : State) (p : Nat) : meet s p none [] = (s, true) := by
  have none_read : (s.host.hostLines.map (·.1)).filter (fun g => g / 2 ^ 18 == p && touches [] (g % 2 ^ 18)) = [] := by
    simp [touches]
  have local_ : localRead s p [] = none := by
    have : (s.tile p).localList.find? (fun w => touches [] w && !inInput (s.tile p) w) = none := by simp [touches]
    rw [localRead, this]
  unfold meet
  rw [none_read]
  simp only [State.backInv, List.foldl_nil, local_]

section
variable {n : BitVec 10} {s : State} {p u : Nat} {m : Msg} {r : List (Nat × Msg)} (hn : n.toNat < s.ntiles) (hp : s.phys n.toNat = p)
  (he : (s.tile p).egress = (u, m) :: r) (idle : (s.tile p).sect.loading = false)
include hn hp he idle

theorem exec_messageEgress (leaves : (malformed s (egressMsg s n.toNat u m) || (if egressPath s n.toNat u m == 3
      then !(deliverMsg s p (egressMsg s n.toNat u m)).isWaiting
      else laneRoom ((s.tile p).router.held (qKey .tile (kindLane m.kind))) m.flits)) = true) :
    exec (.messageEgress n none) s = .next (done s (settle (finishSent
      (egressed s n.toNat p (egressMsg s n.toNat u m) (s.setTile p { s.tile p with egress := r })) p u) p)) := by
  subst hp
  have pick := egressPick_first (r := r) (takes := fun u m => !(deliverMsg s (s.phys n.toNat) (egressMsg s n.toNat u m)).isWaiting) leaves
  simp only [exec, execMessageEgress, hn, idle, he, pick, meet_nothing, List.getElem?_cons_zero, decide_true, Bool.not_false, Bool.and_self,
    if_true, Bool.not_true, Bool.false_eq_true, if_false]
  rw [modTile_eq_setTile, he]
  rfl

end

/-- With no operation waiting for its last message, none completes. -/
theorem finishSent_none {s : State} {p u : Nat} (h : ∀ op l, (s.tile p).queue u = op :: l → op.out = none) : finishSent s p u = s := by
  unfold finishSent
  split
  · next op l queue => rw [h op l queue]
  · rfl

/-- Units may have finished. -/
theorem settle_leaves (s : State) (p : Nat) : ∃ f, (settle s p).tile p = { s.tile p with finished := f } ∧
    (∀ q, q ≠ p → (settle s p).tile q = s.tile q) ∧ Only [.tiles] s (settle s p) := by
  unfold settle
  refine ite_prop (P := fun x : State => ∃ f, x.tile p = { s.tile p with finished := f } ∧ (∀ q, q ≠ p → x.tile q = s.tile q) ∧
    Only [.tiles] s x) (fun _ => ?_) (fun _ => ⟨(s.tile p).finished, rfl, fun _ _ => rfl, only_refl _ s⟩)
  exact ⟨(Tile.finish (s.tile p)).finished, by rw [tile_modTile_self]; rfl, fun q hq => tile_modTile_other _ _ _ _ hq, only_setTile s p _⟩

/-- The end of egress: what the message's departure left in z stands, but for units that have finished. -/
theorem egress_ends {s z : State} {p u : Nat} {l : List Kind} (hr : s.stopped = false) (hc : s.mem.wf = true) (only : Only (.tiles :: l) s z)
    (hl : Kind.mem ∉ l) (queue : (z.tile p).queue u = (s.tile p).queue u)
    (free : ∀ op r, (s.tile p).queue u = op :: r → op.out = none) :
    ∃ t f, done s (settle (finishSent z p u) p) = t ∧ t.tile p = { z.tile p with finished := f } ∧ (∀ q, q ≠ p → t.tile q = z.tile q) ∧
      t.census = z.census ∧ Only (.tiles :: l) s t := by
  obtain ⟨f, self, others, same⟩ := settle_leaves z p
  have whole : Only (.tiles :: l) s (settle z p) := only_trans only (only_mono (by simp) same)
  refine ⟨settle z p, f, ?_, self, others, same.2.2 .census (by decide), whole⟩
  rw [finishSent_none (by rw [queue]; exact free)]
  exact done_only hr hc whole (by simpa using hl)

section
variable {n : BitVec 10} {s : State} {p u : Nat} {m : Msg} {r : List (Nat × Msg)} (hc : Canonical s) (hr : Runs s) (hn : n.toNat < s.ntiles)
  (hp : s.phys n.toNat = p) (he : (s.tile p).egress = (u, m) :: r) (free : ∀ op l, (s.tile p).queue u = op :: l → op.out = none)
  (idle : (s.tile p).sect.loading = false)
include hc hr hn hp he free idle

/-- A message enters the local input of its router. -/
theorem egress_enters (kind : kindLane (egressMsg s n.toNat u m).kind = kindLane m.kind) (formed : malformed s (egressMsg s n.toNat u m) = false)
    (out : inTile s n.toNat (egressMsg s n.toNat u m) = false)
    (room : laneRoom ((s.tile p).router.held (qKey .tile (kindLane m.kind))) m.flits = true) :
    ∃ t, exec (.messageEgress n none) s = .next t ∧ Only [.tiles, .census] s t ∧
      QueueBecomes s t p (qKey .tile (kindLane m.kind)) (s.rq p (qKey .tile (kindLane m.kind)) ++ [egressMsg s n.toNat u m]) ∧
      (t.tile p).egress = r ∧ t.census = (s.count (egressMsg s n.toNat u m) 1).census ∧ ∀ q, q ≠ p → t.tile q = s.tile q := by
  generalize hm : egressMsg s n.toNat u m = m1 at *
  have lane : kindLane m.kind < 2 := by unfold kindLane; split <;> decide
  have path : (egressPath s n.toNat u m == 3) = false := by
    rw [egressPath, hm, out, if_neg Bool.false_ne_true, beq_eq_false_iff_ne]; omega
  have ran := exec_messageEgress hn hp he idle (by rw [path, hm, formed]; exact room)
  generalize hy : { s.tile p with egress := r } = y at ran
  rw [hm, egressed, formed, out, kind] at ran
  simp only [Bool.false_eq_true, if_false] at ran
  generalize hk : qKey .tile (kindLane m.kind) = k at *
  have low : k < 15 := hk ▸ qKey_lt (by decide) (by omega)
  generalize hz : (s.setTile p y).count m1 1 = z at ran
  have tile (q : Nat) : z.tile q = (s.setTile p y).tile q := by rw [← hz, tile_count]
  have self : z.tile p = y := by rw [tile, tile_setTile_self]
  have only : Only [.tiles, .census] s z :=
    only_trans (only_mono (by simp) (only_setTile s p y)) (only_mono (by simp) (hz ▸ only_count (s.setTile p y) m1 1))
  have pushed : Only [.tiles, .census] s (z.pushRq p k m1) := only_trans only (only_mono (by simp) (only_pushRq z m1))
  obtain ⟨t, f, ended, self', others', census', only'⟩ := egress_ends (u := u) hr hc pushed (by decide)
    (by rw [tile_pushRq_self, self, ← hy]; rfl) free
  have router : (t.tile p).router = ((z.pushRq p k m1).tile p).router := by rw [self']
  have elsewhere (q : Nat) (hq : q ≠ p) : t.tile q = s.tile q := by
    rw [others' q hq, tile_pushRq_other _ _ hq, tile, tile_setTile, if_neg hq]
  have rq_z (i : Nat) : z.rq p i = s.rq p i := by rw [State.rq, self, ← hy]; rfl
  refine ⟨t, by rw [ran, ended], only', ⟨?_, fun q j hqj => ?_, fun q => ?_, fun q _ => ?_⟩, ?_, ?_, elsewhere⟩
  · rw [rq_of_router router, rq_pushRq_self _ _ low, rq_z]
  · by_cases hq : q = p
    · subst hq
      have hj : j ≠ k := hqj.resolve_left (fun h => h rfl)
      rw [rq_of_router router, rq_pushRq_other _ _ (by simpa using hj), rq_z]
    · rw [State.rq, elsewhere q hq, State.rq]
  · by_cases hq : q = p
    · rw [hq, router, tile_pushRq_self, self, ← hy]; exact ⟨rfl, rfl⟩
    · rw [elsewhere q hq]; exact ⟨rfl, rfl⟩
  · by_cases hq : q = p
    · rw [hq, router, tile_pushRq_self, self, ← hy]; rfl
    · rw [elsewhere q hq]
  · rw [self', tile_pushRq_self, self, ← hy]
  · rw [census']
    show z.census = _
    rw [← hz]
    exact count_census (s := s) (t := s.setTile p y) rfl rfl m1 1

/-- A malformed message is dropped and counted. -/
theorem egress_malformed (bad : malformed s (egressMsg s n.toNat u m) = true) :
    ∃ t, exec (.messageEgress n none) s = .next t ∧ Only [.tiles, .log, .vectors] s t ∧ (∀ q j, t.rq q j = s.rq q j) ∧
      (t.tile p).egress = r ∧ (t.tile p).regs.malformed = sat32 (s.tile p).regs.malformed 1 ∧ ∀ q, q ≠ p → t.tile q = s.tile q := by
  have ran := exec_messageEgress hn hp he idle (by rw [bad]; rfl)
  rw [egressed, if_pos bad, dropMalformed, modTile_setTile] at ran
  generalize hy : Tile.modRegs _ _ = y at ran
  obtain ⟨o, self, others, only⟩ := routerOnce_leaves (s.setTile p y) p 0x3133 1 (hdrDetail (egressMsg s n.toNat u m).hdr)
  generalize routerOnce _ p 0x3133 1 _ = z at ran self others only
  rw [tile_setTile_self] at self
  obtain ⟨t, f, ended, self', others', -, only'⟩ := egress_ends (u := u) hr hc
    (only_trans (only_mono (by simp) (only_setTile s p y)) only) (by decide) (by rw [self, ← hy]; rfl) free
  have elsewhere (q : Nat) (hq : q ≠ p) : t.tile q = s.tile q := by rw [others' q hq, others q hq, tile_setTile, if_neg hq]
  refine ⟨t, by rw [ran, ended], only', fun q j => ?_, ?_, ?_, elsewhere⟩
  · by_cases hq : q = p
    · rw [hq, State.rq, self', self, ← hy]; rfl
    · rw [State.rq, elsewhere q hq, State.rq]
  · rw [self', self, ← hy]; rfl
  · rw [self', self, ← hy]; rfl

/-- A message for a port of its own tile is placed there. -/
theorem egress_placed (formed : malformed s (egressMsg s n.toNat u m) = false) (own : inTile s n.toNat (egressMsg s n.toNat u m) = true)
    (open_ : firewalled s (egressMsg s n.toNat u m) (egressMsg s n.toNat u m).dstTile = false)
    (taken : isOrphan (s.tile p) (egressMsg s n.toNat u m) = false) (gen : (egressMsg s n.toNat u m).gen = (s.tile p).sect.gen.toNat)
    (takes : FifoTakes (s.tile p) (egressMsg s n.toNat u m).dstUnit (egressMsg s n.toNat u m).dstPort (egressMsg s n.toNat u m)) :
    ∃ t f g, exec (.messageEgress n none) s = .next t ∧ Only [.tiles] s t ∧ (∀ q, q ≠ p → t.tile q = s.tile q) ∧
      t.tile p = { (s.tile p).setPort (egressMsg s n.toNat u m).dstUnit (egressMsg s n.toNat u m).dstPort
        (portTook ((s.tile p).port (egressMsg s n.toNat u m).dstUnit (egressMsg s n.toNat u m).dstPort) (egressMsg s n.toNat u m)) with
        egress := r, progress := g, finished := f } := by
  generalize hm : egressMsg s n.toNat u m = m1 at *
  have path : (egressPath s n.toNat u m == 3) = true := by rw [egressPath, hm, own]; rfl
  have now : deliverMsg s p m1 = _ := (deliver_passes open_ taken gen).trans (placeMsg_fits takes)
  have ran := exec_messageEgress hn hp he idle (by rw [path, hm, formed, now]; rfl)
  generalize hy : { s.tile p with egress := r } = y at ran
  have later : deliverMsg (s.setTile p y) p m1 = _ := (deliver_passes (s := s.setTile p y) open_ (by rw [tile_setTile_self, ← hy]; exact taken)
    (by rw [tile_setTile_self, ← hy]; exact gen)).trans (placeMsg_fits (by
      rw [tile_setTile_self, ← hy]; exact ⟨takes.unit, takes.spilled, takes.basin, takes.room⟩))
  generalize hw : ({ y.setPort m1.dstUnit m1.dstPort (portTook (y.port m1.dstUnit m1.dstPort) m1) with progress := s.clk } : Tile) = w
  have placed : egressed s n.toNat p m1 (s.setTile p y) = s.setTile p w := by
    rw [egressed, formed, own, later, tile_setTile_self, setTile_setTile, if_neg Bool.false_ne_true, if_pos rfl, ← hw]
    exact modTile_setTile s p (y.setPort m1.dstUnit m1.dstPort (portTook (y.port m1.dstUnit m1.dstPort) m1)) _
  rw [hm, placed] at ran
  obtain ⟨t, f, ended, self, others, -, only⟩ := egress_ends (u := u) hr hc (only_setTile s p w) List.not_mem_nil
    (by rw [tile_setTile_self, ← hw, ← hy]; rfl) free
  refine ⟨t, f, s.clk, by rw [ran, ended], only, fun q hq => by rw [others q hq, tile_setTile, if_neg hq], ?_⟩
  rw [self, tile_setTile_self, ← hw, ← hy]
  rfl

end

/-- A tile whose section is being switched emits nothing. -/
theorem egress_loading {n : BitVec 10} {s : State} {p : Nat} (hc : Canonical s) (hr : Runs s) (hp : s.phys n.toNat = p)
    (loading : (s.tile p).sect.loading = true) : exec (.messageEgress n none) s = .next s := by
  subst hp
  simp [exec, execMessageEgress, loading, done_idle hr hc]

/-! ## Hops -/

section
variable {p : BitVec 11} {side d : Side} {lane : BitVec 2} {s : State} {m : Msg} {r : List Msg} {q : Nat}
  (h : Hops s p.toNat side lane.toNat m r q d) (hp : p.toNat < 1088)
include h hp

theorem exec_hop (err : Option FlitError) (flips : Option Flips) :
    exec (.messageHop p side lane err flips) s = .next (done s (hopHead s p.toNat side lane.toNat err (.msg m))) :=
  exec_messageHop hp (headLoad_hops h) (whole_hops h) err flips

/-- A granted head moves to the next router. -/
theorem hop_clean : ∃ t, exec (.messageHop p side lane none none) s = .next t ∧ Only [.tiles] s t ∧
    t.rq p.toNat (qKey side lane.toNat) = r ∧ t.rq q (qKey d lane.toNat) = s.rq q (qKey d lane.toNat) ++ [m] ∧
    (∀ v i, (v, i) ≠ (p.toNat, qKey side lane.toNat) → (v, i) ≠ (q, qKey d lane.toNat) → t.rq v i = s.rq v i) ∧
    ∀ v, { t.tile v with router := (s.tile v).router, ctrs := (s.tile v).ctrs } = s.tile v := by
  have dep := departed_hops h
  have lands := lands_hops h (err := none) (by rw [dep.others q h.apart]; exact h.spill) rfl
  generalize sentFlits _ p.toNat m.flits = z at dep lands
  have only : Only [.tiles] s (z.pushRq q (qKey d lane.toNat) m) := only_trans dep.only (only_pushRq z m)
  obtain ⟨left, joined, others⟩ := rq_moved (m1 := m) dep h.head.head h.apart (qKey_lt (nextHop_side h.hop) (Nat.lt_succ_of_lt h.low))
  refine ⟨_, by rw [exec_hop h hp, lands, done_only h.head.runs h.head.canonical only (by decide)], only, left, joined, others, fun v => ?_⟩
  by_cases hv : v = q
  · rw [hv, tile_pushRq_self]; exact dep.rest q
  · rw [tile_pushRq_other _ _ hv]; exact dep.rest v

section
variable {e : FlitError} (inside : e.flit.toNat < m.flits)
include inside

/-- A parity error in the payload of a message is counted, and its flit marked. -/
theorem hop_payload {m1 : Msg} (bad : badLanes (m.flit e.flit.toNat) e ≠ [])
    (safe : ∀ i ∈ badLanes (m.flit e.flit.toNat) e, e.flit.toNat = 0 → 2 ≤ i) (marred : (Load.msg m).marred e true = .msg m1) :
    ∃ t, exec (.messageHop p side lane (some e) none) s = .next t ∧ Only [.tiles, .log, .vectors] s t ∧
      t.rq p.toNat (qKey side lane.toNat) = r ∧ t.rq q (qKey d lane.toNat) = s.rq q (qKey d lane.toNat) ++ [m1] ∧ e.flit.toNat ∈ m1.fp ∧
      (t.tile q).regs.parPayload = BitVec.ofNat 16 (satAdd 16 (s.tile q).regs.parPayload.toNat 1) := by
  have dep := departed_hops h
  have link (z : State) := linkCheck_payload z q d inside bad safe
  rw [marred] at link
  have lands {x : State} (hx : (x.tile q).router.spill = []) := lands_hops h (err := some e) (x := x) (m1 := m1) hx
  generalize sentFlits _ p.toNat m.flits = z at dep lands
  obtain ⟨o, self, others, same⟩ := parityPayload_leaves z q
  have ran := lands (by rw [self, dep.others q h.apart]; exact h.spill) (link z)
  generalize parityPayload z q = x at self others same ran
  have router (v : Nat) : (x.tile v).router = (z.tile v).router := by
    by_cases hv : v = q
    · rw [hv, self]
    · rw [others v hv]
  have only : Only [.tiles, .log, .vectors] s (x.pushRq q (qKey d lane.toNat) m1) :=
    only_trans (only_mono (by simp) dep.only) (only_trans same (only_mono (by simp) (only_pushRq x m1)))
  have away : (p.toNat, qKey side lane.toNat) ≠ (q, qKey d lane.toNat) := fun e => h.apart (Prod.mk.inj e).1.symm
  refine ⟨_, by rw [exec_hop h hp, ran, done_only h.head.runs h.head.canonical only (by decide)], only, ?_, ?_, marred_marks marred, ?_⟩
  · rw [rq_pushRq_other _ _ away, rq_of_router (router _), dep.self, h.head.head]; rfl
  · rw [rq_pushRq_self _ _ (qKey_lt (nextHop_side h.hop) (Nat.lt_succ_of_lt h.low)), rq_of_router (router _), dep.queues _ _ away.symm]
  · rw [tile_pushRq_self, self, dep.others q h.apart]

/-- A parity error in the header of a message is counted, and the message discarded. -/
theorem hop_header (bad : ∃ i ∈ badLanes (m.flit e.flit.toNat) e, i < 2) (first : e.flit.toNat = 0) (idle : s.tileRun q = none) :
    ∃ t, exec (.messageHop p side lane (some e) none) s = .next t ∧ Only [.tiles, .census, .log, .vectors] s t ∧
      t.rq p.toNat (qKey side lane.toNat) = r ∧ t.rq q (qKey d lane.toNat) = s.rq q (qKey d lane.toNat) ∧
      t.census = (countAt s q d m (-1)).census ∧
      (t.tile q).regs.parHeader = BitVec.ofNat 16 (satAdd 16 (s.tile q).regs.parHeader.toNat 1) := by
  have dep := departed_hops h
  have lost {x : State} := lost_hops h (err := some e) (x := x)
  generalize sentFlits _ p.toNat m.flits = z at dep lost
  have still : z.tileRun q = none := by
    rw [tileRun_of (s := s) (by rw [dep.others q h.apart]) (dep.only.2.2 .runs (by decide)).1, idle]
  obtain ⟨x, link, same, router, census, header⟩ := linkCheck_header z q d inside first bad still
  have only : Only [.tiles, .census, .log, .vectors] s x := only_trans (only_mono (by simp) dep.only) same
  have away : (q, qKey d lane.toNat) ≠ (p.toNat, qKey side lane.toNat) := fun e => h.apart (Prod.mk.inj e).1
  refine ⟨x, by rw [exec_hop h hp, lost link, done_only h.head.runs h.head.canonical only (by decide)], only, ?_, ?_, ?_, ?_⟩
  · rw [rq_of_router (router _), dep.self, h.head.head]; rfl
  · rw [rq_of_router (router _), dep.queues _ _ away]
  · rw [census]
    exact countAt_census (dep.only.2.2 .census (by decide)) (regs_of_only dep.only (by decide)) q d m (-1)
  · rw [header, dep.others q h.apart]

end

end

/-- One step along x, then along y. -/
theorem stepXY_hop {die x y tx ty q : Nat} {d : Side} (h : stepXY die x y tx ty .tile = .hop q d) :
    (x < tx → q = pOf die (x + 1) y ∧ d = .west) ∧ (tx < x → q = pOf die (x - 1) y ∧ d = .east) ∧
    (tx = x → y < ty → q = pOf die x (y + 1) ∧ d = .north) ∧ (tx = x → ty < y → q = pOf die x (y - 1) ∧ d = .south) := by
  have sides {a : Nat} {b : Side} (e : Hop.hop a b = .hop q d) : q = a ∧ d = b := by cases e; exact ⟨rfl, rfl⟩
  unfold stepXY stepEast stepWest stepSouth stepNorth at h
  refine ⟨fun east => ?_, fun west => ?_, fun col south => ?_, fun col north => ?_⟩
  · rw [if_pos east] at h
    exact sides h
  · rw [if_neg (Nat.lt_asymm west), if_pos west] at h
    exact sides h
  · rw [if_neg (by omega), if_neg (by omega), if_pos south] at h
    exact sides h
  · rw [if_neg (by omega), if_neg (by omega), if_neg (by omega), if_pos north] at h
    exact sides h

/-! ## Dikes -/

/-- The head that a dike must hold is held, and its message leaves the census. -/
theorem hop_held {p : BitVec 11} {side : Side} {lane : BitVec 2} {s : State} {m : Msg} {r : List Msg}
    (head : HeadOf s p.toNat (qKey side lane.toNat) m r) (hp : p.toNat < 1088) (low : lane.toNat < 2) (whole : spreads s p.toNat side m = false)
    (held : dikeHolds s p.toNat side m = true) (dike : (s.tile p.toNat).router.dike = []) (spill : (s.tile p.toNat).router.spill = [])
    (err : Option FlitError) :
    ∃ t, exec (.messageHop p side lane err none) s = .next t ∧ Only [.tiles, .census] s t ∧ t.census = (s.count m (-1)).census ∧
      (t.tile p.toNat).router = { (s.tile p.toNat).router with dike := [qKey side lane.toNat] } ∧ ∀ q, q ≠ p.toNat → t.tile q = s.tile q := by
  generalize hk : qKey side lane.toNat = k at *
  generalize hy : { s.tile p.toNat with router := { (s.tile p.toNat).router with dike := [k] } } = y
  have holds : hopHead s p.toNat side lane.toNat err (.msg m) = countAt (s.setTile p.toNat y) p.toNat side m (-1) := by
    simp [hopHead, atDike, held, holdHead, dike, hk, modTile_eq_setTile, Tile.modRouter, insNat, ← hy]
  have counted := only_countAt (s.setTile p.toNat y) p.toNat side m (-1)
  have only : Only [.tiles, .census] s (countAt (s.setTile p.toNat y) p.toNat side m (-1)) :=
    only_trans (only_mono (by simp) (only_setTile s p.toNat y)) (only_mono (by simp) counted)
  have tile (q : Nat) := tile_of_only counted (by decide) q
  refine ⟨_, by rw [exec_messageHop hp (headLoad_msg (hk ▸ head) low spill) whole, holds, done_only head.runs head.canonical only (by decide)],
    only, ?_, ?_, fun q hq => ?_⟩
  · rw [← countAt_whole whole]
    exact countAt_census (s := s) (t := s.setTile p.toNat y) rfl rfl _ _ _ _
  · rw [tile, tile_setTile_self, ← hy]
  · rw [tile, tile_setTile, if_neg hq]

/-! ## Multicast -/

section
variable {p : BitVec 11} {side : Side} {lane : BitVec 2} {s : State} {m : Msg} {r : List Msg} (head : HeadOf s p.toNat (qKey side lane.toNat) m r)
  (low : lane.toNat < 2) (spread : spreads s p.toNat side m = true) (spill : (s.tile p.toNat).router.spill = [])
  (dike : (s.tile p.toNat).router.dike = [])
  (open_ : ∀ e ∈ spreadTo p.toNat m, (s.tile e.1).router.spill = [] ∧ e.1 ≠ p.toNat ∧ s.diked e.1 = false)
include head low spread spill dike open_

/-- A multicast leaves a copy for its place, and goes on to each neighbour of its spread. -/
theorem spread_room (room : ∀ e ∈ spreadTo p.toNat m, laneRoom ((s.tile e.1).router.held (qKey e.2 lane.toNat)) m.flits = true)
    (distinct : (spreadTo p.toNat m).Pairwise (fun a b => a.1 ≠ b.1)) :
    ∃ t, exec (.multicastSpread p side lane none none) s = .next t ∧ Only [.tiles] s t ∧
      t.rq p.toNat (qKey side lane.toNat) = { m with copy := some (lOf (pDie p.toNat) (pX p.toNat) (pY p.toNat)) } :: r ∧
      (∀ e ∈ spreadTo p.toNat m, t.rq e.1 (qKey e.2 lane.toNat) = s.rq e.1 (qKey e.2 lane.toNat) ++ [m]) ∧
      ∀ v j, (v, j) ≠ (p.toNat, qKey side lane.toNat) → (∀ e ∈ spreadTo p.toNat m, (v, j) ≠ (e.1, qKey e.2 lane.toNat)) →
        t.rq v j = s.rq v j := by
  have ran := exec_multicastSpread (headLoad_msg head low spill) spread dike (fun e he => (open_ e he).2.2)
    (spreadMsg_room (fun e he => (open_ e he).1) room)
  rw [Option.elim_some] at ran
  obtain ⟨only, there, queues, own⟩ := copied_foldl low (m := m) (p := p.toNat) _ distinct s
    (fun e he => ⟨(open_ e he).1, (open_ e he).2.1, spreadTo_side he⟩)
  generalize (spreadTo p.toNat m).foldl _ s = x at ran only there queues own
  generalize hc : ({ m with copy := some (lOf (pDie p.toNat) (pX p.toNat) (pY p.toNat)) } : Msg) = c at ran ⊢
  have kind : c.kind = m.kind := by rw [← hc]; rfl
  have before : (x.tile p.toNat).router.q (qKey side lane.toNat) = m :: r := by rw [own]; exact head.head
  have set : Only [.tiles] s (x.setHead p.toNat (qKey side lane.toNat) c) := only_trans only (only_setTile x _ _)
  have other (v j : Nat) (h : (v, j) ≠ (p.toNat, qKey side lane.toNat)) : (x.setHead p.toNat (qKey side lane.toNat) c).rq v j = x.rq v j := by
    by_cases hv : v = p.toNat
    · subst hv
      rw [State.rq, State.setHead, tile_modTile_self]
      exact q_setHead_other before kind (fun hj => h (by rw [hj]))
    · rw [State.rq, State.setHead, tile_modTile_other _ _ _ _ hv, State.rq]
  refine ⟨_, by rw [ran, done_only head.runs head.canonical set (by decide)], set, ?_, fun e he => ?_, fun v j hp hl => ?_⟩
  · rw [State.rq, State.setHead, tile_modTile_self]
    exact q_setHead_self before kind
  · rw [other _ _ (fun h => (open_ e he).2.1 (Prod.mk.inj h).1), there e he]
  · rw [other v j hp, queues v j hl]

/-- A multicast that finds no room at one neighbour waits. -/
theorem spread_blocked (full : ∃ e ∈ spreadTo p.toNat m, laneRoom ((s.tile e.1).router.held (qKey e.2 lane.toNat)) m.flits = false) :
    exec (.multicastSpread p side lane none none) s = .next s := by
  have ran := exec_multicastSpread (headLoad_msg head low spill) spread dike (fun e he => (open_ e he).2.2)
    (spreadMsg_blocked (fun e he => (open_ e he).1) full)
  rw [ran, Option.elim_none, done_idle head.runs head.canonical]

end

/-! ## The obligation -/

/-- Settles O45: a message of egress takes its one way (`exec_messageEgress`); a granted head lands at the next router of its die, marked or
discarded by its link's check (`lands_hops`); the copies of a multicast land one after the other (`copied_foldl`). -/
theorem messagesMove : Obligations.MessagesMove := by
  unfold Obligations.MessagesMove
  refine ⟨?egress, ?hop, ?dike, ?spread⟩
  case egress =>
    intro n s p u m r hc hr hn hp he free k m1 port kind
    refine ⟨fun idle formed out room => egress_enters hc hr hn hp he free idle kind formed out room,
      fun idle bad => egress_malformed hc hr hn hp he free idle bad, fun idle formed own open_ taken gen takes => ?_,
      fun loading => ⟨s, egress_loading hc hr hp loading, only_refl _ s⟩⟩
    obtain ⟨t, f, g, ran, only, others, self⟩ := egress_placed hc hr hn hp he free idle formed own open_ taken gen takes
    obtain ⟨here, elsewhere⟩ := port_of_setPort (z := t.tile p) (by rw [self])
    exact ⟨t, ran, only, by rw [self], here, by rw [self]; rfl, elsewhere, others⟩
  case hop =>
    intro p side d lane s m r q head hp low grant dike hop die apart spill k j
    have h : Hops s p.toNat side lane.toNat m r q d := ⟨head, low, grant, dike, hop, die, apart, spill⟩
    refine ⟨hop_clean h hp, fun e inside => ?_, fun here copy single row own _ => stepXY_hop (nextHop_inside hop here copy single row own)⟩
    exact ⟨fun bad safe m1 marred => hop_payload h hp inside bad safe marred, fun bad first idle => hop_header h hp inside bad first idle⟩
  case dike =>
    intro p side lane err s m r head hp low whole held dike spill
    exact hop_held head hp low whole held dike spill err
  case spread =>
    intro p side lane s m r head low spread spill dike open_ d k room
    exact ⟨fun all distinct => spread_room head low spread spill dike open_ all distinct,
      fun full => ⟨s, spread_blocked head low spread spill dike open_ full, only_refl _ s⟩⟩

end Sys2Proof.FabricProofs
end

section
/-! SUPPORT. Reduction trees: the inputs that a node takes, and the messages that it sends (R174, R176-R178). -/

namespace Sys2Proof.FabricProofs

open Sys2Proof.Machine Sys2Proof.Safety Sys2Proof.Laws Sys2Proof.TileProofs Sys2Proof.StoreProofs

/-! ## Heads for the node -/

/-- A lane-1 head of router p whose way ends there, with no spill before it. -/
structure NodeHead (s : State) (p : Nat) (side : Side) (m0 : Msg) (r : List Msg) : Prop where
  head : HeadOf s p (qKey side 1) m0 r
  ends : nextHop s p m0 = .tile
  whole : spreads s p side m0 = false
  spill : (s.tile p).router.spill = []

section
variable {s : State} {side : Side} {m0 : Msg} {r : List Msg}

theorem treeHead_node {p : Nat} (h : NodeHead s p side m0 r) : treeHead s p side = some m0.ingress := by
  have load := headLoad_msg h.head (by decide) h.spill
  simp [treeHead, laneHead, load, endsHere, loadSpreads, h.whole, loadHop, h.ends]

theorem exec_treeInput {p : BitVec 11} (h : NodeHead s p.toNat side m0 r) (up : m0.ingress.down = false) :
    exec (.treeInput p side) s = .next (done s (takeInput s p.toNat (fun x => x.popRq p.toNat (qKey side 1)) m0.ingress)) := by
  simp [exec, execTreeInput, treeHead_node h, up]

theorem exec_downMessage {p : BitVec 11} (h : NodeHead s p.toNat side m0 r) (down : m0.ingress.down = true) (outer : side ≠ .node) :
    exec (.downMessage p side) s = .next (done s (takeDown s p.toNat true (fun x => x.popRq p.toNat (qKey side 1)) m0.ingress)) := by
  have own : (side != .node) = true := by simpa using outer
  simp [exec, execDownMessage, treeHead_node h, down, own]

end

/-! ## A head that the node takes -/

/-- What a queue keeps depends on what its router lists. -/
theorem q_of_lists {a b : Router} (queues : a.queues = b.queues) (out : a.nodeOut = b.nodeOut) (k : Nat) : a.q k = b.q k := by
  rw [Router.q, Router.q, Router.nodeLane, Router.nodeLane, queues, out]

/-- An instance that is no root whose messages are leaving outlives them. -/
theorem insts_pop {r : Router} {k : Nat} (clk : Nat) (h2 : lane2Key k = false) (rootless : ∀ i ∈ r.insts, i.root = false) :
    (r.pop k clk).insts = r.insts := by
  by_cases hk : k < 15
  · exact (pop_rest clk h2).2 hk
  · obtain ⟨v, e⟩ := pop_above (r := r) clk (Nat.not_lt.mp hk)
    rw [e]
    exact List.filter_eq_self.mpr (fun i hi => by simp [rootless i hi])

/-- t follows s by what the node of router p makes of the head m of queue k, with the instances l in place of its own. -/
structure NodeTook (s : State) (p k : Nat) (l : List Inst) (m : Msg) (r : List Msg) (t : State) : Prop where
  only : Only [.tiles, .census] s t
  self : t.rq p k = r
  queues : ∀ j, j ≠ k → t.rq p j = s.rq p j
  router : ∃ n, (t.tile p).router = { (s.tile p).router with insts := l, instId := n }.pop k s.clk
  sect : (t.tile p).sect = (s.tile p).sect
  others : ∀ q, q ≠ p → t.tile q = s.tile q
  census : t.census = (s.count m (-1)).census

theorem nodeTook {s : State} {p k : Nat} {m0 : Msg} {r : List Msg} (h : HeadOf s p k m0 r) (h2 : lane2Key k = false) (l : List Inst) (m : Msg) :
    NodeTook s p k l m r (endMsg ((setInsts s p l).popRq p k) m) := by
  generalize hx : setInsts s p l = x
  have self : x.tile p = { s.tile p with router := { (s.tile p).router with
      insts := l, instId := (s.tile p).router.instId + (l.length - (s.tile p).router.insts.length) } } := by
    rw [← hx, setInsts, tile_modTile_self]; rfl
  have others (q : Nat) (hq : q ≠ p) : x.tile q = s.tile q := by rw [← hx, setInsts, tile_modTile_other _ _ _ _ hq]
  have only : Only [.tiles] s x := hx ▸ only_setTile s p _
  have clk : x.clk = s.clk := (only.2.2 .clk (by decide)).1
  have sorted : asorted (x.tile p).router.queues = true := by rw [self]; exact h.sorted
  have queue (j : Nat) : x.rq p j = s.rq p j := by rw [State.rq, self]; exact q_of_lists rfl rfl j
  have tile (q : Nat) : (endMsg (x.popRq p k) m).tile q = (x.popRq p k).tile q := tile_count _ _ _ _
  have router (q : Nat) : ((endMsg (x.popRq p k) m).tile q).router = ((x.popRq p k).tile q).router := by rw [tile]
  have gone : Only [.tiles] s (x.popRq p k) := only_trans only only_popRq
  refine ⟨?_, ?_, fun j hj => ?_, ⟨(s.tile p).router.instId + (l.length - (s.tile p).router.insts.length), ?_⟩, ?_, fun q hq => ?_,
    count_census (gone.2.2 .census (by decide)) (regs_of_only gone (by decide)) m (-1)⟩
  · exact only_trans (only_mono (by simp) gone) (only_mono (by simp) (only_count _ _ _))
  · rw [rq_of_router (router p), rq_popRq_self sorted h2, queue, h.head]; rfl
  · rw [rq_of_router (router p), rq_popRq_other sorted h2 (by simpa using hj), queue]
  · rw [router, tile_popRq_self, self, clk]
  · rw [tile, tile_popRq_self, self]
  · rw [tile, tile_popRq_other hq, others q hq]

/-- Instances that are no roots stand as the node has put them. -/
theorem insts_took {s t : State} {p k : Nat} {l : List Inst} {m : Msg} {r : List Msg} (h : NodeTook s p k l m r t) (h2 : lane2Key k = false)
    (rootless : ∀ i ∈ l, i.root = false) : (t.tile p).router.insts = l := by
  obtain ⟨n, router⟩ := h.router
  rw [router]
  exact insts_pop _ h2 rootless

/-! ## Inputs (R174, R176, R178) -/

/-- An instance of at most two inputs takes at most two slots. -/
theorem slots_few {i : Inst} (h : i.inputs.length ≤ 2) (rop : Nat) (out : List (Nat × Msg)) : i.slots rop out ≤ 2 := by
  unfold Inst.slots
  split_ifs <;> omega

theorem slotsUsed_few (s : State) (n : Nat) {i : Inst} (h : i.inputs.length ≤ 2) : slotsUsed s n [i] ≤ 8 := by
  have := slots_few h (meRop (s.member n i.tree)) (s.ltile n).router.nodeOut
  simp only [slotsUsed, List.foldl_cons, List.foldl_nil]
  omega

section
variable {s : State} {n : Nat} {m : Msg} (allowed : treeRefuses (s.member n m.tree) m (treeSrc s m n) = false)
include allowed

/-- The first input makes an instance. -/
theorem joinTree_makes (place : treeSrc s m n = none ∨ 1 ≤ meChildren (s.member n m.tree)) :
    joinTree s n [] m = .ok [⟨(s.ltile n).router.instId, m.tree, m.tag, m.part, [⟨treeSrc s m n, m⟩], false, false⟩] := by
  have child : ((treeSrc s m n).isSome && meChildren (s.member n m.tree) == 0) = false := by
    rcases place with own | some_child
    · rw [own]; rfl
    · rw [Bool.and_eq_false_iff]
      exact .inr (beq_eq_false_iff_ne.mpr (by omega))
  have room := slotsUsed_few s n (i := ⟨(s.ltile n).router.instId, m.tree, m.tag, m.part, [⟨treeSrc s m n, m⟩], false, false⟩) (by simp)
  simp [joinTree, allowed, joinAt, child, room]

/-- The input of another source joins the instance of its tree, tag and part. -/
theorem joinTree_joins {i : Inst} {x : TreeIn} (tree : i.tree = m.tree) (tag : i.tag = m.tag) (part : i.part = m.part) (inputs : i.inputs = [x])
    (source : x.src ≠ treeSrc s m n)
    (second : ∀ c, x.src = some c → treeSrc s m n ≠ none → 2 ≤ meChildren (s.member n m.tree))
    (first : x.src = none → treeSrc s m n ≠ none → 1 ≤ meChildren (s.member n m.tree)) :
    joinTree s n [i] m = .ok [{ i with inputs := [x, ⟨treeSrc s m n, m⟩] }] := by
  have same : i.is m.tree m.tag m.part m.rop = true := by simp [Inst.is, tree, tag, part]
  have missing : i.supplied m.rop (treeSrc s m n) = false := by simp [Inst.supplied, inputs, source]
  have at0 : joinAt [i] m.tree m.tag m.part m.rop (treeSrc s m n) = some 0 := by
    simp [joinAt, List.range_succ_eq_map, same, missing]
  have places : ((treeSrc s m n).isSome && !i.begun (treeSrc s m n) && decide (i.children.length ≥ meChildren (s.member n m.tree))) = false := by
    cases hsrc : treeSrc s m n with
    | none => rfl
    | some c =>
      have few : i.children.length < meChildren (s.member n m.tree) := by
        cases hx : x.src with
        | none =>
          have := first hx (by rw [hsrc]; simp)
          simp [Inst.children, inputs, hx]; omega
        | some b =>
          have := second b hx (by rw [hsrc]; simp)
          simp [Inst.children, inputs, hx, insNat]; omega
      simp [Nat.not_le.mpr few]
  have room := slotsUsed_few s n (i := { i with inputs := [x, ⟨treeSrc s m n, m⟩] }) (by simp)
  simp [joinTree, allowed, at0, places, inputs, room]

end

theorem takeInput_joins {s : State} {p : Nat} {m : Msg} {l : List Inst} (open_ : firewalled s m m.dstTile = false)
    (join : joinTree s m.dstTile (s.tile p).router.insts m = .ok l) (pop : State → State) :
    takeInput s p pop m = endMsg (pop (setInsts s p l)) m := by
  simp [takeInput, open_, join]

theorem takeInput_refused {s : State} {p : Nat} {m : Msg} (open_ : firewalled s m m.dstTile = false)
    (refused : treeRefuses (s.member m.dstTile m.tree) m (treeSrc s m m.dstTile) = true) (pop : State → State) :
    takeInput s p pop m = endMsg (pop (dropTree s p m)) m := by
  simp [takeInput, open_, joinTree, refused]

/-! ## Messages that a node sends (R166, R176, R223) -/

/-- A message as it leaves, with the device's own ID in place of 0xFFFF. -/
def ownDevice (s : State) (m : Msg) : Msg := if m.dstDev == 0xFFFF then m.put 0 16 s.deviceId else m

theorem ownDevice_of_regs {s t : State} (h : t.regs = s.regs) (m : Msg) : ownDevice t m = ownDevice s m := by
  have device : t.deviceId = s.deviceId := by unfold State.deviceId State.reg; rw [h]
  rw [ownDevice, ownDevice, device]

theorem malformed_of_regs {s t : State} (h : t.regs = s.regs) (part : t.part = s.part) (m : Msg) : malformed t m = malformed s m := by
  rw [malformed, malformed, here_of_regs h, part]

theorem upMsgs_of_regs {s t : State} (h : t.regs = s.regs) (n dest tree rop tag part gen : Nat) (bad : Bool) (pay : List Byte) :
    upMsgs t n dest tree rop tag part gen bad pay = upMsgs s n dest tree rop tag part gen bad pay := by
  have device : t.deviceId = s.deviceId := by unfold State.deviceId State.reg; rw [h]
  have src : srcOf t n 0 = srcOf s n 0 := by rw [srcOf, srcOf, device]
  rw [upMsgs, upMsgs, src]

theorem foldl_count_census (l : List Msg) {s t : State} (hc : t.census = s.census) (hr : t.regs = s.regs) :
    (l.foldl (fun z x => z.count x 1) t).census = (l.foldl (fun z x => z.count x 1) s).census := by
  induction l generalizing s t with
  | nil => exact hc
  | cons m l ih =>
    exact ih (count_census hc hr m 1)
      ((regs_of_only (only_count t m 1) (by decide)).trans (hr.trans (regs_of_only (only_count s m 1) (by decide)).symm))

/-- t follows s by messages l of instance id that wait in the combine buffer of router p, counted. -/
structure NodeSent (p id : Nat) (l : List Msg) (s t : State) : Prop where
  only : Only [.tiles, .census] s t
  self : t.tile p = { s.tile p with router := { (s.tile p).router with nodeOut := (s.tile p).router.nodeOut ++ l.map (fun x => (id, x)) } }
  others : ∀ q, q ≠ p → t.tile q = s.tile q
  census : t.census = (l.foldl (fun z x => z.count x 1) s).census

theorem nodeSend_sent (p id : Nat) (l : List Msg) (s : State) (formed : ∀ m ∈ l, malformed s (ownDevice s m) = false) :
    NodeSent p id (l.map (ownDevice s)) s (nodeSend s p id l) := by
  induction l generalizing s with
  | nil => exact ⟨only_refl _ s, by simp [nodeSend], fun _ _ => rfl, rfl⟩
  | cons m l ih =>
    generalize hy : (fun t : Tile => t.modRouter (fun r => { r with nodeOut := r.nodeOut ++ [(id, ownDevice s m)] })) = f
    generalize hx : (s.count (ownDevice s m) 1).modTile p f = x
    have step : nodeSend s p id (m :: l) = nodeSend x p id l := by
      have ok := formed m List.mem_cons_self
      rw [ownDevice] at ok
      rw [← hx, ← hy, nodeSend, List.foldl_cons, ownDevice]
      dsimp only
      rw [if_neg (by rw [ok]; exact Bool.false_ne_true)]
      rfl
    have counted := only_count s (ownDevice s m) 1
    have listed : Only [.tiles] (s.count (ownDevice s m) 1) x := hx ▸ only_setTile (s.count (ownDevice s m) 1) p _
    have only : Only [.tiles, .census] s x := only_trans (only_mono (by simp) counted) (only_mono (by simp) listed)
    have regs := regs_of_only only (by decide)
    have same : l.map (ownDevice x) = l.map (ownDevice s) := List.map_congr_left (fun a _ => ownDevice_of_regs regs a)
    have rest := ih x (fun a ha => by
      rw [malformed_of_regs regs only.2.1, ownDevice_of_regs regs]; exact formed a (List.mem_cons_of_mem m ha))
    rw [same] at rest
    rw [step]
    refine ⟨only_trans only rest.only, ?_, fun q hq => ?_, ?_⟩
    · rw [rest.self, ← hx, tile_modTile_self, tile_count, ← hy]
      simp [Tile.modRouter]
    · rw [rest.others q hq, ← hx, tile_modTile_other _ _ _ _ hq, tile_count]
    · rw [rest.census, List.map_cons, List.foldl_cons]
      exact foldl_count_census _ (listed.2.2 .census (by decide)) (regs_of_only listed (by decide))

/-! ## The down phase (R177) -/

theorem member_of_only {l : List Kind} {s t : State} (h : Only l s t) (hl : Kind.trees ∉ l) (n k : Nat) : t.member n k = s.member n k := by
  have trees : t.trees = s.trees := h.2.2 .trees hl
  rw [State.member, State.member, trees]

/-- Where the tile of the node takes no result itself, the down phase is a message to each child. -/
theorem downPhase_children {s : State} {n tree : Nat} (elsewhere : meDown (s.member n tree) = false) (p id src tag part : Nat)
    (children : List Nat) (bad : Bool) (pay : List Byte) :
    downPhase s p n id tree src tag part children bad pay = nodeSend s p id (children.flatMap (fun c =>
      downMsgs s src (tileDest c 0 0) tree (meRop (s.member n tree)) tag part (s.tile p).sect.gen.toNat bad pay)) := by
  simp [downPhase, elsewhere]

/-- The instance that waits for a down message of its own tree is the one that it is for. -/
theorem downTree_waiting {s : State} {p n : Nat} {m : Msg} {i : Inst} (member : meIs (s.member n m.tree) = true) (die : m.srcDie = lDie n)
    (insts : (s.tile p).router.insts = [i]) (waits : awaits s n m.tree m i = true) : downTree s p n true m = some m.tree := by
  simp [downTree, member, die, insts, waits]

theorem takeDown_waiting {s : State} {p : Nat} {m : Msg} {i : Inst} (open_ : firewalled s m m.dstTile = false)
    (member : meIs (s.member m.dstTile m.tree) = true) (die : m.srcDie = lDie m.dstTile) (insts : (s.tile p).router.insts = [i])
    (waits : awaits s m.dstTile m.tree m i = true) (single : isList (meRop (s.member m.dstTile m.tree)) = false) (pop : State → State) :
    takeDown s p true pop m = downPhase (endMsg (pop (setInsts s p [])) m) p m.dstTile (s.tile p).router.instId m.tree m.src m.tag m.part
      i.children m.poison m.pay := by
  simp [takeDown, open_, downTree_waiting member die insts waits, insts, List.findIdx_cons, waits, single, die]

/-! ## A complete instance (R175-R177) -/

theorem find?_range_one {f : Nat → Bool} (h : f 0 = true) : (List.range 1).find? f = some 0 := by
  simp [List.range_succ_eq_map, h]

/-- The state after instance i of router p has been combined. -/
def combinedAt (s : State) (p : Nat) (i : Inst) (root : Bool) : State :=
  (setInsts s p [{ i with done := true, root := root }]).bumpTile p (bankFbc 6) 1

/-- What becomes of the payload of an instance that router p, of tile n with member entry e, has combined. -/
def resultSent (s1 : State) (p n : Nat) (e : Nat × Nat) (i : Inst) (g : Nat) (bad : Bool) (pay : List Byte) : State :=
  if !meRoot e then nodeSend s1 p i.id (upMsgs s1 n (tileDest (meParent e) 0 0) i.tree (meRop e) i.tag i.part g bad pay)
  else if meChain e then nodeSend s1 p i.id (upMsgs s1 n (meDest e) (meChainTree e) (meRop e) i.tag i.part g bad pay)
  else dropIdleRoots (downPhase (if meValid e then nodeSend s1 p i.id (dataMsgs (srcOf s1 n 0) (meDest e) i.tag g bad pay) else s1) p n i.id i.tree
    (srcOf s1 n 0) i.tag i.part i.children bad pay) p

theorem exec_instanceCombined {p : BitVec 11} {tree : BitVec 6} {tag : BitVec 16} {s : State} {n : Nat} {i : Inst}
    (logical : s.logical p.toNat = some n) (insts : (s.tile p.toNat).router.insts = [i]) (ofTree : i.tree = tree.toNat)
    (ofTag : i.tag = tag.toNat) (complete : i.complete (s.member n tree.toNat) = true) :
    let e := s.member n tree.toNat
    exec (.instanceCombined p tree tag) s = .next (done s (resultSent (combinedAt s p.toNat i (meRoot e && !meChain e)) p.toNat n e i
      (s.tile p.toNat).sect.gen.toNat ((i.combined (meRop e)).2 || i.poisoned) (i.combined (meRop e)).1)) := by
  intro e
  simp only [exec, execInstanceCombined, logical, insts, List.length_singleton]
  rw [find?_range_one]
  · rfl
  · simp [ofTree, ofTag, complete]

theorem combinedAt_tile {s : State} {p : Nat} {i : Inst} (insts : (s.tile p).router.insts = [i]) (root : Bool) :
    ∃ c, combinedAt s p i root = s.setTile p { s.tile p with
      ctrs := c, router := { (s.tile p).router with insts := [{ i with done := true, root := root }] } } := by
  refine ⟨bump (s.tile p).ctrs (bankFbc 6) 1, ?_⟩
  rw [combinedAt, setInsts, modTile_eq_setTile s, State.bumpTile, modTile_setTile, Tile.modRouter, Tile.bump, insts]
  rfl

end Sys2Proof.FabricProofs
end

section
/-! SUPPORT. Probes, the spill of a confirmed cycle, and re-injection (R187-R190). -/

namespace Sys2Proof.FabricProofs

open Sys2Proof.Machine Sys2Proof.Safety Sys2Proof.Laws Sys2Proof.TileProofs Sys2Proof.StoreProofs

/-! ## Probes -/

/-- The head of a lane that neither spreads nor is held waits on its next router. -/
theorem waitsOn_hop {s : State} {p q lane : Nat} {side d : Side} {m : Msg} {r : List Msg} (head : s.rq p (qKey side lane) = m :: r)
    (h2 : lane2Key (qKey side lane) = false) (dike : (s.tile p).router.dike = []) (whole : spreads s p side m = false)
    (hop : nextHop s p m = .hop q d) (die : pDie q = pDie p) : waitsOn s p side lane = some (.hop q d) := by
  have passes : bridgePass s p (qKey side lane) (.msg m) = (s, true) := bridgePass_within (l := .msg m) hop die _
  simp [waitsOn, loadHead_msg h2 head, dike, passes, whole, hop]

theorem queueFull_eq {s : State} {p k : Nat} (h2 : lane2Key k = false) : queueFull s p k = decide (8 ≤ flitsOf (s.rq p k)) := by
  rw [queueFull, Router.held, h2, if_neg Bool.false_ne_true]
  rfl

theorem probeTime_within {p q : Nat} (die : pDie q = pDie p) : probeTime p q = 1 := by simp [probeTime, die]

theorem exec_probeSend {p : BitVec 11} {side d : Side} {lane : BitVec 2} {s : State} {m : Msg} {r : List Msg} {q : Nat}
    (head : HeadOf s p.toNat (qKey side lane.toNat) m r) (outer : side ≠ .node) (low : lane.toNat < 2) (on : s.fabThreshold ≠ 0)
    (full : 8 ≤ flitsOf (s.rq p.toNat (qKey side lane.toNat))) (dike : (s.tile p.toNat).router.dike = [])
    (whole : spreads s p.toNat side m = false) (hop : nextHop s p.toNat m = .hop q d) (die : pDie q = pDie p.toNat)
    (stood : max 64 s.fabThreshold ≤ s.clk - agetD (s.tile p.toNat).router.moved (qKey side lane.toNat) s.clk)
    (first : ∀ x ∈ s.probes, (x.origin, x.key) ≠ (p.toNat, qKey side lane.toNat)) :
    exec (.probeSend p side lane) s = .next (done s { s with
      probes := s.probes ++ [⟨p.toNat, qKey side lane.toNat, sideNo d, q, 1, s.clk + 1⟩] }) := by
  have h2 := lane2Key_low side low
  have threshold : s.threshold = max 64 s.fabThreshold := by simp [State.threshold, on]
  have stall : stallOf s p.toNat side lane.toNat = s.clk - agetD (s.tile p.toNat).router.moved (qKey side lane.toNat) s.clk := by
    simp [stallOf, loadHead_msg h2 head.head, dike, endsHere, loadHop, hop]
  have alone : s.probes.any (fun e => e.origin == p.toNat && e.key == qKey side lane.toNat) = false := by
    refine List.any_eq_false.mpr (fun x hx => ?_)
    have := first x hx
    simpa using this
  have cond : (side != .node && lane != 3 && s.threshold != 0 && queueFull s p.toNat (qKey side lane.toNat) &&
      decide (s.threshold ≤ stallOf s p.toNat side lane.toNat) &&
      !s.probes.any (fun e => e.origin == p.toNat && e.key == qKey side lane.toNat)) = true := by
    have lane3 : lane ≠ 3 := by rintro rfl; exact absurd low (by decide)
    have some_threshold : max 64 s.fabThreshold ≠ 0 := by omega
    simp only [bne_iff_ne.mpr outer, bne_iff_ne.mpr lane3, threshold, bne_iff_ne.mpr some_threshold, queueFull_eq h2, full, stall, stood,
      alone, decide_true, Bool.not_false, Bool.and_self]
  simp only [exec, execProbeSend]
  rw [if_pos cond, waitsOn_hop head.head h2 dike whole hop die]
  dsimp only
  rw [probeTime_within die]

section
variable {e : Probe} {s : State} (probes : s.probes = [e]) (due : e.at_ ≤ s.clk)
include probes due

/-- The one probe under way confirms its cycle when it is back at its lane. -/
theorem exec_probe_back (back : e.router = e.origin) (lane : 3 * e.side + e.key % 3 = e.key) :
    exec (.probe 0) s = .next (done s (confirmCycle { s with probes := [] } e.origin e.key e.hops)) := by
  simp [exec, execProbe, probes, Nat.not_lt.mpr due, back, lane]

section
variable (away : e.router ≠ e.origin ∨ 3 * e.side + e.key % 3 ≠ e.key)
include away

/-- Elsewhere a probe ends after its last hop, and where it finds no full queue. -/
theorem exec_probe_ends (ends : 1024 ≤ e.hops ∨ flitsOf (s.rq e.router (3 * e.side + e.key % 3)) < 8 ∧ e.key % 3 ≠ 2) :
    exec (.probe 0) s = .next (done s { s with probes := [] }) := by
  have elsewhere : ¬ (e.router == e.origin && 3 * e.side + e.key % 3 == e.key) = true := by
    simp only [Bool.and_eq_true, beq_iff_eq]; tauto
  simp only [exec, execProbe, probes, List.getElem?_cons_zero, if_neg (Nat.not_lt.mpr due), if_neg elsewhere, List.eraseIdx_zero,
    List.tail_cons, List.any_nil, Bool.or_false, List.filter_nil, decide_eq_true_eq]
  split
  · rfl
  next few =>
    obtain ⟨room, low⟩ := ends.resolve_left few
    have h2 : lane2Key (3 * e.side + e.key % 3) = false := lane2Key_mod (by omega)
    rw [queueFull_eq h2, if_neg (by simpa using room)]

/-- Elsewhere a probe goes on from a full queue along the output that its head waits on. -/
theorem exec_probe_forwards {m : Msg} {r : List Msg} {q : Nat} {d : Side} (few : e.hops < 1024) (low : e.key % 3 ≠ 2) (link : e.side < 5)
    (head : s.rq e.router (3 * e.side + e.key % 3) = m :: r) (full : 8 ≤ flitsOf (s.rq e.router (3 * e.side + e.key % 3)))
    (dike : (s.tile e.router).router.dike = []) (whole : spreads s e.router (sideOf e.side) m = false)
    (hop : nextHop s e.router m = .hop q d) (die : pDie q = pDie e.router) :
    exec (.probe 0) s = .next (done s { s with
      probes := [{ e with side := sideNo d, router := q, hops := e.hops + 1, at_ := e.at_ + 1 }] }) := by
  have elsewhere : ¬ (e.router == e.origin && 3 * e.side + e.key % 3 == e.key) = true := by
    simp only [Bool.and_eq_true, beq_iff_eq]; tauto
  have h2 : lane2Key (3 * e.side + e.key % 3) = false := lane2Key_mod (by omega)
  have number : sideNo (sideOf e.side) = e.side := by
    have : ∀ k < 5, sideNo (sideOf k) = k := by decide
    exact this e.side link
  have key : qKey (sideOf e.side) (e.key % 3) = 3 * e.side + e.key % 3 := by rw [qKey, number]
  have waits : waitsOn s e.router (sideOf e.side) (e.key % 3) = some (.hop q d) :=
    waitsOn_hop (r := r) (by rw [key]; exact head) (by rw [key]; exact h2) dike whole hop die
  simp only [exec, execProbe, probes, List.getElem?_cons_zero, if_neg (Nat.not_lt.mpr due), if_neg elsewhere, List.eraseIdx_zero,
    List.tail_cons, List.any_nil, Bool.or_false, List.filter_nil, decide_eq_true_eq, if_neg (Nat.not_le.mpr few), waits,
    queueFull_eq h2, full, if_true, probeTime_within die, List.nil_append]

end

end

/-! ## The spill of a confirmed cycle (R189) -/

/-- A lane whose one message fits the spillway is spilled whole. -/
theorem spillQueue_one {s : State} {p k n : Nat} {m : Msg} (h2 : lane2Key k = false) (head : s.rq p k = [m])
    (sorted : asorted (s.tile p).router.queues = true) (fits : (s.tile p).spillFits m.flits = true) :
    spillQueue p k (n + 1) s = toSpill (s.popRq p k) p (sideOf (k / 3)) (k % 3) (.msg m) := by
  generalize ht : toSpill (s.popRq p k) p (sideOf (k / 3)) (k % 3) (.msg m) = t
  have empty : (t.tile p).router.q k = [] := by
    have popped := rq_popRq_self sorted h2
    rw [head] at popped
    rw [← ht, toSpill, tile_modTile_self]
    exact (q_of_lists rfl rfl k).trans popped
  have stops (n : Nat) : spillQueue p k n t = t := by
    cases n with
    | zero => rfl
    | succ n => simp [spillQueue, Router.loadHead, h2, empty]
  rw [spillQueue, loadHead_msg h2 head]
  dsimp only
  rw [if_pos (show (s.tile p).spillFits (Load.msg m).flits = true from fits), ht, stops]

/-- A message has at least one flit. -/
theorem flits_pos (m : Msg) : 1 ≤ m.flits := by
  simp only [Msg.flits, entriesOf, Msg.len]
  omega

/-! ## Re-injection (R190) -/

/-- A write of a header's field leaves the fields below it. -/
theorem f_put_below (m : Msg) {lo len hi n : Nat} (v : Nat) (h : lo + len ≤ hi) (h128 : hi ≤ 128) : (m.put hi n v).f lo len = m.f lo len := by
  have low (x y : Nat) (e : x % 2 ^ hi = y % 2 ^ hi) : fld x lo len = fld y lo len := by
    have bits (z : Nat) : fld z lo len = fld (z % 2 ^ hi) lo len := by
      refine Nat.eq_of_testBit_eq (fun i => ?_)
      simp only [fld, Nat.testBit_mod_two_pow, Nat.testBit_shiftRight]
      by_cases hi' : i < len
      · simp [hi', show lo + i < hi by omega]
      · simp [hi']
    rw [bits x, bits y, e]
  refine low _ _ ?_
  have le : 2 ^ hi * fld m.hdr.toNat hi n ≤ m.hdr.toNat := by
    rw [fld, Nat.shiftRight_eq_div_pow]
    exact (Nat.mul_le_mul_left _ (Nat.mod_le _ _)).trans (Nat.mul_div_le _ _)
  rw [Msg.put]
  dsimp only
  rw [BitVec.toNat_ofNat, Nat.mod_mod_of_dvd _ (Nat.pow_dvd_pow 2 h128), hset, Nat.add_mul_mod_self_right, Nat.mul_comm (fld _ _ _),
    Nat.sub_mul_mod le]

theorem f_respilled (m : Msg) {lo len : Nat} (h : lo + len ≤ 121) : m.respilled.f lo len = m.f lo len := f_put_below m 1 h (by decide)

/-- Bit 121 plays no part in a message's way. -/
theorem nextHop_respilled (s : State) (p : Nat) (m : Msg) : nextHop s p m.respilled = nextHop s p m := by
  have copy : m.respilled.copy = m.copy := by rw [Msg.respilled, Msg.put]
  have dev : m.respilled.dstDev = m.dstDev := f_respilled m (by decide)
  have die : m.respilled.dstDie = m.dstDie := f_respilled m (by decide)
  have x : m.respilled.dstX = m.dstX := f_respilled m (by decide)
  have y : m.respilled.dstY = m.dstY := f_respilled m (by decide)
  have many : m.respilled.mcast = m.mcast := by rw [Msg.mcast, Msg.mcast, f_respilled m (by decide)]
  have here : m.respilled.here s = m.here s := by rw [Msg.here, Msg.here, dev]
  have tile : m.respilled.dstTile = m.dstTile := by rw [Msg.dstTile, Msg.dstTile, copy, die, x, y]
  have aim : aimOf s m.respilled = aimOf s m := by rw [aimOf, aimOf, copy, many, x, y, tile]
  have to_die : dieOf m.respilled = dieOf m := by rw [dieOf, dieOf, copy, die]
  have row : exitRow m.respilled = exitRow m := by rw [exitRow, exitRow, copy, y]
  rw [nextHop, nextHop, here, copy, y, aim, to_die, row]

end Sys2Proof.FabricProofs
end

section
/-! PROOFS. Reduction trees, probes, the spill of a confirmed cycle, and re-injection (R174, R176-R178, R187-R190). Settles O47. -/

namespace Sys2Proof.FabricProofs

open Sys2Proof.Machine Sys2Proof.Safety Sys2Proof.Laws Sys2Proof.TileProofs Sys2Proof.StoreProofs

/-! ## Inputs of a node -/

section
variable {p : BitVec 11} {side : Side} {s : State} {m0 : Msg} {r : List Msg} (h : NodeHead s p.toNat side m0 r)
  (up : m0.ingress.down = false) (open_ : firewalled s m0.ingress m0.ingress.dstTile = false)
include h up open_

theorem input_joins {l0 l : List Inst} (insts : (s.tile p.toNat).router.insts = l0)
    (join : joinTree s m0.ingress.dstTile l0 m0.ingress = .ok l) :
    ∃ t, exec (.treeInput p side) s = .next t ∧ NodeTook s p.toNat (qKey side 1) l m0.ingress r t := by
  have took := nodeTook h.head (lane2Key_low side (by decide)) l m0.ingress
  refine ⟨_, ?_, took⟩
  rw [exec_treeInput h up, takeInput_joins open_ (insts ▸ join), done_only h.head.runs h.head.canonical took.only (by decide)]

/-- An input that its node does not allow is dropped and counted. -/
theorem input_refused (refused : treeRefuses (s.member m0.ingress.dstTile m0.ingress.tree) m0.ingress
      (treeSrc s m0.ingress m0.ingress.dstTile) = true) :
    ∃ t, exec (.treeInput p side) s = .next t ∧ Only [.tiles, .census, .log, .vectors] s t ∧ QueueBecomes s t p.toNat (qKey side 1) r ∧
      (t.tile p.toNat).regs = { (s.tile p.toNat).regs with
        fwTree := BitVec.ofNat 8 (satAdd 8 (s.tile p.toNat).regs.fwTree.toNat 1) } ∧ t.census = (s.count m0.ingress (-1)).census := by
  have whole : Ejected [.log, .vectors] p.toNat s s :=
    ⟨⟨(s.tile p.toNat).router.granted, rfl⟩, fun _ _ => rfl, ⟨rfl, rfl, rfl⟩, only_refl _ s⟩
  have dropped : Ejected [.log, .vectors] p.toNat s (dropTree s p.toNat m0.ingress) := ejected_event (ejected_modTile whole _ rfl) _ _ _ _ _
  have regs : ((dropTree s p.toNat m0.ingress).tile p.toNat).regs = { (s.tile p.toNat).regs with
      fwTree := BitVec.ofNat 8 (satAdd 8 (s.tile p.toNat).regs.fwTree.toNat 1) } := by
    rw [dropTree, tile_event, tile_modTile_self]; rfl
  have ran := exec_treeInput h up
  rw [takeInput_refused open_ refused] at ran
  generalize dropTree s p.toNat m0.ingress = z at dropped regs ran
  have gone : Gone p.toNat (qKey side 1) m0.ingress z (endMsg (z.popRq p.toNat (qKey side 1)) m0.ingress) :=
    endMsg_gone (c := (z.tile p.toNat).ctrs) (f := (z.tile p.toNat).finished) (g := (z.tile p.toNat).progress) (clk := z.clk) rfl
  obtain ⟨only, ⟨queue, census, -⟩, -, same⟩ := taken_leaves h.head (lane2Key_low side (by decide)) dropped gone
  exact ⟨_, ran, only, queue, same.trans regs, census⟩

end

/-! ## A complete instance -/

/-- t follows s by the combination of instance i of router p, whose result m waits in the combine buffer, counted. -/
structure ResultWaits (s : State) (p : Nat) (i : Inst) (root : Bool) (m : Msg) (t : State) : Prop where
  only : Only [.tiles, .census] s t
  router : (t.tile p).router = { (s.tile p).router with
    insts := [{ i with done := true, root := root }], nodeOut := (s.tile p).router.nodeOut ++ [(i.id, m)] }
  census : t.census = (s.count m 1).census
  others : ∀ q, q ≠ p → t.tile q = s.tile q

theorem resultWaits {s : State} {p : Nat} {i : Inst} {m : Msg} (insts : (s.tile p).router.insts = [i]) (root : Bool)
    (formed : malformed s (ownDevice s m) = false) :
    ResultWaits s p i root (ownDevice s m) (nodeSend (combinedAt s p i root) p i.id [m]) := by
  obtain ⟨c, e⟩ := combinedAt_tile insts root
  generalize hx : combinedAt s p i root = x at e
  have regs : x.regs = s.regs := by rw [e]; rfl
  have part : x.part = s.part := by rw [e]; rfl
  have sent := nodeSend_sent p i.id [m] x (fun a ha => by
    rw [List.mem_singleton.mp ha, malformed_of_regs regs part, ownDevice_of_regs regs]; exact formed)
  rw [List.map_singleton, ownDevice_of_regs regs] at sent
  refine ⟨only_trans (only_mono (by simp) (e ▸ only_setTile s p _)) sent.only, ?_, ?_, fun q hq => ?_⟩
  · rw [sent.self, e, tile_setTile_self]; rfl
  · rw [sent.census]
    exact count_census (by rw [e]; rfl) regs _ 1
  · rw [sent.others q hq, e, tile_setTile, if_neg hq]

/-- A root whose result waits to leave keeps its entry (R176). -/
theorem dropIdleRoots_waiting {s t : State} {p : Nat} {i : Inst} {m : Msg} (h : ResultWaits s p i true m t) :
    ResultWaits s p i true m (dropIdleRoots t p) := by
  refine ⟨only_trans h.only (only_mono (by simp) (only_setTile t p _)), ?_, h.census, fun q hq => ?_⟩
  · rw [dropIdleRoots, tile_modTile_self, Tile.modRouter]
    dsimp only
    rw [h.router]
    simp
  · rw [dropIdleRoots, tile_modTile_other _ _ _ _ hq, h.others q hq]

section
variable {s : State} {p n : Nat} {e : Nat × Nat} {i : Inst} {g : Nat} {bad : Bool} {pay : List Byte} {m : Msg}
  (insts : (s.tile p).router.insts = [i]) (formed : malformed s (ownDevice s m) = false)
include insts formed

/-- The result of a node that is no root goes to its parent, that of a chained root to the tree above. -/
theorem resultSent_up (above : meRoot e = false ∨ meChain e = true)
    (one : upMsgs s n (if meRoot e then meDest e else tileDest (meParent e) 0 0) (if meRoot e then meChainTree e else i.tree) (meRop e)
      i.tag i.part g bad pay = [m]) :
    ResultWaits s p i false (ownDevice s m) (resultSent (combinedAt s p i (meRoot e && !meChain e)) p n e i g bad pay) := by
  have flag : (meRoot e && !meChain e) = false := by
    rcases above with lower | chained
    · rw [lower]; rfl
    · rw [chained, Bool.not_true, Bool.and_false]
  have waits := resultWaits insts false formed
  obtain ⟨c, same⟩ := combinedAt_tile insts false
  have regs : (combinedAt s p i false).regs = s.regs := by rw [same]; rfl
  rw [flag, resultSent]
  cases root : meRoot e with
  | false =>
    rw [root] at one
    simp only [Bool.false_eq_true, if_false] at one
    rw [if_pos (show (!false) = true from rfl), upMsgs_of_regs regs, one]
    exact waits
  | true =>
    rw [root] at one
    simp only [if_true] at one
    have chained : meChain e = true := above.resolve_left (by rw [root]; simp)
    rw [if_neg (show ¬ (!true) = true by decide), if_pos chained, upMsgs_of_regs regs, one]
    exact waits

/-- The result of another root leaves as data to its destination. -/
theorem resultSent_data (root : meRoot e = true) (unchained : meChain e = false) (valid : meValid e = true)
    (elsewhere : meDown (s.member n i.tree) = false) (childless : i.children = [])
    (one : dataMsgs (srcOf s n 0) (meDest e) i.tag g bad pay = [m]) :
    ResultWaits s p i true (ownDevice s m) (resultSent (combinedAt s p i (meRoot e && !meChain e)) p n e i g bad pay) := by
  have waits := resultWaits insts true formed
  obtain ⟨c, same⟩ := combinedAt_tile insts true
  have src : srcOf (combinedAt s p i true) n 0 = srcOf s n 0 := by rw [same]; rfl
  have flag : (meRoot e && !meChain e) = true := by rw [root, unchained]; rfl
  rw [flag, resultSent, if_neg (show ¬ (!meRoot e) = true by simp [root]), if_neg (by simp [unchained]), if_pos valid, src, one, childless,
    downPhase_children (by rw [member_of_only waits.only (by decide)]; exact elsewhere)]
  exact dropIdleRoots_waiting waits

end

/-! ## Down messages -/

theorem nodeOut_pop {r : Router} {k : Nat} (clk : Nat) (hk : k < 15) (h2 : lane2Key k = false) : (r.pop k clk).nodeOut = r.nodeOut := by
  obtain ⟨v, e⟩ := pop_below (r := r) clk hk h2
  rw [e]
  rfl

theorem q_of_queues {a b : Router} {k : Nat} (hk : k < 15) (queues : a.queues = b.queues) : a.q k = b.q k := by
  rw [Router.q, Router.q, if_pos hk, if_pos hk, queues]

theorem downMsgs_of_regs {s t : State} (h : t.regs = s.regs) (src dest tree rop tag part gen : Nat) (bad : Bool) (pay : List Byte) :
    downMsgs t src dest tree rop tag part gen bad pay = downMsgs s src dest tree rop tag part gen bad pay := by
  rw [downMsgs, downMsgs, upMsgs_of_regs h]

/-- A down message frees its instance and goes on to each child. -/
theorem down_passes {p : BitVec 11} {side : Side} {s : State} {m0 : Msg} {r : List Msg} {i : Inst} (h : NodeHead s p.toNat side m0 r)
    (outer : side ≠ .node) (down : m0.ingress.down = true) (open_ : firewalled s m0.ingress m0.ingress.dstTile = false)
    (member : meIs (s.member m0.ingress.dstTile m0.ingress.tree) = true) (die : m0.ingress.srcDie = lDie m0.ingress.dstTile)
    (elsewhere : meDown (s.member m0.ingress.dstTile m0.ingress.tree) = false)
    (single : isList (meRop (s.member m0.ingress.dstTile m0.ingress.tree)) = false) (insts : (s.tile p.toNat).router.insts = [i])
    (waits : awaits s m0.ingress.dstTile m0.ingress.tree m0.ingress i = true) (l : List Msg)
    (hl : l = (i.children.flatMap (fun c => downMsgs s m0.ingress.src (tileDest c 0 0) m0.ingress.tree
      (meRop (s.member m0.ingress.dstTile m0.ingress.tree)) m0.ingress.tag m0.ingress.part (s.tile p.toNat).sect.gen.toNat m0.ingress.poison
      m0.ingress.pay)).map (ownDevice s))
    (formed : ∀ x ∈ l, malformed s x = false) :
    ∃ t, exec (.downMessage p side) s = .next t ∧ Only [.tiles, .census] s t ∧ (t.tile p.toNat).router.insts = [] ∧
      t.rq p.toNat (qKey side 1) = r ∧ (t.tile p.toNat).router.nodeOut =
        (s.tile p.toNat).router.nodeOut ++ l.map (fun x => ((s.tile p.toNat).router.instId, x)) ∧
      t.census = (l.foldl (fun z x => z.count x 1) (s.count m0.ingress (-1))).census ∧ ∀ q, q ≠ p.toNat → t.tile q = s.tile q := by
  have h2 : lane2Key (qKey side 1) = false := lane2Key_low side (by decide)
  have low : qKey side 1 < 15 := qKey_lt outer (by decide)
  have ran := exec_downMessage h down outer
  rw [takeDown_waiting open_ member die insts waits single] at ran
  generalize m0.ingress = m at *
  have took := nodeTook h.head h2 [] m
  generalize endMsg ((setInsts s p.toNat []).popRq p.toNat (qKey side 1)) m = z at ran took
  have regs := regs_of_only took.only (by decide)
  have same := member_of_only took.only (by decide) m.dstTile m.tree
  rw [downPhase_children (by rw [same]; exact elsewhere), same, took.sect] at ran
  simp only [downMsgs_of_regs regs] at ran
  generalize (i.children.flatMap (fun c => downMsgs s m.src (tileDest c 0 0) m.tree (meRop (s.member m.dstTile m.tree)) m.tag m.part
    (s.tile p.toNat).sect.gen.toNat m.poison m.pay)) = msgs at hl ran
  have sent := nodeSend_sent p.toNat (s.tile p.toNat).router.instId msgs z (fun x hx => by
    rw [malformed_of_regs regs took.only.2.1, ownDevice_of_regs regs]
    exact formed _ (hl ▸ List.mem_map_of_mem hx))
  rw [List.map_congr_left (fun a _ => ownDevice_of_regs regs a), ← hl] at sent
  generalize nodeSend z p.toNat (s.tile p.toNat).router.instId msgs = t at ran sent
  have only : Only [.tiles, .census] s t := only_trans took.only sent.only
  obtain ⟨v, popped⟩ := took.router
  refine ⟨t, by rw [ran, done_only h.head.runs h.head.canonical only (by decide)], only, ?_, ?_, ?_, ?_, fun q hq => ?_⟩
  · rw [sent.self]
    exact insts_took took h2 (by simp)
  · have same (out : List (Nat × Msg)) :
        Router.q { (z.tile p.toNat).router with nodeOut := out } (qKey side 1) = (z.tile p.toNat).router.q (qKey side 1) := q_of_queues low rfl
    rw [State.rq, sent.self]
    exact (same _).trans took.self
  · rw [sent.self]
    dsimp only
    rw [popped, nodeOut_pop _ low h2]
  · rw [sent.census]
    exact foldl_count_census l took.census (regs.trans (regs_of_only (only_count s m (-1)) (by decide)).symm)
  · rw [sent.others q hq, took.others q hq]

/-! ## Cycles -/

/-- A confirmed cycle is counted and logged. -/
def cycleLogged (s : State) (p k hops : Nat) : State :=
  (s.bumpTile p (bankFbc 3) 1).event 0x1131 10 p (s.tileCtx p) (detailOf [(2, p), (1, k % 3), (2, hops)])

theorem cycleLogged_leaves (s : State) (p k hops : Nat) :
    (cycleLogged s p k hops).tile p = { s.tile p with ctrs := bump (s.tile p).ctrs (bankFbc 3) 1 } ∧
      (∀ q, q ≠ p → (cycleLogged s p k hops).tile q = s.tile q) ∧ Only [.tiles, .log, .vectors] s (cycleLogged s p k hops) := by
  refine ⟨by rw [cycleLogged, tile_event, State.bumpTile, tile_modTile_self]; rfl,
    fun q hq => by rw [cycleLogged, tile_event, State.bumpTile, tile_modTile_other _ _ _ _ hq], ?_⟩
  exact only_trans (only_mono (by simp) (only_setTile s p _)) (only_mono (by simp) (only_event _ _ _ _ _ _))

theorem confirmCycle_off {s : State} (off : bitOf (s.reg 0x201000).toNat 20 = false) (p k hops : Nat) :
    confirmCycle s p k hops = cycleLogged s p k hops := by
  unfold confirmCycle
  rw [off]
  rfl

/-- Where the spillway is enabled, the lane of a confirmed cycle is spilled. -/
theorem confirmCycle_spills {s : State} {p k : Nat} {m : Msg} (on : bitOf (s.reg 0x201000).toNat 20 = true) (head : s.rq p k = [m])
    (sorted : asorted (s.tile p).router.queues = true) (h2 : lane2Key k = false) (fits : (s.tile p).spillFits m.flits = true) (hops : Nat) :
    let t := confirmCycle s p k hops
    Only [.tiles, .log, .vectors] s t ∧ t.rq p k = [] ∧ (t.tile p).router.spill = (s.tile p).router.spill ++ [⟨sideOf (k / 3), k % 3, .msg m⟩] ∧
      (t.tile p).regs.fabSpillFull = false ∧ ∀ q, q ≠ p → t.tile q = s.tile q := by
  intro t
  have ht : confirmCycle s p k hops = t := rfl
  obtain ⟨self, others, only⟩ := cycleLogged_leaves s p k hops
  obtain ⟨n, flits⟩ : ∃ n, m.flits = n + 1 := ⟨m.flits - 1, by have := flits_pos m; omega⟩
  have held : (s.tile p).router.held k = n + 1 := by
    rw [State.rq] at head
    rw [Router.held, h2, if_neg Bool.false_ne_true, head, flitsOf, List.foldl_cons, List.foldl_nil, flits, Nat.zero_add]
  generalize hz : (cycleLogged s p k hops).modTile p (fun t => t.modRegs (fun r => { r with fabSpillFull := false })) = z
  have z_self : z.tile p = { s.tile p with ctrs := bump (s.tile p).ctrs (bankFbc 3) 1, regs := { (s.tile p).regs with fabSpillFull := false } } := by
    rw [← hz, tile_modTile_self, self]; rfl
  have z_sorted : asorted (z.tile p).router.queues = true := by rw [z_self]; exact sorted
  have z_head : z.rq p k = [m] := by rw [State.rq, z_self]; exact head
  have spilled : t = toSpill (z.popRq p k) p (sideOf (k / 3)) (k % 3) (.msg m) := by
    rw [← spillQueue_one (n := n) h2 z_head z_sorted (by rw [z_self]; exact fits), ← ht, ← hz, ← held]
    unfold confirmCycle
    rw [on]
    rfl
  obtain ⟨⟨spill, -⟩, -⟩ := pop_rest (r := (z.tile p).router) z.clk h2
  refine ⟨?_, ?_, ?_, ?_, fun q hq => ?_⟩
  · rw [spilled, ← hz]
    exact only_trans only (only_mono (by simp) (only_trans (only_trans (only_setTile _ p _) only_popRq) (only_setTile _ p _)))
  · have popped := rq_popRq_self z_sorted h2
    rw [z_head] at popped
    rw [spilled, toSpill, State.rq, tile_modTile_self]
    exact (q_of_lists rfl rfl k).trans popped
  · rw [spilled, toSpill, tile_modTile_self, tile_popRq_self, Tile.bump, Tile.modRouter]
    dsimp only
    rw [spill, z_self]
  · rw [spilled, toSpill, tile_modTile_self, tile_popRq_self, Tile.bump, Tile.modRouter]
    dsimp only
    rw [z_self]
  · rw [spilled, toSpill, tile_modTile_other _ _ _ _ hq, tile_popRq_other hq, ← hz, tile_modTile_other _ _ _ _ hq, others q hq]

/-! ## Re-injection -/

/-- RE_INJECTION at a message whose way does not end here, and that neither spreads nor is held, offers it to the arbiters. -/
theorem exec_reInjection {p : BitVec 11} {s : State} {side d : Side} {lane q : Nat} {m0 m : Msg} {r : List Spilled} (marked : m0.respilled = m)
    (spill : (s.tile p.toNat).router.spill = ⟨side, lane, .msg m0⟩ :: r) (whole : spreads s p.toNat side m = false)
    (free : dikeHolds s p.toNat side m = false) (dike : (s.tile p.toNat).router.dike = []) (hop : nextHop s p.toNat m = .hop q d) :
    exec (.reInjection p none) s = .next (done s (hopGranted s p.toNat .reinject none (.msg m) (fun x => popSpill x p.toNat))) := by
  have going : endsHere s p.toNat side (.msg m) = false := by simp [endsHere, loadHop, hop]
  have goes : atDike s p.toNat side lane reKey m (fun x => popSpill x p.toNat) = .goes s := by simp [atDike, free, dike, releaseHead]
  have opened : exec (.reInjection p none) s = execReInjection p none s := rfl
  rw [opened]
  unfold execReInjection
  -- The two are made opaque, that the kernel does not evaluate them where the definition's bindings are reduced.
  obtain ⟨check, is_check⟩ : ∃ f, f = atDike := ⟨_, rfl⟩
  obtain ⟨spreading, is_spreading⟩ : ∃ f, f = spreadMsg := ⟨_, rfl⟩
  rw [← is_check] at goes
  rw [← is_check, ← is_spreading]
  dsimp only
  rw [spill, List.head?_cons]
  dsimp only
  rw [marked, goes]
  dsimp only
  rw [if_neg (by rw [whole]; simp), if_neg (by rw [going]; simp)]

/-- A spilled message that the arbiters grant is injected again, with bit 121 set. -/
theorem reinjects {p : BitVec 11} {s : State} {side d : Side} {lane q : Nat} {m0 : Msg} {r : List Spilled} (hc : Canonical s) (hr : Runs s)
    (spill : (s.tile p.toNat).router.spill = ⟨side, lane, .msg m0⟩ :: r) (low : lane < 2) (whole : spreads s p.toNat side m0.respilled = false)
    (free : dikeHolds s p.toNat side m0.respilled = false) (dike : (s.tile p.toNat).router.dike = [])
    (hop : nextHop s p.toNat m0.respilled = .hop q d) (die : pDie q = pDie p.toNat) (apart : q ≠ p.toNat)
    (unspilled : (s.tile q).router.spill = []) (grant : granted s p.toNat .reinject = true) :
    ∃ t, exec (.reInjection p none) s = .next t ∧ Only [.tiles] s t ∧ (t.tile p.toNat).router.spill = r ∧
      t.rq q (qKey d lane) = s.rq q (qKey d lane) ++ [m0.respilled] ∧ ∀ v i, (v, i) ≠ (q, qKey d lane) → t.rq v i = s.rq v i := by
  generalize hm : m0.respilled = m at *
  have load : requesterLoad s p.toNat .reinject = some (side, lane, .msg m0) := by simp [requesterLoad, spill]
  have hop0 : loadHop s p.toNat (.msg m0) = .hop q d := by rw [loadHop, ← nextHop_respilled, hm]; exact hop
  have onward : loadHop s p.toNat (.msg m) = .hop q d := hop
  have ran := exec_reInjection hm spill whole free dike hop
  obtain ⟨g, taken⟩ := takeGrant_within grant load hop0 die
  have lands {x : State} (link : linkCheck (sentFlits (popSpill (takeGrant s p.toNat .reinject) p.toNat) p.toNat m.flits) q d none (.msg m) =
      (x, some (.msg m))) := hopGranted_lands grant load hop0 die onward none (fun x => popSpill x p.toNat) link
  rw [taken] at lands
  generalize hz : sentFlits (popSpill _ p.toNat) p.toNat m.flits = z at lands
  have self : (z.tile p.toNat).router = { (s.tile p.toNat).router with granted := g, spill := r } := by
    rw [← hz, router_sentFlits, popSpill, router_bumpTile, tile_modTile_self, tile_setTile_self, Tile.modRouter, spill]
    rfl
  have others (v : Nat) (hv : v ≠ p.toNat) : z.tile v = s.tile v := by
    rw [← hz, sentFlits, State.bumpTile, tile_modTile_other _ _ _ _ hv, popSpill, State.bumpTile, tile_modTile_other _ _ _ _ hv,
      tile_modTile_other _ _ _ _ hv, tile_setTile, if_neg hv]
  have only : Only [.tiles] s z := by
    rw [← hz]
    exact only_trans (only_trans (only_trans (only_setTile s _ _) (only_setTile _ _ _)) (only_setTile _ _ _)) (only_setTile _ _ _)
  have queues (v i : Nat) : z.rq v i = s.rq v i := by
    by_cases hv : v = p.toNat
    · rw [hv, State.rq, self]; exact q_of_lists rfl rfl i
    · rw [State.rq, others v hv, State.rq]
  rw [lands rfl, arriveAt_unspilled (by rw [others q apart]; exact unspilled)] at ran
  have pushed : Only [.tiles] s (z.pushRq q (qKey d lane) m) := only_trans only (only_pushRq z m)
  refine ⟨_, by rw [ran, done_only hr hc pushed (by decide)], pushed, ?_, ?_, fun v i hvi => ?_⟩
  · rw [spill_pushRq, self]
  · rw [rq_pushRq_self _ _ (qKey_lt (nextHop_side hop) (by omega)), queues]
  · rw [rq_pushRq_other _ _ hvi, queues]

/-! ## The obligation -/

/-- Settles O47: what a node makes of its head says which instances it holds (`nodeTook`), and what it sends waits, counted
(`nodeSend_sent`); a probe depends on the one queue that it has come to; a spilled message goes on as a head does (`hopGranted_lands`). -/
theorem treesAndProbes : Obligations.TreesAndProbes := by
  unfold Obligations.TreesAndProbes
  refine ⟨?inputs, ?combined, ?down, ?sends, ?back, ?elsewhere, ?reinject⟩
  case inputs =>
    intro p side s m0 r head ends whole spill m up open_ y e src
    have h : NodeHead s p.toNat side m0 r := ⟨head, ends, whole, spill⟩
    have h2 : lane2Key (qKey side 1) = false := lane2Key_low side (by decide)
    refine ⟨fun allowed insts place => ?makes, fun i x allowed _ insts tree tag part _ root inputs source second first => ?joins,
      fun refused => input_refused h up open_ refused⟩
    case makes =>
      obtain ⟨t, ran, took⟩ := input_joins h up open_ insts (joinTree_makes allowed place)
      exact ⟨t, ran, took.only, took.self, insts_took took h2 (by simp), took.census, took.queues, took.others⟩
    case joins =>
      obtain ⟨t, ran, took⟩ := input_joins h up open_ insts (joinTree_joins allowed tree tag part inputs source second first)
      exact ⟨t, ran, took.only, took.self, insts_took took h2 (by simpa using root), took.census⟩
  case combined =>
    intro p tree tag s n i hc hr logical insts ofTree ofTag y e pay bad g own sends complete _
    have ran := exec_instanceCombined logical insts ofTree ofTag complete
    refine ⟨fun above m one formed => ?up, fun root unchained valid elsewhere childless m one formed => ?data⟩
    case up =>
      have waits := resultSent_up (n := n) (g := g) insts formed above one
      exact ⟨_, by rw [ran, done_only hr hc waits.only (by decide)], waits.only, waits.router, waits.census, waits.others⟩
    case data =>
      have waits := resultSent_data (n := n) (e := e) insts formed root unchained valid (by rw [ofTree]; exact elsewhere) childless one
      exact ⟨_, by rw [ran, done_only hr hc waits.only (by decide)], waits.only, waits.router, waits.census, waits.others⟩
  case down =>
    intro p side s m0 r i head ends whole spill outer m y e own l down open_ member die elsewhere single insts tree tag part finished root formed
    have waits : awaits s m.dstTile m.tree m i = true := by simp [awaits, Inst.is, tree, tag, part, finished, root]
    exact down_passes ⟨head, ends, whole, spill⟩ outer down open_ member die elsewhere single insts waits l rfl formed
  case sends =>
    intro p side d lane s m r q k head outer low on full dike whole hop die stood first
    have only := only_probes s (s.probes ++ [⟨p.toNat, k, sideNo d, q, 1, s.clk + 1⟩])
    exact ⟨_, by rw [exec_probeSend head outer low on full dike whole hop die stood first, done_only head.runs head.canonical only (by decide)],
      only, rfl⟩
  case back =>
    intro e s hc hr probes due back lane y
    have ran := exec_probe_back probes due back lane
    have emptied := only_probes s []
    refine ⟨fun off => ?off, fun m on head sorted _ low fits => ?on⟩
    case off =>
      obtain ⟨self, others, logged⟩ := cycleLogged_leaves { s with probes := [] } e.origin e.key e.hops
      rw [confirmCycle_off (s := { s with probes := [] }) off] at ran
      have only : Only [.tiles, .log, .vectors, .probes] s (cycleLogged { s with probes := [] } e.origin e.key e.hops) :=
        only_trans (only_mono (by simp) emptied) (only_mono (by simp) logged)
      exact ⟨_, by rw [ran, done_only hr hc only (by decide)], only, logged.2.2 .probes (by decide), by rw [self]; rfl, others⟩
    case on =>
      obtain ⟨spills, queue, spill, room, others⟩ :=
        confirmCycle_spills (s := { s with probes := [] }) on head sorted (lane2Key_mod low) fits e.hops
      have only : Only [.tiles, .log, .vectors, .probes] s (confirmCycle { s with probes := [] } e.origin e.key e.hops) :=
        only_trans (only_mono (by simp) emptied) (only_mono (by simp) spills)
      exact ⟨_, by rw [ran, done_only hr hc only (by decide)], only, spills.2.2 .probes (by decide), queue, spill, room, others⟩
  case elsewhere =>
    intro e s hc hr probes due away k
    refine ⟨fun ends => ?_, fun m r q d few low link head full dike whole hop die => ?_⟩
    · have only := only_probes s []
      exact ⟨_, by rw [exec_probe_ends probes due away ends, done_only hr hc only (by decide)], only, rfl⟩
    · have only := only_probes s [{ e with side := sideNo d, router := q, hops := e.hops + 1, at_ := e.at_ + 1 }]
      exact ⟨_, by rw [exec_probe_forwards probes due away few low link head full dike whole hop die, done_only hr hc only (by decide)], only, rfl⟩
  case reinject =>
    intro p s side d lane q m0 r hc hr spill low m j whole free dike hop die apart unspilled grant
    exact reinjects hc hr spill low whole free dike hop die apart unspilled grant

end Sys2Proof.FabricProofs
end

section
/-! SUPPORT. The fields of a gauge message, the words of a gauge read at its block, waits of hub units, and WAKEs (R195-R201, R207). -/

namespace Sys2Proof.GaugeProofs

open Sys2Proof.Machine Sys2Proof.Safety Sys2Proof.Laws Sys2Proof.TileProofs Sys2Proof.StoreProofs

/-! ## Fields of a gauge message (Table 8.1) -/

/-- A number at the front of some bytes reads as it was written. -/
theorem leAt_leBytes_append (n v : Nat) (rest : List Byte) : leAt (leBytes n v ++ rest) 0 n = v % 256 ^ n := by
  rw [leAt_append_left _ _ _ _ (by rw [leBytes_length]; omega), leAt, List.drop_zero,
    List.take_of_length_le (by rw [leBytes_length]), leNat_leBytes]

/-- What stands behind a number is read past its bytes. -/
theorem leAt_leBytes_skip {n o : Nat} (k v : Nat) (rest : List Byte) (h : n ≤ o) :
    leAt (leBytes n v ++ rest) o k = leAt rest (o - n) k := by
  rw [leAt_append_right _ _ _ _ (by rwa [leBytes_length]), leBytes_length]

/-- A gauge payload as its fields in order, and zeros behind them. -/
theorem gaugePay_eq (vid op result operand timeout ctx wgen value phys : Nat) :
    gaugePay vid op result operand timeout ctx wgen value phys =
      leBytes 2 vid ++ (leBytes 1 op ++ (leBytes 1 result ++ (leBytes 4 operand ++ (leBytes 4 timeout ++ (leBytes 1 ctx ++
        (leBytes 1 wgen ++ (leBytes 2 0 ++ (leBytes 4 value ++ (leBytes 2 phys ++ List.replicate 42 0))))))))) := by
  rw [gaugePay, padTo, List.take_of_length_le (by simp [leBytes_length])]
  simp [leBytes_length]

theorem gaugePay_length (vid op result operand timeout ctx wgen value phys : Nat) :
    (gaugePay vid op result operand timeout ctx wgen value phys).length = 64 := padTo_length _ _

/-- The WAIT or signal that `hubSend` puts in front of the hub's block. -/
def hubMsg (dev unit tag ctx vid op operand timeout : Nat) : Msg :=
  (mkMsg (blockDest dev 4 0) tag 0 4 false (gaugePay vid op 0 operand timeout ctx 0 0 0)).put 34 34 (blockDest dev 4 unit)

section
variable (dev unit tag ctx vid op operand timeout : Nat)

theorem hubMsg_pay : (hubMsg dev unit tag ctx vid op operand timeout).pay = gaugePay vid op 0 operand timeout ctx 0 0 0 := by
  show padTo (64 * ((_ + 63) / 64)) _ = _
  rw [gaugePay_length, padTo, List.take_of_length_le (by simp [gaugePay_length])]
  simp [gaugePay_length]

theorem gOp_hubMsg (h : op < 256) : gOp (hubMsg dev unit tag ctx vid op operand timeout) = op := by
  rw [gOp, hubMsg_pay, gaugePay_eq, leAt_leBytes_skip _ _ _ (by omega), leAt_leBytes_append, Nat.pow_one, Nat.mod_eq_of_lt h]

theorem gVid_hubMsg (h : vid < 2048) : gVid (hubMsg dev unit tag ctx vid op operand timeout) = vid := by
  rw [gVid, hubMsg_pay, gaugePay_eq, leAt_leBytes_append, fld, Nat.shiftRight_zero]
  omega

theorem gOperand_hubMsg : gOperand (hubMsg dev unit tag ctx vid op operand timeout) = BitVec.ofNat 32 operand := by
  rw [gOperand, hubMsg_pay, gaugePay_eq]
  iterate 3 rw [leAt_leBytes_skip _ _ _ (by omega)]
  rw [leAt_leBytes_append]
  exact BitVec.eq_of_toNat_eq (by simp)

theorem gCtx_hubMsg (h : ctx < 64) : gCtx (hubMsg dev unit tag ctx vid op operand timeout) = ctx := by
  rw [gCtx, hubMsg_pay, gaugePay_eq]
  iterate 5 rw [leAt_leBytes_skip _ _ _ (by omega)]
  rw [leAt_leBytes_append, fld, Nat.shiftRight_zero]
  omega

theorem tag_hubMsg (h : tag < 65536) : (hubMsg dev unit tag ctx vid op operand timeout).tag = tag := by
  simp only [hubMsg, Msg.tag, Msg.f, Msg.put, mkMsg, fld, hset, b2n, BitVec.toNat_ofNat, Nat.shiftRight_eq_div_pow, gaugePay_length]
  norm_num
  omega

end

/-! ## Frames -/

theorem same_of_only {l : List Kind} {s t : State} (h : Only l s t) {k : Kind} (hk : k ∉ l) : k.same s t := h.2.2 k hk

theorem only_gauges (s : State) (x : Gauges) : Only [.gauges] s { s with gauges := x } := by
  refine ⟨rfl, rfl, fun k hk => ?_⟩
  cases k <;> simp [Kind.same] at hk ⊢

theorem only_gaugesCensus (s : State) (x : Gauges) (c : Assoc (BitVec 24)) :
    Only [.gauges, .census] s { s with gauges := x, census := c } := by
  refine ⟨rfl, rfl, fun k hk => ?_⟩
  cases k <;> simp [Kind.same] at hk ⊢

theorem only_rings (s : State) (g : Assoc RingSt) : Only [.rings] s { s with rings := g } := by
  refine ⟨rfl, rfl, fun k hk => ?_⟩
  cases k <;> simp [Kind.same] at hk ⊢

theorem deviceId_of_regs {s t : State} (h : t.regs = s.regs) : t.deviceId = s.deviceId := by
  rw [State.deviceId, State.deviceId, State.reg, State.reg, h]

@[simp] theorem gauge_setGauge_self (s : State) (g : Nat) (x : Gauge) : (s.setGauge g x).gauge g = x := agetD_aput_self _ _ _ _

theorem gauge_setGauge_other (s : State) (g j : Nat) (x : Gauge) (h : j ≠ g) : (s.setGauge g x).gauge j = s.gauge j :=
  agetD_aput_other _ _ _ _ _ h

theorem only_gaugeStat (s : State) (b k n : Nat) : Only [.gauges] s (s.gaugeStat b k n) := only_gauges s _

theorem gauge_gaugeStat (s : State) (b k n g : Nat) : (s.gaugeStat b k n).gauge g = s.gauge g := rfl

theorem gout_gaugeStat (s : State) (b k n j : Nat) : (s.gaugeStat b k n).gout j = s.gout j := rfl

theorem gin_gaugeStat (s : State) (b k n j : Nat) : (s.gaugeStat b k n).gin j = s.gin j := rfl

/-! ## The words of a gauge (R207) -/

/-- The state in which an access goes on whose words are good: a corrected one is counted and logged. -/
def eccNoted (s : State) (b : Nat) (e : Ecc) (c : Option Nat) : State :=
  if e = .corrected then (s.gaugeStat b 6 1).event 0x2160 11 b c [] else s

theorem gaugeEccAt_good {e : Ecc} (good : e ≠ .uncorrectable) (s : State) (b : Nat) (c run : Option Nat) (go : State → State) :
    gaugeEccAt s b e c run go = go (eccNoted s b e c) := by
  cases e with
  | clean => rfl
  | corrected => rfl
  | uncorrectable => exact absurd rfl good

/-- Such an access changes no gauge and no translation. -/
theorem eccNoted_shape (s : State) (b : Nat) (e : Ecc) (c : Option Nat) : ∃ st lg v w,
    eccNoted s b e c =
      { s with gauges := { s.gauges with stat := st }, log := lg, host := { s.host with vecPending := v, vecSent := w } } := by
  unfold eccNoted
  split
  · obtain ⟨lg, v, w, e⟩ := event_shape (s.gaugeStat b 6 1) 0x2160 11 b c []
    exact ⟨_, lg, v, w, e⟩
  · exact ⟨s.gauges.stat, s.log, s.host.vecPending, s.host.vecSent, rfl⟩

theorem only_eccNoted (s : State) (b : Nat) (e : Ecc) (c : Option Nat) : Only (eccKinds e) s (eccNoted s b e c) := by
  unfold eccNoted
  split
  case isTrue h =>
    rw [h]
    exact only_trans (only_mono (by simp [eccKinds]) (only_gaugeStat s b 6 1))
      (only_mono (by simp [eccKinds]) (FabricProofs.only_event _ _ _ _ _ _))
  case isFalse => exact only_refl _ s

/-- What stands in state z as in s once the words of a gauge have been read. -/
structure WordsRead (e : Ecc) (s z : State) : Prop where
  only : Only (eccKinds e) s z
  gauge : ∀ g, z.gauge g = s.gauge g
  gaugeOf : ∀ c v, z.gaugeOf c v = s.gaugeOf c v
  rings : z.rings = s.rings

theorem eccNoted_read (s : State) (b : Nat) (e : Ecc) (c : Option Nat) : WordsRead e s (eccNoted s b e c) := by
  obtain ⟨st, lg, v, w, noted⟩ := eccNoted_shape s b e c
  refine ⟨only_eccNoted s b e c, fun g => ?_, fun c v => ?_, ?_⟩ <;> rw [noted] <;> rfl

/-- The block whose words an access to a virtual gauge reads. -/
def blockOf (s : State) (ctx vid : Nat) : Nat := (s.gaugeOf ctx vid).elim 4 (· / 4096)

theorem gaugeEccOf_eq (s : State) (ctx vid : Nat) (e : Ecc) (run : Option Nat) (go : State → State) :
    gaugeEccOf s ctx vid e run go = gaugeEccAt s (blockOf s ctx vid) e (some ctx) run go := by
  unfold gaugeEccOf blockOf
  cases s.gaugeOf ctx vid <;> rfl

/-- A ring command whose gauge words are good goes on with them. -/
theorem gaugeCommand_good {e : Ecc} (good : e ≠ .uncorrectable) (s : State) (r : Nat) (p : Pkt) :
    ∃ z, WordsRead e s z ∧ ∀ go, gaugeCommand s r p e go = go z := by
  have plain : (e == .uncorrectable) = false := beq_eq_false_iff_ne.mpr good
  refine ⟨_, eccNoted_read s (blockOf s p.ctx (p.b 8 2)) e (some p.ctx), fun go => ?_⟩
  rw [gaugeCommand, plain, if_neg Bool.false_ne_true, gaugeEccOf_eq, gaugeEccAt_good good]

theorem gaugeCommand_clean (s : State) (r : Nat) (p : Pkt) (go : State → State) : gaugeCommand s r p .clean go = go s := rfl

/-! ## Waits of hub units (R197, R200) -/

theorem gin_pushGin_self (s : State) (b : Nat) (m : Msg) : (s.pushGin b m).gin b = s.gin b ++ [m] := by
  simp [State.pushGin, State.setGin, State.gin]

section
variable (s : State) (unit what q ctx vid : Nat) (target : W32) (limit : Nat)

theorem only_hubWait : Only [.gauges, .transactions] s (hubWait s unit what q ctx vid target limit) := by
  obtain ⟨x, e⟩ := hubWait_shape s unit what q ctx vid target limit
  rw [e]
  refine ⟨rfl, rfl, fun k hk => ?_⟩
  cases k <;> simp [Kind.same] at hk ⊢

theorem hubWaits_hubWait : (hubWait s unit what q ctx vid target limit).gauges.hubWaits = s.gauges.hubWaits ++
    [⟨unit, s.ms.nextId % 65536, what, q, ctx, vid, target, s.clk, limit, none, 0, 0⟩] := rfl

/-- The WAIT of a unit that starts to wait joins the queue of the hub's block. -/
theorem hubWait_sends (ctxFits : ctx < 64) (vidFits : vid < 2048) :
    ∃ m, (hubWait s unit what q ctx vid target limit).gin 4 = s.gin 4 ++ [m] ∧ gOp m = 2 ∧ gOperand m = target ∧ gVid m = vid ∧
      gCtx m = ctx ∧ m.tag = s.ms.nextId % 65536 := by
  refine ⟨hubMsg s.deviceId unit (s.ms.nextId % 65536) ctx vid 2 target.toNat (waitTimeout limit), gin_pushGin_self _ 4 _,
    gOp_hubMsg _ _ _ _ _ _ _ _ (by decide), ?_, gVid_hubMsg _ _ _ _ _ _ _ _ vidFits, gCtx_hubMsg _ _ _ _ _ _ _ _ ctxFits,
    tag_hubMsg _ _ _ _ _ _ _ _ (Nat.mod_lt _ (by decide))⟩
  rw [gOperand_hubMsg, BitVec.ofNat_toNat, BitVec.setWidth_eq]

theorem gauge_hubWait (g : Nat) : (hubWait s unit what q ctx vid target limit).gauge g = s.gauge g := rfl

theorem txns_hubWait : (hubWait s unit what q ctx vid target limit).ms.txns = s.ms.txns := rfl

end

/-! ## WAKEs (R201) -/

theorem gout_pushGout_self (s : State) (b : Nat) (m : Msg) : (s.pushGout b m).gout b = s.gout b ++ [m] := by
  simp [State.pushGout, State.setGout, State.gout]

theorem gout_sendWake (s : State) (b : Nat) (w : Wake) : (s.sendWake b w).gout b = s.gout b ++ [wakeMsg s.deviceId b w] := by
  obtain ⟨c, e⟩ := count_shape s (wakeMsg s.deviceId b w) 1
  rw [State.sendWake, e]
  exact gout_pushGout_self _ _ _

theorem only_sendWake (s : State) (b : Nat) (w : Wake) : Only [.gauges, .census] s (s.sendWake b w) := by
  obtain ⟨o, c, e⟩ := sendWake_shape s b w
  rw [e]
  exact only_gaugesCensus s _ c

theorem gauge_sendWake (s : State) (b : Nat) (w : Wake) (g : Nat) : (s.sendWake b w).gauge g = s.gauge g := by
  obtain ⟨o, c, e⟩ := sendWake_shape s b w
  rw [e]
  rfl

theorem gin_sendWake (s : State) (b : Nat) (w : Wake) (k : Nat) : (s.sendWake b w).gin k = s.gin k := by
  obtain ⟨o, c, e⟩ := sendWake_shape s b w
  rw [e]
  rfl

theorem deviceId_sendWake (s : State) (b : Nat) (w : Wake) : (s.sendWake b w).deviceId = s.deviceId :=
  deviceId_of_regs (same_of_only (only_sendWake s b w) (k := .registers) (by decide))

/-- WAKEs for a list of waiters leave in its order. -/
theorem gout_sendWakes (b : Nat) (f : Waiter → Wake) (l : List Waiter) (s : State) :
    (l.foldl (fun y w => y.sendWake b (f w)) s).gout b = s.gout b ++ l.map (fun w => wakeMsg s.deviceId b (f w)) := by
  induction l generalizing s with
  | nil => simp
  | cons w l ih => rw [List.foldl_cons, ih, gout_sendWake, deviceId_sendWake, List.map_cons, List.append_assoc, List.singleton_append]

/-- The WAKEs for the waiters of gauge g that value v satisfies, in the order they registered. -/
def wokenBy (s : State) (g : Nat) (v : W32) : List Msg :=
  ((s.gauge g).waiters.filter (fun w => satisfied v w.target)).map (fun w => wakeMsg s.deviceId (g / 4096) ⟨w, 0, v, physWord g⟩)

theorem wakeSatisfied_waiters (s : State) (g : Nat) :
    ((wakeSatisfied s g).gauge g).waiters = (s.gauge g).waiters.filter (fun w => !satisfied (s.gauge g).value w.target) := by
  unfold wakeSatisfied
  dsimp only
  obtain ⟨o, c, e⟩ := sendWakes_shape (g / 4096) (fun w => ⟨w, 0, (s.gauge g).value, physWord g⟩)
    ((s.gauge g).waiters.filter (fun w => satisfied (s.gauge g).value w.target))
    (s.setGauge g { s.gauge g with waiters := (s.gauge g).waiters.filter (fun w => !satisfied (s.gauge g).value w.target) })
  rw [e]
  exact congrArg Gauge.waiters (gauge_setGauge_self s g _)

theorem wakeSatisfied_gout (s : State) (g : Nat) :
    (wakeSatisfied s g).gout (g / 4096) = s.gout (g / 4096) ++ wokenBy s g (s.gauge g).value :=
  gout_sendWakes (g / 4096) (fun w => ⟨w, 0, (s.gauge g).value, physWord g⟩) _ (s.setGauge g _)

section
variable (s : State) (g : Nat) (isSet : Bool) (operand : W32) (tile unit : Nat) (hub : Bool)

theorem only_applySignal : Only [.gauges, .census] s (applySignal s g isSet operand tile unit hub) := by
  obtain ⟨x, c, e⟩ := applySignal_shape s g isSet operand tile unit hub
  rw [e]
  exact only_gaugesCensus s x c

/-- A signal leaves the waiters that its new value does not satisfy, and sends the others their WAKE. -/
theorem applySignal_wakes :
    ((applySignal s g isSet operand tile unit hub).gauge g).waiters = (s.gauge g).waiters.filter
      (fun w => !satisfied (if isSet then operand else (s.gauge g).value + operand) w.target) ∧
    (applySignal s g isSet operand tile unit hub).gout (g / 4096) =
      s.gout (g / 4096) ++ wokenBy s g (if isSet then operand else (s.gauge g).value + operand) := by
  unfold applySignal
  dsimp only
  generalize hz : s.setGauge g _ = z
  have gauge : z.gauge g = { s.gauge g with
      value := if isSet then operand else (s.gauge g).value + operand
      lastTide := s.tideCount
      lastSrc := lastSrcWord s.tidePhase tile unit hub isSet } := by rw [← hz, gauge_setGauge_self]
  have out : z.gout (g / 4096) = s.gout (g / 4096) := by rw [← hz]; rfl
  have woken (v : W32) : wokenBy z g v = wokenBy s g v := by
    rw [wokenBy, gauge, ← hz]; rfl
  refine ⟨(wakeSatisfied_waiters z g).trans ?_, (wakeSatisfied_gout z g).trans ?_⟩
  · rw [gauge]
  · rw [out, woken, gauge]

end

end Sys2Proof.GaugeProofs
end

section
/-! PROOFS. Gauges after PERST_N and after FABRIC_RESET (R208). -/

namespace Sys2Proof.GaugeProofs

open Sys2Proof.Machine Sys2Proof.Safety Sys2Proof.Laws Sys2Proof.TileProofs Sys2Proof.StoreProofs

/-- No table of the gauge blocks lists anything, but for their counters. -/
structure GaugesEmpty (g : Gauges) : Prop where
  gauges : g.gauges = []
  xlat : g.xlat = []
  tctx : g.tctx = []
  used : g.waitersUsed = []
  wakes : g.wakes = []
  out : g.out = []

theorem gaugesEmpty_reset : GaugesEmpty Gauges.reset := ⟨rfl, rfl, rfl, rfl, rfl, rfl⟩

theorem gaugesEmpty_fabricReset (g : Gauges) : GaugesEmpty g.fabricReset := ⟨rfl, rfl, rfl, rfl, rfl, rfl⟩

/-- Each look-up in an empty table gives the default of the table. -/
theorem gaugesEmpty_reads {t : State} (h : GaugesEmpty t.gauges) :
    (∀ g, (t.gauge g).value = 0 ∧ (t.gauge g).waiters = [] ∧ t.gauge g = Gauge.reset) ∧ (∀ c v, t.gaugeOf c v = none) ∧
      (∀ n, aget? t.gauges.tctx n = none) ∧ (∀ b, agetD t.gauges.waitersUsed b 0 = 0) ∧ t.gauges.wakes = [] ∧ ∀ b, t.gout b = [] := by
  have reset (g : Nat) : t.gauge g = Gauge.reset := by rw [State.gauge, h.gauges]; rfl
  refine ⟨fun g => ?_, fun c v => ?_, fun n => ?_, fun b => ?_, h.wakes, fun b => ?_⟩
  · rw [reset]; exact ⟨rfl, rfl, rfl⟩
  · simp [State.gaugeOf, h.xlat, agetD, bitOf]
  · rw [h.tctx]; rfl
  · rw [h.used]; rfl
  · rw [State.gout, h.out]; rfl

/-- FABRIC_RESET on the state after its packet is taken (R311). -/
def fabricCleared (s : State) : State :=
  ((endAccepted stJobFault 0 0 (fun _ _ => false) (s.event 0x4100 14 0 none [])).haltUsers).resetFabric

/-- The reset of the fabric moves no ring's head and no tail. -/
theorem fabricCleared_heads (s : State) : HeadsStand s (fabricCleared s) := by
  obtain ⟨lg, v, w, e⟩ := event_shape s 0x4100 14 0 none []
  have event : HeadsStand s (s.event 0x4100 14 0 none []) := by rw [e]; exact fun _ => ⟨rfl, rfl⟩
  exact heads_trans event (heads_trans (endAccepted_heads stJobFault 0 0 _) (haltUsers_heads _))

theorem refuse_heads (s : State) (r : Nat) (p : Pkt) (status : Nat) : HeadsStand s (refuse s r p status) := by
  intro q
  by_cases h : q = r
  · subst h; simp [refuse]
  · rw [refuse, ring_answer_other _ _ _ _ _ _ _ _ h]; exact ⟨rfl, rfl⟩

/-- Settles O56: PERST_N puts the gauge blocks at reset, and FABRIC_RESET leaves them nothing but their counters. -/
theorem gaugesAtReset : Obligations.GaugesAtReset := by
  unfold Obligations.GaugesAtReset
  refine ⟨fun s high => ?perst, fun ring s p takes => ?fabric⟩
  case perst =>
    refine ⟨doneBoard s (perstState s), ?_, gaugesEmpty_reads gaugesEmpty_reset⟩
    rw [show exec .perstNAssert s = execPerstNAssert s from rfl, execPerstNAssert, high, if_neg Bool.false_ne_true]
  case fabric =>
    let r := ringNo ring
    have ran : checked (advance s r) r p [] (refuse (fabricCleared (advance s r)) r p stOk) =
        refuse (fabricCleared (advance s r)) r p stOk := checked_takes takes _ _
    have heads : HeadsStand (advance s r) (refuse (fabricCleared (advance s r)) r p stOk) :=
      heads_trans (fabricCleared_heads _) (refuse_heads _ _ _ _)
    refine ring_runs (form := none) (body := fun s r p => checked s r p [] (refuse (fabricCleared s) r p stOk)) rfl _ takes (by simp) ran ?_
      (gaugesEmpty_reads ?_)
    · rw [(heads r).1, (heads r).2]
      exact advance_empty takes
    · rw [done_gauges _ _ takes.runs]
      exact gaugesEmpty_fabricReset _

end Sys2Proof.GaugeProofs
end

section
/-! PROOFS. GAUGE_SET and GAUGE_READ, and the limit of a read that waits (R197, R200, R207, R310). -/

namespace Sys2Proof.GaugeProofs

open Sys2Proof.Machine Sys2Proof.Safety Sys2Proof.Laws Sys2Proof.TileProofs Sys2Proof.StoreProofs

/-! ## Commands on a gauge whose words are good -/

section
variable {s : State} {ring : Ring} {e : Ecc} {p : Pkt} {g : Nat} (bound : s.gaugeOf p.ctx (p.b 8 2) = some g)
include bound

/-- GAUGE_SET writes the bound gauge or adds to it, and answers what it then holds. -/
theorem gaugeSet_ends (takes : Takes s ring 0x60 [(8, 2, 0x7FF), (10, 1, 1), (12, 4, 0)] p) (good : e ≠ .uncorrectable) :
    let v := if p.b 10 1 = 1 then BitVec.ofNat 32 (p.b 12 4) else (s.gauge g).value + BitVec.ofNat 32 (p.b 12 4)
    ∃ t, exec (.gaugeSet ring e) s = .next t ∧ Ends s t ring p (.gauges :: .census :: eccKinds e) stOk v.toNat 0 0 ∧
      (t.gauge g).value = v ∧ ∀ j, j ≠ g → t.gauge j = s.gauge j := by
  intro v
  let r := ringNo ring
  let operand := BitVec.ofNat 32 (p.b 12 4)
  obtain ⟨z, read, reads⟩ := gaugeCommand_good good (advance s r) r p
  have gauge (j : Nat) : z.gauge j = s.gauge j := (read.gauge j).trans (gauge_advance s r j)
  have bound' : z.gaugeOf p.ctx (p.b 8 2) = some g := (read.gaugeOf _ _).trans ((gaugeOf_advance s r _ _).trans bound)
  have only := only_applySignal z g (p.b 10 1 == 1) operand 0 0 true
  obtain ⟨value, others, -⟩ := applySignal_gauge z g (p.b 10 1 == 1) operand 0 0 true
  simp only [gauge, beq_iff_eq] at value others
  refine ring_completes rfl (applySignal z g (p.b 10 1 == 1) operand 0 0 true) stOk v.toNat 0 0
    (.gauges :: .census :: eccKinds e) takes (by simp) ?body ?rings ?kinds (fun ends => ⟨ends, ?_, fun j hj => ?_⟩)
  case body =>
    rw [checked_takes takes, reads, bound']
    dsimp only
    rw [value]
  case rings => exact (same_of_only only (k := .rings) (by decide)).trans read.rings
  case kinds =>
    intro k hk
    simp only [List.mem_cons, not_or] at hk
    obtain ⟨-, -, gauges, census, word⟩ := hk
    exact same_trans (same_of_only read.only word) (same_of_only only (by simp [gauges, census]))
  · rw [gauge_done takes.runs]; exact value
  · rw [gauge_done takes.runs]; exact others j hj

/-- GAUGE_READ without wait answers what the words hold. -/
theorem gaugeRead_ends (takes : Takes s ring 0x61 [(8, 2, 0x7FF), (10, 1, 1), (12, 4, 0), (16, 4, 0)] p) (now : p.b 10 1 = 0)
    (good : e ≠ .uncorrectable) : ∃ t, exec (.gaugeRead ring e) s = .next t ∧
      Ends s t ring p (eccKinds e) stOk (s.gauge g).value.toNat (physWord g).toNat 0 := by
  let r := ringNo ring
  obtain ⟨z, read, reads⟩ := gaugeCommand_good good (advance s r) r p
  have gauge : z.gauge g = s.gauge g := (read.gauge g).trans (gauge_advance s r g)
  have bound' : z.gaugeOf p.ctx (p.b 8 2) = some g := (read.gaugeOf _ _).trans ((gaugeOf_advance s r _ _).trans bound)
  refine ring_completes rfl z stOk (s.gauge g).value.toNat (physWord g).toNat 0 (eccKinds e) takes (by simp) ?body read.rings
    (fun k hk => same_of_only read.only (fun word => hk (by simp [word]))) id
  rw [checked_takes takes, reads, bound', now]
  dsimp only
  rw [gauge]
  rfl

/-- GAUGE_READ with wait is a wait of the hub for the command's tag. -/
theorem gaugeRead_begins (takes : Takes s ring 0x61 [(8, 2, 0x7FF), (10, 1, 1), (12, 4, 0), (16, 4, 0)] p) (waiting : p.b 10 1 = 1)
    (ctx : p.ctx < 64) (vid : p.b 8 2 < 2048) :
    let tag := s.ms.nextId % 65536
    ∃ t, exec (.gaugeRead ring .clean) s = .next t ∧ Begins s t ring p [.gauges, .transactions] [tag] ∧
      t.gauges.hubWaits = s.gauges.hubWaits ++
        [⟨0, tag, 0, 0, p.ctx, p.b 8 2, BitVec.ofNat 32 (p.b 12 4), s.clk, 1024 * p.b 16 4, none, 0, 0⟩] ∧
      (∃ m, t.gin 4 = s.gin 4 ++ [m] ∧ gOp m = 2 ∧ gOperand m = BitVec.ofNat 32 (p.b 12 4) ∧ gVid m = p.b 8 2 ∧ gCtx m = p.ctx ∧
        m.tag = tag) ∧
      (∀ j, t.gauge j = s.gauge j) ∧ t.ms.txns = s.ms.txns := by
  intro tag
  let r := ringNo ring
  let target := BitVec.ofNat 32 (p.b 12 4)
  let limit := 1024 * p.b 16 4
  let y := accept (advance s r) r p [tag]
  have gauges : y.gauges = s.gauges := by simp [y]
  have ms : y.ms = s.ms := by simp [y]
  have clk : y.clk = s.clk := by simp [y]
  have only := only_hubWait y 0 0 0 p.ctx (p.b 8 2) target limit
  have waits := hubWaits_hubWait y 0 0 0 p.ctx (p.b 8 2) target limit
  obtain ⟨m, sent, fields⟩ := hubWait_sends y 0 0 0 p.ctx (p.b 8 2) target limit ctx vid
  rw [gauges, ms, clk] at waits
  rw [State.gin, State.gin, gauges] at sent
  rw [ms] at fields
  refine ring_accepts rfl (hubWait y 0 0 0 p.ctx (p.b 8 2) target limit) [tag] [.gauges, .transactions] takes (by simp) ?body
    (same_of_only only (k := .rings) (by decide)) (fun k hk => ?kinds)
    (fun begun => ⟨begun, ?_, ⟨m, ?_, fields⟩, fun j => ?_, ?_⟩)
  case body =>
    rw [checked_takes takes, gaugeCommand_clean, gaugeOf_advance, bound, waiting]
    simp [y, tag, r, target, limit]
  case kinds =>
    simp only [List.mem_cons, not_or] at hk
    exact same_trans (same_of_only (only_rings (advance s r) y.rings) (by simp [hk])) (same_of_only only (by simp [hk]))
  · rw [done_gauges _ _ takes.runs]; exact waits
  · rw [State.gin, done_gauges _ _ takes.runs]; exact sent
  · rw [gauge_done takes.runs, gauge_hubWait, State.gauge, gauges, State.gauge]
  · rw [done_ms _ _ takes.runs, txns_hubWait, ms]

end

/-- GAUGE_SET of a virtual ID that is bound to no gauge. -/
theorem gaugeSet_refused {s : State} {ring : Ring} {p : Pkt} (takes : Takes s ring 0x60 [(8, 2, 0x7FF), (10, 1, 1), (12, 4, 0)] p)
    (unbound : s.gaugeOf p.ctx (p.b 8 2) = none) :
    ∃ t, exec (.gaugeSet ring .clean) s = .next t ∧ Ends s t ring p [] stBadParam 0 0 0 := by
  refine ring_replies rfl takes (by simp) ?_
  rw [checked_takes takes, gaugeCommand_clean, gaugeOf_advance, unbound]
  rfl

/-! ## The limit of a read that waits -/

/-- A limit that has passed leaves nothing. -/
theorem limitLeft_passed {limit since : Nat} (limited : limit ≠ 0) (passed : limit ≤ since) : limitLeft limit since = none := by
  simp [limitLeft, limited, Nat.not_lt.mpr passed]

/-- State x has dropped wait h of the hub, and nothing but the records of the gauge blocks differs. -/
structure WaitDropped (s x : State) (h : HubWait) : Prop where
  only : Only [.gauges] s x
  gone : h ∉ x.gauges.hubWaits

theorem dropHubWaits_dropped (s : State) (h : HubWait) : WaitDropped s (dropHubWaits s (· == h)) h :=
  ⟨only_gauges s _, by simp [dropHubWaits]⟩

theorem waitDropped_counted {s x : State} {h : HubWait} (d : WaitDropped s x h) (b k n : Nat) : WaitDropped s (x.gaugeStat b k n) h :=
  ⟨only_trans d.only (only_gauges x _), d.gone⟩

/-- A command that ends when its wait has been dropped. -/
theorem waitDropped_completes {s x : State} {h : HubWait} (d : WaitDropped s x h) (hr : Runs s) (hc : Canonical s) (r : Nat) (c : Cmd)
    (reply : Reply) : Only [.rings, .gauges] s (done s (x.complete r c reply)) ∧
      (done s (x.complete r c reply)).ring r = { s.ring r with
        accepted := (s.ring r).accepted.erase c, replies := (s.ring r).replies ++ [reply] } ∧
      (∀ q, q ≠ r → (done s (x.complete r c reply)).ring q = s.ring q) ∧ h ∉ (done s (x.complete r c reply)).gauges.hubWaits := by
  have rings (q : Nat) : x.ring q = s.ring q := ring_eq_of (same_of_only d.only (k := .rings) (by decide))
  have only : Only [.rings, .gauges] s (x.complete r c reply) :=
    only_trans (only_mono (by simp) d.only) (only_mono (by simp) (only_rings x (x.complete r c reply).rings))
  rw [FabricProofs.done_only hr hc only (by decide)]
  refine ⟨only, by rw [ring_complete_self, rings], fun q hq => by rw [ring_complete_other _ _ _ _ _ hq, rings], d.gone⟩

/-- GAUGE_READ_TIMEOUT of a command whose wait's limit has passed. -/
theorem exec_gaugeReadTimeout_passed {ring : Ring} {sq : BitVec 16} {s : State} {c : Cmd} {h : HubWait}
    (accepted : (s.ring (ringNo ring)).accepted.find? (fun c => c.opcode == 0x61 && c.seqNo == sq.toNat) = some c)
    (waits : s.gauges.hubWaits.find? (fun h => h.what == 0 && c.aux == [h.tag]) = some h) (limited : h.limit ≠ 0)
    (passed : h.limit ≤ s.clk - h.start) :
    (∀ g, readAt s h = some g → exec (.gaugeReadTimeout ring sq) s =
      .next (done s (((dropHubWaits s (· == h)).gaugeStat (g / 4096) 3 1).complete (ringNo ring) c
        (c.reply stTimeout (s.gauge g).value.toNat (physWord g).toNat 0)))) ∧
    (readAt s h = none → h.retryAt.isSome = true → exec (.gaugeReadTimeout ring sq) s =
      .next (done s ((dropHubWaits s (· == h)).complete (ringNo ring) c
        (c.reply stTimeout h.lastValue.toNat h.lastPhys.toNat 0)))) := by
  constructor
  · intro g registered
    simp only [exec, execGaugeReadTimeout, accepted, waits, limitLeft_passed limited passed, registered, Option.isSome_none,
      Bool.false_eq_true, if_false]
  · intro unregistered retries
    simp only [exec, execGaugeReadTimeout, accepted, waits, limitLeft_passed limited passed, unregistered, retries, Option.isSome_none,
      Bool.false_eq_true, if_false, if_true]

/-- Settles O14: a command whose gauge words are good acts on the state with what was read noted; a read that waits is a wait of the
hub, whose record the limit drops. -/
theorem gaugeSetAndRead : Obligations.GaugeSetAndRead := by
  unfold Obligations.GaugeSetAndRead
  refine ⟨fun ring e s p g takes bound good => gaugeSet_ends bound takes good,
    fun ring s p takes unbound => gaugeSet_refused takes unbound,
    fun ring e s p g takes bound now good => gaugeRead_ends bound takes now good,
    fun ring s p g takes bound waiting ctx vid => gaugeRead_begins bound takes waiting ctx vid,
    fun ring sq s c h hc hr accepted waits limited passed => ?timeout⟩
  obtain ⟨registered, retries⟩ := exec_gaugeReadTimeout_passed accepted waits limited passed
  have dropped := dropHubWaits_dropped s h
  exact ⟨fun g at_ => ⟨_, registered g at_, waitDropped_completes (waitDropped_counted dropped _ _ _) hr hc _ _ _⟩,
    fun off retry => ⟨_, retries off retry, waitDropped_completes dropped hr hc _ _ _⟩⟩

end Sys2Proof.GaugeProofs
end

section
/-! PROOFS. ADD, SET and WAIT at a gauge block (R195, R200, R201). -/

namespace Sys2Proof.GaugeProofs

open Sys2Proof.Machine Sys2Proof.Safety Sys2Proof.Laws Sys2Proof.TileProofs Sys2Proof.StoreProofs

/-- Message m stands at the head of block b of the part, well formed, and its context c binds its virtual ID to gauge g of the block. -/
structure AtHead (s : State) (b : Nat) (m : Msg) (c g : Nat) : Prop where
  canonical : Canonical s
  runs : Runs s
  sorted : asorted s.gauges.inq = true
  block : b < 5
  present : b = 4 ∨ b < s.dies
  head : (s.gin b).head? = some m
  formed : gaugeMalformed m = false
  ctx : gaugeCtx s m = some c
  bound : s.gaugeOf c (gVid m) = some g
  here : g / 4096 = b

/-- The head of block b leaves its queue, and a queue whose post it is expects it no more. -/
def headTaken (s : State) (b : Nat) (m : Msg) : State := postTaken (s.setGin b ((s.gin b).drop 1)) m

theorem headTaken_shape (s : State) (b : Nat) (m : Msg) : ∃ q, headTaken s b m =
    { s.setGin b ((s.gin b).drop 1) with ms := { s.ms with queues := q } } := postTaken_shape _ m

theorem only_headTaken (s : State) (b : Nat) (m : Msg) : Only [.gauges, .pumpQueues] s (headTaken s b m) := by
  obtain ⟨q, e⟩ := headTaken_shape s b m
  rw [e]
  refine ⟨rfl, rfl, fun k hk => ?_⟩
  cases k <;> simp [Kind.same, State.setGin] at hk ⊢

theorem gauge_headTaken (s : State) (b : Nat) (m : Msg) (g : Nat) : (headTaken s b m).gauge g = s.gauge g := by
  obtain ⟨q, e⟩ := headTaken_shape s b m
  rw [e]
  rfl

theorem gin_headTaken (s : State) (b : Nat) (m : Msg) (sorted : asorted s.gauges.inq = true) :
    (headTaken s b m).gin b = (s.gin b).drop 1 := by
  obtain ⟨q, e⟩ := headTaken_shape s b m
  rw [e]
  exact gin_setGin s b _ sorted

theorem deviceId_headTaken (s : State) (b : Nat) (m : Msg) : (headTaken s b m).deviceId = s.deviceId :=
  deviceId_of_regs (same_of_only (only_headTaken s b m) (k := .registers) (by decide))

theorem out_headTaken (s : State) (b : Nat) (m : Msg) : (headTaken s b m).gauges.out = s.gauges.out := by
  obtain ⟨q, e⟩ := headTaken_shape s b m
  rw [e]
  rfl

theorem gout_headTaken (s : State) (b : Nat) (m : Msg) (k : Nat) : (headTaken s b m).gout k = s.gout k := by
  rw [State.gout, out_headTaken, State.gout]

theorem used_headTaken (s : State) (b : Nat) (m : Msg) : (headTaken s b m).gauges.waitersUsed = s.gauges.waitersUsed := by
  obtain ⟨q, e⟩ := headTaken_shape s b m
  rw [e]
  rfl

/-- Only an ADD is the post of a pump. -/
theorem only_headTaken_wait (s : State) (b : Nat) {m : Msg} (op : gOp m = 2) : Only [.gauges] s (headTaken s b m) := by
  have plain : headTaken s b m = s.setGin b ((s.gin b).drop 1) := by simp [headTaken, postTaken, op]
  rw [plain]
  exact only_gauges s _

section
variable {s : State} {b : BitVec 3} {m : Msg} {c g : Nat} (h : AtHead s b.toNat m c g)
include h

/-! ## ADD and SET -/

theorem signalAt_head (isSet : Bool) : ∃ tile unit hub, signalAt s b.toNat m isSet =
    commitBySignal (applySignal (headTaken s b.toNat m) g isSet (gOperand m) tile unit hub) m := by
  rw [signalAt, gaugeTake_own _ h.formed h.ctx h.bound h.here]
  exact ⟨_, _, _, rfl⟩

/-- What a signal leaves whose command is one of its block. -/
theorem signal_applies {i : Instr} {isSet : Bool} {v : W32} (ran : exec i s = .next (done s (signalAt s b.toNat m isSet)))
    (value : v = if isSet then gOperand m else (s.gauge g).value + gOperand m) :
    ∃ t, exec i s = .next t ∧ Only [.gauges, .runs, .census, .pumpQueues] s t ∧
      (t.gauge g).value = v ∧ (t.gauge g).waiters = (s.gauge g).waiters.filter (fun w => !satisfied v w.target) ∧
      (∀ j, j ≠ g → t.gauge j = s.gauge j) ∧
      t.gout b.toNat = s.gout b.toNat ++ ((s.gauge g).waiters.filter (fun w => satisfied v w.target)).map
        (fun w => wakeMsg s.deviceId b.toNat ⟨w, 0, v, physWord g⟩) ∧
      t.gin b.toNat = (s.gin b.toNat).drop 1 := by
  obtain ⟨tile, unit, hub, e⟩ := signalAt_head h isSet
  obtain ⟨value', others, queue⟩ := applySignal_gauge (headTaken s b.toNat m) g isSet (gOperand m) tile unit hub
  obtain ⟨waiters, sent⟩ := applySignal_wakes (headTaken s b.toNat m) g isSet (gOperand m) tile unit hub
  have only := only_applySignal (headTaken s b.toNat m) g isSet (gOperand m) tile unit hub
  generalize applySignal (headTaken s b.toNat m) g isSet (gOperand m) tile unit hub = y at e value' others queue waiters sent only
  obtain ⟨r, committed⟩ := commitBySignal_shape y m
  have onlyRuns : Only [.runs] y { y with runs := r } :=
    ⟨rfl, rfl, fun k hk => by cases k <;> simp [Kind.same] at hk ⊢⟩
  have frame : Only [.gauges, .runs, .census, .pumpQueues] s { y with runs := r } :=
    only_trans (only_trans (only_mono (by simp) (only_headTaken s b.toNat m)) (only_mono (by simp) only)) (only_mono (by simp) onlyRuns)
  rw [gauge_headTaken, ← value] at value' waiters sent
  refine ⟨{ y with runs := r }, ?_, frame, value', waiters, fun j hj => ?_, ?_, ?_⟩
  · rw [ran, e, committed, FabricProofs.done_only h.runs h.canonical frame (by decide)]
  · exact (others j hj).trans (gauge_headTaken _ _ _ _)
  · rw [h.here, gout_headTaken, wokenBy, gauge_headTaken, deviceId_headTaken, h.here] at sent
    exact sent
  · have : y.gin b.toNat = (headTaken s b.toNat m).gin b.toNat := by rw [State.gin, queue, State.gin]
    exact this.trans (gin_headTaken s _ m h.sorted)

theorem exec_add_head (op : gOp m = 0) : exec (.add b .clean) s = .next (done s (signalAt s b.toNat m false)) := by
  simp only [exec, execAdd, atBlock_some (ops := fun o => o == 0 || o > 2) h.block h.present h.head (by simp [op])]
  rfl

theorem exec_set_head (op : gOp m = 1) : exec (.set b .clean) s = .next (done s (signalAt s b.toNat m true)) := by
  simp only [exec, execSet, atBlock_some (ops := fun o => o == 1) h.block h.present h.head (by simp [op])]
  rfl

/-! ## WAIT -/

theorem exec_wait_head (op : gOp m = 2) :
    exec (.wait b .clean) s = .next (done s (waitAt (headTaken s b.toNat m) b.toNat g (waiterOf s m c))) := by
  have at_ := atBlock_some (ops := fun o => o == 2) h.block h.present h.head (by simp [op])
  simp only [exec, execWait, at_, gaugeEcc, gaugeEccAt, h.ctx, h.bound]
  rw [gaugeTake_own _ h.formed h.ctx h.bound h.here]
  simp [headTaken]

end

/-- A WAIT whose target the value does not satisfy is registered where there is room (R200). -/
theorem waitAt_registers {s : State} {b g : Nat} {w : Waiter} (fails : satisfied (s.gauge g).value w.target = false)
    (room : (s.gauge g).waiters.length < 64 ∧ agetD s.gauges.waitersUsed b 0 < 8192) :
    Only [.gauges] s (waitAt s b g w) ∧ (waitAt s b g w).gauge g = { s.gauge g with waiters := (s.gauge g).waiters ++ [w] } ∧
      (∀ j, j ≠ g → (waitAt s b g w).gauge j = s.gauge j) ∧ (waitAt s b g w).gauges.out = s.gauges.out ∧
      ∀ k, (waitAt s b g w).gin k = s.gin k := by
  unfold waitAt
  dsimp only
  rw [fails, if_neg Bool.false_ne_true, if_pos (by simpa using room)]
  exact ⟨only_gauges s _, gauge_setGauge_self s g _, fun j hj => gauge_setGauge_other s g j _ hj, rfl, fun _ => rfl⟩

/-- A WAIT that is satisfied, and one that finds no room, is answered with a WAKE at once (R200, R201). -/
theorem waitAt_answers {s : State} {b g : Nat} {w : Waiter} {r : BitVec 8}
    (answer : satisfied (s.gauge g).value w.target = true ∧ r = 0 ∨ satisfied (s.gauge g).value w.target = false ∧
      ¬ ((s.gauge g).waiters.length < 64 ∧ agetD s.gauges.waitersUsed b 0 < 8192) ∧ r = 2) :
    Only [.gauges, .census] s (waitAt s b g w) ∧ (∀ j, (waitAt s b g w).gauge j = s.gauge j) ∧
      (waitAt s b g w).gout b = s.gout b ++ [wakeMsg s.deviceId b ⟨w, r, (s.gauge g).value, physWord g⟩] ∧
      ∀ k, (waitAt s b g w).gin k = s.gin k := by
  obtain ⟨k, e⟩ : ∃ k, waitAt s b g w = (s.sendWake b ⟨w, r, (s.gauge g).value, physWord g⟩).gaugeStat b k 1 := by
    rcases answer with ⟨meets, rfl⟩ | ⟨fails, full, rfl⟩
    · exact ⟨2, by rw [waitAt, meets, if_pos rfl]⟩
    · exact ⟨4, by rw [waitAt, fails, if_neg Bool.false_ne_true, if_neg (by simpa using full)]⟩
  rw [e]
  exact ⟨only_trans (only_sendWake s b _) (only_mono (by simp) (only_gaugeStat _ b k 1)),
    fun j => by rw [gauge_gaugeStat, gauge_sendWake], by rw [gout_gaugeStat, gout_sendWake], fun j => by rw [gin_gaugeStat, gin_sendWake]⟩

theorem target_waiterOf (s : State) (m : Msg) (c : Nat) : (waiterOf s m c).target = gOperand m := rfl

/-- Settles O15: the head leaves the queue of its block; a signal gives the gauge its value and wakes in order, a WAIT is registered or
answered. -/
theorem gaugeBlockAppliesHead : Obligations.GaugeBlockAppliesHead := by
  unfold Obligations.GaugeBlockAppliesHead
  intro b s m c g canonical runs sorted block present head formed ctx bound here woken room fails
  have h : AtHead s b.toNat m c g := ⟨canonical, runs, sorted, block, present, head, formed, ctx, bound, here⟩
  refine ⟨fun i v signal => ?signal, fun op unmet free => ?registers, fun r op answer => ?answers⟩
  case signal =>
    rcases signal with ⟨op, rfl, value⟩ | ⟨op, rfl, value⟩
    · exact signal_applies h (exec_add_head h op) (isSet := false) value
    · exact signal_applies h (exec_set_head h op) (isSet := true) value
  case registers =>
    obtain ⟨only, self, others, out, queue⟩ := waitAt_registers (s := headTaken s b.toNat m) (b := b.toNat) (g := g)
      (w := waiterOf s m c) (by rw [gauge_headTaken]; exact unmet) (by rw [gauge_headTaken, used_headTaken]; exact free)
    have frame := only_trans (only_headTaken_wait s b.toNat op) only
    refine ⟨_, (exec_wait_head h op).trans (by rw [FabricProofs.done_only runs canonical frame (by decide)]), frame,
      ?_, fun j hj => ?_, ?_, ?_⟩
    · rw [self, gauge_headTaken]
    · rw [others j hj, gauge_headTaken]
    · rw [out, out_headTaken]
    · rw [queue, gin_headTaken s _ m sorted]
  case answers =>
    have answered : satisfied (s.gauge g).value (waiterOf s m c).target = true ∧ r = 0 ∨
        satisfied (s.gauge g).value (waiterOf s m c).target = false ∧ ¬ room ∧ r = 2 := by
      simpa [fails, target_waiterOf] using answer
    obtain ⟨only, gauges, sent, queue⟩ := waitAt_answers (s := headTaken s b.toNat m) (b := b.toNat) (g := g)
      (w := waiterOf s m c) (r := r) (by rw [gauge_headTaken, used_headTaken]; exact answered)
    have frame := only_trans (only_mono (by simp) (only_headTaken_wait s b.toNat op)) only
    refine ⟨_, (exec_wait_head h op).trans (by rw [FabricProofs.done_only runs canonical frame (by decide)]), frame,
      fun j => ?_, ?_, ?_⟩
    · rw [gauges, gauge_headTaken]
    · rw [sent, gauge_headTaken, gout_headTaken, deviceId_headTaken]
    · rw [queue, gin_headTaken s _ m sorted]

end Sys2Proof.GaugeProofs
end

section
/-! PROOFS. O16 fails: a WAKE at a tile whose router lists an input lane twice (R200, R203). -/

namespace Sys2Proof.GaugeProofs

open Sys2Proof.Machine Sys2Proof.Safety

/-- The wait of the sequencer of the tile: virtual gauge 5, target 7. -/
def waitingSeq : GWait := ⟨5, 7, 0, 0, none, 0, 0⟩

/-- A WAKE of result 2 for that wait, from block 0 to logical tile 0. -/
def retryWake : Msg := wakeMsg 0 0 ⟨⟨false, 0, 0, 0, 5, 5, 7, none, 0, tileDest 0 0 0⟩, 2, 7, 7⟩

/-- A running part whose logical tile 0 waits, and has the WAKE in its south input. The router lists lane 0 of that input twice: its keys
do not rise, which `Canonical` does not ask of a router's queues. -/
def twiceListed : State :=
  { State.reset with
    power := { Power.reset with perst := false }
    tiles := [(State.reset.phys 0, { Tile.reset with
      sect := { TileSect.reset with gen := 5 }
      seq := { Seq.reset with st := .waitGauge, gwait := some waitingSeq }
      router := { Router.empty with queues := [(qKey .south 0, [retryWake]), (qKey .south 0, [retryWake])] } })] }

/-- The messages of a queue of a router after a command. -/
def queueAfter (o : Host.Outcome State Fault Refusal) (p k : Nat) : List Msg :=
  match o with
  | .next t => t.rq p k
  | _ => []

theorem queue_twiceListed : twiceListed.rq (State.reset.phys 0) (qKey .south 0) = [retryWake] := by decide

/-- The head that leaves takes the first listing with it, and uncovers the second. -/
theorem queueAfter_wake : queueAfter (exec (.wake (State.reset.phys 0) .south) twiceListed) (State.reset.phys 0) (qKey .south 0) =
    [retryWake] := by decide

/-- Refutes O16: in `twiceListed` the WAKE meets every hypothesis of the clause on a tile's retry, and after it the queue reads as
before, where the clause says that its head has left. -/
theorem not_wakeRetryTimeout : ¬ Obligations.WakeRetryTimeout := by
  unfold Obligations.WakeRetryTimeout
  rintro ⟨-, -, tile, -⟩
  let k := State.reset.phys 0
  have head : headHere twiceListed k .south 0 = some retryWake := by decide
  have granted : ejectGranted twiceListed k (.lane .south 0) = true := by decide
  have gen : (twiceListed.tile k).sect.gen.toNat = gWgen retryWake := by decide
  have waits : (twiceListed.tile k).seq.gwait = some waitingSeq := by decide
  have result : gResult retryWake = 2 := by decide
  obtain ⟨-, retry⟩ := tile k .south twiceListed retryWake waitingSeq rfl rfl (by decide) head (by decide) granted gen waits
    (by decide) (by decide)
  obtain ⟨t, ran, -, -, left⟩ := retry result
  have after := queueAfter_wake
  rw [ran] at after
  rw [queue_twiceListed] at left
  exact absurd (left.symm.trans after) (by decide)

end Sys2Proof.GaugeProofs
end

section
/-! SUPPORT. Runs of the section loader: how one is found and changed, how it ends with its reply, and when it may switch in (R211, R225,
R257, R258, R309). -/

namespace Sys2Proof.SectionProofs

open Sys2Proof.Machine Sys2Proof.Safety Sys2Proof.Laws Sys2Proof.TileProofs Sys2Proof.StoreProofs Sys2Proof.GaugeProofs

/-! ## Runs -/

theorem id_of_run? {s : State} {r : Nat} {x : Run} (h : s.run? r = some x) : x.id = r :=
  beq_iff_eq.mp (List.find?_some (p := fun y : Run => y.id == r) h)

theorem runIn_of_phase {s : State} {r : Nat} {x : Run} (found : s.run? r = some x) (p : RunPhase → Bool) (phase : p x.phase = true) :
    runIn s r p = some x := by
  simp [runIn, found, phase]

theorem only_modRun (s : State) (r : Nat) (f : Run → Run) : Only [.runs] s (s.modRun r f) := by
  refine ⟨rfl, rfl, fun k hk => ?_⟩
  cases k <;> simp [Kind.same, State.modRun] at hk ⊢

/-- What the end of a run with these result words leaves. -/
def ended (s : State) (x : Run) (k : Cmd) (rep : Reply) : State := (s.complete x.ring k rep).dropRun x.id

/-- A run whose command waits for its reply ends with it, where no save waits for runs (R309). -/
theorem endRun_of_cmd {s : State} {x : Run} {k : Cmd} (cmd : s.runCmd x = some k) (saves : s.saves = []) {a b c : Nat}
    (words : runWords s x = (a, b, c)) (status : Nat) : endRun s x status false = ended s x k (x.reply status a b c) := by
  unfold endRun State.replyRun
  rw [cmd, words]
  exact settle_noSaves _ saves

theorem only_ended (s : State) (x : Run) (k : Cmd) (rep : Reply) : Only [.runs, .rings] s (ended s x k rep) := by
  refine ⟨rfl, rfl, fun i hi => ?_⟩
  cases i <;> simp [Kind.same, ended, State.dropRun] at hi ⊢

theorem ended_replies (s : State) (x : Run) (k : Cmd) (rep : Reply) : RunReplies s (ended s x k rep) x k rep where
  runs := rfl
  ring := ring_complete_self s x.ring k rep
  others r hr := ring_complete_other s x.ring r k rep hr

/-! ## Predicates (R257, R258) -/

/-- State z is s with the corrected words of a gauge noted, where they were. -/
structure Noted (e : Ecc) (s z : State) : Prop where
  shape : ∃ st lg v w, z = { s with
    gauges := { s.gauges with stat := st }, log := lg, host := { s.host with vecPending := v, vecSent := w } }
  only : Only (eccKinds e) s z

theorem noted_refl (e : Ecc) (s : State) : Noted e s s where
  shape := ⟨s.gauges.stat, s.log, s.host.vecPending, s.host.vecSent, rfl⟩
  only := only_refl _ s

/-- The verdict on a run's predicate, from the value that its gauge holds. -/
def judged (x : Run) (go : State → State) (z : State) : State :=
  match predHolds z x with
  | some true => go z
  | some false => { endRun z x stSkipped false with condSkip := bump z.condSkip x.ctx 1 }
  | none => endRun z x stBadParam false

/-- A run's predicate is judged in a state in which the words of its gauge have been read. -/
theorem predicated_noted {e : Ecc} (good : e ≠ .uncorrectable) (s : State) (x : Run) (go : State → State) :
    ∃ z, Noted e s z ∧ predicated s x e go = judged x go z := by
  cases h : x.pred with
  | none => exact ⟨s, noted_refl e s, by simp only [predicated, h]; rfl⟩
  | some q =>
    obtain ⟨v, tg, sense⟩ := q
    refine ⟨_, ⟨eccNoted_shape s (blockOf s x.ctx v) e (some x.ctx), only_eccNoted s _ e _⟩, ?_⟩
    simp only [predicated, h]
    rw [gaugeEccOf_eq, gaugeEccAt_good good]
    rfl

/-- A run without predicate goes on at once. -/
theorem predicated_none {x : Run} (h : x.pred = none) (e : Ecc) (s : State) (go : State → State) : predicated s x e go = go s := by
  simp [predicated, predHolds, h]

theorem predHolds_some {s : State} {x : Run} {v k : Nat} {tg : W32} {sense b : Bool} (pred : x.pred = some (v, tg, sense))
    (mapped : s.gaugeOf x.ctx v = some k) (value : ((s.gauge k).value - tg).toNat < 2 ^ 31 ↔ sense = !b) : predHolds s x = some b := by
  simp only [predHolds, pred, mapped, Option.map_some, satisfied, decide_eq_decide.mpr value]
  cases sense <;> cases b <;> rfl

theorem predHolds_unmapped {s : State} {x : Run} {v : Nat} {tg : W32} {sense : Bool} (pred : x.pred = some (v, tg, sense))
    (unmapped : s.gaugeOf x.ctx v = none) : predHolds s x = none := by
  simp [predHolds, pred, unmapped]

theorem predHolds_noted {e : Ecc} {s z : State} (h : Noted e s z) (x : Run) : predHolds z x = predHolds s x := by
  obtain ⟨st, lg, v, w, rfl⟩ := h.shape
  rfl

/-! ## When a run may switch in (R225, R354) -/

theorem tileFree_drain {s : State} {x : Run} (drain : x.purge = false) (n : Nat) :
    tileFree s x n = (!(s.ltile n).sect.configured || (s.ltile n).isDone) := by
  simp [tileFree, drain]

theorem not_treePending {s : State} (h : ∀ e ∈ s.tiles, e.2.router.insts = []) (ts : List (Nat × Nat)) : treePending s ts = false := by
  simp only [treePending, List.any_eq_false]
  intro e he
  simp [h e he]

theorem not_switching_of_running {o : Run} (h : o.phase = .running) : o.switching = false ∧ o.waiting = false := by
  simp [Run.switching, Run.waiting, h]

theorem canTrigger_free {s : State} {x : Run} (drain : x.purge = false) (h : RegionFree s x) : canTrigger s x = true := by
  have others (o : Run) (ho : o ∈ s.runs) : o.id = x.id ∨ o.switching = false ∧ o.waiting = false := by
    by_cases same : o.id = x.id
    · exact .inl same
    · exact .inr (not_switching_of_running (h.others o ho same))
  have tiles : (s.region x).all (tileFree s x) = true := by
    rw [List.all_eq_true]
    intro n hn
    rw [tileFree_drain drain]
    have := h.tiles n hn
    cases hc : (s.ltile n).sect.configured <;> simp_all
  have nonempty : (s.region x).isEmpty = false := by simpa using h.nonempty
  have noSwitch : s.runs.any (fun o => o.id != x.id && o.switching && meets (s.switchTiles o) (s.region x)) = false := by
    rw [List.any_eq_false]
    intro o ho
    rcases others o ho with same | ⟨idle, -⟩
    · simp [same]
    · simp [idle]
  have noRank : s.runs.any (fun o => o.id != x.id && o.waiting && ranksBefore o x && meets (s.region o) (s.region x)) = false := by
    rw [List.any_eq_false]
    intro o ho
    rcases others o ho with same | ⟨-, idle⟩
    · simp [same]
    · simp [idle]
  simp [canTrigger, switchFree, nonempty, noSwitch, noRank, tiles, not_treePending h.trees]

/-- A tile of the region that is not done keeps a DRAIN run away. -/
theorem canTrigger_busy {s : State} {x : Run} (drain : x.purge = false) {n : Nat} (inside : n ∈ s.region x)
    (configured : (s.ltile n).sect.configured = true) (busy : (s.ltile n).isDone = false) : canTrigger s x = false := by
  have held : (s.region x).all (tileFree s x) = false := by
    rw [List.all_eq_false]
    exact ⟨n, inside, by rw [tileFree_drain drain]; simp [configured, busy]⟩
  simp [canTrigger, switchFree, held]

end Sys2Proof.SectionProofs
end

section
/-! PROOFS. The start of a section switch: triggers, timed starts and predicates (R222, R225, R228, R257, R258). Settles O39. -/

namespace Sys2Proof.SectionProofs

open Sys2Proof.Machine Sys2Proof.Safety Sys2Proof.Laws Sys2Proof.TileProofs Sys2Proof.StoreProofs Sys2Proof.GaugeProofs

/-! ## The switch starts -/

/-- The tiles and generations that a switch to run x ends. -/
def outgoingOf (s : State) (x : Run) : List (Nat × Nat) :=
  ((s.region x).filter (fun n => (s.ltile n).sect.configured)).map (fun n => (n, (s.ltile n).sect.gen.toNat))

/-- The state after run x has switched in under DRAIN, with generation g and the counters of contexts at cs. -/
def switchedIn (s : State) (x : Run) (g : Nat) (cs : Assoc Context) : State :=
  { s with
    ctxs := cs
    runs := s.runs.map (fun y => if y.id == x.id then { y with gen := g, phase := .waitCensus, outgoing := outgoingOf s x } else y)
    owners := s.owners ++ [(x.ctx, x.handle, x.id)]
    ldrStat := bump s.ldrStat 0 1 }

theorem startSwitch_drain {s : State} {x : Run} (drain : x.purge = false) {g : Nat} {cs : Assoc Context}
    (gen : takeGen s x.ctx x.explicitGen = (g, { s with ctxs := cs })) : startSwitch s x = switchedIn s x g cs := by
  simp only [startSwitch, gen, drain]
  rfl

/-- The generation that run x takes is g, and the counters of contexts stand at cs then (R222). -/
def TakesGen (s : State) (x : Run) (g : Nat) (cs : Assoc Context) : Prop :=
  (∃ h, x.explicitGen = some h ∧ g = h % 8 ∧ cs = s.ctxs) ∨
  (∃ c, x.explicitGen = none ∧ aget? s.ctxs x.ctx = some c ∧ g = (c.gencnt + 1).toNat ∧
    cs = aput s.ctxs x.ctx { c with gencnt := c.gencnt + 1 })

theorem takeGen_of {s : State} {x : Run} {g : Nat} {cs : Assoc Context} (h : TakesGen s x g cs) :
    takeGen s x.ctx x.explicitGen = (g, { s with ctxs := cs }) := by
  rcases h with ⟨e, explicit, rfl, rfl⟩ | ⟨c, counted, context, rfl, rfl⟩
  · rw [explicit]; rfl
  · simp only [takeGen, counted, context]

theorem takesGen_noted {e : Ecc} {s z : State} {x : Run} {g : Nat} {cs : Assoc Context} (h : Noted e s z) (gen : TakesGen s x g cs) :
    TakesGen z x g cs := by
  obtain ⟨st, lg, v, w, rfl⟩ := h.shape
  exact gen

theorem only_switchedIn (s : State) (x : Run) (g : Nat) (cs : Assoc Context) :
    Only [.runs, .contexts, .loader] s (switchedIn s x g cs) := by
  refine ⟨rfl, rfl, fun k hk => ?_⟩
  cases k <;> simp [Kind.same, switchedIn] at hk ⊢

theorem noted_run? {e : Ecc} {s z : State} {r : Nat} {x : Run} (h : Noted e s z) (found : s.run? r = some x) : z.run? r = some x := by
  obtain ⟨st, lg, v, w, rfl⟩ := h.shape
  exact found

theorem noted_regionFree {e : Ecc} {s z : State} {x : Run} (h : Noted e s z) (free : RegionFree s x) : RegionFree z x := by
  obtain ⟨st, lg, v, w, rfl⟩ := h.shape
  exact ⟨free.others, free.nonempty, free.tiles, free.trees⟩

/-! ## The commands -/

theorem exec_switchTrigger_accepted {r : Nat} {s : State} {x : Run} (e : Ecc) (found : s.run? r = some x) (accepted : x.phase = .accepted)
    (untimed : x.due = none) : exec (.switchTrigger r e) s =
      .next (done s (if canTrigger s x then predicated s x e (fun z => startSwitch z x) else s)) := by
  simp [exec, execSwitchTrigger, runIn, found, accepted, Run.waiting, untimed]

/-- A timed run in the ranking: its predicate is behind it. -/
def rankedRun (x : Run) : Run := { x with armed := true, pred := none }

/-- Run r has entered the ranking. -/
def ranked (s : State) (r : Nat) : State := s.modRun r rankedRun

theorem run?_ranked {s : State} {r : Nat} {x : Run} (found : s.run? r = some x) : (ranked s r).run? r = some (rankedRun x) := by
  obtain rfl := id_of_run? found
  exact run?_modRun found rankedRun (fun _ => rfl)

/-- Run r enters the ranking, and switches in where it may (R228). -/
def rankAndSwitch (r : Nat) (s : State) : State :=
  match (ranked s r).run? r with
  | some x => if canTrigger (ranked s r) x then startSwitch (ranked s r) x else ranked s r
  | none => ranked s r

theorem exec_timedSwitchStart_accepted {r : Nat} {s : State} {x : Run} {d : Nat × Nat} (e : Ecc) (found : s.run? r = some x)
    (accepted : x.phase = .accepted) (timed : x.due = some d) (unranked : x.armed = false) : exec (.timedSwitchStart r e) s =
      .next (done s (if cyclesTo s d ≤ Int.ofNat (switchLead s x) then predicated s x e (rankAndSwitch r) else s)) := by
  rw [exec, execTimedSwitchStart, runIn_of_phase found _ (by rw [accepted])]
  simp only [timed, unranked, Bool.not_false, Bool.true_and, decide_eq_true_eq]
  rfl

theorem rankAndSwitch_found {s : State} {r : Nat} {x : Run} (found : s.run? r = some x) : rankAndSwitch r s =
    if canTrigger (ranked s r) (rankedRun x) then startSwitch (ranked s r) (rankedRun x) else ranked s r := by
  simp only [rankAndSwitch, run?_ranked found]

theorem regionFree_ranked {s : State} {r : Nat} {x : Run} (h : RegionFree s x) : RegionFree (ranked s r) (rankedRun x) where
  others o ho hn := by
    obtain ⟨y, hy, rfl⟩ := List.mem_map.mp ho
    by_cases here : y.id == r
    · rw [if_pos here] at hn ⊢
      exact h.others y hy hn
    · rw [if_neg here] at hn ⊢
      exact h.others y hy hn
  nonempty := h.nonempty
  tiles := h.tiles
  trees := h.trees

theorem runs_switchedIn_ranked (s : State) (x : Run) (g : Nat) (cs : Assoc Context) :
    (switchedIn (ranked s x.id) (rankedRun x) g cs).runs = s.runs.map (fun y => if y.id == x.id then
      { y with armed := true, pred := none, gen := g, phase := .waitCensus, outgoing := outgoingOf s x } else y) := by
  refine (List.map_map ..).trans (List.map_congr_left fun y _ => ?_)
  by_cases here : y.id == x.id
  · simp only [Function.comp, here, if_true, rankedRun]
    rfl
  · simp only [Function.comp, here, Bool.false_eq_true, if_false, rankedRun]

/-! ## A run whose region is free -/

theorem mem_not_eccKinds (e : Ecc) : Kind.mem ∉ eccKinds e := by
  unfold eccKinds
  split <;> decide

/-- The predicate of run x, if it has one, holds (R257). -/
def PredMet (s : State) (x : Run) : Prop :=
  x.pred = none ∨ ∃ v tg sense k, x.pred = some (v, tg, sense) ∧ s.gaugeOf x.ctx v = some k ∧
    (((s.gauge k).value - tg).toNat < 2 ^ 31 ↔ sense = false)

theorem predHolds_met {s : State} {x : Run} (h : PredMet s x) : predHolds s x = some true := by
  rcases h with none_ | ⟨v, tg, sense, k, pred, mapped, value⟩
  · simp [predHolds, none_]
  · exact predHolds_some pred mapped (by simpa using value)

/-- A run whose predicate holds goes on in a state in which no more than a corrected gauge word is noted. -/
theorem predicated_met {e : Ecc} (good : e ≠ .uncorrectable) {s : State} {x : Run} (met : PredMet s x) (go : State → State) :
    ∃ z, Noted e s z ∧ predicated s x e go = go z := by
  obtain ⟨z, noted, judgment⟩ := predicated_noted good s x go
  exact ⟨z, noted, by rw [judgment, judged, predHolds_noted noted, predHolds_met met]⟩

theorem only_condSkip (s : State) (c : Assoc Ctr) : Only [.loader] s { s with condSkip := c } := by
  refine ⟨rfl, rfl, fun k hk => ?_⟩
  cases k <;> simp [Kind.same] at hk ⊢

section
variable {r : Nat} {e : Ecc} {s : State} {x : Run} {g : Nat} {cs : Assoc Context}

theorem switchTrigger_starts (hc : Canonical s) (hr : Runs s) (good : e ≠ .uncorrectable) (found : s.run? r = some x)
    (accepted : x.phase = .accepted) (drain : x.purge = false) (free : RegionFree s x) (gen : TakesGen s x g cs) (met : PredMet s x)
    (untimed : x.due = none) :
    ∃ t, exec (.switchTrigger r e) s = .next t ∧ Only (.runs :: .contexts :: .loader :: eccKinds e) s t ∧ t.ctxs = cs ∧
      t.runs = s.runs.map (fun y => if y.id == r then { y with gen := g, phase := .waitCensus, outgoing := outgoingOf s x } else y) ∧
      t.owners = s.owners ++ [(x.ctx, x.handle, r)] ∧ t.runId = s.runId ∧ t.ldrStat = bump s.ldrStat 0 1 ∧
      t.condSkip = s.condSkip := by
  obtain ⟨z, noted, goes⟩ := predicated_met good met (fun z => startSwitch z x)
  have frame : Only (.runs :: .contexts :: .loader :: eccKinds e) s (switchedIn z x g cs) :=
    only_trans (only_mono (fun _ => by simp_all) noted.only) (only_mono (by simp) (only_switchedIn z x g cs))
  have switches := startSwitch_drain drain (takeGen_of (takesGen_noted noted gen))
  have runs : exec (.switchTrigger r e) s = .next (switchedIn z x g cs) := by
    rw [exec_switchTrigger_accepted e found accepted untimed, if_pos (canTrigger_free drain free), goes, switches,
      FabricProofs.done_only hr hc frame (by simp [mem_not_eccKinds])]
  obtain rfl := id_of_run? found
  obtain ⟨st, lg, v, w, rfl⟩ := noted.shape
  exact ⟨_, runs, frame, rfl, rfl, rfl, rfl, rfl, rfl⟩

theorem timedSwitchStart_starts (hc : Canonical s) (hr : Runs s) (good : e ≠ .uncorrectable) (found : s.run? r = some x)
    (accepted : x.phase = .accepted) (drain : x.purge = false) (free : RegionFree s x) (gen : TakesGen s x g cs) (met : PredMet s x)
    {d : Nat × Nat} (timed : x.due = some d) (unranked : x.armed = false) (near : cyclesTo s d ≤ Int.ofNat (switchLead s x)) :
    ∃ t, exec (.timedSwitchStart r e) s = .next t ∧ Only (.runs :: .contexts :: .loader :: eccKinds e) s t ∧ t.ctxs = cs ∧
      t.runs = s.runs.map (fun y => if y.id == r then
        { y with armed := true, pred := none, gen := g, phase := .waitCensus, outgoing := outgoingOf s x } else y) ∧
      t.owners = s.owners ++ [(x.ctx, x.handle, r)] ∧ t.runId = s.runId ∧ t.ldrStat = bump s.ldrStat 0 1 ∧
      t.condSkip = s.condSkip := by
  obtain ⟨z, noted, goes⟩ := predicated_met good met (rankAndSwitch r)
  have frame : Only (.runs :: .contexts :: .loader :: eccKinds e) s (switchedIn (ranked z r) (rankedRun x) g cs) :=
    only_trans (only_mono (fun _ => by simp_all) noted.only) (only_trans (only_mono (by simp) (only_modRun z r rankedRun))
      (only_mono (by simp) (only_switchedIn (ranked z r) (rankedRun x) g cs)))
  have switches : startSwitch (ranked z r) (rankedRun x) = switchedIn (ranked z r) (rankedRun x) g cs :=
    startSwitch_drain drain (takeGen_of (show TakesGen (ranked z r) (rankedRun x) g cs from (takesGen_noted noted gen : TakesGen z x g cs)))
  have runs : exec (.timedSwitchStart r e) s = .next (switchedIn (ranked z r) (rankedRun x) g cs) := by
    rw [exec_timedSwitchStart_accepted e found accepted timed unranked, if_pos near, goes, rankAndSwitch_found (noted_run? noted found),
      if_pos (canTrigger_free (x := rankedRun x) drain (regionFree_ranked (noted_regionFree noted free))), switches,
      FabricProofs.done_only hr hc frame (by simp [mem_not_eccKinds])]
  obtain rfl := id_of_run? found
  obtain ⟨st, lg, v, w, rfl⟩ := noted.shape
  exact ⟨_, runs, frame, rfl, runs_switchedIn_ranked _ x g cs, rfl, rfl, rfl, rfl⟩

/-! ## A predicate that does not hold, and a tile that is not done -/

theorem switchTrigger_ends {k : Cmd} (found : s.run? r = some x)
    (accepted : x.phase = .accepted) (drain : x.purge = false) (free : RegionFree s x) (untimed : x.due = none)
    (unfired : x.first = none) (saves : s.saves = []) (cmd : s.runCmd x = some k) (good : e ≠ .uncorrectable) :
    ∃ z, Noted e s z ∧
      (predHolds s x = some false → exec (.switchTrigger r e) s =
        .next (done s { ended z x k (x.reply stSkipped 0 0 0) with condSkip := bump s.condSkip x.ctx 1 })) ∧
      (predHolds s x = none → exec (.switchTrigger r e) s = .next (done s (ended z x k (x.reply stBadParam 0 0 0)))) := by
  obtain ⟨z, noted, judgment⟩ := predicated_noted good s x (fun z => startSwitch z x)
  have words (y : State) : runWords y x = (0, 0, 0) := by simp [runWords, unfired]
  have ran := exec_switchTrigger_accepted e found accepted untimed
  rw [if_pos (canTrigger_free drain free), judgment, judged, predHolds_noted noted] at ran
  have saved : z.saves = [] := by obtain ⟨st, lg, v, w, rfl⟩ := noted.shape; exact saves
  have skips : z.condSkip = s.condSkip := by obtain ⟨st, lg, v, w, rfl⟩ := noted.shape; rfl
  have ends := endRun_of_cmd (s := z) (k := k) (by obtain ⟨st, lg, v, w, rfl⟩ := noted.shape; exact cmd) saved (words z)
  refine ⟨z, noted, fun fails => ?_, fun unmapped => ?_⟩
  · simp only [ran, fails, ends, skips]
  · simp only [ran, unmapped, ends]

end

/-- Settles O39: a run whose region is free and whose predicate is met switches in from the state in which the words of its gauge have been
read; a tile that is not done leaves no more than the run's place in the ranking. -/
theorem sectionSwitchStarts : Obligations.SectionSwitchStarts := by
  unfold Obligations.SectionSwitchStarts
  refine ⟨fun r e s x g cs hc hr good found accepted drain free gen met =>
      ⟨switchTrigger_starts hc hr good found accepted drain free gen met,
        fun d timed unranked near => timedSwitchStart_starts hc hr good found accepted drain free gen met timed unranked near⟩,
    fun r e s x k v tg sense hc hr good found accepted drain free untimed unfired saves cmd pred => ?ends,
    fun r e s x hc hr found accepted drain busy => ?waits⟩
  case ends =>
    obtain ⟨z, noted, skips, refuses⟩ := switchTrigger_ends found accepted drain free untimed unfired saves cmd good
    obtain ⟨st, lg, w, l, rfl⟩ := noted.shape
    refine ⟨fun j mapped value => ?_, fun unmapped => ?_⟩
    · have frame : Only (.runs :: .rings :: .loader :: eccKinds e) s
          { ended _ x k (x.reply stSkipped 0 0 0) with condSkip := bump s.condSkip x.ctx 1 } :=
        only_trans (only_mono (fun _ => by simp_all) noted.only) (only_trans
          (only_mono (by simp) (only_ended _ x k (x.reply stSkipped 0 0 0))) (only_mono (by simp) (only_condSkip _ _)))
      refine ⟨_, ?_, frame, ⟨rfl, (ended_replies s x k _).ring, (ended_replies s x k _).others⟩, rfl, rfl, rfl⟩
      rw [skips (predHolds_some pred mapped (by simpa using value)), FabricProofs.done_only hr hc frame (by simp [mem_not_eccKinds])]
    · have frame : Only (.runs :: .rings :: eccKinds e) s (ended _ x k (x.reply stBadParam 0 0 0)) :=
        only_trans (only_mono (fun _ => by simp_all) noted.only) (only_mono (by simp) (only_ended _ x k (x.reply stBadParam 0 0 0)))
      refine ⟨_, ?_, frame, ⟨rfl, (ended_replies s x k _).ring, (ended_replies s x k _).others⟩, rfl⟩
      rw [refuses (predHolds_unmapped pred unmapped), FabricProofs.done_only hr hc frame (by simp [mem_not_eccKinds])]
  case waits =>
    obtain ⟨n, inside, configured, notDone⟩ := busy
    refine ⟨fun untimed => ⟨s, ?_, only_refl [] s⟩, fun d timed unranked pred =>
      ⟨fun near => ?_, fun far => ⟨s, ?_, only_refl [] s⟩⟩⟩
    · rw [exec_switchTrigger_accepted e found accepted untimed, canTrigger_busy drain inside configured notDone,
        if_neg Bool.false_ne_true, done_idle hr hc]
    · have frame := only_modRun s r rankedRun
      have held := canTrigger_busy (s := ranked s r) (x := rankedRun x) drain inside configured notDone
      refine ⟨ranked s r, ?_, frame, rfl, rfl, rfl⟩
      rw [exec_timedSwitchStart_accepted e found accepted timed unranked, if_pos near, predicated_none pred, rankAndSwitch_found found,
        held, if_neg Bool.false_ne_true]
      exact congrArg _ (FabricProofs.done_only hr hc frame (by decide))
    · rw [exec_timedSwitchStart_accepted e found accepted timed unranked, if_neg (Int.not_le.mpr far), done_idle hr hc]

end Sys2Proof.SectionProofs
end

section
/-! SUPPORT. What the phases of a switch do to tiles: one write of every tile of a region, the unloading of a section, and the loading of
a tile from its slot (R33, R224, R226, R227, R246). -/

namespace Sys2Proof.SectionProofs

open Sys2Proof.Machine Sys2Proof.Safety Sys2Proof.Laws Sys2Proof.TileProofs Sys2Proof.StoreProofs Sys2Proof.GaugeProofs

/-! ## The tiles of a region written in turn -/

/-- The physical tiles that serve some logical tiles, each changed by f. -/
def modTiles (f : Tile → Tile) (tiles : List Nat) (s : State) : State := tiles.foldl (fun x n => x.modTile (x.phys n) f) s

theorem modTiles_shape (f : Tile → Tile) (tiles : List Nat) : ∀ s : State, ∃ tl, modTiles f tiles s = { s with tiles := tl } := by
  induction tiles with
  | nil => exact fun s => ⟨s.tiles, rfl⟩
  | cons n l ih => exact fun s => ih (s.modTile (s.phys n) f)

theorem only_modTiles (f : Tile → Tile) (tiles : List Nat) (s : State) : Only [.tiles] s (modTiles f tiles s) := by
  obtain ⟨tl, e⟩ := modTiles_shape f tiles s
  rw [e]
  refine ⟨rfl, rfl, fun k hk => ?_⟩
  cases k <;> simp [Kind.same] at hk ⊢

theorem phys_modTiles (f : Tile → Tile) (tiles : List Nat) (s : State) (n : Nat) : (modTiles f tiles s).phys n = s.phys n := by
  obtain ⟨tl, e⟩ := modTiles_shape f tiles s
  rw [e]
  rfl

/-- What every value of f has, a tile has once f has changed it, however often. -/
theorem modTiles_inside {f : Tile → Tile} {P : Tile → Prop} (hf : ∀ y, P (f y)) {tiles : List Nat} {q : Nat} :
    ∀ {s : State}, (P (s.tile q) ∨ ∃ n ∈ tiles, s.phys n = q) → P ((modTiles f tiles s).tile q) := by
  induction tiles with
  | nil => exact fun h => h.resolve_right (by simp)
  | cons m l ih =>
    intro s h
    refine ih (s := s.modTile (s.phys m) f) ?_
    by_cases here : q = s.phys m
    · exact .inl (by rw [here, tile_modTile_self]; exact hf _)
    · rw [tile_modTile_other _ _ _ _ here]
      rcases h with done | ⟨n, hn, at_⟩
      · exact .inl done
      · rcases List.mem_cons.mp hn with rfl | later
        · exact absurd at_.symm here
        · exact .inr ⟨n, later, at_⟩

theorem modTiles_outside {f : Tile → Tile} {tiles : List Nat} {q : Nat} :
    ∀ {s : State}, (∀ n ∈ tiles, s.phys n ≠ q) → (modTiles f tiles s).tile q = s.tile q := by
  induction tiles with
  | nil => exact fun _ => rfl
  | cons m l ih =>
    intro s h
    refine (ih (s := s.modTile (s.phys m) f) fun n hn => h n (List.mem_cons_of_mem m hn)).trans ?_
    exact tile_modTile_other _ _ _ _ (h m (List.mem_cons_self ..)).symm

/-! ## Unloading (phases 2 and 3) -/

/-- A tile that holds no section, inside the raised dike. -/
structure Unloaded (y : Tile) : Prop where
  section_ : y.sect.configured = false ∧ y.sect.loading = true
  sends : y.queues = [] ∧ y.egress = [] ∧ y.ports = [] ∧ y.gq = []
  idle : y.seq.st = .idle

theorem unloaded_unload (y : Tile) : Unloaded y.unload := ⟨⟨rfl, rfl⟩, ⟨rfl, rfl, rfl, rfl⟩, rfl⟩

/-- Zeroed trees leave of a tile all but what its router holds of them. -/
theorem tile_zeroTrees (s : State) (ts : List (Nat × Nat)) (q : Nat) :
    { (zeroTrees s ts).tile q with router := (s.tile q).router } = s.tile q := by
  unfold State.tile zeroTrees agetD
  dsimp only
  rw [aget?_map s.tiles (fun p y => y.modRouter (fun r => { r with insts := r.insts.filter (fun i => !ts.contains (pDie p, i.tree)) }))]
  cases aget? s.tiles q <;> rfl

/-- The state in which the tiles of a switch are unloaded: the waiters of those tiles, the trees and the ownership of their sections have
gone. -/
def disowned (s : State) (tiles : List Nat) (keep : Option Nat) : State :=
  let x := zeroTrees (dropWaiters s (fun w => w.hub || !tiles.contains w.tile.toNat)) (ownedTrees s (holders s tiles))
  { x with owners := x.owners.filter (fun e => !(holders s tiles).contains e.2.2 || keep == some e.2.2) }

theorem unloadTiles_eq (s : State) (tiles : List Nat) (keep : Option Nat) :
    unloadTiles s tiles keep = modTiles Tile.unload tiles (disowned s tiles keep) := rfl

theorem tile_disowned (s : State) (tiles : List Nat) (keep : Option Nat) (q : Nat) :
    { (disowned s tiles keep).tile q with router := (s.tile q).router } = s.tile q :=
  tile_zeroTrees (dropWaiters s _) _ q

theorem only_disowned (s : State) (tiles : List Nat) (keep : Option Nat) :
    Only [.runs, .tiles, .trees, .gauges] s (disowned s tiles keep) := by
  refine ⟨rfl, rfl, fun k hk => ?_⟩
  cases k <;> simp [Kind.same, disowned, zeroTrees, dropWaiters] at hk ⊢

/-- What the unloading of tiles leaves (R224, R226, R246). -/
structure TilesUnloaded (s t : State) (tiles : List Nat) : Prop where
  only : Only [.runs, .tiles, .trees, .gauges] s t
  runs : t.runs = s.runs ∧ t.runId = s.runId
  inside : ∀ n ∈ tiles, Unloaded (t.ltile n)
  others : ∀ q, (∀ n ∈ tiles, s.phys n ≠ q) → { t.tile q with router := (s.tile q).router } = s.tile q

theorem unloadTiles_unloaded (s : State) (tiles : List Nat) (keep : Option Nat) :
    TilesUnloaded s (unloadTiles s tiles keep) tiles := by
  rw [unloadTiles_eq]
  obtain ⟨tl, shape⟩ := modTiles_shape Tile.unload tiles (disowned s tiles keep)
  refine ⟨only_trans (only_disowned s tiles keep) (only_mono (by simp) (only_modTiles _ _ _)), ?_, fun n hn => ?_, fun q hq => ?_⟩
  · rw [shape]
    exact ⟨rfl, rfl⟩
  · unfold State.ltile
    rw [phys_modTiles]
    exact modTiles_inside unloaded_unload (.inr ⟨n, hn, rfl⟩)
  · rw [modTiles_outside (s := disowned s tiles keep) hq]
    exact tile_disowned s tiles keep q

/-! ## The end of phase 4 where nothing is pending -/

/-- No queue is bound to a tile, so that a switch has no transfer to wait for (R226, R275). -/
theorem boundQueues_unbound {s : State} (h : ∀ e ∈ s.ms.queues, e.2.tile = none) (tiles : List Nat) : boundQueues s tiles = [] := by
  rw [boundQueues, List.filter_eq_nil_iff]
  intro e he
  simp [h e he]

theorem transfersDone_unbound {s : State} (h : ∀ e ∈ s.ms.queues, e.2.tile = none) (tiles : List Nat) :
    transfersDone s tiles = true := by
  simp [transfersDone, boundQueues_unbound h]

theorem retireBound_unbound {s : State} (h : ∀ e ∈ s.ms.queues, e.2.tile = none) (tiles : List Nat) : retireBound s tiles = s := by
  simp [retireBound, boundQueues_unbound h]

/-- Where no ring has accepted a stop or a removal of a context, none completes. -/
theorem settleStops_none {s : State} (h : ∀ q, ∀ c ∈ (s.ring q).accepted, c.opcode ≠ 0x41 ∧ c.opcode ≠ 0x21) :
    settleStops s = s := by
  unfold settleStops
  generalize s.ringNos = l
  induction l with
  | nil => rfl
  | cons r l ih => rw [List.foldl_cons, complete_fold_skip _ (h r), ih]

/-- A stop's dike has fallen (below R226). -/
def released (s : State) (tiles : List Nat) : State := modTiles (fun t => t.modSect (fun q => { q with loading := false })) tiles s

theorem releaseTiles_eq (s : State) (tiles : List Nat) : releaseTiles s tiles = { released s tiles with
    gauges := { (released s tiles).gauges with tctx := (released s tiles).gauges.tctx.filter (fun e => !tiles.contains e.1) } } := rfl

/-! ## A tile loaded from its slot (phases 5 to 9) -/

/-- A tile after phase 8 of the switch to run x, with configuration state cfg: its section, its program at the start, and nothing else
(R33, R227). -/
structure LoadedFrom (y : Tile) (x : Run) (cfg : Assoc Byte) (z : Tile) : Prop where
  cfg : z.cfg = cfg ∧ z.swaps = 0
  loaded : z.sect.configured = true ∧ z.sect.loading = false
  owner : z.sect.gen = BitVec.ofNat 3 x.gen ∧ z.sect.run = x.id ∧ z.sect.ctx = BitVec.ofNat 6 x.ctx
  empty : z.queues = [] ∧ z.acc = [] ∧ z.hist = []
  preds : z.seq.preds = BitVec.ofNat 8 z.initPreds
  ctrs : z.seq.ctrs = (List.range 4).map (fun k => BitVec.ofNat 20 (z.initCtr k))
  debug : z.seq.stepOne = y.seq.stepOne ∧ z.seq.halt = y.seq.halt ∧ z.seq.breakEn = y.seq.breakEn

theorem loadTile_loads (s : State) (i : Image) (x : Run) (n : Nat) :
    ∃ z g, loadTile s i x n = { s.setTile (s.phys n) z with gauges := g } ∧
      LoadedFrom (s.ltile n) x (slotCfg s (s.phys n) (agetD i.slot n 0) (agetD i.frames n 0)) z :=
  ⟨_, _, rfl, ⟨rfl, rfl⟩, ⟨rfl, rfl⟩, ⟨rfl, rfl, rfl⟩, ⟨rfl, rfl, rfl⟩, rfl, rfl, ⟨rfl, rfl, rfl⟩⟩

theorem initPreds_of_cfg {y z : Tile} (h : z.cfg = y.cfg) : z.initPreds = y.initPreds := by
  simp only [Tile.initPreds, Tile.cfgNum, Tile.cfgBytes, h]

theorem initCtr_of_cfg {y z : Tile} (h : z.cfg = y.cfg) (k : Nat) : z.initCtr k = y.initCtr k := by
  simp only [Tile.initCtr, Tile.cfgNum, Tile.cfgBytes, h]

theorem progLen_of_cfg {y z : Tile} (h : z.cfg = y.cfg) : z.progLen = y.progLen := by
  simp only [Tile.progLen, Tile.cfgNum, Tile.cfgBytes, h]

end Sys2Proof.SectionProofs
end

section
/-! PROOFS. The phases of a section switch and the end of a run (R211, R212, R224, R226, R230, R309). Settles O40. -/

namespace Sys2Proof.SectionProofs

open Sys2Proof.Machine Sys2Proof.Safety Sys2Proof.Laws Sys2Proof.TileProofs Sys2Proof.StoreProofs Sys2Proof.GaugeProofs

section
variable {r : Nat} {s : State} {x : Run}

/-! ## Phases 1 to 3 -/

theorem exec_switchCensusClear_waits (found : s.run? r = some x) (waits : x.phase = .waitCensus) : exec (.switchCensusClear r) s =
    .next (done s (if (s.region x).all (fun n => s.censusLive n x.gen == 0) then
      (unloadTiles s (s.region x) (some r)).modRun r (fun y => { y with phase := .draining }) else s)) := by
  simp [exec, execSwitchCensusClear, found, waits]

theorem exec_switchCensusClear_stops (found : s.run? r = some x) (stops : x.phase = .stopping) : exec (.switchCensusClear r) s =
    .next (done s ((unloadTiles s (x.outgoing.map (·.1)) none).modRun r (fun y => { y with phase := .stopDrain }))) := by
  simp [exec, execSwitchCensusClear, found, stops, State.switchTiles]

/-- A switch whose tiles have been unloaded, with its run in the phase after. -/
structure PhaseEnds (s t : State) (tiles : List Nat) (r : Nat) (f : Run → Run) : Prop where
  only : Only [.runs, .tiles, .trees, .gauges] s t
  runId : t.runId = s.runId
  runs : t.runs = s.runs.map (fun y => if y.id == r then f y else y)
  inside : ∀ n ∈ tiles, Unloaded (t.ltile n)
  others : ∀ q, (∀ n ∈ tiles, s.phys n ≠ q) → { t.tile q with router := (s.tile q).router } = s.tile q

theorem phaseEnds_unloadTiles (hc : Canonical s) (hr : Runs s) (tiles : List Nat) (keep : Option Nat) (f : Run → Run) :
    PhaseEnds s (done s ((unloadTiles s tiles keep).modRun r f)) tiles r f := by
  have unloaded := unloadTiles_unloaded s tiles keep
  have frame : Only [.runs, .tiles, .trees, .gauges] s ((unloadTiles s tiles keep).modRun r f) :=
    only_trans unloaded.only (only_mono (by simp) (only_modRun _ r f))
  rw [FabricProofs.done_only hr hc frame (by decide)]
  exact ⟨frame, unloaded.runs.2, congrArg (List.map _) unloaded.runs.1, unloaded.inside, unloaded.others⟩

theorem switchCensusClear_clear (hc : Canonical s) (hr : Runs s) (found : s.run? r = some x) (waits : x.phase = .waitCensus)
    (zero : ∀ n ∈ s.region x, s.censusLive n x.gen = 0) :
    ∃ t, exec (.switchCensusClear r) s = .next t ∧ PhaseEnds s t (s.region x) r (fun y => { y with phase := .draining }) := by
  have clear : (s.region x).all (fun n => s.censusLive n x.gen == 0) = true :=
    List.all_eq_true.mpr fun n hn => beq_iff_eq.mpr (zero n hn)
  exact ⟨_, by rw [exec_switchCensusClear_waits found waits, if_pos clear], phaseEnds_unloadTiles hc hr _ _ _⟩

theorem switchCensusClear_live (hc : Canonical s) (hr : Runs s) (found : s.run? r = some x) (waits : x.phase = .waitCensus)
    (live : ∃ n ∈ s.region x, s.censusLive n x.gen ≠ 0) : ∃ t, exec (.switchCensusClear r) s = .next t ∧ Only [] s t := by
  obtain ⟨n, inside, counted⟩ := live
  have unclear : ¬ (s.region x).all (fun n => s.censusLive n x.gen == 0) = true := fun all =>
    counted (beq_iff_eq.mp (List.all_eq_true.mp all n inside))
  exact ⟨s, by rw [exec_switchCensusClear_waits found waits, if_neg unclear, done_idle hr hc], only_refl [] s⟩

/-! ## The end of phase 4 -/

/-- Phase 4 of run x waits for nothing: the census of what it ends is zero, no queue is bound to a tile, and no tile is to move
(R226, R229). -/
structure Drained (s : State) (x : Run) : Prop where
  census : ∀ e ∈ x.outgoing, s.censusLive e.1 e.2 = 0
  queues : ∀ e ∈ s.ms.queues, e.2.tile = none
  moves : s.moves = []

theorem outgoing_clear (h : Drained s x) : x.outgoing.all (fun e => s.censusLive e.1 e.2 == 0) = true :=
  List.all_eq_true.mpr fun e he => beq_iff_eq.mpr (h.census e he)

theorem movesOf_none (h : s.moves = []) (tiles : List Nat) : movesOf s tiles = [] := by
  simp [movesOf, h]

theorem exec_switchDrainEnd_stops (found : s.run? r = some x) (stops : x.phase = .stopDrain) (h : Drained s x) (par : Option (BitVec 10))
    (hit : Option (BitVec 11 × Ecc)) : exec (.switchDrainEnd r par hit) s =
      .next (done s (settleStops (settleSaves ((releaseTiles s (x.outgoing.map (·.1))).dropRun r)))) := by
  simp [exec, execSwitchDrainEnd, found, stops, State.switchTiles, outgoing_clear h, transfersDone_unbound h.queues,
    retireBound_unbound h.queues, movesOf_none h.moves]

theorem exec_switchDrainEnd_loads (found : s.run? r = some x) (drains : x.phase = .draining) (h : Drained s x) {i : Image}
    (image : s.image? x.ctx x.handle = some i) (untimed : x.due = none) (par : Option (BitVec 10)) (hit : Option (BitVec 11 × Ecc)) :
    exec (.switchDrainEnd r par hit) s = .next (done s (par.elim (loadRun s x i hit) (fun n =>
      if i.tiles.contains n.toNat then s.jobFault 0x4122 14 1 (some x.ctx) (some r) stJobFault (detailOf [(2, n.toNat)])
      else loadRun s x i hit))) := by
  cases par <;>
    simp [exec, execSwitchDrainEnd, found, drains, State.switchTiles, State.region, image, untimed, outgoing_clear h,
      transfersDone_unbound h.queues, retireBound_unbound h.queues, movesOf_none h.moves]

/-- A stopped region's dike falls, and its run is gone. -/
theorem switchDrainEnd_stops (hc : Canonical s) (hr : Runs s) (found : s.run? r = some x) (stops : x.phase = .stopDrain)
    (h : Drained s x) (saves : s.saves = []) (noStop : ∀ q, ∀ c ∈ (s.ring q).accepted, c.opcode ≠ 0x41 ∧ c.opcode ≠ 0x21)
    (par : Option (BitVec 10)) (hit : Option (BitVec 11 × Ecc)) :
    ∃ t, exec (.switchDrainEnd r par hit) s = .next t ∧ Only [.runs, .tiles, .gauges] s t ∧ t.owners = s.owners ∧
      t.runs = s.runs.filter (fun y => y.id != r) ∧ (∀ e ∈ x.outgoing, (t.ltile e.1).sect.loading = false) ∧
      (∀ q, (∀ e ∈ x.outgoing, s.phys e.1 ≠ q) → t.tile q = s.tile q) := by
  obtain ⟨tl, shape⟩ := modTiles_shape (fun t => t.modSect (fun q => { q with loading := false })) (x.outgoing.map (·.1)) s
  have release : releaseTiles s (x.outgoing.map (·.1)) = { s with tiles := tl, gauges := { s.gauges with
      tctx := s.gauges.tctx.filter (fun e => !(x.outgoing.map (·.1)).contains e.1) } } := by
    rw [releaseTiles_eq, released, shape]
  have settled : settleStops (settleSaves ((releaseTiles s (x.outgoing.map (·.1))).dropRun r)) =
      (releaseTiles s (x.outgoing.map (·.1))).dropRun r := by
    rw [settle_noSaves _ (by rw [release]; exact saves)]
    exact settleStops_none (by rw [release]; exact noStop)
  have frame : Only [.runs, .tiles, .gauges] s ((releaseTiles s (x.outgoing.map (·.1))).dropRun r) := by
    rw [release]
    refine ⟨rfl, rfl, fun k hk => ?_⟩
    cases k <;> simp [Kind.same, State.dropRun] at hk ⊢
  have tile (q : Nat) : ((releaseTiles s (x.outgoing.map (·.1))).dropRun r).tile q = (released s (x.outgoing.map (·.1))).tile q := rfl
  refine ⟨_, by rw [exec_switchDrainEnd_stops found stops h, settled, FabricProofs.done_only hr hc frame (by decide)], frame,
    ?_, ?_, fun e he => ?_, fun q hq => ?_⟩
  · rw [release]; rfl
  · rw [release]; rfl
  · have here : ((releaseTiles s (x.outgoing.map (·.1))).dropRun r).phys e.1 = s.phys e.1 := by rw [release]; rfl
    unfold State.ltile
    rw [here, tile]
    exact modTiles_inside (P := fun y => y.sect.loading = false) (fun _ => rfl) (.inr ⟨e.1, List.mem_map_of_mem he, rfl⟩)
  · rw [tile]
    refine modTiles_outside fun n hn => ?_
    obtain ⟨e, he, rfl⟩ := List.mem_map.mp hn
    exact hq e he

/-! ## Loading and firing -/

/-- A run that fires now (R227). -/
def firedRun (s : State) (i : Image) (v : Run) : Run :=
  { v with
    phase := .running, due := none, started := s.clk, outgoing := []
    timeoutAt := if i.timeout == 0 then none else some (s.clk + i.timeout * 1024)
    first := if v.first.isSome then v.first else some (s.tideCount.toNat, s.tidePhase)
    firstClk := if v.first.isSome then v.firstClk else s.clk }

/-- The part's registers and the run before step 0 of a section of one tile: the tile is loaded with z. -/
def readied (s : State) (x : Run) (i : Image) (p : Nat) (z : Tile) (g : Gauges) : State :=
  (startSection { s.setTile p z with gauges := g }).modRun x.id (firedRun s i)

theorem loadRun_single {i : Image} {n p : Nat} {z : Tile} {g : Gauges} (tiles : i.tiles = [n]) (trees : i.trees = [])
    (gauges : i.gauges = []) (untimed : x.due = none) (place : s.phys n = p) (loads : loadTile s i x n = { s.setTile p z with gauges := g })
    (hit : Option (BitVec 11 × Ecc)) :
    loadRun s x i hit = settle (seqGo (readied s x i p z g) p 0) p := by
  simp only [loadRun, tiles, trees, gauges, List.foldl_cons, List.foldl_nil, loads, initGauges, fireRun, timedFiring, untimed, ← place]
  rfl

theorem settle_configured {s : State} {p : Nat} {z : Tile} (loaded : z.sect.configured = true) :
    settle (s.setTile p z) p = s.setTile p z.finish := by
  unfold settle
  rw [tile_setTile_self, if_pos loaded, modTile_setTile]

theorem only_readied (s : State) (x : Run) (i : Image) (p : Nat) (z y : Tile) (g : Gauges) :
    Only [.runs, .tiles, .gauges, .threshold, .links] s ((readied s x i p z g).setTile p y) := by
  refine ⟨rfl, rfl, fun k hk => ?_⟩
  cases k <;> simp [Kind.same, readied, startSection, State.modRun] at hk ⊢

theorem switchDrainEnd_loads (hc : Canonical s) (hr : Runs s) (found : s.run? r = some x) (drains : x.phase = .draining)
    (h : Drained s x) {i : Image} (image : s.image? x.ctx x.handle = some i) (untimed : x.due = none) {n : Nat} {y : Tile}
    (tiles : i.tiles = [n]) (trees : i.trees = []) (gauges : i.gauges = [])
    (cfg : y.cfg = slotCfg s (s.phys n) (agetD i.slot n 0) (agetD i.frames n 0)) (seq : y.seq = (s.ltile n).seq) (on : RunsOn y 0)
    (hit : Option (BitVec 11 × Ecc)) :
    ∃ t, exec (.switchDrainEnd r none hit) s = .next t ∧ Only [.runs, .tiles, .gauges, .threshold, .links] s t ∧
      (∀ q, q ≠ s.phys n → t.tile q = s.tile q) ∧
      (let z := t.ltile n
       z.cfg = y.cfg ∧ z.sect.configured = true ∧ z.sect.loading = false ∧ z.sect.gen = BitVec.ofNat 3 x.gen ∧ z.sect.run = x.id ∧
       z.sect.ctx = BitVec.ofNat 6 x.ctx ∧ z.swaps = 0 ∧ z.queues = [] ∧ z.acc = [] ∧ z.hist = [] ∧ z.seq.idx = 0 ∧
       z.seq.st = .running ∧ z.seq.preds = BitVec.ofNat 8 y.initPreds ∧
       z.seq.ctrs = (List.range 4).map (fun k => BitVec.ofNat 20 (y.initCtr k))) ∧
      t.runs = s.runs.map (fun v => if v.id == r then firedRun s i v else v) := by
  obtain ⟨z, g, loads, loaded⟩ := loadTile_loads s i x n
  have same : z.cfg = y.cfg := loaded.cfg.1.trans cfg.symm
  have on_z : RunsOn z 0 := by
    obtain ⟨one, halt, brk⟩ := loaded.debug
    rw [← seq] at one halt brk
    exact ⟨by rw [progLen_of_cfg same]; exact on.inside, by rw [one, halt, brk]; exact on.free⟩
  have ready : (readied s x i (s.phys n) z g).tile (s.phys n) = z := tile_setTile_self s (s.phys n) z
  have result : loadRun s x i hit =
      (readied s x i (s.phys n) z g).setTile (s.phys n) (atNext z 0 s.clk).finish := by
    rw [loadRun_single tiles trees gauges untimed rfl loads, seqGo_on (by rw [ready]; exact on_z), ready]
    exact settle_configured loaded.loaded.1
  have frame := only_readied s x i (s.phys n) z (atNext z 0 s.clk).finish g
  have self : ((readied s x i (s.phys n) z g).setTile (s.phys n) (atNext z 0 s.clk).finish).ltile n = (atNext z 0 s.clk).finish :=
    tile_setTile_self _ _ _
  obtain rfl := id_of_run? found
  refine ⟨_, ?_, frame, fun q hq => ?_, ?_, rfl⟩
  · rw [exec_switchDrainEnd_loads found drains h image untimed, Option.elim_none, result,
      FabricProofs.done_only hr hc frame (by decide)]
  · rw [tile_setTile, if_neg hq]
    exact (tile_setTile s (s.phys n) q z).trans (if_neg hq)
  · rw [self]
    exact ⟨same, loaded.loaded.1, loaded.loaded.2, loaded.owner.1, loaded.owner.2.1, loaded.owner.2.2, loaded.cfg.2, loaded.empty.1,
      loaded.empty.2.1, loaded.empty.2.2, rfl, rfl, loaded.preds.trans (by rw [initPreds_of_cfg same]),
      loaded.ctrs.trans (by simp only [initCtr_of_cfg same])⟩

/-- A tile whose state fails parity twice (R230). -/
theorem switchDrainEnd_parity (hc : Canonical s) (hr : Runs s) (found : s.run? r = some x) (drains : x.phase = .draining)
    (h : Drained s x) {i : Image} (image : s.image? x.ctx x.handle = some i) (untimed : x.due = none) {n : BitVec 10}
    (inside : n.toNat ∈ i.tiles) (hit : Option (BitVec 11 × Ecc)) :
    ∃ t, exec (.switchDrainEnd r (some n) hit) s = .next t ∧ Faulted s t 0x4122 (some x.ctx) :=
  ⟨_, by rw [exec_switchDrainEnd_loads found drains h image untimed, Option.elim_some, if_pos (List.contains_iff_mem.mpr inside)],
    jobFault_leaves hr hc _ _ _ _ _ _ _ s.health rfl⟩

/-! ## The end of a run -/

theorem exec_runDone_running (found : s.run? r = some x) (running : x.phase = .running) : exec (.runDone r) s =
    .next (done s (if runTilesDone s x && transfersDone s ((s.region x).filter (fun n => (s.ltile n).sect.run == r)) then
      endRun s x stOk false else s)) := by
  simp [exec, execRunDone, runIn, found, running]

theorem exec_sectionTimeout_running (found : s.run? r = some x) (running : x.phase = .running) {d : Nat} (limited : x.timeoutAt = some d)
    (past : d ≤ s.clk) (busy : runTilesDone s x = false) : exec (.sectionTimeout r) s =
      .next (done s (s.jobFault 0x4120 14 1 (some x.ctx) (some r) stTimeout [])) := by
  simp [exec, execSectionTimeout, runIn, found, running, limited, past, busy]

theorem runTilesDone_iff : runTilesDone s x = true ↔
    ∀ n ∈ s.region x, (s.ltile n).sect.configured = true → (s.ltile n).sect.run = x.id → (s.ltile n).isDone = true := by
  simp only [runTilesDone, List.all_eq_true]
  refine forall₂_congr fun n _ => ?_
  cases (s.ltile n).sect.configured <;> simp [Decidable.imp_iff_not_or]

theorem transfersDone_of {tiles l : List Nat} (sub : ∀ n ∈ tiles, n ∈ l)
    (h : ∀ e ∈ s.ms.queues, ∀ n ∈ l, e.2.tile = some n → ∀ w ∈ e.2.transfers, w.complete = true) :
    transfersDone s tiles = true := by
  simp only [transfersDone, boundQueues, List.all_eq_true, List.mem_filter]
  rintro e ⟨queue, bound⟩ w hw
  cases tile : e.2.tile with
  | none => simp [tile] at bound
  | some n => exact h e queue n (sub n (by simpa [tile] using bound)) tile w hw

theorem runDone_replies (hc : Canonical s) (hr : Runs s) (found : s.run? r = some x) (running : x.phase = .running) {k : Cmd} {c ph : Nat}
    (cmd : s.runCmd x = some k) (saves : s.saves = []) (fired : x.first = some (c, ph)) (tilesDone : runTilesDone s x = true)
    (transfers : ∀ e ∈ s.ms.queues, ∀ n ∈ s.region x, e.2.tile = some n → ∀ w ∈ e.2.transfers, w.complete = true) :
    ∃ t, exec (.runDone r) s = .next t ∧ Only [.runs, .rings] s t ∧ t.owners = s.owners ∧
      RunReplies s t x k (x.reply stOk c (ph % 2 ^ 20 + x.replays % 4 * 2 ^ 20) (x.cycles s)) := by
  have words : runWords s x = (c, ph % 2 ^ 20 + x.replays % 4 * 2 ^ 20, x.cycles s) := by simp [runWords, fired]
  have whole : runTilesDone s x && transfersDone s ((s.region x).filter (fun n => (s.ltile n).sect.run == r)) := by
    rw [tilesDone, transfersDone_of (l := s.region x) (fun n hn => List.mem_of_mem_filter hn) transfers]
    rfl
  refine ⟨_, ?_, only_ended s x k _, rfl, ended_replies s x k _⟩
  rw [exec_runDone_running found running, if_pos whole, endRun_of_cmd cmd saves words,
    FabricProofs.done_only hr hc (only_ended s x k _) (by decide)]

end

/-- Settles O40: the unloading of a region, the end of phase 4 where nothing is pending, step 0 of a loaded tile, and the end of a run each
have the effect of one lemma above. -/
theorem sectionSwitchPhases : Obligations.SectionSwitchPhases := by
  unfold Obligations.SectionSwitchPhases
  refine ⟨fun r s x hc hr found waits => ⟨fun zero => ?clear, switchCensusClear_live hc hr found waits⟩,
    fun r s x hc hr found stops => ?stopping,
    fun r par hit s x hc hr found stops census queues moves saves noStop =>
      switchDrainEnd_stops hc hr found stops ⟨census, queues, moves⟩ saves noStop par hit,
    fun r hit s x i n y hc hr found drains image tiles trees gauges untimed census queues moves cfg seq on =>
      switchDrainEnd_loads hc hr found drains ⟨census, queues, moves⟩ image untimed tiles trees gauges cfg seq on hit,
    fun r hit s x i n hc hr found drains image inside untimed census queues moves =>
      switchDrainEnd_parity hc hr found drains ⟨census, queues, moves⟩ image untimed inside hit,
    fun r s x k c ph hc hr found running cmd saves fired tilesDone transfers => ?done,
    fun r s x hc hr found running busy => ?unfinished⟩
  case clear =>
    obtain ⟨t, ran, h⟩ := switchCensusClear_clear hc hr found waits zero
    refine ⟨t, ran, h.only, h.runId, h.runs, fun n hn => ?_, h.others⟩
    obtain ⟨⟨configured, loading⟩, ⟨queues, egress, ports, gq⟩, idle⟩ := h.inside n hn
    exact ⟨configured, loading, queues, egress, ports, gq, idle⟩
  case stopping =>
    have h := phaseEnds_unloadTiles hc hr (x.outgoing.map (·.1)) none (r := r) (fun y => { y with phase := .stopDrain })
    exact ⟨_, exec_switchCensusClear_stops found stops, h.only, h.runs,
      fun e he => (h.inside e.1 (List.mem_map_of_mem he)).section_⟩
  case done =>
    obtain rfl := id_of_run? found
    exact runDone_replies hc hr found running cmd saves fired (runTilesDone_iff.mpr tilesDone) transfers
  case unfinished =>
    obtain rfl := id_of_run? found
    have unfinished : runTilesDone s x = false := by
      obtain ⟨n, inside, configured, own, busy⟩ := busy
      refine Bool.eq_false_iff.mpr fun all => ?_
      exact absurd (runTilesDone_iff.mp all n inside configured own) (by simp [busy])
    refine ⟨⟨s, ?_, only_refl [] s⟩, fun d limited past => ⟨_, exec_sectionTimeout_running found running limited past unfinished,
      jobFault_leaves hr hc _ _ _ _ _ _ _ s.health rfl⟩⟩
    rw [exec_runDone_running found running, unfinished, Bool.false_and, if_neg Bool.false_ne_true, done_idle hr hc]

end Sys2Proof.SectionProofs
end

section
/-! SUPPORT. What a ring command names for reading: the state that it goes on in, and that its checks of an image or a bundle are the same
there. -/

namespace Sys2Proof.SectionProofs

open Sys2Proof.Machine Sys2Proof.Safety Sys2Proof.Laws Sys2Proof.TileProofs Sys2Proof.StoreProofs Sys2Proof.GaugeProofs

/-- State z is s after the head of ring r has moved past its packet and what the command names has been read: beside the heads, only the
snoop bookkeeping differs (R294, R305). -/
def ReadBy (s : State) (r : Nat) (z : State) : Prop :=
  ∃ x y, z = { s with rings := (advance s r).rings, host := { s.host with snooped := x, hostLines := y } }

theorem only_readBy {s z : State} {r : Nat} (h : ReadBy s r z) : Only [.snoops] (advance s r) z := by
  obtain ⟨x, y, rfl⟩ := h
  obtain ⟨g, a, b, e⟩ := advance_shape s r
  rw [e]
  refine ⟨rfl, rfl, fun k hk => ?_⟩
  cases k <;> simp [Kind.same] at hk ⊢

/-- Behind open weirs a command reads an open range at once. -/
theorem commandReads {s : State} {ring : Ring} {p : Pkt} {host : Bool} {a n : Nat} (unheld : Unheld s p.ctx) (opens : Open s host a n) :
    ∃ z, ReadBy s (ringNo ring) z ∧
      cpCharge (if host then advance s (ringNo ring) else noteAccess (advance s (ringNo ring)) 1 a n) p.ctx host a n false = z := by
  obtain ⟨x, y, e⟩ := readEnd_shape s (ringNo ring) host a n 1 opens
  obtain ⟨g, v, w, moved⟩ := advance_shape s (ringNo ring)
  have read : ReadBy s (ringNo ring) { advance s (ringNo ring) with host := { s.host with snooped := x, hostLines := y } } :=
    ⟨x, y, by rw [moved]⟩
  refine ⟨_, read, ?_⟩
  rw [e, cpCharge_open]
  rw [moved]
  exact unheld

/-! ## What the packet's own reading leaves -/

theorem anyRead_advance (s : State) (r : Nat) (host : Bool) (a n : Nat) : (advance s r).anyRead host a n = s.anyRead host a n := by
  obtain ⟨g, x, y, e⟩ := advance_shape s r
  rw [e]; rfl

theorem anyPoison_advance (s : State) (r : Nat) (host : Bool) (a n : Nat) : (advance s r).anyPoison host a n = s.anyPoison host a n := by
  obtain ⟨g, x, y, e⟩ := advance_shape s r
  rw [e]; rfl

theorem ownEntry_advance (s : State) (r : Nat) (e : BundleEntry) : ownEntry (advance s r) e = ownEntry s e := by
  obtain ⟨g, x, y, h⟩ := advance_shape s r
  rw [h]; rfl

theorem polderOfCtx_advance (s : State) (r c : Nat) : (advance s r).polderOfCtx c = s.polderOfCtx c := by
  obtain ⟨g, x, y, e⟩ := advance_shape s r
  rw [e]; rfl

theorem imgCheck_advance (s : State) (r : Nat) (rd : Nat → Nat → List Byte) (len ctx handle polder : Nat) (sigOk changed : Bool) :
    imgCheck (advance s r) rd len ctx handle polder sigOk changed = imgCheck s rd len ctx handle polder sigOk changed := by
  obtain ⟨g, x, y, e⟩ := advance_shape s r
  rw [e]; rfl

end Sys2Proof.SectionProofs
end

section
/-! PROOFS. IMAGE_FORWARD in daisy-chain mode, and the limit of what it waits for (R236, R238). Settles O8. -/

namespace Sys2Proof.SectionProofs

open Sys2Proof.Machine Sys2Proof.Safety Sys2Proof.Laws Sys2Proof.TileProofs Sys2Proof.StoreProofs Sys2Proof.GaugeProofs

/-! ## A bundle that goes on whole -/

theorem foldl_none_own {α β : Type} {q : α → Bool} {u : State × List β → α → State × List β} {g : α → β} {l : List α}
    (h : ∀ e ∈ l, q e = false) (s : State) (acc : List β) :
    l.foldl (fun x e => if q e = true then u x e else (x.1, x.2 ++ [g e])) (s, acc) = (s, acc ++ l.map g) := by
  induction l generalizing acc with
  | nil => simp
  | cons a l ih =>
    rw [List.foldl_cons, if_neg (by simp [h a]), ih (fun e he => h e (List.mem_cons_of_mem a he))]
    simp

theorem bundleEntries_head {bs : List Byte} (h : bundleOk bs = true) : ∃ l, bundleEntries bs = bundleEntry bs 0 :: l := by
  have count : 1 ≤ leAt bs 6 2 := by
    simp only [bundleOk, bundleHeadOk, Bool.and_eq_true, decide_eq_true_eq] at h
    omega
  unfold bundleEntries
  obtain ⟨n, e⟩ := Nat.exists_eq_add_of_le' count
  rw [e, List.range_succ_eq_map, List.map_cons]
  exact ⟨_, rfl⟩

theorem up_of_linkRoute {s : State} {id k : Nat} {arr : Option Nat} (h : linkRoute s id arr = .send k) : (s.lport k).up = true := by
  unfold linkRoute at h
  split at h
  · exact absurd h (by simp)
  · split at h
    · exact absurd h (by simp)
    · split at h
      next up => exact Routed.send.inj h ▸ up
      next => exact absurd h (by simp)

theorem sendDaisy_sends {s : State} {dev k : Nat} (route : linkRoute s dev none = .send k) (bid off : Nat) (bs : List Byte) :
    sendDaisy s bid dev off bs none = s.modLport k (fun x : LinkPort => { x with bundles := x.bundles ++ [⟨bid, off, bs⟩] }) := by
  simp only [sendDaisy, route, pushBundle, up_of_linkRoute route, if_true]

/-- A forwarding by ring r that waits for a status of every entry of bundle bs, from this clock on. -/
def waitsFor (s : State) (r : Nat) (p : Pkt) (bs : List Byte) : Forward :=
  ⟨r, p.cmd [s.links.nextBid], (bundleEntries bs).map (fun e => (e.dev, none)), s.clk + 160000000⟩

/-- A port whose queue bundle bs has joined, with count and offsets rewritten (R236). -/
def queued (bid : Nat) (bs : List Byte) (q : LinkPort) : LinkPort :=
  { q with bundles := q.bundles ++ [⟨bid, 0, rebundle bs (bundleEntries bs)⟩] }

/-- The state z after bundle bs has joined the queue of port k under the next number. -/
def bundleSent (z : State) (k : Nat) (bs : List Byte) : State :=
  ({ z with links := { z.links with nextBid := (z.links.nextBid + 1) % 65536 } } : State).modLport k (queued z.links.nextBid bs)

/-- The state z after an IMAGE_FORWARD of bundle bs over port k. -/
def forwarding (z : State) (r : Nat) (p : Pkt) (k : Nat) (bs : List Byte) : State :=
  let x := accept (bundleSent z k bs) r p [z.links.nextBid]
  { x with links := { x.links with forwards := x.links.forwards ++ [waitsFor z r p bs] } }

theorem settleForwards_forwarding {z : State} {bs : List Byte} (ok : bundleOk bs = true) (r : Nat) (p : Pkt) (k : Nat)
    (waiting : ∀ f ∈ z.links.forwards, ∃ e ∈ f.entries, e.2 = none) :
    settleForwards (forwarding z r p k bs) = forwarding z r p k bs := by
  refine settle_none _ fun f hf => ?_
  rcases List.mem_append.mp (show f ∈ z.links.forwards ++ [waitsFor z r p bs] from hf) with old | new
  · exact waiting f old
  · obtain ⟨l, entries⟩ := bundleEntries_head ok
    obtain rfl := List.mem_singleton.mp new
    exact ⟨((bundleEntry bs 0).dev, none), by simp [waitsFor, entries], rfl⟩

theorem lport_forwarding (z : State) (r : Nat) (p : Pkt) (k : Nat) (bs : List Byte) (j : Nat) :
    (forwarding z r p k bs).lport j = if j = k then queued z.links.nextBid bs (z.lport k) else z.lport j :=
  lport_modLport { z with links := { z.links with nextBid := (z.links.nextBid + 1) % 65536 } } k j _

theorem only_forwarding (z : State) (r : Nat) (p : Pkt) (k : Nat) (bs : List Byte) : Only [.rings, .links] z (forwarding z r p k bs) := by
  refine ⟨rfl, rfl, fun i hi => ?_⟩
  cases i <;> simp [Kind.same, forwarding, bundleSent, State.modLport, State.setLport] at hi ⊢

section
variable {ring : Ring} {sigOk k : Nat} {s : State} {p : Pkt}

theorem imageForward_begins (takes : Takes s ring 0x32 [(8, 1, 1), (9, 1, 1), (16, 8, 0), (24, 8, 0)] p)
    (serial : bitOf (p.b 8 1) 0 = false) {host : Bool} (source : bitOf (p.b 9 1) 0 = host) {bs : List Byte}
    (bytes : s.anyRead host (p.b 16 8) (p.b 24 8) = bs) (opens : Open s host (p.b 16 8) (p.b 24 8))
    (sound : s.anyPoison host (p.b 16 8) (p.b 24 8) = false) (ok : bundleOk bs = true)
    (foreign : ∀ e ∈ bundleEntries bs, ownEntry s e = false) (route : linkRoute s (bundleEntry bs 0).dev none = .send k)
    (waiting : ∀ f ∈ s.links.forwards, ∃ e ∈ f.entries, e.2 = none) :
    ∃ t, exec (.imageForward ring sigOk) s = .next t ∧ Begins s t ring p [.links] [s.links.nextBid] ∧
      t.links.forwards = s.links.forwards ++ [waitsFor s (ringNo ring) p bs] ∧
      (t.lport k).bundles = (s.lport k).bundles ++ [⟨s.links.nextBid, 0, rebundle bs (bundleEntries bs)⟩] ∧
      (∀ j, j ≠ k → t.lport j = s.lport j) := by
  obtain ⟨z, read, reads⟩ := commandReads (ring := ring) takes.unheld opens
  have frame := only_trans (only_mono (l' := [.snoops, .rings, .links]) (by simp) (only_readBy read))
    (only_mono (by simp) (only_forwarding z (ringNo ring) p k bs))
  obtain ⟨l, entries⟩ := bundleEntries_head ok
  have rest : (bundleEntries bs).filter (fun e => !ownEntry s e) = bundleEntries bs :=
    List.filter_eq_self.mpr fun e he => by simp [foreign e he]
  have nonempty : (bundleEntries bs).isEmpty = false := by rw [entries]; rfl
  have first : ((bundleEntries bs).head?.map (·.dev)).getD 0 = (bundleEntry bs 0).dev := by rw [entries]; rfl
  have sends : sendDaisy { z with links := { z.links with nextBid := (z.links.nextBid + 1) % 65536 } } z.links.nextBid
      (bundleEntry bs 0).dev 0 (rebundle bs (bundleEntries bs)) none = bundleSent z k bs := by
    refine sendDaisy_sends ?_ _ _ _
    obtain ⟨x, y, rfl⟩ := read
    exact route
  have clk : z.clk = s.clk := by obtain ⟨x, y, rfl⟩ := read; rfl
  have links : z.links = s.links := by obtain ⟨x, y, rfl⟩ := read; rfl
  refine ring_accepts (congrArg (fun x => Host.Outcome.next (done s x)) (ringCmdOf_sound takes.sound.1 _ _ _ _ _))
    (forwarding z (ringNo ring) p k bs) [s.links.nextBid] [.links] takes (by simp) ?_ ?_ (fun i hi => frame.2.2 i ?_) fun begins => ?_
  · rw [checked_takes takes]
    dsimp only
    rw [source, anyRead_advance, bytes, anyPoison_advance, sound, ok, reads]
    simp only [ownEntry_advance, rest, foldl_none_own foreign, nonempty, serial, first, sends, List.nil_append, advance_clk, ← clk,
      Bool.false_eq_true, Bool.not_true, if_false]
    exact settleForwards_forwarding ok (ringNo ring) p k (links ▸ waiting)
  · obtain ⟨x, y, rfl⟩ := read
    rfl
  · simp_all
  · have sent (j : Nat) : (done s (forwarding z (ringNo ring) p k bs)).lport j =
        if j = k then queued s.links.nextBid bs (s.lport k) else s.lport j := by
      rw [lport_done takes.runs, lport_forwarding]
      unfold State.lport
      rw [links]
    refine ⟨begins, ?_, by rw [sent, if_pos rfl]; rfl, fun j hj => by rw [sent, if_neg hj]⟩
    rw [done_links _ _ takes.runs]
    obtain ⟨x, y, rfl⟩ := read
    rfl

theorem imageForward_refused (takes : Takes s ring 0x32 [(8, 1, 1), (9, 1, 1), (16, 8, 0), (24, 8, 0)] p) {host : Bool}
    (source : bitOf (p.b 9 1) 0 = host) (opens : Open s host (p.b 16 8) (p.b 24 8))
    (sound : s.anyPoison host (p.b 16 8) (p.b 24 8) = false) (malformed : bundleOk (s.anyRead host (p.b 16 8) (p.b 24 8)) = false) :
    ∃ t, exec (.imageForward ring sigOk) s = .next t ∧ Ends s t ring p [] stBadParam 0 0 0 := by
  obtain ⟨z, read, reads⟩ := commandReads (ring := ring) takes.unheld opens
  refine ring_completes (congrArg (fun x => Host.Outcome.next (done s x)) (ringCmdOf_sound takes.sound.1 _ _ _ _ _)) z stBadParam 0 0 0
    [] takes (by simp) ?_ ?_ (fun i hi => (only_readBy read).2.2 i ?_) id
  · rw [checked_takes takes]
    dsimp only
    rw [source, anyRead_advance, anyPoison_advance, sound, malformed, reads]
    rfl
  · obtain ⟨x, y, rfl⟩ := read
    rfl
  · simp_all

end

/-! ## The limit of 100 ms -/

theorem foldl_once {α β : Type} {f : β → α → β} {l : List α} {a : α} (inside : a ∈ l) (once : l.Nodup)
    (others : ∀ b ∈ l, b ≠ a → ∀ y, f y b = y) (s : β) : l.foldl f s = f s a := by
  obtain ⟨l1, l2, rfl⟩ := List.append_of_mem inside
  have apart := List.nodup_middle.mp once
  obtain ⟨out, -⟩ := List.nodup_cons.mp apart
  rw [List.foldl_append, List.foldl_cons, foldl_id f l1 s, foldl_id f l2 (f s a)]
  · exact fun b hb => others b (by simp [hb]) fun same => out (by simp [← same, hb])
  · exact fun b hb => others b (by simp [hb]) fun same => out (by simp [← same, hb])

theorem only_endForward (s : State) (f : Forward) : Only [.rings, .links] s (endForward s f) := by
  refine ⟨rfl, rfl, fun k hk => ?_⟩
  cases k <;> simp [Kind.same, endForward] at hk ⊢

theorem forwardStatusTimeout_ends {s : State} {f : Forward} (hc : Canonical s) (hr : Runs s) (inside : f ∈ s.links.forwards)
    (once : s.links.forwards.Nodup) (due : f.due ≤ s.clk) (others : ∀ g ∈ s.links.forwards, g ≠ f → s.clk < g.due) :
    exec .forwardStatusTimeout s = .next (endForward s f) := by
  have ends : s.links.forwards.foldl (fun x f => if f.due ≤ s.clk then endForward x f else x) s = endForward s f := by
    rw [foldl_once inside once, if_pos due]
    exact fun g hg ne y => if_neg (Nat.not_le.mpr (others g hg ne))
  rw [← FabricProofs.done_only hr hc (only_endForward s f) (by decide), ← ends]
  rfl

/-- Settles O8: the bundle and its forwarding join the state in which the bundle has been read; the limit ends one forwarding. -/
theorem forwardWaitsForStatuses : Obligations.ForwardWaitsForStatuses := by
  unfold Obligations.ForwardWaitsForStatuses
  refine ⟨fun ring sigOk k s p takes => ?_, fun ring sigOk s p takes => ?_, fun s f hc hr inside once due others => ?_⟩
  · intro host bs serial opens sound ok foreign route waiting
    exact imageForward_begins takes serial rfl rfl opens sound ok foreign route waiting
  · intro host opens sound malformed
    exact imageForward_refused takes rfl opens sound malformed
  · exact ⟨_, forwardStatusTimeout_ends hc hr inside once due others, only_endForward s f, rfl, ring_complete_self _ _ _ _,
      fun r hne => ring_complete_other _ _ _ _ _ hne⟩

end Sys2Proof.SectionProofs
end

section
/-! SUPPORT. Shadow slots of tile stores: the frames that staging copies into them, and their zeroes after a second reading that differed
(R219, R220). -/

namespace Sys2Proof.SectionProofs

open Sys2Proof.Machine Sys2Proof.Safety Sys2Proof.Laws Sys2Proof.TileProofs Sys2Proof.StoreProofs Sys2Proof.GaugeProofs

/-! ## One write into a tile store -/

/-- t follows s by work on tile stores that changes, beside memory, only the lists of words of tiles. -/
structure StoreWork (s t : State) : Prop where
  shape : ∃ m tl, t = { s with mem := m, tiles := tl }
  lists : SameButLists s t
  canonical : t.mem.wf = true

theorem storeWork_refl {s : State} (hw : s.mem.wf = true) : StoreWork s s :=
  ⟨⟨s.mem, s.tiles, rfl⟩, fun q => ⟨(s.tile q).wbPending, (s.tile q).localList, rfl⟩, hw⟩

theorem storeWork_trans {a b c : State} (h : StoreWork a b) (g : StoreWork b c) : StoreWork a c := by
  refine ⟨?_, fun q => ?_, g.canonical⟩
  · obtain ⟨m, tl, rfl⟩ := h.shape
    exact g.shape
  · obtain ⟨w, l, first⟩ := h.lists q
    obtain ⟨w', l', second⟩ := g.lists q
    exact ⟨w', l', by rw [second, first]⟩

theorem phys_storeWork {s t : State} (h : StoreWork s t) (n : Nat) : t.phys n = s.phys n := by
  obtain ⟨m, tl, rfl⟩ := h.shape
  rfl

theorem freeSlot_storeWork {s t : State} (h : StoreWork s t) (q : Nat) : freeSlot (t.tile q) = freeSlot (s.tile q) := by
  obtain ⟨w, l, e⟩ := h.lists q
  rw [e]
  rfl

theorem freeSlot_ltile_storeWork {s t : State} (h : StoreWork s t) (n : Nat) : freeSlot (t.ltile n) = freeSlot (s.ltile n) := by
  unfold State.ltile
  rw [phys_storeWork h, freeSlot_storeWork h]

theorem freeSlot_lt {y : Tile} {j : Nat} (h : freeSlot y = some j) : j < 16 := by
  simpa using List.mem_of_find?_eq_some h

/-- The bytes bs stand at place a in t, and every byte outside them reads as in s. -/
structure Stored (s t : State) (a : Nat) (bs : List Byte) : Prop where
  work : StoreWork s t
  read : t.mem.read a bs.length = bs
  outside : ∀ x, x < a ∨ a + bs.length ≤ x → t.mem.byte x = s.mem.byte x

theorem write_stored {s : State} (hw : s.mem.wf = true) (p a : Nat) (bs : List Byte) (l w : List Nat) :
    Stored s ({ s with mem := s.mem.write a bs false }.wrote p l w) a bs := by
  obtain ⟨tl, e, lists⟩ := wrote_lists { s with mem := s.mem.write a bs false } p l w
  rw [e]
  exact ⟨⟨⟨_, tl, rfl⟩, lists, write_wf _ _ _ _ hw⟩, read_write_self _ _ _ _ hw, fun x hx => byte_write_other _ _ _ _ _ hw hx⟩

theorem read_of_bytes {m m' : Memory} {a n : Nat} (h : ∀ x, a ≤ x → x < a + n → m.byte x = m'.byte x) :
    m.read a n = m'.read a n := by
  refine List.map_congr_left fun i hi => h _ (Nat.le_add_right a i) ?_
  have := List.mem_range.mp hi
  omega

/-! ## The frames of a tile -/

section
variable {rd : Nat → Nat → List Byte} (long : ∀ o, (rd o 4096).length = 4096)

/-- Frame k of tile n, where the image gives it, in slot j of physical tile p. -/
def putFrame (rd : Nat → Nat → List Byte) (n p j : Nat) (s : State) (k : Nat) : State :=
  (frameAt (imgFrames rd) n k).elim s (fun i =>
    { s with mem := s.mem.write (slotPlace p j k) (rd (ihFdOff rd + 4096 * i) 4096) false }.wrote p
      (granules (slotPlace p j k) 4096) (granules (slotPlace p j k) 4096))

/-- Frames ks of tile n stand in slot j of physical tile p, and no byte outside them has changed. -/
structure FramesPut (rd : Nat → Nat → List Byte) (n p j : Nat) (ks : List Nat) (s t : State) : Prop where
  work : StoreWork s t
  frames : ∀ k ∈ ks, ∀ i, frameAt (imgFrames rd) n k = some i → t.mem.read (slotPlace p j k) 4096 = rd (ihFdOff rd + 4096 * i) 4096
  outside : ∀ x, (∀ k ∈ ks, x < slotPlace p j k ∨ slotPlace p j k + 4096 ≤ x) → t.mem.byte x = s.mem.byte x

include long in
theorem putFrame_put {s : State} (hw : s.mem.wf = true) (n p j k : Nat) : FramesPut rd n p j [k] s (putFrame rd n p j s k) := by
  unfold putFrame
  cases found : frameAt (imgFrames rd) n k with
  | none =>
    refine ⟨storeWork_refl hw, fun l hl i at_ => ?_, fun _ _ => rfl⟩
    rw [List.mem_singleton.mp hl, found] at at_
    exact absurd at_ (by simp)
  | some i =>
    have stored := write_stored hw p (slotPlace p j k) (rd (ihFdOff rd + 4096 * i) 4096)
      (granules (slotPlace p j k) 4096) (granules (slotPlace p j k) 4096)
    have read := stored.read
    have outside := stored.outside
    rw [long] at read outside
    refine ⟨stored.work, fun l hl i' at_ => ?_, fun x hx => outside x (hx k (List.mem_singleton_self k))⟩
    obtain rfl := List.mem_singleton.mp hl
    obtain rfl := Option.some.inj (found.symm.trans at_)
    exact read

include long in
theorem putFrames_put (n p j : Nat) {ks : List Nat} (once : ks.Nodup) : ∀ {s : State}, s.mem.wf = true →
    FramesPut rd n p j ks s (ks.foldl (putFrame rd n p j) s) := by
  induction ks with
  | nil => exact fun hw => ⟨storeWork_refl hw, by simp, fun _ _ => rfl⟩
  | cons k l ih =>
    intro s hw
    obtain ⟨new, once⟩ := List.nodup_cons.mp once
    have first := putFrame_put long hw n p j k
    have rest := ih once first.work.canonical
    refine ⟨storeWork_trans first.work rest.work, fun k' hk i at_ => ?_, fun x hx => ?_⟩
    · rcases List.mem_cons.mp hk with rfl | later
      · refine (read_of_bytes fun x lo hi => rest.outside x fun m hm => ?_).trans
          (first.frames k' (List.mem_singleton_self k') i at_)
        have apart : m ≠ k' := fun same => new (same ▸ hm)
        simp only [slotPlace] at lo hi ⊢
        omega
      · exact rest.frames k' later i at_
    · exact (rest.outside x fun m hm => hx m (List.mem_cons_of_mem k hm)).trans
        (first.outside x fun m hm => hx m (List.mem_singleton.mp hm ▸ List.mem_cons_self ..))

/-! ## A tile that is staged -/

theorem stageTile_full {x : State × Assoc Nat × Assoc Nat} {n : Nat} (full : freeSlot (x.1.ltile n) = none) :
    (stageTile rd x n).1 = x.1 := by
  obtain ⟨s, slots, frames⟩ := x
  simp only [stageTile, show freeSlot (s.tile (s.phys n)) = none from full]

/-- A tile whose slot j is taken. -/
def slotTaken (j : Nat) (y : Tile) : Tile := y.modRegs (fun r => { r with slots := BitVec.ofNat 16 (putBit r.slots.toNat j true) })

theorem stageTile_slot {x : State × Assoc Nat × Assoc Nat} {n j : Nat} (free : freeSlot (x.1.ltile n) = some j) :
    (stageTile rd x n).1 = (List.range 4).foldl (putFrame rd n (x.1.phys n) j) (x.1.modTile (x.1.phys n) (slotTaken j)) := by
  obtain ⟨s, slots, frames⟩ := x
  simp only [stageTile, show freeSlot (s.tile (s.phys n)) = some j from free]
  congr 1
  funext y k
  unfold putFrame
  cases frameAt (imgFrames rd) n k <;> rfl

/-- What staging leaves of one tile: its frames in its lowest free slot, and every other tile's slots as they were (R220). -/
structure TileStaged (rd : Nat → Nat → List Byte) (s t : State) (n : Nat) : Prop where
  shape : ∃ tl m, t = { s with tiles := tl, mem := m }
  canonical : t.mem.wf = true
  slots : ∀ q, q ≠ s.phys n → freeSlot (t.tile q) = freeSlot (s.tile q)
  frames : ∀ j, freeSlot (s.ltile n) = some j → ∀ q i, q < 4 → frameAt (imgFrames rd) n q = some i →
    t.mem.read (slotPlace (s.phys n) j q) 4096 = rd (ihFdOff rd + 4096 * i) 4096

include long in
theorem stageTile_staged {x : State × Assoc Nat × Assoc Nat} (hw : x.1.mem.wf = true) (n : Nat) :
    TileStaged rd x.1 (stageTile rd x n).1 n := by
  obtain ⟨tl, m, shape, wf⟩ := stageTile_shape rd x n
  cases free : freeSlot (x.1.ltile n) with
  | none =>
    have same := stageTile_full (rd := rd) free
    exact ⟨⟨tl, m, shape⟩, by rw [shape]; exact wf hw, fun q _ => by rw [same],
      fun j some_ => absurd (free.symm.trans some_) (by simp)⟩
  | some j =>
    have put := putFrames_put long n (x.1.phys n) j (ks := List.range 4) List.nodup_range
      (s := x.1.modTile (x.1.phys n) (slotTaken j)) hw
    rw [← stageTile_slot (rd := rd) free] at put
    refine ⟨⟨tl, m, shape⟩, put.work.canonical, fun q hq => ?_, fun j' found q i hq => ?_⟩
    · rw [freeSlot_storeWork put.work, tile_modTile_other _ _ _ _ hq]
    · obtain rfl := Option.some.inj (free.symm.trans found)
      exact put.frames q (List.mem_range.mpr hq) i

include long in
/-- The frames of every tile of an image stand in its slots, where no two tiles share a place. -/
theorem stageTiles_frames {l : List Nat} : ∀ {x : State × Assoc Nat × Assoc Nat}, l.Nodup →
    (∀ a b, x.1.phys a = x.1.phys b → a = b) → x.1.mem.wf = true →
    ∀ n j, n ∈ l → freeSlot (x.1.ltile n) = some j → ∀ q i, q < 4 → frameAt (imgFrames rd) n q = some i →
      (l.foldl (stageTile rd) x).1.mem.read (slotPlace (x.1.phys n) j q) 4096 = rd (ihFdOff rd + 4096 * i) 4096 := by
  induction l with
  | nil => exact fun _ _ _ n j hn => absurd hn (by simp)
  | cons k l ih =>
    intro x once apart hw n j hn free q i hq at_
    obtain ⟨new, once⟩ := List.nodup_cons.mp once
    have staged := stageTile_staged long hw k
    have places (m : Nat) : (stageTile rd x k).1.phys m = x.1.phys m := by
      obtain ⟨tl, m, shape⟩ := staged.shape
      rw [shape]
      rfl
    rw [List.foldl_cons]
    rcases List.mem_cons.mp hn with rfl | later
    · refine (read_of_bytes fun z lo hi => stageTiles_frame rd long l (stageTile rd x n) z staged.canonical fun m hm => ?_).trans
        (staged.frames j free q i hq at_)
      have elsewhere : x.1.phys m ≠ x.1.phys n := fun same => new (apart m n same ▸ hm)
      have := freeSlot_lt free
      rw [places]
      simp only [slotPlace, tileBase] at lo hi ⊢
      omega
    · have elsewhere : x.1.phys n ≠ x.1.phys k := fun same => new (apart n k same ▸ later)
      rw [← places n]
      refine ih once (fun a b => by rw [places, places]; exact apart a b) staged.canonical n j later ?_ q i hq at_
      unfold State.ltile
      rw [places, staged.slots _ elsewhere]
      exact free

end

/-! ## Slots that a second reading has filled -/

/-- A byte of the staged-frame area of logical tile n. -/
def InStagedArea (s : State) (n x : Nat) : Prop := tileBase (s.phys n) + 0xFC0000 ≤ x ∧ x < tileBase (s.phys n) + 0x1000000

/-- Bytes of A may have turned to zero, and no other byte has changed. -/
structure Zeroed (A : Nat → Prop) (s t : State) : Prop where
  work : StoreWork s t
  bytes : ∀ x, t.mem.byte x = s.mem.byte x ∨ A x ∧ t.mem.byte x = 0

theorem byte_zeroed {A : Nat → Prop} {s t : State} (h : Zeroed A s t) {x : Nat} (zero : s.mem.byte x = 0) : t.mem.byte x = 0 := by
  rcases h.bytes x with same | ⟨-, done⟩
  · rw [same, zero]
  · exact done

/-- The lowest free slot of tile n is zeroed. -/
def zeroSlot (s : State) (n : Nat) : State :=
  (freeSlot (s.ltile n)).elim s (fun j =>
    { s with mem := s.mem.write (slotPlace (s.phys n) j 0) (List.replicate 16384 0) false }.wrote (s.phys n)
      (granules (slotPlace (s.phys n) j 0) 16384) (granules (slotPlace (s.phys n) j 0) 16384))

theorem zeroSlots_eq (s : State) (l : List Nat) : zeroSlots s l = l.foldl zeroSlot s := by
  unfold zeroSlots
  congr 1
  funext x n
  unfold zeroSlot
  cases freeSlot (x.ltile n) <;> rfl

theorem byte_of_read_zeros {m : Memory} {a n : Nat} (h : m.read a n = List.replicate n 0) {i : Nat} (hi : i < n) : m.byte (a + i) = 0 := by
  have := congrArg (fun l : List Byte => l[i]?) h
  simpa [Memory.read, hi] using this

theorem zeroSlot_zeroes {s : State} (hw : s.mem.wf = true) (n : Nat) : Zeroed (InStagedArea s n) s (zeroSlot s n) ∧
    ∀ j, freeSlot (s.ltile n) = some j → ∀ i, i < 16384 → (zeroSlot s n).mem.byte (slotPlace (s.phys n) j 0 + i) = 0 := by
  unfold zeroSlot
  cases free : freeSlot (s.ltile n) with
  | none => exact ⟨⟨storeWork_refl hw, fun _ => .inl rfl⟩, fun _ h => absurd h (by simp)⟩
  | some j =>
    have slot := freeSlot_lt free
    have stored := write_stored hw (s.phys n) (slotPlace (s.phys n) j 0) (List.replicate 16384 0)
      (granules (slotPlace (s.phys n) j 0) 16384) (granules (slotPlace (s.phys n) j 0) 16384)
    have read := stored.read
    have outside := stored.outside
    rw [List.length_replicate] at read outside
    refine ⟨⟨stored.work, fun x => ?_⟩, fun j' same i hi => ?_⟩
    · by_cases out : x < slotPlace (s.phys n) j 0 ∨ slotPlace (s.phys n) j 0 + 16384 ≤ x
      · exact .inl (outside x out)
      · obtain ⟨lo, hi⟩ := not_or.mp out
        obtain ⟨i, rfl⟩ := Nat.exists_eq_add_of_le (Nat.not_lt.mp lo)
        refine .inr ⟨?_, byte_of_read_zeros read (by omega)⟩
        simp only [InStagedArea, slotPlace] at lo hi ⊢
        omega
    · obtain rfl := Option.some.inj same
      exact byte_of_read_zeros read hi

theorem zeroSlots_zeroes {l : List Nat} : ∀ {s : State}, s.mem.wf = true →
    Zeroed (fun x => ∃ n ∈ l, InStagedArea s n x) s (zeroSlots s l) ∧
    ∀ n j, n ∈ l → freeSlot (s.ltile n) = some j →
      ∀ i, i < 16384 → (zeroSlots s l).mem.byte (slotPlace (s.phys n) j 0 + i) = 0 := by
  simp only [zeroSlots_eq]
  induction l with
  | nil => exact fun hw => ⟨⟨storeWork_refl hw, fun _ => .inl rfl⟩, fun _ _ h => absurd h (by simp)⟩
  | cons k l ih =>
    intro s hw
    obtain ⟨first, clears⟩ := zeroSlot_zeroes hw k
    obtain ⟨rest, later⟩ := ih first.work.canonical
    have places := phys_storeWork first.work
    rw [List.foldl_cons]
    refine ⟨⟨storeWork_trans first.work rest.work, fun x => ?_⟩, fun n j hn free i hi => ?_⟩
    · rcases rest.bytes x with same | ⟨⟨n, hn, area⟩, zero⟩
      · rw [same]
        exact (first.bytes x).imp_right fun ⟨area, zero⟩ => ⟨⟨k, List.mem_cons_self .., area⟩, zero⟩
      · refine .inr ⟨⟨n, List.mem_cons_of_mem k hn, ?_⟩, zero⟩
        simpa only [InStagedArea, places] using area
    · rcases List.mem_cons.mp hn with rfl | hn
      · exact byte_zeroed rest (clears j free i hi)
      · rw [← places n]
        exact later n j hn ((freeSlot_ltile_storeWork first.work n).trans free) i hi

end Sys2Proof.SectionProofs
end

section
/-! PROOFS. IMAGE_STAGE and IMAGE_DROP (R217-R221). Settles O7. -/

namespace Sys2Proof.SectionProofs

open Sys2Proof.Machine Sys2Proof.Safety Sys2Proof.Laws Sys2Proof.TileProofs Sys2Proof.StoreProofs Sys2Proof.GaugeProofs

/-! ## The tiles and the checks of an image -/

theorem foldl_insNat_rising (l : List Nat) : ∀ {a : List Nat}, a.Pairwise (· < ·) → (l.foldl insNat a).Pairwise (· < ·) := by
  induction l with
  | nil => exact id
  | cons n l ih => exact fun h => ih (insNat_rising _ n h)

theorem imgTiles_nodup (rd : Nat → Nat → List Byte) : (imgTiles rd).Nodup := by
  have rising (l : List (List Byte)) : ∀ a : List Nat, a.Pairwise (· < ·) →
      (l.foldl (fun a e => (regionTiles e).foldl insNat a) a).Pairwise (· < ·) := by
    induction l with
    | nil => exact fun _ => id
    | cons e l ih => exact fun a h => ih _ (foldl_insNat_rising _ h)
  exact (rising _ [] .nil).imp fun h => Nat.ne_of_lt h

/-- That a second reading differed counts only after every check has passed (R219, R220). -/
theorem imgCheck_changed (s : State) (rd : Nat → Nat → List Byte) (len ctx handle polder : Nat) (sigOk changed : Bool) :
    imgCheck s rd len ctx handle polder sigOk changed =
      (imgCheck s rd len ctx handle polder sigOk false).bind
        (fun v => if changed then .error ⟨stImageSignature, 0x1183, 0⟩ else .ok v) := by
  unfold imgCheck
  simp only [Bool.false_eq_true, if_false]
  repeat' split
  all_goals rfl

/-! ## What staging and refusing leave -/

theorem only_stageImage (s : State) (rd : Nat → Nat → List Byte) (host : Bool) (a len c h : Nat) (v : Bool) (w : Option (Nat × Nat)) :
    Only [.mem, .tiles, .gauges, .free, .images, .loader] s (stageImage s rd host a len c h v w) := by
  obtain ⟨tl, m, g, n, img, e, -⟩ := stageImage_shape s rd host a len c h v w
  rw [e]
  refine ⟨rfl, rfl, fun k hk => ?_⟩
  cases k <;> simp [Kind.same] at hk ⊢

theorem only_refuseImage (s : State) (c : Nat) (f : ImgFail) : Only [.loader, .log, .vectors] s (refuseImage s c f) := by
  obtain ⟨g, a, b, e⟩ := refuseImage_shape s c f
  rw [e]
  refine ⟨rfl, rfl, fun k hk => ?_⟩
  cases k <;> simp [Kind.same] at hk ⊢

theorem only_dropImage (s : State) (i : Image) : Only [.tiles, .images] s (dropImage s i) := by
  obtain ⟨tl, e⟩ := dropImage_shape s i
  rw [e]
  refine ⟨rfl, rfl, fun k hk => ?_⟩
  cases k <;> simp [Kind.same] at hk ⊢

theorem only_storeWork {s t : State} (h : StoreWork s t) : Only [.mem, .tiles] s t := by
  obtain ⟨m, tl, rfl⟩ := h.shape
  refine ⟨rfl, rfl, fun k hk => ?_⟩
  cases k <;> simp [Kind.same] at hk ⊢

theorem stageImage_mem (s : State) (rd : Nat → Nat → List Byte) (host : Bool) (a len c h : Nat) (v : Bool) (w : Option (Nat × Nat)) :
    (stageImage s rd host a len c h v w).mem = ((imgTiles rd).foldl (stageTile rd) (s, [], [])).1.mem := by
  unfold stageImage
  dsimp only
  obtain ⟨x, n, e⟩ := bindGauges_shape c (newGauges s c (gaugeDecls rd)) ((imgTiles rd).foldl (stageTile rd) (s, [], [])).1
  rw [e]
  rfl

theorem dropImage_gone {s : State} {i : Image} {c h : Nat} (found : s.image? c h = some i) : (dropImage s i).image? c h = none := by
  have key := List.find?_some found
  simp only [Bool.and_eq_true, beq_iff_eq] at key
  obtain ⟨hc, hh⟩ := key
  obtain ⟨tl, e⟩ := dropImage_shape s i
  rw [e]
  simp only [State.image?, List.find?_eq_none, List.mem_filter, hc, hh]
  intro x hx same
  simp [same] at hx

/-! ## IMAGE_STAGE -/

section
variable {ring : Ring} {sigOk changed v : Bool} {k : Nat} {s : State} {p : Pkt} {host : Bool} {rd : Nat → Nat → List Byte}

/-- An IMAGE_STAGE that gets as far as the checks of Table 9.4, with what it reads. -/
structure Stages (s : State) (ring : Ring) (p : Pkt) (k : Nat) (host : Bool) (rd : Nat → Nat → List Byte) : Prop where
  takes : Takes s ring 0x30 [(8, 1, 0), (9, 1, 1), (16, 8, 0), (24, 4, 0)] p
  source : bitOf (p.b 9 1) 0 = host
  reading : (fun o n => s.anyRead host (p.b 16 8 + o) n) = rd
  polder : s.polderOfCtx p.ctx = some k
  live : s.ctxLive p.ctx = true
  opens : Open s host (p.b 16 8) (p.b 24 4)

theorem reading_long (h : Stages s ring p k host rd) (o : Nat) : (rd o 4096).length = 4096 := by
  rw [← h.reading]
  exact anyRead_length s host _ 4096

/-- The state in which the image has been staged, with the reply that waits. -/
def stagedBy (z s : State) (ring : Ring) (p : Pkt) (host : Bool) (rd : Nat → Nat → List Byte) (v : Bool) : State :=
  answer (stageImage z rd host (p.b 16 8) (p.b 24 4) p.ctx (p.b 8 1) v (some (ringNo ring, p.seq))) (ringNo ring) p stOk
    (b2n v + b2n s.sec.error * 2) 0 0

theorem stagedBy_leaves {z : State} (runs : s.stopped = false) (canonical : z.mem.wf = true) :
    (∃ img, (done s (stagedBy z s ring p host rd v)).images = z.images ++ [img] ∧ img.ctx = p.ctx ∧ img.handle = p.b 8 1 ∧
      img.host = host ∧ img.addr = p.b 16 8 ∧ img.len = p.b 24 4 ∧ img.digest = rd 64 32 ∧ img.tiles = imgTiles rd ∧
      img.sigChecked = v ∧ img.awaits = some (ringNo ring, p.seq)) ∧
    (done s (stagedBy z s ring p host rd v)).ldrStat = bump z.ldrStat 5 1 ∧
    (done s (stagedBy z s ring p host rd v)).condSkip = z.condSkip ∧
    ∀ x, (done s (stagedBy z s ring p host rd v)).mem.byte x = (stagedBy z s ring p host rd v).mem.byte x := by
  obtain ⟨tl, m, g, n, img, shape, wf, record⟩ := stageImage_shape z rd host (p.b 16 8) (p.b 24 4) p.ctx (p.b 8 1) v
    (some (ringNo ring, p.seq))
  rw [stagedBy, shape, done_images _ _ runs, done_ldrStat _ _ runs, done_condSkip _ _ runs]
  exact ⟨⟨img, rfl, record⟩, rfl, rfl, fun x => byte_done runs (by exact wf canonical) x⟩

theorem stagedBy_mem (z : State) :
    (stagedBy z s ring p host rd v).mem = ((imgTiles rd).foldl (stageTile rd) (z, [], [])).1.mem :=
  stageImage_mem z rd host (p.b 16 8) (p.b 24 4) p.ctx (p.b 8 1) v (some (ringNo ring, p.seq))

theorem imageStage_passes (h : Stages s ring p k host rd) (check : imgCheck s rd (p.b 24 4) p.ctx (p.b 8 1) k sigOk changed = .ok v) :
    ∃ z, ReadBy s (ringNo ring) z ∧ exec (.imageStage ring sigOk changed) s = .next (done s (stagedBy z s ring p host rd v)) ∧
      Ends s (done s (stagedBy z s ring p host rd v)) ring p [.mem, .tiles, .gauges, .free, .images, .loader] stOk
        (b2n v + b2n s.sec.error * 2) 0 0 := by
  obtain ⟨z, read, reads⟩ := commandReads (ring := ring) h.takes.unheld h.opens
  have frame := only_trans (only_mono (l' := [.snoops, .mem, .tiles, .gauges, .free, .images, .loader]) (by simp) (only_readBy read))
    (only_mono (by simp) (only_stageImage z rd host (p.b 16 8) (p.b 24 4) p.ctx (p.b 8 1) v (some (ringNo ring, p.seq))))
  have heads : (stageImage z rd host (p.b 16 8) (p.b 24 4) p.ctx (p.b 8 1) v (some (ringNo ring, p.seq))).rings = z.rings :=
    (only_stageImage ..).2.2 .rings (by simp)
  have completes : ∃ t, exec (.imageStage ring sigOk changed) s = .next t ∧ t = done s (stagedBy z s ring p host rd v) ∧ Ends s t ring p
      [.mem, .tiles, .gauges, .free, .images, .loader] stOk (b2n v + b2n s.sec.error * 2) 0 0 := by
    refine ring_completes (congrArg (fun x => Host.Outcome.next (done s x)) (ringCmdOf_sound h.takes.sound.1 _ _ _ _ _))
      (stageImage z rd host (p.b 16 8) (p.b 24 4) p.ctx (p.b 8 1) v (some (ringNo ring, p.seq))) stOk (b2n v + b2n s.sec.error * 2) 0 0
      [.mem, .tiles, .gauges, .free, .images, .loader] h.takes (by simp) ?_ ?_ (fun i hi => frame.2.2 i (by simp_all))
      fun ends => ⟨rfl, ends⟩
    · rw [checked_takes h.takes]
      simp only [polderOfCtx_advance, h.polder, ctxLive_advance _ _ _ h.live, h.source, anyRead_advance, h.reading, imgCheck_advance,
        check, reads, advance_sec, Bool.not_true, Bool.false_eq_true, if_false]
    · obtain ⟨x, y, rfl⟩ := read
      exact heads
  obtain ⟨t, runs, rfl, ends⟩ := completes
  exact ⟨z, read, runs, ends⟩

/-- The slots that a second reading filled are zeroed, where there was one. -/
def rezeroed (again : Bool) (z : State) (l : List Nat) : State := if again = true then zeroSlots z l else z

/-- The state in which the image has been refused, with the reply that waits. -/
def refusedBy (z : State) (ring : Ring) (p : Pkt) (f : ImgFail) : State :=
  answer (refuseImage z p.ctx f) (ringNo ring) p f.status f.item f.event 0

theorem imageStage_fails (h : Stages s ring p k host rd) {f : ImgFail} {again : Bool} {l : List Kind}
    (check : imgCheck s rd (p.b 24 4) p.ctx (p.b 8 1) k sigOk changed = .error f)
    (second : (changed && (imgCheck s rd (p.b 24 4) p.ctx (p.b 8 1) k sigOk false).toOption.isSome) = again)
    (slots : ∀ z : State, z.mem.wf = true → Only l z (rezeroed again z (imgTiles rd))) (within : l ⊆ [.mem, .tiles]) :
    ∃ z, ReadBy s (ringNo ring) z ∧
      exec (.imageStage ring sigOk changed) s = .next (done s (refusedBy (rezeroed again z (imgTiles rd)) ring p f)) ∧
      Ends s (done s (refusedBy (rezeroed again z (imgTiles rd)) ring p f)) ring p (l ++ [.loader, .log, .vectors])
        f.status f.item f.event 0 := by
  obtain ⟨z, read, reads⟩ := commandReads (ring := ring) h.takes.unheld h.opens
  have canonical : z.mem.wf = true := by
    obtain ⟨x, y, rfl⟩ := read
    exact h.takes.canonical
  have work := slots z canonical
  have refused := only_refuseImage (rezeroed again z (imgTiles rd)) p.ctx f
  have frame := only_trans (only_mono (l' := .snoops :: (l ++ [.loader, .log, .vectors])) (by simp) (only_readBy read))
    (only_trans (only_mono (fun _ => by simp_all) work) (only_mono (by simp) refused))
  have heads : (refuseImage (rezeroed again z (imgTiles rd)) p.ctx f).rings = z.rings :=
    (refused.2.2 .rings (by simp)).trans (work.2.2 .rings fun hr => absurd (within hr) (by simp))
  have completes : ∃ t, exec (.imageStage ring sigOk changed) s = .next t ∧
      t = done s (refusedBy (rezeroed again z (imgTiles rd)) ring p f) ∧
      Ends s t ring p (l ++ [.loader, .log, .vectors]) f.status f.item f.event 0 := by
    refine ring_completes (congrArg (fun x => Host.Outcome.next (done s x)) (ringCmdOf_sound h.takes.sound.1 _ _ _ _ _))
      (refuseImage (rezeroed again z (imgTiles rd)) p.ctx f) f.status f.item f.event 0 (l ++ [.loader, .log, .vectors]) h.takes (by simp)
      ?_ ?_ (fun i hi => frame.2.2 i (by simp_all)) fun ends => ⟨rfl, ends⟩
    · rw [checked_takes h.takes]
      simp only [polderOfCtx_advance, h.polder, ctxLive_advance _ _ _ h.live, h.source, anyRead_advance, h.reading, imgCheck_advance,
        check, reads, second]
      rfl
    · obtain ⟨x, y, rfl⟩ := read
      exact heads
  obtain ⟨t, runs, rfl, ends⟩ := completes
  exact ⟨z, read, runs, ends⟩

theorem refusedBy_leaves {z : State} (runs : s.stopped = false) (f : ImgFail) :
    (done s (refusedBy z ring p f)).ldrStat = bump z.ldrStat 6 1 ∧ (done s (refusedBy z ring p f)).condSkip = z.condSkip ∧
      (done s (refusedBy z ring p f)).tiles = z.tiles ∧ (done s (refusedBy z ring p f)).displaced = z.displaced ∧
      (z.mem.wf = true → ∀ x, (done s (refusedBy z ring p f)).mem.byte x = z.mem.byte x) := by
  obtain ⟨g, a, b, e⟩ := refuseImage_shape z p.ctx f
  rw [refusedBy, e, done_ldrStat _ _ runs, done_condSkip _ _ runs, done_tiles _ _ runs, done_displaced _ _ runs]
  exact ⟨rfl, rfl, rfl, rfl, fun hw x => byte_done runs (by exact hw) x⟩

theorem imageStage_keeps (h : Stages s ring p k host rd) (check : imgCheck s rd (p.b 24 4) p.ctx (p.b 8 1) k sigOk changed = .ok v) :
    ∃ t, exec (.imageStage ring sigOk changed) s = .next t ∧
      Ends s t ring p [.mem, .tiles, .gauges, .free, .images, .loader] stOk (b2n v + b2n s.sec.error * 2) 0 0 ∧
      (∃ img, t.images = s.images ++ [img] ∧ img.ctx = p.ctx ∧ img.handle = p.b 8 1 ∧ img.host = host ∧
        img.addr = p.b 16 8 ∧ img.len = p.b 24 4 ∧ img.digest = rd 64 32 ∧ img.tiles = imgTiles rd ∧ img.sigChecked = v ∧
        img.awaits = some (ringNo ring, p.seq)) ∧
      t.ldrStat = bump s.ldrStat 5 1 ∧ t.condSkip = s.condSkip ∧
      ((∀ a b, s.phys a = s.phys b → a = b) → ∀ n j, n ∈ imgTiles rd → freeSlot (s.ltile n) = some j →
        ∀ q i, q < 4 → frameAt (imgFrames rd) n q = some i →
          t.mem.read (slotPlace (s.phys n) j q) 4096 = rd (ihFdOff rd + 4096 * i) 4096) ∧
      ∀ x, (∀ n ∈ imgTiles rd, x < tileBase (s.phys n) + 0xFC0000 ∨ tileBase (s.phys n) + 0x1000000 ≤ x) →
        t.mem.byte x = s.mem.byte x := by
  obtain ⟨z, read, runs, ends⟩ := imageStage_passes h check
  have long := reading_long h
  have places (n : Nat) : z.phys n = s.phys n := by obtain ⟨x, y, rfl⟩ := read; rfl
  have tiles (n : Nat) : z.ltile n = s.ltile n := by obtain ⟨x, y, rfl⟩ := read; rfl
  have bytes : z.mem = s.mem := by obtain ⟨x, y, rfl⟩ := read; rfl
  have canonical : z.mem.wf = true := bytes ▸ h.takes.canonical
  obtain ⟨⟨img, images, record⟩, counts, skips, stored⟩ := stagedBy_leaves (ring := ring) (p := p) (host := host) (rd := rd) (v := v)
    h.takes.runs canonical
  rw [stagedBy_mem] at stored
  refine ⟨_, runs, ends, ⟨img, ?_, record⟩, ?_, ?_, fun apart n j hn free q i hq at_ => ?_, fun x hx => ?_⟩
  · rw [images]; obtain ⟨x, y, rfl⟩ := read; rfl
  · rw [counts]; obtain ⟨x, y, rfl⟩ := read; rfl
  · rw [skips]; obtain ⟨x, y, rfl⟩ := read; rfl
  · rw [read_of_bytes fun x _ _ => stored x, ← places n]
    exact stageTiles_frames long (x := (z, [], [])) (imgTiles_nodup rd) (fun a b => by rw [places, places]; exact apart a b) canonical
      n j hn ((congrArg freeSlot (tiles n)).trans free) q i hq at_
  · rw [stored, stageTiles_frame rd long _ (z, [], []) x canonical (fun n hn => by rw [places]; exact hx n hn), bytes]

theorem imageStage_refuses (h : Stages s ring p k host rd) {f : ImgFail}
    (check : imgCheck s rd (p.b 24 4) p.ctx (p.b 8 1) k sigOk false = .error f) :
    ∃ t, exec (.imageStage ring sigOk changed) s = .next t ∧ Ends s t ring p [.loader, .log, .vectors] f.status f.item f.event 0 ∧
      t.ldrStat = bump s.ldrStat 6 1 ∧ t.condSkip = s.condSkip := by
  obtain ⟨z, ⟨a, b, rfl⟩, runs, ends⟩ := imageStage_fails (changed := changed) (again := false) (l := []) h
    (by rw [imgCheck_changed, check]; rfl) (by rw [check]; simp [Except.toOption]) (fun z _ => only_refl [] z) (by simp)
  obtain ⟨counts, skips, -⟩ := refusedBy_leaves (ring := ring) (p := p) (z := rezeroed false _ (imgTiles rd)) h.takes.runs f
  exact ⟨_, runs, ends, counts, skips⟩

theorem imageStage_rereads (h : Stages s ring p k host rd) (check : imgCheck s rd (p.b 24 4) p.ctx (p.b 8 1) k sigOk false = .ok v) :
    ∃ t, exec (.imageStage ring sigOk true) s = .next t ∧
      Ends s t ring p [.mem, .tiles, .loader, .log, .vectors] stImageSignature 0 0x1183 0 ∧ t.ldrStat = bump s.ldrStat 6 1 ∧
      (∀ n j, n ∈ imgTiles rd → freeSlot (s.ltile n) = some j →
        freeSlot (t.ltile n) = some j ∧ ∀ i, i < 16384 → t.mem.byte (slotPlace (s.phys n) j 0 + i) = 0) ∧
      ∀ x, (∀ n ∈ imgTiles rd, x < tileBase (s.phys n) + 0xFC0000 ∨ tileBase (s.phys n) + 0x1000000 ≤ x) →
        t.mem.byte x = s.mem.byte x := by
  obtain ⟨z, ⟨a, b, read⟩, runs, ends⟩ := imageStage_fails (changed := true) (again := true) (l := [.mem, .tiles]) h
    (f := ⟨stImageSignature, 0x1183, 0⟩) (by rw [imgCheck_changed, check]; rfl) (by rw [check]; rfl)
    (fun z hw => only_storeWork (zeroSlots_zeroes hw).1.work) (by simp)
  have places (n : Nat) : z.phys n = s.phys n := by rw [read]; rfl
  have tiles (n : Nat) : z.ltile n = s.ltile n := by rw [read]; rfl
  have bytes : z.mem = s.mem := by rw [read]
  obtain ⟨zeroed, clears⟩ := zeroSlots_zeroes (s := z) (l := imgTiles rd) (bytes ▸ h.takes.canonical)
  obtain ⟨counts, -, kept, moved, stored⟩ := refusedBy_leaves (ring := ring) (p := p) (z := zeroSlots z (imgTiles rd)) h.takes.runs
    ⟨stImageSignature, 0x1183, 0⟩
  have stored := stored zeroed.work.canonical
  refine ⟨_, runs, ends, ?_, fun n j hn free => ⟨?_, fun i hi => ?_⟩, fun x hx => ?_⟩
  · refine counts.trans ?_
    obtain ⟨m, tl, e⟩ := zeroed.work.shape
    rw [e, read]
  · have same : (done s (refusedBy (zeroSlots z (imgTiles rd)) ring p ⟨stImageSignature, 0x1183, 0⟩)).ltile n =
        (zeroSlots z (imgTiles rd)).ltile n := by
      simp only [State.ltile, State.tile, State.phys, kept, moved]
    exact (congrArg freeSlot same).trans ((freeSlot_ltile_storeWork zeroed.work n).trans ((congrArg freeSlot (tiles n)).trans free))
  · rw [← places n]
    exact (stored _).trans (clears n j hn ((congrArg freeSlot (tiles n)).trans free) i hi)
  · refine (stored x).trans ?_
    rcases zeroed.bytes x with same | ⟨⟨n, hn, lo, hi⟩, -⟩
    · rw [same, bytes]
    · rw [places] at lo hi
      have := hx n hn
      omega

end

/-! ## IMAGE_DROP -/

section
variable {ring : Ring} {s : State} {p : Pkt} {i : Image} (takes : Takes s ring 0x31 [(8, 1, 0)] p)
include takes

theorem imageDrop_frees (found : s.image? p.ctx (p.b 8 1) = some i) (unused : imageInUse s i = false) :
    ∃ t, exec (.imageDrop ring) s = .next t ∧ Ends s t ring p [.tiles, .images] stOk 0 0 0 ∧
      t.images = s.images.filter (fun x => !(x.ctx == i.ctx && x.handle == i.handle)) ∧ t.image? p.ctx (p.b 8 1) = none := by
  have frame := only_dropImage (advance s (ringNo ring)) i
  have gone := dropImage_gone ((image?_advance s (ringNo ring) p.ctx (p.b 8 1)).trans found)
  have left : (dropImage (advance s (ringNo ring)) i).images = s.images.filter (fun x => !(x.ctx == i.ctx && x.handle == i.handle)) := by
    obtain ⟨tl, e⟩ := dropImage_shape (advance s (ringNo ring)) i
    rw [e, advance_images]
  refine ring_completes rfl (dropImage (advance s (ringNo ring)) i) stOk 0 0 0 [.tiles, .images] takes (by simp) ?_
    (frame.2.2 .rings (by simp)) (fun k hk => frame.2.2 k (by simp_all)) fun ends => ⟨ends, ?_, ?_⟩
  · rw [checked_takes takes]
    simp only [image?_advance, found, imageInUse_advance, unused]
    rfl
  · rw [done_images _ _ takes.runs]
    exact left
  · unfold State.image? at gone ⊢
    rw [done_images _ _ takes.runs]
    exact gone

theorem imageDrop_busy (found : s.image? p.ctx (p.b 8 1) = some i) (used : imageInUse s i = true) :
    ∃ t, exec (.imageDrop ring) s = .next t ∧ Ends s t ring p [] stBusy 0 0 0 := by
  refine ring_replies rfl takes (by simp) ?_
  rw [checked_takes takes]
  simp only [image?_advance, found, imageInUse_advance, used]
  rfl

theorem imageDrop_free (free : s.image? p.ctx (p.b 8 1) = none) :
    ∃ t, exec (.imageDrop ring) s = .next t ∧ Ends s t ring p [] stBadParam 0 0 0 := by
  refine ring_replies rfl takes (by simp) ?_
  rw [checked_takes takes]
  simp only [image?_advance, free]
  rfl

end

/-- Settles O7: an image that passes is staged in the state that has read it, one that fails is refused there, and a drop filters the
images by context and handle. -/
theorem imageStageAndDrop : Obligations.ImageStageAndDrop := by
  unfold Obligations.ImageStageAndDrop
  refine ⟨⟨fun ring sigOk changed v k s p takes => ?_, fun ring sigOk changed k f s p takes => ?_,
      fun ring sigOk v k s p takes => ?_⟩,
    fun ring s p i takes => ?_, fun ring s p i takes => ?_, fun ring s p takes => ?_⟩
  · intro host rd polder live opens check
    exact imageStage_keeps ⟨takes, rfl, rfl, polder, live, opens⟩ check
  · intro host rd polder live opens check
    exact imageStage_refuses ⟨takes, rfl, rfl, polder, live, opens⟩ check
  · intro host rd polder live opens check
    exact imageStage_rereads ⟨takes, rfl, rfl, polder, live, opens⟩ check
  · exact imageDrop_frees takes
  · exact imageDrop_busy takes
  · exact imageDrop_free takes

end Sys2Proof.SectionProofs
end

section
/-! SUPPORT. What the page engine's writes change beside memory, and what its commands read of a state (R279-R284). -/

namespace Sys2Proof.MemoryProofs

open Sys2Proof.Machine Sys2Proof.Safety Sys2Proof.Laws Sys2Proof.StoreProofs Sys2Proof.GaugeProofs

/-! ## The frame of the page engine's writes -/

/-- An event that sends no vector is noted in the log alone. -/
theorem only_log {code : Nat} (quiet : eventVector code = none) (s : State) (kind index : Nat) (ctx : Option Nat) (d : List Byte) :
    Only [.log] s (s.event code kind index ctx d) := by
  obtain ⟨g, e⟩ := event_log quiet s kind index ctx d
  rw [e]
  refine ⟨rfl, rfl, fun k hk => ?_⟩
  cases k <;> simp [Kind.same] at hk ⊢

/-- The kinds of state that a write of the page engine touches: its events send no vector. -/
abbrev writeKinds : List Kind := [.mem, .tiles, .loader, .log]

theorem writeKinds_tableKinds : ∀ k ∈ writeKinds, k ∈ tableKinds := by decide

/-- State x is s after writes of the page engine: only the kinds that they touch differ, and memory keeps its canonical form. -/
structure Tabled (s x : State) : Prop where
  only : Only writeKinds s x
  wf : s.mem.wf = true → x.mem.wf = true

theorem tabled_refl (s : State) : Tabled s s := ⟨only_refl _ s, id⟩

theorem tabled_trans {a b c : State} (h : Tabled a b) (g : Tabled b c) : Tabled a c := ⟨only_trans h.only g.only, g.wf ∘ h.wf⟩

theorem tabled_foldl {α : Type} {f : State → α → State} (hf : ∀ s a, Tabled s (f s a)) (l : List α) (s : State) :
    Tabled s (l.foldl f s) :=
  foldl_shape (P := Tabled) tabled_refl (fun _ _ _ => tabled_trans) f hf l s

theorem tabled_mem {s : State} {m : Memory} (wf : s.mem.wf = true → m.wf = true) : Tabled s { s with mem := m } := by
  refine ⟨⟨rfl, rfl, fun k hk => ?_⟩, wf⟩
  cases k <;> simp [Kind.same] at hk ⊢

theorem tabled_log {code : Nat} (quiet : eventVector code = none) (s : State) (kind index : Nat) (ctx : Option Nat) (d : List Byte) :
    Tabled s (s.event code kind index ctx d) := by
  refine ⟨only_mono (by simp) (only_log quiet s kind index ctx d), fun h => ?_⟩
  have mem : (s.event code kind index ctx d).mem = s.mem := same_of_only (only_log quiet s kind index ctx d) (k := .mem) (by simp)
  rw [mem]; exact h

theorem tabled_inputDiscard (s : State) (src : Nat × Nat) : Tabled s (inputDiscard s src) := by
  refine tabled_trans (b := s.bumpLdr 7 1) ⟨⟨rfl, rfl, fun k hk => ?_⟩, id⟩ (tabled_log (by decide) _ _ _ _ _)
  cases k <;> simp [Kind.same, State.bumpLdr] at hk ⊢

theorem tabled_devWrite (s : State) (a : Nat) (bs : List Byte) (bad : Nat → Bool) : Tabled s (s.devWrite a bs bad) := by
  obtain ⟨m, tl, e, wf⟩ := devWrite_shape s a bs bad
  rw [e]
  refine ⟨⟨rfl, rfl, fun k hk => ?_⟩, wf⟩
  cases k <;> simp [Kind.same] at hk ⊢

theorem tabled_engineWrite (s : State) (a : Nat) (bs : List Byte) : Tabled s (engineWrite s a bs) := by
  unfold engineWrite
  split
  · exact tabled_inputDiscard _ _
  · exact tabled_devWrite _ _ _ _

theorem tabled_wrEntry (s : State) (t : PageTable) (e v : Nat) : Tabled s (wrEntry s t e v) := tabled_engineWrite _ _ _

theorem tabled_wrRecord (s : State) (t : PageTable) (r v : Nat) : Tabled s (wrRecord s t r v) := tabled_engineWrite _ _ _

theorem tabled_setList (s : State) (t : PageTable) (tier head count : Nat) : Tabled s (setList s t tier head count) :=
  tabled_engineWrite _ _ _

theorem tabled_popFree {s s1 : State} {t : PageTable} {tier : Nat} {x : Nat × Nat} (h : popFree s t tier = some (x, s1)) :
    Tabled s s1 := by
  unfold popFree at h
  dsimp only at h
  split at h
  · cases h
  · cases h; exact tabled_setList _ _ _ _ _

theorem tabled_pushFree (s : State) (t : PageTable) (tier r page : Nat) : Tabled s (pushFree s t tier r page) := by
  unfold pushFree
  dsimp only
  split
  · exact tabled_refl s
  · exact tabled_trans (tabled_engineWrite _ _ _) (tabled_setList _ _ _ _ _)

/-- A page-table entry read with poison is noted in the log. -/
theorem only_notePoison (s : State) (t : PageTable) (es : List Nat) : Only [.log] s (notePoisonEntries s t es) := by
  unfold notePoisonEntries
  split
  · exact only_log (by decide) _ _ _ _ _
  · exact only_refl _ s

theorem tabled_notePoison (s : State) (t : PageTable) (es : List Nat) : Tabled s (notePoisonEntries s t es) := by
  unfold notePoisonEntries
  split
  · exact tabled_log (by decide) _ _ _ _ _
  · exact tabled_refl s

/-- What the page engine changes where it also sets pages free. -/
theorem only_paged {s x : State} (h : Paged s x) : Only pagedKinds s x := by
  obtain ⟨m, tl, g, ld, a, b, fr, rfl, -⟩ := h
  refine ⟨rfl, rfl, fun k hk => ?_⟩
  cases k <;> simp [Kind.same] at hk ⊢

theorem paged_wf {s x : State} (h : Paged s x) (wf : s.mem.wf = true) : x.mem.wf = true := by
  obtain ⟨m, tl, g, ld, a, b, fr, rfl, keeps⟩ := h
  exact keeps wf

/-! ## Zeros -/

theorem clear_wf (m : Memory) (lo n : Nat) (h : m.wf = true) : (m.clear lo n).wf = true := by
  simp only [Memory.wf, Memory.clear, Bool.and_eq_true, decide_eq_true_eq, List.all_eq_true] at h ⊢
  obtain ⟨⟨sorted, nonzero⟩, rising⟩ := h
  exact ⟨⟨filter_sorted _ _ sorted, fun c hc => nonzero c (List.mem_of_mem_filter hc)⟩, decide_eq_true (rising.filter _)⟩

theorem tabled_clear (s : State) (p n : Nat) : Tabled s { s with mem := s.mem.clear p n } := tabled_mem (clear_wf _ _ _)

/-- Zeros written to one piece of a block that meets a declared input. -/
def clearPiece (x y : State) (g : Nat × Nat) : State :=
  match inputHit x g.1 g.2, y.place g.1 with
  | false, some p => { y with mem := y.mem.clear p g.2 }
  | _, _ => y

/-- Zeros written to one block of a range. -/
def clearBlock (x : State) (e : Nat × Nat) : State :=
  if inputHit x e.1 e.2 then inputDiscard ((pieces e.1 e.2).foldl (clearPiece x) x) engineSrc
  else
    match x.place e.1 with
    | some p => { x with mem := x.mem.clear p e.2 }
    | none => x

theorem devZero_eq (s : State) (a n : Nat) : s.devZero a n = (blocks a n).foldl clearBlock s := rfl

theorem tabled_clearPiece (x y : State) (g : Nat × Nat) : Tabled y (clearPiece x y g) := by
  unfold clearPiece
  split
  · exact tabled_clear _ _ _
  · exact tabled_refl y

theorem tabled_devZero (s : State) (a n : Nat) : Tabled s (s.devZero a n) := by
  rw [devZero_eq]
  refine tabled_foldl (fun x e => ?_) _ _
  unfold clearBlock
  split
  · exact tabled_trans (tabled_foldl (tabled_clearPiece x) _ _) (tabled_inputDiscard _ _)
  · split
    · exact tabled_clear _ _ _
    · exact tabled_refl x

theorem aside_place {s z : State} (h : Aside s z) (a : Nat) : z.place a = s.place a := by obtain ⟨g, h, tb, rfl⟩ := h; rfl

theorem aside_clear {s z : State} (h : Aside s z) (p n : Nat) :
    Aside { s with mem := s.mem.clear p n } { z with mem := z.mem.clear p n } := by
  obtain ⟨g, h, tb, rfl⟩ := h
  exact ⟨g, h, tb, rfl⟩

theorem aside_clearPiece {x w : State} (inputs : ∀ a n, inputHit w a n = inputHit x a n) (s z : State) (g : Nat × Nat) (h : Aside s z) :
    Aside (clearPiece x s g) (clearPiece w z g) := by
  unfold clearPiece
  rw [inputs, aside_place h]
  split
  · exact aside_clear h _ _
  · exact h

theorem aside_foldl_pair {α : Type} {f k : State → α → State} (hf : ∀ s z a, Aside s z → Aside (f s a) (k z a)) (l : List α)
    {s z : State} (h : Aside s z) : Aside (l.foldl f s) (l.foldl k z) := by
  induction l generalizing s z with
  | nil => exact h
  | cons a l ih => exact ih (hf _ _ _ h)

theorem aside_devZero {s z : State} (h : Aside s z) (a n : Nat) : Aside (s.devZero a n) (z.devZero a n) := by
  rw [devZero_eq, devZero_eq]
  refine aside_foldl _ (fun s z e h => ?_) _ _ _ h
  unfold clearBlock
  rw [aside_inputHit h, aside_place h]
  split
  · exact aside_inputDiscard (aside_foldl_pair (aside_clearPiece (aside_inputHit h)) _ h) _
  · split
    · exact aside_clear h _ _
    · exact h

/-! ## Entries and records, where the log differs -/

/-- What entries and records read does not depend on the log and the vectors. -/
theorem notePoison_reads (s : State) (t : PageTable) (es : List Nat) :
    (∀ e, entryOf (notePoisonEntries s t es) t e = entryOf s t e) ∧ ∀ r, rdRecord (notePoisonEntries s t es) t r = rdRecord s t r := by
  unfold notePoisonEntries
  split
  · obtain ⟨g, a, b, e⟩ := event_shape s 0x3174 14 2 (some t.ctx) []
    rw [e]
    exact ⟨fun _ => rfl, fun _ => rfl⟩
  · exact ⟨fun _ => rfl, fun _ => rfl⟩

/-! ## How the commands of a table end -/

theorem tableBusy_advance (s : State) (r k : Nat) : tableBusy (advance s r) k = tableBusy s k := by simp [tableBusy]

theorem table?_advance (s : State) (r k : Nat) : (advance s r).table? k = s.table? k := by simp [State.table?]

theorem inTurn_later {s : State} {r k : Nat} {p : Pkt} (h : tableBusy s k = true) (body : State → State) :
    inTurn s r p k body = queueJob s r p k := by
  rw [inTurn, h, if_pos rfl]

theorem only_touchDev (s : State) (a n : Nat) : Only [.snoops] s (touchDev s a n) := by
  obtain ⟨x, y, e⟩ := touchDev_shape s a n
  rw [e]
  refine ⟨rfl, rfl, fun k hk => ?_⟩
  cases k <;> simp [Kind.same] at hk ⊢

/-- A packet taken and a range read: beside the ring's head only the snoop bookkeeping differs. -/
theorem aside_touched (s : State) (r a n : Nat) : Aside s (touchDev (advance s r) a n) := by
  obtain ⟨g, x, y, e⟩ := advance_shape s r
  obtain ⟨x', y', e'⟩ := touchDev_shape (advance s r) a n
  exact ⟨g, _, s.ms.tables, by rw [e', e]⟩

theorem aside_polder {s z : State} (h : Aside s z) (c : Nat) : z.polderOfCtx c = s.polderOfCtx c := by
  obtain ⟨g, h, tb, rfl⟩ := h; rfl

theorem aside_holds {s z : State} (h : Aside s z) (q a n : Nat) : z.polderHolds q a n = s.polderHolds q a n := by
  obtain ⟨g, h, tb, rfl⟩ := h; rfl

theorem aside_populated {s z : State} (h : Aside s z) (a n : Nat) : z.populated a n = s.populated a n := by
  obtain ⟨g, h, tb, rfl⟩ := h; rfl

theorem aside_donated {s z : State} (h : Aside s z) (p : Pkt) : donated z p = donated s p := by obtain ⟨g, h, tb, rfl⟩ := h; rfl

/-- A ring command that ends with a reply, where its own effect changes the kinds l' and keeps memory canonical: what it leaves of
memory and of the memory system stands. -/
theorem ring_completes_with {s : State} {ring : Ring} {op : Nat} {fs : Fields} {p : Pkt} {form : Option Nat}
    {body : State → Nat → Pkt → State} {o : Host.Outcome State Fault Refusal} (ho : o = .next (done s (ringCmd s ring op form body)))
    {y : State} {st a b : Nat} {l' : List Kind} (l : List Kind) (takes : Takes s ring op fs p) (hf : ∀ f, form = some f → p.b 8 1 = f)
    (hb : body (advance s (ringNo ring)) (ringNo ring) p = answer y (ringNo ring) p st a b 0)
    (only : Only l' (advance s (ringNo ring)) y) (rings : Kind.rings ∉ l') (sub : ∀ k ∈ l', k ∈ Kind.snoops :: l)
    (wf : y.mem.wf = true) : ∃ t, o = .next t ∧ Ends s t ring p l st a b 0 ∧ t.mem = y.mem ∧ t.ms = y.ms := by
  refine ring_completes ho y st a b 0 l takes hf hb (same_of_only only rings) (fun k hk => ?_) (fun ends => ⟨ends, ?_, ?_⟩)
  · exact same_of_only only (fun h => hk (List.mem_cons_of_mem _ (sub k h)))
  · rw [done_mem _ _ takes.runs]; exact canon_eq _ wf
  · exact done_ms _ _ takes.runs

/-- The same for an accepted command. -/
theorem ring_accepts_with {s : State} {ring : Ring} {op : Nat} {fs : Fields} {p : Pkt} {form : Option Nat}
    {body : State → Nat → Pkt → State} {o : Host.Outcome State Fault Refusal} (ho : o = .next (done s (ringCmd s ring op form body)))
    {y : State} {aux : List Nat} {l : List Kind} (takes : Takes s ring op fs p) (hf : ∀ f, form = some f → p.b 8 1 = f)
    (hb : body (advance s (ringNo ring)) (ringNo ring) p = y)
    (rings : y.rings = (accept (advance s (ringNo ring)) (ringNo ring) p aux).rings)
    (same : ∀ k, k ∉ Kind.rings :: l → k.same (advance s (ringNo ring)) y) (wf : y.mem.wf = true) :
    ∃ t, o = .next t ∧ Begins s t ring p l aux ∧ t.mem = y.mem ∧ t.ms = y.ms := by
  refine ring_accepts ho y aux l takes hf hb rings (fun k hk => same k ?_) (fun begun => ⟨begun, ?_, ?_⟩)
  · simp only [List.mem_cons, not_or] at hk ⊢
    exact ⟨hk.1, hk.2.2⟩
  · rw [done_mem _ _ takes.runs]; exact canon_eq _ wf
  · exact done_ms _ _ takes.runs

theorem ends_mono {s t : State} {ring : Ring} {p : Pkt} {l l' : List Kind} {st a b c : Nat} (sub : ∀ k ∈ l, k ∈ l')
    (h : Ends s t ring p l st a b c) : Ends s t ring p l' st a b c := by
  obtain ⟨answered, others, only⟩ := h
  refine ⟨answered, others, only_mono (fun k hk => ?_) only⟩
  simp only [List.mem_cons] at hk ⊢
  exact hk.imp_right (Or.imp_right (sub k))

theorem advance_wf {s : State} (h : s.mem.wf = true) (r : Nat) : (advance s r).mem.wf = true := by
  rw [aside_mem (aside_advance s r)]; exact h

/-- The frame of a command on entries of a table of the packet's own context: its body runs in the table's turn. -/
theorem onEntries_runs {s : State} {ring : Ring} {op : Nat} {fs : Fields} {p : Pkt} {t : PageTable} (form : Option Nat)
    (f : State → Nat → Pkt → Nat → PageTable → State) (takes : Takes s ring op fs p) (table : s.table? (p.b 10 2) = some t)
    (own : t.ctx = p.ctx) (inside : p.b 16 4 + p.b 20 4 ≤ t.entries) :
    ∃ body, onEntries s ring op form fs f = ringCmd s ring op form body ∧
      body (advance s (ringNo ring)) (ringNo ring) p = inTurn (advance s (ringNo ring)) (ringNo ring) p (p.b 10 2)
        (fun x => f x (ringNo ring) p (p.b 10 2) t) := by
  refine ⟨_, ringCmdOf_sound takes.sound.1 _ _ _ _ _, ?_⟩
  rw [checked_takes takes, withTable_own _ table own, entriesIn, decide_eq_true inside, if_pos rfl]

/-- The same where the engine is free: the body runs at once. -/
theorem onEntries_now {s : State} {ring : Ring} {op : Nat} {fs : Fields} {p : Pkt} {t : PageTable} (form : Option Nat)
    (f : State → Nat → Pkt → Nat → PageTable → State) (takes : Takes s ring op fs p) (table : s.table? (p.b 10 2) = some t)
    (own : t.ctx = p.ctx) (inside : p.b 16 4 + p.b 20 4 ≤ t.entries) (free : tableBusy s (p.b 10 2) = false) :
    ∃ body, onEntries s ring op form fs f = ringCmd s ring op form body ∧
      body (advance s (ringNo ring)) (ringNo ring) p = f (advance s (ringNo ring)) (ringNo ring) p (p.b 10 2) t := by
  obtain ⟨body, e, runs⟩ := onEntries_runs form f takes table own inside
  exact ⟨body, e, runs.trans (inTurn_now ((tableBusy_advance _ _ _).trans free) _)⟩

theorem only_queueJob (s : State) (r : Nat) (p : Pkt) (k : Nat) : Only [.rings, .pageWork] s (queueJob s r p k) := by
  refine ⟨rfl, rfl, fun k hk => ?_⟩
  cases k <;> simp [Kind.same, queueJob] at hk ⊢

/-- A command of a table whose engine is at work waits for its turn. -/
theorem queueJob_waits {s : State} {ring : Ring} {op : Nat} {fs : Fields} {p : Pkt} {form : Option Nat}
    {body : State → Nat → Pkt → State} {o : Host.Outcome State Fault Refusal} (ho : o = .next (done s (ringCmd s ring op form body)))
    (k : Nat) (takes : Takes s ring op fs p) (hf : ∀ f, form = some f → p.b 8 1 = f)
    (hb : body (advance s (ringNo ring)) (ringNo ring) p = queueJob (advance s (ringNo ring)) (ringNo ring) p k) :
    ∃ t, o = .next t ∧ WaitsTurn s t ring p k := by
  have wf : (queueJob (advance s (ringNo ring)) (ringNo ring) p k).mem.wf = true := advance_wf takes.canonical (ringNo ring)
  obtain ⟨t, e, begun, -, ms⟩ := ring_accepts_with (aux := [k]) (l := [.pageWork]) ho takes hf hb rfl
    (fun k' hk => same_of_only (only_queueJob _ _ _ _) hk) wf
  refine ⟨t, e, begun, ?_, ?_, ?_⟩
  all_goals rw [ms]; simp [queueJob]

end Sys2Proof.MemoryProofs
end

section
/-! PROOFS. PAGE_MAP (R279, R281). -/

namespace Sys2Proof.MemoryProofs

open Sys2Proof.Machine Sys2Proof.Safety Sys2Proof.Laws Sys2Proof.StoreProofs Sys2Proof.GaugeProofs

/-! ## Form 0 -/

/-- A table's descriptor is put down. -/
def tablePut (s : State) (k : Nat) (t : PageTable) : State := { s with ms := { s.ms with tables := aput s.ms.tables k t } }

/-- What form 0 with init writes. -/
def tableZeroed (s : State) (t : PageTable) : State :=
  setList (setList ((s.devZero (t.entryAt 0) (8 * t.entries)).devZero (t.recordAt 0) (8 * t.records)) t 0 0 0) t 1 0 0

theorem only_tablePut (s : State) (k : Nat) (t : PageTable) : Only [.pageTables] s (tablePut s k t) := by
  refine ⟨rfl, rfl, fun k hk => ?_⟩
  cases k <;> simp [Kind.same, tablePut] at hk ⊢

theorem tabled_tableZeroed (s : State) (t : PageTable) : Tabled s (tableZeroed s t) :=
  tabled_trans (tabled_trans (tabled_trans (tabled_devZero _ _ _) (tabled_devZero _ _ _)) (tabled_setList _ _ _ _ _))
    (tabled_setList _ _ _ _ _)

theorem aside_tableZeroed {s z : State} (h : Aside s z) (t : PageTable) : Aside (tableZeroed s t) (tableZeroed z t) :=
  aside_setList (aside_setList (aside_devZero (aside_devZero h _ _) _ _) _ _ _ _) _ _ _ _

theorem aside_tablePut {s z : State} (h : Aside s z) (k : Nat) (t : PageTable) : Aside s (tablePut z k t) := by
  obtain ⟨g, h, tb, rfl⟩ := h
  exact ⟨g, h, _, rfl⟩

section
variable {s : State} {ring : Ring} {p : Pkt} {q : Nat} (takes : Takes s ring 0x58 [(8, 1, 0), (10, 2, 0), (12, 1, 1), (16, 64, 0)] p)
include takes

/-- The descriptor that form 0 names. -/
def pktTable (p : Pkt) : PageTable := ⟨p.ctx, padTo 64 (p.par.drop 8)⟩

/-- Form 0 of a well-formed descriptor puts the table down, and with init writes its areas zero (R279). -/
theorem pageMapDefine_ends (form : p.b 8 1 = 0) (live : s.ctxLive p.ctx = true) (fits : p.b 10 2 < 256) (ok : (pktTable p).ok = true)
    (free : s.table? (p.b 10 2) = none) (polder : s.polderOfCtx p.ctx = some q)
    (owned : ∀ a ∈ (pktTable p).areas, s.polderHolds q a.1 a.2 = true) {y : State} {l' : List Kind} (l : List Kind)
    (puts : y = if (pktTable p).init then tableZeroed (tablePut (advance s (ringNo ring)) (p.b 10 2) (pktTable p)) (pktTable p)
      else tablePut (advance s (ringNo ring)) (p.b 10 2) (pktTable p))
    (only : Only l' (advance s (ringNo ring)) y) (rings : Kind.rings ∉ l') (sub : ∀ k ∈ l', k ∈ Kind.snoops :: l) (wf : y.mem.wf = true) :
    ∃ x, exec (.pageMapDefineTable ring) s = .next x ∧ Ends s x ring p l stOk 0 0 0 ∧ x.mem = y.mem ∧ x.ms = y.ms := by
  refine ring_completes_with rfl l takes (by simp [form]) ?_ only rings sub wf
  have live' := ctxLive_advance s (ringNo ring) p.ctx live
  have free' := (table?_advance s (ringNo ring) (p.b 10 2)).trans free
  have polder' : (advance s (ringNo ring)).polderOfCtx p.ctx = some q := by rw [← polder]; simp [State.polderOfCtx]
  have owned' : (pktTable p).areas.all (fun a => (advance s (ringNo ring)).polderHolds q a.1 a.2) = true := by
    simp only [List.all_eq_true]
    intro a ha
    rw [← owned a ha]; simp [State.polderHolds, polder_advance]
  rw [checked_takes takes, puts]
  refine (if_neg ?_).trans ((if_neg ?_).trans ((if_neg ?_).trans rfl))
  · have ok' : (⟨p.ctx, padTo 64 (p.par.drop 8)⟩ : PageTable).ok = true := ok
    simp [live', ok', fits]
  · simp [free']
  · simp only [polder']
    simpa using fun a b h => by simpa using List.all_eq_true.mp owned' (a, b) h

end

/-! ## Form 1 -/

/-- One entry mapped to the page at the head of a list (R281). -/
def mapEntry (t : PageTable) (tier : Nat) (y : State) (e : Nat) : State :=
  match popFree y t tier with
  | some ((r, page), z) => wrRecord (wrEntry z t e (mkEntry tier page r)) t r 1
  | none => y

theorem tabled_mapEntry (t : PageTable) (tier : Nat) (y : State) (e : Nat) : Tabled y (mapEntry t tier y e) := by
  unfold mapEntry
  split
  case h_1 pop => exact tabled_trans (tabled_popFree pop) (tabled_trans (tabled_wrEntry _ _ _ _) (tabled_wrRecord _ _ _ _))
  case h_2 => exact tabled_refl y

theorem aside_mapEntry (t : PageTable) (tier : Nat) (s z : State) (e : Nat) (h : Aside s z) :
    Aside (mapEntry t tier s e) (mapEntry t tier z e) := by
  unfold mapEntry
  rcases aside_popFree h t tier with ⟨h1, h2⟩ | ⟨x, s1, z1, h1, h2, h3⟩
  · rw [h1, h2]; exact h
  · rw [h1, h2]; exact aside_wrRecord (aside_wrEntry h3 _ _ _) _ _ _

section
variable {s : State} {ring : Ring} {p : Pkt} {t : PageTable}
  (takes : Takes s ring 0x58 [(8, 1, 0), (10, 2, 0), (12, 1, 1), (16, 4, 0), (20, 4, 0)] p)
  (form : p.b 8 1 = 1) (table : s.table? (p.b 10 2) = some t) (own : t.ctx = p.ctx) (inside : p.b 16 4 + p.b 20 4 ≤ t.entries)
include takes form table own inside

theorem pageMap_waits (busy : tableBusy s (p.b 10 2) = true) :
    ∃ x, exec (.pageMapMap ring) s = .next x ∧ WaitsTurn s x ring p (p.b 10 2) := by
  obtain ⟨body, e, runs⟩ := onEntries_runs (some 1) (fun x r p _ t => pageMap x r p t) takes table own inside
  exact queueJob_waits (congrArg (fun y => Host.Outcome.next (done s y)) e) _ takes (by simp [form])
    (runs.trans (inTurn_later ((tableBusy_advance _ _ _).trans busy) _))

/-- Entries that are invalid are mapped in order while the list has pages (R281). -/
theorem pageMap_maps (free : tableBusy s (p.b 10 2) = false)
    (invalid : ∀ e ∈ entryRange (p.b 16 4) (p.b 20 4), peValid (entryOf s t e) = false) (room : p.b 20 4 ≤ listCount s t (p.b 12 1)) :
    ∃ x, exec (.pageMapMap ring) s = .next x ∧ Ends s x ring p tableKinds stOk 0 0 0 ∧
      x.mem = ((entryRange (p.b 16 4) (p.b 20 4)).foldl (mapEntry t (p.b 12 1))
        (notePoisonEntries s t (entryRange (p.b 16 4) (p.b 20 4)))).mem := by
  obtain ⟨body, e, runs⟩ := onEntries_now (some 1) (fun x r p _ t => pageMap x r p t) takes table own inside free
  have aside := aside_advance s (ringNo ring)
  have mapped : Tabled (advance s (ringNo ring)) _ := tabled_trans (tabled_notePoison _ t (entryRange (p.b 16 4) (p.b 20 4)))
    (tabled_foldl (tabled_mapEntry t (p.b 12 1)) (entryRange (p.b 16 4) (p.b 20 4)) _)
  have none : (entryRange (p.b 16 4) (p.b 20 4)).any (fun e => peValid (entryOf (advance s (ringNo ring)) t e)) = false :=
    List.any_eq_false.mpr fun e he => by simp [aside_entryOf aside, invalid e he]
  obtain ⟨x, ex, ends, mem, -⟩ := ring_completes_with (st := stOk) (congrArg (fun y => Host.Outcome.next (done s y)) e) tableKinds takes
    (by simp [form]) (by
      rw [runs]
      simp only [pageMap, none, aside_listCount aside, Nat.not_lt.mpr room, Bool.false_eq_true, if_false]
      rfl)
    mapped.only (by simp) (by decide) (mapped.wf (advance_wf takes.canonical _))
  exact ⟨x, ex, ends, mem.trans (aside_mem (aside_foldl _ (aside_mapEntry t _) _ _ _ (aside_notePoison aside t _)))⟩

/-- A list that is too short maps nothing (R281). -/
theorem pageMap_short (free : tableBusy s (p.b 10 2) = false)
    (invalid : ∀ e ∈ entryRange (p.b 16 4) (p.b 20 4), peValid (entryOf s t e) = false) (short : listCount s t (p.b 12 1) < p.b 20 4) :
    ∃ x, exec (.pageMapMap ring) s = .next x ∧ Ends s x ring p [.log, .vectors] stNoResource 0 0 0 := by
  obtain ⟨body, e, runs⟩ := onEntries_now (some 1) (fun x r p _ t => pageMap x r p t) takes table own inside free
  have aside := aside_advance s (ringNo ring)
  have noted := only_notePoison (advance s (ringNo ring)) t (entryRange (p.b 16 4) (p.b 20 4))
  have none : (entryRange (p.b 16 4) (p.b 20 4)).any (fun e => peValid (entryOf (advance s (ringNo ring)) t e)) = false :=
    List.any_eq_false.mpr fun e he => by simp [aside_entryOf aside, invalid e he]
  obtain ⟨x, ex, ends, -, -⟩ := ring_completes_with (st := stNoResource) (congrArg (fun y => Host.Outcome.next (done s y)) e)
    [.log, .vectors] takes (by simp [form]) (by
      rw [runs]
      simp only [pageMap, none, aside_listCount aside, short, Bool.false_eq_true, if_false, if_true]
      rfl)
    noted (by simp) (by simp) ((tabled_notePoison _ _ _).wf (advance_wf takes.canonical _))
  exact ⟨x, ex, ends⟩

end

/-! ## Form 2 -/

theorem tabled_pushItem (t : PageTable) (tier : Nat) (y : State) (i : Nat) :
    Tabled y (pushFree y t tier (fld i 0 22) (fld i 32 32)) := tabled_pushFree _ _ _ _ _

section
variable {s : State} {ring : Ring} {p : Pkt} {t : PageTable} {q : Nat}
  (takes : Takes s ring 0x58 [(8, 1, 0), (10, 2, 0), (12, 1, 1), (16, 8, 0), (24, 4, 0)] p) (form : p.b 8 1 = 2)
  (table : s.table? (p.b 10 2) = some t) (own : t.ctx = p.ctx) (populated : s.populated (p.b 16 8) (8 * p.b 24 4) = true)
  (reached : mayReach s (ringNo ring) false (p.b 16 8) (8 * p.b 24 4) = true)
  (sound : s.devPoison (p.b 16 8) (8 * p.b 24 4) = false)
include takes table own populated reached sound

/-- Form 2, once its checks are done, is the donation in the table's turn, in the state that has read the array. -/
theorem exec_pageMapDonate : ∃ body, exec (.pageMapDonate ring) s = .next (done s (ringCmd s ring 0x58 (some 2) body)) ∧
    body (advance s (ringNo ring)) (ringNo ring) p = inTurn (advance s (ringNo ring)) (ringNo ring) p (p.b 10 2)
      (fun x => pageDonate (touchDev x p.array.1 p.array.2) (ringNo ring) p t) := by
  refine ⟨_, congrArg (fun y => Host.Outcome.next (done s y)) (ringCmdOf_sound takes.sound.1 _ _ _ _ _), ?_⟩
  have populated' : (advance s (ringNo ring)).populated p.array.1 p.array.2 = true := (aside_populated (aside_advance s _) _ _).trans populated
  have reached' : mayReach (advance s (ringNo ring)) (ringNo ring) false p.array.1 p.array.2 = true :=
    (mayReach_advance _ _ _ _ _ _).trans reached
  have sound' : (advance s (ringNo ring)).devPoison p.array.1 p.array.2 = false := (aside_devPoison (aside_advance s _) _ _).trans sound
  rw [checked_takes takes, withTable_own _ table own]
  simp only [populated', reached', sound', Bool.not_true, Bool.false_eq_true, if_false]

include form

theorem pageDonate_waits (busy : tableBusy s (p.b 10 2) = true) :
    ∃ x, exec (.pageMapDonate ring) s = .next x ∧ WaitsTurn s x ring p (p.b 10 2) := by
  obtain ⟨body, e, runs⟩ := exec_pageMapDonate takes table own populated reached sound
  exact queueJob_waits e _ takes (by simp [form]) (runs.trans (inTurn_later ((tableBusy_advance _ _ _).trans busy) _))

variable (free : tableBusy s (p.b 10 2) = false) (polder : s.polderOfCtx t.ctx = some q)
include free polder

/-- A page outside the polder's shares is refused (R281, R308). -/
theorem pageDonate_denied (outside : ∃ i ∈ donated s p, s.polderHolds q (fld i 32 32 * 65536) 65536 = false) :
    ∃ x, exec (.pageMapDonate ring) s = .next x ∧ Ends s x ring p [] stDenied 0 0 0 := by
  obtain ⟨body, e, runs⟩ := exec_pageMapDonate takes table own populated reached sound
  have aside := aside_touched s (ringNo ring) p.array.1 p.array.2
  have touched := only_touchDev (advance s (ringNo ring)) p.array.1 p.array.2
  have canonical := aside_mem aside ▸ takes.canonical
  generalize reads : touchDev (advance s (ringNo ring)) p.array.1 p.array.2 = z at aside touched canonical
  obtain ⟨x, ex, ends, -, -⟩ := ring_completes_with (st := stDenied) e [] takes (by simp [form]) (by
      rw [runs, inTurn_now ((tableBusy_advance _ _ _).trans free), reads, pageDonate, aside_donated aside]
      refine if_pos (Bool.not_eq_true' _ ▸ ?_)
      obtain ⟨i, hi, out⟩ := outside
      exact List.all_eq_false.mpr ⟨i, hi, by simp only [aside_polder aside, polder, aside_holds aside, out]; simp⟩)
    touched (by simp) (by simp) canonical
  exact ⟨x, ex, ends⟩

/-- Items of the list's tier whose pages lie in the polder join the list while it has room (R281). -/
theorem pageDonate_joins (items : ∀ i ∈ donated s p, fld i 22 10 = 0 ∧ fld i 0 22 < t.records ∧
      (∃ a, segOf (fld i 32 32 * 65536) = some (p.b 12 1, a)) ∧ s.polderHolds q (fld i 32 32 * 65536) 65536 = true)
    (room : listRoom s t (p.b 12 1) (p.b 24 4) = true) :
    ∃ x, exec (.pageMapDonate ring) s = .next x ∧ Ends s x ring p tableKinds stOk 0 0 0 ∧
      x.mem = ((donated s p).foldl (fun y i => pushFree y t (p.b 12 1) (fld i 0 22) (fld i 32 32)) s).mem := by
  obtain ⟨body, e, runs⟩ := exec_pageMapDonate takes table own populated reached sound
  have aside := aside_touched s (ringNo ring) p.array.1 p.array.2
  have touched := only_touchDev (advance s (ringNo ring)) p.array.1 p.array.2
  have canonical := aside_mem aside ▸ takes.canonical
  generalize reads : touchDev (advance s (ringNo ring)) p.array.1 p.array.2 = z at aside touched canonical
  have pushed := tabled_foldl (tabled_pushItem t (p.b 12 1)) (donated s p) z
  have inPolder : (donated s p).all (fun x => s.polderHolds q (fld x 32 32 * 65536) 65536) = true :=
    List.all_eq_true.mpr fun i hi => (items i hi).2.2.2
  have wellFormed : (donated s p).any (fun x => fld x 22 10 != 0 || decide (fld x 0 22 ≥ t.records) ||
      (segOf (fld x 32 32 * 65536)).any (fun k => k.1 != p.b 12 1)) = false := by
    refine List.any_eq_false.mpr fun i hi => ?_
    obtain ⟨reserved, record, ⟨o, seg⟩, -⟩ := items i hi
    simp [reserved, record, seg]
  have room' : listRoom z t (p.b 12 1) (p.b 24 4) = true := by rw [← room, listRoom, listRoom, aside_listCount aside]
  have donates : body (advance s (ringNo ring)) (ringNo ring) p = refuse ((donated s p).foldl
      (fun y i => pushFree y t (p.b 12 1) (fld i 0 22) (fld i 32 32)) z) (ringNo ring) p stOk := by
    rw [runs, inTurn_now ((tableBusy_advance _ _ _).trans free), reads]
    simp only [pageDonate, aside_donated aside, aside_polder aside, polder, aside_holds aside, inPolder, wellFormed, room', Bool.not_true,
      Bool.false_eq_true, if_false]
  have only : Only (.snoops :: writeKinds) (advance s (ringNo ring)) _ :=
    only_trans (only_mono (by simp) touched) (only_mono (by simp) pushed.only)
  obtain ⟨x, ex, ends, mem, -⟩ := ring_completes_with e tableKinds takes (by simp [form]) donates only (by simp) (by decide)
    (pushed.wf canonical)
  have joined := aside_foldl (fun y i => pushFree y t (p.b 12 1) (fld i 0 22) (fld i 32 32)) (fun _ _ _ h => aside_pushFree h _ _ _ _)
    (donated s p) s z aside
  exact ⟨x, ex, ends, mem.trans (aside_mem joined)⟩

end

/-- Settles O12: each form is its body on the state with the head moved past the packet, which reads as the state before it. -/
theorem pageMapForms : Obligations.PageMapForms := by
  unfold Obligations.PageMapForms
  refine ⟨fun ring s p q takes => ?define, fun ring s p t takes => ?map, fun ring s p t q takes => ?donate⟩
  case define =>
    intro k t form live fits ok free polder owned
    have aside := aside_tablePut (aside_advance s (ringNo ring)) k t
    have table {x y : State} (ms : x.ms = y.ms) (put : y.ms.tables = (tablePut (advance s (ringNo ring)) k t).ms.tables) :
        x.table? k = some t ∧ ∀ j, j ≠ k → x.table? j = s.table? j := by
      have tables : x.ms.tables = aput s.ms.tables k t := by rw [ms, put]; simp [tablePut]
      simp only [State.table?, tables]
      exact ⟨aget?_aput_self _ _ _, fun j hj => aget?_aput_other _ _ _ _ hj⟩
    have put := only_tablePut (advance s (ringNo ring)) k t
    cases init : t.init with
    | false =>
      obtain ⟨x, e, ends, -, ms⟩ := pageMapDefine_ends takes form live fits ok free polder owned [.pageTables]
        (if_neg (Bool.eq_false_iff.mp init)).symm put (by simp) (by simp) (advance_wf takes.canonical _)
      obtain ⟨self, others⟩ := table ms rfl
      exact ⟨x, e, self, others, fun _ => ends, fun h => by cases h⟩
    | true =>
      have zeroed := tabled_tableZeroed (tablePut (advance s (ringNo ring)) k t) t
      obtain ⟨x, e, ends, mem, ms⟩ := pageMapDefine_ends takes form live fits ok free polder owned (.pageTables :: tableKinds)
        (if_pos init).symm (only_trans (only_mono (l' := .pageTables :: writeKinds) (by simp) put) (only_mono (by simp) zeroed.only))
        (by simp) (by decide) (zeroed.wf (advance_wf takes.canonical _))
      obtain ⟨self, others⟩ := table ms (same_of_only zeroed.only (k := .pageTables) (by simp))
      exact ⟨x, e, self, others, fun h => (by cases h), fun _ => ⟨ends, mem.trans (aside_mem (aside_tableZeroed aside t))⟩⟩
  case map =>
    intro k es form table own inside
    exact ⟨pageMap_waits takes form table own inside, pageMap_maps takes form table own inside, pageMap_short takes form table own inside⟩
  case donate =>
    intro k items form table own populated reached sound polder
    exact ⟨pageDonate_waits takes form table own populated reached sound,
      fun free => pageDonate_denied takes form table own populated reached sound free polder,
      fun free => pageDonate_joins takes form table own populated reached sound free polder⟩

end Sys2Proof.MemoryProofs
end

section
/-! PROOFS. PAGE_UNMAP, PAGE_SHARE and PAGE_MIGRATE (R281, R282, R284). -/

namespace Sys2Proof.MemoryProofs

open Sys2Proof.Machine Sys2Proof.Safety Sys2Proof.Laws Sys2Proof.StoreProofs Sys2Proof.GaugeProofs

/-! ## PAGE_UNMAP -/

/-- Busy cleared in one entry (Table 12.8). -/
def clearBusy (t : PageTable) (y : State) (e : Nat) : State :=
  if peBusy (rdEntry y t e) then wrEntry y t e (putBit (rdEntry y t e) 2 false) else y

theorem tabled_clearBusy (t : PageTable) (y : State) (e : Nat) : Tabled y (clearBusy t y e) := by
  unfold clearBusy
  split
  · exact tabled_wrEntry _ _ _ _
  · exact tabled_refl y

theorem aside_clearBusy (t : PageTable) (s z : State) (e : Nat) (h : Aside s z) : Aside (clearBusy t s e) (clearBusy t z e) := by
  unfold clearBusy
  rw [aside_rdEntry h]
  split
  · exact aside_wrEntry h _ _ _
  · exact h

/-- The page engine's writes leave its copies and the commands that wait. -/
theorem paged_work {s x : State} (h : Paged s x) : x.ms.copies = s.ms.copies ∧ x.ms.jobs = s.ms.jobs := by
  obtain ⟨m, tl, g, ld, a, b, fr, rfl, -⟩ := h
  exact ⟨rfl, rfl⟩

theorem aside_frees {s z : State} (h : Aside s z) : z.ms.frees = s.ms.frees := by obtain ⟨g, h, tb, rfl⟩ := h; rfl

/-- Entries unmapped, with what is read with poison noted first. -/
def unmapped (y : State) (k : Nat) (t : PageTable) (es : List Nat) : State :=
  es.foldl (fun y e => unmapEntry y k t e) (notePoisonEntries y t es)

theorem paged_unmapped (y : State) (k : Nat) (t : PageTable) (es : List Nat) : Paged y (unmapped y k t es) :=
  paged_trans (paged_notePoison _ _ _) (paged_foldl _ (fun _ _ => paged_unmapEntry _ _ _ _) _ _)

theorem aside_unmapped {s z : State} (h : Aside s z) (k : Nat) (t : PageTable) (es : List Nat) :
    Aside (unmapped s k t es) (unmapped z k t es) :=
  aside_foldl (fun y e => unmapEntry y k t e) (fun _ _ _ h => aside_unmapEntry h _ _ _) es _ _ (aside_notePoison h t es)

/-- Table k removed. -/
def tableDropped (s : State) (k : Nat) : State := { s with ms := { s.ms with tables := adel s.ms.tables k } }

theorem only_tableDropped (s : State) (k : Nat) : Only [.pageTables] s (tableDropped s k) := by
  refine ⟨rfl, rfl, fun i hi => ?_⟩
  cases i <;> simp [Kind.same, tableDropped] at hi ⊢

/-- PAGE_UNMAP ends with the entries unmapped in the state z that it starts from, which reads as y does. -/
theorem pageUnmap_ends {s y z : State} {ring : Ring} {op : Nat} {fs : Fields} {p : Pkt} {t : PageTable} {form : Option Nat}
    {body : State → Nat → Pkt → State} {o : Host.Outcome State Fault Refusal} (ho : o = .next (done s (ringCmd s ring op form body)))
    (takes : Takes s ring op fs p) (hf : ∀ f, form = some f → p.b 8 1 = f) (k : Nat)
    (runs : body (advance s (ringNo ring)) (ringNo ring) p = pageUnmap z (ringNo ring) p k t) (tabled : Tabled (advance s (ringNo ring)) z)
    (aside : Aside y z) :
    ∃ x, o = .next x ∧ Ends s x ring p (.pageWork :: tableKinds) stOk 0 0 0 ∧
      x.mem = (unmapped y k t (entryRange (p.b 16 4) (p.b 20 4))).mem ∧
      x.ms.frees = (unmapped y k t (entryRange (p.b 16 4) (p.b 20 4))).ms.frees ∧
      x.ms.copies = s.ms.copies ∧ x.ms.jobs = s.ms.jobs := by
  have paged := paged_unmapped z k t (entryRange (p.b 16 4) (p.b 20 4))
  have unmaps := aside_unmapped aside k t (entryRange (p.b 16 4) (p.b 20 4))
  have only : Only (.pageWork :: tableKinds) (advance s (ringNo ring)) (unmapped z k t (entryRange (p.b 16 4) (p.b 20 4))) :=
    only_trans (only_mono (fun k hk => List.mem_cons_of_mem _ (writeKinds_tableKinds k hk)) tabled.only)
      (only_mono (by decide) (only_paged paged))
  obtain ⟨x, e, ends, mem, ms⟩ := ring_completes_with (y := unmapped z k t (entryRange (p.b 16 4) (p.b 20 4))) (st := stOk) (a := 0)
    (b := 0) ho (.pageWork :: tableKinds) takes hf runs only (by decide) (by decide) (paged_wf paged (tabled.wf (advance_wf takes.canonical _)))
  obtain ⟨copies, jobs⟩ := paged_work paged
  obtain ⟨copies', jobs', -⟩ := same_of_only tabled.only (k := .pageWork) (by simp)
  refine ⟨x, e, ends, mem.trans (aside_mem unmaps), ?_, ?_, ?_⟩
  · rw [ms, aside_frees unmaps]
  · rw [ms, copies, copies', advance_ms]
  · rw [ms, jobs, jobs', advance_ms]

section
variable {s : State} {ring : Ring} {p : Pkt} {t : PageTable}
  (takes : Takes s ring 0x59 [(8, 1, 0), (10, 2, 0), (16, 4, 0), (20, 4, 0)] p) (table : s.table? (p.b 10 2) = some t) (own : t.ctx = p.ctx)
  (free : tableBusy s (p.b 10 2) = false)
include takes table own free

/-- The body of form 1 at once. -/
theorem exec_pageUnmapTable : ∃ body, exec (.pageUnmapTable ring) s = .next (done s (ringCmd s ring 0x59 (some 1) body)) ∧
    body (advance s (ringNo ring)) (ringNo ring) p = pageDrop (advance s (ringNo ring)) (ringNo ring) p (p.b 10 2) t := by
  refine ⟨_, congrArg (fun y => Host.Outcome.next (done s y)) (ringCmdOf_sound takes.sound.1 _ _ _ _ _), ?_⟩
  rw [checked_takes takes, withTable_own _ table own, inTurn_now ((tableBusy_advance _ _ _).trans free)]

/-- A table without valid entries is removed. -/
theorem pageDrop_removes (form : p.b 8 1 = 1) (sorted : asorted s.ms.tables = true)
    (invalid : ∀ e, e < t.entries → peValid (entryOf s t e) = false) :
    ∃ x, exec (.pageUnmapTable ring) s = .next x ∧ Ends s x ring p [.pageTables, .log, .vectors] stOk 0 0 0 ∧
      x.table? (p.b 10 2) = none ∧ ∀ j, j ≠ p.b 10 2 → x.table? j = s.table? j := by
  obtain ⟨body, e, runs⟩ := exec_pageUnmapTable takes table own free
  have noted := only_notePoison (advance s (ringNo ring)) t (List.range t.entries)
  have tables : (notePoisonEntries (advance s (ringNo ring)) t (List.range t.entries)).ms.tables = s.ms.tables :=
    (same_of_only noted (k := .pageTables) (by simp)).trans (by simp)
  have none : (List.range t.entries).any (fun e => peValid (entryOf (advance s (ringNo ring)) t e)) = false := by
    refine List.any_eq_false.mpr fun i hi => ?_
    rw [aside_entryOf (aside_advance s _), invalid i (List.mem_range.mp hi)]
    exact Bool.false_ne_true
  have drops : body (advance s (ringNo ring)) (ringNo ring) p = answer (tableDropped (notePoisonEntries (advance s (ringNo ring)) t
      (List.range t.entries)) (p.b 10 2)) (ringNo ring) p stOk 0 0 0 := by
    simp only [runs, pageDrop, none, Bool.false_eq_true, if_false]
    rfl
  obtain ⟨x, ex, ends, -, ms⟩ := ring_completes_with e [.pageTables, .log, .vectors] takes (by simp [form]) drops
    (only_trans (only_mono (l' := [.log, .pageTables]) (by simp) noted) (only_mono (by simp) (only_tableDropped _ _))) (by decide)
    (by decide) ((tabled_notePoison _ _ _).wf (advance_wf takes.canonical _))
  have left : x.ms.tables = adel s.ms.tables (p.b 10 2) := by rw [ms, ← tables]; rfl
  refine ⟨x, ex, ends, ?_, fun j hj => ?_⟩
  · rw [State.table?, left, aget?_adel_self _ _ sorted]
  · rw [State.table?, left, aget?_adel_other _ _ _ sorted hj]
    rfl

/-- A table with a valid entry stays. -/
theorem pageDrop_busy (form : p.b 8 1 = 1) (valid : ∃ e, e < t.entries ∧ peValid (entryOf s t e) = true) :
    ∃ x, exec (.pageUnmapTable ring) s = .next x ∧ Ends s x ring p [.log, .vectors] stBusy 0 0 0 := by
  obtain ⟨body, e, runs⟩ := exec_pageUnmapTable takes table own free
  obtain ⟨i, inside, valid⟩ := valid
  have some : (List.range t.entries).any (fun e => peValid (entryOf (advance s (ringNo ring)) t e)) = true :=
    List.any_eq_true.mpr ⟨i, List.mem_range.mpr inside, by rw [aside_entryOf (aside_advance s _)]; exact valid⟩
  have stays : body (advance s (ringNo ring)) (ringNo ring) p =
      answer (notePoisonEntries (advance s (ringNo ring)) t (List.range t.entries)) (ringNo ring) p stBusy 0 0 0 := by
    simp only [runs, pageDrop, some, if_true]
    rfl
  obtain ⟨x, ex, ends, -, -⟩ := ring_completes_with e [.log, .vectors] takes (by simp [form]) stays (only_notePoison _ _ _) (by decide)
    (by decide) ((tabled_notePoison _ _ _).wf (advance_wf takes.canonical _))
  exact ⟨x, ex, ends⟩

end

/-! ## PAGE_SHARE -/

/-- One entry copied onto another, with its reference (R281). -/
def shareEntry (t : PageTable) (y : State) (e : Nat × Nat) : State :=
  wrRecord (wrEntry y t e.2 e.1) t (peShare e.1) (rdRecord y t (peShare e.1) + 1)

theorem tabled_shareEntry (t : PageTable) (y : State) (e : Nat × Nat) : Tabled y (shareEntry t y e) :=
  tabled_trans (tabled_wrEntry _ _ _ _) (tabled_wrRecord _ _ _ _)

theorem aside_shareEntry (t : PageTable) (s z : State) (e : Nat × Nat) (h : Aside s z) : Aside (shareEntry t s e) (shareEntry t z e) := by
  unfold shareEntry
  rw [aside_rdRecord h]
  exact aside_wrRecord (aside_wrEntry h _ _ _) _ _ _

theorem pageShare_copies {s : State} {ring : Ring} {p : Pkt} {t : PageTable}
    (takes : Takes s ring 0x5A [(10, 2, 0), (16, 4, 0), (20, 4, 0), (24, 4, 0)] p) (table : s.table? (p.b 10 2) = some t)
    (own : t.ctx = p.ctx) (src : p.b 16 4 + p.b 24 4 ≤ t.entries) (dst : p.b 20 4 + p.b 24 4 ≤ t.entries)
    (free : tableBusy s (p.b 10 2) = false) {vs : List Nat} (values : vs = (entryRange (p.b 16 4) (p.b 24 4)).map (entryOf s t))
    (valid : ∀ v ∈ vs, peValid v = true) (invalid : ∀ e ∈ entryRange (p.b 20 4) (p.b 24 4), peValid (entryOf s t e) = false)
    (fits : ∀ v ∈ vs, recRefs (rdRecord s t (peShare v)) + (vs.filter (fun w => peShare w == peShare v)).length ≤ 65535) :
    ∃ x, exec (.pageShare ring) s = .next x ∧ Ends s x ring p tableKinds stOk 0 0 0 ∧
      x.mem = ((vs.zip (entryRange (p.b 20 4) (p.b 24 4))).foldl (shareEntry t)
        (notePoisonEntries s t (entryRange (p.b 16 4) (p.b 24 4) ++ entryRange (p.b 20 4) (p.b 24 4)))).mem := by
  have aside := aside_advance s (ringNo ring)
  have shared := tabled_trans (tabled_notePoison (advance s (ringNo ring)) t (entryRange (p.b 16 4) (p.b 24 4) ++ entryRange (p.b 20 4) (p.b 24 4)))
    (tabled_foldl (tabled_shareEntry t) (vs.zip (entryRange (p.b 20 4) (p.b 24 4))) _)
  have copied := aside_foldl (shareEntry t) (aside_shareEntry t) (vs.zip (entryRange (p.b 20 4) (p.b 24 4))) _ _
    (aside_notePoison aside t (entryRange (p.b 16 4) (p.b 24 4) ++ entryRange (p.b 20 4) (p.b 24 4)))
  have entries : entryOf (advance s (ringNo ring)) t = entryOf s t := funext (aside_entryOf aside t)
  have allValid : vs.any (fun v => !peValid v) = false := List.any_eq_false.mpr fun v hv => by simp [valid v hv]
  have allFree : (entryRange (p.b 20 4) (p.b 24 4)).any (fun e => peValid (entryOf s t e)) = false :=
    List.any_eq_false.mpr fun e he => by simp [invalid e he]
  have allFit : vs.any (fun v => decide (recRefs (rdRecord s t (peShare v)) +
      (vs.filter (fun w => peShare w == peShare v)).length > 65535)) = false :=
    List.any_eq_false.mpr fun v hv => by simpa using fits v hv
  obtain ⟨x, ex, ends, mem, -⟩ := ring_completes_with (o := exec (.pageShare ring) s) (st := stOk) (a := 0) (b := 0)
    (congrArg (fun y => Host.Outcome.next (done s y)) (ringCmdOf_sound takes.sound.1 _ _ _ _ _)) tableKinds takes (by simp) (by
      rw [checked_takes takes, withTable_own _ table own, entriesIn, entriesIn, decide_eq_true src, decide_eq_true dst, Bool.and_self, if_pos rfl,
        inTurn_now ((tableBusy_advance _ _ _).trans free)]
      simp only [pageShare, entries, ← values, allValid, allFree, allFit, aside_rdRecord aside, Bool.or_false, Bool.false_eq_true, if_false]
      rfl)
    shared.only (by decide) (by decide) (shared.wf (advance_wf takes.canonical _))
  exact ⟨x, ex, ends, mem.trans (aside_mem copied)⟩

/-! ## PAGE_MIGRATE -/

/-- An entry that maps a page of the other tier. -/
def otherTier (s : State) (t : PageTable) (tier e : Nat) : Bool := peValid (entryOf s t e) && peTier (entryOf s t e) != tier

/-- An entry that maps a page of the other tier, which others map too. -/
def sharedPage (s : State) (t : PageTable) (tier e : Nat) : Bool :=
  otherTier s t tier e && decide (1 < recRefs (rdRecord s t (peShare (entryOf s t e))))

section
variable (k : Nat) (t : PageTable) (tier : Nat) (s : State)

theorem migrateScan_passes {e : Nat} (stays : otherTier s t tier e = false) (rest : List Nat) (moved skipped : Nat) :
    migrateScan k t tier (e :: rest) s moved skipped false = migrateScan k t tier rest s moved skipped false := by
  have c : (!peValid (entryOf s t e) || peTier (entryOf s t e) == tier) = true := by
    rw [otherTier, bne] at stays
    cases v : peValid (entryOf s t e) with
    | false => rfl
    | true => simpa [v] using stays
  rw [migrateScan]
  exact if_pos c

theorem migrateScan_skips {e : Nat} (shared : sharedPage s t tier e = true) (rest : List Nat) (moved skipped : Nat) :
    migrateScan k t tier (e :: rest) s moved skipped false = migrateScan k t tier rest s moved (skipped + 1) false := by
  simp only [sharedPage, otherTier, Bool.and_eq_true, bne_iff_ne, decide_eq_true_eq] at shared
  obtain ⟨⟨valid, tier'⟩, refs⟩ := shared
  rw [migrateScan]
  simp [valid, tier', refs]

theorem migrateScan_starts {e : Nat} (other : otherTier s t tier e = true) (alone : sharedPage s t tier e = false) (rest : List Nat)
    (moved skipped : Nat) {y : State} (starts : migrateEntry s k t e = some y) :
    migrateScan k t tier (e :: rest) s moved skipped false = (y, moved + 1, skipped, some rest) := by
  have refs : ¬ 1 < recRefs (rdRecord s t (peShare (entryOf s t e))) := by simpa [sharedPage, other] using alone
  simp only [otherTier, Bool.and_eq_true, bne_iff_ne] at other
  rw [migrateScan]
  simp [other, refs, starts]

/-- Entries that PAGE_MIGRATE passes over: the shared ones of the other tier are counted as skipped (R282). -/
theorem migrateScan_over (rest : List Nat) (moved : Nat) {l : List Nat}
    (h : ∀ e ∈ l, otherTier s t tier e = true → sharedPage s t tier e = true) (skipped : Nat) : migrateScan k t tier (l ++ rest) s moved skipped false =
      migrateScan k t tier rest s moved (skipped + (l.filter (sharedPage s t tier)).length) false := by
  induction l generalizing skipped with
  | nil => rfl
  | cons e l ih =>
    have tail := ih (fun e he => h e (List.mem_cons_of_mem _ he))
    cases other : otherTier s t tier e with
    | false =>
      have off : sharedPage s t tier e = false := by rw [sharedPage, other, Bool.false_and]
      rw [List.cons_append, migrateScan_passes k t tier s other, tail, List.filter_cons, off, if_neg Bool.false_ne_true]
    | true =>
      have on := h e (List.mem_cons_self ..) other
      rw [List.cons_append, migrateScan_skips k t tier s on, tail, List.filter_cons, on, if_pos rfl, List.length_cons, Nat.add_assoc,
        Nat.add_comm 1]

end

/-- The FETCHes by which a migration copies a page, each of a sixteenth (R282, R284). -/
def pageFetch (s : State) (t : PageTable) (old page : Nat) (i : Nat) : Txn :=
  mkTxn (s.ms.nextId + 1 + i) 1 (devDest (old + 4096 * i)) 4096 [] 3 (some (devDest (page * 65536 + 4096 * i))) copyQueue s.ms.nextId
    engineReq (s.polderOfCtx t.ctx) (some (old / 65536)) .hub

/-- What a migration that starts leaves: its entry is busy, its copy stands, and its sixteen FETCHes wait to be issued. -/
structure Migrates (s x : State) (k : Nat) (t : PageTable) (e tier page record : Nat) : Prop where
  only : Only (.transactions :: .pageWork :: writeKinds) s x
  mem : x.mem = (wrEntry s t e (putBit (entryOf s t e) 2 true)).mem
  wf : s.mem.wf = true → x.mem.wf = true
  copies : x.ms.copies = s.ms.copies ++ [⟨s.ms.nextId, k, e, entryOf s t e, false, tier, page, record, 16⟩]
  jobs : x.ms.jobs = s.ms.jobs
  txns : ∃ l, x.ms.txns = s.ms.txns ++ l ∧ l.length = 16 ∧ ∀ z ∈ l, z.op = 1 ∧ z.cls = 3 ∧ z.bytes = 4096 ∧ z.queue = copyQueue

theorem startCopy_migrates (s : State) (k : Nat) (t : PageTable) (e tier page record : Nat) :
    Migrates s (startCopy s k t e false tier page record) k t e tier page record := by
  have tabled := tabled_wrEntry s t e (putBit (entryOf s t e) 2 true)
  have ms : (wrEntry s t e (putBit (entryOf s t e) 2 true)).ms.txns = s.ms.txns := (same_of_only tabled.only (k := .transactions) (by simp)).1
  obtain ⟨copies, jobs, -⟩ := same_of_only tabled.only (k := .pageWork) (by simp)
  refine ⟨only_trans (b := wrEntry s t e (putBit (entryOf s t e) 2 true)) (only_mono (by simp) tabled.only) ⟨rfl, rfl, fun k hk => ?_⟩, rfl,
    tabled.wf, ?_, jobs, _, congrArg (· ++ _) ms, ?_, fun z hz => ?_⟩
  · cases k <;> simp [Kind.same, startCopy] at hk ⊢
  · simp only [startCopy, copies]
    simp
  · simp
  · obtain ⟨c, hc, rfl⟩ := List.mem_map.mp hz
    obtain ⟨i, -, hi⟩ := List.mem_map.mp (List.append_nil _ ▸ List.fst_mem_of_mem_zipIdx hc)
    exact ⟨rfl, rfl, by simp [mkTxn, ← hi], rfl⟩

/-- A migration's job: it heads its table's turns from the start. -/
def migrationBegun (x : State) (r : Nat) (p : Pkt) (k : Nat) (rest : List Nat) (moved skipped : Nat) : State :=
  { accept x r p [k] with ms := { x.ms with jobs := ⟨r, p.cmd [k], p.par, true, rest, moved, skipped⟩ :: x.ms.jobs } }

theorem only_migrationBegun (x : State) (r : Nat) (p : Pkt) (k : Nat) (rest : List Nat) (moved skipped : Nat) :
    Only [.rings, .pageWork] x (migrationBegun x r p k rest moved skipped) := by
  refine ⟨rfl, rfl, fun i hi => ?_⟩
  cases i <;> simp [Kind.same, migrationBegun] at hi ⊢

theorem accept_rings_of {s x : State} (h : x.rings = s.rings) (r : Nat) (p : Pkt) (aux : List Nat) :
    (accept x r p aux).rings = (accept s r p aux).rings := by simp [accept, State.modRing, State.setRing, State.ring, h]

theorem otherTier_of {s z : State} {t : PageTable} (h : ∀ e, entryOf z t e = entryOf s t e) (tier : Nat) :
    otherTier z t tier = otherTier s t tier := funext fun e => by rw [otherTier, h]; rfl

theorem sharedPage_of {s z : State} {t : PageTable} (h : ∀ e, entryOf z t e = entryOf s t e) (g : ∀ r, rdRecord z t r = rdRecord s t r)
    (tier : Nat) : sharedPage z t tier = sharedPage s t tier :=
  funext fun e => by rw [sharedPage, otherTier_of h, h, g]; rfl

/-- The target of a migration is the tier that the entry's page does not lie in. -/
theorem otherTier_target {s : State} {t : PageTable} {tier e : Nat} (h : otherTier s t tier e = true) (le : tier ≤ 1) :
    1 - peTier (entryOf s t e) = tier := by
  simp only [otherTier, Bool.and_eq_true, bne_iff_ne] at h
  have lt : peTier (entryOf s t e) < 2 := Nat.mod_lt _ (by decide)
  omega

section
variable {s : State} {ring : Ring} {p : Pkt} {t : PageTable}
  (takes : Takes s ring 0x5B [(10, 2, 0), (12, 1, 1), (16, 4, 0), (20, 4, 0)] p) (table : s.table? (p.b 10 2) = some t) (own : t.ctx = p.ctx)
  (inside : p.b 16 4 + p.b 20 4 ≤ t.entries) (free : tableBusy s (p.b 10 2) = false)
include takes table own inside free

/-- With no entry left to move the command answers at once. -/
theorem pageMigrate_answers
    (h : ∀ e ∈ entryRange (p.b 16 4) (p.b 20 4), otherTier s t (p.b 12 1) e = true → sharedPage s t (p.b 12 1) e = true) :
    ∃ x, exec (.pageMigrate ring) s = .next x ∧
      Ends s x ring p [.log, .vectors] stOk 0 ((entryRange (p.b 16 4) (p.b 20 4)).filter (sharedPage s t (p.b 12 1))).length 0 := by
  obtain ⟨body, e, runs⟩ := onEntries_now none pageMigrate takes table own inside free
  have aside := aside_notePoison (aside_advance s (ringNo ring)) t (entryRange (p.b 16 4) (p.b 20 4))
  obtain ⟨entries, records⟩ := notePoison_reads s t (entryRange (p.b 16 4) (p.b 20 4))
  have others := otherTier_of (fun e => (aside_entryOf aside t e).trans (entries e)) (p.b 12 1)
  have shared := sharedPage_of (fun e => (aside_entryOf aside t e).trans (entries e)) (fun r => (aside_rdRecord aside t r).trans (records r))
    (p.b 12 1)
  have scan := migrateScan_over (p.b 10 2) t (p.b 12 1) _ [] 0 (by rw [others, shared]; exact h) 0
  rw [List.append_nil, shared, Nat.zero_add, migrateScan] at scan
  have answers : body (advance s (ringNo ring)) (ringNo ring) p = answer (notePoisonEntries (advance s (ringNo ring)) t
      (entryRange (p.b 16 4) (p.b 20 4))) (ringNo ring) p stOk 0
      ((entryRange (p.b 16 4) (p.b 20 4)).filter (sharedPage s t (p.b 12 1))).length 0 := by
    rw [runs, pageMigrate]
    simp only [scan]
  obtain ⟨x, ex, ends, -, -⟩ := ring_completes_with (congrArg (fun y => Host.Outcome.next (done s y)) e) [.log, .vectors] takes (by simp)
    answers (only_notePoison _ _ _) (by decide) (by decide)
    ((tabled_notePoison _ _ _).wf (advance_wf takes.canonical _))
  exact ⟨x, ex, ends⟩

/-- The first entry to move starts its copy to the page at the head of the target list. -/
theorem pageMigrate_starts {a b : List Nat} {e page r : Nat} {y : State} (entries : entryRange (p.b 16 4) (p.b 20 4) = a ++ e :: b)
    (passed : ∀ i ∈ a, otherTier s t (p.b 12 1) i = true → sharedPage s t (p.b 12 1) i = true) (other : otherTier s t (p.b 12 1) e = true)
    (alone : sharedPage s t (p.b 12 1) e = false)
    (pop : popFree (notePoisonEntries s t (entryRange (p.b 16 4) (p.b 20 4))) t (p.b 12 1) = some ((r, page), y)) :
    ∃ x y' z, exec (.pageMigrate ring) s = .next x ∧ Begins s x ring p (.transactions :: .pageWork :: tableKinds) [p.b 10 2] ∧
      Aside y y' ∧ y'.ms.copies = s.ms.copies ∧ y'.ms.jobs = s.ms.jobs ∧ y'.ms.txns = s.ms.txns ∧
      Migrates y' z (p.b 10 2) t e (p.b 12 1) page r ∧ x.mem = z.mem ∧
      x.ms = (migrationBegun z (ringNo ring) p (p.b 10 2) b 1 (a.filter (sharedPage s t (p.b 12 1))).length).ms := by
  obtain ⟨body, run, runs⟩ := onEntries_now none pageMigrate takes table own inside free
  have aside := aside_notePoison (aside_advance s (ringNo ring)) t (entryRange (p.b 16 4) (p.b 20 4))
  obtain ⟨reads, records⟩ := notePoison_reads s t (entryRange (p.b 16 4) (p.b 20 4))
  have others := otherTier_of (fun e => (aside_entryOf aside t e).trans (reads e)) (p.b 12 1)
  have shared := sharedPage_of (fun e => (aside_entryOf aside t e).trans (reads e)) (fun r => (aside_rdRecord aside t r).trans (records r))
    (p.b 12 1)
  have noted := tabled_notePoison (advance s (ringNo ring)) t (entryRange (p.b 16 4) (p.b 20 4))
  obtain ⟨empty, -⟩ | ⟨_, _, y', popped, pop', aside'⟩ := aside_popFree aside t (p.b 12 1)
  · cases pop.symm.trans empty
  cases pop.symm.trans popped
  have tabled := tabled_trans noted (tabled_popFree pop')
  have target : 1 - peTier (entryOf (notePoisonEntries (advance s (ringNo ring)) t (entryRange (p.b 16 4) (p.b 20 4))) t e) = p.b 12 1 :=
    otherTier_target ((congrFun others e).trans other) (takes_ctx takes (by simp) (by decide))
  have starts : migrateEntry (notePoisonEntries (advance s (ringNo ring)) t (entryRange (p.b 16 4) (p.b 20 4))) (p.b 10 2) t e =
      some (startCopy y' (p.b 10 2) t e false (p.b 12 1) page r) := by rw [migrateEntry, target, pop']; rfl
  have scan := migrateScan_over (p.b 10 2) t (p.b 12 1) _ (e :: b) 0 (by rw [others, shared]; exact passed) 0
  rw [migrateScan_starts _ _ _ _ ((congrFun others e).trans other) ((congrFun shared e).trans alone) b _ _ starts, ← entries, shared]
    at scan
  simp only [Nat.zero_add] at scan
  have migrates := startCopy_migrates y' (p.b 10 2) t e (p.b 12 1) page r
  generalize startCopy y' (p.b 10 2) t e false (p.b 12 1) page r = z at scan migrates
  have copied : Only (.transactions :: .pageWork :: writeKinds) (advance s (ringNo ring)) z :=
    only_trans (only_mono (by simp) tabled.only) migrates.only
  have begun := only_migrationBegun z (ringNo ring) p (p.b 10 2) b 1 (a.filter (sharedPage s t (p.b 12 1))).length
  have accepted : body (advance s (ringNo ring)) (ringNo ring) p =
      migrationBegun z (ringNo ring) p (p.b 10 2) b 1 (a.filter (sharedPage s t (p.b 12 1))).length := by
    rw [runs, pageMigrate]
    simp only [scan]
    rfl
  obtain ⟨x, ex, begins, mem, ms⟩ := ring_accepts_with (aux := [p.b 10 2]) (l := .transactions :: .pageWork :: tableKinds)
    (congrArg (fun y => Host.Outcome.next (done s y)) run) takes (by simp)
    accepted (accept_rings_of (same_of_only copied (k := .rings) (by decide)) _ _ _)
    (fun k hk => same_of_only (only_trans (only_mono (by decide) copied) (only_mono (by decide) begun)) hk)
    (migrates.wf (tabled.wf (advance_wf takes.canonical _)))
  obtain ⟨copies, jobs, -⟩ := same_of_only tabled.only (k := .pageWork) (by decide)
  obtain ⟨txns, -⟩ := same_of_only tabled.only (k := .transactions) (by decide)
  exact ⟨x, y', z, ex, begins, aside', by rw [copies, advance_ms], by rw [jobs, advance_ms], by rw [txns, advance_ms], migrates, mem, ms⟩

end

/-- Settles O13: each command runs at once on the state with the head moved past the packet, which reads as the state before it. -/
theorem pageUnmapShareMigrate : Obligations.PageUnmapShareMigrate := by
  unfold Obligations.PageUnmapShareMigrate
  refine ⟨fun ring s p t takes => ?unmap, fun ring s p t takes form table own sorted free => ?drop, fun ring s p t takes => ?share,
    fun ring s p t takes => ?migrate⟩
  case unmap =>
    intro k es table own inside free cleared
    have aside := aside_advance s (ringNo ring)
    refine ⟨fun form => ?_, fun form => ?_⟩
    · obtain ⟨body, e, runs⟩ := onEntries_now (some 0) pageUnmap takes table own inside free
      exact pageUnmap_ends (congrArg (fun y => Host.Outcome.next (done s y)) e) takes (by simp [form]) k runs (tabled_refl _) aside
    · obtain ⟨body, e, runs⟩ := onEntries_now (some 2) pageInit takes table own inside free
      exact pageUnmap_ends (congrArg (fun y => Host.Outcome.next (done s y)) e) takes (by simp [form]) k runs
        (tabled_foldl (tabled_clearBusy t) es _) (aside_foldl (clearBusy t) (aside_clearBusy t) es _ _ aside)
  case drop => exact ⟨pageDrop_removes takes table own free form sorted, pageDrop_busy takes table own free form⟩
  case share =>
    intro src dst vs table own insideSrc insideDst free valid invalid fits
    exact pageShare_copies takes table own insideSrc insideDst free rfl valid invalid fits
  case migrate =>
    intro k tier es other shared table own inside free
    refine ⟨pageMigrate_answers takes table own inside free, fun a e b page r y entries passed moves alone pop => ?_⟩
    obtain ⟨x, y', z, ex, begins, aside, copies, jobs, txns, migrates, mem, ms⟩ :=
      pageMigrate_starts takes table own inside free entries passed moves alone pop
    obtain ⟨l, added, length, each⟩ := migrates.txns
    have started : x.ms.jobs = ⟨ringNo ring, p.cmd [k], p.par, true, b, 1, (a.filter shared).length⟩ :: s.ms.jobs := by
      rw [ms, ← jobs, ← migrates.jobs]
      rfl
    have copying : x.ms.copies = s.ms.copies ++ [⟨y'.ms.nextId, k, e, entryOf y' t e, false, tier, page, r, 16⟩] := by
      rw [ms, ← copies]
      exact migrates.copies
    refine ⟨x, ex, begins, ?_, ⟨_, copying, rfl, rfl, aside_entryOf aside t e, rfl, rfl, rfl, rfl, rfl⟩, ⟨l, ?_, length, fun w hw => ?_⟩,
      ⟨_, started, rfl, rfl, rfl, rfl⟩⟩
    · rw [mem, migrates.mem, aside_entryOf aside]
      exact aside_mem (aside_wrEntry aside t e _)
    · rw [ms, ← txns]
      exact added
    · obtain ⟨op, cls, bytes, -⟩ := each w hw
      exact ⟨op, cls, bytes⟩

end Sys2Proof.MemoryProofs
end

section
/-! PROOFS. MOVE on pump queues (R271, R273). -/

namespace Sys2Proof.MemoryProofs

open Sys2Proof.Machine Sys2Proof.Safety Sys2Proof.Laws Sys2Proof.StoreProofs Sys2Proof.GaugeProofs

/-! ## What the definition of a queue reads -/

theorem aside_gaugeOf {s z : State} (h : Aside s z) (c v : Nat) : z.gaugeOf c v = s.gaugeOf c v := by obtain ⟨g, h, tb, rfl⟩ := h; rfl

theorem aside_gauge {s z : State} (h : Aside s z) (g : Nat) : z.gauge g = s.gauge g := by obtain ⟨g, h, tb, rfl⟩ := h; rfl

theorem aside_pump {s z : State} (h : Aside s z) (k : Nat) : z.pumpPresent k = s.pumpPresent k := by obtain ⟨g, h, tb, rfl⟩ := h; rfl

theorem aside_ntiles {s z : State} (h : Aside s z) : z.ntiles = s.ntiles := by obtain ⟨g, h, tb, rfl⟩ := h; rfl

theorem aside_range {s z : State} (h : Aside s z) (a n : Nat) :
    rangePopulated z a n = rangePopulated s a n ∧ rangeOpen z a n = rangeOpen s a n := by
  obtain ⟨g, h, tb, rfl⟩ := h; exact ⟨rfl, rfl⟩

theorem aside_polder? {s z : State} (h : Aside s z) (q : Nat) : z.polder? q = s.polder? q := by obtain ⟨g, h, tb, rfl⟩ := h; rfl

theorem aside_polderCovers {s z : State} (h : Aside s z) (c a n : Nat) : polderCovers z c a n = polderCovers s c a n := by
  obtain ⟨g, h, tb, rfl⟩ := h; rfl

theorem aside_queues {s z : State} (h : Aside s z) : z.ms.queues = s.ms.queues := by obtain ⟨g, h, tb, rfl⟩ := h; rfl

theorem aside_queue? {s z : State} (h : Aside s z) (k : Nat) : z.queue? k = s.queue? k := by rw [State.queue?, aside_queues h]; rfl

/-! ## What the commands of a queue change -/

theorem only_queues (s : State) (x : Gauges) (q : Assoc PumpQueue) (n : Nat) :
    Only [.gauges, .pumpQueues, .transactions] s { s with gauges := x, ms := { s.ms with queues := q, nextId := n } } := by
  refine ⟨rfl, rfl, fun k hk => ?_⟩
  cases k <;> simp [Kind.same] at hk ⊢

/-- State x is s with queue k at q; memory, the gauges' values and the transactions stand. -/
structure Queued (s x : State) (k : Nat) (q : PumpQueue) : Prop where
  only : Only [.gauges, .pumpQueues, .transactions] s x
  txns : x.ms.txns = s.ms.txns
  queues : x.ms.queues = aput s.ms.queues k q

/-- A queue that goes on is armed: it stands as put down, and waits for its post gauge. -/
theorem armQueue_queued (s : State) (k : Nat) (q : PumpQueue) (on : q.halted = false) :
    ∃ y, y ≠ .none ∧ Queued s (armQueue (s.setQueue k q) k) k { q with postWait := y } := by
  obtain ⟨x, y, n, e, waits⟩ := armQueue_set s k q on
  exact ⟨y, waits, by rw [e]; exact only_queues s _ _ _, by rw [e], by rw [e]⟩

theorem queued_mem {s x : State} {k : Nat} {q : PumpQueue} (h : Queued s x k q) : x.mem = s.mem :=
  same_of_only h.only (k := .mem) (by simp)

/-- What stands of the queues where table k of them is put down. -/
theorem queue?_put {t s : State} {k : Nat} {q : PumpQueue} (h : t.ms.queues = aput s.ms.queues k q) :
    t.queue? k = some q ∧ ∀ j, j ≠ k → t.queue? j = s.queue? j := by
  simp only [State.queue?, h]
  exact ⟨aget?_aput_self _ _ _, fun j hj => aget?_aput_other _ _ _ _ hj⟩

/-- A signal of a hub unit joins the queue of the hub's block. -/
theorem hubSignal_sends (s : State) (unit tag : Nat) {ctx vid : Nat} (amount : Nat) (ctxFits : ctx < 64) (vidFits : vid < 2048) :
    ∃ m, (hubSignal s unit tag ctx vid amount).gin 4 = s.gin 4 ++ [m] ∧ gOp m = 0 ∧ gOperand m = BitVec.ofNat 32 amount ∧ gVid m = vid ∧
      gCtx m = ctx :=
  ⟨hubMsg s.deviceId unit tag ctx vid 0 amount 0, gin_pushGin_self _ 4 _, gOp_hubMsg _ _ _ _ _ _ _ _ (by decide), gOperand_hubMsg _ _ _ _ _ _ _ _,
    gVid_hubMsg _ _ _ _ _ _ _ _ vidFits, gCtx_hubMsg _ _ _ _ _ _ _ _ ctxFits⟩

theorem only_hubSignal (s : State) (unit tag ctx vid amount : Nat) : Only [.gauges] s (hubSignal s unit tag ctx vid amount) := only_gauges s _

/-- A ring command that ends with a reply leaves the gauge blocks as its own effect did. -/
theorem ring_completes_gauges {s : State} {ring : Ring} {op : Nat} {fs : Fields} {p : Pkt} {form : Option Nat}
    {body : State → Nat → Pkt → State} {o : Host.Outcome State Fault Refusal} (ho : o = .next (done s (ringCmd s ring op form body)))
    {y : State} {st a b : Nat} {l' : List Kind} (l : List Kind) (takes : Takes s ring op fs p) (hf : ∀ f, form = some f → p.b 8 1 = f)
    (hb : body (advance s (ringNo ring)) (ringNo ring) p = answer y (ringNo ring) p st a b 0)
    (only : Only l' (advance s (ringNo ring)) y) (rings : Kind.rings ∉ l') (sub : ∀ k ∈ l', k ∈ Kind.snoops :: l)
    (wf : y.mem.wf = true) :
    ∃ t, o = .next t ∧ Ends s t ring p l st a b 0 ∧ t.mem = y.mem ∧ t.ms = y.ms ∧ t.gauges = y.gauges := by
  refine ring_completes ho y st a b 0 l takes hf hb (same_of_only only rings) (fun k hk => ?_) (fun ends => ⟨ends, ?_, ?_, ?_⟩)
  · exact same_of_only only (fun h => hk (List.mem_cons_of_mem _ (sub k h)))
  · rw [done_mem _ _ takes.runs]; exact canon_eq _ wf
  · exact done_ms _ _ takes.runs
  · exact done_gauges _ _ takes.runs

/-! ## Form 0 -/

/-- The record that form 0 names. -/
def pktRecord (p : Pkt) : List Byte := padTo 32 (p.par.drop 8)

/-- The queue that a record defines, its consumed count at its post gauge's value (R271). -/
def definedQueue (s : State) (p : Pkt) (w : List Byte) (g : Nat) : PumpQueue :=
  { ctx := p.ctx, base := leAt w 0 8, size := leAt w 8 1, pump := leAt w 9 1, post := leAt w 10 2, tile := queueTile w
    consumed := (s.gauge g).value, posts := 0, postWait := .none, head := none, headWait := .none, transfers := [], halted := false
    code := 0, entry := 0, poisonSeen := false, retired := 0, discarded := 0 }

/-- What follows the checks of form 0's record: a queue in use and a pump whose queues are all taken are refused. -/
def defineQueue (s : State) (r : Nat) (p : Pkt) (w : List Byte) (g : Nat) : State :=
  if (s.queue? (p.b 9 1)).isSome then refuse s r p stBusy
  else if (s.ms.queues.filter (fun e => e.2.pump == leAt w 9 1)).length ≥ 16 then refuse s r p stNoResource
  else refuse (armQueue (s.setQueue (p.b 9 1) (definedQueue s p w g)) (p.b 9 1)) r p stOk

section
variable {s : State} {ring : Ring} {p : Pkt} (takes : Takes s ring 0x50 [(8, 1, 0), (9, 1, 0), (16, 32, 0)] p) (form : p.b 8 1 = 0)
include takes form

/-- A record with a set RSV bit or a field out of range (R271). -/
theorem defineQueue_badRecord (bad : queueRecordOk (pktRecord p) = false) :
    ∃ t, exec (.moveDefineQueue ring) s = .next t ∧ Ends s t ring p [] stBadParam 0 0 0 := by
  refine ring_replies rfl takes (by simp [form]) ?_
  rw [checked_takes takes]
  exact if_pos (by simp only [pktRecord] at bad; simp [bad])

variable {g : Nat} (live : s.ctxLive p.ctx = true) (ok : queueRecordOk (pktRecord p) = true)
  (gauge : s.gaugeOf p.ctx (leAt (pktRecord p) 10 2) = some g)
include live ok gauge

/-- A pump or a tile that is not there (R5). -/
theorem defineQueue_absent (absent : s.pumpPresent (leAt (pktRecord p) 9 1) = false ∨
      ∃ n, queueTile (pktRecord p) = some n ∧ s.ntiles ≤ n ∧ n < 1024) :
    ∃ t, exec (.moveDefineQueue ring) s = .next t ∧ Ends s t ring p [] stUnitAbsent 0 0 0 := by
  have aside := aside_advance s (ringNo ring)
  have gauge' := (aside_gaugeOf aside p.ctx (leAt (pktRecord p) 10 2)).trans gauge
  have live' := ctxLive_advance s (ringNo ring) p.ctx live
  refine ring_replies rfl takes (by simp [form]) ?_
  simp only [pktRecord] at ok gauge' absent
  rw [checked_takes takes]
  refine (if_neg (by simp [live', ok])).trans ?_
  simp only [gauge', aside_pump aside, aside_ntiles aside]
  refine if_pos ?_
  obtain pump | ⟨n, tile, above, below⟩ := absent
  · simp [pump]
  · simp [tile, above, below]

variable {x : Polder} (pump : s.pumpPresent (leAt (pktRecord p) 9 1) = true)
  (populated : rangePopulated s (leAt (pktRecord p) 0 8) (128 * 2 ^ leAt (pktRecord p) 8 1) = true)
  (polder : (s.polderOfCtx p.ctx).bind s.polder? = some x)
  (covers : x.covers (leAt (pktRecord p) 0 8) (128 * 2 ^ leAt (pktRecord p) 8 1) = true)
  (isOpen : rangeOpen s (leAt (pktRecord p) 0 8) (128 * 2 ^ leAt (pktRecord p) 8 1) = true)
  (tiles : ∀ n, queueTile (pktRecord p) = some n → n ∈ x.tiles ∧ n < s.ntiles)
include pump populated polder covers isOpen tiles

omit form in
/-- Form 0, once the checks of the record are done. -/
theorem exec_moveDefineQueue : ∃ body, exec (.moveDefineQueue ring) s = .next (done s (ringCmd s ring 0x50 (some 0) body)) ∧
    body (advance s (ringNo ring)) (ringNo ring) p = defineQueue (advance s (ringNo ring)) (ringNo ring) p (pktRecord p) g := by
  have aside := aside_advance s (ringNo ring)
  have gauge' := (aside_gaugeOf aside p.ctx (leAt (pktRecord p) 10 2)).trans gauge
  have live' := ctxLive_advance s (ringNo ring) p.ctx live
  have covers' : polderCovers s p.ctx (leAt (pktRecord p) 0 8) (128 * 2 ^ leAt (pktRecord p) 8 1) = true := by
    rw [polderCovers, polder]; exact covers
  have polder' : ((advance s (ringNo ring)).polderOfCtx p.ctx).bind (advance s (ringNo ring)).polder? = some x := by
    rw [aside_polder aside, funext (aside_polder? aside), polder]
  refine ⟨_, rfl, ?_⟩
  simp only [pktRecord] at ok gauge' pump populated covers' isOpen tiles
  rw [checked_takes takes]
  refine (if_neg (by simp [live', ok])).trans ?_
  simp only [gauge', aside_pump aside, aside_ntiles aside, (aside_range aside _ _).1, (aside_range aside _ _).2, aside_polderCovers aside,
    polder', pump, populated, covers', isOpen]
  cases tile : queueTile (padTo 32 (p.par.drop 8)) with
  | none => exact (if_neg (by simp)).trans ((if_neg (by simp)).trans ((if_neg (by simp)).trans
      (by simp only [defineQueue, definedQueue, pktRecord, tile])))
  | some n =>
    obtain ⟨own, below⟩ := tiles n tile
    exact (if_neg (by simp [Nat.not_le.mpr below])).trans ((if_neg (by simp)).trans ((if_neg (by simp [own])).trans
      (by simp only [defineQueue, definedQueue, pktRecord, tile])))

/-- A free queue stands defined, and waits for its post gauge (R271). -/
theorem defineQueue_defines (free : s.queue? (p.b 9 1) = none)
    (room : (s.ms.queues.filter (fun e => e.2.pump == leAt (pktRecord p) 9 1)).length < 16) :
    ∃ t y, exec (.moveDefineQueue ring) s = .next t ∧ Ends s t ring p [.gauges, .pumpQueues, .transactions] stOk 0 0 0 ∧
      t.ms.txns = s.ms.txns ∧ t.ms.queues = aput s.ms.queues (p.b 9 1) { definedQueue s p (pktRecord p) g with postWait := y } := by
  obtain ⟨body, e, runs⟩ := exec_moveDefineQueue takes live ok gauge pump populated polder covers isOpen tiles
  have aside := aside_advance s (ringNo ring)
  obtain ⟨y, -, queued⟩ := armQueue_queued (advance s (ringNo ring)) (p.b 9 1) (definedQueue (advance s (ringNo ring)) p (pktRecord p) g) rfl
  obtain ⟨t, ex, ends, -, ms⟩ := ring_completes_with (st := stOk) (a := 0) (b := 0) e [.gauges, .pumpQueues, .transactions] takes (by simp [form])
    (runs.trans ((if_neg (by simp [aside_queue? aside, free])).trans (if_neg (by rw [aside_queues aside]; exact Nat.not_le.mpr room))))
    queued.only (by simp) (by simp) (by rw [queued_mem queued]; exact advance_wf takes.canonical _)
  refine ⟨t, y, ex, ends, ?_, ?_⟩
  · rw [ms, queued.txns, advance_ms]
  · rw [ms, queued.queues, aside_queues aside, definedQueue, aside_gauge aside]
    rfl

/-- A queue defined already (R271). -/
theorem defineQueue_busy (defined : (s.queue? (p.b 9 1)).isSome = true) :
    ∃ t, exec (.moveDefineQueue ring) s = .next t ∧ Ends s t ring p [] stBusy 0 0 0 := by
  obtain ⟨body, e, runs⟩ := exec_moveDefineQueue takes live ok gauge pump populated polder covers isOpen tiles
  exact ring_replies e takes (by simp [form]) (runs.trans (if_pos (by rw [queue?_advance]; exact defined)))

/-- A pump that has its 16 queues (R271). -/
theorem defineQueue_full (free : s.queue? (p.b 9 1) = none)
    (full : 16 ≤ (s.ms.queues.filter (fun e => e.2.pump == leAt (pktRecord p) 9 1)).length) :
    ∃ t, exec (.moveDefineQueue ring) s = .next t ∧ Ends s t ring p [] stNoResource 0 0 0 := by
  obtain ⟨body, e, runs⟩ := exec_moveDefineQueue takes live ok gauge pump populated polder covers isOpen tiles
  exact ring_replies e takes (by simp [form]) (runs.trans ((if_neg (by simp [queue?_advance, free])).trans
    (if_pos (by rw [aside_queues (aside_advance s _)]; exact full))))

end

/-! ## Forms 1 to 3 -/

theorem withQueue_own {s : State} {p : Pkt} {q : PumpQueue} (r r' : Nat) (queue : s.queue? (p.b 9 1) = some q) (own : q.ctx = p.ctx)
    (body : Nat → PumpQueue → State) : withQueue (advance s r) r' p body = body (p.b 9 1) q := by
  rw [withQueue, queue?_advance, queue]
  exact if_pos (beq_iff_eq.mpr own)

/-- A queue that does not exist, or belongs to another context (R308). -/
def NoQueue (s : State) (r : Nat) (p : Pkt) (st : Nat) : Prop :=
  s.queue? (p.b 9 1) = none ∧ st = stBadParam ∨
    (∃ q, s.queue? (p.b 9 1) = some q ∧ q.ctx ≠ p.ctx) ∧ st = if r < 64 then stDenied else stBadParam

theorem withQueue_refuses {s : State} {p : Pkt} {r st : Nat} (h : NoQueue s r p st) (body : Nat → PumpQueue → State) :
    withQueue (advance s r) r p body = refuse (advance s r) r p st := by
  rw [withQueue, queue?_advance]
  obtain ⟨absent, rfl⟩ | ⟨⟨q, queue, other⟩, rfl⟩ := h
  · rw [absent]
  · rw [queue]
    exact if_neg (by simpa using other)

/-- The queue with one more entry posted. -/
def posted (q : PumpQueue) : PumpQueue := { q with posts := q.posts + 1 }

/-- Form 1 writes the descriptor, counts the entry, and signals the post gauge (R271). -/
theorem movePost_posts {s : State} {ring : Ring} {p : Pkt} {q : PumpQueue} {g : Nat}
    (takes : Takes s ring 0x50 [(8, 1, 0), (9, 1, 0), (16, 128, 0)] p) (form : p.b 8 1 = 1) (queue : s.queue? (p.b 9 1) = some q)
    (own : q.ctx = p.ctx) (gauge : s.gaugeOf q.ctx q.post = some g) {i : Nat}
    (index : i = ((s.gauge g).value.toNat + q.posts) % 2 ^ q.size) (isOpen : Open s false (q.base + 128 * i) 128) :
    ∃ t z, exec (.movePost ring) s = .next t ∧ Ends s t ring p [.mem, .tiles, .gauges, .pumpQueues] stOk i 0 0 ∧
      Stores s t false (q.base + 128 * i) (padTo 128 (p.par.drop 8)) ∧ t.ms.queues = aput s.ms.queues (p.b 9 1) (posted q) ∧
      z.gauges = s.gauges ∧ t.gauges = (hubSignal z 0 (p.b 9 1) q.ctx q.post 1).gauges := by
  have aside := aside_advance s (ringNo ring)
  have length : (padTo 128 (p.par.drop 8)).length = 128 := padTo_length _ _
  have isOpen' : Open (advance s (ringNo ring)) false (q.base + 128 * i) (padTo 128 (p.par.drop 8)).length := by
    rw [open_advance, length]; exact isOpen
  have unheld : Unheld (advance s (ringNo ring)) p.ctx := by
    obtain ⟨a, b, c, e⟩ := advance_shape s (ringNo ring)
    rw [e]; exact takes.unheld
  obtain ⟨m, tl, sn, ln, written, wf, stores⟩ := cmdWrite_open (advance s (ringNo ring)) ring p false _ _ (advance_wf takes.canonical _) isOpen'
    takes.sound unheld
  have index' : nextIndex (advance s (ringNo ring)) q = i := by
    rw [nextIndex, postValue, aside_gaugeOf aside, gauge, index, Option.map_some, Option.getD_some, aside_gauge aside]
  have posts : ∃ body, exec (.movePost ring) s = .next (done s (ringCmd s ring 0x50 (some 1) body)) ∧
      body (advance s (ringNo ring)) (ringNo ring) p = answer (hubSignal ((cmdWrite (advance s (ringNo ring)) ring p false (q.base + 128 * i)
        (padTo 128 (p.par.drop 8))).modQueue (p.b 9 1) posted) 0 (p.b 9 1) q.ctx q.post 1) (ringNo ring) p stOk i 0 0 := by
    refine ⟨_, rfl, ?_⟩
    rw [checked_takes takes, withQueue_own _ _ queue own]
    simp only [index']
    rfl
  obtain ⟨body, e, runs⟩ := posts
  generalize cmdWrite (advance s (ringNo ring)) ring p false (q.base + 128 * i) (padTo 128 (p.par.drop 8)) = w at written stores runs
  have counted : w.modQueue (p.b 9 1) posted = w.setQueue (p.b 9 1) (posted q) := by
    have same : w.queue? (p.b 9 1) = some q := by rw [written, ← queue, ← queue?_advance s (ringNo ring)]; rfl
    rw [State.modQueue, same]
  rw [counted] at runs
  have put : Only [.mem, .tiles, .snoops, .pumpQueues] (advance s (ringNo ring)) (w.setQueue (p.b 9 1) (posted q)) := by
    rw [written]
    refine ⟨rfl, rfl, fun k hk => ?_⟩
    cases k <;> simp [Kind.same, State.setQueue] at hk ⊢
  have canonical : (w.setQueue (p.b 9 1) (posted q)).mem.wf = true := by rw [written]; exact wf
  obtain ⟨t, ex, ends, mem, ms, gauges⟩ := ring_completes_gauges e [.mem, .tiles, .gauges, .pumpQueues] takes (by simp [form]) runs
    (only_trans (only_mono (l' := [.mem, .tiles, .snoops, .pumpQueues, .gauges]) (by simp) put) (only_mono (by simp) (only_hubSignal _ _ _ _ _ _)))
    (by simp) (by simp) canonical
  obtain ⟨-, devWritten, outside⟩ := stores_advance stores
  refine ⟨t, _, ex, ends, ⟨by simp, ?_, ?_⟩, ?_, ?_, gauges⟩
  · rw [mem]; exact devWritten
  · rw [mem]; exact outside
  · rw [ms, ← aside_queues aside]
    simp only [hubSignal, hubSend, State.pushGin, State.setGin, State.setQueue, written]
  · rw [← advance_gauges s (ringNo ring)]
    simp only [State.setQueue, written]

/-- Form 2: the queue goes on at its next entry (R273). -/
theorem moveResume_resumes {s : State} {ring : Ring} {p : Pkt} {q : PumpQueue} (takes : Takes s ring 0x50 [(8, 1, 0), (9, 1, 0)] p)
    (form : p.b 8 1 = 2) (queue : s.queue? (p.b 9 1) = some q) (own : q.ctx = p.ctx) :
    ∃ t y, exec (.moveResume ring) s = .next t ∧ Ends s t ring p [.gauges, .pumpQueues, .transactions] stOk 0 0 0 ∧ y ≠ .none ∧
      t.ms.txns = s.ms.txns ∧ t.ms.queues = aput s.ms.queues (p.b 9 1) { q with halted := false, postWait := y } := by
  have aside := aside_advance s (ringNo ring)
  obtain ⟨y, waits, queued⟩ := armQueue_queued (advance s (ringNo ring)) (p.b 9 1) { q with halted := false } rfl
  obtain ⟨t, ex, ends, -, ms⟩ := ring_completes_with (o := exec (.moveResume ring) s) (st := stOk) (a := 0) (b := 0) rfl
    [.gauges, .pumpQueues, .transactions] takes (by simp [form]) (by rw [checked_takes takes, withQueue_own _ _ queue own]; rfl)
    queued.only (by simp) (by simp) (by rw [queued_mem queued]; exact advance_wf takes.canonical _)
  refine ⟨t, y, ex, ends, waits, ?_, ?_⟩
  · rw [ms, queued.txns, advance_ms]
  · rw [ms, queued.queues, aside_queues aside]

/-- The queue's waits dropped, and the queue with them. -/
def queueRemoved (s : State) (k : Nat) : State :=
  { dropHubWaits s (fun h => h.unit == 1 && h.q == k) with ms := { s.ms with queues := adel s.ms.queues k } }

theorem only_queueRemoved (s : State) (k : Nat) : Only [.gauges, .pumpQueues] s (queueRemoved s k) := by
  refine ⟨rfl, rfl, fun i hi => ?_⟩
  cases i <;> simp [Kind.same, queueRemoved, dropHubWaits, dropWaiters] at hi ⊢

theorem queueRemoved_mem (s : State) (k : Nat) : (queueRemoved s k).mem = s.mem := same_of_only (only_queueRemoved s k) (k := .mem) (by simp)

section
variable {s : State} {ring : Ring} {p : Pkt} {q : PumpQueue} (takes : Takes s ring 0x50 [(8, 1, 0), (9, 1, 0)] p) (form : p.b 8 1 = 3)
  (queue : s.queue? (p.b 9 1) = some q) (own : q.ctx = p.ctx)
include takes form queue own

/-- Form 3 removes a queue without transfers. -/
theorem moveRemove_removes (idle : q.transfers = []) :
    ∃ t, exec (.moveRemove ring) s = .next t ∧ Ends s t ring p [.gauges, .pumpQueues] stOk 0 0 0 ∧
      t.ms.queues = adel s.ms.queues (p.b 9 1) := by
  obtain ⟨t, ex, ends, -, ms⟩ := ring_completes_with (o := exec (.moveRemove ring) s) (st := stOk) (a := 0) (b := 0) rfl
    [.gauges, .pumpQueues] takes (by simp [form])
    (by rw [checked_takes takes, withQueue_own _ _ queue own, idle]; exact (if_neg (by simp)).trans rfl)
    (only_queueRemoved (advance s (ringNo ring)) (p.b 9 1)) (by simp) (by simp)
    (by rw [queueRemoved_mem]; exact advance_wf takes.canonical _)
  refine ⟨t, ex, ends, ?_⟩
  rw [ms, queueRemoved, advance_ms]

/-- A queue with a transfer in progress stays. -/
theorem moveRemove_busy (moves : q.transfers ≠ []) :
    ∃ t, exec (.moveRemove ring) s = .next t ∧ Ends s t ring p [] stBusy 0 0 0 := by
  refine ring_replies rfl takes (by simp [form]) ?_
  rw [checked_takes takes, withQueue_own _ _ queue own]
  exact if_pos (by simpa using moves)

end

section
variable {s : State} {ring : Ring} {p : Pkt} {st : Nat} (none : NoQueue s (ringNo ring) p st)
include none

theorem movePost_refuses (takes : Takes s ring 0x50 [(8, 1, 0), (9, 1, 0), (16, 128, 0)] p) (form : p.b 8 1 = 1) :
    ∃ t, exec (.movePost ring) s = .next t ∧ Ends s t ring p [] st 0 0 0 := by
  refine ring_replies rfl takes (by simp [form]) ?_
  rw [checked_takes takes, withQueue_refuses none]
  rfl

theorem moveResume_refuses (takes : Takes s ring 0x50 [(8, 1, 0), (9, 1, 0)] p) (form : p.b 8 1 = 2) :
    ∃ t, exec (.moveResume ring) s = .next t ∧ Ends s t ring p [] st 0 0 0 := by
  refine ring_replies rfl takes (by simp [form]) ?_
  rw [checked_takes takes, withQueue_refuses none]
  rfl

theorem moveRemove_refuses (takes : Takes s ring 0x50 [(8, 1, 0), (9, 1, 0)] p) (form : p.b 8 1 = 3) :
    ∃ t, exec (.moveRemove ring) s = .next t ∧ Ends s t ring p [] st 0 0 0 := by
  refine ring_replies rfl takes (by simp [form]) ?_
  rw [checked_takes takes, withQueue_refuses none]
  rfl

end

/-- Settles O11: each form's body on the state with the head moved past the packet. -/
theorem moveForms : Obligations.MoveForms := by
  unfold Obligations.MoveForms
  refine ⟨⟨fun ring s p g x takes => ?define, fun ring s p g takes => ?absent, fun ring s p takes => defineQueue_badRecord takes⟩,
    fun ring s p q g takes form queue own gauge ctxFits vidFits => ?post, fun ring s p q takes form queue own => ?resume,
    fun ring s p q takes form queue own idle sorted => ?remove, fun ring s p q takes form queue own => moveRemove_busy takes form queue own,
    fun ring s p st none => ⟨movePost_refuses none, moveResume_refuses none, moveRemove_refuses none⟩⟩
  case define =>
    intro k w form live ok gauge pump populated polder covers isOpen tiles
    refine ⟨fun free room => ?_, fun defined => ?_, fun free full => ?_⟩
    · obtain ⟨t, y, e, ends, txns, queues⟩ :=
        defineQueue_defines takes form live ok gauge pump populated polder covers isOpen tiles free room
      obtain ⟨self, others⟩ := queue?_put queues
      exact ⟨t, e, ends, txns, ⟨_, self, rfl, rfl, rfl, rfl, rfl, rfl, rfl, rfl, rfl⟩, others⟩
    · exact defineQueue_busy takes form live ok gauge pump populated polder covers isOpen tiles defined
    · exact defineQueue_full takes form live ok gauge pump populated polder covers isOpen tiles free full
  case absent =>
    intro w form live ok gauge absent
    exact defineQueue_absent takes form live ok gauge absent
  case post =>
    intro i d isOpen
    obtain ⟨t, z, e, ends, stores, queues, before, after⟩ := movePost_posts takes form queue own gauge rfl isOpen
    obtain ⟨self, others⟩ := queue?_put queues
    obtain ⟨m, sent, message⟩ := hubSignal_sends z 0 (p.b 9 1) 1 ctxFits vidFits
    refine ⟨t, e, ends, stores, self, others, fun j => ?_, m, ?_, message⟩
    · rw [State.gauge, after, State.gauge, ← before]
      rfl
    · rw [State.gin, after, State.gin, ← before]
      exact sent
  case resume =>
    obtain ⟨t, y, e, ends, waits, txns, queues⟩ := moveResume_resumes takes form queue own
    obtain ⟨self, others⟩ := queue?_put queues
    exact ⟨t, e, ends, txns, ⟨y, self, waits⟩, others⟩
  case remove =>
    obtain ⟨t, e, ends, queues⟩ := moveRemove_removes takes form queue own idle
    refine ⟨t, e, ends, ?_, fun j other => ?_⟩
    · rw [State.queue?, queues, aget?_adel_self _ _ sorted]
    · rw [State.queue?, queues, aget?_adel_other _ _ _ sorted other]
      rfl

end Sys2Proof.MemoryProofs
end

section
/-! PROOFS. PERST_N, the boot and READY (R262, R389, R398, R399, R401, R404, R412, R418, R420, R422). -/

namespace Sys2Proof.MemoryProofs

open Sys2Proof.Machine Sys2Proof.Safety Sys2Proof.Laws Sys2Proof.StoreProofs Sys2Proof.GaugeProofs Sys2Proof.FabricProofs

/-- A command of the board that leaves memory as it is ends with the state that its meaning gives. -/
theorem doneBoard_only {l : List Kind} {s x : State} (canonical : Canonical s) (only : Only l s x) (mem : Kind.mem ∉ l) : doneBoard s x = x := by
  obtain ⟨pending, part, same⟩ := only
  have kept : x.mem = s.mem := same .mem mem
  exact doneBoard_self pending part (by rw [kept]; exact canonical)

/-! ## PERST_N asserted (R404, R420) -/

/-- Host memory alone: the device's stores hold nothing. -/
def hostOnly (m : Memory) : Memory :=
  { cells := m.cells.filter (fun c => hostBase ≤ c.1), poison := m.poison.filter (fun g => hostBase ≤ 64 * g) }

theorem hostOnly_wf {m : Memory} (h : m.wf = true) : (hostOnly m).wf = true := by
  simp only [Memory.wf, hostOnly, Bool.and_eq_true, decide_eq_true_eq, List.all_eq_true] at h ⊢
  obtain ⟨⟨sorted, nonzero⟩, rising⟩ := h
  exact ⟨⟨filter_sorted _ _ sorted, fun c hc => nonzero c (List.mem_of_mem_filter hc)⟩, decide_eq_true (rising.filter _)⟩

theorem byte_hostOnly_device (m : Memory) {a : Nat} (h : a < hostBase) : (hostOnly m).byte a = 0 := by
  rw [Memory.byte, agetD, hostOnly, aget?_filter_none _ _ _ (fun _ => decide_eq_false (Nat.not_le.mpr h))]
  rfl

theorem byte_hostOnly_host {m : Memory} (wf : m.wf = true) {a : Nat} (h : hostBase ≤ a) : (hostOnly m).byte a = m.byte a := by
  simp only [Memory.wf, Bool.and_eq_true] at wf
  rw [Memory.byte, agetD, hostOnly, aget?_filter_kept _ _ _ wf.1.1 (fun _ => decide_eq_true h)]
  rfl

/-- The assertion leaves the state of an asserted PERST_N. -/
theorem exec_perstNAssert {s : State} (canonical : Canonical s) (released : s.power.perst = false) :
    exec .perstNAssert s = .next (perstState s) :=
  congrArg Host.Outcome.next ((congrArg (doneBoard s) (if_neg (by simp [released]))).trans
    (doneBoard_self rfl rfl (hostOnly_wf canonical)))

theorem perstState_resets (s : State) (k : Kind) (h : k ∉ [Kind.mem, Kind.security, Kind.power, Kind.free]) :
    k.same State.reset (perstState s) := by
  cases k <;> simp [Kind.same, perstState] at h ⊢

theorem only_security (s : State) (x : Security) : Only [.security] s { s with sec := x } := by
  refine ⟨rfl, rfl, fun k hk => ?_⟩
  cases k <;> simp [Kind.same] at hk ⊢

/-! ## PERST_N released (R292, R398, R399, R401, R412, R418, R422) -/

/-- The pins at a release: an input of the hub or the monitor that is wrong stops the device (R418). -/
def released (s : State) (b : Board) : State :=
  s.modPower (fun x => { x with perst := false, board := b, stopped := pgBad s 0 || pgBad s 2 })

theorem only_power (s : State) (x : Power) : Only [.power] s { s with power := x } := by
  refine ⟨rfl, rfl, fun k hk => ?_⟩
  cases k <;> simp [Kind.same] at hk ⊢

theorem pgBad_released (s : State) (b : Board) (i : Nat) : pgBad (released s b) i = pgBad s i := rfl

theorem release_stops {s : State} (b : Board) (canonical : Canonical s) (asserted : s.power.perst = true)
    (bad : pgBad s 0 = true ∨ pgBad s 2 = true) :
    ∃ t, exec (.perstNRelease b) s = .next t ∧ Only [.power] s t ∧
      t.power = { s.power with perst := false, board := b, stopped := true } := by
  have stops : (pgBad s 0 || pgBad s 2) = true := by simpa using bad
  have stopped : (released s b).stopped = true := by simp [State.stopped, released, State.modPower, stops]
  have only : Only [.power] s (released s b) := only_power s _
  refine ⟨released s b, congrArg Host.Outcome.next (Eq.trans ?_ (doneBoard_only canonical only (by simp))), only, ?_⟩
  · exact congrArg (doneBoard s) ((if_neg (by simp [asserted])).trans (if_pos stopped))
  · simp only [released, State.modPower, stops]

/-- The state in which the self-tests run: the host link up where the host trains it, else FAULT_N asserted (R292). -/
def trained (s : State) (b : Board) : State :=
  { s with
    power := { s.power with perst := false, board := b, stopped := false, faultN := s.power.faultN || !b.hostTrains }
    host := { s.host with link := if b.hostTrains then .up else s.host.link } }

theorem only_trained (s : State) (b : Board) : Only [.power, .hostLink] s (trained s b) := by
  refine ⟨rfl, rfl, fun k hk => ?_⟩
  cases k <;> simp [Kind.same, trained] at hk ⊢

theorem trainHost_released {s : State} (b : Board) (good : ∀ i, i < 11 → pgBad s i = false) : trainHost (released s b) = trained s b := by
  have runs : (pgBad s 0 || pgBad s 2) = false := by rw [good 0 (by decide), good 2 (by decide)]; rfl
  have pins : released s b = s.modPower (fun x => { x with perst := false, board := b, stopped := false }) := by rw [released, runs]
  rw [trainHost, pgBad_released, good 10 (by decide), pins]
  cases trains : b.hostTrains <;> simp [State.modPower, trained, trains]

/-- With every input as it should be, the host link trains, and the self-tests run. -/
theorem exec_release {s : State} (b : Board) (asserted : s.power.perst = true) (trip : s.power.trip = false)
    (good : ∀ i, i < 11 → pgBad s i = false) :
    exec (.perstNRelease b) s = .next (doneBoard s (selfTests (trained s b))) := by
  have runs : (released s b).stopped = false := by
    simp [State.stopped, released, State.modPower, good 0 (by decide), good 2 (by decide), trip]
  have noFault : [3, 10].find? (pgBad (released s b)) = none := by
    simp [pgBad_released, good 3 (by decide), good 10 (by decide)]
  have report : pgReport (released s b) = none := by
    rw [pgReport, noFault]
    exact List.find?_eq_none.mpr fun i hi => by rw [pgBad_released, good i (List.mem_range.mp hi)]; exact Bool.false_ne_true
  have pins : s.modPower (fun x => { x with perst := false, board := b, stopped := pgBad s 0 || pgBad s 2 }) = released s b := rfl
  simp only [exec, execPerstNRelease, asserted, pins, runs, noFault, report, trainHost_released b good, Bool.not_true, Bool.false_eq_true,
    if_false]

/-- A self-test that fails is recorded with its code, and starts no firmware (R398, R412). -/
theorem selfTests_fails (y : State) (fails : 1 ≤ y.power.board.selfTest.toNat ∧ y.power.board.selfTest.toNat ≤ 5) :
    Only [.power, .security, .log, .vectors] y (selfTests y) ∧
      (selfTests y).sec = { y.sec with passed := false, code := y.power.board.selfTest.toNat } ∧ (selfTests y).power.faultN = true := by
  rw [selfTests, if_pos (by simpa using fails)]
  have noted := only_event (y.modSec (fun x => { x with passed := false, code := y.power.board.selfTest.toNat })) 0x6001 14 4 none
    (detailOf [(1, y.power.board.selfTest.toNat)])
  refine ⟨only_trans (only_mono (by simp) (only_security y _)) (only_trans (only_mono (by simp) noted) (only_mono (by simp) (only_power _ _))),
    (same_of_only noted (k := .security) (by simp)).trans rfl, rfl⟩

/-- The tests passed, and the key that they leave (R398). -/
def tested (y : State) : State := y.modSec (fun x => { x with passed := true, key := !x.killed })

theorem selfTests_passes (y : State) (passes : y.power.board.selfTest.toNat = 0) : selfTests y = bootFirmware (tested y) := by
  rw [selfTests, if_neg (by simp [passes])]
  rfl

/-- A board without flash leaves the ROM waiting for its mailbox (R399). -/
theorem bootFirmware_waits (z : State) (flash : z.power.board.flash = false) :
    bootFirmware z = z.modSec (fun y => { y with noflash := true, awaitFw := true }) := if_pos (by simp [flash])

/-- The preferred bank's image starts where it passes its checks (R401). -/
theorem bootFirmware_starts (z : State) {x : FwImage} (flash : z.power.board.flash = true) (idle : z.sec.running = false)
    (bank : aget? z.sec.bank (z.sec.preferred % 2) = some x) (passes : fwFails z x = 0) :
    bootFirmware z = startFw z (z.sec.preferred % 2) x := by
  have running : (startFw z (z.sec.preferred % 2) x).sec.running = true := by
    have sec : (startFw z (z.sec.preferred % 2) x).sec = _ := same_of_only (only_event _ _ _ _ _ _) (k := .security) (by simp)
    rw [sec]
    rfl
  have first : tryBank z (z.sec.preferred % 2) = startFw z (z.sec.preferred % 2) x := by
    simp only [tryBank, bankImage, idle, bank, passes, Bool.false_eq_true, if_false]
  have second (k : Nat) : tryBank (startFw z (z.sec.preferred % 2) x) k = startFw z (z.sec.preferred % 2) x := if_pos running
  simp only [bootFirmware, flash, first, second, running, Bool.not_true, Bool.false_eq_true, if_false, if_true]

theorem startFw_runs (z : State) (k : Nat) (x : FwImage) : Only [.security, .log, .vectors] z (startFw z k x) ∧
    (startFw z k x).sec = { z.sec with
      source := k, measFw := x.measurement, fwVersion := x.version, awaitFw := false, running := true } := by
  have noted := only_event (z.modSec (fun y => { y with
    source := k, measFw := x.measurement, fwVersion := x.version, awaitFw := false, running := true })) 0x6010 14 4 none
    (detailOf [(1, k), (8, head8 x.measurement)])
  exact ⟨only_trans (only_mono (by simp) (only_security z _)) (only_mono (by simp) noted),
    (same_of_only noted (k := .security) (by simp)).trans rfl⟩

/-! ## READY (R262, R389, R422, R430) -/

theorem only_retireTile (s : State) (p rec : Nat) : Only [.tiles, .log, .vectors] s (retireTile s p rec) := by
  obtain ⟨l, a, b, e⟩ := retireTile_shape s p rec
  rw [e]
  refine ⟨rfl, rfl, fun k hk => ?_⟩
  cases k <;> simp [Kind.same, State.setTile] at hk ⊢

theorem only_displaced (s : State) (d : Assoc Nat) : Only [.displaced] s { s with displaced := d } := by
  refine ⟨rfl, rfl, fun k hk => ?_⟩
  cases k <;> simp [Kind.same] at hk ⊢

/-- A field die before its tiles are tested: its stores zero, its displacements gone (R376, R423). -/
theorem only_dieCleared (s : State) (m : Memory) (tl : Assoc Tile) (mv : List Move) (d : Assoc Nat) :
    Only [.mem, .tiles, .displaced] s { s with mem := m, tiles := tl, moves := mv, displaced := d } := by
  refine ⟨rfl, rfl, fun k hk => ?_⟩
  cases k <;> simp [Kind.same] at hk ⊢

theorem only_bringUpDie (s : State) (d : Nat) (bad : List Nat) : Only [.mem, .tiles, .displaced, .log, .vectors] s (bringUpDie s d bad) :=
  only_trans (only_mono (by simp) (only_dieCleared s _ _ _ _))
    (only_trans (only_foldl (fun x p => only_mono (by simp) (only_retireTile x p noRecord)) _ _) (only_mono (by simp) (only_displaced _ _)))

theorem only_leaveOut (s : State) (cls i : Nat) : Only [.units] s (leaveOut s cls i) := by
  refine ⟨rfl, rfl, fun k hk => ?_⟩
  cases k <;> simp [Kind.same, leaveOut, State.setUnit] at hk ⊢

theorem only_bringUpMem (s : State) (u cap : Nat) : Only [.mem, .memUnits] s (bringUpMem s u cap) := by
  refine ⟨rfl, rfl, fun k hk => ?_⟩
  cases k <;> simp [Kind.same, bringUpMem, State.setMunit] at hk ⊢

/-- The kinds of state that the bring-up of the units touches. -/
abbrev bootKinds : List Kind := [.mem, .tiles, .displaced, .log, .vectors, .units, .memUnits]

theorem only_bootDies (s : State) : Only bootKinds s (bootDies s) := by
  refine only_foldl (fun x d => ?_) _ _
  have up := only_bringUpDie x d (x.power.board.generatorFail.map (·.toNat))
  dsimp only
  split
  · exact only_mono (by simp) (only_leaveOut _ _ _)
  · split
    · exact only_mono (by simp) up
    · exact only_trans (only_mono (by simp) up) (only_mono (by simp) (only_leaveOut _ _ _))

theorem only_bootMemory (s : State) : Only bootKinds s (bootMemory s) := by
  refine only_trans (only_foldl (fun x u => ?_) _ _) (only_foldl (fun x u => ?_) _ _)
  · split
    · exact only_mono (by simp) (only_leaveOut _ _ _)
    · exact only_mono (by simp) (only_bringUpMem _ _ _)
  · split
    · exact only_mono (by simp) (only_leaveOut _ _ _)
    · exact only_mono (by simp) (only_bringUpMem _ _ _)

theorem only_segments (s : State) (g : Assoc (BitVec 5)) : Only [.segments] s { s with ms := { s.ms with segs := g } } := by
  refine ⟨rfl, rfl, fun k hk => ?_⟩
  cases k <;> simp [Kind.same] at hk ⊢

theorem only_defaultSegs (s : State) (tier : Nat) : Only [.segments] s (defaultSegs s tier) := only_segments s _

/-- The units brought up, and the segments of both tiers. -/
def booted (s : State) : State := defaultSegs (defaultSegs (bootMemory (bootDies s)) 0) 1

theorem only_booted (s : State) : Only (.segments :: bootKinds) s (booted s) :=
  only_trans (only_mono (by simp) (only_trans (only_bootDies s) (only_bootMemory _)))
    (only_trans (only_mono (by simp) (only_defaultSegs _ _)) (only_mono (by simp) (only_defaultSegs _ _)))

theorem booted_units (s : State) : (booted s).ms.units = (bootMemory (bootDies s)).ms.units :=
  have first : Kind.same (bootMemory (bootDies s)) _ .memUnits := same_of_only (only_defaultSegs _ 0) (by simp)
  have second : Kind.same _ (booted s) .memUnits := same_of_only (only_defaultSegs _ 1) (by simp)
  second.trans first

/-- A device in service at a level: FAULT_N is asserted at level 0 (R389, R422). -/
def inService (x : State) (level : Nat) : State :=
  { x with ready := true, power := { x.power with level := level, faultN := x.power.faultN || level == 0 } }

theorem only_inService (x : State) (level : Nat) : Only [.power, .status] x (inService x level) := by
  refine ⟨rfl, rfl, fun k hk => ?_⟩
  cases k <;> simp [Kind.same, inService] at hk ⊢

/-- READY puts the units in service at the level they give, or 0 without a host link or with a test failed. -/
theorem exec_ready {s : State} (running : s.sec.running = true) (once : s.ready = false) (sound : s.devFault = false) :
    exec .ready s = .next (done s (inService (booted s) (if hostUp s = true ∧ s.sec.passed = true then unitLevel (booted s) else 0))) := by
  have link : (booted s).host.link = s.host.link := same_of_only (only_booted s) (k := .hostLink) (by simp)
  have sec : (booted s).sec = s.sec := same_of_only (only_booted s) (k := .security) (by simp)
  have up : (hostUp (booted s).setLevel && (booted s).setLevel.sec.passed) = (hostUp s && s.sec.passed) := by
    simp only [hostUp, State.setLevel, link, sec]
  have boots : defaultSegs (defaultSegs (bootMemory (bootDies s)) 0) 1 = booted s := rfl
  simp only [exec, execReady, running, once, sound, boots, up, ← Bool.and_eq_true]
  generalize booted s = x
  cases hostUp s && s.sec.passed with
  | false => simp only [Bool.not_true, Bool.or_false, Bool.false_eq_true, if_false, State.modPower, State.setLevel, inService]
  | true => simp only [Bool.not_true, Bool.or_false, Bool.false_eq_true, if_false, if_true, State.modPower, State.setLevel, inService]

/-- Settles O34: the boot is a chain of steps, each with its own lemma of what it changes. -/
theorem resetAndBoot : Obligations.ResetAndBoot := by
  unfold Obligations.ResetAndBoot
  refine ⟨fun s canonical standing => ?assert, fun b s canonical asserted => ⟨release_stops b canonical asserted, fun trip good => ?release⟩,
    fun s canonical runs running once sound => ?ready⟩
  case assert =>
    exact ⟨perstState s, exec_perstNAssert canonical standing, rfl, rfl, perstState_resets s, rfl, fun a h => byte_hostOnly_device s.mem h,
      fun a h => byte_hostOnly_host canonical h, rfl, rfl⟩
  case release =>
    have boots := exec_release b asserted trip good
    have train := only_trained s b
    refine ⟨fun fails => ?_, fun passes flash => ?_, fun x passes flash bank checks idle => ?_⟩
    · obtain ⟨only, sec, faultN⟩ := selfTests_fails (trained s b) fails
      have all := only_trans (only_mono (l' := [.power, .security, .hostLink, .log, .vectors]) (by simp) train) (only_mono (by simp) only)
      rw [doneBoard_only canonical all (by simp)] at boots
      exact ⟨_, boots, all, sec, faultN⟩
    · rw [selfTests_passes (trained s b) passes, bootFirmware_waits (tested (trained s b)) flash] at boots
      have all : Only [.power, .security, .hostLink] s
          ((tested (trained s b)).modSec (fun y => { y with noflash := true, awaitFw := true })) :=
        only_trans (only_mono (by simp) train) (only_mono (by simp) (only_security _ _))
      rw [doneBoard_only canonical all (by simp)] at boots
      exact ⟨_, boots, all, rfl, rfl, rfl⟩
    · rw [selfTests_passes (trained s b) passes, bootFirmware_starts (tested (trained s b)) flash idle bank checks] at boots
      obtain ⟨only, sec⟩ := startFw_runs (tested (trained s b)) ((tested (trained s b)).sec.preferred % 2) x
      have all := only_trans (only_mono (l' := [.power, .security, .hostLink, .log, .vectors]) (by simp) train)
        (only_trans (only_mono (by simp) (only_security _ (tested (trained s b)).sec)) (only_mono (by simp) only))
      rw [doneBoard_only canonical all (by simp)] at boots
      exact ⟨_, boots, all, same_of_only only (k := .hostLink) (by simp), same_of_only only (k := .power) (by simp), sec⟩
  case ready =>
    have boots := exec_ready running once sound
    have boot := only_booted s
    have serve := only_inService (booted s) (if hostUp s = true ∧ s.sec.passed = true then unitLevel (booted s) else 0)
    have power : (booted s).power = s.power := same_of_only boot (k := .power) (by simp)
    obtain ⟨devFault, -⟩ : Kind.same s (booted s) .status := same_of_only boot (k := .status) (by simp)
    have memUnits : (booted s).ms.units = (bootMemory (bootDies s)).ms.units := booted_units s
    have segs : (booted s).ms.segs = (defaultSegs (defaultSegs (bootMemory (bootDies s)) 0) 1).ms.segs := by rw [booted]
    generalize booted s = x at *
    generalize level : (if hostUp s = true ∧ s.sec.passed = true then unitLevel (x) else 0) = n at boots serve
    have frame : Only [.tiles, .displaced, .mem, .units, .memUnits, .segments, .power, .status, .log, .vectors, .snoops] s
        (done s (inService (x) n)) :=
      Machine.done_only runs canonical (by simp) (fun k hk => same_trans (same_of_only boot (by simp at hk ⊢; tauto))
        (same_of_only serve (by simp at hk ⊢; tauto)))
    have units : unitLevel (done s (inService (x) n)) = unitLevel (x) :=
      level_congr ((done_part _ _).trans boot.2.1.symm) (done_units _ _ runs) (by rw [done_ms _ _ runs]; rfl) (done_tiles _ _ runs)
    refine ⟨_, boots, frame, ?_, ?_, ?_, ?_, ?_, ?_⟩
    · rw [done_ready _ _ runs]
      rfl
    · rw [done_devFault _ _ runs]
      exact devFault.trans sound
    · rw [units, level, done_power _ _ runs]
      rfl
    · rw [done_power _ _ runs, ← power]
      rfl
    · rw [done_ms _ _ runs]
      exact memUnits
    · rw [done_ms _ _ runs]
      exact segs

end Sys2Proof.MemoryProofs
end

section
/-! SUPPORT. What the operations on pump queues, transfers and transactions change (R268-R273). -/

namespace Sys2Proof.MemoryProofs

open Sys2Proof.Machine Sys2Proof.Safety Sys2Proof.Laws Sys2Proof.StoreProofs Sys2Proof.GaugeProofs

/-! ## Queues -/

theorem only_setQueue (s : State) (k : Nat) (q : PumpQueue) : Only [.pumpQueues] s (s.setQueue k q) := by
  refine ⟨rfl, rfl, fun i hi => ?_⟩
  cases i <;> simp [Kind.same, State.setQueue] at hi ⊢

@[simp] theorem queue?_setQueue (s : State) (k : Nat) (q : PumpQueue) : (s.setQueue k q).queue? k = some q := aget?_aput_self _ _ _

theorem only_modQueue (s : State) (k : Nat) (f : PumpQueue → PumpQueue) : Only [.pumpQueues] s (s.modQueue k f) := by
  unfold State.modQueue
  split
  · exact only_setQueue _ _ _
  · exact only_refl _ s

theorem queue?_modQueue {s : State} {k : Nat} {q : PumpQueue} (f : PumpQueue → PumpQueue) (h : s.queue? k = some q) :
    (s.modQueue k f).queue? k = some (f q) := by
  rw [State.modQueue, h]
  exact queue?_setQueue _ _ _

theorem queue?_of_only {l : List Kind} {s x : State} (h : Only l s x) (hl : Kind.pumpQueues ∉ l) (k : Nat) : x.queue? k = s.queue? k := by
  have queues : x.ms.queues = s.ms.queues := same_of_only h hl
  rw [State.queue?, queues]
  rfl

theorem txns_of_only {l : List Kind} {s x : State} (h : Only l s x) (hl : Kind.transactions ∉ l) : x.ms.txns = s.ms.txns :=
  (same_of_only (k := .transactions) h hl).1

theorem only_bumpPump (s : State) (k n : Nat) : Only [.memCounters] s (bumpPump s k n) := by
  refine ⟨rfl, rfl, fun i hi => ?_⟩
  cases i <;> simp [Kind.same, bumpPump] at hi ⊢

theorem only_bumpPage (s : State) (k n : Nat) : Only [.memCounters] s (bumpPage s k n) := by
  refine ⟨rfl, rfl, fun i hi => ?_⟩
  cases i <;> simp [Kind.same, bumpPage] at hi ⊢

theorem only_served (s : State) (key k : Nat) : Only [.arbiters] s (served s key k) := by
  refine ⟨rfl, rfl, fun i hi => ?_⟩
  cases i <;> simp [Kind.same, served] at hi ⊢

theorem only_txns (s : State) (l : List Txn) (n : Nat) : Only [.transactions] s { s with ms := { s.ms with txns := l, nextId := n } } := by
  refine ⟨rfl, rfl, fun i hi => ?_⟩
  cases i <;> simp [Kind.same] at hi ⊢

theorem only_modTransfer (s : State) (k id : Nat) (f : Transfer → Transfer) : Only [.pumpQueues] s (s.modTransfer k id f) :=
  only_modQueue s k _

/-- A queue that is on, and does not wait, sends the WAIT for its next entry. -/
theorem armQueue_idle {s : State} {k : Nat} {q : PumpQueue} (queue : s.queue? k = some q) (on : q.halted = false) (idle : q.postWait = .none) :
    armQueue s k = hubWait (s.setQueue k { q with postWait := .waiting }) 1 1 k q.ctx q.post (q.consumed + 1) 0 := by
  simp only [armQueue, queue, on, idle]
  exact if_neg (by simp)

/-- Such a queue then waits, and no transaction differs. -/
theorem armQueue_waits {s : State} {k : Nat} {q : PumpQueue} (queue : s.queue? k = some q) (on : q.halted = false) (idle : q.postWait = .none) :
    Only [.pumpQueues, .gauges, .transactions] s (armQueue s k) ∧ (armQueue s k).ms.txns = s.ms.txns ∧
      (armQueue s k).queue? k = some { q with postWait := .waiting } := by
  rw [armQueue_idle queue on idle]
  exact ⟨only_trans (only_mono (by simp) (only_setQueue s k _)) (only_mono (by simp) (only_hubWait _ _ _ _ _ _ _ _)), rfl,
    queue?_setQueue s k _⟩

end Sys2Proof.MemoryProofs
end

section
/-! PROOFS. Pump queues: entries taken, transfers started and completed, gathers (R271-R273, R276, R283, R285-R288). -/

namespace Sys2Proof.MemoryProofs

open Sys2Proof.Machine Sys2Proof.Safety Sys2Proof.Laws Sys2Proof.StoreProofs Sys2Proof.GaugeProofs

/-! ## Taking an entry (R271) -/

/-- The queue after it has taken entry e. -/
def entryTaken (x : PumpQueue) (e : Taken) : PumpQueue :=
  { x with consumed := x.consumed + 1, postWait := .none, head := some e
           headWait := if pdWaits e.desc && !e.bad then .waiting else .met }

/-- The state in which queue k has taken entry e, its wait sent where the entry asks for one. -/
def takeEntry (s : State) (k : Nat) (x : PumpQueue) (e : Taken) : State :=
  let y := (touchDev (served s (64 + x.pump) k) (x.base + 128 * e.entry) 128).setQueue k (entryTaken x e)
  if pdWaits e.desc && !e.bad then hubWait y 1 2 k x.ctx (pdWaitVid e.desc) (pdTarget e.desc) 0 else y

theorem takeEntry_takes (s : State) (k : Nat) (x : PumpQueue) (e : Taken) :
    Only [.pumpQueues, .gauges, .transactions, .snoops, .arbiters] s (takeEntry s k x e) ∧ (takeEntry s k x e).ms.txns = s.ms.txns ∧
      (takeEntry s k x e).queue? k = some (entryTaken x e) := by
  have turn := only_served s (64 + x.pump) k
  have read := only_touchDev (served s (64 + x.pump) k) (x.base + 128 * e.entry) 128
  have put := only_setQueue (touchDev (served s (64 + x.pump) k) (x.base + 128 * e.entry) 128) k (entryTaken x e)
  have only := only_trans (only_mono (l' := [.pumpQueues, .gauges, .transactions, .snoops, .arbiters]) (by simp) turn)
    (only_trans (only_mono (by simp) read) (only_mono (by simp) put))
  have txns := (txns_of_only put (by simp)).trans ((txns_of_only read (by simp)).trans (txns_of_only turn (by simp)))
  unfold takeEntry
  dsimp only
  split
  · exact ⟨only_trans only (only_mono (by simp) (only_hubWait _ _ _ _ _ _ _ _)), txns, queue?_setQueue _ k _⟩
  · exact ⟨only, txns, queue?_setQueue _ k _⟩

/-! ## Descriptors refused (R273) -/

/-- A refused descriptor noted: the queue halted with the code and the entry, the count, and the event. -/
def refusal (s : State) (k : Nat) (q : PumpQueue) (x : Taken) (code : Nat) : State :=
  (bumpPump (s.setQueue k { q with head := none, headWait := .none, halted := true, code := code, entry := x.entry }) 3 1).event 0x3171 14
    (pumpSrc q.pump) (some q.ctx) (detailOf [(1, k), (2, x.entry), (1, code)])

/-- The entries of its footprints that were read with poison noted (R283). -/
def pagesNoted (s : State) (d : List Byte) : State :=
  (pageFeet d).foldl (fun y f => match y.table? f.1, f.2 with
    | some t, some (lo, hi) => notePoisonEntries y t (entryRange lo (min (hi + 1) t.entries - lo))
    | _, _ => y) s

/-- The tile counted whose closed area the descriptor, read in state s, names. -/
def closedCounted (s z : State) (d : List Byte) : State :=
  match (((deviceFeet d).getD []).flatMap (fun f => (blocks f.1 f.2).filterMap (fun b =>
      if s.tileOpen b.1 b.2 then none else tileAt b.1))).head? with
  | some (n, _) => z.modTile (z.phys n) (fun t => t.modRegs (fun r => { r with refused := sat32 r.refused 1 }))
  | none => z

theorem refuseDesc_eq (s : State) (k : Nat) (q : PumpQueue) (x : Taken) (code : Nat) : refuseDesc s k q x code =
    if code == 4 then closedCounted s (if code == 5 then pagesNoted (refusal s k q x code) x.desc else refusal s k q x code) x.desc
    else if code == 5 then pagesNoted (refusal s k q x code) x.desc else refusal s k q x code := rfl

theorem only_pagesNoted (s : State) (d : List Byte) : Only [.log] s (pagesNoted s d) := by
  refine FabricProofs.only_foldl (fun y f => ?_) _ _
  split
  · exact only_notePoison _ _ _
  · exact only_refl _ y

theorem only_closedCounted (s z : State) (d : List Byte) : Only [.tiles] z (closedCounted s z d) := by
  unfold closedCounted
  split
  · exact TileProofs.only_setTile _ _ _
  · exact only_refl _ z

theorem only_refusal (s : State) (k : Nat) (q : PumpQueue) (x : Taken) (code : Nat) :
    Only [.pumpQueues, .memCounters, .log] s (refusal s k q x code) :=
  only_trans (only_mono (by simp) (only_setQueue s k _)) (only_trans (only_mono (by simp) (only_bumpPump _ 3 1))
    (only_mono (by simp) (only_log (by decide) _ _ _ _ _)))

theorem queue?_refusal (s : State) (k : Nat) (q : PumpQueue) (x : Taken) (code : Nat) : (refusal s k q x code).queue? k =
    some { q with head := none, headWait := .none, halted := true, code := code, entry := x.entry } :=
  (queue?_of_only (only_log (by decide) _ _ _ _ _) (by simp) k).trans
    ((queue?_of_only (only_bumpPump _ 3 1) (by simp) k).trans (queue?_setQueue s k _))

/-- What a refusal leaves: the queue halted; tiles, but for the closed area's count; and its event, but for the entries noted. -/
structure Refuses (s y : State) (k : Nat) (q : PumpQueue) (x : Taken) (code : Nat) : Prop where
  only : Only [.pumpQueues, .memCounters, .log, .tiles] s y
  queue : y.queue? k = some { q with head := none, headWait := .none, halted := true, code := code, entry := x.entry }
  tiles : code ≠ 4 → Kind.tiles.same s y
  log : code ≠ 5 → s.log.queue.length < 64 → y.log.queue = s.log.queue ++ [⟨entryBytes s.tideCount.toNat s.tidePhase (some q.ctx) 0x3171 14
    (pumpSrc q.pump) (detailOf [(1, k), (2, x.entry), (1, code)]), false⟩]

theorem refuseDesc_refuses (s : State) (k : Nat) (q : PumpQueue) (x : Taken) (code : Nat) :
    Refuses s (refuseDesc s k q x code) k q x code := by
  have note := only_refusal s k q x code
  have queue := queue?_refusal s k q x code
  have log (room : s.log.queue.length < 64) := event_queued (code := 0x3171) (by decide)
    (s := bumpPump (s.setQueue k { q with head := none, headWait := .none, halted := true, code := code, entry := x.entry }) 3 1) room 14
    (pumpSrc q.pump) (some q.ctx) (detailOf [(1, k), (2, x.entry), (1, code)])
  rw [refuseDesc_eq]
  by_cases four : code = 4
  · have count := only_closedCounted s (refusal s k q x code) x.desc
    have counted : Kind.log.same (refusal s k q x code) (closedCounted s (refusal s k q x code) x.desc) := same_of_only count (by simp)
    rw [if_pos (by simpa using four), if_neg (by simp [four])]
    exact ⟨only_trans (only_mono (by simp) note) (only_mono (by simp) count), (queue?_of_only count (by simp) k).trans queue,
      fun h => absurd four h, fun _ room => (congrArg Log.queue counted).trans (log room)⟩
  · rw [if_neg (by simpa using four)]
    by_cases five : code = 5
    · have pages := only_pagesNoted (refusal s k q x code) x.desc
      rw [if_pos (by simpa using five)]
      exact ⟨only_trans (only_mono (by simp) note) (only_mono (by simp) pages), (queue?_of_only pages (by simp) k).trans queue,
        fun _ => same_trans (same_of_only note (by simp)) (same_of_only pages (by simp)), fun h => absurd five h⟩
    · rw [if_neg (by simpa using five)]
      exact ⟨only_mono (by simp) note, queue, fun _ => same_of_only note (by simp), fun _ => log⟩

/-! ## Descriptors started (R272, R276) -/

/-- A descriptor that may not merge takes no entry behind it. -/
theorem mergeChain_alone {d : List Byte} (alone : pdNomerge d = true) (w : List Taken) (len : Nat) : mergeChain d w len = (0, len) := by
  cases w with
  | nil => rfl
  | cons e w =>
    rw [mergeChain]
    exact if_neg (by simp [mergesBehind, alone])

theorem mergeMulti_alone {d : List Byte} (alone : pdNomerge d = true) (w : List Taken) : mergeMulti d w = none :=
  if_pos (by simp [mcAlike, alone])

/-- A transfer that writes no page space reserves nothing. -/
theorem reserveAll_none {d : List Byte} (space : pdDstSpace d ≠ 3) (s : State) : reserveAll s d = some ([], s) := by
  have shared : sharedWrites s d = [] := if_neg (by simp [space])
  unfold reserveAll
  rw [shared]
  split <;> rfl

/-- The transfer that starts of a descriptor that moves data. -/
def movingTransfer (s : State) (x : PumpQueue) (k : Nat) (d : List Byte) (sigs : List (Nat × Nat)) : Transfer :=
  { id := s.ms.nextId, desc := d, sigs := sigs
    outstanding := (chunkTxns s x k s.ms.nextId (s.ms.nextId + 1) d).length * (chunkDst d (pdDst d)).acks
    complete := false, reserved := [], after := [], poisonLogged := false, discLogged := false }

/-- A transfer that starts: its transactions behind those there are, and itself behind the queue's. -/
theorem startTransfer_starts {s : State} {x : PumpQueue} {k : Nat} {d : List Byte} (sigs : List (Nat × Nat)) (queue : s.queue? k = some x)
    (moves : pdOp d = 1 ∨ pdOp d = 2) :
    Only [.pumpQueues, .transactions, .arbiters] s (startTransfer s x k d sigs []) ∧
      (startTransfer s x k d sigs []).ms.txns = s.ms.txns ++ chunkTxns s x k s.ms.nextId (s.ms.nextId + 1) d ∧
      (startTransfer s x k d sigs []).queue? k =
        some { x with head := none, headWait := .none, transfers := x.transfers ++ [movingTransfer s x k d sigs] } := by
  have moving : (pdOp d == 1 || pdOp d == 2) = true := by simpa using moves
  have turn := only_served s x.pump k
  have joined := only_txns (served s x.pump k) (s.ms.txns ++ chunkTxns s x k s.ms.nextId (s.ms.nextId + 1) d)
    (s.ms.nextId + 1 + (chunkTxns s x k s.ms.nextId (s.ms.nextId + 1) d).length)
  have starts : startTransfer s x k d sigs [] = State.modQueue { served s x.pump k with ms := { (served s x.pump k).ms with
      txns := s.ms.txns ++ chunkTxns s x k s.ms.nextId (s.ms.nextId + 1) d
      nextId := s.ms.nextId + 1 + (chunkTxns s x k s.ms.nextId (s.ms.nextId + 1) d).length } } k
      (fun q => { q with transfers := q.transfers ++ [movingTransfer s x k d sigs], head := none, headWait := .none }) := by
    simp only [startTransfer, moving, if_true]
    rfl
  have put := only_modQueue { served s x.pump k with ms := { (served s x.pump k).ms with
      txns := s.ms.txns ++ chunkTxns s x k s.ms.nextId (s.ms.nextId + 1) d
      nextId := s.ms.nextId + 1 + (chunkTxns s x k s.ms.nextId (s.ms.nextId + 1) d).length } } k
      (fun q => { q with transfers := q.transfers ++ [movingTransfer s x k d sigs], head := none, headWait := .none })
  rw [starts]
  refine ⟨only_trans (only_mono (by simp) turn) (only_trans (only_mono (by simp) joined) (only_mono (by simp) put)),
    txns_of_only put (by simp), queue?_modQueue _ ?_⟩
  exact (queue?_of_only joined (by simp) k).trans ((queue?_of_only turn (by simp) k).trans queue)

/-- The signal of a descriptor that starts alone. -/
theorem sigs_alone (e : Taken) : ([e].map (·.desc)).filterMap pdSig = (pdSig e.desc).toList := by
  rw [List.map_singleton]
  cases h : pdSig e.desc <;> simp [h]

section
variable {q : Byte} {s : State} {x : PumpQueue} (canonical : Canonical s) (runs : Runs s) (queue : s.queue? q.toNat = some x)
include canonical runs queue

section
variable (on : x.halted = false) (empty : x.head = none) (met : x.postWait = .met) (pump : s.unitOn 4 x.pump = true)
  (turn : nextQueue s x.pump (aget? s.ms.lastQueue (64 + x.pump)) canTake = some q.toNat)
include on empty met pump turn

/-- A wait met before its entries were posted is sent again. -/
theorem queueEntryTake_waits (early : postedAhead s x = 0) :
    ∃ t, exec (.queueEntryTake q none) s = .next t ∧ Only [.pumpQueues, .gauges, .transactions] s t ∧
      t.ms.txns = s.ms.txns ∧ t.queue? q.toNat = some { x with postWait := .waiting } := by
  have put := only_setQueue s q.toNat { x with postWait := .none }
  obtain ⟨only, txns, waits⟩ := armQueue_waits (queue?_setQueue s q.toNat { x with postWait := .none }) on rfl
  have all := only_trans (only_mono (by simp) put) only
  refine ⟨_, congrArg Host.Outcome.next ((congrArg (done s) ?_).trans (FabricProofs.done_only runs canonical all (by simp))), all, txns, waits⟩
  simp only [queue]
  exact (if_neg (by simp [canTake, on, empty, met, pump, turn])).trans (if_pos (by simp [early]))

/-- The entry that the post gauge shows is taken, and the queue waits for the next. -/
theorem queueEntryTake_takes (posted : postedAhead s x ≠ 0) {e : Taken} (entry : e = readEntry s x (x.consumed.toNat % 2 ^ x.size)) :
    ∃ t, exec (.queueEntryTake q none) s = .next t ∧ Only [.pumpQueues, .gauges, .transactions, .snoops, .arbiters] s t ∧
      t.ms.txns = s.ms.txns ∧ t.queue? q.toNat = some { entryTaken x e with postWait := .waiting } := by
  obtain ⟨taken, same, head⟩ := takeEntry_takes s q.toNat x e
  obtain ⟨only, txns, waits⟩ := armQueue_waits head on rfl
  have all := only_trans taken (only_mono (by simp) only)
  refine ⟨_, congrArg Host.Outcome.next ((congrArg (done s) ?_).trans (FabricProofs.done_only runs canonical all (by simp))), all,
    txns.trans same, waits⟩
  simp only [queue]
  refine (if_neg (by simp [canTake, on, empty, met, pump, turn])).trans ((if_neg (by simpa using posted)).trans ?_)
  rw [entry]
  rfl

end

/-! ## Starting a descriptor (R272, R273, R276) -/

section
variable {e : Taken} (head : x.head = some e) (on : x.halted = false) (met : x.headWait = .met) (idle : x.held = false)
  (room : pumpBusy s x.pump < 16) (pump : s.unitOn 4 x.pump = true)
  (turn : nextQueue s x.pump (aget? s.ms.lastQueue x.pump) canStart = some q.toNat)
include head on met idle room pump turn

/-- A descriptor that fails its checks halts its queue (R273). -/
theorem descriptorStart_refuses (bad : descCode s x e ≠ 0) : ∃ t, exec (.descriptorStart q none) s = .next t ∧
    Only [.pumpQueues, .memCounters, .log, .tiles, .arbiters] s t ∧ Refuses (served s x.pump q.toNat) t q.toNat x e (descCode s x e) := by
  have refuses := refuseDesc_refuses (served s x.pump q.toNat) q.toNat x e (descCode s x e)
  have all := only_trans (only_mono (l' := [.pumpQueues, .memCounters, .log, .tiles, .arbiters]) (by simp) (only_served s x.pump q.toNat))
    (only_mono (by simp) refuses.only)
  refine ⟨_, congrArg Host.Outcome.next ((congrArg (done s) ?_).trans (FabricProofs.done_only runs canonical all (by simp))), all, refuses⟩
  simp only [queue, head]
  exact (if_neg (by simp [canStart, on, head, met, idle, Nat.not_le.mpr room, pump, turn])).trans (if_pos (by simpa [errorIn] using bad))

/-- One that passes, may not merge, and writes no page space starts its transfer. -/
theorem descriptorStart_starts (good : descCode s x e = 0) (alone : pdNomerge e.desc = true) (moves : pdOp e.desc = 1 ∨ pdOp e.desc = 2)
    (space : pdDstSpace e.desc ≠ 3) : ∃ t, exec (.descriptorStart q none) s = .next t ∧
      Only [.pumpQueues, .memCounters, .transactions, .arbiters] s t ∧
      t.ms.txns = s.ms.txns ++ chunkTxns s x q.toNat s.ms.nextId (s.ms.nextId + 1) e.desc ∧
      t.queue? q.toNat = some { x with head := none, headWait := .none
                                       transfers := x.transfers ++ [movingTransfer s x q.toNat e.desc (pdSig e.desc).toList] } := by
  have count := only_bumpPump s 0 1
  obtain ⟨only, txns, started⟩ := startTransfer_starts (s := bumpPump s 0 1) (pdSig e.desc).toList queue moves
  have all := only_trans (only_mono (l' := [.pumpQueues, .memCounters, .transactions, .arbiters]) (by simp) count) (only_mono (by simp) only)
  refine ⟨_, congrArg Host.Outcome.next ((congrArg (done s) ?_).trans (FabricProofs.done_only runs canonical all (by simp))), all, txns, started⟩
  simp only [queue, head]
  refine (if_neg (by simp [canStart, on, head, met, idle, Nat.not_le.mpr room, pump, turn])).trans
    ((if_neg (by simpa [errorIn] using good)).trans ?_)
  simp only [mergeChain_alone alone, mergeMulti_alone alone, reserveAll_none space, List.take_zero, sigs_alone]
  exact if_neg (by simp)

end

/-! ## Transfers completed (R272) -/

variable {y : Transfer} {rest : List Transfer} (transfers : x.transfers = y :: rest) (complete : y.complete = true) (kept : y.reserved = [])
include transfers complete kept

omit canonical runs in
/-- The oldest transfer, complete and with nothing reserved, leaves the queue. -/
theorem exec_transferComplete : exec (.transferComplete q) s = .next (done s
    (y.sigs.foldl (fun z g => hubSignal z 1 q.toNat x.ctx g.1 g.2) (s.setQueue q.toNat { x with transfers := rest }))) := by
  refine congrArg (fun z => Host.Outcome.next (done s z)) ?_
  simp only [queue, transfers, returnReserved, kept, List.foldl_nil]
  exact if_pos complete

theorem transferComplete_quiet (sigs : y.sigs = []) : ∃ t, exec (.transferComplete q) s = .next t ∧ Only [.pumpQueues] s t ∧
    t.queue? q.toNat = some { x with transfers := rest } := by
  have put := only_setQueue s q.toNat { x with transfers := rest }
  have e := exec_transferComplete queue transfers complete kept
  rw [sigs, List.foldl_nil, FabricProofs.done_only runs canonical put (by simp)] at e
  exact ⟨_, e, put, queue?_setQueue _ _ _⟩

theorem transferComplete_signals {vid n : Nat} (sigs : y.sigs = [(vid, n)]) (vidFits : vid < 2048) (ctxFits : x.ctx < 64) :
    ∃ t m, exec (.transferComplete q) s = .next t ∧ Only [.pumpQueues, .gauges] s t ∧
      t.queue? q.toNat = some { x with transfers := rest } ∧ (∀ g, t.gauge g = s.gauge g) ∧
      t.gin 4 = s.gin 4 ++ [m] ∧ gOp m = 0 ∧ gVid m = vid ∧ gOperand m = BitVec.ofNat 32 n ∧ gCtx m = x.ctx := by
  have put := only_setQueue s q.toNat { x with transfers := rest }
  obtain ⟨m, sent, op, operand, gauge, ctx⟩ :=
    hubSignal_sends (s.setQueue q.toNat { x with transfers := rest }) 1 q.toNat n ctxFits vidFits
  have all := only_trans (only_mono (l' := [.pumpQueues, .gauges]) (by simp) put)
    (only_mono (by simp) (only_hubSignal _ 1 q.toNat x.ctx vid n))
  have e := exec_transferComplete queue transfers complete kept
  rw [sigs, List.foldl_cons, List.foldl_nil, FabricProofs.done_only runs canonical all (by simp)] at e
  exact ⟨_, m, e, all, queue?_setQueue _ _ _, fun _ => rfl, sent, op, gauge, operand, ctx⟩

end

/-! ## Gathers (R285-R287) -/

/-- What the page engine adds for a gather, before it is a transaction: operation, place, bytes, data and destination. -/
abbrev Leg := Nat × Dest × Nat × List Byte × Option Dest

/-- The transactions of a gather. -/
def gatherTxns (s : State) (q : PumpQueue) (k id : Nat) (d : List Byte) (l : List Leg) : List Txn :=
  l.zipIdx.map (fun e => xferTxn s q k id (s.ms.nextId + e.2) d e.1.1 e.1.2.1 e.1.2.2.1 e.1.2.2.2.1 e.1.2.2.2.2)

theorem only_addTxns (s : State) (q : PumpQueue) (k id : Nat) (d : List Byte) (l : List Leg) : Only [.transactions] s (addTxns s q k id d l) :=
  only_txns s (s.ms.txns ++ gatherTxns s q k id d l) (s.ms.nextId + (gatherTxns s q k id d l).length)

theorem txns_addTxns (s : State) (q : PumpQueue) (k id : Nat) (d : List Byte) (l : List Leg) :
    (addTxns s q k id d l).ms.txns = s.ms.txns ++ gatherTxns s q k id d l := rfl

theorem map_gatherTxns {β : Type} {g : Txn → β} {f : Leg → β} (s : State) (q : PumpQueue) (k id : Nat) (d : List Byte) (l : List Leg)
    (h : ∀ n e, g (xferTxn s q k id n d e.1 e.2.1 e.2.2.1 e.2.2.2.1 e.2.2.2.2) = f e) : (gatherTxns s q k id d l).map g = l.map f := by
  conv_rhs => rw [← List.zipIdx_map_fst 0 l]
  simp only [gatherTxns, List.map_map]
  exact List.map_congr_left fun e _ => h _ _

theorem only_gatherEvent (s : State) (q : PumpQueue) (n : Nat) : Only [.memCounters, .log] s (gatherEvent s q n) := by
  unfold gatherEvent
  split
  · exact only_refl _ s
  · exact only_trans (only_mono (by simp) (only_bumpPage s 5 n)) (only_mono (by simp) (only_log (by decide) _ _ _ _ _))

/-- What a summary gather adds for the i-th entry: the granules of a valid entry's summary, zeros for an invalid one's (R286). -/
def summaryLegs (pt : PageTable) (d : List Byte) (i v : Nat) : List Leg :=
  if peValid v then
    (cutRun 64 64 (pt.sumAt (peShare v) + sgOff d) (sgDst d + sgBytes d * i) (sgBytes d + 1) 0 (sgBytes d)).map (fun c =>
      (0, devDest (pt.sumAt (peShare v) + sgOff d + c.1), c.2, [], some (devDest (sgDst d + sgBytes d * i + c.1))))
  else [(2, devDest (sgDst d + sgBytes d * i), sgBytes d, List.replicate (sgBytes d) 0, none)]

theorem summaryGather_adds {q : Byte} {s : State} {x : PumpQueue} {y : Transfer} {pt : PageTable} (canonical : Canonical s) (runs : Runs s)
    (held : heldGather s q.toNat 0x10 = some (x, y, pt)) :
    ∃ t l, exec (.summaryGather q none) s = .next t ∧ Only [.pumpQueues, .memCounters, .transactions, .log] s t ∧
      t.ms.txns = s.ms.txns ++ l ∧
      l.map (fun z => (z.op, z.at_, z.bytes, z.data, z.dst)) =
        (List.range (sgN y.desc)).flatMap (fun i => summaryLegs pt y.desc i (entryOf s pt (sgE0 y.desc + i))) := by
  have sends : ∃ n m f, exec (.summaryGather q none) s = .next (done s (addTxns
      ((gatherEvent (bumpPage s 6 n) x m).modTransfer q.toNat y.id f) x q.toNat y.id y.desc
      ((List.range (sgN y.desc)).flatMap (fun i => summaryLegs pt y.desc i (entryOf s pt (sgE0 y.desc + i)))))) := by
    simp only [exec, execSummaryGather, held, List.flatMap_map]
    exact ⟨_, _, _, rfl⟩
  obtain ⟨n, m, f, e⟩ := sends
  have count := only_bumpPage s 6 n
  have noted := only_gatherEvent (bumpPage s 6 n) x m
  have put := only_modTransfer (gatherEvent (bumpPage s 6 n) x m) q.toNat y.id f
  have before := only_trans (only_mono (l' := [.pumpQueues, .memCounters, .transactions, .log]) (by simp) count)
    (only_trans (only_mono (by simp) noted) (only_mono (by simp) put))
  have same : ((gatherEvent (bumpPage s 6 n) x m).modTransfer q.toNat y.id f).ms.txns = s.ms.txns :=
    (txns_of_only put (by simp)).trans ((txns_of_only noted (by simp)).trans (txns_of_only count (by simp)))
  generalize (gatherEvent (bumpPage s 6 n) x m).modTransfer q.toNat y.id f = z at e before same
  have all := only_trans before (only_mono (by simp) (only_addTxns z x q.toNat y.id y.desc ((List.range (sgN y.desc)).flatMap
    (fun i => summaryLegs pt y.desc i (entryOf s pt (sgE0 y.desc + i))))))
  rw [FabricProofs.done_only runs canonical all (by simp)] at e
  refine ⟨_, _, e, all, (txns_addTxns _ _ _ _ _ _).trans (congrArg (· ++ _) same), ?_⟩
  rw [map_gatherTxns (f := id) z x q.toNat y.id y.desc _ (fun _ _ => rfl), List.map_id]

/-- What a gather's counts change beside the page engine's writes, with the pages that it begins to promote. -/
abbrev promoteKinds : List Kind := [.memCounters, .transactions, .pageWork, .mem, .tiles, .loader, .log]

/-- State z is s after entries gathered: the transactions of the pages promoted (R289) follow those of s. -/
structure Promotes (pt : PageTable) (s z : State) : Prop where
  only : Only promoteKinds s z
  txns : ∃ l, z.ms.txns = s.ms.txns ++ l ∧ (∀ x ∈ l, x.queue = copyQueue) ∧ (pt.promote = 0 → l = [])

theorem promotes_of_only {pt : PageTable} {l : List Kind} {s z : State} (h : Only l s z) (sub : ∀ k ∈ l, k ∈ promoteKinds)
    (same : Kind.transactions ∉ l) : Promotes pt s z :=
  ⟨only_mono sub h, [], by rw [txns_of_only h same, List.append_nil], by simp, fun _ => rfl⟩

theorem promotes_trans {pt : PageTable} {a b c : State} (h : Promotes pt a b) (g : Promotes pt b c) : Promotes pt a c := by
  obtain ⟨l, added, copies, none⟩ := h.txns
  obtain ⟨m, added', copies', none'⟩ := g.txns
  refine ⟨only_trans h.only g.only, l ++ m, by rw [added', added, List.append_assoc], fun x hx => ?_, fun off => ?_⟩
  · exact (List.mem_append.mp hx).elim (copies x) (copies' x)
  · rw [none off, none' off, List.append_nil]

/-- A page that begins to move adds its copy's transactions. -/
theorem promotes_migrateEntry {pt : PageTable} {s y : State} {k e : Nat} (on : pt.promote ≠ 0) (starts : migrateEntry s k pt e = some y) :
    Promotes pt s y := by
  obtain ⟨⟨⟨r, page⟩, z⟩, pop, rfl⟩ := Option.map_eq_some_iff.mp starts
  have tabled := tabled_popFree pop
  have migrates := startCopy_migrates z k pt e (1 - peTier (entryOf s pt e)) page r
  obtain ⟨l, added, -, each⟩ := migrates.txns
  refine ⟨only_trans (only_mono (by simp) tabled.only) (only_mono (by simp) migrates.only), l, ?_, fun x hx => ?_, fun off => absurd off on⟩
  · rw [added, txns_of_only tabled.only (by simp)]
  · obtain ⟨-, -, -, queue⟩ := each x hx
    exact queue

/-- A gathered entry counted in its record. -/
def gatherNoted (s : State) (t : PageTable) (e : Nat) : State :=
  bumpPage (wrRecord s t (peShare (entryOf s t e)) (recRefs (rdRecord s t (peShare (entryOf s t e))) +
    min 65535 (recGathers (rdRecord s t (peShare (entryOf s t e))) + 1) * 2 ^ 16)) 4 1

theorem promotes_gatherCount (pt : PageTable) (s : State) (k e : Nat) : Promotes pt s (gatherCount s k pt e) := by
  have writes (z : State) (r v : Nat) : Promotes pt z (wrRecord z pt r v) :=
    promotes_of_only (tabled_wrRecord z pt r v).only (by simp) (by simp)
  have counts (z : State) (i n : Nat) : Promotes pt z (bumpPage z i n) := promotes_of_only (only_bumpPage z i n) (by simp) (by simp)
  have noted : Promotes pt s (gatherNoted s pt e) := promotes_trans (writes _ _ _) (counts _ 4 1)
  unfold gatherCount
  dsimp only
  split
  case isTrue due =>
    simp only [Bool.and_eq_true, bne_iff_ne] at due
    obtain ⟨⟨⟨⟨on, -⟩, -⟩, -⟩, -⟩ := due
    refine promotes_trans noted (promotes_trans ?_ (writes _ _ _))
    split
    case h_1 starts => exact promotes_migrateEntry on starts
    case h_2 => exact counts _ 3 1
  case isFalse => exact noted

theorem promotes_gatherCounts {α : Type} (pt : PageTable) (k : Nat) (f : α → Nat) (got : List α) (s : State) :
    Promotes pt s (got.foldl (fun y e => gatherCount y k pt (f e)) s) :=
  foldl_shape (P := Promotes pt) (fun s => promotes_of_only (only_refl [] s) (by simp) (by simp)) (fun _ _ _ => promotes_trans) _
    (fun y e => promotes_gatherCount pt y k (f e)) got s

/-- The records that a page gather reads, and the pages that it selects (R287). -/
def gatherPages (s : State) (d : List Byte) : List Nat :=
  selectPages ((sgN d + 31) / 32) (pgHead d) (pgTail d) (pgLimit d) ((List.range (pgK d)).map (fun i => leAt (s.devRead (pgRec d + 8 * i) 8) 4 4))

/-- The pages fetched: slot, and index of the page among those of the table. -/
def gathered (s : State) (pt : PageTable) (d : List Byte) : List (Nat × Nat) :=
  (List.range (pgP d)).filterMap (fun i =>
    ((gatherPages s d)[pgSkip d + i]?).bind (fun j => if peValid (entryOf s pt (sgE0 d + j)) = true then some (i, j) else none))

/-- What fetches a gathered page. -/
def pageLegs (d : List Byte) (e : Nat × Nat) : List Leg :=
  (List.range 16).map (fun c => (1, ⟨3, pdSrcId d, 0, (sgE0 d + e.2) * 65536 + 4096 * c, none⟩, 4096, [],
    some (devDest (pgDst d + 65536 * e.1 + 4096 * c))))

theorem exec_pageGather {q : Byte} {s : State} {x : PumpQueue} {y : Transfer} {pt : PageTable}
    (held : heldGather s q.toNat 0x11 = some (x, y, pt)) (any : gathered s pt y.desc ≠ []) :
    ∃ n f, exec (.pageGather q none) s = .next (done s (addTxns (((gathered s pt y.desc).foldl
      (fun z e => gatherCount z (pdSrcId y.desc) pt (sgE0 y.desc + e.2)) (touchDev (gatherEvent s x n) (pgRec y.desc) (8 * pgK y.desc))).modTransfer
      q.toNat y.id f) x q.toNat y.id y.desc ((gathered s pt y.desc).flatMap (pageLegs y.desc)))) := by
  have fetches : ((gathered s pt y.desc).flatMap (pageLegs y.desc)).isEmpty = false := by
    obtain ⟨e, l, cons⟩ := List.exists_cons_of_ne_nil any
    rw [cons]
    rfl
  simp only [exec, execPageGather, held]
  rw [List.filterMap_congr (l := List.range (pgP y.desc)) (g := fun i => ((gatherPages s y.desc)[pgSkip y.desc + i]?).bind
    (fun j => if peValid (entryOf s pt (sgE0 y.desc + j)) = true then some (i, j) else none))]
  · exact ⟨_, _, congrArg (fun z => Host.Outcome.next (done s z)) (if_neg (Bool.eq_false_iff.mp fetches))⟩
  · intro i _
    change (match ((gatherPages s y.desc)[pgSkip y.desc + i]?).map (fun j => (j, peValid (entryOf s pt (sgE0 y.desc + j)))) with
      | some (j, true) => some (i, j) | _ => none) = _
    cases (gatherPages s y.desc)[pgSkip y.desc + i]? with
    | none => rfl
    | some j => cases valid : peValid (entryOf s pt (sgE0 y.desc + j)) <;> simp [valid]

theorem pageGather_fetches {q : Byte} {s : State} {x : PumpQueue} {y : Transfer} {pt : PageTable} (canonical : Canonical s) (runs : Runs s)
    (held : heldGather s q.toNat 0x11 = some (x, y, pt)) (any : gathered s pt y.desc ≠ []) :
    ∃ t promoted ts, exec (.pageGather q none) s = .next t ∧
      Only [.pumpQueues, .memCounters, .transactions, .pageWork, .log, .mem, .tiles, .loader, .snoops] s t ∧
      t.ms.txns = s.ms.txns ++ promoted ++ ts ∧ (∀ z ∈ promoted, z.queue = copyQueue) ∧ (pt.promote = 0 → promoted = []) ∧
      ts.map (fun z => (z.op, z.at_.space, z.at_.table, z.at_.addr, z.bytes, z.dst.map (·.addr))) =
        (gathered s pt y.desc).flatMap (fun e => (List.range 16).map (fun c =>
          (1, 3, pdSrcId y.desc, (sgE0 y.desc + e.2) * 65536 + 4096 * c, 4096, some (pgDst y.desc + 65536 * e.1 + 4096 * c)))) := by
  obtain ⟨n, f, e⟩ := exec_pageGather held any
  have event := only_gatherEvent s x n
  have read := only_touchDev (gatherEvent s x n) (pgRec y.desc) (8 * pgK y.desc)
  have promotes := promotes_gatherCounts pt (pdSrcId y.desc) (fun e : Nat × Nat => sgE0 y.desc + e.2) (gathered s pt y.desc)
    (touchDev (gatherEvent s x n) (pgRec y.desc) (8 * pgK y.desc))
  have put := only_modTransfer ((gathered s pt y.desc).foldl (fun z e => gatherCount z (pdSrcId y.desc) pt (sgE0 y.desc + e.2))
    (touchDev (gatherEvent s x n) (pgRec y.desc) (8 * pgK y.desc))) q.toNat y.id f
  obtain ⟨l, added, copies, none⟩ := promotes.txns
  have before := only_trans (only_mono (l' := [.pumpQueues, .memCounters, .transactions, .pageWork, .log, .mem, .tiles, .loader, .snoops])
    (by simp) event) (only_trans (only_mono (by simp) read) (only_trans (only_mono (by simp) promotes.only) (only_mono (by simp) put)))
  have txns := (txns_of_only put (by simp)).trans (added.trans (congrArg (· ++ l)
    ((txns_of_only read (by simp)).trans (txns_of_only event (by simp)))))
  generalize (State.modTransfer ((gathered s pt y.desc).foldl _ _) q.toNat y.id f) = z at e before txns
  have all := only_trans before (only_mono (by simp) (only_addTxns z x q.toNat y.id y.desc ((gathered s pt y.desc).flatMap (pageLegs y.desc))))
  refine ⟨_, l, gatherTxns z x q.toNat y.id y.desc ((gathered s pt y.desc).flatMap (pageLegs y.desc)), e,
    Machine.done_only runs canonical (by simp) (fun k hk => same_of_only all hk), ?_, copies, none, ?_⟩
  · rw [done_ms _ _ runs, txns_addTxns, txns]
  · rw [map_gatherTxns (f := fun z : Leg => (z.1, z.2.1.space, z.2.1.table, z.2.1.addr, z.2.2.1, z.2.2.2.2.map (·.addr))) z x q.toNat y.id
      y.desc _ (fun _ _ => rfl), List.map_flatMap]
    simp only [pageLegs, List.map_map]
    rfl

/-- Settles O38: each step of a pump or of the page engine, with what it leaves of the queue and of the transactions. -/
theorem pumpQueuesRun : Obligations.PumpQueuesRun := by
  unfold Obligations.PumpQueuesRun
  refine ⟨fun q s x canonical runs queue on empty met pump turn => ⟨queueEntryTake_waits canonical runs queue on empty met pump turn, ?take⟩,
    fun q s x e canonical runs queue head on met idle room pump turn => ⟨fun c code bad => ?refuse, fun good alone moves space =>
      descriptorStart_starts canonical runs queue head on met idle room pump turn good alone moves space⟩,
    fun q s x y rest canonical runs queue transfers complete kept => ⟨transferComplete_quiet canonical runs queue transfers complete kept,
      fun vid n sigs vidFits ctxFits => transferComplete_signals canonical runs queue transfers complete kept sigs vidFits ctxFits⟩,
    fun q s x y pt canonical runs held => summaryGather_adds canonical runs held,
    fun q s x y pt canonical runs held any => pageGather_fetches canonical runs held any⟩
  case take =>
    intro posted
    obtain ⟨t, e, only, txns, taken⟩ := queueEntryTake_takes canonical runs queue on empty met pump turn posted rfl
    refine ⟨t, e, only, txns, taken.trans ?_⟩
    simp only [entryTaken, Bool.and_eq_true, Bool.not_eq_true']
  case refuse =>
    subst code
    obtain ⟨t, e, only, refuses⟩ := descriptorStart_refuses canonical runs queue head on met idle room pump turn bad
    exact ⟨t, e, only, refuses.queue, refuses.tiles, refuses.log⟩

end Sys2Proof.MemoryProofs
end

section
/-! SUPPORT. Memory transactions: what their steps change, and the bytes that a write lands (R264-R274). -/

namespace Sys2Proof.MemoryProofs

open Sys2Proof.Machine Sys2Proof.Safety Sys2Proof.Laws Sys2Proof.StoreProofs Sys2Proof.GaugeProofs

/-! ## Pieces -/

/-- A piece lies in the range, in one granule. -/
theorem mem_pieces {a n : Nat} {e : Nat × Nat} (h : e ∈ pieces a n) :
    0 < e.2 ∧ a ≤ e.1 ∧ e.1 + e.2 ≤ a + n ∧ e.1 % 64 + e.2 ≤ 64 := by
  unfold pieces granules at h
  split at h
  · simp at h
  · simp only [List.map_map, List.mem_map, List.mem_range, Function.comp] at h
    obtain ⟨i, hi, rfl⟩ := h
    dsimp only
    omega

/-- A piece is its own only piece. -/
theorem pieces_piece {a n : Nat} {e : Nat × Nat} (h : e ∈ pieces a n) : pieces e.1 e.2 = [e] := by
  obtain ⟨pos, -, -, short⟩ := mem_pieces h
  have one : (e.1 + e.2 - 1) / 64 - e.1 / 64 + 1 = 1 := by omega
  have first : max e.1 (e.1 / 64 * 64) = e.1 := by omega
  have last : min (e.1 + e.2) (e.1 / 64 * 64 + 64) - e.1 = e.2 := by omega
  simp [pieces, granules, one, Nat.pos_iff_ne_zero.mp pos, first, last]

/-- Every place of a range lies in a piece. -/
theorem pieces_cover {a n z : Nat} (low : a ≤ z) (high : z < a + n) : ∃ e ∈ pieces a n, e.1 ≤ z ∧ z < e.1 + e.2 := by
  have pos : n ≠ 0 := by omega
  refine ⟨(max a (z / 64 * 64), min (a + n) (z / 64 * 64 + 64) - max a (z / 64 * 64)), ?_, ?_, ?_⟩
  · simp only [pieces, granules, pos, if_false, List.map_map, List.mem_map, List.mem_range, Function.comp]
    exact ⟨z / 64 - a / 64, by omega, by rw [show a / 64 + (z / 64 - a / 64) = z / 64 by omega]⟩
  · dsimp only; omega
  · dsimp only; omega

/-- The bytes of a piece. -/
theorem piece_length {a : Nat} {bs : List Byte} {e : Nat × Nat} (h : e ∈ pieces a bs.length) : ((bs.drop (e.1 - a)).take e.2).length = e.2 := by
  obtain ⟨-, low, high, -⟩ := mem_pieces h
  rw [List.length_take, List.length_drop]
  omega

/-! ## Device writes -/

/-- State y is s after writes of some pieces of n bytes at device address a. -/
structure Landed (s y : State) (a n : Nat) : Prop where
  shape : ∃ m tl, y = { s with mem := m, tiles := tl }
  wf : s.mem.wf = true → y.mem.wf = true
  outside : s.mem.wf = true → ∀ z, Outside s false a n z → y.mem.byte z = s.mem.byte z

theorem landed_refl (s : State) (a n : Nat) : Landed s s a n := ⟨⟨s.mem, s.tiles, rfl⟩, id, fun _ _ _ => rfl⟩

theorem landed_only {s y : State} {a n : Nat} (h : Landed s y a n) : Only [.mem, .tiles] s y := by
  obtain ⟨m, tl, rfl⟩ := h.shape
  refine ⟨rfl, rfl, fun k hk => ?_⟩
  cases k <;> simp [Kind.same] at hk ⊢

/-- One more piece landed. -/
theorem landed_piece {s y : State} {a n : Nat} (h : Landed s y a n) {e : Nat × Nat} (piece : e ∈ pieces a n) {bs : List Byte}
    (length : bs.length = e.2) (bad : Nat → Bool) : Landed s (y.devWrite e.1 bs bad) a n := by
  obtain ⟨m, tl, shape, wf⟩ := devWrite_shape y e.1 bs bad
  obtain ⟨m', tl', shape'⟩ := h.shape
  refine ⟨⟨m, tl, by rw [shape, shape']⟩, fun canonical => by rw [shape]; exact wf (h.wf canonical), fun canonical z out => ?_⟩
  rw [devWrite_outside y e.1 bs bad z (h.wf canonical), h.outside canonical z out]
  simp only [Outside, Bool.false_eq_true, if_false, length, pieces_piece piece, List.mem_singleton, forall_eq] at out ⊢
  intro pa place
  rw [shape'] at place
  exact out e piece pa place

/-- The one piece of a write that lies in a granule reads what was written. -/
theorem devWrite_one {s : State} {a pa : Nat} {bs : List Byte} (bad : Nat → Bool) (one : pieces a bs.length = [(a, bs.length)])
    (place : s.place a = some pa) (isOpen : s.tileOpen a bs.length = true) (wf : s.mem.wf = true) :
    (s.devWrite a bs bad).mem.read pa bs.length = bs := by
  have mem : (s.devWrite a bs bad).mem = s.mem.write pa bs (bad (a / 64)) := by
    simp only [State.devWrite, one, List.foldl_cons, List.foldl_nil, writePiece, place, isOpen, if_true, Nat.sub_self, List.drop_zero,
      List.take_length]
    split
    · exact wrote_mem _ _ _ _
    · rfl
  rw [mem]
  exact read_write_self _ _ _ _ wf

/-- One piece written, with its mark. -/
def landWrite (a : Nat) (bs : List Byte) (bad : Nat) (x : State) (e : Nat × Nat) : State :=
  x.devWrite e.1 ((bs.drop (e.1 - a)).take e.2) (fun _ => bad.testBit ((e.1 - a) / 64))

/-- One piece landed, or counted where it meets a declared input (R234). -/
def landPiece (s : State) (a : Nat) (bs : List Byte) (bad : Nat) (x : State × Nat) (e : Nat × Nat) : State × Nat :=
  if inputHit s e.1 e.2 then (x.1, x.2 + 1) else (landWrite a bs bad x.1 e, x.2)

theorem landBytes_eq (s : State) (agent a : Nat) (bs : List Byte) (bad : Nat) :
    landBytes s agent a bs bad = (pieces a bs.length).foldl (landPiece s a bs bad) (noteAccess s agent a bs.length, 0) := rfl

/-- Pieces that meet no declared input all land. -/
theorem landPieces_lands {s z : State} {a : Nat} {bs : List Byte} (bad : Nat) (clear : ∀ e ∈ pieces a bs.length, inputHit s e.1 e.2 = false)
    {l : List (Nat × Nat)} (sub : ∀ e ∈ l, e ∈ pieces a bs.length) {y : State} (h : Landed z y a bs.length) :
    Landed z (l.foldl (landWrite a bs bad) y) a bs.length ∧
      l.foldl (landPiece s a bs bad) (y, 0) = (l.foldl (landWrite a bs bad) y, 0) := by
  induction l generalizing y with
  | nil => exact ⟨h, rfl⟩
  | cons e l ih =>
    have piece := sub e (List.mem_cons_self ..)
    have lands : landPiece s a bs bad (y, 0) e = (landWrite a bs bad y e, 0) := if_neg (by rw [clear e piece]; exact Bool.false_ne_true)
    rw [List.foldl_cons, List.foldl_cons, lands]
    exact ih (fun e he => sub e (List.mem_cons_of_mem _ he)) (landed_piece h piece (piece_length piece) _)

/-- What a write to open device memory leaves, of which nothing meets a declared input: all of it landed. -/
theorem landBytes_lands {s : State} {a : Nat} {bs : List Byte} (agent bad : Nat) (populated : s.populated a bs.length = true)
    (isOpen : closedTile s a bs.length = none) (clear : ∀ e ∈ pieces a bs.length, inputHit s e.1 e.2 = false) :
    ∃ y, landBytes s agent a bs bad = (y, 0) ∧ Landed (touchDev s a bs.length) y a bs.length ∧
      ∀ pa, pieces a bs.length = [(a, bs.length)] → s.place a = some pa → s.tileOpen a bs.length = true → s.mem.wf = true →
        y.mem.read pa bs.length = bs := by
  obtain ⟨sn, ln, touched⟩ := touchDev_shape s a bs.length
  obtain ⟨landed, fold⟩ := landPieces_lands bad clear (fun _ he => he) (landed_refl (touchDev s a bs.length) a bs.length)
  refine ⟨_, by rw [landBytes_eq, noteAccess_open _ _ _ _ populated isOpen, fold], landed, fun pa one place tile wf => ?_⟩
  have whole : (pieces a bs.length).foldl (landWrite a bs bad) (touchDev s a bs.length) =
      (touchDev s a bs.length).devWrite a bs (fun _ => bad.testBit ((a - a) / 64)) := by
    rw [one, List.foldl_cons, List.foldl_nil, landWrite, Nat.sub_self, List.drop_zero, List.take_length]
  rw [whole]
  exact devWrite_one _ one (by rw [touched]; exact place) (by rw [touched]; exact tile) (by rw [touched]; exact wf)

/-! ## Host writes -/

/-- One piece written to host memory. -/
def hostPiece (a : Nat) (bs : List Byte) (bad : Nat) (x : State) (e : Nat × Nat) : State :=
  x.hostWrite e.1 ((bs.drop (e.1 - a)).take e.2) (bad.testBit ((e.1 - a) / 64))

/-- State y is s with the bytes of some pieces in host memory. -/
structure HostLanded (s y : State) (a : Nat) (bs : List Byte) (l : List (Nat × Nat)) : Prop where
  shape : ∃ m, y = { s with mem := m }
  wf : s.mem.wf = true → y.mem.wf = true
  written : s.mem.wf = true → ∀ i, i < bs.length → (∃ e ∈ l, e.1 ≤ a + i ∧ a + i < e.1 + e.2) → y.mem.byte (hostBase + (a + i)) = bs.getD i 0
  kept : s.mem.wf = true → ∀ z, (∀ e ∈ l, z < hostBase + e.1 ∨ hostBase + e.1 + e.2 ≤ z) → y.mem.byte z = s.mem.byte z

theorem hostPieces_land (a : Nat) (bs : List Byte) (bad : Nat) {l : List (Nat × Nat)} (sub : ∀ e ∈ l, e ∈ pieces a bs.length) (s : State) :
    HostLanded s (l.foldl (hostPiece a bs bad) s) a bs l := by
  induction l generalizing s with
  | nil => exact ⟨⟨s.mem, rfl⟩, id, fun _ _ _ h => by simp at h, fun _ _ _ => rfl⟩
  | cons e l ih =>
    have piece := sub e (List.mem_cons_self ..)
    obtain ⟨-, low, high, -⟩ := mem_pieces piece
    have length := piece_length piece
    have first (canonical : s.mem.wf = true) : (hostPiece a bs bad s e).mem.wf = true := write_wf _ _ _ _ canonical
    have tail := ih (fun e he => sub e (List.mem_cons_of_mem _ he)) (hostPiece a bs bad s e)
    rw [List.foldl_cons]
    generalize l.foldl (hostPiece a bs bad) (hostPiece a bs bad s e) = y at tail
    refine ⟨?_, fun canonical => tail.wf (first canonical), fun canonical i inside covered => ?_, fun canonical z out => ?_⟩
    · obtain ⟨m, shape⟩ := tail.shape
      exact ⟨m, shape⟩
    · by_cases later : ∃ e ∈ l, e.1 ≤ a + i ∧ a + i < e.1 + e.2
      · exact tail.written (first canonical) i inside later
      · obtain ⟨e', he', here⟩ := covered
        obtain rfl | he' := List.mem_cons.mp he'
        · rw [tail.kept (first canonical) _ (fun e he => by
            have beside := not_and_or.mp fun h => later ⟨e, he, h⟩
            omega)]
          have at' : hostBase + (a + i) = hostBase + e'.1 + (a + i - e'.1) := by omega
          rw [hostPiece, State.hostWrite, at', byte_write, byte_putBytes_in _ _ _ _ canonical (by omega), List.getElem_take, List.getElem_drop,
            List.getD_eq_getElem?_getD, List.getElem?_eq_getElem inside, Option.getD_some]
          congr 1
          omega
        · exact absurd ⟨e', he', here⟩ later
    · rw [tail.kept (first canonical) z (fun e he => out e (List.mem_cons_of_mem _ he))]
      exact byte_write_other _ _ _ _ _ canonical (by rw [length]; exact out e (List.mem_cons_self ..))

/-- A write to host memory reads back, and leaves the rest of memory alone (R293). -/
theorem hostWrite_lands (s : State) (a : Nat) (bs : List Byte) (bad : Nat) (canonical : s.mem.wf = true) :
    HostLanded s ((pieces a bs.length).foldl (hostPiece a bs bad) s) a bs (pieces a bs.length) ∧
      ((pieces a bs.length).foldl (hostPiece a bs bad) s).mem.read (hostBase + a) bs.length = bs := by
  have landed := hostPieces_land a bs bad (fun _ he => he) s
  refine ⟨landed, List.ext_getElem (by simp [Memory.read]) (fun i _ inside => ?_)⟩
  simp only [Memory.read, List.getElem_map, List.getElem_range]
  rw [Nat.add_assoc, landed.written canonical i inside (pieces_cover (by omega) (by omega)), List.getD_eq_getElem?_getD,
    List.getElem?_eq_getElem inside, Option.getD_some]

end Sys2Proof.MemoryProofs
end

section
/-! PROOFS. READ, FETCH, WRITE, DATA and ACK at their targets and requesters (R264, R268, R269, R272, R274, R283, R284, R327, R350). -/

namespace Sys2Proof.MemoryProofs

open Sys2Proof.Machine Sys2Proof.Safety Sys2Proof.Laws Sys2Proof.StoreProofs Sys2Proof.GaugeProofs

/-! ## The arbiters (R264, R267, R350) -/

/-- The state in which an arbiter has noted what it granted. -/
def granting (s : State) (g : Assoc Nat) : State := { s with ms := { s.ms with memGrants := g } }

theorem only_granting (s : State) (g : Assoc Nat) : Only [.arbiters] s (granting s g) := by
  refine ⟨rfl, rfl, fun k hk => ?_⟩
  cases k <;> simp [Kind.same, granting] at hk ⊢

/-- Only device memory has arbiters. -/
theorem memArbiter_elsewhere {x : Txn} (h : x.at_.space ≠ 0) (s : State) : memArbiter s x = none :=
  if_neg (by simp [h])

/-- Traffic of no polder meets no weir. -/
theorem txnWeir_free {x : Txn} (free : x.polder = none) (s : State) : txnWeir s x = (s, true) := by
  unfold txnWeir
  split
  · rw [free]; rfl
  · rfl

/-- A granted transaction goes on; an arbiter notes it. -/
theorem serve_goes {s : State} {x : Txn} (h : Granted s x) : ∃ g, serve s x = .goes (granting s g) ∧ (x.at_.space ≠ 0 → g = s.ms.memGrants) := by
  obtain ⟨arrived, ordered, free, grant⟩ := h
  have first : (!x.arrived || !writeOrdered s x) = false := by rw [arrived, ordered]; rfl
  simp only [serve, first, Bool.false_eq_true, if_false, txnWeir_free free]
  cases arb : memArbiter s x with
  | none => exact ⟨s.ms.memGrants, rfl, fun _ => rfl⟩
  | some a =>
    obtain ⟨head, granted⟩ := grant a arb
    refine ⟨aput s.ms.memGrants (4 * a + x.cls) (memIndex x), ?_, fun other => ?_⟩
    · simp only [head, granted, Bool.not_true, Bool.false_eq_true, if_false]
      exact if_pos (beq_self_eq_true _)
    · rw [memArbiter_elsewhere other] at arb
      cases arb

/-- One that its arbiter does not grant waits. -/
theorem serve_waits {s : State} {x : Txn} {a : Nat} (free : x.polder = none) (arb : memArbiter s x = some a)
    (refused : memGrant s a [] ≠ some (memIndex x, x.cls)) : serve s x = .waits := by
  simp only [serve, txnWeir_free free, arb, beq_eq_false_iff_ne.mpr refused, Bool.false_eq_true, if_false]
  split
  · rfl
  · split <;> rfl

/-- A write behind an earlier one to the same granule waits (R269). -/
theorem serve_unordered {s : State} {x : Txn} (behind : writeOrdered s x = false) : serve s x = .waits := by
  simp only [serve, behind]
  exact if_pos (by simp)

/-- A bucket that holds a unit back changes its weir alone (R350). -/
theorem only_weirPass (s : State) (polder : Option Nat) (w b unit n : Nat) : Only [.weirs] s (weirPass s polder w b unit n).1 := by
  have set (p : Nat) (x : Weir) : Only [.weirs] s (s.setWeir p w x) := by
    refine ⟨rfl, rfl, fun k hk => ?_⟩
    cases k <;> simp [Kind.same, State.setWeir] at hk ⊢
  unfold weirPass
  split
  · exact only_refl _ s
  · dsimp only
    split
    · exact only_refl _ s
    · split
      · exact set _ _
      · split
        · exact set _ _
        · exact set _ _

theorem only_txnWeir (s : State) (x : Txn) : Only [.weirs] s (txnWeir s x).1 := by
  unfold txnWeir
  split
  · exact only_weirPass _ _ _ _ _ _
  · exact only_refl _ s

theorem serve_held {s : State} {x : Txn} (arrived : x.arrived = true) (ordered : writeOrdered s x = true) (arb : memArbiter s x = none)
    (holds : (txnWeir s x).2 = false) : serve s x = .held (txnWeir s x).1 := by
  have first : (!x.arrived || !writeOrdered s x) = false := by rw [arrived, ordered]; rfl
  simp only [serve, first, Bool.false_eq_true, if_false, arb]
  generalize txnWeir s x = w at holds
  obtain ⟨y, b⟩ := w
  cases holds
  rfl

/-! ## Reads (R268) -/

/-- The source of a read is open: host memory, or device memory that is populated and in no closed area. -/
def ReadOpen (s : State) (x : Txn) : Prop :=
  x.at_.space = 1 ∨ (x.at_.space = 0 ∧ s.populated x.at_.addr x.bytes = true ∧ closedTile s x.at_.addr x.bytes = none)

/-- What an open source brings. -/
theorem txnRead_open {s : State} {x : Txn} (h : ReadOpen s x) (g : Assoc Nat) : ∃ y, txnRead (granting s g) x none =
    (s.anyRead (decide (x.at_.space = 1)) x.at_.addr x.bytes, badPieces s (decide (x.at_.space = 1)) x.at_.addr x.bytes, y) ∧
      Only [.arbiters, .snoops] s y := by
  have granted := only_mono (l' := [.arbiters, .snoops]) (by simp) (only_granting s g)
  obtain host | ⟨device, populated, isOpen⟩ := h
  · exact ⟨granting s g, by simp [txnRead, host]; exact ⟨rfl, rfl⟩, granted⟩
  · have note := noteAccess_open (granting s g) (txnSrc (granting s g) x).2 _ _ populated isOpen
    have read := only_touchDev (granting s g) x.at_.addr x.bytes
    obtain ⟨sn, ln, touched⟩ := touchDev_shape (granting s g) x.at_.addr x.bytes
    refine ⟨touchDev (granting s g) x.at_.addr x.bytes, ?_, only_trans granted (only_mono (by simp) read)⟩
    simp only [txnRead, device, note, errorAt, errorIn]
    rw [touched]
    rfl

theorem nextLeg_eq {s : State} (none : s.ms.frees = []) (k : Nat) (t : Txn) (z : Txn) :
    nextLeg s k t [z] = s.setTxns (s.ms.txns.eraseIdx k ++ [onward t z]) := by
  have kept : (s.setTxns (s.ms.txns.eraseIdx k ++ [onward t z])).ms.frees = [] := none
  show joinFrees (s.setTxns (s.ms.txns.eraseIdx k ++ [onward t z])) = _
  rw [joinFrees, kept, List.foldl_nil]

theorem only_setTxns (s : State) (l : List Txn) : Only [.transactions] s (s.setTxns l) := only_txns s l s.ms.nextId

theorem only_sawPoison (s : State) (t : Txn) (bad : Nat) : Only [.pumpQueues] s (sawPoison s t bad) := by
  unfold sawPoison
  split
  · exact only_refl _ s
  · exact only_modQueue _ _ _

/-- What a read leaves that went on as z. -/
structure ReadsOn (s t : State) (k : Nat) (x : Txn) (bad : Nat) (z : Txn) : Prop where
  only : Only [.transactions, .snoops, .arbiters, .pumpQueues] s t
  clean : bad = 0 → Kind.pumpQueues.same s t
  seen : ∀ q, s.queue? x.queue = some q → bad ≠ 0 → t.queue? x.queue = some { q with poisonSeen := true }
  txns : t.ms.txns = s.ms.txns.eraseIdx k ++ [onward x z]

theorem readsOn_of {s y : State} {x : Txn} (read : Only [.arbiters, .snoops] s y) (frees : s.ms.frees = []) (k bad : Nat) (z : Txn) :
    ReadsOn s (sawPoison (nextLeg y k x [z]) x bad) k x bad z := by
  have none : y.ms.frees = [] := by
    obtain ⟨-, -, same⟩ : Kind.same s y .pageWork := same_of_only read (by simp)
    rw [same, frees]
  rw [nextLeg_eq none]
  have next := only_setTxns y (y.ms.txns.eraseIdx k ++ [onward x z])
  have poison := only_sawPoison (y.setTxns (y.ms.txns.eraseIdx k ++ [onward x z])) x bad
  refine ⟨only_trans (only_mono (by simp) read) (only_trans (only_mono (by simp) next) (only_mono (by simp) poison)), fun clean => ?_,
    fun q queue bad' => ?_, ?_⟩
  · rw [sawPoison, if_pos (beq_iff_eq.mpr clean)]
    exact same_trans (same_of_only read (by simp)) (same_of_only next (by simp))
  · rw [sawPoison, if_neg (by simpa using bad')]
    exact queue?_modQueue _ ((queue?_of_only next (by simp) _).trans ((queue?_of_only read (by simp) _).trans queue))
  · rw [txns_of_only poison (by simp)]
    show y.ms.txns.eraseIdx k ++ _ = _
    rw [txns_of_only read (by simp)]

/-- A granted read of an open source sends on what it brings. -/
theorem readTarget_open {s : State} {x : Txn} (granted : Granted s x) (src : ReadOpen s x) (frees : s.ms.frees = []) (k : Nat)
    (next : List Byte → Nat → Txn) :
    ReadsOn s (readTarget s k x none next) k x (badPieces s (decide (x.at_.space = 1)) x.at_.addr x.bytes)
      (next (s.anyRead (decide (x.at_.space = 1)) x.at_.addr x.bytes) (badPieces s (decide (x.at_.space = 1)) x.at_.addr x.bytes)) := by
  obtain ⟨g, goes, -⟩ := serve_goes granted
  obtain ⟨y, reads, only⟩ := txnRead_open src g
  simp only [readTarget, goes, reads]
  exact readsOn_of only frees k _ _

/-- One whose page-table entry was not valid brings free bytes (log 19). -/
theorem readTarget_free {s : State} {x : Txn} (granted : Granted s x) (page : x.at_.space = 3) (frees : s.ms.frees = []) (k : Nat)
    (next : List Byte → Nat → Txn) :
    Only [.transactions, .free] s (readTarget s k x none next) ∧ (readTarget s k x none next).ms.txns =
      s.ms.txns.eraseIdx k ++ [onward x (next (leBytes x.bytes (Config.freeWord s.free)) 0)] := by
  obtain ⟨g, goes, same⟩ := serve_goes granted
  obtain rfl := same (by rw [page]; decide)
  have drawn : Only [.free] s { s with free := s.free + 1 } := by
    refine ⟨rfl, rfl, fun i hi => ?_⟩
    cases i <;> simp [Kind.same] at hi ⊢
  have reads : txnRead (granting s s.ms.memGrants) x none = (leBytes x.bytes (Config.freeWord s.free), 0, { s with free := s.free + 1 }) := by
    simp only [txnRead, page]
    rfl
  have reading : readTarget s k x none next =
      nextLeg { s with free := s.free + 1 } k x [next (leBytes x.bytes (Config.freeWord s.free)) 0] := by
    simp only [readTarget, goes, reads]
    rfl
  rw [reading, nextLeg_eq (s := { s with free := s.free + 1 }) frees]
  exact ⟨only_trans (only_mono (by simp) drawn) (only_mono (by simp) (only_setTxns _ _)), rfl⟩

/-- Memory as it was: the command ends with what its meaning gives. -/
theorem next_of {l : List Kind} {s y : State} {o : Host.Outcome State Fault Refusal} (e : o = .next (done s y)) (runs : Runs s)
    (canonical : Canonical s) (only : Only l s y) (mem : Kind.mem ∉ l) : o = .next y := by
  rw [e, FabricProofs.done_only runs canonical only mem]

section
variable {k : Nat} {s : State} {x : Txn} (at' : s.ms.txns[k]? = some x)
include at'

theorem exec_read (op : x.op = 0) : exec (.read k none) s =
    .next (done s (readTarget s k x none (fun bs bad => { x with op := 4, data := bs, bad := bad }))) := by
  refine congrArg (fun z => Host.Outcome.next (done s z)) ?_
  simp only [at']
  exact if_neg (by simp [op])

theorem exec_fetch (op : x.op = 1) {d : Dest} (dst : x.dst = some d) : exec (.fetch k none) s = .next (done s (readTarget s k x none
    (fun bs bad => { x with op := 2, at_ := d, dst := none, data := bs, bad := bad }))) := by
  refine congrArg (fun z => Host.Outcome.next (done s z)) ?_
  simp only [at', dst]
  exact if_neg (by simp [op])

theorem exec_write_goes (op : x.op = 2) (ecc : Ecc) {y : State} (goes : serve s x = .goes y) (own : x.queue < 256) :
    (x.at_.space = 0 → exec (.write k ecc) s = .next (done s (writeDevice y k x))) ∧
    (x.at_.space = 1 → exec (.write k ecc) s = .next (done s (writeHost y k x ecc))) ∧
    (x.at_.space = 2 → exec (.write k ecc) s = .next (done s (writeRemote y k x))) := by
  have ours : (256 ≤ x.queue && x.queue < copyQueue) = false := by simp [Nat.not_le.mpr own]
  refine ⟨fun space => ?_, fun space => ?_, fun space => ?_⟩
  all_goals
    refine congrArg (fun z => Host.Outcome.next (done s z)) ?_
    simp only [at', goes]
    refine (if_neg (by simp [op])).trans ((if_neg (by simp [ours])).trans ?_)
    rw [space]
    rfl

/-- A write that waits changes nothing. -/
theorem exec_write_waits (op : x.op = 2) (ecc : Ecc) (waits : serve s x = .waits) : exec (.write k ecc) s = .next (done s s) := by
  refine congrArg (fun z => Host.Outcome.next (done s z)) ?_
  simp only [at', waits]
  exact if_neg (by simp [op])

variable (canonical : Canonical s) (runs : Runs s) (frees : s.ms.frees = [])
include canonical runs frees

/-- DATA becomes the WRITE of its requester (R268). -/
theorem data_writes (op : x.op = 4) (arrived : x.arrived = true) {d : Dest} (dst : x.dst = some d) :
    ∃ t, exec (.data k) s = .next t ∧ Only [.transactions] s t ∧
      t.ms.txns = s.ms.txns.eraseIdx k ++ [onward x { x with op := 2, at_ := d, dst := none }] := by
  have e : exec (.data k) s = .next (done s (nextLeg s k x [{ x with op := 2, at_ := d, dst := none }])) := by
    refine congrArg (fun z => Host.Outcome.next (done s z)) ?_
    simp only [at', dst]
    exact if_pos (by simp [op, arrived])
  rw [nextLeg_eq frees] at e
  have only := only_setTxns s (s.ms.txns.eraseIdx k ++ [onward x { x with op := 2, at_ := d, dst := none }])
  exact ⟨_, next_of e runs canonical only (by simp), only, rfl⟩

end

/-! ## Writes (R269, R272, R274, R327) -/

/-- The ACK of a write. -/
def ackOf (s : State) (x : Txn) (sp : Spot) (status : Nat) : Txn :=
  { x with id := s.ms.nextId, op := 3, data := [], bad := 0, status := status, from_ := sp, sent := false, arrived := false }

theorem only_countMoved (s : State) (t : Txn) (n lost : Nat) : Only [.memCounters, .pumpQueues] s (countMoved s t n lost) := by
  unfold countMoved
  split
  · exact only_refl _ s
  · exact only_trans (only_mono (by simp) (only_bumpPump s 5 _)) (only_trans (only_mono (by simp) (only_bumpPump _ 6 _))
      (only_trans (only_mono (by simp) (only_bumpPump _ 7 _)) (only_mono (by simp) (only_modQueue _ _ _))))

theorem only_pumpProgress (s : State) (t : Txn) : Only [.tiles] s (pumpProgress s t) := by
  unfold pumpProgress
  split
  · exact TileProofs.only_setTile _ _ _
  · exact only_refl _ s

theorem only_ackTxn (s : State) (k : Nat) (t : Txn) (l : List Spot) (status : Nat) : Only [.transactions] s (ackTxn s k t l status) :=
  only_txns s _ _

theorem txns_ackTxn (s : State) (k : Nat) (t : Txn) (sp : Spot) (status : Nat) :
    (ackTxn s k t [sp] status).ms.txns = s.ms.txns.eraseIdx k ++ [ackOf s t sp status] := rfl

/-- The ACK of a write takes its place. -/
theorem acked {l : List Kind} {s y : State} (h : Only l s y) (hl : Kind.transactions ∉ l) (k : Nat) (t : Txn) (sp : Spot) (status : Nat) :
    Only [.transactions, .tiles] y (ackTxn (pumpProgress y t) k t [sp] status) ∧
      (ackTxn (pumpProgress y t) k t [sp] status).ms.txns = s.ms.txns.eraseIdx k ++ [ackOf s t sp status] := by
  have progress := only_pumpProgress y t
  obtain ⟨txns, ids⟩ : Kind.same s y .transactions := same_of_only h hl
  obtain ⟨txns', ids'⟩ : Kind.same y (pumpProgress y t) .transactions := same_of_only progress (by simp)
  refine ⟨only_trans (only_mono (by simp) progress) (only_mono (by simp) (only_ackTxn _ _ _ _ _)), ?_⟩
  rw [txns_ackTxn, ackOf, txns', txns, ids', ids]
  rfl

section
variable {s : State} {x : Txn} (single : x.at_.mcast = none) (populated : rangePopulated s x.at_.addr x.bytes = true)
  (isOpen : rangeOpen s x.at_.addr x.bytes = true)
include single populated isOpen

/-- A write to one open place, of which nothing meets a declared input, is acknowledged OK. -/
theorem writeDevice_lands (k : Nat) {y : State} (lands : landBytes s (txnSrc s x).2 x.at_.addr x.data x.bad = (y, 0)) :
    writeDevice s k x = ackTxn (pumpProgress (countMoved y x ((x.bytes + 63) / 64) 0) x) k x [x.goal] 0 := by
  have feet : writeFeet x = [(x.at_.addr, x.bytes)] := by rw [writeFeet, single]
  simp only [writeDevice, feet, populated, isOpen, List.any_cons, List.any_nil, List.foldl_cons, List.foldl_nil, lands, List.length_singleton,
    List.map_cons, List.map_nil]
  simp

end

/-- A granted write to open device memory. -/
theorem write_device {k : Nat} {s : State} {x : Txn} (canonical : Canonical s) (runs : Runs s) (at' : s.ms.txns[k]? = some x)
    (granted : Granted s x) (op : x.op = 2) (own : x.queue < 256) (space : x.at_.space = 0) (single : x.at_.mcast = none)
    (placed : rangePopulated s x.at_.addr x.bytes = true) (rangeOpens : rangeOpen s x.at_.addr x.bytes = true)
    (populated : s.populated x.at_.addr x.bytes = true) (isOpen : closedTile s x.at_.addr x.bytes = none)
    (clear : ∀ e ∈ pieces x.at_.addr x.bytes, inputHit s e.1 e.2 = false) (length : x.data.length = x.bytes) :
    ∃ t, exec (.write k .clean) s = .next t ∧ Only [.transactions, .mem, .tiles, .memCounters, .pumpQueues, .snoops, .arbiters] s t ∧
      (∀ z, Outside s false x.at_.addr x.bytes z → t.mem.byte z = s.mem.byte z) ∧
      (∀ pa, pieces x.at_.addr x.bytes = [(x.at_.addr, x.bytes)] → s.place x.at_.addr = some pa → s.tileOpen x.at_.addr x.bytes = true →
        t.mem.read pa x.bytes = x.data) ∧
      t.ms.txns = s.ms.txns.eraseIdx k ++ [ackOf s x x.goal 0] := by
  obtain ⟨g, goes, -⟩ := serve_goes granted
  rw [← length] at populated isOpen clear
  obtain ⟨y, lands, landed, back⟩ := landBytes_lands (s := granting s g) (txnSrc (granting s g) x).2 x.bad populated isOpen clear
  have e := (exec_write_goes at' op .clean goes own).1 space
  rw [writeDevice_lands (s := granting s g) single placed rangeOpens k lands] at e
  have touched := only_touchDev (granting s g) x.at_.addr x.data.length
  have count := only_countMoved y x ((x.bytes + 63) / 64) 0
  have written := only_trans (only_mono (l' := [.arbiters, .snoops, .mem, .tiles, .memCounters, .pumpQueues]) (by simp) (only_granting s g))
    (only_trans (only_mono (by simp) touched) (only_trans (only_mono (by simp) (landed_only landed)) (only_mono (by simp) count)))
  obtain ⟨acks, txns⟩ := acked written (by simp) k x x.goal 0
  have all : Only [.transactions, .mem, .tiles, .memCounters, .pumpQueues, .snoops, .arbiters] s _ :=
    only_trans (only_mono (by simp) written) (only_mono (by simp) acks)
  have mem : (ackTxn (pumpProgress (countMoved y x ((x.bytes + 63) / 64) 0) x) k x [x.goal] 0).mem = y.mem :=
    (same_of_only acks (k := .mem) (by simp)).trans (same_of_only count (k := .mem) (by simp))
  have before : (touchDev (granting s g) x.at_.addr x.data.length).mem = s.mem := touchDev_mem _ _ _
  have final : (done s (ackTxn (pumpProgress (countMoved y x ((x.bytes + 63) / 64) 0) x) k x [x.goal] 0)).mem = y.mem := by
    rw [done_mem _ _ runs, mem, canon_eq _ (landed.wf (by rw [before]; exact canonical))]
  refine ⟨_, e, Machine.done_only runs canonical (by simp) (fun i hi => same_of_only all hi), fun z out => ?_, fun pa one place tile => ?_, ?_⟩
  · rw [final, ← before]
    refine landed.outside (by rw [before]; exact canonical) z ?_
    obtain ⟨sn, ln, touch⟩ := touchDev_shape (granting s g) x.at_.addr x.data.length
    rw [touch, length]
    exact out
  · rw [final, ← length]
    rw [← length] at one tile
    exact back pa one place tile canonical
  · rw [done_ms _ _ runs, txns]

end Sys2Proof.MemoryProofs
end

section
/-! PROOFS. Writes to the host and to other devices, and acknowledgements (R269, R272, R274, R293, R327). -/

namespace Sys2Proof.MemoryProofs

open Sys2Proof.Machine Sys2Proof.Safety Sys2Proof.Laws Sys2Proof.StoreProofs Sys2Proof.GaugeProofs

/-! ## Transfers of a queue -/

theorem queue?_of_transfer? {s : State} {k id : Nat} {y : Transfer} (h : s.transfer? k id = some y) :
    ∃ q, s.queue? k = some q ∧ q.transfers.find? (fun t => t.id == id) = some y := Option.bind_eq_some_iff.mp h

theorem transfer?_of_only {l : List Kind} {s x : State} (h : Only l s x) (hl : Kind.pumpQueues ∉ l) (k id : Nat) :
    x.transfer? k id = s.transfer? k id := by rw [State.transfer?, queue?_of_only h hl, State.transfer?]

/-- A transfer that changes keeps its place. -/
theorem transfer?_modTransfer {s : State} {k id : Nat} {y : Transfer} {f : Transfer → Transfer} (keeps : ∀ t, (f t).id = t.id)
    (h : s.transfer? k id = some y) : (s.modTransfer k id f).transfer? k id = some (f y) := by
  obtain ⟨q, queue, find⟩ := queue?_of_transfer? h
  have same : ((fun t : Transfer => t.id == id) ∘ fun t => if t.id == id then f t else t) = fun t => t.id == id := by
    funext t
    simp only [Function.comp]
    split
    · rw [keeps]
    · rfl
  have put : (s.modTransfer k id f).queue? k = _ := queue?_modQueue _ queue
  rw [State.transfer?, put, Option.bind_some, List.find?_map, same, find, Option.map_some, if_pos (List.find?_some find)]

/-! ## Writes to the host (R293) -/

/-- The poison of a write to the host, logged once per transfer. -/
def hostPoison (s y : State) (t : Txn) : State :=
  let logged := match s.transfer? t.queue t.xfer with | some x => x.poisonLogged | none => true
  if t.bad != 0 && !logged then
    (y.modTransfer t.queue t.xfer (fun x => { x with poisonLogged := true })).event 0x3304 14 (txnSrc s t).2 none []
  else y

theorem hostPoison_clean {t : Txn} (clean : t.bad = 0) (s y : State) : hostPoison s y t = y := if_neg (by simp [clean])

theorem only_hostPoison (s y : State) (t : Txn) : Only [.pumpQueues, .log] y (hostPoison s y t) := by
  have logged : Only [.pumpQueues, .log] y ((y.modTransfer t.queue t.xfer (fun x => { x with poisonLogged := true })).event 0x3304 14
      (txnSrc s t).2 none []) :=
    only_trans (only_mono (l := [.pumpQueues]) (by simp) (only_modTransfer _ _ _ _)) (only_mono (l := [.log]) (by simp)
      (only_log (by decide) _ _ _ _ _))
  simp only [hostPoison]
  generalize (t.bad != 0 && !_) = b
  cases b
  · exact only_refl _ y
  · exact logged

theorem writeHost_clean {s : State} {t : Txn} (length : t.data.length = t.bytes) (clean : t.bad = 0) (k : Nat) : writeHost s k t .clean =
    ackTxn (pumpProgress (countMoved ((pieces t.at_.addr t.data.length).foldl (hostPiece t.at_.addr t.data t.bad) s) t ((t.bytes + 63) / 64) 0) t)
      k t [.hub] 0 := by
  rw [← hostPoison_clean clean s (countMoved _ t _ _), length]
  rfl

theorem writeHost_uncorrectable (s : State) (t : Txn) (k : Nat) : writeHost s k t .uncorrectable =
    ackTxn (pumpProgress (hostPoison s (countMoved (s.event 0x3202 14 (txnSrc s t).2 none (detailOf [(8, t.at_.addr)])) t
      ((t.bytes + 63) / 64) ((t.bytes + 63) / 64)) t) t) k t [.hub] 0 := rfl

/-- Away from device memory a granted transaction goes on from the very same state. -/
theorem serve_elsewhere {s : State} {x : Txn} (granted : Granted s x) (space : x.at_.space ≠ 0) : serve s x = .goes s := by
  obtain ⟨g, goes, same⟩ := serve_goes granted
  obtain rfl := same space
  exact goes

theorem hostLanded_only {s y : State} {a : Nat} {bs : List Byte} {l : List (Nat × Nat)} (h : HostLanded s y a bs l) : Only [.mem] s y := by
  obtain ⟨m, rfl⟩ := h.shape
  refine ⟨rfl, rfl, fun i hi => ?_⟩
  cases i <;> simp [Kind.same] at hi ⊢

theorem only_modLport (s : State) (k : Nat) (f : LinkPort → LinkPort) : Only [.links] s (s.modLport k f) := by
  refine ⟨rfl, rfl, fun i hi => ?_⟩
  cases i <;> simp [Kind.same, State.modLport, State.setLport] at hi ⊢

/-- The way to another device depends on the registers and the links alone (R328). -/
theorem linkRoute_of_same {s y : State} (regs : y.regs = s.regs) (links : y.links = s.links) (id : Nat) (arr : Option Nat) :
    linkRoute y id arr = linkRoute s id arr := by
  unfold linkRoute State.linkPort State.lport State.reg
  rw [regs, links]

section
variable {k : Nat} {s : State} {x : Txn} (canonical : Canonical s) (runs : Runs s) (at' : s.ms.txns[k]? = some x) (granted : Granted s x)
  (op : x.op = 2) (own : x.queue < 256)
include canonical runs at' granted op own

/-- A granted write to the host lands, and is acknowledged by the hub. -/
theorem write_host (space : x.at_.space = 1) (length : x.data.length = x.bytes) (clean : x.bad = 0) :
    ∃ t, exec (.write k .clean) s = .next t ∧ Only [.transactions, .mem, .tiles, .memCounters, .pumpQueues, .snoops] s t ∧
      t.mem.read (hostBase + x.at_.addr) x.bytes = x.data ∧
      (∀ z, z < hostBase + x.at_.addr ∨ hostBase + x.at_.addr + x.bytes ≤ z → t.mem.byte z = s.mem.byte z) ∧
      t.ms.txns = s.ms.txns.eraseIdx k ++ [ackOf s x .hub 0] := by
  have e := (exec_write_goes at' op .clean (serve_elsewhere granted (by rw [space]; decide)) own).2.1 space
  rw [writeHost_clean length clean] at e
  obtain ⟨landed, back⟩ := hostWrite_lands s x.at_.addr x.data x.bad canonical
  generalize (pieces x.at_.addr x.data.length).foldl (hostPiece x.at_.addr x.data x.bad) s = y at e landed back
  have count := only_countMoved y x ((x.bytes + 63) / 64) 0
  have written := only_trans (only_mono (l' := [.mem, .memCounters, .pumpQueues]) (by simp) (hostLanded_only landed)) (only_mono (by simp) count)
  obtain ⟨acks, txns⟩ := acked written (by simp) k x .hub 0
  have all : Only [.transactions, .mem, .tiles, .memCounters, .pumpQueues, .snoops] s _ :=
    only_trans (only_mono (by simp) written) (only_mono (by simp) acks)
  have mem : (ackTxn (pumpProgress (countMoved y x ((x.bytes + 63) / 64) 0) x) k x [.hub] 0).mem = y.mem :=
    (same_of_only acks (k := .mem) (by simp)).trans (same_of_only count (k := .mem) (by simp))
  have final : (done s (ackTxn (pumpProgress (countMoved y x ((x.bytes + 63) / 64) 0) x) k x [.hub] 0)).mem = y.mem := by
    rw [done_mem _ _ runs, mem, canon_eq _ (landed.wf canonical)]
  refine ⟨_, e, Machine.done_only runs canonical (by simp) (fun i hi => same_of_only all hi), ?_, fun z out => ?_, ?_⟩
  · rw [final, ← length, back]
  · rw [final]
    refine landed.kept canonical z fun e he => ?_
    obtain ⟨-, low, high, -⟩ := mem_pieces he
    omega
  · rw [done_ms _ _ runs, txns]

/-- One that the host completes with an error lands nowhere. -/
theorem write_host_error (space : x.at_.space = 1) :
    ∃ t, exec (.write k .uncorrectable) s = .next t ∧ Only [.transactions, .tiles, .memCounters, .pumpQueues, .log] s t ∧
      t.ms.txns = s.ms.txns.eraseIdx k ++ [ackOf s x .hub 0] := by
  have e := (exec_write_goes at' op .uncorrectable (serve_elsewhere granted (by rw [space]; decide)) own).2.1 space
  rw [writeHost_uncorrectable] at e
  have log : Only [.log] s (s.event 0x3202 14 (txnSrc s x).2 none (detailOf [(8, x.at_.addr)])) := only_log (by decide) s _ _ _ _
  have lost := only_trans (only_mono (l' := [.memCounters, .pumpQueues, .log]) (by simp) log) (only_trans (only_mono (by simp)
    (only_countMoved _ x ((x.bytes + 63) / 64) ((x.bytes + 63) / 64))) (only_mono (by simp) (only_hostPoison s _ x)))
  obtain ⟨acks, txns⟩ := acked lost (by simp) k x .hub 0
  have all : Only [.transactions, .tiles, .memCounters, .pumpQueues, .log] s _ :=
    only_trans (only_mono (by simp) lost) (only_mono (by simp) acks)
  exact ⟨_, next_of e runs canonical all (by simp), all, txns⟩

/-- One for another device joins lane 2 of the link that is its way (R327). -/
theorem write_remote {link : Nat} (space : x.at_.space = 2) (route : linkRoute s x.at_.dev none = .send link) :
    ∃ t, exec (.write k .clean) s = .next t ∧ Only [.transactions, .links, .tiles, .memCounters, .pumpQueues] s t ∧
      t.ms.txns = s.ms.txns.eraseIdx k ∧
      t.lport link = (s.lport link).push 2 (txnFlits (linkHeader s x x.at_.dev) x.data x.bad) := by
  have e := (exec_write_goes at' op .clean (serve_elsewhere granted (by rw [space]; decide)) own).2.2 space
  have taken := only_setTxns s (s.ms.txns.eraseIdx k)
  have counted := only_trans (only_mono (l' := [.tiles, .memCounters, .pumpQueues]) (by simp)
    (only_pumpProgress (s.setTxns (s.ms.txns.eraseIdx k)) x)) (only_mono (by simp) (only_countMoved _ x ((x.bytes + 63) / 64) 0))
  have txns := txns_of_only counted (by simp)
  unfold writeRemote at e
  generalize countMoved _ x ((x.bytes + 63) / 64) 0 = y at e counted txns
  have before := only_trans (only_mono (l' := [.transactions, .tiles, .memCounters, .pumpQueues]) (by simp) taken)
    (only_mono (by simp) counted)
  have links : y.links = s.links := same_of_only before (k := .links) (by simp)
  have regs : y.regs = s.regs := same_of_only before (k := .registers) (by simp)
  have send : txnSend y x x.at_.dev = y.modLport link (fun p => p.push 2 (txnFlits (linkHeader s x x.at_.dev) x.data x.bad)) := by
    rw [txnSend, linkRoute_of_same regs links, route, linkHeader, deviceId_of_regs regs, op]
    rfl
  rw [send] at e
  have all : Only [.transactions, .links, .tiles, .memCounters, .pumpQueues] s (y.modLport link (fun p => p.push 2
    (txnFlits (linkHeader s x x.at_.dev) x.data x.bad))) := 
    only_trans (only_mono (by simp) before) (only_mono (by simp) (only_modLport y link _))
  refine ⟨_, next_of e runs canonical all (by simp), all, txns, ?_⟩
  rw [lport_modLport, if_pos rfl, State.lport, links]
  rfl

end

/-! ## Acknowledgements (R269, R272) -/

section
variable {s : State} {k id : Nat} {y : Transfer} (transfer : s.transfer? k id = some y)
include transfer

/-- A transfer that waits for more acknowledgements counts one. -/
theorem ackTransfer_counts (more : 1 < y.outstanding) :
    ackTransfer s k id = s.modTransfer k id (fun x => { x with outstanding := y.outstanding - 1 }) := by
  obtain ⟨q, queue, -⟩ := queue?_of_transfer? transfer
  simp only [ackTransfer, queue, transfer]
  exact if_pos (by omega)

/-- After the last, a transfer that nothing follows is complete. -/
theorem ackTransfer_completes (last : y.outstanding ≤ 1) (none : y.after = []) :
    ackTransfer s k id = s.modTransfer k id (fun x => { x with outstanding := 0, complete := true }) := by
  obtain ⟨q, queue, -⟩ := queue?_of_transfer? transfer
  simp only [ackTransfer, queue, transfer, none]
  exact if_neg (by omega)

/-- The writes that follow a transfer. -/
def afterTxns (s : State) (q : PumpQueue) (k id : Nat) (y : Transfer) : List Txn :=
  y.after.zipIdx.map (fun (e : (Nat × List Byte) × Nat) =>
    xferTxn s q k id (s.ms.nextId + e.2) y.desc 2 (devDest e.1.1) e.1.2.length e.1.2 none)

omit transfer in
theorem afterTxns_length (s : State) (q : PumpQueue) (k id : Nat) (y : Transfer) : (afterTxns s q k id y).length = y.after.length := by
  simp [afterTxns]

omit transfer in
theorem afterTxns_writes (s : State) (q : PumpQueue) (k id : Nat) (y : Transfer) :
    (afterTxns s q k id y).map (fun z => (z.op, z.at_.addr, z.data)) = y.after.map (fun e => (2, e.1, e.2)) := by
  rw [afterTxns, List.map_map]
  exact (List.map_map (f := Prod.fst) (g := fun e : Nat × List Byte => (2, e.1, e.2))).symm.trans (by rw [List.zipIdx_map_fst])

/-- What follows a transfer is written after the last. -/
theorem ackTransfer_follows (last : y.outstanding ≤ 1) (some' : y.after ≠ []) : ∃ q, ackTransfer s k id =
    ({ s with ms := { s.ms with txns := s.ms.txns ++ afterTxns s q k id y, nextId := s.ms.nextId + y.after.length } }).modTransfer k id
      (fun x => { x with outstanding := y.after.length, after := [] }) := by
  obtain ⟨q, queue, -⟩ := queue?_of_transfer? transfer
  refine ⟨q, ?_⟩
  rw [← afterTxns_length s q k id y]
  simp only [ackTransfer, queue, transfer]
  exact (if_neg (by omega)).trans (if_neg (by simpa using some'))

end

section
variable {k : Nat} {s : State} {x : Txn} (canonical : Canonical s) (runs : Runs s) (at' : s.ms.txns[k]? = some x) (op : x.op = 3)
  (arrived : x.arrived = true)
include at' op arrived

theorem exec_ack (own : x.queue < 256) :
    exec (.ack k) s = .next (done s (ackTransfer (s.setTxns (s.ms.txns.eraseIdx k)) x.queue x.xfer)) := by
  refine congrArg (fun z => Host.Outcome.next (done s z)) ?_
  simp only [at']
  refine (if_neg (by simp [op, arrived])).trans ((if_neg ?_).trans (if_neg (by omega)))
  have : x.queue ≠ copyQueue := by simp only [copyQueue]; omega
  simpa using this

theorem exec_ack_copy (copy : x.queue = copyQueue) :
    exec (.ack k) s = .next (done s (ackCopy (s.setTxns (s.ms.txns.eraseIdx k)) x.xfer)) := by
  refine congrArg (fun z => Host.Outcome.next (done s z)) ?_
  simp only [at']
  exact (if_neg (by simp [op, arrived])).trans (if_pos (by simp [copy]))

include canonical runs

/-- An ACK changes its transfer, in the state that has dropped the ACK. -/
theorem ack_mod {y : Transfer} {z : State} {f : Transfer → Transfer} (keeps : ∀ t, (f t).id = t.id) (own : x.queue < 256)
    (transfer : s.transfer? x.queue x.xfer = some y) (only : Only [.transactions] s z)
    (mods : ackTransfer (s.setTxns (s.ms.txns.eraseIdx k)) x.queue x.xfer = z.modTransfer x.queue x.xfer f) :
    ∃ t, exec (.ack k) s = .next t ∧ Only [.transactions, .pumpQueues] s t ∧ t.ms.txns = z.ms.txns ∧
      t.transfer? x.queue x.xfer = some (f y) := by
  have e := exec_ack at' op arrived own
  have mod := only_modTransfer z x.queue x.xfer f
  have all : Only [.transactions, .pumpQueues] s (z.modTransfer x.queue x.xfer f) :=
    only_trans (only_mono (by simp) only) (only_mono (by simp) mod)
  rw [mods] at e
  exact ⟨_, next_of e runs canonical all (by simp), all, txns_of_only mod (by simp),
    transfer?_modTransfer keeps ((transfer?_of_only only (by simp) _ _).trans transfer)⟩

/-- An ACK completes a write of its transfer, and the last one the transfer, or the writes that follow begin (R272). -/
theorem ack_transfer {y : Transfer} (own : x.queue < 256) (transfer : s.transfer? x.queue x.xfer = some y) :
    (1 < y.outstanding →
      ∃ t, exec (.ack k) s = .next t ∧ Only [.transactions, .pumpQueues] s t ∧ t.ms.txns = s.ms.txns.eraseIdx k ∧
        t.transfer? x.queue x.xfer = some { y with outstanding := y.outstanding - 1 }) ∧
    (y.outstanding ≤ 1 → y.after = [] →
      ∃ t, exec (.ack k) s = .next t ∧ Only [.transactions, .pumpQueues] s t ∧ t.ms.txns = s.ms.txns.eraseIdx k ∧
        t.transfer? x.queue x.xfer = some { y with outstanding := 0, complete := true }) ∧
    (y.outstanding ≤ 1 → y.after ≠ [] →
      ∃ t l, exec (.ack k) s = .next t ∧ Only [.transactions, .pumpQueues] s t ∧ t.ms.txns = s.ms.txns.eraseIdx k ++ l ∧
        l.map (fun z => (z.op, z.at_.addr, z.data)) = y.after.map (fun e => (2, e.1, e.2)) ∧
        t.transfer? x.queue x.xfer = some { y with outstanding := y.after.length, after := [] }) := by
  have taken := only_setTxns s (s.ms.txns.eraseIdx k)
  have same := (transfer?_of_only taken (by simp) x.queue x.xfer).trans transfer
  refine ⟨fun more => ?_, fun last none => ?_, fun last after => ?_⟩
  · exact ack_mod canonical runs at' op arrived (f := fun z => { z with outstanding := y.outstanding - 1 }) (fun _ => rfl) own transfer taken
      (ackTransfer_counts same more)
  · exact ack_mod canonical runs at' op arrived (f := fun z => { z with outstanding := 0, complete := true }) (fun _ => rfl) own transfer taken
      (ackTransfer_completes same last none)
  · obtain ⟨q, follows⟩ := ackTransfer_follows same last after
    obtain ⟨t, e, only, txns, transfer⟩ := ack_mod canonical runs at' op arrived
      (f := fun z => { z with outstanding := y.after.length, after := [] }) (fun _ => rfl) own transfer (only_txns s _ _) follows
    exact ⟨t, _, e, only, txns, afterTxns_writes _ q _ _ y, transfer⟩

/-- One of a copy of the page engine is counted by the copy. -/
theorem ack_copy {c : PageCopy} (copy : x.queue = copyQueue) (find : s.ms.copies.find? (fun c => c.id == x.xfer) = some c)
    (more : 1 < c.left) :
    ∃ t, exec (.ack k) s = .next t ∧ Only [.transactions, .pageWork] s t ∧ t.ms.txns = s.ms.txns.eraseIdx k ∧
      t.ms.copies = s.ms.copies.map (fun z => if z.id = x.xfer then { z with left := z.left - 1 } else z) ∧
      t.ms.jobs = s.ms.jobs ∧ t.ms.frees = s.ms.frees := by
  have e := exec_ack_copy at' op arrived copy
  have counts : ackCopy (s.setTxns (s.ms.txns.eraseIdx k)) x.xfer = { s with ms := { s.ms with
      txns := s.ms.txns.eraseIdx k
      copies := s.ms.copies.map (fun z => if z.id = x.xfer then { z with left := z.left - 1 } else z) } } := by
    have found : (s.setTxns (s.ms.txns.eraseIdx k)).ms.copies.find? (fun c => c.id == x.xfer) = some c := find
    simp only [ackCopy, found, more, if_true, beq_iff_eq]
    rfl
  rw [counts] at e
  have all : Only [.transactions, .pageWork] s { s with ms := { s.ms with
      txns := s.ms.txns.eraseIdx k
      copies := s.ms.copies.map (fun z => if z.id = x.xfer then { z with left := z.left - 1 } else z) } } := by
    refine ⟨rfl, rfl, fun i hi => ?_⟩
    cases i <;> simp [Kind.same] at hi ⊢
  exact ⟨_, next_of e runs canonical all (by simp), all, rfl, rfl, rfl, rfl⟩

end

end Sys2Proof.MemoryProofs
end

section
/-! PROOFS. Writes of page space as they are issued; TransactionsAtTargets settled (R283, R284). -/

namespace Sys2Proof.MemoryProofs

open Sys2Proof.Machine Sys2Proof.Safety Sys2Proof.Laws Sys2Proof.StoreProofs Sys2Proof.GaugeProofs

/-! ## Into the fabric (R157, R268) -/

/-- A transaction found, and brought to the end of its way. -/
theorem parcelArrives_found {s : State} {x : Parcel} {t : Txn} (h : s.ms.txns.find? (fun t => t.id == x.id) = some t) :
    parcelArrives s x = s.setTxns (s.ms.txns.filter (fun y => y.id != x.id) ++ [{ t with
      arrived := true, data := (x.bytes.drop 32).take t.data.length, bad := t.bad ||| x.badPieces ((t.data.length + 63) / 64) }]) := by
  simp only [parcelArrives, h]
  rfl

/-- A write that is issued has its number, and is on its way. -/
def issued (s : State) (t : Txn) : Txn := { t with id := s.ms.nextId, goal := goalOf s t, sent := true }

theorem markSent_write {s : State} {t : Txn} (op : t.op = 2) : markSent s t =
    ({ s with ms := { s.ms with
      nextId := s.ms.nextId + 1, txns := s.ms.txns.map (fun x => if x.id == t.id then issued s t else x) } }, issued s t) := by
  simp only [markSent, op, issued]
  rfl

/-- The number that a write takes is that of no other transaction. -/
theorem find_issued {s : State} {t : Txn} (mem : t ∈ s.ms.txns) (ids : ∀ z ∈ s.ms.txns, z.id < s.ms.nextId) :
    (s.ms.txns.map (fun x => if x.id == t.id then issued s t else x)).find? (fun z => z.id == s.ms.nextId) = some (issued s t) := by
  have placed : issued s t ∈ s.ms.txns.map (fun x => if x.id == t.id then issued s t else x) :=
    List.mem_map.mpr ⟨t, mem, if_pos (beq_self_eq_true _)⟩
  obtain ⟨z, find⟩ := Option.isSome_iff_exists.mp (List.find?_isSome (p := fun z => z.id == s.ms.nextId) |>.mpr ⟨_, placed, beq_iff_eq.mpr rfl⟩)
  rw [find]
  obtain ⟨w, hw, rfl⟩ := List.mem_map.mp (List.mem_of_find?_eq_some find)
  have number := List.find?_some find
  split at number
  · rw [if_pos ‹_›]
  · exact absurd (ids w hw) (by have := beq_iff_eq.mp number; omega)

/-- Between two agents of the hub a write crosses the crossbar at once, with its data as it is. -/
theorem launch_hub {s : State} {t : Txn} (op : t.op = 2) (start : t.from_ = .hub) (goal : goalOf s t = .hub) (mem : t ∈ s.ms.txns)
    (ids : ∀ z ∈ s.ms.txns, z.id < s.ms.nextId) (unit : Nat) : ∃ l bad, launch s t unit none = .inr { s with ms := { s.ms with
      nextId := s.ms.nextId + 1, txns := l ++ [{ issued s t with arrived := true, bad := bad }] } } := by
  have there : (issued s t).goal = .hub := goal
  have parcel (y : State) : parcelOf y (issued s t) = ⟨s.ms.nextId, txnBytes (issued s t), [], t.polder, 0, 0, 0, 0, .hub⟩ := by
    rw [parcelOf, there]
    rfl
  have bytes : txnBytes (issued s t) = leBytes 32 (txnHeader (issued s t)) ++ t.data := by
    rw [txnBytes, show (issued s t).op = 2 from op]
    rfl
  have found := find_issued mem ids
  have launches : launch s t unit none = .inr (parcelArrives (markSent s t).1 (parcelOf s (issued s t))) := by
    simp only [launch, markSent_write op, show (issued s t).from_ = .hub from start, Spot.input, there, parcel]
    exact if_pos rfl
  have data : ((txnBytes (issued s t)).drop 32).take (issued s t).data.length = (issued s t).data := by
    rw [bytes, List.drop_left' (leBytes_length 32 _)]
    exact List.take_length
  rw [markSent_write op, parcel, parcelArrives_found found, data] at launches
  exact ⟨_, _, launches⟩

section
variable {k : Nat} {s : State} {x : Txn}

/-- The k-th transaction enters the fabric as port 1,104 + k of MESSAGE_HOP. -/
theorem exec_hop_txn {p : BitVec 11} (hp : p.toNat = 1104 + k) (side : Side) (lane : BitVec 2) :
    exec (.messageHop p side lane none none) s = .next (done s (enterTxn s k none none)) := by
  refine congrArg (fun z => Host.Outcome.next (done s z)) ((if_pos (by omega)).trans ?_)
  rw [show p.toNat - 1104 = k by omega]

variable (at' : s.ms.txns[k]? = some x) (op : x.op = 2) (page : x.at_.space = 3) (fresh : x.sent = false) (away : x.arrived = false)
  (own : requestOf s x = none)
include at' op page fresh away own

omit at' fresh away own in
theorem translate_page : Machine.translate s x = translateWrite s x := by
  simp only [Machine.translate, page, op]
  rfl

/-- What a translation comes to. -/
theorem enterTxn_stays {y : State} (stays : translateWrite s x = .stays y) : enterTxn s k none none = y := by
  have way := (translate_page op page).trans stays
  cases table : s.table? x.at_.table <;> simp [enterTxn, at', fresh, away, own, page, table, errorIn, way]

theorem enterTxn_issued {y z : State} {t : Txn} (goes : translateWrite s x = .issued y t)
    (launched : launch { y with ms := { y.ms with txns := y.ms.txns.map (fun x => if x.id == t.id then t else x) } } t k none = .inr z) :
    enterTxn s k none none = z := by
  have way := (translate_page op page).trans goes
  cases table : s.table? x.at_.table <;>
    simp only [enterTxn, at', fresh, away, own, page, table, errorIn, ite_self, Bool.or_self, Option.any_none, Bool.false_eq_true, if_false, way,
      launched]

end

/-! ## Writes of page space (R283, R284) -/

/-- A discarded write is gone, its transfer has logged it, and then counts it as acknowledged. -/
theorem discardWrite_noted {s : State} {x : Txn} {y : Transfer} (transfer : s.transfer? x.queue x.xfer = some y) : ∃ z,
    discardWrite s x = ackTransfer z x.queue x.xfer ∧ Only [.transactions, .memCounters, .pumpQueues, .log] s z ∧
      z.ms.txns = s.ms.txns.filter (fun z => z.id != x.id) ∧ z.transfer? x.queue x.xfer = some { y with discLogged := true } := by
  let counted := bumpPump (bumpPage (s.setTxns (s.ms.txns.filter (fun z => z.id != x.id))) 7 1) 7 ((x.bytes + 63) / 64)
  have gone : Only [.transactions, .memCounters] s counted := only_trans (only_mono (l := [.transactions]) (by simp) (only_setTxns s _))
    (only_trans (only_mono (l := [.memCounters]) (by simp) (only_bumpPage _ 7 1)) (only_mono (l := [.memCounters]) (by simp) (only_bumpPump _ 7 _)))
  have same : counted.transfer? x.queue x.xfer = some y := (transfer?_of_only gone (by simp) _ _).trans transfer
  cases logged : y.discLogged with
  | true =>
    have already : { y with discLogged := true } = y := by rw [← logged]
    refine ⟨counted, ?_, only_mono (by simp) gone, rfl, by rw [already, same]⟩
    simp only [discardWrite, transfer, logged]
    rfl
  | false =>
    have mod := only_modTransfer counted x.queue x.xfer (fun z => { z with discLogged := true })
    have log := only_log (code := 0x3174) (by decide) (counted.modTransfer x.queue x.xfer (fun z => { z with discLogged := true }))
      (txnSrc s x).1 (txnSrc s x).2 ((s.queue? x.queue).map (·.ctx)) []
    refine ⟨_, ?_, only_trans (only_mono (by simp) gone) (only_trans (only_mono (by simp) mod) (only_mono (by simp) log)), ?_, ?_⟩
    · simp only [discardWrite, transfer, logged]
      rfl
    · exact (txns_of_only log (by simp)).trans (txns_of_only mod (by simp))
    · exact (transfer?_of_only log (by simp) _ _).trans (transfer?_modTransfer (fun _ => rfl) same)

section
variable {k : Nat} {s : State} {x : Txn} (canonical : Canonical s) (runs : Runs s) (at' : s.ms.txns[k]? = some x) (op : x.op = 2)
  (page : x.at_.space = 3) (fresh : x.sent = false) (away : x.arrived = false) (own : requestOf s x = none)
  {p : BitVec 11} (hp : p.toNat = 1104 + k) (side : Side) (lane : BitVec 2)
include canonical runs at' op page fresh away own hp

/-- A write of page space waits while its entry is busy. -/
theorem pageWrite_busy {pt : PageTable} {v : Nat} (table : s.table? x.at_.table = some pt) (entry : entryOf s pt (x.at_.addr / 65536) = v)
    (valid : peValid v = true) (busy : peBusy v = true) : ∃ t, exec (.messageHop p side lane none none) s = .next t ∧ Only [] s t := by
  have stays : translateWrite s x = .stays s := by
    simp only [translateWrite, table, entry, valid, busy]
    rfl
  have e := exec_hop_txn (s := s) hp side lane
  rw [enterTxn_stays at' op page fresh away own stays] at e
  exact ⟨s, next_of e runs canonical (only_refl [] s) (by simp), only_refl [] s⟩

/-- One whose entry is valid takes the page of the entry. -/
theorem pageWrite_valid {pt : PageTable} {v : Nat} (table : s.table? x.at_.table = some pt) (entry : entryOf s pt (x.at_.addr / 65536) = v)
    (valid : peValid v = true) (free : peBusy v = false) (unreserved : takeReserve s x (x.at_.addr / 65536) = none) (start : x.from_ = .hub)
    (near : spotOf s (devDest (peAddr v + x.at_.addr % 65536)) Spot.hub.col = .hub) (ids : ∀ z ∈ s.ms.txns, z.id < s.ms.nextId) :
    ∃ t, exec (.messageHop p side lane none none) s = .next t ∧ Only [.transactions, .memCounters] s t ∧
      ∃ z ∈ t.ms.txns, z.op = 2 ∧ z.arrived = true ∧ z.at_ = devDest (peAddr v + x.at_.addr % 65536) ∧ z.data = x.data ∧
        z.bytes = x.bytes ∧ z.queue = x.queue ∧ z.xfer = x.xfer := by
  let w : Txn := { x with at_ := devDest (peAddr v + x.at_.addr % 65536) }
  have goes : translateWrite s x = .issued (bumpPage s 0 1) w := by
    simp only [translateWrite, table, entry, valid, free, unreserved]
    rfl
  let y := (bumpPage s 0 1).setTxns (s.ms.txns.map (fun z => if z.id == w.id then w else z))
  have here : ∀ z ∈ y.ms.txns, z.id < y.ms.nextId := by
    intro z hz
    obtain ⟨z, mem, rfl⟩ := List.mem_map.mp hz
    split
    · exact ids x (List.mem_of_getElem? at')
    · exact ids z mem
  have placed : w ∈ y.ms.txns := List.mem_map.mpr ⟨x, List.mem_of_getElem? at', if_pos (beq_self_eq_true _)⟩
  have goal : goalOf y w = .hub := by
    rw [goalOf, show w.op = 2 from op, show w.from_ = .hub from start]
    exact near
  obtain ⟨l, bad, launched⟩ := launch_hub (t := w) op start goal placed here k
  have e := exec_hop_txn (s := s) hp side lane
  rw [enterTxn_issued at' op page fresh away own goes launched] at e
  have all (z : Txn) := only_trans (only_mono (l' := [.transactions, .memCounters]) (by simp) (only_bumpPage s 0 1))
    (only_mono (by simp) (only_txns (bumpPage s 0 1) (l ++ [z]) (s.ms.nextId + 1)))
  exact ⟨_, next_of e runs canonical (all _) (by simp), all _, _, List.mem_append_right l (List.mem_singleton.mpr rfl), op,
    rfl, rfl, rfl, rfl, rfl, rfl⟩

/-- One whose table is gone is discarded: counted, logged once per transfer, and done with (R284). -/
theorem pageWrite_gone {y : Transfer} (table : s.table? x.at_.table = none) (transfer : s.transfer? x.queue x.xfer = some y)
    (more : 1 < y.outstanding) : ∃ t, exec (.messageHop p side lane none none) s = .next t ∧
      Only [.transactions, .memCounters, .pumpQueues, .log] s t ∧ t.ms.txns = s.ms.txns.filter (fun z => z.id != x.id) ∧
      t.transfer? x.queue x.xfer = some { y with outstanding := y.outstanding - 1, discLogged := true } := by
  have stays : translateWrite s x = .stays (discardWrite s x) := by
    simp only [translateWrite, table]
  have e := exec_hop_txn (s := s) hp side lane
  rw [enterTxn_stays at' op page fresh away own stays] at e
  obtain ⟨z, discards, noted, txns, same⟩ := discardWrite_noted transfer
  rw [discards, ackTransfer_counts same more] at e
  have mod := only_modTransfer z x.queue x.xfer (fun t => { t with outstanding := y.outstanding - 1 })
  have all := only_trans noted (only_mono (by simp) mod)
  exact ⟨_, next_of e runs canonical all (by simp), all, (txns_of_only mod (by simp)).trans txns, 
    transfer?_modTransfer (f := fun t => { t with outstanding := y.outstanding - 1 }) (fun _ => rfl) same⟩

end

/-! ## Those that wait (R264, R269, R350) -/

/-- Nothing but a write waits for a write. -/
theorem writeOrdered_read {s : State} {x : Txn} (op : x.op = 0) : writeOrdered s x = true := by
  simp [writeOrdered, op]

section
variable {k : Nat} {s : State} {x : Txn} (canonical : Canonical s) (runs : Runs s) (at' : s.ms.txns[k]? = some x)
include canonical runs at'

theorem read_waits (op : x.op = 0) (waits : serve s x = .waits) : ∃ t, exec (.read k none) s = .next t ∧ Only [] s t := by
  have stands (next : List Byte → Nat → Txn) : readTarget s k x none next = s := by simp only [readTarget, waits]
  have e := exec_read at' op
  rw [stands] at e
  exact ⟨s, next_of e runs canonical (only_refl [] s) (by simp), only_refl [] s⟩

theorem write_waits (op : x.op = 2) (waits : serve s x = .waits) : ∃ t, exec (.write k .clean) s = .next t ∧ Only [] s t :=
  ⟨s, next_of (exec_write_waits at' op .clean waits) runs canonical (only_refl [] s) (by simp), only_refl [] s⟩

/-- A weir that holds a read leaves it where it is. -/
theorem read_held (op : x.op = 0) (space : x.at_.space = 1) (arrived : x.arrived = true) (holds : (txnWeir s x).2 = false) :
    ∃ t, exec (.read k none) s = .next t ∧ Only [.weirs] s t := by
  have held := serve_held arrived (writeOrdered_read op) (memArbiter_elsewhere (by rw [space]; decide) s) holds
  have stands (next : List Byte → Nat → Txn) : readTarget s k x none next = (txnWeir s x).1 := by simp only [readTarget, held]
  have e := exec_read at' op
  rw [stands] at e
  exact ⟨_, next_of e runs canonical (only_txnWeir s x) (by simp), only_txnWeir s x⟩

variable (frees : s.ms.frees = []) (granted : Granted s x)
include frees granted

/-- A granted READ brings back the bytes of its source as DATA. -/
theorem read_open (src : ReadOpen s x) (op : x.op = 0) :
    let bad := badPieces s (decide (x.at_.space = 1)) x.at_.addr x.bytes
    ∃ t, exec (.read k none) s = .next t ∧ ReadsOn s t k x bad
      { x with op := 4, data := s.anyRead (decide (x.at_.space = 1)) x.at_.addr x.bytes, bad := bad } := by
  have reads := readTarget_open granted src frees k (fun bs bad => { x with op := 4, data := bs, bad := bad })
  exact ⟨_, next_of (exec_read at' op) runs canonical reads.only (by simp), reads⟩

/-- A granted FETCH sends them on as a WRITE. -/
theorem fetch_open (src : ReadOpen s x) (op : x.op = 1) {d : Dest} (dst : x.dst = some d) :
    let bad := badPieces s (decide (x.at_.space = 1)) x.at_.addr x.bytes
    ∃ t, exec (.fetch k none) s = .next t ∧ ReadsOn s t k x bad
      { x with op := 2, at_ := d, dst := none, data := s.anyRead (decide (x.at_.space = 1)) x.at_.addr x.bytes, bad := bad } := by
  have reads := readTarget_open granted src frees k (fun bs bad => { x with op := 2, at_ := d, dst := none, data := bs, bad := bad })
  exact ⟨_, next_of (exec_fetch at' op dst) runs canonical reads.only (by simp), reads⟩

/-- A READ whose page-table entry was not valid brings free bytes. -/
theorem read_free (op : x.op = 0) (page : x.at_.space = 3) : ∃ t, exec (.read k none) s = .next t ∧ Only [.transactions, .free] s t ∧
    t.ms.txns = s.ms.txns.eraseIdx k ++ [onward x { x with op := 4, data := leBytes x.bytes (Config.freeWord s.free), bad := 0 }] := by
  obtain ⟨only, txns⟩ := readTarget_free granted page frees k (fun bs bad => { x with op := 4, data := bs, bad := bad })
  exact ⟨_, next_of (exec_read at' op) runs canonical only (by simp), only, txns⟩

end

/-- Settles O37: each clause by what the arbiter, or the translation, lets through, and by what then lands. -/
theorem transactionsAtTargets : Obligations.TransactionsAtTargets := by
  unfold Obligations.TransactionsAtTargets
  intro k s x canonical runs at' frees left loc n acked
  refine ⟨fun granted => ⟨fun src => ⟨fun op => ?_, fun d op dst => ?_⟩, read_free canonical runs at' frees granted,
    fun op own => ⟨?_, ?_, ?_, ?_⟩⟩, ?_, ?_, ?_, ?_, ?_, ?_, ?_⟩
  · obtain ⟨t, e, reads⟩ := read_open canonical runs at' frees granted src op
    exact ⟨t, e, reads.only, ⟨reads.clean, reads.seen⟩, reads.txns⟩
  · obtain ⟨t, e, reads⟩ := fetch_open canonical runs at' frees granted src op dst
    exact ⟨t, e, reads.only, ⟨reads.clean, reads.seen⟩, reads.txns⟩
  · exact write_device canonical runs at' granted op own
  · exact write_host canonical runs at' granted op own
  · exact write_host_error canonical runs at' granted op own
  · exact fun _ => write_remote canonical runs at' granted op own
  · exact fun a op _ _ free arb refused => read_waits canonical runs at' op (serve_waits free arb refused)
  · exact fun op behind => write_waits canonical runs at' op (serve_unordered behind)
  · exact read_held canonical runs at'
  · intro p side lane v hp op page fresh away own
    exact ⟨fun pt table entry valid busy => pageWrite_busy canonical runs at' op page fresh away own hp side lane table entry valid busy,
      fun pt table entry valid free unreserved start near ids =>
        pageWrite_valid canonical runs at' op page fresh away own hp side lane table entry valid free unreserved start near ids,
      fun y table transfer more => pageWrite_gone canonical runs at' op page fresh away own hp side lane table transfer more⟩
  · exact fun d op arrived dst => data_writes at' canonical runs frees op arrived dst
  · exact fun y op arrived own transfer => ack_transfer canonical runs at' op arrived own transfer
  · exact fun c op arrived copy find more => ack_copy canonical runs at' op arrived copy find more

end Sys2Proof.MemoryProofs
end
